-- ==== Sys2Proof/Word.lean ====
section
/-! DEFINITION. The word types of the NLW-84 model (R1: bit 0 is the least significant bit). -/

namespace Sys2Proof

/-- One byte of memory. -/
abbrev Byte := BitVec 8

/-- A 64-bit word: an INT value, an instruction word, a physical address as bits. -/
abbrev W64 := BitVec 64

/-- An FP32 pattern. -/
abbrev W32 := BitVec 32

end Sys2Proof
end

