-- ==== Sys2Proof/Syntax.lean ====
section
/-! DEFINITION. The syntax: one constructor of Instr per row of the opcode table.
Rows R79 to R87 are instruction words; the rows of 95_what_each_step_holds are events of the module's units. -/

namespace Sys2Proof

/-- Predicate mode and slot of a word (R52, R63): PM 0b00, 0b01 and 0b10. -/
inductive Pred where
  | always
  | ifTrue (slot : BitVec 7)
  | ifFalse (slot : BitVec 7)
  deriving DecidableEq, Repr

/-- A destination descriptor D (R56). -/
inductive Dst where
  | none
  | g (i : BitVec 6)
  | f (i : BitVec 5)
  | v (i : BitVec 4)
  | c (i : BitVec 3)
  deriving DecidableEq, Repr

/-- An operand descriptor (R54); IMM carries the word's imm19. -/
inductive Opnd where
  | slot (k : BitVec 7)
  | g (i : BitVec 6)
  | f (i : BitVec 5)
  | v (i : BitVec 4)
  | c (i : BitVec 3)
  | imm (x : BitVec 19)
  | zero
  deriving DecidableEq, Repr

/-- Memory scopes (R6), encoded 0 to 7. -/
inductive Scope where
  | core | quad | cluster | die | wafer | pod | host | seq
  deriving DecidableEq, Repr

/-- The ordering fields of the memory/engine form of X (R53, R173). -/
structure MX where
  stream : BitVec 3
  mask : BitVec 8
  scope : Scope
  deriving DecidableEq, Repr

/-- Scalar FP formats (R78): codes 0 to 3. -/
inductive Fmt where
  | f32 | f64 | bf16 | f16
  deriving DecidableEq, Repr

/-- Rounding codes 0 to 5 (R36). -/
inductive Rnd where
  | rne | rtz | rup | rdn | rna | dyn
  deriving DecidableEq, Repr

/-- The type field of the vector forms (R78). -/
inductive VTy where
  | f32 | i32
  deriving DecidableEq, Repr

/-- Type and rounding of the arithmetic vector rows (R83). -/
inductive VArith where
  | f32 (rnd : Rnd)
  | i32
  deriving DecidableEq, Repr

/-- The forms of VMNX (R83, R141). -/
inductive VMnxOp where
  | fmin | fmax | fminm | fmaxm | mins | maxs | minu | maxu
  deriving DecidableEq, Repr

/-- The forms of VCMP (R83, R141). -/
inductive VCmpOp where
  | feq | flt | fle | fun_ | eq | lts | les | ltu | leu
  deriving DecidableEq, Repr

/-- The size field of LD and ST (R84). -/
inductive Size where
  | b8 | b16 | b32 | b64
  deriving DecidableEq, Repr

/-- What CGET selects (R84). -/
inductive CgetSel where
  | cur | base | len | idr
  deriving DecidableEq, Repr

/-- What a parity error struck (R256): an accumulator element or a cell register. -/
inductive ParityAt where
  | acc (row col : Nat)
  | cell (i j : Nat)
  deriving DecidableEq, Repr

/-- The payload of a flit as the receiving cistern reads it (R328, R330, R326, R390): at most 224 bytes of a remote write, or of a chunk that a
ring position contributes, from a byte of it on; a member's stop, with whether R325 stops every member with that code; the report that this
module's contributions have been delivered (R206); an arrival at a pod barrier. -/
inductive FlitBody where
  | write (addr : Nat) (bytes : List Byte)
  | contrib (name : BitVec 64) (k form len crc pos chunk off : Nat) (bytes : List Byte)
  | stop (name : BitVec 64) (k : Nat) (code : BitVec 8) (all : Bool)
  | delivered (name : BitVec 64) (k : Nat)
  | arrive (group count : Nat) (launch : BitVec 32)
  deriving DecidableEq, Repr

/-- A 256-byte flit (R328): its header fields, its payload, and whether its CRC holds. -/
structure Flit where
  dest : Nat
  src : Nat
  hop : Nat
  seq : Nat
  crcOk : Bool
  body : FlitBody
  deriving DecidableEq, Repr

/-- A register written by REGISTER_WRITE: an HW-A offset through a host port (R402), a cistern register (R159), or PAGEANS with fewer than 8 bytes
(R402). -/
inductive RegTarget where
  | hwa (port off : Nat)
  | cistern (die off : Nat)
  | pageansPart (port : Nat)
  deriving DecidableEq, Repr

/-- What the boot finds (R409, R371, R374, R412): which firmware slots verify, the defects, the feature token's 448-byte record, and the bank rows,
by plot, in which the self-test finds a defect. -/
structure SelfTest where
  fwA : Bool
  fwB : Bool
  token : Option (BitVec 3584)
  holes : List Nat
  rowBy : List (Nat × BitVec 16)
  colBy : List (Nat × BitVec 16)
  deadl : List (Nat × BitVec 4)
  rows : List (Nat × Nat)
  deriving DecidableEq, Repr

/-- An item of telemetry (R413, R23). -/
inductive Telemetry where
  | heat (pcol : Nat) | psCur | boot | alarm | supply | wstale (die : Nat) | mapHeader (word : Nat) | sensor (plot : Nat)
  deriving DecidableEq, Repr

/-- The ONE inductive of instructions and events. -/
inductive Instr where
  /-- ADD (R99). -/
  | add (p : Pred) (d : Dst) (a : Opnd) (b : Opnd)
  /-- ADDW (R99). -/
  | addw (p : Pred) (d : Dst) (a : Opnd) (b : Opnd)
  /-- ADDS (R99). -/
  | adds (p : Pred) (d : Dst) (a : Opnd) (b : Opnd)
  /-- ADDU (R99). -/
  | addu (p : Pred) (d : Dst) (a : Opnd) (b : Opnd)
  /-- SUB (R99). -/
  | sub (p : Pred) (d : Dst) (a : Opnd) (b : Opnd)
  /-- SUBW (R99). -/
  | subw (p : Pred) (d : Dst) (a : Opnd) (b : Opnd)
  /-- SUBS (R99). -/
  | subs (p : Pred) (d : Dst) (a : Opnd) (b : Opnd)
  /-- SUBU (R99). -/
  | subu (p : Pred) (d : Dst) (a : Opnd) (b : Opnd)
  /-- MUL (R100). -/
  | mul (p : Pred) (d : Dst) (a : Opnd) (b : Opnd)
  /-- MULW (R100). -/
  | mulw (p : Pred) (d : Dst) (a : Opnd) (b : Opnd)
  /-- MULHS (R100). -/
  | mulhs (p : Pred) (d : Dst) (a : Opnd) (b : Opnd)
  /-- MULHU (R100). -/
  | mulhu (p : Pred) (d : Dst) (a : Opnd) (b : Opnd)
  /-- DIVS (R101). -/
  | divs (p : Pred) (d : Dst) (a : Opnd) (b : Opnd)
  /-- DIVU (R101). -/
  | divu (p : Pred) (d : Dst) (a : Opnd) (b : Opnd)
  /-- REMS (R101). -/
  | rems (p : Pred) (d : Dst) (a : Opnd) (b : Opnd)
  /-- REMU (R101). -/
  | remu (p : Pred) (d : Dst) (a : Opnd) (b : Opnd)
  /-- AND (R102). -/
  | andI (p : Pred) (d : Dst) (a : Opnd) (b : Opnd)
  /-- OR (R102). -/
  | orI (p : Pred) (d : Dst) (a : Opnd) (b : Opnd)
  /-- XOR (R102). -/
  | xorI (p : Pred) (d : Dst) (a : Opnd) (b : Opnd)
  /-- ANDN (R102). -/
  | andn (p : Pred) (d : Dst) (a : Opnd) (b : Opnd)
  /-- ORN (R102). -/
  | orn (p : Pred) (d : Dst) (a : Opnd) (b : Opnd)
  /-- XNOR (R102). -/
  | xnor (p : Pred) (d : Dst) (a : Opnd) (b : Opnd)
  /-- SHL (R102). -/
  | shl (p : Pred) (d : Dst) (a : Opnd) (b : Opnd)
  /-- SHR (R102). -/
  | shr (p : Pred) (d : Dst) (a : Opnd) (b : Opnd)
  /-- SRA (R102). -/
  | sra (p : Pred) (d : Dst) (a : Opnd) (b : Opnd)
  /-- ROR (R102). -/
  | ror (p : Pred) (d : Dst) (a : Opnd) (b : Opnd)
  /-- MINS (R102). -/
  | mins (p : Pred) (d : Dst) (a : Opnd) (b : Opnd)
  /-- MINU (R102). -/
  | minu (p : Pred) (d : Dst) (a : Opnd) (b : Opnd)
  /-- MAXS (R102). -/
  | maxs (p : Pred) (d : Dst) (a : Opnd) (b : Opnd)
  /-- MAXU (R102). -/
  | maxu (p : Pred) (d : Dst) (a : Opnd) (b : Opnd)
  /-- CLZ (R103). -/
  | clz (p : Pred) (d : Dst) (a : Opnd)
  /-- CTZ (R103). -/
  | ctz (p : Pred) (d : Dst) (a : Opnd)
  /-- POPC (R103). -/
  | popc (p : Pred) (d : Dst) (a : Opnd)
  /-- BREV (R103). -/
  | brev (p : Pred) (d : Dst) (a : Opnd)
  /-- BSWAP (R103). -/
  | bswap (p : Pred) (d : Dst) (a : Opnd)
  /-- MOVI (R104). -/
  | movi (p : Pred) (d : Dst) (x : BitVec 19)
  /-- MOVX (R104). -/
  | movx (p : Pred) (d : Dst) (a : Opnd) (x : BitVec 19)
  /-- EXTU (R105). -/
  | extu (p : Pred) (d : Dst) (a : Opnd) (b : Opnd)
  /-- EXTS (R105). -/
  | exts (p : Pred) (d : Dst) (a : Opnd) (b : Opnd)
  /-- INS (R105). -/
  | ins (p : Pred) (d : Dst) (a : Opnd) (b : Opnd) (pos : BitVec 6) (len : BitVec 6)
  /-- CMP_EQ (R106). -/
  | cmpEq (p : Pred) (d : Dst) (a : Opnd) (b : Opnd)
  /-- CMP_NE (R106). -/
  | cmpNe (p : Pred) (d : Dst) (a : Opnd) (b : Opnd)
  /-- CMP_LTS (R106). -/
  | cmpLts (p : Pred) (d : Dst) (a : Opnd) (b : Opnd)
  /-- CMP_LES (R106). -/
  | cmpLes (p : Pred) (d : Dst) (a : Opnd) (b : Opnd)
  /-- CMP_LTU (R106). -/
  | cmpLtu (p : Pred) (d : Dst) (a : Opnd) (b : Opnd)
  /-- CMP_LEU (R106). -/
  | cmpLeu (p : Pred) (d : Dst) (a : Opnd) (b : Opnd)
  /-- SEL (R107). -/
  | sel (p : Pred) (d : Dst) (a : Opnd) (b : Opnd) (c : Opnd)
  /-- PAND (R108). -/
  | pand (p : Pred) (d : Dst) (a : Opnd) (b : Opnd)
  /-- POR (R108). -/
  | por (p : Pred) (d : Dst) (a : Opnd) (b : Opnd)
  /-- PXOR (R108). -/
  | pxor (p : Pred) (d : Dst) (a : Opnd) (b : Opnd)
  /-- PNOT (R108). -/
  | pnot (p : Pred) (d : Dst) (a : Opnd)
  /-- TSTNZ (R108). -/
  | tstnz (p : Pred) (d : Dst) (a : Opnd)
  /-- MOV (R109). -/
  | mov (p : Pred) (d : Dst) (a : Opnd)
  /-- MOVGF (R109). -/
  | movgf (p : Pred) (d : Dst) (a : Opnd)
  /-- MOVFG (R109). -/
  | movfg (p : Pred) (d : Dst) (a : Opnd)
  /-- BR (R110). -/
  | br (p : Pred) (x : BitVec 19)
  /-- BRX (R111). -/
  | brx (p : Pred) (a : Opnd)
  /-- CALL (R112). -/
  | call (p : Pred) (link : BitVec 6) (x : BitVec 19)
  /-- RET (R111). -/
  | ret (p : Pred) (a : Opnd)
  /-- ENDT (R113). -/
  | endt (p : Pred)
  /-- YIELD (R114). -/
  | yieldT (p : Pred)
  /-- PARK (R115). -/
  | park (p : Pred) (a : Opnd)
  /-- TRAP (R116). -/
  | trap (p : Pred) (n : BitVec 8)
  /-- RDS (R119). -/
  | rds (p : Pred) (d : Dst) (num : BitVec 12)
  /-- WRS (R119). -/
  | wrs (p : Pred) (num : BitVec 12) (a : Opnd)
  /-- TRET (R118). -/
  | tret (p : Pred)
  /-- TRET_AT (R118). -/
  | tretAt (p : Pred) (b : Opnd)
  /-- FADD (R123). -/
  | fadd (p : Pred) (d : Dst) (fmt : Fmt) (rnd : Rnd) (a : Opnd) (b : Opnd)
  /-- FSUB (R123). -/
  | fsub (p : Pred) (d : Dst) (fmt : Fmt) (rnd : Rnd) (a : Opnd) (b : Opnd)
  /-- FMUL (R123). -/
  | fmul (p : Pred) (d : Dst) (fmt : Fmt) (rnd : Rnd) (a : Opnd) (b : Opnd)
  /-- FFMA (R124). -/
  | ffma (p : Pred) (d : Dst) (fmt : Fmt) (rnd : Rnd) (a : Opnd) (b : Opnd) (c : Opnd)
  /-- FDIV (R123). -/
  | fdiv (p : Pred) (d : Dst) (fmt : Fmt) (rnd : Rnd) (a : Opnd) (b : Opnd)
  /-- FSQRT (R125). -/
  | fsqrt (p : Pred) (d : Dst) (fmt : Fmt) (rnd : Rnd) (a : Opnd)
  /-- FMIN (R128). -/
  | fmin (p : Pred) (d : Dst) (fmt : Fmt) (a : Opnd) (b : Opnd)
  /-- FMAX (R128). -/
  | fmax (p : Pred) (d : Dst) (fmt : Fmt) (a : Opnd) (b : Opnd)
  /-- FMINM (R128). -/
  | fminm (p : Pred) (d : Dst) (fmt : Fmt) (a : Opnd) (b : Opnd)
  /-- FMAXM (R128). -/
  | fmaxm (p : Pred) (d : Dst) (fmt : Fmt) (a : Opnd) (b : Opnd)
  /-- FCMP_EQ (R129). -/
  | fcmpEq (p : Pred) (d : Dst) (fmt : Fmt) (a : Opnd) (b : Opnd)
  /-- FCMP_LT (R129). -/
  | fcmpLt (p : Pred) (d : Dst) (fmt : Fmt) (a : Opnd) (b : Opnd)
  /-- FCMP_LE (R129). -/
  | fcmpLe (p : Pred) (d : Dst) (fmt : Fmt) (a : Opnd) (b : Opnd)
  /-- FCMP_UN (R129). -/
  | fcmpUn (p : Pred) (d : Dst) (fmt : Fmt) (a : Opnd) (b : Opnd)
  /-- FCMP_EQS (R129). -/
  | fcmpEqs (p : Pred) (d : Dst) (fmt : Fmt) (a : Opnd) (b : Opnd)
  /-- FCVT (R130). -/
  | fcvt (p : Pred) (d : Dst) (dst : Fmt) (src : Fmt) (rnd : Rnd) (a : Opnd)
  /-- FCVI_FS (R131). -/
  | fcviFs (p : Pred) (d : Dst) (fmt : Fmt) (rnd : Rnd) (a : Opnd)
  /-- FCVI_FU (R131). -/
  | fcviFu (p : Pred) (d : Dst) (fmt : Fmt) (rnd : Rnd) (a : Opnd)
  /-- FCVI_SF (R131). -/
  | fcviSf (p : Pred) (d : Dst) (fmt : Fmt) (rnd : Rnd) (a : Opnd)
  /-- FCVI_UF (R131). -/
  | fcviUf (p : Pred) (d : Dst) (fmt : Fmt) (rnd : Rnd) (a : Opnd)
  /-- FABS (R132). -/
  | fabs (p : Pred) (d : Dst) (fmt : Fmt) (a : Opnd)
  /-- FNEG (R132). -/
  | fneg (p : Pred) (d : Dst) (fmt : Fmt) (a : Opnd)
  /-- FCPS (R132). -/
  | fcps (p : Pred) (d : Dst) (fmt : Fmt) (a : Opnd) (b : Opnd)
  /-- FSIGR (R134). -/
  | fsigr (p : Pred) (d : Dst) (fmt : Fmt) (a : Opnd)
  /-- FSIGW (R134). -/
  | fsigw (p : Pred) (d : Dst) (fmt : Fmt) (a : Opnd) (b : Opnd)
  /-- FSIGLT (R134). -/
  | fsiglt (p : Pred) (d : Dst) (fmt : Fmt) (a : Opnd) (b : Opnd)
  /-- FRCP (R135). -/
  | frcp (p : Pred) (d : Dst) (fmt : Fmt) (a : Opnd)
  /-- FRSQ (R135). -/
  | frsq (p : Pred) (d : Dst) (fmt : Fmt) (a : Opnd)
  /-- FEX2 (R135). -/
  | fex2 (p : Pred) (d : Dst) (fmt : Fmt) (a : Opnd)
  /-- FLG2 (R135). -/
  | flg2 (p : Pred) (d : Dst) (fmt : Fmt) (a : Opnd)
  /-- FCLS (R133). -/
  | fcls (p : Pred) (d : Dst) (fmt : Fmt) (a : Opnd)
  /-- VADD (R140). -/
  | vadd (p : Pred) (d : Dst) (t : VArith) (a : Opnd) (b : Opnd)
  /-- VSUB (R140). -/
  | vsub (p : Pred) (d : Dst) (t : VArith) (a : Opnd) (b : Opnd)
  /-- VMUL (R140). -/
  | vmul (p : Pred) (d : Dst) (t : VArith) (a : Opnd) (b : Opnd)
  /-- VFMA (R140). -/
  | vfma (p : Pred) (d : Dst) (t : VArith) (a : Opnd) (b : Opnd) (c : Opnd)
  /-- VSCL (R140). -/
  | vscl (p : Pred) (d : Dst) (t : VArith) (a : Opnd) (b : Opnd)
  /-- VMNX (R141). -/
  | vmnx (p : Pred) (d : Dst) (k : VMnxOp) (a : Opnd) (b : Opnd)
  /-- VCMP (R141). -/
  | vcmp (p : Pred) (d : Dst) (k : VCmpOp) (a : Opnd) (b : Opnd)
  /-- VSEL_SET (R141). -/
  | vselSet (p : Pred) (d : Dst) (a : Opnd) (b : Opnd)
  /-- VSEL_CLR (R141). -/
  | vselClr (p : Pred) (d : Dst) (a : Opnd) (b : Opnd)
  /-- VRED_SUM (R142). -/
  | vredSum (p : Pred) (d : Dst) (a : Opnd)
  /-- VRED_MAX (R142). -/
  | vredMax (p : Pred) (d : Dst) (a : Opnd)
  /-- VRED_MIN (R142). -/
  | vredMin (p : Pred) (d : Dst) (a : Opnd)
  /-- VRED_AMAX (R142). -/
  | vredAmax (p : Pred) (d : Dst) (a : Opnd)
  /-- VBC (R143). -/
  | vbc (p : Pred) (d : Dst) (t : VTy) (a : Opnd)
  /-- VPERM (R143). -/
  | vperm (p : Pred) (d : Dst) (a : Opnd) (b : Opnd)
  /-- VEXT (R143). -/
  | vext (p : Pred) (d : Dst) (t : VTy) (a : Opnd) (b : Opnd)
  /-- VINS (R143). -/
  | vins (p : Pred) (d : Dst) (t : VTy) (lane : BitVec 4) (a : Opnd) (b : Opnd)
  /-- VIDX (R143). -/
  | vidx (p : Pred) (d : Dst)
  /-- VSHR (R143). -/
  | vshr (p : Pred) (d : Dst) (a : Opnd) (b : Opnd)
  /-- VAND (R144). -/
  | vand (p : Pred) (d : Dst) (a : Opnd) (b : Opnd)
  /-- VOR (R144). -/
  | vor (p : Pred) (d : Dst) (a : Opnd) (b : Opnd)
  /-- VXOR (R144). -/
  | vxor (p : Pred) (d : Dst) (a : Opnd) (b : Opnd)
  /-- VSHL (R144). -/
  | vshl (p : Pred) (d : Dst) (a : Opnd) (b : Opnd)
  /-- VSHRL (R144). -/
  | vshrl (p : Pred) (d : Dst) (a : Opnd) (b : Opnd)
  /-- VSRA (R144). -/
  | vsra (p : Pred) (d : Dst) (a : Opnd) (b : Opnd)
  /-- VACT_RELU (R145). -/
  | vactRelu (p : Pred) (d : Dst) (a : Opnd)
  /-- VACT_GELT (R145). -/
  | vactGelt (p : Pred) (d : Dst) (a : Opnd)
  /-- VACT_SILU (R145). -/
  | vactSilu (p : Pred) (d : Dst) (a : Opnd)
  /-- VACT_EXP (R145). -/
  | vactExp (p : Pred) (d : Dst) (a : Opnd)
  /-- VACT_TANH (R145). -/
  | vactTanh (p : Pred) (d : Dst) (a : Opnd)
  /-- VACT_SIGM (R145). -/
  | vactSigm (p : Pred) (d : Dst) (a : Opnd)
  /-- VACT_RCP (R145). -/
  | vactRcp (p : Pred) (d : Dst) (a : Opnd)
  /-- VACT_RSQ (R145). -/
  | vactRsq (p : Pred) (d : Dst) (a : Opnd)
  /-- VCVT_BF16_F32 (R146). -/
  | vcvtBf16F32 (p : Pred) (d : Dst) (a : Opnd)
  /-- VCVT_F32_BF16 (R146). -/
  | vcvtF32Bf16 (p : Pred) (d : Dst) (a : Opnd)
  /-- VCVT_F16_F32 (R146). -/
  | vcvtF16F32 (p : Pred) (d : Dst) (a : Opnd)
  /-- VCVT_F32_F16 (R146). -/
  | vcvtF32F16 (p : Pred) (d : Dst) (a : Opnd)
  /-- VCVT_I32_F32 (R146). -/
  | vcvtI32F32 (p : Pred) (d : Dst) (a : Opnd)
  /-- VCVT_F32_I32 (R146). -/
  | vcvtF32I32 (p : Pred) (d : Dst) (a : Opnd)
  /-- VCVT_E5M2_F32 (R146). -/
  | vcvtE5m2F32 (p : Pred) (d : Dst) (a : Opnd)
  /-- VCVT_F32_E5M2 (R146). -/
  | vcvtF32E5m2 (p : Pred) (d : Dst) (a : Opnd)
  /-- VCVT_F32_E4M3 (R146). -/
  | vcvtF32E4m3 (p : Pred) (d : Dst) (a : Opnd)
  /-- VQNT_E4M3_SAT (R147). -/
  | vqntE4m3Sat (p : Pred) (d : Dst) (a : Opnd) (b : Opnd)
  /-- VQNT_E4M3_NAN (R147). -/
  | vqntE4m3Nan (p : Pred) (d : Dst) (a : Opnd) (b : Opnd)
  /-- VQNT_INT8 (R147). -/
  | vqntInt8 (p : Pred) (d : Dst) (a : Opnd) (b : Opnd)
  /-- VQNT_INT4 (R147). -/
  | vqntInt4 (p : Pred) (d : Dst) (a : Opnd) (b : Opnd)
  /-- VQNT_MXFP4 (R148). -/
  | vqntMxfp4 (p : Pred) (d : Dst) (a : Opnd) (b : Opnd)
  /-- VQNT_MXINT8 (R148). -/
  | vqntMxint8 (p : Pred) (d : Dst) (a : Opnd) (b : Opnd)
  /-- VQNT_MXFP8 (R148). -/
  | vqntMxfp8 (p : Pred) (d : Dst) (a : Opnd) (b : Opnd)
  /-- VDQ_E4M3_SAT (R149). -/
  | vdqE4m3Sat (p : Pred) (d : Dst) (a : Opnd) (b : Opnd)
  /-- VDQ_E4M3_NAN (R149). -/
  | vdqE4m3Nan (p : Pred) (d : Dst) (a : Opnd) (b : Opnd)
  /-- VDQ_INT8 (R149). -/
  | vdqInt8 (p : Pred) (d : Dst) (a : Opnd) (b : Opnd)
  /-- VDQ_INT4 (R149). -/
  | vdqInt4 (p : Pred) (d : Dst) (a : Opnd) (b : Opnd)
  /-- VDQ_MXFP4 (R150). -/
  | vdqMxfp4 (p : Pred) (d : Dst) (hi : Bool) (a : Opnd)
  /-- VDQ_MXINT8 (R150). -/
  | vdqMxint8 (p : Pred) (d : Dst) (hi : Bool) (a : Opnd)
  /-- VDQ_MXFP8 (R150). -/
  | vdqMxfp8 (p : Pred) (d : Dst) (hi : Bool) (a : Opnd)
  /-- VSIG_RD (R151). -/
  | vsigRd (p : Pred) (d : Dst) (a : Opnd)
  /-- VSIG_MIN (R151). -/
  | vsigMin (p : Pred) (d : Dst) (a : Opnd) (b : Opnd)
  /-- VSIG_LT (R151). -/
  | vsigLt (p : Pred) (d : Dst) (a : Opnd) (b : Opnd)
  /-- LD (R180). -/
  | ld (p : Pred) (d : Dst) (mx : MX) (sz : Size) (sgn : Bool) (a : Opnd) (b : Opnd)
  /-- LD_WAITF (R180). -/
  | ldWaitf (p : Pred) (d : Dst) (mx : MX) (sz : Size) (sgn : Bool) (a : Opnd) (b : Opnd)
  /-- LD_TAKE (R180). -/
  | ldTake (p : Pred) (d : Dst) (mx : MX) (sz : Size) (sgn : Bool) (a : Opnd) (b : Opnd)
  /-- LD_PRES (R180). -/
  | ldPres (p : Pred) (d : Dst) (mx : MX) (sz : Size) (a : Opnd) (b : Opnd)
  /-- ST (R182). -/
  | st (p : Pred) (mx : MX) (sz : Size) (a : Opnd) (b : Opnd) (c : Opnd)
  /-- ST_FILL (R182). -/
  | stFill (p : Pred) (mx : MX) (sz : Size) (a : Opnd) (b : Opnd) (c : Opnd)
  /-- ST_SETF (R182). -/
  | stSetf (p : Pred) (mx : MX) (sz : Size) (a : Opnd) (b : Opnd) (c : Opnd)
  /-- ST_CLRE (R182). -/
  | stClre (p : Pred) (mx : MX) (sz : Size) (a : Opnd) (b : Opnd) (c : Opnd)
  /-- FLS_LD (R183). -/
  | flsLd (p : Pred) (d : Dst) (mx : MX) (fmt : Fmt) (tagged : Bool) (a : Opnd) (b : Opnd)
  /-- FLS_LD_WAITF (R183). -/
  | flsLdWaitf (p : Pred) (d : Dst) (mx : MX) (fmt : Fmt) (tagged : Bool) (a : Opnd) (b : Opnd)
  /-- FLS_ST (R183). -/
  | flsSt (p : Pred) (mx : MX) (fmt : Fmt) (tagged : Bool) (a : Opnd) (b : Opnd) (c : Opnd)
  /-- FLS_ST_FILL (R183). -/
  | flsStFill (p : Pred) (mx : MX) (fmt : Fmt) (tagged : Bool) (a : Opnd) (b : Opnd) (c : Opnd)
  /-- VLS_LD (R184). -/
  | vlsLd (p : Pred) (d : Dst) (mx : MX) (tagged : Bool) (a : Opnd) (b : Opnd)
  /-- VLS_LD_WAITF (R184). -/
  | vlsLdWaitf (p : Pred) (d : Dst) (mx : MX) (tagged : Bool) (a : Opnd) (b : Opnd)
  /-- VLS_LD_TAKE (R184). -/
  | vlsLdTake (p : Pred) (d : Dst) (mx : MX) (tagged : Bool) (a : Opnd) (b : Opnd)
  /-- VLS_ST (R184). -/
  | vlsSt (p : Pred) (mx : MX) (tagged : Bool) (a : Opnd) (b : Opnd) (c : Opnd)
  /-- VLS_ST_FILL (R184). -/
  | vlsStFill (p : Pred) (mx : MX) (tagged : Bool) (a : Opnd) (b : Opnd) (c : Opnd)
  /-- VLS_ST_SETF (R184). -/
  | vlsStSetf (p : Pred) (mx : MX) (tagged : Bool) (a : Opnd) (b : Opnd) (c : Opnd)
  /-- VLS_ST_CLRE (R184). -/
  | vlsStClre (p : Pred) (mx : MX) (tagged : Bool) (a : Opnd) (b : Opnd) (c : Opnd)
  /-- AMO_ADD (R185). -/
  | amoAdd (p : Pred) (d : Dst) (mx : MX) (wide : Bool) (a : Opnd) (b : Opnd)
  /-- AMO_AND (R185). -/
  | amoAnd (p : Pred) (d : Dst) (mx : MX) (wide : Bool) (a : Opnd) (b : Opnd)
  /-- AMO_OR (R185). -/
  | amoOr (p : Pred) (d : Dst) (mx : MX) (wide : Bool) (a : Opnd) (b : Opnd)
  /-- AMO_XOR (R185). -/
  | amoXor (p : Pred) (d : Dst) (mx : MX) (wide : Bool) (a : Opnd) (b : Opnd)
  /-- AMO_MINS (R185). -/
  | amoMins (p : Pred) (d : Dst) (mx : MX) (wide : Bool) (a : Opnd) (b : Opnd)
  /-- AMO_MAXS (R185). -/
  | amoMaxs (p : Pred) (d : Dst) (mx : MX) (wide : Bool) (a : Opnd) (b : Opnd)
  /-- AMO_MINU (R185). -/
  | amoMinu (p : Pred) (d : Dst) (mx : MX) (wide : Bool) (a : Opnd) (b : Opnd)
  /-- AMO_MAXU (R185). -/
  | amoMaxu (p : Pred) (d : Dst) (mx : MX) (wide : Bool) (a : Opnd) (b : Opnd)
  /-- AMO_XCHG (R185). -/
  | amoXchg (p : Pred) (d : Dst) (mx : MX) (wide : Bool) (a : Opnd) (b : Opnd)
  /-- AMO_FADD32 (R185). -/
  | amoFadd32 (p : Pred) (d : Dst) (mx : MX) (a : Opnd) (b : Opnd)
  /-- AMO_FMAX32 (R185). -/
  | amoFmax32 (p : Pred) (d : Dst) (mx : MX) (a : Opnd) (b : Opnd)
  /-- AMO_FMIN32 (R185). -/
  | amoFmin32 (p : Pred) (d : Dst) (mx : MX) (a : Opnd) (b : Opnd)
  /-- CAS_32 (R186). -/
  | cas32 (p : Pred) (d : Dst) (mx : MX) (a : Opnd) (b : Opnd)
  /-- CAS_64 (R186). -/
  | cas64 (p : Pred) (d : Dst) (mx : MX) (a : Opnd) (pair : BitVec 5)
  /-- PTR (R187). -/
  | ptr (p : Pred) (d : Dst) (a : Opnd) (b : Opnd)
  /-- PADD (R187). -/
  | padd (p : Pred) (d : Dst) (a : Opnd) (b : Opnd)
  /-- CDER (R187). -/
  | cder (p : Pred) (d : Dst) (a : Opnd) (b : Opnd)
  /-- CGET (R187). -/
  | cget (p : Pred) (d : Dst) (w : CgetSel) (a : Opnd)
  /-- CLD (R188). -/
  | cld (p : Pred) (d : Dst) (mx : MX) (a : Opnd) (b : Opnd)
  /-- CST (R188). -/
  | cst (p : Pred) (mx : MX) (a : Opnd) (b : Opnd) (c : Opnd)
  /-- PRB_R (R189). -/
  | prbR (p : Pred) (d : Dst) (a : Opnd) (b : Opnd)
  /-- PRB_W (R189). -/
  | prbW (p : Pred) (d : Dst) (a : Opnd) (b : Opnd)
  /-- XCPY (R316). -/
  | xcpy (p : Pred) (mx : MX) (a : Opnd) (b : Opnd) (c : Opnd)
  /-- XCHN (R319). -/
  | xchn (p : Pred) (mx : MX) (a : Opnd) (c : Opnd)
  /-- XRED (R321). -/
  | xred (p : Pred) (mx : MX) (a : Opnd) (b : Opnd) (c : Opnd)
  /-- XCOL_ALLRED_SUM (R325). -/
  | xcolAllredSum (p : Pred) (mx : MX) (a : Opnd) (c : Opnd)
  /-- XCOL_ALLRED_MAX (R325). -/
  | xcolAllredMax (p : Pred) (mx : MX) (a : Opnd) (c : Opnd)
  /-- XCOL_ALLGATH (R325). -/
  | xcolAllgath (p : Pred) (mx : MX) (a : Opnd) (c : Opnd)
  /-- XCOL_REDSCAT_SUM (R325). -/
  | xcolRedscatSum (p : Pred) (mx : MX) (a : Opnd) (c : Opnd)
  /-- XCOL_BCAST (R325). -/
  | xcolBcast (p : Pred) (mx : MX) (a : Opnd) (c : Opnd)
  /-- XREG_REG (R324). -/
  | xregReg (p : Pred) (mx : MX) (a : Opnd) (b : Opnd)
  /-- XREG_REL (R324). -/
  | xregRel (p : Pred) (mx : MX) (a : Opnd)
  /-- CFG_CONF (R273). -/
  | cfgConf (p : Pred) (d : Dst) (mx : MX) (a : Opnd) (b : Opnd)
  /-- CFG_FREL (R275). -/
  | cfgFrel (p : Pred) (mx : MX) (a : Opnd)
  /-- CFG_FQRY (R276). -/
  | cfgFqry (p : Pred) (d : Dst) (a : Opnd)
  /-- FEED (R277). -/
  | feed (p : Pred) (mx : MX) (fin : Bool) (swap : Bool) (eos : Bool) (a : Opnd) (b : Opnd)
  /-- WLD (R278). -/
  | wld (p : Pred) (mx : MX) (a : Opnd) (b : Opnd)
  /-- DRN_POP (R280). -/
  | drnPop (p : Pred) (d : Dst) (a : Opnd)
  /-- DRN_LAST (R280). -/
  | drnLast (p : Pred) (d : Dst) (a : Opnd)
  /-- DRN_PEEK (R280). -/
  | drnPeek (p : Pred) (d : Dst) (a : Opnd)
  /-- ACC_ACLR (R282). -/
  | accAclr (p : Pred) (a : Opnd)
  /-- ACC_ASTA (R282). -/
  | accAsta (p : Pred) (d : Dst) (a : Opnd)
  /-- ADM_ASET (R283). -/
  | admAset (p : Pred) (a : Opnd) (b : Opnd)
  /-- ADM_ARD (R283). -/
  | admArd (p : Pred) (d : Dst) (a : Opnd)
  /-- CHS_INT (R298). -/
  | chsInt (p : Pred) (a : Opnd) (b : Opnd)
  /-- CHS_FP (R298). -/
  | chsFp (p : Pred) (a : Opnd) (b : Opnd)
  /-- CHS_VEC (R298). -/
  | chsVec (p : Pred) (a : Opnd) (b : Opnd)
  /-- CHS_EOS (R298). -/
  | chsEos (p : Pred) (a : Opnd)
  /-- CHS_MARK (R298). -/
  | chsMark (p : Pred) (a : Opnd) (b : Opnd)
  /-- CHR_INT (R299). -/
  | chrInt (p : Pred) (d : Dst) (a : Opnd)
  /-- CHR_FP (R299). -/
  | chrFp (p : Pred) (d : Dst) (a : Opnd)
  /-- CHR_VEC (R299). -/
  | chrVec (p : Pred) (d : Dst) (a : Opnd)
  /-- CHR_END (R299). -/
  | chrEnd (p : Pred) (d : Dst) (a : Opnd)
  /-- CHR_STAT (R300). -/
  | chrStat (p : Pred) (d : Dst) (a : Opnd)
  /-- CHR_LAT (R301). -/
  | chrLat (p : Pred) (d : Dst) (a : Opnd)
  /-- CHC_BIND (R302). -/
  | chcBind (p : Pred) (a : Opnd) (b : Opnd)
  /-- CHC_CRED (R302). -/
  | chcCred (p : Pred) (a : Opnd) (b : Opnd)
  /-- CHC_SPST (R302). -/
  | chcSpst (p : Pred) (a : Opnd) (b : Opnd)
  /-- SEM_SSIG (R386). -/
  | semSsig (p : Pred) (a : Opnd) (b : Opnd)
  /-- SEM_SSIGR (R386). -/
  | semSsigr (p : Pred) (a : Opnd) (b : Opnd)
  /-- SEM_SWAIT (R387). -/
  | semSwait (p : Pred) (d : Dst) (a : Opnd) (b : Opnd)
  /-- SEM_SWAITD (R387). -/
  | semSwaitd (p : Pred) (d : Dst) (a : Opnd) (b : Opnd)
  /-- SEM_SSET (R386). -/
  | semSset (p : Pred) (a : Opnd) (b : Opnd)
  /-- SEM_SRD (R388). -/
  | semSrd (p : Pred) (d : Dst) (a : Opnd)
  /-- BARA (R392). -/
  | bara (p : Pred) (d : Dst) (a : Opnd)
  /-- BARW (R393). -/
  | barw (p : Pred) (d : Dst) (a : Opnd) (b : Opnd)
  /-- TASK_SPAWN (R346). -/
  | taskSpawn (p : Pred) (d : Dst) (a : Opnd) (b : Opnd)
  /-- TASK_WAKE (R347). -/
  | taskWake (p : Pred) (a : Opnd) (b : Opnd)
  /-- TASK_SPRI (R347). -/
  | taskSpri (p : Pred) (a : Opnd) (b : Opnd)
  /-- TASK_TSTAT (R347). -/
  | taskTstat (p : Pred) (d : Dst) (a : Opnd)
  /-- CTX_CSAVE (R231). -/
  | ctxCsave (p : Pred) (mx : MX) (a : Opnd) (b : Opnd)
  /-- CTX_CREST (R232). -/
  | ctxCrest (p : Pred) (mx : MX) (a : Opnd) (b : Opnd)
  /-- OTC_INVO (R365). -/
  | otcInvo (p : Pred) (a : Opnd)
  /-- OTC_INVA (R365). -/
  | otcInva (p : Pred) (a : Opnd)
  /-- OTC_PIN (R366). -/
  | otcPin (p : Pred) (a : Opnd) (b : Opnd)
  /-- TBLW_ROUTE (R370). -/
  | tblwRoute (p : Pred) (mx : MX) (a : Opnd) (b : Opnd)
  /-- TBLW_NAME (R377). -/
  | tblwName (p : Pred) (mx : MX) (a : Opnd) (b : Opnd)
  /-- TBLW_HEAT (R379). -/
  | tblwHeat (p : Pred) (mx : MX) (a : Opnd) (b : Opnd)
  /-- TBLW_ADMC (R380). -/
  | tblwAdmc (p : Pred) (mx : MX) (a : Opnd) (b : Opnd)
  /-- HALTC (R354). -/
  | haltc (p : Pred) (a : Opnd)
  /-- POWER_ON (R409). -/
  | powerOn (t : SelfTest)
  /-- WAFER_TIME_BROADCAST (R23). -/
  | waferTimeBroadcast (die : Nat) (time : BitVec 64)
  /-- WSTALE (R23). -/
  | wstale (die : Nat)
  /-- TASK_SELECT (R344). -/
  | taskSelect (plot : Nat) (half : Bool)
  /-- BLOCK_MAP (R60). -/
  | blockMap (plot : Nat) (half : Bool)
  /-- BLOCK_COMMIT (R68). -/
  | blockCommit (plot : Nat) (half : Bool)
  /-- GATE_PARK (R66). -/
  | gatePark (plot : Nat) (half : Bool)
  /-- WDOG (R218). -/
  | wdog (plot : Nat) (half : Bool)
  /-- COMMIT_OP_PERFORM (R194). -/
  | commitOpPerform (plot : Nat) (task : Nat) (serial : Nat) (pick : Nat)
  /-- SC_TOKEN_ARRIVE (R209). -/
  | scTokenArrive (die : Nat)
  /-- ENGINE_START (R312). -/
  | engineStart (cmd : Nat)
  /-- COPY_CHUNK (R316). -/
  | copyChunk (cmd : Nat)
  /-- XCHN_RECORD (R319). -/
  | xchnRecord (cmd : Nat)
  /-- XRED_ROW (R321). -/
  | xredRow (cmd : Nat)
  /-- COLLECTIVE_CHUNK (R326). -/
  | collectiveChunk (cmd : Nat)
  /-- FLIT_RECEIVE (R328). -/
  | flitReceive (port : Nat) (flit : Flit)
  /-- PORT_LINK_DOWN (R328). -/
  | portLinkDown (port : Nat)
  /-- PASS_RELEASE (R277). -/
  | passRelease (handle : Nat)
  /-- FEEDER_ROW_RELEASE (R244). -/
  | feederRowRelease (plot : Nat) (row : Nat)
  /-- CELL_FIRE (R242). -/
  | cellFire (plot : Nat) (i : Nat) (j : Nat)
  /-- LOADER_WORD_WRITE (R268). -/
  | loaderWordWrite (plot : Nat) (pick : Nat)
  /-- ACC_ROW_WRITE (R253). -/
  | accRowWrite (plot : Nat) (col : Nat)
  /-- DRAIN_WRITER_ROW (R269). -/
  | drainWriterRow (plot : Nat) (tile : Nat)
  /-- ACC_PARITY_ERROR (R256). -/
  | accParityError (plot : Nat) (where_ : ParityAt)
  /-- ADM_WINDOW (R258). -/
  | admWindow (die : Nat)
  /-- RILL_ITEM_SEND (R290). -/
  | rillItemSend (plot : Nat) (entry : Nat)
  /-- RILL_ITEM_ARRIVE (R290). -/
  | rillItemArrive (plot : Nat) (entry : Nat) (jin : Bool)
  /-- CONVERTER_TAKE (R432). -/
  | converterTake (plot : Nat) (entry : Nat) (jin : Bool)
  /-- CREDIT_ARRIVE (R290). -/
  | creditArrive (plot : Nat) (entry : Nat)
  /-- JOIN_MERGE (R294). -/
  | joinMerge (plot : Nat) (entry : Nat)
  /-- DEADLOCK_DETECT (R304). -/
  | deadlockDetect (wafer : Bool) (die : Nat) (cluster : Nat) (ports : List (Nat × Nat)) (cores : List Nat)
  /-- RILL_QUIESCE_TIMEOUT (R295). -/
  | rillQuiesceTimeout (launch : Nat)
  /-- LQTAIL_DOORBELL (R333). -/
  | lqtailDoorbell (port : Nat) (q : Nat) (value : BitVec 64)
  /-- LAUNCH_TAKE (R333). -/
  | launchTake (q : Nat)
  /-- LAUNCH_PLACE (R339). -/
  | launchPlace (q : Nat)
  /-- LAUNCH_COMPLETE (R341). -/
  | launchComplete (launch : Nat)
  /-- COMPLETION_POST (R334). -/
  | completionPost (q : Nat)
  /-- HOST_PREEMPT (R350). -/
  | hostPreempt (port : Nat) (cq : Nat) (launch : Nat)
  /-- HOST_RESTORE (R351). -/
  | hostRestore (port : Nat) (cq : Nat) (launch : Nat)
  /-- HOST_MIGRATE (R352). -/
  | hostMigrate (port : Nat) (cq : Nat) (launch : Nat)
  /-- HOST_KILL (R353). -/
  | hostKill (port : Nat) (cq : Nat) (launch : Nat)
  /-- HOST_CMD_UNKNOWN (R348). -/
  | hostCmdUnknown (port : Nat) (cmd : Nat) (cq : Nat) (launch : Nat)
  /-- OCLAIM (R403). -/
  | oclaim (claims : List (Nat × BitVec 64))
  /-- HGO (R403). -/
  | hgo (port : Nat) (hport : Nat)
  /-- OWNER_LINK_LOST (R404). -/
  | ownerLinkLost
  /-- FEATDRV_WRITE (R405). -/
  | featdrvWrite (port : Nat) (value : BitVec 64)
  /-- PSREQ_P0 (R407). -/
  | psreqP0 (port : Nat)
  /-- PSREQ_P1 (R407). -/
  | psreqP1 (port : Nat)
  /-- PSREQ_P2 (R407). -/
  | psreqP2 (port : Nat)
  /-- PSREQ_P3 (R407). -/
  | psreqP3 (port : Nat)
  /-- PSREQ_P4 (R407). -/
  | psreqP4 (port : Nat)
  /-- PAGEANS_RESIDENT (R406). -/
  | pageansResident (port : Nat) (obj : Nat) (pg : Nat)
  /-- PAGEANS_DECLINE (R406). -/
  | pageansDecline (port : Nat) (obj : Nat) (pg : Nat)
  /-- THERMAL_TRIP (R408). -/
  | thermalTrip (temp : Nat)
  /-- TRIP_CLEAR (R408). -/
  | tripClear (port : Nat) (hottest : Nat)
  /-- SECURITY_ALARM (R411). -/
  | securityAlarm
  /-- SECA_CLEAR (R411). -/
  | secaClear (port : Nat)
  /-- ATTEST_NONCE_WRITE (R410). -/
  | attestNonceWrite (port : Nat) (value : BitVec 64)
  /-- ATTEST_COMPLETE (R410). -/
  | attestComplete (port : Nat)
  /-- HEAT_SAMPLE (R378). -/
  | heatSample (temps : List (Nat × Nat))
  /-- STEWARD_REBIND (R377). -/
  | stewardRebind (plot : Nat)
  /-- HOST_MEMORY_WRITE (R401). -/
  | hostMemoryWrite (port : Nat) (off : Nat) (bytes : List Byte)
  /-- HOST_MEMORY_READ (R401). -/
  | hostMemoryRead (port : Nat) (off : Nat) (len : Nat)
  /-- MGMT_TELEMETRY_READ (R413). -/
  | mgmtTelemetryRead (item : Telemetry)
  /-- CORE_WINDOW_WRITE (R161). -/
  | coreWindowWrite (plot : Nat) (off : Nat) (value : BitVec 64)
  /-- FIELD_WINDOW_WRITE (R163). -/
  | fieldWindowWrite (plot : Nat) (off : Nat) (value : BitVec 64)
  /-- TILE_STATE_WRITE (R256). -/
  | tileStateWrite (plot : Nat) (tile : Nat) (value : BitVec 64)
  /-- OTROOT_WRITE (R357). -/
  | otrootWrite (die : Nat) (value : BitVec 64)
  /-- AQUEDUCT_ROUTE_WRITE (R329). -/
  | aqueductRouteWrite (m : Nat) (value : BitVec 64)
  /-- REGISTER_WRITE (R2). -/
  | registerWrite (reg : RegTarget) (value : BitVec 64)
  /-- HOST_LINK_DOWN (R404). -/
  | hostLinkDown (port : Nat)
  /-- HOST_LINK_UP (R404). -/
  | hostLinkUp (port : Nat)
  /-- PORT_LINK_UP (R328). -/
  | portLinkUp (port : Nat)
  /-- PLOT_FAILURE (R18). -/
  | plotFailure (plot : Nat)
  deriving DecidableEq, Repr

end Sys2Proof
end

