-- ==== Sys2Proof/WellFormed.lean ====
section
/-! DEFINITION. What a word may hold: its fields (R52), the operand classes (R54), and the descriptor rules of R53 to R56. -/

namespace Sys2Proof

/-- The fields of an instruction word (R52). -/
structure Fields where
  op : BitVec 7
  fn : BitVec 5
  pm : BitVec 2
  ps : BitVec 7
  d : BitVec 8
  a : BitVec 8
  b : BitVec 8
  x : BitVec 19
  deriving DecidableEq, Repr

/-- The six operand classes (R54). -/
inductive VCls where
  | int | pred | fp | vec | mask | ptr
  deriving DecidableEq, Repr

/-- What a descriptor position requires: NONE, one class, any class but PRED (SEL and MOV, R79), the IMM descriptor itself,
or an even g register (CAS.64, R84). -/
inductive Pos where
  | none | int | pred | fp | vec | mask | ptr | any | immOnly | evenG
  deriving DecidableEq, Repr

/-- The class of a row's result: none, one class, or the class of A (SEL, MOV). -/
inductive RCls where
  | none
  | val (c : VCls)
  | same
  deriving DecidableEq, Repr

/-- The four classes of R62. -/
inductive ICls where
  | ordinary | gate | commit | branch
  deriving DecidableEq, Repr

/-- The four uses of X (R53); the memory form names the extra bits its row uses, the fixed form the bits it names. -/
inductive XUse where
  | imm
  | opC
  | mem (extra : BitVec 5)
  | fixed (bits : BitVec 19)
  deriving DecidableEq, Repr

/-- Checks that single rows add (R81, R82, R84, R190). -/
inductive RowCheck where
  | plain | rndX | amoI | amoF | cas64 | ldSign | rds | wrs | call
  deriving DecidableEq, Repr

/-- One row of the opcode map (R77): OP, the FN values (those fn with lo <= fn AND mask <= hi), class, use of X, the positions,
the result, whether a load-class slot and whether it takes a stream unit (R211, R212), and system privilege (R87). -/
structure OpRow where
  op : Nat
  mask : BitVec 5
  lo : BitVec 5
  hi : BitVec 5
  cls : ICls
  x : XUse
  a : Pos
  b : Pos
  c : Pos
  res : RCls
  chk : RowCheck
  load : Bool
  unit : Bool
  priv : Bool
  deriving DecidableEq, Repr

/-- A row from its parts. -/
def row (op : Nat) (mask lo hi : BitVec 5) (cls : ICls) (x : XUse) (a b c : Pos) (res : RCls) (chk : RowCheck)
    (load unit priv : Bool) : OpRow := ⟨op, mask, lo, hi, cls, x, a, b, c, res, chk, load, unit, priv⟩

/-- What a descriptor code names (R54): a slot, a register of a class, IMM, ZERO, or nothing (reserved codes and NONE). -/
inductive DescKind where
  | slot (k : BitVec 7)
  | reg (c : VCls)
  | imm
  | zero
  | nothing
  deriving DecidableEq, Repr

/-- The kind of a descriptor code (R54); a g register supplies INT (and MASK). -/
def descKind (c : BitVec 8) : DescKind :=
  if c.toNat < 0x80 then .slot (c.extractLsb' 0 7)
  else if c.toNat < 0xC0 then .reg .int
  else if c.toNat < 0xE0 then .reg .fp
  else if c.toNat < 0xF0 then .reg .vec
  else if c.toNat < 0xF8 then .reg .ptr
  else if c.toNat = 0xF8 then .imm
  else if c.toNat = 0xF9 then .zero
  else .nothing

/-- The class of the value of each lower slot of a block; `none` stands for a word looked at without its block. -/
abbrev SlotCls := Option (BitVec 7 → Option VCls)

/-- Whether a position that requires `want` accepts a slot's value of class `c`. -/
def Pos.accepts : Pos → VCls → Bool
  | .any, c => c != .pred
  | .int, c => c == .int
  | .pred, c => c == .pred
  | .fp, c => c == .fp
  | .vec, c => c == .vec
  | .mask, c => c == .mask
  | .ptr, c => c == .ptr
  | _, _ => false

/-- Whether a position that requires `want` accepts a register of class `c`: a g register is INT or MASK, never PRED (R55). -/
def Pos.acceptsReg : Pos → VCls → Bool
  | .any, _ => true
  | .int, c => c == .int
  | .mask, c => c == .int
  | .fp, c => c == .fp
  | .vec, c => c == .vec
  | .ptr, c => c == .ptr
  | _, _ => false

/-- The rules of R54 and R55 for one descriptor. A slot passes without its block, and within it must be a lower slot whose value
has the class. -/
def descFits (slots : SlotCls) (want : Pos) (c : BitVec 8) : Bool :=
  if want == .none then c == 0xFF
  else if want == .immOnly then c == 0xF8
  else if want == .evenG then descKind c == .reg .int && c.getLsbD 0 == false
  else match descKind c with
  | .slot k => (match slots with
    | none => true
    | some h => (match h k with
      | some kc => want.accepts kc
      | none => false))
  | .reg kc => want.acceptsReg kc
  | .imm => want == .int || want == .any
  | .zero => want != .ptr
  | .nothing => false

/-- The class a descriptor supplies (R54); ZERO, and a slot without its block, leave it open. -/
def descCls (slots : SlotCls) (c : BitVec 8) : Option VCls :=
  match descKind c with
  | .slot k => (match slots with
    | none => none
    | some h => h k)
  | .reg kc => some kc
  | .imm => some .int
  | .zero => none
  | .nothing => none

/-- Whether a descriptor names a g register, which supplies MASK as well as INT (R54). -/
def descIsG (c : BitVec 8) : Bool := descKind c == .reg .int

/-- Whether two descriptors can supply one class other than PRED (R54, R107): equal classes, a g register beside a MASK, or ZERO beside
anything but a PTR. A class that is open passes. -/
def descsAgree (slots : SlotCls) (a b : BitVec 8) : Bool :=
  match descCls slots a, descCls slots b with
  | some x, some y => x == y || (descIsG a && y == .mask) || (descIsG b && x == .mask)
  | some x, none => descKind b != .zero || x != .ptr
  | none, some y => descKind a != .zero || y != .ptr
  | none, none => true

/-- Whether D may hold the code for a result of a class (R56). -/
def dstFits (c : BitVec 8) (r : VCls) : Bool :=
  c == 0xFF || (match descKind c with
    | .reg .int => r == .int || r == .pred || r == .mask
    | .reg kc => kc == r
    | _ => false)

/-- Whether D may hold the code at all for a row with a result: a register or NONE (R56). -/
def dstAny (c : BitVec 8) : Bool :=
  c == 0xFF || (match descKind c with
    | .reg _ => true
    | _ => false)

/-- The system registers below 0x100 that exist (R94). -/
def sysAssigned (n : Nat) : Bool := n ≤ 0xE || n == 0x10

/-- The system registers marked RO (R94). -/
def sysReadOnly (n : Nat) : Bool :=
  n == 0 || n == 1 || n == 5 || n == 0xA || n == 0xB || n == 0xC || n == 0xD || n == 0xE || n == 0x100

end Sys2Proof
end

