-- ==== Sys2Proof/Decode.lean ====
section
/-! DEFINITION. Decoding and encoding of instruction words (R52 to R56, R77 to R88): the decoder answers an instruction for the
words the opcode map assigns and none for every other word; the encoder is written from the same tables. -/

namespace Sys2Proof

/-- The word of its fields (R52). -/
def Fields.pack (f : Fields) : BitVec 64 :=
  f.op ++ f.fn ++ f.pm ++ f.ps ++ f.d ++ f.a ++ f.b ++ f.x

/-- The fields of a word (R52). -/
def Fields.ofWord (w : BitVec 64) : Fields where
  op := w.extractLsb' 57 7
  fn := w.extractLsb' 52 5
  pm := w.extractLsb' 50 2
  ps := w.extractLsb' 43 7
  d := w.extractLsb' 35 8
  a := w.extractLsb' 27 8
  b := w.extractLsb' 19 8
  x := w.extractLsb' 0 19

/-- PM of a predicate (R52). -/
def Pred.pm : Pred → BitVec 2
  | .always => 0
  | .ifTrue _ => 1
  | .ifFalse _ => 2

/-- PS of a predicate; zero without one (R60). -/
def Pred.ps : Pred → BitVec 7
  | .always => 0
  | .ifTrue k => k
  | .ifFalse k => k

/-- The predicate the fields name; PM 0b11 is reserved. -/
def Fields.pred (f : Fields) : Option Pred :=
  match f.pm.toNat with
  | 0 => some .always
  | 1 => some (.ifTrue f.ps)
  | 2 => some (.ifFalse f.ps)
  | _ => none

/-- Descriptor codes of operands (R54). -/
def Opnd.code : Opnd → BitVec 8
  | .slot k => 0#1 ++ k
  | .g i => 0b10#2 ++ i
  | .f i => 0b110#3 ++ i
  | .v i => 0b1110#4 ++ i
  | .c i => 0b11110#5 ++ i
  | .imm _ => 0xF8
  | .zero => 0xF9

/-- Descriptor codes of destinations (R54, R56). -/
def Dst.code : Dst → BitVec 8
  | .none => 0xFF
  | .g i => 0b10#2 ++ i
  | .f i => 0b110#3 ++ i
  | .v i => 0b1110#4 ++ i
  | .c i => 0b11110#5 ++ i

/-- The operand a descriptor names, with the word's imm19 for IMM (R54); none for a reserved code and NONE. -/
def Opnd.ofCode (c : BitVec 8) (x : BitVec 19) : Option Opnd :=
  if c.extractLsb' 7 1 = 0 then some (.slot (c.extractLsb' 0 7))
  else if c.extractLsb' 6 2 = 0b10 then some (.g (c.extractLsb' 0 6))
  else if c.extractLsb' 5 3 = 0b110 then some (.f (c.extractLsb' 0 5))
  else if c.extractLsb' 4 4 = 0b1110 then some (.v (c.extractLsb' 0 4))
  else if c.extractLsb' 3 5 = 0b11110 then some (.c (c.extractLsb' 0 3))
  else if c = 0xF8 then some (.imm x)
  else if c = 0xF9 then some .zero
  else none

/-- The destination a descriptor names (R56); none for a code D may not hold. -/
def Dst.ofCode (c : BitVec 8) : Option Dst :=
  if c.extractLsb' 7 1 = 0 then none
  else if c.extractLsb' 6 2 = 0b10 then some (.g (c.extractLsb' 0 6))
  else if c.extractLsb' 5 3 = 0b110 then some (.f (c.extractLsb' 0 5))
  else if c.extractLsb' 4 4 = 0b1110 then some (.v (c.extractLsb' 0 4))
  else if c.extractLsb' 3 5 = 0b11110 then some (.c (c.extractLsb' 0 3))
  else if c = 0xFF then some .none
  else none

/-- The scope codes of R6. -/
def Scope.code : Scope → BitVec 3
  | .core => 0 | .quad => 1 | .cluster => 2 | .die => 3 | .wafer => 4 | .pod => 5 | .host => 6 | .seq => 7

/-- The scope of a code (R6). -/
def Scope.ofCode (c : BitVec 3) : Scope :=
  match c.toNat with
  | 0 => .core | 1 => .quad | 2 => .cluster | 3 => .die | 4 => .wafer | 5 => .pod | 6 => .host | _ => .seq

/-- X[18:5] of the memory/engine form (R53). -/
def MX.bits (m : MX) : BitVec 14 := m.stream ++ m.mask ++ m.scope.code

/-- The ordering fields of X (R53). -/
def MX.ofX (x : BitVec 19) : MX :=
  ⟨x.extractLsb' 16 3, x.extractLsb' 8 8, Scope.ofCode (x.extractLsb' 5 3)⟩

/-- Format codes (R78). -/
def Fmt.code : Fmt → BitVec 2
  | .f32 => 0 | .f64 => 1 | .bf16 => 2 | .f16 => 3

/-- The format of a code (R78). -/
def Fmt.ofCode (c : BitVec 2) : Fmt :=
  match c.toNat with
  | 0 => .f32 | 1 => .f64 | 2 => .bf16 | _ => .f16

/-- Rounding codes (R36). -/
def Rnd.code : Rnd → BitVec 3
  | .rne => 0 | .rtz => 1 | .rup => 2 | .rdn => 3 | .rna => 4 | .dyn => 5

/-- The rounding of a code; 6 and 7 are reserved (R36). -/
def Rnd.ofCode (c : BitVec 3) : Option Rnd :=
  match c.toNat with
  | 0 => some .rne | 1 => some .rtz | 2 => some .rup | 3 => some .rdn | 4 => some .rna | 5 => some .dyn | _ => none

/-- Type bit of the vector forms (R78). -/
def VTy.code : VTy → BitVec 1
  | .f32 => 0 | .i32 => 1

/-- The type of a bit (R78). -/
def VTy.ofCode (c : BitVec 1) : VTy := if c = 0 then .f32 else .i32

/-- FN of the arithmetic vector rows (R83, R139). -/
def VArith.code : VArith → BitVec 5
  | .f32 r => 0#2 ++ r.code
  | .i32 => 0x10

/-- Type and rounding of an FN (R83). -/
def VArith.ofCode (fn : BitVec 5) : Option VArith :=
  if fn.extractLsb' 3 2 = 0 then (Rnd.ofCode (fn.extractLsb' 0 3)).map .f32
  else if fn = 0x10 then some .i32 else none

/-- FN of VMNX (R139). -/
def VMnxOp.code : VMnxOp → BitVec 5
  | .fmin => 0 | .fmax => 1 | .fminm => 2 | .fmaxm => 3 | .mins => 0x10 | .maxs => 0x11 | .minu => 0x12 | .maxu => 0x13

/-- The VMNX form of an FN (R139). -/
def VMnxOp.ofCode (fn : BitVec 5) : Option VMnxOp :=
  match fn.toNat with
  | 0 => some .fmin | 1 => some .fmax | 2 => some .fminm | 3 => some .fmaxm
  | 0x10 => some .mins | 0x11 => some .maxs | 0x12 => some .minu | 0x13 => some .maxu | _ => none

/-- FN of VCMP (R139). -/
def VCmpOp.code : VCmpOp → BitVec 5
  | .feq => 0 | .flt => 1 | .fle => 2 | .fun_ => 3 | .eq => 0x10 | .lts => 0x11 | .les => 0x12 | .ltu => 0x13 | .leu => 0x14

/-- The VCMP form of an FN (R139). -/
def VCmpOp.ofCode (fn : BitVec 5) : Option VCmpOp :=
  match fn.toNat with
  | 0 => some .feq | 1 => some .flt | 2 => some .fle | 3 => some .fun_
  | 0x10 => some .eq | 0x11 => some .lts | 0x12 => some .les | 0x13 => some .ltu | 0x14 => some .leu | _ => none

/-- Size codes (R84). -/
def Size.code : Size → BitVec 2
  | .b8 => 0 | .b16 => 1 | .b32 => 2 | .b64 => 3

/-- The size of a code (R84). -/
def Size.ofCode (c : BitVec 2) : Size :=
  match c.toNat with
  | 0 => .b8 | 1 => .b16 | 2 => .b32 | _ => .b64

/-- CGET's X[1:0] (R84). -/
def CgetSel.code : CgetSel → BitVec 2
  | .cur => 0 | .base => 1 | .len => 2 | .idr => 3

/-- The selection of X[1:0] (R84). -/
def CgetSel.ofCode (c : BitVec 2) : CgetSel :=
  match c.toNat with
  | 0 => .cur | 1 => .base | 2 => .len | _ => .idr

/-- The integer rows of the opcode map. -/
def rowsInt : List OpRow := [
  row 0x01 0x1F 0x00 0x03 .ordinary .imm .int .int .none (.val .int) .plain false false false,
  row 0x02 0x1F 0x00 0x03 .ordinary .imm .int .int .none (.val .int) .plain false false false,
  row 0x03 0x1F 0x00 0x03 .ordinary .imm .int .int .none (.val .int) .plain false false false,
  row 0x04 0x1F 0x00 0x03 .ordinary .imm .int .int .none (.val .int) .plain false false false,
  row 0x05 0x1F 0x00 0x05 .ordinary .imm .int .int .none (.val .int) .plain false false false,
  row 0x06 0x1F 0x00 0x03 .ordinary .imm .int .int .none (.val .int) .plain false false false,
  row 0x07 0x1F 0x00 0x03 .ordinary .imm .int .int .none (.val .int) .plain false false false,
  row 0x08 0x1F 0x00 0x04 .ordinary .imm .int .none .none (.val .int) .plain false false false,
  row 0x09 0x1F 0x00 0x00 .ordinary .imm .immOnly .none .none (.val .int) .plain false false false,
  row 0x0A 0x1F 0x00 0x00 .ordinary .imm .int .immOnly .none (.val .int) .plain false false false,
  row 0x0B 0x1F 0x00 0x01 .ordinary .imm .int .int .none (.val .int) .plain false false false,
  row 0x0B 0x1F 0x02 0x02 .ordinary (.fixed 0xFFF) .int .int .none (.val .int) .plain false false false,
  row 0x0C 0x1F 0x00 0x05 .ordinary .imm .int .int .none (.val .pred) .plain false false false,
  row 0x0D 0x1F 0x00 0x00 .ordinary .opC .any .any .pred .same .plain false false false,
  row 0x0E 0x1F 0x00 0x02 .ordinary (.fixed 0x0) .pred .pred .none (.val .pred) .plain false false false,
  row 0x0E 0x1F 0x03 0x03 .ordinary (.fixed 0x0) .pred .none .none (.val .pred) .plain false false false,
  row 0x0E 0x1F 0x04 0x04 .ordinary .imm .int .none .none (.val .pred) .plain false false false,
  row 0x0F 0x1F 0x00 0x00 .ordinary .imm .any .none .none .same .plain false false false,
  row 0x0F 0x1F 0x01 0x01 .ordinary .imm .int .none .none (.val .fp) .plain false false false,
  row 0x0F 0x1F 0x02 0x02 .ordinary (.fixed 0x0) .fp .none .none (.val .int) .plain false false false]

/-- The control rows of the opcode map. -/
def rowsCtl : List OpRow := [
  row 0x10 0x1F 0x00 0x00 .branch .imm .immOnly .none .none .none .plain false false false,
  row 0x11 0x1F 0x00 0x00 .branch .imm .int .none .none .none .plain false false false,
  row 0x12 0x1F 0x00 0x00 .branch .imm .immOnly .none .none .none .call false false false,
  row 0x13 0x1F 0x00 0x00 .branch .imm .int .none .none .none .plain false false false,
  row 0x14 0x1F 0x00 0x01 .branch (.fixed 0x0) .none .none .none .none .plain false false false,
  row 0x14 0x1F 0x02 0x02 .branch .imm .int .none .none .none .plain false false false,
  row 0x15 0x1F 0x00 0x00 .branch (.fixed 0xFF) .none .none .none .none .plain false false false,
  row 0x16 0x1F 0x00 0x00 .ordinary (.fixed 0xFFF) .none .none .none (.val .int) .rds false false false,
  row 0x16 0x1F 0x01 0x01 .commit (.fixed 0xFFF) .int .none .none .none .wrs false false false,
  row 0x17 0x1F 0x00 0x00 .branch (.fixed 0x0) .none .none .none .none .plain false false false,
  row 0x17 0x1F 0x01 0x01 .branch (.fixed 0x0) .none .int .none .none .plain false false false]

/-- The scalar floating-point rows of the opcode map. -/
def rowsFp : List OpRow := [
  row 0x20 0x07 0x00 0x05 .ordinary (.fixed 0x0) .fp .fp .none (.val .fp) .plain false false false,
  row 0x21 0x07 0x00 0x05 .ordinary (.fixed 0x0) .fp .fp .none (.val .fp) .plain false false false,
  row 0x22 0x07 0x00 0x05 .ordinary (.fixed 0x0) .fp .fp .none (.val .fp) .plain false false false,
  row 0x23 0x07 0x00 0x05 .ordinary .opC .fp .fp .fp (.val .fp) .plain false false false,
  row 0x24 0x07 0x00 0x05 .ordinary (.fixed 0x0) .fp .fp .none (.val .fp) .plain false false false,
  row 0x25 0x07 0x00 0x05 .ordinary (.fixed 0x0) .fp .none .none (.val .fp) .plain false false false,
  row 0x26 0x07 0x00 0x03 .ordinary (.fixed 0x0) .fp .fp .none (.val .fp) .plain false false false,
  row 0x27 0x07 0x00 0x04 .ordinary (.fixed 0x0) .fp .fp .none (.val .pred) .plain false false false,
  row 0x28 0x07 0x00 0x00 .ordinary (.fixed 0x1F) .fp .none .none (.val .fp) .rndX false false false,
  row 0x29 0x1F 0x00 0x01 .ordinary (.fixed 0x1F) .fp .none .none (.val .int) .rndX false false false,
  row 0x29 0x1F 0x02 0x03 .ordinary (.fixed 0x1F) .int .none .none (.val .fp) .rndX false false false,
  row 0x2A 0x07 0x00 0x01 .ordinary (.fixed 0x0) .fp .none .none (.val .fp) .plain false false false,
  row 0x2A 0x07 0x02 0x02 .ordinary (.fixed 0x0) .fp .fp .none (.val .fp) .plain false false false,
  row 0x2B 0x07 0x00 0x00 .ordinary (.fixed 0x0) .fp .none .none (.val .int) .plain false false false,
  row 0x2B 0x07 0x01 0x01 .ordinary .imm .fp .int .none (.val .fp) .plain false false false,
  row 0x2B 0x07 0x02 0x02 .ordinary .imm .fp .int .none (.val .pred) .plain false false false,
  row 0x2C 0x07 0x00 0x03 .ordinary (.fixed 0x0) .fp .none .none (.val .fp) .plain false false false,
  row 0x2D 0x07 0x00 0x00 .ordinary (.fixed 0x0) .fp .none .none (.val .int) .plain false false false]

/-- The vector rows of the opcode map. -/
def rowsVec : List OpRow := [
  row 0x30 0x1F 0x00 0x05 .ordinary (.fixed 0x0) .vec .vec .none (.val .vec) .plain false false false,
  row 0x30 0x1F 0x10 0x10 .ordinary (.fixed 0x0) .vec .vec .none (.val .vec) .plain false false false,
  row 0x31 0x1F 0x00 0x05 .ordinary (.fixed 0x0) .vec .vec .none (.val .vec) .plain false false false,
  row 0x31 0x1F 0x10 0x10 .ordinary (.fixed 0x0) .vec .vec .none (.val .vec) .plain false false false,
  row 0x32 0x1F 0x00 0x05 .ordinary (.fixed 0x0) .vec .vec .none (.val .vec) .plain false false false,
  row 0x32 0x1F 0x10 0x10 .ordinary (.fixed 0x0) .vec .vec .none (.val .vec) .plain false false false,
  row 0x33 0x1F 0x00 0x05 .ordinary .opC .vec .vec .vec (.val .vec) .plain false false false,
  row 0x33 0x1F 0x10 0x10 .ordinary .opC .vec .vec .vec (.val .vec) .plain false false false,
  row 0x34 0x1F 0x00 0x03 .ordinary (.fixed 0x0) .vec .vec .none (.val .vec) .plain false false false,
  row 0x34 0x1F 0x10 0x13 .ordinary (.fixed 0x0) .vec .vec .none (.val .vec) .plain false false false,
  row 0x35 0x1F 0x00 0x03 .ordinary (.fixed 0x0) .vec .vec .none (.val .mask) .plain false false false,
  row 0x35 0x1F 0x10 0x14 .ordinary (.fixed 0x0) .vec .vec .none (.val .mask) .plain false false false,
  row 0x36 0x1F 0x00 0x01 .ordinary (.fixed 0x0) .vec .mask .none (.val .vec) .plain false false false,
  row 0x37 0x1F 0x00 0x03 .ordinary (.fixed 0x0) .vec .none .none (.val .fp) .plain false false false,
  row 0x38 0x1F 0x00 0x00 .ordinary (.fixed 0x0) .fp .none .none (.val .vec) .plain false false false,
  row 0x38 0x1F 0x10 0x10 .ordinary (.fixed 0x0) .int .none .none (.val .vec) .plain false false false,
  row 0x39 0x1F 0x00 0x00 .ordinary (.fixed 0x0) .vec .vec .none (.val .vec) .plain false false false,
  row 0x3A 0x1F 0x00 0x07 .ordinary (.fixed 0x0) .vec .none .none (.val .vec) .plain false false false,
  row 0x3B 0x1F 0x00 0x08 .ordinary (.fixed 0x0) .vec .none .none (.val .vec) .plain false false false,
  row 0x3C 0x1F 0x00 0x01 .ordinary (.fixed 0x0) .vec .fp .none (.val .vec) .plain false false false,
  row 0x3C 0x1F 0x02 0x04 .ordinary (.fixed 0x0) .vec .vec .none (.val .vec) .plain false false false,
  row 0x3C 0x1F 0x05 0x06 .ordinary (.fixed 0x0) .vec .fp .none (.val .vec) .plain false false false,
  row 0x3D 0x1F 0x00 0x01 .ordinary (.fixed 0x0) .vec .fp .none (.val .vec) .plain false false false,
  row 0x3D 0x1F 0x02 0x04 .ordinary (.fixed 0x1) .vec .none .none (.val .vec) .plain false false false,
  row 0x3D 0x1F 0x05 0x06 .ordinary (.fixed 0x0) .vec .fp .none (.val .vec) .plain false false false,
  row 0x3E 0x1F 0x00 0x00 .ordinary (.fixed 0x0) .vec .none .none (.val .vec) .plain false false false,
  row 0x3E 0x1F 0x01 0x01 .ordinary .imm .vec .int .none (.val .vec) .plain false false false,
  row 0x3E 0x1F 0x02 0x02 .ordinary .imm .vec .int .none (.val .mask) .plain false false false,
  row 0x3F 0x1F 0x00 0x00 .ordinary .imm .vec .int .none (.val .fp) .plain false false false,
  row 0x3F 0x1F 0x01 0x01 .ordinary (.fixed 0xF) .vec .fp .none (.val .vec) .plain false false false,
  row 0x3F 0x1F 0x02 0x02 .ordinary (.fixed 0x0) .none .none .none (.val .vec) .plain false false false,
  row 0x3F 0x1F 0x03 0x03 .ordinary .imm .vec .int .none (.val .vec) .plain false false false,
  row 0x3F 0x1F 0x10 0x10 .ordinary .imm .vec .int .none (.val .int) .plain false false false,
  row 0x3F 0x1F 0x11 0x11 .ordinary (.fixed 0xF) .vec .int .none (.val .vec) .plain false false false,
  row 0x40 0x1F 0x00 0x05 .ordinary (.fixed 0x0) .vec .vec .none (.val .vec) .plain false false false,
  row 0x41 0x1F 0x00 0x05 .ordinary (.fixed 0x0) .vec .fp .none (.val .vec) .plain false false false,
  row 0x41 0x1F 0x10 0x10 .ordinary (.fixed 0x0) .vec .int .none (.val .vec) .plain false false false]

/-- The memory rows of the opcode map. -/
def rowsMem : List OpRow := [
  row 0x48 0x18 0x00 0x00 .ordinary (.mem 0) .ptr .int .none (.val .int) .ldSign true false false,
  row 0x48 0x18 0x08 0x08 .gate (.mem 0) .ptr .int .none (.val .int) .ldSign true false false,
  row 0x48 0x18 0x10 0x10 .gate (.mem 0) .ptr .int .none (.val .int) .ldSign true true false,
  row 0x48 0x1C 0x18 0x18 .ordinary (.mem 0) .ptr .int .none (.val .pred) .plain true false false,
  row 0x49 0x1C 0x00 0x00 .commit (.mem 0) .ptr .int .int .none .plain false true false,
  row 0x49 0x1C 0x08 0x08 .commit (.mem 0) .ptr .int .int .none .plain false true false,
  row 0x49 0x1C 0x10 0x10 .commit (.mem 0) .ptr .int .int .none .plain false true false,
  row 0x49 0x1C 0x18 0x18 .commit (.mem 0) .ptr .int .int .none .plain false true false,
  row 0x4A 0x11 0x00 0x00 .ordinary (.mem 0) .ptr .int .none (.val .fp) .plain true false false,
  row 0x4A 0x11 0x01 0x01 .commit (.mem 0) .ptr .int .fp .none .plain false true false,
  row 0x4A 0x11 0x10 0x10 .gate (.mem 0) .ptr .int .none (.val .fp) .plain true false false,
  row 0x4A 0x11 0x11 0x11 .commit (.mem 0) .ptr .int .fp .none .plain false true false,
  row 0x4B 0x17 0x00 0x00 .ordinary (.mem 0) .ptr .int .none (.val .vec) .plain true false false,
  row 0x4B 0x17 0x01 0x01 .commit (.mem 0) .ptr .int .vec .none .plain false true false,
  row 0x4B 0x17 0x02 0x02 .gate (.mem 0) .ptr .int .none (.val .vec) .plain true false false,
  row 0x4B 0x17 0x03 0x03 .commit (.mem 0) .ptr .int .vec .none .plain false true false,
  row 0x4B 0x17 0x04 0x04 .gate (.mem 0) .ptr .int .none (.val .vec) .plain true true false,
  row 0x4B 0x17 0x05 0x05 .commit (.mem 0) .ptr .int .vec .none .plain false true false,
  row 0x4B 0x17 0x07 0x07 .commit (.mem 0) .ptr .int .vec .none .plain false true false,
  row 0x4C 0x1F 0x00 0x08 .commit (.mem 3) .ptr .int .none (.val .int) .amoI false true false,
  row 0x4C 0x1F 0x09 0x0B .commit (.mem 3) .ptr .fp .none (.val .fp) .amoF false true false,
  row 0x4D 0x1F 0x00 0x00 .commit (.mem 0) .ptr .int .none (.val .int) .plain false true false,
  row 0x4D 0x1F 0x01 0x01 .commit (.mem 0) .ptr .evenG .none (.val .int) .cas64 false true false,
  row 0x4E 0x1F 0x00 0x02 .ordinary .imm .ptr .int .none (.val .ptr) .plain false false false,
  row 0x4E 0x1F 0x03 0x03 .ordinary (.fixed 0x3) .ptr .none .none (.val .int) .plain false false false,
  row 0x4E 0x1F 0x04 0x04 .ordinary (.mem 0) .ptr .int .none (.val .ptr) .plain true false false,
  row 0x4E 0x1F 0x05 0x05 .commit (.mem 0) .ptr .int .ptr .none .plain false true false,
  row 0x4F 0x1F 0x00 0x01 .ordinary .imm .ptr .int .none (.val .pred) .plain false false false]

/-- The engine rows of the opcode map. -/
def rowsEng : List OpRow := [
  row 0x58 0x1F 0x00 0x00 .commit (.mem 0) .ptr .ptr .int .none .plain false true false,
  row 0x59 0x1F 0x00 0x00 .commit (.mem 0) .ptr .none .int .none .plain false true false,
  row 0x5A 0x1F 0x00 0x00 .commit (.mem 0) .ptr .ptr .ptr .none .plain false true false,
  row 0x5B 0x1F 0x00 0x04 .commit (.mem 0) .int .none .int .none .plain false true false,
  row 0x5C 0x1F 0x00 0x00 .commit (.mem 0) .int .ptr .none .none .plain false true false,
  row 0x5C 0x1F 0x01 0x01 .commit (.mem 0) .int .none .none .none .plain false true false]

/-- The field and rill rows of the opcode map. -/
def rowsUnit : List OpRow := [
  row 0x60 0x1F 0x00 0x00 .commit (.mem 0) .ptr .int .none (.val .int) .plain false true false,
  row 0x60 0x1F 0x01 0x01 .commit (.mem 0) .int .none .none .none .plain false true false,
  row 0x60 0x1F 0x02 0x02 .ordinary (.fixed 0x0) .int .none .none (.val .int) .plain false false false,
  row 0x61 0x1F 0x00 0x00 .commit (.mem 7) .ptr .int .none .none .plain false true false,
  row 0x62 0x1F 0x00 0x00 .commit (.mem 0) .ptr .int .none .none .plain false true false,
  row 0x63 0x1F 0x00 0x01 .gate (.fixed 0x0) .int .none .none (.val .vec) .plain false false false,
  row 0x63 0x1F 0x02 0x02 .ordinary (.fixed 0x0) .int .none .none (.val .vec) .plain false false false,
  row 0x64 0x1F 0x00 0x00 .commit .imm .int .none .none .none .plain false false false,
  row 0x64 0x1F 0x01 0x01 .commit .imm .int .none .none (.val .int) .plain false false false,
  row 0x65 0x1F 0x00 0x00 .commit .imm .int .int .none .none .plain false false false,
  row 0x65 0x1F 0x01 0x01 .commit .imm .int .fp .none .none .plain false false false,
  row 0x65 0x1F 0x02 0x02 .commit .imm .int .vec .none .none .plain false false false,
  row 0x65 0x1F 0x03 0x03 .commit .imm .int .none .none .none .plain false false false,
  row 0x65 0x1F 0x04 0x04 .commit .imm .int .int .none .none .plain false false false,
  row 0x66 0x1F 0x00 0x00 .gate .imm .int .none .none (.val .int) .plain false false false,
  row 0x66 0x1F 0x01 0x01 .gate .imm .int .none .none (.val .fp) .plain false false false,
  row 0x66 0x1F 0x02 0x02 .gate .imm .int .none .none (.val .vec) .plain false false false,
  row 0x66 0x1F 0x03 0x03 .gate .imm .int .none .none (.val .pred) .plain false false false,
  row 0x66 0x1F 0x04 0x05 .ordinary .imm .int .none .none (.val .int) .plain false false false,
  row 0x67 0x1F 0x00 0x02 .commit .imm .int .int .none .none .plain false false false,
  row 0x68 0x1F 0x00 0x00 .commit .imm .int .int .none .none .plain false false false,
  row 0x68 0x1F 0x01 0x01 .ordinary .imm .int .none .none (.val .int) .plain false false false]

/-- The semaphore, barrier and task rows of the opcode map. -/
def rowsTask : List OpRow := [
  row 0x70 0x1F 0x00 0x01 .commit .imm .int .int .none .none .plain false false false,
  row 0x70 0x1F 0x02 0x03 .gate .imm .int .int .none (.val .int) .plain false false false,
  row 0x70 0x1F 0x04 0x04 .commit .imm .int .int .none .none .plain false false false,
  row 0x70 0x1F 0x05 0x05 .ordinary .imm .int .none .none (.val .int) .plain false false false,
  row 0x71 0x1F 0x00 0x00 .commit .imm .int .none .none (.val .int) .plain false false false,
  row 0x72 0x1F 0x00 0x00 .gate .imm .int .int .none (.val .int) .plain false false false,
  row 0x73 0x1F 0x00 0x00 .commit .imm .int .int .none (.val .int) .plain false false false,
  row 0x73 0x1F 0x01 0x02 .commit .imm .int .int .none .none .plain false false false,
  row 0x73 0x1F 0x03 0x03 .ordinary .imm .int .none .none (.val .int) .plain false false false]

/-- The system rows of the opcode map. -/
def rowsSys : List OpRow := [
  row 0x78 0x1F 0x00 0x01 .commit (.mem 0) .ptr .int .none .none .plain false true true,
  row 0x79 0x1F 0x00 0x01 .commit .imm .int .none .none .none .plain false false true,
  row 0x79 0x1F 0x02 0x02 .commit .imm .int .int .none .none .plain false false true,
  row 0x7A 0x1F 0x00 0x03 .commit (.mem 0) .ptr .int .none .none .plain false true true,
  row 0x7B 0x1F 0x00 0x00 .commit .imm .int .none .none .none .plain false false true]

/-- The opcode map (R79 to R87), by the group of OP. -/
def opRows (op : Nat) : List OpRow :=
  if op < 0x10 then rowsInt else if op < 0x20 then rowsCtl else if op < 0x30 then rowsFp else if op < 0x48 then rowsVec
  else if op < 0x58 then rowsMem else if op < 0x60 then rowsEng else if op < 0x70 then rowsUnit else if op < 0x78 then rowsTask
  else rowsSys

/-- The row of OP and FN; none where the map assigns nothing (R78, R88). -/
def Fields.row? (f : Fields) : Option OpRow :=
  (opRows f.op.toNat).find? (fun r => r.op == f.op.toNat && decide (r.lo ≤ (f.fn &&& r.mask)) && decide ((f.fn &&& r.mask) ≤ r.hi))

/-- The code of operand C: D in a commit-point form, X[18:11] in the operand-C form (R77). -/
def Fields.cCode (f : Fields) (r : OpRow) : BitVec 8 := if r.x == .opC then f.x.extractLsb' 11 8 else f.d

/-- The class of the value a word gives (R79, R107, R109): for SEL and MOV the class of A, of B where A is ZERO, INT where both are, MASK
where A is a g register and B a MASK. -/
def Fields.resCls (slots : SlotCls) (f : Fields) (r : OpRow) : Option VCls :=
  match r.res with
  | .none => none
  | .val c => some c
  | .same =>
    if descKind f.a == .zero then
      (if r.b == .any && descKind f.b != .zero then descCls slots f.b else some .int)
    else if r.b == .any && descIsG f.a && descCls slots f.b == some .mask then some .mask
    else descCls slots f.a

/-- The zero rules of X (R53, R77): the immediate form needs an IMM descriptor for a non-zero X, and the other forms use only their own bits. -/
def Fields.xOk (f : Fields) (r : OpRow) : Bool :=
  match r.x with
  | .imm => f.a == 0xF8 || f.b == 0xF8 || f.x == 0
  | .opC => f.x.extractLsb' 0 11 == 0
  | .mem e => f.x.extractLsb' 0 5 &&& ~~~e == 0
  | .fixed m => f.x &&& ~~~m == 0

/-- The checks single rows add: rounding codes of X (R82), sizes (R84, R190), system register numbers (R81), CALL's D (R80). -/
def Fields.chkOk (f : Fields) (r : OpRow) : Bool :=
  match r.chk with
  | .plain => true
  | .rndX => decide ((f.x.extractLsb' 2 3).toNat ≤ 5)
  | .amoI => f.x.getLsbD 1
  | .amoF => f.x.extractLsb' 0 2 == 2
  | .cas64 => true
  | .ldSign => !(f.fn.extractLsb' 0 3 == 7)
  | .rds => decide (0x100 ≤ (f.x.extractLsb' 0 12).toNat) || sysAssigned (f.x.extractLsb' 0 12).toNat
  | .wrs => (decide (0x100 ≤ (f.x.extractLsb' 0 12).toNat) || sysAssigned (f.x.extractLsb' 0 12).toNat) && !sysReadOnly (f.x.extractLsb' 0 12).toNat
  | .call => f.d.extractLsb' 6 2 == 0b10

/-- How many descriptors of the word are IMM. -/
def Fields.imms (f : Fields) (r : OpRow) : Nat :=
  (if f.a == 0xF8 then 1 else 0) + (if f.b == 0xF8 then 1 else 0) + (if r.c != .none && f.cCode r == 0xF8 then 1 else 0)

/-- D of a form that writes a register, or NONE (R56); a store's D is its operand C. -/
def Fields.dOk (slots : SlotCls) (f : Fields) (r : OpRow) : Bool :=
  if r.c != .none && r.x != .opC then true
  else if r.chk == .call then true
  else match r.res with
  | .none => f.d == 0xFF
  | _ => (match f.resCls slots r with
    | some c => dstFits f.d c
    | none => dstAny f.d)

/-- SEL takes two values of one class (R107). -/
def Fields.sameOk (slots : SlotCls) (f : Fields) (r : OpRow) : Bool :=
  if r.b != .any then true
  else descsAgree slots f.a f.b

/-- The predicate fields (R60): PM 0b11 is reserved, PS is zero without a predicate, and names a lower PRED slot with one. -/
def Fields.predOk (slots : SlotCls) (f : Fields) : Bool :=
  match f.pm.toNat with
  | 0 => f.ps == 0
  | 3 => false
  | _ => (match slots with
    | none => true
    | some h => h f.ps == some .pred)

/-- The DECODE checks of one word against its row (R53 to R56, R60, R77, R81, R84, R88, R190). -/
def Fields.okRow (slots : SlotCls) (f : Fields) (r : OpRow) : Bool :=
  f.predOk slots && descFits slots r.a f.a && descFits slots r.b f.b &&
    (r.c == .none || descFits slots r.c (f.cCode r)) && f.sameOk slots r && f.dOk slots r && f.xOk r && f.chkOk r &&
    (if r.x == .imm then decide (f.imms r ≤ 1) else f.imms r == 0)

/-- The DECODE checks of one word. -/
def Fields.ok (slots : SlotCls) (f : Fields) : Bool :=
  match f.row? with
  | some r => f.okRow slots r
  | none => false

/-- The integer (R79) rows: the instruction the fields name, before the whole-word check. -/
def decInt (f : Fields) : Option Instr :=
  match f.op.toNat with
  | 0x01 => match f.fn.toNat with
    | 0 => do let p ← f.pred; let d ← Dst.ofCode f.d; let a ← Opnd.ofCode f.a f.x; let b ← Opnd.ofCode f.b f.x; some (.add p d a b)
    | 1 => do let p ← f.pred; let d ← Dst.ofCode f.d; let a ← Opnd.ofCode f.a f.x; let b ← Opnd.ofCode f.b f.x; some (.addw p d a b)
    | 2 => do let p ← f.pred; let d ← Dst.ofCode f.d; let a ← Opnd.ofCode f.a f.x; let b ← Opnd.ofCode f.b f.x; some (.adds p d a b)
    | 3 => do let p ← f.pred; let d ← Dst.ofCode f.d; let a ← Opnd.ofCode f.a f.x; let b ← Opnd.ofCode f.b f.x; some (.addu p d a b)
    | _ => none
  | 0x02 => match f.fn.toNat with
    | 0 => do let p ← f.pred; let d ← Dst.ofCode f.d; let a ← Opnd.ofCode f.a f.x; let b ← Opnd.ofCode f.b f.x; some (.sub p d a b)
    | 1 => do let p ← f.pred; let d ← Dst.ofCode f.d; let a ← Opnd.ofCode f.a f.x; let b ← Opnd.ofCode f.b f.x; some (.subw p d a b)
    | 2 => do let p ← f.pred; let d ← Dst.ofCode f.d; let a ← Opnd.ofCode f.a f.x; let b ← Opnd.ofCode f.b f.x; some (.subs p d a b)
    | 3 => do let p ← f.pred; let d ← Dst.ofCode f.d; let a ← Opnd.ofCode f.a f.x; let b ← Opnd.ofCode f.b f.x; some (.subu p d a b)
    | _ => none
  | 0x03 => match f.fn.toNat with
    | 0 => do let p ← f.pred; let d ← Dst.ofCode f.d; let a ← Opnd.ofCode f.a f.x; let b ← Opnd.ofCode f.b f.x; some (.mul p d a b)
    | 1 => do let p ← f.pred; let d ← Dst.ofCode f.d; let a ← Opnd.ofCode f.a f.x; let b ← Opnd.ofCode f.b f.x; some (.mulw p d a b)
    | 2 => do let p ← f.pred; let d ← Dst.ofCode f.d; let a ← Opnd.ofCode f.a f.x; let b ← Opnd.ofCode f.b f.x; some (.mulhs p d a b)
    | 3 => do let p ← f.pred; let d ← Dst.ofCode f.d; let a ← Opnd.ofCode f.a f.x; let b ← Opnd.ofCode f.b f.x; some (.mulhu p d a b)
    | _ => none
  | 0x04 => match f.fn.toNat with
    | 0 => do let p ← f.pred; let d ← Dst.ofCode f.d; let a ← Opnd.ofCode f.a f.x; let b ← Opnd.ofCode f.b f.x; some (.divs p d a b)
    | 1 => do let p ← f.pred; let d ← Dst.ofCode f.d; let a ← Opnd.ofCode f.a f.x; let b ← Opnd.ofCode f.b f.x; some (.divu p d a b)
    | 2 => do let p ← f.pred; let d ← Dst.ofCode f.d; let a ← Opnd.ofCode f.a f.x; let b ← Opnd.ofCode f.b f.x; some (.rems p d a b)
    | 3 => do let p ← f.pred; let d ← Dst.ofCode f.d; let a ← Opnd.ofCode f.a f.x; let b ← Opnd.ofCode f.b f.x; some (.remu p d a b)
    | _ => none
  | 0x05 => match f.fn.toNat with
    | 0 => do let p ← f.pred; let d ← Dst.ofCode f.d; let a ← Opnd.ofCode f.a f.x; let b ← Opnd.ofCode f.b f.x; some (.andI p d a b)
    | 1 => do let p ← f.pred; let d ← Dst.ofCode f.d; let a ← Opnd.ofCode f.a f.x; let b ← Opnd.ofCode f.b f.x; some (.orI p d a b)
    | 2 => do let p ← f.pred; let d ← Dst.ofCode f.d; let a ← Opnd.ofCode f.a f.x; let b ← Opnd.ofCode f.b f.x; some (.xorI p d a b)
    | 3 => do let p ← f.pred; let d ← Dst.ofCode f.d; let a ← Opnd.ofCode f.a f.x; let b ← Opnd.ofCode f.b f.x; some (.andn p d a b)
    | 4 => do let p ← f.pred; let d ← Dst.ofCode f.d; let a ← Opnd.ofCode f.a f.x; let b ← Opnd.ofCode f.b f.x; some (.orn p d a b)
    | 5 => do let p ← f.pred; let d ← Dst.ofCode f.d; let a ← Opnd.ofCode f.a f.x; let b ← Opnd.ofCode f.b f.x; some (.xnor p d a b)
    | _ => none
  | 0x06 => match f.fn.toNat with
    | 0 => do let p ← f.pred; let d ← Dst.ofCode f.d; let a ← Opnd.ofCode f.a f.x; let b ← Opnd.ofCode f.b f.x; some (.shl p d a b)
    | 1 => do let p ← f.pred; let d ← Dst.ofCode f.d; let a ← Opnd.ofCode f.a f.x; let b ← Opnd.ofCode f.b f.x; some (.shr p d a b)
    | 2 => do let p ← f.pred; let d ← Dst.ofCode f.d; let a ← Opnd.ofCode f.a f.x; let b ← Opnd.ofCode f.b f.x; some (.sra p d a b)
    | 3 => do let p ← f.pred; let d ← Dst.ofCode f.d; let a ← Opnd.ofCode f.a f.x; let b ← Opnd.ofCode f.b f.x; some (.ror p d a b)
    | _ => none
  | 0x07 => match f.fn.toNat with
    | 0 => do let p ← f.pred; let d ← Dst.ofCode f.d; let a ← Opnd.ofCode f.a f.x; let b ← Opnd.ofCode f.b f.x; some (.mins p d a b)
    | 1 => do let p ← f.pred; let d ← Dst.ofCode f.d; let a ← Opnd.ofCode f.a f.x; let b ← Opnd.ofCode f.b f.x; some (.minu p d a b)
    | 2 => do let p ← f.pred; let d ← Dst.ofCode f.d; let a ← Opnd.ofCode f.a f.x; let b ← Opnd.ofCode f.b f.x; some (.maxs p d a b)
    | 3 => do let p ← f.pred; let d ← Dst.ofCode f.d; let a ← Opnd.ofCode f.a f.x; let b ← Opnd.ofCode f.b f.x; some (.maxu p d a b)
    | _ => none
  | 0x08 => match f.fn.toNat with
    | 0 => do let p ← f.pred; let d ← Dst.ofCode f.d; let a ← Opnd.ofCode f.a f.x; some (.clz p d a)
    | 1 => do let p ← f.pred; let d ← Dst.ofCode f.d; let a ← Opnd.ofCode f.a f.x; some (.ctz p d a)
    | 2 => do let p ← f.pred; let d ← Dst.ofCode f.d; let a ← Opnd.ofCode f.a f.x; some (.popc p d a)
    | 3 => do let p ← f.pred; let d ← Dst.ofCode f.d; let a ← Opnd.ofCode f.a f.x; some (.brev p d a)
    | 4 => do let p ← f.pred; let d ← Dst.ofCode f.d; let a ← Opnd.ofCode f.a f.x; some (.bswap p d a)
    | _ => none
  | 0x09 => match f.fn.toNat with
    | 0 => do let p ← f.pred; let d ← Dst.ofCode f.d; let x := f.x; some (.movi p d x)
    | _ => none
  | 0x0A => match f.fn.toNat with
    | 0 => do let p ← f.pred; let d ← Dst.ofCode f.d; let a ← Opnd.ofCode f.a f.x; let x := f.x; some (.movx p d a x)
    | _ => none
  | 0x0B => match f.fn.toNat with
    | 0 => do let p ← f.pred; let d ← Dst.ofCode f.d; let a ← Opnd.ofCode f.a f.x; let b ← Opnd.ofCode f.b f.x; some (.extu p d a b)
    | 1 => do let p ← f.pred; let d ← Dst.ofCode f.d; let a ← Opnd.ofCode f.a f.x; let b ← Opnd.ofCode f.b f.x; some (.exts p d a b)
    | 2 => do let p ← f.pred; let d ← Dst.ofCode f.d; let a ← Opnd.ofCode f.a f.x; let b ← Opnd.ofCode f.b f.x; let pos := f.x.extractLsb' 0 6; let len := f.x.extractLsb' 6 6; some (.ins p d a b pos len)
    | _ => none
  | 0x0C => match f.fn.toNat with
    | 0 => do let p ← f.pred; let d ← Dst.ofCode f.d; let a ← Opnd.ofCode f.a f.x; let b ← Opnd.ofCode f.b f.x; some (.cmpEq p d a b)
    | 1 => do let p ← f.pred; let d ← Dst.ofCode f.d; let a ← Opnd.ofCode f.a f.x; let b ← Opnd.ofCode f.b f.x; some (.cmpNe p d a b)
    | 2 => do let p ← f.pred; let d ← Dst.ofCode f.d; let a ← Opnd.ofCode f.a f.x; let b ← Opnd.ofCode f.b f.x; some (.cmpLts p d a b)
    | 3 => do let p ← f.pred; let d ← Dst.ofCode f.d; let a ← Opnd.ofCode f.a f.x; let b ← Opnd.ofCode f.b f.x; some (.cmpLes p d a b)
    | 4 => do let p ← f.pred; let d ← Dst.ofCode f.d; let a ← Opnd.ofCode f.a f.x; let b ← Opnd.ofCode f.b f.x; some (.cmpLtu p d a b)
    | 5 => do let p ← f.pred; let d ← Dst.ofCode f.d; let a ← Opnd.ofCode f.a f.x; let b ← Opnd.ofCode f.b f.x; some (.cmpLeu p d a b)
    | _ => none
  | 0x0D => match f.fn.toNat with
    | 0 => do let p ← f.pred; let c ← Opnd.ofCode (f.x.extractLsb' 11 8) f.x; let d ← Dst.ofCode f.d; let a ← Opnd.ofCode f.a f.x; let b ← Opnd.ofCode f.b f.x; some (.sel p d a b c)
    | _ => none
  | 0x0E => match f.fn.toNat with
    | 0 => do let p ← f.pred; let d ← Dst.ofCode f.d; let a ← Opnd.ofCode f.a f.x; let b ← Opnd.ofCode f.b f.x; some (.pand p d a b)
    | 1 => do let p ← f.pred; let d ← Dst.ofCode f.d; let a ← Opnd.ofCode f.a f.x; let b ← Opnd.ofCode f.b f.x; some (.por p d a b)
    | 2 => do let p ← f.pred; let d ← Dst.ofCode f.d; let a ← Opnd.ofCode f.a f.x; let b ← Opnd.ofCode f.b f.x; some (.pxor p d a b)
    | 3 => do let p ← f.pred; let d ← Dst.ofCode f.d; let a ← Opnd.ofCode f.a f.x; some (.pnot p d a)
    | 4 => do let p ← f.pred; let d ← Dst.ofCode f.d; let a ← Opnd.ofCode f.a f.x; some (.tstnz p d a)
    | _ => none
  | 0x0F => match f.fn.toNat with
    | 0 => do let p ← f.pred; let d ← Dst.ofCode f.d; let a ← Opnd.ofCode f.a f.x; some (.mov p d a)
    | 1 => do let p ← f.pred; let d ← Dst.ofCode f.d; let a ← Opnd.ofCode f.a f.x; some (.movgf p d a)
    | 2 => do let p ← f.pred; let d ← Dst.ofCode f.d; let a ← Opnd.ofCode f.a f.x; some (.movfg p d a)
    | _ => none
  | _ => none

/-- The control (R80) rows: the instruction the fields name, before the whole-word check. -/
def decCtl (f : Fields) : Option Instr :=
  match f.op.toNat with
  | 0x10 => match f.fn.toNat with
    | 0 => do let p ← f.pred; let x := f.x; some (.br p x)
    | _ => none
  | 0x11 => match f.fn.toNat with
    | 0 => do let p ← f.pred; let a ← Opnd.ofCode f.a f.x; some (.brx p a)
    | _ => none
  | 0x12 => match f.fn.toNat with
    | 0 => do let p ← f.pred; let x := f.x; let link := f.d.extractLsb' 0 6; some (.call p link x)
    | _ => none
  | 0x13 => match f.fn.toNat with
    | 0 => do let p ← f.pred; let a ← Opnd.ofCode f.a f.x; some (.ret p a)
    | _ => none
  | 0x14 => match f.fn.toNat with
    | 0 => do let p ← f.pred; some (.endt p)
    | 1 => do let p ← f.pred; some (.yieldT p)
    | 2 => do let p ← f.pred; let a ← Opnd.ofCode f.a f.x; some (.park p a)
    | _ => none
  | 0x15 => match f.fn.toNat with
    | 0 => do let p ← f.pred; let n := f.x.extractLsb' 0 8; some (.trap p n)
    | _ => none
  | 0x16 => match f.fn.toNat with
    | 0 => do let p ← f.pred; let d ← Dst.ofCode f.d; let num := f.x.extractLsb' 0 12; some (.rds p d num)
    | 1 => do let p ← f.pred; let a ← Opnd.ofCode f.a f.x; let num := f.x.extractLsb' 0 12; some (.wrs p num a)
    | _ => none
  | 0x17 => match f.fn.toNat with
    | 0 => do let p ← f.pred; some (.tret p)
    | 1 => do let p ← f.pred; let b ← Opnd.ofCode f.b f.x; some (.tretAt p b)
    | _ => none
  | _ => none

/-- The scalar floating-point (R82, R122) rows: the instruction the fields name, before the whole-word check. -/
def decFp (f : Fields) : Option Instr :=
  match f.op.toNat with
  | 0x20 => do let p ← f.pred; let d ← Dst.ofCode f.d; let a ← Opnd.ofCode f.a f.x; let b ← Opnd.ofCode f.b f.x; let fmt := Fmt.ofCode (f.fn.extractLsb' 3 2); let rnd ← Rnd.ofCode (f.fn.extractLsb' 0 3); some (.fadd p d fmt rnd a b)
  | 0x21 => do let p ← f.pred; let d ← Dst.ofCode f.d; let a ← Opnd.ofCode f.a f.x; let b ← Opnd.ofCode f.b f.x; let fmt := Fmt.ofCode (f.fn.extractLsb' 3 2); let rnd ← Rnd.ofCode (f.fn.extractLsb' 0 3); some (.fsub p d fmt rnd a b)
  | 0x22 => do let p ← f.pred; let d ← Dst.ofCode f.d; let a ← Opnd.ofCode f.a f.x; let b ← Opnd.ofCode f.b f.x; let fmt := Fmt.ofCode (f.fn.extractLsb' 3 2); let rnd ← Rnd.ofCode (f.fn.extractLsb' 0 3); some (.fmul p d fmt rnd a b)
  | 0x23 => do let p ← f.pred; let c ← Opnd.ofCode (f.x.extractLsb' 11 8) f.x; let d ← Dst.ofCode f.d; let a ← Opnd.ofCode f.a f.x; let b ← Opnd.ofCode f.b f.x; let fmt := Fmt.ofCode (f.fn.extractLsb' 3 2); let rnd ← Rnd.ofCode (f.fn.extractLsb' 0 3); some (.ffma p d fmt rnd a b c)
  | 0x24 => do let p ← f.pred; let d ← Dst.ofCode f.d; let a ← Opnd.ofCode f.a f.x; let b ← Opnd.ofCode f.b f.x; let fmt := Fmt.ofCode (f.fn.extractLsb' 3 2); let rnd ← Rnd.ofCode (f.fn.extractLsb' 0 3); some (.fdiv p d fmt rnd a b)
  | 0x25 => do let p ← f.pred; let d ← Dst.ofCode f.d; let a ← Opnd.ofCode f.a f.x; let fmt := Fmt.ofCode (f.fn.extractLsb' 3 2); let rnd ← Rnd.ofCode (f.fn.extractLsb' 0 3); some (.fsqrt p d fmt rnd a)
  | 0x26 =>
    if f.fn.extractLsb' 0 3 = 0#3 then (do let p ← f.pred; let d ← Dst.ofCode f.d; let a ← Opnd.ofCode f.a f.x; let b ← Opnd.ofCode f.b f.x; let fmt := Fmt.ofCode (f.fn.extractLsb' 3 2); some (.fmin p d fmt a b)) else
    if f.fn.extractLsb' 0 3 = 1#3 then (do let p ← f.pred; let d ← Dst.ofCode f.d; let a ← Opnd.ofCode f.a f.x; let b ← Opnd.ofCode f.b f.x; let fmt := Fmt.ofCode (f.fn.extractLsb' 3 2); some (.fmax p d fmt a b)) else
    if f.fn.extractLsb' 0 3 = 2#3 then (do let p ← f.pred; let d ← Dst.ofCode f.d; let a ← Opnd.ofCode f.a f.x; let b ← Opnd.ofCode f.b f.x; let fmt := Fmt.ofCode (f.fn.extractLsb' 3 2); some (.fminm p d fmt a b)) else
    if f.fn.extractLsb' 0 3 = 3#3 then (do let p ← f.pred; let d ← Dst.ofCode f.d; let a ← Opnd.ofCode f.a f.x; let b ← Opnd.ofCode f.b f.x; let fmt := Fmt.ofCode (f.fn.extractLsb' 3 2); some (.fmaxm p d fmt a b)) else
    none
  | 0x27 =>
    if f.fn.extractLsb' 0 3 = 0#3 then (do let p ← f.pred; let d ← Dst.ofCode f.d; let a ← Opnd.ofCode f.a f.x; let b ← Opnd.ofCode f.b f.x; let fmt := Fmt.ofCode (f.fn.extractLsb' 3 2); some (.fcmpEq p d fmt a b)) else
    if f.fn.extractLsb' 0 3 = 1#3 then (do let p ← f.pred; let d ← Dst.ofCode f.d; let a ← Opnd.ofCode f.a f.x; let b ← Opnd.ofCode f.b f.x; let fmt := Fmt.ofCode (f.fn.extractLsb' 3 2); some (.fcmpLt p d fmt a b)) else
    if f.fn.extractLsb' 0 3 = 2#3 then (do let p ← f.pred; let d ← Dst.ofCode f.d; let a ← Opnd.ofCode f.a f.x; let b ← Opnd.ofCode f.b f.x; let fmt := Fmt.ofCode (f.fn.extractLsb' 3 2); some (.fcmpLe p d fmt a b)) else
    if f.fn.extractLsb' 0 3 = 3#3 then (do let p ← f.pred; let d ← Dst.ofCode f.d; let a ← Opnd.ofCode f.a f.x; let b ← Opnd.ofCode f.b f.x; let fmt := Fmt.ofCode (f.fn.extractLsb' 3 2); some (.fcmpUn p d fmt a b)) else
    if f.fn.extractLsb' 0 3 = 4#3 then (do let p ← f.pred; let d ← Dst.ofCode f.d; let a ← Opnd.ofCode f.a f.x; let b ← Opnd.ofCode f.b f.x; let fmt := Fmt.ofCode (f.fn.extractLsb' 3 2); some (.fcmpEqs p d fmt a b)) else
    none
  | 0x28 => do let p ← f.pred; let d ← Dst.ofCode f.d; let a ← Opnd.ofCode f.a f.x; let dst := Fmt.ofCode (f.fn.extractLsb' 3 2); let src := Fmt.ofCode (f.x.extractLsb' 0 2); let rnd ← Rnd.ofCode (f.x.extractLsb' 2 3); some (.fcvt p d dst src rnd a)
  | 0x29 => match f.fn.toNat with
    | 0 => do let p ← f.pred; let d ← Dst.ofCode f.d; let a ← Opnd.ofCode f.a f.x; let fmt := Fmt.ofCode (f.x.extractLsb' 0 2); let rnd ← Rnd.ofCode (f.x.extractLsb' 2 3); some (.fcviFs p d fmt rnd a)
    | 1 => do let p ← f.pred; let d ← Dst.ofCode f.d; let a ← Opnd.ofCode f.a f.x; let fmt := Fmt.ofCode (f.x.extractLsb' 0 2); let rnd ← Rnd.ofCode (f.x.extractLsb' 2 3); some (.fcviFu p d fmt rnd a)
    | 2 => do let p ← f.pred; let d ← Dst.ofCode f.d; let a ← Opnd.ofCode f.a f.x; let fmt := Fmt.ofCode (f.x.extractLsb' 0 2); let rnd ← Rnd.ofCode (f.x.extractLsb' 2 3); some (.fcviSf p d fmt rnd a)
    | 3 => do let p ← f.pred; let d ← Dst.ofCode f.d; let a ← Opnd.ofCode f.a f.x; let fmt := Fmt.ofCode (f.x.extractLsb' 0 2); let rnd ← Rnd.ofCode (f.x.extractLsb' 2 3); some (.fcviUf p d fmt rnd a)
    | _ => none
  | 0x2A =>
    if f.fn.extractLsb' 0 3 = 0#3 then (do let p ← f.pred; let d ← Dst.ofCode f.d; let a ← Opnd.ofCode f.a f.x; let fmt := Fmt.ofCode (f.fn.extractLsb' 3 2); some (.fabs p d fmt a)) else
    if f.fn.extractLsb' 0 3 = 1#3 then (do let p ← f.pred; let d ← Dst.ofCode f.d; let a ← Opnd.ofCode f.a f.x; let fmt := Fmt.ofCode (f.fn.extractLsb' 3 2); some (.fneg p d fmt a)) else
    if f.fn.extractLsb' 0 3 = 2#3 then (do let p ← f.pred; let d ← Dst.ofCode f.d; let a ← Opnd.ofCode f.a f.x; let b ← Opnd.ofCode f.b f.x; let fmt := Fmt.ofCode (f.fn.extractLsb' 3 2); some (.fcps p d fmt a b)) else
    none
  | 0x2B =>
    if f.fn.extractLsb' 0 3 = 0#3 then (do let p ← f.pred; let d ← Dst.ofCode f.d; let a ← Opnd.ofCode f.a f.x; let fmt := Fmt.ofCode (f.fn.extractLsb' 3 2); some (.fsigr p d fmt a)) else
    if f.fn.extractLsb' 0 3 = 1#3 then (do let p ← f.pred; let d ← Dst.ofCode f.d; let a ← Opnd.ofCode f.a f.x; let b ← Opnd.ofCode f.b f.x; let fmt := Fmt.ofCode (f.fn.extractLsb' 3 2); some (.fsigw p d fmt a b)) else
    if f.fn.extractLsb' 0 3 = 2#3 then (do let p ← f.pred; let d ← Dst.ofCode f.d; let a ← Opnd.ofCode f.a f.x; let b ← Opnd.ofCode f.b f.x; let fmt := Fmt.ofCode (f.fn.extractLsb' 3 2); some (.fsiglt p d fmt a b)) else
    none
  | 0x2C =>
    if f.fn.extractLsb' 0 3 = 0#3 then (do let p ← f.pred; let d ← Dst.ofCode f.d; let a ← Opnd.ofCode f.a f.x; let fmt := Fmt.ofCode (f.fn.extractLsb' 3 2); some (.frcp p d fmt a)) else
    if f.fn.extractLsb' 0 3 = 1#3 then (do let p ← f.pred; let d ← Dst.ofCode f.d; let a ← Opnd.ofCode f.a f.x; let fmt := Fmt.ofCode (f.fn.extractLsb' 3 2); some (.frsq p d fmt a)) else
    if f.fn.extractLsb' 0 3 = 2#3 then (do let p ← f.pred; let d ← Dst.ofCode f.d; let a ← Opnd.ofCode f.a f.x; let fmt := Fmt.ofCode (f.fn.extractLsb' 3 2); some (.fex2 p d fmt a)) else
    if f.fn.extractLsb' 0 3 = 3#3 then (do let p ← f.pred; let d ← Dst.ofCode f.d; let a ← Opnd.ofCode f.a f.x; let fmt := Fmt.ofCode (f.fn.extractLsb' 3 2); some (.flg2 p d fmt a)) else
    none
  | 0x2D => do let p ← f.pred; let d ← Dst.ofCode f.d; let a ← Opnd.ofCode f.a f.x; let fmt := Fmt.ofCode (f.fn.extractLsb' 3 2); some (.fcls p d fmt a)
  | _ => none

/-- The vector (R83, R139) rows: the instruction the fields name, before the whole-word check. -/
def decVec (f : Fields) : Option Instr :=
  match f.op.toNat with
  | 0x30 => do let p ← f.pred; let d ← Dst.ofCode f.d; let a ← Opnd.ofCode f.a f.x; let b ← Opnd.ofCode f.b f.x; let t ← VArith.ofCode f.fn; some (.vadd p d t a b)
  | 0x31 => do let p ← f.pred; let d ← Dst.ofCode f.d; let a ← Opnd.ofCode f.a f.x; let b ← Opnd.ofCode f.b f.x; let t ← VArith.ofCode f.fn; some (.vsub p d t a b)
  | 0x32 => do let p ← f.pred; let d ← Dst.ofCode f.d; let a ← Opnd.ofCode f.a f.x; let b ← Opnd.ofCode f.b f.x; let t ← VArith.ofCode f.fn; some (.vmul p d t a b)
  | 0x33 => do let p ← f.pred; let c ← Opnd.ofCode (f.x.extractLsb' 11 8) f.x; let d ← Dst.ofCode f.d; let a ← Opnd.ofCode f.a f.x; let b ← Opnd.ofCode f.b f.x; let t ← VArith.ofCode f.fn; some (.vfma p d t a b c)
  | 0x34 => do let p ← f.pred; let d ← Dst.ofCode f.d; let a ← Opnd.ofCode f.a f.x; let b ← Opnd.ofCode f.b f.x; let k ← VMnxOp.ofCode f.fn; some (.vmnx p d k a b)
  | 0x35 => do let p ← f.pred; let d ← Dst.ofCode f.d; let a ← Opnd.ofCode f.a f.x; let b ← Opnd.ofCode f.b f.x; let k ← VCmpOp.ofCode f.fn; some (.vcmp p d k a b)
  | 0x36 => match f.fn.toNat with
    | 0 => do let p ← f.pred; let d ← Dst.ofCode f.d; let a ← Opnd.ofCode f.a f.x; let b ← Opnd.ofCode f.b f.x; some (.vselSet p d a b)
    | 1 => do let p ← f.pred; let d ← Dst.ofCode f.d; let a ← Opnd.ofCode f.a f.x; let b ← Opnd.ofCode f.b f.x; some (.vselClr p d a b)
    | _ => none
  | 0x37 => match f.fn.toNat with
    | 0 => do let p ← f.pred; let d ← Dst.ofCode f.d; let a ← Opnd.ofCode f.a f.x; some (.vredSum p d a)
    | 1 => do let p ← f.pred; let d ← Dst.ofCode f.d; let a ← Opnd.ofCode f.a f.x; some (.vredMax p d a)
    | 2 => do let p ← f.pred; let d ← Dst.ofCode f.d; let a ← Opnd.ofCode f.a f.x; some (.vredMin p d a)
    | 3 => do let p ← f.pred; let d ← Dst.ofCode f.d; let a ← Opnd.ofCode f.a f.x; some (.vredAmax p d a)
    | _ => none
  | 0x38 => do let p ← f.pred; let d ← Dst.ofCode f.d; let a ← Opnd.ofCode f.a f.x; let t := VTy.ofCode (f.fn.extractLsb' 4 1); some (.vbc p d t a)
  | 0x39 => match f.fn.toNat with
    | 0 => do let p ← f.pred; let d ← Dst.ofCode f.d; let a ← Opnd.ofCode f.a f.x; let b ← Opnd.ofCode f.b f.x; some (.vperm p d a b)
    | _ => none
  | 0x3A => match f.fn.toNat with
    | 0 => do let p ← f.pred; let d ← Dst.ofCode f.d; let a ← Opnd.ofCode f.a f.x; some (.vactRelu p d a)
    | 1 => do let p ← f.pred; let d ← Dst.ofCode f.d; let a ← Opnd.ofCode f.a f.x; some (.vactGelt p d a)
    | 2 => do let p ← f.pred; let d ← Dst.ofCode f.d; let a ← Opnd.ofCode f.a f.x; some (.vactSilu p d a)
    | 3 => do let p ← f.pred; let d ← Dst.ofCode f.d; let a ← Opnd.ofCode f.a f.x; some (.vactExp p d a)
    | 4 => do let p ← f.pred; let d ← Dst.ofCode f.d; let a ← Opnd.ofCode f.a f.x; some (.vactTanh p d a)
    | 5 => do let p ← f.pred; let d ← Dst.ofCode f.d; let a ← Opnd.ofCode f.a f.x; some (.vactSigm p d a)
    | 6 => do let p ← f.pred; let d ← Dst.ofCode f.d; let a ← Opnd.ofCode f.a f.x; some (.vactRcp p d a)
    | 7 => do let p ← f.pred; let d ← Dst.ofCode f.d; let a ← Opnd.ofCode f.a f.x; some (.vactRsq p d a)
    | _ => none
  | 0x3B => match f.fn.toNat with
    | 0 => do let p ← f.pred; let d ← Dst.ofCode f.d; let a ← Opnd.ofCode f.a f.x; some (.vcvtBf16F32 p d a)
    | 1 => do let p ← f.pred; let d ← Dst.ofCode f.d; let a ← Opnd.ofCode f.a f.x; some (.vcvtF32Bf16 p d a)
    | 2 => do let p ← f.pred; let d ← Dst.ofCode f.d; let a ← Opnd.ofCode f.a f.x; some (.vcvtF16F32 p d a)
    | 3 => do let p ← f.pred; let d ← Dst.ofCode f.d; let a ← Opnd.ofCode f.a f.x; some (.vcvtF32F16 p d a)
    | 4 => do let p ← f.pred; let d ← Dst.ofCode f.d; let a ← Opnd.ofCode f.a f.x; some (.vcvtI32F32 p d a)
    | 5 => do let p ← f.pred; let d ← Dst.ofCode f.d; let a ← Opnd.ofCode f.a f.x; some (.vcvtF32I32 p d a)
    | 6 => do let p ← f.pred; let d ← Dst.ofCode f.d; let a ← Opnd.ofCode f.a f.x; some (.vcvtE5m2F32 p d a)
    | 7 => do let p ← f.pred; let d ← Dst.ofCode f.d; let a ← Opnd.ofCode f.a f.x; some (.vcvtF32E5m2 p d a)
    | 8 => do let p ← f.pred; let d ← Dst.ofCode f.d; let a ← Opnd.ofCode f.a f.x; some (.vcvtF32E4m3 p d a)
    | _ => none
  | 0x3C => match f.fn.toNat with
    | 0 => do let p ← f.pred; let d ← Dst.ofCode f.d; let a ← Opnd.ofCode f.a f.x; let b ← Opnd.ofCode f.b f.x; some (.vqntE4m3Sat p d a b)
    | 1 => do let p ← f.pred; let d ← Dst.ofCode f.d; let a ← Opnd.ofCode f.a f.x; let b ← Opnd.ofCode f.b f.x; some (.vqntE4m3Nan p d a b)
    | 2 => do let p ← f.pred; let d ← Dst.ofCode f.d; let a ← Opnd.ofCode f.a f.x; let b ← Opnd.ofCode f.b f.x; some (.vqntMxfp4 p d a b)
    | 3 => do let p ← f.pred; let d ← Dst.ofCode f.d; let a ← Opnd.ofCode f.a f.x; let b ← Opnd.ofCode f.b f.x; some (.vqntMxint8 p d a b)
    | 4 => do let p ← f.pred; let d ← Dst.ofCode f.d; let a ← Opnd.ofCode f.a f.x; let b ← Opnd.ofCode f.b f.x; some (.vqntMxfp8 p d a b)
    | 5 => do let p ← f.pred; let d ← Dst.ofCode f.d; let a ← Opnd.ofCode f.a f.x; let b ← Opnd.ofCode f.b f.x; some (.vqntInt8 p d a b)
    | 6 => do let p ← f.pred; let d ← Dst.ofCode f.d; let a ← Opnd.ofCode f.a f.x; let b ← Opnd.ofCode f.b f.x; some (.vqntInt4 p d a b)
    | _ => none
  | 0x3D => match f.fn.toNat with
    | 0 => do let p ← f.pred; let d ← Dst.ofCode f.d; let a ← Opnd.ofCode f.a f.x; let b ← Opnd.ofCode f.b f.x; some (.vdqE4m3Sat p d a b)
    | 1 => do let p ← f.pred; let d ← Dst.ofCode f.d; let a ← Opnd.ofCode f.a f.x; let b ← Opnd.ofCode f.b f.x; some (.vdqE4m3Nan p d a b)
    | 2 => do let p ← f.pred; let d ← Dst.ofCode f.d; let a ← Opnd.ofCode f.a f.x; let hi := f.x.getLsbD 0; some (.vdqMxfp4 p d hi a)
    | 3 => do let p ← f.pred; let d ← Dst.ofCode f.d; let a ← Opnd.ofCode f.a f.x; let hi := f.x.getLsbD 0; some (.vdqMxint8 p d hi a)
    | 4 => do let p ← f.pred; let d ← Dst.ofCode f.d; let a ← Opnd.ofCode f.a f.x; let hi := f.x.getLsbD 0; some (.vdqMxfp8 p d hi a)
    | 5 => do let p ← f.pred; let d ← Dst.ofCode f.d; let a ← Opnd.ofCode f.a f.x; let b ← Opnd.ofCode f.b f.x; some (.vdqInt8 p d a b)
    | 6 => do let p ← f.pred; let d ← Dst.ofCode f.d; let a ← Opnd.ofCode f.a f.x; let b ← Opnd.ofCode f.b f.x; some (.vdqInt4 p d a b)
    | _ => none
  | 0x3E => match f.fn.toNat with
    | 0 => do let p ← f.pred; let d ← Dst.ofCode f.d; let a ← Opnd.ofCode f.a f.x; some (.vsigRd p d a)
    | 1 => do let p ← f.pred; let d ← Dst.ofCode f.d; let a ← Opnd.ofCode f.a f.x; let b ← Opnd.ofCode f.b f.x; some (.vsigMin p d a b)
    | 2 => do let p ← f.pred; let d ← Dst.ofCode f.d; let a ← Opnd.ofCode f.a f.x; let b ← Opnd.ofCode f.b f.x; some (.vsigLt p d a b)
    | _ => none
  | 0x3F =>
    if f.fn.extractLsb' 0 4 = 0#4 then (do let p ← f.pred; let d ← Dst.ofCode f.d; let a ← Opnd.ofCode f.a f.x; let b ← Opnd.ofCode f.b f.x; let t := VTy.ofCode (f.fn.extractLsb' 4 1); some (.vext p d t a b)) else
    if f.fn.extractLsb' 0 4 = 1#4 then (do let p ← f.pred; let d ← Dst.ofCode f.d; let a ← Opnd.ofCode f.a f.x; let b ← Opnd.ofCode f.b f.x; let t := VTy.ofCode (f.fn.extractLsb' 4 1); let lane := f.x.extractLsb' 0 4; some (.vins p d t lane a b)) else
    if f.fn = 2 then (do let p ← f.pred; let d ← Dst.ofCode f.d; some (.vidx p d)) else
    if f.fn = 3 then (do let p ← f.pred; let d ← Dst.ofCode f.d; let a ← Opnd.ofCode f.a f.x; let b ← Opnd.ofCode f.b f.x; some (.vshr p d a b)) else
    none
  | 0x40 => match f.fn.toNat with
    | 0 => do let p ← f.pred; let d ← Dst.ofCode f.d; let a ← Opnd.ofCode f.a f.x; let b ← Opnd.ofCode f.b f.x; some (.vand p d a b)
    | 1 => do let p ← f.pred; let d ← Dst.ofCode f.d; let a ← Opnd.ofCode f.a f.x; let b ← Opnd.ofCode f.b f.x; some (.vor p d a b)
    | 2 => do let p ← f.pred; let d ← Dst.ofCode f.d; let a ← Opnd.ofCode f.a f.x; let b ← Opnd.ofCode f.b f.x; some (.vxor p d a b)
    | 3 => do let p ← f.pred; let d ← Dst.ofCode f.d; let a ← Opnd.ofCode f.a f.x; let b ← Opnd.ofCode f.b f.x; some (.vshl p d a b)
    | 4 => do let p ← f.pred; let d ← Dst.ofCode f.d; let a ← Opnd.ofCode f.a f.x; let b ← Opnd.ofCode f.b f.x; some (.vshrl p d a b)
    | 5 => do let p ← f.pred; let d ← Dst.ofCode f.d; let a ← Opnd.ofCode f.a f.x; let b ← Opnd.ofCode f.b f.x; some (.vsra p d a b)
    | _ => none
  | 0x41 => do let p ← f.pred; let d ← Dst.ofCode f.d; let a ← Opnd.ofCode f.a f.x; let b ← Opnd.ofCode f.b f.x; let t ← VArith.ofCode f.fn; some (.vscl p d t a b)
  | _ => none

/-- The memory (R84) rows: the instruction the fields name, before the whole-word check. -/
def decMem (f : Fields) : Option Instr :=
  match f.op.toNat with
  | 0x48 =>
    if f.fn.extractLsb' 3 2 = 0#2 then (do let p ← f.pred; let d ← Dst.ofCode f.d; let a ← Opnd.ofCode f.a f.x; let b ← Opnd.ofCode f.b f.x; let mx := MX.ofX f.x; let sz := Size.ofCode (f.fn.extractLsb' 0 2); let sgn := f.fn.getLsbD 2; some (.ld p d mx sz sgn a b)) else
    if f.fn.extractLsb' 3 2 = 1#2 then (do let p ← f.pred; let d ← Dst.ofCode f.d; let a ← Opnd.ofCode f.a f.x; let b ← Opnd.ofCode f.b f.x; let mx := MX.ofX f.x; let sz := Size.ofCode (f.fn.extractLsb' 0 2); let sgn := f.fn.getLsbD 2; some (.ldWaitf p d mx sz sgn a b)) else
    if f.fn.extractLsb' 3 2 = 2#2 then (do let p ← f.pred; let d ← Dst.ofCode f.d; let a ← Opnd.ofCode f.a f.x; let b ← Opnd.ofCode f.b f.x; let mx := MX.ofX f.x; let sz := Size.ofCode (f.fn.extractLsb' 0 2); let sgn := f.fn.getLsbD 2; some (.ldTake p d mx sz sgn a b)) else
    if f.fn.extractLsb' 3 2 = 3#2 then (do let p ← f.pred; let d ← Dst.ofCode f.d; let a ← Opnd.ofCode f.a f.x; let b ← Opnd.ofCode f.b f.x; let mx := MX.ofX f.x; let sz := Size.ofCode (f.fn.extractLsb' 0 2); some (.ldPres p d mx sz a b)) else
    none
  | 0x49 =>
    if f.fn.extractLsb' 3 2 = 0#2 then (do let p ← f.pred; let c ← Opnd.ofCode f.d f.x; let a ← Opnd.ofCode f.a f.x; let b ← Opnd.ofCode f.b f.x; let mx := MX.ofX f.x; let sz := Size.ofCode (f.fn.extractLsb' 0 2); some (.st p mx sz a b c)) else
    if f.fn.extractLsb' 3 2 = 1#2 then (do let p ← f.pred; let c ← Opnd.ofCode f.d f.x; let a ← Opnd.ofCode f.a f.x; let b ← Opnd.ofCode f.b f.x; let mx := MX.ofX f.x; let sz := Size.ofCode (f.fn.extractLsb' 0 2); some (.stFill p mx sz a b c)) else
    if f.fn.extractLsb' 3 2 = 2#2 then (do let p ← f.pred; let c ← Opnd.ofCode f.d f.x; let a ← Opnd.ofCode f.a f.x; let b ← Opnd.ofCode f.b f.x; let mx := MX.ofX f.x; let sz := Size.ofCode (f.fn.extractLsb' 0 2); some (.stSetf p mx sz a b c)) else
    if f.fn.extractLsb' 3 2 = 3#2 then (do let p ← f.pred; let c ← Opnd.ofCode f.d f.x; let a ← Opnd.ofCode f.a f.x; let b ← Opnd.ofCode f.b f.x; let mx := MX.ofX f.x; let sz := Size.ofCode (f.fn.extractLsb' 0 2); some (.stClre p mx sz a b c)) else
    none
  | 0x4A =>
    if f.fn.extractLsb' 4 1 = 0#1 ∧ f.fn.extractLsb' 0 1 = 0#1 then (do let p ← f.pred; let d ← Dst.ofCode f.d; let a ← Opnd.ofCode f.a f.x; let b ← Opnd.ofCode f.b f.x; let mx := MX.ofX f.x; let fmt := Fmt.ofCode (f.fn.extractLsb' 1 2); let tagged := f.fn.getLsbD 3; some (.flsLd p d mx fmt tagged a b)) else
    if f.fn.extractLsb' 4 1 = 1#1 ∧ f.fn.extractLsb' 0 1 = 0#1 then (do let p ← f.pred; let d ← Dst.ofCode f.d; let a ← Opnd.ofCode f.a f.x; let b ← Opnd.ofCode f.b f.x; let mx := MX.ofX f.x; let fmt := Fmt.ofCode (f.fn.extractLsb' 1 2); let tagged := f.fn.getLsbD 3; some (.flsLdWaitf p d mx fmt tagged a b)) else
    if f.fn.extractLsb' 4 1 = 0#1 ∧ f.fn.extractLsb' 0 1 = 1#1 then (do let p ← f.pred; let c ← Opnd.ofCode f.d f.x; let a ← Opnd.ofCode f.a f.x; let b ← Opnd.ofCode f.b f.x; let mx := MX.ofX f.x; let fmt := Fmt.ofCode (f.fn.extractLsb' 1 2); let tagged := f.fn.getLsbD 3; some (.flsSt p mx fmt tagged a b c)) else
    if f.fn.extractLsb' 4 1 = 1#1 ∧ f.fn.extractLsb' 0 1 = 1#1 then (do let p ← f.pred; let c ← Opnd.ofCode f.d f.x; let a ← Opnd.ofCode f.a f.x; let b ← Opnd.ofCode f.b f.x; let mx := MX.ofX f.x; let fmt := Fmt.ofCode (f.fn.extractLsb' 1 2); let tagged := f.fn.getLsbD 3; some (.flsStFill p mx fmt tagged a b c)) else
    none
  | 0x4B =>
    if f.fn.extractLsb' 1 2 = 0#2 ∧ f.fn.extractLsb' 0 1 = 0#1 then (do let p ← f.pred; let d ← Dst.ofCode f.d; let a ← Opnd.ofCode f.a f.x; let b ← Opnd.ofCode f.b f.x; let mx := MX.ofX f.x; let tagged := f.fn.getLsbD 3; some (.vlsLd p d mx tagged a b)) else
    if f.fn.extractLsb' 1 2 = 1#2 ∧ f.fn.extractLsb' 0 1 = 0#1 then (do let p ← f.pred; let d ← Dst.ofCode f.d; let a ← Opnd.ofCode f.a f.x; let b ← Opnd.ofCode f.b f.x; let mx := MX.ofX f.x; let tagged := f.fn.getLsbD 3; some (.vlsLdWaitf p d mx tagged a b)) else
    if f.fn.extractLsb' 1 2 = 2#2 ∧ f.fn.extractLsb' 0 1 = 0#1 then (do let p ← f.pred; let d ← Dst.ofCode f.d; let a ← Opnd.ofCode f.a f.x; let b ← Opnd.ofCode f.b f.x; let mx := MX.ofX f.x; let tagged := f.fn.getLsbD 3; some (.vlsLdTake p d mx tagged a b)) else
    if f.fn.extractLsb' 1 2 = 0#2 ∧ f.fn.extractLsb' 0 1 = 1#1 then (do let p ← f.pred; let c ← Opnd.ofCode f.d f.x; let a ← Opnd.ofCode f.a f.x; let b ← Opnd.ofCode f.b f.x; let mx := MX.ofX f.x; let tagged := f.fn.getLsbD 3; some (.vlsSt p mx tagged a b c)) else
    if f.fn.extractLsb' 1 2 = 1#2 ∧ f.fn.extractLsb' 0 1 = 1#1 then (do let p ← f.pred; let c ← Opnd.ofCode f.d f.x; let a ← Opnd.ofCode f.a f.x; let b ← Opnd.ofCode f.b f.x; let mx := MX.ofX f.x; let tagged := f.fn.getLsbD 3; some (.vlsStFill p mx tagged a b c)) else
    if f.fn.extractLsb' 1 2 = 2#2 ∧ f.fn.extractLsb' 0 1 = 1#1 then (do let p ← f.pred; let c ← Opnd.ofCode f.d f.x; let a ← Opnd.ofCode f.a f.x; let b ← Opnd.ofCode f.b f.x; let mx := MX.ofX f.x; let tagged := f.fn.getLsbD 3; some (.vlsStSetf p mx tagged a b c)) else
    if f.fn.extractLsb' 1 2 = 3#2 ∧ f.fn.extractLsb' 0 1 = 1#1 then (do let p ← f.pred; let c ← Opnd.ofCode f.d f.x; let a ← Opnd.ofCode f.a f.x; let b ← Opnd.ofCode f.b f.x; let mx := MX.ofX f.x; let tagged := f.fn.getLsbD 3; some (.vlsStClre p mx tagged a b c)) else
    none
  | 0x4C => match f.fn.toNat with
    | 0 => do let p ← f.pred; let d ← Dst.ofCode f.d; let a ← Opnd.ofCode f.a f.x; let b ← Opnd.ofCode f.b f.x; let mx := MX.ofX f.x; let wide := f.x.getLsbD 0; some (.amoAdd p d mx wide a b)
    | 1 => do let p ← f.pred; let d ← Dst.ofCode f.d; let a ← Opnd.ofCode f.a f.x; let b ← Opnd.ofCode f.b f.x; let mx := MX.ofX f.x; let wide := f.x.getLsbD 0; some (.amoAnd p d mx wide a b)
    | 2 => do let p ← f.pred; let d ← Dst.ofCode f.d; let a ← Opnd.ofCode f.a f.x; let b ← Opnd.ofCode f.b f.x; let mx := MX.ofX f.x; let wide := f.x.getLsbD 0; some (.amoOr p d mx wide a b)
    | 3 => do let p ← f.pred; let d ← Dst.ofCode f.d; let a ← Opnd.ofCode f.a f.x; let b ← Opnd.ofCode f.b f.x; let mx := MX.ofX f.x; let wide := f.x.getLsbD 0; some (.amoXor p d mx wide a b)
    | 4 => do let p ← f.pred; let d ← Dst.ofCode f.d; let a ← Opnd.ofCode f.a f.x; let b ← Opnd.ofCode f.b f.x; let mx := MX.ofX f.x; let wide := f.x.getLsbD 0; some (.amoMins p d mx wide a b)
    | 5 => do let p ← f.pred; let d ← Dst.ofCode f.d; let a ← Opnd.ofCode f.a f.x; let b ← Opnd.ofCode f.b f.x; let mx := MX.ofX f.x; let wide := f.x.getLsbD 0; some (.amoMaxs p d mx wide a b)
    | 6 => do let p ← f.pred; let d ← Dst.ofCode f.d; let a ← Opnd.ofCode f.a f.x; let b ← Opnd.ofCode f.b f.x; let mx := MX.ofX f.x; let wide := f.x.getLsbD 0; some (.amoMinu p d mx wide a b)
    | 7 => do let p ← f.pred; let d ← Dst.ofCode f.d; let a ← Opnd.ofCode f.a f.x; let b ← Opnd.ofCode f.b f.x; let mx := MX.ofX f.x; let wide := f.x.getLsbD 0; some (.amoMaxu p d mx wide a b)
    | 8 => do let p ← f.pred; let d ← Dst.ofCode f.d; let a ← Opnd.ofCode f.a f.x; let b ← Opnd.ofCode f.b f.x; let mx := MX.ofX f.x; let wide := f.x.getLsbD 0; some (.amoXchg p d mx wide a b)
    | 9 => do let p ← f.pred; let d ← Dst.ofCode f.d; let a ← Opnd.ofCode f.a f.x; let b ← Opnd.ofCode f.b f.x; let mx := MX.ofX f.x; some (.amoFadd32 p d mx a b)
    | 10 => do let p ← f.pred; let d ← Dst.ofCode f.d; let a ← Opnd.ofCode f.a f.x; let b ← Opnd.ofCode f.b f.x; let mx := MX.ofX f.x; some (.amoFmax32 p d mx a b)
    | 11 => do let p ← f.pred; let d ← Dst.ofCode f.d; let a ← Opnd.ofCode f.a f.x; let b ← Opnd.ofCode f.b f.x; let mx := MX.ofX f.x; some (.amoFmin32 p d mx a b)
    | _ => none
  | 0x4D => match f.fn.toNat with
    | 0 => do let p ← f.pred; let d ← Dst.ofCode f.d; let a ← Opnd.ofCode f.a f.x; let b ← Opnd.ofCode f.b f.x; let mx := MX.ofX f.x; some (.cas32 p d mx a b)
    | 1 => do let p ← f.pred; let d ← Dst.ofCode f.d; let a ← Opnd.ofCode f.a f.x; let mx := MX.ofX f.x; let pair := f.b.extractLsb' 1 5; some (.cas64 p d mx a pair)
    | _ => none
  | 0x4E => match f.fn.toNat with
    | 0 => do let p ← f.pred; let d ← Dst.ofCode f.d; let a ← Opnd.ofCode f.a f.x; let b ← Opnd.ofCode f.b f.x; some (.ptr p d a b)
    | 1 => do let p ← f.pred; let d ← Dst.ofCode f.d; let a ← Opnd.ofCode f.a f.x; let b ← Opnd.ofCode f.b f.x; some (.padd p d a b)
    | 2 => do let p ← f.pred; let d ← Dst.ofCode f.d; let a ← Opnd.ofCode f.a f.x; let b ← Opnd.ofCode f.b f.x; some (.cder p d a b)
    | 3 => do let p ← f.pred; let d ← Dst.ofCode f.d; let a ← Opnd.ofCode f.a f.x; let w := CgetSel.ofCode (f.x.extractLsb' 0 2); some (.cget p d w a)
    | 4 => do let p ← f.pred; let d ← Dst.ofCode f.d; let a ← Opnd.ofCode f.a f.x; let b ← Opnd.ofCode f.b f.x; let mx := MX.ofX f.x; some (.cld p d mx a b)
    | 5 => do let p ← f.pred; let c ← Opnd.ofCode f.d f.x; let a ← Opnd.ofCode f.a f.x; let b ← Opnd.ofCode f.b f.x; let mx := MX.ofX f.x; some (.cst p mx a b c)
    | _ => none
  | 0x4F => match f.fn.toNat with
    | 0 => do let p ← f.pred; let d ← Dst.ofCode f.d; let a ← Opnd.ofCode f.a f.x; let b ← Opnd.ofCode f.b f.x; some (.prbR p d a b)
    | 1 => do let p ← f.pred; let d ← Dst.ofCode f.d; let a ← Opnd.ofCode f.a f.x; let b ← Opnd.ofCode f.b f.x; some (.prbW p d a b)
    | _ => none
  | _ => none

/-- The engine (R85) rows: the instruction the fields name, before the whole-word check. -/
def decEng (f : Fields) : Option Instr :=
  match f.op.toNat with
  | 0x58 => match f.fn.toNat with
    | 0 => do let p ← f.pred; let c ← Opnd.ofCode f.d f.x; let a ← Opnd.ofCode f.a f.x; let b ← Opnd.ofCode f.b f.x; let mx := MX.ofX f.x; some (.xcpy p mx a b c)
    | _ => none
  | 0x59 => match f.fn.toNat with
    | 0 => do let p ← f.pred; let c ← Opnd.ofCode f.d f.x; let a ← Opnd.ofCode f.a f.x; let mx := MX.ofX f.x; some (.xchn p mx a c)
    | _ => none
  | 0x5A => match f.fn.toNat with
    | 0 => do let p ← f.pred; let c ← Opnd.ofCode f.d f.x; let a ← Opnd.ofCode f.a f.x; let b ← Opnd.ofCode f.b f.x; let mx := MX.ofX f.x; some (.xred p mx a b c)
    | _ => none
  | 0x5B => match f.fn.toNat with
    | 0 => do let p ← f.pred; let c ← Opnd.ofCode f.d f.x; let a ← Opnd.ofCode f.a f.x; let mx := MX.ofX f.x; some (.xcolAllredSum p mx a c)
    | 1 => do let p ← f.pred; let c ← Opnd.ofCode f.d f.x; let a ← Opnd.ofCode f.a f.x; let mx := MX.ofX f.x; some (.xcolAllredMax p mx a c)
    | 2 => do let p ← f.pred; let c ← Opnd.ofCode f.d f.x; let a ← Opnd.ofCode f.a f.x; let mx := MX.ofX f.x; some (.xcolAllgath p mx a c)
    | 3 => do let p ← f.pred; let c ← Opnd.ofCode f.d f.x; let a ← Opnd.ofCode f.a f.x; let mx := MX.ofX f.x; some (.xcolRedscatSum p mx a c)
    | 4 => do let p ← f.pred; let c ← Opnd.ofCode f.d f.x; let a ← Opnd.ofCode f.a f.x; let mx := MX.ofX f.x; some (.xcolBcast p mx a c)
    | _ => none
  | 0x5C => match f.fn.toNat with
    | 0 => do let p ← f.pred; let a ← Opnd.ofCode f.a f.x; let b ← Opnd.ofCode f.b f.x; let mx := MX.ofX f.x; some (.xregReg p mx a b)
    | 1 => do let p ← f.pred; let a ← Opnd.ofCode f.a f.x; let mx := MX.ofX f.x; some (.xregRel p mx a)
    | _ => none
  | _ => none

/-- The field and rill (R86) rows: the instruction the fields name, before the whole-word check. -/
def decUnit (f : Fields) : Option Instr :=
  match f.op.toNat with
  | 0x60 => match f.fn.toNat with
    | 0 => do let p ← f.pred; let d ← Dst.ofCode f.d; let a ← Opnd.ofCode f.a f.x; let b ← Opnd.ofCode f.b f.x; let mx := MX.ofX f.x; some (.cfgConf p d mx a b)
    | 1 => do let p ← f.pred; let a ← Opnd.ofCode f.a f.x; let mx := MX.ofX f.x; some (.cfgFrel p mx a)
    | 2 => do let p ← f.pred; let d ← Dst.ofCode f.d; let a ← Opnd.ofCode f.a f.x; some (.cfgFqry p d a)
    | _ => none
  | 0x61 => match f.fn.toNat with
    | 0 => do let p ← f.pred; let a ← Opnd.ofCode f.a f.x; let b ← Opnd.ofCode f.b f.x; let mx := MX.ofX f.x; let fin := f.x.getLsbD 0; let swap := f.x.getLsbD 1; let eos := f.x.getLsbD 2; some (.feed p mx fin swap eos a b)
    | _ => none
  | 0x62 => match f.fn.toNat with
    | 0 => do let p ← f.pred; let a ← Opnd.ofCode f.a f.x; let b ← Opnd.ofCode f.b f.x; let mx := MX.ofX f.x; some (.wld p mx a b)
    | _ => none
  | 0x63 => match f.fn.toNat with
    | 0 => do let p ← f.pred; let d ← Dst.ofCode f.d; let a ← Opnd.ofCode f.a f.x; some (.drnPop p d a)
    | 1 => do let p ← f.pred; let d ← Dst.ofCode f.d; let a ← Opnd.ofCode f.a f.x; some (.drnLast p d a)
    | 2 => do let p ← f.pred; let d ← Dst.ofCode f.d; let a ← Opnd.ofCode f.a f.x; some (.drnPeek p d a)
    | _ => none
  | 0x64 => match f.fn.toNat with
    | 0 => do let p ← f.pred; let a ← Opnd.ofCode f.a f.x; some (.accAclr p a)
    | 1 => do let p ← f.pred; let d ← Dst.ofCode f.d; let a ← Opnd.ofCode f.a f.x; some (.accAsta p d a)
    | _ => none
  | 0x65 => match f.fn.toNat with
    | 0 => do let p ← f.pred; let a ← Opnd.ofCode f.a f.x; let b ← Opnd.ofCode f.b f.x; some (.chsInt p a b)
    | 1 => do let p ← f.pred; let a ← Opnd.ofCode f.a f.x; let b ← Opnd.ofCode f.b f.x; some (.chsFp p a b)
    | 2 => do let p ← f.pred; let a ← Opnd.ofCode f.a f.x; let b ← Opnd.ofCode f.b f.x; some (.chsVec p a b)
    | 3 => do let p ← f.pred; let a ← Opnd.ofCode f.a f.x; some (.chsEos p a)
    | 4 => do let p ← f.pred; let a ← Opnd.ofCode f.a f.x; let b ← Opnd.ofCode f.b f.x; some (.chsMark p a b)
    | _ => none
  | 0x66 => match f.fn.toNat with
    | 0 => do let p ← f.pred; let d ← Dst.ofCode f.d; let a ← Opnd.ofCode f.a f.x; some (.chrInt p d a)
    | 1 => do let p ← f.pred; let d ← Dst.ofCode f.d; let a ← Opnd.ofCode f.a f.x; some (.chrFp p d a)
    | 2 => do let p ← f.pred; let d ← Dst.ofCode f.d; let a ← Opnd.ofCode f.a f.x; some (.chrVec p d a)
    | 3 => do let p ← f.pred; let d ← Dst.ofCode f.d; let a ← Opnd.ofCode f.a f.x; some (.chrEnd p d a)
    | 4 => do let p ← f.pred; let d ← Dst.ofCode f.d; let a ← Opnd.ofCode f.a f.x; some (.chrStat p d a)
    | 5 => do let p ← f.pred; let d ← Dst.ofCode f.d; let a ← Opnd.ofCode f.a f.x; some (.chrLat p d a)
    | _ => none
  | 0x67 => match f.fn.toNat with
    | 0 => do let p ← f.pred; let a ← Opnd.ofCode f.a f.x; let b ← Opnd.ofCode f.b f.x; some (.chcBind p a b)
    | 1 => do let p ← f.pred; let a ← Opnd.ofCode f.a f.x; let b ← Opnd.ofCode f.b f.x; some (.chcCred p a b)
    | 2 => do let p ← f.pred; let a ← Opnd.ofCode f.a f.x; let b ← Opnd.ofCode f.b f.x; some (.chcSpst p a b)
    | _ => none
  | 0x68 => match f.fn.toNat with
    | 0 => do let p ← f.pred; let a ← Opnd.ofCode f.a f.x; let b ← Opnd.ofCode f.b f.x; some (.admAset p a b)
    | 1 => do let p ← f.pred; let d ← Dst.ofCode f.d; let a ← Opnd.ofCode f.a f.x; some (.admArd p d a)
    | _ => none
  | _ => none

/-- The semaphore, barrier and task (R86) rows: the instruction the fields name, before the whole-word check. -/
noncomputable def decTask (f : Fields) : Option Instr :=
  match f.op.toNat with
  | 0x70 => match f.fn.toNat with
    | 0 => do let p ← f.pred; let a ← Opnd.ofCode f.a f.x; let b ← Opnd.ofCode f.b f.x; some (.semSsig p a b)
    | 1 => do let p ← f.pred; let a ← Opnd.ofCode f.a f.x; let b ← Opnd.ofCode f.b f.x; some (.semSsigr p a b)
    | 2 => do let p ← f.pred; let d ← Dst.ofCode f.d; let a ← Opnd.ofCode f.a f.x; let b ← Opnd.ofCode f.b f.x; some (.semSwait p d a b)
    | 3 => do let p ← f.pred; let d ← Dst.ofCode f.d; let a ← Opnd.ofCode f.a f.x; let b ← Opnd.ofCode f.b f.x; some (.semSwaitd p d a b)
    | 4 => do let p ← f.pred; let a ← Opnd.ofCode f.a f.x; let b ← Opnd.ofCode f.b f.x; some (.semSset p a b)
    | 5 => do let p ← f.pred; let d ← Dst.ofCode f.d; let a ← Opnd.ofCode f.a f.x; some (.semSrd p d a)
    | _ => none
  | 0x71 => match f.fn.toNat with
    | 0 => do let p ← f.pred; let d ← Dst.ofCode f.d; let a ← Opnd.ofCode f.a f.x; some (.bara p d a)
    | _ => none
  | 0x72 => match f.fn.toNat with
    | 0 => do let p ← f.pred; let d ← Dst.ofCode f.d; let a ← Opnd.ofCode f.a f.x; let b ← Opnd.ofCode f.b f.x; some (.barw p d a b)
    | _ => none
  | 0x73 => match f.fn.toNat with
    | 0 => do let p ← f.pred; let d ← Dst.ofCode f.d; let a ← Opnd.ofCode f.a f.x; let b ← Opnd.ofCode f.b f.x; some (.taskSpawn p d a b)
    | 1 => do let p ← f.pred; let a ← Opnd.ofCode f.a f.x; let b ← Opnd.ofCode f.b f.x; some (.taskWake p a b)
    | 2 => do let p ← f.pred; let a ← Opnd.ofCode f.a f.x; let b ← Opnd.ofCode f.b f.x; some (.taskSpri p a b)
    | 3 => do let p ← f.pred; let d ← Dst.ofCode f.d; let a ← Opnd.ofCode f.a f.x; some (.taskTstat p d a)
    | _ => none
  | _ => none

/-- The system (R87) rows: the instruction the fields name, before the whole-word check. -/
noncomputable def decSys (f : Fields) : Option Instr :=
  match f.op.toNat with
  | 0x78 => match f.fn.toNat with
    | 0 => do let p ← f.pred; let a ← Opnd.ofCode f.a f.x; let b ← Opnd.ofCode f.b f.x; let mx := MX.ofX f.x; some (.ctxCsave p mx a b)
    | 1 => do let p ← f.pred; let a ← Opnd.ofCode f.a f.x; let b ← Opnd.ofCode f.b f.x; let mx := MX.ofX f.x; some (.ctxCrest p mx a b)
    | _ => none
  | 0x79 => match f.fn.toNat with
    | 0 => do let p ← f.pred; let a ← Opnd.ofCode f.a f.x; some (.otcInvo p a)
    | 1 => do let p ← f.pred; let a ← Opnd.ofCode f.a f.x; some (.otcInva p a)
    | 2 => do let p ← f.pred; let a ← Opnd.ofCode f.a f.x; let b ← Opnd.ofCode f.b f.x; some (.otcPin p a b)
    | _ => none
  | 0x7A => match f.fn.toNat with
    | 0 => do let p ← f.pred; let a ← Opnd.ofCode f.a f.x; let b ← Opnd.ofCode f.b f.x; let mx := MX.ofX f.x; some (.tblwRoute p mx a b)
    | 1 => do let p ← f.pred; let a ← Opnd.ofCode f.a f.x; let b ← Opnd.ofCode f.b f.x; let mx := MX.ofX f.x; some (.tblwName p mx a b)
    | 2 => do let p ← f.pred; let a ← Opnd.ofCode f.a f.x; let b ← Opnd.ofCode f.b f.x; let mx := MX.ofX f.x; some (.tblwHeat p mx a b)
    | 3 => do let p ← f.pred; let a ← Opnd.ofCode f.a f.x; let b ← Opnd.ofCode f.b f.x; let mx := MX.ofX f.x; some (.tblwAdmc p mx a b)
    | _ => none
  | 0x7B => match f.fn.toNat with
    | 0 => do let p ← f.pred; let a ← Opnd.ofCode f.a f.x; some (.haltc p a)
    | _ => none
  | _ => none

/-- The opcode map before the whole-word check: the group of OP (R78). -/
noncomputable def Instr.ofFields (f : Fields) : Option Instr :=
  let n := f.op.toNat
  if n < 0x10 then decInt f else if n < 0x20 then decCtl f else if n < 0x30 then decFp f else if n < 0x48 then decVec f
  else if n < 0x58 then decMem f else if n < 0x60 then decEng f else if n < 0x70 then decUnit f else if n < 0x78 then decTask f
  else decSys f

/-- Decoding (R60, R78, R88): the instruction of a word, or none for a word that is a DECODE fault by itself. -/
noncomputable def decode (w : BitVec 64) : Option Instr :=
  if (Fields.ofWord w).ok none then Instr.ofFields (Fields.ofWord w) else none

/-- The immediate a word carries: that of its IMM descriptor, zero without one (R53). -/
def immX : Opnd → Opnd → BitVec 19
  | .imm x, _ => x
  | _, .imm x => x
  | _, _ => 0

/-- Fields from their parts. -/
def fieldsMk (op : BitVec 7) (fn : BitVec 5) (p : Pred) (d a b : BitVec 8) (x : BitVec 19) : Fields :=
  ⟨op, fn, p.pm, p.ps, d, a, b, x⟩

/-- The encoding of every instruction row (R79 to R87, R122, R139); an event has no word. -/
def Instr.fields : Instr → Option Fields
  | .add p d a b => some (fieldsMk 0x01 0 p (d.code) (a.code) (b.code) (immX a b))
  | .addw p d a b => some (fieldsMk 0x01 1 p (d.code) (a.code) (b.code) (immX a b))
  | .adds p d a b => some (fieldsMk 0x01 2 p (d.code) (a.code) (b.code) (immX a b))
  | .addu p d a b => some (fieldsMk 0x01 3 p (d.code) (a.code) (b.code) (immX a b))
  | .sub p d a b => some (fieldsMk 0x02 0 p (d.code) (a.code) (b.code) (immX a b))
  | .subw p d a b => some (fieldsMk 0x02 1 p (d.code) (a.code) (b.code) (immX a b))
  | .subs p d a b => some (fieldsMk 0x02 2 p (d.code) (a.code) (b.code) (immX a b))
  | .subu p d a b => some (fieldsMk 0x02 3 p (d.code) (a.code) (b.code) (immX a b))
  | .mul p d a b => some (fieldsMk 0x03 0 p (d.code) (a.code) (b.code) (immX a b))
  | .mulw p d a b => some (fieldsMk 0x03 1 p (d.code) (a.code) (b.code) (immX a b))
  | .mulhs p d a b => some (fieldsMk 0x03 2 p (d.code) (a.code) (b.code) (immX a b))
  | .mulhu p d a b => some (fieldsMk 0x03 3 p (d.code) (a.code) (b.code) (immX a b))
  | .divs p d a b => some (fieldsMk 0x04 0 p (d.code) (a.code) (b.code) (immX a b))
  | .divu p d a b => some (fieldsMk 0x04 1 p (d.code) (a.code) (b.code) (immX a b))
  | .rems p d a b => some (fieldsMk 0x04 2 p (d.code) (a.code) (b.code) (immX a b))
  | .remu p d a b => some (fieldsMk 0x04 3 p (d.code) (a.code) (b.code) (immX a b))
  | .andI p d a b => some (fieldsMk 0x05 0 p (d.code) (a.code) (b.code) (immX a b))
  | .orI p d a b => some (fieldsMk 0x05 1 p (d.code) (a.code) (b.code) (immX a b))
  | .xorI p d a b => some (fieldsMk 0x05 2 p (d.code) (a.code) (b.code) (immX a b))
  | .andn p d a b => some (fieldsMk 0x05 3 p (d.code) (a.code) (b.code) (immX a b))
  | .orn p d a b => some (fieldsMk 0x05 4 p (d.code) (a.code) (b.code) (immX a b))
  | .xnor p d a b => some (fieldsMk 0x05 5 p (d.code) (a.code) (b.code) (immX a b))
  | .shl p d a b => some (fieldsMk 0x06 0 p (d.code) (a.code) (b.code) (immX a b))
  | .shr p d a b => some (fieldsMk 0x06 1 p (d.code) (a.code) (b.code) (immX a b))
  | .sra p d a b => some (fieldsMk 0x06 2 p (d.code) (a.code) (b.code) (immX a b))
  | .ror p d a b => some (fieldsMk 0x06 3 p (d.code) (a.code) (b.code) (immX a b))
  | .mins p d a b => some (fieldsMk 0x07 0 p (d.code) (a.code) (b.code) (immX a b))
  | .minu p d a b => some (fieldsMk 0x07 1 p (d.code) (a.code) (b.code) (immX a b))
  | .maxs p d a b => some (fieldsMk 0x07 2 p (d.code) (a.code) (b.code) (immX a b))
  | .maxu p d a b => some (fieldsMk 0x07 3 p (d.code) (a.code) (b.code) (immX a b))
  | .clz p d a => some (fieldsMk 0x08 0 p (d.code) (a.code) (0xFF) (immX a .zero))
  | .ctz p d a => some (fieldsMk 0x08 1 p (d.code) (a.code) (0xFF) (immX a .zero))
  | .popc p d a => some (fieldsMk 0x08 2 p (d.code) (a.code) (0xFF) (immX a .zero))
  | .brev p d a => some (fieldsMk 0x08 3 p (d.code) (a.code) (0xFF) (immX a .zero))
  | .bswap p d a => some (fieldsMk 0x08 4 p (d.code) (a.code) (0xFF) (immX a .zero))
  | .movi p d x => some (fieldsMk 0x09 0 p (d.code) (0xF8) (0xFF) (x))
  | .movx p d a x => some (fieldsMk 0x0A 0 p (d.code) (a.code) (0xF8) (x))
  | .extu p d a b => some (fieldsMk 0x0B 0 p (d.code) (a.code) (b.code) (immX a b))
  | .exts p d a b => some (fieldsMk 0x0B 1 p (d.code) (a.code) (b.code) (immX a b))
  | .ins p d a b pos len => some (fieldsMk 0x0B 2 p (d.code) (a.code) (b.code) (0#7 ++ len ++ pos))
  | .cmpEq p d a b => some (fieldsMk 0x0C 0 p (d.code) (a.code) (b.code) (immX a b))
  | .cmpNe p d a b => some (fieldsMk 0x0C 1 p (d.code) (a.code) (b.code) (immX a b))
  | .cmpLts p d a b => some (fieldsMk 0x0C 2 p (d.code) (a.code) (b.code) (immX a b))
  | .cmpLes p d a b => some (fieldsMk 0x0C 3 p (d.code) (a.code) (b.code) (immX a b))
  | .cmpLtu p d a b => some (fieldsMk 0x0C 4 p (d.code) (a.code) (b.code) (immX a b))
  | .cmpLeu p d a b => some (fieldsMk 0x0C 5 p (d.code) (a.code) (b.code) (immX a b))
  | .sel p d a b c => some (fieldsMk 0x0D 0 p (d.code) (a.code) (b.code) (c.code ++ 0#11))
  | .pand p d a b => some (fieldsMk 0x0E 0 p (d.code) (a.code) (b.code) (0))
  | .por p d a b => some (fieldsMk 0x0E 1 p (d.code) (a.code) (b.code) (0))
  | .pxor p d a b => some (fieldsMk 0x0E 2 p (d.code) (a.code) (b.code) (0))
  | .pnot p d a => some (fieldsMk 0x0E 3 p (d.code) (a.code) (0xFF) (0))
  | .tstnz p d a => some (fieldsMk 0x0E 4 p (d.code) (a.code) (0xFF) (immX a .zero))
  | .mov p d a => some (fieldsMk 0x0F 0 p (d.code) (a.code) (0xFF) (immX a .zero))
  | .movgf p d a => some (fieldsMk 0x0F 1 p (d.code) (a.code) (0xFF) (immX a .zero))
  | .movfg p d a => some (fieldsMk 0x0F 2 p (d.code) (a.code) (0xFF) (0))
  | .br p x => some (fieldsMk 0x10 0 p (0xFF) (0xF8) (0xFF) (x))
  | .brx p a => some (fieldsMk 0x11 0 p (0xFF) (a.code) (0xFF) (immX a .zero))
  | .call p link x => some (fieldsMk 0x12 0 p (0b10#2 ++ link) (0xF8) (0xFF) (x))
  | .ret p a => some (fieldsMk 0x13 0 p (0xFF) (a.code) (0xFF) (immX a .zero))
  | .endt p => some (fieldsMk 0x14 0 p (0xFF) (0xFF) (0xFF) (0))
  | .yieldT p => some (fieldsMk 0x14 1 p (0xFF) (0xFF) (0xFF) (0))
  | .park p a => some (fieldsMk 0x14 2 p (0xFF) (a.code) (0xFF) (immX a .zero))
  | .trap p n => some (fieldsMk 0x15 0 p (0xFF) (0xFF) (0xFF) (0#11 ++ n))
  | .rds p d num => some (fieldsMk 0x16 0 p (d.code) (0xFF) (0xFF) (0#7 ++ num))
  | .wrs p num a => some (fieldsMk 0x16 1 p (0xFF) (a.code) (0xFF) (0#7 ++ num))
  | .tret p => some (fieldsMk 0x17 0 p (0xFF) (0xFF) (0xFF) (0))
  | .tretAt p b => some (fieldsMk 0x17 1 p (0xFF) (0xFF) (b.code) (0))
  | .fadd p d fmt rnd a b => some (fieldsMk 0x20 (fmt.code ++ rnd.code) p (d.code) (a.code) (b.code) (0))
  | .fsub p d fmt rnd a b => some (fieldsMk 0x21 (fmt.code ++ rnd.code) p (d.code) (a.code) (b.code) (0))
  | .fmul p d fmt rnd a b => some (fieldsMk 0x22 (fmt.code ++ rnd.code) p (d.code) (a.code) (b.code) (0))
  | .ffma p d fmt rnd a b c => some (fieldsMk 0x23 (fmt.code ++ rnd.code) p (d.code) (a.code) (b.code) (c.code ++ 0#11))
  | .fdiv p d fmt rnd a b => some (fieldsMk 0x24 (fmt.code ++ rnd.code) p (d.code) (a.code) (b.code) (0))
  | .fsqrt p d fmt rnd a => some (fieldsMk 0x25 (fmt.code ++ rnd.code) p (d.code) (a.code) (0xFF) (0))
  | .fmin p d fmt a b => some (fieldsMk 0x26 (fmt.code ++ 0#3) p (d.code) (a.code) (b.code) (0))
  | .fmax p d fmt a b => some (fieldsMk 0x26 (fmt.code ++ 1#3) p (d.code) (a.code) (b.code) (0))
  | .fminm p d fmt a b => some (fieldsMk 0x26 (fmt.code ++ 2#3) p (d.code) (a.code) (b.code) (0))
  | .fmaxm p d fmt a b => some (fieldsMk 0x26 (fmt.code ++ 3#3) p (d.code) (a.code) (b.code) (0))
  | .fcmpEq p d fmt a b => some (fieldsMk 0x27 (fmt.code ++ 0#3) p (d.code) (a.code) (b.code) (0))
  | .fcmpLt p d fmt a b => some (fieldsMk 0x27 (fmt.code ++ 1#3) p (d.code) (a.code) (b.code) (0))
  | .fcmpLe p d fmt a b => some (fieldsMk 0x27 (fmt.code ++ 2#3) p (d.code) (a.code) (b.code) (0))
  | .fcmpUn p d fmt a b => some (fieldsMk 0x27 (fmt.code ++ 3#3) p (d.code) (a.code) (b.code) (0))
  | .fcmpEqs p d fmt a b => some (fieldsMk 0x27 (fmt.code ++ 4#3) p (d.code) (a.code) (b.code) (0))
  | .fcvt p d dst src rnd a => some (fieldsMk 0x28 (dst.code ++ 0#3) p (d.code) (a.code) (0xFF) (0#14 ++ rnd.code ++ src.code))
  | .fcviFs p d fmt rnd a => some (fieldsMk 0x29 0 p (d.code) (a.code) (0xFF) (0#14 ++ rnd.code ++ fmt.code))
  | .fcviFu p d fmt rnd a => some (fieldsMk 0x29 1 p (d.code) (a.code) (0xFF) (0#14 ++ rnd.code ++ fmt.code))
  | .fcviSf p d fmt rnd a => some (fieldsMk 0x29 2 p (d.code) (a.code) (0xFF) (0#14 ++ rnd.code ++ fmt.code))
  | .fcviUf p d fmt rnd a => some (fieldsMk 0x29 3 p (d.code) (a.code) (0xFF) (0#14 ++ rnd.code ++ fmt.code))
  | .fabs p d fmt a => some (fieldsMk 0x2A (fmt.code ++ 0#3) p (d.code) (a.code) (0xFF) (0))
  | .fneg p d fmt a => some (fieldsMk 0x2A (fmt.code ++ 1#3) p (d.code) (a.code) (0xFF) (0))
  | .fcps p d fmt a b => some (fieldsMk 0x2A (fmt.code ++ 2#3) p (d.code) (a.code) (b.code) (0))
  | .fsigr p d fmt a => some (fieldsMk 0x2B (fmt.code ++ 0#3) p (d.code) (a.code) (0xFF) (0))
  | .fsigw p d fmt a b => some (fieldsMk 0x2B (fmt.code ++ 1#3) p (d.code) (a.code) (b.code) (immX a b))
  | .fsiglt p d fmt a b => some (fieldsMk 0x2B (fmt.code ++ 2#3) p (d.code) (a.code) (b.code) (immX a b))
  | .frcp p d fmt a => some (fieldsMk 0x2C (fmt.code ++ 0#3) p (d.code) (a.code) (0xFF) (0))
  | .frsq p d fmt a => some (fieldsMk 0x2C (fmt.code ++ 1#3) p (d.code) (a.code) (0xFF) (0))
  | .fex2 p d fmt a => some (fieldsMk 0x2C (fmt.code ++ 2#3) p (d.code) (a.code) (0xFF) (0))
  | .flg2 p d fmt a => some (fieldsMk 0x2C (fmt.code ++ 3#3) p (d.code) (a.code) (0xFF) (0))
  | .fcls p d fmt a => some (fieldsMk 0x2D (fmt.code ++ 0#3) p (d.code) (a.code) (0xFF) (0))
  | .vadd p d t a b => some (fieldsMk 0x30 (t.code) p (d.code) (a.code) (b.code) (0))
  | .vsub p d t a b => some (fieldsMk 0x31 (t.code) p (d.code) (a.code) (b.code) (0))
  | .vmul p d t a b => some (fieldsMk 0x32 (t.code) p (d.code) (a.code) (b.code) (0))
  | .vfma p d t a b c => some (fieldsMk 0x33 (t.code) p (d.code) (a.code) (b.code) (c.code ++ 0#11))
  | .vscl p d t a b => some (fieldsMk 0x41 (t.code) p (d.code) (a.code) (b.code) (0))
  | .vmnx p d k a b => some (fieldsMk 0x34 (k.code) p (d.code) (a.code) (b.code) (0))
  | .vcmp p d k a b => some (fieldsMk 0x35 (k.code) p (d.code) (a.code) (b.code) (0))
  | .vselSet p d a b => some (fieldsMk 0x36 0 p (d.code) (a.code) (b.code) (0))
  | .vselClr p d a b => some (fieldsMk 0x36 1 p (d.code) (a.code) (b.code) (0))
  | .vredSum p d a => some (fieldsMk 0x37 0 p (d.code) (a.code) (0xFF) (0))
  | .vredMax p d a => some (fieldsMk 0x37 1 p (d.code) (a.code) (0xFF) (0))
  | .vredMin p d a => some (fieldsMk 0x37 2 p (d.code) (a.code) (0xFF) (0))
  | .vredAmax p d a => some (fieldsMk 0x37 3 p (d.code) (a.code) (0xFF) (0))
  | .vbc p d t a => some (fieldsMk 0x38 (t.code ++ 0#4) p (d.code) (a.code) (0xFF) (0))
  | .vperm p d a b => some (fieldsMk 0x39 0 p (d.code) (a.code) (b.code) (0))
  | .vext p d t a b => some (fieldsMk 0x3F (t.code ++ 0#4) p (d.code) (a.code) (b.code) (immX a b))
  | .vins p d t lane a b => some (fieldsMk 0x3F (t.code ++ 1#4) p (d.code) (a.code) (b.code) (0#15 ++ lane))
  | .vidx p d => some (fieldsMk 0x3F 2 p (d.code) (0xFF) (0xFF) (0))
  | .vshr p d a b => some (fieldsMk 0x3F 3 p (d.code) (a.code) (b.code) (immX a b))
  | .vand p d a b => some (fieldsMk 0x40 0 p (d.code) (a.code) (b.code) (0))
  | .vor p d a b => some (fieldsMk 0x40 1 p (d.code) (a.code) (b.code) (0))
  | .vxor p d a b => some (fieldsMk 0x40 2 p (d.code) (a.code) (b.code) (0))
  | .vshl p d a b => some (fieldsMk 0x40 3 p (d.code) (a.code) (b.code) (0))
  | .vshrl p d a b => some (fieldsMk 0x40 4 p (d.code) (a.code) (b.code) (0))
  | .vsra p d a b => some (fieldsMk 0x40 5 p (d.code) (a.code) (b.code) (0))
  | .vactRelu p d a => some (fieldsMk 0x3A 0 p (d.code) (a.code) (0xFF) (0))
  | .vactGelt p d a => some (fieldsMk 0x3A 1 p (d.code) (a.code) (0xFF) (0))
  | .vactSilu p d a => some (fieldsMk 0x3A 2 p (d.code) (a.code) (0xFF) (0))
  | .vactExp p d a => some (fieldsMk 0x3A 3 p (d.code) (a.code) (0xFF) (0))
  | .vactTanh p d a => some (fieldsMk 0x3A 4 p (d.code) (a.code) (0xFF) (0))
  | .vactSigm p d a => some (fieldsMk 0x3A 5 p (d.code) (a.code) (0xFF) (0))
  | .vactRcp p d a => some (fieldsMk 0x3A 6 p (d.code) (a.code) (0xFF) (0))
  | .vactRsq p d a => some (fieldsMk 0x3A 7 p (d.code) (a.code) (0xFF) (0))
  | .vcvtBf16F32 p d a => some (fieldsMk 0x3B 0 p (d.code) (a.code) (0xFF) (0))
  | .vcvtF32Bf16 p d a => some (fieldsMk 0x3B 1 p (d.code) (a.code) (0xFF) (0))
  | .vcvtF16F32 p d a => some (fieldsMk 0x3B 2 p (d.code) (a.code) (0xFF) (0))
  | .vcvtF32F16 p d a => some (fieldsMk 0x3B 3 p (d.code) (a.code) (0xFF) (0))
  | .vcvtI32F32 p d a => some (fieldsMk 0x3B 4 p (d.code) (a.code) (0xFF) (0))
  | .vcvtF32I32 p d a => some (fieldsMk 0x3B 5 p (d.code) (a.code) (0xFF) (0))
  | .vcvtE5m2F32 p d a => some (fieldsMk 0x3B 6 p (d.code) (a.code) (0xFF) (0))
  | .vcvtF32E5m2 p d a => some (fieldsMk 0x3B 7 p (d.code) (a.code) (0xFF) (0))
  | .vcvtF32E4m3 p d a => some (fieldsMk 0x3B 8 p (d.code) (a.code) (0xFF) (0))
  | .vqntE4m3Sat p d a b => some (fieldsMk 0x3C 0 p (d.code) (a.code) (b.code) (0))
  | .vqntE4m3Nan p d a b => some (fieldsMk 0x3C 1 p (d.code) (a.code) (b.code) (0))
  | .vqntInt8 p d a b => some (fieldsMk 0x3C 5 p (d.code) (a.code) (b.code) (0))
  | .vqntInt4 p d a b => some (fieldsMk 0x3C 6 p (d.code) (a.code) (b.code) (0))
  | .vqntMxfp4 p d a b => some (fieldsMk 0x3C 2 p (d.code) (a.code) (b.code) (0))
  | .vqntMxint8 p d a b => some (fieldsMk 0x3C 3 p (d.code) (a.code) (b.code) (0))
  | .vqntMxfp8 p d a b => some (fieldsMk 0x3C 4 p (d.code) (a.code) (b.code) (0))
  | .vdqE4m3Sat p d a b => some (fieldsMk 0x3D 0 p (d.code) (a.code) (b.code) (0))
  | .vdqE4m3Nan p d a b => some (fieldsMk 0x3D 1 p (d.code) (a.code) (b.code) (0))
  | .vdqInt8 p d a b => some (fieldsMk 0x3D 5 p (d.code) (a.code) (b.code) (0))
  | .vdqInt4 p d a b => some (fieldsMk 0x3D 6 p (d.code) (a.code) (b.code) (0))
  | .vdqMxfp4 p d hi a => some (fieldsMk 0x3D 2 p (d.code) (a.code) (0xFF) (0#18 ++ BitVec.ofBool hi))
  | .vdqMxint8 p d hi a => some (fieldsMk 0x3D 3 p (d.code) (a.code) (0xFF) (0#18 ++ BitVec.ofBool hi))
  | .vdqMxfp8 p d hi a => some (fieldsMk 0x3D 4 p (d.code) (a.code) (0xFF) (0#18 ++ BitVec.ofBool hi))
  | .vsigRd p d a => some (fieldsMk 0x3E 0 p (d.code) (a.code) (0xFF) (0))
  | .vsigMin p d a b => some (fieldsMk 0x3E 1 p (d.code) (a.code) (b.code) (immX a b))
  | .vsigLt p d a b => some (fieldsMk 0x3E 2 p (d.code) (a.code) (b.code) (immX a b))
  | .ld p d mx sz sgn a b => some (fieldsMk 0x48 (0#2 ++ BitVec.ofBool sgn ++ sz.code) p (d.code) (a.code) (b.code) (mx.bits ++ 0#5))
  | .ldWaitf p d mx sz sgn a b => some (fieldsMk 0x48 (1#2 ++ BitVec.ofBool sgn ++ sz.code) p (d.code) (a.code) (b.code) (mx.bits ++ 0#5))
  | .ldTake p d mx sz sgn a b => some (fieldsMk 0x48 (2#2 ++ BitVec.ofBool sgn ++ sz.code) p (d.code) (a.code) (b.code) (mx.bits ++ 0#5))
  | .ldPres p d mx sz a b => some (fieldsMk 0x48 (3#2 ++ 0#1 ++ sz.code) p (d.code) (a.code) (b.code) (mx.bits ++ 0#5))
  | .st p mx sz a b c => some (fieldsMk 0x49 (0#2 ++ 0#1 ++ sz.code) p (c.code) (a.code) (b.code) (mx.bits ++ 0#5))
  | .stFill p mx sz a b c => some (fieldsMk 0x49 (1#2 ++ 0#1 ++ sz.code) p (c.code) (a.code) (b.code) (mx.bits ++ 0#5))
  | .stSetf p mx sz a b c => some (fieldsMk 0x49 (2#2 ++ 0#1 ++ sz.code) p (c.code) (a.code) (b.code) (mx.bits ++ 0#5))
  | .stClre p mx sz a b c => some (fieldsMk 0x49 (3#2 ++ 0#1 ++ sz.code) p (c.code) (a.code) (b.code) (mx.bits ++ 0#5))
  | .flsLd p d mx fmt tagged a b => some (fieldsMk 0x4A (0#1 ++ BitVec.ofBool tagged ++ fmt.code ++ 0#1) p (d.code) (a.code) (b.code) (mx.bits ++ 0#5))
  | .flsLdWaitf p d mx fmt tagged a b => some (fieldsMk 0x4A (1#1 ++ BitVec.ofBool tagged ++ fmt.code ++ 0#1) p (d.code) (a.code) (b.code) (mx.bits ++ 0#5))
  | .flsSt p mx fmt tagged a b c => some (fieldsMk 0x4A (0#1 ++ BitVec.ofBool tagged ++ fmt.code ++ 1#1) p (c.code) (a.code) (b.code) (mx.bits ++ 0#5))
  | .flsStFill p mx fmt tagged a b c => some (fieldsMk 0x4A (1#1 ++ BitVec.ofBool tagged ++ fmt.code ++ 1#1) p (c.code) (a.code) (b.code) (mx.bits ++ 0#5))
  | .vlsLd p d mx tagged a b => some (fieldsMk 0x4B (0#1 ++ BitVec.ofBool tagged ++ 0#2 ++ 0#1) p (d.code) (a.code) (b.code) (mx.bits ++ 0#5))
  | .vlsLdWaitf p d mx tagged a b => some (fieldsMk 0x4B (0#1 ++ BitVec.ofBool tagged ++ 1#2 ++ 0#1) p (d.code) (a.code) (b.code) (mx.bits ++ 0#5))
  | .vlsLdTake p d mx tagged a b => some (fieldsMk 0x4B (0#1 ++ BitVec.ofBool tagged ++ 2#2 ++ 0#1) p (d.code) (a.code) (b.code) (mx.bits ++ 0#5))
  | .vlsSt p mx tagged a b c => some (fieldsMk 0x4B (0#1 ++ BitVec.ofBool tagged ++ 0#2 ++ 1#1) p (c.code) (a.code) (b.code) (mx.bits ++ 0#5))
  | .vlsStFill p mx tagged a b c => some (fieldsMk 0x4B (0#1 ++ BitVec.ofBool tagged ++ 1#2 ++ 1#1) p (c.code) (a.code) (b.code) (mx.bits ++ 0#5))
  | .vlsStSetf p mx tagged a b c => some (fieldsMk 0x4B (0#1 ++ BitVec.ofBool tagged ++ 2#2 ++ 1#1) p (c.code) (a.code) (b.code) (mx.bits ++ 0#5))
  | .vlsStClre p mx tagged a b c => some (fieldsMk 0x4B (0#1 ++ BitVec.ofBool tagged ++ 3#2 ++ 1#1) p (c.code) (a.code) (b.code) (mx.bits ++ 0#5))
  | .amoAdd p d mx wide a b => some (fieldsMk 0x4C 0 p (d.code) (a.code) (b.code) (mx.bits ++ 0#3 ++ 1#1 ++ BitVec.ofBool wide))
  | .amoAnd p d mx wide a b => some (fieldsMk 0x4C 1 p (d.code) (a.code) (b.code) (mx.bits ++ 0#3 ++ 1#1 ++ BitVec.ofBool wide))
  | .amoOr p d mx wide a b => some (fieldsMk 0x4C 2 p (d.code) (a.code) (b.code) (mx.bits ++ 0#3 ++ 1#1 ++ BitVec.ofBool wide))
  | .amoXor p d mx wide a b => some (fieldsMk 0x4C 3 p (d.code) (a.code) (b.code) (mx.bits ++ 0#3 ++ 1#1 ++ BitVec.ofBool wide))
  | .amoMins p d mx wide a b => some (fieldsMk 0x4C 4 p (d.code) (a.code) (b.code) (mx.bits ++ 0#3 ++ 1#1 ++ BitVec.ofBool wide))
  | .amoMaxs p d mx wide a b => some (fieldsMk 0x4C 5 p (d.code) (a.code) (b.code) (mx.bits ++ 0#3 ++ 1#1 ++ BitVec.ofBool wide))
  | .amoMinu p d mx wide a b => some (fieldsMk 0x4C 6 p (d.code) (a.code) (b.code) (mx.bits ++ 0#3 ++ 1#1 ++ BitVec.ofBool wide))
  | .amoMaxu p d mx wide a b => some (fieldsMk 0x4C 7 p (d.code) (a.code) (b.code) (mx.bits ++ 0#3 ++ 1#1 ++ BitVec.ofBool wide))
  | .amoXchg p d mx wide a b => some (fieldsMk 0x4C 8 p (d.code) (a.code) (b.code) (mx.bits ++ 0#3 ++ 1#1 ++ BitVec.ofBool wide))
  | .amoFadd32 p d mx a b => some (fieldsMk 0x4C 9 p (d.code) (a.code) (b.code) (mx.bits ++ 2#5))
  | .amoFmax32 p d mx a b => some (fieldsMk 0x4C 10 p (d.code) (a.code) (b.code) (mx.bits ++ 2#5))
  | .amoFmin32 p d mx a b => some (fieldsMk 0x4C 11 p (d.code) (a.code) (b.code) (mx.bits ++ 2#5))
  | .cas32 p d mx a b => some (fieldsMk 0x4D 0 p (d.code) (a.code) (b.code) (mx.bits ++ 0#5))
  | .cas64 p d mx a pair => some (fieldsMk 0x4D 1 p (d.code) (a.code) (2#2 ++ pair ++ 0#1) (mx.bits ++ 0#5))
  | .ptr p d a b => some (fieldsMk 0x4E 0 p (d.code) (a.code) (b.code) (immX a b))
  | .padd p d a b => some (fieldsMk 0x4E 1 p (d.code) (a.code) (b.code) (immX a b))
  | .cder p d a b => some (fieldsMk 0x4E 2 p (d.code) (a.code) (b.code) (immX a b))
  | .cget p d w a => some (fieldsMk 0x4E 3 p (d.code) (a.code) (0xFF) (0#17 ++ w.code))
  | .cld p d mx a b => some (fieldsMk 0x4E 4 p (d.code) (a.code) (b.code) (mx.bits ++ 0#5))
  | .cst p mx a b c => some (fieldsMk 0x4E 5 p (c.code) (a.code) (b.code) (mx.bits ++ 0#5))
  | .prbR p d a b => some (fieldsMk 0x4F 0 p (d.code) (a.code) (b.code) (immX a b))
  | .prbW p d a b => some (fieldsMk 0x4F 1 p (d.code) (a.code) (b.code) (immX a b))
  | .xcpy p mx a b c => some (fieldsMk 0x58 0 p (c.code) (a.code) (b.code) (mx.bits ++ 0#5))
  | .xchn p mx a c => some (fieldsMk 0x59 0 p (c.code) (a.code) (0xFF) (mx.bits ++ 0#5))
  | .xred p mx a b c => some (fieldsMk 0x5A 0 p (c.code) (a.code) (b.code) (mx.bits ++ 0#5))
  | .xcolAllredSum p mx a c => some (fieldsMk 0x5B 0 p (c.code) (a.code) (0xFF) (mx.bits ++ 0#5))
  | .xcolAllredMax p mx a c => some (fieldsMk 0x5B 1 p (c.code) (a.code) (0xFF) (mx.bits ++ 0#5))
  | .xcolAllgath p mx a c => some (fieldsMk 0x5B 2 p (c.code) (a.code) (0xFF) (mx.bits ++ 0#5))
  | .xcolRedscatSum p mx a c => some (fieldsMk 0x5B 3 p (c.code) (a.code) (0xFF) (mx.bits ++ 0#5))
  | .xcolBcast p mx a c => some (fieldsMk 0x5B 4 p (c.code) (a.code) (0xFF) (mx.bits ++ 0#5))
  | .xregReg p mx a b => some (fieldsMk 0x5C 0 p (0xFF) (a.code) (b.code) (mx.bits ++ 0#5))
  | .xregRel p mx a => some (fieldsMk 0x5C 1 p (0xFF) (a.code) (0xFF) (mx.bits ++ 0#5))
  | .cfgConf p d mx a b => some (fieldsMk 0x60 0 p (d.code) (a.code) (b.code) (mx.bits ++ 0#5))
  | .cfgFrel p mx a => some (fieldsMk 0x60 1 p (0xFF) (a.code) (0xFF) (mx.bits ++ 0#5))
  | .cfgFqry p d a => some (fieldsMk 0x60 2 p (d.code) (a.code) (0xFF) (0))
  | .feed p mx fin swap eos a b => some (fieldsMk 0x61 0 p (0xFF) (a.code) (b.code) (mx.bits ++ 0#2 ++ BitVec.ofBool eos ++ BitVec.ofBool swap ++ BitVec.ofBool fin))
  | .wld p mx a b => some (fieldsMk 0x62 0 p (0xFF) (a.code) (b.code) (mx.bits ++ 0#5))
  | .drnPop p d a => some (fieldsMk 0x63 0 p (d.code) (a.code) (0xFF) (0))
  | .drnLast p d a => some (fieldsMk 0x63 1 p (d.code) (a.code) (0xFF) (0))
  | .drnPeek p d a => some (fieldsMk 0x63 2 p (d.code) (a.code) (0xFF) (0))
  | .accAclr p a => some (fieldsMk 0x64 0 p (0xFF) (a.code) (0xFF) (immX a .zero))
  | .accAsta p d a => some (fieldsMk 0x64 1 p (d.code) (a.code) (0xFF) (immX a .zero))
  | .admAset p a b => some (fieldsMk 0x68 0 p (0xFF) (a.code) (b.code) (immX a b))
  | .admArd p d a => some (fieldsMk 0x68 1 p (d.code) (a.code) (0xFF) (immX a .zero))
  | .chsInt p a b => some (fieldsMk 0x65 0 p (0xFF) (a.code) (b.code) (immX a b))
  | .chsFp p a b => some (fieldsMk 0x65 1 p (0xFF) (a.code) (b.code) (immX a b))
  | .chsVec p a b => some (fieldsMk 0x65 2 p (0xFF) (a.code) (b.code) (immX a b))
  | .chsEos p a => some (fieldsMk 0x65 3 p (0xFF) (a.code) (0xFF) (immX a .zero))
  | .chsMark p a b => some (fieldsMk 0x65 4 p (0xFF) (a.code) (b.code) (immX a b))
  | .chrInt p d a => some (fieldsMk 0x66 0 p (d.code) (a.code) (0xFF) (immX a .zero))
  | .chrFp p d a => some (fieldsMk 0x66 1 p (d.code) (a.code) (0xFF) (immX a .zero))
  | .chrVec p d a => some (fieldsMk 0x66 2 p (d.code) (a.code) (0xFF) (immX a .zero))
  | .chrEnd p d a => some (fieldsMk 0x66 3 p (d.code) (a.code) (0xFF) (immX a .zero))
  | .chrStat p d a => some (fieldsMk 0x66 4 p (d.code) (a.code) (0xFF) (immX a .zero))
  | .chrLat p d a => some (fieldsMk 0x66 5 p (d.code) (a.code) (0xFF) (immX a .zero))
  | .chcBind p a b => some (fieldsMk 0x67 0 p (0xFF) (a.code) (b.code) (immX a b))
  | .chcCred p a b => some (fieldsMk 0x67 1 p (0xFF) (a.code) (b.code) (immX a b))
  | .chcSpst p a b => some (fieldsMk 0x67 2 p (0xFF) (a.code) (b.code) (immX a b))
  | .semSsig p a b => some (fieldsMk 0x70 0 p (0xFF) (a.code) (b.code) (immX a b))
  | .semSsigr p a b => some (fieldsMk 0x70 1 p (0xFF) (a.code) (b.code) (immX a b))
  | .semSwait p d a b => some (fieldsMk 0x70 2 p (d.code) (a.code) (b.code) (immX a b))
  | .semSwaitd p d a b => some (fieldsMk 0x70 3 p (d.code) (a.code) (b.code) (immX a b))
  | .semSset p a b => some (fieldsMk 0x70 4 p (0xFF) (a.code) (b.code) (immX a b))
  | .semSrd p d a => some (fieldsMk 0x70 5 p (d.code) (a.code) (0xFF) (immX a .zero))
  | .bara p d a => some (fieldsMk 0x71 0 p (d.code) (a.code) (0xFF) (immX a .zero))
  | .barw p d a b => some (fieldsMk 0x72 0 p (d.code) (a.code) (b.code) (immX a b))
  | .taskSpawn p d a b => some (fieldsMk 0x73 0 p (d.code) (a.code) (b.code) (immX a b))
  | .taskWake p a b => some (fieldsMk 0x73 1 p (0xFF) (a.code) (b.code) (immX a b))
  | .taskSpri p a b => some (fieldsMk 0x73 2 p (0xFF) (a.code) (b.code) (immX a b))
  | .taskTstat p d a => some (fieldsMk 0x73 3 p (d.code) (a.code) (0xFF) (immX a .zero))
  | .ctxCsave p mx a b => some (fieldsMk 0x78 0 p (0xFF) (a.code) (b.code) (mx.bits ++ 0#5))
  | .ctxCrest p mx a b => some (fieldsMk 0x78 1 p (0xFF) (a.code) (b.code) (mx.bits ++ 0#5))
  | .otcInvo p a => some (fieldsMk 0x79 0 p (0xFF) (a.code) (0xFF) (immX a .zero))
  | .otcInva p a => some (fieldsMk 0x79 1 p (0xFF) (a.code) (0xFF) (immX a .zero))
  | .otcPin p a b => some (fieldsMk 0x79 2 p (0xFF) (a.code) (b.code) (immX a b))
  | .tblwRoute p mx a b => some (fieldsMk 0x7A 0 p (0xFF) (a.code) (b.code) (mx.bits ++ 0#5))
  | .tblwName p mx a b => some (fieldsMk 0x7A 1 p (0xFF) (a.code) (b.code) (mx.bits ++ 0#5))
  | .tblwHeat p mx a b => some (fieldsMk 0x7A 2 p (0xFF) (a.code) (b.code) (mx.bits ++ 0#5))
  | .tblwAdmc p mx a b => some (fieldsMk 0x7A 3 p (0xFF) (a.code) (b.code) (mx.bits ++ 0#5))
  | .haltc p a => some (fieldsMk 0x7B 0 p (0xFF) (a.code) (0xFF) (immX a .zero))
  | .powerOn _ => none
  | .waferTimeBroadcast _ _ => none
  | .wstale _ => none
  | .taskSelect _ _ => none
  | .blockMap _ _ => none
  | .blockCommit _ _ => none
  | .gatePark _ _ => none
  | .wdog _ _ => none
  | .commitOpPerform _ _ _ _ => none
  | .scTokenArrive _ => none
  | .engineStart _ => none
  | .copyChunk _ => none
  | .xchnRecord _ => none
  | .xredRow _ => none
  | .collectiveChunk _ => none
  | .flitReceive _ _ => none
  | .portLinkDown _ => none
  | .passRelease _ => none
  | .feederRowRelease _ _ => none
  | .cellFire _ _ _ => none
  | .loaderWordWrite _ _ => none
  | .accRowWrite _ _ => none
  | .drainWriterRow _ _ => none
  | .accParityError _ _ => none
  | .admWindow _ => none
  | .rillItemSend _ _ => none
  | .rillItemArrive _ _ _ => none
  | .converterTake _ _ _ => none
  | .creditArrive _ _ => none
  | .joinMerge _ _ => none
  | .deadlockDetect _ _ _ _ _ => none
  | .rillQuiesceTimeout _ => none
  | .lqtailDoorbell _ _ _ => none
  | .launchTake _ => none
  | .launchPlace _ => none
  | .launchComplete _ => none
  | .completionPost _ => none
  | .hostPreempt _ _ _ => none
  | .hostRestore _ _ _ => none
  | .hostMigrate _ _ _ => none
  | .hostKill _ _ _ => none
  | .hostCmdUnknown _ _ _ _ => none
  | .oclaim _ => none
  | .hgo _ _ => none
  | .ownerLinkLost => none
  | .featdrvWrite _ _ => none
  | .psreqP0 _ => none
  | .psreqP1 _ => none
  | .psreqP2 _ => none
  | .psreqP3 _ => none
  | .psreqP4 _ => none
  | .pageansResident _ _ _ => none
  | .pageansDecline _ _ _ => none
  | .thermalTrip _ => none
  | .tripClear _ _ => none
  | .securityAlarm => none
  | .secaClear _ => none
  | .attestNonceWrite _ _ => none
  | .attestComplete _ => none
  | .heatSample _ => none
  | .stewardRebind _ => none
  | .hostMemoryWrite _ _ _ => none
  | .hostMemoryRead _ _ _ => none
  | .mgmtTelemetryRead _ => none
  | .coreWindowWrite _ _ _ => none
  | .fieldWindowWrite _ _ _ => none
  | .tileStateWrite _ _ _ => none
  | .otrootWrite _ _ => none
  | .aqueductRouteWrite _ _ => none
  | .registerWrite _ _ => none
  | .hostLinkDown _ => none
  | .hostLinkUp _ => none
  | .portLinkUp _ => none
  | .plotFailure _ => none

/-- The word of an instruction; the all-zero word ILL for an event, which has none. -/
def encode (i : Instr) : BitVec 64 :=
  match i.fields with
  | some f => f.pack
  | none => 0

/-- A well-formed instruction: its word breaks no DECODE rule that one word can break. An event is no word. -/
def Instr.wf (i : Instr) : Bool :=
  match i.fields with
  | some f => f.ok none
  | none => false

/-- The decoder on a word as the opcode table numbers its bits: an instruction is one 64-bit word, stored little-endian
(R1, R52), so the table's bit order is the word's. -/
noncomputable def decodeTableWord (_nbits w : Nat) : Option Instr := decode (BitVec.ofNat 64 w)

/-- A block header's N (R57): MAGIC 0xB5 and zero bits [47:0]; none is a DECODE fault. LEAF is a hint. -/
def headerWords (h : BitVec 64) : Option Nat :=
  if h.extractLsb' 56 8 = 0xB5 ∧ h.extractLsb' 0 48 = 0 then some ((h.extractLsb' 49 7).toNat + 1) else none

/-- A system register number that needs privilege, of RDS and WRS (R81). -/
def Fields.sysNum (f : Fields) (r : OpRow) : Nat :=
  if r.chk == .rds || r.chk == .wrs then (f.x.extractLsb' 0 12).toNat else 0

/-- What the block check carries from slot to slot: the classes of the slot values, the streams on which a lower slot places an
operation, and how many operations each stream has (R212). -/
structure BlockChk where
  cls : List (Option VCls)
  streams : BitVec 8
  counts : List Nat
  decodeAt : Option Nat
  privAt : Option Nat

/-- The check of slot k (R60, R81, R87, R88, R212). -/
def checkSlot (priv : Bool) (c : BlockChk) (w : BitVec 64) : BlockChk :=
  let f := Fields.ofWord w
  let k := c.cls.length
  let slots : SlotCls := some (fun i => (c.cls.getD i.toNat none))
  let bad := { c with cls := c.cls ++ [none], decodeAt := c.decodeAt.or (some k) }
  match f.row? with
  | none => bad
  | some r =>
    let mx := MX.ofX f.x
    let n := c.counts.getD mx.stream.toNat 0 + 1
    if !f.okRow slots r then bad
    else if r.load && (mx.mask &&& c.streams) != 0 then bad
    else if r.unit && n > 63 then bad
    else if priv && f.sysNum r > 0x102 then bad
    else
      { cls := c.cls ++ [if r.cls == .ordinary || r.cls == .gate then f.resCls slots r else none]
        streams := if r.unit then c.streams ||| BitVec.twoPow 8 mx.stream.toNat else c.streams
        counts := if r.unit then c.counts.set mx.stream.toNat n else c.counts
        decodeAt := c.decodeAt
        privAt := if !priv && (r.priv || f.sysNum r ≥ 0x100) then c.privAt.or (some k) else c.privAt }

/-- The outcome of the map-time checks of a block's words: none when it passes, else true for DECODE or false for PRIV, with the
lowest offending position (R60, R88). -/
def checkBlock (priv : Bool) (ws : List (BitVec 64)) : Option (Bool × Nat) :=
  let c := ws.foldl (checkSlot priv) ⟨[], 0, List.replicate 8 0, none, none⟩
  match c.decodeAt, c.privAt with
  | some k, _ => some (true, k)
  | none, some k => some (false, k)
  | none, none => none

end Sys2Proof
end

