-- ==== Sys2Proof/Config.lean ====
section
/-! DEFINITION. What the device or its maker fixes, and the free values: constants without a body, of which nothing can be proved.
A free value is drawn by applying one of them to the counter State.free. -/

namespace Sys2Proof

/-- FEATDEV (R402, reset "by device"). DESIGN CHOICE (log 19): every defined feature of R405. -/
def Config.featDev : BitVec 128 := 0x3F

/-- The wafer serial number (R371, R374): the device's own (log 17). -/
opaque Config.serial : BitVec 64

/-- The SHA-256 digest of a booted firmware slot, A = false (R410, log 17). -/
opaque Config.fwDigest : Bool → BitVec 256

/-- The SHA-256 digest of a feature-token record (R410, log 17). -/
opaque Config.tokenDigest : BitVec 3584 → BitVec 256

/-- The ECDSA signature pair over a report's bytes (R410, log 17). -/
opaque Config.attestSig : List Byte → Bool → BitVec 384

/-- Whether the vendor key of the boot ROM verifies a feature token's signature over its message (R374, log 17). -/
opaque Config.tokenSigned : BitVec 512 → BitVec 3072 → Bool

/-- The path latency that the steward fixes for a die at boot, in nanoseconds (R23, log 4). -/
opaque Config.pathLatency : Nat → BitVec 64

/-- A byte of another module's memory as a copy engine reads it (R157, R330, log 12). -/
opaque Config.remoteByte : Nat → Byte

/-- What another module answers to a remote access: 0 performed, 1 the address names nothing, 2 a word was full, 3 a granule was poisoned, 4 a
flit of it was discarded at hop count 8 (R329, R330, log 12). -/
opaque Config.remoteReport : Nat → BitVec 3

/-- The supply power a management read reports (R413, log 6). -/
opaque Config.supply : Nat → BitVec 64

/-- The temperature that a plot's sensor shows to a management read (R413, log 6). -/
opaque Config.sensor : Nat → Nat → BitVec 64

/-- Which HW-A offsets the flash-update window of recovery covers (R409, log 78). -/
opaque Config.flashWindow : Nat → Bool

/-- Which writes of a stopped chunk had performed (R316, log 14). -/
opaque Config.partialWrite : Nat → Bool

/-- The bits of a cell's registers after P2 or P3 lost them, by the loss, the cell and the 64-bit part (R406, log 29). -/
opaque Config.lostCell : Nat → Nat → Nat → BitVec 64

/-- An accumulator element after P2 or P3 lost it, by the loss and its index (R406, log 29). -/
opaque Config.lostAcc : Nat → Nat → BitVec 40

/-- A value the spec leaves open, drawn by the counter of free values (log 12). -/
opaque Config.freeValue : Nat → BitVec 64

end Sys2Proof
end

