-- ==== Sys2Proof/Machine/State.lean ====
section
/-! DEFINITION. The state of the module as plain data: tasks, blocks, memory, fields, rills, engines, the sluice, the tables and the edge
registers. Fields marked MODEL belong to the model (the log entry named there), every other one to the spec. -/

namespace Sys2Proof.Machine

open Sys2Proof

/-- A map with few entries: keys rising, every other key at a default. -/
abbrev SMap (α : Type) := List (Nat × α)

/-- The entry of key k, or the default. -/
def SMap.get {α : Type} (m : SMap α) (k : Nat) (d : α) : α :=
  match m with
  | [] => d
  | (j, v) :: t => if j = k then v else SMap.get t k d

/-- The map with key k set. -/
def SMap.put {α : Type} (m : SMap α) (k : Nat) (v : α) : SMap α :=
  match m with
  | [] => [(k, v)]
  | (j, u) :: t => if k < j then (k, v) :: (j, u) :: t else if k = j then (k, v) :: t else (j, u) :: SMap.put t k v

/-- The map without key k. -/
def SMap.drop {α : Type} (m : SMap α) (k : Nat) : SMap α :=
  match m with
  | [] => []
  | (j, u) :: t => if j = k then SMap.drop t k else (j, u) :: SMap.drop t k

/-- An instant, as the SY.CYC of every die at it: a count of cycles from it can be taken in the clock of any die (R22, R304). -/
abbrev Stamp := SMap (BitVec 64)

/-! ## Values and registers -/

/-- An f register: 64 bits and the tag as stored (R90). -/
structure FReg where
  bits : BitVec 64 := 0
  tag : BitVec 6 := 0
  deriving DecidableEq, Repr

/-- A v register: 16 lanes of 32 bits and their tags (R91). -/
structure VReg where
  lanes : BitVec 512 := 0
  tags : BitVec 96 := 0
  deriving DecidableEq, Repr

/-- A pointer: capability, cursor, validity (R92, R169). -/
structure Ptr where
  cap : BitVec 128 := 0
  cur : BitVec 40 := 0
  valid : Bool := false
  deriving DecidableEq, Repr

/-- A value of one of the six operand classes (R54). -/
inductive Val where
  | int (x : BitVec 64)
  | pred (b : Bool)
  | fp (r : FReg)
  | vec (v : VReg)
  | mask (m : BitVec 16)
  | ptr (p : Ptr)
  deriving DecidableEq, Repr

/-- The four register files of a task (R89 to R92). -/
structure Regs where
  g : Vector (BitVec 64) 64
  f : Vector FReg 32
  v : Vector VReg 16
  c : Vector Ptr 8
  deriving DecidableEq, Repr

/-- Registers at power-on: a DESIGN CHOICE (log 18), R93's values where it names no other: zero, f tag 53, lane tags 24, invalid pointers. -/
def Regs.init : Regs where
  g := Vector.replicate 64 0
  f := Vector.replicate 32 ⟨0, 53⟩
  v := Vector.replicate 16 ⟨0, 0x618618618618618618618618⟩
  c := Vector.replicate 8 {}

/-! ## Causes -/

/-- The causes of R218. -/
inductive Cause where
  | trap | decode | priv | capb | capr | capt | align | absent | page | dfill | poison | sig | soft | rill | deadlk | barr
  | field | engine | wdog | scspan
  deriving DecidableEq, Repr

/-- The codes of R218. -/
def Cause.code : Cause → BitVec 8
  | .trap => 0x00 | .decode => 0x01 | .priv => 0x02 | .capb => 0x03 | .capr => 0x04 | .capt => 0x05 | .align => 0x06
  | .absent => 0x07 | .page => 0x08 | .dfill => 0x09 | .poison => 0x0A | .sig => 0x0B | .soft => 0x0C | .rill => 0x0D
  | .deadlk => 0x0E | .barr => 0x0F | .field => 0x10 | .engine => 0x11 | .wdog => 0x12 | .scspan => 0x13

/-- A cause with everything a trap frame, a save frame or an error record says of it (R220, R234). -/
structure CauseRec where
  cause : Cause
  slot : Nat := 255
  lane : Nat := 0
  num : BitVec 8 := 0
  obj : BitVec 24 := 0
  off : BitVec 40 := 0
  phys : BitVec 64 := 0
  info : BitVec 64 := 0
  async : Bool := false
  defer : Bool := false
  nested : Bool := false
  deriving DecidableEq, Repr

/-! ## Commit-point operations -/

/-- Store modes (R182). -/
inductive StMode where
  | plain | fill | setf | clre
  deriving DecidableEq, Repr

/-- AMO functions (R185). -/
inductive AmoOp where
  | add | and | or | xor | mins | maxs | minu | maxu | xchg | fadd | fmax | fmin
  deriving DecidableEq, Repr

/-- Collective forms (R325). -/
inductive ColForm where
  | allredSum | allredMax | allgath | redscatSum | bcast
  deriving DecidableEq, Repr

/-- CHS forms (R298). -/
inductive ChsForm where
  | int | fp | vec | eos | mark
  deriving DecidableEq, Repr

/-- The tables TBLW writes (R367). -/
inductive TblKind where
  | route | name | heat | admc
  deriving DecidableEq, Repr

/-- What a commit-point slot asks for, with the values its operands had when it executed (R62). -/
inductive CKind where
  | store (n : Nat) (mode : StMode) (align : Nat) (data : BitVec 640)
  | take (n : Nat) (align : Nat)
  | amo (op : AmoOp) (n : Nat) (b : BitVec 64)
  | cas (n : Nat) (exp nv : BitVec 64)
  | cst (p : Ptr)
  | xcpy (dst : Ptr) (cmd : BitVec 64)
  | xchn (cmd : BitVec 64)
  | xred (dst lst : Ptr)
  | xcol (form : ColForm) (name cmd : BitVec 64)
  | xregReg (name : BitVec 64) (buf : Ptr)
  | xregRel (name : BitVec 64)
  | conf (origin : BitVec 64)
  | frel (h : BitVec 64)
  | feed (fin swap eos : Bool) (b : BitVec 64)
  | wld (b : BitVec 64)
  | aclr (a : BitVec 64)
  | asta (a : BitVec 64)
  | aset (a b : BitVec 64)
  | chs (port : BitVec 64) (form : ChsForm) (data : BitVec 512)
  | bind (port b : BitVec 64)
  | cred (port b : BitVec 64)
  | spst (port b : BitVec 64)
  | ssig (a b : BitVec 64)
  | ssigr (a b : BitVec 64)
  | sset (a b : BitVec 64)
  | bara (a : BitVec 64)
  | spawn (a b : BitVec 64)
  | wake (a b : BitVec 64)
  | spri (a b : BitVec 64)
  | csave (b : BitVec 64)
  | crest (b : BitVec 64)
  | invo (a : BitVec 64)
  | inva
  | pin (a b : BitVec 64)
  | tblw (k : TblKind) (b : BitVec 64)
  | haltc (a : BitVec 64)
  | wrs (num : Nat) (a : BitVec 64)
  | handle (h : BitVec 64)
  deriving DecidableEq, Repr

/-- A commit-point action of a slot: the form, its ordering fields, its pointer and byte offset, its D. -/
structure CAct where
  kind : CKind
  mx : Option MX := none
  ptr : Ptr := {}
  off : BitVec 64 := 0
  dst : Dst := .none
  deriving DecidableEq, Repr

/-- An issued operation that has not performed (R68, R194): its serial, its action, the committing block and slot (R176), the
operations it waits for (R193), the parts already performed (R171), and whether it waits for the SC token (R208). -/
structure Op where
  serial : Nat
  act : CAct
  bpc : BitVec 40
  slot : Nat
  deps : List Nat
  done : List Nat := []
  queued : Bool := false
  paused : Option (BitVec 24 × BitVec 40) := none
  priv : Bool := false
  regs : Vector Ptr 7 := Vector.replicate 7 {}
  pri : BitVec 3 := 0
  acq : Bool := false
  /-- The homes of a memory operation as its commit checks found them: address, index in the access, length (R171). -/
  homes : List (Nat × Nat × Nat) := []
  /-- A later block has written the register of the late result, so that this result does not reach it (R177). -/
  stale : Bool := false
  /-- Everything of an operation of scope host is made, and only the host agent's report is outstanding: it has performed at every lower scope (R194). -/
  made : Bool := false
  deriving DecidableEq, Repr

/-- Branch-class effects (R110 to R118). -/
inductive Br where
  | rel (x : BitVec 19)
  | abs (a : BitVec 64)
  | call (link : BitVec 6) (x : BitVec 19)
  | endt
  | yielded
  | park (mask : BitVec 16)
  | trap (n : BitVec 8)
  | tret
  | tretAt (a : BitVec 64)
  deriving DecidableEq, Repr

/-- A consumption that takes place at commit (R67): a rill item, a LATEST element by its sequence number, the row c of a tile, or a
semaphore threshold; `head` is the head of a port on which a CHR.END has answered false, which consumes nothing (R299). -/
inductive Pop where
  | rill (port : Nat)
  | head (port : Nat)
  | latest (port : Nat) (seq : BitVec 32)
  | tile (t c : Nat) (last : Bool) (cur : Nat)
  | sem (n t : Nat)
  deriving DecidableEq, Repr

/-! ## Blocks and tasks -/

/-- The condition a stalled gate waits for (R66): words full (`phys` says that a physical capability names them), a semaphore at a value, a generation other than g, item k of a
receive port, room for words at a send port (R298), a FULL tile. -/
inductive Gate where
  | presence (ps : List (Nat × Nat)) (phys : Bool)
  | sem (n t : Nat)
  | barrier (die key : Nat) (operand : BitVec 64) (gen : BitVec 16)
  | rill (port k : Nat)
  | send (port : Nat) (need : List ChsForm)
  | tile (t : Nat)
  deriving DecidableEq, Repr

/-- Where a slot of a mapped block stands (R61, R63). -/
inductive SlotSt where
  | waiting | nulled | done
  deriving DecidableEq, Repr

/-- What a slot holds while its block is mapped: its state, the die cycle in which it executed or was nullified, value, D, flags, effects for
the commit, and when its wait began (R61 to R67). -/
structure SlotRec where
  st : SlotSt := .waiting
  cyc : BitVec 64 := 0
  val : Option Val := none
  dst : Dst := .none
  flags : BitVec 5 := 0
  idz : Bool := false
  siglost : Bool := false
  act : Option CAct := none
  br : Option Br := none
  pop : Option Pop := none
  acq : BitVec 8 := 0
  later : Bool := false
  smiss : Bool := false
  /-- The unmet condition of a gate and the die cycle since which it has stalled: that in which its operands became available. -/
  gate : Option Gate := none
  since : BitVec 64 := 0
  acc : BitVec 640 := 0
  parts : List Nat := []
  queued : Bool := false
  /-- The object and the homes of a load some of whose parts have performed or wait for the token: a rebind retries the others at the new holder
  (R214), and an INV of the object waits for them (R365). -/
  homes : Option (BitVec 24) × List (Nat × Nat × Nat) := (none, [])
  deriving DecidableEq, Repr

/-- A mapped block (R57, R59): address, words, slots, the die cycle of its map, SY.PRI at its start, and map order; the cause that its slots
have found in this cycle (R70), and whether a TAKE has found a word empty, so that the words taken are set full again (R181). -/
structure Block where
  bpc : BitVec 40
  words : List (BitVec 64)
  slots : List SlotRec
  mapped : BitVec 64
  pri0 : BitVec 3
  /-- SY.PMSEL at the block's start (R96). -/
  pmsel0 : BitVec 6
  order : Nat
  refused : Bool := false
  abort : Option CauseRec := none
  failed : Bool := false
  deriving DecidableEq, Repr

/-- One half of the execution window (R59): the task selected for it and its mapped block. -/
structure Half where
  task : Option Nat := none
  blk : Option Block := none
  deriving DecidableEq, Repr

/-- Task slot states (R95, R343). -/
inductive TState where
  | free | ready | running | wait | saved | suspended
  deriving DecidableEq, Repr

/-- The codes of SY.SLOTS (R95). -/
def TState.code : TState → BitVec 3
  | .free => 0 | .ready => 1 | .running => 2 | .wait => 3 | .saved => 4 | .suspended => 5

/-- What a task in WAIT waits for (R66, R115, R223): granules (`phys` as of the gate), semaphore, barrier group (its cistern key and operand), rill port and side, tile, wake mask. -/
inductive WaitFor where
  | none
  | presence (granules : List Nat) (phys : Bool)
  | sem (n : Nat)
  | barrier (die key : Nat) (operand : BitVec 64)
  | rill (port : Nat) (send : Bool)
  | drain (t : Nat)
  | park (mask : BitVec 16)
  deriving DecidableEq, Repr

/-- Why a task that maps no further block has not left yet (R113, R177, R224): it waits for its operations. -/
inductive Leaving where
  | no
  | ended
  | trapping (c : CauseRec) (bpc : BitVec 40) (stop : Bool)
  | saving (c : Option CauseRec) (bpc : BitVec 40) (toFree : Bool)
  deriving DecidableEq, Repr

/-- A task as the register window shows it while its slot is live (R161): BPC, registers, stream state with the count of seq operations (R223), and
system registers 0x000 to 0x010. -/
structure Shown where
  bpc : BitVec 40
  regs : Regs
  strm : BitVec 64
  seqs : BitVec 64
  sys : List (BitVec 64)
  deriving DecidableEq, Repr

/-- A task slot (R89 to R95, R343). -/
structure Task where
  st : TState := .free
  regs : Regs := Regs.init
  /-- What the register window shows of the task while it is live: its values as at its last commit (R161). -/
  shown : Option Shown := none
  /-- A stream state written through the register window while the slot is quiet (R161). -/
  strmSet : Option (BitVec 64) := none
  /-- The count of seq operations beside it (R223). -/
  seqSet : Option (BitVec 6) := none
  bpc : BitVec 40 := 0
  priv : Bool := false
  launch : BitVec 32 := 0
  pri : BitVec 3 := 0
  fctl : BitVec 9 := 0
  sigctl : BitVec 8 := 0
  smiss : Bool := false
  /-- The die cycle in which a performing operation last set SY.SMISS (R97). -/
  smissAt : Option (BitVec 64) := none
  park : BitVec 16 := 256
  trapv : BitVec 40 := 0
  frame : BitVec 32 := 0
  wake : BitVec 16 := 0
  /-- The die cycle in which wake bits were last set, and those bits (R347). -/
  wakeCyc : BitVec 64 := 0
  wakeNew : BitVec 16 := 0
  /-- MODEL: the name of the task that occupies the slot (log 1). -/
  uid : Nat := 0
  ops : List Op := []
  /-- Engine handles in issue order with their command's serial (R222). -/
  handles : List (Nat × BitVec 64) := []
  wait : WaitFor := .none
  /-- Pending asynchronous causes, bit k for code 0x0E + k (R219), and their INFO. -/
  pend : BitVec 16 := 0
  pendInfo : SMap (BitVec 64) := []
  /-- The failed engine commands whose ENGINE has not been raised, oldest first: handle and error code (R219, R221). -/
  engQ : List (BitVec 64 × BitVec 8) := []
  /-- Streams on which an earlier load performed with a matching scope (R199). -/
  acq : BitVec 8 := 0
  /-- The die cycle at which the task last became READY or was selected (R344), and its turn. -/
  since : BitVec 64 := 0
  turn : Nat := 0
  /-- After an SPRI while READY: the effective priority it left, and the die cycle since which the task has had it (R344); 8 for none. -/
  levelE : Nat := 8
  levelAt : BitVec 64 := 0
  leaving : Leaving := .no
  /-- A HALTC of the task has committed: it maps no further block (R354). -/
  halting : Bool := false
  /-- What blocks have written to registers still owed a late result, which takes effect once that has arrived (R177). -/
  heldWrites : List (Dst × Val) := []
  /-- Writes to host memory that its agent has accepted and not yet reported complete: serial and stream (R194). -/
  hostOps : List (Nat × BitVec 3) := []
  /-- SY.WTIME and SY.STRM at the instant of the cause or of the save under way (R220). -/
  causeWt : BitVec 64 := 0
  causeStrm : BitVec 64 := 0
  /-- The die cycle in which a late result last reached a register, by the register's code (R66, R177). -/
  lateAt : SMap (BitVec 64) := []
  /-- The die cycle in which an operation last performed on a stream (R174). -/
  strmAt : SMap (BitVec 64) := []
  /-- SY.WTIME at the save; no block is mapped before the die's time exceeds it (R396). -/
  notBefore : Option (BitVec 64) := none
  /-- The branch target lay outside the 40 bits of BPC, so the next fetch is beyond every code object (R58). -/
  far : Bool := false
  /-- The rill ports the task waits on, 2 × port + 1 for a send end, with the instant its wait began (R304). -/
  rwait : SMap Stamp := []
  /-- The waits of the block that a program trap interrupted, by its address: they go on when TRET runs it again (R304, R421). -/
  rheld : Option (BitVec 40 × SMap Stamp) := none
  /-- Where a CSAVE in progress puts the frame, and where the frame of a SAVED slot lies (R225, R231). -/
  saveTo : Option (Ptr × Nat) := none
  frameAt : Option (Ptr × Nat) := none
  /-- The page fault from which the task was restored, until a block commits (R227). -/
  refault : Option (BitVec 24 × BitVec 40) := none
  /-- A SAVED task that would have been woken (R224). -/
  woken : Bool := false
  deriving DecidableEq, Repr

/-! ## Memory -/

/-- The sideband of a granule (R165) and its poison mark (R168). -/
structure Side where
  pres : BitVec 8 := 0
  tag : Bool := false
  stamp : BitVec 3 := 0
  poison : Bool := false
  deriving DecidableEq, Repr

/-! ## Fields -/

/-- An activation beat (R240). -/
structure Beat where
  data : BitVec 128
  scale : BitVec 32
  tile : BitVec 4
  tend : Bool
  fin : Bool
  swap : Bool
  eos : Bool
  m : Nat
  deriving DecidableEq, Repr

/-- A partial sum as it travels south (R247): psum or run, the BSFP8 group sum, the peak, and the row's pass marks. -/
structure Psum where
  val : BitVec 32
  gp : BitVec 32
  peak : BitVec 8
  tile : BitVec 4
  tend : Bool
  fin : Bool
  eos : Bool
  m : Nat
  bad : Bool
  deriving DecidableEq, Repr

/-- A cell (R163, R238, R242): weight and scale registers, loading-full, parity mark, and its two output registers. -/
structure Cell where
  wAct : BitVec 128 := 0
  wLoad : BitVec 128 := 0
  gAct : BitVec 32 := 0
  gLoad : BitVec 32 := 0
  mx : BitVec 8 := 0
  full : Bool := false
  par : Bool := false
  east : Option Beat := none
  south : Option Psum := none
  deriving DecidableEq, Repr

/-- Accumulator tile states (R252). -/
inductive TileSt where
  | empty | accum | full
  deriving DecidableEq, Repr

/-- A row of a tile that some columns have written and others have not: its place in the pass, its flags, the columns that have. -/
structure RowPend where
  m : Nat
  tend : Bool
  fin : Bool
  eos : Bool
  cols : BitVec 16
  deriving DecidableEq, Repr

/-- The state word of a tile (R252) with its AUTO, SEMEN and SEM (R264), the rows not yet written by every column, oldest first, and the
drain writer's progress (R269). -/
structure Tile where
  st : TileSt := .empty
  prog : Nat := 0
  cur : Nat := 0
  rows : Nat := 0
  base : Nat := 0
  eos : Bool := false
  auto : Bool := false
  semen : Bool := false
  sem : BitVec 8 := 0
  pend : List RowPend := []
  draining : Option Nat := none
  drained : Bool := false
  deriving DecidableEq, Repr

/-- An admission port (R258). -/
structure AdmPort where
  ocap : Nat := 1024
  pcap : Nat := 1024
  cnt : Nat := 1024
  deriving DecidableEq, Repr

/-- A FEED held by a feeder (R277): the operation it answers, its pointer and parameters, and the next row to release. -/
structure FeedCmd where
  serial : Nat
  uid : Nat
  mx : Option MX := none
  slot : Nat
  bpc : BitVec 40
  ptr : Ptr
  priv : Bool
  m : Nat
  tile : BitVec 4
  q0 : Nat
  fin : Bool
  swap : Bool
  eos : Bool
  /-- Row-slices admitted, beats offered per physical row of the plot, and the cycle of the pass's release. -/
  next : Nat := 0
  offered : SMap Nat := []
  released : Bool := false
  start : BitVec 64 := 0
  paused : Option (BitVec 24 × BitVec 40) := none
  deriving DecidableEq, Repr

/-- A WLD held by a loader (R278): the words still to read, in any order. -/
structure WldCmd where
  serial : Nat
  uid : Nat
  mx : Option MX := none
  slot : Nat
  bpc : BitVec 40
  ptr : Ptr
  priv : Bool
  n : Nat
  left : List (Nat × Nat)
  paused : Option (BitVec 24 × BitVec 40) := none
  deriving DecidableEq, Repr

/-- The field units of a plot: cells, west queues, delay counters, accumulators, tiles, admission ports, feeder and loader (R241 to R259). -/
structure FUnit where
  cells : SMap Cell := []
  west : SMap (List Beat) := []
  delay : SMap Nat := []
  acc : SMap (BitVec 40) := []
  poison : List Nat := []
  tiles : SMap Tile := []
  port0 : AdmPort := {}
  port1 : AdmPort := {}
  feeds : List FeedCmd := []
  wlds : List WldCmd := []
  /-- Weight words that the loader has read and that wait for their cell's loading register (R278): logical row, local column, data, scale. -/
  loaded : List (Nat × Nat × BitVec 128 × BitVec 32) := []
  handle : BitVec 32 := 0xFFFFFFFF
  role : BitVec 5 := 0
  /-- MODEL: the draw of Config.lostCell and Config.lostAcc that unlisted cells and accumulators hold since P2 or P3 lost them (R406, log
  29); 0 when none did. -/
  cellLost : Nat := 0
  accLost : Nat := 0
  deriving DecidableEq, Repr

/-- An address-generator frame of a configured field (R265) with its window pointer and the pinned translation (R270). -/
structure Agen where
  r : Nat
  c : Nat
  unit : Nat
  pay : BitVec 224
  ptr : Ptr
  window : List (Nat × Nat × Nat)
  deriving DecidableEq, Repr

/-- A released pass (R254, R277): its tile, flags, rows, whether its first beat has entered the array, and the field columns whose
SOUTH plot has still to write its TEND row. -/
structure Pass where
  tile : BitVec 4
  m : Nat
  fin : Bool
  swap : Bool
  eos : Bool
  entered : Bool := false
  left : List Nat := []
  deriving DecidableEq, Repr

/-- What a saved field keeps beside its save region (R228, log 23), per plot: field row and column, held commands, each tile's drain progress,
the activation-row numbers of queued beats, and the marked accumulator rows. -/
structure HeldUnit where
  r : Nat
  c : Nat
  feeds : List FeedCmd
  wlds : List WldCmd
  drains : List (Nat × Option Nat × Bool)
  ms : SMap (List Nat)
  rows : List (Nat × BitVec 40) := []
  par : List Nat := []
  loaded : List (Nat × Nat × BitVec 128 × BitVec 32) := []
  /-- The bypass latches of the plot, COLBY and ROWBY (R371). -/
  colBy : BitVec 16 := 0
  rowBy : BitVec 16 := 0
  deriving DecidableEq, Repr

/-- A configured field (R260 to R275). -/
structure Field where
  handle : BitVec 32
  launch : BitVec 32
  masterPlot : Nat
  masterUid : Nat
  rect : Nat
  row : Nat
  col : Nat
  rows : Nat
  cols : Nat
  mrow : Nat
  mcol : Nat
  mode : Nat
  lr : Nat
  k : Nat
  image : BitVec 64
  imagePtr : Ptr
  priv : Bool
  agens : List Agen
  entries : List (Nat × Nat)
  passes : List Pass := []
  stopped : Bool := false
  releasing : Option Nat := none
  idx : Nat := 0
  held : List HeldUnit := []
  deriving DecidableEq, Repr

/-! ## Rills -/

/-- An element or token of a rill (R288, R291): its words, and EOS or MARK. -/
inductive Item where
  | data (ws : BitVec 512) (seq : BitVec 32)
  | eos
  | mark (v : BitVec 16)
  deriving DecidableEq, Repr

/-- An item of a rill in a router (R368): the router's plot and the route index the item carries there. -/
structure Transit where
  item : Item
  plot : Nat
  idx : Nat
  deriving DecidableEq, Repr

/-- A rill entry of a router with everything R290 to R302 and R432 give it. -/
structure Rill where
  ent : BitVec 224
  /-- Downstream entry: physical plot and index (PEER, PPORT resolved at installation); wake binding. -/
  down : Option (Nat × Nat) := none
  buf : List Item := []
  buf1 : List Item := []
  credits : Nat := 0
  owed : Nat := 0
  res : List Item := []
  high : Nat := 0
  low : Nat := 0
  bp : Bool := false
  lastMark : BitVec 16 := 0
  seq : BitVec 32 := 0
  unread : Bool := false
  valid : Bool := false
  broken : Bool := false
  wen : Bool := false
  wtask : Nat := 0
  wbit : Nat := 0
  /-- A join's last input taken; it begins with input 0 (R294). -/
  lastIn : Bool := true
  /-- Of a send end or join: its items in the routers between it and its downstream entry, oldest first (R368). -/
  transit : List Transit := []
  /-- Items that a router has delivered to this entry, by input, and that wait for its converter or buffer (R290). -/
  flight : List Item := []
  flight1 : List Item := []
  /-- A rebind has moved items of the rill onto a detour: until none is left in a router, the oldest goes first (R290, R377). -/
  detoured : Bool := false
  /-- The sluice's marker waits for room in the send end (R295). -/
  markDue : Bool := false
  back : Nat := 0
  conv : List Item := []
  conv1 : List Item := []
  group : List Item := []
  group1 : List Item := []
  /-- The format in which its inputs' items arrive, kept when the entry upstream is removed (R289, R432). -/
  src : Option Nat := none
  src1 : Option Nat := none
  ringHead : Nat := 0
  /-- Of a saved entry: the plot whose bank holds its reservoir (R295). -/
  ringAt : Nat := 0
  refused : Bool := false
  moved : Stamp := []
  field : Option (BitVec 32) := none
  launch : BitVec 32 := 0
  path : List (Nat × Nat) := []
  ups : List (Nat × Nat) := []
  deriving DecidableEq, Repr

/-! ## Plots and dies -/

/-- The statuses of R371. -/
inductive PStat where
  | good | hole | spare | capacity
  deriving DecidableEq, Repr

/-- A block that a core's block cache holds (R58): its launch, its address, its header and words. -/
structure CodeBlk where
  launch : BitVec 32
  bpc : BitVec 40
  words : List (BitVec 64)
  deriving DecidableEq, Repr

/-- What the cycle `cyc` has made of a semaphore so far (R384): its value before the increments of the cycle, their sum, and what consumptions
have taken. -/
structure SemNow where
  cyc : BitVec 64
  base : BitVec 16
  inc : Nat := 0
  taken : Nat := 0
  deriving DecidableEq, Repr

/-- A plot site (R9): its map entry, core, router and field units. -/
structure Plot where
  stat : PStat := .good
  partner : BitVec 16 := 0xFFFF
  deadl : BitVec 4 := 0
  colBy : BitVec 16 := 0
  rowBy : BitVec 16 := 0
  rebound : Bool := false
  tasks : Vector Task 16 := Vector.replicate 16 {}
  sems : SMap (BitVec 16) := []
  /-- The semaphores that a set, a consumption or an increment has changed, each in the cycle of its last (R384). -/
  semNew : SMap SemNow := []
  /-- Performance counters (R397); 0 and 31 are kept less SY.CYC. -/
  perf : SMap (BitVec 64) := []
  /-- The die cycle of the last counted event, and what was counted in it (R397). -/
  perfCyc : BitVec 64 := 0
  perfNew : SMap (BitVec 64) := []
  pmsel : BitVec 6 := 0
  h0 : Half := {}
  h1 : Half := {}
  near : SMap (BitVec 256) := []
  /-- The block cache, the block fetched last in front (R58). -/
  code : List CodeBlk := []
  rills : SMap Rill := []
  routes : SMap (BitVec 12) := []
  fu : FUnit := {}
  /-- The launch that holds the plot, and its place in the placement (R339). -/
  owner : Option (BitVec 32 × Nat) := none
  migrating : Bool := false
  /-- The instant at which a task slot last became FREE or SAVED (R304). -/
  vacated : Stamp := []
  deriving DecidableEq, Repr

/-- An object-table cache entry (R363): object, extent number, the descriptor's two words, the extent's two words, locked; the ranges of it, first
byte and length, that a lower-numbered extent covers and translates (R361). -/
structure OtcEnt where
  obj : BitVec 24
  ext : Nat
  d0 : BitVec 64
  d1 : BitVec 64
  x0 : BitVec 64
  x1 : BitVec 64
  locked : Bool
  under : List (Nat × Nat) := []
  deriving DecidableEq, Repr

/-- A barrier group (R390). -/
structure Bar where
  gen : BitVec 16 := 0
  arr : BitVec 16 := 0
  count : BitVec 16 := 0
  owner : BitVec 32 := 0
  deriving DecidableEq, Repr

/-- A seq operation waiting in its cistern (R208, R209): an issued operation, a load of a mapped block, or the emptying of a TAKE of a
complete one. -/
structure SeqReq where
  plot : Nat
  task : Nat
  serial : Option Nat
  half : Bool
  slot : Nat
  take : Bool := false
  deriving DecidableEq, Repr

/-- Words of one granule that a TAKE of a block on its way to the commit point empties (R181): the block's plot and half, the slot and its
scope, the home, which pieces share its home (R178), and the words; once they are cleared, the STAMP they had, and of the words those that no
other event has touched since. -/
structure TakeRec where
  /-- The object through whose extents the home was found, none for a physical capability (R365). -/
  obj : Option (BitVec 24) := none
  plot : Nat
  half : Bool
  slot : Nat
  scope : Scope
  home : Nat
  run : Nat
  words : BitVec 8
  stamp : BitVec 3 := 0
  done : Bool := false
  deriving DecidableEq, Repr

/-- A die's clocks and cistern (R22, R23, R310, R357, R390). -/
structure Die where
  cyc : BitVec 64 := 0
  wtime : BitVec 64 := 0
  /-- The fractional accumulator of R23, in seventeenths of a nanosecond, and how many such the copy must still advance at half rate. -/
  wfrac : Nat := 0
  behind : Nat := 0
  wstale : Bool := false
  sinceB : Nat := 0
  /-- MODEL: the window in which the admission counters were last set (log 4). -/
  admMark : BitVec 64 := 0
  serial : BitVec 40 := 0
  cecnt : BitVec 32 := 0
  lovf : BitVec 16 := 0
  otc : List OtcEnt := []
  /-- Cached entries of table nodes, by level 1 to 3 (times 2^24) and the object's leading bytes (R363). -/
  nodes : SMap (BitVec 64) := []
  bars : SMap Bar := []
  seqQ : List SeqReq := []
  deriving DecidableEq, Repr

/-! ## Engines -/

/-- Where an engine command stands (R312). -/
inductive CPhase where
  | waiting | running
  deriving DecidableEq, Repr

/-- An engine command (R222, R311, R316 to R327). -/
structure Cmd where
  serial : Nat
  handle : BitVec 64
  act : CAct
  deps : List Nat
  plot : Nat
  name : BitVec 32
  launch : BitVec 32
  uid : Nat
  bpc : BitVec 40
  /-- The slot of its block that issued it (R234). -/
  slot : Nat := 255
  priv : Bool
  phase : CPhase := .waiting
  chunk : Nat := 0
  recPtr : Ptr := {}
  nrec : Nat := 0
  row : Nat := 0
  /-- The transfer record or index-list header in hand (R319, R321). -/
  record : List Byte := []
  paused : Option (BitVec 24 × BitVec 40) := none
  /-- Collectives: the k of the name and the group entry taken at issue. -/
  k : Nat := 0
  group : List (BitVec 64) := []
  /-- The acquire effect that the command still has to make before its first read (R199). -/
  acq : Bool := false
  /-- A command of scope host whose last writes the host agent has accepted and not yet reported complete (R194). -/
  hostWait : Bool := false
  /-- A host agent has accepted a write of this command (R194). -/
  toHost : Bool := false
  /-- Everything of this command has been read and written, and only the report of its last host writes is outstanding (R194, R204). -/
  allMade : Bool := false
  /-- The index words and then the table rows that an XRED has read so far, granule by granule (R203, R321). -/
  got : List Byte := []
  deriving DecidableEq, Repr

/-- A buffer directory entry (R322). -/
structure Buf where
  name : BitVec 64 := 0
  launch : BitVec 32 := 0
  obj : BitVec 24 := 0
  off : BitVec 40 := 0
  size : BitVec 41 := 0
  valid : Bool := false
  /-- MODEL: the registered buffer's pointer, and the homes of its pages as they were found at the registration (R362). -/
  ptr : Ptr := {}
  pages : SMap Nat := []
  deriving DecidableEq, Repr

/-! ## The sluice -/

/-- A launch queue and its completion queue (R332), and the records that wait for room (R334). -/
structure LQueue where
  lqbase : BitVec 64 := 0
  lqsize : BitVec 13 := 0
  lqtail : BitVec 12 := 0
  lqhead : BitVec 12 := 0
  cqbase : BitVec 64 := 0
  cqsize : BitVec 13 := 0
  cqtail : BitVec 12 := 0
  cqhead : BitVec 12 := 0
  /-- How many pending entries a change of LQBASE or LQSIZE has made undefined (R333). -/
  undef : Nat := 0
  waiting : List (List (BitVec 64)) := []
  /-- The launch queue and its completion queue, disabled by a lost owner until a new owner writes their sizes (R404). -/
  lqOff : Bool := false
  cqOff : Bool := false
  /-- The record taken and waiting for a placement (R339). -/
  taken : Option (List (BitVec 64)) := none
  deriving DecidableEq, Repr

/-- Where a launch stands. -/
inductive LState where
  | live | saving | saved | restoring | ending
  deriving DecidableEq, Repr

/-- A slot of a launch whose frame the save area holds (R350): placement plot and slot, the task's name, its wait, whether that wait has
been satisfied since, and the wake bits set since (R224). -/
structure SavedSlot where
  p : Nat
  k : Nat
  uid : Nat
  wait : WaitFor
  woken : Bool
  wake : BitVec 16
  deriving DecidableEq, Repr

/-- A launch placed on the wafer (R335 to R341, R350). -/
structure Launch where
  id : BitVec 32
  words : List (BitVec 64)
  q : Nat
  rect : Nat
  row : Nat
  col : Nat
  st : LState := .live
  errs : BitVec 32 := 0
  rpt : Nat := 0
  /-- KIND and REASON of the completion record (R342). -/
  kind : BitVec 8 := 0x10
  reason : BitVec 32 := 0
  /-- Fields saved with the launch (R350). -/
  savedFields : List Field := []
  /-- The slots whose frames the save area holds (R350). -/
  frames : List SavedSlot := []
  /-- The rill entries saved with it: placement plot, entry, content (R295). -/
  savedRills : List (Nat × Nat × Rill) := []
  /-- The SUSPENDED and CSAVE-saved slots, which pre-emption leaves as they are (R225): placement plot, slot, task. -/
  stay : List (Nat × Nat × Task) := []
  marked : Bool := false
  /-- PREEMPT has come to its step 3: the feeders of the launch's fields stop (R228, R350). -/
  fieldsStop : Bool := false
  /-- Host writes of tasks that have left their slots, accepted and not yet reported complete: plot, slot, serial (R194, R341). -/
  hostLeft : List (Nat × Nat × Nat) := []
  deriving DecidableEq, Repr

/-- A task saved by a page fault (R226, R406): its launch, the placement plot and slot whose frame holds it, and its page. -/
structure Faulted where
  launch : BitVec 32
  p : Nat
  k : Nat
  uid : Nat
  obj : BitVec 24
  pg : BitVec 28
  /-- Its engine handles, of which an error reaches the frame (R227). -/
  handles : List (Nat × BitVec 64) := []
  resident : Bool := false
  /-- MODEL (log 58): the plot and slot that the sluice picks for it, which R226 leaves open. -/
  spot : Option (Nat × Nat) := none
  deriving DecidableEq, Repr

/-- The host command in progress (R348): CMD, launch, answering queue, and for MIGRATE the two plots. -/
structure HostCmd where
  cmd : Nat
  launch : BitVec 32
  cq : Nat
  start : BitVec 64
  src : Nat := 0
  dst : Nat := 0
  /-- The rills concerned are quiet and saved (R295). -/
  quiet : Bool := false
  /-- The extents that MIGRATE has marked, by the address of their first word (R352). -/
  marks : List Nat := []
  deriving DecidableEq, Repr

/-- A retirement-log entry (R412), with the CRC field that stands in the flash. -/
structure RetEnt where
  kind : BitVec 8
  seq : BitVec 32
  addr : BitVec 64
  wtime : BitVec 64
  crc : BitVec 32
  deriving DecidableEq, Repr

/-- What is known of a save frame beside its bytes (R66, R199, R221), found again by what the frame says of the plot, the slot and SY.WTIME of its
save: the INFO of a pending DEADLK, the streams of earlier acquiring loads, and the wait with the wait target that the frame has of it. -/
structure SaveNote where
  plot : Nat
  slot : Nat
  wtime : BitVec 64
  info : BitVec 64
  acq : BitVec 8
  wait : WaitFor
  tgt : BitVec 64
  deriving DecidableEq, Repr

/-- The attestation buffer of a port (R410). -/
structure Attest where
  nonce : BitVec 256 := 0
  fail : Bool := false
  ready : Bool := false
  busy : Bool := false
  report : List Byte := []
  deriving DecidableEq, Repr

/-- The module registers (R402) and the owner's state (R403 to R411). -/
structure Module where
  boot : BitVec 4 := 0
  fwslot : Bool := false
  ovalid : Bool := false
  oport : BitVec 3 := 0
  ononce : BitVec 64 := 0
  hport : BitVec 3 := 0
  hnonce : BitVec 64 := 0
  featdrv : BitVec 128 := 0
  featack : BitVec 128 := 0
  psref : BitVec 8 := 0
  psbusy : Bool := false
  /-- The power state that a change in progress leads to (R407). -/
  pswant : BitVec 3 := 0
  pscur : BitVec 3 := 0
  drops : BitVec 16 := 0
  logfull : Bool := false
  olost : Bool := false
  seca : Bool := false
  trip : Bool := false
  plock : Bool := false
  erase : Bool := false
  keysErased : Bool := false
  token : Option (BitVec 16) := none
  /-- The feature-token record that stands in the flash, verified or not (R374, R410). -/
  tokenRec : Option (BitVec 3584) := none
  /-- What the boot under way has found, while BOOT is 1 (R409). -/
  selfTest : Option SelfTest := none
  linkUp : BitVec 8 := 0xFF
  ownerDown : Option (BitVec 64) := none
  thi : BitVec 8 := 95
  tlo : BitVec 8 := 88
  temp : SMap (BitVec 8) := []
  hot : List Nat := []
  slices : SMap (BitVec 56) := []
  carg0 : BitVec 32 := 0
  carg1 : BitVec 16 := 0
  mapGen : BitVec 32 := 0
  /-- Words of the defect map and the name table that the steward's update under way has still to write, in order, as they still read (R372,
  R376). -/
  mapLag : List (Nat × BitVec 64) := []
  retired : List (Nat × Nat) := []
  rects : List (Nat × Nat × Nat × Nat) := []
  rebinds : List (BitVec 32 × Nat) := []
  retLog : List RetEnt := []
  retPage : List RetEnt := []
  retSeq : BitVec 32 := 0
  corrected : List Nat := []
  otroot : BitVec 56 := 0
  modId : BitVec 6 := 0
  ports : SMap (BitVec 48) := []
  link : BitVec 48 := 0
  groups : SMap (BitVec 64) := []
  /-- MODEL: how many XCOLs on a name this module's tasks have issued (R325). -/
  colCount : SMap Nat := []
  /-- Contributions and stops of collectives that have arrived over the aqueduct (R326, R327). -/
  inbox : List FlitBody := []
  tokenDie : Nat := 0
  /-- MODEL (log 42): what the hardware knows of each written save frame that the frame does not say, and the error code of each failed command
  by its handle (R221). -/
  saves : List SaveNote := []
  engCodes : SMap (BitVec 8) := []
  /-- MODEL: outputs to the host, kept so that they can be seen: MSI-X raised (port, vector) and the last host read (log 19). -/
  msix : List (Nat × Nat) := []
  /-- MODEL: the ports that have reported Unsupported Request, in order (R401, log 19). -/
  urs : List Nat := []
  hostRead : List Byte := []
  tele : BitVec 64 := 0
  deriving DecidableEq, Repr

/-! ## The model's own fields -/

/-- MODEL (log 1): what happens next, in the order listed. A slot of a mapped block executes, an event takes place, a die's clock
advances, or the outside or an arbitrary choice of the hardware acts. -/
inductive Directive where
  | slot (plot : Nat) (half : Bool) (k pick : Nat)
  | event (e : Instr)
  | clock (die n : Nat)
  | memError (addr : Nat) (hard : Bool)
  | nearDrop (plot granule : Nat)
  | codeFill (plot : Nat) (bpc : BitVec 40)
  | codeDrop (plot : Nat) (bpc : BitVec 40)
  | nodeFill (die : Nat) (obj : BitVec 24) (level : Nat)
  | nodeDrop (die : Nat) (obj : BitVec 24) (level : Nat)
  | otcFill (die : Nat) (obj : BitVec 24) (ext : Nat)
  | otcDrop (die : Nat) (obj : BitVec 24)
  | hop (plot entry k : Nat)
  | steward
  | skipBeat (plot : Nat)
  | flashError (i : Nat) (e : RetEnt)
  | refit (uid plot k : Nat)
  deriving DecidableEq, Repr

/-- MODEL (log 1): the slot whose execution is under way, and the free choice of its part. -/
structure Focus where
  plot : Nat := 0
  half : Bool := false
  slot : Nat := 0
  pick : Nat := 0
  granted : Bool := false
  deriving DecidableEq, Repr

/-- The whole module. -/
structure State where
  mem : List Host.Cell
  side : SMap Side
  takes : List TakeRec
  plots : SMap Plot
  dies : SMap Die
  cmds : List Cmd
  bufs : List Buf
  fields : List Field
  gens : SMap Nat
  queues : Vector LQueue 8
  launches : List Launch
  turn : Nat
  faulted : List Faulted
  hostCmd : Option HostCmd
  attest : Vector Attest 8
  mod : Module
  fired : List (List (Nat × Nat) × BitVec 64)
  agenda : List Directive
  focus : Focus
  free : Nat
  uid : Nat
  deriving DecidableEq, Repr

/-- What stops the machine. -/
inductive Fault where
  /-- Raised by step alone, when the agenda names a slot whose word decodes to no instruction. Safe: a mapped block has passed its
  checks (R60), so no run of blocks mapped by BLOCK_MAP meets it. -/
  | illegalWord
  deriving DecidableEq, Repr

/-- What the model has no meaning for. -/
inductive Refusal where
  /-- Raised by an arm of exec that has no meaning yet. Safe: the machine stops. -/
  | notModelled (mnemonic : String)
  deriving DecidableEq, Repr

/-- The module before its power-on (R409): BOOT 0, memory and sidebands as R154 leaves them, every register at its reset value. -/
def State.reset : State where
  mem := []
  side := []
  takes := []
  plots := []
  dies := []
  cmds := []
  bufs := []
  fields := []
  gens := []
  queues := Vector.replicate 8 {}
  launches := []
  turn := 0
  faulted := []
  hostCmd := none
  attest := Vector.replicate 8 {}
  mod := {}
  fired := []
  agenda := []
  focus := {}
  free := 0
  uid := 0

end Sys2Proof.Machine
end

