-- ==== Sys2Proof/Machine/Map.lean ====
section
/-! DEFINITION. Where things are: plot ids, regions, names, physical addresses, and the views the steward keeps (01_wafer, 08_memories, 17_tables). -/

namespace Sys2Proof.Machine

open Sys2Proof

/-- The plot column of a physical id (R14). -/
def pcol (p : Nat) : Nat := p / 128

/-- The plot row of a physical id (R14). -/
def prow (p : Nat) : Nat := p % 128

/-- The physical id of a column and row (R14). -/
def physOf (c r : Nat) : Nat := c * 128 + r

/-- An id that names a plot site (R14). -/
def plotExists (p : Nat) : Bool := p < 0x8000 && pcol p ≤ 191 && prow p ≤ 83

/-- The die of a plot (R7). -/
def dieOf (p : Nat) : Nat := 12 * (prow p / 12) + pcol p / 16

/-- The cluster index within the die (R8). -/
def clusterIn (p : Nat) : Nat := (pcol p % 16) / 8 + 2 * ((prow p % 12) / 6)

/-- The quad index within the die (R391). -/
def quadIn (p : Nat) : Nat := (prow p % 12) / 2 * 8 + (pcol p % 16) / 2

/-- Two plots of one quad, cluster or die (R8, R19). -/
def sameQuad (p q : Nat) : Bool := pcol p / 2 == pcol q / 2 && prow p / 2 == prow q / 2
/-- Two plots of one cluster (R8). -/
def sameCluster (p q : Nat) : Bool := dieOf p == dieOf q && clusterIn p == clusterIn q

/-- The steward plot (R9, R371). -/
def stewardPlot : Nat := 0x2824

/-- The steward's die (5,3). -/
def stewardDie : Nat := 41

/-- The plot record of a physical id. -/
def State.plot (s : State) (p : Nat) : Plot := s.plots.get p {}

/-- A state with one plot record replaced. -/
def State.setPlot (s : State) (p : Nat) (x : Plot) : State := { s with plots := s.plots.put p x }

/-- A plot's record changed by a function. -/
def State.onPlot (s : State) (p : Nat) (f : Plot → Plot) : State := s.setPlot p (f (s.plot p))

/-- The die record of a die number. -/
def State.die (s : State) (d : Nat) : Die := s.dies.get d {}

/-- A state with one die record replaced. -/
def State.setDie (s : State) (d : Nat) (x : Die) : State := { s with dies := s.dies.put d x }

/-- The module registers changed by a function. -/
def State.onMod (s : State) (f : Module → Module) : State := { s with mod := f s.mod }

/-- An enabled plot: good or capacity (R12). -/
def State.enabled (s : State) (p : Nat) : Bool :=
  plotExists p && ((s.plot p).stat == .good || (s.plot p).stat == .capacity)

/-- SY.CYC of the die that holds a plot (R22). -/
def State.cycOf (s : State) (p : Nat) : BitVec 64 := (s.die (dieOf p)).cyc

/-- SY.WTIME of the die that holds a plot (R23). -/
def State.wtimeOf (s : State) (p : Nat) : BitVec 64 := (s.die (dieOf p)).wtime

/-- The present instant, in the clock of every die. -/
def State.instant (s : State) : Stamp := s.dies.map (fun d => (d.1, d.2.cyc))

/-- The count of a die at an instant. -/
def Stamp.on (x : Stamp) (die : Nat) : BitVec 64 := SMap.get x die 0

/-! ## Logical names -/

/-- A logical name from its parts (R16). -/
def mkName (rect row col : Nat) : BitVec 32 := BitVec.ofNat 32 (rect * 2^22 + row * 2^15 + col * 2^7)

/-- RECT of a name (R16). -/
def nameRect (n : BitVec 32) : Nat := (n.extractLsb' 22 10).toNat
/-- ROW of a name (R16). -/
def nameRow (n : BitVec 32) : Nat := (n.extractLsb' 15 7).toNat
/-- COL of a name (R16). -/
def nameCol (n : BitVec 32) : Nat := (n.extractLsb' 7 8).toNat

/-- The name of no plot (R16). -/
def invalidName : BitVec 32 := 0xFFC00000

/-- A name that lies in its rectangle (R17): the plot its rectangle gives. Rectangles are (top prow, left pcol, height, width). -/
def State.rectPlot (s : State) (n : BitVec 32) : Option Nat :=
  if n.extractLsb' 0 7 ≠ 0 then none
  else match s.mod.rects[nameRect n]? with
  | none => none
  | some (t, l, h, w) => if nameRow n < h ∧ nameCol n < w then some (physOf (l + nameCol n) (t + nameRow n)) else none

/-- The plot a logical name resolves to (R376): its rebind, else its rectangle's. -/
def State.resolve (s : State) (n : BitVec 32) : Option Nat :=
  match s.rectPlot n with
  | none => none
  | some p => match s.mod.rebinds.find? (fun r => r.1 == n) with
    | some r => some r.2
    | none => some p

/-- The name the rectangles give a plot, whatever was rebound. -/
def rectName (rects : List (Nat × Nat × Nat × Nat)) (p : Nat) (i : Nat) : BitVec 32 :=
  match rects with
  | [] => invalidName
  | (t, l, h, w) :: rest =>
    if t ≤ prow p ∧ prow p < t + h ∧ l ≤ pcol p ∧ pcol p < l + w then mkName i (prow p - t) (pcol p - l)
    else rectName rest p (i + 1)

/-- SY.PLOT: the name a plot currently holds (R16, R376). -/
def State.nameOf (s : State) (p : Nat) : BitVec 32 :=
  match s.mod.rebinds.find? (fun r => r.2 == p) with
  | some r => r.1
  | none =>
    let n := rectName s.mod.rects p 0
    if (s.mod.rebinds.find? (fun r => r.1 == n)).isSome then invalidName else n

/-! ## Physical addresses -/

/-- SPACE of a physical address (R155). -/
def spaceOf (a : Nat) : Nat := a / 2^48 % 256
/-- PLOT of a physical address (R155). -/
def plotOfAddr (a : Nat) : Nat := a / 2^32 % 2^16
/-- OFFSET of a physical address (R155). -/
def offOfAddr (a : Nat) : Nat := a % 2^32
/-- A physical address (R155). -/
def mkAddr (space plot off : Nat) : Nat := space * 2^48 + plot * 2^32 + off

/-- Host memory behind a host port (R156). -/
def isHost (a : Nat) : Bool := 8 ≤ spaceOf a && spaceOf a ≤ 15

/-- Whether the host link behind a host address is up. -/
def State.hostUp (s : State) (a : Nat) : Bool := s.mod.linkUp.getLsbD (spaceOf a - 8)

/-- Whether an address is host memory behind a port whose link is down (R156). -/
def State.hostLost (s : State) (a : Nat) : Bool := isHost a && !s.hostUp a

/-- The die that holds an on-wafer home. -/
def dieOfAddr (a : Nat) : Nat := dieOf (plotOfAddr a)

/-- A byte of the steward's reserved range (R371). -/
def inSteward (a : Nat) : Bool := spaceOf a == 1 && plotOfAddr a == stewardPlot && offOfAddr a < 0x100000

/-- A bank row unmapped by a retirement (R12, R373). -/
def State.retiredAt (s : State) (a : Nat) : Bool :=
  spaceOf a == 1 && s.mod.retired.contains (plotOfAddr a, offOfAddr a / 8192)

/-- Whether a physical address names a byte of a basin, a bank or host memory (R12, R155, R156). -/
def State.homeOk (s : State) (a : Nat) : Bool :=
  a < 2^56 && (isHost a ||
    (s.enabled (plotOfAddr a) &&
      ((spaceOf a == 0 && offOfAddr a < 0x400000) ||
       (spaceOf a == 1 && offOfAddr a < 0x8000000 && !s.retiredAt a))))

/-- The home distance of R198. -/
def homeDist (k a : Nat) : Nat :=
  if isHost a then 6
  else
    let h := plotOfAddr a
    if h == k then 0 else if sameQuad h k then 1 else if sameCluster h k then 2 else if dieOf h == dieOf k then 3 else 4

/-- The number a scope counts as in the stamp checks (R200, R201): seq counts as wafer. -/
def scopeNum (c : Scope) : Nat :=
  match c with
  | .core => 0 | .quad => 1 | .cluster => 2 | .die => 3 | .wafer => 4 | .pod => 5 | .host => 6 | .seq => 4

/-- The number a stamp counts as (R201). -/
def stampNum (st : BitVec 3) : Nat := if st = 7 then 4 else st.toNat

/-! ## Memory bytes -/

/-- What a byte of memory reads as when it is listed nowhere: 0 (R154; host memory: DESIGN CHOICE, log 3). -/
def memUnlisted : Byte := 0

/-- One byte of the listed memory. -/
def memGet (m : List Host.Cell) (a : Nat) : Byte :=
  match m with
  | [] => memUnlisted
  | (b, v) :: t => if b = a then v else memGet t a

/-- One byte written, keeping the canonical form: addresses rising, nothing listed that reads as unlisted. -/
def memPut (m : List Host.Cell) (a : Nat) (v : Byte) : List Host.Cell :=
  match m with
  | [] => if v = memUnlisted then [] else [(a, v)]
  | (b, u) :: t =>
    if a < b then (if v = memUnlisted then (b, u) :: t else (a, v) :: (b, u) :: t)
    else if a = b then (if v = memUnlisted then t else (a, v) :: t)
    else (b, u) :: memPut t a v

/-- Keys above a bound, rising. -/
def risingFrom (m : List Host.Cell) (n : Nat) : Bool :=
  match m with
  | [] => true
  | (a, v) :: t => decide (n ≤ a) && v != memUnlisted && risingFrom t (a + 1)

/-- The canonical form of memory: addresses strictly rising, no entry equal to what an unlisted address reads as. -/
def Memory.wf (m : List Host.Cell) : Bool := risingFrom m 0

/-- The sideband of a granule (R165), by the granule's physical address. -/
def State.sideAt (s : State) (a : Nat) : Side := s.side.get (a / 32 * 32) {}

/-- A sideband written; the default is not listed. -/
def State.setSide (s : State) (a : Nat) (x : Side) : State :=
  if x = {} then { s with side := s.side.drop (a / 32 * 32) } else { s with side := s.side.put (a / 32 * 32) x }

/-! ## The defect map and the name table, as the steward lays them out (R371, R376) -/

/-- The status code of a plot (R371). -/
def PStat.code : PStat → Nat
  | .good => 0 | .hole => 1 | .spare => 2 | .capacity => 3

/-- All 16,128 physical ids, by column and then row. -/
def allPlots : List Nat := (List.range 192).flatMap (fun c => (List.range 84).map (fun r => physOf c r))

/-- How many plots have a status. -/
def State.countStat (s : State) (t : PStat) : Nat := allPlots.countP (fun p => (s.plot p).stat == t)

/-- A 64-byte header word of the defect map (R371). -/
def State.mapHeader (s : State) (i : Nat) : BitVec 64 :=
  match i with
  | 0 => BitVec.ofNat 64 (0x4E444D31 * 2^32 + s.mod.mapGen.toNat)
  | 1 => Config.serial
  | 2 => BitVec.ofNat 64 (s.countStat .capacity * 2^48 + s.countStat .hole * 2^32 + s.countStat .spare * 2^16 +
      (s.countStat .good + s.countStat .capacity))
  | 3 => BitVec.ofNat 64 (s.mod.retired.length * 2^16 + s.mod.rects.length)
  | _ => 0

/-- A 16-byte plot entry of the defect map (R371), word 0 or 1. -/
def State.mapEntry (s : State) (p : Nat) (i : Nat) : BitVec 64 :=
  let x := s.plot p
  if i = 0 then
    BitVec.ofNat 64 (x.partner.toNat * 2^40 + x.deadl.toNat * 2^36 + x.colBy.toNat * 2^20 + x.rowBy.toNat * 2^4 +
      (if x.rebound then 8 else 0) + x.stat.code)
  else
    BitVec.ofNat 64 ((s.mod.retired.filter (fun r => r.1 == p)).length * 2^32 + s.mod.retired.findIdx (fun r => r.1 == p) %
      (if s.mod.retired.any (fun r => r.1 == p) then 2^32 else 1))

/-- An aligned 8-byte word of the steward's reserved range as the module stands: defect map (R371) and name table (R376); the rest is zero. -/
def State.stewardNow (s : State) (off : Nat) : BitVec 64 :=
  if off < 0x40 then s.mapHeader (off / 8)
  else if off < 0x3F040 then
    let id := (off - 0x40) / 16
    s.mapEntry (physOf (id / 84) (id % 84)) ((off - 0x40) % 16 / 8)
  else if off < 0x80000 then
    (match s.mod.retired[(off - 0x3F040) / 8]? with
    | some (p, r) => BitVec.ofNat 64 (r * 2^16 + p)
    | none => 0)
  else if off < 0x82000 then
    (match s.mod.rects[(off - 0x80000) / 8]? with
    | some (t, l, h, w) => BitVec.ofNat 64 (2^31 + w * 2^23 + h * 2^16 + l * 2^8 + t)
    | none => 0)
  else if off < 0x84000 then
    (match s.mod.rebinds[(off - 0x82000) / 8]? with
    | some (n, p) => BitVec.ofNat 64 (2^48 + p * 2^32 + n.toNat)
    | none => 0)
  else 0

/-- Such a word as it reads: one that the update under way has still to write reads as before (R372). -/
def State.stewardWord (s : State) (off : Nat) : BitVec 64 :=
  match s.mod.mapLag.find? (fun x => x.1 == off) with
  | some x => x.2
  | none => s.stewardNow off

/-- The words that an update of the map for some plots may write: their entries, the header counts, and the name table's rebinds (R372, R376). -/
def State.mapWords (s : State) (ps : List Nat) : List Nat :=
  ps.flatMap (fun p => [0x40 + 16 * (pcol p * 84 + prow p), 0x48 + 16 * (pcol p * 84 + prow p)]) ++ [0x10] ++
    (List.range s.mod.rebinds.length).map (fun i => 0x82000 + 8 * i)

/-- The die whose cistern owns Plovvar port n (R10): two ports of each die of drow 0, then two of each die of drow 6. -/
def portDie (n : Nat) : Nat := if n < 24 then n / 2 else 72 + (n - 24) / 2

/-- One byte at a physical address: the steward's views where it keeps them, else memory. -/
def State.rdByte (s : State) (a : Nat) : Byte :=
  if inSteward a then (s.stewardWord (offOfAddr a / 8 * 8)).extractLsb' (8 * (a % 8)) 8 else memGet s.mem a

/-- n bytes from a physical address. -/
def State.rdBytes (s : State) (a : Nat) : Nat → List Byte
  | 0 => []
  | n + 1 => s.rdByte a :: State.rdBytes s (a + 1) n

/-- The little-endian number of a list of bytes (R1). -/
def leNat : List Byte → Nat
  | [] => 0
  | b :: t => b.toNat + 256 * leNat t

/-- n bytes as a little-endian number. -/
def State.rdNat (s : State) (a n : Nat) : Nat := leNat (s.rdBytes a n)

/-- The n little-endian bytes of a number (R1). -/
def leBytes (x : Nat) : Nat → List Byte
  | 0 => []
  | n + 1 => BitVec.ofNat 8 x :: leBytes (x / 256) n

/-- An aligned 8-byte word. -/
def State.rdW (s : State) (a : Nat) : BitVec 64 := BitVec.ofNat 64 (s.rdNat a 8)

/-- Bytes written from a physical address on. -/
def State.wrBytes (s : State) (a : Nat) : List Byte → State
  | [] => s
  | b :: t => State.wrBytes { s with mem := memPut s.mem a b } (a + 1) t

/-- The same place in the basin of the shadow spare that mirrors it (R167), if there is one. -/
def State.mirrorOf (s : State) (a : Nat) : Option Nat :=
  let x := s.plot (plotOfAddr a)
  if spaceOf a == 0 && x.partner != 0xFFFF && (x.stat == .good || x.stat == .capacity)
  then some (mkAddr 0 x.partner.toNat (offOfAddr a)) else none

/-- Bytes written at a home, and in its shadow mirror (R167). -/
def State.wrHome (s : State) (a : Nat) (bs : List Byte) : State :=
  match s.mirrorOf a with
  | some b => (s.wrBytes a bs).wrBytes b bs
  | none => s.wrBytes a bs

/-- The sideband of a home's granule written, and that of its mirror (R167). -/
def State.wrSide (s : State) (a : Nat) (x : Side) : State :=
  match s.mirrorOf a with
  | some b => (s.setSide a x).setSide b x
  | none => s.setSide a x

/-! ## Updates of the map and the name table (R372) -/

/-- Another event has changed words of a granule: those words of a TAKE under way are not set full again (R181). -/
def State.touch (s : State) (a : Nat) (w : BitVec 8) : State :=
  { s with takes := s.takes.map (fun x => if x.done && x.home / 32 == a / 32 then { x with words := x.words &&& ~~~w } else x) }

/-- The sideband of a word that the steward writes in its range: a plain write at host scope, TAG 0 and STAMP 6 (R166, R372). -/
def State.mapStamp (s : State) (off : Nat) : State :=
  let a := mkAddr 1 stewardPlot off
  (s.touch a (3 <<< (off % 32 / 4))).wrSide a { s.sideAt a with tag := false, stamp := 6 }

/-- An update of the map and the name table by the steward (R372): GEN becomes odd, and the words that `f` changes are still to be written. An
update that was still under way is finished first. -/
def State.mapChange (s : State) (ps : List Nat) (f : State → State) : State :=
  let s0 := s.mod.mapLag.foldl (fun s x => s.mapStamp x.1) s
  let s1 := f { s0 with mod := { s0.mod with mapLag := [], mapGen := if s.mod.mapGen.getLsbD 0 then s.mod.mapGen + 1 else s.mod.mapGen } }
  let words := (s1.mapWords ps ++ s.mapWords ps).eraseDups
  State.mapStamp { s1 with mod := { s1.mod with
      mapGen := s1.mod.mapGen + 1
      mapLag := (words.map (fun o => (o, s.stewardNow o))).filter (fun x => s1.stewardNow x.1 != x.2) } } 0

/-- The steward's next write of an update under way: a changed word, and, after the last, GEN, which becomes even (R372). -/
def State.stewardStep (s : State) : State :=
  match s.mod.mapLag with
  | x :: t => State.mapStamp { s with mod := { s.mod with mapLag := t } } x.1
  | [] => if s.mod.mapGen.getLsbD 0 then State.mapStamp { s with mod := { s.mod with mapGen := s.mod.mapGen + 1 } } 0 else s

end Sys2Proof.Machine
end

