-- ==== Sys2Proof/Machine/Ops.lean ====
section
/-! DEFINITION. The named operations over tasks, memory and registers, pointer checks and translation, records, and taking an exception
and returning from one (R117, R118, R218 to R226, R234). -/

namespace Sys2Proof.Machine

open Sys2Proof

/-- The outcome type of a step. -/
abbrev Out := Host.Outcome State Fault Refusal

/-! ## Tasks, halves, counters -/

/-- Task slot k of a plot. -/
def Plot.task (x : Plot) (k : Nat) : Task := if h : k < 16 then x.tasks[k] else {}

/-- A plot with task slot k replaced. -/
def Plot.setTask (x : Plot) (k : Nat) (t : Task) : Plot := { x with tasks := x.tasks.setIfInBounds k t }

/-- Task slot k of plot p. -/
def State.task (s : State) (p k : Nat) : Task := (s.plot p).task k

/-- A state with a task slot replaced. -/
def State.setTask (s : State) (p k : Nat) (t : Task) : State := s.onPlot p (fun x => x.setTask k t)

/-- A task slot changed by a function. -/
def State.onTask (s : State) (p k : Nat) (f : Task → Task) : State := s.setTask p k (f (s.task p k))

/-- A half of a plot's execution window (R59). -/
def Plot.half (x : Plot) (h : Bool) : Half := if h then x.h1 else x.h0

/-- A plot with a window half replaced. -/
def Plot.setHalf (x : Plot) (h : Bool) (y : Half) : Plot := if h then { x with h1 := y } else { x with h0 := y }

/-- A window half of a plot replaced. -/
def State.setHalf (s : State) (p : Nat) (h : Bool) (y : Half) : State := s.onPlot p (fun x => x.setHalf h y)

/-- The half a task occupies, if it has been selected. -/
def Plot.halfOf (x : Plot) (k : Nat) : Option Bool :=
  if x.h0.task = some k then some false else if x.h1.task = some k then some true else none

/-- Whether a cause already aborts the task's block in this cycle (R70). -/
def Plot.aborting (x : Plot) (k : Nat) : Bool :=
  match x.halfOf k with
  | some h => (x.half h).blk.any (fun b => b.abort.isSome)
  | none => false

/-- An event counted in the die cycle `now`: the counter advances, and the cycle remembers by how much (R397). -/
def Plot.count (x : Plot) (now : BitVec 64) (i n : Nat) : Plot :=
  let new := if x.perfCyc = now then x.perfNew else []
  { x with perf := x.perf.put i (x.perf.get i 0 + BitVec.ofNat 64 n), perfCyc := now, perfNew := new.put i (new.get i 0 + BitVec.ofNat 64 n) }

/-- The performance counter of an event advanced (R397); counters 48 to 63 stay 0. -/
def State.bump (s : State) (p i n : Nat) : State :=
  if i < 48 then s.onPlot p (fun x => x.count (s.cycOf p) i n) else s

/-- SY.SMISS set by an operation that performs in the die cycle `now` (R97, R200). -/
def Task.missed (now : BitVec 64) (t : Task) : Task := { t with smiss := true, smissAt := some now }

/-- Whether a performance counter counts with SY.CYC: cycles clocked, and cycles with both halves empty (R397). -/
def withCyc (i : Nat) : Bool := i == 0 || i == 31

/-- A performance counter as it reads, in a die at cycle cyc. -/
def Plot.counter (x : Plot) (cyc : BitVec 64) (i : Nat) : BitVec 64 := x.perf.get i 0 + (if withCyc i then cyc else 0)

/-- A performance counter written: the events of the same cycle are added to what is stored (R397). -/
def Plot.setCounter (x : Plot) (cyc : BitVec 64) (i : Nat) (v : BitVec 64) : Plot :=
  { x with perf := x.perf.put i (v + (if x.perfCyc = cyc then x.perfNew.get i 0 else 0) - (if withCyc i then cyc else 0)) }

/-- The slots of a plot's core, as indexes. -/
def slotIdx : List Nat := List.range 16

/-- The effective priority of a task (R344): its waiting counts while it is READY. -/
def Task.epri (t : Task) (now : BitVec 64) : Nat :=
  if t.st == .ready then min 7 (t.pri.toNat + (now - t.since).toNat / 4096) else t.pri.toNat

/-- The die cycle since which a READY task has had its effective priority (R344). -/
def Task.levelSince (t : Task) (now : BitVec 64) : BitVec 64 :=
  if t.levelE = t.epri now then t.levelAt else t.since + BitVec.ofNat 64 (4096 * (t.epri now - t.pri.toNat))

/-- SY.PRI changed: the wait at the effective priority goes on if that does not change, and else starts now (R344, R347). -/
def Task.setPri (t : Task) (now : BitVec 64) (x : BitVec 3) : Task :=
  let u := { t with pri := x }
  { u with levelE := u.epri now, levelAt := if u.epri now = t.epri now then t.levelSince now else now }

/-- A task whose wait to be selected begins in a die cycle, with its turn (R344). -/
def Task.queued (t : Task) (now : BitVec 64) (turn : Nat) : Task := { t with since := now, turn := turn, levelE := 8 }

/-- A task made READY: its waiting counts from now (R344). -/
def State.makeReady (s : State) (p k : Nat) : State :=
  s.onTask p k (fun t => { t.queued (s.cycOf p) s.uid with st := .ready, wait := .none })

/-- A task made READY takes the tail of the round robin (R344). -/
def State.ready (s : State) (p k : Nat) : State :=
  { (s.makeReady p k) with uid := s.uid + 1 }

/-- Every task of a plot whose wait satisfies a test becomes READY (R66, R343); a SAVED one will be restored READY (R224). -/
def State.wakePlot (s : State) (p : Nat) (f : WaitFor → Bool) : State :=
  slotIdx.foldl (fun s k =>
    let t := s.task p k
    if !f t.wait then s
    else if t.st == .wait then s.ready p k
    else if t.st == .saved then s.setTask p k { t with woken := true }
    else s) s

/-- Every task of the wafer whose wait satisfies a test becomes READY, and every task in a save area will be restored READY. -/
def State.wakeAll (s : State) (f : WaitFor → Bool) : State :=
  let s1 := (s.plots.map (·.1)).foldl (fun s p => s.wakePlot p f) s
  { s1 with launches := s1.launches.map (fun l =>
      { l with frames := l.frames.map (fun x => if f x.wait then { x with woken := true } else x) }) }

/-- The tasks parked on a granule wake when presence is set in it (R66). -/
def State.wakeGranule (s : State) (a : Nat) : State :=
  s.wakeAll (fun w => match w with
    | .presence gs _ => gs.contains (a / 32 * 32)
    | _ => false)

/-- The launch of an id. -/
def State.launch? (s : State) (id : BitVec 32) : Option Launch := s.launches.find? (fun l => l.id == id)

/-- The first launch of an id changed by a function: a saved launch stands behind a live one of its id (log 25). -/
def onFirst (id : BitVec 32) (f : Launch → Launch) : List Launch → List Launch
  | [] => []
  | l :: t => if l.id == id then f l :: t else l :: onFirst id f t

/-- A launch changed by a function. -/
def State.onLaunch (s : State) (id : BitVec 32) (f : Launch → Launch) : State :=
  { s with launches := onFirst id f s.launches }

/-- An 8-byte word of a launch record, by byte offset (R335). -/
def Launch.word (l : Launch) (off : Nat) : BitVec 64 := l.words.getD (off / 8) 0

/-- A capability of a launch record (R335). -/
def Launch.cap (l : Launch) (off : Nat) : BitVec 128 := l.word (off + 8) ++ l.word off

/-- PROWS and PCOLS (R335). -/
def Launch.prows (l : Launch) : Nat := ((l.word 8).extractLsb' 0 8).toNat
/-- PCOLS (R335). -/
def Launch.pcols (l : Launch) : Nat := ((l.word 8).extractLsb' 8 8).toNat

/-- The private area's size P: PRIVSZ rounded up to 4 KiB (R337). -/
def Launch.privSize (l : Launch) : Nat := (((l.word 0x10).extractLsb' 0 40).toNat + 4095) / 4096 * 4096

/-- The logical name of placement plot p (R339). -/
def Launch.plotName (l : Launch) (i : Nat) : BitVec 32 := mkName l.rect (l.row + i / l.pcols) (l.col + i % l.pcols)

/-- The placed plots of a launch, as physical ids with their placement index. -/
def State.placed (s : State) (l : Launch) : List (Nat × Nat) :=
  (List.range (l.prows * l.pcols)).filterMap (fun i => (s.resolve (l.plotName i)).map (fun p => (p, i)))

/-- A capability of the launch record as a pointer with cursor 0 (R335). -/
def capPtr (c : BitVec 128) : Ptr := ⟨c, 0, c != 0⟩

/-- The launch's code object as a pointer. -/
def State.codePtr (s : State) (id : BitVec 32) : Ptr :=
  match s.launch? id with
  | some l => capPtr (l.cap 0x20)
  | none => {}

/-! ## Pointers -/

/-- OBJ of a capability (R169). -/
def Ptr.obj (p : Ptr) : BitVec 24 := p.cap.extractLsb' 104 24
/-- The rights, R in bit 0 up to D in bit 7 (R169). -/
def Ptr.rights (p : Ptr) : BitVec 8 := p.cap.extractLsb' 96 8
/-- BASE (R169). -/
def Ptr.base (p : Ptr) : Nat := (p.cap.extractLsb' 56 40).toNat
/-- LEN field (R169). -/
def Ptr.len (p : Ptr) : Nat := (p.cap.extractLsb' 16 40).toNat
/-- Bits [15:0] of the capability (R169). -/
def Ptr.low (p : Ptr) : BitVec 16 := p.cap.extractLsb' 0 16
/-- A physical capability (R172). -/
def Ptr.isPhys (p : Ptr) : Bool := p.obj == 0xFFFFFF
/-- The physical base of a physical capability (R172). -/
def Ptr.physBase (p : Ptr) : Nat := (p.cap.extractLsb' 40 56).toNat
/-- The view length in bytes: LEN, or 4,096 times bits [39:16] of a physical capability (R172). -/
def Ptr.viewLen (p : Ptr) : Nat := if p.isPhys then 4096 * (p.cap.extractLsb' 16 24).toNat else p.len
/-- The start of the view: an object offset, or a physical address. -/
def Ptr.start (p : Ptr) : Nat := if p.isPhys then p.physBase else p.base

/-- A pointer that may be used (R169): valid, [15:0] zero, and BASE + LEN at most 2^40. -/
def Ptr.usable (p : Ptr) : Bool := p.valid && p.low == 0 && (p.isPhys || decide (p.base + p.len ≤ 2^40))

/-- A capability from its parts (R169). -/
def mkCap (obj : BitVec 24) (rights : BitVec 8) (base len : Nat) : BitVec 128 :=
  obj ++ rights ++ BitVec.ofNat 40 base ++ BitVec.ofNat 40 len ++ (0 : BitVec 16)

/-- Right R. -/
def rR : BitVec 8 := 0x01
/-- Right W. -/
def rW : BitVec 8 := 0x02
/-- Right X. -/
def rX : BitVec 8 := 0x04
/-- Right F. -/
def rF : BitVec 8 := 0x08
/-- Right T. -/
def rT : BitVec 8 := 0x10
/-- Right A. -/
def rA : BitVec 8 := 0x20
/-- Right C. -/
def rC : BitVec 8 := 0x40
/-- Right D. -/
def rD : BitVec 8 := 0x80

/-- The granule layout of a pointer (R169): capability, cursor, zeros. -/
def Ptr.bytes (p : Ptr) : List Byte := leBytes p.cap.toNat 16 ++ leBytes p.cur.toNat 5 ++ List.replicate 11 0

/-- A pointer read from a granule's bytes and TAG (R188). -/
def ptrOfBytes (bs : List Byte) (tag : Bool) : Ptr :=
  let p : Ptr := ⟨BitVec.ofNat 128 (leNat (bs.take 16)), BitVec.ofNat 40 (leNat ((bs.drop 16).take 5)), true⟩
  { p with valid := tag && p.low == 0 && (p.isPhys || decide (p.base + p.len ≤ 2^40)) }

/-- Checks 1 to 5 of R175: validity, physical capability, rights, bounds, alignment. The answer is the object offset, or the
physical address of a physical capability. -/
def ptrCheck (priv : Bool) (p : Ptr) (off : BitVec 64) (n align : Nat) (need : BitVec 8) : Except CauseRec Nat :=
  if !p.usable then .error { cause := .capt }
  else if p.isPhys && !priv then .error { cause := .priv }
  else if need &&& ~~~p.rights != 0 then .error { cause := .capr }
  else
    let e : Int := (p.cur.toNat : Int) + off.toInt
    if e < 0 ∨ e + (n : Int) > (p.viewLen : Int) then .error { cause := .capb }
    else
      let o := p.start + e.toNat
      if align ≠ 0 ∧ o % align ≠ 0 then
        .error { cause := .align, obj := if p.isPhys then 0 else p.obj, off := if p.isPhys then 0 else BitVec.ofNat 40 o,
                 phys := if p.isPhys then BitVec.ofNat 64 o else 0 }
      else .ok o

/-! ## The object table (R357 to R361) -/

/-- What the walk to a descriptor finds: its two words and address, nothing, a node that is not resident, or one being moved. -/
inductive Look where
  | found (d0 d1 : BitVec 64) (desc : Nat)
  | absent
  | page (obj : BitVec 24) (off : BitVec 40)
  | wait
  deriving DecidableEq, Repr

/-- The key of a cached table node entry (R363): its level, 1 to 3, and the object's bytes down to it. -/
def nodeKey (obj level : Nat) : Nat := level * 2 ^ 24 + obj / 256 ^ (3 - level)

/-- The walk from a node (R361), with the levels still to go; an entry that a cistern has cached is taken as it was (R362, R363). -/
def State.walk (s : State) (nodes : SMap (BitVec 64)) (obj : Nat) (node : Nat) : Nat → Look
  | 0 => .found (s.rdW node) (s.rdW (node + 8)) node
  | lv + 1 =>
    let n := nodes.get (nodeKey obj (3 - lv)) (s.rdW (node + 8 * (obj / 256 ^ lv % 256)))
    if !n.getLsbD 63 then .absent
    else if n.getLsbD 61 then .wait
    else if !n.getLsbD 62 then .page (n.extractLsb' 0 24) (n.extractLsb' 24 24 ++ (0 : BitVec 16))
    else State.walk s nodes obj (n.extractLsb' 0 56).toNat lv

/-- The walk with the nodes that a cistern has cached; OBJ 0 names no object (R169). The address of a page node's object offset is FOFF in units of 4 KiB (R358). -/
def State.lookupWith (s : State) (nodes : SMap (BitVec 64)) (obj : BitVec 24) : Look :=
  if obj == 0 then .absent
  else match s.walk nodes obj.toNat s.mod.otroot.toNat 3 with
  | .page o f => .page o (BitVec.ofNat 40 ((f.toNat / 2^16) * 4096))
  | r => r

/-- The walk through the table as it stands. -/
def State.lookup (s : State) (obj : BitVec 24) : Look := s.lookupWith [] obj

/-- The node entry of a level that the walk to an object passes, once those above it lead there; `lv` levels are still to go. -/
def State.nodeWord (s : State) (nodes : SMap (BitVec 64)) (obj node level : Nat) : Nat → Option (BitVec 64)
  | 0 => none
  | lv + 1 =>
    let n := nodes.get (nodeKey obj (3 - lv)) (s.rdW (node + 8 * (obj / 256 ^ lv % 256)))
    if level = 3 - lv then some n
    else if n.getLsbD 63 && !n.getLsbD 61 && n.getLsbD 62 then State.nodeWord s nodes obj (n.extractLsb' 0 56).toNat level lv
    else none

/-- The address of extent i of a descriptor (R359). -/
def State.extAddr (s : State) (desc : Nat) (d1 : BitVec 64) (i : Nat) : Nat :=
  if (d1.extractLsb' 16 16).toNat ≤ 3 then desc + 0x10 + 16 * i
  else ((s.rdW (desc + 0x10)).extractLsb' 0 56).toNat + 16 * i

/-- Length in bytes of an extent (R360). -/
def extLen (x0 : BitVec 64) : Nat := 4096 * ((x0.extractLsb' 40 18).toNat + 1)
/-- First byte of an extent (R360). -/
def extOff (x0 : BitVec 64) : Nat := (x0.extractLsb' 0 40).toNat

/-- An extent in use that covers an object offset. -/
def extCovers (x0 : BitVec 64) (o : Nat) : Bool := x0.getLsbD 63 && extOff x0 ≤ o && decide (o < extOff x0 + extLen x0)

/-- The lowest-numbered valid extent that covers an offset (R361), from extent i on. -/
def State.findExt (s : State) (desc : Nat) (d1 : BitVec 64) (o i : Nat) : Nat → Option (Nat × BitVec 64 × BitVec 64)
  | 0 => none
  | fuel + 1 =>
    let a := s.extAddr desc d1 i
    if extCovers (s.rdW a) o then some (i, s.rdW a, s.rdW (a + 8)) else State.findExt s desc d1 o (i + 1) fuel

/-- An address that names nothing (R155). -/
def noAddr : Nat := 2 ^ 64

/-- The home of a byte of an extent (R360): BASE plus the distance, or its 64 KiB unit's plot when striped. A home beyond its space, or on a
plot that no id names, is nowhere (R14, R155, R361). -/
def extHome (x0 x1 : BitVec 64) (rel : Nat) : Nat :=
  let str := (x0.extractLsb' 58 3).toNat
  let b := x1.toNat
  if 2 ^ 56 ≤ b then noAddr
  else if str = 0 then
    (if isHost b then (if b / 2 ^ 48 = (b + rel) / 2 ^ 48 then b + rel else noAddr)
      else if b / 2 ^ 32 = (b + rel) / 2 ^ 32 then b + rel else noAddr)
  else
    let k := rel / 65536
    let q := physOf (pcol (plotOfAddr b) + k % 2^str) (prow (plotOfAddr b))
    let off := offOfAddr b + k / 2^str * 65536 + rel % 65536
    if q < 2 ^ 16 ∧ off < 2 ^ 32 then mkAddr (spaceOf b) q off else noAddr

/-- The translation of an object offset (R361). -/
inductive Tr where
  | home (a : Nat)
  | absent
  | page (obj : BitVec 24) (off : BitVec 40) (nested : Bool)
  | wait
  deriving DecidableEq, Repr

/-- Whether a cached extent translates an offset: it covers it, and no lower-numbered extent did when it was loaded (R361). -/
def OtcEnt.serves (e : OtcEnt) (o : Nat) : Bool := extCovers e.x0 o && !e.under.any (fun r => decide (r.1 ≤ o) && decide (o < r.1 + r.2))

/-- The extent an offset is translated through: by an OTC entry of the die if it holds one (R362), else by the table, through the nodes it has
cached. -/
def State.extFor (s : State) (die : Nat) (obj : BitVec 24) (o : Nat) : Except Tr (BitVec 64 × BitVec 64 × Option (BitVec 64 × BitVec 64)) :=
  match (s.die die).otc.find? (fun e => e.obj == obj && e.serves o) with
  | some e => .ok (e.d0, e.d1, some (e.x0, e.x1))
  | none => match s.lookupWith (s.die die).nodes obj with
    | .absent => .error .absent
    | .wait => .error .wait
    | .page ob f => .error (.page ob f true)
    | .found d0 d1 desc =>
      .ok (d0, d1, (s.findExt desc d1 o 0 (d1.extractLsb' 16 16).toNat).map (fun x => (x.2.1, x.2.2)))

/-- R361 from descriptor to home; `sized` says whether o is held to the object's size, as that of an access is but that of its later parts is
not (R175, checks 6 and 9). -/
def State.translateBy (s : State) (sized : Bool) (die : Nat) (obj : BitVec 24) (o : Nat) : Tr :=
  match s.extFor die obj o with
  | .error t => t
  | .ok (d0, d1, x) =>
    if !d1.getLsbD 0 || d1.extractLsb' 2 2 == 3 || (sized && decide ((d0.extractLsb' 0 41).toNat ≤ o)) then .absent
    else match x with
    | none => .absent
    | some (x0, x1) =>
      if isHost x1.toNat != d1.getLsbD 4 || (spaceOf x1.toNat > 1 && !isHost x1.toNat) then .absent
      else
        let a := extHome x0 x1 (o - extOff x0)
        if !s.homeOk a || inSteward a then .absent
        else if !x0.getLsbD 62 then .page obj (BitVec.ofNat 40 o) false
        else if x0.getLsbD 61 then .wait
        else .home a

/-- R361 from descriptor to home. -/
def State.translate (s : State) (die : Nat) (obj : BitVec 24) (o : Nat) : Tr := s.translateBy true die obj o

/-- The home of a position of a pointer's view: an object offset, or a physical address (R172). -/
def State.homeAt (s : State) (die : Nat) (p : Ptr) (q : Nat) : Tr :=
  if p.isPhys then (if s.homeOk q then .home q else .absent) else s.translate die p.obj q

/-- The pieces of n bytes from position q, cut at granules: position, index in the access, length. Homes change only at
multiples of 4 KiB, so each piece has one home (R171, R178, R360). -/
def pieces (q n idx : Nat) : Nat → List (Nat × Nat × Nat)
  | 0 => []
  | fuel + 1 =>
    if n = 0 then []
    else
      let l := min n (32 - q % 32)
      (q, idx, l) :: pieces (q + l) (n - l) (idx + l) fuel

/-- The pieces of an access. -/
def piecesOf (q n : Nat) : List (Nat × Nat × Nat) := pieces q n 0 (n / 32 + 2)

/-- The outcome of checks 6 to 9 of R175: the pieces with their homes, a cause, or a wait. -/
inductive Homes where
  | ok (ps : List (Nat × Nat × Nat))
  | bad (c : CauseRec)
  | wait
  deriving DecidableEq, Repr

/-- FPHYS of an absent position: the physical address, or the home its extent gives it, 0 where nothing translates it (R220). -/
def State.physAt (s : State) (die : Nat) (p : Ptr) (q : Nat) : BitVec 64 :=
  if p.isPhys then BitVec.ofNat 64 q
  else match s.extFor die p.obj q with
    | .ok (_, _, some (x0, x1)) => BitVec.ofNat 64 (extHome x0 x1 (q - extOff x0))
    | _ => 0

/-- Check 9 of R175, part by part, lowest first: home, index, length of each piece. `sized` holds each part to the object's size: parts of one
access are not, once its first byte lies below it (R171, R175). -/
def State.partHomesBy (s : State) (sized : Bool) (die : Nat) (p : Ptr) : List (Nat × Nat × Nat) → Homes
  | [] => .ok []
  | (q, i, l) :: t =>
    match (if p.isPhys || sized then s.homeAt die p q else s.translateBy false die p.obj q) with
    | .absent => .bad { cause := .absent, obj := if p.isPhys then 0 else p.obj, off := if p.isPhys then 0 else BitVec.ofNat 40 q,
                        phys := s.physAt die p q }
    | .page ob f nested => .bad { cause := .page, obj := ob, off := f, nested := nested }
    | .wait => .wait
    | .home a => match State.partHomesBy s sized die p t with
      | .ok ps => .ok ((a, i, l) :: ps)
      | r => r

/-- The homes of pieces that are accesses of their own. -/
def State.partHomes (s : State) (die : Nat) (p : Ptr) (ps : List (Nat × Nat × Nat)) : Homes := s.partHomesBy true die p ps

/-- Whether a pointer's position is host memory: its descriptor is host-backed, or its physical address lies in a host space. -/
def State.hostBacked (s : State) (die : Nat) (p : Ptr) (q : Nat) : Bool :=
  if p.isPhys then isHost q
  else match s.extFor die p.obj q with
    | .ok (_, d1, _) => d1.getLsbD 4
    | .error _ => false

/-- Check 6 of R175: the descriptor exists and the offset lies below the object's size; a node fault comes first. -/
def State.descCheck (s : State) (die : Nat) (p : Ptr) (q : Nat) : Homes :=
  if p.isPhys then .ok []
  else match s.extFor die p.obj q with
    | .error (.page ob f n) => .bad { cause := .page, obj := ob, off := f, nested := n }
    | .error .wait => .wait
    | .error _ => .bad { cause := .absent, obj := p.obj, off := BitVec.ofNat 40 q }
    | .ok (d0, d1, _) =>
      if !d1.getLsbD 0 || d1.extractLsb' 2 2 == 3 || decide ((d0.extractLsb' 0 41).toNat ≤ q)
      then .bad { cause := .absent, obj := p.obj, off := BitVec.ofNat 40 q } else .ok []

/-- Checks 6 to 9 of R175 for n bytes at a position. A task's access reaches basins, banks and host memory only; a physical
capability over a remote space fails with CAPB (R157) and over a window with ABSENT, as does a range that leaves its space (R172) and a write
through one in the steward's range (R371). -/
def State.accHomes (s : State) (die : Nat) (p : Ptr) (q n : Nat) (wr side seq : Bool) : Homes :=
  if p.isPhys && 0x10 ≤ spaceOf q && spaceOf q ≤ 0x12 then .bad { cause := .capb }
  else match s.descCheck die p q with
  | .bad c => .bad c
  | .wait => .wait
  | .ok _ =>
    let h := s.hostBacked die p q
    let named : CauseRec := { cause := .absent, obj := if p.isPhys then 0 else p.obj, off := if p.isPhys then 0 else BitVec.ofNat 40 q,
                              phys := if p.isPhys then BitVec.ofNat 64 q else 0 }
    if seq && h then .bad { named with cause := .scspan }
    else if side && h then .bad named
    else if p.isPhys && n ≠ 0 && decide (q / 2 ^ 48 ≠ (q + n - 1) / 2 ^ 48) then .bad named
    else match s.partHomesBy false die p (piecesOf q n) with
      | .ok ps => (match if wr && p.isPhys then ps.find? (fun x => inSteward x.1) else none with
        | some x => .bad { cause := .absent, phys := BitVec.ofNat 64 x.1 }
        | none => .ok ps)
      | r => r

/-- All the checks of R175 for a task's access. -/
def State.access (s : State) (die : Nat) (priv : Bool) (p : Ptr) (off : BitVec 64) (n align : Nat) (need : BitVec 8)
    (side seq : Bool) : Homes :=
  match ptrCheck priv p off n align need with
  | .error c => .bad c
  | .ok q => s.accHomes die p q n (need &&& (rW ||| rT) != 0) side seq

/-! ## Home events -/

/-- The words of a granule that l bytes at an address touch (R166). -/
def wordsOf (a l : Nat) : BitVec 8 :=
  let lo := a % 32 / 4
  let hi := (a % 32 + (l - 1)) / 4
  BitVec.ofNat 8 (2 ^ (hi + 1) - 2 ^ lo)

/-- Whether every touched word is full (R180). -/
def State.allFull (s : State) (a l : Nat) : Bool := (s.sideAt a).pres &&& wordsOf a l == wordsOf a l

/-- Whether some touched word is full (R176). -/
def State.anyFull (s : State) (a l : Nat) : Bool := (s.sideAt a).pres &&& wordsOf a l != 0

/-- PRES after a write in a mode (R166). -/
def presAfter (mode : StMode) (pres w : BitVec 8) : BitVec 8 :=
  match mode with
  | .plain => pres
  | .fill => pres ||| w
  | .setf => pres ||| w
  | .clre => pres &&& ~~~w

/-- A home write of a part within one granule (R166, R168, R179): data, PRES by mode, TAG 0, STAMP; a whole granule clears poison;
presence set wakes the parked (R66). Host memory has no sideband. -/
def State.homeWrite (s : State) (a : Nat) (bs : List Byte) (mode : StMode) (stamp : BitVec 3) : State :=
  let s1 := (s.wrHome a bs).touch a (wordsOf a bs.length)
  if isHost a then s1
  else
    let x := s.sideAt a
    let s2 := s1.wrSide a { pres := presAfter mode x.pres (wordsOf a bs.length), tag := false, stamp := stamp,
                            poison := x.poison && bs.length != 32 }
    if mode == .fill || mode == .setf then s2.wakeGranule a else s2

/-- The writing core's own near-cache bytes follow its write (R158). -/
def nearUpdate (near : SMap (BitVec 256)) (a : Nat) (bs : List Byte) : SMap (BitVec 256) :=
  match near.find? (fun e => e.1 == a / 32 * 32) with
  | none => near
  | some (g, v) =>
    let m := (2 ^ (8 * bs.length) - 1) * 2 ^ (8 * (a % 32))
    near.put g ((v &&& ~~~(BitVec.ofNat 256 m)) ||| BitVec.ofNat 256 (leNat bs * 2 ^ (8 * (a % 32))))

/-- A home write by a task of a core: the home, and the core's near cache (R158). -/
def State.coreWrite (s : State) (p a : Nat) (bs : List Byte) (mode : StMode) (stamp : BitVec 3) : State :=
  (s.homeWrite a bs mode stamp).onPlot p (fun x => { x with near := nearUpdate x.near a bs })

/-- The writer-side scope mismatch of a write (R200). -/
def writerMismatch (p a : Nat) (sc : Scope) : Bool := decide (scopeNum sc < homeDist p a)

/-- The reader-side scope mismatch of a read of a granule at its home (R201). -/
def State.readerMismatch (s : State) (p a : Nat) (sc : Scope) : Bool :=
  decide (scopeNum sc < homeDist p a) || decide ((if isHost a then 6 else stampNum (s.sideAt a).stamp) < homeDist p a)

/-- The acquire effect (R199): the core drops every near-cache line whose home lies within the scope and outside its own plot. -/
def State.discard (s : State) (p : Nat) (sc : Scope) : State :=
  (s.onPlot p (fun x => { x with near := x.near.filter (fun e => decide (scopeNum sc < homeDist p e.1)) })).bump p 10 1

/-- A pointer written into its granule as CST writes it (R188): TAG by validity (R169), 0 for a physical capability (R172). -/
def State.homeCst (s : State) (a : Nat) (p : Ptr) (stamp : BitVec 3) : State :=
  let s1 := s.homeWrite a p.bytes .plain stamp
  s1.wrSide a { s1.sideAt a with tag := p.usable && !p.isPhys }

/-! ## Records (R234, R334) -/

/-- A record handed to a completion queue: it waits there until it is posted (R334). -/
def State.post (s : State) (q : Nat) (r : List (BitVec 64)) : State :=
  if h : q < 8 then
    { s with queues := s.queues.set q { s.queues[q] with waiting := s.queues[q].waiting ++ [r] } }
  else s

/-- The words of an error record (R234). -/
def errWords (kind : BitVec 8) (p k : Nat) (launch : BitVec 32) (bpc : BitVec 40) (c : CauseRec) (ended : Bool) (wt detail : BitVec 64) :
    List (BitVec 64) :=
  [BitVec.ofNat 64 ((if ended then 2^42 else 0) + (if c.defer then 2^41 else 0) + (if c.nested then 2^40 else 0) +
      p % 2^16 * 2^24 + k % 16 * 2^16 + c.cause.code.toNat * 2^8 + kind.toNat),
   launch.zeroExtend 64, bpc.zeroExtend 64, BitVec.ofNat 64 (c.slot % 256 + c.lane % 16 * 2^8),
   (c.off ++ c.obj), c.phys, wt, detail]

/-- An error record posted for a launch, counted in its ERRS (R234, R342), with the wafer time of its cause. -/
def State.postErrAt (s : State) (wt : BitVec 64) (kind : BitVec 8) (p k : Nat) (launch : BitVec 32) (bpc : BitVec 40) (c : CauseRec)
    (ended : Bool) (detail : BitVec 64) : State :=
  match s.launch? launch with
  | none => s
  | some l => (s.onLaunch launch (fun l => { l with errs := l.errs + 1 })).post l.q (errWords kind p k launch bpc c ended wt detail)

/-- An error record of a cause that arises now. -/
def State.postErr (s : State) (kind : BitVec 8) (p k : Nat) (launch : BitVec 32) (bpc : BitVec 40) (c : CauseRec) (ended : Bool)
    (detail : BitVec 64) : State := s.postErrAt (s.wtimeOf p) kind p k launch bpc c ended detail

/-- An access of a task over a host link that is down: it completes with an ENGINE error record (R156, R234; log 64). -/
def State.lostAccess (s : State) (p k : Nat) (bpc : BitVec 40) (slot a : Nat) : State :=
  let t := s.task p k
  s.postErr 0x04 p k t.launch bpc { cause := .engine, slot := slot, phys := BitVec.ofNat 64 a } (t.leaving == .ended) 0

/-- The record of what a task's operation reads behind such a link, which names the first part there, and the free values that reading used. -/
def State.lostParts (s : State) (p k : Nat) (bpc : BitVec 40) (slot : Nat) (ps : List (Nat × Nat × Nat)) : State :=
  match ps.find? (fun x => s.hostLost x.1) with
  | some x => { s.lostAccess p k bpc slot x.1 with free := s.free + 2 ^ 64 }
  | none => s

/-- An access that the hardware itself makes for a launch over such a link: the record names the plot, and no slot of a block (log 64). -/
def State.lostFor (s : State) (p k : Nat) (launch : BitVec 32) (a : Nat) : State :=
  s.postErr 0x04 p k launch 0 { cause := .engine, phys := BitVec.ofNat 64 a } false 0

/-! ## Accesses of the hardware itself: frames, headers, reports, images -/

/-- One granule part of such a write by plot p: at its home, and in the near cache of p's core when the core makes it (R158, R224). -/
def State.putPart (s : State) (p k : Nat) (launch : BitVec 32) (core : Bool) (a : Nat) (bs : List Byte) (stamp : BitVec 3) : State :=
  if s.hostLost a then s.lostFor p k launch a
  else if core then s.coreWrite p a bs .plain stamp else s.homeWrite a bs .plain stamp

/-- Plain stores of a list of parts. -/
def State.putParts (s : State) (p k : Nat) (launch : BitVec 32) (core : Bool) (bs : List Byte) (stamp : BitVec 3)
    (ps : List (Nat × Nat × Nat)) : State :=
  ps.foldl (fun s x => s.putPart p k launch core x.1 ((bs.drop x.2.1).take x.2.2) stamp) s

/-- Bytes written through a pointer by the sluice, the steward or a die's unit with plain stores: none when a part has no home. -/
def State.putObj (s : State) (die : Nat) (launch : BitVec 32) (p : Ptr) (q : Nat) (bs : List Byte) (stamp : BitVec 3) : Option State :=
  match s.partHomes die p (piecesOf q bs.length) with
  | .ok ps => some (s.putParts stewardPlot 0 launch false bs stamp ps)
  | _ => none

/-- What a read by the hardware finds: bytes, a poisoned granule (R168), a migrating extent, or no home. -/
inductive Got where
  | ok (bs : List Byte)
  | poison (a : Nat)
  | wait
  | bad (c : CauseRec)
  deriving DecidableEq, Repr

/-- The bytes of a home; free ones behind a host link that is down (R156; log 64). -/
def State.rdLost (s : State) (a l : Nat) : List Byte :=
  if s.hostLost a then (List.range l).map (fun i => (Config.freeValue (s.free + a + i)).extractLsb' 0 8) else s.rdBytes a l

/-- Bytes read through a pointer by the hardware itself. -/
def State.getAt (s : State) (die : Nat) (p : Ptr) (q n : Nat) : Got :=
  match s.partHomes die p (piecesOf q n) with
  | .ok ps =>
    (match ps.find? (fun x => !isHost x.1 && (s.sideAt x.1).poison) with
    | some x => .poison x.1
    | none => .ok (ps.flatMap (fun x => s.rdLost x.1 x.2.2)))
  | .wait => .wait
  | .bad c => .bad c

/-- The bytes, where they can be read. -/
def State.getObj (s : State) (die : Nat) (p : Ptr) (q n : Nat) : Option (List Byte) :=
  match s.getAt die p q n with
  | .ok bs => some bs
  | _ => none

/-- The record of such a read over a host link that is down, which names its first part there, and the free values it used (R156; log 64). -/
def State.noteLost (s : State) (die : Nat) (launch : BitVec 32) (p : Ptr) (q n : Nat) : State :=
  match s.partHomes die p (piecesOf q n) with
  | .ok ps =>
    (match ps.find? (fun x => s.hostLost x.1) with
    | some x => { s.lostFor stewardPlot 0 launch x.1 with free := s.free + 2 ^ 64 }
    | none => s)
  | _ => s

/-- The TAG of the granule at a position of a pointer's view; host memory has none (R165). -/
def State.tagAt (s : State) (die : Nat) (p : Ptr) (q : Nat) : Bool :=
  match s.homeAt die p q with
  | .home a => !isHost a && (s.sideAt a).tag
  | _ => false

/-! ## Stream counters, handles, frames -/

/-- Outstanding operations on a stream (R211). -/
def Task.strm (t : Task) (k : Nat) : Nat :=
  (t.ops.filter (fun o => match o.act.mx with
    | some m => m.stream.toNat == k
    | none => false)).length

/-- SY.STRM (R95). -/
def Task.strmWord (t : Task) : BitVec 64 :=
  BitVec.ofNat 64 ((List.range 8).foldl (fun n k => n + (t.strm k % 64) * 2 ^ (6 * k)) 0)

/-- Whether a register waits for a late result (R177), one that a later write will replace included. -/
def Task.latePending (t : Task) (d : Dst) : Bool := d != .none && t.ops.any (fun o => o.act.dst == d)

/-- Whether any late result is still owed. -/
def Task.anyLate (t : Task) : Bool := t.ops.any (fun o => o.act.dst != .none)

/-- Whether a unit of some field holds a FEED or WLD (R277, R278). -/
def State.unitHolds (s : State) (serial : Nat) : Bool :=
  s.plots.any (fun x => x.2.fu.feeds.any (fun c => c.serial == serial) || x.2.fu.wlds.any (fun c => c.serial == serial))

/-- An operation that goes on after its task is saved: an engine command, or a FEED or WLD that its unit has accepted (R213, R224). -/
def State.goesOn (s : State) (o : Op) : Bool :=
  match o.act.kind with
  | .xcpy .. | .xchn .. | .xred .. | .xcol .. | .xregReg .. | .xregRel .. | .handle .. => true
  | .feed .. | .wld .. => s.unitHolds o.serial
  | _ => false

/-- The handle list as frame words (R220, R222). -/
def Task.handleWords (t : Task) : List (BitVec 64) :=
  let hs := (t.handles.map (·.2)).take 24
  hs ++ List.replicate (24 - hs.length) 0

/-- The 32 words of a frame header (R220); WTIME and STRM are those of the instant of the cause. -/
def frameHeader (t : Task) (bpc : BitVec 40) (c : Option CauseRec) (state : Nat) : List (BitVec 64) :=
  let r : CauseRec := c.getD { cause := .trap }
  let w1 := match c with
    | none => 255 * 2^16
    | some r => (if r.defer then 2^41 else 0) + (if r.async then 2^40 else 0) + r.num.toNat * 2^32 + r.lane % 16 * 2^24 +
        r.slot % 256 * 2^16 + r.cause.code.toNat * 2^8
  [bpc.zeroExtend 64, BitVec.ofNat 64 (w1 + state), r.off ++ r.obj, r.phys, t.causeStrm, t.causeWt, r.info,
   BitVec.ofNat 64 (min t.handles.length 24)] ++ t.handleWords

/-- The bytes of a list of words. -/
def wordBytes (ws : List (BitVec 64)) : List Byte := ws.flatMap (fun w => leBytes w.toNat 8)

/-- SY.FIELD (R95). -/
def Plot.fieldWord (x : Plot) : BitVec 64 := (x.fu.role.zeroExtend 32) ++ x.fu.handle

/-- SY.TASK (R95). -/
def Task.taskWord (t : Task) (k : Nat) : BitVec 64 :=
  BitVec.ofNat 64 ((if t.priv then 2^48 else 0) + t.launch.toNat * 2^16 + k % 16)

/-- SY.SLOTS (R95). -/
def Plot.slotsWord (x : Plot) : BitVec 64 :=
  BitVec.ofNat 64 (slotIdx.foldl (fun n k => n + (x.task k).st.code.toNat * 2 ^ (3 * k)) 0)

/-- A per-task or per-core system register as RDS reads it now (R95, R96); PMVAL reads the selected counter (R397). -/
def State.sysRead (s : State) (p k n : Nat) : BitVec 64 :=
  let t := s.task p k
  let x := s.plot p
  match n with
  | 0x000 => t.bpc.zeroExtend 64
  | 0x001 => t.taskWord k
  | 0x002 => t.pri.zeroExtend 64
  | 0x003 => t.fctl.zeroExtend 64
  | 0x004 => t.sigctl.zeroExtend 64
  | 0x005 => t.strmWord
  | 0x006 => (BitVec.ofBool t.smiss).zeroExtend 64
  | 0x007 => t.park.zeroExtend 64
  | 0x008 => t.trapv.zeroExtend 64
  | 0x009 => t.frame.zeroExtend 64 <<< 8
  | 0x00A => (s.nameOf p).zeroExtend 64
  | 0x00B => BitVec.ofNat 64 p
  | 0x00C => x.fieldWord
  | 0x00D => s.cycOf p
  | 0x00E => s.wtimeOf p
  | 0x010 => t.wake.zeroExtend 64
  | 0x100 => x.slotsWord
  | 0x101 => x.pmsel.zeroExtend 64
  | 0x102 => if x.pmsel.toNat < 48 then x.counter (s.cycOf p) x.pmsel.toNat else 0
  | _ => 0

/-- The wait kind of R223. -/
def WaitFor.kind : WaitFor → Nat
  | .none => 0
  | .presence .. => 1
  | .sem _ => 2
  | .barrier .. => 3
  | .rill .. => 4
  | .drain _ => 5
  | .park _ => 6

/-- The wait target of R223. DESIGN CHOICE (log 80): of several granules that a gate waits on it names the first not yet read, full or not, and of a
PARK the wake mask. -/
def WaitFor.target : WaitFor → BitVec 64
  | .none => 0
  | .presence gs _ => BitVec.ofNat 64 (gs.headD 0)
  | .sem n => BitVec.ofNat 64 n
  | .barrier _ _ o => o &&& 0x7F
  | .rill p _ => BitVec.ofNat 64 p
  | .drain t => BitVec.ofNat 64 t
  | .park m => m.zeroExtend 64

/-- Byte 21 bit 0 of a saved pointer holds its validity (R223). -/
def savedPtr (p : Ptr) : List Byte :=
  leBytes p.cap.toNat 16 ++ leBytes p.cur.toNat 5 ++ [if p.valid then 1 else 0] ++ List.replicate 10 0

/-- A memory operation for performance counter 13. -/
def CKind.isMem : CKind → Bool
  | .store .. => true
  | .take .. => true
  | .amo .. => true
  | .cas .. => true
  | .cst .. => true
  | _ => false

/-- A seq operation of R208 that is no load: a store, AMO, CAS or CST, or what a restored frame counts as one (R224). An engine command of scope seq
follows seq operations and is none itself. -/
def CAct.isSeq (a : CAct) : Bool :=
  a.mx.any (fun m => m.scope == .seq) && (a.kind.isMem || (match a.kind with
    | .handle _ => true
    | _ => false))

/-- The issued seq operations of a task that have not performed (R223). -/
def Task.seqOps (t : Task) : Nat := (t.ops.filter (fun o => o.act.isSeq)).length

/-- The SY.WTIME of a saved task: never below the one that a restore onto a die behind still waits to pass (R24, R396). -/
def Task.wtSaved (t : Task) (now : BitVec 64) : BitVec 64 :=
  match t.notBefore with
  | some v => if now.toNat < v.toNat then v else now
  | none => now

/-- System register n in a save frame (R223). -/
def State.frameSys (s : State) (p k n : Nat) : BitVec 64 :=
  if n = 0x00E then (s.task p k).wtSaved (s.wtimeOf p) else s.sysRead p k n

/-- The 4,096 bytes of a full save frame (R223). -/
def State.frameBytes (s : State) (p k : Nat) (bpc : BitVec 40) (c : Option CauseRec) (w : WaitFor) : List Byte :=
  let t := s.task p k
  wordBytes (frameHeader t bpc c 4) ++
  wordBytes t.regs.g.toList ++
  wordBytes (t.regs.f.toList.map (·.bits)) ++
  t.regs.f.toList.map (fun r => r.tag.zeroExtend 8) ++ List.replicate 32 0 ++
  t.regs.c.toList.flatMap savedPtr ++
  leBytes t.strmWord.toNat 8 ++ leBytes (t.seqOps % 64) 8 ++ List.replicate 176 0 ++
  t.regs.v.toList.flatMap (fun v => leBytes v.lanes.toNat 64) ++
  t.regs.v.toList.flatMap (fun v => (List.range 16).map (fun l => (v.tags.extractLsb' (6 * l) 6).zeroExtend 8)) ++
  wordBytes ((List.range 0x11).map (s.frameSys p k)) ++ List.replicate 8 0 ++
  leBytes w.kind 8 ++ leBytes w.target.toNat 8 ++ leBytes t.pend.toNat 8 ++ List.replicate 0x458 0

/-- What a frame does not say of its task is noted (log 42). -/
def State.noteSave (s : State) (p k : Nat) (w : WaitFor) : State :=
  let t := s.task p k
  { s with mod := { s.mod with saves :=
      ⟨p, k, t.causeWt, t.pendInfo.get 0 0, t.acq, w, w.target⟩ :: s.mod.saves.filter (fun n => !(n.plot == p && n.slot == k && n.wtime == t.causeWt)) } }

/-- The save frame of a task written at the homes of its parts (R224): plain stores by the core at wafer scope, pointers as CST writes them;
host memory keeps no TAG (R165). -/
def State.writeFrame (s : State) (p k : Nat) (bpc : BitVec 40) (c : Option CauseRec) (w : WaitFor) (ps : List (Nat × Nat × Nat)) : State :=
  let t := s.task p k
  (List.range 8).foldl (fun s i =>
    match ps.find? (fun x => x.2.1 == 0x440 + 32 * i) with
    | some x => if isHost x.1 then s
        else s.wrSide x.1 { s.sideAt x.1 with tag := (t.regs.c.toList.getD i {}).usable && !(t.regs.c.toList.getD i {}).isPhys }
    | none => s) ((s.putParts p k t.launch true (s.frameBytes p k bpc c w) 4 ps).noteSave p k w)

/-- Where the launch's save area keeps the frame of slot k of placement plot i (R350). -/
def State.saveFrameAt (s : State) (id : BitVec 32) (i k : Nat) : Option (Ptr × Nat) :=
  (s.launch? id).map (fun l => (capPtr (l.cap 0x40), (capPtr (l.cap 0x40)).start + 65536 * i + 4096 * k))

/-! ## Leaving a slot: ends, traps and saves wait for what R113, R177 and R224 name -/

/-- The restore of a granule's words that TAKEs had emptied, one home event (R166, R181): set full again but for those another event has touched
since, STAMP as before the TAKE; it wakes the tasks parked there (R66). -/
def State.restoreTake (s : State) (x : TakeRec) : State :=
  if !x.done || x.words == 0 then s
  else
    let y := s.sideAt x.home
    ((s.wrSide x.home { y with pres := y.pres ||| x.words, stamp := x.stamp }).touch x.home x.words).wakeGranule x.home

/-- Two records of one granule as one: the words of both, and the STAMP of the earlier one (R181). -/
def TakeRec.join (x y : TakeRec) : TakeRec := if x.words == 0 then y else { x with words := x.words ||| y.words }

/-- The cleared words of TAKE records granule by granule, in the order in which they were cleared. -/
def byGranule : List TakeRec → List TakeRec
  | [] => []
  | x :: t =>
    let r := byGranule t
    if !x.done then r
    else match r.find? (fun y => y.home / 32 == x.home / 32) with
    | some y => x.join y :: r.filter (fun z => z.home / 32 != x.home / 32)
    | none => x :: r

/-- Whether the words of a record are those of the block in a half of a plot's window. -/
def TakeRec.of (x : TakeRec) (p : Nat) (h : Bool) : Bool := x.plot == p && x.half == h

/-- What a block on its way to the commit point had taken is set full again. -/
def State.untake (s : State) (p : Nat) (h : Bool) : State :=
  (byGranule (s.takes.filter (fun x => x.of p h))).foldl State.restoreTake { s with takes := s.takes.filter (fun x => !x.of p h) }

/-- The mapped block of a task discarded, and its half freed (R69). -/
def State.dropBlock (s : State) (p k : Nat) : State :=
  match (s.plot p).halfOf k with
  | none => s
  | some h =>
    let s1 := if ((s.plot p).half h).blk.isSome then s.bump p 2 1 else s
    (s1.untake p h).setHalf p h {}

/-- The pending seq loads of a discarded block are withdrawn (R209). -/
def State.withdraw (s : State) (p k : Nat) : State :=
  { s with dies := s.dies.map (fun d => (d.1, { d.2 with
      seqQ := d.2.seqQ.filter (fun r => !(r.plot == p && r.task == k && r.serial.isNone)) })) }

/-- The private area of slot k: its object and size P (R337); size 0 without a launch. -/
def State.privArea (s : State) (p : Nat) (id : BitVec 32) (k : Nat) : BitVec 24 × Nat :=
  match s.launch? id, (s.plot p).owner with
  | some l, some (_, i) => ((l.word 0xE0).extractLsb' 0 24 + BitVec.ofNat 24 (16 * i + k), l.privSize)
  | _, _ => (0, 0)

/-- A pointer to the private area (R93): rights R, W, F, T, A, C and D. -/
def State.privPtr (s : State) (p : Nat) (id : BitVec 32) (k : Nat) : Ptr :=
  let a := s.privArea p id k
  ⟨mkCap a.1 0xFB 0 a.2, 0, true⟩

/-- EN of SY.TRAPV. -/
def Task.trapEn (t : Task) : Bool := t.trapv.getLsbD 1
/-- ACT of SY.TRAPV. -/
def Task.trapAct (t : Task) : Bool := t.trapv.getLsbD 0

/-- A task ended by a system fault (R218, R234): its block dropped, its record posted, its slot free once its operations have performed. -/
def State.endTask (s : State) (p k : Nat) (c : CauseRec) (bpc : BitVec 40) : State :=
  let s1 := (s.dropBlock p k).withdraw p k
  let t := s1.task p k
  let s2 := s1.postErr 0x01 p k t.launch bpc c false 0
  s2.setTask p k { t with st := .running, wait := .none, pend := 0, pendInfo := [], engQ := [], leaving := .ended }

/-- The header of a trap frame written, ACT set, and the handler entered (R117, R220): taking an exception, once every late result has arrived.
A header in a migrating extent waits for the move. DESIGN CHOICE (log 68): where the header has no home, or its page is not resident, the task
ends with ABSENT; R117 names the size check alone. The frame is the 256 bytes of R220 and holds no tags: R48 speaks of tags in trap frames,
which R95, R117 and R220 give no room. -/
def State.enterHandler (s : State) (p k : Nat) (c : CauseRec) (bpc : BitVec 40) : State :=
  let t := s.task p k
  let off := t.frame.toNat * 256
  match s.partHomes (dieOf p) (s.privPtr p t.launch k) (piecesOf off 256) with
  | .wait => s
  | .bad _ => s.endTask p k { cause := .absent, slot := c.slot, lane := c.lane, obj := (s.privArea p t.launch k).1, off := BitVec.ofNat 40 off } bpc
  | .ok ps =>
    (s.putParts p k t.launch true (wordBytes (frameHeader t bpc (some c) 2)) 0 ps).ready p k |>.onTask p k (fun t => { t with trapv := t.trapv ||| 1, bpc := t.trapv &&& ~~~7, far := false, leaving := .no, rwait := [], rheld := some (bpc, t.rwait) })

/-- The instant of a cause or of a save's start, kept for the frame and the record (R220, R234). -/
def State.stamped (s : State) (p k : Nat) : State :=
  s.onTask p k (fun t => { t with causeWt := s.wtimeOf p, causeStrm := t.strmWord })

/-- An exception (R117, R218 to R226). A program trap enters the handler, or ends the task when there is none or one is active, or
when the frame does not fit the private area; a page fault saves the task; a system fault ends it. The task leaves once `settle` finds
nothing outstanding. DEDUCED (log 74): NESTED of the record (R234) is set for program traps alone, of which R117 speaks. -/
def State.raiseCause (s : State) (p k : Nat) (c : CauseRec) (bpc : BitVec 40) : State :=
  let t := s.task p k
  match c.cause with
  | .trap | .sig | .soft | .rill | .deadlk | .engine =>
    if !t.trapEn || t.trapAct then s.endTask p k { c with nested := t.trapAct } bpc
    else if t.frame.toNat * 256 + 256 > (s.privArea p t.launch k).2 then
      s.endTask p k { cause := .capb, slot := c.slot, lane := c.lane, obj := (s.privArea p t.launch k).1,
                       off := BitVec.ofNat 40 (t.frame.toNat * 256) } bpc
    else
      let s1 := ((s.dropBlock p k).withdraw p k).stamped p k
      s1.onTask p k (fun t => { t with st := .running, wait := .none, leaving := .trapping c bpc false })
  | .page =>
    let s1 := ((s.dropBlock p k).withdraw p k).stamped p k
    s1.onTask p k (fun t => { t with st := .running, leaving := .saving (some c) bpc true, saveTo := none })
  | _ => s.endTask p k c bpc

/-- The waits that a trap interrupted go on when the task runs the same block again (R304, R421). -/
def Task.waitAgain (t : Task) (bpc : BitVec 40) : Task :=
  { t with
    rwait := (match t.rheld with
      | some (b, w) => if b == bpc then w else []
      | none => [])
    rheld := none }

/-- SY.TRAPV's ACT cleared and the failed handles dropped whose ENGINE has been raised: what every TRET does at its commit (R118, R221). -/
def Task.leaveHandler (t : Task) : Task :=
  { t with trapv := t.trapv &&& ~~~1, handles := t.handles.filter (fun h => !h.2.getLsbD 56 || t.engQ.any (fun e => e.1 == h.2)) }

/-- INFO of the oldest ENGINE not raised (R221): the index of its handle, and its error code. -/
def Task.engInfo (t : Task) : BitVec 64 :=
  match t.engQ with
  | (w, code) :: _ => BitVec.ofNat 64 (t.handles.findIdx (fun h => h.2 == w) % 32 + code.toNat * 256)
  | [] => 0

/-- A pending cause taken from a task, bit i of its pending bits; ENGINE stays pending while another failed command waits (R219). -/
def Task.takePend (t : Task) (i : Nat) : Task :=
  if i = 3 then { t with engQ := t.engQ.drop 1, pend := if t.engQ.length ≤ 1 then t.pend &&& ~~~(BitVec.twoPow 16 i) else t.pend }
  else { t with pend := t.pend &&& ~~~(BitVec.twoPow 16 i), pendInfo := t.pendInfo.drop i }

/-- The page number of a fault's object offset. -/
def pageOf (off : BitVec 40) : BitVec 28 := off.extractLsb' 12 28

/-- A task slot that becomes FREE or SAVED. -/
def State.vacate (s : State) (p k : Nat) (t : Task) : State :=
  (s.setTask p k t).onPlot p (fun x => { x with vacated := s.instant })

/-- A task saved by a page fault that ends: its slot is FREE, or will be when its launch is restored. -/
def State.dropFaulted (s : State) (x : Faulted) : State :=
  let s1 : State := { s with
    faulted := s.faulted.filter (fun y => y.uid != x.uid)
    launches := s.launches.map (fun l => { l with stay := l.stay.filter (fun y => y.2.2.uid != x.uid || l.id != x.launch) }) }
  match (s.launch? x.launch).bind (fun l => s.resolve (l.plotName x.p)) with
  | some p => if (s1.task p x.k).st == .saved && (s1.task p x.k).uid == x.uid then s1.vacate p x.k {} else s1
  | none => s1

/-- The host writes of a task that leaves its slot, which its launch still waits for before it completes (R194, R341). -/
def State.leaveHost (s : State) (p k : Nat) : State :=
  let t := s.task p k
  if t.hostOps.isEmpty then s
  else s.onLaunch t.launch (fun l => { l with hostLeft := l.hostLeft ++ t.hostOps.map (fun x => (p, k, x.1)) })

/-- A task that has ended leaves its slot FREE once every operation it issued has performed (R113). -/
def State.freeIfDone (s : State) (p k : Nat) : State :=
  let t := s.task p k
  if t.leaving == .ended && t.ops.isEmpty then (s.leaveHost p k).vacate p k {} else s

/-- Where a task's full frame is written: where its CSAVE says, else its place in the launch's save area (R225, R226, R231). -/
def State.saveDest (s : State) (p k : Nat) : Option (Ptr × Nat) :=
  match (s.task p k).saveTo, (s.plot p).owner with
  | some d, _ => some d
  | none, some (id, i) => s.saveFrameAt id i k
  | none, none => none

/-- A task that is leaving does so once nothing it must wait for is outstanding: its end (R113), its trap (R177), its save (R224 to R226), before
which every memory operation performs at every scope (R213). After a page fault its slot is SAVED, as the tables of R343 and R351 say, where R69
and R226 call it freed (log 58). -/
def State.settle (s : State) (p k : Nat) : State :=
  let t := s.task p k
  match t.leaving with
  | .no => s
  | .ended => s.freeIfDone p k
  | .trapping c bpc _ => if t.anyLate then s else (s.enterHandler p k c bpc).freeIfDone p k
  | .saving c bpc toFree =>
    if t.anyLate || t.ops.any (fun o => !s.goesOn o) || !t.hostOps.isEmpty then s
    else match s.saveDest p k with
    | none => s.vacate p k { t with st := .saved, leaving := .no, ops := [] }
    | some (dst, q) =>
      match s.partHomes (dieOf p) dst (piecesOf q 4096) with
      | .wait => s
      | .bad _ => (s.endTask p k { cause := .absent, obj := dst.obj, off := BitVec.ofNat 40 q } bpc).freeIfDone p k
      | .ok ps =>
        let s1 := s.writeFrame p k bpc c t.wait ps
        let saved : Task := { t with st := .saved, leaving := .no, ops := [], bpc := bpc, saveTo := none, frameAt := some (dst, q),
                                     strmSet := some t.strmWord, seqSet := some (BitVec.ofNat 6 t.seqOps) }
        if toFree then
          let cr := c.getD { cause := .page }
          let i := match (s.plot p).owner with
            | some (_, i) => i
            | none => 0
          let s0 := match t.refault with
            | some (ob, off) => s1.postErrAt t.causeWt 0x03 p k t.launch bpc { cause := .page, obj := ob, off := off } false 0
            | none => s1
          let s2 := { s0 with faulted := s0.faulted ++
            [({ launch := t.launch, p := i, k := k, uid := t.uid, obj := cr.obj, pg := pageOf cr.off, handles := t.handles } : Faulted)] }
          (s2.postErrAt t.causeWt 0x02 p k t.launch bpc cr false 0).vacate p k { saved with refault := none }
        else s1.vacate p k saved

/-- An exception taken (R117, R218 to R226): the cause raised, and the task gone as soon as nothing holds it. -/
def State.takeException (s : State) (p k : Nat) (c : CauseRec) (bpc : BitVec 40) : State := (s.raiseCause p k c bpc).settle p k

/-- A bit of SY.WAKE set in a slot (R302, R347): a task parked on it becomes READY. The cycle is kept for a WRS clear of the same cycle. -/
def State.setWake (s : State) (p k : Nat) (m : BitVec 16) : State :=
  let t := s.task p k
  if t.st == .free then s
  else
    let now := s.cycOf p
    let s1 := s.setTask p k { t with wake := t.wake ||| m, wakeCyc := now, wakeNew := if t.wakeCyc == now then t.wakeNew ||| m else m }
    match t.wait with
    | .park pm => if t.st == .wait && (t.wake ||| m) &&& pm != 0 then s1.ready p k else s1
    | _ => s1

/-- An asynchronous cause made pending in a task (R219): while no handler is active, a task in WAIT becomes READY at once, and a RUNNING
one has its mapped block aborted as for pre-emption, at the end of the cycle, unless it commits or another cause aborts it in this cycle (R70). -/
def State.pendCause (s : State) (p k : Nat) (c : Cause) (info : BitVec 64) : State :=
  let t := s.task p k
  let bit := c.code.toNat - 0x0E
  let s1 := s.setTask p k { t with pend := t.pend ||| BitVec.twoPow 16 bit, pendInfo := t.pendInfo.put bit info }
  if !t.trapAct && t.st == .wait then s1.ready p k else s1

end Sys2Proof.Machine
end

