-- ==== Sys2Proof/Machine/Operands.lean ====
section
/-! DEFINITION. The operand forms of R54, readiness and nulls (R61, R63), and how a slot of a mapped block executes: it is nullified,
stalls, aborts its block, or is done (R61 to R70, R177). -/

namespace Sys2Proof.Machine

open Sys2Proof

/-! ## Registers -/

/-- The value of g register i. -/
def Regs.getG (r : Regs) (i : BitVec 6) : BitVec 64 := r.g[i.toNat]'(i.isLt)
/-- The value of f register i. -/
def Regs.getF (r : Regs) (i : BitVec 5) : FReg := r.f[i.toNat]'(i.isLt)
/-- The value of v register i. -/
def Regs.getV (r : Regs) (i : BitVec 4) : VReg := r.v[i.toNat]'(i.isLt)
/-- The value of c register i. -/
def Regs.getC (r : Regs) (i : BitVec 3) : Ptr := r.c[i.toNat]'(i.isLt)

/-- A PRED as an INT (R56). -/
def predInt (b : Bool) : BitVec 64 := (BitVec.ofBool b).zeroExtend 64

/-- A result written to its D register (R56, R89 to R92). -/
def Regs.write (r : Regs) (d : Dst) (x : Val) : Regs :=
  match d, x with
  | .g i, .int y => { r with g := r.g.set i.toNat y i.isLt }
  | .g i, .pred b => { r with g := r.g.set i.toNat (predInt b) i.isLt }
  | .g i, .mask m => { r with g := r.g.set i.toNat (m.zeroExtend 64) i.isLt }
  | .f i, .fp y => { r with f := r.f.set i.toNat y i.isLt }
  | .v i, .vec y => { r with v := r.v.set i.toNat y i.isLt }
  | .c i, .ptr y => { r with c := r.c.set i.toNat y i.isLt }
  | _, _ => r

/-- The VEC zero: sixteen lanes of +0 with tag 24 (R54, R137). -/
def zeroVec : VReg := ⟨0, 0x618618618618618618618618⟩

/-- The FP zero: +0 with the tag every format reads as its p (R54). -/
def zeroFp : FReg := ⟨0, 53⟩

/-! ## The slot that executes -/

/-- The slot under execution: plot, half, task slot, slot index, part choice, token grant, and what the state holds of them. -/
structure Cx where
  p : Nat
  half : Bool
  t : Nat
  k : Nat
  pick : Nat
  granted : Bool
  blk : Block
  sr : SlotRec
  task : Task
  deriving DecidableEq, Repr

/-- The slot the focus names, if a task is selected in that half, its block is mapped, and the slot has not executed. A slot at or above the
one whose cause aborts the block in this cycle changes nothing more (R70). -/
def State.cx? (s : State) : Option Cx :=
  let x := s.plot s.focus.plot
  let h := x.half s.focus.half
  match h.task, h.blk with
  | some t, some b =>
    match b.slots[s.focus.slot]? with
    | some r =>
      if r.st == .waiting && (match b.abort with
          | some c => decide (s.focus.slot < c.slot)
          | none => true) then
        some ⟨s.focus.plot, s.focus.half, t, s.focus.slot, s.focus.pick, s.focus.granted, b, r, x.task t⟩
      else none
    | none => none
  | _, _ => none

/-- What reading an operand finds: a value, one not yet available, or a null (R61, R63). -/
inductive Rd (α : Type) where
  | val (a : α)
  | wait
  | null
  deriving DecidableEq, Repr

/-- Reading on with a value. -/
def Rd.bind {α β : Type} (r : Rd α) (f : α → Rd β) : Rd β :=
  match r with
  | .val a => f a
  | .wait => .wait
  | .null => .null

/-- The value of a lower slot (R61, R63). -/
def Cx.slotVal (cx : Cx) (j : BitVec 7) : Rd Val :=
  match cx.blk.slots[j.toNat]? with
  | some r => (match r.st with
    | .waiting => .wait
    | .nulled => .null
    | .done => (match r.val with
      | some v => .val v
      | none => .wait))
  | none => .wait

/-- A register read, which waits for a late result still owed to it (R177). -/
def Cx.reg {α : Type} (cx : Cx) (d : Dst) (x : α) : Rd α := if cx.task.latePending d then .wait else .val x

/-- An INT operand (R54). -/
def Cx.int (cx : Cx) (o : Opnd) : Rd (BitVec 64) :=
  match o with
  | .slot j => (cx.slotVal j).bind (fun v => match v with
    | .int x => .val x
    | _ => .wait)
  | .g i => cx.reg (.g i) (cx.task.regs.getG i)
  | .imm x => .val (x.signExtend 64)
  | .zero => .val 0
  | _ => .wait

/-- A PRED operand (R54, R55). -/
def Cx.pred (cx : Cx) (o : Opnd) : Rd Bool :=
  match o with
  | .slot j => (cx.slotVal j).bind (fun v => match v with
    | .pred b => .val b
    | _ => .wait)
  | .zero => .val false
  | _ => .wait

/-- An FP operand with its stored tag (R54, R120). -/
def Cx.fp (cx : Cx) (o : Opnd) : Rd FReg :=
  match o with
  | .slot j => (cx.slotVal j).bind (fun v => match v with
    | .fp x => .val x
    | _ => .wait)
  | .f i => cx.reg (.f i) (cx.task.regs.getF i)
  | .zero => .val zeroFp
  | _ => .wait

/-- A VEC operand with its lane tags (R54, R137). -/
def Cx.vec (cx : Cx) (o : Opnd) : Rd VReg :=
  match o with
  | .slot j => (cx.slotVal j).bind (fun v => match v with
    | .vec x => .val x
    | _ => .wait)
  | .v i => cx.reg (.v i) (cx.task.regs.getV i)
  | .zero => .val zeroVec
  | _ => .wait

/-- A MASK operand: a MASK slot, bits [15:0] of a g register, or zeros (R54, R89). -/
def Cx.mask (cx : Cx) (o : Opnd) : Rd (BitVec 16) :=
  match o with
  | .slot j => (cx.slotVal j).bind (fun v => match v with
    | .mask x => .val x
    | _ => .wait)
  | .g i => cx.reg (.g i) ((cx.task.regs.getG i).extractLsb' 0 16)
  | .zero => .val 0
  | _ => .wait

/-- A PTR operand (R54, R92). -/
def Cx.ptr (cx : Cx) (o : Opnd) : Rd Ptr :=
  match o with
  | .slot j => (cx.slotVal j).bind (fun v => match v with
    | .ptr x => .val x
    | _ => .wait)
  | .c i => cx.reg (.c i) (cx.task.regs.getC i)
  | _ => .wait

/-- An operand of any class but PRED (SEL, MOV); ZERO is the INT 0 (R109). -/
def Cx.any (cx : Cx) (o : Opnd) : Rd Val :=
  match o with
  | .slot j => cx.slotVal j
  | .g i => cx.reg (.g i) (.int (cx.task.regs.getG i))
  | .f i => cx.reg (.f i) (.fp (cx.task.regs.getF i))
  | .v i => cx.reg (.v i) (.vec (cx.task.regs.getV i))
  | .c i => cx.reg (.c i) (.ptr (cx.task.regs.getC i))
  | .imm x => .val (.int (x.signExtend 64))
  | .zero => .val (.int 0)

/-- The zero of a value's class; there is no PTR zero (R54). -/
def Val.zeroLike : Val → Val
  | .int _ => .int 0
  | .pred _ => .pred false
  | .fp _ => .fp zeroFp
  | .vec _ => .vec zeroVec
  | .mask _ => .mask 0
  | .ptr p => .ptr { p with valid := false }

/-! ## Outcomes of a slot -/

/-- The record of the slot under execution replaced. -/
def State.setSlot (s : State) (cx : Cx) (r : SlotRec) : State :=
  s.onPlot cx.p (fun x => x.setHalf cx.half { (x.half cx.half) with
    blk := some { cx.blk with slots := cx.blk.slots.set cx.k r } })

/-- A nullified slot (R63). -/
def State.nullify (s : State) (cx : Cx) : State := (s.setSlot cx { st := .nulled, cyc := s.cycOf cx.p }).bump cx.p 4 1

/-- The registers an executed slot writes, by D or by a late result (R65). -/
def SlotRec.dsts (r : SlotRec) : List Dst :=
  ([r.dst] ++ (match r.act with
    | some a => [a.dst]
    | none => [])).filter (fun d => d != .none)

/-- The system register an executed slot writes (R96). -/
def SlotRec.wrsNum (r : SlotRec) : Option Nat :=
  match r.act with
  | some a => (match a.kind with
    | .wrs n _ => some n
    | _ => none)
  | none => none

/-- Two executed slots that may not stand in one block: one register or system register written twice (R65, R96), or two branches (R64). -/
def SlotRec.clash (r q : SlotRec) : Bool :=
  r.dsts.any (fun d => q.dsts.contains d) || (r.wrsNum.isSome && r.wrsNum == q.wrsNum) || (r.br.isSome && q.br.isSome)

/-- A cause that a slot of a block has found: of several found in one cycle the lowest slot's stands (R70). -/
def Block.withAbort (b : Block) (c : CauseRec) : Block :=
  match b.abort with
  | some a => if a.slot ≤ c.slot then b else { b with abort := some c }
  | none => { b with abort := some c }

/-- A slot has found a cause that aborts its block (R69). The block is aborted with the cycle, so that a lower slot's cause of the same cycle
may still come before it (R70): see State.takeAborts. -/
def State.abortSlot (s : State) (cx : Cx) (c : CauseRec) : State :=
  s.onPlot cx.p (fun x => x.setHalf cx.half { (x.half cx.half) with
    blk := (x.half cx.half).blk.map (fun b => b.withAbort { c with slot := cx.k }) })

/-- A slot done: its record stands until the commit, unless it clashes with an executed slot, which is a DECODE fault (R64, R65). -/
def State.finish (s : State) (cx : Cx) (r : SlotRec) : State :=
  if cx.blk.slots.any (fun q => q.st == .done && r.clash q) then s.abortSlot cx { cause := .decode }
  else (s.setSlot cx { r with st := .done, cyc := s.cycOf cx.p }).bump cx.p 3 1

/-- The die cycle since which what a descriptor names has been available to a block: a slot's execution, a register's late result (R66, R177),
or `b`, the block's map. -/
def Cx.codeSince (cx : Cx) (code : BitVec 8) : BitVec 64 :=
  if code.toNat < 0x80 then (cx.blk.slots.getD code.toNat {}).cyc else cx.task.lateAt.get code.toNat 0

/-- The later of two die cycles. -/
def laterCyc (a b : BitVec 64) : BitVec 64 := if a.toNat < b.toNat then b else a

/-- The die cycle in which the operands and the predicate of the slot under execution became available (R66). -/
def Cx.avail (cx : Cx) : BitVec 64 :=
  match cx.blk.words[cx.k]? with
  | none => cx.blk.mapped
  | some w =>
    let f := Fields.ofWord w
    let q := if f.pm == 0 then cx.blk.mapped else laterCyc cx.blk.mapped (cx.blk.slots.getD f.ps.toNat {}).cyc
    laterCyc (laterCyc q (cx.codeSince f.a)) (cx.codeSince f.b)

/-- A gate that stalls on a condition; its stall counts from the cycle in which its operands and predicate became available (R66). -/
def State.stallGate (s : State) (cx : Cx) (g : Gate) : State :=
  s.setSlot cx { cx.sr with gate := some g, since := cx.avail }

/-- The predicate of a slot (R52, R63). -/
def Cx.predicate (cx : Cx) (p : Pred) : Rd Bool :=
  match p with
  | .always => .val true
  | .ifTrue j => cx.pred (.slot j)
  | .ifFalse j => (cx.pred (.slot j)).bind (fun b => .val (!b))

/-- How every instruction executes (R61, R63): nothing happens when its slot is not there to run; it waits for what is not yet
available; a false predicate or a null operand nullifies it; else it has its effect. -/
def runSlot (p : Pred) (s : State) (f : Cx → Rd State) : Out :=
  match s.cx? with
  | none => .next s
  | some cx =>
    match cx.predicate p with
    | .wait => .next s
    | .null => .next (s.nullify cx)
    | .val false => .next (s.nullify cx)
    | .val true =>
      match f cx with
      | .val t => .next t
      | .wait => .next s
      | .null => .next (s.nullify cx)

/-- A slot done with a value for D. -/
def State.result (s : State) (cx : Cx) (d : Dst) (v : Val) : State := s.finish cx { val := some v, dst := d }

/-- A commit-point slot: its operands as captured now; it acts at the commit (R62). -/
def State.capture (s : State) (cx : Cx) (a : CAct) : State := s.finish cx { act := some a }

/-- An INT result of one INT operand. -/
def int1 (p : Pred) (d : Dst) (a : Opnd) (s : State) (f : BitVec 64 → BitVec 64) : Out :=
  runSlot p s (fun cx => (cx.int a).bind (fun x => .val (s.result cx d (.int (f x)))))

/-- An INT result of two INT operands. -/
def int2 (p : Pred) (d : Dst) (a b : Opnd) (s : State) (f : BitVec 64 → BitVec 64 → BitVec 64) : Out :=
  runSlot p s (fun cx => (cx.int a).bind (fun x => (cx.int b).bind (fun y => .val (s.result cx d (.int (f x y))))))

/-- A PRED result of two INT operands. -/
def cmp2 (p : Pred) (d : Dst) (a b : Opnd) (s : State) (f : BitVec 64 → BitVec 64 → Bool) : Out :=
  runSlot p s (fun cx => (cx.int a).bind (fun x => (cx.int b).bind (fun y => .val (s.result cx d (.pred (f x y))))))

/-- A PRED result of two PRED operands. -/
def pred2 (p : Pred) (d : Dst) (a b : Opnd) (s : State) (f : Bool → Bool → Bool) : Out :=
  runSlot p s (fun cx => (cx.pred a).bind (fun x => (cx.pred b).bind (fun y => .val (s.result cx d (.pred (f x y))))))

/-- The dynamic rounding mode of a task: SY.FCTL[2:0] as held at block start (R36). -/
def Task.mode (t : Task) (r : Rnd) : Rnd :=
  match r with
  | .dyn => (match (t.fctl.extractLsb' 0 3).toNat with
    | 1 => .rtz
    | 2 => .rup
    | 3 => .rdn
    | 4 => .rna
    | _ => .rne)
  | _ => r

end Sys2Proof.Machine
end

