-- ==== Sys2Proof/Machine/Control.lean ====
section
/-! DEFINITION. The control instructions and the system-register reads and writes (R94 to R97, R110 to R119). A branch-class slot
executes once its predicate and target are known; its transfer takes place at the commit (R62, R64). -/

namespace Sys2Proof.Machine

open Sys2Proof

/-- A branch-class slot executed: the transfer it asks for at the commit. -/
def State.branch (s : State) (cx : Cx) (b : Br) : State := s.finish cx { br := some b }

/-- The address of the block that follows (R57). -/
def Block.next (b : Block) : BitVec 40 := b.bpc + BitVec.ofNat 40 (8 * (b.words.length + 1))

/-- BR: BPC + 8 sext(imm19) (R110). -/
def execBr (p : Pred) (x : BitVec 19) (s : State) : Out := runSlot p s (fun cx => .val (s.branch cx (.rel x)))

/-- BRX: BPC := a (R111). -/
def execBrx (p : Pred) (a : Opnd) (s : State) : Out :=
  runSlot p s (fun cx => (cx.int a).bind (fun x => .val (s.branch cx (.abs x))))

/-- CALL: the link goes to D, and BPC as BR (R112). -/
def execCall (p : Pred) (link : BitVec 6) (x : BitVec 19) (s : State) : Out :=
  runSlot p s (fun cx => .val (s.finish cx
    { val := some (.int (cx.blk.next.zeroExtend 64)), dst := .g link, br := some (.call link x) }))

/-- RET: BPC := a; the return hint affects timing only (R111). -/
def execRet (p : Pred) (a : Opnd) (s : State) : Out :=
  runSlot p s (fun cx => (cx.int a).bind (fun x => .val (s.branch cx (.abs x))))

/-- ENDT: the task stops at the commit (R113). -/
def execEndt (p : Pred) (s : State) : Out := runSlot p s (fun cx => .val (s.branch cx .endt))

/-- YIELD: the task returns to READY at the tail of its round robin (R114). -/
def execYieldT (p : Pred) (s : State) : Out := runSlot p s (fun cx => .val (s.branch cx .yielded))

/-- PARK: waits for a wake bit within the mask a[15:0], 0 standing for all (R115). -/
def execPark (p : Pred) (a : Opnd) (s : State) : Out :=
  runSlot p s (fun cx => (cx.int a).bind (fun x =>
    .val (s.branch cx (.park (if x.extractLsb' 0 16 = 0 then 0xFFFF else x.extractLsb' 0 16)))))

/-- TRAP n: the block commits in full, then the handler is entered (R116). -/
def execTrap (p : Pred) (n : BitVec 8) (s : State) : Out := runSlot p s (fun cx => .val (s.branch cx (.trap n)))

/-- A system register as RDS reads it: SY.PRI and SY.PMSEL as at the block's start, which another task may have changed since (R96). -/
def Cx.rds (cx : Cx) (s : State) (n : Nat) : BitVec 64 :=
  if n = 0x002 then cx.blk.pri0.zeroExtend 64
  else if n = 0x101 then cx.blk.pmsel0.zeroExtend 64
  else if n = 0x000 then cx.blk.bpc.zeroExtend 64
  else s.sysRead cx.p cx.t n

/-- RDS (R96, R119). -/
def execRds (p : Pred) (d : Dst) (num : BitVec 12) (s : State) : Out :=
  runSlot p s (fun cx => .val (s.result cx d (.int (cx.rds s num.toNat))))

/-- WRS: commit-point; the register takes the value at the commit (R96, R119). -/
def execWrs (p : Pred) (num : BitVec 12) (a : Opnd) (s : State) : Out :=
  runSlot p s (fun cx => (cx.int a).bind (fun x => .val (s.capture cx { kind := .wrs num.toNat x })))

/-- TRET: BPC := the frame header's BPC at the commit (R118). -/
def execTret (p : Pred) (s : State) : Out := runSlot p s (fun cx => .val (s.branch cx .tret))

/-- TRET.AT: BPC := b (R118). -/
def execTretAt (p : Pred) (b : Opnd) (s : State) : Out :=
  runSlot p s (fun cx => (cx.int b).bind (fun x => .val (s.branch cx (.tretAt x))))

end Sys2Proof.Machine
end

