-- ==== Sys2Proof/Machine/Fp.lean ====
section
/-! DEFINITION. Floating-point numbers: the formats of R26 to R28, exact values, rounding once (R36, R37), and the tag rules of R43 and R44. -/

namespace Sys2Proof.Machine

open Sys2Proof

/-- How a format uses its all-ones exponent (R27). -/
inductive FpKind where
  | ieee | e4m3 | e2m1
  deriving DecidableEq, Repr

/-- A floating-point format (R26): exponent bits, fraction bits, and its kind. -/
structure FpFmt where
  ew : Nat
  fw : Nat
  kind : FpKind
  deriving DecidableEq, Repr

/-- FP64. -/
def fp64 : FpFmt := ⟨11, 52, .ieee⟩
/-- FP32. -/
def fp32 : FpFmt := ⟨8, 23, .ieee⟩
/-- FP16. -/
def fp16 : FpFmt := ⟨5, 10, .ieee⟩
/-- BF16. -/
def bf16 : FpFmt := ⟨8, 7, .ieee⟩
/-- E5M2. -/
def e5m2 : FpFmt := ⟨5, 2, .ieee⟩
/-- E4M3. -/
def e4m3 : FpFmt := ⟨4, 3, .e4m3⟩
/-- E2M1. -/
def e2m1 : FpFmt := ⟨2, 1, .e2m1⟩

/-- The format a code of R78 names. -/
def fmtOf (f : Fmt) : FpFmt :=
  match f with
  | .f32 => fp32
  | .f64 => fp64
  | .bf16 => bf16
  | .f16 => fp16

/-- The precision p (R26). -/
def FpFmt.p (f : FpFmt) : Nat := f.fw + 1
/-- The bias (R26). -/
def FpFmt.bias (f : FpFmt) : Int := 2 ^ (f.ew - 1) - 1
/-- The exponent of the smallest normal. -/
def FpFmt.emin (f : FpFmt) : Int := 1 - f.bias
/-- The width in bits. -/
def FpFmt.width (f : FpFmt) : Nat := 1 + f.ew + f.fw

/-- The canonical NaN (R27, R40); E2M1 has none. -/
def FpFmt.qnan (f : FpFmt) : BitVec 64 :=
  match f.kind with
  | .e4m3 => 0x7F
  | _ => BitVec.ofNat 64 ((2 ^ f.ew - 1) * 2 ^ f.fw + 2 ^ (f.fw - 1))

/-- Infinity of a sign. -/
def FpFmt.inf (f : FpFmt) (neg : Bool) : BitVec 64 :=
  BitVec.ofNat 64 ((if neg then 2 ^ (f.ew + f.fw) else 0) + (2 ^ f.ew - 1) * 2 ^ f.fw)

/-- The largest finite magnitude as a code without sign. -/
def FpFmt.maxCode (f : FpFmt) : Nat :=
  match f.kind with
  | .ieee => (2 ^ f.ew - 1) * 2 ^ f.fw - 1
  | .e4m3 => 0x7E
  | .e2m1 => 0x7

/-- What a code stands for (R27): a finite value is (-1)^neg m 2^e. -/
inductive FVal where
  | nan (sig : Bool)
  | inf (neg : Bool)
  | fin (neg : Bool) (m : Nat) (e : Int)
  deriving DecidableEq, Repr

/-- The value of a code (R27). -/
def FpFmt.dec (f : FpFmt) (b : Nat) : FVal :=
  let neg := b / 2 ^ (f.ew + f.fw) % 2 = 1
  let e := b / 2 ^ f.fw % 2 ^ f.ew
  let fr := b % 2 ^ f.fw
  if f.kind = .ieee ∧ e = 2 ^ f.ew - 1 then
    (if fr = 0 then .inf neg else .nan (f.fw ≠ 2 ∧ fr / 2 ^ (f.fw - 1) = 0))
  else if f.kind = .e4m3 ∧ e = 15 ∧ fr = 7 then .nan false
  else if e = 0 then .fin neg fr (f.emin - f.fw)
  else .fin neg (2 ^ f.fw + fr) ((e : Int) - f.bias - f.fw)

/-- NaN. -/
def FVal.isNan : FVal → Bool
  | .nan _ => true
  | _ => false
/-- A signalling NaN. -/
def FVal.isSnan : FVal → Bool
  | .nan b => b
  | _ => false
/-- Infinity. -/
def FVal.isInf : FVal → Bool
  | .inf _ => true
  | _ => false
/-- Zero. -/
def FVal.isZero : FVal → Bool
  | .fin _ m _ => m == 0
  | _ => false
/-- Finite, zero included. -/
def FVal.isFin : FVal → Bool
  | .fin .. => true
  | _ => false
/-- The sign. -/
def FVal.neg : FVal → Bool
  | .nan _ => false
  | .inf n => n
  | .fin n _ _ => n
/-- The same value with its sign inverted. -/
def FVal.flip : FVal → FVal
  | .nan b => .nan b
  | .inf n => .inf (!n)
  | .fin n m e => .fin (!n) m e
/-- The same magnitude, positive. -/
def FVal.mag : FVal → FVal
  | .nan b => .nan b
  | .inf _ => .inf false
  | .fin _ m e => .fin false m e

/-- E(x) of a finite non-zero value (R43): the position of its leading bit. -/
def FVal.expo : FVal → Int
  | .fin _ m e => (Nat.log2 m : Int) + e
  | _ => 0

/-- An exact real: (-1)^neg (m + d) 2^e, where d lies strictly between 0 and 1 if sticky, and is 0 otherwise. -/
structure Exact where
  neg : Bool
  m : Nat
  e : Int
  sticky : Bool := false
  deriving DecidableEq, Repr

/-- Flags as SY.FCTL[7:3] holds them (R39): NV in bit 4, then DZ, OF, UF, NX. -/
abbrev FFlags := BitVec 5

/-- NV. -/
def fNV : FFlags := 16
/-- DZ. -/
def fDZ : FFlags := 8
/-- OF. -/
def fOF : FFlags := 4
/-- UF. -/
def fUF : FFlags := 2
/-- NX. -/
def fNX : FFlags := 1

/-- Whether rounding goes away from zero (R36), from the sign, the kept integer's oddness, and how the discarded part compares
with one half (0 below, 1 equal, 2 above). Code 5 never reaches it. -/
def roundUp (r : Rnd) (neg odd : Bool) (cmp : Nat) : Bool :=
  match r with
  | .rne => cmp == 2 || (cmp == 1 && odd)
  | .rna => cmp ≥ 1
  | .rtz => false
  | .rup => !neg
  | .rdn => neg
  | .dyn => false

/-- An exact real rounded to a multiple of 2^u: the multiple, and whether anything was lost. -/
def roundAt (r : Rnd) (x : Exact) (u : Int) : Nat × Bool :=
  if u ≤ x.e then (x.m * 2 ^ (x.e - u).toNat, x.sticky)
  else
    let s := (u - x.e).toNat
    let k := x.m / 2 ^ s
    let rem := x.m % 2 ^ s
    let half := 2 ^ (s - 1)
    let cmp := if rem < half then 0 else if half < rem then 2 else if x.sticky then 2 else 1
    let lost := rem != 0 || x.sticky
    (if lost && roundUp r x.neg (k % 2 == 1) cmp then k + 1 else k, lost)

/-- The code of the value k 2^u, which the format holds exactly. -/
def FpFmt.pack (f : FpFmt) (neg : Bool) (k : Nat) (u : Int) : Nat :=
  let sgn := if neg then 2 ^ (f.ew + f.fw) else 0
  if k = 0 then sgn
  else
    let ex : Int := (Nat.log2 k : Int) + u
    let grid := (if ex < f.emin then f.emin else ex) - f.fw
    let fr := if grid ≤ u then k * 2 ^ (u - grid).toNat else k / 2 ^ (grid - u).toNat
    if ex < f.emin then sgn + fr else sgn + (ex + f.bias).toNat * 2 ^ f.fw + (fr - 2 ^ f.fw)

/-- A rounded result: code, flags of R37, whether it was rounded, whether it overflowed. -/
structure Rounded where
  bits : BitVec 64
  flags : FFlags
  inexact : Bool
  ovf : Bool
  deriving DecidableEq, Repr

/-- The overflow result of R37 for a format with infinity. -/
def overflowTo (f : FpFmt) (r : Rnd) (neg : Bool) : BitVec 64 :=
  let toInf := match r with
    | .rtz => false
    | .rup => !neg
    | .rdn => neg
    | _ => true
  if toInf then f.inf neg else BitVec.ofNat 64 ((if neg then 2 ^ (f.ew + f.fw) else 0) + f.maxCode)

/-- R37: an exact real rounded once to q significant bits within a format, in a mode. A format without infinity gives its
largest magnitude on overflow (R38 then says what the form makes of it). -/
def FpFmt.round (f : FpFmt) (q : Nat) (r : Rnd) (x : Exact) : Rounded :=
  if x.m = 0 ∧ !x.sticky then ⟨BitVec.ofNat 64 (f.pack x.neg 0 0), 0, false, false⟩
  else
    let ex : Int := (Nat.log2 x.m : Int) + x.e
    let u0 : Int := ex - q + 1
    let grid : Int := f.emin - f.fw
    let u := if u0 < grid then grid else u0
    let (k, lost) := roundAt r x u
    let (mx, me) := match f.dec f.maxCode with
      | .fin _ m e => (m, e)
      | _ => (0, 0)
    let lo := min u me
    if k * 2 ^ (u - lo).toNat > mx * 2 ^ (me - lo).toNat then
      ⟨if f.kind = .ieee then overflowTo f r x.neg else BitVec.ofNat 64 ((if x.neg then 2 ^ (f.ew + f.fw) else 0) + f.maxCode),
       fOF ||| fNX, true, true⟩
    else
      let k0 := (roundAt r x u0).1
      let tiny := if k0 = 0 then true else decide ((Nat.log2 k0 : Int) + u0 < f.emin)
      ⟨BitVec.ofNat 64 (f.pack x.neg k u), (if lost then fNX else 0) ||| (if lost && tiny then fUF else 0), lost, false⟩

/-- A floating-point result with its tag before the significance check: bits, flags, tag. -/
structure FpRes where
  bits : BitVec 64
  flags : FFlags
  tag : Nat
  deriving DecidableEq, Repr

/-- min(sig, p - 1) for a rounded result (R43). -/
def capTag (p : Nat) (inexact : Bool) (sig : Nat) : Nat := if inexact then min sig (p - 1) else sig

/-- A NaN or infinite result has tag 0, whatever the operation (R43). -/
def FpFmt.result (f : FpFmt) (bits : BitVec 64) (flags : FFlags) (tag : Nat) : FpRes :=
  ⟨bits, flags, if (f.dec bits.toNat).isFin then tag else 0⟩

/-- The canonical NaN with its flags. -/
def FpFmt.nanRes (f : FpFmt) (flags : FFlags) : FpRes := ⟨f.qnan, flags, 0⟩

/-- NV if any of the values is a signalling NaN. -/
def snanFlag (xs : List FVal) : FFlags := if xs.any FVal.isSnan then fNV else 0

/-- L(x) of a non-zero value with its tag (R43). -/
def lowBit (x : FVal) (sig : Nat) : Int := x.expo - sig + 1

/-- The add rule of R44 before the cap: the operands with their tags, the rounded result, p. DESIGN CHOICE (log 67): R43 defines E for
non-zero values and R44 gives the tag of an exact zero alone; a sum of add, FMA or VFMA that underflow rounds to zero takes tag 0. -/
def addTag (x : FVal) (sx : Nat) (y : FVal) (sy : Nat) (r : FVal) (p : Nat) : Nat :=
  if r.isZero && x.isZero && y.isZero then min sx sy
  else if r.isZero then 0
  else
    let l := if x.isZero then lowBit y sy else if y.isZero then lowBit x sx
      else max (lowBit x sx) (lowBit y sy)
    min p (r.expo - l + 1).toNat

/-- The exact sum of two finite values; the sign of an exact zero by R41. -/
def exactAdd (r : Rnd) (xn : Bool) (xm : Nat) (xe : Int) (yn : Bool) (ym : Nat) (ye : Int) : Exact :=
  let e := min xe ye
  let a : Int := (if xn then -1 else 1) * (xm * 2 ^ (xe - e).toNat : Nat)
  let b : Int := (if yn then -1 else 1) * (ym * 2 ^ (ye - e).toNat : Nat)
  let t := a + b
  if t = 0 then ⟨if xm = 0 ∧ ym = 0 ∧ xn = yn then xn else r == .rdn, 0, 0, false⟩
  else ⟨t < 0, t.natAbs, e, false⟩

/-- The sum of two values of which neither is NaN, with the tag by the add rule (R44, R123, R126). -/
def addVals (f : FpFmt) (r : Rnd) (x : FVal) (sx : Nat) (y : FVal) (sy : Nat) : FpRes :=
  match x, y with
  | .fin xn xm xe, .fin yn ym ye =>
    let q := f.round f.p r (exactAdd r xn xm xe yn ym ye)
    f.result q.bits q.flags (capTag f.p q.inexact (addTag x sx y sy (f.dec q.bits.toNat) f.p))
  | .inf xn, .inf yn => if xn = yn then ⟨f.inf xn, 0, 0⟩ else f.nanRes fNV
  | .inf xn, _ => ⟨f.inf xn, 0, 0⟩
  | _, .inf yn => ⟨f.inf yn, 0, 0⟩
  | _, _ => f.nanRes 0

/-- FADD (R123). -/
def fpAdd (f : FpFmt) (r : Rnd) (x : FVal) (sx : Nat) (y : FVal) (sy : Nat) : FpRes :=
  if x.isNan || y.isNan then f.nanRes (snanFlag [x, y]) else addVals f r x sx y sy

/-- FSUB: FADD with the sign of y inverted (R123). -/
def fpSub (f : FpFmt) (r : Rnd) (x : FVal) (sx : Nat) (y : FVal) (sy : Nat) : FpRes := fpAdd f r x sx y.flip sy

/-- FMUL (R123, R126). -/
def fpMul (f : FpFmt) (r : Rnd) (x : FVal) (sx : Nat) (y : FVal) (sy : Nat) : FpRes :=
  let n := x.neg != y.neg
  if x.isNan || y.isNan then f.nanRes (snanFlag [x, y])
  else match x, y with
  | .fin _ xm xe, .fin _ ym ye =>
    let q := f.round f.p r ⟨n, xm * ym, xe + ye, false⟩
    f.result q.bits q.flags (capTag f.p q.inexact (min sx sy))
  | _, _ => if x.isZero || y.isZero then f.nanRes fNV else ⟨f.inf n, 0, 0⟩

/-- FFMA (R124): one rounding of x y + z. -/
def fpFma (f : FpFmt) (r : Rnd) (x : FVal) (sx : Nat) (y : FVal) (sy : Nat) (z : FVal) (sz : Nat) : FpRes :=
  let n := x.neg != y.neg
  if (x.isZero && y.isInf) || (x.isInf && y.isZero) then f.nanRes fNV
  else if x.isNan || y.isNan || z.isNan then f.nanRes (snanFlag [x, y, z])
  else match x, y with
  | .fin _ xm xe, .fin _ ym ye => addVals f r (.fin n (xm * ym) (xe + ye)) (min sx sy) z sz
  | _, _ => addVals f r (.inf n) 0 z sz

/-- The quotient of two positive integers as an exact real with enough bits for every format. -/
def exactDiv (neg : Bool) (a : Nat) (ea : Int) (b : Nat) (eb : Int) : Exact :=
  let n := a * 2 ^ (Nat.log2 b + 130)
  ⟨neg, n / b, ea - eb - ((Nat.log2 b + 130 : Nat) : Int), n % b != 0⟩

/-- FDIV (R123, R126). -/
def fpDiv (f : FpFmt) (r : Rnd) (x : FVal) (sx : Nat) (y : FVal) (sy : Nat) : FpRes :=
  let n := x.neg != y.neg
  if x.isNan || y.isNan then f.nanRes (snanFlag [x, y])
  else match x, y with
  | .fin _ xm xe, .fin _ ym ye =>
    if ym = 0 then (if xm = 0 then f.nanRes fNV else ⟨f.inf n, fDZ, 0⟩)
    else
      let q := f.round f.p r (exactDiv n xm xe ym ye)
      f.result q.bits q.flags (capTag f.p q.inexact (min sx sy))
  | .inf _, .inf _ => f.nanRes fNV
  | .inf _, _ => ⟨f.inf n, 0, 0⟩
  | _, _ => ⟨BitVec.ofNat 64 (f.pack n 0 0), 0, min sx sy⟩

/-- Integer square root, one bit at a time from bit k down. -/
def isqrtFrom (n : Nat) (acc : Nat) : Nat → Nat
  | 0 => if (acc + 1) * (acc + 1) ≤ n then acc + 1 else acc
  | k + 1 => isqrtFrom n (if (acc + 2 ^ (k + 1)) * (acc + 2 ^ (k + 1)) ≤ n then acc + 2 ^ (k + 1) else acc) k

/-- The integer square root. -/
def isqrt (n : Nat) : Nat := isqrtFrom n 0 (Nat.log2 n / 2 + 1)

/-- The square root of m 2^e as an exact real. -/
def exactSqrt (m : Nat) (e : Int) : Exact :=
  let odd := e % 2 = 1
  let n := (if odd then 2 * m else m) * 2 ^ 160
  let s := isqrt n
  ⟨false, s, ((if odd then e - 1 else e) / 2) - 80, s * s != n⟩

/-- FSQRT (R125). -/
def fpSqrt (f : FpFmt) (r : Rnd) (x : FVal) (sx : Nat) : FpRes :=
  match x with
  | .nan sg => f.nanRes (if sg then fNV else 0)
  | .inf n => if n then f.nanRes fNV else ⟨f.inf false, 0, 0⟩
  | .fin n m e =>
    if m = 0 then ⟨BitVec.ofNat 64 (f.pack n 0 0), 0, min (sx + 1) f.p⟩
    else if n then f.nanRes fNV
    else
      let q := f.round f.p r (exactSqrt m e)
      f.result q.bits q.flags (capTag f.p q.inexact (min (sx + 1) f.p))

/-- The order of two finite or infinite values: less, equal or greater in value (zeros equal). -/
def fpOrd (x y : FVal) : Ordering :=
  match x, y with
  | .fin xn xm xe, .fin yn ym ye =>
    let e := min xe ye
    let a : Int := (if xn then -1 else 1) * (xm * 2 ^ (xe - e).toNat : Nat)
    let b : Int := (if yn then -1 else 1) * (ym * 2 ^ (ye - e).toNat : Nat)
    if a < b then .lt else if b < a then .gt else .eq
  | .inf xn, .inf yn => if xn = yn then .eq else if xn then .lt else .gt
  | .inf xn, _ => if xn then .lt else .gt
  | _, .inf yn => if yn then .gt else .lt
  | _, _ => .eq

/-- The order used by FMNX: negative zero below positive zero (R128). -/
def fpOrdZ (x y : FVal) : Ordering :=
  match fpOrd x y with
  | .eq => if x.neg && !y.neg then .lt else if !x.neg && y.neg then .gt else .eq
  | o => o

/-- Which operand FMNX selects (R128): true for A. `big` for the MAX forms, `mg` for the magnitude forms. -/
def mnxPickA (big mg : Bool) (x y : FVal) : Bool :=
  let o := fpOrdZ x y
  let byVal := if big then o != .lt else o != .gt
  if mg then (match fpOrd x.mag y.mag with
    | .eq => byVal
    | .lt => !big
    | .gt => big)
  else byVal

/-- FMNX (R128): a selection; two NaNs give the canonical NaN with tag 0. A selected infinity has tag 0 by R43, whatever the operation (log 67). -/
def fpMnx (f : FpFmt) (big mg : Bool) (xb : BitVec 64) (sx : Nat) (yb : BitVec 64) (sy : Nat) : FpRes :=
  let x := f.dec xb.toNat
  let y := f.dec yb.toNat
  let fl := snanFlag [x, y]
  if x.isNan && y.isNan then f.nanRes fl
  else if x.isNan then f.result yb fl sy
  else if y.isNan then f.result xb fl sx
  else if mnxPickA big mg x y then f.result xb fl sx else f.result yb fl sy

/-- The forms of FCMP (R129). -/
inductive FCmp where
  | eq | lt | le | un | eqs
  deriving DecidableEq, Repr

/-- FCMP (R129): the PRED and the flags. -/
def fpCmp (k : FCmp) (x y : FVal) : Bool × FFlags :=
  let anyNan := x.isNan || y.isNan
  let quiet := snanFlag [x, y]
  let loud := if anyNan then fNV else 0
  match k with
  | .eq => (!anyNan && fpOrd x y == .eq, quiet)
  | .lt => (!anyNan && fpOrd x y == .lt, loud)
  | .le => (!anyNan && fpOrd x y != .gt, loud)
  | .un => (anyNan, quiet)
  | .eqs => (!anyNan && fpOrd x y == .eq, loud)

/-- A value converted into a format with infinity (R38, R130): code, flags, whether rounded. -/
def fpConv (f : FpFmt) (r : Rnd) (x : FVal) : Rounded :=
  match x with
  | .nan sg => ⟨f.qnan, if sg then fNV else 0, false, false⟩
  | .inf n => ⟨f.inf n, 0, false, false⟩
  | .fin n m e => f.round f.p r ⟨n, m, e, false⟩

/-- FCVT (R130) from a value with its tag. -/
def fpCvt (f : FpFmt) (r : Rnd) (x : FVal) (sx : Nat) : FpRes :=
  let q := fpConv f r x
  f.result q.bits q.flags (capTag f.p q.inexact (min sx f.p))

/-- An exact real rounded to an integer in a mode (R131). -/
def roundInt (r : Rnd) (n : Bool) (m : Nat) (e : Int) : Int × Bool :=
  let (k, lost) := roundAt r ⟨n, m, e, false⟩ 0
  (if n then -(k : Int) else k, lost)

/-- A value converted to an integer between bounds (R131, R146): NaN gives 0. -/
def fpToInt (r : Rnd) (lo hi : Int) (x : FVal) : Int × FFlags :=
  match x with
  | .nan _ => (0, fNV)
  | .inf n => (if n then lo else hi, fNV)
  | .fin n m e =>
    let (k, lost) := roundInt r n m e
    if k < lo then (lo, fNV) else if hi < k then (hi, fNV) else (k, if lost then fNX else 0)

/-- An integer converted to a format (R131): tag p if exact, p - 1 if rounded. DESIGN CHOICE (log 67): 0 gives +0 in every mode; R131 states no
sign. -/
def intToFp (f : FpFmt) (r : Rnd) (v : Int) : FpRes :=
  let q := f.round f.p r ⟨v < 0, v.natAbs, 0, false⟩
  f.result q.bits q.flags (if q.inexact then f.p - 1 else f.p)

/-- FCLS (R133): the bit of the class. -/
def fpClass (f : FpFmt) (x : FVal) : Nat :=
  match x with
  | .nan sg => if sg then 8 else 9
  | .inf n => if n then 0 else 7
  | .fin n m e =>
    if m = 0 then (if n then 3 else 4)
    else if (Nat.log2 m : Int) + e < f.emin then (if n then 2 else 5)
    else if n then 1 else 6

/-- The bits of a register that a format reads (R120). -/
def FpFmt.take (f : FpFmt) (b : BitVec 64) : BitVec 64 := BitVec.ofNat 64 (b.toNat % 2 ^ f.width)

/-- A rounded FP32 result of a cell or a south accumulator: flushed to a zero of its sign when subnormal (R41). -/
def flushSub (b : BitVec 32) : BitVec 32 :=
  if b.extractLsb' 23 8 = 0 then b &&& 0x80000000 else b

end Sys2Proof.Machine
end

