-- ==== Sys2Proof/Machine/Flags.lean ====
section
/-! DEFINITION. The flags of R39 and the significance check of R49, R136 and R138: how a slot with FP results is done. -/

namespace Sys2Proof.Machine

open Sys2Proof

/-- Lane i of a vector register. -/
def VReg.lane (v : VReg) (i : Nat) : BitVec 32 := v.lanes.extractLsb' (32 * i) 32

/-- The tag of lane i as stored. -/
def VReg.tag (v : VReg) (i : Nat) : BitVec 6 := v.tags.extractLsb' (6 * i) 6

/-- The tag of lane i as FP32 reads it (R42). -/
def VReg.tag32 (v : VReg) (i : Nat) : Nat := min (v.tag i).toNat 24

/-- Sixteen lanes concatenated, lane 0 lowest. -/
def packLanes (f : Nat → BitVec 32) : Nat → Nat
  | 0 => 0
  | n + 1 => packLanes f n + (f n).toNat * 2 ^ (32 * n)

/-- Sixteen tags concatenated, lane 0 lowest. -/
def packTags (f : Nat → Nat) : Nat → Nat
  | 0 => 0
  | n + 1 => packTags f n + (f n % 64) * 2 ^ (6 * n)

/-- A vector register from its lanes and tags. -/
def VReg.mk16 (f : Nat → BitVec 32) (g : Nat → Nat) : VReg :=
  ⟨BitVec.ofNat 512 (packLanes f 16), BitVec.ofNat 96 (packTags g 16)⟩

/-- One result that R49 checks: lane, whether finite, tag, and the value a frame reports. -/
structure Checked where
  lane : Nat
  fin : Bool
  tag : Nat
  info : BitVec 32
  deriving DecidableEq, Repr

/-- The threshold of SY.SIGCTL. -/
def Task.theta (t : Task) : Nat := (t.sigctl.extractLsb' 0 6).toNat
/-- The significance trap enable of SY.SIGCTL. -/
def Task.sigTrap (t : Task) : Bool := t.sigctl.getLsbD 6

/-- The lowest lane that triggers (R49, R50): finite, with a tag below the threshold. -/
def Task.trigger (t : Task) (cs : List Checked) : Option Checked := cs.find? (fun c => c.fin && decide (c.tag < t.theta))

/-- The INFO word of a SIG trap (R221). -/
def sigInfo (c : Checked) : BitVec 64 := BitVec.ofNat 64 ((c.tag % 64) * 2 ^ 32 + c.info.toNat)

/-- A slot done with a value, flags and checked results (R39, R49): a trigger aborts the block with SIG while the trap is enabled, which sets
SIGLOST when the trap is taken (R69), and marks SIGLOST for the commit while it is not. Performance counter `unit` counts the execution (R397).
DESIGN CHOICE (log 73): a slot that triggers with the trap enabled and also writes a register that an executed slot writes (R65) takes SIG, for
R50 and R70 order causes by slot and lane only. -/
def State.fpResult (s : State) (cx : Cx) (d : Dst) (v : Val) (fl : FFlags) (cs : List Checked) (unit : Nat) : State :=
  let s := s.bump cx.p unit 1
  match cx.task.trigger cs with
  | none => s.finish cx { val := some v, dst := d, flags := fl }
  | some c =>
    let s := s.bump cx.p 30 (cs.filter (fun c => c.fin && decide (c.tag < cx.task.theta))).length
    if cx.task.sigTrap then
      s.abortSlot cx { cause := .sig, lane := c.lane, info := sigInfo c }
    else s.finish cx { val := some v, dst := d, flags := fl, siglost := true }

/-- The value of an FP result as its instruction would write it to an f register (R90, R120). -/
def FpRes.reg (r : FpRes) : FReg := ⟨r.bits, BitVec.ofNat 6 r.tag⟩

/-- A checked scalar FP result (R136). -/
def FpRes.checked (r : FpRes) (f : FpFmt) : Checked := ⟨0, (f.dec r.bits.toNat).isFin, r.tag, r.bits.extractLsb' 0 32⟩

/-- The value of an FP operand read in a format, and its tag (R42, R120). -/
def FReg.read (r : FReg) (f : FpFmt) : FVal × Nat := (f.dec (f.take r.bits).toNat, min r.tag.toNat f.p)

end Sys2Proof.Machine
end

