-- ==== Sys2Proof/Machine/Pops.lean ====
section
/-! DEFINITION. What lower slots of a block have taken or will take from a queue before a consuming gate of the block (R67, R280, R299, R387). -/

namespace Sys2Proof.Machine

open Sys2Proof

/-- Operand A of a slot that has not executed: null if the slot will not execute. -/
def Cx.pendingA (cx : Cx) (f : Fields) : Rd (BitVec 64) :=
  match f.pred, Opnd.ofCode f.a f.x with
  | some p, some o => (cx.predicate p).bind (fun b => if b then cx.int o else .null)
  | _, _ => .null

/-- Operand B of such a slot. -/
def Cx.pendingB (cx : Cx) (f : Fields) : Rd (BitVec 64) :=
  match Opnd.ofCode f.b f.x with
  | some o => cx.int o
  | none => .null

/-- The sum over the lower slots of what each takes: of an executed slot by its recorded consumption, of one that has not executed by its
word. It waits while a lower slot's share is not yet known. -/
def Cx.lowerSum (cx : Cx) (taken : Pop → Nat) (will : Fields → Rd Nat) : Rd Nat :=
  (List.range cx.k).foldl (fun acc j => acc.bind (fun n =>
    match cx.blk.slots[j]?, cx.blk.words[j]? with
    | some r, some w =>
      (match r.st with
      | .nulled => .val n
      | .done => .val (n + (match r.pop with
        | some q => taken q
        | none => 0))
      | .waiting => (match will (Fields.ofWord w) with
        | .val m => .val (n + m)
        | .null => .val n
        | .wait => .wait))
    | _, _ => .val n)) (.val 0)

/-- Whether a word is a form (OP, FN). -/
def isForm (f : Fields) (op fn : Nat) : Bool := f.op.toNat == op && f.fn.toNat == fn

end Sys2Proof.Machine
end

