-- ==== Sys2Proof/Machine/FieldBase.lean ====
section
/-! DEFINITION. The shape of fields (R235 to R237, R251, R252), and the state words a program reads of them. -/

namespace Sys2Proof.Machine

open Sys2Proof

/-- The configured field with a handle (R274). -/
def State.liveField (s : State) (h : BitVec 32) : Option Field :=
  if h == 0xFFFFFFFF then none else s.fields.find? (fun f => f.handle == h)

/-- The field a plot belongs to (R95). -/
def State.fieldOf (s : State) (p : Nat) : Option Field := s.liveField (s.plot p).fu.handle

/-- A field changed by a function. -/
def State.onField (s : State) (h : BitVec 32) (f : Field → Field) : State :=
  { s with fields := s.fields.map (fun x => if x.handle == h then f x else x) }

/-- The field units of a plot changed by a function. -/
def State.onFu (s : State) (p : Nat) (f : FUnit → FUnit) : State := s.onPlot p (fun x => { x with fu := f x.fu })

/-- Role WEST of SY.FIELD (R95). -/
def FUnit.west? (u : FUnit) : Bool := u.role.getLsbD 0
/-- Role NORTH. -/
def FUnit.north? (u : FUnit) : Bool := u.role.getLsbD 1
/-- Role SOUTH. -/
def FUnit.south? (u : FUnit) : Bool := u.role.getLsbD 2

/-- The role bits of the plot at field row r and column c (R95, R235). -/
def Field.roleAt (f : Field) (r c : Nat) : BitVec 5 :=
  let w := c == 0
  let n := r == 0
  let so := r + 1 == f.rows
  BitVec.ofNat 5 ((if w then 1 else 0) + (if n then 2 else 0) + (if so then 4 else 0) + (if w || n || so then 0 else 8) +
    (if r == f.mrow && c == f.mcol then 16 else 0))

/-- The logical name of a field's plot. -/
def Field.nameAt (f : Field) (r c : Nat) : BitVec 32 := mkName f.rect (f.row + r) (f.col + c)

/-- The plot at field row r and column c. -/
def State.fieldPlot (s : State) (f : Field) (r c : Nat) : Nat := (s.resolve (f.nameAt r c)).getD 0xFFFF

/-- The field rows and columns of all plots. -/
def Field.cellsOf (f : Field) : List (Nat × Nat) :=
  (List.range f.rows).flatMap (fun r => (List.range f.cols).map (fun c => (r, c)))

/-- The field row and column of a plot of a field. -/
def State.fieldPos (s : State) (f : Field) (p : Nat) : Option (Nat × Nat) :=
  f.cellsOf.find? (fun x => s.fieldPlot f x.1 x.2 == p)

/-- Whether physical row g of a field is bypassed (R236). -/
def State.rowBypassed (s : State) (f : Field) (g : Nat) : Bool :=
  (List.range f.cols).any (fun c => (s.plot (s.fieldPlot f (g / 16) c)).rowBy.getLsbD (g % 16))

/-- Whether physical column h of a field is bypassed (R236). -/
def State.colBypassed (s : State) (f : Field) (h : Nat) : Bool :=
  (List.range f.rows).any (fun r => (s.plot (s.fieldPlot f r (h / 16))).colBy.getLsbD (h % 16))

/-- The available rows, from north to south (R236). -/
def State.availRows (s : State) (f : Field) : List Nat := (List.range (16 * f.rows)).filter (fun g => !s.rowBypassed f g)

/-- The logical rows: physical row gr(i) at index i (R237). -/
def State.logRows (s : State) (f : Field) : List Nat := (s.availRows f).take f.lr

/-- The logical columns: physical column hc(j) at index j (R236). -/
def State.logCols (s : State) (f : Field) : List Nat := (List.range (16 * f.cols)).filter (fun h => !s.colBypassed f h)

/-- Depth of a mode: elements per weight register (R237). -/
def depthOf (mode : Nat) : Nat := if mode = 1 then 16 else if mode = 2 then 32 else 8

/-- The tile t of a plot. -/
def FUnit.tile (u : FUnit) (t : Nat) : Tile := u.tiles.get t {}

/-- A tile replaced. -/
def FUnit.setTile (u : FUnit) (t : Nat) (x : Tile) : FUnit := { u with tiles := u.tiles.put t x }

/-- Whether a tile is being emptied by its drain writer, or will be at once. -/
def Tile.emptying (t : Tile) : Bool := t.draining.isSome || (t.auto && t.st == .full)

/-- A tile cleared (R253). -/
def FUnit.clearTile (u : FUnit) (t : Nat) : FUnit :=
  let x := u.tile t
  let inTile := fun (r : Nat) => decide (x.base ≤ r) && decide (r < x.base + x.rows)
  let acc : SMap (BitVec 40) := u.acc.filter (fun e => !inTile (e.1 / 16))
  let acc := if u.accLost = 0 then acc
    else (List.range (16 * x.rows)).foldl (fun (m : SMap (BitVec 40)) i => SMap.put m (16 * x.base + i) 0) acc
  { u with acc := acc, poison := u.poison.filter (fun r => !inTile r) }.setTile t
    { x with st := .empty, prog := 0, cur := 0, eos := false, pend := [] }

/-- The lowest marked array row of a tile's range, relative to BASE (R256). -/
def FUnit.prow (u : FUnit) (t : Nat) : Option Nat :=
  (List.range (u.tile t).rows).find? (fun i => u.poison.contains ((u.tile t).base + i))

/-- Codes of tile states (R252). -/
def TileSt.code : TileSt → Nat
  | .empty => 0 | .accum => 1 | .full => 2

/-- The state word of a tile (R252); 0 for the words of tiles 16 to 63. -/
def FUnit.tileWord (u : FUnit) (t : Nat) : BitVec 64 :=
  if 16 ≤ t then 0
  else
    let x := u.tile t
    BitVec.ofNat 64 (x.st.code * 2^62 + x.prog * 2^50 + x.cur * 2^40 + x.rows * 2^30 + x.base * 2^20 +
      (match u.prow t with
      | some r => r * 2^10 + 2^9
      | none => 0) + (if x.eos then 2^8 else 0))

/-- The stored element of accumulator row r, column h: FP32 in [31:0], peak in [39:32] (R163). -/
def FUnit.accAt (u : FUnit) (r h : Nat) : BitVec 40 :=
  u.acc.get (16 * r + h) (if u.accLost = 0 then 0 else Config.lostAcc u.accLost (16 * r + h))

/-- An accumulator element written; +0 with peak 0 is not listed unless the array was lost (R406). -/
def FUnit.setAcc (u : FUnit) (r h : Nat) (v : BitVec 40) : FUnit :=
  { u with acc := if v = 0 ∧ u.accLost = 0 then u.acc.drop (16 * r + h) else u.acc.put (16 * r + h) v }

/-- A cell whose registers a power state lost (R406, log 29): the register bits are free; nothing is in its queues. -/
def lostCellAt (e k : Nat) : Cell :=
  let w := Config.lostCell e k
  { wAct := w 0 ++ w 1, wLoad := w 2 ++ w 3, gAct := (w 4).extractLsb' 0 32, gLoad := (w 4).extractLsb' 32 32,
    mx := (w 5).extractLsb' 0 8, full := (w 5).getLsbD 8, par := (w 5).getLsbD 9 }

/-- Cell k of a plot. -/
def FUnit.cell (u : FUnit) (k : Nat) : Cell := u.cells.get k (if u.cellLost = 0 then {} else lostCellAt u.cellLost k)

/-- b(x) of R46: clamp(E(x) + 127, 1, 254) of a non-zero finite value, 255 of an infinity or NaN, 0 of a zero. -/
def peakOf (x : FVal) : Nat :=
  if x.isZero then 0 else if !x.isFin then 255 else (max 1 (min 254 (x.expo + 127))).toNat

/-- The tag a drained element gets from its stored peak (R46). -/
def drainTag (e : BitVec 40) : Nat :=
  let x := fp32.dec (e.extractLsb' 0 32).toNat
  if x.isZero || !x.isFin then 0
  else (max 0 (min 23 (23 - ((e.extractLsb' 32 8).toNat : Int) + (peakOf x : Int)))).toNat

/-- A drained row (R280): array row r of the sixteen columns, with tags. -/
def FUnit.drainRow (u : FUnit) (r : Nat) : VReg :=
  VReg.mk16 (fun h => (u.accAt r h).extractLsb' 0 32) (fun h => drainTag (u.accAt r h))

/-- The effective cap of an admission port (R258). -/
def AdmPort.ecap (a : AdmPort) : Nat := min a.ocap a.pcap

/-- The word of R259. -/
def AdmPort.word (a : AdmPort) : BitVec 64 := BitVec.ofNat 64 (a.cnt * 2^48 + a.ocap * 2^32 + a.pcap * 2^16 + a.ecap)

/-- A cap lowered takes effect at once (R258). -/
def AdmPort.clampCnt (a : AdmPort) : AdmPort := { a with cnt := min a.cnt a.ecap }

end Sys2Proof.Machine
end

