-- ==== Sys2Proof/Machine/Integer.lean ====
section
/-! DEFINITION. The integer instructions (R98 to R109). -/

namespace Sys2Proof.Machine

open Sys2Proof

/-! ## What each computes -/

/-- A 32-bit value sign-extended (R99). -/
def sext32 (x : BitVec 32) : BitVec 64 := x.signExtend 64

/-- The low half of a word. -/
def lo32 (x : BitVec 64) : BitVec 32 := x.extractLsb' 0 32

/-- Clamped to int64 (R99). -/
def satS64 (x : Int) : BitVec 64 :=
  if x < -(2 ^ 63) then BitVec.ofInt 64 (-(2 ^ 63)) else if 2 ^ 63 - 1 < x then BitVec.ofInt 64 (2 ^ 63 - 1) else BitVec.ofInt 64 x

/-- Clamped to uint64 (R99). -/
def satU64 (x : Int) : BitVec 64 := if x < 0 then 0 else if 2 ^ 64 - 1 < x then BitVec.allOnes 64 else BitVec.ofInt 64 x

/-- DIVS (R101). -/
def divS (a b : BitVec 64) : BitVec 64 := if b = 0 then BitVec.allOnes 64 else BitVec.ofInt 64 (a.toInt.tdiv b.toInt)
/-- DIVU (R101). -/
def divU (a b : BitVec 64) : BitVec 64 := if b = 0 then BitVec.allOnes 64 else BitVec.ofNat 64 (a.toNat / b.toNat)
/-- REMS (R101). -/
def remS (a b : BitVec 64) : BitVec 64 := if b = 0 then a else BitVec.ofInt 64 (a.toInt.tmod b.toInt)
/-- REMU (R101). -/
def remU (a b : BitVec 64) : BitVec 64 := if b = 0 then a else BitVec.ofNat 64 (a.toNat % b.toNat)

/-- The shift amount b[5:0] (R102). -/
def amount (b : BitVec 64) : Nat := (b.extractLsb' 0 6).toNat

/-- Rotate right by b[5:0] (R102). -/
def rotR (a b : BitVec 64) : BitVec 64 := (a >>> amount b) ||| (a <<< (64 - amount b))

/-- The number of 1 bits among the low n bits. -/
def popCount (a : BitVec 64) : Nat → Nat
  | 0 => 0
  | n + 1 => popCount a n + (if a.getLsbD n then 1 else 0)

/-- Leading zeros, looking from bit n - 1 down. -/
def leadZeros (a : BitVec 64) : Nat → Nat
  | 0 => 0
  | n + 1 => if a.getLsbD n then 0 else leadZeros a n + 1

/-- The bits of a reversed within the low n. -/
def revBits (a : BitVec 64) : Nat → Nat
  | 0 => 0
  | n + 1 => revBits a n + (if a.getLsbD n then 2 ^ (63 - n) else 0)

/-- The bytes of a reversed among the low n. -/
def revBytes (a : BitVec 64) : Nat → Nat
  | 0 => 0
  | n + 1 => revBytes a n + (a.extractLsb' (8 * n) 8).toNat * 2 ^ (8 * (7 - n))

/-- A length field, where 0 means 64 (R105). -/
def fieldLen (x : BitVec 6) : Nat := if x = 0 then 64 else x.toNat

/-- n ones (R105). -/
def ones (n : Nat) : BitVec 64 := BitVec.ofNat 64 (2 ^ n - 1)

/-- EXTU of a with the position and length in b (R105). -/
def extU (a b : BitVec 64) : BitVec 64 := (a >>> amount b) &&& ones (fieldLen (b.extractLsb' 6 6))

/-- EXTS of a with the position and length in b (R105). -/
def extS (a b : BitVec 64) : BitVec 64 :=
  let n := fieldLen (b.extractLsb' 6 6)
  ((a.sshiftRight (amount b)) <<< (64 - n)).sshiftRight (64 - n)

/-- INS of b into a (R105). -/
def insField (a b : BitVec 64) (pos len : BitVec 6) : BitVec 64 :=
  let m := ones (fieldLen len) <<< pos.toNat
  (a &&& ~~~m) ||| ((b <<< pos.toNat) &&& m)

/-- MOVX: a shifted left by 19, with the zero-extended immediate below (R104). -/
def movX (a : BitVec 64) (x : BitVec 19) : BitVec 64 := (a <<< 19) ||| x.zeroExtend 64

/-- A division: its result, and IDZ for the commit when the divisor is zero (R101). -/
def divide (p : Pred) (d : Dst) (a b : Opnd) (s : State) (f : BitVec 64 → BitVec 64 → BitVec 64) : Out :=
  runSlot p s (fun cx => (cx.int a).bind (fun x => (cx.int b).bind (fun y =>
    .val (s.finish cx { val := some (.int (f x y)), dst := d, idz := y == 0 }))))

/-! ## The instructions -/

/-- ADD: modulo 2^64 (R99). -/
def execAdd (p : Pred) (d : Dst) (a b : Opnd) (s : State) : Out := int2 p d a b s (fun x y => x + y)

/-- ADDW: 32-bit wrap, sign-extended (R99). -/
def execAddw (p : Pred) (d : Dst) (a b : Opnd) (s : State) : Out := int2 p d a b s (fun x y => sext32 (lo32 x + lo32 y))

/-- ADDS: clamped to int64 (R99). -/
def execAdds (p : Pred) (d : Dst) (a b : Opnd) (s : State) : Out := int2 p d a b s (fun x y => satS64 (x.toInt + y.toInt))

/-- ADDU: clamped to uint64 (R99). -/
def execAddu (p : Pred) (d : Dst) (a b : Opnd) (s : State) : Out := int2 p d a b s (fun x y => satU64 ((x.toNat : Int) + y.toNat))

/-- SUB: modulo 2^64 (R99). -/
def execSub (p : Pred) (d : Dst) (a b : Opnd) (s : State) : Out := int2 p d a b s (fun x y => x - y)

/-- SUBW: 32-bit wrap, sign-extended (R99). -/
def execSubw (p : Pred) (d : Dst) (a b : Opnd) (s : State) : Out := int2 p d a b s (fun x y => sext32 (lo32 x - lo32 y))

/-- SUBS: clamped to int64 (R99). -/
def execSubs (p : Pred) (d : Dst) (a b : Opnd) (s : State) : Out := int2 p d a b s (fun x y => satS64 (x.toInt - y.toInt))

/-- SUBU: clamped to uint64 (R99). -/
def execSubu (p : Pred) (d : Dst) (a b : Opnd) (s : State) : Out := int2 p d a b s (fun x y => satU64 ((x.toNat : Int) - y.toNat))

/-- MUL: the low 64 bits of the product (R100). -/
def execMul (p : Pred) (d : Dst) (a b : Opnd) (s : State) : Out := int2 p d a b s (fun x y => x * y)

/-- MULW: the low 32 bits of the product of the low halves, sign-extended (R100). -/
def execMulw (p : Pred) (d : Dst) (a b : Opnd) (s : State) : Out := int2 p d a b s (fun x y => sext32 (lo32 x * lo32 y))

/-- MULHS: the high half of the signed product (R100). -/
def execMulhs (p : Pred) (d : Dst) (a b : Opnd) (s : State) : Out := int2 p d a b s (fun x y => BitVec.ofInt 64 ((x.toInt * y.toInt) >>> 64))

/-- MULHU: the high half of the unsigned product (R100). -/
def execMulhu (p : Pred) (d : Dst) (a b : Opnd) (s : State) : Out := int2 p d a b s (fun x y => BitVec.ofNat 64 (x.toNat * y.toNat / 2 ^ 64))

/-- DIVS (R101). -/
def execDivs (p : Pred) (d : Dst) (a b : Opnd) (s : State) : Out := divide p d a b s divS

/-- DIVU (R101). -/
def execDivu (p : Pred) (d : Dst) (a b : Opnd) (s : State) : Out := divide p d a b s divU

/-- REMS (R101). -/
def execRems (p : Pred) (d : Dst) (a b : Opnd) (s : State) : Out := divide p d a b s remS

/-- REMU (R101). -/
def execRemu (p : Pred) (d : Dst) (a b : Opnd) (s : State) : Out := divide p d a b s remU

/-- AND (R102). -/
def execAndI (p : Pred) (d : Dst) (a b : Opnd) (s : State) : Out := int2 p d a b s (fun x y => x &&& y)

/-- OR (R102). -/
def execOrI (p : Pred) (d : Dst) (a b : Opnd) (s : State) : Out := int2 p d a b s (fun x y => x ||| y)

/-- XOR (R102). -/
def execXorI (p : Pred) (d : Dst) (a b : Opnd) (s : State) : Out := int2 p d a b s (fun x y => x ^^^ y)

/-- ANDN (R102). -/
def execAndn (p : Pred) (d : Dst) (a b : Opnd) (s : State) : Out := int2 p d a b s (fun x y => x &&& ~~~y)

/-- ORN (R102). -/
def execOrn (p : Pred) (d : Dst) (a b : Opnd) (s : State) : Out := int2 p d a b s (fun x y => x ||| ~~~y)

/-- XNOR (R102). -/
def execXnor (p : Pred) (d : Dst) (a b : Opnd) (s : State) : Out := int2 p d a b s (fun x y => ~~~(x ^^^ y))

/-- SHL by b[5:0] (R102). -/
def execShl (p : Pred) (d : Dst) (a b : Opnd) (s : State) : Out := int2 p d a b s (fun x y => x <<< amount y)

/-- SHR, zero fill (R102). -/
def execShr (p : Pred) (d : Dst) (a b : Opnd) (s : State) : Out := int2 p d a b s (fun x y => x >>> amount y)

/-- SRA, sign fill (R102). -/
def execSra (p : Pred) (d : Dst) (a b : Opnd) (s : State) : Out := int2 p d a b s (fun x y => x.sshiftRight (amount y))

/-- ROR (R102). -/
def execRor (p : Pred) (d : Dst) (a b : Opnd) (s : State) : Out := int2 p d a b s (fun x y => rotR x y)

/-- MINS (R102). -/
def execMins (p : Pred) (d : Dst) (a b : Opnd) (s : State) : Out := int2 p d a b s (fun x y => if x.sle y then x else y)

/-- MINU (R102). -/
def execMinu (p : Pred) (d : Dst) (a b : Opnd) (s : State) : Out := int2 p d a b s (fun x y => if x.ule y then x else y)

/-- MAXS (R102). -/
def execMaxs (p : Pred) (d : Dst) (a b : Opnd) (s : State) : Out := int2 p d a b s (fun x y => if x.sle y then y else x)

/-- MAXU (R102). -/
def execMaxu (p : Pred) (d : Dst) (a b : Opnd) (s : State) : Out := int2 p d a b s (fun x y => if x.ule y then y else x)

/-- CLZ: 64 for 0 (R103). -/
def execClz (p : Pred) (d : Dst) (a : Opnd) (s : State) : Out := int1 p d a s (fun x => BitVec.ofNat 64 (leadZeros x 64))

/-- CTZ: 64 for 0 (R103). -/
def execCtz (p : Pred) (d : Dst) (a : Opnd) (s : State) : Out := int1 p d a s (fun x => BitVec.ofNat 64 (leadZeros (BitVec.ofNat 64 (revBits x 64)) 64))

/-- POPC (R103). -/
def execPopc (p : Pred) (d : Dst) (a : Opnd) (s : State) : Out := int1 p d a s (fun x => BitVec.ofNat 64 (popCount x 64))

/-- BREV: bit i goes to bit 63 - i (R103). -/
def execBrev (p : Pred) (d : Dst) (a : Opnd) (s : State) : Out := int1 p d a s (fun x => BitVec.ofNat 64 (revBits x 64))

/-- BSWAP: byte i goes to byte 7 - i (R103). -/
def execBswap (p : Pred) (d : Dst) (a : Opnd) (s : State) : Out := int1 p d a s (fun x => BitVec.ofNat 64 (revBytes x 8))

/-- MOVI: the sign-extended immediate (R104). -/
def execMovi (p : Pred) (d : Dst) (x : BitVec 19) (s : State) : Out :=
  runSlot p s (fun cx => .val (s.result cx d (.int (x.signExtend 64))))

/-- MOVX (R104). -/
def execMovx (p : Pred) (d : Dst) (a : Opnd) (x : BitVec 19) (s : State) : Out := int1 p d a s (fun v => movX v x)

/-- EXTU (R105). -/
def execExtu (p : Pred) (d : Dst) (a b : Opnd) (s : State) : Out := int2 p d a b s (fun x y => extU x y)

/-- EXTS (R105). -/
def execExts (p : Pred) (d : Dst) (a b : Opnd) (s : State) : Out := int2 p d a b s (fun x y => extS x y)

/-- INS (R105). -/
def execIns (p : Pred) (d : Dst) (a b : Opnd) (pos len : BitVec 6) (s : State) : Out := int2 p d a b s (fun x y => insField x y pos len)

/-- CMP.EQ (R106). -/
def execCmpEq (p : Pred) (d : Dst) (a b : Opnd) (s : State) : Out := cmp2 p d a b s (fun x y => x == y)

/-- CMP.NE (R106). -/
def execCmpNe (p : Pred) (d : Dst) (a b : Opnd) (s : State) : Out := cmp2 p d a b s (fun x y => x != y)

/-- CMP.LTS (R106). -/
def execCmpLts (p : Pred) (d : Dst) (a b : Opnd) (s : State) : Out := cmp2 p d a b s (fun x y => x.slt y)

/-- CMP.LES (R106). -/
def execCmpLes (p : Pred) (d : Dst) (a b : Opnd) (s : State) : Out := cmp2 p d a b s (fun x y => x.sle y)

/-- CMP.LTU (R106). -/
def execCmpLtu (p : Pred) (d : Dst) (a b : Opnd) (s : State) : Out := cmp2 p d a b s (fun x y => x.ult y)

/-- CMP.LEU (R106). -/
def execCmpLeu (p : Pred) (d : Dst) (a b : Opnd) (s : State) : Out := cmp2 p d a b s (fun x y => x.ule y)

/-- A value of A in the class of B: bits [15:0] of an INT beside a MASK (R54, R107). -/
def Val.beside (x y : Val) : Val :=
  match x, y with
  | .int v, .mask _ => .mask (v.extractLsb' 0 16)
  | v, _ => v

/-- The value SEL gives when A is picked or B is: a ZERO takes the class of the other operand, and a g register beside a MASK supplies MASK
(R54, R107). -/
def selVal (a b : Opnd) (c : Bool) (x y : Val) : Val :=
  if c then (if a == .zero then y.zeroLike else x.beside y) else (if b == .zero then x.zeroLike else y.beside x)

/-- SEL: C ? A : B, nullified when any of the three is null (R107). -/
def execSel (p : Pred) (d : Dst) (a b c : Opnd) (s : State) : Out :=
  runSlot p s (fun cx => (cx.pred c).bind (fun q => (cx.any a).bind (fun x => (cx.any b).bind (fun y =>
    .val (s.result cx d (selVal a b q x y))))))

/-- PAND (R108). -/
def execPand (p : Pred) (d : Dst) (a b : Opnd) (s : State) : Out := pred2 p d a b s (fun x y => x && y)

/-- POR (R108). -/
def execPor (p : Pred) (d : Dst) (a b : Opnd) (s : State) : Out := pred2 p d a b s (fun x y => x || y)

/-- PXOR (R108). -/
def execPxor (p : Pred) (d : Dst) (a b : Opnd) (s : State) : Out := pred2 p d a b s (fun x y => x != y)

/-- PNOT (R108). -/
def execPnot (p : Pred) (d : Dst) (a : Opnd) (s : State) : Out :=
  runSlot p s (fun cx => (cx.pred a).bind (fun x => .val (s.result cx d (.pred (!x)))))

/-- TSTNZ: true when a is not 0 (R108). -/
def execTstnz (p : Pred) (d : Dst) (a : Opnd) (s : State) : Out :=
  runSlot p s (fun cx => (cx.int a).bind (fun x => .val (s.result cx d (.pred (x != 0)))))

/-- MOV: the value with its tags and validity (R109). -/
def execMov (p : Pred) (d : Dst) (a : Opnd) (s : State) : Out :=
  runSlot p s (fun cx => (cx.any a).bind (fun x => .val (s.result cx d x)))

/-- MOVGF: the 64 bits with tag 53 (R109). -/
def execMovgf (p : Pred) (d : Dst) (a : Opnd) (s : State) : Out :=
  runSlot p s (fun cx => (cx.int a).bind (fun x => .val (s.result cx d (.fp ⟨x, 53⟩))))

/-- MOVFG: the 64 bits without the tag (R109). -/
def execMovfg (p : Pred) (d : Dst) (a : Opnd) (s : State) : Out :=
  runSlot p s (fun cx => (cx.fp a).bind (fun x => .val (s.result cx d (.int x.bits))))

end Sys2Proof.Machine
end

