-- ==== Sys2Proof/Machine/MemAccess.lean ====
section
/-! DEFINITION. The memory instructions (R173 to R191): loads, which perform when they execute; stores, AMO, CAS and CST, which
capture their operands for the commit; and the pointer forms. The order in which a load may perform is that of R193, R197, R199 and R208. -/

namespace Sys2Proof.Machine

open Sys2Proof

/-! ## The order of loads -/

/-- What makes a load of each form: its result from the bytes it read (R180, R183, R184, R188). -/
inductive LOut where
  | int (n : Nat) (sgn : Bool)
  | pres
  | fls (fmt : Fmt) (tagged : Bool)
  | vls (tagged : Bool)
  | cld
  deriving DecidableEq, Repr

/-- How a load meets presence: PLAIN and CLD pass it over, WAITF and TAKE wait for full words, PRES reports it. -/
inductive LMode where
  | plain | waitf | take | pres | cld
  deriving DecidableEq, Repr

/-- A load form: destination, ordering fields, size, alignment, rights, mode, result. -/
structure LoadSpec where
  dst : Dst
  mx : MX
  n : Nat
  align : Nat
  need : BitVec 8
  mode : LMode
  out : LOut
  deriving DecidableEq, Repr

/-- Whether a mode needs a sideband (check 8 of R175). -/
def LMode.side : LMode → Bool
  | .plain => false
  | _ => true

/-- The ordering fields of slot j if it is a load-class slot that has not executed yet. -/
def Block.pendingLoad (b : Block) (j : Nat) : Option MX :=
  match b.slots[j]?, b.words[j]? with
  | some r, some w =>
    let f := Fields.ofWord w
    if r.st == .waiting && (match f.row? with
      | some q => q.load
      | none => false) then some (MX.ofX f.x) else none
  | _, _ => none

/-- Whether an operation's stream lies in a mask. -/
def inMask (m : MX) (mask : BitVec 8) : Bool := mask.getLsbD m.stream.toNat

/-- An operation of scope host whose every write to host memory the host agent has accepted: it has performed at every scope but host (R194). -/
def Op.accepted (o : Op) : Bool := o.made || (!o.homes.isEmpty && o.homes.all (fun x => o.done.contains x.2.1))

/-- Whether a load with these ordering fields must still wait (R193, R208): for an issued operation or an earlier load of its block on a
stream its mask names, until it has performed at the load's scope (R194), and, with scope seq, for every earlier seq operation. Every load performs
before the commit-point operations of its own block, whatever R208 says of a lower slot's (R195; log 75). -/
def Cx.mustWait (cx : Cx) (m : MX) : Bool :=
  let blocks := fun (q : MX) => inMask q m.mask || (m.scope == .seq && q.scope == .seq)
  cx.task.ops.any (fun o => match o.act.mx with
    | some q => (inMask q m.mask || (m.scope == .seq && o.act.isSeq)) && !(o.accepted && m.scope != .host)
    | none => false) ||
  (m.scope == .host && cx.task.hostOps.any (fun x => m.mask.getLsbD x.2.toNat)) ||
  (List.range cx.k).any (fun j => match cx.blk.pendingLoad j with
    | some q => blocks q
    | none => false)

/-- The streams on which an earlier load has performed with a matching scope (R199): of earlier blocks, and of lower slots of this one,
whose satisfied waits count only from the next block on (R207). -/
def Cx.acqStreams (cx : Cx) : BitVec 8 :=
  (cx.blk.slots.take cx.k).foldl (fun a r => if r.st == .done && !r.later then a ||| r.acq else a) cx.task.acq

/-- The acquire effect of an operation of the slot (R199). -/
def State.acquire (s : State) (cx : Cx) (m : MX) : State :=
  if cx.acqStreams &&& m.mask != 0 then s.discard cx.p m.scope else s

/-! ## Reading -/

/-- The bytes of a near-cache granule half that hold l bytes at an address. -/
def nearBytes (v : BitVec 256) (a l : Nat) : Nat := (v.toNat / 2 ^ (8 * (a % 32))) % 2 ^ (8 * l)

/-- A granule of a home brought into the near cache, if it may be read (R158). -/
def State.nearFill (s : State) (p g : Nat) : State :=
  if s.homeOk g && !(s.sideAt g).poison then
    s.onPlot p (fun x => { x with near := x.near.put g (BitVec.ofNat 256 (s.rdNat g 32)) })
  else s

/-- Lines that the near cache holds: 64 KiB (R9). -/
def nearRoom : Nat := 1024

/-- A near cache with room again after the fill of a line: where it would hold one line too many, one other line goes (R9). Which one R158 leaves open:
any line may be dropped at any time, and the lowest goes if none has (log 8). -/
def nearTrim (line : Nat) (near : SMap (BitVec 256)) : SMap (BitVec 256) :=
  let ls := (near.map (fun e => e.1 / 64)).eraseDups
  if ls.length ≤ nearRoom then near
  else match ls.find? (fun l => l != line) with
  | some l => near.filter (fun e => e.1 / 64 != l)
  | none => near

/-- Both halves of the 64-byte line of an address filled (R158). -/
def State.nearLine (s : State) (p a : Nat) : State :=
  (((s.nearFill p (a / 64 * 64)).nearFill p (a / 64 * 64 + 32)).onPlot p (fun x => { x with near := nearTrim (a / 64) x.near })).bump p 9 1

/-- What one part of a plain load finds: poison, or the number read, with the reader-side mismatch of R201 and the state after. -/
inductive PartRead where
  | poison (a : Nat)
  | data (x : Nat) (miss : Bool) (s : State)
  deriving DecidableEq, Repr

/-- A free number of up to 32 bytes, for what a host whose link is down answers (R156; log 64). -/
def freeBits (n l : Nat) : Nat :=
  (List.range 4).foldl (fun x i => x + (Config.freeValue (n + i)).toNat * 2 ^ (64 * i)) 0 % 2 ^ (8 * l)

/-- A part of a plain load at home a (R158, R197): answered by the near cache if it holds the granule, else by the home, which then fills
the line of a home outside the core's own plot. A seq load reads its home. A host whose link is down gives a free value and a record (R156). -/
def State.readPart (s : State) (cx : Cx) (a l : Nat) (sc : Scope) : PartRead :=
  let p := cx.p
  let own := homeDist p a == 0
  match (if own || sc == .seq then none else (s.plot p).near.find? (fun e => e.1 == a / 32 * 32)) with
  | some e => .data (nearBytes e.2 a l) false (s.bump p 8 1)
  | none =>
    if !isHost a && (s.sideAt a).poison then .poison a
    else if s.hostLost a then .data (freeBits s.free l) false ({ s with free := s.free + 4 }.lostAccess p cx.t cx.blk.bpc cx.k a)
    else .data (s.rdNat a l) (s.readerMismatch p a sc) (if own || sc == .seq then s else s.nearLine p a)

/-- The value of a load from the bytes it read and, for CLD, the granule's TAG. A NaN or infinity that an FLS loads has tag 0 (R43); VLS names no FP
format, and its lanes take the tags of R184 (log 67). -/
def LOut.val (o : LOut) (x : BitVec 640) (full tag : Bool) : Val :=
  match o with
  | .int n sgn => .int (if sgn then (x.extractLsb' 0 64 <<< (64 - 8 * n)).sshiftRight (64 - 8 * n)
                        else x.extractLsb' 0 64 &&& ones (8 * n))
  | .pres => .pred full
  | .fls fmt tagged =>
    let f := fmtOf fmt
    .fp (f.result (f.take (x.extractLsb' 0 64)) 0 (if tagged then min (x.extractLsb' (if fmt = .f64 then 64 else 32) 6).toNat f.p else f.p)).reg
  | .vls tagged =>
    .vec ⟨x.extractLsb' 0 512, BitVec.ofNat 96 (packTags (fun i =>
      if tagged then min (x.extractLsb' (512 + 8 * i) 6).toNat 24 else 24) 16)⟩
  | .cld => .ptr (ptrOfBytes (leBytes x.toNat 32) tag)

/-- A load done: its value, SMISS for the commit, and its stream counted for R199 when no stamp check failed. -/
def State.loadDone (s : State) (cx : Cx) (l : LoadSpec) (v : Val) (miss : Bool) (act : Option CAct) : State :=
  let s := if miss then s.bump cx.p 29 1 else s
  (s.bump cx.p 12 1).finish cx
    { val := some v, dst := l.dst, smiss := miss, act := act,
      acq := if miss then 0 else BitVec.twoPow 8 l.mx.stream.toNat }

/-- A POISON found by a read of the slot (R168, R176). -/
def State.poisoned (s : State) (cx : Cx) (a : Nat) : State := s.abortSlot cx { cause := .poison, phys := BitVec.ofNat 64 a }

/-- One or more parts of a plain load performed, of the object and pieces `h`: the remaining parts are left for later steps, in any order (R171, R178), at the
homes found now (R214). -/
def State.loadParts (s : State) (cx : Cx) (l : LoadSpec) (now : List (Nat × Nat × Nat)) (h : Option (BitVec 24) × List (Nat × Nat × Nat)) : State :=
  match now with
  | [] => s
  | (a, i, n) :: rest =>
    match s.readPart cx a n l.mx.scope with
    | .poison g => s.poisoned cx g
    | .data x miss t =>
      let acc := cx.sr.acc ||| BitVec.ofNat 640 (x * 2 ^ (8 * i))
      let parts := i :: cx.sr.parts
      let m := cx.sr.smiss || miss
      if parts.length = h.2.length then t.loadDone cx l (l.out.val acc false false) m none
      else
        let r := { cx.sr with acc := acc, parts := parts, smiss := m, homes := h }
        (t.setSlot cx r).loadParts { cx with sr := r } l rest h

/-- The pieces of an access whose homes follow one another with that of x: an access of more than 8 bytes is split where its home changes
(R178). -/
def runOf (ps : List (Nat × Nat × Nat)) (x : Nat × Nat × Nat) : List (Nat × Nat × Nat) := ps.filter (fun y => y.1 + x.2.1 == x.1 + y.2.1)

/-- The instant since which the operations that a load's mask names have performed (R174): the wait for them is not counted against SY.PARK. -/
def Cx.maskSince (cx : Cx) (m : MX) : BitVec 64 :=
  let lower := (List.range cx.k).foldl (fun c j => match cx.blk.slots[j]?, cx.blk.words[j]? with
    | some r, some w => if inMask (MX.ofX (Fields.ofWord w).x) m.mask && ((Fields.ofWord w).row?.any (·.load)) then laterCyc c r.cyc else c
    | _, _ => c) 0
  (List.range 8).foldl (fun c k => if m.mask.getLsbD k then laterCyc c (cx.task.strmAt.get k 0) else c) lower

/-- The gate of a WAITF or TAKE whose words are not full (R66, R174). -/
def State.stallLoad (s : State) (cx : Cx) (m : MX) (g : Gate) : State :=
  s.setSlot cx { cx.sr with gate := some g, since := laterCyc cx.avail (cx.maskSince m) }

/-- A load whose words of one home are read in one event with their presence: WAITF, TAKE, PRES and CLD (R180, R188, R203). `now` are the
pieces read, of the object and pieces `h`. A gate that stalls waits on all the words not yet read (R66). -/
def State.loadWhole (s : State) (cx : Cx) (l : LoadSpec) (p : Ptr) (off : BitVec 64) (now : List (Nat × Nat × Nat))
    (h : Option (BitVec 24) × List (Nat × Nat × Nat)) : State :=
  match now.find? (fun x => (s.sideAt x.1).poison) with
  | some x => s.poisoned cx x.1
  | none =>
    let full := now.all (fun x => s.allFull x.1 x.2.2)
    if (l.mode == .waitf || l.mode == .take) && !full then
      s.stallLoad cx l.mx (.presence ((h.2.filter (fun x => !cx.sr.parts.contains x.2.1)).map (fun x => (x.1, x.2.2))) h.1.isNone)
    else
      let s1 := if cx.sr.parts.isEmpty then s.acquire cx l.mx else s
      let data := now.foldl (fun n x => n + s.rdNat x.1 x.2.2 * 2 ^ (8 * x.2.1)) 0
      let acc := cx.sr.acc ||| BitVec.ofNat 640 data
      let miss := cx.sr.smiss || now.any (fun x => s.readerMismatch cx.p x.1 l.mx.scope)
      let tag := now.any (fun x => (s.sideAt x.1).tag)
      let s2 := if l.mode == .cld then
          (match now with
          | x :: _ => if homeDist cx.p x.1 == 0 then s1 else s1.nearLine cx.p x.1
          | [] => s1)
        else s1
      let parts := now.map (fun x => x.2.1) ++ cx.sr.parts
      if parts.length < h.2.length then s2.setSlot cx { cx.sr with acc := acc, parts := parts, smiss := miss, gate := none, homes := h }
      else s2.loadDone cx l (l.out.val acc full tag) miss
        (if l.mode == .take then some { kind := .take l.n l.align, mx := some l.mx, ptr := p, off := off } else none)

/-- A seq load asks for the token at the cistern of each part's die (R208, R209). -/
def State.queueLoad (s : State) (cx : Cx) (h : Option (BitVec 24) × List (Nat × Nat × Nat)) (dies : List Nat) : State :=
  let q : SeqReq := ⟨cx.p, cx.t, none, cx.half, cx.k, false⟩
  let s1 := dies.foldl (fun s d =>
    let x := s.die d
    if x.seqQ.contains q then s else s.setDie d { x with seqQ := x.seqQ ++ [q] }) s
  s1.setSlot cx { cx.sr with queued := true, homes := h }

/-- The pieces of a load: those found when its first part performed or asked for the token (R214), else those its checks find now. -/
def State.loadHomes (s : State) (cx : Cx) (l : LoadSpec) (p : Ptr) (off : BitVec 64) : Homes :=
  if cx.sr.homes.2.isEmpty then s.access (dieOf cx.p) cx.task.priv p off l.n l.align l.need l.mode.side (l.mx.scope == .seq)
  else .ok cx.sr.homes.2

/-- A load executes (R174, R175): once nothing it must follow is outstanding it is checked as a whole, and then its parts perform, the
one that the choice `pick` names first; those of a presence mode perform with the pieces of their home (R178). A seq load performs the parts of
the die that holds the token. -/
def State.load (s : State) (cx : Cx) (l : LoadSpec) (p : Ptr) (off : BitVec 64) : State :=
  if cx.mustWait l.mx then s
  else match s.loadHomes cx l p off with
  | .bad c => s.abortSlot cx c
  | .wait => s
  | .ok ps =>
    let left := ps.filter (fun x => !cx.sr.parts.contains x.2.1)
    let h := (if p.isPhys then none else some p.obj, ps)
    if l.mode != .plain then
      (if l.mx.scope == .seq then
        (if cx.granted then
          (match left.find? (fun x => dieOfAddr x.1 == cx.pick) with
          | some x => s.loadWhole cx l p off (runOf left x) h
          | none => s)
        else s.queueLoad cx h (left.map (fun x => dieOfAddr x.1)))
      else match left[cx.pick % left.length]? with
        | some x => s.loadWhole cx l p off (runOf left x) h
        | none => s)
    else
      if l.mx.scope == .seq then
        (if cx.granted then
          (if cx.sr.parts.isEmpty then s.acquire cx l.mx else s).loadParts cx l (left.filter (fun x => dieOfAddr x.1 == cx.pick)) h
        else s.queueLoad cx h (left.map (fun x => dieOfAddr x.1)))
      else
        match left[cx.pick % left.length]? with
        | some x => (if cx.sr.parts.isEmpty then s.acquire cx l.mx else s).loadParts cx l [x] h
        | none => s

/-- A load form's slot. -/
def loadSlot (p : Pred) (l : LoadSpec) (a b : Opnd) (s : State) : Out :=
  runSlot p s (fun cx => (cx.ptr a).bind (fun q => (cx.int b).bind (fun off => .val (s.load cx l q off))))

/-! ## The load forms -/

/-- Bytes of a size (R84). -/
def sizeBytes : Size → Nat
  | .b8 => 1
  | .b16 => 2
  | .b32 => 4
  | .b64 => 8

/-- LD in a mode (R178, R180). -/
def ldSpec (d : Dst) (mx : MX) (sz : Size) (sgn : Bool) (m : LMode) : LoadSpec where
  dst := d
  mx := mx
  n := (sizeBytes sz)
  align := if m == .plain then 0 else (sizeBytes sz)
  need := if m == .take then rR ||| rT else rR
  mode := m
  out := if m == .pres then .pres else .int (sizeBytes sz) sgn

/-- Bytes of an FLS access (R178). -/
def flsBytes (fmt : Fmt) (tagged : Bool) : Nat :=
  match fmt with
  | .f64 => if tagged then 16 else 8
  | .f32 => if tagged then 8 else 4
  | _ => if tagged then 8 else 2

/-- FLS loads (R183). -/
def flsSpec (d : Dst) (mx : MX) (fmt : Fmt) (tagged : Bool) (m : LMode) : LoadSpec where
  dst := d
  mx := mx
  n := flsBytes fmt tagged
  align := if tagged || m != .plain then flsBytes fmt tagged else 0
  need := rR
  mode := m
  out := .fls fmt tagged

/-- VLS loads (R184). -/
def vlsSpec (d : Dst) (mx : MX) (tagged : Bool) (m : LMode) : LoadSpec where
  dst := d
  mx := mx
  n := if tagged then 80 else 64
  align := if tagged then 16 else 32
  need := if m == .take then rR ||| rT else rR
  mode := m
  out := .vls tagged

/-- CLD (R188). -/
def cldSpec (d : Dst) (mx : MX) : LoadSpec := ⟨d, mx, 32, 32, rR, .cld, .cld⟩

/-- The load a word is, for the cistern that performs a seq load when it holds the token (R208). -/
def loadSpec? (f : Fields) : Option LoadSpec :=
  let d := (Dst.ofCode f.d).getD .none
  let mx := MX.ofX f.x
  let md := fun (c : BitVec 2) => match c.toNat with
    | 0 => LMode.plain
    | 1 => .waitf
    | 2 => .take
    | _ => .pres
  match f.op.toNat with
  | 0x48 => some (ldSpec d mx (Size.ofCode (f.fn.extractLsb' 0 2)) (f.fn.getLsbD 2) (md (f.fn.extractLsb' 3 2)))
  | 0x4A => if f.fn.getLsbD 0 then none else
      some (flsSpec d mx (Fmt.ofCode (f.fn.extractLsb' 1 2)) (f.fn.getLsbD 3) (if f.fn.getLsbD 4 then .waitf else .plain))
  | 0x4B => if f.fn.getLsbD 0 then none else some (vlsSpec d mx (f.fn.getLsbD 3) (md (f.fn.extractLsb' 1 2)))
  | 0x4E => if f.fn = 4 then some (cldSpec d mx) else none
  | _ => none

/-- LD (R180). -/
def execLd (p : Pred) (d : Dst) (mx : MX) (sz : Size) (sgn : Bool) (a b : Opnd) (s : State) : Out :=
  loadSlot p (ldSpec d mx sz sgn .plain) a b s

/-- LD.WAITF (R180). -/
def execLdWaitf (p : Pred) (d : Dst) (mx : MX) (sz : Size) (sgn : Bool) (a b : Opnd) (s : State) : Out :=
  loadSlot p (ldSpec d mx sz sgn .waitf) a b s

/-- LD.TAKE: the gate; its emptying takes place at the commit (R180, R181). -/
def execLdTake (p : Pred) (d : Dst) (mx : MX) (sz : Size) (sgn : Bool) (a b : Opnd) (s : State) : Out :=
  loadSlot p (ldSpec d mx sz sgn .take) a b s

/-- LD.PRES (R180). -/
def execLdPres (p : Pred) (d : Dst) (mx : MX) (sz : Size) (a b : Opnd) (s : State) : Out :=
  loadSlot p (ldSpec d mx sz false .pres) a b s

/-- FLS.LD (R183). -/
def execFlsLd (p : Pred) (d : Dst) (mx : MX) (fmt : Fmt) (tagged : Bool) (a b : Opnd) (s : State) : Out :=
  loadSlot p (flsSpec d mx fmt tagged .plain) a b s

/-- FLS.LD.WAITF (R183). -/
def execFlsLdWaitf (p : Pred) (d : Dst) (mx : MX) (fmt : Fmt) (tagged : Bool) (a b : Opnd) (s : State) : Out :=
  loadSlot p (flsSpec d mx fmt tagged .waitf) a b s

/-- VLS.LD (R184). -/
def execVlsLd (p : Pred) (d : Dst) (mx : MX) (tagged : Bool) (a b : Opnd) (s : State) : Out :=
  loadSlot p (vlsSpec d mx tagged .plain) a b s

/-- VLS.LD.WAITF (R184). -/
def execVlsLdWaitf (p : Pred) (d : Dst) (mx : MX) (tagged : Bool) (a b : Opnd) (s : State) : Out :=
  loadSlot p (vlsSpec d mx tagged .waitf) a b s

/-- VLS.LD.TAKE (R184). -/
def execVlsLdTake (p : Pred) (d : Dst) (mx : MX) (tagged : Bool) (a b : Opnd) (s : State) : Out :=
  loadSlot p (vlsSpec d mx tagged .take) a b s

/-- CLD (R188). -/
def execCld (p : Pred) (d : Dst) (mx : MX) (a b : Opnd) (s : State) : Out := loadSlot p (cldSpec d mx) a b s

/-! ## The store forms: operands captured for the commit -/

/-- A commit-point slot whose pointer is A, offset B, and whose datum is C. -/
def storeSlot {α : Type} (p : Pred) (mx : MX) (a b : Opnd) (rd : Cx → Rd α) (k : α → CKind) (d : Dst) (s : State) : Out :=
  runSlot p s (fun cx => (cx.ptr a).bind (fun q => (cx.int b).bind (fun off => (rd cx).bind (fun x =>
    .val (s.capture cx { kind := k x, mx := some mx, ptr := q, off := off, dst := d })))))

/-- ST in a mode (R178, R182). -/
def stSlot (p : Pred) (mx : MX) (sz : Size) (m : StMode) (a b c : Opnd) (s : State) : Out :=
  storeSlot p mx a b (fun cx => cx.int c)
    (fun x => .store (sizeBytes sz) m (if m == .plain then 0 else (sizeBytes sz)) (x.zeroExtend 640)) .none s

/-- ST (R182). -/
def execSt (p : Pred) (mx : MX) (sz : Size) (a b c : Opnd) (s : State) : Out := stSlot p mx sz .plain a b c s

/-- ST.FILL (R182). -/
def execStFill (p : Pred) (mx : MX) (sz : Size) (a b c : Opnd) (s : State) : Out := stSlot p mx sz .fill a b c s

/-- ST.SETF (R182). -/
def execStSetf (p : Pred) (mx : MX) (sz : Size) (a b c : Opnd) (s : State) : Out := stSlot p mx sz .setf a b c s

/-- ST.CLRE (R182). -/
def execStClre (p : Pred) (mx : MX) (sz : Size) (a b c : Opnd) (s : State) : Out := stSlot p mx sz .clre a b c s

/-- The bytes an FLS store writes (R51, R183). -/
def flsData (fmt : Fmt) (tagged : Bool) (x : FReg) : BitVec 640 :=
  let f := fmtOf fmt
  BitVec.ofNat 640 ((f.take x.bits).toNat +
    (if tagged then min x.tag.toNat f.p * 2 ^ (if fmt = .f64 then 64 else 32) else 0))

/-- FLS stores (R183). -/
def flsStore (p : Pred) (mx : MX) (fmt : Fmt) (tagged : Bool) (m : StMode) (a b c : Opnd) (s : State) : Out :=
  storeSlot p mx a b (fun cx => cx.fp c)
    (fun x => .store (flsBytes fmt tagged) m (if tagged || m != .plain then flsBytes fmt tagged else 0) (flsData fmt tagged x)) .none s

/-- FLS.ST (R183). -/
def execFlsSt (p : Pred) (mx : MX) (fmt : Fmt) (tagged : Bool) (a b c : Opnd) (s : State) : Out :=
  flsStore p mx fmt tagged .plain a b c s

/-- FLS.ST.FILL (R183). -/
def execFlsStFill (p : Pred) (mx : MX) (fmt : Fmt) (tagged : Bool) (a b c : Opnd) (s : State) : Out :=
  flsStore p mx fmt tagged .fill a b c s

/-- The bytes a VLS store writes (R51, R184). -/
def vlsData (tagged : Bool) (v : VReg) : BitVec 640 :=
  BitVec.ofNat 640 (v.lanes.toNat +
    (if tagged then (List.range 16).foldl (fun n i => n + v.tag32 i * 2 ^ (512 + 8 * i)) 0 else 0))

/-- VLS stores (R184). -/
def vlsStore (p : Pred) (mx : MX) (tagged : Bool) (m : StMode) (a b c : Opnd) (s : State) : Out :=
  storeSlot p mx a b (fun cx => cx.vec c)
    (fun v => .store (if tagged then 80 else 64) m (if tagged then 16 else 32) (vlsData tagged v)) .none s

/-- VLS.ST (R184). -/
def execVlsSt (p : Pred) (mx : MX) (tagged : Bool) (a b c : Opnd) (s : State) : Out := vlsStore p mx tagged .plain a b c s

/-- VLS.ST.FILL (R184). -/
def execVlsStFill (p : Pred) (mx : MX) (tagged : Bool) (a b c : Opnd) (s : State) : Out := vlsStore p mx tagged .fill a b c s

/-- VLS.ST.SETF (R184). -/
def execVlsStSetf (p : Pred) (mx : MX) (tagged : Bool) (a b c : Opnd) (s : State) : Out := vlsStore p mx tagged .setf a b c s

/-- VLS.ST.CLRE (R184). -/
def execVlsStClre (p : Pred) (mx : MX) (tagged : Bool) (a b c : Opnd) (s : State) : Out := vlsStore p mx tagged .clre a b c s

/-- A commit-point slot whose pointer is A and whose datum is B, at the cursor itself. -/
def amoSlot {α : Type} (p : Pred) (d : Dst) (mx : MX) (a : Opnd) (rd : Cx → Rd α) (k : α → CKind) (s : State) : Out :=
  runSlot p s (fun cx => (cx.ptr a).bind (fun q => (rd cx).bind (fun x =>
    .val (s.capture cx { kind := k x, mx := some mx, ptr := q, dst := d }))))

/-- AMO on integers (R185). -/
def amoInt (p : Pred) (d : Dst) (mx : MX) (wide : Bool) (o : AmoOp) (a b : Opnd) (s : State) : Out :=
  amoSlot p d mx a (fun cx => cx.int b) (fun x => .amo o (if wide then 8 else 4) x) s

/-- AMO on FP32 (R185). -/
def amoFp (p : Pred) (d : Dst) (mx : MX) (o : AmoOp) (a b : Opnd) (s : State) : Out :=
  amoSlot p d mx a (fun cx => cx.fp b) (fun x => .amo o 4 x.bits) s

/-- AMO.ADD (R185). -/
def execAmoAdd (p : Pred) (d : Dst) (mx : MX) (wide : Bool) (a b : Opnd) (s : State) : Out := amoInt p d mx wide .add a b s

/-- AMO.AND (R185). -/
def execAmoAnd (p : Pred) (d : Dst) (mx : MX) (wide : Bool) (a b : Opnd) (s : State) : Out := amoInt p d mx wide .and a b s

/-- AMO.OR (R185). -/
def execAmoOr (p : Pred) (d : Dst) (mx : MX) (wide : Bool) (a b : Opnd) (s : State) : Out := amoInt p d mx wide .or a b s

/-- AMO.XOR (R185). -/
def execAmoXor (p : Pred) (d : Dst) (mx : MX) (wide : Bool) (a b : Opnd) (s : State) : Out := amoInt p d mx wide .xor a b s

/-- AMO.MINS (R185). -/
def execAmoMins (p : Pred) (d : Dst) (mx : MX) (wide : Bool) (a b : Opnd) (s : State) : Out := amoInt p d mx wide .mins a b s

/-- AMO.MAXS (R185). -/
def execAmoMaxs (p : Pred) (d : Dst) (mx : MX) (wide : Bool) (a b : Opnd) (s : State) : Out := amoInt p d mx wide .maxs a b s

/-- AMO.MINU (R185). -/
def execAmoMinu (p : Pred) (d : Dst) (mx : MX) (wide : Bool) (a b : Opnd) (s : State) : Out := amoInt p d mx wide .minu a b s

/-- AMO.MAXU (R185). -/
def execAmoMaxu (p : Pred) (d : Dst) (mx : MX) (wide : Bool) (a b : Opnd) (s : State) : Out := amoInt p d mx wide .maxu a b s

/-- AMO.XCHG (R185). -/
def execAmoXchg (p : Pred) (d : Dst) (mx : MX) (wide : Bool) (a b : Opnd) (s : State) : Out := amoInt p d mx wide .xchg a b s

/-- AMO.FADD32 (R185). -/
def execAmoFadd32 (p : Pred) (d : Dst) (mx : MX) (a b : Opnd) (s : State) : Out := amoFp p d mx .fadd a b s

/-- AMO.FMAX32 (R185). -/
def execAmoFmax32 (p : Pred) (d : Dst) (mx : MX) (a b : Opnd) (s : State) : Out := amoFp p d mx .fmax a b s

/-- AMO.FMIN32 (R185). -/
def execAmoFmin32 (p : Pred) (d : Dst) (mx : MX) (a b : Opnd) (s : State) : Out := amoFp p d mx .fmin a b s

/-- CAS.32: expected in b[31:0], new in b[63:32] (R186). -/
def execCas32 (p : Pred) (d : Dst) (mx : MX) (a b : Opnd) (s : State) : Out :=
  amoSlot p d mx a (fun cx => cx.int b)
    (fun x => .cas 4 ((lo32 x).zeroExtend 64) ((x.extractLsb' 32 32).zeroExtend 64)) s

/-- CAS.64: expected in g[2k], new in g[2k + 1] (R186). -/
def execCas64 (p : Pred) (d : Dst) (mx : MX) (a : Opnd) (pair : BitVec 5) (s : State) : Out :=
  amoSlot p d mx a (fun cx => (cx.int (.g (pair ++ 0#1))).bind (fun x => (cx.int (.g (pair ++ 1#1))).bind (fun y => .val (x, y))))
    (fun x => .cas 8 x.1 x.2) s

/-- CST (R188). -/
def execCst (p : Pred) (mx : MX) (a b c : Opnd) (s : State) : Out :=
  storeSlot p mx a b (fun cx => cx.ptr c) (fun q => .cst q) .none s

/-! ## The pointer forms -/

/-- A pointer result of a pointer and an INT. -/
def ptrSlot (p : Pred) (d : Dst) (a b : Opnd) (s : State) (f : Ptr → BitVec 64 → Ptr) : Out :=
  runSlot p s (fun cx => (cx.ptr a).bind (fun q => (cx.int b).bind (fun x => .val (s.result cx d (.ptr (f q x))))))

/-- PTR: the cursor set (R187). -/
def execPtr (p : Pred) (d : Dst) (a b : Opnd) (s : State) : Out :=
  ptrSlot p d a b s (fun q x => { q with cur := x.extractLsb' 0 40 })

/-- PADD: the cursor moved, modulo 2^40 (R187). -/
def execPadd (p : Pred) (d : Dst) (a b : Opnd) (s : State) : Out :=
  ptrSlot p d a b s (fun q x => { q with cur := q.cur + x.extractLsb' 0 40 })

/-- CDER's fault or narrowed pointer (R187). -/
def cder (q : Ptr) (b : BitVec 64) : Except Cause Ptr :=
  let len := (b.extractLsb' 0 40).toNat
  if !q.usable then .error .capt
  else if q.rights &&& rD == 0 || q.isPhys then .error .capr
  else if q.cur.toNat + len > q.len then .error .capb
  else .ok ⟨mkCap q.obj (q.rights &&& b.extractLsb' 40 8) (q.base + q.cur.toNat) len, 0, true⟩

/-- CDER (R187). -/
def execCder (p : Pred) (d : Dst) (a b : Opnd) (s : State) : Out :=
  runSlot p s (fun cx => (cx.ptr a).bind (fun q => (cx.int b).bind (fun x =>
    match cder q x with
    | .ok r => .val (s.result cx d (.ptr r))
    | .error c => .val (s.abortSlot cx { cause := c }))))

/-- CGET: the pointer's bits as they are (R187). -/
def execCget (p : Pred) (d : Dst) (w : CgetSel) (a : Opnd) (s : State) : Out :=
  runSlot p s (fun cx => (cx.ptr a).bind (fun q =>
    .val (s.result cx d (.int (match w with
      | .cur => q.cur.zeroExtend 64
      | .base => BitVec.ofNat 64 q.base
      | .len => BitVec.ofNat 64 q.len
      | .idr => (q.obj ++ q.rights).zeroExtend 64)))))

/-- Whether a 1-byte access through a pointer would pass checks 1 to 4 and 6 to 9 of R175; a migrating extent counts as resident (R189). -/
def State.probe (s : State) (cx : Cx) (q : Ptr) (off : BitVec 64) (need : BitVec 8) : Bool :=
  match s.access (dieOf cx.p) cx.task.priv q off 1 0 need false false with
  | .bad _ => false
  | _ => true

/-- PRB.R (R189). -/
def execPrbR (p : Pred) (d : Dst) (a b : Opnd) (s : State) : Out :=
  runSlot p s (fun cx => (cx.ptr a).bind (fun q => (cx.int b).bind (fun x => .val (s.result cx d (.pred (s.probe cx q x rR))))))

/-- PRB.W (R189). -/
def execPrbW (p : Pred) (d : Dst) (a b : Opnd) (s : State) : Out :=
  runSlot p s (fun cx => (cx.ptr a).bind (fun q => (cx.int b).bind (fun x => .val (s.result cx d (.pred (s.probe cx q x rW))))))

end Sys2Proof.Machine
end

