-- ==== Sys2Proof/Machine/Quant.lean ====
section
/-! DEFINITION. Packed elements (R34, R35), the block and scaled formats (R28 to R33), and quantisation (R38, R147 to R150). -/

namespace Sys2Proof.Machine

open Sys2Proof

/-- Element k of a w-bit packed format (R35). -/
def elemAt (lanes : BitVec 512) (w k : Nat) : Nat := (lanes.extractLsb' (k * w) w).toNat

/-- Packed elements of w bits, element 0 lowest (R35). -/
def packElems (w : Nat) : List Nat → Nat
  | [] => 0
  | x :: t => x % 2 ^ w + 2 ^ w * packElems w t

/-- A packed register: its elements, every lane tag 0 (R35). -/
def packedVec (w : Nat) (xs : List Nat) : VReg := ⟨BitVec.ofNat 512 (packElems w xs), 0⟩

/-- A two's-complement code of w bits as a value. -/
def signedOf (w x : Nat) : Int := if x % 2 ^ w < 2 ^ (w - 1) then (x % 2 ^ w : Nat) else ((x % 2 ^ w : Nat) : Int) - 2 ^ w

/-- An integer as a value with a power of two. -/
def intVal (v : Int) (e : Int) : FVal := .fin (v < 0) v.natAbs e

/-- The element formats of quantised data (R28, R29): E2M1, E4M3, INT4, INT8 and MXINT8's INT8. -/
inductive Elem where
  | e2m1 | e4m3 | int4 | int8 | mxint8
  deriving DecidableEq, Repr

/-- Width in bits of an element. -/
def Elem.width : Elem → Nat
  | .e2m1 => 4
  | .int4 => 4
  | _ => 8

/-- p_e of R44. -/
def Elem.prec : Elem → Nat
  | .e2m1 => 2
  | .e4m3 => 4
  | .int4 => 3
  | _ => 7

/-- emax of R29. -/
def Elem.emax : Elem → Int
  | .e2m1 => 2
  | .e4m3 => 8
  | _ => 0

/-- The value of an element code (R27 to R29). -/
def Elem.dec (k : Elem) (x : Nat) : FVal :=
  match k with
  | .e2m1 => Sys2Proof.Machine.e2m1.dec (x % 16)
  | .e4m3 => Sys2Proof.Machine.e4m3.dec (x % 256)
  | .int4 => intVal (signedOf 4 x) 0
  | .int8 => intVal (signedOf 8 x) 0
  | .mxint8 => intVal (signedOf 8 x) (-6)

/-- An exact value rounded once, with RNE, into an element: code, whether rounded or clamped, the flags of R38 for a finite element
(`nanOvf` for E4M3 with NaN on overflow). -/
def Elem.quant (k : Elem) (nanOvf : Bool) (x : Exact) : Nat × Bool × FFlags :=
  let fl (f : FpFmt) : Nat × Bool × FFlags :=
    let q := f.round f.p .rne x
    if q.ovf && nanOvf then (0x7F, true, fOF ||| fNX)
    else (q.bits.toNat, q.inexact, if q.ovf then fNX else q.flags)
  let it (lim w : Nat) (sh : Int) : Nat × Bool × FFlags :=
    let r := roundAt .rne { x with e := x.e + sh } 0
    let n := min r.1 lim
    let ch := r.2 || decide (lim < r.1)
    (if x.neg then (2 ^ w - n) % 2 ^ w else n, ch, if ch then fNX else 0)
  match k with
  | .e2m1 => fl Sys2Proof.Machine.e2m1
  | .e4m3 => fl Sys2Proof.Machine.e4m3
  | .int4 => it 7 4 0
  | .int8 => it 127 8 0
  | .mxint8 => it 127 8 6

/-- The element of a NaN or infinite value quantised with a scale (R38), which raises NV. -/
def Elem.special (k : Elem) (nanOvf : Bool) (x : FVal) : Nat :=
  match k with
  | .e4m3 => if x.isNan || nanOvf then 0x7F else if x.neg then 0xFE else 0x7E
  | .int4 => if x.isNan then 0 else if x.neg then 9 else 7
  | _ => if x.isNan then 0 else if x.neg then 0x81 else 127

/-- The exact quotient of two finite values; a zero dividend keeps its sign. -/
def quotient (x y : FVal) : Exact :=
  match x, y with
  | .fin xn xm xe, .fin yn ym ye => if xm = 0 then ⟨xn != yn, 0, 0, false⟩ else exactDiv (xn != yn) xm xe ym ye
  | _, _ => ⟨false, 0, 0, false⟩

/-- One lane quantised with a scale that is positive and finite (R38, R147). -/
def quantOne (k : Elem) (nanOvf : Bool) (s x : FVal) : Nat × FFlags :=
  if x.isFin then
    let q := k.quant nanOvf (quotient x s)
    (q.1, q.2.2)
  else (k.special nanOvf x, fNV)

/-- A scale R38 accepts: positive and finite. -/
def scaleOk (s : FVal) : Bool := s.isFin && !s.isZero && !s.neg

/-- VQNT with a scale (R147): sixteen elements and the flags. -/
def quantScaled (k : Elem) (nanOvf : Bool) (s : FVal) (xs : List FVal) : List Nat × FFlags :=
  if scaleOk s then
    let rs := xs.map (quantOne k nanOvf s)
    (rs.map (·.1), rs.foldl (fun a r => a ||| r.2) 0)
  else (xs.map (fun _ => if k = .e4m3 then 0x7F else 0), fNV)

/-- The largest exponent floor(log2 |x|) among the non-zero values of a list. -/
def topExpo (xs : List FVal) : Option Int :=
  xs.foldl (fun a x => if x.isZero then a else
    match a with
    | none => some x.expo
    | some e => some (max e x.expo)) none

/-- Quantisation of 32 values into an MX block (R30): elements, scale, flags. -/
def quantBlock (k : Elem) (xs : List FVal) : List Nat × Nat × FFlags :=
  if xs.any (fun x => !x.isFin) then (xs.map (fun _ => 0), 0xFF, fNV)
  else match topExpo xs with
  | none => (xs.map (fun _ => 0), 0, 0)
  | some t =>
    let e : Int := max 0 (min 254 (t - k.emax + 127))
    let rs := xs.map (fun x => match x with
      | .fin n m ex => k.quant false ⟨n, m, ex - (e - 127), false⟩
      | _ => (0, false, 0))
    (rs.map (·.1), e.toNat, if rs.any (·.2.1) then fNX else 0)

/-- VQNT of an MX block laid out in a register (R35, R148): elements from lane 0, the scale in lane 8. -/
def mxVec (k : Elem) (r : List Nat × Nat × FFlags) : VReg :=
  ⟨BitVec.ofNat 512 (packElems k.width r.1 + r.2.1 * 2 ^ 256), 0⟩

/-- VDQ with a scale (R149): one element. -/
def dequantScaled (k : Elem) (s : FVal) (ss : Nat) (x : Nat) : FpRes :=
  let v := k.dec x
  fpMul fp32 .rne v k.prec s (min ss 24)

/-- VDQ of an MX element under the scale code E (R150). -/
def dequantMx (k : Elem) (e x : Nat) : FpRes :=
  match k.dec x with
  | .fin n m ex =>
    if e = 0xFF then fp32.nanRes fNV
    else
      let q := fp32.round 24 .rne ⟨n, m, ex + e - 127, false⟩
      fp32.result q.bits q.flags (capTag 24 q.inexact k.prec)
  | _ => fp32.nanRes fNV

/-- A group of FP32 values scaled by the device itself into BSFP8 (R32): the scale's code and the E4M3 elements. -/
def bsGroup (xs : List FVal) : BitVec 32 × List Nat :=
  if xs.any (fun x => !x.isFin) then (0x7FC00000, xs.map (fun _ => 0x7F))
  else
    let amax := xs.foldl (fun a x => if fpOrd a x.mag == .lt then x.mag else a) (.fin false 0 0)
    if amax.isZero then (0x3F800000, xs.map (fun _ => 0))
    else
      let r := (fp32.round 24 .rne (quotient amax (.fin false 448 0))).bits.extractLsb' 0 32
      let s := if r = 0 then 1 else r
      (s, xs.map (fun x => (quantOne .e4m3 false (fp32.dec s.toNat) x).1))

/-- A W4A16 weight (R33): rne_bf16 of the exact product of a code and the group's BF16 scale. -/
def w4Weight (isE2m1 : Bool) (x : Nat) (scale : Nat) : Nat :=
  let v := if isE2m1 then Elem.e2m1.dec x else Elem.int4.dec x
  (fpMul bf16 .rne v 0 (bf16.dec scale) 0).bits.toNat

end Sys2Proof.Machine
end

