-- ==== Sys2Proof/Machine/RillBase.lean ====
section
/-! DEFINITION. Rill entries as data (R285 to R293): the fields of R286, words and capacities, head items, the status word, and the effects
every unit shares: credits that return, markers absorbed at a head, wake bindings. -/

namespace Sys2Proof.Machine

open Sys2Proof

/-- ROLE: 0 free, 1 send end, 2 receive end, 3 join. -/
def Rill.role (r : Rill) : Nat := (r.ent.extractLsb' 39 3).toNat
/-- KIND: LATEST. -/
def Rill.latest (r : Rill) : Bool := r.ent.getLsbD 42
/-- FMT. -/
def Rill.fmt (r : Rill) : Nat := (r.ent.extractLsb' 43 3).toNat
/-- VEC. -/
def Rill.vec (r : Rill) : Bool := r.ent.getLsbD 46
/-- CMODE: credits return by CHC.CRED. -/
def Rill.cmode (r : Rill) : Bool := r.ent.getLsbD 47
/-- CRED. -/
def Rill.cred0 (r : Rill) : Nat := (r.ent.extractLsb' 48 4).toNat
/-- JIN. -/
def Rill.jin (r : Rill) : Bool := r.ent.getLsbD 52
/-- SPILL. -/
def Rill.spill (r : Rill) : Bool := r.ent.getLsbD 53
/-- RBASE. -/
def Rill.rbase (r : Rill) : Nat := (r.ent.extractLsb' 54 15).toNat
/-- RSIZE. -/
def Rill.rsize (r : Rill) : Nat := (r.ent.extractLsb' 69 15).toNat
/-- HIGH as installed. -/
def Rill.high0 (r : Rill) : Nat := (r.ent.extractLsb' 84 21).toNat
/-- LOW as installed. -/
def Rill.low0 (r : Rill) : Nat := (r.ent.extractLsb' 105 21).toNat
/-- ROUTE. -/
def Rill.route (r : Rill) : Nat := (r.ent.extractLsb' 31 8).toNat
/-- PEER as a logical name. -/
def Rill.peer (r : Rill) : BitVec 32 := r.ent.extractLsb' 6 25 ++ (0 : BitVec 7)
/-- PPORT. -/
def Rill.pport (r : Rill) : Nat := (r.ent.extractLsb' 0 6).toNat

/-- Words of a data element of a format (R288). -/
def fmtWords (fmt : Nat) (vec : Bool) : Nat :=
  if !vec then 1
  else match fmt with
    | 0 => 8
    | 1 => 4
    | 2 => 3
    | 3 => 3
    | 4 => 8
    | _ => 1

/-- Words of a data element of an entry. -/
def Rill.elemWords (r : Rill) : Nat := fmtWords r.fmt r.vec

/-- Words of an item in an entry's buffer. -/
def Rill.itemWords (r : Rill) : Item → Nat
  | .data _ _ => r.elemWords
  | _ => 1

/-- Words held by a list of items. -/
def Rill.wordsIn (r : Rill) (xs : List Item) : Nat := xs.foldl (fun n x => n + r.itemWords x) 0

/-- A marker. -/
def Item.isMark : Item → Bool
  | .mark _ => true
  | _ => false

/-- A data element. -/
def Item.isData : Item → Bool
  | .data _ _ => true
  | _ => false

/-- Whether a buffer is at its capacity in elements, 8 divided by an element's words, and accepts nothing more (R288). -/
def Rill.atCap (r : Rill) (xs : List Item) : Bool := decide (8 / r.elemWords ≤ (xs.filter Item.isData).length)

/-- Whether a buffer of eight words has room for one more item (R288). -/
def Rill.room (r : Rill) (xs : List Item) (x : Item) : Bool := !r.atCap xs && decide (r.wordsIn xs + r.itemWords x ≤ 8)

/-- The words of an item as the reservoir and the save area keep them (R293, R295): an element's words, a marker's value, 0 for an EOS (log 37). -/
def Rill.itemBytes (r : Rill) (x : Item) : List Byte :=
  match x with
  | .data ws _ => leBytes ws.toNat (8 * r.elemWords)
  | .mark v => leBytes v.toNat 8
  | .eos => leBytes 0 8

/-- An item with what its words now hold. -/
def Item.back (x : Item) (n : Nat) : Item :=
  match x with
  | .data _ q => .data (BitVec.ofNat 512 n) q
  | .mark _ => .mark (BitVec.ofNat 16 n)
  | .eos => .eos

/-- The rill entry of a plot's router. -/
def Plot.rill (x : Plot) (e : Nat) : Rill := x.rills.get e { ent := 0 }

/-- The rill entry e of plot p. -/
def State.rill (s : State) (p e : Nat) : Rill := (s.plot p).rill e

/-- A rill entry replaced. -/
def State.setRill (s : State) (p e : Nat) (r : Rill) : State := s.onPlot p (fun x => { x with rills := x.rills.put e r })

/-- A rill entry changed by a function. -/
def State.onRill (s : State) (p e : Nat) (f : Rill → Rill) : State := s.setRill p e (f (s.rill p e))

/-- An item has moved on the rill of an entry (R304). -/
def State.moved (s : State) (p e : Nat) : State := s.onRill p e (fun r => { r with moved := s.instant })

/-- Item k of a receive end, markers not counted (R299); of a LATEST end the held element, once it is unread (R292). -/
def Rill.item (r : Rill) (k : Nat) : Option Item :=
  if r.latest then (if r.unread then r.buf.head? else none)
  else (r.buf.filter (fun x => !x.isMark))[k]?

/-- A head that is a data element. -/
def headData (xs : List Item) : Bool :=
  match xs with
  | .data _ _ :: _ => true
  | _ => false

/-- A head that is an EOS. -/
def headEos (xs : List Item) : Bool :=
  match xs with
  | .eos :: _ => true
  | _ => false

/-- A head that is a control token. -/
def headToken (xs : List Item) : Bool :=
  match xs with
  | .eos :: _ => true
  | .mark _ :: _ => true
  | _ => false

/-- The status word of an entry (R300). -/
def Rill.stat (r : Rill) : BitVec 64 :=
  if r.role = 0 then 0
  else
    let join := r.role == 3
    let bufs := if join then [r.buf, r.buf1] else [r.buf]
    let occ := bufs.foldl (fun n b => n + r.wordsIn b) 0
    let cred := if r.latest then 0 else if r.role == 2 then (if r.cmode then r.owed else 0) else r.credits
    BitVec.ofNat 64 ((if join then 0 else r.lastMark.toNat * 2^48 + r.res.length % 2^21 * 2^21) + (if r.vec then 2^20 else 0) +
      r.fmt * 2^17 + (if r.latest then 2^16 else 0) + r.role * 2^13 + (if r.bp && !join then 2^12 else 0) + cred % 16 * 2^8 +
      (if bufs.any headData then 2^7 else 0) + (if bufs.any headEos then 2^6 else 0) + occ % 64)

/-- Credits on their way back to the send end or join upstream of an entry's input (R290). -/
def State.giveBack (s : State) (p e : Nat) (jin : Bool) (n : Nat) : State :=
  if n = 0 then s
  else match (s.rill p e).ups.find? (fun u => (s.rill p e).role != 3 || (s.rill u.1 u.2).jin == jin) with
  | some (q, f) => s.onRill q f (fun r => { r with back := r.back + n })
  | none => s

/-- The markers at the head of a receive buffer, which it absorbs (R291): how many, and LASTMARK after them; 0xFFFF leaves it (R295). -/
def absorbMarks (xs : List Item) (last : BitVec 16) : List Item × Nat × BitVec 16 :=
  match xs with
  | .mark v :: t =>
    let r := absorbMarks t (if v = 0xFFFF then last else v)
    (r.1, r.2.1 + 1, r.2.2)
  | _ => (xs, 0, last)

/-- A receive end absorbs the markers at its head; their credits return. -/
def State.absorb (s : State) (p e : Nat) : State :=
  let r := s.rill p e
  if r.role != 2 then s
  else
    let x := absorbMarks r.buf r.lastMark
    if x.2.1 = 0 then s
    else (s.setRill p e { r with buf := x.1, lastMark := x.2.2 }).giveBack p e false x.2.1

/-- A RILL trap of the slot (R303). -/
def State.rillTrap (s : State) (cx : Cx) (port : BitVec 64) (code : Nat) : State :=
  s.abortSlot cx { cause := .rill, info := BitVec.ofNat 64 (code * 256 + (port.extractLsb' 0 8).toNat) }

/-- Whether the data form of a CHS or CHR fits an entry (R298, R299). -/
def Rill.fits (r : Rill) (form : ChsForm) : Bool :=
  match form with
  | .int => !r.vec && (r.fmt == 4 || r.fmt == 5)
  | .fp => !r.vec && (r.fmt == 0 || (r.fmt == 1 && !r.latest))
  | .vec => r.vec
  | .eos => true
  | .mark => true

/-! ## Sending (R292, R293, R298) and consuming (R290, R299) -/

/-- The words of a vector element from a register in the layout of R288. -/
def elemOfVec (fmt : Nat) (v : BitVec 512) : BitVec 512 :=
  if fmt = 2 then (v.extractLsb' 0 128).zeroExtend 512 ||| ((v.extractLsb' 256 32).zeroExtend 512 <<< 128)
  else if fmt = 3 then (v.extractLsb' 0 128).zeroExtend 512 ||| ((v.extractLsb' 256 8).zeroExtend 512 <<< 128)
  else if fmt = 1 then (v.extractLsb' 0 256).zeroExtend 512
  else v

/-- The words of the element a CHS data form sends into an entry (R298): a BF16 end rounds FP32 by R289. -/
def Rill.elemOf (r : Rill) (form : ChsForm) (x : BitVec 512) : BitVec 512 :=
  match form with
  | .int => if r.fmt = 4 then (x.extractLsb' 0 32).zeroExtend 512 else (x.extractLsb' 0 64).zeroExtend 512
  | .fp => if r.fmt = 1 then (fpConv bf16 .rne (fp32.dec (x.extractLsb' 0 32).toNat)).bits.zeroExtend 512
           else (x.extractLsb' 0 32).zeroExtend 512
  | _ => elemOfVec r.fmt x

/-- The byte address of slot n of an entry's reservoir (R293). -/
def Rill.slotAddr (r : Rill) (p n : Nat) : Nat := mkAddr 1 p (r.rbase * 4096 + n % (64 * r.rsize) * 64)

/-- Back-pressure re-evaluated (R293): asserted above HIGH, released below LOW, unchanged between. -/
def Rill.evalBp (r : Rill) : Rill :=
  { r with bp := if r.high < r.res.length then true else if r.res.length < r.low then false else r.bp }

/-- An item of a CHS form, for the room it takes. -/
def formItem (form : ChsForm) : Item :=
  match form with
  | .eos => .eos
  | .mark => .mark 0
  | _ => .data 0 0

/-- Whether a buffer takes some items one after another: at its capacity it accepts nothing more (R288). -/
def Rill.takesAll (r : Rill) (buf : List Item) : List Item → Bool
  | [] => true
  | x :: t => r.room buf x && Rill.takesAll r (buf ++ [x]) t

/-- Whether an ORDERED send end has room for the items of a block (R288, R293, R298). -/
def Rill.hasRoom (r : Rill) (xs : List ChsForm) : Bool :=
  if r.latest then true else if r.spill then !r.bp else r.takesAll r.buf (xs.map formItem)

/-- The tasks parked on a send end wake when there is room there (R298). -/
def State.roomWake (s : State) (p e : Nat) : State :=
  if (s.rill p e).hasRoom [.eos] then s.wakePlot p (fun w => w == .rill e true) else s

/-- An item appended at a send end: to the send buffer, or to the reservoir when the buffer is full or the reservoir is not empty
(R293). A LATEST end numbers its elements (R292) and, full, lets the oldest go. DESIGN CHOICE (log 37): items beyond 64 × RSIZE, which HIGH = 64 × RSIZE
or a block of several items allows, go round the ring and overwrite its oldest slots; and a slot written keeps its poison, its sideband being left unchanged. -/
def State.append (s : State) (p e : Nat) (x : Item) : State :=
  let r := s.rill p e
  if r.latest then
    let seq := r.seq + 1
    let y := match x with
      | .data ws _ => Item.data ws seq
      | t => t
    s.setRill p e { r with seq := seq, buf := (if r.room r.buf y then r.buf else r.buf.drop 1) ++ [y], moved := s.instant }
  else if r.spill && (!r.res.isEmpty || !r.room r.buf x) then
    let a := r.slotAddr p (r.ringHead + r.res.length)
    (s.wrBytes a (r.itemBytes x)).setRill p e { r with res := r.res ++ [x], moved := s.instant }.evalBp
  else s.setRill p e { r with buf := r.buf ++ [x], moved := s.instant }

/-- The item of a CHS form. -/
def Rill.itemOf (r : Rill) (form : ChsForm) (x : BitVec 512) : Item :=
  match form with
  | .eos => .eos
  | .mark => .mark (x.extractLsb' 0 16)
  | _ => .data (r.elemOf form x) 0

/-- Whether an entry's input converts by R432: FP32 to FP8-BS, FP32 to MXFP4, MXFP4 to FP32, of vectors. -/
def converts (from_ to_ : Nat) (vec : Bool) : Bool :=
  vec && ((from_ == 0 && to_ == 2) || (from_ == 0 && to_ == 3) || (from_ == 3 && to_ == 0))

/-- The entry upstream of an input, if any. -/
def State.upOf (s : State) (p e : Nat) (jin : Bool) : Option (Nat × Nat) :=
  (s.rill p e).ups.find? (fun u => (s.rill p e).role != 3 || (s.rill u.1 u.2).jin == jin)

/-- The format of the items that arrive at an input: that of the entry upstream, which is kept when that entry is removed (R289). -/
def State.srcFmt (s : State) (p e : Nat) (jin : Bool) : Option Nat :=
  match s.upOf p e jin with
  | some (q, f) => some (s.rill q f).fmt
  | none => if jin then (s.rill p e).src1 else (s.rill p e).src

/-- Whether a port's rill is broken (R296): its entry is, or, of a join, an end that feeds it. -/
def State.portBroken (s : State) (p e : Nat) : Bool :=
  let r := s.rill p e
  r.broken || (r.role == 3 && r.ups.any (fun u => (s.rill u.1 u.2).broken))

/-- Whether an input of an entry holds a converter (R432). -/
def State.hasConv (s : State) (p e : Nat) (jin : Bool) : Bool :=
  (s.srcFmt p e jin).any (fun n => converts n (s.rill p e).fmt (s.rill p e).vec)

/-- A list without its first item that is no marker. -/
def dropItem (xs : List Item) : List Item :=
  match xs with
  | [] => []
  | .mark v :: t => .mark v :: dropItem t
  | _ :: t => t

/-- The head item of a receive end consumed at a commit (R290, R299): the credit of a data element returns, or is owed with CMODE 1, unless
a converter took it; that of an EOS returns. Markers now at the head are absorbed. -/
def State.popRill (s : State) (p e : Nat) : State :=
  let r := s.rill p e
  match r.item 0 with
  | none => s
  | some x =>
    let data := x.isData && !s.hasConv p e false
    let s1 := s.setRill p e { r with buf := dropItem r.buf, moved := s.instant, owed := if data && r.cmode then r.owed + 1 else r.owed }
    let s2 := if x.isData && (!data || r.cmode) then s1 else s1.giveBack p e false 1
    (s2.absorb p e).bump p 21 1

/-- A LATEST element consumed: UNREAD cleared if it is still the one read (R292). -/
def State.popLatest (s : State) (p e : Nat) (seq : BitVec 32) : State :=
  (s.onRill p e (fun r => if r.seq = seq then { r with unread := false } else r)).bump p 21 1

/-- The task waits on a port from now on, unless it did already (R304). -/
def State.waitsOn (s : State) (p k port : Nat) (send : Bool) : State :=
  let key := 2 * port + (if send then 1 else 0)
  s.onTask p k (fun t => if t.rwait.any (fun e => e.1 == key) then t else { t with rwait := t.rwait.put key s.instant })

end Sys2Proof.Machine
end

