-- ==== Sys2Proof/Machine/Sync.lean ====
section
/-! DEFINITION. Semaphores and barriers (R383 to R393): the signals, SSET and BARA are commit-point and carry a release; SWAIT, SWAITD and
BARW are gates. -/

namespace Sys2Proof.Machine

open Sys2Proof

/-- The value of semaphore n of a plot's core (R383). -/
def Plot.sem (x : Plot) (n : Nat) : BitVec 16 := x.sems.get n 0

/-- The value that what has happened to a semaphore leaves: sets and consumptions first, then the sum of the increments, which saturates (R384). -/
def SemNow.value (r : SemNow) : BitVec 16 := BitVec.ofNat 16 (min (r.base.toNat + r.inc) 0xFFFF)

/-- What the cycle `now` has made of semaphore n. -/
def Plot.semNow (x : Plot) (now : BitVec 64) (n : Nat) : SemNow :=
  let r := x.semNew.get n ⟨now, x.sem n, 0, 0⟩
  if r.cyc = now ∧ r.value = x.sem n then r else ⟨now, x.sem n, 0, 0⟩

/-- A semaphore changed within a cycle. -/
def Plot.putSem (x : Plot) (n : Nat) (r : SemNow) : Plot := { x with semNew := x.semNew.put n r, sems := x.sems.put n r.value }

/-- What a consumption of semaphore n finds in this cycle: its value without the increments of the cycle, which come last (R384). -/
def State.semFree (s : State) (p n : Nat) : Nat := ((s.plot p).semNow (s.cycOf p) n).base.toNat

/-- A consumption that semaphore n covers (R384). -/
def State.takeSem (s : State) (p n t : Nat) : State :=
  s.onPlot p (fun x =>
    let r := x.semNow (s.cycOf p) n
    x.putSem n { r with base := r.base - BitVec.ofNat 16 t, taken := r.taken + t })

/-- A slot whose captured operands are two INTs. -/
def capture2 (p : Pred) (a b : Opnd) (f : BitVec 64 → BitVec 64 → CKind) (s : State) : Out :=
  runSlot p s (fun cx => (cx.int a).bind (fun x => (cx.int b).bind (fun y => .val (s.capture cx { kind := f x y }))))

/-- SSIG (R386). -/
def execSemSsig (p : Pred) (a b : Opnd) (s : State) : Out := capture2 p a b .ssig s

/-- SSIGR (R386). -/
def execSemSsigr (p : Pred) (a b : Opnd) (s : State) : Out := capture2 p a b .ssigr s

/-- SSET (R386). -/
def execSemSset (p : Pred) (a b : Opnd) (s : State) : Out := capture2 p a b .sset s

/-- The thresholds of the SWAITDs of lower slots on semaphore n (R387). -/
def Cx.lowerTakes (cx : Cx) (n : Nat) : Rd Nat :=
  cx.lowerSum (fun q => match q with
    | .sem m t => if m = n then t else 0
    | _ => 0)
    (fun f => if isForm f 0x70 3 then
        (cx.pendingA f).bind (fun a => if (a.extractLsb' 0 8).toNat = n then
          (cx.pendingB f).bind (fun b => .val (b.extractLsb' 0 16).toNat) else .val 0)
      else .val 0)

/-- A wait on a semaphore (R387): with the lower takes u and the threshold t, it waits until the value covers both; its result is the
value less u. With t = 0 it does not wait; the spec gives no result then where the value is below u, and a free value stands for it. -/
def swaitSlot (p : Pred) (d : Dst) (take : Bool) (a b : Opnd) (s : State) : Out :=
  runSlot p s (fun cx => (cx.int a).bind (fun x => (cx.int b).bind (fun y =>
    let n := (x.extractLsb' 0 8).toNat
    let t := (y.extractLsb' 0 16).toNat
    (cx.lowerTakes n).bind (fun u =>
      let v := ((s.plot cx.p).sem n).toNat
      if t ≠ 0 ∧ v < u + t then .val (s.stallGate cx (.sem n (u + t)))
      else
        let r := if v < u then Config.freeValue s.free else BitVec.ofNat 64 (v - u)
        .val (({ s with free := s.free + 1 }.bump cx.p 18 1).finish cx
          { val := some (.int r), dst := d, pop := if take then some (.sem n t) else none, acq := 0xFF, later := true })))))

/-- SWAIT (R387). -/
def execSemSwait (p : Pred) (d : Dst) (a b : Opnd) (s : State) : Out := swaitSlot p d false a b s

/-- SWAITD: the take is applied at the commit (R387). -/
def execSemSwaitd (p : Pred) (d : Dst) (a b : Opnd) (s : State) : Out := swaitSlot p d true a b s

/-- SRD (R388). -/
def execSemSrd (p : Pred) (d : Dst) (a : Opnd) (s : State) : Out :=
  runSlot p s (fun cx => (cx.int a).bind (fun x =>
    .val (s.result cx d (.int (((s.plot cx.p).sem (x.extractLsb' 0 8).toNat).zeroExtend 64)))))

/-- The die that holds a barrier group and its offset among the cistern registers (R390, R391): level a[6:4], group a[3:0]. The copies of
a pod group are one. -/
def barPlace (p : Nat) (a : BitVec 64) : Option (Nat × Nat) :=
  let g := (a.extractLsb' 0 4).toNat
  match (a.extractLsb' 4 3).toNat with
  | 1 => some (dieOf p, 0x30000 + 256 * quadIn p + 16 * g)
  | 2 => some (dieOf p, 0x33000 + 256 * clusterIn p + 16 * g)
  | 3 => some (dieOf p, 0x33400 + 16 * g)
  | 4 => some (stewardDie, 0x33500 + 16 * g)
  | 5 => some (stewardDie, 0x33600 + 16 * g)
  | _ => none

/-- The place of a group that a task may use: pod groups need feature 3 (R405). -/
def State.barPlace (s : State) (p : Nat) (a : BitVec 64) : Option (Nat × Nat) :=
  if a.extractLsb' 4 3 = 5 ∧ !s.mod.featack.getLsbD 3 then none else Machine.barPlace p a

/-- The state of a barrier group. -/
def State.bar (s : State) (d key : Nat) : Bar := (s.die d).bars.get key {}

/-- BARA: group, level and COUNT in A; the generation is its late result (R392). -/
def execBara (p : Pred) (d : Dst) (a : Opnd) (s : State) : Out :=
  runSlot p s (fun cx => (cx.int a).bind (fun x => .val (s.capture cx { kind := .bara x, dst := d })))

/-- BARW: waits for the end of generation b[15:0] (R393). -/
def execBarw (p : Pred) (d : Dst) (a b : Opnd) (s : State) : Out :=
  runSlot p s (fun cx => (cx.int a).bind (fun x => (cx.int b).bind (fun y =>
    match s.barPlace cx.p x with
    | none => .val (s.abortSlot cx { cause := .barr })
    | some (die, key) =>
      let g := (s.bar die key).gen
      if g = y.extractLsb' 0 16 then .val (s.stallGate cx (.barrier die key x (y.extractLsb' 0 16)))
      else .val (s.finish cx { val := some (.int (g.zeroExtend 64)), dst := d, acq := 0xFF, later := true }))))

end Sys2Proof.Machine
end

