-- ==== Sys2Proof/Machine/Commit.lean ====
section
/-! DEFINITION. The parts of a block's commit (R68): the checks of its commit-point slots in slot order, the room its operations need, the
last-step tests of TAKE and SWAITD, the writes of the commit point, and the issue of operations with what each must wait for (R193, R207). -/

namespace Sys2Proof.Machine

open Sys2Proof

/-! ## Checks -/

/-- What a commit check finds: it passes, a fault, or a condition that waits without one (a migrating extent). -/
inductive Chk where
  | ok
  | bad (c : CauseRec)
  | wait
  deriving DecidableEq, Repr

/-- The answer of the pointer checks. -/
def Homes.chk : Homes → Chk
  | .ok _ => .ok
  | .bad c => .bad c
  | .wait => .wait

/-- Checks 1 to 5 for an engine operand (R313): its cursor and view base must be multiples of `al`. -/
def engPtr (priv : Bool) (p : Ptr) (n al : Nat) (need : BitVec 8) : Chk :=
  match ptrCheck priv p 0 n 0 need with
  | .error c => .bad c
  | .ok o =>
    if p.cur.toNat % al ≠ 0 ∨ p.start % al ≠ 0 then
      .bad { cause := .align, obj := if p.isPhys then 0 else p.obj, off := if p.isPhys then 0 else BitVec.ofNat 40 o,
             phys := if p.isPhys then BitVec.ofNat 64 o else 0 }
    else .ok

/-- One check after another. -/
def Chk.then (a b : Chk) : Chk :=
  match a with
  | .ok => b
  | r => r

/-- An engine command of scope seq that names a remote or host address raises SCSPAN (R208). -/
def State.engSpan (s : State) (die : Nat) (m : Option MX) (p : Ptr) : Chk :=
  match m with
  | some m =>
    if m.scope == .seq && ((p.isPhys && 8 ≤ spaceOf p.physBase && spaceOf p.physBase ≤ 0x12) ||
        s.hostBacked die p (p.start + p.cur.toNat)) then .bad { cause := .scspan } else .ok
  | none => .ok

/-- A RILL trap found at the commit checks (R303). -/
def rillBad (port : BitVec 64) (code : Nat) : Chk :=
  .bad { cause := .rill, info := BitVec.ofNat 64 (code * 256 + (port.extractLsb' 0 8).toNat) }

/-- The checks of CHS (R298). -/
def State.chsCheck (s : State) (p : Nat) (port : BitVec 64) (form : ChsForm) (x : BitVec 512) : Chk :=
  let r := s.rill p port.toNat
  if 63 < port.toNat ∨ r.role ≠ 1 then rillBad port 1
  else if !r.fits form then rillBad port 2
  else if r.latest && (form == .eos || form == .mark) then rillBad port 3
  else if form == .mark && x.extractLsb' 0 16 == 0xFFFF then rillBad port 6
  else if r.broken then rillBad port 7
  else .ok

/-- Credits that the slots below k of the block add to a port, less those they return (R302). -/
def State.lowerOwed (s : State) (cx : Cx) (port : Nat) : Int :=
  (cx.blk.slots.take cx.k).foldl (fun n r =>
    let pops : Int := match r.pop, r.val with
      | some (.rill e), some v => if e = port ∧ v ≠ .pred true ∧ !s.hasConv cx.p port false then 1 else 0
      | _, _ => 0
    let back : Int := match r.act with
      | some a => (match a.kind with
        | .cred q b => if q.toNat = port then b.toNat else 0
        | _ => 0)
      | none => 0
    n + pops - back) 0

/-- The checks of CHC.CRED (R302). DESIGN CHOICE (log 82): a port without CMODE or with LATEST is code 0x03 also where the rill is broken, with n = 0 too, and
a broken one is 0x07 before 0x04. -/
def State.credCheck (s : State) (cx : Cx) (port b : BitVec 64) : Chk :=
  let r := s.rill cx.p port.toNat
  if 63 < port.toNat ∨ r.role ≠ 2 then rillBad port 1
  else if !r.cmode || r.latest then rillBad port 3
  else if r.broken then rillBad port 7
  else if (r.owed : Int) + s.lowerOwed cx port.toNat < (b.toNat : Int) then rillBad port 4
  else .ok

/-- The checks of CHC.SPST (R302): b[20:0] HIGH, b[41:21] LOW. DESIGN CHOICE (log 82): a broken rill is 0x07 before 0x05. -/
def State.spstCheck (s : State) (p : Nat) (port b : BitVec 64) : Chk :=
  let r := s.rill p port.toNat
  let hi := (b.extractLsb' 0 21).toNat
  let lo := (b.extractLsb' 21 21).toNat
  if 63 < port.toNat ∨ r.role ≠ 1 then rillBad port 1
  else if r.broken then rillBad port 7
  else if !r.spill || hi ≤ lo || 64 * r.rsize < hi then rillBad port 5
  else .ok

/-- Rights of a store in a mode (R170). -/
def storeRights (m : StMode) : BitVec 8 := if m == .plain then rW else rW ||| rF

/-- Entries that a TBLW reads, by its form and B (R367). -/
def tblwCount (k : TblKind) (b : BitVec 64) : Nat :=
  match k with
  | .route => (b.extractLsb' 8 9).toNat
  | .name => (b.extractLsb' 0 16).toNat
  | .heat => 1
  | .admc => (b.extractLsb' 0 16).toNat

/-- The commit checks of one slot (R68, R175, R298, R302, R313, R346, R392). DESIGN CHOICE (log 83): a CTX of scope seq is SCSPAN (R230) before any other check
of R175. -/
def State.actCheck (s : State) (cx : Cx) (a : CAct) : Chk :=
  let die := dieOf cx.p
  let priv := cx.task.priv
  let seq := match a.mx with
    | some m => m.scope == .seq
    | none => false
  match a.kind with
  | .store n mode al _ => (s.access die priv a.ptr a.off n al (storeRights mode) (mode != .plain) seq).chk
  | .take n al => (s.access die priv a.ptr a.off n al (rR ||| rT) true seq).chk
  | .amo _ n _ => (s.access die priv a.ptr 0 n n (rR ||| rW ||| rA) true seq).chk
  | .cas n _ _ => (s.access die priv a.ptr 0 n n (rR ||| rW ||| rA) true seq).chk
  | .cst _ => (s.access die priv a.ptr a.off 32 32 (rW ||| rC) true seq).chk
  | .xcpy dst cmd =>
    let len := (cmd.extractLsb' 0 28).toNat
    ((((engPtr priv a.ptr len 4 rR).then (engPtr priv dst len 4 (rW ||| rF))).then
      (if len % 4 ≠ 0 then .bad { cause := .align } else .ok)).then (s.engSpan die a.mx a.ptr)).then (s.engSpan die a.mx dst)
  | .xchn _ => (engPtr priv a.ptr 128 32 (rR ||| rW)).then (s.engSpan die a.mx a.ptr)
  | .xred dst lst =>
    (((((engPtr priv a.ptr 1 4 rR).then (engPtr priv dst 1 4 (rW ||| rF))).then (engPtr priv lst 64 64 rR)).then
      (s.engSpan die a.mx a.ptr)).then (s.engSpan die a.mx dst)).then (s.engSpan die a.mx lst)
  | .xcol .. => if seq then .bad { cause := .scspan } else .ok
  | .xregReg .. => (engPtr priv a.ptr 0 1 (rR ||| rW ||| rF)).then (s.engSpan die a.mx a.ptr)
  | .conf _ =>
    (engPtr priv a.ptr 32 32 rR).then (s.access die priv a.ptr 0 32 32 rR false seq).chk
  | .feed .. =>
    (match ptrCheck priv { a.ptr with cur := 0 } 0 0 0 rR with
    | .error c => .bad c
    | .ok _ => .ok)
  | .wld _ =>
    (match ptrCheck priv { a.ptr with cur := 0 } 0 0 0 rR with
    | .error c => .bad c
    | .ok _ => .ok)
  | .chs port form x => s.chsCheck cx.p port form x
  | .bind port _ =>
    if 63 < port.toNat ∨ (s.rill cx.p port.toNat).role ≠ 2 then rillBad port 1
    else if (s.rill cx.p port.toNat).broken then rillBad port 7 else .ok
  | .cred port b => s.credCheck cx port b
  | .spst port b => s.spstCheck cx.p port b
  | .bara x => if (s.barPlace cx.p x).isNone || x.extractLsb' 16 16 == 0 then .bad { cause := .barr } else .ok
  | .spawn x _ => if 2 ^ 40 ≤ x.toNat ∨ x.toNat % 8 ≠ 0 then .bad { cause := .align } else .ok
  | .csave _ => if seq then .bad { cause := .scspan } else (s.access die priv a.ptr 0 4096 256 rW false false).chk
  | .crest _ => if seq then .bad { cause := .scspan } else (s.access die priv a.ptr 0 4096 256 rR false false).chk
  | .tblw k b => if seq then .bad { cause := .scspan } else (s.access die priv a.ptr 0 (8 * tblwCount k b) 0 rR false false).chk
  | _ => .ok

/-- The byte offset, within the private area, of the task's trap frame. -/
def Task.frameOff (t : Task) : Nat := t.frame.toNat * 256

/-- The header BPC that TRET reads, in the frame that the task's SY.FRAME named when its block started (R118, log 32). -/
def State.tretBpc (s : State) (p k : Nat) (t : Task) : Got := s.getAt (dieOf p) (s.privPtr p t.launch k) t.frameOff 8

/-- A BPC as eight bytes of memory hold it. -/
def Got.bpc : Got → BitVec 40
  | .ok bs => BitVec.ofNat 40 (leNat bs)
  | _ => 0

/-- What a commit check makes of such a read: a poisoned granule is POISON (R168), a migrating extent a wait. DESIGN CHOICE (log 68): a frame
whose home is absent or not resident is ABSENT. -/
def Got.chk (g : Got) (obj : BitVec 24) (off : Nat) : Chk :=
  match g with
  | .ok _ => .ok
  | .poison a => .bad { cause := .poison, phys := BitVec.ofNat 64 a }
  | .wait => .wait
  | .bad _ => .bad { cause := .absent, obj := obj, off := BitVec.ofNat 40 off }

/-- The checks of a branch (R110, R118): a target multiple of 8; TRET needs an active handler. DESIGN CHOICE (log 73): a TRET.AT that fails both
is PRIV, for R70 orders causes by slot and lane only. DESIGN CHOICE (log 68): a frame outside the
private area is CAPB, as for a trap's own frame (R117). -/
def State.brCheck (s : State) (cx : Cx) (b : Br) : Chk :=
  match b with
  | .abs a => if a.toNat % 8 ≠ 0 then .bad { cause := .align } else .ok
  | .tretAt a =>
    if !cx.task.trapAct then .bad { cause := .priv } else if a.toNat % 8 ≠ 0 then .bad { cause := .align } else .ok
  | .tret =>
    if !cx.task.trapAct then .bad { cause := .priv }
    else if cx.task.frameOff + 256 > (s.privArea cx.p cx.task.launch cx.t).2 then
      .bad { cause := .capb, obj := (s.privArea cx.p cx.task.launch cx.t).1, off := BitVec.ofNat 40 cx.task.frameOff }
    else (s.tretBpc cx.p cx.t cx.task).chk (s.privArea cx.p cx.task.launch cx.t).1 cx.task.frameOff
  | _ => .ok

/-- The commit checks of a block from slot k on, in slot order; a cause names its slot. -/
def State.blockCheck (s : State) (cx : Cx) : List SlotRec → Nat → Chk
  | [], _ => .ok
  | r :: t, k =>
    let c := { cx with k := k, sr := r }
    let x := if r.st != .done then Chk.ok else
      (match r.act with
      | some a => s.actCheck c a
      | none => .ok).then (match r.br with
      | some b => s.brCheck c b
      | none => .ok)
    match x with
    | .ok => State.blockCheck s cx t (k + 1)
    | .bad e => .bad { e with slot := k }
    | .wait => .wait

/-! ## Room (R68, R211, R222, R298) -/

/-- The commit-point actions of a block's executed slots, with their slots. -/
def Block.acts (b : Block) : List (Nat × CAct) :=
  (List.range b.slots.length).filterMap (fun k =>
    match b.slots[k]? with
    | some r => if r.st == .done then r.act.map (fun a => (k, a)) else none
    | none => none)

/-- An action whose effect takes place at the commit point itself, so that it is not issued. -/
def CKind.immediate : CKind → Bool
  | .wrs .. => true
  | .take .. => true
  | .chs .. => true
  | .bind .. => true
  | .cred .. => true
  | .spst .. => true
  | .spri .. => true
  | .aset .. => true
  | _ => false

/-- An engine command (R222). -/
def CKind.isEngine : CKind → Bool
  | .xcpy .. => true
  | .xchn .. => true
  | .xred .. => true
  | .xcol .. => true
  | .xregReg .. => true
  | .xregRel .. => true
  | _ => false

/-- A form whose release waits for every operation counted on a stream (R207, R346, R364). -/
def CKind.isRelease : CKind → Bool
  | .ssig .. => true
  | .ssigr .. => true
  | .sset .. => true
  | .bara .. => true
  | .spawn .. => true
  | .wake .. => true
  | .invo .. => true
  | .inva => true
  | .pin .. => true
  | _ => false

/-- A TAKE. -/
def CKind.isTake : CKind → Bool
  | .take .. => true
  | _ => false

/-- Units a block needs on a stream: one for every operation it issues there, and one for the emptying of each TAKE, which returns it at once
(R174, R211). -/
def Block.adds (b : Block) (k : Nat) : Nat :=
  (b.acts.filter (fun x => (!x.2.kind.immediate || x.2.kind.isTake) && (match x.2.mx with
    | some m => m.stream.toNat == k
    | none => false))).length

/-- Whether every stream and the handle list have room (R211, R222). -/
def Task.roomFor (t : Task) (b : Block) : Bool :=
  (List.range 8).all (fun k => b.adds k = 0 || decide (t.strm k + b.adds k ≤ 63)) &&
  ((b.acts.filter (fun x => x.2.kind.isEngine)).isEmpty ||
    decide (t.handles.length + (b.acts.filter (fun x => x.2.kind.isEngine)).length ≤ 24))

/-- The CHS items of a block for a port, in slot order (R298). -/
def Block.chsNeed (b : Block) (port : Nat) : List ChsForm :=
  b.acts.filterMap (fun x => match x.2.kind with
    | .chs q form _ => if q.toNat = port then some form else none
    | _ => none)

/-- The lowest CHS slot whose port has no room for the block's items (R298). -/
def State.chsFull (s : State) (p : Nat) (b : Block) : Option (Nat × Nat) :=
  (b.acts.find? (fun x => match x.2.kind with
    | .chs q _ _ => !(s.rill p q.toNat).hasRoom (b.chsNeed q.toNat)
    | _ => false)).bind (fun x => match x.2.kind with
    | .chs q _ _ => some (x.1, q.toNat)
    | _ => none)

/-- The die cycle in which the last slot of a block was done. -/
def Block.endCyc (b : Block) : BitVec 64 := b.slots.foldl (fun c r => laterCyc c r.cyc) b.mapped

/-- A CHS block that stalls is treated like a stalled gate (R298), and its send end has refused it (R304). -/
def State.chsStall (s : State) (cx : Cx) (k port : Nat) : State :=
  let s1 := (s.waitsOn cx.p cx.t port true).onRill cx.p port (fun r => { r with refused := true })
  match cx.blk.slots[k]? with
  | some r =>
    s1.setSlot { cx with k := k } { r with gate := some (.send port (cx.blk.chsNeed port)), since := cx.blk.endCyc }
  | none => s1

/-! ## The last step before the commit point: SWAITD and TAKE (R181, R387) -/

/-- The thresholds of a block's executed SWAITDs on a semaphore. -/
def Block.takes (b : Block) (n : Nat) : Nat :=
  b.slots.foldl (fun m r => match r.pop with
    | some (.sem k t) => if k = n then m + t else m
    | _ => m) 0

/-- Whether every semaphore covers the takes of the block, before the increments of the cycle (R384, R387). -/
def State.semsCover (s : State) (p : Nat) (b : Block) : Bool :=
  b.slots.all (fun r => match r.pop with
    | some (.sem n _) => decide (b.takes n ≤ s.semFree p n)
    | _ => true)

/-- The takes of SWAITD applied. -/
def State.takeSems (s : State) (p : Nat) (b : Block) : State :=
  b.slots.foldl (fun s r => match r.pop with
    | some (.sem n t) => s.takeSem p n t
    | _ => s) s

/-- The pieces of a TAKE's words at their homes. -/
def State.takePieces (s : State) (cx : Cx) (a : CAct) (n al : Nat) : List (Nat × Nat × Nat) :=
  match s.access (dieOf cx.p) cx.task.priv a.ptr a.off n al (rR ||| rT) true false with
  | .ok ps => ps
  | _ => []

/-- The words that the TAKEs of a block empty, granule by granule, in slot order (R181). -/
def State.takeRecs (s : State) (cx : Cx) : List TakeRec :=
  cx.blk.acts.flatMap (fun x => match x.2.kind, x.2.mx with
    | .take n al, some m => (s.takePieces cx x.2 n al).map (fun y =>
        { obj := if x.2.ptr.isPhys then none else some x.2.ptr.obj, plot := cx.p, half := cx.half, slot := x.1, scope := m.scope, home := y.1, run := y.1 + 640 - y.2.1, words := wordsOf y.1 y.2.2 })
    | _, _ => [])

/-- The next words that the block of a half has to empty. -/
def State.nextTake (s : State) (p : Nat) (h : Bool) : Option TakeRec := s.takes.find? (fun x => x.of p h && !x.done)

/-- Whether a block is emptying words. -/
def State.taking (s : State) (p : Nat) (h : Bool) : Bool := s.takes.any (fun x => x.of p h)

/-- The granules emptied in one home event: those of one TAKE whose homes follow one another (R178, R181). -/
def TakeRec.with (x y : TakeRec) : Bool := y.of x.plot x.half && y.slot == x.slot && y.run == x.run

/-- Whether all the words of a record are full. -/
def State.stillFull (s : State) (x : TakeRec) : Bool := (s.sideAt x.home).pres &&& x.words == x.words

/-- A near cache whose bytes of some words of a granule follow their home (R158). -/
def State.nearWords (s : State) (near : SMap (BitVec 256)) (a : Nat) (w : BitVec 8) : SMap (BitVec 256) :=
  (List.range 8).foldl (fun n i => if w.getLsbD i then nearUpdate n (a / 32 * 32 + 4 * i) (s.rdBytes (a / 32 * 32 + 4 * i) 4) else n) near

/-- One granule of a TAKE emptied at its home (R166, R181): data and TAG unchanged, STAMP its scope; a writer-side mismatch sets SMISS (R200). The near
cache of the core follows as for a store (R158). -/
def State.clearTake (s : State) (k : Nat) (x : TakeRec) : State :=
  let y := s.sideAt x.home
  let s1 := (s.touch x.home x.words).wrSide x.home { y with pres := y.pres &&& ~~~x.words, stamp := x.scope.code }
  let s2 := { s1 with takes := s1.takes.map (fun z => if z == x then { z with stamp := y.stamp, done := true } else z) }
  let s3 := s2.onPlot x.plot (fun z => { z with near := s.nearWords z.near x.home x.words })
  if writerMismatch x.plot x.home x.scope then (s3.bump x.plot 29 1).onTask x.plot k (Task.missed (s.cycOf x.plot)) else s3

/-- The block of a half will be re-executed once what it had taken is full again (R181). -/
def State.failBlock (s : State) (p : Nat) (h : Bool) : State :=
  s.onPlot p (fun x => x.setHalf h { (x.half h) with blk := (x.half h).blk.map (fun b => { b with failed := true }) })

/-- The home event of a TAKE (R181): if all its words there are full they are emptied, else its block fails. A granule poisoned since its load raises
POISON in the task, for the emptying writes fewer than 32 bytes (R168); what the block has emptied is then set full again (DEDUCED, log 84). -/
def State.takeEvent (s : State) (k : Nat) (x : TakeRec) : State :=
  let run := s.takes.filter (fun y => x.with y && !y.done)
  match run.find? (fun y => (s.sideAt y.home).poison) with
  | some y => s.takeException x.plot k { cause := .poison, slot := x.slot, phys := BitVec.ofNat 64 y.home }
      (((((s.plot x.plot).half x.half).blk.map (·.bpc))).getD 0)
  | none =>
  if run.all s.stillFull then run.foldl (fun s y => s.clearTake k y) s else s.failBlock x.plot x.half

/-- A seq TAKE waits in the cistern of its home's die for the token (R208, R209). -/
def State.queueTake (s : State) (k : Nat) (x : TakeRec) : State :=
  let q : SeqReq := ⟨x.plot, k, none, x.half, x.slot, true⟩
  let d := dieOfAddr x.home
  if (s.die d).seqQ.contains q then s else s.setDie d { s.die d with seqQ := (s.die d).seqQ ++ [q] }

/-- A block aborted and re-executed (R67, R281, R299): its task competes again. -/
def State.reexec (s : State) (p k : Nat) : State := ((s.dropBlock p k).withdraw p k).ready p k

/-! ## The commit point -/

/-- The value a WRS leaves in a task's system register (R95 to R97). -/
def Task.wrs (t : Task) (n : Nat) (a : BitVec 64) : Task :=
  match n with
  | 0x002 => { t with pri := a.extractLsb' 0 3 }
  | 0x003 => { t with fctl := a.extractLsb' 3 6 ++ (if a.extractLsb' 0 3 ≤ 4 then a.extractLsb' 0 3 else 0) }
  | 0x004 => { t with sigctl := (t.sigctl.extractLsb' 7 1 &&& ~~~(a.extractLsb' 7 1)) ++ a.extractLsb' 0 7 }
  | 0x006 => { t with smiss := t.smiss && !a.getLsbD 0 }
  | 0x007 => { t with park := a.extractLsb' 0 16 }
  | 0x008 => { t with trapv := (a.extractLsb' 0 40 &&& ~~~7) ||| (a.extractLsb' 0 40 &&& 2) ||| (t.trapv &&& 1) }
  | 0x009 => { t with frame := a.extractLsb' 8 32 }
  | 0x010 => { t with wake := t.wake &&& ~~~(a.extractLsb' 0 16) }
  | _ => t

/-- A WRS to SY.WAKE in die cycle `now`: a bit set in the same cycle stays set (R97, R347). -/
def Task.wrsWake (t : Task) (now : BitVec 64) (a : BitVec 64) : Task :=
  t.wrs 0x010 (a &&& ~~~(if t.wakeCyc == now then t.wakeNew.zeroExtend 64 else 0))

/-- A WRS to SY.SMISS in die cycle `now`: a mismatch that an operation meets in the same cycle is not lost (R97). -/
def Task.wrsMiss (t : Task) (now : BitVec 64) (a : BitVec 64) : Task := if t.smissAt == some now then t else t.wrs 0x006 a

/-- A WRS applied (R96): SY.PMSEL and SY.PMVAL belong to the core; counters 48 to 63 ignore writes (R397). -/
def State.wrs (s : State) (p k n : Nat) (a : BitVec 64) : State :=
  match n with
  | 0x101 => s.onPlot p (fun x => { x with pmsel := a.extractLsb' 0 6 })
  | 0x102 => s.onPlot p (fun x => if x.pmsel.toNat < 48 then x.setCounter (s.cycOf p) x.pmsel.toNat a else x)
  | 0x006 => s.onTask p k (fun t => t.wrsMiss (s.cycOf p) a)
  | 0x010 => s.onTask p k (fun t => t.wrsWake (s.cycOf p) a)
  | _ => s.onTask p k (fun t => t.wrs n a)

/-- The late result of an operation does not reach a register that a later block has bound or written (R177). -/
def Op.outdated (o : Op) (d : Dst) : Op := if o.act.dst == d && d != .none then { o with stale := true } else o

/-- A result written to its register (R68). A register still owed a late result takes it once that has arrived (R177). -/
def Task.writeReg (t : Task) (d : Dst) (v : Val) : Task :=
  if t.latePending d then
    { t with ops := t.ops.map (fun o => o.outdated d), heldWrites := t.heldWrites.filter (fun w => w.1 != d) ++ [(d, v)] }
  else { t with regs := t.regs.write d v }

/-- The results of a block written to their registers (R65, R68). -/
def Task.writeRegs (t : Task) (b : Block) : Task :=
  b.slots.foldl (fun t r => match r.st, r.val with
    | .done, some v => if r.dst == .none then t else t.writeReg r.dst v
    | _, _ => t) t

/-- The flags, IDZ, SIGLOST, SMISS and acquire bits of a block, ORed in after its WRS (R39, R49, R96, R199, R201). -/
def Task.writeFlags (t : Task) (b : Block) : Task :=
  b.slots.foldl (fun t r =>
    if r.st != .done then t
    else { t with
      fctl := t.fctl ||| (((r.flags.zeroExtend 9 : BitVec 9)) <<< 3) ||| (if r.idz then (0x100 : BitVec 9) else 0)
      sigctl := if r.siglost then t.sigctl ||| 0x80 else t.sigctl
      smiss := t.smiss || r.smiss
      acq := t.acq ||| r.acq }) t

/-- A row of a tile drained by DRN (R253, R280): the cursor, and EMPTY once it reaches ROWS. -/
def State.popTile (s : State) (p t c : Nat) (last : Bool) : State :=
  (s.onFu p (fun u =>
    let x := u.tile t
    let cur := if last then x.rows else c + 1
    u.setTile t { x with cur := cur, st := if cur = x.rows then .empty else x.st })).bump p 25 1

/-- The consumption of a block's pops, in slot order (R67). -/
def State.pops (s : State) (p : Nat) (b : Block) : State :=
  b.slots.foldl (fun s r => match r.st, r.pop with
    | .done, some (.rill e) => s.popRill p e
    | .done, some (.latest e q) => s.popLatest p e q
    | .done, some (.tile t c l _) => s.popTile p t c l
    | _, _ => s) s

/-- Whether a block that has executed the first stands on what a commit of the second consumes (R281, R299). -/
def Pop.sameQueue (a b : Pop) : Bool :=
  match a, b with
  | .rill e, .rill f => e == f
  | .head e, .rill f => e == f
  | .latest e _, .latest f _ => e == f
  | .tile t _ _ _, .tile u _ _ _ => t == u
  | _, _ => false

/-- Another task's block that has popped a queue this commit pops from, or has found its head to be data, is aborted and re-executed (R281,
R299). -/
def State.abortOther (s : State) (p own : Nat) (half : Bool) (b : Block) : State :=
  let y := (s.plot p).half (!half)
  match y.task, y.blk with
  | some k, some c =>
    if k != own && c.slots.any (fun r => match r.pop with
        | some q => b.slots.any (fun r2 => match r2.pop with
          | some q2 => q.sameQueue q2
          | none => false)
        | none => false) then s.reexec p k else s
  | _, _ => s

/-- An effect of the commit point (R68): CHS appends (R298), CHC (R302), SPRI (R347), ADM.ASET (R283). -/
def State.applyAct (s : State) (p : Nat) (a : CAct) : State :=
  match a.kind with
  | .chs port form x =>
    ((s.append p port.toNat ((s.rill p port.toNat).itemOf form x)).onRill p port.toNat (fun r => { r with refused := false })).bump p 20 1
  | .bind port b => s.onRill p port.toNat (fun r =>
      { r with wtask := (b.extractLsb' 0 4).toNat, wbit := (b.extractLsb' 4 4).toNat, wen := b.getLsbD 8 })
  | .cred port b => (s.onRill p port.toNat (fun r => { r with owed := r.owed - b.toNat })).giveBack p port.toNat false b.toNat
  | .spst port b => (s.onRill p port.toNat (fun r =>
      { r with high := (b.extractLsb' 0 21).toNat, low := (b.extractLsb' 21 21).toNat }.evalBp)).roomWake p port.toNat
  | .spri x b =>
    if 15 < x.toNat ∨ (s.task p x.toNat).st == .free then s
    else s.onTask p x.toNat (fun t => t.setPri (s.cycOf p) (b.extractLsb' 0 3))
  | .aset x b =>
    if (s.fieldOf p).isNone then s
    else
      let c := (max 1 (min 1024 b.toInt)).toNat
      s.onFu p (fun u =>
        if x.getLsbD 0 then { u with port1 := { u.port1 with pcap := c }.clampCnt }
        else { u with port0 := { u.port0 with pcap := c }.clampCnt })
  | _ => s

/-! ## Issue -/

/-- The handle of an engine command (R222). DESIGN CHOICE (log 85): ENG of an XRED is 0; that of a copy is its stream mod 4 (R310), whatever the worked
example of R222 shows. -/
def handleWord (k : CKind) (die : Nat) (m : MX) (serial : BitVec 40) : BitVec 64 :=
  let op := match k with
    | .xcpy .. => 0x58
    | .xchn .. => 0x59
    | .xred .. => 0x5A
    | .xcol .. => 0x5B
    | _ => 0x5C
  let eng := match k with
    | .xcpy .. => m.stream.toNat % 4
    | .xchn .. => m.stream.toNat % 4
    | _ => 0
  BitVec.ofNat 64 (op * 2^57 + die * 2^48 + eng * 2^46 + m.stream.toNat * 2^40 + serial.toNat)

/-- The tile an ACC form names (R282). -/
def CKind.accTile : CKind → Option Nat
  | .aclr a => some (a.extractLsb' 0 4).toNat
  | .asta a => some (a.extractLsb' 0 4).toNat
  | _ => none

/-- The semaphore of its own core p that an SSIG, an SSET or an SSIGR names (R386). -/
def State.localSem (s : State) (p : Nat) (k : CKind) : Option Nat :=
  match k with
  | .ssig a _ => some (a.extractLsb' 0 8).toNat
  | .sset a _ => some (a.extractLsb' 0 8).toNat
  | .ssigr a _ => if s.resolve (a.extractLsb' 32 32) == some p then some (a.extractLsb' 0 8).toNat else none
  | _ => none

/-- Whether an operation of a task of plot p must wait for an earlier one of its task: by its mask (R193), by scope seq for seq operations (R208),
by its release (R207, R346, R364), or in the order of two ACC forms on one tile (R272) or two signals and sets of one local semaphore (R386). -/
def State.mustFollow (s : State) (p : Nat) (a : CAct) (o : Op) : Bool :=
  (match a.mx, o.act.mx with
    | some m, some q => inMask q m.mask || (m.scope == .seq && o.act.isSeq)
    | _, _ => false) ||
  (a.kind.isRelease && o.act.mx.isSome) ||
  (match a.kind.accTile, o.act.kind.accTile with
    | some t, some u => t == u
    | _, _ => false) ||
  (match s.localSem p a.kind, s.localSem p o.act.kind with
    | some n, some m => n == m
    | _, _ => false)

/-- The accepted host writes that an operation of scope host must see complete (R193, R194): those whose stream its mask names. -/
def Task.hostDeps (t : Task) (a : CAct) : List Nat :=
  match a.mx with
  | some m => if m.scope == .host then (t.hostOps.filter (fun x => m.mask.getLsbD x.2.toNat)).map (·.1) else []
  | none => []

/-- The words of a group-table entry (R323): N and RANK, then the members. -/
def State.groupEntry (s : State) (g : Nat) : List (BitVec 64) := (List.range 9).map (fun i => s.mod.groups.get (128 * g + 8 * i) 0)

/-- An engine command taken by the cistern of the task's die (R310): its handle, and its command; an XCOL is the k-th on its name that this
module's tasks have issued, registered or not (R325). -/
def State.issueCmd (s : State) (cx : Cx) (a : CAct) (o : Op) : State :=
  match a.mx with
  | none => s
  | some m =>
    let die := dieOf cx.p
    let d := s.die die
    let h := handleWord a.kind die m d.serial
    let t := s.task cx.p cx.t
    let name := match a.kind with
      | .xcol _ n _ => n
      | _ => 0
    let k := s.mod.colCount.get name.toNat 0
    let s1 := s.setDie die { d with serial := d.serial + 1 }
    let s2 := match a.kind with
      | .xcol .. => s1.onMod (fun m => { m with colCount := m.colCount.put name.toNat (k + 1) })
      | _ => s1
    let grp := match a.kind with
      | .xcol .. => s.groupEntry (name.extractLsb' 0 8).toNat
      | _ => []
    let c : Cmd :=
      { serial := o.serial, handle := h, act := a, deps := o.deps, plot := cx.p, name := s.nameOf cx.p, launch := t.launch,
        uid := t.uid, bpc := cx.blk.bpc, slot := o.slot, priv := t.priv, recPtr := a.ptr, k := k, group := grp, acq := o.acq }
    ({ s2 with cmds := s2.cmds ++ [c] }.onTask cx.p cx.t (fun t => { t with handles := t.handles ++ [(o.serial, h)] })).bump cx.p 14 1

/-- The pointer registers c0 to c6. -/
def Regs.first7 (r : Regs) : Vector Ptr 7 := #v[r.c[0], r.c[1], r.c[2], r.c[3], r.c[4], r.c[5], r.c[6]]

/-- The homes of a memory operation, as its commit checks found them (R171). -/
def State.actHomes (s : State) (cx : Cx) (a : CAct) : List (Nat × Nat × Nat) :=
  let go := fun (off : BitVec 64) (n : Nat) =>
    match s.access (dieOf cx.p) cx.task.priv a.ptr off n 0 0 false false with
    | .ok ps => ps
    | _ => []
  match a.kind with
  | .store n _ _ _ => go a.off n
  | .amo _ n _ => go 0 n
  | .cas n _ _ => go 0 n
  | .cst _ => go a.off 32
  | _ => []

/-- A slot's record with the homes that its store, AMO, CAS or CST has found, and the object they belong to. -/
def State.withHomes (s : State) (cx : Cx) (r : SlotRec) : SlotRec :=
  match r.st, r.act with
  | .done, some a => if a.kind.isMem && !a.kind.isTake then { r with homes := (if a.ptr.isPhys then none else some a.ptr.obj, s.actHomes cx a) } else r
  | _, _ => r

/-- A block that empties words keeps the homes that its commit checks have found for its other operations, which use them when they are issued (R171,
R361). -/
def State.keepHomes (s : State) (cx : Cx) : State :=
  if cx.blk.acts.any (fun x => x.2.kind.isTake) then
    s.setHalf cx.p cx.half { task := some cx.t, blk := some { cx.blk with slots := cx.blk.slots.map (s.withHomes cx) } }
  else s

/-- The homes with which a slot's operation is issued: those kept while the block emptied words, else those of this instant. -/
def State.issueHomes (s : State) (cx : Cx) (k : Nat) (a : CAct) : List (Nat × Nat × Nat) :=
  match cx.blk.slots[k]? with
  | some r => if r.homes.2.isEmpty then s.actHomes cx a else r.homes.2
  | none => s.actHomes cx a

/-- A commit-point operation issued (R68): it takes its stream unit, knows what it waits for, and an engine command takes a handle. What an
earlier block has bound or written to its register does not stand (R177). -/
def State.issue (s : State) (cx : Cx) (k : Nat) (a : CAct) : State :=
  let t := s.task cx.p cx.t
  let acq := match a.mx with
    | some m => { cx with k := k }.acqStreams &&& m.mask != 0
    | none => false
  let o : Op :=
    { serial := s.uid, act := a, bpc := cx.blk.bpc, slot := k, deps := (t.ops.filter (s.mustFollow cx.p a)).map (·.serial) ++ t.hostDeps a,
      priv := t.priv, regs := t.regs.first7, pri := cx.blk.pri0, acq := acq, homes := s.issueHomes cx k a }
  let s1 := { s with uid := s.uid + 1 }.setTask cx.p cx.t { t with
    ops := t.ops.map (fun (q : Op) => q.outdated a.dst) ++ [o], heldWrites := t.heldWrites.filter (fun w => w.1 != a.dst) }
  let s2 := if a.kind.isMem then s1.bump cx.p 13 1 else s1
  let s3 := match a.kind with
    | .bara _ => s2.bump cx.p 19 1
    | _ => s2
  if a.kind.isEngine then s3.issueCmd cx a o else s3

/-- A HALTC. -/
def CKind.isHalt : CKind → Bool
  | .haltc _ => true
  | _ => false

/-- A HALTC waits for every other operation of its task, those of higher slots of its block included (R354). -/
def Task.haltDeps (t : Task) : Task :=
  { t with ops := t.ops.map (fun o => match o.act.kind with
      | .haltc _ => { o with deps := (t.ops.filter (fun q => !q.act.kind.isHalt)).map (·.serial) }
      | _ => o) }

/-- Whether a block holds an executed HALTC. -/
def Block.halts (b : Block) : Bool :=
  b.acts.any (fun x => x.2.kind.isHalt)

/-- A branch target as BPC: outside 40 bits it is beyond every code object (R58). -/
def Task.goto (t : Task) (x : Int) : Task := { t with bpc := BitVec.ofInt 40 x, far := !(0 ≤ x ∧ x < 2 ^ 40) }

/-- The transfer of control of a committed block (R64, R110 to R118), and the state its task takes (R343). With an executed HALTC it is the
task's last (R354). DESIGN CHOICE (log 68): a PARK tests
SY.WAKE after a WRS of its own block has cleared bits of it, both being effects of one commit point. DESIGN CHOICE (log 86): a TRAP that ends the task
itself (R117) names in its record the address behind its block, the BPC that its frame would have saved. -/
def State.transfer (s : State) (cx : Cx) : State :=
  let p := cx.p
  let k := cx.t
  let next : Int := ((cx.blk.bpc.toNat + 8 * (cx.blk.words.length + 1) : Nat) : Int)
  let br := cx.blk.slots.findSome? (fun r => if r.st == .done then r.br else none)
  let slot := cx.blk.slots.findIdx (fun r => r.st == .done && r.br.isSome)
  let rel := fun (x : BitVec 19) => (cx.blk.bpc.toNat : Int) + 8 * x.toInt
  let s := if cx.blk.halts then s.onTask p k (fun t => { t with halting := true }) else s
  match br with
  | none => (s.onTask p k (fun t => t.goto next)).ready p k
  | some (.rel x) => (s.onTask p k (fun t => t.goto (rel x))).ready p k
  | some (.call _ x) => (s.onTask p k (fun t => t.goto (rel x))).ready p k
  | some (.abs a) => (s.onTask p k (fun t => t.goto (a.toNat : Int))).ready p k
  | some .endt => s.onTask p k (fun t => { t with st := .running, pend := 0, pendInfo := [], engQ := [], leaving := .ended })
  | some .yielded => (s.onTask p k (fun t => t.goto next)).ready p k
  | some (.park m) =>
    let s1 := s.onTask p k (fun t => t.goto next)
    if (s1.task p k).wake &&& m != 0 then s1.ready p k
    else s1.onTask p k (fun t => { t with st := .wait, wait := .park m })
  | some (.trap n) =>
    (s.onTask p k (fun t => t.goto next)).raiseCause p k { cause := .trap, num := n, slot := slot } (BitVec.ofInt 40 next)
  | some .tret =>
    let b := (s.tretBpc p k cx.task).bpc
    (s.onTask p k (fun t => { (t.leaveHandler.waitAgain b) with bpc := b, far := false })).ready p k
  | some (.tretAt a) => (s.onTask p k (fun t => (t.leaveHandler.waitAgain (a.extractLsb' 0 40)).goto (a.toNat : Int))).ready p k

/-- What the register window shows of a task from a commit on (R161). -/
def State.showTask (s : State) (p k : Nat) : State :=
  let v : Shown := ⟨(s.task p k).bpc, (s.task p k).regs, (s.task p k).strmWord, BitVec.ofNat 64 ((s.task p k).seqOps % 64),
    (List.range 0x11).map (s.sysRead p k)⟩
  s.onTask p k (fun t => { t with shown := some v })

/-- The commit point of a block whose checks have passed, and the issue of its operations (R68). Performance counter 13 counts the emptyings of
its TAKEs among them (R174, R397). -/
def State.commit (s : State) (cx : Cx) : State :=
  let p := cx.p
  let k := cx.t
  let b := cx.blk
  let acts := b.acts
  let s1 := s.setHalf p cx.half {}
  let s2 := s1.onTask p k (fun t => t.writeRegs b)
  let s3 := acts.foldl (fun s x => match x.2.kind with
    | .wrs n a => s.wrs p k n a
    | _ => s) s2
  let s4 := s3.onTask p k (fun t => { (t.writeFlags b) with rwait := [], refault := none })
  let s5 := s4.pops p b
  let s6 := acts.foldl (fun s x => s.applyAct p x.2) s5
  let s7 := ((s6.bump p 1 1).bump p (32 + k) 1).bump p 13 (acts.filter (fun x => x.2.kind.isTake)).length
  let s8 := s7.transfer cx
  let s9 := acts.foldl (fun s x => if x.2.kind.immediate then s else s.issue cx x.1 x.2) s8
  let s10 := (s9.onTask p k Task.haltDeps).abortOther p k cx.half b
  let s11 := if acts.isEmpty then s10 else s10.onTask p k (fun t => { t with causeStrm := t.strmWord })
  (s11.showTask p k).settle p k

/-- The context of a mapped block. -/
def State.blockCx (s : State) (p : Nat) (h : Bool) : Option Cx :=
  let y := (s.plot p).half h
  match y.task, y.blk with
  | some t, some b => if t < 16 then some ⟨p, h, t, 0, 0, false, b, {}, s.task p t⟩ else none
  | _, _ => none

end Sys2Proof.Machine
end

