-- ==== Sys2Proof/Machine/Restore.lean ====
section
/-! DEFINITION. Restoring a task from a full save frame (R223, R224), and what the hardware still writes into a frame while its task is
saved (R227). -/

namespace Sys2Proof.Machine

open Sys2Proof

/-- A field of a frame's bytes: n bytes at an offset, as a number. -/
def frameNat (bs : List Byte) (off n : Nat) : Nat := leNat ((bs.drop off).take n)

/-- A word of a frame. -/
def frameW (bs : List Byte) (off : Nat) : BitVec 64 := BitVec.ofNat 64 (frameNat bs off 8)

/-- The pointer at index i of a frame, valid only with its granule's TAG and its validity bit (R224). -/
def framePtr (bs : List Byte) (i : Nat) (tag : Bool) : Ptr :=
  ⟨BitVec.ofNat 128 (frameNat bs (0x440 + 32 * i) 16), BitVec.ofNat 40 (frameNat bs (0x440 + 32 * i + 16) 5),
   tag && (frameNat bs (0x440 + 32 * i + 21) 1) % 2 == 1⟩

/-- The registers of a frame; tags are those of its c granules in order (R223). -/
def frameRegs (bs : List Byte) (tags : List Bool) : Regs where
  g := Vector.ofFn (fun (i : Fin 64) => frameW bs (0x100 + 8 * i.val))
  f := Vector.ofFn (fun (i : Fin 32) => ⟨frameW bs (0x300 + 8 * i.val), BitVec.ofNat 6 (frameNat bs (0x400 + i.val) 1)⟩)
  v := Vector.ofFn (fun (i : Fin 16) => ⟨BitVec.ofNat 512 (frameNat bs (0x600 + 64 * i.val) 64),
    BitVec.ofNat 96 ((List.range 16).foldl (fun n l => n + (frameNat bs (0xA00 + 16 * i.val + l) 1 % 64) * 2 ^ (6 * l)) 0)⟩)
  c := Vector.ofFn (fun (i : Fin 8) => framePtr bs i.val (tags.getD i.val false))

/-- Whether a port of a plot is a send end: its entry's ROLE is 1 (R286). -/
def State.rillIsSend (s : State) (p e : Nat) : Bool :=
  match (s.plot p).rills.find? (fun r => r.1 == e) with
  | some r => r.2.ent.extractLsb' 39 3 == 1
  | none => false

/-- The wait a frame records (R223). A presence wait names its granule, a barrier wait its level and group. -/
def State.frameWait (s : State) (p : Nat) (bs : List Byte) : WaitFor :=
  let tgt := frameW bs 0xB98
  match frameNat bs 0xB90 1 % 8 with
  | 1 => .presence [tgt.toNat] false
  | 2 => .sem tgt.toNat
  | 3 =>
    let g := (tgt.extractLsb' 0 4).toNat
    (match (tgt.extractLsb' 4 3).toNat with
    | 1 => .barrier (dieOf p) (0x30000 + 256 * quadIn p + 16 * g) tgt
    | 2 => .barrier (dieOf p) (0x33000 + 256 * clusterIn p + 16 * g) tgt
    | 3 => .barrier (dieOf p) (0x33400 + 16 * g) tgt
    | 4 => .barrier stewardDie (0x33500 + 16 * g) tgt
    | 5 => .barrier stewardDie (0x33600 + 16 * g) tgt
    | _ => .none)
  | 4 => .rill tgt.toNat (s.rillIsSend p tgt.toNat)
  | 5 => .drain tgt.toNat
  | 6 => .park (tgt.extractLsb' 0 16)
  | _ => .none

/-- A wait whose granules have new homes: those that an object names, and, with `all`, those of physical addresses too. -/
def WaitFor.rehome (w : WaitFor) (f : Nat → Nat) (all : Bool) : WaitFor :=
  match w with
  | .presence gs phys => if all || !phys then .presence (gs.map f) phys else w
  | _ => w

/-- The condition of a stalled gate whose words have new homes. -/
def Gate.rehome (g : Gate) (f : Nat → Nat) (all : Bool) : Gate :=
  match g with
  | .presence ps phys => if all || !phys then .presence (ps.map (fun x => (f x.1, x.2))) phys else g
  | _ => g

/-- The waits of tasks, saved ones too, follow granules to their new homes (R66, R214, R352). -/
def State.rehomeWaits (s : State) (f : Nat → Nat) (all : Bool) : State :=
  { s with
    plots := s.plots.map (fun (x : Nat × Plot) => (x.1, { x.2 with tasks := x.2.tasks.map (fun t => { t with wait := t.wait.rehome f all }) }))
    launches := s.launches.map (fun l => { l with
      frames := l.frames.map (fun y => { y with wait := y.wait.rehome f all })
      stay := l.stay.map (fun y => (y.1, y.2.1, { y.2.2 with wait := y.2.2.wait.rehome f all })) })
    mod := { s.mod with saves := s.mod.saves.map (fun n => { n with wait := n.wait.rehome f all }) } }

/-- The engine handles of a frame (R220, R222). -/
def frameHandles (bs : List Byte) : List (BitVec 64) :=
  (List.range (min 24 (frameNat bs 0x38 1 % 32))).map (fun h => frameW bs (0x40 + 8 * h))

/-- The command a handle names, while it is outstanding. -/
def State.cmdOf (s : State) (h : BitVec 64) : Option Cmd := s.cmds.find? (fun c => c.handle == h)

/-- The handles a restored task keeps: those outstanding, with their commands' serials, and the failed ones (R213, R221). -/
def State.keptHandles (s : State) (hs : List (BitVec 64)) : List (Nat × BitVec 64) :=
  hs.filterMap (fun h =>
    match s.cmdOf h with
    | some c => some (c.serial, h)
    | none => if h.getLsbD 56 then some (0, h) else none)

/-- An operation of which a restored task holds only the stream unit, and the acquire effect that its command has still to make (R199). -/
def keptOp (serial : Nat) (h : BitVec 64) (mx : Option MX) (bpc : BitVec 40) (acq made : Bool) : Op :=
  { serial := serial, act := { kind := .handle h, mx := mx }, bpc := bpc, slot := 0, deps := [], acq := acq, made := made }

/-- The commands that field units hold for a named task: its FEEDs and WLDs that have not performed (R277, R278). -/
def State.heldCmds (s : State) (uid : Nat) : List Op :=
  let ofUnit := fun (feeds : List FeedCmd) (wlds : List WldCmd) =>
    (feeds.filter (fun c => c.uid == uid)).map (fun c => keptOp c.serial 0 c.mx c.bpc false false) ++
    (wlds.filter (fun c => c.uid == uid)).map (fun c => keptOp c.serial 0 c.mx c.bpc false false)
  s.plots.flatMap (fun x => ofUnit x.2.fu.feeds x.2.fu.wlds) ++
    s.launches.flatMap (fun l => l.savedFields.flatMap (fun f => f.held.flatMap (fun h => ofUnit h.feeds h.wlds)))

/-- Of operations, the first n of scope seq are counted as such; any further one is ordered as one of wafer scope (R224). -/
def seqCounted : Nat → List Op → List Op
  | _, [] => []
  | n, o :: t =>
    match o.act.mx with
    | some m =>
      if m.scope == .seq then
        (match n with
        | 0 => { o with act := { o.act with mx := some { m with scope := .wafer } } } :: seqCounted 0 t
        | n + 1 => o :: seqCounted n t)
      else o :: seqCounted n t
    | none => o :: seqCounted n t

/-- The operations whose stream units a restored task holds again (R213, R224): those of the handles still outstanding and of the commands that
field units hold for it, with the frame's count of seq operations. -/
def State.keptOps (s : State) (hs : List (BitVec 64)) (uid seqs : Nat) : List Op :=
  seqCounted seqs (hs.filterMap (fun h => (s.cmdOf h).map (fun c => keptOp c.serial h c.act.mx c.bpc c.acq c.allMade)) ++ s.heldCmds uid)

/-- What the hardware noted of a save frame when it wrote it: found by the plot, the slot and the time that the frame names. -/
def State.noteOf (s : State) (bs : List Byte) : Option SaveNote :=
  s.mod.saves.find? (fun n => BitVec.ofNat 64 n.plot == frameW bs 0xB58 && n.slot == frameNat bs 0xB08 1 % 16 && n.wtime == frameW bs 0x28)

/-- The wait that a frame re-arms: all the granules that the noted one waited on, while the frame still names the wait as it was written (R66, R224). -/
def SaveNote.rearm (n : Option SaveNote) (w : WaitFor) : WaitFor :=
  match n, w with
  | some n, .presence .. => if n.wait.kind == 1 && n.tgt == w.target then n.wait else w
  | _, _ => w

/-- The failed handles of a frame whose ENGINE is still to be raised: while a handler runs, the first of several is its own (R219, R221). -/
def failedHandles (hs : List (BitVec 64)) (act : Bool) : List (BitVec 64) :=
  let es := hs.filter (fun h => h.getLsbD 56)
  if act && 1 < es.length then es.drop 1 else es

/-- What a slot remembers of its task while it is saved: its name, whether it would have been woken, and the wake bits set since (R224). -/
structure Kept where
  uid : Nat
  woken : Bool := false
  wake : BitVec 16 := 0
  pri : Option (BitVec 3) := none
  deriving DecidableEq, Repr

/-- The task a full frame describes (R224), for a slot of plot p; `tags` are those of its c granules. A pending cause is restored with the
frame's pending bits; its INFO is what it was (R221), a free value where a program has made up the bit (log 42). -/
def State.taskOfFrame (s : State) (p : Nat) (bs : List Byte) (tags : List Bool) (kept : Kept) (suspend : Bool) : Task :=
  let sys := fun (n : Nat) => frameW bs (0xB00 + 8 * n)
  let hs := frameHandles bs
  let wake := (sys 0x010).extractLsb' 0 16 ||| kept.wake
  let note := s.noteOf bs
  let w := SaveNote.rearm note (s.frameWait p bs)
  let met := match w with
    | .none => true
    | .park m => wake &&& m != 0
    | _ => kept.woken
  let pend := BitVec.ofNat 16 (frameNat bs 0xBA0 2)
  let free := Config.freeValue s.free
  let asyncNow := pend != 0 && !(sys 0x008).getLsbD 0
  let ready := met || asyncNow
  { st := if suspend then .suspended else if ready then .ready else .wait
    regs := frameRegs bs tags
    bpc := BitVec.ofNat 40 (frameNat bs 0 5)
    priv := (sys 0x001).getLsbD 48
    launch := (sys 0x001).extractLsb' 16 32
    pri := (sys 0x002).extractLsb' 0 3
    fctl := (sys 0x003).extractLsb' 0 9
    sigctl := (sys 0x004).extractLsb' 0 8
    smiss := (sys 0x006).getLsbD 0
    park := (sys 0x007).extractLsb' 0 16
    trapv := ((sys 0x008).extractLsb' 0 40) &&& ~~~4
    frame := (sys 0x009).extractLsb' 8 32
    wake := wake
    uid := kept.uid
    ops := s.keptOps hs kept.uid (frameNat bs 0x548 1 % 64)
    handles := s.keptHandles hs
    wait := if suspend || ready then .none else w
    pend := pend &&& 9
    pendInfo := if pend.getLsbD 0 then [(0, (note.map (·.info)).getD free)] else []
    acq := (note.map (·.acq)).getD 0
    engQ := if pend.getLsbD 3 then (failedHandles hs ((sys 0x008).getLsbD 0)).map (fun w =>
      (w, s.mod.engCodes.get (w &&& ~~~(BitVec.twoPow 64 56)).toNat (free.extractLsb' 8 8))) else []
    since := s.cycOf p
    turn := s.uid
    notBefore := some (frameW bs 0xB70) }

/-- A task restored into slot k of plot p from the frame at a position of a pointer (R224); the core discards its near cache (R213). No
answer when the frame cannot be read. -/
def State.restoreTask (s : State) (p k : Nat) (src : Ptr) (q : Nat) (kept : Kept) (suspend : Bool) : Option State :=
  match s.getObj (dieOf p) src q 4096 with
  | none => none
  | some bs =>
    let tags := (List.range 8).map (fun i => s.tagAt (dieOf p) src (q + 0x440 + 32 * i))
    let t := s.taskOfFrame p bs tags kept suspend
    some (({ s with uid := s.uid + 1, free := s.free + 1 }.setTask p k t).onPlot p (fun x => { x with near := [] }))

/-- A word of a saved frame changed by the hardware (R227): a plain store at wafer scope; a poisoned granule is
left as it is (R168). Over a host link that is down the reading and the store leave their records (R156). -/
def State.patchFrame (s : State) (die : Nat) (launch : BitVec 32) (dst : Ptr) (q : Nat) (f : BitVec 64 → BitVec 64) : State :=
  match s.getObj die dst q 8 with
  | none => s
  | some bs => ((s.noteLost die launch dst q 8).putObj die launch dst q (leBytes (f (BitVec.ofNat 64 (leNat bs))).toNat 8) 4).getD s

/-- The frame of a saved task told of an engine error: the ERR bit of handle i, and ENGINE pending (R227). -/
def State.frameError (s : State) (die : Nat) (launch : BitVec 32) (dst : Ptr) (q i : Nat) : State :=
  let s1 := s.patchFrame die launch dst (q + 0x40 + 8 * i) (fun w => w ||| BitVec.twoPow 64 56)
  s1.patchFrame die launch dst (q + 0xBA0) (fun w => w ||| 8)

end Sys2Proof.Machine
end

