-- ==== Sys2Proof/Machine/Perform.lean ====
section
/-! DEFINITION. How an issued commit-point operation performs (R176, R177, R194, R199 to R201): its end, its deferred fault, and the home
events of stores, AMO, CAS and CST (R179 to R188, R208). -/

namespace Sys2Proof.Machine

open Sys2Proof

/-! ## The end of an operation -/

/-- An outstanding operation of a task, by its serial. -/
def State.opOf (s : State) (p k serial : Nat) : Option Op := (s.task p k).ops.find? (fun o => o.serial == serial)

/-- Whether an operation's scope is host, the only one that an accepted host write has not performed at (R194). -/
def Op.hostScope (o : Op) : Bool := o.act.mx.any (fun m => m.scope == .host)

/-- Whether everything an operation must follow has performed at its scope (R193, R194); a release waits at wafer scope (R207, R354). -/
def Task.depsMet (t : Task) (o : Op) : Bool :=
  o.deps.all (fun d => !t.ops.any (fun q => q.serial == d && (!q.accepted || o.hostScope)) &&
    !(o.hostScope && t.hostOps.any (fun x => x.1 == d)))

/-- An outstanding operation changed by a function. -/
def State.onOp (s : State) (p k serial : Nat) (f : Op → Op) : State :=
  s.onTask p k (fun t => { t with ops := t.ops.map (fun o => if o.serial == serial then f o else o) })

/-- Whether q is the operation o, whatever has become of it since. -/
def Op.same (o q : Op) : Bool := q.serial == o.serial && q.act == o.act

/-- An operation ends: it is outstanding no longer, and its late result reaches its register unless a later block has written or bound it. What later
blocks wrote there takes effect once no late result is owed to it (R177). -/
def Task.opEnds (t : Task) (o : Op) (late : Option Val) : Task :=
  match t.ops.find? o.same with
  | none => t
  | some q =>
    let d := o.act.dst
    let u := { t with
      regs := match late with
        | some v => if q.stale then t.regs else t.regs.write d v
        | none => t.regs
      ops := t.ops.filter (fun x => !o.same x) }
    if d == .none || u.latePending d then u
    else { u with regs := u.heldWrites.foldl (fun r w => if w.1 == d then r.write d w.2 else r) u.regs
                  heldWrites := u.heldWrites.filter (fun w => w.1 != d) }

/-- An operation has performed: it ends, its stream unit returns, and a task that waited for it leaves (R113, R177, R211, R224). -/
def State.finishOp (s : State) (p k : Nat) (o : Op) (late : Option Val) : State :=
  let t := s.task p k
  let d := if t.ops.any o.same then o.act.dst else .none
  let now := s.cycOf p
  (s.setTask p k { (t.opEnds o late) with
    lateAt := if d == .none then t.lateAt else t.lateAt.put d.code.toNat now
    strmAt := match o.act.mx with
      | some m => t.strmAt.put m.stream.toNat now
      | none => t.strmAt }).settle p k

/-- The 0 that a late result becomes when it cannot be delivered (R176). -/
def zeroFor (d : Dst) : Val :=
  match d with
  | .f _ => .fp ⟨0, 24⟩
  | _ => .int 0

/-- A fault found when an operation performs (R176): its unit returns, its late result is 0, and its task ends; of a task that has already
ended only the record remains. -/
def State.deferFault (s : State) (p k : Nat) (o : Op) (c : CauseRec) : State :=
  let e := { c with slot := o.slot, defer := true }
  let t := s.task p k
  let ended := t.leaving == .ended
  let s1 := s.setTask p k (t.opEnds o (some (zeroFor o.act.dst)))
  if ended then (s1.postErr 0x01 p k t.launch o.bpc e true 0).settle p k
  else (s1.endTask p k e o.bpc).settle p k

/-- The acquire effect of an operation, before its first part performs (R199). -/
def State.opAcquire (s : State) (p : Nat) (o : Op) : State :=
  match o.act.mx with
  | some m => if o.acq && o.done.isEmpty then s.discard p m.scope else s
  | none => s

/-- The acquire effect of an operation that reads no memory through the core's cache itself: made once, when it first acts (R199, R207). -/
def State.acquireOnce (s : State) (p k : Nat) (o : Op) : State × Op :=
  let o2 := { o with acq := false }
  if o.acq then ((s.opAcquire p o).onTask p k (fun t => { t with ops := t.ops.map (fun q => if q.serial == o.serial then { q with acq := false } else q) }), o2)
  else (s, o2)

/-- A scope mismatch of a performing operation: SY.SMISS set at the home event (R200, R201). -/
def State.opMiss (s : State) (p k : Nat) (miss : Bool) : State :=
  if miss then (s.bump p 29 1).onTask p k (Task.missed (s.cycOf p)) else s

/-- The read of an AMO or CAS counts as an earlier load for what follows it on its stream, engine commands included (R199, R210). -/
def State.amoAcq (s : State) (p k : Nat) (o : Op) (m : MX) : State :=
  let later := ((s.task p k).ops.filter (fun q => match q.act.mx with
    | some y => decide (o.serial < q.serial) && inMask m y.mask
    | none => false)).map (·.serial)
  let s1 : State := { s with cmds := s.cmds.map (fun (c : Cmd) => if later.contains c.serial then { c with acq := true } else c) }
  s1.onTask p k (fun t => { t with
    acq := t.acq ||| BitVec.twoPow 8 m.stream.toNat
    ops := t.ops.map (fun q => match q.act.mx with
      | some y => if o.serial < q.serial && inMask m y.mask then { q with acq := true } else q
      | none => q) })

/-! ## Home events -/

/-- A home and its index, with the length of the piece. -/
abbrev Piece := Nat × Nat × Nat

/-- The bytes of an operation's datum that belong to a piece. -/
def pieceBytes (data : BitVec 640) (x : Piece) : List Byte := leBytes (data.toNat / 2 ^ (8 * x.2.1)) x.2.2

/-- A poisoned granule that a piece would cover only in part (R168). -/
def State.partPoison (s : State) (x : Piece) : Bool := !isHost x.1 && (s.sideAt x.1).poison && x.2.2 != 32

/-- What a store meets at its homes before it performs (R168, R176): POISON, then DFILL. -/
def State.storeFault (s : State) (mode : StMode) (ps : List Piece) : Option CauseRec :=
  match ps.find? s.partPoison with
  | some x => some { cause := .poison, phys := BitVec.ofNat 64 x.1 }
  | none =>
    if mode == .fill then
      (ps.find? (fun x => s.anyFull x.1 x.2.2)).map (fun x => { cause := .dfill, phys := BitVec.ofNat 64 x.1 })
    else none

/-- One part of a store at its home; behind a host link that is down it writes nothing and leaves its record (R156). -/
def State.storePart (s : State) (p k : Nat) (o : Op) (m : MX) (mode : StMode) (data : BitVec 640) (x : Piece) : State :=
  if s.hostLost x.1 then s.lostAccess p k o.bpc o.slot x.1 else s.coreWrite p x.1 (pieceBytes data x) mode m.scope.code

/-- A host write accepted by the host agent, which will report it complete (R194). -/
def State.hostAccepted (s : State) (p k : Nat) (o : Op) (m : MX) : State :=
  s.onTask p k (fun t => { t with hostOps := t.hostOps ++ [(o.serial, m.stream)] })

/-- The parts `now` of a store performed (R166, R182, R183, R184); the last one ends it. A write to host memory of scope host has performed only
when the host agent reports it complete at the host, which is a later event with no part left (R194); at any other scope it has performed when
the agent has accepted it, and what it waits for on behalf of scope host is kept apart. -/
def State.storeParts (s : State) (p k : Nat) (o : Op) (m : MX) (mode : StMode) (data : BitVec 640) (now : List Piece) : State :=
  let left := o.homes.filter (fun x => !o.done.contains x.2.1)
  if left.isEmpty then s.finishOp p k o none
  else match s.storeFault mode (if o.done.isEmpty then o.homes else left) with
  | some c => s.deferFault p k o c
  | none =>
    let s1 := now.foldl (fun s x => s.storePart p k o m mode data x) (s.opAcquire p o)
    let s2 := s1.opMiss p k (now.any (fun x => !s.hostLost x.1 && writerMismatch p x.1 m.scope))
    let toHost := o.homes.any (fun x => isHost x.1 && !s.hostLost x.1)
    if now.length = left.length && !(toHost && m.scope == .host) then
      (if toHost then s2.hostAccepted p k o m else s2).finishOp p k o none
    else s2.onOp p k o.serial (fun q => { q with done := q.done ++ now.map (fun x => x.2.1) })

/-- The signed value of the low n bytes of a word. -/
def intN (n : Nat) (x : BitVec 64) : Int := if n = 4 then (x.extractLsb' 0 32).toInt else x.toInt

/-- The new value of an AMO (R185); `old` is zero-extended, and n is its size in bytes. -/
def amoNew (op : AmoOp) (n : Nat) (old b : BitVec 64) : BitVec 64 :=
  let u := fun (x : BitVec 64) => x &&& ones (8 * n)
  let fp := fun (r : FpRes) => r.bits
  match op with
  | .add => u (old + b)
  | .and => u (old &&& b)
  | .or => u (old ||| b)
  | .xor => u (old ^^^ b)
  | .mins => if intN n b < intN n old then u b else old
  | .maxs => if intN n old < intN n b then u b else old
  | .minu => if (u b).toNat < old.toNat then u b else old
  | .maxu => if old.toNat < (u b).toNat then u b else old
  | .xchg => u b
  | .fadd => fp (fpAdd fp32 .rne (fp32.dec (u old).toNat) 24 (fp32.dec (u b).toNat) 24)
  | .fmax => fp (fpMnx fp32 true false (u old) 24 (u b) 24)
  | .fmin => fp (fpMnx fp32 false false (u old) 24 (u b) 24)

/-- The late result of an AMO: the old value (R185); a NaN or infinity that an FP form delivers has tag 0 (R43, log 67). -/
def amoLate (op : AmoOp) (old : BitVec 64) : Val :=
  match op with
  | .fadd => .fp (fp32.result old 0 24).reg
  | .fmax => .fp (fp32.result old 0 24).reg
  | .fmin => .fp (fp32.result old 0 24).reg
  | _ => .int old

/-- An AMO or CAS, one home event (R185, R186, R210): `new` gives what it writes of the old value, if anything. -/
def State.amoEvent (s : State) (p k : Nat) (o : Op) (m : MX) (n : Nat) (new : BitVec 64 → Option (BitVec 64)) (late : BitVec 64 → Val) :
    State :=
  match o.homes with
  | [] => s
  | x :: _ =>
    if (s.sideAt x.1).poison then s.deferFault p k o { cause := .poison, phys := BitVec.ofNat 64 x.1 }
    else
      let s0 := s.opAcquire p o
      let old := BitVec.ofNat 64 (s0.rdNat x.1 n)
      let rmiss := s0.readerMismatch p x.1 m.scope
      let s1 := if rmiss then s0 else s0.amoAcq p k o m
      match new old with
      | none => (s1.opMiss p k rmiss).finishOp p k o (some (late old))
      | some v =>
        let s2 := s1.coreWrite p x.1 (leBytes v.toNat n) .plain m.scope.code
        (s2.opMiss p k (rmiss || writerMismatch p x.1 m.scope)).finishOp p k o (some (late old))

/-- CST at its granule (R166, R188); a whole granule replaces poison. -/
def State.cstEvent (s : State) (p k : Nat) (o : Op) (m : MX) (q : Ptr) : State :=
  match o.homes with
  | [] => s
  | x :: _ =>
    let s1 := (s.opAcquire p o).homeCst x.1 q m.scope.code
    let s2 := s1.onPlot p (fun y => { y with near := nearUpdate y.near x.1 q.bytes })
    (s2.opMiss p k (writerMismatch p x.1 m.scope)).finishOp p k o none

/-- The parts `now` of a memory operation perform (R194). -/
def State.memEvent (s : State) (p k : Nat) (o : Op) (m : MX) (now : List Piece) : State :=
  match o.act.kind with
  | .store _ mode _ data => s.storeParts p k o m mode data now
  | .amo op n b => s.amoEvent p k o m n (fun old => some (amoNew op n old b)) (amoLate op)
  | .cas n exp nv => s.amoEvent p k o m n (fun old => if old = exp then some nv else none) (fun old => .int old)
  | .cst q => s.cstEvent p k o m q
  | _ => s

/-- The parts of a memory operation that perform next: the part `pick` names of a plain store, of any other the pieces of its home (R178). -/
def Op.nextParts (o : Op) (pick : Nat) : List Piece :=
  let left := o.homes.filter (fun x => !o.done.contains x.2.1)
  match left[pick % left.length]? with
  | none => []
  | some x => (match o.act.kind with
    | .store _ .plain _ _ => [x]
    | _ => runOf left x)

/-- A seq operation waits in the cistern of each remaining part's die for the token (R208, R209). -/
def State.queueOp (s : State) (p k : Nat) (o : Op) : State :=
  let q : SeqReq := ⟨p, k, some o.serial, false, o.slot, false⟩
  let left := o.homes.filter (fun x => !o.done.contains x.2.1)
  let s1 := (left.map (fun x => dieOfAddr x.1)).foldl (fun s d =>
    let x := s.die d
    if x.seqQ.contains q then s else s.setDie d { x with seqQ := x.seqQ ++ [q] }) s
  s1.onOp p k o.serial (fun x => { x with queued := true })

/-- A memory operation performs, or, of scope seq, waits for the token. -/
def State.memOp (s : State) (p k : Nat) (o : Op) (pick : Nat) : State :=
  match o.act.mx with
  | none => s
  | some m => if m.scope == .seq then s.queueOp p k o else s.memEvent p k o m (o.nextParts pick)

/-! ## ACC as it performs (R253, R254, R272, R282) -/

/-- ACC.ACLR as it performs: it waits for the passes to its tile and for the drain writer. -/
def State.aclrEvent (s : State) (p k : Nat) (o : Op) (a : BitVec 64) : State :=
  let t := (a.extractLsb' 0 4).toNat
  match s.fieldOf p with
  | none => s.deferFault p k o { cause := .field }
  | some f =>
    let ps := if a.getLsbD 4 then (List.range f.cols).map (fun c => s.fieldPlot f (f.rows - 1) c) else [p]
    if (!a.getLsbD 4 && !(s.plot p).fu.south?) || ps.any (fun q => ((s.plot q).fu.tile t).rows == 0) then s.deferFault p k o { cause := .field }
    else if f.passes.any (fun x => x.entered && x.tile.toNat == t) || ps.any (fun q => ((s.plot q).fu.tile t).emptying) then s
    else (ps.foldl (fun s q => s.onFu q (fun u => u.clearTile t)) s).finishOp p k o none

/-- ACC.ASTA as it performs. -/
def State.astaEvent (s : State) (p k : Nat) (o : Op) (a : BitVec 64) : State :=
  let u := (s.plot p).fu
  s.finishOp p k o (some (.int (if (s.fieldOf p).isSome && u.south? then u.tileWord (a.extractLsb' 0 4).toNat else 0)))

/-- An ACC form performs, if nothing it must follow is outstanding (R272). -/
def State.accEvent (s : State) (p k : Nat) (o : Op) : State :=
  if !(s.task p k).depsMet o then s
  else match o.act.kind with
  | .aclr a => s.aclrEvent p k o a
  | .asta a => s.astaEvent p k o a
  | _ => s

/-- The ACC forms of a block perform at its commit, in slot order (R272); one that R254 makes wait performs later. -/
def State.commitAcc (s : State) (p k : Nat) (b : Block) : State :=
  (b.acts.filter (fun x => x.2.kind.accTile.isSome)).foldl (fun s x =>
    match (s.task p k).ops.find? (fun o => o.slot == x.1 && o.bpc == b.bpc && o.act == x.2) with
    | some o => s.accEvent p k o
    | none => s) s

/-- The parts of a seq operation whose homes a die holds. -/
def Op.partsAt (o : Op) (die : Nat) : List Piece :=
  o.homes.filter (fun x => !o.done.contains x.2.1 && dieOfAddr x.1 == die)

end Sys2Proof.Machine
end

