-- ==== Sys2Proof/Machine/TaskOps.lean ====
section
/-! DEFINITION. The TASK forms (R345 to R347). SPAWN, WAKE and SPRI are commit-point; TSTAT reads a slot when it executes. -/

namespace Sys2Proof.Machine

open Sys2Proof

/-- TASK.SPAWN: entry A, argument B; the new task's slot is its late result (R346). -/
def execTaskSpawn (p : Pred) (d : Dst) (a b : Opnd) (s : State) : Out :=
  runSlot p s (fun cx => (cx.int a).bind (fun x => (cx.int b).bind (fun y =>
    .val (s.capture cx { kind := .spawn x y, dst := d }))))

/-- TASK.WAKE (R347). -/
def execTaskWake (p : Pred) (a b : Opnd) (s : State) : Out :=
  runSlot p s (fun cx => (cx.int a).bind (fun x => (cx.int b).bind (fun y => .val (s.capture cx { kind := .wake x y }))))

/-- TASK.SPRI (R347). -/
def execTaskSpri (p : Pred) (a b : Opnd) (s : State) : Out :=
  runSlot p s (fun cx => (cx.int a).bind (fun x => (cx.int b).bind (fun y => .val (s.capture cx { kind := .spri x y }))))

/-- The word TASK.TSTAT returns of a slot (R347). -/
def Task.statWord (t : Task) (now : BitVec 64) : BitVec 64 :=
  BitVec.ofNat 64 (t.wake.toNat * 2^16 + (if t.pend = 0 then 0 else 2^15) + t.wait.kind * 2^12 + t.epri now * 2^8 +
    t.pri.toNat * 2^4 + t.st.code.toNat)

/-- TASK.TSTAT: 0 for a slot operand above 15 (R345, R347). -/
def execTaskTstat (p : Pred) (d : Dst) (a : Opnd) (s : State) : Out :=
  runSlot p s (fun cx => (cx.int a).bind (fun x =>
    .val (s.result cx d (.int (if 15 < x.toNat then 0 else (s.task cx.p x.toNat).statWord (s.cycOf cx.p))))))

end Sys2Proof.Machine
end

