-- ==== Sys2Proof/Machine/Block.lean ====
section
/-! DEFINITION. The events of the execution window: TASK_SELECT, BLOCK_MAP, BLOCK_COMMIT, GATE_PARK and WDOG (R57 to R70, R218, R219, R344).
An event whose condition does not hold leaves the state as it is. -/

namespace Sys2Proof.Machine

open Sys2Proof

/-- Cores map blocks while the module is ready, its clocks run, no alarm halts it, and no change of power state waits for their block boundaries
(R407 to R411). -/
def State.mapping (s : State) : Bool :=
  s.mod.boot == 2 && decide (s.mod.pscur.toNat ≤ 2) && !s.mod.trip && !s.mod.seca && !s.mod.psbusy

/-- How long a task has waited at its effective priority (R344). -/
def Task.levelWait (t : Task) (now : BitVec 64) : Nat := (now - t.levelSince now).toNat

/-- A task that may be selected: READY, in no half, without a HALTC, and past the wafer time it carries from its save (R354, R396). -/
def Plot.selectable (x : Plot) (wt : BitVec 64) (k : Nat) : Bool :=
  let t := x.task k
  t.st == .ready && t.leaving == .no && !t.halting && (x.halfOf k).isNone && t.notBefore.all (fun v => decide (v.toNat < wt.toNat))

/-- Whether task a goes before task b (R344): higher effective priority, then the longer wait at it, then the earlier turn. -/
def Task.before (a b : Task) (now : BitVec 64) : Bool :=
  if a.epri now ≠ b.epri now then decide (b.epri now < a.epri now)
  else if a.levelWait now ≠ b.levelWait now then decide (b.levelWait now < a.levelWait now)
  else decide (a.turn < b.turn)

/-- The task the selector chooses (R344). -/
def State.selection (s : State) (p : Nat) : Option Nat :=
  let x := s.plot p
  let now := s.cycOf p
  slotIdx.foldl (fun best k =>
    if x.selectable (s.wtimeOf p) k then
      (match best with
      | none => some k
      | some j => if (x.task k).before (x.task j) now then some k else some j)
    else best) none

/-- The lowest pending asynchronous cause (R219). -/
def Task.asyncCause (t : Task) : Option (Cause × Nat) :=
  if t.trapAct then none else if t.pend.getLsbD 0 then some (.deadlk, 0) else if t.pend.getLsbD 3 then some (.engine, 3) else none

/-- A pending asynchronous cause raised before the next block of a task (R219). -/
def State.raiseAsync (s : State) (p k : Nat) (c : Cause) (i : Nat) : State :=
  let t := s.task p k
  (s.onTask p k (fun t => t.takePend i)).takeException p k
    { cause := c, info := if i = 3 then t.engInfo else t.pendInfo.get i 0, async := true } t.bpc

/-- TASK_SELECT (R219, R344): a free half takes the selected task; a pending asynchronous cause is raised then, before its next block. -/
def execTaskSelect (p : Nat) (h : Bool) (s : State) : Out :=
  .next (
    if !s.mapping || ((s.plot p).half h).task.isSome then s
    else match s.selection p with
    | none => s
    | some k =>
      let t := s.task p k
      let s1 := { s with uid := s.uid + 1 }.setTask p k (t.queued (s.cycOf p) s.uid)
      match t.asyncCause with
      | some (c, i) => s1.raiseAsync p k c i
      | none => s1.setHalf p h { task := some k, blk := none })

/-! ## Mapping -/

/-- A word of a block fetched from the code object (R58), or what stops it. -/
inductive Fetch where
  | word (w : BitVec 64)
  | bad (c : CauseRec)
  | wait
  deriving DecidableEq, Repr

/-- The word at byte offset o of the code object, for position `slot` of the block. DESIGN CHOICE (log 81): BPC counts from the base of the view that
the launch's CODE capability gives, and a word inside that view but past the object's SIZE is ABSENT, by check 6 of R175. -/
def State.fetch (s : State) (p : Nat) (t : Task) (o slot : Nat) : Fetch :=
  let c := s.codePtr t.launch
  match s.access (dieOf p) t.priv c (BitVec.ofNat 64 o) 8 0 rX false false with
  | .bad e => .bad { e with slot := slot }
  | .wait => .wait
  | .ok ps =>
    match ps.find? (fun x => !isHost x.1 && (s.sideAt x.1).poison) with
    | some x => .bad { cause := .poison, slot := slot, phys := BitVec.ofNat 64 x.1 }
    | none => .word (if ps.any (fun x => s.hostLost x.1) then Config.freeValue (s.free + o)
        else BitVec.ofNat 64 (ps.foldl (fun n x => n + s.rdNat x.1 x.2.2 * 2 ^ (8 * x.2.1)) 0))

/-- Whether the word at byte offset o of the code object lies behind a host link that is down. -/
def State.wordLost (s : State) (p : Nat) (t : Task) (o : Nat) : Bool :=
  match s.access (dieOf p) t.priv (s.codePtr t.launch) (BitVec.ofNat 64 o) 8 0 rX false false with
  | .ok ps => ps.any (fun x => s.hostLost x.1)
  | _ => false

/-- The words of a block from slot k on. -/
def State.fetchWords (s : State) (p : Nat) (t : Task) (o k : Nat) : Nat → Except (Option CauseRec) (List (BitVec 64))
  | 0 => .ok []
  | n + 1 =>
    match s.fetch p t o k with
    | .bad c => .error (some c)
    | .wait => .error none
    | .word w => (match State.fetchWords s p t (o + 8) (k + 1) n with
      | .ok ws => .ok (w :: ws)
      | .error e => .error e)

/-- The words that a core's block cache holds of the block at a task's BPC, its header first (R58). -/
def Plot.cached (x : Plot) (t : Task) : Option (List (BitVec 64)) :=
  (x.code.find? (fun c => c.launch == t.launch && c.bpc == t.bpc)).map (·.words)

/-- The header and the words at a task's BPC as memory holds them, as many as the header counts. -/
def State.codeAt (s : State) (p : Nat) (t : Task) : Except (Option CauseRec) (List (BitVec 64)) :=
  match s.fetch p t t.bpc.toNat 255 with
  | .bad c => .error (some c)
  | .wait => .error none
  | .word h => (match s.fetchWords p t (t.bpc.toNat + 8) 0 ((h.extractLsb' 49 7).toNat + 1) with
    | .error e => .error e
    | .ok ws => .ok (h :: ws))

/-- What a task's access to its code finds, where the block cache holds the words (R58): the first word that it may not fetch. -/
def State.codeBad (s : State) (p : Nat) (t : Task) (n : Nat) : Option (Option CauseRec) :=
  (List.range n).findSome? (fun i => match s.access (dieOf p) t.priv (s.codePtr t.launch) (BitVec.ofNat 64 (t.bpc.toNat + 8 * i)) 8 0 rX false false with
    | .bad c => some (some { c with slot := if i = 0 then 255 else i - 1 })
    | .wait => some none
    | .ok _ => none)

/-- The header and words at a task's BPC, from the core's block cache if it holds them, else from memory (R58). The cache is not coherent with
stores: after a store to code the core fetches the old words while it holds them, and the new ones once it has lost them (log 69). -/
def State.codeOf (s : State) (p : Nat) (t : Task) : Except (Option CauseRec) (List (BitVec 64)) :=
  match (s.plot p).cached t with
  | some ws => (match s.codeBad p t ws.length with
    | some e => .error e
    | none => .ok ws)
  | none => s.codeAt p t

/-- Words that the block cache holds: 64 KiB (R58). -/
def codeRoom : Nat := 8192

/-- A block brought into the block cache; the blocks fetched longest ago make room. -/
def Plot.cache (x : Plot) (c : CodeBlk) : Plot :=
  { x with code := ((c :: x.code.filter (fun y => !(y.launch == c.launch && y.bpc == c.bpc))).foldl
      (fun (acc : List CodeBlk × Nat) y =>
        if acc.2 + y.words.length ≤ codeRoom then (acc.1 ++ [y], acc.2 + y.words.length) else (acc.1, codeRoom)) ([], 0)).1 }

/-- A block fetched through the cache of a core: a miss is counted, and fills it (R58, R397). -/
def State.fillCode (s : State) (p : Nat) (t : Task) (ws : List (BitVec 64)) : State :=
  if ((s.plot p).cached t).isSome then s
  else (s.onPlot p (fun x => x.cache ⟨t.launch, t.bpc, ws⟩)).bump p 11 1

/-- Whether some word of the block at a task's BPC does. -/
def State.codeLost (s : State) (p : Nat) (t : Task) : Bool :=
  !t.far && t.bpc.toNat % 8 == 0 && ((s.plot p).cached t).isNone && (s.wordLost p t t.bpc.toNat || (match s.fetch p t t.bpc.toNat 255 with
    | .word h => (List.range ((h.extractLsb' 49 7).toNat + 1)).any (fun i => s.wordLost p t (t.bpc.toNat + 8 * (i + 1)))
    | _ => false))

/-- The fetch of a block, where a host link that is down has made its words free (R156): the record, and the free values used. -/
def State.fetchOver (s : State) (p k : Nat) (t : Task) : State :=
  if s.codeLost p t then { s with free := s.free + 2 ^ 40 + 1032 }.lostAccess p k t.bpc 255 0 else s

/-- The state `u` after a fetch that memory has answered: the block cache takes the block also where the checks of its map fail (R58, R397). -/
def State.fetched (s u : State) (p : Nat) (t : Task) : State :=
  if t.far || t.bpc.toNat % 8 != 0 then u
  else match s.codeOf p t with
  | .ok ws => u.fillCode p t ws
  | .error _ => u

/-- Whether a header is one of R57. -/
def headerOk (h : BitVec 64) : Bool := h.extractLsb' 56 8 == 0xB5 && h.extractLsb' 0 48 == 0

/-- The block at a task's BPC, fetched and checked (R57 to R60): its header and words, a fault, or a wait for a migrating extent. A failed
check names the lowest-numbered position, the header's 255 being above every slot's, and DECODE goes before PRIV (R60, R88). -/
def State.fetchBlock (s : State) (p : Nat) (t : Task) : Except (Option CauseRec) (List (BitVec 64)) :=
  if t.far then .error (some { cause := .capb })
  else if t.bpc.toNat % 8 ≠ 0 then .error (some { cause := .align })
  else match s.codeOf p t with
  | .error e => .error e
  | .ok [] => .error none
  | .ok (h :: ws) => match checkBlock t.priv ws with
    | some (true, k) => .error (some { cause := .decode, slot := k })
    | some (false, k) => .error (some (if headerOk h then { cause := .priv, slot := k } else { cause := .decode }))
    | none => if headerOk h then .ok (h :: ws) else .error (some { cause := .decode })

/-- Whether an OTC form of the task has not performed, which holds back its next block (R364). -/
def Task.otcPending (t : Task) : Bool :=
  t.ops.any (fun o => match o.act.kind with
    | .invo _ => true
    | .inva => true
    | .pin .. => true
    | _ => false)

/-- BLOCK_MAP (R57 to R60): the block of the half's task is fetched, checked and mapped, and the task is RUNNING. An asynchronous cause that
has become pending since the selection is raised first (R219). -/
def execBlockMap (p : Nat) (h : Bool) (s : State) : Out :=
  .next (
    let y := (s.plot p).half h
    match y.task, y.blk with
    | some k, none =>
      let t := s.task p k
      if !s.mapping || t.st != .ready || t.leaving != .no || t.halting || t.otcPending then s
      else match t.asyncCause with
      | some (c, i) => s.raiseAsync p k c i
      | none => match s.fetchBlock p t with
      | .error none => s
      | .error (some c) => (s.fetched (s.fetchOver p k t) p t).takeException p k c t.bpc
      | .ok [] => s
      | .ok (hd :: ws) =>
        let s := (s.fetchOver p k t).fillCode p t (hd :: ws)
        let b : Block := { bpc := t.bpc, words := ws, slots := List.replicate ws.length {}, mapped := s.cycOf p, pri0 := t.pri,
                           pmsel0 := (s.plot p).pmsel, order := s.uid }
        ({ s with uid := s.uid + 1 }.setHalf p h { task := some k, blk := some b }).onTask p k (fun t => { t with st := .running })
    | _, _ => s)

/-! ## Committing -/

/-- Whether every slot has executed or been nullified (R63). -/
def Block.complete (b : Block) : Bool := b.slots.all (fun r => r.st != .waiting)

/-- Whether a block may be committed or tested for it: complete, its task not leaving, and no cause aborting it. -/
def Cx.ended (cx : Cx) : Bool := cx.blk.complete && cx.task.leaving == .no && cx.blk.abort.isNone

/-- Whether the block of a half has passed every check of R68 but that of its TAKEs and SWAITDs, or can do so now. -/
def State.commitReady (s : State) (p : Nat) (h : Bool) : Bool :=
  match s.blockCx p h with
  | none => false
  | some cx => cx.ended && s.blockCheck cx cx.blk.slots 0 == .ok && cx.task.roomFor cx.blk && (s.chsFull p cx.blk).isNone

/-- Whether the block of a half ends in this cycle, whatever else would abort it: it can commit, or a commit check fails (R70). -/
def State.commitDue (s : State) (p : Nat) (h : Bool) : Bool :=
  s.commitReady p h || (match s.blockCx p h with
    | some cx => cx.ended && (match s.blockCheck cx cx.blk.slots 0 with
      | .bad _ => true
      | _ => false)
    | none => false)

/-- Whether a task's block ends in this cycle by itself: it commits or fails its commit checks (R70). -/
def State.blockDue (s : State) (p k : Nat) : Bool :=
  match (s.plot p).halfOf k with
  | some h => s.commitDue p h
  | none => false

/-- Whether the block of a half must let the other one go first: that one empties its words already, or it was mapped earlier and can commit
too (R59). -/
def State.givesWay (s : State) (p : Nat) (h : Bool) (b : Block) : Bool :=
  s.taking p (!h) ||
  (!s.taking p h && ((s.plot p).half (!h)).blk.any (fun c => decide (c.order < b.order)) && s.commitReady p (!h))

/-- The last step before the commit point (R181, R387): the semaphores cover the block's takes, which are made, and the block commits, its ACC
forms with it (R272); else the block fails. -/
def State.pass (s : State) (cx : Cx) : State :=
  if !s.semsCover cx.p cx.blk then s.failBlock cx.p cx.half
  else
    let s1 := ({ s with takes := s.takes.filter (fun x => !x.of cx.p cx.half) }).takeSems cx.p cx.blk
    (s1.commit { cx with task := s1.task cx.p cx.t }).commitAcc cx.p cx.t cx.blk

/-- A failed block's next emptied words are set full again, one granule at a time (R181); once none is left the block is re-executed. -/
def State.giveUp (s : State) (cx : Cx) : State :=
  match byGranule (s.takes.filter (fun x => x.of cx.p cx.half)) with
  | x :: _ => ({ s with takes := s.takes.filter (fun y => !(y.of cx.p cx.half && y.done && y.home / 32 == x.home / 32)) }).restoreTake x
  | [] => ({ s with takes := s.takes.filter (fun x => !x.of cx.p cx.half) }).reexec cx.p cx.t

/-- The home event of a TAKE; the block passes its commit point with the last one (R181). -/
def State.takeStep (s : State) (cx : Cx) (x : TakeRec) : State :=
  let s1 := s.takeEvent cx.t x
  match s1.blockCx cx.p cx.half with
  | none => s1
  | some cy => if cy.blk.failed || (s1.nextTake cx.p cx.half).isSome then s1 else s1.pass cy

/-- A block whose checks have passed goes on to its commit point: the words of its next TAKE are emptied, one home event at a time (R181);
once all are, it commits. A seq TAKE waits for the token (R208). -/
def State.takeOn (s : State) (cx : Cx) : State :=
  match s.nextTake cx.p cx.half with
  | none => s.pass cx
  | some x =>
    if x.scope == .seq then s.queueTake cx.t x else s.takeStep cx x

/-- BLOCK_COMMIT (R68): the checks in slot order, the room the block's operations need, the emptying of its TAKEs and the takes of its SWAITDs,
and then the commit point. A block that finds no room stalls; one whose TAKE or SWAITD fails re-executes. The block mapped earlier goes
first (R59). -/
def execBlockCommit (p : Nat) (h : Bool) (s : State) : Out :=
  .next (
    match s.blockCx p h with
    | none => s
    | some cx =>
      if !cx.ended || s.givesWay p h cx.blk then s
      else if cx.blk.failed then s.giveUp cx
      else if s.taking p h then s.takeOn cx
      else match s.blockCheck cx cx.blk.slots 0 with
      | .bad c => s.takeException p cx.t c cx.blk.bpc
      | .wait => s
      | .ok =>
        if !cx.task.roomFor cx.blk then s
        else match s.chsFull p cx.blk with
        | some (k, port) => s.chsStall cx k port
        | none =>
          if !s.semsCover p cx.blk then s.reexec p cx.t
          else (({ s with takes := s.takes ++ s.takeRecs cx }).keepHomes cx).takeOn cx)

/-- A seq TAKE performs at the die that holds the token (R208); the block that it completes passes its commit point. -/
def State.serveTake (s : State) (die : Nat) (r : SeqReq) : State :=
  match s.blockCx r.plot r.half, s.nextTake r.plot r.half with
  | some cx, some x =>
    if cx.t = r.task ∧ x.slot = r.slot ∧ dieOfAddr x.home = die then s.takeStep cx x else s
  | _, _ => s

/-! ## Parking and the watchdog -/

/-- Whether the condition a gate stalled on holds now (R66). -/
def State.gateMet (s : State) (p : Nat) (g : Gate) : Bool :=
  match g with
  | .presence ps _ => ps.all (fun x => s.allFull x.1 x.2)
  | .sem n t => decide (t ≤ ((s.plot p).sem n).toNat)
  | .barrier d key _ gen => (s.bar d key).gen != gen
  | .rill port k => ((s.rill p port).item k).isSome || (s.rill p port).broken
  | .send port need => (s.rill p port).hasRoom need || (s.rill p port).broken
  | .tile t => ((s.plot p).fu.tile t).st == .full || (s.fieldOf p).isNone

/-- What a task parked on a gate waits for (R66, R223). -/
def Gate.wait : Gate → WaitFor
  | .presence ps ph => .presence (ps.map (fun x => x.1 / 32 * 32)) ph
  | .sem n _ => .sem n
  | .barrier d key a _ => .barrier d key a
  | .rill port _ => .rill port false
  | .send port _ => .rill port true
  | .tile t => .drain t

/-- The gate by which a block parks (R66): of those stalled for SY.PARK cycles and still unmet, the one that reached the threshold first,
the lowest slot among equals. -/
def State.parkGate (s : State) (p : Nat) (t : Task) (b : Block) : Option Gate :=
  let now := s.cycOf p
  (b.slots.foldl (fun (best : Option (Gate × Nat)) r =>
    match r.gate with
    | some g =>
      let stalled := (now - r.since).toNat
      if t.park.toNat ≤ stalled && !s.gateMet p g && (r.st == .waiting || (match g with
          | .send .. => true
          | _ => false)) then
        (match best with
        | some (_, n) => if n < stalled then some (g, stalled) else best
        | none => some (g, stalled))
      else best
    | none => best) none).map (·.1)

/-- GATE_PARK (R66, R69, R298): the block is aborted and its task waits for the gate's wake condition, unless it can commit in the same
cycle (R70). -/
def execGatePark (p : Nat) (h : Bool) (s : State) : Out :=
  .next (
    match s.blockCx p h with
    | none => s
    | some cx =>
      match s.parkGate p cx.task cx.blk with
      | none => s
      | some g =>
        if cx.blk.abort.isSome || s.commitReady p h then s else
        (((s.dropBlock p cx.t).withdraw p cx.t).onTask p cx.t (fun t => { t with st := .wait, wait := g.wait })).bump p 6 1)

/-- WDOG (R218): a block mapped for 2^26 cycles ends its task, unless it commits or fails its commit checks in the same cycle (R70). -/
def execWdog (p : Nat) (h : Bool) (s : State) : Out :=
  .next (
    match s.blockCx p h with
    | none => s
    | some cx =>
      if (s.cycOf p - cx.blk.mapped).toNat < 2 ^ 26 || cx.blk.abort.isSome || s.commitDue p h then s
      else s.takeException p cx.t { cause := .wdog } cx.blk.bpc)

end Sys2Proof.Machine
end

