-- ==== Sys2Proof/Machine/CellArith.lean ====
section
/-! DEFINITION. The arithmetic of a cell and of the south accumulators (R246 to R250, R253). -/

namespace Sys2Proof.Machine

open Sys2Proof

/-- The exact sum of finite values from the first on; a zero is -0 only when every term is (R41, R246). -/
def exactSum (acc : FVal) : List FVal → FVal
  | [] => acc
  | x :: t =>
    match acc, x with
    | .fin an am ae, .fin xn xm xe =>
      let r := exactAdd .rne an am ae xn xm xe
      exactSum (.fin r.neg r.m r.e) t
    | _, _ => exactSum acc t

/-- The exact product of two values. -/
def exactProd (x y : FVal) : FVal :=
  if x.isNan || y.isNan || (x.isZero && y.isInf) || (x.isInf && y.isZero) then .nan false
  else match x, y with
  | .fin xn xm xe, .fin yn ym ye => .fin (xn != yn) (xm * ym) (xe + ye)
  | _, _ => .inf (x.neg != y.neg)

/-- The exact dot product of R246. -/
def exactDot (xs : List (FVal × FVal)) : FVal :=
  let ps := xs.map (fun x => exactProd x.1 x.2)
  if ps.any FVal.isNan then .nan false
  else
    let infs := ps.filter FVal.isInf
    match infs with
    | [] => (match ps with
      | [] => .fin false 0 0
      | p :: t => exactSum p t)
    | p :: t => if t.all (fun q => q.neg == p.neg) then p else .nan false

/-- The format of a mode's elements, and their width (R238). -/
def modeElem (mode : Nat) : FpFmt × Nat :=
  if mode = 1 then (e4m3, 8) else if mode = 2 then (e2m1, 4) else (bf16, 16)

/-- The elements of a 128-bit register (R238). -/
def modeElems (mode : Nat) (x : BitVec 128) : List FVal :=
  let f := modeElem mode
  (List.range (depthOf mode)).map (fun k => f.1.dec ((x.toNat / 2 ^ (f.2 * k)) % 2 ^ f.2))

/-- What travels south through a cell (R247, R250): the psum or run, the open group's sum, the peak. -/
structure Down where
  val : BitVec 32
  gp : BitVec 32
  peak : Nat
  deriving DecidableEq, Repr

/-- An FP32 code's value. -/
def f32 (x : BitVec 32) : FVal := fp32.dec x.toNat

/-- The FP32 code of a result. -/
def FpRes.code (r : FpRes) : BitVec 32 := r.bits.extractLsb' 0 32

/-- The peak raised by the addends and the sum of an addition (R250). -/
def raisePeak (pk : Nat) (xs : List FVal) : Nat := xs.foldl (fun n x => max n (peakOf x)) pk

/-- One FP32 addition of a column: its rounded result flushed, and the peak (R247, R250). -/
def addStep (x : BitVec 32) (d : FVal) (pk : Nat) : BitVec 32 × Nat :=
  let r := (fpAdd fp32 .rne (f32 x) 0 d 0).code
  (flushSub r, raisePeak pk [f32 x, d, f32 r])

/-- An exact value times a power of two. -/
def FVal.scale (x : FVal) (k : Int) : FVal :=
  match x with
  | .fin n m e => .fin n m (e + k)
  | y => y

/-- The step of R247 at one logical row; `promote` says whether BSFP8 promotes its group here. -/
def cellStep (mode : Nat) (promote : Bool) (a : BitVec 128) (sa : BitVec 32) (w : BitVec 128) (sw : BitVec 32) (mx : BitVec 8) (n : Down) :
    Down :=
  let d := exactDot ((modeElems mode a).zip (modeElems mode w))
  if mode = 2 then
    let ea := (sa.extractLsb' 0 8).toNat
    let t := if ea = 0xFF ∨ mx = 0xFF then FVal.nan false else d.scale ((ea : Int) + mx.toNat - 254)
    let r := addStep n.val t n.peak
    { n with val := r.1, peak := r.2 }
  else if mode = 1 then
    let g := addStep n.gp d n.peak
    if promote then
      let s := flushSub (fpMul fp32 .rne (f32 sa) 0 (f32 sw) 0).code
      let r := (fpFma fp32 .rne (f32 g.1) 0 (f32 s) 0 (f32 n.val) 0).code
      ⟨flushSub r, 0, raisePeak g.2 [exactProd (f32 g.1) (f32 s), f32 n.val, f32 r]⟩
    else { n with gp := g.1, peak := g.2 }
  else
    let r := addStep n.val d n.peak
    { n with val := r.1, peak := r.2 }

/-- The element a column result leaves in the accumulator (R253): a first pass overwrites, a later one adds. -/
def accStep (chain : Bool) (old : BitVec 40) (col : BitVec 32) (pk : BitVec 8) : BitVec 40 :=
  if chain then
    let r := addStep (old.extractLsb' 0 32) (f32 col) (max (old.extractLsb' 32 8).toNat pk.toNat)
    BitVec.ofNat 8 r.2 ++ r.1
  else pk ++ col

end Sys2Proof.Machine
end

