-- ==== Sys2Proof/Machine/Signal.lean ====
section
/-! DEFINITION. The performance of signals, barrier arrivals, task forms, CTX and OTC (R231, R232, R346, R347, R364 to R366, R384 to R392). -/

namespace Sys2Proof.Machine

open Sys2Proof

/-! ## Semaphores (R383, R384) -/

/-- An increment of a semaphore of a plot's core: it comes after the sets and consumptions of its cycle, saturates, and wakes every task that waits
on the semaphore. -/
def State.signal (s : State) (p n inc : Nat) : State :=
  ((s.onPlot p (fun x =>
    let r := x.semNow (s.cycOf p) n
    x.putSem n { r with inc := r.inc + inc })).wakePlot p (fun w => w == .sem n)).bump p 17 1

/-- A semaphore set to a value, before the consumptions and increments of the cycle. A set that does not cover what the cycle has taken already
comes in the next cycle (log 7). -/
def State.setSem (s : State) (p n : Nat) (v : BitVec 16) : State :=
  ((s.onPlot p (fun x =>
    let r := x.semNow (s.cycOf p) n
    x.putSem n (if r.taken ≤ v.toNat then { r with base := v - BitVec.ofNat 16 r.taken } else ⟨r.cyc, v, 0, 0⟩))).wakePlot p
      (fun w => w == .sem n)).bump p 17 1

/-- SSIGR's target and its deferred faults (R386). -/
def State.ssigr (s : State) (p k : Nat) (o : Op) (a b : BitVec 64) : State :=
  let t := s.task p k
  match s.resolve (a.extractLsb' 32 32) with
  | none => s.deferFault p k o { cause := .absent }
  | some q =>
    if (s.plot q).stat == .hole then s.deferFault p k o { cause := .absent }
    else if !o.priv && (s.plot q).owner.map (·.1) != some t.launch then s.deferFault p k o { cause := .priv }
    else (s.signal q (a.extractLsb' 0 8).toNat (b.extractLsb' 0 16).toNat).finishOp p k o none

/-! ## Barriers (R390 to R392) -/

/-- Whether every module that the aqueduct routing table names can be reached (R328, R329, R392). -/
def State.podReach (s : State) : Bool :=
  s.mod.ports.all (fun e => e.1 == s.mod.modId.toNat || e.2 == 0 || e.2 &&& s.mod.link != 0)

/-- One arrival at a group: its generation, or none if the group is held with another COUNT or by another launch (R392). -/
def State.arrive (s : State) (die key : Nat) (count : BitVec 16) (launch : BitVec 32) : Option (State × BitVec 16) :=
  let d := s.die die
  let b := s.bar die key
  if b.arr != 0 && (b.count != count || b.owner != launch) then none
  else
    let n := b.arr + 1
    let c : Bar := if n = count then { b with gen := b.gen + 1, arr := 0, count := 0, owner := launch }
      else { b with arr := n, count := count, owner := launch }
    let s1 := s.setDie die { d with bars := d.bars.put key c }
    let s2 := if n = count then s1.wakeAll (fun w => match w with
        | .barrier x y _ => x == die && y == key
        | _ => false) else s1
    some (s2, b.gen)

/-- BARA at its group (R392). -/
def State.baraEvent (s : State) (p k : Nat) (o : Op) (a : BitVec 64) : State :=
  match s.barPlace p a with
  | none => s.deferFault p k o { cause := .barr }
  | some (die, key) =>
    if a.extractLsb' 4 3 = 5 ∧ !s.podReach then s.deferFault p k o { cause := .barr }
    else match s.arrive die key (a.extractLsb' 16 16) (s.task p k).launch with
    | none => s.deferFault p k o { cause := .barr }
    | some (s1, g) => s1.finishOp p k o (some (.int (g.zeroExtend 64)))

/-! ## Tasks (R346, R347) -/

/-- A task as it starts in slot k of plot p (R93, R95). -/
def State.newTask (s : State) (p k : Nat) (launch : BitVec 32) (priv : Bool) (pri : BitVec 3) (bpc : BitVec 40) (arg : BitVec 64)
    (cs : Vector Ptr 7) : State :=
  let c := #v[cs[0], cs[1], cs[2], cs[3], cs[4], cs[5], cs[6], s.privPtr p launch k]
  { s with uid := s.uid + 1 }.setTask p k
    { st := .ready, regs := { Regs.init with g := Regs.init.g.set 0 arg, c := c }, bpc := bpc, priv := priv, launch := launch, pri := pri,
      uid := s.uid, since := s.cycOf p, turn := s.uid }

/-- SPAWN (R346): the lowest FREE slot, or all ones. -/
def State.spawnEvent (s : State) (p k : Nat) (o : Op) (a b : BitVec 64) : State :=
  match slotIdx.find? (fun j => (s.task p j).st == .free) with
  | none => s.finishOp p k o (some (.int (BitVec.allOnes 64)))
  | some j =>
    (s.newTask p j (s.task p k).launch o.priv o.pri (a.extractLsb' 0 40) b o.regs).finishOp p k o (some (.int (BitVec.ofNat 64 j)))

/-- WAKE (R347): a SUSPENDED slot becomes READY; a slot that is not FREE takes the bits. -/
def State.wakeTask (s : State) (p : Nat) (a b : BitVec 64) : State :=
  if 15 < a.toNat then s
  else
    let j := a.toNat
    let s1 := if (s.task p j).st == .suspended then s.ready p j else s
    s1.setWake p j (b.extractLsb' 0 16)

/-! ## CTX (R231, R232) -/

/-- The position of an operation's pointer in its view, an object offset or a physical address. -/
def Op.pos (o : Op) : Nat := o.act.ptr.start + o.act.ptr.cur.toNat

/-- Whether an operation's frame lies in part in host memory whose link is up. -/
def State.frameOnHost (s : State) (p : Nat) (o : Op) : Bool :=
  match s.partHomes (dieOf p) o.act.ptr (piecesOf o.pos 4096) with
  | .ok ps => ps.any (fun x => isHost x.1 && !s.hostLost x.1)
  | _ => false

/-- A CSAVE whose frame is written has performed (R194): one of scope host into host memory only when the host agent reports it complete there, which is a
later event. -/
def State.csaveDone (s : State) (p k : Nat) (o : Op) : State :=
  match o.act.mx with
  | some m =>
    if !s.frameOnHost p o then s.finishOp p k o none
    else if m.scope == .host then s.onOp p k o.serial (fun q => { q with made := true })
    else (s.hostAccepted p k o m).finishOp p k o none
  | none => s.finishOp p k o none

/-- CSAVE (R231): the slot tested, its block aborted, and, once R224 is met and its frame written, the slot SAVED. A fault of the slot's task in
the same cycle, and a block that commits in it or fails its commit checks, go first (R70, R233). DESIGN CHOICE (log 87): a task that has ended while its
operations drain is judged as FREE, so that the issuer takes PRIV. -/
def State.csaveEvent (s : State) (p k : Nat) (o : Op) (b : BitVec 64) : State :=
  let j := (b.extractLsb' 0 4).toNat
  let t := s.task p j
  if o.made then s.finishOp p k o none
  else if o.queued && t.st == .saved then s.csaveDone p k o
  else if j = k ∨ t.st == .free ∨ t.st == .saved ∨ (o.queued && t.saveTo.isNone) ∨ t.leaving == .ended then
    s.deferFault p k o { cause := .priv }
  else if o.queued || (s.plot p).aborting j || s.blockDue p j then s
  else match t.leaving with
  | .no =>
    if t.halting then s else
    let s1 := ((s.dropBlock p j).withdraw p j).stamped p j
    let s2 := s1.onTask p j (fun t => { t with leaving := .saving none t.bpc false, saveTo := some (o.act.ptr, o.pos) })
    let s3 := (s2.onOp p k o.serial (fun q => { q with queued := true })).settle p j
    if (s3.task p j).st == .saved then s3.csaveDone p k o else s3
  | _ => s

/-- The zero fields of a frame header (R220). -/
def headerZeros (bs : List Byte) : Bool :=
  (frameW bs 0).extractLsb' 40 24 == 0 && (frameW bs 8).extractLsb' 42 22 == 0 && (frameW bs 8).extractLsb' 28 4 == 0 &&
  (frameW bs 8).extractLsb' 3 5 == 0

/-- CREST (R232): the slot and the header tested, and the slot restored READY or SUSPENDED, whatever its frame says it waited for. It maps no
block before the die's time exceeds that of its save (R396). A frame behind a host link that is down reads as free bytes, with its record (R156). -/
def State.crestEvent (s : State) (p k : Nat) (o : Op) (b : BitVec 64) : State :=
  let j := (b.extractLsb' 0 4).toNat
  let t := s.task p j
  let die := dieOf p
  match s.partHomes die o.act.ptr (piecesOf o.pos 4096) with
  | .wait => s
  | .bad c => s.deferFault p k o c
  | .ok ps =>
    match ps.find? (fun x => !isHost x.1 && (s.sideAt x.1).poison) with
    | some x => s.deferFault p k o { cause := .poison, phys := BitVec.ofNat 64 x.1 }
    | none =>
      let bs := ps.flatMap (fun x => s.rdLost x.1 x.2.2)
      let lost := fun (u : State) => u.lostParts p k o.bpc o.slot ps
      if (t.st != .free && t.st != .saved) || (frameW bs 8).extractLsb' 0 3 != 4 || !headerZeros bs then
        (lost s).deferFault p k o { cause := .priv }
      else
        let kept : Kept := if t.st == .saved then { uid := t.uid, woken := t.woken, wake := t.wake } else { uid := s.uid }
        match s.restoreTask p j o.act.ptr o.pos kept (b.getLsbD 8) with
        | none => s.deferFault p k o { cause := .absent }
        | some s1 => ((lost s1).onTask p j (fun t =>
            { t with priv := t.priv && o.priv, st := if b.getLsbD 8 then .suspended else .ready, wait := .none })).finishOp p k o none

/-! ## The object-table cache (R364 to R366) -/

/-- Whether a load of a mapped block has found its homes through an object's entries, and not performed in all of them, or an operation that its commit
has still to issue. -/
def Half.pendingOn (h : Half) (f : BitVec 24 → Bool) : Bool :=
  h.blk.any (fun b => b.slots.any (fun r => (r.st == .waiting || (r.st == .done && r.act.any (fun a => !a.kind.isTake))) && !r.homes.2.isEmpty &&
    r.homes.1.any f))

/-- Whether an access of some task that has been translated through an object's entries has not performed (R365): an issued operation, a load, the
emptying of a TAKE. -/
def State.pendingOn (s : State) (f : BitVec 24 → Bool) : Bool :=
  s.plots.any (fun x => x.2.h0.pendingOn f || x.2.h1.pendingOn f || slotIdx.any (fun k => (x.2.task k).ops.any (fun o =>
    !o.homes.isEmpty && !o.accepted && !o.act.ptr.isPhys && f o.act.ptr.obj))) ||
  s.takes.any (fun x => !x.done && x.obj.any f)

/-- The entries of the objects of a test removed in every cistern, locked or not, and the cached nodes that `g` names (R363, R365). -/
def State.otcRemove (s : State) (f : BitVec 24 → Bool) (g : Nat → Bool) : State :=
  { s with dies := s.dies.map (fun d => (d.1, { d.2 with otc := d.2.otc.filter (fun e => !f e.obj), nodes := d.2.nodes.filter (fun e => !g e.1) })) }

/-- Whether a cached node's key is on the walk to an object. -/
def nodeOf (obj : BitVec 24) (key : Nat) : Bool := [1, 2, 3].any (fun l => key == nodeKey obj.toNat l)

/-- Locked entries of a cistern (R357). -/
def Die.locked (d : Die) : Nat := (d.otc.filter (fun e => e.locked)).length

/-- An extent loaded and locked in a cistern, or, with 128 locked, loaded unlocked and counted in LOVF; or unlocked (R366). -/
def Die.pinExt (d : Die) (e : OtcEnt) (lock : Bool) : Die :=
  let same := fun (x : OtcEnt) => x.obj == e.obj && x.ext == e.ext
  if lock then
    let rest := d.otc.filter (fun x => !same x)
    if d.otc.any (fun x => same x && x.locked) then { d with otc := rest ++ [{ e with locked := true }] }
    else if d.locked = 128 then { d with otc := rest ++ [{ e with locked := false }], lovf := d.lovf + 1 }
    else { d with otc := rest ++ [{ e with locked := true }] }
  else { d with otc := d.otc.map (fun x => if same x then { x with locked := false } else x) }

/-- A cistern that holds more than 512 extents replaces its oldest unlocked one (R363). -/
def Die.fit (d : Die) : Die := if 512 < d.otc.length then { d with otc := d.otc.eraseP (fun e => !e.locked) } else d

/-- Every cistern's record changed, the untouched ones included. -/
def State.onDies (s : State) (f : Die → Die) : State := (List.range 84).foldl (fun s d => s.setDie d (f (s.die d))) s

/-- The presence of an extent's granules initialised, ascending (R366). -/
def State.initExt (s : State) (x0 x1 : BitVec 64) (full : Bool) : State :=
  (List.range (extLen x0 / 32)).foldl (fun s g =>
    let a := extHome x0 x1 (32 * g)
    let s1 := (s.touch a 0xFF).wrSide a { s.sideAt a with pres := if full then 0xFF else 0, tag := false, stamp := 4 }
    if full then s1.wakeGranule a else s1) s

/-- The ranges of the valid extents of a descriptor that are numbered below extent i. -/
def State.extUnder (s : State) (desc : Nat) (d1 : BitVec 64) (i : Nat) : List (Nat × Nat) :=
  (List.range i).filterMap (fun j =>
    let x0 := s.rdW (s.extAddr desc d1 j)
    if x0.getLsbD 63 then some (extOff x0, extLen x0) else none)

/-- OTC.PIN (R366): absent descriptors and extents are deferred faults, and a node that is not resident posts one record and waits. -/
def State.pinEvent (s : State) (p k : Nat) (o : Op) (a b : BitVec 64) : State :=
  let obj := a.extractLsb' 0 24
  let i := (b.extractLsb' 0 16).toNat
  let absent := s.deferFault p k o { cause := .absent, obj := obj }
  match s.lookup obj with
  | .wait => s
  | .absent => absent
  | .page ob f =>
    if o.paused.isSome then s
    else (s.postErr 0x02 p k (s.task p k).launch o.bpc { cause := .page, slot := o.slot, obj := ob, off := f, nested := true } false 0).onOp p k
      o.serial (fun q => { q with paused := some (ob, f) })
  | .found d0 d1 desc =>
    let x0 := s.rdW (s.extAddr desc d1 i)
    let x1 := s.rdW (s.extAddr desc d1 i + 8)
    if !d1.getLsbD 0 || d1.extractLsb' 2 2 == 3 || decide ((d1.extractLsb' 16 16).toNat ≤ i) || !x0.getLsbD 63 then absent
    else
      let e : OtcEnt := ⟨obj, i, d0, d1, x0, x1, false, s.extUnder desc d1 i⟩
      let s1 := s.onDies (fun d => (d.pinExt e (b.getLsbD 16)).fit)
      let init := (d1.extractLsb' 2 2).toNat
      if b.getLsbD 17 && init != 0 then
        (if !x0.getLsbD 62 || isHost x1.toNat then s1.deferFault p k o { cause := .absent, obj := obj }
         else (s1.initExt x0 x1 (init == 2)).finishOp p k o none)
      else s1.finishOp p k o none

end Sys2Proof.Machine
end

