-- ==== Sys2Proof/Machine/Approx.lean ====
section
/-! DEFINITION. The approximations of R135 and R145: each function is enclosed in fixed point, with enough bits that the 12-bit rounding of
the exact value is decided (log 11). An enclosure is a pair of numbers with N bits below the point. -/

namespace Sys2Proof.Machine

open Sys2Proof

/-- a / b rounded up. -/
def cdiv (a b : Nat) : Nat := (a + b - 1) / b

/-- Partial sum of ln 2 = sum of 1 / (k 2^k), each term rounded down. -/
def ln2Sum (n : Nat) : Nat → Nat
  | 0 => 0
  | k + 1 => ln2Sum n k + 2 ^ n / ((k + 1) * 2 ^ (k + 1))

/-- ln 2 enclosed. -/
def fxLn2 (n : Nat) : Nat × Nat :=
  let s := ln2Sum n (n + 8)
  (s, s + n + 12)

/-- Partial sum of the alternating arctangent series of 1/b, as sums of the positive and the negative terms. -/
def atanSum (n b : Nat) : Nat → Nat × Nat
  | 0 => (0, 0)
  | k + 1 =>
    let r := atanSum n b k
    let t := 2 ^ n / ((2 * k + 1) * b ^ (2 * k + 1))
    if k % 2 = 0 then (r.1 + t, r.2) else (r.1, r.2 + t)

/-- pi enclosed, by Machin's formula. -/
def fxPi (n : Nat) : Nat × Nat :=
  let t := n / 4 + 10
  let a := atanSum n 5 t
  let b := atanSum n 239 t
  let v := 16 * (a.1 - a.2) - 4 * (b.1 - b.2)
  (v - 20 * t - 40, v + 20 * t + 40)

/-- The exponential series with every term rounded down: k counts the terms, t is the last one. -/
def expDown (n x : Nat) (k t acc : Nat) : Nat → Nat
  | 0 => acc
  | f + 1 =>
    let u := t * x / (k * 2 ^ n)
    expDown n x (k + 1) u (acc + u) f

/-- The exponential series with every term rounded up. -/
def expUp (n x : Nat) (k t acc : Nat) : Nat → Nat
  | 0 => acc + 2 * t
  | f + 1 =>
    let u := cdiv (t * x) (k * 2 ^ n)
    expUp n x (k + 1) u (acc + u) f

/-- e^x enclosed, for x enclosed between 0 and 2. -/
def fxExp (n lo hi : Nat) : Nat × Nat :=
  (expDown n lo 1 (2 ^ n) (2 ^ n) (n / 3 + 30), expUp n hi 1 (2 ^ n) (2 ^ n) (n / 3 + 30) + 2)

/-- The series of the inverse hyperbolic tangent with every term rounded down; t is the power of z. -/
def atanhDown (n z2 : Nat) (k t acc : Nat) : Nat → Nat
  | 0 => acc
  | f + 1 => atanhDown n z2 (k + 2) (t * z2 / 2 ^ n) (acc + t / k) f

/-- The same with every term rounded up. -/
def atanhUp (n z2 : Nat) (k t acc : Nat) : Nat → Nat
  | 0 => acc + 2 * t
  | f + 1 => atanhUp n z2 (k + 2) (cdiv (t * z2) (2 ^ n)) (acc + cdiv t k) f

/-- An enclosed positive value as an exact real with a sticky tail, if the enclosure decides enough leading bits. -/
def accept (neg : Bool) (lo hi : Nat) (e : Int) : Option Exact :=
  let s := Nat.log2 (hi - lo) + 2
  let m := lo / 2 ^ s
  if m = hi / 2 ^ s ∧ 2 ^ 60 ≤ m then some ⟨neg, m, e + s, true⟩ else none

/-- An enclosure tried with 256 bits and then with 1,400. -/
def decideBy (neg : Bool) (f : Nat → Nat × Nat × Int) : Exact :=
  let a := f 256
  match accept neg a.1 a.2.1 a.2.2 with
  | some x => x
  | none =>
    let b := f 1400
    match accept neg b.1 b.2.1 b.2.2 with
    | some x => x
    | none => ⟨neg, b.1, b.2.2, true⟩

/-- x = m 2^e in fixed point, rounded down. -/
def fxDown (n : Nat) (m : Nat) (e : Int) : Nat := if 0 ≤ e + n then m * 2 ^ (e + n).toNat else m / 2 ^ (-(e + n)).toNat

/-- x = m 2^e in fixed point, rounded up. -/
def fxUp (n : Nat) (m : Nat) (e : Int) : Nat := if 0 ≤ e + n then m * 2 ^ (e + n).toNat else cdiv m (2 ^ (-(e + n)).toNat)

/-- e^y for y enclosed in fixed point with a sign: mantissas and their exponent. -/
def fxExpS (n : Nat) (neg : Bool) (lo hi : Nat) : Nat × Nat × Int :=
  let l := fxLn2 n
  let a : Int := if neg then -(hi : Int) else lo
  let b : Int := if neg then -(lo : Int) else hi
  let k : Int := a * 2 ^ n / (l.2 : Int) / 2 ^ n - 1
  let rl := if 0 ≤ k then a - k * l.2 else a - k * l.1
  let rh := if 0 ≤ k then b - k * l.1 else b - k * l.2
  let e := fxExp n rl.toNat rh.toNat
  (e.1, e.2, k - n)

/-- A mantissa with its exponent brought to fixed point, rounded down and up. -/
def fxOf (n : Nat) (r : Nat × Nat × Int) : Nat × Nat := (fxDown n r.1 r.2.2, fxUp n r.2.1 r.2.2)

/-- 1 / (1 + e^-y) for y enclosed with a sign. -/
def fxSigm (n : Nat) (neg : Bool) (lo hi : Nat) : Nat × Nat × Int :=
  let r := fxExpS n true lo hi
  let e := fxOf n r
  if neg then (r.1 * 2 ^ n / (2 ^ n + e.2), cdiv (r.2.1 * 2 ^ n) (2 ^ n + e.1), r.2.2)
  else (2 ^ (2 * n) / (2 ^ n + e.2), cdiv (2 ^ (2 * n)) (2 ^ n + e.1), -(n : Int))

/-! ## The functions, each of a finite non-zero (-1)^neg m 2^e -/

/-- 1 / x. -/
def rcpOf (neg : Bool) (m : Nat) (e : Int) : Exact := exactDiv neg 1 0 m e

/-- 1 / sqrt x, for positive x: exact when m is a power of two and the exponent is even. -/
def rsqOf (m : Nat) (e : Int) : Exact :=
  let odd := e % 2 = 1
  let a := if odd then 2 * m else m
  let h := (if odd then e - 1 else e) / 2
  let k := Nat.log2 a + 80
  let s := isqrt (2 ^ (2 * k) / a)
  ⟨false, s, -h - k, s * s * a != 2 ^ (2 * k)⟩

/-- 2^x. -/
def ex2Of (neg : Bool) (m : Nat) (e : Int) : Exact :=
  if 11 ≤ (Nat.log2 m : Int) + e then ⟨false, 1, if neg then -5000 else 5000, false⟩
  else if 0 ≤ e ∨ m % 2 ^ (-e).toNat = 0 then
    let i : Int := if 0 ≤ e then m * 2 ^ e.toNat else (m / 2 ^ (-e).toNat : Nat)
    ⟨false, 1, if neg then -i else i, false⟩
  else
    let d := (-e).toNat
    let x : Int := if neg then -(m : Int) else m
    let i := x / (2 ^ d : Nat)
    let f := (x % (2 ^ d : Nat)).toNat
    decideBy false (fun n =>
      let l := fxLn2 n
      let r := fxExp n (fxDown n f e * l.1 / 2 ^ n) (fxUp n f e * l.2 / 2 ^ n + 1)
      (r.1, r.2, i - n))

/-- log2 x, for positive x: an integer for a power of two. DESIGN CHOICE (log 67): the exact zero log2 1 is +0; R135 states no sign. -/
def lg2Of (m : Nat) (e : Int) : Exact :=
  let b := Nat.log2 m
  if m = 2 ^ b then
    let i : Int := (b : Int) + e
    ⟨i < 0, i.natAbs, 0, false⟩
  else
    -- f = m / 2^c lies between 3/4 and 3/2
    let c := if 3 * 2 ^ b < 2 * m then b + 1 else b
    let i : Int := (c : Int) + e
    let neg := m < 2 ^ c
    let num := if neg then 2 ^ c - m else m - 2 ^ c
    let den := m + 2 ^ c
    let enc := fun (n : Nat) =>
      let l := fxLn2 n
      let zd := num * 2 ^ n / den
      let zu := cdiv (num * 2 ^ n) den
      let ad := atanhDown n (zd * zd / 2 ^ n) 1 zd 0 (n / 4 + 10)
      let au := atanhUp n (cdiv (zu * zu) (2 ^ n)) 1 zu 0 (n / 4 + 10) + 2
      let ld := 2 * ad * 2 ^ n / l.2
      let lu := cdiv (2 * au * 2 ^ n) l.1
      let a : Int := i * 2 ^ n + (if neg then -(lu : Int) else ld)
      let z : Int := i * 2 ^ n + (if neg then -(ld : Int) else lu)
      (a, z)
    let s : Bool := i < 0 || (i == 0 && neg)
    decideBy s (fun n =>
      let r := enc n
      if s then (r.2.natAbs, r.1.natAbs, -(n : Int)) else (r.1.toNat, r.2.toNat, -(n : Int)))

/-- e^x (FP32 range). -/
def expOf (neg : Bool) (m : Nat) (e : Int) : Exact :=
  if 8 ≤ (Nat.log2 m : Int) + e then ⟨false, 1, if neg then -5000 else 5000, true⟩
  else decideBy false (fun n => fxExpS n neg (fxDown n m e) (fxUp n m e))

/-- tanh x. -/
def tanhOf (neg : Bool) (m : Nat) (e : Int) : Exact :=
  if 5 ≤ (Nat.log2 m : Int) + e then ⟨neg, 2 ^ 62 - 1, -62, true⟩
  else decideBy neg (fun n =>
    let x := fxOf n (fxExpS n true (2 * fxDown n m e) (2 * fxUp n m e))
    ((2 ^ n - x.2) * 2 ^ n / (2 ^ n + x.2), cdiv ((2 ^ n - x.1) * 2 ^ n) (2 ^ n + x.1), -(n : Int)))

/-- 1 / (1 + e^-x). -/
def sigmOf (neg : Bool) (m : Nat) (e : Int) : Exact :=
  if 8 ≤ (Nat.log2 m : Int) + e then (if neg then ⟨false, 1, -5000, true⟩ else ⟨false, 2 ^ 62 - 1, -62, true⟩)
  else decideBy false (fun n => fxSigm n neg (fxDown n m e) (fxUp n m e))

/-- x times an enclosed factor below 1. -/
def scaleBy (m : Nat) (e : Int) (r : Nat × Nat × Int) : Nat × Nat × Int := (m * r.1, m * r.2.1, r.2.2 + e)

/-- x / (1 + e^-x). -/
def siluOf (neg : Bool) (m : Nat) (e : Int) : Exact :=
  if 8 ≤ (Nat.log2 m : Int) + e then (if neg then ⟨true, 1, -5000, true⟩ else ⟨false, m * 2 ^ 62 - 1, e - 62, true⟩)
  else decideBy neg (fun n => scaleBy m e (fxSigm n neg (fxDown n m e) (fxUp n m e)))

/-- 0.5 x (1 + tanh(sqrt(2/pi) (x + 0.044715 x^3))), which is x / (1 + e^-2u) for u the argument of tanh. -/
def geltOf (neg : Bool) (m : Nat) (e : Int) : Exact :=
  if 4 ≤ (Nat.log2 m : Int) + e then (if neg then ⟨true, 1, -5000, true⟩ else ⟨false, m * 2 ^ 62 - 1, e - 62, true⟩)
  else decideBy neg (fun n =>
    let d := (-e).toNat
    let num := m * (200000 * 2 ^ (2 * d) + 8943 * m * m)
    let vd := fxDown n num (-(3 * (d : Int))) / 200000
    let vu := cdiv (fxUp n num (-(3 * (d : Int)))) 200000
    let w := fxPi n
    let cd := isqrt (8 * 2 ^ (3 * n) / w.2)
    let cu := isqrt (8 * 2 ^ (3 * n) / w.1) + 1
    scaleBy m e (fxSigm n neg (vd * cd / 2 ^ n) (vu * cu / 2 ^ n + 1)))

/-! ## Rounding an approximation -/

/-- A result of R135 or R145: rounded with RNE to q significant bits, with the tag min(sig, 12, p) and the cap. -/
def approxRes (f : FpFmt) (sx : Nat) (x : Exact) : FpRes :=
  let q := f.round (min 12 f.p) .rne x
  f.result q.bits q.flags (capTag f.p q.inexact (min (min sx 12) f.p))

/-- A special result with its flags; infinite and NaN results have tag 0. -/
def approxSpec (f : FpFmt) (sx : Nat) (b : BitVec 64) (fl : FFlags) : FpRes := f.result b fl (min (min sx 12) f.p)

/-- The zero of a sign. -/
def FpFmt.zero (f : FpFmt) (neg : Bool) : BitVec 64 := BitVec.ofNat 64 (f.pack neg 0 0)

/-- FRCP and VACT.RCP. -/
def fpRcp (f : FpFmt) (x : FVal) (sx : Nat) : FpRes :=
  match x with
  | .nan sg => f.nanRes (if sg then fNV else 0)
  | .inf n => approxSpec f sx (f.zero n) 0
  | .fin n m e => if m = 0 then ⟨f.inf n, fDZ, 0⟩ else approxRes f sx (rcpOf n m e)

/-- FRSQ and VACT.RSQ. -/
def fpRsq (f : FpFmt) (x : FVal) (sx : Nat) : FpRes :=
  match x with
  | .nan sg => f.nanRes (if sg then fNV else 0)
  | .inf n => if n then f.nanRes fNV else approxSpec f sx (f.zero false) 0
  | .fin n m e =>
    if m = 0 then ⟨f.inf n, fDZ, 0⟩ else if n then f.nanRes fNV else approxRes f sx (rsqOf m e)

/-- FEX2. -/
def fpEx2 (f : FpFmt) (x : FVal) (sx : Nat) : FpRes :=
  match x with
  | .nan sg => f.nanRes (if sg then fNV else 0)
  | .inf n => if n then approxSpec f sx (f.zero false) 0 else ⟨f.inf false, 0, 0⟩
  | .fin n m e => if m = 0 then approxRes f sx ⟨false, 1, 0, false⟩ else approxRes f sx (ex2Of n m e)

/-- FLG2. -/
def fpLg2 (f : FpFmt) (x : FVal) (sx : Nat) : FpRes :=
  match x with
  | .nan sg => f.nanRes (if sg then fNV else 0)
  | .inf n => if n then f.nanRes fNV else ⟨f.inf false, 0, 0⟩
  | .fin n m e =>
    if m = 0 then ⟨f.inf true, fDZ, 0⟩ else if n then f.nanRes fNV else approxRes f sx (lg2Of m e)

end Sys2Proof.Machine
end

