-- ==== Sys2Proof/Machine/Vector.lean ====
section
/-! DEFINITION. The vector instructions (R137 to R151). -/

namespace Sys2Proof.Machine

open Sys2Proof

/-! ## Lanes -/

/-- Lane i as FP32 with its tag (R137). -/
def VReg.f32 (v : VReg) (i : Nat) : FVal × Nat := (fp32.dec (v.lane i).toNat, v.tag32 i)

/-- A scalar FP operand read as FP32 (R137). -/
def FReg.f32 (r : FReg) : FVal × Nat := r.read fp32

/-- The vector of sixteen FP32 results. -/
def vecOf (rs : List FpRes) : VReg :=
  VReg.mk16 (fun i => (rs.getD i ⟨0, 0, 0⟩).bits.extractLsb' 0 32) (fun i => (rs.getD i ⟨0, 0, 0⟩).tag)

/-- The OR of the lanes' flags (R39). -/
def flagsOf (rs : List FpRes) : FFlags := rs.foldl (fun a r => a ||| r.flags) 0

/-- Sixteen results, one a lane. -/
def lanes16 {α : Type} (f : Nat → α) : List α := (List.range 16).map f

/-- The lanes that R138 checks, from results that are FP32 lanes. -/
def laneChecks (rs : List FpRes) : List Checked :=
  (rs.zipIdx).map (fun r => ⟨r.2, (fp32.dec r.1.bits.toNat).isFin, r.1.tag, r.1.bits.extractLsb' 0 32⟩)

/-- A vector slot done with FP32 lanes, all checked (R138). -/
def State.vecResult (s : State) (cx : Cx) (d : Dst) (rs : List FpRes) : State :=
  s.fpResult cx d (.vec (vecOf rs)) (flagsOf rs) (laneChecks rs) 16

/-- A vector slot done with an unchecked value. -/
def State.vecPlain (s : State) (cx : Cx) (d : Dst) (v : Val) (fl : FFlags) : State := s.fpResult cx d v fl [] 16

/-- A vector of INT32 lanes, tag 0 (R44). -/
def intVec (f : Nat → BitVec 32) : VReg := VReg.mk16 f (fun _ => 0)

/-- Lane forms of two VEC operands in FP32 or INT32 (R140). -/
def vArith2 (p : Pred) (d : Dst) (t : VArith) (a b : Opnd) (s : State)
    (f : Rnd → FVal → Nat → FVal → Nat → FpRes) (g : BitVec 32 → BitVec 32 → BitVec 32) : Out :=
  runSlot p s (fun cx => (cx.vec a).bind (fun x => (cx.vec b).bind (fun y =>
    match t with
    | .f32 rnd => .val (s.vecResult cx d (lanes16 (fun i =>
        f (cx.task.mode rnd) (x.f32 i).1 (x.f32 i).2 (y.f32 i).1 (y.f32 i).2)))
    | .i32 => .val (s.vecPlain cx d (.vec (intVec (fun i => g (x.lane i) (y.lane i)))) 0))))

/-- An unchecked vector of two VEC operands (R144). -/
def vInt2 (p : Pred) (d : Dst) (a b : Opnd) (s : State) (g : BitVec 32 → BitVec 32 → BitVec 32) : Out :=
  runSlot p s (fun cx => (cx.vec a).bind (fun x => (cx.vec b).bind (fun y =>
    .val (s.vecPlain cx d (.vec (intVec (fun i => g (x.lane i) (y.lane i)))) 0))))

/-- Checked FP32 lanes of one VEC operand. -/
def vFp1 (p : Pred) (d : Dst) (a : Opnd) (s : State) (f : FVal → Nat → FpRes) : Out :=
  runSlot p s (fun cx => (cx.vec a).bind (fun x =>
    .val (s.vecResult cx d (lanes16 (fun i => f (x.f32 i).1 (x.f32 i).2)))))

/-- The activation functions (R145): finite non-zero lanes by `f`, the infinities by the table, and zeros of each sign by the table where it lists
them. It lists none for GELT, SILU and TANH of a zero, which give a zero of the sign of x (DESIGN CHOICE, log 67). -/
def vAct (f : Bool → Nat → Int → Exact) (zero : Bool → BitVec 64) (ninf pinf : BitVec 64) (x : FVal) (sx : Nat) : FpRes :=
  match x with
  | .nan sg => fp32.nanRes (if sg then fNV else 0)
  | .inf n => approxSpec fp32 sx (if n then ninf else pinf) 0
  | .fin n m e => if m = 0 then approxSpec fp32 sx (zero n) 0 else approxRes fp32 sx (f n m e)

/-- RELU: x if x > 0, else +0; exact and never capped (R145). -/
def reluRes (x : FVal) (b : BitVec 32) (sx : Nat) : FpRes :=
  match x with
  | .nan sg => fp32.nanRes (if sg then fNV else 0)
  | _ => if !x.neg && !x.isZero then fp32.result (b.zeroExtend 64) 0 (min sx 12) else ⟨0, 0, min sx 12⟩

/-- One level of the tree of R45. -/
def treeLevel {α : Type} (f : α → α → α) : List α → List α
  | x :: y :: t => f x y :: treeLevel f t
  | l => l

/-- The tree of R45 over sixteen lanes. -/
def tree16 {α : Type} (f : α → α → α) (xs : List α) : List α := treeLevel f (treeLevel f (treeLevel f (treeLevel f xs)))

/-- One step of VRED SUM: FADD with its flags ORed (R142). -/
def redAdd (x y : FpRes) : FpRes :=
  let r := fpAdd fp32 .rne (fp32.dec x.bits.toNat) x.tag (fp32.dec y.bits.toNat) y.tag
  { r with flags := r.flags ||| x.flags ||| y.flags }

/-- One step of VRED MAX and MIN (R142). -/
def redMnx (big mg : Bool) (x y : FpRes) : FpRes :=
  let r := fpMnx fp32 big mg x.bits x.tag y.bits y.tag
  { r with flags := r.flags ||| x.flags ||| y.flags }

/-- One step of VRED AMAX (R45, R142): as MAXM, but two numbers of equal magnitude give the lower-numbered one. -/
def redAmax (x y : FpRes) : FpRes :=
  let u := fp32.dec x.bits.toNat
  let v := fp32.dec y.bits.toNat
  if !u.isNan && !v.isNan && fpOrd u.mag v.mag == .eq then fp32.result x.bits (x.flags ||| y.flags) x.tag else redMnx true true x y

/-- VRED (R142): the final scalar alone is checked. -/
def vRed (p : Pred) (d : Dst) (a : Opnd) (s : State) (f : FpRes → FpRes → FpRes) (g : FpRes → FpRes) : Out :=
  runSlot p s (fun cx => (cx.vec a).bind (fun x =>
    let r := g ((tree16 f (lanes16 (fun i => (⟨(x.lane i).zeroExtend 64, 0, x.tag32 i⟩ : FpRes)))).headD ⟨0, 0, 0⟩)
    .val (s.fpResult cx d (.fp r.reg) r.flags [r.checked fp32] 16)))

/-- A MASK from sixteen lanes. -/
def maskOf (f : Nat → Bool) : BitVec 16 := BitVec.ofNat 16 ((List.range 16).foldl (fun n i => n + (if f i then 2 ^ i else 0)) 0)

/-- VSEL: lane i of A, with its tag, where its mask bit equals `on`, else +0 with tag 24 (R141). A lane's tag is read as min(tag, 24) (R42). VSEL
names no FP format, so a NaN or infinity keeps its tag (DESIGN CHOICE, log 67). -/
def vSel (p : Pred) (d : Dst) (a b : Opnd) (on : Bool) (s : State) : Out :=
  runSlot p s (fun cx => (cx.vec a).bind (fun x => (cx.mask b).bind (fun m =>
    .val (s.vecPlain cx d (.vec (VReg.mk16 (fun i => if m.getLsbD i == on then x.lane i else 0)
      (fun i => if m.getLsbD i == on then x.tag32 i else 24))) 0))))

/-- A packed narrowing conversion (R146), checked with the tag each element would carry unpacked (R138). -/
def vNarrow (p : Pred) (d : Dst) (a : Opnd) (f : FpFmt) (s : State) : Out :=
  runSlot p s (fun cx => (cx.vec a).bind (fun x =>
    let rs := lanes16 (fun i => fpCvt f .rne (x.f32 i).1 (x.f32 i).2)
    let cs : List Checked := rs.zipIdx.map (fun r =>
      ⟨r.2, (f.dec r.1.bits.toNat).isFin, r.1.tag, (fpCvt fp32 .rne (f.dec r.1.bits.toNat) 0).bits.extractLsb' 0 32⟩)
    .val (s.fpResult cx d (.vec (packedVec f.width (rs.map (fun r => r.bits.toNat)))) (flagsOf rs) cs 16)))

/-- A widening conversion of packed elements: exact, with p of the source format (R146). -/
def vWiden (p : Pred) (d : Dst) (a : Opnd) (f : FpFmt) (s : State) : Out :=
  runSlot p s (fun cx => (cx.vec a).bind (fun x =>
    .val (s.vecResult cx d (lanes16 (fun i => fpCvt fp32 .rne (f.dec (elemAt x.lanes f.width i)) f.p)))))

/-- VQNT with a scale in B (R147). -/
def vQuant (p : Pred) (d : Dst) (a b : Opnd) (k : Elem) (nanOvf : Bool) (s : State) : Out :=
  runSlot p s (fun cx => (cx.vec a).bind (fun x => (cx.fp b).bind (fun y =>
    let r := quantScaled k nanOvf y.f32.1 (lanes16 (fun i => (x.f32 i).1))
    .val (s.vecPlain cx d (.vec (packedVec k.width r.1)) r.2))))

/-- VQNT of an MX block: elements 0 to 15 from A and 16 to 31 from B (R148). -/
def vQuantMx (p : Pred) (d : Dst) (a b : Opnd) (k : Elem) (s : State) : Out :=
  runSlot p s (fun cx => (cx.vec a).bind (fun x => (cx.vec b).bind (fun y =>
    let r := quantBlock k (lanes16 (fun i => (x.f32 i).1) ++ lanes16 (fun i => (y.f32 i).1))
    .val (s.vecPlain cx d (.vec (mxVec k r)) r.2.2))))

/-- VDQ with a scale in B (R149). -/
def vDequant (p : Pred) (d : Dst) (a b : Opnd) (k : Elem) (s : State) : Out :=
  runSlot p s (fun cx => (cx.vec a).bind (fun x => (cx.fp b).bind (fun y =>
    .val (s.vecResult cx d (lanes16 (fun i => dequantScaled k y.f32.1 y.f32.2 (elemAt x.lanes k.width i)))))))

/-- VDQ of half an MX block (R150). -/
def vDequantMx (p : Pred) (d : Dst) (hi : Bool) (a : Opnd) (k : Elem) (s : State) : Out :=
  runSlot p s (fun cx => (cx.vec a).bind (fun x =>
    .val (s.vecResult cx d (lanes16 (fun i =>
      dequantMx k ((x.lane 8).extractLsb' 0 8).toNat (elemAt x.lanes k.width ((if hi then 16 else 0) + i)))))))

/-! ## The instructions -/

/-- VADD (R140). -/
def execVadd (p : Pred) (d : Dst) (t : VArith) (a b : Opnd) (s : State) : Out :=
  vArith2 p d t a b s (fpAdd fp32) (fun x y => x + y)

/-- VSUB (R140). -/
def execVsub (p : Pred) (d : Dst) (t : VArith) (a b : Opnd) (s : State) : Out :=
  vArith2 p d t a b s (fpSub fp32) (fun x y => x - y)

/-- VMUL (R140). -/
def execVmul (p : Pred) (d : Dst) (t : VArith) (a b : Opnd) (s : State) : Out :=
  vArith2 p d t a b s (fpMul fp32) (fun x y => x * y)

/-- VFMA (R140). -/
def execVfma (p : Pred) (d : Dst) (t : VArith) (a b c : Opnd) (s : State) : Out :=
  runSlot p s (fun cx => (cx.vec a).bind (fun x => (cx.vec b).bind (fun y => (cx.vec c).bind (fun z =>
    match t with
    | .f32 rnd => .val (s.vecResult cx d (lanes16 (fun i =>
        fpFma fp32 (cx.task.mode rnd) (x.f32 i).1 (x.f32 i).2 (y.f32 i).1 (y.f32 i).2 (z.f32 i).1 (z.f32 i).2)))
    | .i32 => .val (s.vecPlain cx d (.vec (intVec (fun i => x.lane i * y.lane i + z.lane i))) 0)))))

/-- VSCL: every lane times one scalar (R140). -/
def execVscl (p : Pred) (d : Dst) (t : VArith) (a b : Opnd) (s : State) : Out :=
  match t with
  | .f32 rnd => runSlot p s (fun cx => (cx.vec a).bind (fun x => (cx.fp b).bind (fun y =>
      .val (s.vecResult cx d (lanes16 (fun i =>
        fpMul fp32 (cx.task.mode rnd) (x.f32 i).1 (x.f32 i).2 y.f32.1 y.f32.2))))))
  | .i32 => runSlot p s (fun cx => (cx.vec a).bind (fun x => (cx.int b).bind (fun y =>
      .val (s.vecPlain cx d (.vec (intVec (fun i => x.lane i * lo32 y))) 0))))

/-- FP32 selection lane by lane (R141). -/
def vMnxF (p : Pred) (d : Dst) (a b : Opnd) (big mg : Bool) (s : State) : Out :=
  runSlot p s (fun cx => (cx.vec a).bind (fun x => (cx.vec b).bind (fun y =>
    let rs := lanes16 (fun i => fpMnx fp32 big mg ((x.lane i).zeroExtend 64) (x.tag32 i) ((y.lane i).zeroExtend 64) (y.tag32 i))
    .val (s.vecPlain cx d (.vec (vecOf rs)) (flagsOf rs)))))

/-- VMNX (R141). -/
def execVmnx (p : Pred) (d : Dst) (k : VMnxOp) (a b : Opnd) (s : State) : Out :=
  match k with
  | .fmin => vMnxF p d a b false false s
  | .fmax => vMnxF p d a b true false s
  | .fminm => vMnxF p d a b false true s
  | .fmaxm => vMnxF p d a b true true s
  | .mins => vInt2 p d a b s (fun x y => if x.sle y then x else y)
  | .maxs => vInt2 p d a b s (fun x y => if x.sle y then y else x)
  | .minu => vInt2 p d a b s (fun x y => if x.ule y then x else y)
  | .maxu => vInt2 p d a b s (fun x y => if x.ule y then y else x)

/-- FP32 comparison lane by lane (R141). -/
def vCmpF (p : Pred) (d : Dst) (a b : Opnd) (k : FCmp) (s : State) : Out :=
  runSlot p s (fun cx => (cx.vec a).bind (fun x => (cx.vec b).bind (fun y =>
    let r := fun i => fpCmp k (x.f32 i).1 (y.f32 i).1
    .val (s.vecPlain cx d (.mask (maskOf (fun i => (r i).1))) ((lanes16 r).foldl (fun a q => a ||| q.2) 0)))))

/-- INT32 comparison lane by lane (R141). -/
def vCmpI (p : Pred) (d : Dst) (a b : Opnd) (f : BitVec 32 → BitVec 32 → Bool) (s : State) : Out :=
  runSlot p s (fun cx => (cx.vec a).bind (fun x => (cx.vec b).bind (fun y =>
    .val (s.vecPlain cx d (.mask (maskOf (fun i => f (x.lane i) (y.lane i)))) 0))))

/-- VCMP (R141). -/
def execVcmp (p : Pred) (d : Dst) (k : VCmpOp) (a b : Opnd) (s : State) : Out :=
  match k with
  | .feq => vCmpF p d a b .eq s
  | .flt => vCmpF p d a b .lt s
  | .fle => vCmpF p d a b .le s
  | .fun_ => vCmpF p d a b .un s
  | .eq => vCmpI p d a b (fun x y => x == y) s
  | .lts => vCmpI p d a b (fun x y => x.slt y) s
  | .les => vCmpI p d a b (fun x y => x.sle y) s
  | .ltu => vCmpI p d a b (fun x y => x.ult y) s
  | .leu => vCmpI p d a b (fun x y => x.ule y) s

/-- VSEL.SET (R141). -/
def execVselSet (p : Pred) (d : Dst) (a b : Opnd) (s : State) : Out := vSel p d a b true s

/-- VSEL.CLR (R141). -/
def execVselClr (p : Pred) (d : Dst) (a b : Opnd) (s : State) : Out := vSel p d a b false s

/-- VRED.SUM (R142). -/
def execVredSum (p : Pred) (d : Dst) (a : Opnd) (s : State) : Out := vRed p d a s redAdd id

/-- VRED.MAX (R142). -/
def execVredMax (p : Pred) (d : Dst) (a : Opnd) (s : State) : Out := vRed p d a s (redMnx true false) id

/-- VRED.MIN (R142). -/
def execVredMin (p : Pred) (d : Dst) (a : Opnd) (s : State) : Out := vRed p d a s (redMnx false false) id

/-- VRED.AMAX: the magnitude of the selected lane (R142). -/
def execVredAmax (p : Pred) (d : Dst) (a : Opnd) (s : State) : Out :=
  vRed p d a s redAmax (fun r => { r with bits := r.bits &&& 0x7FFFFFFF })

/-- VBC (R143). -/
def execVbc (p : Pred) (d : Dst) (t : VTy) (a : Opnd) (s : State) : Out :=
  match t with
  | .f32 => runSlot p s (fun cx => (cx.fp a).bind (fun x =>
      .val (s.vecPlain cx d (.vec (VReg.mk16 (fun _ => lo32 x.bits) (fun _ => min x.tag.toNat 24))) 0)))
  | .i32 => runSlot p s (fun cx => (cx.int a).bind (fun x =>
      .val (s.vecPlain cx d (.vec (intVec (fun _ => lo32 x))) 0)))

/-- VPERM: lane i := lane B_i[3:0] of A with its tag (R143), read by R42 (log 67). -/
def execVperm (p : Pred) (d : Dst) (a b : Opnd) (s : State) : Out :=
  runSlot p s (fun cx => (cx.vec a).bind (fun x => (cx.vec b).bind (fun y =>
    let j := fun i => ((y.lane i).extractLsb' 0 4).toNat
    .val (s.vecPlain cx d (.vec (VReg.mk16 (fun i => x.lane (j i)) (fun i => x.tag32 (j i)))) 0))))

/-- VEXT (R143). -/
def execVext (p : Pred) (d : Dst) (t : VTy) (a b : Opnd) (s : State) : Out :=
  runSlot p s (fun cx => (cx.vec a).bind (fun x => (cx.int b).bind (fun y =>
    let j := (y.extractLsb' 0 4).toNat
    .val (s.vecPlain cx d (match t with
      | .f32 => .fp ⟨(x.lane j).zeroExtend 64, x.tag j⟩
      | .i32 => .int (sext32 (x.lane j))) 0))))

/-- A vector with one lane replaced. -/
def VReg.setLane (v : VReg) (j : Nat) (x : BitVec 32) (tag : Nat) : VReg :=
  VReg.mk16 (fun i => if i = j then x else v.lane i) (fun i => if i = j then tag else (v.tag i).toNat)

/-- VINS (R143). -/
def execVins (p : Pred) (d : Dst) (t : VTy) (lane : BitVec 4) (a b : Opnd) (s : State) : Out :=
  match t with
  | .f32 => runSlot p s (fun cx => (cx.vec a).bind (fun x => (cx.fp b).bind (fun y =>
      .val (s.vecPlain cx d (.vec (x.setLane lane.toNat (lo32 y.bits) (min y.tag.toNat 24))) 0))))
  | .i32 => runSlot p s (fun cx => (cx.vec a).bind (fun x => (cx.int b).bind (fun y =>
      .val (s.vecPlain cx d (.vec (x.setLane lane.toNat (lo32 y) 0)) 0))))

/-- VIDX: lane i := i (R143). -/
def execVidx (p : Pred) (d : Dst) (s : State) : Out :=
  runSlot p s (fun cx => .val (s.vecPlain cx d (.vec (intVec (fun i => BitVec.ofNat 32 i))) 0))

/-- VSHR: lanes move down by n with their tags, read by R42 (log 67), vacated lanes 0 with tag 0 (R143). -/
def execVshr (p : Pred) (d : Dst) (a b : Opnd) (s : State) : Out :=
  runSlot p s (fun cx => (cx.vec a).bind (fun x => (cx.int b).bind (fun y =>
    .val (s.vecPlain cx d (.vec (VReg.mk16 (fun i => if i + y.toNat ≤ 15 then x.lane (i + y.toNat) else 0)
      (fun i => if i + y.toNat ≤ 15 then x.tag32 (i + y.toNat) else 0))) 0))))

/-- VAND (R144). -/
def execVand (p : Pred) (d : Dst) (a b : Opnd) (s : State) : Out := vInt2 p d a b s (fun x y => x &&& y)

/-- VOR (R144). -/
def execVor (p : Pred) (d : Dst) (a b : Opnd) (s : State) : Out := vInt2 p d a b s (fun x y => x ||| y)

/-- VXOR (R144). -/
def execVxor (p : Pred) (d : Dst) (a b : Opnd) (s : State) : Out := vInt2 p d a b s (fun x y => x ^^^ y)

/-- VSHL (R144). -/
def execVshl (p : Pred) (d : Dst) (a b : Opnd) (s : State) : Out := vInt2 p d a b s (fun x y => x <<< (y.extractLsb' 0 5).toNat)

/-- VSHRL (R144). -/
def execVshrl (p : Pred) (d : Dst) (a b : Opnd) (s : State) : Out := vInt2 p d a b s (fun x y => x >>> (y.extractLsb' 0 5).toNat)

/-- VSRA (R144). -/
def execVsra (p : Pred) (d : Dst) (a b : Opnd) (s : State) : Out := vInt2 p d a b s (fun x y => x.sshiftRight (y.extractLsb' 0 5).toNat)

/-- VACT.RELU (R145). -/
def execVactRelu (p : Pred) (d : Dst) (a : Opnd) (s : State) : Out :=
  runSlot p s (fun cx => (cx.vec a).bind (fun x =>
    .val (s.vecResult cx d (lanes16 (fun i => reluRes (x.f32 i).1 (x.lane i) (x.f32 i).2)))))

/-- VACT.GELT (R145). -/
def execVactGelt (p : Pred) (d : Dst) (a : Opnd) (s : State) : Out := vFp1 p d a s (vAct geltOf fp32.zero 0x80000000 0x7F800000)

/-- VACT.SILU (R145). -/
def execVactSilu (p : Pred) (d : Dst) (a : Opnd) (s : State) : Out := vFp1 p d a s (vAct siluOf fp32.zero 0x80000000 0x7F800000)

/-- VACT.EXP (R145). -/
def execVactExp (p : Pred) (d : Dst) (a : Opnd) (s : State) : Out := vFp1 p d a s (vAct expOf (fun _ => 0x3F800000) 0 0x7F800000)

/-- VACT.TANH (R145). -/
def execVactTanh (p : Pred) (d : Dst) (a : Opnd) (s : State) : Out := vFp1 p d a s (vAct tanhOf fp32.zero 0xBF800000 0x3F800000)

/-- VACT.SIGM (R145). -/
def execVactSigm (p : Pred) (d : Dst) (a : Opnd) (s : State) : Out := vFp1 p d a s (vAct sigmOf (fun _ => 0x3F000000) 0 0x3F800000)

/-- VACT.RCP (R145). -/
def execVactRcp (p : Pred) (d : Dst) (a : Opnd) (s : State) : Out := vFp1 p d a s (fpRcp fp32)

/-- VACT.RSQ (R145). -/
def execVactRsq (p : Pred) (d : Dst) (a : Opnd) (s : State) : Out := vFp1 p d a s (fpRsq fp32)

/-- VCVT Bf16F32 (R146). -/
def execVcvtBf16F32 (p : Pred) (d : Dst) (a : Opnd) (s : State) : Out := vNarrow p d a bf16 s

/-- VCVT F32Bf16 (R146). -/
def execVcvtF32Bf16 (p : Pred) (d : Dst) (a : Opnd) (s : State) : Out := vWiden p d a bf16 s

/-- VCVT F16F32 (R146). -/
def execVcvtF16F32 (p : Pred) (d : Dst) (a : Opnd) (s : State) : Out := vNarrow p d a fp16 s

/-- VCVT F32F16 (R146). -/
def execVcvtF32F16 (p : Pred) (d : Dst) (a : Opnd) (s : State) : Out := vWiden p d a fp16 s

/-- VCVT E5m2F32 (R146). -/
def execVcvtE5m2F32 (p : Pred) (d : Dst) (a : Opnd) (s : State) : Out := vNarrow p d a e5m2 s

/-- VCVT F32E5m2 (R146). -/
def execVcvtF32E5m2 (p : Pred) (d : Dst) (a : Opnd) (s : State) : Out := vWiden p d a e5m2 s

/-- VCVT F32E4m3 (R146). -/
def execVcvtF32E4m3 (p : Pred) (d : Dst) (a : Opnd) (s : State) : Out := vWiden p d a e4m3 s

/-- VCVT.I32.F32: unchecked (R138, R146). -/
def execVcvtI32F32 (p : Pred) (d : Dst) (a : Opnd) (s : State) : Out :=
  runSlot p s (fun cx => (cx.vec a).bind (fun x =>
    let r := fun i => fpToInt .rne (-(2 ^ 31)) (2 ^ 31 - 1) (x.f32 i).1
    .val (s.vecPlain cx d (.vec (intVec (fun i => BitVec.ofInt 32 (r i).1))) ((lanes16 r).foldl (fun a q => a ||| q.2) 0))))

/-- VCVT.F32.I32 (R146). -/
def execVcvtF32I32 (p : Pred) (d : Dst) (a : Opnd) (s : State) : Out :=
  runSlot p s (fun cx => (cx.vec a).bind (fun x =>
    .val (s.vecResult cx d (lanes16 (fun i => intToFp fp32 .rne (x.lane i).toInt)))))

/-- VQNT.E4M3.SAT (R147). -/
def execVqntE4m3Sat (p : Pred) (d : Dst) (a b : Opnd) (s : State) : Out := vQuant p d a b .e4m3 false s

/-- VQNT.E4M3.NAN (R147). -/
def execVqntE4m3Nan (p : Pred) (d : Dst) (a b : Opnd) (s : State) : Out := vQuant p d a b .e4m3 true s

/-- VQNT.INT8 (R147). -/
def execVqntInt8 (p : Pred) (d : Dst) (a b : Opnd) (s : State) : Out := vQuant p d a b .int8 false s

/-- VQNT.INT4 (R147). -/
def execVqntInt4 (p : Pred) (d : Dst) (a b : Opnd) (s : State) : Out := vQuant p d a b .int4 false s

/-- VQNT.MXFP4 (R148). -/
def execVqntMxfp4 (p : Pred) (d : Dst) (a b : Opnd) (s : State) : Out := vQuantMx p d a b .e2m1 s

/-- VQNT.MXINT8 (R148). -/
def execVqntMxint8 (p : Pred) (d : Dst) (a b : Opnd) (s : State) : Out := vQuantMx p d a b .mxint8 s

/-- VQNT.MXFP8 (R148). -/
def execVqntMxfp8 (p : Pred) (d : Dst) (a b : Opnd) (s : State) : Out := vQuantMx p d a b .e4m3 s

/-- VDQ.E4M3.SAT (R149). -/
def execVdqE4m3Sat (p : Pred) (d : Dst) (a b : Opnd) (s : State) : Out := vDequant p d a b .e4m3 s

/-- VDQ.E4M3.NAN, which reads as the saturating form does (R149). -/
def execVdqE4m3Nan (p : Pred) (d : Dst) (a b : Opnd) (s : State) : Out := vDequant p d a b .e4m3 s

/-- VDQ.INT8 (R149). -/
def execVdqInt8 (p : Pred) (d : Dst) (a b : Opnd) (s : State) : Out := vDequant p d a b .int8 s

/-- VDQ.INT4 (R149). -/
def execVdqInt4 (p : Pred) (d : Dst) (a b : Opnd) (s : State) : Out := vDequant p d a b .int4 s

/-- VDQ.MXFP4 (R150). -/
def execVdqMxfp4 (p : Pred) (d : Dst) (hi : Bool) (a : Opnd) (s : State) : Out := vDequantMx p d hi a .e2m1 s

/-- VDQ.MXINT8 (R150). -/
def execVdqMxint8 (p : Pred) (d : Dst) (hi : Bool) (a : Opnd) (s : State) : Out := vDequantMx p d hi a .mxint8 s

/-- VDQ.MXFP8 (R150). -/
def execVdqMxfp8 (p : Pred) (d : Dst) (hi : Bool) (a : Opnd) (s : State) : Out := vDequantMx p d hi a .e4m3 s

/-- VSIG.RD: every lane's tag as an integer (R151). -/
def execVsigRd (p : Pred) (d : Dst) (a : Opnd) (s : State) : Out :=
  runSlot p s (fun cx => (cx.vec a).bind (fun x =>
    .val (s.vecPlain cx d (.vec (intVec (fun i => BitVec.ofNat 32 (x.tag32 i)))) 0)))

/-- VSIG.MIN: tags lowered, lane bits unchanged (R151). -/
def execVsigMin (p : Pred) (d : Dst) (a b : Opnd) (s : State) : Out :=
  runSlot p s (fun cx => (cx.vec a).bind (fun x => (cx.int b).bind (fun y =>
    .val (s.vecPlain cx d (.vec (VReg.mk16 (fun i => x.lane i)
      (fun i => if (x.f32 i).1.isFin then min (x.tag32 i) (min 24 y.toInt.toNat) else 0))) 0))))

/-- VSIG.LT: lanes whose tag is below int64(b) (R151). -/
def execVsigLt (p : Pred) (d : Dst) (a b : Opnd) (s : State) : Out :=
  runSlot p s (fun cx => (cx.vec a).bind (fun x => (cx.int b).bind (fun y =>
    .val (s.vecPlain cx d (.mask (maskOf (fun i => decide ((x.tag32 i : Int) < y.toInt)))) 0))))

end Sys2Proof.Machine
end

