-- ==== Sys2Proof/Machine/RillRun.lean ====
section
/-! DEFINITION. The movement of rill items (R289 to R294, R368, R432): RILL_ITEM_SEND, RILL_ITEM_ARRIVE, CONVERTER_TAKE, CREDIT_ARRIVE and
JOIN_MERGE. An event whose condition does not hold leaves the state as it is. -/

namespace Sys2Proof.Machine

open Sys2Proof

/-! ## Conversions (R289) -/

/-- Field i of w bits of an element. -/
def laneAt (ws : BitVec 512) (w i : Nat) : Nat := (ws.toNat / 2 ^ (w * i)) % 2 ^ w

/-- The words that hold a list of fields of w bits. -/
def wordsOfLanes (w : Nat) (xs : List Nat) : BitVec 512 := BitVec.ofNat 512 (packElems w xs)

/-- FP32 to BF16 of one value. -/
def toBf16 (x : Nat) : Nat := (fpConv bf16 .rne (fp32.dec x)).bits.toNat

/-- BF16 to FP32 of one value. -/
def ofBf16 (x : Nat) : Nat := (fpConv fp32 .rne (bf16.dec x)).bits.toNat

/-- An FP8-BS element widened: each value is rne32(e × s). -/
def ofFp8 (ws : BitVec 512) : BitVec 512 :=
  let s := fp32.dec (ws.toNat / 2 ^ 128 % 2 ^ 32)
  wordsOfLanes 32 ((List.range 16).map (fun i => (fpMul fp32 .rne (e4m3.dec (laneAt ws 8 i)) 0 s 0).bits.toNat))

/-- An element of one format as an element of another, where one upstream element makes one downstream element. -/
def convOne (from_ to_ : Nat) (vec : Bool) (ws : BitVec 512) : BitVec 512 :=
  let n := if vec then 16 else 1
  if from_ = 0 ∧ to_ = 1 then wordsOfLanes 16 ((List.range n).map (fun i => toBf16 (laneAt ws 32 i)))
  else if from_ = 1 ∧ to_ = 0 then wordsOfLanes 32 ((List.range n).map (fun i => ofBf16 (laneAt ws 16 i)))
  else if from_ = 2 ∧ to_ = 0 then ofFp8 ws
  else ws

/-- The data words of a list of items. -/
def itemWs (xs : List Item) : List (BitVec 512) :=
  xs.filterMap (fun x => match x with
    | .data ws _ => some ws
    | _ => none)

/-- The FP32 values of a list of vector elements, in order. -/
def groupVals (xs : List Item) : List FVal :=
  (itemWs xs).flatMap (fun ws => (List.range 16).map (fun i => fp32.dec (laneAt ws 32 i)))

/-- Chunks of n elements of a list. -/
def chunksOf {α : Type} (n : Nat) (xs : List α) : Nat → List (List α)
  | 0 => []
  | fuel + 1 => if xs.isEmpty then [] else xs.take n :: chunksOf n (xs.drop n) fuel

/-- The outputs of an open group or pair when it is complete or closed early (R32, R289). -/
def closeGroup (to_ : Nat) (xs : List Item) : List Item :=
  if xs.isEmpty then []
  else if to_ = 2 then
    let g := bsGroup (groupVals xs)
    (chunksOf 16 g.2 8).map (fun es => .data (BitVec.ofNat 512 (packElems 8 es + g.1.toNat * 2 ^ 128)) 0)
  else
    let vs := groupVals xs
    let q := quantBlock .e2m1 (vs ++ List.replicate (32 - vs.length) (.fin false 0 0))
    [.data (BitVec.ofNat 512 (packElems 4 q.1 + q.2.1 * 2 ^ 128)) 0]

/-- The two vectors of an MXFP4 block (R150, R289). -/
def openBlock (ws : BitVec 512) : List Item :=
  let e := ws.toNat / 2 ^ 128 % 256
  let half := fun (h : Nat) => wordsOfLanes 32 ((List.range 16).map (fun i => (dequantMx .e2m1 e (laneAt ws 4 (16 * h + i))).bits.toNat))
  [.data (half 0) 0, .data (half 1) 0]

/-- What a converter holds after it takes an item: its waiting outputs and its open group (R432). -/
def convTake (from_ to_ : Nat) (group : List Item) (x : Item) : List Item × List Item :=
  match x with
  | .data ws _ =>
    if from_ = 3 then (openBlock ws, [])
    else
      let g := group ++ [x]
      if g.length = (if to_ = 2 then 8 else 2) then (closeGroup to_ g, []) else ([], g)
  | tok => (closeGroup to_ group ++ [tok], [])

/-! ## Routes (R368) -/

/-- The plot one hop away: 1 north, 2 east, 3 south, 4 west; none beyond the wafer. -/
def hop (p out : Nat) : Option Nat :=
  match out with
  | 1 => if prow p = 0 then none else some (physOf (pcol p) (prow p - 1))
  | 2 => if pcol p = 191 then none else some (physOf (pcol p + 1) (prow p))
  | 3 => if prow p = 83 then none else some (physOf (pcol p) (prow p + 1))
  | 4 => if pcol p = 0 then none else some (physOf (pcol p - 1) (prow p))
  | _ => none

/-- A route entry of a plot's router. -/
def Plot.route (x : Plot) (i : Nat) : BitVec 12 := x.routes.get i 0

/-- Whether an item may leave its router: no earlier item of its rill stands there, and, while a rebind has some of them on a detour, it overtakes
none at the downstream entry (R290). -/
def Rill.mayHop (r : Rill) (k : Nat) (last : Bool) : Bool :=
  match r.transit[k]? with
  | some t => !(r.transit.take k).any (fun x => x.plot == t.plot) && (k == 0 || !r.detoured || !last)
  | none => false

/-- An item that a router delivers to its rill entry e waits there for the converter or the buffer (R290); at an entry that takes no items it is
discarded (R287). -/
def State.deliverItem (s : State) (p e : Nat) (jin : Bool) (x : Item) : State :=
  s.onRill p e (fun d =>
    if d.role == 3 && jin then { d with flight1 := d.flight1 ++ [x], moved := s.instant }
    else if d.role == 2 || d.role == 3 then { d with flight := d.flight ++ [x], moved := s.instant }
    else d)

/-- Item k in transit from an entry passes its router by the route entry in force there (R368, R370): it goes on to the next router, or is delivered
to entry PPORT of this one. An item is held where the entry is invalid or leads beyond the wafer, and where its rill is broken (R296). -/
def State.routerHop (s : State) (p e k : Nat) : State :=
  let r := s.rill p e
  match r.transit[k]? with
  | none => s
  | some t =>
    let w := (s.plot t.plot).route t.idx
    let out := (w.extractLsb' 0 3).toNat
    if r.broken || !r.mayHop k (out == 0) || !w.getLsbD 11 then s
    else if out = 0 then
      (s.setRill p e { r with transit := r.transit.eraseIdx k, moved := s.instant, detoured := r.detoured && r.transit.length != 1 }).deliverItem t.plot r.pport r.jin t.item
    else match hop t.plot out with
    | none => s
    | some q => s.setRill p e { r with transit := r.transit.set k { t with plot := q, idx := (w.extractLsb' 3 8).toNat }, moved := s.instant }

/-! ## Sending -/

/-- An item put on its way from an entry: into the router there, with the entry's ROUTE (R368). -/
def State.launchItem (s : State) (p e : Nat) (x : Item) : State :=
  s.onRill p e (fun r => { r with transit := r.transit ++ [⟨x, p, r.route⟩] })

/-- The canonical NaN element, or 0, that a poisoned reservoir slot delivers (R293). -/
def poisonElem (r : Rill) : BitVec 512 :=
  match r.fmt with
  | 0 => wordsOfLanes 32 (List.replicate (if r.vec then 16 else 1) 0x7FC00000)
  | 1 => wordsOfLanes 16 (List.replicate (if r.vec then 16 else 1) 0x7FC0)
  | 2 => BitVec.ofNat 512 (packElems 8 (List.replicate 16 0x7F) + 0x7FC00000 * 2 ^ 128)
  | 3 => BitVec.ofNat 512 (0xFF * 2 ^ 128)
  | _ => 0

/-- Items move from the reservoir into the send buffer while there is room (R293). What a slot holds is what its bank memory holds now; a poisoned
slot delivers the canonical NaN, or 0, whatever it held, and leaves its record (log 37). -/
def State.unspill (s : State) (p e : Nat) : Nat → State
  | 0 => s
  | fuel + 1 =>
    let r := s.rill p e
    match r.res with
    | [] => s
    | x :: rest =>
      if !r.room r.buf x then s
      else
        let a := r.slotAddr p r.ringHead
        let bad := (s.sideAt a).poison || (s.sideAt (a + 32)).poison
        let y := if bad then Item.data (poisonElem r) 0 else x.back (s.rdNat a (8 * r.itemWords x))
        let s1 := if bad then s.postErr 0x04 p 0 r.launch 0 { cause := .engine, phys := BitVec.ofNat 64 a } false 0 else s
        let s2 := s1.setRill p e { r with res := rest, buf := r.buf ++ [y], ringHead := (r.ringHead + 1) % (64 * r.rsize) }.evalBp
        State.unspill s2 p e fuel

/-- An item leaves a send end: under a credit, or, of a LATEST rill, without one (R290, R292). Blocks that wait for room there wake (R298). -/
def State.sendItem (s : State) (p e : Nat) : State :=
  let r := s.rill p e
  if r.role != 1 || r.broken || r.down.isNone then s
  else match r.buf with
  | [] => s
  | x :: rest =>
    if !r.latest && r.credits == 0 then s
    else
      let s1 := s.setRill p e { r with buf := rest, credits := if r.latest then r.credits else r.credits - 1, moved := s.instant, refused := false }
      ((s1.launchItem p e x).unspill p e 8).roomWake p e

/-- RILL_ITEM_SEND (R290). -/
def execRillItemSend (p e : Nat) (s : State) : Out := .next (s.sendItem p e)

/-! ## Arriving -/

/-- The wake binding of a receive end, and the tasks parked on it (R66, R302). -/
def State.arrived (s : State) (p e : Nat) : State :=
  let r := s.rill p e
  if r.role != 2 then s
  else
    let s1 := if r.wen then s.setWake p r.wtask (BitVec.twoPow 16 r.wbit) else s
    s1.wakePlot p (fun w => w == .rill e false)

/-- An item as the entry's format has it on arrival (R289). -/
def State.convItem (s : State) (p e : Nat) (jin : Bool) (x : Item) : Item :=
  match x, s.srcFmt p e jin with
  | .data ws q, some n => .data (convOne n (s.rill p e).fmt (s.rill p e).vec ws) q
  | y, _ => y

/-- An item entering the buffer of an entry's input. -/
def State.enterBuf (s : State) (p e : Nat) (jin : Bool) (x : Item) : State :=
  let s1 := s.onRill p e (fun r =>
    if jin then { r with buf1 := r.buf1 ++ [x], moved := s.instant } else { r with buf := r.buf ++ [x], moved := s.instant })
  (s1.absorb p e).arrived p e

/-- The buffer, flight, converter outputs and open group of an input. -/
def Rill.inBuf (r : Rill) (jin : Bool) : List Item := if jin then r.buf1 else r.buf
/-- Items in flight to an input. -/
def Rill.inFlight (r : Rill) (jin : Bool) : List Item := if jin then r.flight1 else r.flight
/-- Waiting outputs of an input's converter. -/
def Rill.inConv (r : Rill) (jin : Bool) : List Item := if jin then r.conv1 else r.conv
/-- The open group of an input's converter. -/
def Rill.inGroup (r : Rill) (jin : Bool) : List Item := if jin then r.group1 else r.group

/-- The items in flight to an input replaced. -/
def Rill.setFlight (r : Rill) (jin : Bool) (xs : List Item) : Rill := if jin then { r with flight1 := xs } else { r with flight := xs }
/-- The waiting outputs of an input's converter replaced. -/
def Rill.setConv (r : Rill) (jin : Bool) (xs : List Item) : Rill := if jin then { r with conv1 := xs } else { r with conv := xs }
/-- The open group of an input's converter replaced. -/
def Rill.setGroup (r : Rill) (jin : Bool) (xs : List Item) : Rill := if jin then { r with group1 := xs } else { r with group := xs }

/-- Whether an input's rill moves: neither its upstream end nor this receive end is broken (R296). Of a join, `broken` speaks of the rill it feeds, and
the rills that feed it are broken at their own upstream ends. -/
def State.flows (s : State) (p e : Nat) (jin : Bool) : Bool :=
  ((s.rill p e).role == 3 || !(s.rill p e).broken) && (match s.upOf p e jin with
    | some (u, f) => !(s.rill u f).broken
    | none => true)

/-- The item that may enter the buffer of an input next: its converter's next output, or the item delivered first, converted (R289, R432). -/
def State.nextIn (s : State) (p e : Nat) (jin : Bool) : Option Item :=
  if s.hasConv p e jin then ((s.rill p e).inConv jin).head? else ((s.rill p e).inFlight jin).head?.map (s.convItem p e jin)

/-- An entry without that item. -/
def State.tookIn (s : State) (p e : Nat) (jin : Bool) : Rill :=
  let r := s.rill p e
  if s.hasConv p e jin then r.setConv jin ((r.inConv jin).drop 1) else r.setFlight jin ((r.inFlight jin).drop 1)

/-- Whether the next item of an input may enter its buffer now. -/
def State.canArrive (s : State) (p e : Nat) (jin : Bool) : Bool :=
  let r := s.rill p e
  (r.role == 2 || r.role == 3) && s.flows p e jin && (match s.nextIn p e jin with
    | some x => r.latest || r.room (r.inBuf jin) x
    | none => false)

/-- RILL_ITEM_ARRIVE (R290, R292, R432): the item delivered first, or the converter's next output, enters the buffer if there is room; an
element of a LATEST rill replaces the one held. -/
def execRillItemArrive (p e : Nat) (jin : Bool) (s : State) : Out :=
  .next (
    if !s.canArrive p e jin then s
    else match s.nextIn p e jin with
    | none => s
    | some x =>
      let r := s.tookIn p e jin
      if !r.latest then (s.setRill p e r).enterBuf p e jin x
      else match x with
      | .data _ q => (s.setRill p e { r with buf := [x], seq := q, unread := true, valid := true, moved := s.instant }).arrived p e
      | _ => s.setRill p e r)

/-- CONVERTER_TAKE (R432): the converter takes the next item in flight while none of its outputs waits; the credit of a data element falls
due. -/
def execConverterTake (p e : Nat) (jin : Bool) (s : State) : Out :=
  .next (
    let r := s.rill p e
    if !s.hasConv p e jin || !(r.inConv jin).isEmpty || !s.flows p e jin then s
    else match r.inFlight jin, s.srcFmt p e jin with
    | x :: rest, some n =>
      let c := convTake n r.fmt (r.inGroup jin) x
      let owes := x.isData && r.cmode && r.role == 2
      let s1 := s.setRill p e { (((r.setFlight jin rest).setConv jin c.1).setGroup jin c.2) with
        moved := s.instant, owed := if owes then r.owed + 1 else r.owed }
      if x.isData && !owes then s1.giveBack p e jin 1 else s1
    | _, _ => s)

/-- CREDIT_ARRIVE (R290): a credit on its way reaches its send end or join. -/
def execCreditArrive (p e : Nat) (s : State) : Out :=
  .next (
    let r := s.rill p e
    if r.back = 0 then s else s.setRill p e { r with back := r.back - 1, credits := r.credits + 1 })

/-! ## Joins (R294) -/

/-- A join takes the head of an input and passes it on under a credit; the input's credit returns unless its converter returned it. -/
def State.joinTake (s : State) (p e : Nat) (jin : Bool) : State :=
  let r := s.rill p e
  match r.inBuf jin with
  | [] => s
  | x :: rest =>
    let r1 : Rill := if jin then { r with buf1 := rest } else { r with buf := rest }
    let s1 := (s.setRill p e { r1 with credits := r.credits - 1, lastIn := jin, moved := s.instant }).launchItem p e x
    if x.isData && s.hasConv p e jin then s1 else s1.giveBack p e jin 1

/-- The items a join may take from an input: none from a rill that is broken (R296). -/
def State.joinBuf (s : State) (p e : Nat) (jin : Bool) : List Item := if s.flows p e jin then (s.rill p e).inBuf jin else []

/-- The token a join emits for the two tokens at its heads. -/
def joinToken (a b : Item) : Item :=
  match a, b with
  | .eos, .eos => .eos
  | .mark v, _ => .mark v
  | _, .mark v => .mark v
  | x, _ => x

/-- A join merges (R294): data from the input not taken from last, when both have some; else from the one that has; two tokens become one. -/
def State.joinMerge (s : State) (p e : Nat) : State :=
  let r := s.rill p e
  let b0 := s.joinBuf p e false
  let b1 := s.joinBuf p e true
  if r.role != 3 || r.broken || r.credits == 0 || r.down.isNone then s
  else match headData b0, headData b1 with
  | true, true => s.joinTake p e (!r.lastIn)
  | true, false => s.joinTake p e false
  | false, true => s.joinTake p e true
  | false, false =>
    match b0, b1 with
    | x :: t0, y :: t1 =>
      let s1 := (s.setRill p e { r with buf := t0, buf1 := t1, credits := r.credits - 1, moved := s.instant }).launchItem p e (joinToken x y)
      (s1.giveBack p e false 1).giveBack p e true 1
    | _, _ => s

/-- JOIN_MERGE (R294). -/
def execJoinMerge (p e : Nat) (s : State) : Out := .next (s.joinMerge p e)

end Sys2Proof.Machine
end

