-- ==== Sys2Proof/Machine/RillInstall.lean ====
section
/-! DEFINITION. Installing and removing rill entries (R285 to R287, R296, R308, R369), and the extents of the object table as ranges of
homes (R360). -/

namespace Sys2Proof.Machine

open Sys2Proof

/-! ## Extents as ranges of homes (R360) -/

/-- The node entries of a radix node that exist and are resident: index and address (R358). -/
def State.nodeKids (s : State) (node : Nat) : List Nat :=
  (List.range 256).filterMap (fun i =>
    let n := s.rdW (node + 8 * i)
    if n.getLsbD 63 && n.getLsbD 62 then some (n.extractLsb' 0 56).toNat else none)

/-- Every descriptor of the object table whose nodes are resident. -/
def State.allDescs (s : State) : List Nat :=
  ((s.nodeKids s.mod.otroot.toNat).flatMap s.nodeKids).flatMap s.nodeKids

/-- The ranges of homes of an extent: address and length, one on each plot it spans. -/
def extRanges (x0 x1 : BitVec 64) : List (Nat × Nat) :=
  let str := (x0.extractLsb' 58 3).toNat
  let b := x1.toNat
  let len := extLen x0
  if str = 0 then [(b, len)]
  else
    let units := (len + 65535) / 65536
    (List.range (2 ^ str)).filterMap (fun i =>
      let n := (units + 2 ^ str - 1 - i) / 2 ^ str
      if n = 0 then none
      else
        let last := i + (n - 1) * 2 ^ str
        some (mkAddr (spaceOf b) (physOf (pcol (plotOfAddr b) + i) (prow (plotOfAddr b))) (offOfAddr b),
          (n - 1) * 65536 + min 65536 (len - last * 65536)))

/-- The valid, resident extents of a descriptor in use. -/
def State.descExts (s : State) (desc : Nat) : List (BitVec 64 × BitVec 64) :=
  let d1 := s.rdW (desc + 8)
  if !d1.getLsbD 0 then []
  else (List.range (d1.extractLsb' 16 16).toNat).filterMap (fun i =>
    let a := s.extAddr desc d1 i
    if (s.rdW a).getLsbD 63 && (s.rdW a).getLsbD 62 then some (s.rdW a, s.rdW (a + 8)) else none)

/-- Whether two ranges overlap. -/
def overlaps (a n b m : Nat) : Bool := decide (a < b + m) && decide (b < a + n)

/-- Whether some object's extent lies in a range of homes. -/
def State.extentIn (s : State) (a n : Nat) : Bool :=
  s.allDescs.any (fun d => (s.descExts d).any (fun x => (extRanges x.1 x.2).any (fun r => overlaps r.1 r.2 a n)))

/-! ## Declared entries (R286, R287) -/

/-- An entry to install: plot, index, its 224 bits, and its downstream entry. -/
structure RDecl where
  p : Nat
  e : Nat
  ent : BitVec 224
  down : Option (Nat × Nat)
  deriving DecidableEq, Repr

/-- A declared entry as a rill entry, for its fields. -/
def RDecl.rill (d : RDecl) : Rill := { ent := d.ent }

/-- Whether the elements of one entry may pass to another (R287, R289). -/
def convOk (u d : Rill) : Bool :=
  u.vec == d.vec && (u.fmt == d.fmt || (u.fmt == 0 && d.fmt == 1) || (u.fmt == 1 && d.fmt == 0) ||
    (u.vec && ((u.fmt == 0 && d.fmt == 2) || (u.fmt == 2 && d.fmt == 0) || (u.fmt == 0 && d.fmt == 3) || (u.fmt == 3 && d.fmt == 0))))

/-- The highest CRED of a rill (R287, R288, R432). -/
def credCap (u d : Rill) : Nat :=
  if converts u.fmt d.fmt d.vec then (if d.fmt = 2 then 8 else if d.fmt = 3 then 2 else 1) else 8 / d.elemWords

/-- The downstream entry of a declaration: another declaration, or an entry that already stands. -/
def downRill (ds : List RDecl) (ext : Nat → Nat → Option Rill) (d : RDecl) : Option Rill :=
  match d.down with
  | none => none
  | some (q, f) =>
    match ds.find? (fun x => x.p == q && x.e == f) with
    | some x => some x.rill
    | none => ext q f

/-- The rules of R287 that do not depend on where the entries stand. -/
def declOk (ds : List RDecl) (ext : Nat → Nat → Option Rill) (d : RDecl) : Bool :=
  let r := d.rill
  let dn := downRill ds ext d
  decide (r.role ≤ 3) && decide (r.fmt ≤ 5) &&
  (!r.latest || (!r.vec && (r.fmt == 0 || r.fmt == 4 || r.fmt == 5) && r.role != 3 && (match dn with
    | some x => x.role != 3
    | none => true))) &&
  (!(r.fmt == 2 || r.fmt == 3) || r.vec) && !(r.fmt == 5 && r.vec) &&
  (!r.spill || (r.role == 1 && r.rsize != 0 && decide ((r.rbase + r.rsize) * 4096 ≤ 0x8000000) && decide (r.high0 ≤ 64 * r.rsize) &&
    decide (r.low0 < r.high0))) &&
  (if r.role == 1 || r.role == 3 then
    (match dn with
    | some x => (x.role == 2 || x.role == 3) && !(r.role == 3 && x.latest) && convOk r x && decide (1 ≤ r.cred0) && decide (r.cred0 ≤ credCap r x)
    | none => false)
   else true) &&
  (if r.role == 3 then
    (let ups := ds.filter (fun x => x.down == some (d.p, d.e))
     ups.length == 2 && ups.any (fun x => x.rill.jin) && ups.any (fun x => !x.rill.jin))
   else if r.role == 2 then decide ((ds.filter (fun x => x.down == some (d.p, d.e))).length ≤ 1) else true) &&
  (ds.filter (fun x => x.p == d.p && x.e == d.e)).length == 1

/-- The window of an entry's reservoir, as an address and a length. -/
def Rill.window (r : Rill) (p : Nat) : Nat × Nat := (mkAddr 1 p (r.rbase * 4096), r.rsize * 4096)

/-- The rules of R287 that depend on the place: the entry is free, its downstream entry takes no other rill, and its reservoir's window
lies in no extent and in no other reservoir. -/
def State.declPlaced (s : State) (ds : List RDecl) (d : RDecl) : Bool :=
  let r := d.rill
  (s.rill d.p d.e).role == 0 &&
  (match d.down with
  | some (q, f) => (s.rill q f).role == 0 || (s.rill q f).ups.isEmpty
  | none => true) &&
  (!r.spill ||
    (let w := r.window d.p
     !s.extentIn w.1 w.2 &&
     !(s.plot d.p).rills.any (fun x => x.2.role == 1 && x.2.spill && overlaps (x.2.window d.p).1 (x.2.window d.p).2 w.1 w.2) &&
     !ds.any (fun x => x.p == d.p && x.e != d.e && x.rill.spill && overlaps (x.rill.window d.p).1 (x.rill.window d.p).2 w.1 w.2)))

/-! ## Paths (R369) -/

/-- A link out of a router that cannot be used: dead at either end, beyond the wafer, or into the router of a hole (R369, R371). -/
def State.linkBad (s : State) (p out : Nat) : Bool :=
  match hop p out with
  | none => true
  | some q => (s.plot p).deadl.getLsbD (out - 1) || (s.plot q).deadl.getLsbD ((out + 1) % 4) || (s.plot q).stat == .hole

/-- The hops along the columns, and along the rows, from one plot to another. -/
def hopsRow (p q : Nat) : List Nat := if pcol p ≤ pcol q then List.replicate (pcol q - pcol p) 2 else List.replicate (pcol p - pcol q) 4
/-- The hops along the pcol. -/
def hopsCol (p q : Nat) : List Nat := if prow p ≤ prow q then List.replicate (prow q - prow p) 3 else List.replicate (prow p - prow q) 1

/-- The routers a list of hops enters from a plot, with the way out of each; none if a link cannot be used. -/
def State.follow (s : State) (p : Nat) : List Nat → Option (List (Nat × Nat))
  | [] => some [(p, 0)]
  | o :: t => if s.linkBad p o then none else
    match hop p o with
    | none => none
    | some q => (State.follow s q t).map (fun r => (p, o) :: r)

/-- The installer's path: along the prow first, else column first (R369). -/
def State.pathTo (s : State) (p q : Nat) : Option (List (Nat × Nat)) :=
  match s.follow p (hopsRow p q ++ hopsCol p q) with
  | some r => some r
  | none => s.follow p (hopsCol p q ++ hopsRow p q)

/-- The lowest free index of a router among 128 from `lo` on: the installer's from 0, system software's and the steward's from 128. -/
def Plot.freeIndex (x : Plot) (lo : Nat) : Option Nat := ((List.range 128).map (lo + ·)).find? (fun i => !(x.route i).getLsbD 11)

/-- Route entries for a path, last router first: the index the first router gives, and the entries taken. -/
def State.takePath (s : State) (lo : Nat) : List (Nat × Nat) → Option (State × Nat × List (Nat × Nat))
  | [] => some (s, 0, [])
  | (p, o) :: t =>
    match State.takePath s lo t with
    | none => none
    | some (s1, next, used) =>
      match (s1.plot p).freeIndex lo with
      | none => none
      | some i =>
        let w := BitVec.ofNat 12 (2048 + (if o = 0 then 0 else next) * 8 + o)
        some (s1.onPlot p (fun x => { x with routes := x.routes.put i w }), i, (p, i) :: used)

/-- WEN of an installed receive end. -/
def Rill.wen0 (r : Rill) : Bool := r.role == 2 && r.ent.getLsbD 126
/-- WTASK. -/
def Rill.wtask0 (r : Rill) : Nat := (r.ent.extractLsb' 127 4).toNat
/-- WBIT. -/
def Rill.wbit0 (r : Rill) : Nat := (r.ent.extractLsb' 131 4).toNat

/-- One entry installed with its path; none where R369 refuses it. -/
def State.installOne (s : State) (d : RDecl) (launch : BitVec 32) (field : Option (BitVec 32)) : Option State :=
  let r := d.rill
  let put := fun (s : State) (ent : BitVec 224) (path : List (Nat × Nat)) =>
    let x := s.rill d.p d.e
    let y : Rill := { ent := ent, down := d.down, credits := r.cred0, high := r.high0, low := r.low0, wen := r.wen0, wtask := r.wtask0,
                      wbit := r.wbit0, field := field, launch := launch, path := path, ups := x.ups, moved := s.instant }
    let s1 := s.setRill d.p d.e y
    match d.down with
    | some (q, f) => s1.onRill q f (fun z => { z with ups := z.ups ++ [(d.p, d.e)] })
    | none => s1
  if r.role == 0 then some s
  else match d.down with
  | none => some (put s d.ent [])
  | some (q, _) =>
    if 128 ≤ r.route then (if ((s.plot d.p).route r.route).getLsbD 11 then some (put s d.ent []) else none)
    else match s.pathTo d.p q with
    | none => none
    | some hops =>
      match s.takePath 0 hops with
      | none => none
      | some (s1, i, used) =>
        some (put s1 ((d.ent &&& ~~~((0xFF : BitVec 224) <<< 31)) ||| (BitVec.ofNat 224 i <<< 31)) used)

/-- All entries of a set installed together, or none of them (R287, R369); a declaration of role 0 too names an entry that no rill holds (R263). -/
def State.installAll (s : State) (ds : List RDecl) (launch : BitVec 32) (field : Option (BitVec 32)) : Option State :=
  if !ds.all (s.declPlaced ds) then none
  else ds.foldl (fun acc d => match acc with
    | some s => s.installOne d launch field
    | none => none) (some s)

/-! ## Removal and breaking (R285, R287, R296, R369) -/

/-- The indices of a removed entry's path freed. -/
def State.freePath (s : State) (path : List (Nat × Nat)) : State :=
  path.foldl (fun s x => s.onPlot x.1 (fun y => { y with routes := y.routes.drop x.2 })) s

/-- The rill entries that a test picks, with their places. -/
def State.rillsOf (s : State) (f : Nat → Rill → Bool) : List (Nat × Nat × Rill) :=
  s.plots.flatMap (fun x => (x.2.rills.filter (fun r => r.2.role != 0 && f x.1 r.2)).map (fun r => (x.1, r.1, r.2)))

/-- A rill entry broken (R296): tasks that wait on it wake to find it. -/
def State.breakRill (s : State) (p e : Nat) : State :=
  (s.onRill p e (fun r => { r with broken := true })).wakePlot p (fun w => match w with
    | .rill q _ => q == e
    | _ => false)

/-- Whether an entry lies downstream of one that is not removed, through removed joins too. -/
def State.fedFrom (s : State) (isGone : Nat × Nat → Bool) : Nat → Nat × Nat → Bool
  | 0, _ => false
  | n + 1, x => (s.rill x.1 x.2).ups.any (fun u => !isGone u || State.fedFrom s isGone n u)

/-- Entries removed: their indices are free, and every rill through a removed entry that lies downstream of one that stays is broken (R287); a
receive end whose upstream end alone has gone stays as it is. The format of what has already arrived at an input is kept (R289). -/
def State.removeRills (s : State) (f : Nat → Rill → Bool) : State :=
  let s0 := s
  let gone := s.rillsOf f
  let isGone := fun (x : Nat × Nat) => gone.any (fun g => g.1 == x.1 && g.2.1 == x.2)
  let s1 := gone.foldl (fun s g => (s.freePath g.2.2.path).onPlot g.1 (fun x => { x with rills := x.rills.drop g.2.1 })) s
  let left := s1.rillsOf (fun _ _ => true)
  left.foldl (fun s x =>
    let r := x.2.2
    let cut := match r.down with
      | some d => isGone d
      | none => false
    let joinGone := r.ups.any (fun u => isGone u && s0.fedFrom isGone 128 u)
    let s1 := s.onRill x.1 x.2.1 (fun r =>
      if r.ups.any isGone then { r with ups := r.ups.filter (fun u => !isGone u), src := s0.srcFmt x.1 x.2.1 false, src1 := s0.srcFmt x.1 x.2.1 true } else r)
    if cut || joinGone then s1.breakRill x.1 x.2.1 else s1) s1

/-- Every rill with an entry on a plot broken (R296): its own entries, those that feed them, and the receive ends they feed. A join elsewhere that
feeds one goes on with its input rills. -/
def State.breakPlot (s : State) (p : Nat) : State :=
  (s.rillsOf (fun q _ => q == p)).foldl (fun s x =>
    let r := x.2.2
    let s1 := r.ups.foldl (fun s u => s.breakRill u.1 u.2) (s.breakRill p x.2.1)
    match r.down with
    | some (q, f) => if (s1.rill q f).role == 2 then s1.breakRill q f else s1
    | none => s1) s

/-! ## The rill table of a launch (R308) -/

/-- The bits of a rill entry from its fields (R286), PEER and ROUTE apart. -/
def mkEnt (role : Nat) (latest : Bool) (fmt : Nat) (vec cmode : Bool) (cred : Nat) (jin spill : Bool) (rbase rsize high low route pport : Nat)
    (wen : Bool) (wtask wbit : Nat) (peer : BitVec 32) : BitVec 224 :=
  BitVec.ofNat 224 (pport + peer.toNat / 128 * 2^6 + route * 2^31 + role * 2^39 + (if latest then 2^42 else 0) + fmt * 2^43 +
    (if vec then 2^46 else 0) + (if cmode then 2^47 else 0) + cred * 2^48 + (if jin then 2^52 else 0) + (if spill then 2^53 else 0) +
    rbase * 2^54 + rsize * 2^69 + high * 2^84 + low * 2^105 + (if wen then 2^126 else 0) + wtask * 2^127 + wbit * 2^131)

/-- A rill record: its four words. -/
structure RillRec where
  w0 : BitVec 64
  w1 : BitVec 64
  w2 : BitVec 64
  w3 : BitVec 64
  deriving DecidableEq, Repr

/-- A field of a record's word. -/
def fieldN (w : BitVec 64) (lo n : Nat) : Nat := (w.extractLsb' lo n).toNat

/-- The left position of a record: row, column, port. -/
def RillRec.left (r : RillRec) : Nat × Nat × Nat := (fieldN r.w0 8 8, fieldN r.w0 16 8, fieldN r.w0 24 6)
/-- The right position of a record. -/
def RillRec.right (r : RillRec) : Nat × Nat × Nat := (fieldN r.w0 40 8, fieldN r.w0 48 8, fieldN r.w0 56 6)
/-- KIND. -/
def RillRec.kind (r : RillRec) : Nat := fieldN r.w0 0 2

/-- The zero fields, KIND and positions of a record (R308). -/
def RillRec.formOk (r : RillRec) (rows cols : Nat) : Bool :=
  r.kind != 3 && fieldN r.w0 62 2 == 0 && fieldN r.w0 36 4 == 0 && fieldN r.w0 30 2 == 0 && fieldN r.w0 2 6 == 0 && fieldN r.w1 28 36 == 0 &&
  fieldN r.w2 30 34 == 0 && fieldN r.w3 42 22 == 0 && decide (r.left.1 < rows) && decide (r.left.2.1 < cols) && decide (r.right.1 < rows) &&
  decide (r.right.2.1 < cols)

/-- The entries of a rill table: `at_` places a row and column, `nm` names it. A right position that a JOIN record declares is that join's
input; any other becomes a receive end (R308). -/
def rillDecls (rs : List RillRec) (at_ : Nat → Nat → Nat) (nm : Nat → Nat → BitVec 32) : List RDecl :=
  let isJoin := fun (x : Nat × Nat × Nat) => rs.any (fun r => r.kind == 2 && r.left == x)
  rs.flatMap (fun r =>
    let (lr, lc, lp) := r.left
    let (rr, rc, rp) := r.right
    let dfmt := fieldN r.w1 0 3
    let dvec := r.w1.getLsbD 3
    let c := fieldN r.w1 4 4
    let manual := r.w1.getLsbD 8
    let cred := if c = 0 then 8 / fmtWords dfmt dvec else c
    let l : RDecl := ⟨at_ lr lc, lp,
      mkEnt (if r.kind = 2 then 3 else 1) (r.kind == 1) (fieldN r.w0 32 3) (r.w0.getLsbD 35) manual cred (r.w1.getLsbD 9) (r.w1.getLsbD 10)
        (fieldN r.w2 0 15) (fieldN r.w2 15 15) (fieldN r.w3 0 21) (fieldN r.w3 21 21) (fieldN r.w1 20 8) rp false 0 0 (nm rr rc),
      some (at_ rr rc, rp)⟩
    let d : RDecl := ⟨at_ rr rc, rp,
      mkEnt 2 (r.kind == 1) dfmt dvec manual 0 false false 0 0 0 0 0 0 (r.w1.getLsbD 11) (fieldN r.w1 12 4) (fieldN r.w1 16 4) 0, none⟩
    if isJoin r.right then [l] else [l, d])

end Sys2Proof.Machine
end

