-- ==== Sys2Proof/Machine/FieldConf.lean ====
section
/-! DEFINITION. CFG.CONF and CFG.FREL as they perform (R235 to R237, R244, R255, R258, R260 to R275): the image and its refusals, the
configuration of every plot of the field, its release, and the FIELD fault of its master task. -/

namespace Sys2Proof.Machine

open Sys2Proof

/-! ## The image (R260 to R265) -/

/-- Eight bits of a reflected CRC-32 (R261). -/
def crcBits (c : Nat) : Nat → Nat
  | 0 => c
  | n + 1 => crcBits (if c % 2 = 1 then (c / 2) ^^^ 0xEDB88320 else c / 2) n

/-- CRC-32 of bytes (R261, R327). -/
def crc32 (bs : List Byte) : Nat := (bs.foldl (fun c b => crcBits (c ^^^ b.toNat) 8) 0xFFFFFFFF) ^^^ 0xFFFFFFFF

/-- A frame of an image (R260). -/
structure Frame where
  cls : Nat
  frow : Nat
  fcol : Nat
  unit : Nat
  pay : BitVec 224
  deriving DecidableEq, Repr

/-- The frame in 32 bytes. -/
def frameOf (bs : List Byte) : Frame :=
  let x := BitVec.ofNat 256 (leNat bs)
  ⟨(x.extractLsb' 248 8).toNat, (x.extractLsb' 240 8).toNat, (x.extractLsb' 232 8).toNat, (x.extractLsb' 224 8).toNat, x.extractLsb' 0 224⟩

/-- A field of a payload. -/
def Frame.fld (f : Frame) (lo n : Nat) : Nat := (f.pay.extractLsb' lo n).toNat

/-- An image as far as it can be read (R261): its header and whether that was read, the frames between header and end frame, the last frame, the
bytes of all, and whether every frame was read. -/
structure Image where
  hdr : Frame
  got : Bool
  body : List Frame
  last : Option Frame
  bytes : List Byte
  whole : Bool
  deriving DecidableEq, Repr

/-- MODE. -/
def Image.mode (i : Image) : Nat := i.hdr.fld 156 4
/-- PROMOTE. -/
def Image.promote (i : Image) : Nat := i.hdr.fld 152 4
/-- FROWS. -/
def Image.rows (i : Image) : Nat := i.hdr.fld 144 8
/-- FCOLS. -/
def Image.cols (i : Image) : Nat := i.hdr.fld 136 8
/-- MROW. -/
def Image.mrow (i : Image) : Nat := i.hdr.fld 128 8
/-- MCOL. -/
def Image.mcol (i : Image) : Nat := i.hdr.fld 120 8
/-- LR. -/
def Image.lr (i : Image) : Nat := i.hdr.fld 108 12
/-- K. -/
def Image.k (i : Image) : Nat := i.hdr.fld 92 16
/-- The frames after the header. -/
def Image.rest (i : Image) : List Frame := i.body ++ i.last.toList
/-- Frames of one class. -/
def Image.ofClass (i : Image) (c : Nat) : List Frame := i.body.filter (fun f => f.cls == c)

/-- FRAMES of a header frame; one frame where frame 0 is no header. DESIGN CHOICE (log 89): FRAMES 0 counts as one frame for the CRC test, which R261 makes
before the test of FRAMES itself. -/
def frameCount (h : Frame) : Nat := if h.cls = 0x7E then max 1 (h.fld 76 16) else 1

/-- The translations of the frames of an image that lie inside its pointer's view. -/
def State.frameHomes (s : State) (die : Nat) (p : Ptr) (q n : Nat) : List Tr :=
  (List.range n).filterMap (fun f => if q + 32 * f + 32 ≤ p.start + p.viewLen then some (s.homeAt die p (q + 32 * f)) else none)

/-- The homes of a list of translations, as far as they are homes. -/
def homesOf (ts : List Tr) : List Nat :=
  ts.filterMap (fun t => match t with
    | .home a => some a
    | _ => none)

/-- The image at a position of a pointer; free bytes behind a host link that is down (R156). -/
def State.readImage (s : State) (die : Nat) (p : Ptr) (q : Nat) : Image :=
  let first := (homesOf (s.frameHomes die p q 1)).head?
  let h := frameOf ((first.map (fun a => s.rdLost a 32)).getD [])
  let n := frameCount h
  let ts := s.frameHomes die p q n
  let read := fun (xs : List Tr) => (homesOf xs).map (fun a => frameOf (s.rdLost a 32))
  ⟨h, first.isSome, read ((ts.take (n - 1)).drop 1), (read ((ts.drop (n - 1)).drop (if n = 1 then 1 else 0))).head?,
    (homesOf ts).flatMap (fun a => s.rdLost a 32), (homesOf ts).length == n⟩

/-- A frame of an unknown class, or with a non-zero zero field (R260 to R269). -/
def Frame.malformed (f : Frame) (mode : Nat) : Bool :=
  match f.cls with
  | 0x7E => f.frow != 0 || f.fcol != 0 || f.unit != 0 || f.fld 64 12 != 0 || f.fld 0 32 != 0
  | 0x00 => f.frow != 0 || f.fcol != 0 || f.unit != 0 || f.pay != 0
  | 0x01 => f.fld 170 54 != 0 || f.fld 168 1 != 0
  | 0x02 => f.fld 135 89 != 0
  | 0x03 => f.fld 30 194 != 0
  | 0x04 =>
    (match f.unit with
    | 0 => f.fld 177 15 != 0
    | 1 => f.fld 120 72 != 0 || f.fld 32 24 != 0
    | 2 => f.fld 105 87 != 0 || (mode != 3 && f.fld 104 1 != 0)
    | _ => false)
  | _ => true

/-- The bytes of an image with its CRC field as zero. -/
def Image.crcBytes (i : Image) : List Byte := i.bytes.take 4 ++ [0, 0, 0, 0] ++ i.bytes.drop 8

/-! ## Shape and schedule (R236, R243, R244) -/

/-- y(g) of R243: cycles from physical row 0 to row g, three where two rows lie on different dies. -/
def State.rowDelay (s : State) (f : Field) : Nat → Nat
  | 0 => 0
  | g + 1 => State.rowDelay s f g + 1 +
      (if dieOf (s.fieldPlot f (g / 16) 0) = dieOf (s.fieldPlot f ((g + 1) / 16) 0) then 0 else if (g + 1) / 16 < f.rows then 2 else 0)

/-- The field an image would configure. -/
def fieldOfImage (i : Image) (name : BitVec 32) (handle launch : BitVec 32) (plot uid : Nat) (p : Ptr) (priv : Bool) : Field where
  handle := handle
  launch := launch
  masterPlot := plot
  masterUid := uid
  rect := nameRect name
  row := nameRow name
  col := nameCol name
  rows := i.rows
  cols := i.cols
  mrow := i.mrow
  mcol := i.mcol
  mode := i.mode
  lr := i.lr
  k := i.k
  image := i.hdr.pay.extractLsb' 160 64
  imagePtr := p
  priv := priv
  agens := []
  entries := []

/-! ## The checks (R273) -/

/-- The tiles an image defines: number, ROWS, BASE, AUTO, SEMEN, SEM (R264). -/
def Image.tiles (i : Image) : List (Nat × Tile) :=
  (i.ofClass 3).map (fun f => (f.unit, { rows := f.fld 10 10, base := f.fld 0 10, auto := f.pay.getLsbD 20, semen := f.pay.getLsbD 29,
                                         sem := f.pay.extractLsb' 21 8 }))

/-- An unfold frame's own rules, and the zero bits of either form (R265). -/
def Frame.feederBad (f : Frame) (i : Image) : Bool :=
  if f.pay.getLsbD 96 then
    f.fld 0 96 != 0 || f.fld 161 16 == 0 || f.fld 145 16 == 0 || f.fld 129 16 == 0 || f.fld 113 16 == 0 || i.mode == 1 || i.mode == 2 ||
      decide (i.k ≠ (f.fld 97 4 + 1) * (f.fld 101 4 + 1) * f.fld 113 16)
  else f.fld 97 80 != 0

/-- Refusal 0x07 for a single frame (R260, R262 to R265). -/
def Frame.misplaced (f : Frame) (i : Image) : Bool :=
  let out := decide (i.rows ≤ f.frow) || decide (i.cols ≤ f.fcol)
  match f.cls with
  | 0x7E => true
  | 0x01 => out
  | 0x02 => out || decide (63 < f.unit)
  | 0x03 => decide (f.frow + 1 ≠ i.rows) || f.fcol != 0 || decide (15 < f.unit)
  | 0x04 => out || (match f.unit with
    | 0 => f.fcol != 0 || f.feederBad i
    | 1 => decide (f.frow + 1 ≠ i.rows)
    | 2 => f.frow != 0
    | _ => true)
  | _ => false

/-- Whether an image has the generator frame of a plot. -/
def Image.hasGen (i : Image) (r c u : Nat) : Bool := (i.ofClass 4).any (fun f => f.frow == r && f.fcol == c && f.unit == u)

/-- A frame repeated, or, of an image wholly read, a required generator frame missing (R260, R265). -/
def Image.framesBad (i : Image) : Bool :=
  i.body.any (fun f => decide (1 < (i.body.filter (fun g => g.cls == f.cls && g.frow == f.frow && g.fcol == f.fcol && g.unit == f.unit)).length)) ||
  (i.whole && (!(List.range i.rows).all (fun r => i.hasGen r 0 0) || !(List.range i.cols).all (fun c => i.hasGen 0 c 2) ||
    (i.tiles.any (fun t => t.2.auto) && !(List.range i.cols).all (fun c => i.hasGen (i.rows - 1) c 1))))

/-- The rill entries an image's switch frames name (R263, R287). -/
def State.imageRills (s : State) (i : Image) (f : Field) : List RDecl :=
  (i.ofClass 2).map (fun x =>
    let r : Rill := { ent := x.pay }
    ⟨s.fieldPlot f x.frow x.fcol, x.unit, x.pay,
      if r.role = 1 ∨ r.role = 3 then (s.resolve r.peer).map (fun q => (q, r.pport)) else none⟩)

/-- A downstream entry that another live field of the same launch holds as a receive end or join (R287). -/
def State.heldEntry (s : State) (launch : BitVec 32) (q e : Nat) : Option Rill :=
  let r := s.rill q e
  if (r.role == 2 || r.role == 3) && r.launch == launch && r.field.isSome then some r else none

/-- The columns of a plot at field column c, as field-wide logical columns with their local number (R268, R269). -/
def State.localCols (s : State) (f : Field) (c : Nat) : List (Nat × Nat) :=
  let hs := s.logCols f
  (List.range hs.length).filterMap (fun j => match hs[j]? with
    | some h => if h / 16 = c then some (j, h % 16) else none
    | none => none)

/-- The bytes past its cursor that a drain writer's pointer must cover (R269, R270). -/
def State.drainSpan (s : State) (i : Image) (f : Field) (g : Frame) : Nat :=
  match (s.localCols f g.fcol).getLast? with
  | none => 0
  | some (j, _) => (i.tiles.filter (fun t => t.2.auto && t.2.rows != 0)).foldl (fun n t =>
      max n (g.fld 56 40 + t.1 * g.fld 96 24 + (t.2.rows - 1) * g.fld 0 32 + 4 * j + 4)) 0

/-- The 4 KiB pages from a pointer's cursor to its view's end. -/
def Ptr.pagesAhead (p : Ptr) : List Nat :=
  let a := (p.start + p.cur.toNat) / 4096
  let z := (p.start + p.viewLen + 4095) / 4096
  if p.viewLen ≤ p.cur.toNat then [] else (List.range (z - a)).map (fun i => (a + i) * 4096)

/-- The window of a pointer: every page from its cursor to its view's end with its home; none if one has none (R270). -/
def State.windowOf (s : State) (die : Nat) (p : Ptr) : Option (List (Nat × Nat × Nat)) :=
  p.pagesAhead.foldr (fun q acc => match acc, s.homeAt die p q with
    | some l, .home h => some ((q, h, 4096) :: l)
    | _, _ => none) (some [])

/-- What a generator frame's pointer is found to be. -/
inductive GenPtr where
  | none
  | ok (p : Ptr)
  | bad (code : Nat)
  | unread
  | wait
  deriving DecidableEq, Repr

/-- The window pointer of a generator frame (R265, R269, R270), read as CLD reads it. -/
def State.genPtr (s : State) (die : Nat) (a : Ptr) (q : Nat) (i : Image) (f : Field) (g : Frame) : GenPtr :=
  let off := g.fld 192 32
  if off = 0 then (if g.unit = 1 then .bad 0x09 else .none)
  else if off % 32 ≠ 0 ∨ a.start + a.viewLen < q + off + 32 then .bad 0x09
  else match s.homeAt die a (q + off) with
  | .home h =>
    if !isHost h && (s.sideAt h).poison then .bad 0x0E
    else
      let p := ptrOfBytes (s.rdLost h 32) ((s.sideAt h).tag && !isHost h)
      let need := if g.unit = 1 then rW ||| rF else rR
      if !p.usable || need &&& ~~~p.rights != 0 then .bad 0x09
      else if g.unit = 1 ∧ p.viewLen < p.cur.toNat + s.drainSpan i f g then .bad 0x09
      else .ok p
  | .wait => .wait
  | _ => .unread

/-- Everything a CONF needs to know. -/
structure Conf where
  img : Image
  fld : Field
  rills : List RDecl
  gens : List (Frame × GenPtr)
  deriving DecidableEq, Repr

/-- What a CONF reads (R273). -/
def State.confOf (s : State) (p k : Nat) (o : Op) (origin : BitVec 64) (q : Nat) : Conf :=
  let t := s.task p k
  let i := s.readImage (dieOf p) o.act.ptr q
  let f := fieldOfImage i (origin.extractLsb' 0 32) 0 t.launch p t.uid o.act.ptr o.priv
  ⟨i, f, s.imageRills i f, (i.ofClass 4).map (fun g => (g, s.genPtr (dieOf p) o.act.ptr q i f g))⟩

/-- Whether the plots of a rectangle all lie in a launch's placement and in no field, and the launch has room for the field (R273, R350). -/
def State.confPlots (s : State) (f : Field) (launch : BitVec 32) : Bool :=
  f.cellsOf.all (fun x =>
    let q := s.plot (s.fieldPlot f x.1 x.2)
    q.fu.handle == 0xFFFFFFFF && q.owner.map (·.1) == some launch) &&
  (match s.launch? launch with
  | some l => decide ((s.fields.filter (fun x => x.launch == launch)).length < fieldN (l.word 0x18) 32 5) &&
      decide (f.rows * f.cols ≤ fieldN (l.word 0x18) 37 14)
  | none => false)

/-- Whether something that a CONF reads is being moved: a frame, a pointer granule or a page of a window. It waits, as a CLD would (R175, R189,
R270). -/
def State.confWaits (s : State) (die : Nat) (a : Ptr) (q : Nat) (c : Conf) : Bool :=
  (s.frameHomes die a q (frameCount c.img.hdr)).contains .wait ||
  c.gens.any (fun g => match g.2 with
    | .wait => true
    | .ok x => x.pagesAhead.any (fun y => s.homeAt die x y == .wait)
    | _ => false)

/-- The refusal codes of R273 in their order: the first that applies. Of an image whose header cannot be read only the codes that need no frame
are tested before 0x0A. -/
def State.confCode (s : State) (p k : Nat) (o : Op) (origin : BitVec 64) (q : Nat) (c : Conf) : Option Nat :=
  let die := dieOf p
  let t := s.task p k
  let i := c.img
  let n := frameCount i.hdr
  let homes := s.frameHomes die o.act.ptr q n
  let name := origin.extractLsb' 0 32
  let rect := s.mod.rects[nameRect name]?
  let depth := depthOf i.mode
  let ptrBad := c.gens.findSome? (fun g => match g.2 with
    | .bad e => some e
    | _ => none)
  let tests : List (Bool × Nat) :=
    [ (s.mod.pscur == 2 || s.mod.pscur == 3, 0x0D),
      ((homesOf homes).any (fun a => !isHost a && (s.sideAt a).poison), 0x0E),
      (!i.got && (origin.extractLsb' 32 32 != 0 || (s.rectPlot name).isNone), 0x04),
      (!i.got, 0x0A),
      (i.hdr.cls != 0x7E || i.hdr.malformed i.mode || i.rest.any (fun f => f.malformed i.mode), 0x01),
      (i.whole && decide (crc32 i.crcBytes ≠ i.hdr.fld 32 32), 0x02),
      (decide (3 < i.mode) || (decide (2 ≤ i.mode) && !s.mod.featack.getLsbD 1) || i.promote != (if i.mode = 1 then 8 else 0) || i.rows == 0 || decide (84 < i.rows) || i.cols == 0 ||
        decide (192 < i.cols) || i.k == 0 || decide (i.lr ≠ (i.k + depth - 1) / depth), 0x03),
      (origin.extractLsb' 32 32 != 0 || (s.rectPlot name).isNone || (match rect with
        | some (_, _, h, w) => decide (h < nameRow name + i.rows) || decide (w < nameCol name + i.cols)
        | none => true), 0x04),
      (!s.confPlots c.fld t.launch, 0x05),
      (decide ((s.availRows c.fld).length < i.lr), 0x06),
      (i.body.any (fun f => f.misplaced i) || i.framesBad ||
        !c.rills.all (fun d => declOk c.rills (s.heldEntry t.launch) d) || (s.installAll c.rills t.launch none).isNone, 0x07),
      (decide (n < 2) || decide (homes.length < n) || (i.whole && (i.last.map (·.cls) != some 0 || i.body.any (fun f => f.cls == 0))),
        0x08),
      (ptrBad.isSome, ptrBad.getD 0x09),
      (!i.whole || c.gens.any (fun g => match g.2 with
        | .unread => true
        | .ok x => (s.windowOf die x).isNone
        | _ => false), 0x0A),
      (i.tiles.any (fun t => t.2.rows == 0 || decide (512 < t.2.rows) || decide (511 < t.2.base) || decide (512 < t.2.base + t.2.rows) ||
        (t.2.semen && !t.2.auto)), 0x0B),
      (decide (i.rows ≤ i.mrow) || decide (i.cols ≤ i.mcol), 0x0C) ]
  (tests.find? (fun x => x.1)).map (·.2)

/-! ## Configuration (R273) -/

/-- The registers a cell frame sets (R262). -/
def Frame.cell (f : Frame) (c : Cell) : Cell :=
  let w := f.pay.extractLsb' 0 128
  let g := f.pay.extractLsb' 128 32
  if f.pay.getLsbD 169 then { c with wLoad := w, gLoad := g, full := true }
  else { c with wAct := w, gAct := g, mx := f.pay.extractLsb' 160 8 }

/-- The cells of the plot at a field row and column. -/
def Image.cellsAt (i : Image) (r c : Nat) : SMap Cell :=
  ((i.ofClass 1).filter (fun f => f.frow == r && f.fcol == c)).foldl (fun m f => m.put f.unit (f.cell {})) []

/-- The field units of a plot as CONF leaves them (R244, R253, R258, R273). The poison marks in a tile's range go, since every field of its
state word but BASE and ROWS is as at reset. -/
def State.confUnit (s : State) (i : Image) (f : Field) (r c : Nat) (u : FUnit) : FUnit :=
  let south := r + 1 == f.rows
  let tiles : SMap Tile := if south then i.tiles.foldl (fun m t => SMap.put m t.1 t.2) [] else []
  let rows := s.logRows f
  { u with
    cells := i.cellsAt r c
    cellLost := 0
    west := []
    delay := if c = 0 then (rows.filter (fun g => g / 16 == r)).map (fun g => (g % 16, s.rowDelay f g)) else []
    tiles := tiles
    poison := u.poison.filter (fun a => !tiles.any (fun t => decide (t.2.base ≤ a) && decide (a < t.2.base + t.2.rows)))
    port0 := { u.port0 with pcap := 1024 }
    port1 := { u.port1 with pcap := 1024 }
    feeds := []
    wlds := []
    loaded := []
    handle := f.handle
    role := f.roleAt r c }

/-- The lowest field number of a launch that is free (R350). -/
def State.freeFieldIdx (s : State) (launch : BitVec 32) : Nat :=
  ((List.range 16).find? (fun n => !s.fields.any (fun f => f.launch == launch && f.idx == n))).getD 16

/-- The generators of a configured field with their windows (R265, R270). -/
def State.confGens (s : State) (die : Nat) (c : Conf) : List Agen :=
  c.gens.map (fun g => match g.2 with
    | .ok p => ⟨g.1.frow, g.1.fcol, g.1.unit, g.1.pay, p, (s.windowOf die p).getD []⟩
    | _ => ⟨g.1.frow, g.1.fcol, g.1.unit, g.1.pay, {}, []⟩)

/-- A field configured over its plots together: entries installed, units set, handle and roles given. -/
def State.configure (s : State) (die : Nat) (c : Conf) (f : Field) : Option State :=
  match s.installAll c.rills f.launch (some f.handle) with
  | none => none
  | some s1 =>
    let g := { f with agens := s.confGens die c, entries := c.rills.map (fun d => (d.p, d.e)) }
    some (f.cellsOf.foldl (fun s x => s.onFu (s.fieldPlot f x.1 x.2) (fun u => s.confUnit c.img f x.1 x.2 u)) { s1 with fields := s1.fields ++ [g] })

/-- The generation a CONF at an origin gives its handle (R274). -/
def State.nextGen (s : State) (name : BitVec 32) : Nat := s.gens.get name.toNat 0 % 127 + 1

/-- The homes that a CONF reads behind a host link that is down: frames, and pointer granules. -/
def State.confLost (s : State) (die : Nat) (a : Ptr) (q : Nat) (c : Conf) : List Nat :=
  (homesOf (s.frameHomes die a q (frameCount c.img.hdr) ++ (c.gens.filter (fun g => g.1.fld 192 32 != 0 && g.1.fld 192 32 % 32 == 0 &&
    decide (q + g.1.fld 192 32 + 32 ≤ a.start + a.viewLen))).map (fun g => s.homeAt die a (q + g.1.fld 192 32)))).filter (fun h => s.hostLost h)

/-- CFG.CONF as it performs (R273): its handle, or the refusal. It waits while a part of what it reads is being moved. What it reads behind a host
link that is down is free, with an ENGINE error record for each part (R156; log 64). -/
def State.confEvent (s0 : State) (p k : Nat) (o : Op) (origin : BitVec 64) : State :=
  let q := o.act.ptr.start + o.act.ptr.cur.toNat
  let c := s0.confOf p k o origin q
  let lost := s0.confLost (dieOf p) o.act.ptr q c
  let s := if lost.isEmpty then s0 else { lost.foldl (fun s h => s.lostAccess p k o.bpc o.slot h) s0 with free := s0.free + 2 ^ 64 }
  if s0.confWaits (dieOf p) o.act.ptr q c then s0
  else match s0.confCode p k o origin q c with
  | some e => s.finishOp p k o (some (.int (BitVec.ofNat 64 (2 ^ 63 + e))))
  | none =>
    let name := origin.extractLsb' 0 32
    let gen := s.nextGen name
    let h := name ||| BitVec.ofNat 32 gen
    let f := { c.fld with handle := h, idx := s.freeFieldIdx c.fld.launch }
    match s.configure (dieOf p) c f with
    | none => s.finishOp p k o (some (.int (BitVec.ofNat 64 (2 ^ 63 + 7))))
    | some s1 => { s1 with gens := s1.gens.put name.toNat gen }.finishOp p k o (some (.int (h.zeroExtend 64)))

/-! ## The FIELD fault of a master task (R255, R269, R277) -/

/-- The slot in which a named task stands, on a plot. -/
def State.slotOfUid (s : State) (p uid : Nat) : Option Nat :=
  slotIdx.find? (fun k => (s.task p k).st != .free && (s.task p k).uid == uid && (s.task p k).leaving != .ended)

/-- The plots a launch is placed on. -/
def State.plotsOf (s : State) (launch : BitVec 32) : List Nat :=
  (s.plots.filter (fun x => x.2.owner.map (·.1) == some launch)).map (·.1)

/-- A task found by its name on any plot of its launch. -/
def State.findTask (s : State) (launch : BitVec 32) (uid : Nat) : Option (Nat × Nat) :=
  (s.plotsOf launch).findSome? (fun p => (s.slotOfUid p uid).map (fun k => (p, k)))

/-- FIELD ends the master task of a field, wherever that task stands: one saved by a page fault included (R229). -/
def State.masterFault (s : State) (f : Field) : State :=
  match s.faulted.find? (fun x => x.uid == f.masterUid && x.launch == f.launch) with
  | some x => (s.dropFaulted x).postErr 0x01 f.masterPlot x.k f.launch 0 { cause := .field } true 0
  | none =>
    match s.findTask f.launch f.masterUid with
    | some (p, k) => s.takeException p k { cause := .field } (s.task p k).bpc
    | none => s

/-- A field stopped with FIELD in its master task, wherever that task stands. -/
def State.fieldFault (s : State) (h : BitVec 32) : State :=
  match s.liveField h with
  | none => s
  | some f =>
    let s1 := s.onField h (fun f => { f with stopped := true })
    s1.masterFault f

/-! ## Release (R275) -/

/-- An operation held by a feeder or loader ends as performed. -/
def State.finishHeld (s : State) (p uid serial : Nat) : State :=
  match slotIdx.find? (fun k => (s.task p k).uid == uid && ((s.task p k).ops.any (fun o => o.serial == serial))) with
  | none => s
  | some k => match s.opOf p k serial with
    | some o => s.finishOp p k o none
    | none => s

/-- The FEEDs and WLDs of a plot's feeder and loader discarded, and those that wait for room in the feeder (R275, R277). -/
def State.dropFeeds (s : State) (p : Nat) : State :=
  let u := (s.plot p).fu
  let s1 := s.onFu p (fun u => { u with feeds := [], wlds := [], loaded := [] })
  let s2 := u.feeds.foldl (fun s c => s.finishHeld p c.uid c.serial) s1
  let s3 := u.wlds.foldl (fun s c => s.finishHeld p c.uid c.serial) s2
  slotIdx.foldl (fun s k => ((s.task p k).ops.filter (fun o => o.queued && (match o.act.kind with
    | .feed .. => true
    | _ => false))).foldl (fun s o => s.finishOp p k o none) s) s3

/-- The queues of a plot's cells emptied; weights, tiles and accumulators stay. -/
def FUnit.released (u : FUnit) : FUnit :=
  { u with
    cells := u.cells.map (fun c => (c.1, { c.2 with east := none, south := none }))
    west := []
    delay := []
    tiles := u.tiles.map (fun t => (t.1, { t.2 with pend := [], draining := none, drained := false }))
    handle := 0xFFFFFFFF
    role := 0 }

/-- The field released: commands and beats discarded, entries removed, SY.FIELD none; a parked DRN wakes. -/
def State.releaseField (s : State) (f : Field) : State :=
  let ps := f.cellsOf.map (fun x => s.fieldPlot f x.1 x.2)
  let s1 := ps.foldl (fun s p => s.dropFeeds p) s
  let s2 := s1.removeRills (fun _ r => r.field == some f.handle)
  let s3 := { s2 with fields := s2.fields.filter (fun g => g.handle != f.handle) }
  ps.foldl (fun s p => (s.onFu p FUnit.released).wakePlot p (fun w => match w with
    | .drain _ => true
    | _ => false)) s3

/-- The SOUTH plots of a field that hold a logical column. -/
def State.southPlots (s : State) (f : Field) : List Nat :=
  ((List.range f.cols).filter (fun c => !(s.localCols f c).isEmpty)).map (fun c => s.fieldPlot f (f.rows - 1) c)

/-- Whether a release may go on: the field has stopped, or no pass is in the array and no drain writer works (R275). -/
def State.releasable (s : State) (f : Field) : Bool :=
  f.stopped || (f.passes.all (fun x => !x.entered) && (s.southPlots f).all (fun p => (s.plot p).fu.tiles.all (fun t => !t.2.emptying)))

/-- Whether a task has an ACC form of an earlier slot or block still to perform, which goes before a release (R272). -/
def Task.accBefore (t : Task) (serial : Nat) : Bool := t.ops.any (fun q => decide (q.serial < serial) && q.act.kind.accTile.isSome)

/-- CFG.FREL as it performs: no pass enters the array any more; then the field goes. A stale handle performs nothing. -/
def State.frelEvent (s : State) (p k : Nat) (o : Op) (h : BitVec 64) : State :=
  match if h.extractLsb' 32 32 = 0 then s.liveField (h.extractLsb' 0 32) else none with
  | none => s.finishOp p k o none
  | some f =>
    if f.launch ≠ (s.task p k).launch then s.finishOp p k o none
    else if s.releasable f && (f.stopped || !(s.task p k).accBefore o.serial) then (s.releaseField f).finishOp p k o none
    else s.onField f.handle (fun f => { f with releasing := some o.serial })

end Sys2Proof.Machine
end

