-- ==== Sys2Proof/Machine/FieldRun.lean ====
section
/-! DEFINITION. A configured field at work (R239 to R258, R266 to R269, R277 to R282): FEED and WLD as they perform, and the events of
feeders, loaders, cells, accumulators and drain writers. An event whose condition does not hold leaves the state as it is. -/

namespace Sys2Proof.Machine

open Sys2Proof

/-! ## Sources -/

/-- The generator of a field's plot (R265). -/
def Field.gen (f : Field) (r c u : Nat) : Option Agen := f.agens.find? (fun a => a.r == r && a.c == c && a.unit == u)

/-- A field of a generator's payload. -/
def Agen.fld (a : Agen) (lo n : Nat) : Nat := (a.pay.extractLsb' lo n).toNat

/-- The home of a position through a generator's window, if its object and page lie there (R270). -/
def Agen.home (a : Agen) (obj : BitVec 24) (q : Nat) : Option Nat :=
  if a.ptr.obj == obj then (a.window.find? (fun w => w.1 == q / 4096 * 4096)).map (fun w => w.2.1 + q % 4096) else none

/-- The translation of a byte that a feeder or loader reads (R270): a plot of its window that has become a hole since is ABSENT, as it would be through the
object table. -/
def State.srcHome (s : State) (die : Nat) (a : Agen) (p : Ptr) (q : Nat) : Tr :=
  match if p.isPhys then none else a.home p.obj q with
  | some h => if s.homeOk h then .home h else .absent
  | none => s.homeAt die p q

/-- What reading source bytes finds. -/
inductive SrcRd where
  | ok
  | absent
  | page (obj : BitVec 24) (off : BitVec 40) (nested : Bool)
  | poison (a : Nat)
  | wait
  deriving DecidableEq, Repr

/-- One piece of a source. -/
def State.srcPiece (s : State) (die : Nat) (a : Agen) (p : Ptr) (q : Nat) : SrcRd :=
  match s.srcHome die a p q with
  | .home h => if !isHost h && (s.sideAt h).poison then .poison h else .ok
  | .absent => .absent
  | .page o f n => .page o f n
  | .wait => .wait

/-- The first difficulty among ranges of bytes from a pointer's cursor. -/
def State.srcCheck (s : State) (die : Nat) (a : Agen) (p : Ptr) (rs : List (Nat × Nat)) : SrcRd :=
  (rs.flatMap (fun r => piecesOf (p.start + p.cur.toNat + r.1) r.2)).foldl (fun acc x => match acc with
    | .ok => s.srcPiece die a p x.1
    | e => e) .ok

/-- Whether a byte of ranges from a pointer's cursor lies in a hole, whatever else the ranges meet (R277). -/
def State.srcHole (s : State) (die : Nat) (a : Agen) (p : Ptr) (rs : List (Nat × Nat)) : Bool :=
  (rs.flatMap (fun r => piecesOf (p.start + p.cur.toNat + r.1) r.2)).any (fun x => s.srcPiece die a p x.1 == .absent)

/-- The homes of ranges from a pointer's cursor that lie behind a host link that is down. -/
def State.srcLost (s : State) (die : Nat) (a : Agen) (p : Ptr) (rs : List (Nat × Nat)) : List Nat :=
  (rs.flatMap (fun r => piecesOf (p.start + p.cur.toNat + r.1) r.2)).filterMap (fun x => match s.srcHome die a p x.1 with
    | .home h => if s.hostLost h then some h else none
    | _ => none)

/-- The records of a source read over a host link that is down, and the free values that it used (R156; log 64). -/
def State.srcRecords (s : State) (p k : Nat) (launch : BitVec 32) (bpc : BitVec 40) (hs : List Nat) : State :=
  if hs.isEmpty then s
  else { hs.foldl (fun s h => s.postErr 0x04 p k launch bpc { cause := .engine, phys := BitVec.ofNat 64 h } false 0) s with free := s.free + 2 ^ 64 }

/-- The bytes of a range from a pointer's cursor; free ones behind a host link that is down (R156). -/
def State.srcBytes (s : State) (die : Nat) (a : Agen) (p : Ptr) (off n : Nat) : List Byte :=
  (piecesOf (p.start + p.cur.toNat + off) n).flatMap (fun x => match s.srcHome die a p x.1 with
    | .home h => s.rdLost h x.2.2
    | _ => [])

/-- Whether ranges lie within a pointer's view (CAPB). -/
def rangesFit (p : Ptr) (rs : List (Nat × Nat)) : Bool := rs.all (fun r => decide (p.cur.toNat + r.1 + r.2 ≤ p.viewLen))

/-- Elements below K in logical row i (R249). -/
def Field.elems (f : Field) (i : Nat) : Nat := min (depthOf f.mode) (f.k - depthOf f.mode * i)

/-- The tensor byte of element e of logical row i for output pixel q; none in the padding (R267). -/
def Agen.unfoldAt (a : Agen) (depth i e q : Nat) : Option Nat :=
  let wo := a.fld 161 16
  let hi := a.fld 145 16
  let wi := a.fld 129 16
  let ch := a.fld 113 16
  let st := a.fld 105 4 + 1
  let kw := a.fld 101 4 + 1
  let k := depth * i + e
  let iy : Int := ((q / wo * st + k / (ch * kw) : Nat) : Int) - a.fld 109 4
  let ix : Int := ((q % wo * st + k / ch % kw : Nat) : Int) - a.fld 109 4
  if 0 ≤ iy ∧ iy < hi ∧ 0 ≤ ix ∧ ix < wi then some (2 * ((iy.toNat * wi + ix.toNat) * ch + k % ch)) else none

/-- The bytes the beat of logical row i reads for activation row m, as offsets from the cursor (R266, R267). -/
def Field.beatRanges (f : Field) (a : Agen) (q0 m i : Nat) : List (Nat × Nat) :=
  let w := (modeElem f.mode).2
  if a.pay.getLsbD 96 then
    (List.range (f.elems i)).filterMap (fun e => (a.unfoldAt (depthOf f.mode) i e (q0 + m)).map (fun o => (o, 2)))
  else
    let data := (m * a.fld 0 24 + i * a.fld 24 24, (f.elems i * w + 7) / 8)
    match f.mode with
    | 1 => [data, (a.fld 48 24 + m * a.fld 72 24 + 4 * (i / 8), 4)]
    | 2 => [data, (a.fld 48 24 + m * a.fld 72 24 + i, 1)]
    | _ => [data]

/-- DATA and SCALE of a beat (R240, R266, R267), from the bytes at offsets. -/
def Field.beatData (f : Field) (a : Agen) (q0 m i : Nat) (rd : Nat → Nat → List Byte) : BitVec 128 × BitVec 32 :=
  let w := (modeElem f.mode).2
  if a.pay.getLsbD 96 then
    (BitVec.ofNat 128 ((List.range (f.elems i)).foldl (fun n e => match a.unfoldAt (depthOf f.mode) i e (q0 + m) with
      | some o => n + leNat (rd o 2) * 2 ^ (16 * e)
      | none => n) 0), 0)
  else
    let d := leNat (rd (m * a.fld 0 24 + i * a.fld 24 24) ((f.elems i * w + 7) / 8)) % 2 ^ (w * f.elems i)
    let sc := match f.mode with
      | 1 => leNat (rd (a.fld 48 24 + m * a.fld 72 24 + 4 * (i / 8)) 4)
      | 2 => leNat (rd (a.fld 48 24 + m * a.fld 72 24 + i) 1)
      | _ => 0
    (BitVec.ofNat 128 d, BitVec.ofNat 32 sc)

/-- The logical rows that the WEST plot at field row r feeds, with their cell row (R241). -/
def State.fedRows (s : State) (f : Field) (r : Nat) : List (Nat × Nat) :=
  let gs := s.logRows f
  (List.range gs.length).filterMap (fun i => match gs[i]? with
    | some g => if g / 16 = r then some (i, g % 16) else none
    | none => none)

/-! ## FEED and WLD as they perform (R277, R278) -/

/-- Whether the bits of a FEED's parameters outside M, TILE and q0 are zero and M is 1 to 512. -/
def feedOk (b : BitVec 64) : Bool :=
  b &&& 0xFFFF0000FFF0FC00 == 0 && b.extractLsb' 0 10 != 0 && decide ((b.extractLsb' 0 10).toNat ≤ 512)

/-- FEED as it performs: its checks, then a place in the feeder, which holds four. -/
def State.feedEvent (s : State) (p k : Nat) (o : Op) (fin swap eos : Bool) (b : BitVec 64) : State :=
  let u := (s.plot p).fu
  match s.fieldOf p with
  | none => s.deferFault p k o { cause := .field }
  | some f =>
    match s.fieldPos f p with
    | none => s.deferFault p k o { cause := .field }
    | some (r, c) =>
      match f.gen r c 0 with
      | none => s.deferFault p k o { cause := .field }
      | some a =>
        if !u.west? || !feedOk b then s.deferFault p k o { cause := .field }
        else
          let m := (b.extractLsb' 0 10).toNat
          let q0 := (b.extractLsb' 32 16).toNat
          let rs := (List.range m).flatMap (fun j => (s.fedRows f r).flatMap (fun x => f.beatRanges a q0 j x.1))
          if !rangesFit o.act.ptr rs then s.deferFault p k o { cause := .capb }
          else if s.srcHole (dieOf p) a o.act.ptr rs then
            s.deferFault p k o { cause := .absent, obj := if o.act.ptr.isPhys then 0 else o.act.ptr.obj }
          else if u.feeds.length < 4 then
            let cmd : FeedCmd := { serial := o.serial, uid := (s.task p k).uid, mx := o.act.mx, slot := k, bpc := o.bpc, ptr := o.act.ptr, priv := o.priv,
                                   m := m, tile := b.extractLsb' 16 4, q0 := q0, fin := fin, swap := swap, eos := eos }
            (s.onFu p (fun u => { u with feeds := u.feeds ++ [cmd] })).onOp p k o.serial (fun q => { q with queued := false })
          else s.onOp p k o.serial (fun q => { q with queued := true })

/-- The bytes a loader reads for logical row i and local column jl of weight tile n (R268). -/
def Field.wordRanges (f : Field) (a : Agen) (n i jl : Nat) : List (Nat × Nat) :=
  let base := n * a.fld 24 32
  let sc := base + a.fld 56 24
  let scs := a.fld 80 24
  match f.mode with
  | 1 => [(base + i * a.fld 0 24 + 16 * jl, f.elems i), (sc + i / 8 * scs + 4 * jl, 4)]
  | 2 => [(base + i * a.fld 0 24 + 16 * jl, (f.elems i + 1) / 2), (sc + i * scs + jl, 1)]
  | 3 => [(base + i * a.fld 0 24 + 4 * jl, (f.elems i + 1) / 2), (sc + i / 4 * scs + 2 * jl, 2)]
  | _ => [(base + i * a.fld 0 24 + 16 * jl, 2 * f.elems i)]

/-- The weight register and scale loaded for a cell (R33, R238, R268). -/
def Field.wordData (f : Field) (a : Agen) (n i jl : Nat) (rd : Nat → Nat → List Byte) : BitVec 128 × BitVec 32 :=
  let bytes := (f.wordRanges a n i jl).map (fun r => leNat (rd r.1 r.2))
  let d := bytes.headD 0
  let sc := (bytes.drop 1).headD 0
  let e := f.elems i
  match f.mode with
  | 3 => (BitVec.ofNat 128 ((List.range e).foldl (fun x k => x + w4Weight (a.pay.getLsbD 104) (d / 16 ^ k % 16) sc * 2 ^ (16 * k)) 0), 0)
  | 0 => (BitVec.ofNat 128 d, 0)
  | _ => (BitVec.ofNat 128 (d % 2 ^ ((modeElem f.mode).2 * e)), BitVec.ofNat 32 sc)

/-- WLD as it performs: its checks, then its words in the loader. -/
def State.wldEvent (s : State) (p k : Nat) (o : Op) (b : BitVec 64) : State :=
  match s.fieldOf p with
  | none => s.deferFault p k o { cause := .field }
  | some f =>
    match s.fieldPos f p with
    | none => s.deferFault p k o { cause := .field }
    | some (r, c) =>
      match f.gen r c 2 with
      | none => s.deferFault p k o { cause := .field }
      | some a =>
        if !(s.plot p).fu.north? || b.extractLsb' 16 48 != 0 then s.deferFault p k o { cause := .field }
        else
          let n := (b.extractLsb' 0 16).toNat
          let words := (List.range f.lr).flatMap (fun i => (List.range (s.localCols f c).length).map (fun j => (i, j)))
          let rs := words.flatMap (fun x => f.wordRanges a n x.1 x.2)
          if !rangesFit o.act.ptr rs then s.deferFault p k o { cause := .capb }
          else if s.srcHole (dieOf p) a o.act.ptr rs then
            s.deferFault p k o { cause := .absent, obj := if o.act.ptr.isPhys then 0 else o.act.ptr.obj }
          else if words.isEmpty then s.finishOp p k o none
          else if (s.plot p).fu.wlds.any (fun x => x.serial == o.serial) then s
          else
            let cmd : WldCmd := { serial := o.serial, uid := (s.task p k).uid, mx := o.act.mx, slot := k, bpc := o.bpc, ptr := o.act.ptr, priv := o.priv,
                                  n := n, left := words }
            s.onFu p (fun u => { u with wlds := u.wlds ++ [cmd] })

/-- The slot and operation that a held command answers. -/
def State.heldOp (s : State) (p uid serial : Nat) : Option (Nat × Op) :=
  slotIdx.findSome? (fun k => if (s.task p k).uid == uid then (s.opOf p k serial).map (fun o => (k, o)) else none)

/-- A fault of a held command: of a task no longer there only the record remains. -/
def State.heldFault (s : State) (p uid serial : Nat) (launch : BitVec 32) (bpc : BitVec 40) (slot : Nat) (c : CauseRec) : State :=
  match s.heldOp p uid serial with
  | some (k, o) => s.deferFault p k o c
  | none => s.postErr 0x01 p slot launch bpc { c with defer := true } true 0

/-- The page-fault record of a feeder or loader (R277, R234). -/
def State.heldPage (s : State) (p slot : Nat) (launch : BitVec 32) (bpc : BitVec 40) (ob : BitVec 24) (off : BitVec 40) (n : Bool) : State :=
  s.postErr 0x02 p slot launch bpc { cause := .page, obj := ob, off := off, nested := n } false 0

/-! ## Passes (R277) -/

/-- The WEST plots of a field. -/
def State.westPlots (s : State) (f : Field) : List Nat := (List.range f.rows).map (fun r => s.fieldPlot f r 0)

/-- The first FEED of a feeder that has not been released. -/
def FUnit.nextFeed (u : FUnit) : Option FeedCmd := u.feeds.find? (fun c => !c.released)

/-- Whether two FEEDs form one pass. -/
def FeedCmd.agrees (a b : FeedCmd) : Bool := a.m == b.m && a.tile == b.tile && a.fin == b.fin && a.swap == b.swap && a.eos == b.eos

/-- A list with its first element that meets a test changed. -/
def changeFirst {α : Type} (f : α → Bool) (g : α → α) : List α → List α
  | [] => []
  | x :: t => if f x then g x :: t else x :: changeFirst f g t

/-- A feeder's next FEED released; one without a logical row has read its last byte. -/
def State.releaseFeed (s : State) (f : Field) (r : Nat) : State :=
  let p := s.fieldPlot f r 0
  match (s.plot p).fu.nextFeed with
  | none => s
  | some c =>
    if (s.fedRows f r).isEmpty then
      (s.onFu p (fun u => { u with feeds := u.feeds.filter (fun x => x.serial != c.serial) })).finishHeld p c.uid c.serial
    else s.onFu p (fun u => { u with feeds := changeFirst (fun x => !x.released) (fun x => { x with released := true, start := s.cycOf p }) u.feeds })

/-- Whether feeders and loaders admit anything (R408, R411). -/
def State.admitting (s : State) : Bool := !s.mod.trip && !s.mod.seca && decide (s.mod.pscur.toNat ≤ 1)

/-- The field columns that hold a logical column. -/
def State.activeCols (s : State) (f : Field) : List Nat := (List.range f.cols).filter (fun c => !(s.localCols f c).isEmpty)

/-- PASS_RELEASE (R277): every WEST plot holds its next FEED; they agree, and the pass is released, or FIELD stops the field. -/
def execPassRelease (handle : Nat) (s : State) : Out :=
  .next (match s.liveField (BitVec.ofNat 32 handle) with
    | none => s
    | some f =>
      let cs := (s.westPlots f).map (fun p => (s.plot p).fu.nextFeed)
      match cs with
      | some c :: rest =>
        if f.stopped || f.releasing.isSome || rest.any (·.isNone) then s
        else if rest.any (fun x => match x with
            | some y => !c.agrees y
            | none => false) then s.fieldFault f.handle
        else
          let pass : Pass := { tile := c.tile, m := c.m, fin := c.fin, swap := c.swap, eos := c.eos, left := s.activeCols f }
          let s1 := if pass.left.isEmpty then s else s.onField f.handle (fun f => { f with passes := f.passes ++ [pass] })
          (List.range f.rows).foldl (fun s r => s.releaseFeed f r) s1
      | _ => s)

/-- Whether a WEST plot of a field has already offered row m of the pass that `later` released passes follow (R228). -/
def State.begun (s : State) (f : Field) (later m : Nat) : Bool :=
  (List.range f.rows).any (fun r =>
    let cs := (s.plot (s.fieldPlot f r 0)).fu.feeds.filter (·.released)
    !(s.fedRows f r).isEmpty && (match cs[cs.length - 1 - later]? with
      | some c => decide (cs.length ≤ later) || decide (m < c.next)
      | none => true))

/-- How many released passes follow a feeder's command. -/
def FUnit.laterThan (u : FUnit) (serial : Nat) : Nat :=
  let cs := u.feeds.filter (·.released)
  cs.length - 1 - cs.findIdx (fun c => c.serial == serial)

/-! ## Feeders (R241, R244, R258, R266) -/

/-- Whether the fields of a launch are being saved, so that its feeders stop between output rows (R228): its tasks and rills are saved, and its engine
commands have performed (R350). -/
def State.isSaving (s : State) (launch : BitVec 32) : Bool := (s.launch? launch).any (fun l => l.st == .saving && l.fieldsStop)

/-- A token taken at a port. -/
def AdmPort.take (a : AdmPort) : AdmPort := { a with cnt := a.cnt - 1 }

/-- The beat of a pass's row. -/
def FeedCmd.beat (c : FeedCmd) (m : Nat) (x : BitVec 128 × BitVec 32) : Beat :=
  let last := m + 1 == c.m
  { data := x.1, scale := x.2, tile := c.tile, tend := last, fin := c.fin && last, swap := c.swap && m == 0, eos := c.eos && last, m := m }

/-- The beat of activation row m offered by physical row a of a WEST plot: the source is read and the beat enters the west queue. -/
def State.offer (s : State) (p : Nat) (f : Field) (a : Agen) (c : FeedCmd) (r i row m : Nat) : State :=
  match s.srcCheck (dieOf p) a c.ptr (f.beatRanges a c.q0 m i) with
  | .wait => s
  | .page ob off n =>
    (s.onFu p (fun u => { u with feeds := changeFirst (fun x => x.serial == c.serial) (fun x => { x with paused := some (ob, off) }) u.feeds })).heldPage
      p c.slot f.launch c.bpc ob off n
  | .absent => (s.onFu p (fun u => { u with feeds := u.feeds.filter (fun x => x.serial != c.serial) })).heldFault p c.uid c.serial f.launch c.bpc
      c.slot { cause := .absent, obj := if c.ptr.isPhys then 0 else c.ptr.obj }
  | .poison h => (s.onFu p (fun u => { u with feeds := u.feeds.filter (fun x => x.serial != c.serial) })).heldFault p c.uid c.serial f.launch
      c.bpc c.slot { cause := .poison, phys := BitVec.ofNat 64 h }
  | .ok =>
    let b := c.beat m (f.beatData a c.q0 m i (fun o n => s.srcBytes (dieOf p) a c.ptr o n))
    let c1 := { c with offered := c.offered.put row (m + 1), next := max c.next (m + 1) }
    let done := (s.fedRows f r).all (fun x => c1.offered.get x.2 0 == c.m)
    let s1 := s.onFu p (fun u =>
      { u with
        west := u.west.put row (u.west.get row [] ++ [b])
        port0 := if m = c.next then u.port0.take else u.port0
        feeds := if done then u.feeds.filter (fun x => x.serial != c.serial)
                 else changeFirst (fun x => x.serial == c.serial) (fun _ => c1) u.feeds })
    let s2 := s1.srcRecords p c.slot f.launch c.bpc (s.srcLost (dieOf p) a c.ptr (f.beatRanges a c.q0 m i))
    if done then s2.finishHeld p c.uid c.serial else s2

/-- FEEDER_ROW_RELEASE (R241, R244, R258): a physical row of a WEST plot offers its next beat, once its delay counter has run out; the first
beat of a row-slice takes a token of port 0. While the launch is saved, no row is begun that no WEST plot of the field has begun (R228). -/
def execFeederRowRelease (p row : Nat) (s : State) : Out :=
  .next (match s.fieldOf p with
    | none => s
    | some f =>
      match s.fieldPos f p with
      | none => s
      | some (r, c) =>
        let u := (s.plot p).fu
        match (s.fedRows f r).find? (fun x => x.2 == row), f.gen r c 0,
            u.feeds.find? (fun x => x.released && decide (x.offered.get row 0 < x.m)) with
        | some (i, _), some a, some cmd =>
          let m := cmd.offered.get row 0
          let fresh := m == cmd.next
          if !u.west? || cmd.paused.isSome || !s.admitting || decide (8 ≤ (u.west.get row []).length) ||
              decide ((s.cycOf p).toNat < cmd.start.toNat + u.delay.get row 0) then s
          else if fresh && (u.port0.cnt == 0 || (s.isSaving f.launch && !s.begun f (u.laterThan cmd.serial) m)) then s
          else s.offer p f a cmd r i row m
        | _, _, _ => s)

/-- Whether a feeder's next row-slice lacks nothing but a token of port 0 (R258, R397). -/
def State.tokenHeld0 (s : State) (p : Nat) : Bool :=
  match s.fieldOf p with
  | none => false
  | some f => match s.fieldPos f p with
    | none => false
    | some (r, c) =>
      let u := (s.plot p).fu
      u.port0.cnt == 0 && u.west? && s.admitting && (f.gen r c 0).isSome && (s.fedRows f r).any (fun x =>
        match u.feeds.find? (fun y => y.released && decide (y.offered.get x.2 0 < y.m)) with
        | some cmd =>
          let m := cmd.offered.get x.2 0
          m == cmd.next && cmd.paused.isNone && decide ((u.west.get x.2 []).length < 8) &&
            decide (cmd.start.toNat + u.delay.get x.2 0 ≤ (s.cycOf p).toNat) && !(s.isSaving f.launch && !s.begun f (u.laterThan cmd.serial) m)
        | none => false)

/-- Whether a loader's next word lacks nothing but a token of port 1. -/
def State.tokenHeld1 (s : State) (p : Nat) : Bool :=
  match s.fieldOf p with
  | none => false
  | some f => match s.fieldPos f p with
    | none => false
    | some (r, c) =>
      let u := (s.plot p).fu
      u.port1.cnt == 0 && s.admitting && (f.gen r c 2).isSome && u.wlds.head?.any (fun w => w.paused.isNone && !w.left.isEmpty)

/-! ## Loaders (R239, R268, R278) -/

/-- A loading register filled (R238, R268): the scale register takes the bits that the mode loads. -/
def Cell.load (c : Cell) (mode : Nat) (w : BitVec 128 × BitVec 32) : Cell :=
  { c with
    wLoad := w.1
    full := true
    gLoad := match mode with
      | 1 => w.2
      | 2 => c.gLoad.extractLsb' 8 24 ++ w.2.extractLsb' 0 8
      | _ => c.gLoad }

/-- The plot and the number of the cell that takes the word of logical row i and local column jl of field column c. -/
def State.wordCell (s : State) (f : Field) (c i jl : Nat) : Option (Nat × Nat) :=
  match (s.logRows f)[i]?, (s.localCols f c)[jl]? with
  | some g, some (_, b) => some (s.fieldPlot f (g / 16) c, 16 * (g % 16) + b)
  | _, _ => none

/-- A word that waits in a loader is written to its cell, if the loading register there is free and no earlier word waits for it (R239, R278). -/
def State.writeHeld (s : State) (p : Nat) (f : Field) (c n : Nat) : State :=
  let u := (s.plot p).fu
  match u.loaded[n]? with
  | none => s
  | some (i, jl, w) =>
    match s.wordCell f c i jl with
    | none => s
    | some (q, key) =>
      let cell := (s.plot q).fu.cell key
      if cell.full || (u.loaded.take n).any (fun x => x.1 == i && x.2.1 == jl) then s
      else ((s.onFu q (fun u => { u with cells := u.cells.put key (cell.load f.mode w) })).onFu p (fun u =>
        { u with loaded := u.loaded.eraseIdx n })).bump p 24 1

/-- A word of the loader's first WLD read under a token of port 1: it goes to its cell, or waits in the loader while the loading register there is
full. The last word read ends the WLD (R278). -/
def State.readWord (s : State) (p : Nat) (f : Field) (c n : Nat) (a : Agen) (cmd : WldCmd) (rest : List WldCmd) : State :=
  match cmd.left[n]? with
  | none => s
  | some (i, jl) =>
    if cmd.paused.isSome || (s.plot p).fu.port1.cnt == 0 || !s.admitting then s
    else match s.srcCheck (dieOf p) a cmd.ptr (f.wordRanges a cmd.n i jl) with
    | .wait => s
    | .page ob off n =>
      (s.onFu p (fun u => { u with wlds := { cmd with paused := some (ob, off) } :: rest })).heldPage p cmd.slot f.launch cmd.bpc ob off n
    | .absent => (s.onFu p (fun u => { u with wlds := rest })).heldFault p cmd.uid cmd.serial f.launch cmd.bpc cmd.slot
        { cause := .absent, obj := if cmd.ptr.isPhys then 0 else cmd.ptr.obj }
    | .poison h => (s.onFu p (fun u => { u with wlds := rest })).heldFault p cmd.uid cmd.serial f.launch cmd.bpc cmd.slot
        { cause := .poison, phys := BitVec.ofNat 64 h }
    | .ok =>
      let w := f.wordData a cmd.n i jl (fun o n => s.srcBytes (dieOf p) a cmd.ptr o n)
      let left := cmd.left.filter (fun x => x != (i, jl))
      let s1 := s.onFu p (fun u => { u with port1 := u.port1.take, loaded := u.loaded ++ [(i, jl, w)],
                                            wlds := if left.isEmpty then rest else { cmd with left := left } :: rest })
      let s2 := (s1.writeHeld p f c ((s1.plot p).fu.loaded.length - 1)).srcRecords p cmd.slot f.launch cmd.bpc
        (s.srcLost (dieOf p) a cmd.ptr (f.wordRanges a cmd.n i jl))
      if left.isEmpty then s2.finishHeld p cmd.uid cmd.serial else s2

/-- LOADER_WORD_WRITE (R239, R268, R278): a word that waits in the loader of a NORTH plot is written to its cell, or one more word of its first
WLD is read. -/
def execLoaderWordWrite (p pick : Nat) (s : State) : Out :=
  .next (match s.fieldOf p with
    | none => s
    | some f =>
      match s.fieldPos f p with
      | none => s
      | some (r, c) =>
        let u := (s.plot p).fu
        let n := pick % (u.loaded.length + (u.wlds.head?.map (·.left.length)).getD 0)
        if n < u.loaded.length then s.writeHeld p f c n
        else match f.gen r c 2, u.wlds with
        | some a, cmd :: rest => s.readWord p f c (n - u.loaded.length) a cmd rest
        | _, _ => s)

/-! ## Cells (R239, R242, R247, R254) -/

/-- The cell at a physical row and column of a field. -/
def State.cellAt (s : State) (f : Field) (g h : Nat) : Cell :=
  (s.plot (s.fieldPlot f (g / 16) (h / 16))).fu.cell (16 * (g % 16) + h % 16)

/-- A cell of a field changed by a function. -/
def State.onCell (s : State) (f : Field) (g h : Nat) (fn : Cell → Cell) : State :=
  s.onFu (s.fieldPlot f (g / 16) (h / 16)) (fun u =>
    let k := 16 * (g % 16) + h % 16
    { u with cells := u.cells.put k (fn (u.cell k)) })

/-- The weight swap (R239): the loading weights become active. -/
def Cell.swap (c : Cell) (mode : Nat) : Cell :=
  { c with wAct := c.wLoad, gAct := c.gLoad, mx := if mode = 2 then c.gLoad.extractLsb' 0 8 else c.mx, full := false, par := false }

/-- Whether the first beat of a pass may enter the array (R254): its tile is FULL in no SOUTH plot, no finalizing pass to it is in the array,
and the field is not being released. -/
def State.mayEnter (s : State) (f : Field) (tile : BitVec 4) : Bool :=
  f.releasing.isNone && (s.southPlots f).all (fun p => ((s.plot p).fu.tile tile.toNat).st != .full) &&
  !f.passes.any (fun x => x.entered && x.tile == tile && x.fin)

/-- The first pass that has not entered is marked as entered. -/
def Field.enter (f : Field) : Field := { f with passes := changeFirst (fun x => !x.entered) (fun x => { x with entered := true }) f.passes }

/-- What a cell fires on: its west and north inputs (R242). -/
def State.cellInputs (s : State) (f : Field) (li lj g h : Nat) : Option (Beat × Psum) :=
  let west := if lj = 0 then ((s.plot (s.fieldPlot f (g / 16) 0)).fu.west.get (g % 16) []).head?
    else ((s.logCols f)[lj - 1]?).bind (fun q => (s.cellAt f g q).east)
  let north := fun (b : Beat) => if li = 0 then some ⟨0, 0, 0, b.tile, b.tend, b.fin, b.eos, b.m, false⟩
    else ((s.logRows f)[li - 1]?).bind (fun q => (s.cellAt f q h).south)
  west.bind (fun b => (north b).map (fun n => (b, n)))

/-- The inputs of a cell consumed. -/
def State.consume (s : State) (f : Field) (li lj g h : Nat) : State :=
  let s1 := if lj = 0 then s.onFu (s.fieldPlot f (g / 16) 0) (fun u => { u with west := u.west.put (g % 16) ((u.west.get (g % 16) []).drop 1) })
    else match (s.logCols f)[lj - 1]? with
    | some q => s.onCell f g q (fun c => { c with east := none })
    | none => s
  if li = 0 then s1
  else match (s.logRows f)[li - 1]? with
  | some q => s1.onCell f q h (fun c => { c with south := none })
  | none => s1

/-- A cell fires: it swaps if its beat asks, adds its dot product, and presents beat and sum (R239, R242, R247). The last logical column
passes no beat on. The swap is made in this step: while a SWAP beat stands at the cell and its north input is missing, the loading register stays
full (DESIGN CHOICE, log 77). A beat that the first cell of a plot's row takes enters the plot's cells (R397). -/
def State.fire (s : State) (p : Nat) (f : Field) (li lj g h : Nat) (b : Beat) (n : Psum) : State :=
  let c0 := s.cellAt f g h
  let c := if b.swap then c0.swap f.mode else c0
  let last := li + 1 == f.lr
  let d := cellStep f.mode (li % 8 == 7 || last) b.data b.scale c.wAct c.gAct c.mx ⟨n.val, n.gp, n.peak.toNat⟩
  let out : Psum := { n with val := d.val, gp := d.gp, peak := BitVec.ofNat 8 d.peak, bad := n.bad || c.par }
  let east := if lj + 1 == (s.logCols f).length then none else some { b with swap := b.swap }
  let s1 := (s.consume f li lj g h).onCell f g h (fun _ => { c with east := east, south := some out })
  let s2 := if li = 0 ∧ lj = 0 ∧ b.m = 0 then s1.onField f.handle Field.enter else s1
  let s3 := if ((s.localCols f (h / 16)).head?.map (·.1)) == some lj then s2.bump p 23 1 else s2
  s3.bump p 22 1

/-- CELL_FIRE (R239, R242, R254): cell (i, j) of a plot fires when its inputs are there, its outputs are free, its swap can be made, and,
at the head of the array, the pass may enter. -/
def execCellFire (p i j : Nat) (s : State) : Out :=
  .next (match s.fieldOf p with
    | none => s
    | some f =>
      match s.fieldPos f p with
      | none => s
      | some (r, c) =>
        let g := 16 * r + i
        let h := 16 * c + j
        let li := (s.logRows f).findIdx (· == g)
        let lj := (s.logCols f).findIdx (· == h)
        let cell := s.cellAt f g h
        if decide (15 < i) || decide (15 < j) || f.stopped || decide ((s.logRows f).length ≤ li) || decide ((s.logCols f).length ≤ lj) ||
            cell.east.isSome || cell.south.isSome then s
        else match s.cellInputs f li lj g h with
        | none => s
        | some (b, n) =>
          if b.swap && !cell.full then s
          else if li = 0 ∧ lj = 0 ∧ ((b.m = 0 ∧ !s.mayEnter f b.tile) ∨ s.isSaving f.launch) then s
          else s.fire p f li lj g h b n)

/-! ## Accumulators (R251 to R256) -/

/-- The pass whose TEND row a SOUTH plot has written is done there, and gone once every column's plot has written it. -/
def Field.tendWritten (f : Field) (tile : BitVec 4) (c : Nat) : Field :=
  { f with passes := (changeFirst (fun x => x.entered && x.tile == tile && x.left.contains c) (fun x => { x with left := x.left.filter (· != c) })
      f.passes).filter (fun x => !x.left.isEmpty) }

/-- The oldest rows of a tile that every logical column has written take effect on its state word (R253). -/
def Tile.complete (t : Tile) (all : BitVec 16) : Tile × Option RowPend :=
  match t.pend with
  | [] => (t, none)
  | x :: rest =>
    if x.cols &&& all != all then (t, none)
    else
      let t1 := { t with pend := rest, prog := x.m + 1, eos := if x.m = 0 then false else t.eos }
      if x.tend then
        ({ t1 with prog := 0, cur := 0, eos := x.eos, st := if x.fin then .full else .accum,
                   draining := if x.fin && t.auto then some 0 else t.draining }, some x)
      else (t1, some x)

/-- The columns of a SOUTH plot that a pass writes. -/
def State.colMask (s : State) (f : Field) (c : Nat) : BitVec 16 := (s.localCols f c).foldl (fun m x => m ||| BitVec.twoPow 16 x.2) 0

/-- A column's row entered in the list of rows under way. -/
def Tile.noteRow (t : Tile) (n : Psum) (col : Nat) : Tile :=
  if t.pend.any (fun x => !x.cols.getLsbD col) then
    { t with pend := changeFirst (fun x => !x.cols.getLsbD col) (fun x => { x with cols := x.cols ||| BitVec.twoPow 16 col }) t.pend }
  else { t with pend := t.pend ++ [⟨n.m, n.tend, n.fin, n.eos, BitVec.twoPow 16 col⟩] }

/-- A column result written into its tile (R253, R256), and what follows when its row is complete. A tile that becomes FULL wakes every task parked
on a DRN of the plot (R66). -/
def State.accWrite (s : State) (p : Nat) (f : Field) (c col : Nat) (n : Psum) : State :=
  let u := (s.plot p).fu
  let ti := n.tile.toNat
  let t := u.tile ti
  let row := t.base + n.m
  let chain := t.st == .accum || t.pend.any (fun x => x.tend && x.cols.getLsbD col)
  let u1 := u.setAcc row col (accStep chain (u.accAt row col) n.val n.peak)
  let u2 := if n.bad && !u1.poison.contains row then { u1 with poison := u1.poison ++ [row] } else u1
  let d := (t.noteRow n col).complete (s.colMask f c)
  let s1 := s.onFu p (fun _ => u2.setTile ti d.1)
  match d.2 with
  | some x =>
    if x.tend then
      let s2 := s1.onField f.handle (fun f => f.tendWritten n.tile c)
      if x.fin then s2.wakePlot p (fun w => match w with
        | .drain _ => true
        | _ => false) else s2
    else s1
  | none => s1

/-- ACC_ROW_WRITE (R251 to R256): the result of a physical column of a SOUTH plot reaches its tile; a row outside the tile's geometry stops
the field with FIELD. -/
def execAccRowWrite (p col : Nat) (s : State) : Out :=
  .next (match s.fieldOf p with
    | none => s
    | some f =>
      match s.fieldPos f p, (s.logRows f)[f.lr - 1]? with
      | some (r, c), some g =>
        let h := 16 * c + col
        if decide (15 < col) || f.stopped || decide (r + 1 ≠ f.rows) then s
        else match (s.cellAt f g h).south with
        | none => s
        | some n =>
          let t := (s.plot p).fu.tile n.tile.toNat
          if t.rows ≤ n.m then s.fieldFault f.handle
          else if t.st == .full then s
          else (s.onCell f g h (fun x => { x with south := none })).accWrite p f c col n
      | _, _ => s)

/-- ACC_PARITY_ERROR (R256): a parity error in an accumulator element marks its array row; one in a cell marks the rows it fires into. -/
def execAccParityError (p : Nat) (w : ParityAt) (s : State) : Out :=
  .next (match w with
    | .acc row col =>
      if !s.enabled p || 511 < row || 15 < col || (s.plot p).fu.poison.contains row then s
      else s.onFu p (fun u => { u with poison := u.poison ++ [row] })
    | .cell i j =>
      if !s.enabled p || 15 < i || 15 < j then s
      else s.onFu p (fun u => { u with cells := u.cells.put (16 * i + j) { u.cell (16 * i + j) with par := true } }))

/-! ## Drain writers (R269) -/

/-- Where the drain writer of a SOUTH plot puts the value of field-wide column j of row m of tile t, granule by granule: the home, if it lies in
the window, and the first byte and number of bytes there. -/
def Agen.drainHomes (a : Agen) (t m j : Nat) : List (Option Nat × Nat × Nat) :=
  (piecesOf (a.ptr.start + a.ptr.cur.toNat + a.fld 56 40 + t * a.fld 96 24 + m * a.fld 0 32 + 4 * j) 4).map (fun x =>
    (a.home a.ptr.obj x.1, x.2))

/-- Whether a drain writer may write a piece: it has a home, and is neither full nor in a poisoned granule. -/
def State.drainable (s : State) (x : Option Nat × Nat × Nat) : Bool :=
  match x.1 with
  | some h => s.homeOk h && !inSteward h && !s.anyFull h x.2.2 && !(!isHost h && (s.sideAt h).poison)
  | none => false

/-- A word written by a drain writer (R166, R205, R269): FILL at stamp 4. Behind a host link that is down it leaves its record (R156). -/
def State.drainWord (s : State) (p : Nat) (launch : BitVec 32) (xs : List (Option Nat × Nat × Nat)) (v : BitVec 32) : State :=
  xs.foldl (fun s x => match x.1 with
    | some h => if s.hostLost h then s.lostFor p 0 launch h else s.homeWrite h (leBytes (v.toNat / 2 ^ (8 * x.2.1)) x.2.2) .fill 4
    | none => s) s

/-- A tile whose last row its drain writer has written: EMPTY (R269), and, once every SOUTH plot's is, its semaphore signalled. -/
def State.drainDone (s : State) (p : Nat) (f : Field) (t : Nat) : State :=
  let s1 := s.onFu p (fun u => u.setTile t { u.tile t with cur := (u.tile t).rows, st := .empty, draining := none, drained := true })
  let x := (s1.plot p).fu.tile t
  if !x.semen then s1
  else if (s1.southPlots f).all (fun q => ((s1.plot q).fu.tile t).drained) then
    let s2 := (s1.southPlots f).foldl (fun s q => s.onFu q (fun u => u.setTile t { u.tile t with drained := false })) s1
    s2.signal (s2.fieldPlot f f.mrow f.mcol) x.sem.toNat 1
  else s1

/-- DRAIN_WRITER_ROW (R269): the next row of a tile that the writer is emptying, word by word with FILL at stamp 4. A poisoned row, or a word
that cannot be written, is not written; it stops the field with FIELD. -/
def execDrainWriterRow (p t : Nat) (s : State) : Out :=
  .next (match s.fieldOf p with
    | none => s
    | some f =>
      match s.fieldPos f p with
      | none => s
      | some (r, c) =>
        let u := (s.plot p).fu
        let x := u.tile t
        match x.draining, f.gen r c 1 with
        | some m, some a =>
          if f.stopped then s
          else if u.poison.contains (x.base + m) then s.fieldFault f.handle
          else
            let ws := (s.localCols f c).map (fun y => (a.drainHomes t m y.1, (u.accAt (x.base + m) y.2).extractLsb' 0 32))
            let good := ws.filter (fun w => w.1.all s.drainable)
            let s1 := good.foldl (fun s w => s.drainWord p f.launch w.1 w.2) s
            if good.length ≠ ws.length then s1.fieldFault f.handle
            else
              let s2 := s1.bump p 25 1
              if m + 1 < x.rows then s2.onFu p (fun u => u.setTile t { u.tile t with draining := some (m + 1) })
              else s2.drainDone p f t
        | _, _ => s)

/-! ## Admission windows (R258) -/

/-- Both counters of every plot of a die set to their effective caps. -/
def State.admRefill (s : State) (die : Nat) : State :=
  let s1 := { s with plots := s.plots.map (fun (x : Nat × Plot) =>
    if dieOf x.1 = die then (x.1, { x.2 with fu := { x.2.fu with
      port0 := { x.2.fu.port0 with cnt := x.2.fu.port0.ecap }, port1 := { x.2.fu.port1 with cnt := x.2.fu.port1.ecap } } }) else x) }
  s1.setDie die { s1.die die with admMark := (s1.die die).cyc }

/-- ADM_WINDOW (R258): in a cycle whose number is a multiple of 1,024, once. -/
def execAdmWindow (die : Nat) (s : State) : Out :=
  .next (
    let d := s.die die
    if 83 < die || d.cyc.extractLsb' 0 10 != 0 || d.admMark == d.cyc then s else s.admRefill die)

/-! ## The field window (R163, R164, R252) -/

/-- A tile's state word as the window writes it (R252): STATE 3 stores 0, ROWS beyond the array stores 0, and PSN marks or clears. -/
def FUnit.writeTile (u : FUnit) (t : Nat) (w : BitVec 64) : FUnit :=
  if 15 < t then u
  else
    let n := fun (lo len : Nat) => (w.extractLsb' lo len).toNat
    let base := n 20 10
    let rows := if 512 < base + n 30 10 then 0 else n 30 10
    let x := { u.tile t with st := (match n 62 2 with
                               | 1 => TileSt.accum
                               | 2 => .full
                               | _ => .empty),
                             prog := n 50 10, cur := n 40 10, rows := rows, base := base, eos := w.getLsbD 8 }
    let row := base + n 10 10
    let u1 := u.setTile t x
    if w.getLsbD 9 then (if u1.poison.contains row then u1 else { u1 with poison := u1.poison ++ [row] })
    else { u1 with poison := u1.poison.filter (fun r => !(decide (base ≤ r) && decide (r < base + rows))) }

/-- An aligned word of a plot's field window (R163). R156 gives the window more offsets than R163 gives content: 0x4000 to 0xFFFF and 0x2_0080 to
0x2_0FFF read 0 (DESIGN CHOICE, log 79). -/
def Plot.fieldRead (x : Plot) (off : Nat) : BitVec 64 :=
  let u := x.fu
  if off < 0x4000 then
    let c := u.cell (off / 64)
    let i := off / 64 / 16
    let j := off / 64 % 16
    match off % 64 / 8 with
    | 0 => c.wAct.extractLsb' 0 64
    | 1 => c.wAct.extractLsb' 64 64
    | 2 => c.wLoad.extractLsb' 0 64
    | 3 => c.wLoad.extractLsb' 64 64
    | 4 => c.gLoad ++ c.gAct
    | 5 => BitVec.ofNat 64 (c.mx.toNat + (if x.rowBy.getLsbD i then 256 else 0) + (if x.colBy.getLsbD j then 512 else 0) +
        (if c.full then 1024 else 0))
    | _ => 0
  else if 0x10000 ≤ off ∧ off < 0x20000 then (u.accAt ((off - 0x10000) / 128) ((off - 0x10000) % 128 / 8)).zeroExtend 64
  else if 0x20000 ≤ off ∧ off < 0x20080 then u.tileWord ((off - 0x20000) / 8)
  else 0

/-- An aligned word written through a plot's field window; at the offsets without content it changes nothing (log 79). -/
def FUnit.windowWrite (u : FUnit) (off : Nat) (w : BitVec 64) : FUnit :=
  if off < 0x4000 then
    let k := off / 64
    let c := u.cell k
    let set := fun (c : Cell) => { u with cells := u.cells.put k c }
    match off % 64 / 8 with
    | 0 => set { c with wAct := c.wAct.extractLsb' 64 64 ++ w, par := false }
    | 1 => set { c with wAct := w ++ c.wAct.extractLsb' 0 64, par := false }
    | 2 => set { c with wLoad := c.wLoad.extractLsb' 64 64 ++ w }
    | 3 => set { c with wLoad := w ++ c.wLoad.extractLsb' 0 64 }
    | 4 => set { c with gAct := w.extractLsb' 0 32, gLoad := w.extractLsb' 32 32 }
    | 5 => set { c with mx := w.extractLsb' 0 8, full := w.getLsbD 10 }
    | _ => u
  else if 0x10000 ≤ off ∧ off < 0x20000 then u.setAcc ((off - 0x10000) / 128) ((off - 0x10000) % 128 / 8) (w.extractLsb' 0 40)
  else if 0x20000 ≤ off ∧ off < 0x20080 then u.writeTile ((off - 0x20000) / 8) w
  else u

/-- Whether the field window of a plot performs (R164): the plot belongs to no configured field. -/
def State.windowOpen (s : State) (p : Nat) : Bool := plotExists p && (s.plot p).stat != .hole && (s.fieldOf p).isNone

/-- FIELD_WINDOW_WRITE (R163, R164): an aligned 8-byte write, only while the window is open. -/
def execFieldWindowWrite (p off : Nat) (w : BitVec 64) (s : State) : Out :=
  .next (if s.windowOpen p && off % 8 == 0 then s.onFu p (fun u => u.windowWrite off w) else s)

/-- TILE_STATE_WRITE (R252, R256): a tile's state word written through the window. -/
def execTileStateWrite (p t : Nat) (w : BitVec 64) (s : State) : Out :=
  .next (if s.windowOpen p && decide (t ≤ 15) then s.onFu p (fun u => u.writeTile t w) else s)

end Sys2Proof.Machine
end

