-- ==== Sys2Proof/Machine/Window.lean ====
section
/-! DEFINITION. The register window, the field window and the cistern registers (R159 to R164, R322, R323, R329, R357, R391), as privileged
engine commands and the steward reach them. -/

namespace Sys2Proof.Machine

open Sys2Proof

/-- What a window access does: it performs, is refused, or waits. -/
inductive WinRes where
  | ok (s : State)
  | refused
  | wait
  deriving DecidableEq, Repr

/-! ## The core register window (R161) -/

/-- The bytes of a list of tags as a word. -/
def tagWord (tags : List (BitVec 6)) : BitVec 64 := BitVec.ofNat 64 (packElems 8 (tags.map (·.toNat)))

/-- A slot whose window words may be written: FREE, SAVED or SUSPENDED. -/
def TState.quiet (t : TState) : Bool := t == .free || t == .saved || t == .suspended

/-- A task as the window shows it: while its slot is live, with the BPC, the registers and the stream state of its last commit (R161, R223). -/
def Task.seen (t : Task) : Task :=
  if t.st.quiet then t
  else match t.shown with
  | some v => { t with bpc := v.bpc, regs := v.regs, strmSet := some v.strm, seqSet := some (v.seqs.extractLsb' 0 6) }
  | none => { t with strmSet := none, seqSet := none }

/-- A word of a task slot as the window reads it. DESIGN CHOICE (log 88): the slot state of a live slot is its present one, for as of the last commit a task that
has parked since would read RUNNING for good. -/
def State.slotRead (s : State) (p k off : Nat) : BitVec 64 :=
  let t := (s.task p k).seen
  if off = 0 then t.bpc.zeroExtend 64
  else if off = 8 then t.st.code.zeroExtend 64
  else if off < 0x100 then 0
  else if off < 0x300 then t.regs.getG (BitVec.ofNat 6 ((off - 0x100) / 8))
  else if off < 0x400 then (t.regs.getF (BitVec.ofNat 5 ((off - 0x300) / 8))).bits
  else if off < 0x420 then tagWord ((List.range 8).map (fun i => (t.regs.getF (BitVec.ofNat 5 (off - 0x400 + i))).tag))
  else if 0x440 ≤ off ∧ off < 0x540 then
    BitVec.ofNat 64 (leNat (((savedPtr (t.regs.getC (BitVec.ofNat 3 ((off - 0x440) / 32)))).drop ((off - 0x440) % 32)).take 8))
  else if off = 0x540 then t.strmSet.getD t.strmWord
  else if off = 0x548 then (t.seqSet.getD (BitVec.ofNat 6 t.seqOps)).zeroExtend 64
  else if 0x600 ≤ off ∧ off < 0xA00 then
    (t.regs.getV (BitVec.ofNat 4 ((off - 0x600) / 64))).lanes.extractLsb' (8 * ((off - 0x600) % 64)) 64
  else if 0xA00 ≤ off ∧ off < 0xB00 then
    tagWord ((List.range 8).map (fun l => (t.regs.getV (BitVec.ofNat 4 ((off - 0xA00) / 16))).tags.extractLsb' (6 * ((off - 0xA00) % 16 + l)) 6))
  else 0

/-- A bit vector with a field of it replaced. -/
def putField {n : Nat} (x : BitVec n) (lo w : Nat) (v : Nat) : BitVec n :=
  BitVec.ofNat n (x.toNat - (x.toNat / 2 ^ lo % 2 ^ w) * 2 ^ lo + v % 2 ^ w * 2 ^ lo)

/-- Eight f tags written from a word. -/
def Regs.setFTags (r : Regs) (i : Nat) (w : BitVec 64) : Regs :=
  (List.range 8).foldl (fun r j => match r.f[i + j]? with
    | some x => { r with f := r.f.setIfInBounds (i + j) { x with tag := w.extractLsb' (8 * j) 6 } }
    | none => r) r

/-- A word of a pointer register written in the layout of the save frame. The window is no valid source of R169, so what it has written is no valid
pointer, whatever validity bit it writes. -/
def Ptr.setWord (p : Ptr) (i : Nat) (w : BitVec 64) : Ptr :=
  match i with
  | 0 => { p with cap := p.cap.extractLsb' 64 64 ++ w, valid := false }
  | 1 => { p with cap := w ++ p.cap.extractLsb' 0 64, valid := false }
  | 2 => { p with cur := w.extractLsb' 0 40, valid := false }
  | _ => p

/-- The registers of a task with a window word written. -/
def Regs.windowWrite (r : Regs) (off : Nat) (w : BitVec 64) : Regs :=
  if 0x100 ≤ off ∧ off < 0x300 then { r with g := r.g.setIfInBounds ((off - 0x100) / 8) w }
  else if 0x300 ≤ off ∧ off < 0x400 then
    (let i := BitVec.ofNat 5 ((off - 0x300) / 8)
     { r with f := r.f.setIfInBounds i.toNat { r.getF i with bits := w } })
  else if 0x400 ≤ off ∧ off < 0x420 then r.setFTags (off - 0x400) w
  else if 0x440 ≤ off ∧ off < 0x540 then
    (let i := BitVec.ofNat 3 ((off - 0x440) / 32)
     { r with c := r.c.setIfInBounds i.toNat ((r.getC i).setWord ((off - 0x440) % 32 / 8) w) })
  else if 0x600 ≤ off ∧ off < 0xA00 then
    (let i := BitVec.ofNat 4 ((off - 0x600) / 64)
     { r with v := r.v.setIfInBounds i.toNat { r.getV i with lanes := putField (r.getV i).lanes (8 * ((off - 0x600) % 64)) 64 w.toNat } })
  else if 0xA00 ≤ off ∧ off < 0xB00 then
    (let i := BitVec.ofNat 4 ((off - 0xA00) / 16)
     let tags := (List.range 8).foldl (fun x j => putField x (6 * ((off - 0xA00) % 16 + j)) 6 (w.extractLsb' (8 * j) 6).toNat) (r.getV i).tags
     { r with v := r.v.setIfInBounds i.toNat { r.getV i with tags := tags } })
  else r

/-- A system register of a task slot as the window reads it: while the slot is live, that of its last commit (R161). -/
def State.slotSys (s : State) (p k n : Nat) : BitVec 64 :=
  match if (s.task p k).st.quiet || 0x10 < n then none else (s.task p k).shown with
  | some v => v.sys.getD n 0
  | none => s.sysRead p k n

/-- A slot that the window makes FREE: its words stay as they are, and nothing of its task goes on. -/
def Task.freed (t : Task) : Task :=
  { t with st := .free, uid := 0, ops := [], handles := [], wait := .none, pend := 0, pendInfo := [], engQ := [], leaving := .no, rwait := [],
           rheld := none, halting := false, heldWrites := [], hostOps := [], saveTo := none, frameAt := none, refault := none, woken := false, shown := none }

/-- A slot state written through the window. RUNNING is taken as READY, from which alone a block is mapped, and a state 6 or 7, which no slot has,
is ignored (log 24). -/
def State.slotState (s : State) (p k : Nat) (w : BitVec 64) : State :=
  let live := fun (s : State) => s.onTask p k (fun t => { t with shown := none, strmSet := none, seqSet := none })
  match (w.extractLsb' 0 3).toNat with
  | 0 => (s.leaveHost p k).vacate p k (s.task p k).freed
  | 1 => (live s).ready p k
  | 2 => (live s).ready p k
  | 3 => (live s).onTask p k (fun t => { t with st := .wait })
  | 4 => s.onTask p k (fun t => { t with st := .saved })
  | 5 => s.onTask p k (fun t => { t with st := .suspended })
  | _ => s

/-- An aligned word of a plot's core register window. -/
def State.coreRead (s : State) (p off : Nat) : BitVec 64 :=
  if off < 0x10000 then s.slotRead p (off / 0x1000) (off % 0x1000)
  else if off < 0x11000 then s.slotSys p ((off - 0x10000) / 0x100) ((off - 0x10000) % 0x100 / 8)
  else if off < 0x11018 then s.sysRead p 0 (0x100 + (off - 0x11000) / 8)
  else if 0x12000 ≤ off ∧ off < 0x12800 then ((s.plot p).sem ((off - 0x12000) / 8)).zeroExtend 64
  else if 0x13000 ≤ off ∧ off < 0x13200 then (if off < 0x13180 then (s.plot p).counter (s.cycOf p) ((off - 0x13000) / 8) else 0)
  else 0

/-- An aligned word written through a plot's core register window; refused while the slot it concerns is READY, RUNNING or WAIT. An unassigned
system register ignores it. -/
def State.coreWrite8 (s : State) (p off : Nat) (w : BitVec 64) : WinRes :=
  if off < 0x10000 then
    let k := off / 0x1000
    let o := off % 0x1000
    if !(s.task p k).st.quiet then .refused
    else if o = 0 then .ok (s.onTask p k (fun t => { t with bpc := w.extractLsb' 0 40, far := false }))
    else if o = 8 then .ok (s.slotState p k w)
    else if o = 0x540 then .ok (s.onTask p k (fun t => { t with strmSet := some (w &&& ones 48) }))
    else if o = 0x548 then .ok (s.onTask p k (fun t => { t with seqSet := some (w.extractLsb' 0 6) }))
    else .ok (s.onTask p k (fun t => { t with regs := t.regs.windowWrite o w }))
  else if off < 0x11000 then
    let k := (off - 0x10000) / 0x100
    if 0x10 < (off - 0x10000) % 0x100 / 8 then .ok s
    else if !(s.task p k).st.quiet then .refused
    else .ok (s.onTask p k (fun t => t.wrs ((off - 0x10000) % 0x100 / 8) w))
  else if off < 0x11018 then .ok (if off = 0x11000 then s else s.wrs p 0 (0x100 + (off - 0x11000) / 8) w)
  else if 0x12000 ≤ off ∧ off < 0x12800 then .ok (s.setSem p ((off - 0x12000) / 8) (w.extractLsb' 0 16))
  else if 0x13000 ≤ off ∧ off < 0x13180 then .ok (s.onPlot p (fun x => x.setCounter (s.cycOf p) ((off - 0x13000) / 8) w))
  else .ok s

/-! ## The cistern registers -/

/-- The words of a buffer-directory entry (R322). DESIGN CHOICE (log 71): word 0x10 reads back all 40 bits of OFF, where the table also calls its
bits [63:24] zero. -/
def Buf.word (b : Buf) (i : Nat) : BitVec 64 :=
  match i with
  | 0 => b.name
  | 1 => BitVec.ofNat 64 (b.launch.toNat * 2 ^ 32 + b.obj.toNat)
  | 2 => b.off.zeroExtend 64
  | _ => BitVec.ofNat 64 (b.size.toNat * 2 % 2 ^ 41 + (if b.valid then 1 else 0))

/-- The words of a barrier group (R391). -/
def Bar.word (b : Bar) (i : Nat) : BitVec 64 :=
  if i = 0 then BitVec.ofNat 64 (b.gen.toNat * 2 ^ 48 + b.arr.toNat * 2 ^ 32 + b.count.toNat * 2 ^ 16)
  else BitVec.ofNat 64 ((if b.arr != 0 then 2 ^ 32 else 0) + b.owner.toNat)

/-- An aligned word of a die's cistern registers. -/
def State.cisternRead (s : State) (die off : Nat) : BitVec 64 :=
  let d := s.die die
  if off = 0 then (BitVec.ofBool d.wstale).zeroExtend 64
  else if off = 0x08 then s.mod.modId.zeroExtend 64
  else if off = 0x10 then s.mod.otroot.zeroExtend 64
  else if off = 0x18 then BitVec.ofNat 64 (d.lovf.toNat * 2 ^ 16 + d.locked)
  else if off = 0x20 then d.cecnt.zeroExtend 64
  else if 0x10000 ≤ off ∧ off < 0x10800 then (s.bufs.getD ((off - 0x10000) / 32) {}).word ((off - 0x10000) % 32 / 8)
  else if 0x20000 ≤ off ∧ off < 0x28000 then s.mod.groups.get (off - 0x20000) 0
  else if 0x33600 ≤ off ∧ off < 0x33700 then (s.bar stewardDie (off / 16 * 16)).word (off % 16 / 8)
  else if 0x30000 ≤ off ∧ off < 0x33600 then (s.bar die (off / 16 * 16)).word (off % 16 / 8)
  else if 0x40000 ≤ off ∧ off < 0x40200 then (s.mod.ports.get ((off - 0x40000) / 8) 0).zeroExtend 64
  else if off = 0x40200 then s.mod.link.zeroExtend 64
  else 0

/-- Whether a word of the group table may be written, and the bits it keeps (R323). -/
def groupMask (o : Nat) : Option (BitVec 64) :=
  if o = 0 then some 0x3F7F else if o ≤ 0x40 then some 0x3F3F3F3F3F3F3F3F else none

/-- OTROOT written (R357): every copy at once, and then as OTC.INVA, once every access translated through a removed entry has performed. -/
def State.writeOtroot (s : State) (w : BitVec 64) : WinRes :=
  if s.pendingOn (fun _ => true) then .wait
  else .ok ((s.onMod (fun m => { m with otroot := w.extractLsb' 11 45 ++ (0 : BitVec 11) })).otcRemove (fun _ => true) (fun _ => true))

/-- An aligned word written to a die's cistern registers. -/
def State.cisternWrite (s : State) (die off : Nat) (w : BitVec 64) : WinRes :=
  if off = 0x08 then .ok (s.onMod (fun m => { m with modId := w.extractLsb' 0 6 }))
  else if off = 0x10 then s.writeOtroot w
  else if off = 0x18 then .ok (s.setDie die { s.die die with lovf := w.extractLsb' 16 16 })
  else if off = 0x20 then .ok (s.setDie die { s.die die with cecnt := w.extractLsb' 0 32 })
  else if 0x20000 ≤ off ∧ off < 0x28000 then
    (match groupMask ((off - 0x20000) % 128) with
    | some m => .ok (s.onMod (fun x => { x with groups := x.groups.put (off - 0x20000) (w &&& m) }))
    | none => .ok s)
  else if 0x40000 ≤ off ∧ off < 0x40200 then .ok (s.onMod (fun m => { m with ports := m.ports.put ((off - 0x40000) / 8) (w.extractLsb' 0 48) }))
  else .ok s

/-! ## Windows by address (R156, R159) -/

/-- Whether an address lies in spaces 0x02 to 0x04. -/
def isWindow (a : Nat) : Bool := 2 ≤ spaceOf a && spaceOf a ≤ 4

/-- Whether a window address names something (R156). -/
def State.windowOk (s : State) (a : Nat) : Bool :=
  plotExists (plotOfAddr a) && (s.plot (plotOfAddr a)).stat != .hole &&
  ((spaceOf a == 2 && decide (offOfAddr a < 0x13200)) || (spaceOf a == 3 && decide (offOfAddr a < 0x21000)) ||
   (spaceOf a == 4 && decide (offOfAddr a < 0x100000)))

/-- An aligned word read through a window; none where R164 refuses it. -/
def State.winRead (s : State) (a : Nat) : Option (BitVec 64) :=
  let p := plotOfAddr a
  match spaceOf a with
  | 2 => some (s.coreRead p (offOfAddr a))
  | 3 => if s.windowOpen p then some ((s.plot p).fieldRead (offOfAddr a)) else none
  | _ => some (s.cisternRead (dieOf p) (offOfAddr a))

/-- An aligned word written through a window. -/
def State.winWrite (s : State) (a : Nat) (w : BitVec 64) : WinRes :=
  let p := plotOfAddr a
  match spaceOf a with
  | 2 => s.coreWrite8 p (offOfAddr a) w
  | 3 => if s.windowOpen p then .ok (s.onFu p (fun u => u.windowWrite (offOfAddr a) w)) else .refused
  | _ => s.cisternWrite (dieOf p) (offOfAddr a) w

/-- The state a window access leaves when it performs. -/
def WinRes.orElse (r : WinRes) (s : State) : State :=
  match r with
  | .ok t => t
  | _ => s

/-- CORE_WINDOW_WRITE (R160, R161): an aligned 8-byte write. -/
def execCoreWindowWrite (p off : Nat) (w : BitVec 64) (s : State) : Out :=
  .next (if plotExists p && (s.plot p).stat != .hole && off % 8 == 0 && decide (off < 0x13200) then (s.coreWrite8 p off w).orElse s else s)

/-- OTROOT_WRITE (R357). -/
def execOtrootWrite (die : Nat) (w : BitVec 64) (s : State) : Out :=
  .next (if die ≤ 83 then (s.writeOtroot w).orElse s else s)

/-- AQUEDUCT_ROUTE_WRITE (R329): entry m of the routing table, in every cistern. -/
def execAqueductRouteWrite (m : Nat) (w : BitVec 64) (s : State) : Out :=
  .next (if m ≤ 63 then (s.cisternWrite 0 (0x40000 + 8 * m) w).orElse s else s)

end Sys2Proof.Machine
end

