-- ==== Sys2Proof/Machine/EngineRun.lean ====
section
/-! DEFINITION. The cistern's engines at work (R204, R310 to R330): how a command starts, reads, writes, pauses and ends, the events of XCPY,
XCHN, XRED, XCOL and XREG, and the aqueduct. An event whose condition does not hold leaves the state as it is. -/

namespace Sys2Proof.Machine

open Sys2Proof

/-! ## Commands -/

/-- An outstanding command by its serial. -/
def State.cmd? (s : State) (serial : Nat) : Option Cmd := s.cmds.find? (fun c => c.serial == serial)

/-- A command changed by a function. -/
def State.onCmd (s : State) (serial : Nat) (f : Cmd → Cmd) : State :=
  { s with cmds := s.cmds.map (fun c => if c.serial == serial then f c else c) }

/-- The scope of a command. -/
def Cmd.scope (c : Cmd) : Scope :=
  match c.act.mx with
  | some m => m.scope
  | none => .wafer

/-- The die whose cistern runs a command (R222). -/
def Cmd.die (c : Cmd) : Nat := (c.handle.extractLsb' 48 8).toNat

/-- The semaphore word of a command (R311): operand C, or SEMS of the index-list header. -/
def Cmd.semWord (c : Cmd) : BitVec 64 :=
  match c.act.kind with
  | .xcpy _ w => w
  | .xchn w => w
  | .xcol _ _ w => w
  | .xred .. => BitVec.ofNat 64 (leNat ((c.record.drop 8).take 8))
  | _ => 0

/-- LEN of a command word. -/
def Cmd.len (c : Cmd) : Nat := (c.semWord.extractLsb' 0 28).toNat

/-- A collective. -/
def CKind.isXcol : CKind → Bool
  | .xcol .. => true
  | _ => false

/-- The plot whose core holds a command's semaphores (R311): the holder of the name that issued it. -/
def State.semPlot (s : State) (c : Cmd) : Nat := (s.resolve c.name).getD c.plot

/-- Engines work while neither the thermal trip nor the security alarm stops them and the clocks run (R407, R408, R411). -/
def State.engines (s : State) : Bool := !s.mod.trip && !s.mod.seca && decide (s.mod.pscur.toNat ≤ 2)

/-- Whether an operation with a serial is still outstanding, in a task, an engine, a feeder or a loader: for what is of scope host (`host`) also one
whose writes the host agent has only accepted (R193, R194). -/
def State.outstanding (s : State) (serial : Nat) (host : Bool) : Bool :=
  s.cmds.any (fun c => c.serial == serial && (host || !c.allMade)) ||
  s.plots.any (fun x => slotIdx.any (fun k => (x.2.task k).ops.any (fun o => o.serial == serial && (host || !o.accepted)) ||
      (host && (x.2.task k).hostOps.any (fun y => y.1 == serial))) ||
    x.2.fu.feeds.any (fun f => f.serial == serial) || x.2.fu.wlds.any (fun f => f.serial == serial))

/-! ## The end of a command (R312, R314) -/

/-- The slot whose task holds a command's handle. -/
def State.handleSlot (s : State) (serial : Nat) : Option (Nat × Nat) :=
  s.plots.findSome? (fun x => (slotIdx.find? (fun k => (x.2.task k).st != .free && (x.2.task k).handles.any (fun h => h.1 == serial))).map
    (fun k => (x.1, k)))

/-- The place of a command's handle among the first 24 of a list. -/
def handleIdx (hs : List (Nat × BitVec 64)) (serial : Nat) : Nat := hs.findIdx (fun h => h.1 == serial)

/-- The handle of a command marked as failed. -/
def markErr (hs : List (Nat × BitVec 64)) (serial : Nat) : List (Nat × BitVec 64) :=
  hs.map (fun h => if h.1 == serial then (h.1, h.2 ||| BitVec.twoPow 64 56) else h)

/-- The plot and slot of the task that holds the stream unit of a command. -/
def State.unitSlot (s : State) (serial : Nat) : Option (Nat × Nat) :=
  s.plots.findSome? (fun x => (slotIdx.find? (fun k => (x.2.task k).ops.any (fun o => o.serial == serial))).map (fun k => (x.1, k)))

/-- A command that ends while host agents have only accepted its writes: at scope host it has not performed for what follows it (R193, R194), nor for
the end of its launch (R341). -/
def State.cmdAccepted (s : State) (serial : Nat) : State :=
  match s.cmd? serial with
  | none => s
  | some c => match c.act.mx with
    | none => s
    | some m =>
      if !(c.toHost && (m.scope != .host || c.hostWait)) then s
      else match s.unitSlot serial with
      | some (p, k) => s.onTask p k (fun t => { t with hostOps := t.hostOps ++ [(serial, m.stream)] })
      | none => s.onLaunch c.launch (fun l => { l with hostLeft := l.hostLeft ++ [(c.plot, 0, serial)] })

/-- The unit of a command's stream returns (R211, R314). -/
def State.returnUnit (s : State) (serial : Nat) : State :=
  match s.unitSlot serial with
  | none => s
  | some (p, k) => match s.opOf p k serial with
    | some o => s.finishOp p k o none
    | none => s

/-- The signal of a command (R312). -/
def State.cmdSignal (s : State) (c : Cmd) : State :=
  let w := c.semWord
  if w.extractLsb' 28 8 = 0 then s else s.signal (s.semPlot c) (w.extractLsb' 36 8).toNat (w.extractLsb' 28 8).toNat

/-- The ERR bit of a failed command's handle set (R222, R314), in its task's slot, or in the frame of a task that is saved, where ENGINE
becomes pending with it (R227). -/
def State.errBit (s : State) (c : Cmd) : State :=
  match s.handleSlot c.serial with
  | some (p, k) =>
    let t := s.task p k
    let s1 := s.setTask p k { t with handles := markErr t.handles c.serial }
    if t.st == .saved then
      (match t.frameAt with
      | some (dst, q) => s1.frameError (dieOf p) t.launch dst q (handleIdx t.handles c.serial)
      | none => s1)
    else s1
  | none =>
    match s.faulted.find? (fun x => x.handles.any (fun h => h.1 == c.serial)) with
    | none => s
    | some x =>
      let s1 := { s with faulted := s.faulted.map (fun (y : Faulted) => if y.uid == x.uid then { y with handles := markErr y.handles c.serial } else y) }
      match s1.saveFrameAt x.launch x.p x.k with
      | some (dst, q) => s1.frameError c.die x.launch dst q (handleIdx x.handles c.serial)
      | none => s1

/-- ENGINE pending in the task of a failed command, with its code (R219, R221, R314); a task that has ended has only the record. -/
def State.taskError (s : State) (c : Cmd) (code : Nat) : State :=
  match s.handleSlot c.serial with
  | some (p, k) =>
    let t := s.task p k
    if t.st == .saved || t.leaving == .ended then s
    else (s.onTask p k (fun t => { t with engQ := t.engQ ++ [(c.handle ||| BitVec.twoPow 64 56, BitVec.ofNat 8 code)] })).pendCause p k .engine 0
  | none => s

/-- Whether the task that issued a command has ended. -/
def State.cmdTaskEnded (s : State) (c : Cmd) : Bool :=
  match s.handleSlot c.serial with
  | some (p, k) => (s.task p k).leaving == .ended
  | none => !s.faulted.any (fun x => x.handles.any (fun h => h.1 == c.serial))

/-- The handle of a command that has performed leaves the lists that hold it (R222). -/
def State.dropHandle (s : State) (serial : Nat) : State :=
  match s.handleSlot serial with
  | some (p, k) => s.onTask p k (fun t => { t with handles := t.handles.filter (fun h => h.1 != serial) })
  | none => { s with faulted := s.faulted.map (fun y => { y with handles := y.handles.filter (fun h => h.1 != serial) }) }

/-- A command out of the cistern; what had arrived for its collective goes with it. -/
def State.removeCmd (s : State) (c : Cmd) : State :=
  let s1 := { s with cmds := s.cmds.filter (fun x => x.serial != c.serial) }
  match c.act.kind with
  | .xcol _ name _ => s1.onMod (fun m => { m with inbox := m.inbox.filter (fun b => match b with
      | .contrib n k .. => !(n == name && k == c.k)
      | .stop n k .. => !(n == name && k == c.k)
      | .delivered n k => !(n == name && k == c.k)
      | _ => true) })
  | _ => s1

/-- A command that has performed (R312). -/
def State.cmdDone (s : State) (c : Cmd) : State :=
  (((((s.cmdAccepted c.serial).removeCmd c).dropHandle c.serial).cmdSignal c).returnUnit c.serial)

/-- Pieces that a command has written to host memory: of scope host they have performed only when the host agent reports them complete, which is
a later event (R194, R204). -/
def State.noteHost (s : State) (c : Cmd) (hostPiece : Bool) : State :=
  if hostPiece then s.onCmd c.serial (fun x => { x with toHost := true, hostWait := c.scope == .host }) else s

/-- The operation of a command in its task, of which only the host agent's report is outstanding. -/
def State.unitMade (s : State) (serial : Nat) : State :=
  match s.unitSlot serial with
  | some (p, k) => s.onOp p k serial (fun o => { o with made := true })
  | none => s

/-- A command whose reads and writes are all made: it has performed, unless the host agent has still to report its last writes (R204). -/
def State.cmdEnd (s : State) (c : Cmd) : State :=
  if ((s.cmd? c.serial).map (·.hostWait)).getD false then (s.onCmd c.serial (fun x => { x with allMade := true })).unitMade c.serial else s.cmdDone c

/-- The host agent reports the writes of a command complete (R194). -/
def State.hostReport (s : State) (c : Cmd) : State :=
  let s1 := s.onCmd c.serial (fun x => { x with hostWait := false })
  if c.allMade then s1.cmdDone c else s1

/-- A command that stops with an error (R314): the ERR bit, the record, the signal, ENGINE pending, and its unit back, in that order. -/
def State.cmdStop (s : State) (c : Cmd) (code : Nat) : State :=
  let slot := match s.handleSlot c.serial with
    | some (_, k) => k
    | none => 0
  let s0 := ((s.cmdAccepted c.serial).removeCmd c).onMod (fun m => { m with engCodes := m.engCodes.put c.handle.toNat (BitVec.ofNat 8 code) })
  let s1 := s0.errBit c
  let s2 := s1.postErr 0x04 c.plot slot c.launch c.bpc { cause := .engine, slot := c.slot } (s.cmdTaskEnded c) (c.handle ||| BitVec.twoPow 64 56)
  ((s2.cmdSignal c).taskError c code).returnUnit c.serial

/-- A command paused at a page (R317): one page-fault record, with its handle. -/
def State.cmdPause (s : State) (c : Cmd) (ob : BitVec 24) (off : BitVec 40) (n : Bool) : State :=
  let slot := match s.handleSlot c.serial with
    | some (_, k) => k
    | none => 0
  (s.onCmd c.serial (fun x => { x with paused := some (ob, off) })).postErr 0x02 c.plot slot c.launch c.bpc
    { cause := .page, slot := c.slot, obj := ob, off := off, nested := n } false c.handle

/-! ## Engine access -/

/-- Where a byte of an engine's pointer lies. -/
inductive ETr where
  | home (a : Nat)
  | win (a : Nat)
  | remote (a : Nat)
  | stop (code : Nat)
  | page (obj : BitVec 24) (off : BitVec 40) (nested : Bool)
  | wait
  deriving DecidableEq, Repr

/-- The module a remote address names (R157). -/
def remoteModule (a : Nat) : Nat := a / 2 ^ 26 % 64

/-- Whether a live port leads toward a module (R329). -/
def State.reaches (s : State) (m : Nat) : Bool := m ≠ s.mod.modId.toNat && s.mod.ports.get m 0 &&& s.mod.link != 0

/-- Where a physical address leads an engine (R155 to R159, R330); the steward's range is reached by none (R371). -/
def State.engPhys (s : State) (a : Nat) : ETr :=
  if 2 ^ 56 ≤ a then .stop 0x01
  else if isWindow a then (if s.windowOk a then .win a else .stop 0x01)
  else if 0x10 ≤ spaceOf a ∧ spaceOf a ≤ 0x12 then
    (if !s.mod.featack.getLsbD 5 || (spaceOf a == 0x10 && decide (0x400000 ≤ a % 2 ^ 26)) || !plotExists (plotOfAddr a) then .stop 0x01
     else if !s.reaches (remoteModule a) then .stop 0x0A else .remote a)
  else if !s.homeOk a || inSteward a then .stop 0x01
  else if isHost a && !s.hostUp a then .stop 0x0B
  else .home a

/-- Where a position of an engine's pointer leads. -/
def State.engTr (s : State) (die : Nat) (p : Ptr) (q : Nat) : ETr :=
  if p.isPhys then s.engPhys q
  else match s.translate die p.obj q with
  | .home a => if isHost a && !s.hostUp a then .stop 0x0B else .home a
  | .absent => .stop 0x01
  | .page o f n => .page o f n
  | .wait => .wait

/-- The space in which a physical capability's view begins, of which no access may leave the OFFSET extent (R172): of host memory, 48 bits. -/
def Ptr.leavesHost (p : Ptr) (q : Nat) : Bool := p.isPhys && isHost p.start && decide (p.start / 2 ^ 48 ≠ q / 2 ^ 48)

/-- Bytes of an engine's access: where, index, length. -/
abbrev EPiece := ETr × Nat × Nat

/-- The pieces of n bytes at a position, with what each leads to. Windows take aligned 8-byte words only (R159). -/
def State.engPieces (s : State) (die : Nat) (p : Ptr) (q n : Nat) : List EPiece :=
  (piecesOf q n).map (fun x =>
    let t := if p.leavesHost x.1 then .stop 0x01 else s.engTr die p x.1
    (match t with
     | .win _ => if q % 8 = 0 ∧ n % 8 = 0 then t else .stop 0x0C
     | _ => t, x.2.1, x.2.2))

/-- The pieces of an access that no remote module answers: only copy engines and the collective engine issue remote addresses (R157). To XRED
such an address names nothing: DESIGN CHOICE (log 12). -/
def State.nearPieces (s : State) (die : Nat) (p : Ptr) (q n : Nat) : List EPiece :=
  (s.engPieces die p q n).map (fun x => match x.1 with
    | .remote _ => (.stop 0x01, x.2.1, x.2.2)
    | _ => x)

/-- A difficulty among pieces: an error before a pause before a wait, as R316 lists them. -/
def engTrouble (ps : List EPiece) : Option ETr :=
  match ps.find? (fun x => match x.1 with
    | .stop _ => true
    | _ => false) with
  | some x => some x.1
  | none => match ps.find? (fun x => match x.1 with
    | .page .. => true
    | _ => false) with
    | some x => some x.1
    | none => if ps.any (fun x => x.1 == .wait) then some .wait else none

/-- What an engine's reading gives: the bytes, or an error. -/
inductive ERd where
  | ok (s : State) (bs : List Byte)
  | stop (code : Nat)
  deriving DecidableEq, Repr

/-- n free bytes of a remote module's memory (log 12). -/
def remoteBytes (free : Nat) : Nat → List Byte
  | 0 => []
  | n + 1 => Config.remoteByte free :: remoteBytes (free + 1) n

/-- The error code of a remote module's answer (R316, R329, R330): a read or a write; a write of part of a granule. -/
def remoteErr (report : BitVec 3) (write part : Bool) : Option Nat :=
  match report.toNat with
  | 1 => some 0x01
  | 2 => if write then some 0x03 else none
  | 3 => if !write || part then some 0x02 else none
  | 4 => some 0x0A
  | _ => none

/-- One piece read (R168, R316). -/
def State.engReadPiece (s : State) (x : EPiece) : ERd :=
  match x.1 with
  | .home a => if !isHost a && (s.sideAt a).poison then .stop 0x02 else .ok s (s.rdBytes a x.2.2)
  | .win a =>
    (List.range (x.2.2 / 8)).foldl (fun acc i => match acc with
      | .ok s bs => (match s.winRead (a + 8 * i) with
        | some w => .ok s (bs ++ leBytes w.toNat 8)
        | none => .stop 0x0C)
      | e => e) (.ok s [])
  | .remote _ =>
    match remoteErr (Config.remoteReport s.free) false false with
    | some e => .stop e
    | none => .ok { s with free := s.free + 1 + x.2.2 } (remoteBytes (s.free + 1) x.2.2)
  | _ => .stop 0x01

/-- All pieces read, in ascending order. -/
def State.engRead (s : State) (ps : List EPiece) : ERd :=
  ps.foldl (fun acc x => match acc with
    | .ok s bs => (match s.engReadPiece x with
      | .ok s2 b2 => .ok s2 (bs ++ b2)
      | e => e)
    | e => e) (.ok s [])

/-- What an engine's writing does; a stop says which pieces had performed. -/
inductive EWr where
  | ok (s : State)
  | stop (s : State) (code : Nat) (done : List EPiece)
  | wait
  deriving DecidableEq, Repr

/-- The words of a window piece written. -/
def State.winPut (s : State) (a : Nat) (bs : List Byte) : WinRes :=
  (List.range (bs.length / 8)).foldl (fun acc i => match acc with
    | .ok s => s.winWrite (a + 8 * i) (BitVec.ofNat 64 (leNat ((bs.drop (8 * i)).take 8)))
    | e => e) (.ok s)

/-- The error that writing a piece would meet: a full word with FILL, poison under a part, the steward's range, a refused window (R168, R316). -/
def State.engWriteErr (s : State) (mode : StMode) (x : EPiece) (bs : List Byte) (free : Nat) : Option Nat :=
  match x.1 with
  | .home a =>
    if inSteward a then some 0x01
    else if isHost a then none
    else if (s.sideAt a).poison && x.2.2 != 32 then some 0x02
    else if mode == .fill && s.anyFull a x.2.2 then some 0x03 else none
  | .win a => (match s.winPut a bs with
    | .refused => some 0x0C
    | _ => none)
  | .remote _ => remoteErr (Config.remoteReport free) true (x.2.2 != 32)
  | .stop c => some c
  | _ => some 0x01

/-- One piece written. -/
def State.engWritePiece (s : State) (mode : StMode) (stamp : BitVec 3) (x : EPiece) (bs : List Byte) : State :=
  match x.1 with
  | .home a => s.homeWrite a bs mode stamp
  | .win a => (s.winPut a bs).orElse s
  | _ => s

/-- The pieces of a chunk written, unordered (R316). When one cannot be, the lowest such piece gives the error, and which of the others had
performed is free (log 14). -/
def State.engWrite (s : State) (mode : StMode) (stamp : BitVec 3) (ps : List EPiece) (bs : List Byte) : EWr :=
  let ws := (List.range ps.length).filterMap (fun i => (ps[i]?).map (fun x => (i, x, (bs.drop x.2.1).take x.2.2)))
  let bad := ws.findSome? (fun w => s.engWriteErr mode w.2.1 w.2.2 (s.free + w.1))
  let waits := ws.any (fun w => match w.2.1.1 with
    | .win a => s.winPut a w.2.2 == .wait
    | _ => false)
  if waits then .wait
  else
    let s1 := { s with free := s.free + ps.length }
    match bad with
    | none => .ok (ws.foldl (fun s w => s.engWritePiece mode stamp w.2.1 w.2.2) s1)
    | some code =>
      let part := ws.filter (fun w => (s.engWriteErr mode w.2.1 w.2.2 (s.free + w.1)).isNone && Config.partialWrite (s.free + w.1))
      .stop (part.foldl (fun s w => s.engWritePiece mode stamp w.2.1 w.2.2) s1) code (part.map (fun w => w.2.1))

/-- What a writing has done after the pieces `ds` had performed. -/
def EWr.after (w : EWr) (ds : List EPiece) : EWr :=
  match w with
  | .stop s e d => .stop s e (ds ++ d)
  | x => x

/-- SY.SMISS set for the task of a slot, in its frame if it is saved (R200, R224). -/
def State.slotMiss (s : State) (p k : Nat) : State :=
  let t := s.task p k
  match (if t.st == .saved then t.frameAt else none) with
  | some (dst, q) => (s.bump p 29 1).patchFrame (dieOf p) t.launch dst (q + 0xB30) (fun w => w ||| 1)
  | none => s.opMiss p k true

/-- The home distance of a destination of an engine (R198): a cistern register is a cistern-held destination, the window of a plot stands on that
plot (log 76), and memory of another module is no home on this wafer. -/
def ETr.dist (k : Nat) : ETr → Nat
  | .home a => homeDist k a
  | .win a => if spaceOf a = 4 then 4 else homeDist k a
  | _ => 0

/-- Whether a piece lies in host memory. -/
def ETr.toHost : ETr → Bool
  | .home a => isHost a
  | _ => false

/-- The writer-side check of a command's writes, with the plot that holds the issuing task's name (R198, R200, R204). -/
def State.cmdMiss (s : State) (c : Cmd) (ps : List EPiece) : State :=
  if ps.any (fun x => decide (scopeNum c.scope < x.1.dist (s.semPlot c))) then
    (match s.handleSlot c.serial with
    | some (p, k) => s.slotMiss p k
    | none => s)
  else s

/-- The stamp of a command's writes: its scope; a collective's, 5. -/
def Cmd.stamp (c : Cmd) : BitVec 3 := if c.act.kind.isXcol then 5 else c.scope.code

/-- One chunk of a command: every source read, then every destination word written; it pauses, waits, stops, or goes on by `next`. `conv`
makes the destination bytes. R204 and R316 leave the reads of a chunk unordered among themselves, and its writes too: the model makes all of them
at one instant (DESIGN CHOICE, log 76). -/
def State.chunkStep (s : State) (c : Cmd) (src : Ptr) (sq sn : Nat) (dst : Ptr) (dq dn : Nat) (mode : StMode) (conv : List Byte → List Byte)
    (next : State → State) : State :=
  let a := s.engPieces c.die src sq sn
  let b := s.engPieces c.die dst dq dn
  match engTrouble (a ++ b) with
  | some (.stop e) => s.cmdStop c e
  | some (.page o f n) => s.cmdPause c o f n
  | some _ => s
  | none =>
    match s.engRead a with
    | .stop e => s.cmdStop c e
    | .ok s1 bs =>
      match s1.engWrite mode c.stamp b (conv bs) with
      | .wait => s
      | .stop s2 e done => ((s2.cmdMiss c done).noteHost c (done.any (fun x => x.1.toHost))).cmdStop c e
      | .ok s2 => next ((s2.cmdMiss c b).noteHost c (b.any (fun x => x.1.toHost)))

/-! ## Transfer records (R318, R319) -/

/-- A word of the record in hand. -/
def Cmd.rword (c : Cmd) (off : Nat) : BitVec 64 := BitVec.ofNat 64 (leNat ((c.record.drop off).take 8))

/-- The pointer of a record's granule i; its TAG follows the record's bytes. -/
def Cmd.rptr (c : Cmd) (i : Nat) : Ptr := ptrOfBytes ((c.record.drop (32 * i)).take 32) (c.record.getD (128 + i) 0 != 0)

/-- ROWS. -/
def Cmd.rows (c : Cmd) : Nat := ((c.rword 0x60).extractLsb' 32 32).toNat
/-- ROWLEN. -/
def Cmd.rowLen (c : Cmd) : Nat := ((c.rword 0x60).extractLsb' 0 32).toNat
/-- DSTR. -/
def Cmd.dstr (c : Cmd) : Nat := ((c.rword 0x68).extractLsb' 32 32).toNat
/-- SSTR. -/
def Cmd.sstr (c : Cmd) : Nat := ((c.rword 0x68).extractLsb' 0 32).toNat
/-- CONV. -/
def Cmd.conv (c : Cmd) : Nat := ((c.rword 0x70).extractLsb' 1 2).toNat
/-- FILL. -/
def Cmd.fill (c : Cmd) : Bool := (c.rword 0x70).getLsbD 0
/-- The destination row length. -/
def Cmd.destLen (c : Cmd) : Nat := if c.conv = 1 then c.rowLen / 2 else if c.conv = 2 then 2 * c.rowLen else c.rowLen

/-- Whether a pointer read from memory may be used, with rights, over n bytes from its cursor. -/
def memPtrOk (priv : Bool) (p : Ptr) (n : Nat) (need : BitVec 8) : Bool :=
  p.usable && (priv || !p.isPhys) && need &&& ~~~p.rights == 0 && decide (p.cur.toNat + n ≤ p.viewLen)

/-- Every field of a record is as R318 asks. -/
def Cmd.recordOk (c : Cmd) : Bool :=
  let src := c.rptr 0
  let dst := c.rptr 1
  c.rows != 0 && c.conv != 3 && (c.rword 0x70).extractLsb' 3 60 == 0 && c.rword 0x78 == 0 &&
  c.rowLen % (if c.conv = 1 then 8 else 4) == 0 && c.sstr % 4 == 0 && c.dstr % 4 == 0 && src.cur.toNat % 4 == 0 && dst.cur.toNat % 4 == 0 &&
  memPtrOk c.priv src ((c.rows - 1) * c.sstr + c.rowLen) rR && memPtrOk c.priv dst ((c.rows - 1) * c.dstr + c.destLen) (rW ||| rF) &&
  (c.rows == 1 || decide (c.destLen ≤ c.dstr))

/-- Words of 16 or 32 bits of bytes, converted one by one. -/
def mapWords (w : Nat) (f : Nat → List Byte) : List Byte → Nat → List Byte
  | _, 0 => []
  | bs, n + 1 => f (leNat (bs.take w)) ++ mapWords w f (bs.drop w) n

/-- The conversion of a record (R289, R319). -/
def convBytes (conv : Nat) (bs : List Byte) : List Byte :=
  match conv with
  | 1 => mapWords 4 (fun x => leBytes (toBf16 x) 2) bs (bs.length / 4)
  | 2 => mapWords 2 (fun x => leBytes (ofBf16 x) 4) bs (bs.length / 2)
  | _ => bs

/-- Whether every row of the record in hand has been copied. -/
def Cmd.rowsDone (c : Cmd) : Bool := c.destLen == 0 || decide (c.rows ≤ c.row)

/-- A step of a record's copy: the next 4 KiB chunk of the destination row. -/
def State.recordChunk (s : State) (c : Cmd) : State :=
  let off := 4096 * c.chunk
  let dn := min 4096 (c.destLen - off)
  let sc := fun (n : Nat) => if c.conv = 1 then 2 * n else if c.conv = 2 then n / 2 else n
  let src := c.rptr 0
  let dst := c.rptr 1
  s.chunkStep c src (src.start + src.cur.toNat + c.row * c.sstr + sc off) (sc dn) dst (dst.start + dst.cur.toNat + c.row * c.dstr + off) dn
    (if c.fill then .fill else .setf) (convBytes c.conv)
    (fun s => s.onCmd c.serial (fun x =>
      if off + dn < c.destLen then { x with chunk := x.chunk + 1 } else { x with chunk := 0, row := x.row + 1 }))

/-- COPY_CHUNK (R316, R319): the next chunk of an XCPY, or of the record that an XCHN has in hand. -/
def execCopyChunk (serial : Nat) (s : State) : Out :=
  .next (match s.cmd? serial with
    | none => s
    | some c =>
      if c.phase != .running || c.paused.isSome || !s.engines then s
      else match c.act.kind with
      | .xcpy dst _ =>
        if c.hostWait then s.hostReport c else
        let off := 4096 * c.chunk
        let n := min 4096 (c.len - off)
        let src := c.act.ptr
        s.chunkStep c src (src.start + src.cur.toNat + off) n dst (dst.start + dst.cur.toNat + off) n .fill id
          (fun s => if off + n < c.len then s.onCmd serial (fun x => { x with chunk := x.chunk + 1 }) else s.cmdEnd c)
      | .xchn _ => if c.hostWait then s.hostReport c else if c.record.isEmpty || c.rowsDone then s else s.recordChunk c
      | _ => s)

/-- Whether a piece lies in another module's memory. -/
def ETr.far : ETr → Bool
  | .remote _ => true
  | _ => false

/-- The next record read (R319): its 128 bytes and the TAGs of its pointers; OWN and every field checked. Whether a read of another module brings the TAGs
of its granules, the spec does not say: they are free bits (DESIGN CHOICE, log 12). -/
def State.readRecord (s : State) (c : Cmd) : State :=
  let p := c.recPtr
  let q := p.start + p.cur.toNat
  let ps := s.engPieces c.die p q 128
  match engTrouble ps with
  | some (.stop e) => s.cmdStop c e
  | some (.page o f n) => s.cmdPause c o f n
  | some _ => s
  | none =>
    match s.engRead ps with
    | .stop e => s.cmdStop c e
    | .ok s1 bs =>
      let tags := (List.range 3).map (fun i => match s.engTr c.die p (q + 32 * i) with
        | .home a => if !isHost a && (s.sideAt a).tag then (1 : Byte) else 0
        | .remote _ => if (Config.freeValue s1.free).getLsbD i then 1 else 0
        | _ => 0)
      let s1 := if ps.any (fun x => x.1.far) then { s1 with free := s1.free + 1 } else s1
      let c1 := { c with record := bs ++ tags, row := 0, chunk := 0 }
      if !(c1.rword 0x70).getLsbD 63 then s1.cmdStop c 0x06
      else if !c1.recordOk then s1.cmdStop c 0x05
      else s1.onCmd c.serial (fun x => { x with record := c1.record, row := 0, chunk := 0 })

/-- The end of a record: OWN cleared by a plain 8-byte write, then the next record or the end of the chain (R319). -/
def State.closeRecord (s : State) (c : Cmd) : State :=
  let p := c.recPtr
  let ps := s.engPieces c.die p (p.start + p.cur.toNat + 0x70) 8
  match engTrouble ps with
  | some (.stop e) => s.cmdStop c e
  | some (.page o f n) => s.cmdPause c o f n
  | some _ => s
  | none =>
    match s.engWrite .plain c.stamp ps (leBytes ((c.rword 0x70) &&& ~~~(BitVec.twoPow 64 63)).toNat 8) with
    | .wait => s
    | .stop s1 e done => ((s1.cmdMiss c done).noteHost c (done.any (fun x => x.1.toHost))).cmdStop c e
    | .ok s1 =>
      let s2 := (s1.cmdMiss c ps).noteHost c (ps.any (fun x => x.1.toHost))
      let next := c.rptr 2
      let n := c.nrec + 1
      if !next.valid || (c.len != 0 && n == c.len) then s2.cmdEnd c
      else if !memPtrOk c.priv next 128 (rR ||| rW) || next.cur.toNat % 32 != 0 || next.start % 32 != 0 then s2.cmdStop c 0x05
      else s2.onCmd c.serial (fun x => { x with recPtr := next, nrec := n, record := [], row := 0, chunk := 0 })

/-- XCHN_RECORD (R319): an XCHN reads its next record, or finishes the one whose rows are copied. -/
def execXchnRecord (serial : Nat) (s : State) : Out :=
  .next (match s.cmd? serial with
    | none => s
    | some c =>
      match c.act.kind with
      | .xchn _ =>
        if c.phase != .running || c.paused.isSome || !s.engines then s
        else if c.hostWait then s.hostReport c
        else if c.record.isEmpty then s.readRecord c
        else if c.rowsDone then s.closeRecord c else s
      | _ => s)

/-! ## XRED (R320, R321) -/

/-- ROWLEN of an index-list header. -/
def Cmd.redLen (c : Cmd) : Nat := ((c.rword 0).extractLsb' 16 16).toNat
/-- COUNT. -/
def Cmd.redCount (c : Cmd) : Nat := ((c.rword 0).extractLsb' 0 16).toNat
/-- Bytes of a table element. -/
def Cmd.redSize (c : Cmd) : Nat := if (c.rword 0).getLsbD 32 then 2 else 4
/-- Bytes of the index words. -/
def Cmd.redIdxBytes (c : Cmd) : Nat := (c.redCount + 3) / 4 * 8

/-- Every field of an index-list header, the destination's view and the list's view are as R320 and R321 ask. -/
def Cmd.headerOk (c : Cmd) (dst lst : Ptr) : Bool :=
  (c.rword 0).extractLsb' 33 31 == 0 && decide (1 ≤ c.redLen) && decide (c.redLen ≤ 4096) && (c.rword 8).extractLsb' 0 28 == 0 &&
  (c.record.drop 0x10).all (fun b => b == 0) && decide (dst.cur.toNat + 4 * c.redLen ≤ dst.viewLen) &&
  decide (lst.cur.toNat + 64 + c.redIdxBytes ≤ lst.viewLen)

/-- The index-list header read, before the command waits for its semaphore (R321); SEMS of a header that is invalid acts too, since it has been
read (R312, R320). -/
def State.readHeader (s : State) (c : Cmd) (dst lst : Ptr) : State :=
  let ps := s.nearPieces c.die lst (lst.start + lst.cur.toNat) 64
  match engTrouble ps with
  | some (.stop e) => s.cmdStop c e
  | some (.page o f n) => s.cmdPause c o f n
  | some _ => s
  | none =>
    match s.engRead ps with
    | .stop e => s.cmdStop c e
    | .ok s1 bs =>
      if !({ c with record := bs } : Cmd).headerOk dst lst then s1.cmdStop { c with record := bs } 0x05
      else s1.onCmd c.serial (fun x => { x with record := bs })

/-- The indices in the list's words. -/
def idxOf (bs : List Byte) (n : Nat) : List Nat := (List.range n).map (fun i => leNat ((bs.drop (2 * i)).take 2))

/-- The FP32 values of a table row's bytes (R321). -/
def rowVals (size n : Nat) (bs : List Byte) : List FVal :=
  (List.range n).map (fun i =>
    let x := leNat ((bs.drop (size * i)).take size)
    if size = 2 then bf16.dec x else fp32.dec x)

/-- A value as an FP32 code; NaN is canonical. -/
def codeOf (x : FVal) : BitVec 32 := (fpConv fp32 .rne x).bits.extractLsb' 0 32

/-- The sum of table rows, element by element, in list order (R321). -/
def redSum (rows : List (List FVal)) (n : Nat) : List (BitVec 32) :=
  (List.range n).map (fun k => match rows with
    | [] => 0
    | r :: rest => rest.foldl (fun acc q => (fpAdd fp32 .rne (fp32.dec acc.toNat) 0 (q.getD k (.fin false 0 0)) 0).bits.extractLsb' 0 32)
        (codeOf (r.getD k (.fin false 0 0))))

/-- Leading words of a piece that are empty. -/
def State.emptyWords (s : State) (a : Nat) : Nat → Nat
  | 0 => 0
  | n + 1 => if s.anyFull a 4 then 0 else 1 + State.emptyWords s (a + 4) n

/-- The words of a destination row written with FILL one after another (R321): the first that cannot be stops the command, the words before it
written and none after it. -/
def State.wordWrite (s : State) (stamp : BitVec 3) : List EPiece → List Byte → EWr
  | [], _ => .ok s
  | x :: t, bs =>
    let mine := bs.take x.2.2
    let busy := match x.1 with
      | .win a => (match s.winPut a mine with
        | .wait => true
        | _ => false)
      | _ => false
    if busy then .wait
    else match s.engWriteErr .fill x mine s.free, x.1 with
    | none, _ => (match State.wordWrite (s.engWritePiece .fill stamp x mine) stamp t (bs.drop x.2.2) with
      | .stop u e d => .stop u e (x :: d)
      | w => w)
    | some e, .home a =>
      let m := if e = 0x03 ∧ !(s.sideAt a).poison then s.emptyWords a (x.2.2 / 4) else 0
      if m = 0 then .stop s e []
      else .stop (s.homeWrite a (mine.take (4 * m)) .fill stamp) e [(.home a, x.2.1, 4 * m)]
    | some e, _ => .stop s e []

/-- Bytes of a table row. -/
def Cmd.redWidth (c : Cmd) : Nat := c.redLen * c.redSize
/-- The indices that an XRED has read. -/
def Cmd.redIdx (c : Cmd) : List Nat := idxOf c.got c.redCount

/-- The granule part that an XRED reads next (R203, R321): its index words, then its table rows in list order; none once all are read. -/
def State.redNext (s : State) (c : Cmd) (lst : Ptr) : Option EPiece :=
  let n := c.got.length
  if n < c.redIdxBytes then (s.nearPieces c.die lst (lst.start + lst.cur.toNat + 64) c.redIdxBytes).find? (fun x => x.2.1 == n)
  else
    let m := n - c.redIdxBytes
    match c.redIdx[m / c.redWidth]? with
    | some x => (s.nearPieces c.die c.act.ptr (c.act.ptr.start + c.act.ptr.cur.toNat + x * c.redWidth) c.redWidth).find?
        (fun y => y.2.1 == m % c.redWidth)
    | none => none

/-- What index words that have all been read give rise to: an index word with bits beyond COUNT, or an index beyond the table's view (R320, R321). -/
def Cmd.redBad (c : Cmd) : Option Nat :=
  if c.got.length < c.redIdxBytes then none
  else if ((c.got.take c.redIdxBytes).drop (2 * c.redCount)).any (fun b => b != 0) then some 0x05
  else if c.redIdx.any (fun x => decide (c.act.ptr.viewLen < c.act.ptr.cur.toNat + (x + 1) * c.redWidth)) then some 0x07 else none

/-- The bytes of the destination row: the sums of the rows that an XRED has read. -/
def Cmd.redOut (c : Cmd) : List Byte :=
  let bs := c.got.drop c.redIdxBytes
  let rows := (List.range c.redCount).map (fun i => rowVals c.redSize c.redLen ((bs.drop (i * c.redWidth)).take c.redWidth))
  (redSum rows c.redLen).flatMap (fun w => leBytes w.toNat 4)

/-- A pause of an XRED at a page: what it has read it reads again when it resumes (R317). -/
def State.redPause (s : State) (c : Cmd) (o : BitVec 24) (f : BitVec 40) (n : Bool) : State :=
  (s.onCmd c.serial (fun x => { x with got := [] })).cmdPause c o f n

/-- One granule part read by an XRED. -/
def State.redRead (s : State) (c : Cmd) (x : EPiece) : State :=
  match x.1 with
  | .stop e => s.cmdStop c e
  | .page o f n => s.redPause c o f n
  | .wait => s
  | _ => match s.engReadPiece x with
    | .stop e => s.cmdStop c e
    | .ok s1 bs => s1.onCmd c.serial (fun y => { y with got := y.got ++ bs })

/-- The destination row of an XRED written with FILL (R321). -/
def State.redWrite (s : State) (c : Cmd) (dst : Ptr) : State :=
  let ps := s.nearPieces c.die dst (dst.start + dst.cur.toNat) (4 * c.redLen)
  match engTrouble ps with
  | some (.stop e) => s.cmdStop c e
  | some (.page o f n) => s.redPause c o f n
  | some _ => s
  | none =>
    match s.wordWrite c.stamp ps c.redOut with
    | .wait => s
    | .stop s1 e done => ((s1.cmdMiss c done).noteHost c (done.any (fun x => x.1.toHost))).cmdStop c e
    | .ok s1 => ((s1.cmdMiss c ps).noteHost c (ps.any (fun x => x.1.toHost))).cmdEnd c

/-- XRED_ROW (R321): the index words and then the table rows are read, one granule part in each event, each old or new as it stands (R203); the
indices are checked before any row is read; the event after the last part writes the destination row. -/
def execXredRow (serial : Nat) (s : State) : Out :=
  .next (match s.cmd? serial with
    | none => s
    | some c =>
      match c.act.kind with
      | .xred dst lst =>
        if c.phase != .running || c.paused.isSome || !s.engines then s
        else if c.hostWait then s.hostReport c
        else match c.redBad, s.redNext c lst with
        | some e, _ => s.cmdStop c e
        | none, some x => s.redRead c x
        | none, none => s.redWrite c dst
      | _ => s)

/-! ## Named buffers (R322, R324) -/

/-- The 4 KiB pages of an object that a view from its cursor on touches. -/
def Ptr.viewPages (p : Ptr) : List Nat :=
  let a := (p.start + p.cur.toNat) / 4096
  (List.range ((p.start + p.viewLen + 4095) / 4096 - a)).map (fun i => a + i)

/-- Whether every byte of a view from its cursor on lies in a pinned extent that is resident; one that only migrates is (R324). -/
def State.pinnedView (s : State) (die : Nat) (p : Ptr) : Bool :=
  p.viewPages.all (fun i => match s.homeAt die p (i * 4096), s.extFor die p.obj (i * 4096) with
    | .home _, .ok (_, d1, _) => d1.getLsbD 1
    | .wait, .ok (_, d1, _) => d1.getLsbD 1
    | .wait, .error .wait => true
    | _, _ => false)

/-- Whether some page of a view is being moved. -/
def State.movingView (s : State) (die : Nat) (p : Ptr) : Bool := p.viewPages.any (fun i => s.homeAt die p (i * 4096) == .wait)

/-- The homes of the pages of a view, as a registration keeps them (R362). -/
def State.pagesOf (s : State) (die : Nat) (p : Ptr) : SMap Nat :=
  p.viewPages.filterMap (fun i => match s.homeAt die p (i * 4096) with
    | .home a => some (i, a)
    | _ => none)

/-- XREG.REG as it performs (R324): a registered buffer keeps the translation of its pages until it is released (R362). -/
def State.xregReg (s : State) (c : Cmd) (name : BitVec 64) (b : Ptr) : State :=
  let size := b.viewLen - b.cur.toNat
  if b.isPhys || size == 0 || size % 4 != 0 || s.bufs.any (fun x => x.valid && x.name == name) ||
      decide (64 ≤ (s.bufs.filter (fun x => x.valid)).length) || !s.pinnedView c.die b then s.cmdStop c 0x08
  else if s.movingView c.die b then s
  else
    let e : Buf := { name := name, launch := c.launch, obj := b.obj, off := BitVec.ofNat 40 (b.start + b.cur.toNat),
                     size := BitVec.ofNat 41 size, valid := true, ptr := b, pages := s.pagesOf c.die b }
    let i := s.bufs.findIdx (fun x => !x.valid)
    { s with bufs := if i < s.bufs.length then s.bufs.set i e else s.bufs ++ [e] }.cmdDone c

/-- XREG.REL as it performs (R324): it waits for the collectives on the name that are in flight: those issued before it, and any that runs. -/
def State.xregRel (s : State) (c : Cmd) (name : BitVec 64) : State :=
  if s.cmds.any (fun x => (decide (x.serial < c.serial) || x.phase == .running) && (match x.act.kind with
      | .xcol _ n _ => n == name
      | _ => false)) then s
  else match s.bufs.find? (fun x => x.valid && x.name == name) with
  | some b =>
    if b.launch ≠ c.launch then s.cmdStop c 0x08
    else { s with bufs := s.bufs.map (fun (x : Buf) => if x.valid && x.name == name then { x with valid := false } else x) }.cmdDone c
  | none => s.cmdStop c 0x08

/-! ## Collectives (R323, R325 to R327) -/

/-- N of a group entry. -/
def Cmd.members (c : Cmd) : Nat := ((c.group.headD 0).extractLsb' 0 7).toNat
/-- RANK. -/
def Cmd.rank (c : Cmd) : Nat := ((c.group.headD 0).extractLsb' 8 6).toNat
/-- MODb: the module at a ring position. -/
def Cmd.member (c : Cmd) (b : Nat) : Nat := ((c.group.getD (1 + b / 8) 0).extractLsb' (8 * (b % 8)) 6).toNat
/-- CRC-32 of the group entry with RANK as zero. -/
def Cmd.groupCrc (c : Cmd) : Nat := crc32 (wordBytes ((c.group.headD 0 &&& ~~~(0x3F00 : BitVec 64)) :: c.group.drop 1))

/-- FN of a collective form (R325). -/
def ColForm.code : ColForm → Nat
  | .allredSum => 0 | .allredMax => 1 | .allgath => 2 | .redscatSum => 3 | .bcast => 4

/-- Bytes a form needs of its buffer (R325). -/
def ColForm.needs (f : ColForm) (n l : Nat) : Nat :=
  match f with
  | .allgath => (n + 1) * l
  | .redscatSum => l + l / n
  | _ => 2 * l

/-- The buffer a collective names. -/
def State.colBuf (s : State) (c : Cmd) (name : BitVec 64) : Option Buf :=
  s.bufs.find? (fun b => b.valid && b.name == name && b.launch == c.launch)

/-- What refuses a collective on this member when it starts (R323 to R325, R327, R405). -/
def State.colRefusal (s : State) (c : Cmd) (form : ColForm) (name : BitVec 64) : Option Nat :=
  let n := c.members
  let l := c.len
  if !s.mod.featack.getLsbD 2 then some 0x0A
  else match s.colBuf c name with
  | none => some 0x08
  | some b =>
    if name.extractLsb' 8 8 != 0 || n == 0 || decide (64 < n) || decide (n ≤ c.rank) || c.member c.rank != s.mod.modId.toNat then some 0x09
    else if l == 0 || l % 4 != 0 || (form == .redscatSum && l % (4 * n) != 0) then some 0x09
    else if b.size.toNat < form.needs n l then some 0x08
    else if (List.range n).any (fun i => i != c.rank && !s.reaches (c.member i)) then some 0x0A
    else none

/-- The bytes of a chunk that a ring position has contributed and that have arrived without a gap, from byte `at_` on. -/
def gather (inbox : List FlitBody) (name : BitVec 64) (k pos chunk at_ : Nat) : Nat → List Byte
  | 0 => []
  | fuel + 1 =>
    match inbox.findSome? (fun b => match b with
      | .contrib n j _ _ _ p c o bs => if n == name && j == k && p == pos && c == chunk && o == at_ && !bs.isEmpty then some bs else none
      | _ => none) with
    | some bs => bs ++ gather inbox name k pos chunk (at_ + bs.length) fuel
    | none => []

/-- The bytes a ring position has contributed to a chunk, if all have arrived: its flits bring at most 224 each (R328). -/
def State.contribution (s : State) (c : Cmd) (name : BitVec 64) (pos chunk : Nat) : Option (List Byte) :=
  let bs := gather s.mod.inbox name c.k pos chunk 0 4096
  let len := min 4096 (c.len - 4096 * chunk)
  if len ≤ bs.length then some (bs.take len) else none

/-- What the other members have sent that stops this one (R323, R325, R327): a disagreement, with 0x09; a stop with the code that R325 gives to
every member; any other member's own error, such as a name it has not registered, with 0x0A. -/
def State.colStop (s : State) (c : Cmd) (form : ColForm) (name : BitVec 64) : Option Nat :=
  s.mod.inbox.findSome? (fun b => match b with
    | .contrib n k f l crc .. =>
      if n == name && k == c.k && (f != form.code || l != c.len || crc != c.groupCrc) then some 0x09 else none
    | .stop n k code all => if n == name && k == c.k then some (if all then code.toNat else 0x0A) else none
    | _ => none)

/-- Whether this member contributes bytes of its own: every one but those of a BCAST beyond ring position 0 (R325). -/
def Cmd.gives (c : Cmd) (form : ColForm) : Bool := form != .bcast || c.rank == 0

/-- Whether what this member contributes has been delivered to the others (R206). -/
def State.delivered (s : State) (c : Cmd) (form : ColForm) (name : BitVec 64) : Bool :=
  decide (c.members ≤ 1) || !c.gives form || s.mod.inbox.contains (.delivered name c.k)

/-- The pieces of n bytes of a registered buffer, at the homes that its registration found (R362). -/
def State.bufPieces (s : State) (b : Buf) (q n : Nat) : List EPiece :=
  (piecesOf q n).map (fun x =>
    ((match b.pages.find? (fun y => y.1 == x.1 / 4096) with
      | some y =>
        let a := y.2 + x.1 % 4096
        if !s.homeOk a then .stop 0x01
        else if isHost a && !s.hostUp a then .stop 0x0B
        else if !isHost a && (s.plot (plotOfAddr a)).migrating then .wait else .home a
      | none => .stop 0x01), x.2.1, x.2.2))

/-- The reduction of one element, from ring position b0 on (R326). -/
def reduceFrom (max_ : Bool) (xs : List (BitVec 32)) (b0 : Nat) : BitVec 32 :=
  let n := xs.length
  (List.range (n - 1)).foldl (fun acc i =>
    let x := xs.getD ((b0 + i + 1) % n) 0
    if max_ then (fpMnx fp32 true false (acc.zeroExtend 64) 0 (x.zeroExtend 64) 0).bits.extractLsb' 0 32
    else (fpAdd fp32 .rne (f32 acc) 0 (f32 x) 0).code) (xs.getD (b0 % n) 0)

/-- The result bytes of a chunk and where they go in the buffer, from the members' contributions in ring order (R325, R326). -/
def colResult (form : ColForm) (rank l chunk : Nat) (cs : List (List Byte)) : List (Nat × List Byte) :=
  let n := cs.length
  let base := 4096 * chunk
  let len := min 4096 (l - base)
  let red := fun (mx : Bool) (i : Nat) => leBytes (reduceFrom mx (cs.map (fun b => BitVec.ofNat 32 (leNat ((b.drop (4 * i)).take 4)))) (chunk % n)).toNat 4
  match form with
  | .allredSum => [(l + base, (List.range (len / 4)).flatMap (red false))]
  | .allredMax => [(l + base, (List.range (len / 4)).flatMap (red true))]
  | .allgath => (List.range n).map (fun b => (l + b * l + base, cs.getD b []))
  | .bcast => [(l + base, cs.headD [])]
  | .redscatSum =>
    let lo := max base (rank * (l / n))
    let hi := min (base + len) ((rank + 1) * (l / n))
    if hi ≤ lo then []
    else [(l + lo - rank * (l / n), (List.range ((hi - lo) / 4)).flatMap (fun i => red false ((lo - base) / 4 + i)))]

/-- COLLECTIVE_CHUNK (R325 to R327): once every contribution to the next chunk is there, its results are written with FILL at stamp 5. A member
of BCAST other than position 0 contributes nothing and reads nothing of its own. The command has performed once its last word is written and its
own contributions are delivered (R206). -/
def execCollectiveChunk (serial : Nat) (s : State) : Out :=
  .next (match s.cmd? serial with
    | none => s
    | some c =>
      match c.act.kind with
      | .xcol form name _ =>
        if c.phase != .running || c.paused.isSome || !s.engines then s
        else if c.hostWait then s.hostReport c
        else match s.colStop c form name with
        | some e => s.cmdStop c e
        | none =>
          match s.colBuf c name with
          | none => s.cmdStop c 0x08
          | some b =>
            if (List.range c.members).any (fun i => i != c.rank && !s.reaches (c.member i)) then s.cmdStop c 0x0A
            else if c.len ≤ 4096 * c.chunk then (if s.delivered c form name then s.cmdEnd c else s)
            else
              let base := 4096 * c.chunk
              let len := min 4096 (c.len - base)
              let start := b.ptr.start + b.ptr.cur.toNat
              let own := if c.gives form then s.bufPieces b (start + base) len else []
              match engTrouble own with
              | some (.stop e) => s.cmdStop c e
              | some _ => s
              | none =>
                match s.engRead own with
                | .stop e => s.cmdStop c e
                | .ok s1 mine =>
                  let ring := if form == .bcast then [0] else List.range c.members
                  let cs := ring.map (fun i => if i = c.rank then some mine else s.contribution c name i c.chunk)
                  if cs.any (·.isNone) then s
                  else
                    let out := colResult form c.rank c.len c.chunk (cs.map (·.getD []))
                    let ps := out.map (fun x => s1.bufPieces b (start + x.1) x.2.length)
                    (match engTrouble ps.flatten with
                    | some (.stop e) => s1.cmdStop c e
                    | some _ => s
                    | none =>
                      let r := (List.range out.length).foldl (fun (acc : EWr) i => match acc, out[i]?, ps[i]? with
                        | .ok s, some x, some q => s.engWrite .fill 5 q x.2 |>.after (ps.take i).flatten
                        | e, _, _ => e) (.ok s1)
                      (match r with
                      | .wait => s
                      | .stop s2 e d => ((s2.cmdMiss c d).noteHost c (d.any (fun x => x.1.toHost))).cmdStop c e
                      | .ok s2 =>
                        let s3 := ((s2.cmdMiss c ps.flatten).noteHost c (ps.flatten.any (fun x => x.1.toHost))).onCmd serial
                          (fun x => { x with chunk := x.chunk + 1 })
                        if base + len < c.len || !s3.delivered c form name then s3 else s3.cmdEnd c))
      | _ => s)

/-! ## Starting (R312) -/

/-- The acquire effect a command gives before its first part, once (R199): the core of the task that issued it discards. -/
def State.cmdAcquire (s : State) (c : Cmd) : State :=
  match c.act.mx, s.handleSlot c.serial with
  | some m, some (p, _) => if c.acq then (s.discard p m.scope).onCmd c.serial (fun x => { x with acq := false }) else s
  | _, _ => s

/-- Whether a collective is among the sixteen in flight (R327). -/
def State.colTurn (s : State) (c : Cmd) : Bool :=
  !c.act.kind.isXcol || decide ((s.cmds.filter (fun x => x.act.kind.isXcol)).findIdx (fun x => x.serial == c.serial) < 16)

/-- A command whose mask and semaphore are satisfied begins to run; one with nothing to move ends at once, and XREG performs. -/
def State.beginCmd (s : State) (c : Cmd) : State :=
  let s1 := s.cmdAcquire c
  let run := s1.onCmd c.serial (fun x => { x with phase := .running })
  match c.act.kind with
  | .xcpy .. => if c.len = 0 then s1.cmdDone c else run
  | .xcol form name _ => (match s.colRefusal c form name with
    | some e => s1.cmdStop c e
    | none => run)
  | .xregReg name b => s1.xregReg c name b
  | .xregRel name => s1.xregRel c name
  | _ => run

/-- Whether an XRED has still to read its header. -/
def Cmd.needsHeader (c : Cmd) : Option (Ptr × Ptr) :=
  match c.act.kind with
  | .xred dst lst => if c.record.isEmpty then some (dst, lst) else none
  | _ => none

/-- ENGINE_START (R312, R321): the mask, then the wait semaphore, which the start consumes. -/
def execEngineStart (serial : Nat) (s : State) : Out :=
  .next (match s.cmd? serial with
    | none => s
    | some c =>
      if c.phase != .waiting || c.paused.isSome || !s.engines || c.deps.any (fun d => s.outstanding d (c.scope == .host)) || !s.colTurn c then s
      else match c.needsHeader with
      | some (dst, lst) => s.readHeader c dst lst
      | none =>
        let w := c.semWord
        let thr := (w.extractLsb' 44 12).toNat
        let n := (w.extractLsb' 56 8).toNat
        let p := s.semPlot c
        if s.semFree p n < thr then s
        else (if thr = 0 then s else s.takeSem p n thr).beginCmd c)

/-! ## The aqueduct (R328 to R330, R390) -/

/-- The home that a remote address of another module names here (R157). -/
def localOf (a : Nat) : Nat :=
  let p := plotOfAddr a
  let o := a % 2 ^ 26
  match spaceOf a with
  | 0x10 => mkAddr 0 p o
  | 0x11 => mkAddr 1 p o
  | _ => mkAddr 1 p (o + 2 ^ 26)

/-- A write that arrives from another module: FILL at stamp 5 (R330). -/
def State.remoteWrite (s : State) (a : Nat) (bs : List Byte) : State :=
  let ps : List EPiece := (piecesOf (localOf a) bs.length).map (fun x => (if s.homeOk x.1 then ETr.home x.1 else .stop 0x01, x.2.1, x.2.2))
  if (spaceOf a == 0x10 && decide (0x400000 < a % 2 ^ 26 + bs.length)) || ps.any (fun x => x.1 == .stop 0x01) then s
  else match s.engWrite .fill 5 ps bs with
  | .ok t => t
  | .stop t _ _ => t
  | .wait => s

/-- What a flit says of a collective is kept until the collective has performed. -/
def State.keepFlit (s : State) (b : FlitBody) : State := s.onMod (fun m => { m with inbox := m.inbox ++ [b] })

/-- A flit's payload has 224 bytes (R328): no flit carries more data. -/
def flitFits : FlitBody → Bool
  | .write _ bs => decide (bs.length ≤ 224)
  | .contrib _ _ _ _ _ _ _ _ bs => decide (bs.length ≤ 224)
  | _ => true

/-- A flit for this module takes effect. -/
def State.flitBody (s : State) (b : FlitBody) : State :=
  match b with
  | .write a bs => s.remoteWrite a bs
  | .contrib .. => s.keepFlit b
  | .stop .. => s.keepFlit b
  | .delivered .. => s.keepFlit b
  | .arrive g n l =>
    (match if g ≤ 15 ∧ n ≠ 0 then s.arrive stewardDie (0x33600 + 16 * g) (BitVec.ofNat 16 n) l else none with
    | some (t, _) => t
    | none => s)

/-- A flit discarded because its hop count has reached 8: the collective it belongs to stops with 0x0A on this member (R329). -/
def State.discardFlit (s : State) (b : FlitBody) : State :=
  match b with
  | .contrib n k .. => s.keepFlit (.stop n k 0x0A false)
  | .stop n k .. => s.keepFlit (.stop n k 0x0A false)
  | .delivered n k => s.keepFlit (.stop n k 0x0A false)
  | _ => s

/-- FLIT_RECEIVE (R328 to R330): over a live port, a flit whose CRC holds takes effect if it is for this module; with hop count 8 it is discarded.
One whose CRC fails is retransmitted, and one for another module is forwarded. -/
def execFlitReceive (port : Nat) (f : Flit) (s : State) : Out :=
  .next (if !(s.mod.link.getLsbD port && f.crcOk && flitFits f.body && f.dest == s.mod.modId.toNat) then s
    else if f.hop < 8 then s.flitBody f.body else s.discardFlit f.body)

/-- PORT_LINK_DOWN (R328). -/
def execPortLinkDown (port : Nat) (s : State) : Out :=
  .next (if port < 48 then s.onMod (fun m => { m with link := m.link &&& ~~~(BitVec.twoPow 48 port) }) else s)

/-- PORT_LINK_UP (R328). -/
def execPortLinkUp (port : Nat) (s : State) : Out :=
  .next (if port < 48 then s.onMod (fun m => { m with link := m.link ||| BitVec.twoPow 48 port }) else s)

end Sys2Proof.Machine
end

