-- ==== Sys2Proof/Machine/Sluice.lean ====
section
/-! DEFINITION. The sluice (R332 to R342, R353, R399): queues and their records, the validation of a launch record, placement, start,
completion, and the end of a launch. An event whose condition does not hold leaves the state as it is. -/

namespace Sys2Proof.Machine

open Sys2Proof

/-! ## Queues (R332 to R334, R399) -/

/-- Queue block q. -/
def State.queue (s : State) (q : Nat) : LQueue := if h : q < 8 then s.queues[q] else {}

/-- Queue block q changed by a function. -/
def State.onQueue (s : State) (q : Nat) (f : LQueue → LQueue) : State := { s with queues := s.queues.setIfInBounds q (f (s.queue q)) }

/-- A queue size: a power of two from 2 to 4,096 (R332). -/
def sizeOk (n : Nat) : Bool := (List.range 12).any (fun i => n == 2 ^ (i + 1))

/-- Whether a launch queue is enabled (R332, R399, R404). -/
def LQueue.lqOk (q : LQueue) : Bool := sizeOk q.lqsize.toNat && !q.lqOff && q.lqbase.extractLsb' 48 16 == 0

/-- Whether a completion queue is enabled. -/
def LQueue.cqOk (q : LQueue) : Bool := sizeOk q.cqsize.toNat && !q.cqOff && q.cqbase.extractLsb' 48 16 == 0

/-- Whether a completion queue can take a record (R334). -/
def LQueue.cqRoom (q : LQueue) : Bool :=
  q.cqOk && (q.cqtail.toNat + 1) % q.cqsize.toNat != q.cqhead.toNat % q.cqsize.toNat

/-- Whether entries are pending (R333). -/
def LQueue.pending (q : LQueue) : Bool := q.lqhead.toNat % q.lqsize.toNat != q.lqtail.toNat % q.lqsize.toNat

/-- The sluice works in a booted, clocked module (R407, R409, R411). -/
def State.sluiceOn (s : State) : Bool := s.mod.boot == 2 && decide (s.mod.pscur.toNat ≤ 2)

/-- The owner's link is up. -/
def State.ownerUp (s : State) : Bool := s.mod.ovalid && s.mod.linkUp.getLsbD s.mod.oport.toNat

/-- A host address as the owner's port carries it (R156, R399). -/
def State.ownerAddr (s : State) (base : BitVec 64) (off : Nat) : Nat :=
  (8 + s.mod.oport.toNat) * 2 ^ 48 + (base.toNat + off) % 2 ^ 48

/-- Whether the sluice may take the next entry of a queue (R333, R334, R405). -/
def State.serves (s : State) (q : Nat) : Bool :=
  let x := s.queue q
  x.lqOk && x.pending && x.taken.isNone && (x.waiting.isEmpty || x.cqRoom)

/-- The queue whose turn it is (R333). -/
def State.nextServed (s : State) : Option Nat := ((List.range 8).map (fun i => (s.turn + i) % 8)).find? s.serves

/-- The eight words of a completion record (R342). WTIME is written when it is posted. -/
def doneWords (kind : BitVec 8) (code : Nat) (launch errs plot reason : BitVec 32) : List (BitVec 64) :=
  [BitVec.ofNat 64 (code * 256 + kind.toNat), launch.zeroExtend 64, errs.zeroExtend 64, plot.zeroExtend 64, reason.zeroExtend 64, 0, 0, 0]

/-- A record as it is posted: a completion record takes the wafer time of its posting (R342). -/
def State.postWords (s : State) (r : List (BitVec 64)) : List (BitVec 64) :=
  if 0x10 ≤ ((r.headD 0).extractLsb' 0 8).toNat then r.set 6 (s.die stewardDie).wtime else r

/-- COMPLETION_POST (R334): the first waiting record is written at CQTAIL at host scope, then CQTAIL advances and the owner's port raises the
queue's interrupt. -/
def execCompletionPost (q : Nat) (s : State) : Out :=
  .next (
    let x := s.queue q
    match x.waiting with
    | [] => s
    | r :: rest =>
      if !s.sluiceOn || !s.ownerUp || !x.cqRoom then s
      else
        let s1 := s.wrBytes (s.ownerAddr x.cqbase (64 * (x.cqtail.toNat % x.cqsize.toNat))) (wordBytes (s.postWords r))
        let s2 := s1.onQueue q (fun y => { y with waiting := rest, cqtail := BitVec.ofNat 12 ((y.cqtail.toNat + 1) % y.cqsize.toNat) })
        s2.onMod (fun m => { m with msix := m.msix ++ [(m.oport.toNat, q)] }))

/-! ## Writes of the owner (R400, R402) -/

/-- A dropped write of a port that is not the owner's (R400). -/
def State.dropWrite (s : State) : State := s.onMod (fun m => { m with drops := if m.drops = 0xFFFF then m.drops else m.drops + 1 })

/-- A port whose accesses reach the module: its link is up, the module is on (R407), booted or in recovery (R409), and not locked, for a locked
module drops every write (R411). -/
def State.portLive (s : State) (port : Nat) : Bool :=
  decide (port ≤ 7) && s.mod.linkUp.getLsbD port && (s.mod.boot == 2 || s.mod.boot == 3) && s.mod.pscur != 4

/-- A write that only the owner's port may make. -/
def State.byOwner (s : State) (port : Nat) (f : State → State) : State :=
  if !s.portLive port then s
  else if s.mod.ovalid && s.mod.oport.toNat == port then f s
  else s.dropWrite

/-- LQTAIL_DOORBELL (R332, R333). -/
def execLqtailDoorbell (port q : Nat) (value : BitVec 64) (s : State) : Out :=
  .next (s.byOwner port (fun s => if s.mod.boot == 2 then s.onQueue q (fun x => { x with lqtail := value.extractLsb' 0 12 }) else s))

/-! ## The launch record (R335 to R337) -/

/-- NTMPL. -/
def Launch.ntmpl (l : Launch) : Nat := fieldN (l.word 0x10) 40 5
/-- NRILL. -/
def Launch.nrill (l : Launch) : Nat := fieldN (l.word 0x10) 48 16
/-- PRIV. -/
def Launch.privBit (l : Launch) : Bool := (l.word 0).getLsbD 8
/-- FIXED. -/
def Launch.fixed (l : Launch) : Bool := (l.word 8).getLsbD 16
/-- ORIGIN. -/
def Launch.origin (l : Launch) : BitVec 32 := (l.word 8).extractLsb' 32 32
/-- RPTSZ. -/
def Launch.rptsz (l : Launch) : Nat := fieldN (l.word 0x18) 0 32
/-- MAXF. -/
def Launch.maxf (l : Launch) : Nat := fieldN (l.word 0x18) 32 5
/-- MAXFP. -/
def Launch.maxfp (l : Launch) : Nat := fieldN (l.word 0x18) 37 14
/-- NP. -/
def Launch.np (l : Launch) : Nat := l.prows * l.pcols
/-- The placement rows and columns of all plots, in order. -/
def Launch.cells (l : Launch) : List (Nat × Nat) := (List.range l.prows).flatMap (fun r => (List.range l.pcols).map (fun c => (r, c)))
/-- The private objects of a launch (R337). -/
def Launch.privObjs (l : Launch) : List (BitVec 24) := (List.range (16 * l.np)).map (fun i => (l.word 0xE0).extractLsb' 0 24 + BitVec.ofNat 24 i)

/-- A launch record as it stands before a placement. -/
def newLaunch (ws : List (BitVec 64)) (q : Nat) : Launch :=
  { id := (ws.headD 0).extractLsb' 32 32, words := ws, q := q, rect := 0, row := 0, col := 0 }

/-- A task template (R336). -/
structure Tmpl where
  t0 : BitVec 64
  t1 : BitVec 64
  t2 : BitVec 64
  t3 : BitVec 64
  deriving DecidableEq, Repr

/-- ROLES. -/
def Tmpl.roles (t : Tmpl) : Nat := fieldN t.t0 48 5
/-- NPC. -/
def Tmpl.npc (t : Tmpl) : Nat := fieldN t.t0 40 5
/-- ENTRY. -/
def Tmpl.entry (t : Tmpl) : BitVec 40 := t.t0.extractLsb' 0 40
/-- Whether a template covers a placement row and column. -/
def Tmpl.covers (t : Tmpl) (x : Nat × Nat) : Bool :=
  decide (fieldN t.t1 0 8 ≤ x.1) && decide (x.1 < fieldN t.t1 0 8 + fieldN t.t1 16 8) &&
  decide (fieldN t.t1 8 8 ≤ x.2) && decide (x.2 < fieldN t.t1 8 8 + fieldN t.t1 24 8)

/-- A word at an offset of a launch's table, read at its home (R338). -/
def State.tableWord (s : State) (p : Ptr) (off : Nat) : Option (BitVec 64) :=
  if p.viewLen < off + 8 then none
  else (s.getObj stewardDie p (p.start + off) 8).map (fun bs => BitVec.ofNat 64 (leNat bs))

/-- Four words of a table entry of 32 bytes. -/
def State.tableEntry (s : State) (p : Ptr) (off : Nat) : Option (BitVec 64 × BitVec 64 × BitVec 64 × BitVec 64) :=
  match s.tableWord p off, s.tableWord p (off + 8), s.tableWord p (off + 16), s.tableWord p (off + 24) with
  | some a, some b, some c, some d => some (a, b, c, d)
  | _, _, _, _ => none

/-- The templates that TTAB's view holds and that can be read. -/
def State.tmpls (s : State) (l : Launch) : List Tmpl :=
  (List.range l.ntmpl).filterMap (fun i => (s.tableEntry (capPtr (l.cap 0x30)) (32 * i)).map (fun x => ⟨x.1, x.2.1, x.2.2.1, x.2.2.2⟩))

/-- The semaphore initialisers of a template; none for one beyond the table. -/
def State.initsOf (s : State) (l : Launch) (t : Tmpl) : List (Option (BitVec 64)) :=
  (List.range (fieldN t.t3 16 8)).map (fun j => s.tableWord (capPtr (l.cap 0x30)) (32 * l.ntmpl + 8 * (fieldN t.t3 0 16 + j)))

/-- The rill records that RTAB's view holds and that can be read (R308). -/
def State.rillRecs (s : State) (l : Launch) : List RillRec :=
  (List.range l.nrill).filterMap (fun i => (s.tableEntry (capPtr (l.cap 0x60)) (32 * i)).map (fun x => ⟨x.1, x.2.1, x.2.2.1, x.2.2.2⟩))

/-- The records of a reading of a launch's tables over a host link that is down (R156; log 64): one for TTAB with its initialisers, one for RTAB. -/
def State.tablesLost (s : State) (l : Launch) : State :=
  let t := capPtr (l.cap 0x30)
  let r := capPtr (l.cap 0x60)
  let n := (s.tmpls l).foldl (fun n x => max n (fieldN x.t3 0 16 + fieldN x.t3 16 8)) 0
  let s1 := s.noteLost stewardDie l.id t t.start (min t.viewLen (32 * l.ntmpl + 8 * n))
  if l.nrill = 0 then s1 else s1.noteLost stewardDie l.id r r.start (min r.viewLen (32 * l.nrill))

/-! ## Validation (R338) -/

/-- A zero field of the record that is not zero, or another VER (0x20); REPORT and RTAB are such fields where RPTSZ or NRILL is 0 (R335; log
70). -/
def Launch.formBad (l : Launch) : Bool :=
  (l.rptsz == 0 && l.cap 0x50 != 0) || (l.nrill == 0 && l.cap 0x60 != 0) ||
  (l.word 0).extractLsb' 0 8 != 1 || (l.word 0).extractLsb' 9 23 != 0 || (l.word 8).extractLsb' 17 15 != 0 ||
  (l.word 0x10).extractLsb' 45 3 != 0 || (l.word 0x18).extractLsb' 51 13 != 0 || (l.word 0xE0).extractLsb' 24 40 != 0 ||
  l.word 0xE8 != 0 || l.word 0xF0 != 0 || l.word 0xF8 != 0

/-- Task slots that templates give a core. -/
def slotsAt (ts : List Tmpl) (x : Nat × Nat) : Nat := ((ts.filter (fun t => t.covers x)).map Tmpl.npc).sum

/-- A template with a zero field that is not zero, an area that leaves the placement, or an entry off its alignment (0x22). -/
def Tmpl.bad (t : Tmpl) (l : Launch) : Bool :=
  t.t0.extractLsb' 53 11 != 0 || t.t1.extractLsb' 32 32 != 0 || t.t3.extractLsb' 24 40 != 0 || t.entry.toNat % 8 != 0 ||
  fieldN t.t1 16 8 == 0 || fieldN t.t1 24 8 == 0 || decide (l.prows < fieldN t.t1 0 8 + fieldN t.t1 16 8) ||
  decide (l.pcols < fieldN t.t1 8 8 + fieldN t.t1 24 8)

/-- What the templates break of 0x22. -/
def tmplsBad (l : Launch) (ts : List Tmpl) : Bool :=
  l.ntmpl == 0 || decide ((capPtr (l.cap 0x30)).viewLen < 32 * l.ntmpl) || ts.any (fun t => t.bad l) ||
  l.cells.any (fun x => ts.any (fun t => t.covers x && t.roles != 0) && slotsAt ts x == 0)

/-- Whether the launch can stand nowhere (0x23). -/
def State.shapeBad (s : State) (l : Launch) : Bool :=
  l.prows == 0 || l.pcols == 0 || !s.mod.rects.any (fun r => decide (l.prows ≤ r.2.2.1) && decide (l.pcols ≤ r.2.2.2)) ||
  (l.fixed && ((s.resolve l.origin).isNone || (match s.mod.rects[nameRect l.origin]? with
    | some (_, _, h, w) => decide (h < nameRow l.origin + l.prows) || decide (w < nameCol l.origin + l.pcols)
    | none => true)))

/-- The capabilities of a record that are checked, with the rights each needs. -/
def Launch.caps (l : Launch) : List (Ptr × BitVec 8) :=
  [(capPtr (l.cap 0x20), rX), (capPtr (l.cap 0x30), rR), (capPtr (l.cap 0x40), rR ||| rW)] ++
  (if l.rptsz = 0 then [] else [(capPtr (l.cap 0x50), rW)]) ++ (if l.nrill = 0 then [] else [(capPtr (l.cap 0x60), rR)]) ++
  ((List.range 7).filterMap (fun n => if l.cap (0x70 + 16 * n) = 0 then none else some (capPtr (l.cap (0x70 + 16 * n)), 0)))

/-- Whether an object's descriptor is absent. -/
def State.objAbsent (s : State) (obj : BitVec 24) : Bool :=
  match s.lookup obj with
  | .absent => true
  | .found _ d1 _ => !d1.getLsbD 0 || d1.extractLsb' 2 2 == 3
  | _ => false

/-- What a capability breaks of 0x24. -/
def State.capBad (s : State) (c : Ptr × BitVec 8) : Bool :=
  c.2 &&& ~~~c.1.rights != 0 || c.1.low != 0 || (!c.1.isPhys && (decide (2 ^ 40 < c.1.base + c.1.len) || s.objAbsent c.1.obj))

/-- A private object that is absent, not empty, or of another size (0x26). -/
def State.privBad (s : State) (l : Launch) (obj : BitVec 24) : Bool :=
  match s.lookup obj with
  | .found d0 d1 _ => !d1.getLsbD 0 || d1.extractLsb' 2 2 == 3 || d1.extractLsb' 16 16 != 0 || (d0.extractLsb' 0 41).toNat != l.privSize
  | _ => true

/-- The bytes a save area needs (R350). -/
def Launch.saveNeed (l : Launch) : Nat := 90112 * l.np + 131072 * l.maxfp * l.maxf

/-- What the record breaks of 0x26. -/
def State.areasBad (s : State) (l : Launch) : Bool :=
  let save := capPtr (l.cap 0x40)
  save.viewLen == 0 || decide (save.viewLen < l.saveNeed) || (l.rptsz != 0 && decide ((capPtr (l.cap 0x50)).viewLen < l.rptsz)) ||
  l.rptsz % 512 != 0 || decide (131072 < l.privSize) || l.privObjs.any (s.privBad l)

/-- The entries that a launch's rill records declare, over places given by a function. -/
def State.launchDecls (s : State) (l : Launch) (at_ : Nat → Nat → Nat) (nm : Nat → Nat → BitVec 32) : List RDecl :=
  rillDecls (s.rillRecs l) at_ nm

/-- What the rill table breaks of 0x27 wherever the launch is placed. -/
def State.rillsBad (s : State) (l : Launch) : Bool :=
  let rs := s.rillRecs l
  let ds := s.launchDecls l (fun r c => 256 * r + c) (fun r c => mkName 0 r c)
  decide (rs.length < l.nrill) || !rs.all (fun r => r.formOk l.prows l.pcols) || !ds.all (declOk ds (fun _ _ => none))

/-- What a semaphore initialiser breaks (0x28). -/
def State.initsBad (s : State) (l : Launch) (ts : List Tmpl) : Bool :=
  ts.any (fun t => (s.initsOf l t).any (fun i => match i with
    | some w => w.extractLsb' 24 40 != 0
    | none => true))

/-- Whether an id is that of a live launch (R338). DESIGN CHOICE (log 25): a launch is live from when its record is taken, or its RESTORE begun, so that
no two come to live with one id. -/
def State.idLive (s : State) (id : BitVec 32) : Bool :=
  s.launches.any (fun x => x.id == id && x.st != .saved) || s.queues.any (fun q => q.taken.any (fun ws => (newLaunch ws 0).id == id)) ||
  s.hostCmd.any (fun c => c.cmd == 2 && c.launch == id)

/-- The code of the first check that a record fails (R338). A check that would need a template that cannot be read is not made. -/
def State.launchCode (s : State) (l : Launch) : Option Nat :=
  let ts := s.tmpls l
  let tests : List (Bool × Nat) :=
    [ (l.formBad, 0x20),
      (decide (ts.length = l.ntmpl) && l.cells.any (fun x => decide (16 < slotsAt ts x)), 0x21),
      (tmplsBad l ts, 0x22),
      (s.shapeBad l, 0x23),
      (l.caps.any s.capBad, 0x24),
      (!l.privBit && l.caps.any (fun c => c.1.isPhys), 0x25),
      (decide (ts.length < l.ntmpl), 0x22),
      (s.areasBad l, 0x26),
      (l.nrill != 0 && s.rillsBad l, 0x27),
      (s.initsBad l ts, 0x28),
      (s.idLive l.id, 0x29) ]
  (tests.find? (fun t => t.1)).map (·.2)

/-- The words of the entry at LQHEAD, and the state after reading it; those of an entry that a change of LQBASE or LQSIZE made undefined are
free (R333, log 30). -/
def State.headEntry (s : State) (q : Nat) : List (BitVec 64) × State :=
  let x := s.queue q
  let a := s.ownerAddr x.lqbase (256 * (x.lqhead.toNat % x.lqsize.toNat))
  if x.undef = 0 then ((List.range 32).map (fun i => s.rdW (a + 8 * i)), s)
  else ((List.range 32).map (fun i => Config.freeValue (s.free + i)),
    { s with free := s.free + 32 }.onQueue q (fun y => { y with undef := y.undef - 1 }))

/-- LAUNCH_TAKE (R333, R338): the entry at LQHEAD is read, LQHEAD advances at once, and the record is rejected or waits for its placement. -/
def execLaunchTake (q : Nat) (s : State) : Out :=
  .next (
    if !s.sluiceOn || !s.ownerUp || !s.mod.featack.getLsbD 0 || s.nextServed != some q then s
    else
      let r := s.headEntry q
      let ws := r.1
      let l := newLaunch ws q
      let s1 := { r.2 with turn := (q + 1) % 8 }.onQueue q (fun y => { y with lqhead := BitVec.ofNat 12 ((y.lqhead.toNat + 1) % y.lqsize.toNat) })
      match s1.launchCode l with
      | some c => (s1.tablesLost l).post q (doneWords 0x11 c l.id 0 0 0)
      | none => (s1.tablesLost l).onQueue q (fun y => { y with taken := some ws }))

/-! ## Placement (R339) -/

/-- The descriptors of a launch's private objects. -/
def State.privDescs (s : State) (l : Launch) : List Nat :=
  l.privObjs.filterMap (fun o => match s.lookup o with
    | .found _ _ d => some d
    | _ => none)

/-- Whether an extent of an object other than those of some descriptors lies in a range of homes. -/
def State.extentInBut (s : State) (skip : List Nat) (a n : Nat) : Bool :=
  s.allDescs.any (fun d => !skip.contains d && (s.descExts d).any (fun x => (extRanges x.1 x.2).any (fun r => overlaps r.1 r.2 a n)))

/-- The reserved basin range of a plot (R337). -/
def Launch.reserve (l : Launch) (p : Nat) : Nat × Nat := (mkAddr 0 p (0x400000 - 16 * l.privSize), 16 * l.privSize)

/-- Whether a launch may stand on a rectangle of names: no plot of it has failed (R18), belongs to a launch or to a move under way, or lies in a
HOT column; its own private extents do not count against it (log 26). -/
def State.candOk (s : State) (l : Launch) (own : List Nat) (x : Nat × Nat × Nat) : Bool :=
  (match s.mod.rects[x.1]? with
  | some (_, _, h, w) => decide (x.2.1 + l.prows ≤ h) && decide (x.2.2 + l.pcols ≤ w)
  | none => false) &&
  l.cells.all (fun y => match s.resolve (mkName x.1 (x.2.1 + y.1) (x.2.2 + y.2)) with
    | some p => (s.plot p).owner.isNone && (s.plot p).stat != .hole && !(s.plot p).migrating && !s.mod.hot.contains (pcol p) &&
        (l.privSize == 0 || !s.extentInBut own (l.reserve p).1 (l.reserve p).2)
    | none => false)

/-- The candidate places in order: RECT, ROW, COL; or ORIGIN alone. -/
def State.candidates (s : State) (l : Launch) : List (Nat × Nat × Nat) :=
  if l.fixed then [(nameRect l.origin, nameRow l.origin, nameCol l.origin)]
  else (List.range s.mod.rects.length).flatMap (fun n => match s.mod.rects[n]? with
    | some (_, _, h, w) => (List.range (h + 1 - l.prows)).flatMap (fun r => (List.range (w + 1 - l.pcols)).map (fun c => (n, r, c)))
    | none => [])

/-- The place of a launch now, if there is one. -/
def State.findPlace (s : State) (l : Launch) (own : List Nat) : Option (Nat × Nat × Nat) := (s.candidates l).find? (s.candOk l own)

/-- A launch on its place. -/
def Launch.at_ (l : Launch) (x : Nat × Nat × Nat) : Launch := { l with rect := x.1, row := x.2.1, col := x.2.2 }

/-! ## Start (R340) -/

/-- The plot at a placement row and column. -/
def State.plotAt (s : State) (l : Launch) (r c : Nat) : Nat := (s.resolve (mkName l.rect (l.row + r) (l.col + c))).getD 0xFFFF

/-- A word of the object table written by the sluice, as a plain store at wafer scope. -/
def State.putWord (s : State) (a : Nat) (w : BitVec 64) : State := s.homeWrite a (leBytes w.toNat 8) .plain 4

/-- The single extent of a private object created (R337), with its initial presence (R359). -/
def State.createPriv (s : State) (obj : BitVec 24) (size base : Nat) : State :=
  match s.lookup obj with
  | .found _ d1 desc =>
    let x0 := BitVec.ofNat 64 (2 ^ 63 + 2 ^ 62 + (size / 4096 - 1) * 2 ^ 40)
    let x1 := BitVec.ofNat 64 base
    let s1 := (((s.putWord (desc + 8) ((d1 &&& ~~~0xFFFF0000) ||| 0x10000)).putWord (desc + 0x10) x0).putWord (desc + 0x18) x1)
    let init := (d1.extractLsb' 2 2).toNat
    if init = 1 ∨ init = 2 then s1.initExt x0 x1 (init == 2) else s1
  | _ => s

/-- The private extents of a placed launch created. -/
def State.createPrivs (s : State) (l : Launch) : State :=
  if l.privSize = 0 then s
  else
    let s1 := s.otcRemove (fun o => l.privObjs.contains o) (fun _ => false)
    (s1.placed l).foldl (fun s x => slotIdx.foldl (fun s k =>
      s.createPriv ((l.word 0xE0).extractLsb' 0 24 + BitVec.ofNat 24 (16 * x.2 + k)) l.privSize ((l.reserve x.1).1 + k * l.privSize)) s) s1

/-- The private extents of a launch removed (R337, R341). -/
def State.removePrivs (s : State) (l : Launch) : State :=
  if l.privSize = 0 then s
  else
    let s1 := s.otcRemove (fun o => l.privObjs.contains o) (fun _ => false)
    l.privObjs.foldl (fun s o => match s.lookup o with
      | .found _ d1 desc => ((s.putWord (desc + 8) (d1 &&& ~~~0xFFFF0000)).putWord (desc + 0x10) 0).putWord (desc + 0x18) 0
      | _ => s) s1

/-- The semaphore initialisers that apply to a core, by their index in the table (R336). -/
def State.initsFor (s : State) (l : Launch) (ts : List Tmpl) (x : Nat × Nat) : SMap (Option (BitVec 64)) :=
  (ts.filter (fun t => t.covers x)).foldl (fun m t =>
    let is := s.initsOf l t
    (List.range is.length).foldl (fun (m : SMap (Option (BitVec 64))) j => SMap.put m (fieldN t.t3 0 16 + j) (is.getD j none)) m) []

/-- The semaphores of a core after its initialisers, in table order: a later one for the same semaphore stands (R336). -/
def State.startSems (s : State) (l : Launch) (ts : List Tmpl) (x : Nat × Nat) : SMap (BitVec 16) :=
  (s.initsFor l ts x).foldl (fun (m : SMap (BitVec 16)) i => match i.2 with
    | some w => SMap.put m (fieldN w 0 8) (w.extractLsb' 8 16)
    | none => m) []

/-- The templates of a core, one for each of its slots. -/
def slotTmpls (ts : List Tmpl) (x : Nat × Nat) : List Tmpl := (ts.filter (fun t => t.covers x)).flatMap (fun t => List.replicate t.npc t)

/-- The pointer slots of a record (R93, R335). -/
def Launch.slotPtrs (l : Launch) : Vector Ptr 7 := Vector.ofFn (fun (i : Fin 7) => capPtr (l.cap (0x70 + 16 * i.val)))

/-- The tasks of a core created, from slot 0 up. -/
def State.startTasks (s : State) (l : Launch) (ts : List Tmpl) (p : Nat) (x : Nat × Nat) : State :=
  let st := slotTmpls ts x
  (List.range st.length).foldl (fun s k => match st[k]? with
    | some t => s.newTask p k l.id l.privBit (t.t0.extractLsb' 45 3) t.entry t.t2 l.slotPtrs
    | none => s) s

/-- A plot taken by a launch: its slots FREE, its semaphores 0. -/
def Plot.takenBy (x : Plot) (id : BitVec 32) (i : Nat) : Plot :=
  { x with owner := some (id, i), tasks := Vector.replicate 16 {}, sems := [], semNew := [], h0 := {}, h1 := {} }

/-- A launch started on its place; none if its rills cannot be installed there (R338, R340). -/
def State.startLaunch (s : State) (l : Launch) : Option State :=
  let ts := s.tmpls l
  let s1 := { s with launches := l :: s.launches }
  let s2 := (s1.placed l).foldl (fun s x => s.onPlot x.1 (fun y => { y.takenBy l.id x.2 with sems := s.startSems l ts (x.2 / l.pcols, x.2 % l.pcols) })) s1
  let s3 := s2.createPrivs l
  let ds := s3.launchDecls l (s3.plotAt l) (fun r c => mkName l.rect (l.row + r) (l.col + c))
  (s3.installAll ds l.id none).map (fun s4 =>
    (s4.placed l).foldl (fun s x => s.startTasks l ts x.1 (x.2 / l.pcols, x.2 % l.pcols)) (s4.tablesLost l))

/-- LAUNCH_PLACE (R338, R339, R340): the record that heads its queue is placed and started, rejected for what its place refuses, or goes on
waiting while it has no candidate. -/
def execLaunchPlace (q : Nat) (s : State) : Out :=
  .next (match (s.queue q).taken with
    | none => s
    | some ws =>
      let l := newLaunch ws q
      if !s.sluiceOn then s
      else match s.findPlace l [] with
      | none => s
      | some x =>
        let s1 := s.onQueue q (fun y => { y with taken := none })
        (match s1.startLaunch (l.at_ x) with
        | some s2 => s2
        | none => s1.post q (doneWords 0x11 0x27 l.id 0 0 0)))

/-! ## The end of a launch (R341, R353, R354, R394) -/

/-- A SPAWN or a CREST, which would make a task: none is made of a launch that KILL ends (R353). -/
def Op.makesTask (o : Op) : Bool :=
  match o.act.kind with
  | .spawn .. => true
  | .crest _ => true
  | _ => false

/-- A task ended without a record (R353). -/
def State.killTask (s : State) (p k : Nat) : State :=
  if (s.task p k).st == .free then s
  else
    let s1 := (s.dropBlock p k).withdraw p k
    (s1.onTask p k (fun t => { t with
      st := .running, wait := .none, pend := 0, pendInfo := [], engQ := [], leaving := .ended, ops := t.ops.filter (fun o => !o.makesTask) })).settle p k

/-- A command stopped by KILL at its chunk boundary: it counts as performed, without a signal or a record (R353). -/
def State.killCmd (s : State) (c : Cmd) : State := (((s.cmdAccepted c.serial).removeCmd c).dropHandle c.serial).returnUnit c.serial

/-- A launch ended (R353 steps 1 to 3, R354): the first to act ends it. One whose tasks have all ended, and whose fields have still to come to rest,
completes as killed. -/
def State.killLaunch (s : State) (id : BitVec 32) (kind : BitVec 8) (reason : BitVec 32) : State :=
  match s.launch? id with
  | none => s
  | some l =>
    if l.st == .ending then (if l.kind == 0x10 then s.onLaunch id (fun l => { l with kind := kind, reason := reason }) else s)
    else
      let s0 := s.onLaunch id (fun l => { l with st := .ending, kind := kind, reason := reason, frames := [], stay := [] })
      let s1 := (s.plotsOf id).foldl (fun s p => slotIdx.foldl (fun s k => s.killTask p k) s) s0
      let s2 := (s1.cmds.filter (fun c => c.launch == id)).foldl (fun s c => s.killCmd c) s1
      { s2 with faulted := s2.faulted.filter (fun x => x.launch != id) }

/-- Whether a slot no longer holds back the end of its launch: FREE, or of a killed launch with nothing left but commands that a field has
not let in (R341). -/
def Task.gone (t : Task) (killed : Bool) : Bool :=
  t.st == .free || (killed && t.leaving == .ended && t.ops.all (fun o => match o.act.kind with
    | .feed .. => true
    | .wld .. => true
    | _ => false))

/-- Whether every slot of a launch is gone and nothing of it is outstanding (R113, R341). -/
def State.allGone (s : State) (l : Launch) : Bool :=
  (s.plotsOf l.id).all (fun p => slotIdx.all (fun k => (s.task p k).gone (l.kind != 0x10))) &&
  !s.cmds.any (fun c => c.launch == l.id) && !s.faulted.any (fun x => x.launch == l.id)

/-- The barrier groups a launch holds are held no more (R394). -/
def State.freeBars (s : State) (id : BitVec 32) : State :=
  { s with dies := s.dies.map (fun (d : Nat × Die) => (d.1, { d.2 with bars := d.2.bars.map (fun (b : Nat × Bar) =>
      if b.2.arr != 0 && b.2.owner == id then (b.1, { b.2 with arr := 0, count := 0 }) else b) })) }

/-- Whether host agents have still to report writes of a launch complete: those of slots that are free already, and of tasks that a field holds. -/
def State.hostOwed (s : State) (l : Launch) : Bool :=
  ((s.launch? l.id).any (fun x => !x.hostLeft.isEmpty)) || (s.plotsOf l.id).any (fun p => slotIdx.any (fun k => !(s.task p k).hostOps.isEmpty))

/-- Steps 1 to 3 of R341, once the fields of a launch can be released: they go, with its buffers, its rills, its private extents and its hold on barrier
groups (R394). -/
def State.stripLaunch (s : State) (l : Launch) : State :=
  let s1 := (s.fields.filter (fun f => f.launch == l.id)).foldl (fun s f => s.releaseField f) s
  let s2 := { s1 with bufs := s1.bufs.map (fun (b : Buf) => if b.valid && b.launch == l.id then { b with valid := false } else b) }
  ((s2.removeRills (fun _ r => r.launch == l.id)).removePrivs l).freeBars l.id

/-- The steps of R341: what a launch held is released, and, once every write of it has performed at host scope, its record is posted and its plots are
free. -/
def State.finishLaunch (s : State) (l : Launch) : State :=
  let s3 := s.stripLaunch l
  if s3.hostOwed l then s3 else
  let errs := ((s3.launch? l.id).map (·.errs)).getD l.errs
  let s4 := s3.post l.q (doneWords l.kind 0 l.id errs 0 (if l.kind = 0x17 then l.reason else 0))
  let s5 := (s4.plotsOf l.id).foldl (fun s p => s.onPlot p (fun x =>
    { x with owner := none, migrating := false, tasks := Vector.replicate 16 {} })) s4
  { s5 with launches := s5.launches.eraseP (fun x => x.id == l.id)
            plots := s5.plots.map (fun (x : Nat × Plot) => (x.1, { x.2 with code := x.2.code.filter (fun c => c.launch != l.id) }))
            hostCmd := match s5.hostCmd with
              | some c => if c.cmd = 4 ∧ c.launch = l.id then none else some c
              | none => none }

/-- LAUNCH_COMPLETE (R341): once every slot is FREE, its fields are released as FREL does, then everything the launch held, and its record is
posted. -/
def execLaunchComplete (launch : Nat) (s : State) : Out :=
  .next (match s.launch? (BitVec.ofNat 32 launch) with
    | none => s
    | some l =>
      if !s.sluiceOn || (l.st != .live && l.st != .ending) || !s.allGone l then s
      else
        let s1 := s.onLaunch l.id (fun x => { x with st := .ending })
        let fs := s1.fields.filter (fun f => f.launch == l.id)
        if fs.all s1.releasable then s1.finishLaunch l
        else fs.foldl (fun s f => s.onField f.handle (fun g => if g.releasing.isSome then g else { g with releasing := some 0 })) s1)

end Sys2Proof.Machine
end

