-- ==== Sys2Proof/Machine/Moves.lean ====
section
/-! DEFINITION. Saving, restoring and moving launches, and the host commands (R225 to R229, R295, R348 to R353). A command in progress goes on
with every advance of a clock (log 27). -/

namespace Sys2Proof.Machine

open Sys2Proof

/-! ## Commands (R348, R349) -/

/-- A command refused (R349). -/
def State.refuseCmd (s : State) (cq : Nat) (id : BitVec 32) (code : Nat) : State :=
  s.post cq (doneWords 0x15 code id (((s.launch? id).map (·.errs)).getD 0) 0 0)

/-- A write of CMD by the owner, while no command is in progress. -/
def State.hostCmdWrite (s : State) (port : Nat) (f : State → State) : State :=
  s.byOwner port (fun s => if !s.sluiceOn || s.hostCmd.isSome then s else f s)

/-- A command in progress, its clock started. -/
def State.startCmd (s : State) (cmd : Nat) (id : BitVec 32) (cq src dst : Nat) : State :=
  { s with hostCmd := some { cmd := cmd, launch := id, cq := cq, start := (s.die stewardDie).cyc, src := src, dst := dst } }

/-- The command in progress ends with its record. -/
def State.endCmd (s : State) (c : HostCmd) (kind : BitVec 8) (plot : BitVec 32) : State :=
  { s with hostCmd := none }.post c.cq (doneWords kind 0 c.launch (((s.launch? c.launch).map (fun (l : Launch) => l.errs)).getD 0) plot 0)

/-! ## Saving tasks (R225) -/

/-- Whether a committed CSAVE of some task of the core, which performs first, names slot k (R233). -/
def Plot.csaved (x : Plot) (k : Nat) : Bool :=
  slotIdx.any (fun j => (x.task j).ops.any (fun o => match o.act.kind with
    | .csave b => (b.extractLsb' 0 4).toNat == k
    | _ => false))

/-- The READY, RUNNING and WAIT slots of a core begin their save; the others are left as they are. One whose block commits in this cycle, or is
aborted in it by a cause (R70), one that a committed CSAVE names (R233), and one that a HALTC has ended (R354), do not yet. -/
def State.saveCore (s : State) (p : Nat) : State :=
  slotIdx.foldl (fun s k =>
    let t := s.task p k
    if t.leaving == .no && (t.st == .ready || t.st == .running || t.st == .wait) && !(s.plot p).aborting k && !(s.plot p).csaved k &&
        !t.halting && !s.blockDue p k then
      (((((s.dropBlock p k).withdraw p k).stamped p k).onTask p k (fun t => { t with leaving := .saving none t.bpc false, saveTo := none })).settle p k)
    else s) s

/-- Whether no slot of a core has still to be saved. -/
def Plot.allSaved (x : Plot) : Bool := slotIdx.all (fun k => (x.task k).st == .free || (x.task k).st == .saved || (x.task k).st == .suspended)

/-- Whether a slot's frame lies at its place in the launch's save area, and its task does not wait for a page (R227, R351). -/
def State.inArea (s : State) (id : BitVec 32) (p i k : Nat) : Bool :=
  let t := s.task p k
  t.st == .saved && t.frameAt.isSome && t.frameAt == s.saveFrameAt id i k && !s.faulted.any (fun x => x.uid == t.uid)

/-- The slots of a placed plot whose frames the save area holds. -/
def State.savedSlots (s : State) (id : BitVec 32) (x : Nat × Nat) : List SavedSlot :=
  slotIdx.filterMap (fun k => if s.inArea id x.1 x.2 k then
    some ⟨x.2, k, (s.task x.1 k).uid, (s.task x.1 k).wait, (s.task x.1 k).woken, (s.task x.1 k).wake⟩ else none)

/-- The slots of a placed plot that pre-emption leaves as they are (R225). Their tasks too may map no block on another die before its time
exceeds the one they could read here (R24, R396). -/
def State.staySlots (s : State) (id : BitVec 32) (x : Nat × Nat) : List (Nat × Nat × Task) :=
  slotIdx.filterMap (fun k => if (s.task x.1 k).st == .free || s.inArea id x.1 x.2 k then none
    else some (x.2, k, { s.task x.1 k with notBefore := some ((s.task x.1 k).wtSaved (s.wtimeOf x.1)) }))

/-- The tasks of a placed plot restored from the save area, and the slots left as they were put back (R224, R351). -/
def State.restoreSlots (s : State) (id : BitVec 32) (p i : Nat) (frames : List SavedSlot) (stay : List (Nat × Nat × Task)) : State :=
  let s1 := (frames.filter (fun x => x.p == i)).foldl (fun s x => match s.saveFrameAt id i x.k with
    | some (src, q) =>
      ((s.restoreTask p x.k src q { uid := x.uid, woken := x.woken, wake := x.wake } false).getD s).noteLost (dieOf p) id src q 4096
    | none => s) s
  let s2 := (stay.filter (fun x => x.1 == i)).foldl (fun s x => s.setTask p x.2.1 { x.2.2 with since := s.cycOf p }) s1
  s2.onPlot p (fun y => { y with near := [] })

/-! ## Quiescing rills (R295) -/

/-- The marker of the sluice. -/
def sluiceMark : Item := .mark 0xFFFF

/-- Whether a sluice marker is still due or under way in an entry: anywhere but at the head of a join's input. -/
def Rill.markInside (r : Rill) : Bool :=
  r.markDue || (r.res ++ r.transit.map (·.item) ++ r.flight ++ r.flight1 ++ r.conv ++ r.conv1 ++ (if r.role == 3 then r.buf.drop 1 ++ r.buf1.drop 1 else r.buf)).contains sluiceMark

/-- MARK 0xFFFF due in ORDERED send ends. -/
def State.markRills (s : State) (rs : List (Nat × Nat × Rill)) : State :=
  (rs.filter (fun x => x.2.2.role == 1 && !x.2.2.latest && !x.2.2.broken)).foldl (fun s x => s.onRill x.1 x.2.1 (fun r => { r with markDue := true })) s

/-- Whether a send end can take the sluice's marker: in its buffer, or in a slot of its reservoir (R288, R293). -/
def Rill.markRoom (r : Rill) : Bool := if r.spill then decide (r.res.length < 64 * r.rsize) else r.room r.buf sluiceMark

/-- The markers that are due enter the send ends that have room for them, behind what is queued there (R295). -/
def State.sendMarks (s : State) : State :=
  (s.rillsOf (fun _ r => r.markDue && r.markRoom)).foldl (fun s x =>
    (s.append x.1 x.2.1 sluiceMark).onRill x.1 x.2.1 (fun r => { r with markDue := false })) s

/-- An open group of each converter closed early (R289). -/
def Rill.closed (r : Rill) : Rill :=
  { r with conv := r.conv ++ closeGroup r.fmt r.group, group := [], conv1 := r.conv1 ++ closeGroup r.fmt r.group1, group1 := [] }

/-- The placement index of a plot of a launch. -/
def State.placeOf (s : State) (l : Launch) (p : Nat) : Nat := (((s.placed l).find? (fun x => x.1 == p)).map (·.2)).getD 0xFFFF

/-- The rills of a launch as a save keeps them: entries by placement plot, downstream entries too (R295, log 23). The contents of a reservoir stay in the
bank of its plot. -/
def State.snapRills (s : State) (l : Launch) : List (Nat × Nat × Rill) :=
  (s.rillsOf (fun _ r => r.launch == l.id)).map (fun x =>
    (s.placeOf l x.1, x.2.1, { x.2.2.closed with ringAt := x.1, markDue := false, down := x.2.2.down.map (fun d => (s.placeOf l d.1, d.2)) }))

/-- PEER of an entry replaced. -/
def putPeer (ent : BitVec 224) (n : BitVec 32) : BitVec 224 := putField ent 6 25 (n.toNat / 128)

/-- A saved rill entry as a declaration on the launch's place. -/
def State.rillAgain (s : State) (l : Launch) (x : Nat × Nat × Rill) : RDecl :=
  let at_ := fun (i : Nat) => (s.resolve (l.plotName i)).getD 0xFFFF
  match x.2.2.down with
  | some (j, f) => ⟨at_ x.1, x.2.1, putPeer x.2.2.ent (l.plotName j), some (at_ j, f)⟩
  | none => ⟨at_ x.1, x.2.1, x.2.2.ent, none⟩

/-- The granules of the occupied slots of a reservoir in the bank that holds them, oldest first: bytes and poison. -/
def State.ring (s : State) (r : Rill) : List (List Byte × Bool) :=
  (List.range r.res.length).flatMap (fun i => [0, 32].map (fun h =>
    let a := r.slotAddr r.ringAt (r.ringHead + i) + h
    (s.rdBytes a 32, (s.sideAt a).poison)))

/-- Those granules written into the bank of the reservoir's new plot. -/
def State.putRing (s : State) (p : Nat) (r : Rill) (xs : List (List Byte × Bool)) : State :=
  if r.ringAt = p then s
  else (List.range xs.length).foldl (fun s i => match xs[i]? with
    | some x =>
      let b := r.slotAddr p (r.ringHead + i / 2) + 32 * (i % 2)
      (s.wrBytes b x.1).wrSide b { s.sideAt b with poison := x.2 }
    | none => s) s

/-- A reinstalled entry takes what was saved of it, its reservoir's granules included; its items that stood in routers start again in its own (log
23). -/
def State.fillRill (s : State) (l : Launch) (x : Nat × Nat × Rill) (ring : List (List Byte × Bool)) : State :=
  let p := (s.resolve (l.plotName x.1)).getD 0xFFFF
  (s.onRill p x.2.1 (fun n => { x.2.2 with
    ent := n.ent, down := n.down, ups := n.ups, path := n.path, launch := l.id, moved := s.instant
    transit := x.2.2.transit.map (fun t => ⟨t.item, p, n.route⟩) })).putRing p x.2.2 ring

/-- The saved rills of a launch on its place; none where an entry or a path cannot be installed (R287, R369). Every reservoir is read before any is
written, for the new place may overlap the old one. -/
def State.rillsBack (s : State) (l : Launch) (rs : List (Nat × Nat × Rill)) : Option State :=
  (s.installAll (rs.map (s.rillAgain l)) l.id none).map (fun s1 => rs.foldl (fun t x => t.fillRill l x (s1.ring x.2.2)) s1)

/-! ## The save area (R228, R295, R350) -/

/-- Bytes written at an offset of a launch's save area. -/
def State.putSave (s : State) (l : Launch) (off : Nat) (bs : List Byte) : State :=
  let p := capPtr (l.cap 0x40)
  (s.putObj stewardDie l.id p (p.start + off) bs 4).getD s

/-- Bytes read there; zeros where they cannot be read. -/
def State.getSave (s : State) (l : Launch) (off n : Nat) : List Byte :=
  let p := capPtr (l.cap 0x40)
  (s.getObj stewardDie p (p.start + off) n).getD (List.replicate n 0)

/-- The record of a reading of some bytes there over a host link that is down (R156; log 64). -/
def State.saveLost (s : State) (l : Launch) (off n : Nat) : State :=
  let p := capPtr (l.cap 0x40)
  s.noteLost stewardDie l.id p (p.start + off) n

/-- A list of pieces written from a base. -/
def State.putPieces (s : State) (l : Launch) (base : Nat) (xs : List (Nat × List Byte)) : State :=
  xs.foldl (fun s x => s.putSave l (base + x.1) x.2) s

/-- The plot block of a placement plot. -/
def Launch.plotBlock (l : Launch) (i : Nat) : Nat := 65536 * l.np + 24576 * i

/-- The save block of a field's plot. -/
def Launch.fieldBlock (l : Launch) (f : Field) (r c : Nat) : Nat := 90112 * l.np + 131072 * (l.maxfp * f.idx + r * f.cols + c)

/-- What the save area keeps of an entry (R295): its buffered words, its status word, its join state, and, of an entry with a converter (`cv`), the
outputs that wait in it. The area has 64 bytes for the buffered words of an entry, and 192 for its outputs; what a join holds beyond that is kept
with the launch (log 23). -/
def Rill.pieces (r : Rill) (e conv : Nat) (cv : Bool) : List (Nat × List Byte) :=
  let join := r.role == 3
  let mark := match r.buf.head?, r.buf1.head? with
    | some (.mark v), _ => v.toNat
    | _, some (.mark v) => v.toNat
    | _, _ => 0
  let w := r.seq.toNat + (if r.unread then 2 ^ 32 else 0) + (if join && headToken r.buf then 2 ^ 33 else 0) +
    (if join && headToken r.buf1 then 2 ^ 34 else 0) + (if join && r.lastIn then 2 ^ 35 else 0) + (if join then mark * 2 ^ 36 else 0)
  let outs := (r.conv ++ r.conv1).take 8
  let buf := ((r.buf ++ r.buf1).flatMap r.itemBytes).take 64
  (if buf.isEmpty then [] else [(0x4400 + 64 * e, buf)]) ++ [(0x5400 + 16 * e, leBytes r.stat.toNat 8), (0x5408 + 16 * e, leBytes w 8)] ++
  (if cv then (conv + 256 * e, leBytes outs.length 8) :: (if outs.isEmpty then [] else [(conv + 256 * e + 0x40, outs.flatMap r.itemBytes)]) else [])

/-- Whether an entry or an input of a join has a converter (R432). -/
def State.anyConv (s : State) (p e : Nat) : Bool := s.hasConv p e false || s.hasConv p e true

/-- The entries of a plot in its block. -/
def State.rillPieces (s : State) (p conv : Nat) : List (Nat × List Byte) :=
  ((s.plot p).rills.filter (fun r => r.2.role != 0)).flatMap (fun r => r.2.pieces r.1 conv (s.anyConv p r.1))

/-- Items with what saved bytes now hold of them, as far as the bytes go. -/
def Rill.itemsBack (r : Rill) (bs : List Byte) : List Item → List Item
  | [] => []
  | x :: t =>
    let n := 8 * r.itemWords x
    (if n ≤ bs.length then x.back (leNat (bs.take n)) else x) :: Rill.itemsBack r (bs.drop n) t

/-- An entry with what its saved words now hold (R295): its buffered items, CHR.STAT's credits, LASTMARK and back-pressure, its SEQ, UNREAD and last
input, and its converter's waiting outputs. -/
def Rill.readBack (r : Rill) (rd : Nat → Nat → List Byte) (e conv : Nat) (cv : Bool) : Rill :=
  let st := BitVec.ofNat 64 (leNat (rd (0x5400 + 16 * e) 8))
  let w := BitVec.ofNat 64 (leNat (rd (0x5408 + 16 * e) 8))
  let bs := rd (0x4400 + 64 * e) 64
  let n := leNat (rd (conv + 256 * e) 8) % 16
  let outs := rd (conv + 256 * e + 0x40) 192
  let cred := (st.extractLsb' 8 4).toNat
  let all := n == min 8 (r.conv ++ r.conv1).length
  { r with
    buf := r.itemsBack bs r.buf
    buf1 := r.itemsBack (bs.drop (8 * r.wordsIn r.buf)) r.buf1
    seq := w.extractLsb' 0 32
    unread := w.getLsbD 32
    lastIn := if r.role == 3 then w.getLsbD 35 else r.lastIn
    credits := if r.latest || r.role == 2 then r.credits else cred
    owed := if r.latest || r.role != 2 || !r.cmode then r.owed else cred
    bp := if r.role == 3 then r.bp else st.getLsbD 12
    lastMark := if r.role == 2 then st.extractLsb' 48 16 else r.lastMark
    conv := if cv then (r.itemsBack outs r.conv).take (if all then r.conv.length else n) else r.conv
    conv1 := if cv then (r.itemsBack (outs.drop (8 * r.wordsIn r.conv)) r.conv1).take (if all then r.conv1.length else n - r.conv.length) else r.conv1 }

/-- The semaphores of a core in its plot block (R350). -/
def Plot.semPieces (x : Plot) : List (Nat × List Byte) := [(0x5800, (List.range 256).flatMap (fun n => leBytes (x.sem n).toNat 2))]

/-- The semaphores of a plot block's bytes. -/
def semsOf (bs : List Byte) : SMap (BitVec 16) :=
  (List.range 256).foldl (fun (m : SMap (BitVec 16)) n =>
    let v := leNat ((bs.drop (2 * n)).take 2)
    if v = 0 then m else SMap.put m n (BitVec.ofNat 16 v)) []

/-! ## Saving a field (R228) -/

/-- Whether a field has come to rest: no beat or sum inside its cells, every released row-slice offered by all its rows. -/
def State.atRest (s : State) (f : Field) : Bool :=
  f.stopped ||
  (f.cellsOf.all (fun x =>
    let u := (s.plot (s.fieldPlot f x.1 x.2)).fu
    u.cells.all (fun c => c.2.east.isNone && c.2.south.isNone) && u.tiles.all (fun t => t.2.pend.isEmpty)) &&
  (List.range f.rows).all (fun r =>
    let u := (s.plot (s.fieldPlot f r 0)).fu
    u.feeds.all (fun c => !c.released || (s.fedRows f r).all (fun x => c.offered.get x.2 0 == c.next))))

/-- Rows of cells of a plot that are logical rows of its field. -/
def State.cellRows (s : State) (f : Field) (r : Nat) : List Nat := ((s.logRows f).filter (fun g => g / 16 == r)).map (fun g => g % 16)

/-- Rows of cells with a full loading register. -/
def FUnit.fullRows (u : FUnit) : List Nat := (List.range 16).filter (fun i => (List.range 16).any (fun j => (u.cell (16 * i + j)).full))

/-- Groups of sixteen accumulator rows that meet a tile that is not EMPTY. -/
def FUnit.accGroups (u : FUnit) : List Nat :=
  (List.range 32).filter (fun b => u.tiles.any (fun t => t.2.st != .empty && overlaps t.2.base t.2.rows (16 * b) 16))

/-- The elements of the rows that a first pass, still under way, has written into an EMPTY tile: the save area has no bit for them, and a pass
that is resumed needs them (R228, R245, log 23). -/
def FUnit.openRows (u : FUnit) : List (Nat × BitVec 40) :=
  u.tiles.flatMap (fun t => if t.2.st == .empty then (List.range t.2.prog).flatMap (fun a => (List.range 16).map (fun j =>
    (16 * (t.2.base + a) + j, u.accAt (t.2.base + a) j))) else [])

/-- A beat in 32 bytes (R240). -/
def Beat.bytes (b : Beat) : List Byte :=
  leBytes b.data.toNat 16 ++ leBytes b.scale.toNat 4 ++
  leBytes ((if b.tend then 1 else 0) + (if b.fin then 2 else 0) + (if b.swap then 4 else 0) + (if b.eos then 8 else 0) + b.tile.toNat * 256) 12

/-- A beat of 32 bytes, for activation row m. -/
def beatOf (bs : List Byte) (m : Nat) : Beat :=
  let x := BitVec.ofNat 256 (leNat bs)
  { data := x.extractLsb' 0 128, scale := x.extractLsb' 128 32, tile := x.extractLsb' 168 4, tend := x.getLsbD 160, fin := x.getLsbD 161,
    swap := x.getLsbD 162, eos := x.getLsbD 163, m := m }

/-- Bits of a bitmap from a first bit on. -/
def bitsAt (lo : Nat) (xs : List Nat) : Nat := (xs.map (fun i => 2 ^ (lo + i))).sum

/-- What the save area keeps of a field's plot (R228). -/
def State.fieldPieces (s : State) (f : Field) (r c : Nat) : List (Nat × List Byte) :=
  let x := s.plot (s.fieldPlot f r c)
  let u := x.fu
  let act := s.cellRows f r
  let full := u.fullRows
  let west := (List.range 16).filter (fun i => !(u.west.get i []).isEmpty)
  let accs := u.accGroups
  let items := (x.rills.filter (fun e => e.2.role != 0 && !(e.2.buf ++ e.2.buf1).isEmpty)).map (·.1)
  let js := List.range 16
  [(0, leBytes f.image.toNat 8), (8, leBytes (r + c * 2 ^ 8 + (f.roleAt r c).toNat * 2 ^ 16) 8),
   (0x40, leBytes (bitsAt 0 act + bitsAt 16 full + bitsAt 32 west + bitsAt 64 accs + bitsAt 128 items) 32)] ++
  (List.range 64).map (fun t => (0x100 + 8 * t, leBytes (u.tileWord t).toNat 8)) ++
  act.flatMap (fun i => js.map (fun j => (0x400 + 16 * (16 * i + j), leBytes (u.cell (16 * i + j)).wAct.toNat 16))) ++
  full.flatMap (fun i => js.map (fun j => (0x1400 + 16 * (16 * i + j), leBytes (u.cell (16 * i + j)).wLoad.toNat 16))) ++
  ((List.range 16).filter (fun i => act.contains i || full.contains i)).flatMap (fun i => js.map (fun j =>
    (0x2400 + 16 * (16 * i + j), leBytes (x.fieldRead (64 * (16 * i + j) + 0x20)).toNat 8 ++ leBytes (x.fieldRead (64 * (16 * i + j) + 0x28)).toNat 8))) ++
  west.flatMap (fun i => (List.range (u.west.get i []).length).filterMap (fun b => (u.west.get i [])[b]?.map (fun y => (0x3400 + 256 * i + 32 * b, y.bytes)))) ++
  accs.flatMap (fun b => (List.range 16).flatMap (fun a => js.map (fun j =>
    (0x6000 + 128 * (16 * b + a) + 8 * j, leBytes (u.accAt (16 * b + a) j).toNat 8)))) ++
  s.rillPieces (s.fieldPlot f r c) 0x16000

/-- What a save keeps of a field's plot beside that (log 23). -/
def State.heldOf (s : State) (f : Field) (r c : Nat) : HeldUnit :=
  let u := (s.plot (s.fieldPlot f r c)).fu
  ⟨r, c, u.feeds, u.wlds, u.tiles.map (fun (t : Nat × Tile) => (t.1, t.2.draining, t.2.drained)),
   u.west.map (fun (q : Nat × List Beat) => (q.1, q.2.map (·.m))), u.openRows, (u.cells.filter (fun c => c.2.par)).map (·.1), u.loaded,
   (s.plot (s.fieldPlot f r c)).colBy, (s.plot (s.fieldPlot f r c)).rowBy⟩

/-- A field as a save keeps it: its save blocks written, its master's plot by placement. -/
def State.saveField (s : State) (l : Launch) (f : Field) : State :=
  let held := f.cellsOf.map (fun x => s.heldOf f x.1 x.2)
  let s1 := f.cellsOf.foldl (fun s x => s.putPieces l (l.fieldBlock f x.1 x.2) (s.fieldPieces f x.1 x.2)) s
  let g := { f with held := held, masterPlot := s.placeOf l f.masterPlot, row := f.row - l.row, col := f.col - l.col }
  let s2 := s1.onLaunch l.id (fun x => { x with savedFields := x.savedFields ++ [g] })
  let s3 := { s2 with fields := s2.fields.filter (fun x => x.handle != f.handle) }
  (f.cellsOf.map (fun x => s.fieldPlot f x.1 x.2)).foldl (fun s p => s.onFu p (fun u => { u.released with feeds := [], wlds := [], loaded := [] })) s3

/-! ## PREEMPT (R350) -/

/-- A plot that its launch leaves; its block cache holds nothing of it any more (R58). -/
def Plot.left (x : Plot) : Plot := { x with owner := none, tasks := Vector.replicate 16 {}, sems := [], semNew := [], h0 := {}, h1 := {}, code := [] }

/-- The save of a launch once everything of it is at rest. -/
def State.saveLaunch (s : State) (c : HostCmd) (l : Launch) : State :=
  let pl := s.placed l
  let frames := pl.flatMap (s.savedSlots l.id)
  let stay := pl.flatMap (s.staySlots l.id)
  let rills := s.snapRills l
  let s1 := (s.rillsOf (fun _ r => r.launch == l.id)).foldl (fun s x => s.onRill x.1 x.2.1 Rill.closed) s
  let s2 := (s1.fields.filter (fun f => f.launch == l.id)).foldl (fun s f => s.saveField l f) s1
  let s3 := pl.foldl (fun s x =>
    let y := s.plot x.1
    let inField := (s1.fieldOf x.1).isSome
    s.putPieces l (l.plotBlock x.2) ((if inField then [] else s.rillPieces x.1 0) ++ y.semPieces)) s2
  let s4 := s3.removeRills (fun _ r => r.launch == l.id)
  let s5 := pl.foldl (fun s x => s.onPlot x.1 Plot.left) s4
  (s5.onLaunch l.id (fun x => { x with st := .saved, frames := frames, stay := stay, savedRills := rills, marked := false, fieldsStop := false })).endCmd c 0x12 0

/-- The sluice's marker sent, or its absorption awaited (R295 steps 1 and 2); true once the rills concerned are quiet. -/
def State.quiesce (s : State) (c : HostCmd) (l : Launch) (mine : Nat → Rill → Bool) : State × Bool :=
  if !l.marked then
    ({ ((s.markRills (s.rillsOf mine)).sendMarks).onLaunch l.id (fun x => { x with marked := true }) with
        hostCmd := some { c with start := (s.die stewardDie).cyc } }, false)
  else
    let s1 := s.sendMarks
    (s1, c.quiet || !(s1.rillsOf (fun _ r => r.launch == l.id)).any (fun x => x.2.2.markInside))

/-- A step of PREEMPT (R350): the tasks and the rills first, then the commands, and only then do the feeders of the launch's fields stop, so that what a
task waits for in a field comes to its end before. -/
def State.preemptStep (s : State) (c : HostCmd) (l : Launch) : State :=
  let ps := s.plotsOf l.id
  let s1 := ps.foldl (fun s p => s.saveCore p) s
  if !ps.all (fun p => (s1.plot p).allSaved) then s1
  else
    let q := s1.quiesce c l (fun _ r => r.launch == l.id)
    let fs := q.1.fields.filter (fun f => f.launch == l.id)
    if !q.2 || q.1.cmds.any (fun x => x.launch == l.id) then q.1
    else if !l.fieldsStop && !fs.isEmpty then q.1.onLaunch l.id (fun x => { x with fieldsStop := true })
    else if !fs.all q.1.atRest then q.1
    else q.1.saveLaunch c l

/-! ## RESTORE (R229, R351) -/

/-- The cells of a save block's bytes over those the image gives; a register with a parity error keeps it (R256). -/
def cellsBack (rd : Nat → Nat → List Byte) (bits : Nat) (par : List Nat) (cells : SMap Cell) : SMap Cell :=
  (List.range 256).foldl (fun m k =>
    let act := bits.testBit (k / 16)
    let full := bits.testBit (16 + k / 16)
    if !act && !full then m
    else
      let x := m.get k {}
      let w := leNat (rd (0x2400 + 16 * k) 16)
      m.put k { x with
        wAct := if act then BitVec.ofNat 128 (leNat (rd (0x400 + 16 * k) 16)) else x.wAct
        wLoad := if full then BitVec.ofNat 128 (leNat (rd (0x1400 + 16 * k) 16)) else x.wLoad
        gAct := BitVec.ofNat 32 w, gLoad := BitVec.ofNat 32 (w / 2 ^ 32), mx := BitVec.ofNat 8 (w / 2 ^ 64), full := w.testBit 74,
        par := par.contains k }) cells

/-- The west queues of a save block's bytes. -/
def westBack (rd : Nat → Nat → List Byte) (bits : Nat) (ms : SMap (List Nat)) : SMap (List Beat) :=
  (List.range 16).foldl (fun (q : SMap (List Beat)) i =>
    if !bits.testBit (32 + i) then q
    else
      let rows := ms.get i []
      SMap.put q i ((List.range (min 8 rows.length)).map (fun b => beatOf (rd (0x3400 + 256 * i + 32 * b) 32) (rows.getD b 0)))) []

/-- The field units of a plot as R229 rebuilds them; the state words recreate the poison marks (R256). -/
def FUnit.back (u : FUnit) (rd : Nat → Nat → List Byte) (h : HeldUnit) (now : BitVec 64) : FUnit :=
  let bits := leNat (rd 0x40 32)
  let accs := (List.range 32).filter (fun b => bits.testBit (64 + b))
  let u1 := accs.foldl (fun u b => (List.range 16).foldl (fun u a => (List.range 16).foldl (fun u j =>
    u.setAcc (16 * b + a) j (BitVec.ofNat 40 (leNat (rd (0x6000 + 128 * (16 * b + a) + 8 * j) 8)))) u) u) u
  let u1 := h.rows.foldl (fun u x => u.setAcc (x.1 / 16) (x.1 % 16) x.2) u1
  let u2 := (List.range 16).foldl (fun u t => u.writeTile t (BitVec.ofNat 64 (leNat (rd (0x100 + 8 * t) 8)))) u1
  let u3 := h.drains.foldl (fun u d => u.setTile d.1 { u.tile d.1 with draining := d.2.1, drained := d.2.2 }) u2
  { u3 with
    cells := cellsBack rd bits h.par u3.cells
    west := westBack rd bits h.ms
    loaded := h.loaded
    feeds := h.feeds.map (fun c => { c with start := now })
    wlds := h.wlds }

/-- The commands that a saved field holds end as performed where it cannot come back, as a release discards them (R229, R275). -/
def State.dropHeld (s : State) (f : Field) (held : List HeldUnit) : State :=
  held.foldl (fun s h =>
    let p := s.fieldPlot f h.r h.c
    let s1 := h.feeds.foldl (fun s c => s.finishHeld p c.uid c.serial) s
    h.wlds.foldl (fun s c => s.finishHeld p c.uid c.serial) s1) s

/-- A saved field on its new place: reconfigured from the image whose id its first save block records, its marked buffers written back; without its image, or where the CRC fails,
its master task ends with FIELD (R229), as it does where a page was declined meanwhile (R406). -/
def State.restoreField (s : State) (l : Launch) (g : Field) : State :=
  let f := { g with rect := l.rect, row := l.row + g.row, col := l.col + g.col, held := [],
                    masterPlot := (s.resolve (l.plotName g.masterPlot)).getD 0xFFFF }
  let img := s.readImage stewardDie f.imagePtr (f.imagePtr.start + f.imagePtr.cur.toNat)
  let id := BitVec.ofNat 64 (leNat (s.getSave l (l.fieldBlock f 0 0) 8))
  if !img.whole || img.hdr.cls != 0x7E || img.hdr.pay.extractLsb' 160 64 != id || crc32 img.crcBytes != img.hdr.fld 32 32 then (s.dropHeld f g.held).masterFault f
  else
    let agens := f.agens.map (fun a => { a with window := (s.windowOf stewardDie a.ptr).getD a.window })
    let entries := (s.rillsOf (fun _ r => r.field == some f.handle)).map (fun x => (x.1, x.2.1))
    let s1 := { s with fields := s.fields ++ [{ f with agens := agens, entries := entries, image := id }] }
    f.cellsOf.foldl (fun s x =>
      let p := s.fieldPlot f x.1 x.2
      let h := (g.held.find? (fun y => y.r == x.1 && y.c == x.2)).getD { r := x.1, c := x.2, feeds := [], wlds := [], drains := [], ms := [] }
      s.onFu p (fun u => (s.confUnit img f x.1 x.2 u).back (fun o n => s.getSave l (l.fieldBlock f x.1 x.2 + o) n) h (s.cycOf p))) s1
      |> fun (t : State) => if g.stopped then t.masterFault f else t

/-- Where the save area of a launch holds the entries of placement plot i, and, within that block, its converters' outputs (R295). -/
def Launch.rillBlock (l : Launch) (i : Nat) : Nat × Nat :=
  (l.savedFields.findSome? (fun f => (f.cellsOf.find? (fun x => (f.row + x.1) * l.pcols + f.col + x.2 == i)).map (fun x =>
    (l.fieldBlock f x.1 x.2, 0x16000)))).getD (l.plotBlock i, 0)

/-- The entries of a restored launch with what the save area holds of them (R229, R295), as far as it can be read. -/
def State.readRills (s : State) (l l2 : Launch) : State :=
  l.savedRills.foldl (fun s x =>
    let b := l.rillBlock x.1
    let p := (s.resolve (l2.plotName x.1)).getD 0xFFFF
    let cap := capPtr (l.cap 0x40)
    if (s.getObj stewardDie cap (cap.start + b.1 + 0x5400 + 16 * x.2.1) 16).isNone then s
    else s.onRill p x.2.1 (fun r => r.readBack (fun o n => s.getSave l (b.1 + o) n) x.2.1 b.2 (s.anyConv p x.2.1))) s

/-- Whether the plots of a place bypass the same rows and columns as those of a saved field did. DESIGN CHOICE (log 72): R339 and R351 name no latch,
and a field restored elsewhere would not go on bit-identically, as R229 asks. -/
def State.sameLatches (s : State) (l : Launch) (x : Nat × Nat × Nat) : Bool :=
  l.savedFields.all (fun f => f.held.all (fun h =>
    (s.resolve (mkName x.1 (x.2.1 + f.row + h.r) (x.2.2 + f.col + h.c))).any (fun p => (s.plot p).colBy == h.colBy && (s.plot p).rowBy == h.rowBy)))

/-- The place of a saved launch now, if there is one (R339, R351). -/
def State.findAgain (s : State) (l : Launch) : Option (Nat × Nat × Nat) :=
  (s.candidates l).find? (fun x => s.candOk l (s.privDescs l) x && s.sameLatches l x)

/-- The records of a restore's readings of the save area over a host link that is down: one for each plot block and each block of a field's plot. -/
def State.areaLost (s : State) (l : Launch) : State :=
  let s1 := (List.range l.np).foldl (fun s i => s.saveLost l (l.plotBlock i) 24576) s
  l.savedFields.foldl (fun s f => f.cellsOf.foldl (fun s x => s.saveLost l (l.fieldBlock f x.1 x.2) 131072)
    (s.noteLost stewardDie l.id f.imagePtr (f.imagePtr.start + f.imagePtr.cur.toNat) 32)) s1

/-- A step of RESTORE: the launch placed as soon as a place is found where its rills can be installed. Its fields come back after its tasks, which hold again
the units of the commands that the fields hold (R224, R229). -/
def State.restoreStep (s : State) (c : HostCmd) (l : Launch) : State :=
  match s.findAgain l with
  | none => s
  | some x =>
    let l2 := { l.at_ x with st := .live, frames := [], stay := [], savedRills := [], marked := false }
    let s1 := s.onLaunch l.id (fun _ => l2)
    let s2 := (s1.placed l2).foldl (fun s x => s.onPlot x.1 (fun y =>
      { y.takenBy l.id x.2 with sems := semsOf (s.getSave l (l.plotBlock x.2 + 0x5800) 512) })) s1
    match s2.rillsBack l2 l.savedRills with
    | none => s
    | some s3 =>
      let s4 := (s3.placed l2).foldl (fun s x => s.restoreSlots l.id x.1 x.2 l.frames l.stay) (s3.readRills l l2)
      let s5 := s4.onLaunch l.id (fun x => { x with savedFields := [] })
      ((l.savedFields.foldl (fun s f => s.restoreField l2 f) s5).areaLost l).endCmd c 0x13 0

/-! ## Tasks saved by a page fault (R226, R351, R406) -/

/-- The free slot of its launch's placement that the sluice picks for a task whose page is resident (R226): the one the agenda names, else the
one it left, which is SAVED until now, else the first FREE one (log 58). `spots` are the placement's plots and slots, `own` the one it left. -/
def State.faultSpot (s : State) (x : Faulted) (spots : List (Nat × Nat)) (own : Option (Nat × Nat)) : Option (Nat × Nat) :=
  let open_ := fun (y : Nat × Nat) => (s.task y.1 y.2).st == .free && (s.plot y.1).stat != .hole
  ((x.spot.filter (fun y => spots.contains y && open_ y)).or own).or (spots.find? open_)

/-- A task whose page is resident restored into a free slot of its launch's placement; the slot it left is FREE then. -/
def State.restoreFaulted (s : State) (x : Faulted) : State :=
  match s.launch? x.launch with
  | none => s
  | some l =>
    if l.st != .live then s
    else
      let spots := (s.placed l).flatMap (fun y => slotIdx.map (fun k => (y.1, k)))
      let own := spots.find? (fun y => (s.task y.1 y.2).st == .saved && (s.task y.1 y.2).uid == x.uid)
      match s.faultSpot x spots own, s.saveFrameAt x.launch x.p x.k with
      | some (p, k), some (src, q) =>
        let kept : Kept := match own with
          | some y => { uid := x.uid, woken := (s.task y.1 y.2).woken, wake := (s.task y.1 y.2).wake }
          | none => { uid := x.uid }
        let s0 := match own with
          | some y => if y = (p, k) then s else s.vacate y.1 y.2 (s.task y.1 y.2).freed
          | none => s
        (match s0.restoreTask p k src q kept false with
        | some s1 => { (s1.noteLost (dieOf p) x.launch src q 4096).onTask p k (fun t => { t with refault := some (x.obj, x.pg ++ (0 : BitVec 12)) }) with
                         faulted := s1.faulted.filter (fun y => y.uid != x.uid) }
        | none => s)
      | _, _ => s

/-- Every task whose page is resident restored as far as slots are free. -/
def State.restoreResident (s : State) : State := (s.faulted.filter (fun x => x.resident)).foldl (fun s x => s.restoreFaulted x) s

/-! ## MIGRATE (R352) -/

/-- A plot exchanged with another. -/
def swapPlot (p q x : Nat) : Nat := if x = p then q else if x = q then p else x

/-- A basin or bank address exchanged with that of another plot. -/
def swapAddr (p q a : Nat) : Nat := if spaceOf a ≤ 1 then mkAddr (spaceOf a) (swapPlot p q (plotOfAddr a)) (offOfAddr a) else a

/-- The basins and banks of two plots exchanged, sidebands included. -/
def State.swapMem (s : State) (p q : Nat) : State :=
  { s with
    mem := s.mem.foldl (fun m c => memPut m (swapAddr p q c.1) c.2) []
    side := s.side.foldl (fun (m : SMap Side) c => SMap.put m (swapAddr p q c.1) c.2) [] }

/-- BASE of an extent after the exchange, where one plot homes all of it: a stripe over several plots names them by one base and a rule (R360), so
that no BASE of it exchanges one of them (log 27). -/
def swapBase (p q : Nat) (x0 x1 : BitVec 64) : BitVec 64 :=
  if (extRanges x0 x1).length = 1 then BitVec.ofNat 64 (swapAddr p q x1.toNat) else x1

/-- The extents homed in two plots repointed, in the object table and in every cistern's cache. -/
def State.swapExtents (s : State) (p q : Nat) : State :=
  let s1 := s.allDescs.foldl (fun s d =>
    let d1 := s.rdW (d + 8)
    if !d1.getLsbD 0 then s
    else (List.range (d1.extractLsb' 16 16).toNat).foldl (fun s i =>
      let a := s.extAddr d d1 i
      let n := swapBase p q (s.rdW a) (s.rdW (a + 8))
      if (s.rdW a).getLsbD 63 && (s.rdW a).getLsbD 62 && n != s.rdW (a + 8) then s.putWord (a + 8) n else s) s) s
  { s1 with dies := s1.dies.map (fun (d : Nat × Die) => (d.1, { d.2 with otc := d.2.otc.map (fun e => { e with x1 := swapBase p q e.x0 e.x1 }) })) }

/-- Translations that are kept by field windows and registered buffers follow the exchange (R352). -/
def State.swapPinned (s : State) (p q : Nat) : State :=
  { s with
    fields := s.fields.map (fun f => { f with agens := f.agens.map (fun a => { a with window := a.window.map (fun w => (w.1, swapAddr p q w.2.1, w.2.2)) }) })
    bufs := s.bufs.map (fun (b : Buf) => { b with pages := b.pages.map (fun (y : Nat × Nat) => (y.1, swapAddr p q y.2)) }) }

/-- The homes that the loads of a half's block have still to read follow the exchange, with those that its gates stall on. -/
def Half.swapHomes (h : Half) (p q : Nat) : Half :=
  { h with blk := h.blk.map (fun b => { b with slots := b.slots.map (fun r => { r with
      homes := if r.homes.1.isNone then r.homes else (r.homes.1, r.homes.2.map (fun h => (swapAddr p q h.1, h.2)))
      gate := r.gate.map (fun g => g.rehome (swapAddr p q) false) }) }) }

/-- Operations whose homes were fixed before the exchange follow it (R214): issued ones, loads under way, and the emptyings and restores of TAKEs. So do
waits for presence that an object's words gave (R66). -/
def State.swapHomes (s : State) (p q : Nat) : State :=
  State.rehomeWaits { s with
    takes := s.takes.map (fun x => if x.obj.isNone then x else { x with home := swapAddr p q x.home })
    plots := s.plots.map (fun (x : Nat × Plot) => (x.1, { x.2 with
      h0 := x.2.h0.swapHomes p q
      h1 := x.2.h1.swapHomes p q
      tasks := x.2.tasks.map (fun t => { t with ops := t.ops.map (fun o =>
        if o.act.ptr.isPhys then o else { o with homes := o.homes.map (fun h => (swapAddr p q h.1, h.2)) }) }) })) } (swapAddr p q) false

/-- Whether an extent lies in the basin or the bank of one of two plots, with any stripe of it. -/
def extOn (p q : Nat) (x0 x1 : BitVec 64) : Bool :=
  !isHost x1.toNat && (extRanges x0 x1).any (fun r => plotOfAddr r.1 == p || plotOfAddr r.1 == q)

/-- MIG of the first word of an extent (R360). -/
def migBit : BitVec 64 := BitVec.twoPow 64 61

/-- The extents in use on two plots that are not marked yet, by the address of their first word. -/
def State.extsOn (s : State) (p q : Nat) : List Nat :=
  s.allDescs.flatMap (fun d =>
    let d1 := s.rdW (d + 8)
    if !d1.getLsbD 0 then []
    else (List.range (d1.extractLsb' 16 16).toNat).filterMap (fun i =>
      let a := s.extAddr d d1 i
      if (s.rdW a).getLsbD 63 && !(s.rdW a).getLsbD 61 && extOn p q (s.rdW a) (s.rdW (a + 8)) then some a else none))

/-- The entries of every cistern's cache that lie on two plots, with their MIG set or cleared. -/
def State.otcMig (s : State) (p q : Nat) (set : Bool) : State :=
  { s with dies := s.dies.map (fun (d : Nat × Die) => (d.1, { d.2 with otc := d.2.otc.map (fun e =>
      if extOn p q e.x0 e.x1 then { e with x0 := if set then e.x0 ||| migBit else e.x0 &&& ~~~migBit } else e) })) }

/-- The extents on two plots marked migrating (R352, step 1): accesses to them wait (R171). -/
def State.markExts (s : State) (p q : Nat) : State :=
  let s1 := (s.extsOn p q).foldl (fun s a => s.putWord a (s.rdW a ||| migBit)) s
  s1.otcMig p q true

/-- The marks cleared (R352, step 7). -/
def State.clearMarks (s : State) (c : HostCmd) : State :=
  let s1 := c.marks.foldl (fun s a => s.putWord a (s.rdW a &&& ~~~migBit)) s
  ((s1.otcMig c.src c.dst false).onPlot c.src (fun x => { x with migrating := false })).onPlot c.dst (fun x => { x with migrating := false })

/-- The logical names of two plots exchanged (R376). -/
def State.swapNames (s : State) (p q : Nat) : State :=
  let a := s.nameOf p
  let b := s.nameOf q
  s.mapChange [] (fun s => s.onMod (fun m => { m with
    rebinds := m.rebinds.filter (fun r => r.1 != a && r.1 != b && r.2 != p && r.2 != q) ++ [(a, q)] ++ (if b = invalidName then [] else [(b, p)]) }))

/-- The refusal of a MIGRATE for its two plots (R349). A name that is no plot of the launch is refused as an unfit target is (log 28). -/
def State.migrateCode (s : State) (l : Launch) (src : Option Nat) (dst : Nat) : Option Nat :=
  match src with
  | none => some 0x32
  | some p =>
    if (s.plot p).owner.map (·.1) != some l.id || !plotExists dst || !sameCluster p dst || s.mod.hot.contains (pcol dst) ||
        (s.plot dst).owner.isSome || (s.plot dst).stat == .hole || (s.plot dst).stat == .spare || (s.plot p).partner != 0xFFFF ||
        (s.plot dst).partner != 0xFFFF || (l.privSize != 0 && s.extentIn (l.reserve dst).1 (l.reserve dst).2) then some 0x32
    else if (s.fieldOf p).isSome then some 0x33 else none

/-- A rill end after the exchange. -/
def moveEnd (p q : Nat) (d : Nat × Nat) : Nat × Nat := (if d.1 = p then q else d.1, d.2)

/-- The rill entries of plot p stand on plot q, their open groups closed (R289), and every end that names one names its new place (R352). -/
def State.moveEntries (s : State) (p q : Nat) : State :=
  let mine := (s.plot p).rills
  let s1 := (s.onPlot p (fun x => { x with rills := [] })).onPlot q (fun x =>
    { x with rills := mine.map (fun r => (r.1, { r.2.closed with markDue := false, moved := s.instant })) })
  { s1 with plots := s1.plots.map (fun (x : Nat × Plot) => (x.1, { x.2 with rills := x.2.rills.map (fun r => (r.1, { r.2 with
      down := r.2.down.map (moveEnd p q), ups := r.2.ups.map (moveEnd p q) })) })) }

/-- A rill whose one end has moved given a new path, from whose start its items in routers go again (R369, log 27); where no path can be had it is
broken, as R296 breaks a rill, and no other. A route that system software has written, of index 128 or above, stays as it is. -/
def State.repath (s : State) (q : Nat) (x : Nat × Nat × Rill) : State :=
  let r := x.2.2
  let cut := fun (s : State) =>
    let s1 := s.breakRill x.1 x.2.1
    match r.down with
    | some (a, f) => if (s1.rill a f).role == 2 then s1.breakRill a f else s1
    | none => s1
  match r.down with
  | none => s
  | some (a, _) =>
    if 128 ≤ r.route then (if x.1 != q || ((s.plot q).route r.route).getLsbD 11 then s else cut s)
    else match (s.pathTo x.1 a).bind (s.takePath 0) with
    | none => cut s
    | some (s1, i, used) => s1.onRill x.1 x.2.1 (fun y => { y with
        ent := (y.ent &&& ~~~((0xFF : BitVec 224) <<< 31)) ||| (BitVec.ofNat 224 i <<< 31), path := used, detoured := false
        transit := y.transit.map (fun t => ⟨t.item, x.1, i⟩) })

/-- The rill entries of a plot moved (R352): only rills with an end there take new paths. The exchange has brought their reservoirs' slots along. -/
def State.moveRills (s : State) (p q : Nat) : State :=
  let s1 := s.moveEntries p q
  let ends := (s1.rillsOf (fun a r => r.down.any (fun d => a == q || d.1 == q)))
  let s2 := ends.foldl (fun s x => (s.freePath x.2.2.path).onRill x.1 x.2.1 (fun r => { r with path := [] })) s1
  ends.foldl (fun s x => s.repath q x) s2

/-- The move itself (R352 steps 4 to 8). -/
def State.moveLaunch (s : State) (c : HostCmd) (l : Launch) (i : Nat) : State :=
  let p := c.src
  let q := c.dst
  let frames := s.savedSlots l.id (p, i)
  let stay := s.staySlots l.id (p, i)
  let sems := (s.plot p).sems
  let s1 := ((s.swapExtents p q).swapMem p q).swapNames p q
  let s2 := (((s1.swapHomes p q).swapPinned p q).onPlot p (fun x => { x.left with migrating := false })).onPlot q (fun x =>
    { x.takenBy l.id i with sems := sems, migrating := false })
  let s4 := ((s2.moveRills p q).clearMarks c).restoreSlots l.id q i frames stay
  (s4.onLaunch l.id (fun x => { x with marked := false })).endCmd c 0x14 (l.plotName i)

/-- A MIGRATE that cannot go on, because its target has failed meanwhile and takes no work (R18): its marks are cleared, the tasks it has saved go on
where they were, and it is refused as an unfit target is (R349; log 28). -/
def State.dropMigrate (s : State) (c : HostCmd) (l : Launch) (i : Nat) : State :=
  let s1 := (s.clearMarks c).restoreSlots l.id c.src i (s.savedSlots l.id (c.src, i)) []
  { (s1.onLaunch l.id (fun x => { x with marked := false })) with hostCmd := none }.refuseCmd c.cq l.id 0x32

/-- A step of MIGRATE. -/
def State.migrateStep (s : State) (c : HostCmd) (l : Launch) : State :=
  match (s.plot c.src).owner with
  | none => ({ s with hostCmd := none }.clearMarks c).refuseCmd c.cq l.id 0x32
  | some (_, i) =>
    if (s.plot c.dst).stat == .hole then s.dropMigrate c l i else
    let s1 := s.saveCore c.src
    if !(s1.plot c.src).allSaved then s1
    else
      let q := s1.quiesce c l (fun p r => r.launch == l.id && (p == c.src || r.down.map (·.1) == some c.src))
      if q.2 then q.1.moveLaunch c l i else q.1

/-! ## Progress -/

/-- The command in progress goes on. A launch that HALTC has ended meanwhile is no launch any more (R349, R354). -/
def State.hostProgress (s : State) : State :=
  match s.hostCmd with
  | none => s
  | some c =>
    if c.cmd = 4 ∨ !s.sluiceOn then s
    else match s.launch? c.launch with
    | none => ({ s with hostCmd := none }.clearMarks c).refuseCmd c.cq c.launch 0x30
    | some l =>
      if l.st == .ending then ({ s with hostCmd := none }.clearMarks c).refuseCmd c.cq c.launch 0x30
      else match c.cmd with
      | 1 => s.preemptStep c l
      | 2 => s.restoreStep c l
      | _ => s.migrateStep c l

/-- RILL_QUIESCE_TIMEOUT (R295): 4,096 cycles after the markers were sent, the rills are saved as they stand. -/
def execRillQuiesceTimeout (launch : Nat) (s : State) : Out :=
  .next (match s.hostCmd, s.launch? (BitVec.ofNat 32 launch) with
    | some c, some l =>
      if c.launch = l.id ∧ l.marked ∧ 4096 ≤ ((s.die stewardDie).cyc - c.start).toNat then { s with hostCmd := some { c with quiet := true } } else s
    | _, _ => s)

/-! ## The commands' events (R348) -/

/-- HOST_PREEMPT (R350). -/
def execHostPreempt (port cq launch : Nat) (s : State) : Out :=
  .next (s.hostCmdWrite port (fun s =>
    let id := BitVec.ofNat 32 launch
    match s.launch? id with
    | none => s.refuseCmd (cq % 8) id 0x30
    | some l =>
      if l.st == .ending then s.refuseCmd (cq % 8) id 0x30
      else if l.st != .live then s.refuseCmd (cq % 8) id 0x31
      else ((s.onLaunch id (fun l => { l with st := .saving, marked := false })).startCmd 1 id (cq % 8) 0xFFFF 0xFFFF).hostProgress))

/-- HOST_RESTORE (R351); refused while a launch of its id is live (R349; log 25). -/
def execHostRestore (port cq launch : Nat) (s : State) : Out :=
  .next (s.hostCmdWrite port (fun s =>
    let id := BitVec.ofNat 32 launch
    match s.launch? id with
    | none => s.refuseCmd (cq % 8) id 0x30
    | some l =>
      if l.st == .ending then s.refuseCmd (cq % 8) id 0x30
      else if l.st != .saved || s.idLive id then s.refuseCmd (cq % 8) id 0x31
      else (s.startCmd 2 id (cq % 8) 0xFFFF 0xFFFF).hostProgress))

/-- HOST_MIGRATE (R352): its plots are those of CARG0 and CARG1. -/
def execHostMigrate (port cq launch : Nat) (s : State) : Out :=
  .next (s.hostCmdWrite port (fun s =>
    let id := BitVec.ofNat 32 launch
    match s.launch? id with
    | none => s.refuseCmd (cq % 8) id 0x30
    | some l =>
      if l.st == .ending then s.refuseCmd (cq % 8) id 0x30
      else if l.st != .live then s.refuseCmd (cq % 8) id 0x31
      else
        let src := s.resolve s.mod.carg0
        let dst := s.mod.carg1.toNat
        match s.migrateCode l src dst with
        | some e => s.refuseCmd (cq % 8) id e
        | none =>
          let p := src.getD 0xFFFF
          let s1 := ((s.markExts p dst).onPlot p (fun x => { x with migrating := true })).onPlot dst (fun x => { x with migrating := true })
          let s2 := (s1.onLaunch id (fun l => { l with marked := false })).startCmd 3 id (cq % 8) p dst
          let s3 : State := { s2 with hostCmd := s2.hostCmd.map (fun (c : HostCmd) => { c with marks := s.extsOn p dst }) }
          s3.hostProgress))

/-- HOST_KILL (R353). -/
def execHostKill (port cq launch : Nat) (s : State) : Out :=
  .next (s.hostCmdWrite port (fun s =>
    let id := BitVec.ofNat 32 launch
    match s.launch? id with
    | none => s.refuseCmd (cq % 8) id 0x30
    | some _ => (s.startCmd 4 id (cq % 8) 0xFFFF 0xFFFF).killLaunch id 0x16 0))

/-- HOST_CMD_UNKNOWN (R348, R349): a command value other than 1 to 4. -/
def execHostCmdUnknown (port cmd cq launch : Nat) (s : State) : Out :=
  .next (s.hostCmdWrite port (fun s => if 1 ≤ cmd % 16 ∧ cmd % 16 ≤ 4 then s else s.refuseCmd (cq % 8) (BitVec.ofNat 32 launch) 0x30))

end Sys2Proof.Machine
end

