-- ==== Sys2Proof/Machine/Boot.lean ====
section
/-! DEFINITION. Power-on: the firmware slot, self-test results, statuses, rectangles and cleared memory (R15, R154, R375, R409); the retirement
log and what errors in stored state do (R168, R373, R412). -/

namespace Sys2Proof.Machine

open Sys2Proof

/-! ## Statuses (R375) -/

/-- Plots by decreasing column and then decreasing row. -/
def plotsDown : List Nat := allPlots.reverse

/-- The spares and capacity plots of a wafer, with each spare's partner (R375). -/
structure Statuses where
  holes : List Nat
  /-- A spare and the plot it is paired with. -/
  spares : List (Nat × Option Nat)
  capacity : List Nat
  deriving DecidableEq, Repr

/-- The spares paired in their order: each with the plot of its cluster of smallest id that is no spare and has none yet. -/
def pairSpares (good : List Nat) : List Nat → List (Nat × Option Nat)
  | [] => []
  | s :: rest => match good.find? (fun p => sameCluster p s) with
    | some p => (s, some p) :: pairSpares (good.filter (· != p)) rest
    | none => (s, none) :: pairSpares good rest

/-- R375 on a list of holes and a token's COUNT. -/
def statusesOf (holes : List Nat) (count : Nat) : Statuses :=
  let g := allPlots.filter (fun p => !holes.contains p)
  let surplus := g.length - 15360
  let ncap := min count surplus
  let spares := (plotsDown.filter (fun p => !holes.contains p)).take (surplus - ncap)
  let rest := g.filter (fun p => !spares.contains p)
  ⟨holes, pairSpares rest spares, rest.drop (rest.length - ncap)⟩

/-! ## Naming rectangles (R15) -/

/-- The longest run of ones among the 192 columns of a row mask, the leftmost of the longest: its length and first column. -/
def longestRun (m : Nat) : Nat × Nat :=
  ((List.range 192).foldl (fun (st : (Nat × Nat) × Nat) c =>
    let n := if m.testBit c then st.2 + 1 else 0
    (if st.1.1 < n then (n, c + 1 - n) else st.1, n)) ((0, 0), 0)).1

/-- A candidate rectangle: top, left, height, width. -/
abbrev Rect := Nat × Nat × Nat × Nat

/-- Whether a candidate goes before another: larger area, then smaller top, smaller left, greater height. -/
def Rect.before (a b : Rect) : Bool :=
  let x := a.2.2.1 * a.2.2.2
  let y := b.2.2.1 * b.2.2.2
  if x ≠ y then decide (y < x)
  else if a.1 ≠ b.1 then decide (a.1 < b.1)
  else if a.2.1 ≠ b.2.1 then decide (a.2.1 < b.2.1)
  else decide (b.2.2.1 < a.2.2.1)

/-- The best rectangle with a given top: the rows below it taken in one by one. -/
def bestFrom (top : Nat) (best : Rect) (mask h : Nat) : List Nat → Rect
  | [] => best
  | r :: rest =>
    let m := mask &&& r
    let run := longestRun m
    let c : Rect := (top, run.2, h + 1, run.1)
    bestFrom top (if Rect.before c best then c else best) m (h + 1) rest

/-- The best rectangle of the remaining plots, given as one mask a row. -/
def bestRect (rows : List Nat) : Rect :=
  (List.range rows.length).foldl (fun best t => bestFrom t best (2 ^ 192 - 1) 0 (rows.drop t)) (0, 0, 0, 0)

/-- The masks without the plots of a rectangle. -/
def cutRect (rows : List Nat) (x : Rect) : List Nat :=
  (List.range rows.length).map (fun r =>
    let m := rows.getD r 0
    if x.1 ≤ r ∧ r < x.1 + x.2.2.1 then m - (m &&& ((2 ^ x.2.2.2 - 1) * 2 ^ x.2.1)) else m)

/-- The rectangles of a set of plots, at most `fuel` of them. -/
def rectsOf (rows : List Nat) : Nat → List Rect
  | 0 => []
  | fuel + 1 => if rows.all (· == 0) then [] else bestRect rows :: rectsOf (cutRect rows (bestRect rows)) fuel

/-- The enabled plots, neither holes nor spares, as masks. -/
def Statuses.rows (x : Statuses) : List Nat :=
  let out := x.holes ++ x.spares.map (·.1)
  (List.range 84).map (fun r => (List.range 192).foldl (fun n c => if out.contains (physOf c r) then n else n + 2 ^ c) 0)

/-! ## The retirement log (R373, R412) -/

/-- The last entry of each granule, in order. -/
def lastEach (es : List RetEnt) : List RetEnt :=
  (List.range es.length).filterMap (fun i => match es[i]? with
    | some e => if (es.drop (i + 1)).any (fun x => x.addr == e.addr) then none else some e
    | none => none)

/-- An entry put in its place by SEQ. -/
def putRet (e : RetEnt) : List RetEnt → List RetEnt
  | [] => [e]
  | x :: t => if e.seq.toNat < x.seq.toNat then e :: x :: t else x :: putRet e t

/-- Entries of both pages merged by SEQ (R412). -/
def mergeRet (es : List RetEnt) : List RetEnt := es.foldl (fun acc e => putRet e acc) []

/-- Bytes 0x00 to 0x37 of an entry. -/
def RetEnt.bytes (e : RetEnt) : List Byte :=
  leBytes (e.kind.toNat * 2 ^ 32 + e.seq.toNat) 8 ++ leBytes e.addr.toNat 8 ++ leBytes e.wtime.toNat 8 ++ List.replicate 32 0

/-- An entry with its CRC. -/
def RetEnt.sealed (e : RetEnt) : RetEnt := { e with crc := BitVec.ofNat 32 (crc32 e.bytes) }

/-- Whether the CRC of an entry holds. -/
def RetEnt.good (e : RetEnt) : Bool := e.crc == e.sealed.crc

/-- An entry appended: in the active page, which `retPage` is; the other page takes one entry a granule, by SEQ, when it is full. A log of 63 granules
takes no other and sets LOGFULL, which raises vector 8. -/
def State.logRetire (s : State) (kind : BitVec 8) (a : Nat) : State :=
  let m := s.mod
  let all := mergeRet (m.retLog ++ m.retPage)
  let g := BitVec.ofNat 64 (a / 32 * 32)
  let e := RetEnt.sealed ⟨kind, m.retSeq + 1, g, (s.die stewardDie).wtime, 0⟩
  if m.logfull then s
  else if !all.any (fun x => x.addr == g) && decide (63 ≤ (lastEach all).length) then
    s.onMod (fun m => { m with logfull := true, msix := m.msix ++ ((List.range 8).filter (fun p => m.linkUp.getLsbD p)).map (fun p => (p, 8)) })
  else s.onMod (fun m =>
    if m.retPage.length < 64 then { m with retPage := m.retPage ++ [e], retSeq := m.retSeq + 1 }
    else { m with retLog := m.retPage, retPage := lastEach all ++ [e], retSeq := m.retSeq + 1 })

/-- The bank rows that hold a logged granule, with those in which the self-test finds a defect, by plot and then row (R373, R412). -/
def Module.bankRows (m : Module) (found : List (Nat × Nat)) : List (Nat × Nat) :=
  let rows := ((m.retLog ++ m.retPage).filter (fun e => spaceOf e.addr.toNat == 1)).map (fun e =>
    plotOfAddr e.addr.toNat * 16384 + offOfAddr e.addr.toNat / 8192) ++
    (found.filter (fun r => plotExists r.1 && decide (r.2 < 16384))).map (fun r => r.1 * 16384 + r.2)
  (rows.foldl (fun (m : SMap Unit) r => SMap.put m r ()) []).map (fun r => (r.1 / 16384, r.1 % 16384))

/-! ## Errors in stored state (R168, R373) -/

/-- A granule of a basin or bank of the wafer. -/
def isGranule (a : Nat) : Bool :=
  decide (a < 2 ^ 56) && plotExists (plotOfAddr a) &&
  ((spaceOf a == 0 && decide (offOfAddr a < 0x400000)) || (spaceOf a == 1 && decide (offOfAddr a < 0x8000000)))

/-- An error found in the granule of an address: a single-bit error is corrected and counted, the granule's second one logged; an uncorrectable
one poisons it and is logged. -/
def State.storedError (s : State) (a : Nat) (hard : Bool) : State :=
  let g := a / 32 * 32
  if !isGranule a || s.mod.boot != 2 then s
  else if hard then (s.setSide g { s.sideAt g with poison := true }).logRetire 2 g
  else
    let d := s.die (dieOfAddr a)
    let s1 := (s.setDie (dieOfAddr a) { d with cecnt := d.cecnt + 1 }).onMod (fun m => { m with corrected := m.corrected ++ [g] })
    if (s.mod.corrected.filter (· == g)).length = 1 then s1.logRetire 1 g else s1

/-- An error in the flash: an entry of the retirement log, by its place in the two pages, reads otherwise (R412). -/
def State.flashError (s : State) (i : Nat) (e : RetEnt) : State :=
  s.onMod (fun m =>
    if i < m.retLog.length then { m with retLog := m.retLog.set i e } else { m with retPage := m.retPage.set (i - m.retLog.length) e })

/-! ## Power-on (R409) -/

/-- What no power cycle touches: host memory, the flash and the key store, the links of the ports, and the model's own fields (log 6). -/
def State.unpowered (s : State) : State :=
  { State.reset with
    mem := s.mem.filter (fun c => isHost c.1)
    agenda := s.agenda
    focus := s.focus
    free := s.free
    uid := s.uid
    mod := { State.reset.mod with
      retLog := s.mod.retLog, retPage := s.mod.retPage, retSeq := s.mod.retSeq, keysErased := s.mod.keysErased, linkUp := s.mod.linkUp,
      msix := s.mod.msix, urs := s.mod.urs, hostRead := s.mod.hostRead, tele := s.mod.tele } }

/-- The sites' entries as the boot leaves them. -/
def State.bootPlots (s : State) (t : SelfTest) (x : Statuses) : State :=
  let s1 := x.holes.foldl (fun s p => s.onPlot p (fun y => { y with stat := .hole })) s
  let s2 := x.spares.foldl (fun s e => match e.2 with
    | some p => (s.onPlot e.1 (fun y => { y with stat := .spare, partner := BitVec.ofNat 16 p })).onPlot p (fun y =>
        { y with partner := BitVec.ofNat 16 e.1 })
    | none => s.onPlot e.1 (fun y => { y with stat := .spare })) s1
  let s3 := x.capacity.foldl (fun s p => s.onPlot p (fun y => { y with stat := .capacity })) s2
  let s4 := (t.rowBy.filter (fun e => plotExists e.1)).foldl (fun s e => s.onPlot e.1 (fun y => { y with rowBy := e.2 })) s3
  let s5 := (t.colBy.filter (fun e => plotExists e.1)).foldl (fun s e => s.onPlot e.1 (fun y => { y with colBy := e.2 })) s4
  (t.deadl.filter (fun e => plotExists e.1)).foldl (fun s e => s.onPlot e.1 (fun y => { y with deadl := e.2 })) s5

/-- COUNT of a feature-token record (R374): none where its constant or its serial is another, or its signature does not verify. -/
def tokenCount (r : BitVec 3584) : Option (BitVec 16) :=
  if r.extractLsb' 0 64 = 0x314E4B544E4C5746 ∧ r.extractLsb' 64 64 = Config.serial ∧
      Config.tokenSigned (r.extractLsb' 0 512) (r.extractLsb' 512 3072) = true then some (r.extractLsb' 128 16)
  else none

/-- The COUNT of the token that a self-test finds. -/
def testCount (t : SelfTest) : Option (BitVec 16) := t.token.bind tokenCount

/-- POWER_ON (R409): the first firmware slot that verifies is run, and the module is in its self-test, with BOOT 1; without one it stands in
recovery. What the self-test finds, and the token, come with the event (log 6). -/
def execPowerOn (t : SelfTest) (s : State) : Out :=
  .next (s.unpowered.onMod (fun m =>
    if !t.fwA && !t.fwB then { m with boot := 3, tokenRec := t.token }
    else { m with boot := 1, fwslot := !t.fwA, tokenRec := t.token, selfTest := some t }))

/-- The steward's firmware finishes the boot (R409): log entries whose CRC fails are discarded (R412), the token is verified, statuses, rectangles
and map are made, and BOOT becomes 2. -/
def State.bootStep (s : State) : State :=
  match if s.mod.boot = 1 then s.mod.selfTest else none with
  | none => s
  | some t =>
    let x := statusesOf (allPlots.filter (fun p => t.holes.contains p)) ((testCount t).getD 0).toNat
    let s1 := s.onMod (fun m => { m with retLog := m.retLog.filter RetEnt.good, retPage := m.retPage.filter RetEnt.good, selfTest := none })
    (s1.bootPlots t x).onMod (fun m => { m with
      boot := 2
      token := testCount t
      retired := s1.mod.bankRows t.rows
      rects := rectsOf x.rows 1023 })

end Sys2Proof.Machine
end

