-- ==== Sys2Proof/Machine/Deadlock.lean ====
section
/-! DEFINITION. The deadlock detector (R304 to R306): DEADLOCK_DETECT names the set that has been found, and takes place only if the set is
one that R304 describes and has stood still for 2^16 cycles. -/

namespace Sys2Proof.Machine

open Sys2Proof

/-- Whether a gate is one that waits on a port's end. -/
def Gate.onPort (g : Gate) (e : Nat) (send : Bool) : Bool :=
  match g with
  | .rill q _ => !send && q == e
  | .send q _ => send && q == e
  | _ => false

/-- Whether the task of slot k waits on a port's end: parked there, or with a CHR gate or a CHS commit of its mapped block stalled there (R304). -/
def Plot.waitsPort (x : Plot) (k e : Nat) (send : Bool) : Bool :=
  let t := x.task k
  (t.st == .wait && t.wait == .rill e send) ||
  (match (x.halfOf k).bind (fun h => (x.half h).blk) with
  | some b => b.slots.any (fun r => (send || r.st == .waiting) && (match r.gate with
    | some g => g.onPort e send
    | none => false))
  | none => false)

/-- The task slots of a core that wait on a port's end. -/
def Plot.waiters (x : Plot) (e : Nat) (send : Bool) : List Nat := slotIdx.filter (fun k => x.waitsPort k e send)

/-- Since when a waiting task has waited on a port's end, in the cycles of a die: parks, and wakes that found the condition unmet, do not count
(R304). -/
def Plot.waitSince (x : Plot) (die k e : Nat) (send : Bool) : BitVec 64 := Stamp.on ((x.task k).rwait.get (2 * e + (if send then 1 else 0)) []) die

/-- A blocked port (R304): an ORDERED receive end without data or EOS on which a task of its core waits, or a send end that holds items
without a credit or has refused a block. -/
def State.portBlocked (s : State) (p e : Nat) : Bool :=
  let r := s.rill p e
  if r.latest || r.broken then false
  else if r.role == 2 then !(r.buf.any (fun x => !x.isMark)) && !((s.plot p).waiters e false).isEmpty
  else if r.role == 1 then (!r.buf.isEmpty && r.credits == 0) || r.refused
  else false

/-- The blocked ports of its core on which the task of a slot waits: port and end. -/
def State.blockedOn (s : State) (p k : Nat) : List (Nat × Bool) :=
  ((s.plot p).rills.map (fun r => (r.1, r.2.role == 1))).filter (fun x => (s.plot p).waitsPort k x.1 x.2 && s.portBlocked p x.1)

/-- A task that keeps its core from being stuck: not waiting on any blocked port (R304). -/
def State.taskFree (s : State) (p k : Nat) : Bool :=
  (s.task p k).st != .free && (s.task p k).st != .saved && (s.blockedOn p k).isEmpty

/-- A stuck core (R304). -/
def State.coreStuck (s : State) (p : Nat) : Bool := !slotIdx.any (fun k => s.taskFree p k)

/-- The send ends that feed an entry, through joins. -/
def State.sources (s : State) (p e : Nat) : Nat → List (Nat × Nat)
  | 0 => []
  | fuel + 1 => (s.rill p e).ups.flatMap (fun u => if (s.rill u.1 u.2).role == 3 then State.sources s u.1 u.2 fuel else [u])

/-- The receive end an entry leads to, through joins. -/
def State.sink (s : State) (p e : Nat) : Nat → Option (Nat × Nat)
  | 0 => none
  | fuel + 1 => match (s.rill p e).down with
    | none => none
    | some (q, f) => if (s.rill q f).role == 3 then State.sink s q f fuel else some (q, f)

/-- The cores a blocked port leads to (R304). -/
def State.portCores (s : State) (p e : Nat) : List Nat :=
  if (s.rill p e).role == 2 then (s.sources p e 128).map (·.1)
  else match s.sink p e 128 with
    | some (q, _) => [q]
    | none => []

/-- The entries of the rill of a port: itself, its sources or sink, and what lies between. -/
def State.rillEntries (s : State) (p e : Nat) : Nat → List (Nat × Nat)
  | 0 => []
  | fuel + 1 =>
    (p, e) :: ((s.rill p e).ups.flatMap (fun u => State.rillEntries s u.1 u.2 fuel))

/-- Every entry through which a port's rill runs. -/
def State.wholeRill (s : State) (p e : Nat) : List (Nat × Nat) :=
  let sk := if (s.rill p e).role == 2 then some (p, e) else s.sink p e 128
  match sk with
  | some (q, f) => s.rillEntries q f 128
  | none => [(p, e)]

/-- The rill ports of a core. -/
def State.portsOf (s : State) (p : Nat) : List (Nat × Nat) :=
  ((s.plot p).rills.filter (fun r => r.2.role == 1 || r.2.role == 2)).map (fun r => (p, r.1))

/-- Lists in rising order of plot and port. -/
def sortedPorts : List (Nat × Nat) → Bool
  | a :: b :: t => (decide (a.1 < b.1) || (a.1 == b.1 && decide (a.2 < b.2))) && sortedPorts (b :: t)
  | _ => true

/-- A set that R304 calls a deadlock: blocked ports, the stuck cores their edges lead to, and with each of those cores its blocked ports
whose edges lead to stuck cores. -/
def State.deadSet (s : State) (ports : List (Nat × Nat)) (cores : List Nat) : Bool :=
  !ports.isEmpty && sortedPorts ports && cores.eraseDups == cores && ports.all (fun x => s.portBlocked x.1 x.2) &&
  ports.all (fun x => (s.portCores x.1 x.2).all (fun c => cores.contains c)) &&
  cores.all (fun c => s.coreStuck c && ports.any (fun x => (s.portCores x.1 x.2).contains c)) &&
  cores.all (fun c => (s.portsOf c).all (fun x => ports.contains x || !s.portBlocked x.1 x.2 ||
    (s.portCores x.1 x.2).any (fun d => !s.coreStuck d)))

/-- The later of two times. -/
def later (a b : BitVec 64) : BitVec 64 := if a.toNat < b.toNat then b else a

/-- The earlier of times; 0 for none. -/
def earliest : List (BitVec 64) → BitVec 64
  | [] => 0
  | x :: t => t.foldl (fun a b => if b.toNat < a.toNat then b else a) x

/-- Since when a port has been blocked, its movements apart: a send end that holds items without a credit since its last movement, else since its
first waiting task, of a send end a refused one (R304). -/
def State.portSince (s : State) (die p e : Nat) : BitVec 64 :=
  let r := s.rill p e
  let send := r.role == 1
  if send && !r.buf.isEmpty && r.credits == 0 then 0
  else earliest (((s.plot p).waiters e send).map (fun k => (s.plot p).waitSince die k e send))

/-- Since when a core has been stuck: each of its tasks since it first waited on a port that is blocked. -/
def State.coreSince (s : State) (die c : Nat) : BitVec 64 :=
  slotIdx.foldl (fun n k => later n (earliest ((s.blockedOn c k).map (fun x => (s.plot c).waitSince die k x.1 x.2)))) (Stamp.on (s.plot c).vacated die)

/-- Since when the set has stood, in the cycles of the detecting die (R22, R304): the last movement on its rills, and the instant at which its last
member became blocked or stuck. -/
def State.stillSince (s : State) (die : Nat) (ports : List (Nat × Nat)) (cores : List Nat) : BitVec 64 :=
  let moved := ports.foldl (fun n x => (s.wholeRill x.1 x.2).foldl (fun n y => later n (Stamp.on (s.rill y.1 y.2).moved die)) (later n (s.portSince die x.1 x.2))) 0
  cores.foldl (fun n c => later n (s.coreSince die c)) moved

/-- Whether an item of a port's rill can move in this very cycle, by a credit that returns or has returned, a hop or an arrival: it then does, and the
detector does not fire (R309). -/
def State.canStir (s : State) (x : Nat × Nat) : Bool :=
  (s.wholeRill x.1 x.2).any (fun y =>
    let r := s.rill y.1 y.2
    s.sendItem y.1 y.2 != s || s.joinMerge y.1 y.2 != s || r.back != 0 || s.canArrive y.1 y.2 false || s.canArrive y.1 y.2 true ||
    (List.range r.transit.length).any (fun k => s.routerHop y.1 y.2 k != s))

/-- The detecting die (R304). -/
def detDie (wafer : Bool) (die : Nat) (ports : List (Nat × Nat)) (cores : List Nat) : Nat :=
  if wafer then dieOf ((ports.map (·.1) ++ cores).foldl min 0x7FFF) else die

/-- Whether the set lies within one cluster. -/
def oneCluster (die cluster : Nat) (ports : List (Nat × Nat)) (cores : List Nat) : Bool :=
  (ports.map (·.1) ++ cores).all (fun p => dieOf p == die && clusterIn p == cluster)

/-- Whether some cluster holds the whole set. -/
def someCluster (ports : List (Nat × Nat)) (cores : List Nat) : Bool :=
  match ports with
  | [] => false
  | (p, _) :: _ => oneCluster (dieOf p) (clusterIn p) ports cores

/-- A port entry of the report (R306). -/
def State.deadPort (s : State) (x : Nat × Nat) : List (BitVec 64) :=
  let r := s.rill x.1 x.2
  let rx := if r.role == 2 then some x else s.sink x.1 x.2 128
  let h := match rx with
    | some (q, f) => q * 2^8 + f
    | none => 0
  let wait := ((s.plot x.1).waiters x.2 (r.role == 1)).foldl (fun n k => n + 2 ^ k) 0
  [BitVec.ofNat 64 (h * 2^16 + x.1), BitVec.ofNat 64 ((r.res.length % 2^21) * 2^21 + (r.stat.extractLsb' 0 16).toNat), BitVec.ofNat 64 wait,
   BitVec.ofNat 64 x.2]

/-- The 64 words of a report (R306). -/
def State.deadReport (s : State) (launch : BitVec 32) (wafer : Bool) (die cluster : Nat) (ports : List (Nat × Nat)) (cores : List Nat)
    (still : BitVec 64) : List (BitVec 64) :=
  let d := s.die die
  let shown := ports.take 14
  let body := [BitVec.ofNat 64 (launch.toNat * 2^32 + cores.length % 256 * 2^24 + (if wafer then 2^17 else 0) +
      (if 14 < ports.length then 2^16 else 0) + shown.length * 2^8 + 0x0E),
    d.cyc, d.wtime, still, BitVec.ofNat 64 ((if wafer then 0xFF else cluster) * 2^8 + die), 0, 0, 0] ++ shown.flatMap s.deadPort
  body ++ List.replicate (64 - body.length) 0

/-- The report written in the launch's report area, if a slot is left (R305): its offset, or all ones. -/
def State.writeReport (s : State) (l : Launch) (die : Nat) (ws : List (BitVec 64)) : State × BitVec 64 :=
  let size := ((l.word 0x18).extractLsb' 0 32).toNat
  if size < 512 * (l.rpt + 1) then (s, BitVec.allOnes 64)
  else
    let cap := capPtr (l.cap 0x50)
    match s.putObj die l.id cap (cap.start + 512 * l.rpt) (wordBytes ws) 4 with
    | none => (s, BitVec.allOnes 64)
    | some s1 => (s1.onLaunch l.id (fun l => { l with rpt := l.rpt + 1 }), BitVec.ofNat 64 (512 * l.rpt))

/-- DEADLOCK_DETECT (R304, R305). A set that has fired does not fire again before an item moves or a task leaves its wait; a handler that runs between
does not end the wait of the block that TRET runs again (R421). -/
def execDeadlockDetect (wafer : Bool) (die cluster : Nat) (ports : List (Nat × Nat)) (cores : List Nat) (s : State) : Out :=
  .next (
    let dd := detDie wafer die ports cores
    let since := s.stillSince dd ports cores
    let now := (s.die dd).cyc
    let owner := match ports with
      | (p, e) :: _ => (s.rill p e).launch
      | [] => 0
    if !s.deadSet ports cores || ports.any s.canStir || (!wafer && !oneCluster die cluster ports cores) || (wafer && someCluster ports cores) ||
        !ports.all (fun x => (s.rill x.1 x.2).launch == owner) ||
        decide (now.toNat < since.toNat + 2 ^ 16) || s.fired.any (fun f => f.1 == ports && decide (since.toNat ≤ f.2.toNat)) then s
    else
      let s1 := { s with fired := s.fired.filter (fun f => f.1 != ports) ++ [(ports, now)] }
      match s1.launch? owner with
      | none => s1
      | some l =>
        let (s2, off) := s1.writeReport l dd (s1.deadReport owner wafer dd cluster ports cores (now - since))
        cores.foldl (fun s c => slotIdx.foldl (fun s k =>
          if ports.any (fun x => x.1 == c && (s.plot c).waitsPort k x.2 ((s.rill x.1 x.2).role == 1)) then s.pendCause c k .deadlk off
          else s) s) s2)

end Sys2Proof.Machine
end

