-- ==== Sys2Proof/Machine/Tables.lean ====
section
/-! DEFINITION. Table writes and the steward's changes (R18, R214, R367 to R380): TBLW as it performs, rebinds, plot failures, heat samples. -/

namespace Sys2Proof.Machine

open Sys2Proof

/-! ## Rebind (R214, R377) -/

/-- A home moved from one plot to another. -/
def moveHome (p q : Nat) (x : Nat × Nat × Nat) : Nat × Nat × Nat :=
  if !isHost x.1 && plotOfAddr x.1 == p then (mkAddr (spaceOf x.1) q (offOfAddr x.1), x.2.1, x.2.2) else x

/-- An address moved from one plot to another. -/
def moveAddr (p q a : Nat) : Nat := (moveHome p q (a, 0, 0)).1

/-- The homes that the loads of a half's block have still to read, moved, with those that its gates stall on. -/
def Half.retarget (h : Half) (p q : Nat) : Half :=
  { h with blk := h.blk.map (fun b => { b with slots := b.slots.map (fun r => { r with
      homes := (r.homes.1, r.homes.2.map (moveHome p q)), gate := r.gate.map (fun g => g.rehome (moveAddr p q) true) }) }) }

/-- Requests on their way to a fenced holder are retried at the new one (R214): issued operations, loads under way, and the emptyings and restores of
TAKEs. Tasks that wait for presence there go on waiting at the new holder (R66). -/
def State.retarget (s : State) (p q : Nat) : State :=
  State.rehomeWaits { s with
    takes := s.takes.map (fun x => { x with home := (moveHome p q (x.home, 0, 0)).1 })
    plots := s.plots.map (fun (x : Nat × Plot) => (x.1, { x.2 with
      h0 := x.2.h0.retarget p q
      h1 := x.2.h1.retarget p q
      tasks := x.2.tasks.map (fun t => { t with ops := t.ops.map (fun o => { o with homes := o.homes.map (moveHome p q) }) }) })) } (moveAddr p q) true

/-- Every task of a core ends with ABSENT (R377), one that waits for its page included. -/
def State.endCore (s : State) (p : Nat) : State :=
  slotIdx.foldl (fun s k =>
    let t := s.task p k
    if t.st == .free || t.leaving == .ended then s
    else
      let s1 : State := { s with faulted := if t.st == .saved then s.faulted.filter (fun x => x.uid != t.uid) else s.faulted }
      s1.takeException p k { cause := .absent } t.bpc) s

/-- What a plot's loss does to its tasks, its field and its rills (R377). -/
def State.losePlot (s : State) (p : Nat) : State :=
  let s1 := match s.fieldOf p with
    | some f => s.fieldFault f.handle
    | none => s
  (s1.endCore p).breakPlot p

/-- A rebind of a plot's name to its spare (R377); its map entries are written by the GEN protocol (R372). A request that is under way meanwhile
performs once, at the spare, as one made after the rebind would (R214). -/
def State.rebind (s : State) (p q : Nat) : State :=
  let n := s.nameOf p
  let s1 := (s.losePlot p).retarget p q
  s1.mapChange [p, q] (fun s =>
    let x := s.plot p
    let s2 := s.onPlot q (fun y => { y with stat := x.stat, partner := 0xFFFF, sems := [], semNew := [], owner := x.owner })
    let s3 := s2.onPlot p (fun y => { y with stat := .hole, partner := 0xFFFF, rebound := true, owner := none })
    s3.onMod (fun m => { m with rebinds := (m.rebinds.filter (fun r => r.1 != n)) ++ [(n, q)] }))

/-- The items of a rill that stand in the router of plot p, moved in their order onto a detour to its downstream entry that the steward writes in
indices 128 to 255 (R377). It begins in the first neighbour, north, east, south, west, from which a path leads there (log 50). -/
def State.detour (s : State) (p : Nat) (x : Nat × Nat × Rill) : State :=
  match x.2.2.down with
  | none => s
  | some (q, _) =>
    if !x.2.2.transit.any (fun t => t.plot == p) then s
    else match [1, 2, 3, 4].findSome? (fun o => (hop p o).bind (fun n =>
        if (s.plot n).stat == .hole then none else (s.pathTo n q).map (fun h => (n, h)))) with
    | none => s
    | some (n, h) =>
      match s.takePath 128 h with
      | none => s
      | some (s1, i, _) => s1.onRill x.1 x.2.1 (fun r =>
          { r with detoured := true, transit := r.transit.map (fun t => if t.plot = p then { t with plot := n, idx := i } else t) })

/-- STEWARD_REBIND (R377): the steward moves the name of a failed plot to its paired spare. Whether the plot's router has failed, so that the items in
it take a detour, the event does not say (log 50). -/
def execStewardRebind (p : Nat) (s : State) : Out :=
  .next (
    let q := (s.plot p).partner.toNat
    if s.enabled p && q != 0xFFFF && (s.plot q).stat == .spare then
      (let s1 := { s with free := s.free + 1 }.rebind p q
       if (Config.freeValue s.free).getLsbD 0 then (s1.rillsOf (fun _ _ => true)).foldl (fun s x => s.detour p x) s1 else s1)
    else s)

/-- PLOT_FAILURE (R18): a plot without a spare becomes a hole; a spare that fails leaves its partner without one. -/
def execPlotFailure (p : Nat) (s : State) : Out :=
  .next (
    let x := s.plot p
    let hole := fun (s : State) => s.onPlot p (fun y => { y with stat := .hole, partner := 0xFFFF })
    if s.mod.boot != 2 || !plotExists p then s
    else if x.stat == .spare then
      s.mapChange (p :: (if x.partner = 0xFFFF then [] else [x.partner.toNat])) (fun s =>
        hole (if x.partner = 0xFFFF then s else s.onPlot x.partner.toNat (fun y => { y with partner := 0xFFFF })))
    else if s.enabled p && x.partner == 0xFFFF then (s.losePlot p).mapChange [p] hole
    else s)

/-! ## TBLW as it performs (R367, R370, R377, R379, R380) -/

/-- Whether the bits of B outside its fields are zero and its count lies in range (R367). -/
def tblwForm (k : TblKind) (b : BitVec 64) : Bool :=
  match k with
  | .route => b &&& 0xFFFF0000FFFE0000 == 0 && b.extractLsb' 8 9 != 0 && decide ((b.extractLsb' 8 9).toNat ≤ 256)
  | .name => b.extractLsb' 16 48 == 0 && b != 0 && decide (b.toNat ≤ 64)
  | .heat => b == 0
  | .admc => b.extractLsb' 16 48 == 0 && b != 0 && decide (b.toNat ≤ 4096)

/-- Whether a route entry is refused: valid, over a dead link or into a hole (R370). -/
def State.routeBad (s : State) (p : Nat) (w : BitVec 64) : Bool :=
  let out := (w.extractLsb' 0 3).toNat
  w.getLsbD 11 && 1 ≤ out && out ≤ 4 && s.linkBad p out

/-- The plot that holds a name, and the spare an entry of TBLW.NAME gives it. -/
def State.nameEntry (s : State) (w : BitVec 64) : Option (Nat × Nat) :=
  (s.resolve (w.extractLsb' 0 32)).map (fun p => (p, (w.extractLsb' 32 16).toNat))

/-- The checks of a form over all its entries (R367). -/
def State.tblwOk (s : State) (k : TblKind) (b : BitVec 64) (ws : List (BitVec 64)) : Bool :=
  tblwForm k b &&
  match k with
  | .route =>
    let p := (b.extractLsb' 32 16).toNat
    let i := (b.extractLsb' 0 8).toNat
    decide (128 ≤ i) && decide (i + ws.length ≤ 256) && plotExists p && (s.plot p).stat != .hole && ws.all (fun w => !s.routeBad p w)
  | .name =>
    s.mod.featack.getLsbD 4 &&
    ws.all (fun w => w.extractLsb' 48 16 == 0 && (match s.nameEntry w with
      | some (p, q) => (s.plot p).partner.toNat == q && (s.plot q).stat == .spare
      | none => false)) &&
    (List.range ws.length).all (fun i => !(ws.take i).contains (ws.getD i 0))
  | .heat => ws.all (fun w => w.extractLsb' 16 48 == 0 && decide (w.extractLsb' 8 8 < w.extractLsb' 0 8))
  | .admc => ws.all (fun w => w.extractLsb' 28 36 == 0 && plotExists (w.extractLsb' 0 16).toNat && decide ((w.extractLsb' 17 11).toNat ≤ 1024))

/-- The entries of a form applied. -/
def State.tblwApply (s : State) (k : TblKind) (b : BitVec 64) (ws : List (BitVec 64)) : State :=
  match k with
  | .route =>
    let p := (b.extractLsb' 32 16).toNat
    let i := (b.extractLsb' 0 8).toNat
    s.onPlot p (fun x => { x with routes := (List.range ws.length).foldl (fun m j => SMap.put m (i + j) ((ws.getD j 0).extractLsb' 0 12)) x.routes })
  | .name => ws.foldl (fun s w => match s.nameEntry w with
    | some (p, q) => s.rebind p q
    | none => s) s
  | .heat => ws.foldl (fun s w => s.onMod (fun m => { m with thi := w.extractLsb' 0 8, tlo := w.extractLsb' 8 8 })) s
  | .admc => ws.foldl (fun s w =>
      let c := (w.extractLsb' 17 11).toNat
      s.onFu (w.extractLsb' 0 16).toNat (fun u =>
        if w.getLsbD 16 then { u with port1 := { u.port1 with ocap := c }.clampCnt } else { u with port0 := { u.port0 with ocap := c }.clampCnt })) s

/-- TBLW as it performs: all its entries read and checked, then applied; a failed check ends the task with PRIV deferred. Its size was checked at its
commit (R175), and what a host link that is down answers is free (R156). -/
def State.tblwEvent (s : State) (p k : Nat) (o : Op) (kind : TblKind) (b : BitVec 64) : State :=
  let n := 8 * tblwCount kind b
  let q := o.act.ptr.start + o.act.ptr.cur.toNat
  match s.partHomesBy false (dieOf p) o.act.ptr (piecesOf q n) with
  | .wait => s
  | .bad c => s.deferFault p k o c
  | .ok ps =>
    match ps.find? (fun x => !isHost x.1 && (s.sideAt x.1).poison) with
    | some x => s.deferFault p k o { cause := .poison, phys := BitVec.ofNat 64 x.1 }
    | none =>
      let bs := ps.flatMap (fun x => s.rdLost x.1 x.2.2)
      let s := s.lostParts p k o.bpc o.slot ps
      let ws := (List.range (tblwCount kind b)).map (fun i => BitVec.ofNat 64 (leNat ((bs.drop (8 * i)).take 8)))
      if s.tblwOk kind b ws then (s.tblwApply kind b ws).finishOp p k o none else s.deferFault p k o { cause := .priv }

/-! ## Heat (R378) -/

/-- HEAT_SAMPLE (R378): every entry takes its new TEMP; a COOL column at THI or above turns HOT, a HOT one at TLO or below COOL. -/
def execHeatSample (temps : List (Nat × Nat)) (s : State) : Out :=
  .next (temps.foldl (fun s e =>
    let t := min 255 e.2
    if 191 < e.1 then s
    else s.onMod (fun m =>
      let hot := m.hot.contains e.1
      { m with
        temp := m.temp.put e.1 (BitVec.ofNat 8 t)
        hot := if !hot && decide (m.thi.toNat ≤ t) then m.hot ++ [e.1]
               else if hot && decide (t ≤ m.tlo.toNat) then m.hot.filter (· != e.1) else m.hot })) s)

end Sys2Proof.Machine
end

