-- ==== Sys2Proof/Machine/Edge.lean ====
section
/-! DEFINITION. The module at its edges (R399 to R413): ports and windows, ownership, features, page answers, power states, alarms, attestation,
telemetry, and wafer time (R23). -/

namespace Sys2Proof.Machine

open Sys2Proof

/-! ## Ownership (R403, R404) -/

/-- A claim that counts: from a live port, with a nonce. -/
def State.validClaim (s : State) (c : Nat × BitVec 64) : Bool := s.portLive c.1 && c.2 != 0

/-- Port a's claim before b's: the lowest port wins. -/
def lowerPort (a b : Nat × BitVec 64) : Nat × BitVec 64 := if b.1 < a.1 then b else a

/-- OCLAIM (R403): the claims received in one cycle. -/
def execOclaim (claims : List (Nat × BitVec 64)) (s : State) : Out :=
  .next (
    if s.mod.ovalid then s
    else match claims.filter s.validClaim with
    | [] => s
    | c :: rest =>
      let w := rest.foldl lowerPort c
      s.onMod (fun m => { m with ovalid := true, oport := BitVec.ofNat 3 w.1, ononce := w.2, ownerDown := none }))

/-- HGO (R403): ownership passes to HPORT with HNONCE in one step. -/
def execHgo (port hport : Nat) (s : State) : Out :=
  .next (s.byOwner port (fun s => s.onMod (fun m =>
    let p := BitVec.ofNat 3 hport
    { m with oport := p, hport := p, ononce := m.hnonce,
             ownerDown := if m.linkUp.getLsbD p.toNat then none else some (s.die stewardDie).wtime })))

/-- HOST_LINK_DOWN (R404). -/
def execHostLinkDown (port : Nat) (s : State) : Out :=
  .next (
    if 7 < port || !s.mod.linkUp.getLsbD port then s
    else s.onMod (fun m => { m with
      linkUp := m.linkUp &&& ~~~(BitVec.twoPow 8 port)
      ownerDown := if m.ovalid && m.oport.toNat == port then some (s.die stewardDie).wtime else m.ownerDown }))

/-- Vector 8 raised on every port whose link is up (R399). -/
def State.raiseAlarm (s : State) : State :=
  s.onMod (fun m => { m with msix := m.msix ++ ((List.range 8).filter (fun p => m.linkUp.getLsbD p)).map (fun p => (p, 8)) })

/-- After 2 s of wafer time without the owner's link the ownership is lost and every queue disabled (R404). -/
def State.ownerLoss (s : State) : State :=
  match s.mod.ownerDown with
  | none => s
  | some t =>
    if !s.mod.ovalid || decide (((s.die stewardDie).wtime - t).toNat < 2000000000) then s
    else
      let s1 := s.onMod (fun m => { m with ovalid := false, olost := true, ownerDown := none })
      { s1 with queues := s1.queues.map (fun (q : LQueue) => { q with lqOff := true, cqOff := true }) }.raiseAlarm

/-- OWNER_LINK_LOST (R404). The clocks raise it too, as soon as it is due. -/
def execOwnerLinkLost (s : State) : Out := .next s.ownerLoss

/-- HOST_LINK_UP (R404): an owner whose link returns in time stays the owner; one whose link was down for 2 s has lost the ownership. -/
def execHostLinkUp (port : Nat) (s : State) : Out :=
  .next (
    if 7 < port then s
    else s.ownerLoss.onMod (fun m => { m with
      linkUp := m.linkUp ||| BitVec.twoPow 8 port
      ownerDown := if m.oport.toNat == port then none else m.ownerDown }))

/-! ## Features (R405) -/

/-- FEATDRV_WRITE (R405): the write of bytes 0x48 to 0x4F completes the set; it is dropped while a launch is live or saved. -/
def execFeatdrvWrite (port : Nat) (value : BitVec 64) (s : State) : Out :=
  .next (s.byOwner port (fun s =>
    if !s.launches.isEmpty then s
    else s.onMod (fun m =>
      let f := value ++ m.featdrv.extractLsb' 0 64
      { m with featdrv := f, featack := Config.featDev &&& f })))

/-! ## Power states (R407) -/


/-- A request refused. -/
def State.refusePower (s : State) (code : BitVec 8) : State := s.onMod (fun m => { m with psref := code })

/-- Cell registers and accumulators of every plot lost (log 29): each plot's are drawn apart. -/
def State.loseCells (s : State) : State :=
  let s1 := allPlots.foldl (fun s p => s.onFu p (fun u =>
    { u with cells := [], acc := [], cellLost := s.free + 1 + p, accLost := s.free + 1 + p })) s
  { s1 with free := s.free + 0x8000 }

/-- Whether every core stands at a block boundary: no block is mapped in any window. -/
def State.atBoundary (s : State) : Bool := s.plots.all (fun x => x.2.h0.blk.isNone && x.2.h1.blk.isNone)

/-- A power state entered, on all dies together. Into P2 or P3 the fields lose what they hold. -/
def State.enterPower (s : State) (n : Nat) : State :=
  (if (n = 2 ∨ n = 3) ∧ s.mod.pscur.toNat ≠ n then s.loseCells else s).onMod (fun m =>
    { m with pscur := BitVec.ofNat 3 n, psref := 0, psbusy := false })

/-- A request for P0, P1 or P2 accepted (R407): the change is made at the next block boundary of every core, and is in progress until then. -/
def State.setPower (s : State) (n : Nat) : State :=
  if s.atBoundary then s.enterPower n else s.onMod (fun m => { m with psbusy := true, pswant := BitVec.ofNat 3 n, psref := 0 })

/-- A change in progress made once every core stands at a block boundary; P2 is refused if a field has become live meanwhile (log 29). -/
def State.powerStep (s : State) : State :=
  if !s.mod.psbusy || !s.atBoundary then s
  else if s.mod.pswant = 2 && !s.fields.isEmpty then s.onMod (fun m => { m with psbusy := false, psref := 0x41 })
  else s.enterPower s.mod.pswant.toNat

/-- PSREQ_P0 (R407). -/
def execPsreqP0 (port : Nat) (s : State) : Out := .next (s.byOwner port (fun s => s.setPower 0))

/-- PSREQ_P1 (R407). -/
def execPsreqP1 (port : Nat) (s : State) : Out := .next (s.byOwner port (fun s => s.setPower 1))

/-- PSREQ_P2 (R407): refused with 0x41 while a field is live. -/
def execPsreqP2 (port : Nat) (s : State) : Out :=
  .next (s.byOwner port (fun s => if s.fields.isEmpty then s.setPower 2 else s.refusePower 0x41))

/-- PSREQ_P3 (R407): refused with 0x42 while a launch is live; a saved launch is not. -/
def execPsreqP3 (port : Nat) (s : State) : Out :=
  .next (s.byOwner port (fun s =>
    if s.launches.any (fun l => l.st != .saved) then s.refusePower 0x42 else s.enterPower 3))

/-- PSREQ_P4 (R407): everything is off and lost; what leaves P4 is a power-on. -/
def execPsreqP4 (port : Nat) (s : State) : Out := .next (s.byOwner port (fun s => s.unpowered.enterPower 4))

/-! ## Page answers (R406) -/

/-- The page a paused unit waits for. -/
def onPage (obj : BitVec 24) (pg : BitVec 28) (x : Option (BitVec 24 × BitVec 40)) : Bool :=
  match x with
  | some (ob, off) => ob == obj && pageOf off == pg
  | none => false

/-- A pause lifted by a page. -/
def unpause (obj : BitVec 24) (pg : BitVec 28) (x : Option (BitVec 24 × BitVec 40)) : Option (BitVec 24 × BitVec 40) :=
  if onPage obj pg x then none else x

/-- A saved field whose feeders waited for a page. -/
def Field.unpause (f : Field) (obj : BitVec 24) (pg : BitVec 28) : Field :=
  { f with held := f.held.map (fun h => { h with
    feeds := h.feeds.map (fun c => { c with paused := Machine.unpause obj pg c.paused })
    wlds := h.wlds.map (fun c => { c with paused := Machine.unpause obj pg c.paused }) }) }

/-- Everything paused at a page resumes. -/
def State.resume (s : State) (obj : BitVec 24) (pg : BitVec 28) : State :=
  { s with
    cmds := s.cmds.map (fun (c : Cmd) => { c with paused := unpause obj pg c.paused })
    plots := s.plots.map (fun (x : Nat × Plot) => (x.1, { x.2 with
      fu := { x.2.fu with
        feeds := x.2.fu.feeds.map (fun c => { c with paused := unpause obj pg c.paused })
        wlds := x.2.fu.wlds.map (fun c => { c with paused := unpause obj pg c.paused }) }
      tasks := x.2.tasks.map (fun (t : Task) =>
        { t with ops := t.ops.map (fun (o : Op) => { o with paused := unpause obj pg o.paused }) }) }))
    launches := s.launches.map (fun (l : Launch) => { l with savedFields := l.savedFields.map (fun f => f.unpause obj pg) })
    faulted := s.faulted.map (fun (x : Faulted) => if x.obj == obj && x.pg == pg then { x with resident := true } else x) }

/-- PAGEANS with DECL 0 (R406): tasks are restored by R226, the others go on where they paused. -/
def execPageansResident (port obj pg : Nat) (s : State) : Out :=
  .next (s.byOwner port (fun s =>
    if s.mod.boot == 2 then (s.resume (BitVec.ofNat 24 obj) (BitVec.ofNat 28 pg)).restoreResident else s))

/-- A task saved at a declined page ends: its record, of KIND 0x01 and CAUSE 0x08, says what its frame says. -/
def State.declineTask (s : State) (x : Faulted) : State :=
  let s1 := match s.saveFrameAt x.launch x.p x.k with
    | some d => (s.dropFaulted x).noteLost stewardDie x.launch d.1 d.2 64
    | none => s.dropFaulted x
  let p := ((s.launch? x.launch).bind (fun (l : Launch) => s.resolve (l.plotName x.p))).getD 0xFFFF
  let bs := ((s.saveFrameAt x.launch x.p x.k).bind (fun d => s.getObj stewardDie d.1 d.2 64)).getD []
  s1.postErr 0x01 p x.k x.launch (BitVec.ofNat 40 (frameNat bs 0 5))
    { cause := .page, slot := frameNat bs 10 1, lane := frameNat bs 11 1 % 16, obj := BitVec.ofNat 24 (frameNat bs 16 3),
      off := BitVec.ofNat 40 (frameNat bs 19 5), phys := frameW bs 24, info := frameW bs 48 } false 0

/-- The waiting OTC forms of a page. -/
def State.pausedOps (s : State) (obj : BitVec 24) (pg : BitVec 28) : List (Nat × Nat × Op) :=
  s.plots.flatMap (fun x => slotIdx.flatMap (fun k => ((x.2.task k).ops.filter (fun o => onPage obj pg o.paused)).map (fun o => (x.1, k, o))))

/-- Whether a feeder or loader of a field waits for a page. -/
def State.fieldPaused (s : State) (obj : BitVec 24) (pg : BitVec 28) (f : Field) : Bool :=
  f.cellsOf.any (fun x =>
    let u := (s.plot (s.fieldPlot f x.1 x.2)).fu
    u.feeds.any (fun c => onPage obj pg c.paused) || u.wlds.any (fun c => onPage obj pg c.paused))

/-- Whether a saved field's did. -/
def Field.heldPaused (f : Field) (obj : BitVec 24) (pg : BitVec 28) : Bool :=
  f.held.any (fun h => h.feeds.any (fun c => onPage obj pg c.paused) || h.wlds.any (fun c => onPage obj pg c.paused))

/-- A declined page: tasks that still wait for it end, engines stop with 0x04, feeders raise FIELD in their master task (a saved one when it is restored). -/
def State.decline (s : State) (obj : BitVec 24) (pg : BitVec 28) : State :=
  let s1 := (s.faulted.filter (fun x => x.obj == obj && x.pg == pg && !x.resident)).foldl (fun s x => s.declineTask x) s
  let s2 := (s1.pausedOps obj pg).foldl (fun s x => s.deferFault x.1 x.2.1 x.2.2 { cause := .page, obj := obj, off := pg ++ (0 : BitVec 12) }) s1
  let s3 := (s2.cmds.filter (fun c => onPage obj pg c.paused)).foldl (fun s c => s.cmdStop c 0x04) s2
  let s4 := (s3.fields.filter (fun f => s3.fieldPaused obj pg f)).foldl (fun s f => s.fieldFault f.handle) s3
  { s4 with launches := s4.launches.map (fun (l : Launch) =>
      { l with savedFields := l.savedFields.map (fun f => if f.heldPaused obj pg then { f with stopped := true } else f) }) }

/-- PAGEANS with DECL 1 (R406). -/
def execPageansDecline (port obj pg : Nat) (s : State) : Out :=
  .next (s.byOwner port (fun s => if s.mod.boot == 2 then s.decline (BitVec.ofNat 24 obj) (BitVec.ofNat 28 pg) else s))

/-! ## Alarms (R408, R411) -/

/-- Every core aborts its mapped blocks as for pre-emption, and its tasks stand READY (R408). A block that ends by itself in this cycle does: it commits,
fails its commit checks, or is aborted by a cause (R70). -/
def State.halt (s : State) : State :=
  (s.plots.map (·.1)).foldl (fun s p => slotIdx.foldl (fun s k =>
    if ((s.plot p).halfOf k).isSome && (s.task p k).st == .running && (s.task p k).leaving == .no then
      (if s.blockDue p k || (s.plot p).aborting k then s else ((s.dropBlock p k).withdraw p k).ready p k)
    else if ((s.plot p).halfOf k).isSome && (s.task p k).st == .ready then s.dropBlock p k
    else s) s) s

/-- Whether the module is powered and its sensors act. -/
def State.powered (s : State) : Bool := s.mod.boot != 0 && s.mod.pscur != 4

/-- THERMAL_TRIP (R408): a plot sensor reads 110 °C or more. -/
def execThermalTrip (temp : Nat) (s : State) : Out :=
  .next (if temp < 110 || s.mod.trip || !s.powered then s else (s.onMod (fun m => { m with trip := true })).raiseAlarm.halt)

/-- TRIP_CLEAR (R408): the owner's clear is ignored unless every sensor reads below 100 °C. -/
def execTripClear (port hottest : Nat) (s : State) : Out :=
  .next (s.byOwner port (fun s => if hottest < 100 then s.onMod (fun m => { m with trip := false }) else s))

/-- The locked module (R411): keys erased, running work lost. -/
def State.lock (s : State) : State :=
  { s.onMod (fun m => { m with keysErased := true, boot := 4 }) with
    plots := s.plots.map (fun (x : Nat × Plot) => (x.1, { x.2 with
      tasks := Vector.replicate 16 {}, h0 := {}, h1 := {}, rills := [], owner := none, migrating := false,
      fu := { x.2.fu with feeds := [], wlds := [], loaded := [], west := [], handle := 0xFFFFFFFF, role := 0 } }))
    cmds := []
    fields := []
    launches := []
    faulted := []
    hostCmd := none
    queues := s.queues.map (fun (q : LQueue) => { q with waiting := [], taken := none }) }

/-- SECURITY_ALARM (R411): SECA is set and execution halts as for a trip; with ERASE 1 the module is locked until a power cycle. -/
def execSecurityAlarm (s : State) : Out :=
  .next (
    if !s.powered then s
    else
      let s1 := if s.mod.seca then s else (s.onMod (fun m => { m with seca := true })).raiseAlarm
      if s.mod.erase then s1.lock else s1.halt)

/-- SECA_CLEAR (R411): with ERASE 0 the owner clears the alarm and execution resumes. -/
def execSecaClear (port : Nat) (s : State) : Out := .next (s.byOwner port (fun s => s.onMod (fun m => { m with seca := false })))

/-! ## Attestation (R410) -/

/-- An attestation buffer. -/
def State.attestOf (s : State) (port : Nat) : Attest := (s.attest[port]?).getD {}

/-- An attestation buffer changed. -/
def State.onAttest (s : State) (port : Nat) (f : Attest → Attest) : State :=
  { s with attest := s.attest.setIfInBounds port (f (s.attestOf port)) }

/-- A nonce word written by a port for itself. -/
def State.nonceWord (s : State) (port i : Nat) (w : BitVec 64) : State :=
  if s.portLive port && s.mod.boot == 2 then s.onAttest port (fun a => { a with nonce := putField a.nonce (64 * i) 64 w.toNat }) else s

/-- ATTEST_NONCE_WRITE (R410): the write of the last nonce word starts a report; one in progress is abandoned. -/
def execAttestNonceWrite (port : Nat) (value : BitVec 64) (s : State) : Out :=
  .next (
    if s.portLive port && s.mod.boot == 2 then
      (s.nonceWord port 3 value).onAttest port (fun a => { a with ready := false, fail := false, busy := true })
    else s)

/-- Bytes 0x00 to 0x77 of a report. -/
def State.reportMessage (s : State) (port : Nat) : List Byte :=
  leBytes (s.attestOf port).nonce.toNat 32 ++ leBytes Config.serial.toNat 8 ++ leBytes (Config.fwDigest s.mod.fwslot).toNat 32 ++
  leBytes ((s.mod.tokenRec.map (fun r => (Config.tokenDigest r).toNat)).getD 0) 32 ++
  leBytes ((s.mod.token.getD 0).toNat + s.mod.boot.toNat * 2 ^ 16) 8 ++ List.replicate 8 0

/-- The signature's two values, big-endian; zero without keys. -/
def State.reportSig (s : State) (msg : List Byte) : List Byte :=
  if s.mod.keysErased then List.replicate 96 0
  else (leBytes (Config.attestSig msg false).toNat 48).reverse ++ (leBytes (Config.attestSig msg true).toNat 48).reverse

/-- ATTEST_COMPLETE (R410): the report stands in the port's buffer, AREADY is set and the port's vector 9 raised. -/
def execAttestComplete (port : Nat) (s : State) : Out :=
  .next (
    if !(s.attestOf port).busy || !s.powered then s
    else
      let msg := s.reportMessage port
      let s1 := s.onAttest port (fun a => { a with busy := false, ready := true, fail := s.mod.keysErased, report := msg ++ s.reportSig msg })
      if s.mod.linkUp.getLsbD port then s1.onMod (fun m => { m with msix := m.msix ++ [(port, 9)] }) else s1)

/-! ## HW-B (R401) -/

/-- The physical address behind an HW-B offset. -/
def State.hwb (s : State) (off : Nat) : Nat := (s.mod.slices.get (off / 2 ^ 27) 0).toNat + off % 2 ^ 27

/-- Whether a host access may reach a byte: spaces 0x00 and 0x01, within the space, in no hole and no retired row. -/
def State.hostReach (s : State) (a : Nat) : Bool :=
  isGranule a && (s.plot (plotOfAddr a)).stat != .hole && !s.retiredAt a

/-- The pieces of an HW-B access within granules: address, index, length. -/
def State.hwbPieces (s : State) (off n : Nat) : List (Nat × Nat × Nat) := (piecesOf off n).map (fun x => (s.hwb x.1, x.2.1, x.2.2))

/-- Whether an HW-B access of n bytes is served. -/
def State.hwbOk (s : State) (off n : Nat) : Bool :=
  s.mod.boot == 2 && n != 0 && decide (off + n ≤ 2 ^ 36) && (s.hwbPieces off n).all (fun x => s.hostReach x.1)

/-- A port reports Unsupported Request for an access that reaches another space, past a space, a hole or a retired row (R401). -/
def State.reportUr (s : State) (port off n : Nat) : State :=
  if s.mod.boot == 2 && n != 0 && decide (off + n ≤ 2 ^ 36) && !(s.hwbPieces off n).all (fun x => s.hostReach x.1) then
    s.onMod (fun m => { m with urs := m.urs ++ [port] })
  else s

/-- HOST_MEMORY_WRITE (R400, R401): presence stays, TAG 0, stamp 6. A write of the steward's range or of part of a poisoned granule is dropped
(log 31). -/
def execHostMemoryWrite (port off : Nat) (bytes : List Byte) (s : State) : Out :=
  .next (s.byOwner port (fun s =>
    let ps := s.hwbPieces off bytes.length
    if !s.hwbOk off bytes.length then s.reportUr port off bytes.length
    else if ps.any (fun x => inSteward x.1) then s
    else ps.foldl (fun s x =>
      if (s.sideAt x.1).poison && x.2.2 != 32 then s else s.homeWrite x.1 ((bytes.drop x.2.1).take x.2.2) .plain 6) s))

/-- What a host reads of n bytes: device memory, or all ones. The bytes of a poisoned granule are free (log 31). -/
def State.hostBytes (s : State) (off n : Nat) : List Byte :=
  if !s.hwbOk off n then List.replicate n 0xFF
  else (s.hwbPieces off n).flatMap (fun x =>
    if (s.sideAt x.1).poison then (List.range x.2.2).map (fun i => (Config.freeValue (s.free + x.2.1 + i)).extractLsb' 0 8)
    else s.rdBytes x.1 x.2.2)

/-- HOST_MEMORY_READ (R400, R401): any port may read; the bytes are kept as the last host read. -/
def execHostMemoryRead (port off len : Nat) (s : State) : Out :=
  .next (
    if !s.portLive port then s
    else { (s.reportUr port off len).onMod (fun m => { m with hostRead := s.hostBytes off len }) with free := s.free + len })

/-! ## Register writes and reads (R332, R402) -/

/-- Whether a change of LQBASE or LQSIZE leaves pending entries behind. -/
def LQueue.orphan (q : LQueue) : LQueue :=
  { q with undef := if sizeOk q.lqsize.toNat then (q.lqtail.toNat + q.lqsize.toNat - q.lqhead.toNat) % q.lqsize.toNat else 0 }

/-- A write of a queue register (R332); one of the value it holds changes nothing of the pending entries (R333). LQTAIL has a row of its own; LQHEAD and CQTAIL are read-only. -/
def LQueue.regWrite (q : LQueue) (o : Nat) (w : BitVec 64) : LQueue :=
  match o with
  | 0x00 => { (if w &&& ~~~0xFFF = q.lqbase then q else q.orphan) with lqbase := w &&& ~~~0xFFF }
  | 0x08 => { (if w.extractLsb' 0 13 = q.lqsize then q else q.orphan) with lqsize := w.extractLsb' 0 13, lqOff := false }
  | 0x20 => { q with cqbase := w &&& ~~~0xFFF }
  | 0x28 => { q with cqsize := w.extractLsb' 0 13, cqOff := false }
  | 0x38 => { q with cqhead := w.extractLsb' 0 12 }
  | _ => q

/-- A write of an HW-A register of the owner's that has no row of its own. -/
def State.ownerReg (s : State) (off : Nat) (w : BitVec 64) : State :=
  if off = 0x20 then s.onMod (fun m => { m with hport := w.extractLsb' 0 3 })
  else if off = 0x28 then s.onMod (fun m => { m with hnonce := w })
  else if off = 0x40 then (if s.launches.isEmpty then s.onMod (fun m => { m with featdrv := m.featdrv.extractLsb' 64 64 ++ w }) else s)
  else if off = 0x60 then (if 5 ≤ (w.extractLsb' 0 3).toNat then s.refusePower 0x40 else s)
  else if off = 0x70 then s.onMod (fun m => { m with
    drops := m.drops &&& ~~~(w.extractLsb' 16 16), logfull := m.logfull && !w.getLsbD 4, olost := m.olost && !w.getLsbD 3 })
  else if off = 0x78 then s.onMod (fun m => if m.plock then m else { m with erase := w.getLsbD 0, plock := true })
  else if s.mod.boot != 2 then s
  else if 0x100000 ≤ off ∧ off < 0x100200 then s.onQueue ((off - 0x100000) / 64) (fun q => q.regWrite (off % 64) w)
  else if off = 0x100208 then s.onMod (fun m => { m with carg0 := w.extractLsb' 0 32 })
  else if off = 0x100210 then s.onMod (fun m => { m with carg1 := w.extractLsb' 0 16 })
  else if 0x200000 ≤ off ∧ off < 0x201000 then s.onMod (fun m => { m with
    slices := m.slices.put ((off - 0x200000) / 8) (w.extractLsb' 27 29 ++ (0 : BitVec 27)) })
  else s

/-- REGISTER_WRITE (R2): an aligned 8-byte write. A host's needs ownership but for OCLAIM and the port's own attestation buffer (R400); writes to
registers with a row of their own, to read-only ones and to unassigned offsets change nothing here. A write of part of PAGEANS answers nothing
(R402). -/
def execRegisterWrite (reg : RegTarget) (value : BitVec 64) (s : State) : Out :=
  .next (match reg with
    | .hwa port off =>
      if off % 8 != 0 || decide (0x4000000 ≤ off) then s
      else if 0x1000 ≤ off ∧ off < 0x1018 then s.nonceWord port ((off - 0x1000) / 8) value
      else if off = 0x08 ∨ (0x1018 ≤ off ∧ off < 0x11D8) then s
      else s.byOwner port (fun s => s.ownerReg off value)
    | .pageansPart port => s.byOwner port (fun s => s)
    | .cistern die off => if off % 8 != 0 || 83 < die then s else (s.cisternWrite die off value).orElse s)

/-- The word of ALARM (R402). -/
def Module.alarmWord (m : Module) : BitVec 64 :=
  BitVec.ofNat 64 (m.drops.toNat * 2 ^ 16 + (if m.logfull then 16 else 0) + (if m.olost then 8 else 0) + (if m.seca then 4 else 0) +
    (if m.trip then 2 else 0))

/-- A word of the module block (R402). -/
def Module.block (m : Module) (off : Nat) : BitVec 64 :=
  match off with
  | 0x00 => BitVec.ofNat 64 (m.boot.toNat + (if m.fwslot then 256 else 0))
  | 0x10 => BitVec.ofNat 64 (m.oport.toNat + (if m.ovalid then 8 else 0))
  | 0x18 => m.ononce
  | 0x30 => Config.featDev.extractLsb' 0 64
  | 0x38 => Config.featDev.extractLsb' 64 64
  | 0x40 => m.featdrv.extractLsb' 0 64
  | 0x48 => m.featdrv.extractLsb' 64 64
  | 0x50 => m.featack.extractLsb' 0 64
  | 0x58 => m.featack.extractLsb' 64 64
  | 0x68 => BitVec.ofNat 64 (m.psref.toNat * 256 + (if m.psbusy then 16 else 0) + m.pscur.toNat)
  | 0x70 => m.alarmWord
  | 0x78 => BitVec.ofNat 64 ((if m.plock then 2 else 0) + (if m.erase then 1 else 0))
  | _ => 0

/-- A word of a queue block (R332). -/
def LQueue.regRead (q : LQueue) (o : Nat) : BitVec 64 :=
  match o with
  | 0x00 => q.lqbase
  | 0x08 => q.lqsize.zeroExtend 64
  | 0x10 => q.lqtail.zeroExtend 64
  | 0x18 => q.lqhead.zeroExtend 64
  | 0x20 => q.cqbase
  | 0x28 => q.cqsize.zeroExtend 64
  | 0x30 => q.cqtail.zeroExtend 64
  | _ => q.cqhead.zeroExtend 64

/-- A word of the column heat table and its thresholds (R378). -/
def Module.heatWord (m : Module) (i : Nat) : BitVec 64 :=
  if i < 192 then BitVec.ofNat 64 ((m.temp.get i 0).toNat + (if m.hot.contains i then 256 else 0))
  else if i = 192 then BitVec.ofNat 64 (m.tlo.toNat * 256 + m.thi.toNat) else 0

/-- An aligned HW-A word as a port reads it (R332, R371, R376, R378, R401, R402, R410). A locked module serves only its block,
and one in recovery a flash-update window too, which reads as a free value (R409, log 78). -/
def State.hwaRead (s : State) (port off : Nat) : BitVec 64 :=
  let a := s.attestOf port
  if off < 0x1000 then s.mod.block off
  else if s.mod.boot == 3 && Config.flashWindow off then Config.freeValue (s.free + off)
  else if s.mod.boot == 3 || s.mod.boot == 4 then BitVec.allOnes 64
  else if off = 0x1020 then BitVec.ofNat 64 ((if a.fail then 2 else 0) + (if a.ready then 1 else 0))
  else if 0x1100 ≤ off ∧ off < 0x11D8 then BitVec.ofNat 64 (leNat ((a.report.drop (off - 0x1100)).take 8))
  else if 0x100000 ≤ off ∧ off < 0x100200 then (s.queue ((off - 0x100000) / 64)).regRead (off % 64)
  else if off = 0x100208 then s.mod.carg0.zeroExtend 64
  else if off = 0x100210 then s.mod.carg1.zeroExtend 64
  else if off = 0x100218 then (BitVec.ofBool s.hostCmd.isSome).zeroExtend 64
  else if 0x110000 ≤ off ∧ off ≤ 0x110600 then s.mod.heatWord ((off - 0x110000) / 8)
  else if 0x200000 ≤ off ∧ off < 0x201000 then (s.mod.slices.get ((off - 0x200000) / 8) 0).zeroExtend 64
  else if 0x800000 ≤ off ∧ off < 0x900000 then s.stewardWord (off - 0x800000)
  else 0

/-- MGMT_TELEMETRY_READ (R413): the answer is kept as the last one read. -/
def execMgmtTelemetryRead (item : Telemetry) (s : State) : Out :=
  .next (
    let v : BitVec 64 := match item with
      | .heat c => s.mod.heatWord c
      | .psCur => s.mod.pscur.zeroExtend 64
      | .boot => s.mod.boot.zeroExtend 64
      | .alarm => s.mod.alarmWord
      | .supply => Config.supply s.free
      | .wstale d => (BitVec.ofBool (s.die d).wstale).zeroExtend 64
      | .sensor p => Config.sensor s.free p
      | .mapHeader i => if i < 8 then s.stewardWord (8 * i) else 0
    { s.onMod (fun m => { m with tele := v }) with free := s.free + 1 })

/-! ## Wafer time (R23) -/

/-- WAFER_TIME_BROADCAST (R23): the time with the path latency added (log 4). Ahead of the local copy it is taken; behind it, the copy advances
at half rate until it is caught up with. -/
def execWaferTimeBroadcast (die : Nat) (time : BitVec 64) (s : State) : Out :=
  .next (
    let d := s.die die
    let time := time + Config.pathLatency die
    if 83 < die || s.mod.boot != 2 || decide (3 ≤ s.mod.pscur.toNat) then s
    else
      let d1 := if d.wtime < time then { d with wtime := time, wfrac := 0, behind := 0 } else { d with behind := 17 * (d.wtime - time).toNat }
      s.setDie die { d1 with wstale := false, sinceB := 0 })

/-- WSTALE (R23): no broadcast has arrived for 64 µs. -/
def execWstale (die : Nat) (s : State) : Out :=
  .next (if 83 < die || decide ((s.die die).sinceB < 64000 * 17) then s else s.setDie die { s.die die with wstale := true })

end Sys2Proof.Machine
end

