-- ==== Sys2Proof/Machine/Engine.lean ====
section
/-! DEFINITION. The engine commands (R311 to R325): commit-point forms whose slots capture their operands; the commit checks of R313 and
the issue are those of BLOCK_COMMIT, and the run is that of the engine events. -/

namespace Sys2Proof.Machine

open Sys2Proof

/-- XCPY: source A, destination B, command word C (R315, R316). -/
def execXcpy (p : Pred) (mx : MX) (a b c : Opnd) (s : State) : Out :=
  runSlot p s (fun cx => (cx.ptr a).bind (fun q => (cx.ptr b).bind (fun r => (cx.int c).bind (fun w =>
    .val (s.capture cx { kind := .xcpy r w, mx := some mx, ptr := q })))))

/-- XCHN: first record A, command word C (R315, R319). -/
def execXchn (p : Pred) (mx : MX) (a c : Opnd) (s : State) : Out :=
  runSlot p s (fun cx => (cx.ptr a).bind (fun q => (cx.int c).bind (fun w =>
    .val (s.capture cx { kind := .xchn w, mx := some mx, ptr := q }))))

/-- XRED: table A, destination B, index list C (R315, R321). -/
def execXred (p : Pred) (mx : MX) (a b c : Opnd) (s : State) : Out :=
  runSlot p s (fun cx => (cx.ptr a).bind (fun q => (cx.ptr b).bind (fun r => (cx.ptr c).bind (fun l =>
    .val (s.capture cx { kind := .xred r l, mx := some mx, ptr := q })))))

/-- A collective's slot: name A, command word C (R315, R325). -/
def xcolSlot (p : Pred) (mx : MX) (f : ColForm) (a c : Opnd) (s : State) : Out :=
  runSlot p s (fun cx => (cx.int a).bind (fun n => (cx.int c).bind (fun w =>
    .val (s.capture cx { kind := .xcol f n w, mx := some mx }))))

/-- XCOL.ALLRED.SUM (R325). -/
def execXcolAllredSum (p : Pred) (mx : MX) (a c : Opnd) (s : State) : Out := xcolSlot p mx .allredSum a c s

/-- XCOL.ALLRED.MAX (R325). -/
def execXcolAllredMax (p : Pred) (mx : MX) (a c : Opnd) (s : State) : Out := xcolSlot p mx .allredMax a c s

/-- XCOL.ALLGATH (R325). -/
def execXcolAllgath (p : Pred) (mx : MX) (a c : Opnd) (s : State) : Out := xcolSlot p mx .allgath a c s

/-- XCOL.REDSCAT.SUM (R325). -/
def execXcolRedscatSum (p : Pred) (mx : MX) (a c : Opnd) (s : State) : Out := xcolSlot p mx .redscatSum a c s

/-- XCOL.BCAST (R325). -/
def execXcolBcast (p : Pred) (mx : MX) (a c : Opnd) (s : State) : Out := xcolSlot p mx .bcast a c s

/-- XREG.REG: name A, buffer B (R324). -/
def execXregReg (p : Pred) (mx : MX) (a b : Opnd) (s : State) : Out :=
  runSlot p s (fun cx => (cx.int a).bind (fun n => (cx.ptr b).bind (fun q =>
    .val (s.capture cx { kind := .xregReg n q, mx := some mx, ptr := q }))))

/-- XREG.REL: name A (R324). -/
def execXregRel (p : Pred) (mx : MX) (a : Opnd) (s : State) : Out :=
  runSlot p s (fun cx => (cx.int a).bind (fun n => .val (s.capture cx { kind := .xregRel n, mx := some mx })))

end Sys2Proof.Machine
end

