-- ==== Sys2Proof/Machine/FieldCfg.lean ====
section
/-! DEFINITION. The field instructions (R272 to R283). CFG.CONF, CFG.FREL, FEED, WLD, ACC and ADM.ASET are commit-point: their slots
capture their operands. DRN and the queries read the field units when they execute. -/

namespace Sys2Proof.Machine

open Sys2Proof

/-- CFG.CONF: image A, origin name B; the handle or refusal is its late result (R273). -/
def execCfgConf (p : Pred) (d : Dst) (mx : MX) (a b : Opnd) (s : State) : Out :=
  runSlot p s (fun cx => (cx.ptr a).bind (fun q => (cx.int b).bind (fun o =>
    .val (s.capture cx { kind := .conf o, mx := some mx, ptr := q, dst := d }))))

/-- CFG.FREL: handle A (R275). -/
def execCfgFrel (p : Pred) (mx : MX) (a : Opnd) (s : State) : Out :=
  runSlot p s (fun cx => (cx.int a).bind (fun h => .val (s.capture cx { kind := .frel h, mx := some mx })))

/-- The word CFG.FQRY returns of a field (R276). -/
def State.fieldQuery (s : State) (h : BitVec 64) : BitVec 64 :=
  if h.extractLsb' 32 32 ≠ 0 then 0
  else match s.liveField (h.extractLsb' 0 32) with
    | none => 0
    | some f => BitVec.ofNat 64 (f.mode * 2^40 + f.cols * 2^32 + f.rows * 2^24 + (s.logCols f).length * 2^12 + f.lr)

/-- CFG.FQRY (R276). -/
def execCfgFqry (p : Pred) (d : Dst) (a : Opnd) (s : State) : Out :=
  runSlot p s (fun cx => (cx.int a).bind (fun h => .val (s.result cx d (.int (s.fieldQuery h)))))

/-- FEED: source A, parameters B, flags (R277). -/
def execFeed (p : Pred) (mx : MX) (fin swap eos : Bool) (a b : Opnd) (s : State) : Out :=
  runSlot p s (fun cx => (cx.ptr a).bind (fun q => (cx.int b).bind (fun x =>
    .val (s.capture cx { kind := .feed fin swap eos x, mx := some mx, ptr := q }))))

/-- WLD: source A, weight tile B (R278). -/
def execWld (p : Pred) (mx : MX) (a b : Opnd) (s : State) : Out :=
  runSlot p s (fun cx => (cx.ptr a).bind (fun q => (cx.int b).bind (fun x =>
    .val (s.capture cx { kind := .wld x, mx := some mx, ptr := q }))))

/-- The three DRN forms. -/
inductive DrnForm where
  | pop | last | peek
  deriving DecidableEq, Repr

/-- Rows of a tile popped by lower slots of the block (R280). -/
def Cx.lowerRows (cx : Cx) (t : Nat) : Rd Nat :=
  cx.lowerSum (fun q => match q with
    | .tile u _ _ _ => if u = t then 1 else 0
    | _ => 0)
    (fun f => if isForm f 0x63 0 || isForm f 0x63 1 then
        (cx.pendingA f).bind (fun a => .val (if (a.extractLsb' 0 4).toNat = t then 1 else 0)) else .val 0)

/-- CUR of a tile as a block uses it: what the first of its pops of the tile to execute has read, else the cursor as it stands (R281). -/
def Block.curOf (b : Block) (t now : Nat) : Nat :=
  (b.slots.findSome? (fun r => match r.pop with
    | some (.tile u _ _ c) => if u = t then some c else none
    | _ => none)).getD now

/-- The row a DRN reads, drained: its lanes and tags, checked lane by lane against the threshold (R46, R49, R280). -/
def State.drnRead (s : State) (cx : Cx) (d : Dst) (t c cur : Nat) (form : DrnForm) : State :=
  let u := (s.plot cx.p).fu
  let v := u.drainRow ((u.tile t).base + c)
  let pop : Option Pop := match form with
    | .pop => some (.tile t c false cur)
    | .last => some (.tile t c true cur)
    | .peek => none
  let checks := (List.range 16).map (fun i => (⟨i, (fp32.dec (v.lane i).toNat).isFin, (v.tag i).toNat, v.lane i⟩ : Checked))
  match cx.task.trigger checks with
  | none => s.finish cx { val := some (.vec v), dst := d, pop := pop }
  | some x =>
    let s := s.bump cx.p 30 (checks.filter (fun c => c.fin && decide (c.tag < cx.task.theta))).length
    if cx.task.sigTrap then
      s.abortSlot cx { cause := .sig, lane := x.lane, info := sigInfo x }
    else s.finish cx { val := some (.vec v), dst := d, pop := pop, siglost := true }

/-- DRN in one of its forms (R280): FIELD without a drainable tile, a stall until it is FULL, FIELD beyond its rows, SOFT at a poisoned row. The
block's pops of a tile count from one reading of CUR (R281). -/
def drnSlot (p : Pred) (d : Dst) (form : DrnForm) (a : Opnd) (s : State) : Out :=
  runSlot p s (fun cx => (cx.int a).bind (fun x =>
    let t := (x.extractLsb' 0 4).toNat
    let u := (s.plot cx.p).fu
    let y := u.tile t
    (cx.lowerRows t).bind (fun n =>
      let cur := cx.blk.curOf t y.cur
      let c := cur + n
      if !u.south? || (s.fieldOf cx.p).isNone || y.rows = 0 || y.auto then .val (s.abortSlot cx { cause := .field })
      else if form != .peek && y.st != .full then .val (s.stallGate cx (.tile t))
      else if y.rows ≤ c then .val (s.abortSlot cx { cause := .field })
      else match u.prow t with
      | some r =>
        if r ≤ c then .val (s.abortSlot cx { cause := .soft, info := BitVec.ofNat 64 (t * 2^12 + (y.base + c)) })
        else .val (s.drnRead cx d t c cur form)
      | none => .val (s.drnRead cx d t c cur form))))

/-- DRN.POP (R280). -/
def execDrnPop (p : Pred) (d : Dst) (a : Opnd) (s : State) : Out := drnSlot p d .pop a s

/-- DRN.LAST (R280). -/
def execDrnLast (p : Pred) (d : Dst) (a : Opnd) (s : State) : Out := drnSlot p d .last a s

/-- DRN.PEEK (R280). -/
def execDrnPeek (p : Pred) (d : Dst) (a : Opnd) (s : State) : Out := drnSlot p d .peek a s

/-- ACC.ACLR (R282). -/
def execAccAclr (p : Pred) (a : Opnd) (s : State) : Out :=
  runSlot p s (fun cx => (cx.int a).bind (fun x => .val (s.capture cx { kind := .aclr x })))

/-- ACC.ASTA: its late result is the tile's state word (R282). -/
def execAccAsta (p : Pred) (d : Dst) (a : Opnd) (s : State) : Out :=
  runSlot p s (fun cx => (cx.int a).bind (fun x => .val (s.capture cx { kind := .asta x, dst := d })))

/-- ADM.ASET (R283). -/
def execAdmAset (p : Pred) (a b : Opnd) (s : State) : Out :=
  runSlot p s (fun cx => (cx.int a).bind (fun x => (cx.int b).bind (fun y => .val (s.capture cx { kind := .aset x y }))))

/-- The admission port a[0] of a plot (R283). -/
def FUnit.port (u : FUnit) (a : BitVec 64) : AdmPort := if a.getLsbD 0 then u.port1 else u.port0

/-- ADM.ARD: the port's word, or 0 on a plot in no field (R259, R283). -/
def execAdmArd (p : Pred) (d : Dst) (a : Opnd) (s : State) : Out :=
  runSlot p s (fun cx => (cx.int a).bind (fun x =>
    .val (s.result cx d (.int (if (s.fieldOf cx.p).isSome then ((s.plot cx.p).fu.port x).word else 0)))))

end Sys2Proof.Machine
end

