-- ==== Sys2Proof/Machine/Float.lean ====
section
/-! DEFINITION. The scalar floating-point instructions (R120 to R136). -/

namespace Sys2Proof.Machine

open Sys2Proof

/-- A checked FP result of one FP operand (R136). -/
def fp1 (p : Pred) (d : Dst) (a : Opnd) (src dst : FpFmt) (s : State) (f : Task → FVal → Nat → FpRes) : Out :=
  runSlot p s (fun cx => (cx.fp a).bind (fun x =>
    let r := f cx.task (x.read src).1 (x.read src).2
    .val (s.fpResult cx d (.fp r.reg) r.flags [r.checked dst] 15)))

/-- A checked FP result of two FP operands in one format. -/
def fp2 (p : Pred) (d : Dst) (a b : Opnd) (fmt : FpFmt) (s : State) (f : Task → FVal → Nat → FVal → Nat → FpRes) : Out :=
  runSlot p s (fun cx => (cx.fp a).bind (fun x => (cx.fp b).bind (fun y =>
    let r := f cx.task (x.read fmt).1 (x.read fmt).2 (y.read fmt).1 (y.read fmt).2
    .val (s.fpResult cx d (.fp r.reg) r.flags [r.checked fmt] 15))))

/-- An unchecked FP result of one FP operand, its bits and tag as read. FSGN of a NaN or an infinity has tag 0 by R43, whatever the operation, and
else A's by R132 (log 67). -/
def fpRaw (p : Pred) (d : Dst) (a : Opnd) (fmt : FpFmt) (s : State) (f : BitVec 64 → Nat → FpRes) : Out :=
  runSlot p s (fun cx => (cx.fp a).bind (fun x =>
    let r := f (fmt.take x.bits) (x.read fmt).2
    .val (s.fpResult cx d (.fp (fmt.result r.bits 0 r.tag).reg) r.flags [] 15)))

/-- An unchecked FP result of two FP operands: their bits and tags as read. -/
def fpRaw2 (p : Pred) (d : Dst) (a b : Opnd) (fmt : FpFmt) (s : State) (f : BitVec 64 → Nat → BitVec 64 → Nat → FpRes) : Out :=
  runSlot p s (fun cx => (cx.fp a).bind (fun x => (cx.fp b).bind (fun y =>
    let r := f (fmt.take x.bits) (x.read fmt).2 (fmt.take y.bits) (y.read fmt).2
    .val (s.fpResult cx d (.fp (fmt.result r.bits 0 r.tag).reg) r.flags [] 15))))

/-- A comparison (R129). -/
def fpPred (p : Pred) (d : Dst) (a b : Opnd) (fmt : FpFmt) (k : FCmp) (s : State) : Out :=
  runSlot p s (fun cx => (cx.fp a).bind (fun x => (cx.fp b).bind (fun y =>
    let r := fpCmp k (x.read fmt).1 (y.read fmt).1
    .val (s.fpResult cx d (.pred r.1) r.2 [] 15))))

/-- An FP value to a 64-bit integer between bounds (R131). -/
def fpInt (p : Pred) (d : Dst) (a : Opnd) (fmt : FpFmt) (rnd : Rnd) (lo hi : Int) (s : State) : Out :=
  runSlot p s (fun cx => (cx.fp a).bind (fun x =>
    let r := fpToInt (cx.task.mode rnd) lo hi (x.read fmt).1
    .val (s.fpResult cx d (.int (BitVec.ofInt 64 r.1)) r.2 [] 15)))

/-- A 64-bit integer to an FP value (R131). -/
def intFp (p : Pred) (d : Dst) (a : Opnd) (fmt : FpFmt) (rnd : Rnd) (v : BitVec 64 → Int) (s : State) : Out :=
  runSlot p s (fun cx => (cx.int a).bind (fun x =>
    let r := intToFp fmt (cx.task.mode rnd) (v x)
    .val (s.fpResult cx d (.fp r.reg) r.flags [r.checked fmt] 15)))

/-- The sign bit of a format's code. -/
def FpFmt.signBit (f : FpFmt) : BitVec 64 := BitVec.twoPow 64 (f.width - 1)

/-- FSIGW's tag: clamp(int64(b), 0, p), or 0 for NaN and infinity (R134). -/
def sigwTag (f : FpFmt) (bits b : BitVec 64) : Nat :=
  if (f.dec bits.toNat).isFin then min f.p b.toInt.toNat else 0

/-! ## The instructions -/

/-- FADD (R123). -/
def execFadd (p : Pred) (d : Dst) (fmt : Fmt) (rnd : Rnd) (a b : Opnd) (s : State) : Out :=
  fp2 p d a b (fmtOf fmt) s (fun t => fpAdd (fmtOf fmt) (t.mode rnd))

/-- FSUB (R123). -/
def execFsub (p : Pred) (d : Dst) (fmt : Fmt) (rnd : Rnd) (a b : Opnd) (s : State) : Out :=
  fp2 p d a b (fmtOf fmt) s (fun t => fpSub (fmtOf fmt) (t.mode rnd))

/-- FMUL (R123). -/
def execFmul (p : Pred) (d : Dst) (fmt : Fmt) (rnd : Rnd) (a b : Opnd) (s : State) : Out :=
  fp2 p d a b (fmtOf fmt) s (fun t => fpMul (fmtOf fmt) (t.mode rnd))

/-- FFMA (R124). -/
def execFfma (p : Pred) (d : Dst) (fmt : Fmt) (rnd : Rnd) (a b c : Opnd) (s : State) : Out :=
  runSlot p s (fun cx => (cx.fp a).bind (fun x => (cx.fp b).bind (fun y => (cx.fp c).bind (fun z =>
    let f := fmtOf fmt
    let r := fpFma f (cx.task.mode rnd) (x.read f).1 (x.read f).2 (y.read f).1 (y.read f).2 (z.read f).1 (z.read f).2
    .val (s.fpResult cx d (.fp r.reg) r.flags [r.checked f] 15)))))

/-- FDIV (R123). -/
def execFdiv (p : Pred) (d : Dst) (fmt : Fmt) (rnd : Rnd) (a b : Opnd) (s : State) : Out :=
  fp2 p d a b (fmtOf fmt) s (fun t => fpDiv (fmtOf fmt) (t.mode rnd))

/-- FSQRT (R125). -/
def execFsqrt (p : Pred) (d : Dst) (fmt : Fmt) (rnd : Rnd) (a : Opnd) (s : State) : Out :=
  fp1 p d a (fmtOf fmt) (fmtOf fmt) s (fun t => fpSqrt (fmtOf fmt) (t.mode rnd))

/-- FMIN (R128). -/
def execFmin (p : Pred) (d : Dst) (fmt : Fmt) (a b : Opnd) (s : State) : Out :=
  fpRaw2 p d a b (fmtOf fmt) s (fpMnx (fmtOf fmt) false false)

/-- FMAX (R128). -/
def execFmax (p : Pred) (d : Dst) (fmt : Fmt) (a b : Opnd) (s : State) : Out :=
  fpRaw2 p d a b (fmtOf fmt) s (fpMnx (fmtOf fmt) true false)

/-- FMINM (R128). -/
def execFminm (p : Pred) (d : Dst) (fmt : Fmt) (a b : Opnd) (s : State) : Out :=
  fpRaw2 p d a b (fmtOf fmt) s (fpMnx (fmtOf fmt) false true)

/-- FMAXM (R128). -/
def execFmaxm (p : Pred) (d : Dst) (fmt : Fmt) (a b : Opnd) (s : State) : Out :=
  fpRaw2 p d a b (fmtOf fmt) s (fpMnx (fmtOf fmt) true true)

/-- FCMP.EQ (R129). -/
def execFcmpEq (p : Pred) (d : Dst) (fmt : Fmt) (a b : Opnd) (s : State) : Out := fpPred p d a b (fmtOf fmt) .eq s

/-- FCMP.LT (R129). -/
def execFcmpLt (p : Pred) (d : Dst) (fmt : Fmt) (a b : Opnd) (s : State) : Out := fpPred p d a b (fmtOf fmt) .lt s

/-- FCMP.LE (R129). -/
def execFcmpLe (p : Pred) (d : Dst) (fmt : Fmt) (a b : Opnd) (s : State) : Out := fpPred p d a b (fmtOf fmt) .le s

/-- FCMP.UN (R129). -/
def execFcmpUn (p : Pred) (d : Dst) (fmt : Fmt) (a b : Opnd) (s : State) : Out := fpPred p d a b (fmtOf fmt) .un s

/-- FCMP.EQS (R129). -/
def execFcmpEqs (p : Pred) (d : Dst) (fmt : Fmt) (a b : Opnd) (s : State) : Out := fpPred p d a b (fmtOf fmt) .eqs s

/-- FCVT (R130). -/
def execFcvt (p : Pred) (d : Dst) (dst src : Fmt) (rnd : Rnd) (a : Opnd) (s : State) : Out :=
  fp1 p d a (fmtOf src) (fmtOf dst) s (fun t => fpCvt (fmtOf dst) (t.mode rnd))

/-- FCVI.FS (R131). -/
def execFcviFs (p : Pred) (d : Dst) (fmt : Fmt) (rnd : Rnd) (a : Opnd) (s : State) : Out :=
  fpInt p d a (fmtOf fmt) rnd (-(2 ^ 63)) (2 ^ 63 - 1) s

/-- FCVI.FU (R131). -/
def execFcviFu (p : Pred) (d : Dst) (fmt : Fmt) (rnd : Rnd) (a : Opnd) (s : State) : Out :=
  fpInt p d a (fmtOf fmt) rnd 0 (2 ^ 64 - 1) s

/-- FCVI.SF (R131). -/
def execFcviSf (p : Pred) (d : Dst) (fmt : Fmt) (rnd : Rnd) (a : Opnd) (s : State) : Out :=
  intFp p d a (fmtOf fmt) rnd (fun x => x.toInt) s

/-- FCVI.UF (R131). -/
def execFcviUf (p : Pred) (d : Dst) (fmt : Fmt) (rnd : Rnd) (a : Opnd) (s : State) : Out :=
  intFp p d a (fmtOf fmt) rnd (fun x => (x.toNat : Int)) s

/-- FABS: the sign bit cleared (R132). -/
def execFabs (p : Pred) (d : Dst) (fmt : Fmt) (a : Opnd) (s : State) : Out :=
  fpRaw p d a (fmtOf fmt) s (fun x sx => ⟨x &&& ~~~(fmtOf fmt).signBit, 0, sx⟩)

/-- FNEG: the sign bit inverted (R132). -/
def execFneg (p : Pred) (d : Dst) (fmt : Fmt) (a : Opnd) (s : State) : Out :=
  fpRaw p d a (fmtOf fmt) s (fun x sx => ⟨x ^^^ (fmtOf fmt).signBit, 0, sx⟩)

/-- FCPS: A's magnitude with B's sign (R132). -/
def execFcps (p : Pred) (d : Dst) (fmt : Fmt) (a b : Opnd) (s : State) : Out :=
  fpRaw2 p d a b (fmtOf fmt) s (fun x sx y _ =>
    ⟨(x &&& ~~~(fmtOf fmt).signBit) ||| (y &&& (fmtOf fmt).signBit), 0, sx⟩)

/-- FSIGR: the tag as read (R134). -/
def execFsigr (p : Pred) (d : Dst) (fmt : Fmt) (a : Opnd) (s : State) : Out :=
  runSlot p s (fun cx => (cx.fp a).bind (fun x =>
    .val (s.fpResult cx d (.int (BitVec.ofNat 64 (x.read (fmtOf fmt)).2)) 0 [] 15)))

/-- FSIGW: the value with its tag set (R134). -/
def execFsigw (p : Pred) (d : Dst) (fmt : Fmt) (a b : Opnd) (s : State) : Out :=
  runSlot p s (fun cx => (cx.fp a).bind (fun x => (cx.int b).bind (fun y =>
    let v := (fmtOf fmt).take x.bits
    .val (s.fpResult cx d (.fp ⟨v, BitVec.ofNat 6 (sigwTag (fmtOf fmt) v y)⟩) 0 [] 15))))

/-- FSIGLT: the tag as read below int64(b) (R134). -/
def execFsiglt (p : Pred) (d : Dst) (fmt : Fmt) (a b : Opnd) (s : State) : Out :=
  runSlot p s (fun cx => (cx.fp a).bind (fun x => (cx.int b).bind (fun y =>
    .val (s.fpResult cx d (.pred (decide (((x.read (fmtOf fmt)).2 : Int) < y.toInt))) 0 [] 15))))

/-- FRCP (R135). -/
def execFrcp (p : Pred) (d : Dst) (fmt : Fmt) (a : Opnd) (s : State) : Out :=
  fp1 p d a (fmtOf fmt) (fmtOf fmt) s (fun _ => fpRcp (fmtOf fmt))

/-- FRSQ (R135). -/
def execFrsq (p : Pred) (d : Dst) (fmt : Fmt) (a : Opnd) (s : State) : Out :=
  fp1 p d a (fmtOf fmt) (fmtOf fmt) s (fun _ => fpRsq (fmtOf fmt))

/-- FEX2 (R135). -/
def execFex2 (p : Pred) (d : Dst) (fmt : Fmt) (a : Opnd) (s : State) : Out :=
  fp1 p d a (fmtOf fmt) (fmtOf fmt) s (fun _ => fpEx2 (fmtOf fmt))

/-- FLG2 (R135). -/
def execFlg2 (p : Pred) (d : Dst) (fmt : Fmt) (a : Opnd) (s : State) : Out :=
  fp1 p d a (fmtOf fmt) (fmtOf fmt) s (fun _ => fpLg2 (fmtOf fmt))

/-- FCLS: the bit of A's class (R133). -/
def execFcls (p : Pred) (d : Dst) (fmt : Fmt) (a : Opnd) (s : State) : Out :=
  runSlot p s (fun cx => (cx.fp a).bind (fun x =>
    .val (s.fpResult cx d (.int (BitVec.ofNat 64 (2 ^ fpClass (fmtOf fmt) (x.read (fmtOf fmt)).1))) 0 [] 15)))

end Sys2Proof.Machine
end

