-- ==== Sys2Proof/Machine/Issue.lean ====
section
/-! DEFINITION. COMMIT_OP_PERFORM and the SC token (R194, R208, R209): when an issued operation performs, and at which unit. -/

namespace Sys2Proof.Machine

open Sys2Proof

/-- OTC.INVO and OTC.INVA (R365): once every access translated through what they remove has performed. -/
def State.invEvent (s : State) (p k : Nat) (o : Op) (f : BitVec 24 → Bool) (g : Nat → Bool) : State :=
  if s.pendingOn f then s else (s.otcRemove f g).finishOp p k o none

/-- HALTC at its performance (R354): the sluice ends the launch as KILL does. -/
def State.haltEvent (s : State) (p k : Nat) (o : Op) (a : BitVec 64) : State :=
  (s.finishOp p k o none).killLaunch (s.task p k).launch 0x17 (a.extractLsb' 0 32)

/-- FEED, unless the feeder holds it already. -/
def State.feedOnce (s : State) (p k : Nat) (o : Op) (fin swap eos : Bool) (b : BitVec 64) : State :=
  if (s.plot p).fu.feeds.any (fun c => c.serial == o.serial) then s else s.feedEvent p k o fin swap eos b

/-- Whether a CTX of another task of the core that names the same slot was committed earlier and has not performed (R233). -/
def Plot.ctxBefore (x : Plot) (serial : Nat) (b : BitVec 64) : Bool :=
  let names := fun (c : BitVec 64) => c.extractLsb' 0 4 == b.extractLsb' 0 4
  slotIdx.any (fun j => (x.task j).ops.any (fun o => decide (o.serial < serial) && (match o.act.kind with
    | .csave c => names c
    | .crest c => names c
    | _ => false)))

/-- What an issued operation does at its home or unit. Engine commands perform by events of their own (R312). -/
def State.performAt (s : State) (p k : Nat) (o : Op) (pick : Nat) : State :=
  match o.act.kind with
  | .store .. => s.memOp p k o pick
  | .amo .. => s.memOp p k o pick
  | .cas .. => s.memOp p k o pick
  | .cst .. => s.memOp p k o pick
  | .conf a => s.confEvent p k o a
  | .frel h => s.frelEvent p k o h
  | .feed fin swap eos b => s.feedOnce p k o fin swap eos b
  | .wld b => s.wldEvent p k o b
  | .aclr a => s.aclrEvent p k o a
  | .asta a => s.astaEvent p k o a
  | .ssig a b => (s.signal p (a.extractLsb' 0 8).toNat (b.extractLsb' 0 16).toNat).finishOp p k o none
  | .ssigr a b => s.ssigr p k o a b
  | .sset a b => (s.setSem p (a.extractLsb' 0 8).toNat (b.extractLsb' 0 16)).finishOp p k o none
  | .bara a => s.baraEvent p k o a
  | .spawn a b => s.spawnEvent p k o a b
  | .wake a b => (s.wakeTask p a b).finishOp p k o none
  | .csave b => if (s.plot p).ctxBefore o.serial b then s else s.csaveEvent p k o b
  | .crest b => if (s.plot p).ctxBefore o.serial b then s else s.crestEvent p k o b
  | .invo a => s.invEvent p k o (fun x => x == a.extractLsb' 0 24) (nodeOf (a.extractLsb' 0 24))
  | .inva => s.invEvent p k o (fun _ => true) (fun _ => true)
  | .pin a b => s.pinEvent p k o a b
  | .tblw t b => s.tblwEvent p k o t b
  | .haltc a => s.haltEvent p k o a
  | _ => s

/-- An operation performs; one that is no access to memory of its own has its acquire effect first (R199, R207). -/
def State.perform (s : State) (p k : Nat) (o : Op) (pick : Nat) : State :=
  if o.act.kind.isMem then s.performAt p k o pick
  else
    let x := s.acquireOnce p k o
    x.1.performAt p k x.2 pick

/-- The dies are clocked (R407). -/
def State.clocked (s : State) : Bool := s.mod.boot == 2 && decide (s.mod.pscur.toNat ≤ 2)

/-- The host agent reports an accepted write complete at the host (R194). -/
def State.hostDone (s : State) (p k serial : Nat) : State :=
  (s.onTask p k (fun t => { t with hostOps := t.hostOps.filter (fun x => x.1 != serial) })).settle p k

/-- The same report for a write whose task has left its slot: its launch waits for it no longer (R341). -/
def State.leftDone (s : State) (p k serial : Nat) : State :=
  { s with launches := s.launches.map (fun l => { l with hostLeft := l.hostLeft.filter (fun x => x != (p, k, serial)) }) }

/-- COMMIT_OP_PERFORM (R194): an issued operation performs once every operation it must follow has (R193); `pick` names the part of a plain
store. Of a host write that its agent has accepted, the report of its completion. -/
def execCommitOpPerform (plot task serial pick : Nat) (s : State) : Out :=
  .next (match s.opOf plot task serial with
    | none =>
      if !s.clocked then s
      else if (s.task plot task).hostOps.any (fun x => x.1 == serial) then s.hostDone plot task serial else s.leftDone plot task serial
    | some o => if s.clocked && (s.task plot task).depsMet o then s.perform plot task o pick else s)

/-! ## The SC token (R208, R209) -/

/-- The die after a die on the token's ring. -/
def tokenNext (d : Nat) : Nat :=
  let r := d / 12
  let c := d % 12
  if r % 2 = 0 then (if c < 11 then d + 1 else if r = 6 then 0 else d + 12) else (if 0 < c then d - 1 else d + 12)

/-- A pending seq load performs its parts at the die that holds the token. -/
def State.serveLoad (s : State) (die : Nat) (r : SeqReq) : State :=
  let s1 := { s with focus := ⟨r.plot, r.half, r.slot, die, true⟩ }
  match s1.cx? with
  | none => s
  | some cx =>
    if cx.t ≠ r.task then s
    else match cx.blk.words[cx.k]? with
    | none => s
    | some w =>
      let f := Fields.ofWord w
      match loadSpec? f, Opnd.ofCode f.a f.x, Opnd.ofCode f.b f.x with
      | some l, some a, some b =>
        (match (cx.ptr a).bind (fun q => (cx.int b).bind (fun off => .val (s1.load cx l q off))) with
        | .val t => t
        | _ => s)
      | _, _, _ => s

/-- A pending issued operation performs its parts there. -/
def State.serveOp (s : State) (die : Nat) (r : SeqReq) (serial : Nat) : State :=
  match s.opOf r.plot r.task serial with
  | some o => (match o.act.mx with
    | some m => if (s.task r.plot r.task).depsMet o then s.memEvent r.plot r.task o m (o.partsAt die) else s
    | none => s)
  | none => s

/-- Whether a pending operation has still something to perform at a die. -/
def State.stillPending (s : State) (die : Nat) (r : SeqReq) : Bool :=
  match r.serial with
  | some n => (match s.opOf r.plot r.task n with
    | some o => !(o.partsAt die).isEmpty
    | none => false)
  | none =>
    if r.take then false
    else
      let s1 := { s with focus := ⟨r.plot, r.half, r.slot, die, true⟩ }
      match s1.cx? with
      | some cx => cx.t == r.task && cx.sr.queued
      | none => false

/-- A load that has performed its parts at a die is queued there no more. -/
def State.progressed (s t : State) (r : SeqReq) : Bool :=
  let parts := fun (x : State) => (((x.plot r.plot).half r.half).blk.bind (fun b => b.slots[r.slot]?)).map (fun q => q.parts)
  r.serial.isNone && parts s != parts t

/-- One pending operation served: it leaves the die's queue once it has performed there. -/
def State.serveSeq (s : State) (die : Nat) (r : SeqReq) : State :=
  let t := match r.serial with
    | some n => s.serveOp die r n
    | none => if r.take then s.serveTake die r else s.serveLoad die r
  if t.stillPending die r && !s.progressed t r then t
  else t.setDie die { t.die die with seqQ := (t.die die).seqQ.filter (fun q => q != r) }

/-- SC_TOKEN_ARRIVE (R209): the token's cistern performs up to 16 pending seq operations in arrival order, then passes the token on. -/
def execScTokenArrive (die : Nat) (s : State) : Out :=
  .next (
    if s.mod.tokenDie ≠ die || !s.clocked then s
    else
      let s1 := ((s.die die).seqQ.take 16).foldl (fun s r => s.serveSeq die r) s
      { s1.onMod (fun m => { m with tokenDie := tokenNext die }) with focus := s.focus })

end Sys2Proof.Machine
end

