-- ==== Sys2Proof/Machine/Rill.lean ====
section
/-! DEFINITION. The rill instructions (R297 to R302). CHS and CHC are commit-point: their slots capture port and value. CHR receives when
it executes and consumes at the commit. -/

namespace Sys2Proof.Machine

open Sys2Proof

/-- A CHS slot: its port and the value it sends. -/
def chsSlot {α : Type} (p : Pred) (form : ChsForm) (a : Opnd) (rd : Cx → Rd α) (f : α → BitVec 512) (s : State) : Out :=
  runSlot p s (fun cx => (cx.int a).bind (fun q => (rd cx).bind (fun x => .val (s.capture cx { kind := .chs q form (f x) }))))

/-- CHS.INT (R298). -/
def execChsInt (p : Pred) (a b : Opnd) (s : State) : Out :=
  chsSlot p .int a (fun cx => cx.int b) (fun x => x.zeroExtend 512) s

/-- CHS.FP: B read as FP32 (R298). -/
def execChsFp (p : Pred) (a b : Opnd) (s : State) : Out :=
  chsSlot p .fp a (fun cx => cx.fp b) (fun x => (x.bits.extractLsb' 0 32).zeroExtend 512) s

/-- CHS.VEC (R298). -/
def execChsVec (p : Pred) (a b : Opnd) (s : State) : Out := chsSlot p .vec a (fun cx => cx.vec b) (fun v => v.lanes) s

/-- CHS.EOS (R298). -/
def execChsEos (p : Pred) (a : Opnd) (s : State) : Out := chsSlot p .eos a (fun _ => .val ()) (fun _ => 0) s

/-- CHS.MARK (R298). -/
def execChsMark (p : Pred) (a b : Opnd) (s : State) : Out :=
  chsSlot p .mark a (fun cx => cx.int b) (fun x => (x.extractLsb' 0 16).zeroExtend 512) s

/-- Items of a port popped by lower slots of the block (R299). Whether a CHR.END pops is known when it has executed. -/
def Cx.lowerItems (cx : Cx) (port : Nat) : Rd Nat :=
  cx.lowerSum (fun q => match q with
    | .rill e => if e = port then 1 else 0
    | .latest e _ => if e = port then 1 else 0
    | _ => 0)
    (fun f =>
      if f.op.toNat = 0x66 ∧ f.fn.toNat ≤ 3 then
        (cx.pendingA f).bind (fun a => if a.toNat ≠ port then .val 0 else if f.fn.toNat = 3 then .wait else .val 1)
      else .val 0)

/-- The register layout of a vector element (R288): FP8-BS and MXFP4 keep their scale in lane 8. -/
def vecOfElem (fmt : Nat) (ws : BitVec 512) : VReg :=
  if fmt = 2 then ⟨(ws.extractLsb' 0 128).zeroExtend 512 ||| ((ws.extractLsb' 128 32).zeroExtend 512 <<< 256), 0⟩
  else if fmt = 3 then ⟨(ws.extractLsb' 0 128).zeroExtend 512 ||| ((ws.extractLsb' 128 8).zeroExtend 512 <<< 256), 0⟩
  else if fmt = 0 then ⟨ws, BitVec.ofNat 96 (packTags (fun i => (fp32.result ((ws.extractLsb' (32 * i) 32).zeroExtend 64) 0 24).tag) 16)⟩
  else if fmt = 1 then ⟨(ws.extractLsb' 0 256).zeroExtend 512, 0⟩
  else ⟨ws, 0⟩

/-- The value of a data element as CHR delivers it (R299); an FP element of a BF16 end widens as R289 does, a NaN to the canonical one (R40).
The tag is p of FMT by R299, and 0 of a NaN or infinity by R43 (log 67). -/
def chrVal (form : ChsForm) (fmt : Nat) (ws : BitVec 512) : Val :=
  match form with
  | .int => .int (if fmt = 4 then (ws.extractLsb' 0 32).signExtend 64 else ws.extractLsb' 0 64)
  | .fp => .fp (if fmt = 1 then fp32.result (fpCvt fp32 .rne (bf16.dec (ws.extractLsb' 0 16).toNat) 8).bits 0 8
      else fp32.result ((ws.extractLsb' 0 32).zeroExtend 64) 0 24).reg
  | _ => .vec (vecOfElem fmt ws)

/-- A receive form's slot: its errors in the order of R299, then what it does with the port's entry and the item's position. -/
def chrSlot (p : Pred) (a : Opnd) (fitsIt : Rill → Bool) (s : State) (f : Cx → BitVec 64 → Rill → Nat → State) : Out :=
  runSlot p s (fun cx => (cx.int a).bind (fun q =>
    let r := s.rill cx.p q.toNat
    if 63 < q.toNat ∨ r.role ≠ 2 then .val (s.rillTrap cx q 1)
    else if !fitsIt r then .val (s.rillTrap cx q 2)
    else if r.broken then .val (s.rillTrap cx q 7)
    else (cx.lowerItems q.toNat).bind (fun k => .val (f cx q r k))))

/-- A CHR gate that stalls for an item (R66, R299). -/
def State.chrStall (s : State) (cx : Cx) (port k : Nat) : State := (s.waitsOn cx.p cx.t port false).stallGate cx (.rill port k)

/-- CHR.INT, CHR.FP and CHR.VEC (R299): the item at the port's head beyond the lower slots' pops. -/
def chrData (p : Pred) (d : Dst) (form : ChsForm) (a : Opnd) (s : State) : Out :=
  chrSlot p a (fun r => r.fits form) s (fun cx q r k =>
    match r.item k with
    | none => s.chrStall cx q.toNat k
    | some (.data ws seq) =>
      s.finish cx { val := some (chrVal form r.fmt ws), dst := d,
                    pop := some (if r.latest then .latest q.toNat seq else .rill q.toNat) }
    | some _ => s.rillTrap cx q 5)

/-- CHR.INT (R299). -/
def execChrInt (p : Pred) (d : Dst) (a : Opnd) (s : State) : Out := chrData p d .int a s

/-- CHR.FP (R299). -/
def execChrFp (p : Pred) (d : Dst) (a : Opnd) (s : State) : Out := chrData p d .fp a s

/-- CHR.VEC (R299). -/
def execChrVec (p : Pred) (d : Dst) (a : Opnd) (s : State) : Out := chrData p d .vec a s

/-- CHR.END: true at an EOS, which it consumes at the commit; false at data (R299). A LATEST end raises RILL 0x03. DESIGN CHOICE (log 82): where its rill
is broken too, the code is 0x07. -/
def execChrEnd (p : Pred) (d : Dst) (a : Opnd) (s : State) : Out :=
  chrSlot p a (fun _ => true) s (fun cx q r k =>
    if r.latest then s.rillTrap cx q 3
    else match r.item k with
    | none => s.chrStall cx q.toNat k
    | some .eos => s.finish cx { val := some (.pred true), dst := d, pop := some (.rill q.toNat) }
    | some _ => s.finish cx { val := some (.pred false), dst := d, pop := some (.head q.toNat) })

/-- CHR.STAT (R300): any port, unless its rill is broken (R296), of a join that of either input. -/
def execChrStat (p : Pred) (d : Dst) (a : Opnd) (s : State) : Out :=
  runSlot p s (fun cx => (cx.int a).bind (fun q =>
    if 63 < q.toNat then .val (s.rillTrap cx q 1)
    else if s.portBroken cx.p q.toNat then .val (s.rillTrap cx q 7)
    else .val (s.result cx d (.int (s.rill cx.p q.toNat).stat))))

/-- CHR.LAT (R301). DESIGN CHOICE (log 82): a port that is no LATEST receive end is code 0x03 also where its rill is broken. -/
def execChrLat (p : Pred) (d : Dst) (a : Opnd) (s : State) : Out :=
  runSlot p s (fun cx => (cx.int a).bind (fun q =>
    let r := s.rill cx.p q.toNat
    if 63 < q.toNat then .val (s.rillTrap cx q 1)
    else if r.role ≠ 2 ∨ !r.latest then .val (s.rillTrap cx q 3)
    else if r.broken then .val (s.rillTrap cx q 7)
    else .val (s.result cx d (.int (BitVec.ofNat 64 ((if r.valid then 2^33 else 0) + (if r.unread then 2^32 else 0) + r.seq.toNat))))))

/-- A CHC slot: its port and its argument. -/
def chcSlot (p : Pred) (a b : Opnd) (f : BitVec 64 → BitVec 64 → CKind) (s : State) : Out :=
  runSlot p s (fun cx => (cx.int a).bind (fun q => (cx.int b).bind (fun x => .val (s.capture cx { kind := f q x }))))

/-- CHC.BIND (R302). -/
def execChcBind (p : Pred) (a b : Opnd) (s : State) : Out := chcSlot p a b .bind s

/-- CHC.CRED (R302). -/
def execChcCred (p : Pred) (a b : Opnd) (s : State) : Out := chcSlot p a b .cred s

/-- CHC.SPST (R302). -/
def execChcSpst (p : Pred) (a b : Opnd) (s : State) : Out := chcSlot p a b .spst s

end Sys2Proof.Machine
end

