-- ==== Sys2Proof/Machine/System.lean ====
section
/-! DEFINITION. The privileged forms: CTX (R230), OTC (R364), TBLW (R367) and HALTC (R354). All are commit-point: their slots capture
their operands, and PRIV is checked when the block is mapped (R60, R87). -/

namespace Sys2Proof.Machine

open Sys2Proof

/-- A slot that captures a pointer and an INT, with ordering fields. -/
def ptrIntSlot (p : Pred) (mx : MX) (a b : Opnd) (f : BitVec 64 → CKind) (s : State) : Out :=
  runSlot p s (fun cx => (cx.ptr a).bind (fun q => (cx.int b).bind (fun x =>
    .val (s.capture cx { kind := f x, mx := some mx, ptr := q }))))

/-- CTX.CSAVE (R231). -/
def execCtxCsave (p : Pred) (mx : MX) (a b : Opnd) (s : State) : Out := ptrIntSlot p mx a b .csave s

/-- CTX.CREST (R232). -/
def execCtxCrest (p : Pred) (mx : MX) (a b : Opnd) (s : State) : Out := ptrIntSlot p mx a b .crest s

/-- OTC.INVO (R365). -/
def execOtcInvo (p : Pred) (a : Opnd) (s : State) : Out :=
  runSlot p s (fun cx => (cx.int a).bind (fun x => .val (s.capture cx { kind := .invo x })))

/-- OTC.INVA (R365). -/
def execOtcInva (p : Pred) (a : Opnd) (s : State) : Out :=
  runSlot p s (fun cx => (cx.int a).bind (fun _ => .val (s.capture cx { kind := .inva })))

/-- OTC.PIN (R366). -/
def execOtcPin (p : Pred) (a b : Opnd) (s : State) : Out :=
  runSlot p s (fun cx => (cx.int a).bind (fun x => (cx.int b).bind (fun y => .val (s.capture cx { kind := .pin x y }))))

/-- TBLW.ROUTE (R370). -/
def execTblwRoute (p : Pred) (mx : MX) (a b : Opnd) (s : State) : Out := ptrIntSlot p mx a b (.tblw .route) s

/-- TBLW.NAME (R377). -/
def execTblwName (p : Pred) (mx : MX) (a b : Opnd) (s : State) : Out := ptrIntSlot p mx a b (.tblw .name) s

/-- TBLW.HEAT (R379). -/
def execTblwHeat (p : Pred) (mx : MX) (a b : Opnd) (s : State) : Out := ptrIntSlot p mx a b (.tblw .heat) s

/-- TBLW.ADMC (R380). -/
def execTblwAdmc (p : Pred) (mx : MX) (a b : Opnd) (s : State) : Out := ptrIntSlot p mx a b (.tblw .admc) s

/-- HALTC (R354). -/
def execHaltc (p : Pred) (a : Opnd) (s : State) : Out :=
  runSlot p s (fun cx => (cx.int a).bind (fun x => .val (s.capture cx { kind := .haltc x })))

end Sys2Proof.Machine
end

