-- ==== Sys2Proof/Machine/Dispatch.lean ====
section
/-! DEFINITION. One arm per constructor of Instr: a direct call of the instruction's or event's meaning. -/

namespace Sys2Proof.Machine

open Sys2Proof

def exec (i : Instr) (s : State) : Host.Outcome State Fault Refusal :=
  match i with
  | .add p d a b => Sys2Proof.Machine.execAdd p d a b s
  | .addw p d a b => Sys2Proof.Machine.execAddw p d a b s
  | .adds p d a b => Sys2Proof.Machine.execAdds p d a b s
  | .addu p d a b => Sys2Proof.Machine.execAddu p d a b s
  | .sub p d a b => Sys2Proof.Machine.execSub p d a b s
  | .subw p d a b => Sys2Proof.Machine.execSubw p d a b s
  | .subs p d a b => Sys2Proof.Machine.execSubs p d a b s
  | .subu p d a b => Sys2Proof.Machine.execSubu p d a b s
  | .mul p d a b => Sys2Proof.Machine.execMul p d a b s
  | .mulw p d a b => Sys2Proof.Machine.execMulw p d a b s
  | .mulhs p d a b => Sys2Proof.Machine.execMulhs p d a b s
  | .mulhu p d a b => Sys2Proof.Machine.execMulhu p d a b s
  | .divs p d a b => Sys2Proof.Machine.execDivs p d a b s
  | .divu p d a b => Sys2Proof.Machine.execDivu p d a b s
  | .rems p d a b => Sys2Proof.Machine.execRems p d a b s
  | .remu p d a b => Sys2Proof.Machine.execRemu p d a b s
  | .andI p d a b => Sys2Proof.Machine.execAndI p d a b s
  | .orI p d a b => Sys2Proof.Machine.execOrI p d a b s
  | .xorI p d a b => Sys2Proof.Machine.execXorI p d a b s
  | .andn p d a b => Sys2Proof.Machine.execAndn p d a b s
  | .orn p d a b => Sys2Proof.Machine.execOrn p d a b s
  | .xnor p d a b => Sys2Proof.Machine.execXnor p d a b s
  | .shl p d a b => Sys2Proof.Machine.execShl p d a b s
  | .shr p d a b => Sys2Proof.Machine.execShr p d a b s
  | .sra p d a b => Sys2Proof.Machine.execSra p d a b s
  | .ror p d a b => Sys2Proof.Machine.execRor p d a b s
  | .mins p d a b => Sys2Proof.Machine.execMins p d a b s
  | .minu p d a b => Sys2Proof.Machine.execMinu p d a b s
  | .maxs p d a b => Sys2Proof.Machine.execMaxs p d a b s
  | .maxu p d a b => Sys2Proof.Machine.execMaxu p d a b s
  | .clz p d a => Sys2Proof.Machine.execClz p d a s
  | .ctz p d a => Sys2Proof.Machine.execCtz p d a s
  | .popc p d a => Sys2Proof.Machine.execPopc p d a s
  | .brev p d a => Sys2Proof.Machine.execBrev p d a s
  | .bswap p d a => Sys2Proof.Machine.execBswap p d a s
  | .movi p d x => Sys2Proof.Machine.execMovi p d x s
  | .movx p d a x => Sys2Proof.Machine.execMovx p d a x s
  | .extu p d a b => Sys2Proof.Machine.execExtu p d a b s
  | .exts p d a b => Sys2Proof.Machine.execExts p d a b s
  | .ins p d a b pos len => Sys2Proof.Machine.execIns p d a b pos len s
  | .cmpEq p d a b => Sys2Proof.Machine.execCmpEq p d a b s
  | .cmpNe p d a b => Sys2Proof.Machine.execCmpNe p d a b s
  | .cmpLts p d a b => Sys2Proof.Machine.execCmpLts p d a b s
  | .cmpLes p d a b => Sys2Proof.Machine.execCmpLes p d a b s
  | .cmpLtu p d a b => Sys2Proof.Machine.execCmpLtu p d a b s
  | .cmpLeu p d a b => Sys2Proof.Machine.execCmpLeu p d a b s
  | .sel p d a b c => Sys2Proof.Machine.execSel p d a b c s
  | .pand p d a b => Sys2Proof.Machine.execPand p d a b s
  | .por p d a b => Sys2Proof.Machine.execPor p d a b s
  | .pxor p d a b => Sys2Proof.Machine.execPxor p d a b s
  | .pnot p d a => Sys2Proof.Machine.execPnot p d a s
  | .tstnz p d a => Sys2Proof.Machine.execTstnz p d a s
  | .mov p d a => Sys2Proof.Machine.execMov p d a s
  | .movgf p d a => Sys2Proof.Machine.execMovgf p d a s
  | .movfg p d a => Sys2Proof.Machine.execMovfg p d a s
  | .br p x => Sys2Proof.Machine.execBr p x s
  | .brx p a => Sys2Proof.Machine.execBrx p a s
  | .call p link x => Sys2Proof.Machine.execCall p link x s
  | .ret p a => Sys2Proof.Machine.execRet p a s
  | .endt p => Sys2Proof.Machine.execEndt p s
  | .yieldT p => Sys2Proof.Machine.execYieldT p s
  | .park p a => Sys2Proof.Machine.execPark p a s
  | .trap p n => Sys2Proof.Machine.execTrap p n s
  | .rds p d num => Sys2Proof.Machine.execRds p d num s
  | .wrs p num a => Sys2Proof.Machine.execWrs p num a s
  | .tret p => Sys2Proof.Machine.execTret p s
  | .tretAt p b => Sys2Proof.Machine.execTretAt p b s
  | .fadd p d fmt rnd a b => Sys2Proof.Machine.execFadd p d fmt rnd a b s
  | .fsub p d fmt rnd a b => Sys2Proof.Machine.execFsub p d fmt rnd a b s
  | .fmul p d fmt rnd a b => Sys2Proof.Machine.execFmul p d fmt rnd a b s
  | .ffma p d fmt rnd a b c => Sys2Proof.Machine.execFfma p d fmt rnd a b c s
  | .fdiv p d fmt rnd a b => Sys2Proof.Machine.execFdiv p d fmt rnd a b s
  | .fsqrt p d fmt rnd a => Sys2Proof.Machine.execFsqrt p d fmt rnd a s
  | .fmin p d fmt a b => Sys2Proof.Machine.execFmin p d fmt a b s
  | .fmax p d fmt a b => Sys2Proof.Machine.execFmax p d fmt a b s
  | .fminm p d fmt a b => Sys2Proof.Machine.execFminm p d fmt a b s
  | .fmaxm p d fmt a b => Sys2Proof.Machine.execFmaxm p d fmt a b s
  | .fcmpEq p d fmt a b => Sys2Proof.Machine.execFcmpEq p d fmt a b s
  | .fcmpLt p d fmt a b => Sys2Proof.Machine.execFcmpLt p d fmt a b s
  | .fcmpLe p d fmt a b => Sys2Proof.Machine.execFcmpLe p d fmt a b s
  | .fcmpUn p d fmt a b => Sys2Proof.Machine.execFcmpUn p d fmt a b s
  | .fcmpEqs p d fmt a b => Sys2Proof.Machine.execFcmpEqs p d fmt a b s
  | .fcvt p d dst src rnd a => Sys2Proof.Machine.execFcvt p d dst src rnd a s
  | .fcviFs p d fmt rnd a => Sys2Proof.Machine.execFcviFs p d fmt rnd a s
  | .fcviFu p d fmt rnd a => Sys2Proof.Machine.execFcviFu p d fmt rnd a s
  | .fcviSf p d fmt rnd a => Sys2Proof.Machine.execFcviSf p d fmt rnd a s
  | .fcviUf p d fmt rnd a => Sys2Proof.Machine.execFcviUf p d fmt rnd a s
  | .fabs p d fmt a => Sys2Proof.Machine.execFabs p d fmt a s
  | .fneg p d fmt a => Sys2Proof.Machine.execFneg p d fmt a s
  | .fcps p d fmt a b => Sys2Proof.Machine.execFcps p d fmt a b s
  | .fsigr p d fmt a => Sys2Proof.Machine.execFsigr p d fmt a s
  | .fsigw p d fmt a b => Sys2Proof.Machine.execFsigw p d fmt a b s
  | .fsiglt p d fmt a b => Sys2Proof.Machine.execFsiglt p d fmt a b s
  | .frcp p d fmt a => Sys2Proof.Machine.execFrcp p d fmt a s
  | .frsq p d fmt a => Sys2Proof.Machine.execFrsq p d fmt a s
  | .fex2 p d fmt a => Sys2Proof.Machine.execFex2 p d fmt a s
  | .flg2 p d fmt a => Sys2Proof.Machine.execFlg2 p d fmt a s
  | .fcls p d fmt a => Sys2Proof.Machine.execFcls p d fmt a s
  | .vadd p d t a b => Sys2Proof.Machine.execVadd p d t a b s
  | .vsub p d t a b => Sys2Proof.Machine.execVsub p d t a b s
  | .vmul p d t a b => Sys2Proof.Machine.execVmul p d t a b s
  | .vfma p d t a b c => Sys2Proof.Machine.execVfma p d t a b c s
  | .vscl p d t a b => Sys2Proof.Machine.execVscl p d t a b s
  | .vmnx p d k a b => Sys2Proof.Machine.execVmnx p d k a b s
  | .vcmp p d k a b => Sys2Proof.Machine.execVcmp p d k a b s
  | .vselSet p d a b => Sys2Proof.Machine.execVselSet p d a b s
  | .vselClr p d a b => Sys2Proof.Machine.execVselClr p d a b s
  | .vredSum p d a => Sys2Proof.Machine.execVredSum p d a s
  | .vredMax p d a => Sys2Proof.Machine.execVredMax p d a s
  | .vredMin p d a => Sys2Proof.Machine.execVredMin p d a s
  | .vredAmax p d a => Sys2Proof.Machine.execVredAmax p d a s
  | .vbc p d t a => Sys2Proof.Machine.execVbc p d t a s
  | .vperm p d a b => Sys2Proof.Machine.execVperm p d a b s
  | .vext p d t a b => Sys2Proof.Machine.execVext p d t a b s
  | .vins p d t lane a b => Sys2Proof.Machine.execVins p d t lane a b s
  | .vidx p d => Sys2Proof.Machine.execVidx p d s
  | .vshr p d a b => Sys2Proof.Machine.execVshr p d a b s
  | .vand p d a b => Sys2Proof.Machine.execVand p d a b s
  | .vor p d a b => Sys2Proof.Machine.execVor p d a b s
  | .vxor p d a b => Sys2Proof.Machine.execVxor p d a b s
  | .vshl p d a b => Sys2Proof.Machine.execVshl p d a b s
  | .vshrl p d a b => Sys2Proof.Machine.execVshrl p d a b s
  | .vsra p d a b => Sys2Proof.Machine.execVsra p d a b s
  | .vactRelu p d a => Sys2Proof.Machine.execVactRelu p d a s
  | .vactGelt p d a => Sys2Proof.Machine.execVactGelt p d a s
  | .vactSilu p d a => Sys2Proof.Machine.execVactSilu p d a s
  | .vactExp p d a => Sys2Proof.Machine.execVactExp p d a s
  | .vactTanh p d a => Sys2Proof.Machine.execVactTanh p d a s
  | .vactSigm p d a => Sys2Proof.Machine.execVactSigm p d a s
  | .vactRcp p d a => Sys2Proof.Machine.execVactRcp p d a s
  | .vactRsq p d a => Sys2Proof.Machine.execVactRsq p d a s
  | .vcvtBf16F32 p d a => Sys2Proof.Machine.execVcvtBf16F32 p d a s
  | .vcvtF32Bf16 p d a => Sys2Proof.Machine.execVcvtF32Bf16 p d a s
  | .vcvtF16F32 p d a => Sys2Proof.Machine.execVcvtF16F32 p d a s
  | .vcvtF32F16 p d a => Sys2Proof.Machine.execVcvtF32F16 p d a s
  | .vcvtI32F32 p d a => Sys2Proof.Machine.execVcvtI32F32 p d a s
  | .vcvtF32I32 p d a => Sys2Proof.Machine.execVcvtF32I32 p d a s
  | .vcvtE5m2F32 p d a => Sys2Proof.Machine.execVcvtE5m2F32 p d a s
  | .vcvtF32E5m2 p d a => Sys2Proof.Machine.execVcvtF32E5m2 p d a s
  | .vcvtF32E4m3 p d a => Sys2Proof.Machine.execVcvtF32E4m3 p d a s
  | .vqntE4m3Sat p d a b => Sys2Proof.Machine.execVqntE4m3Sat p d a b s
  | .vqntE4m3Nan p d a b => Sys2Proof.Machine.execVqntE4m3Nan p d a b s
  | .vqntInt8 p d a b => Sys2Proof.Machine.execVqntInt8 p d a b s
  | .vqntInt4 p d a b => Sys2Proof.Machine.execVqntInt4 p d a b s
  | .vqntMxfp4 p d a b => Sys2Proof.Machine.execVqntMxfp4 p d a b s
  | .vqntMxint8 p d a b => Sys2Proof.Machine.execVqntMxint8 p d a b s
  | .vqntMxfp8 p d a b => Sys2Proof.Machine.execVqntMxfp8 p d a b s
  | .vdqE4m3Sat p d a b => Sys2Proof.Machine.execVdqE4m3Sat p d a b s
  | .vdqE4m3Nan p d a b => Sys2Proof.Machine.execVdqE4m3Nan p d a b s
  | .vdqInt8 p d a b => Sys2Proof.Machine.execVdqInt8 p d a b s
  | .vdqInt4 p d a b => Sys2Proof.Machine.execVdqInt4 p d a b s
  | .vdqMxfp4 p d hi a => Sys2Proof.Machine.execVdqMxfp4 p d hi a s
  | .vdqMxint8 p d hi a => Sys2Proof.Machine.execVdqMxint8 p d hi a s
  | .vdqMxfp8 p d hi a => Sys2Proof.Machine.execVdqMxfp8 p d hi a s
  | .vsigRd p d a => Sys2Proof.Machine.execVsigRd p d a s
  | .vsigMin p d a b => Sys2Proof.Machine.execVsigMin p d a b s
  | .vsigLt p d a b => Sys2Proof.Machine.execVsigLt p d a b s
  | .ld p d mx sz sgn a b => Sys2Proof.Machine.execLd p d mx sz sgn a b s
  | .ldWaitf p d mx sz sgn a b => Sys2Proof.Machine.execLdWaitf p d mx sz sgn a b s
  | .ldTake p d mx sz sgn a b => Sys2Proof.Machine.execLdTake p d mx sz sgn a b s
  | .ldPres p d mx sz a b => Sys2Proof.Machine.execLdPres p d mx sz a b s
  | .st p mx sz a b c => Sys2Proof.Machine.execSt p mx sz a b c s
  | .stFill p mx sz a b c => Sys2Proof.Machine.execStFill p mx sz a b c s
  | .stSetf p mx sz a b c => Sys2Proof.Machine.execStSetf p mx sz a b c s
  | .stClre p mx sz a b c => Sys2Proof.Machine.execStClre p mx sz a b c s
  | .flsLd p d mx fmt tagged a b => Sys2Proof.Machine.execFlsLd p d mx fmt tagged a b s
  | .flsLdWaitf p d mx fmt tagged a b => Sys2Proof.Machine.execFlsLdWaitf p d mx fmt tagged a b s
  | .flsSt p mx fmt tagged a b c => Sys2Proof.Machine.execFlsSt p mx fmt tagged a b c s
  | .flsStFill p mx fmt tagged a b c => Sys2Proof.Machine.execFlsStFill p mx fmt tagged a b c s
  | .vlsLd p d mx tagged a b => Sys2Proof.Machine.execVlsLd p d mx tagged a b s
  | .vlsLdWaitf p d mx tagged a b => Sys2Proof.Machine.execVlsLdWaitf p d mx tagged a b s
  | .vlsLdTake p d mx tagged a b => Sys2Proof.Machine.execVlsLdTake p d mx tagged a b s
  | .vlsSt p mx tagged a b c => Sys2Proof.Machine.execVlsSt p mx tagged a b c s
  | .vlsStFill p mx tagged a b c => Sys2Proof.Machine.execVlsStFill p mx tagged a b c s
  | .vlsStSetf p mx tagged a b c => Sys2Proof.Machine.execVlsStSetf p mx tagged a b c s
  | .vlsStClre p mx tagged a b c => Sys2Proof.Machine.execVlsStClre p mx tagged a b c s
  | .amoAdd p d mx wide a b => Sys2Proof.Machine.execAmoAdd p d mx wide a b s
  | .amoAnd p d mx wide a b => Sys2Proof.Machine.execAmoAnd p d mx wide a b s
  | .amoOr p d mx wide a b => Sys2Proof.Machine.execAmoOr p d mx wide a b s
  | .amoXor p d mx wide a b => Sys2Proof.Machine.execAmoXor p d mx wide a b s
  | .amoMins p d mx wide a b => Sys2Proof.Machine.execAmoMins p d mx wide a b s
  | .amoMaxs p d mx wide a b => Sys2Proof.Machine.execAmoMaxs p d mx wide a b s
  | .amoMinu p d mx wide a b => Sys2Proof.Machine.execAmoMinu p d mx wide a b s
  | .amoMaxu p d mx wide a b => Sys2Proof.Machine.execAmoMaxu p d mx wide a b s
  | .amoXchg p d mx wide a b => Sys2Proof.Machine.execAmoXchg p d mx wide a b s
  | .amoFadd32 p d mx a b => Sys2Proof.Machine.execAmoFadd32 p d mx a b s
  | .amoFmax32 p d mx a b => Sys2Proof.Machine.execAmoFmax32 p d mx a b s
  | .amoFmin32 p d mx a b => Sys2Proof.Machine.execAmoFmin32 p d mx a b s
  | .cas32 p d mx a b => Sys2Proof.Machine.execCas32 p d mx a b s
  | .cas64 p d mx a pair => Sys2Proof.Machine.execCas64 p d mx a pair s
  | .ptr p d a b => Sys2Proof.Machine.execPtr p d a b s
  | .padd p d a b => Sys2Proof.Machine.execPadd p d a b s
  | .cder p d a b => Sys2Proof.Machine.execCder p d a b s
  | .cget p d w a => Sys2Proof.Machine.execCget p d w a s
  | .cld p d mx a b => Sys2Proof.Machine.execCld p d mx a b s
  | .cst p mx a b c => Sys2Proof.Machine.execCst p mx a b c s
  | .prbR p d a b => Sys2Proof.Machine.execPrbR p d a b s
  | .prbW p d a b => Sys2Proof.Machine.execPrbW p d a b s
  | .xcpy p mx a b c => Sys2Proof.Machine.execXcpy p mx a b c s
  | .xchn p mx a c => Sys2Proof.Machine.execXchn p mx a c s
  | .xred p mx a b c => Sys2Proof.Machine.execXred p mx a b c s
  | .xcolAllredSum p mx a c => Sys2Proof.Machine.execXcolAllredSum p mx a c s
  | .xcolAllredMax p mx a c => Sys2Proof.Machine.execXcolAllredMax p mx a c s
  | .xcolAllgath p mx a c => Sys2Proof.Machine.execXcolAllgath p mx a c s
  | .xcolRedscatSum p mx a c => Sys2Proof.Machine.execXcolRedscatSum p mx a c s
  | .xcolBcast p mx a c => Sys2Proof.Machine.execXcolBcast p mx a c s
  | .xregReg p mx a b => Sys2Proof.Machine.execXregReg p mx a b s
  | .xregRel p mx a => Sys2Proof.Machine.execXregRel p mx a s
  | .cfgConf p d mx a b => Sys2Proof.Machine.execCfgConf p d mx a b s
  | .cfgFrel p mx a => Sys2Proof.Machine.execCfgFrel p mx a s
  | .cfgFqry p d a => Sys2Proof.Machine.execCfgFqry p d a s
  | .feed p mx fin swap eos a b => Sys2Proof.Machine.execFeed p mx fin swap eos a b s
  | .wld p mx a b => Sys2Proof.Machine.execWld p mx a b s
  | .drnPop p d a => Sys2Proof.Machine.execDrnPop p d a s
  | .drnLast p d a => Sys2Proof.Machine.execDrnLast p d a s
  | .drnPeek p d a => Sys2Proof.Machine.execDrnPeek p d a s
  | .accAclr p a => Sys2Proof.Machine.execAccAclr p a s
  | .accAsta p d a => Sys2Proof.Machine.execAccAsta p d a s
  | .admAset p a b => Sys2Proof.Machine.execAdmAset p a b s
  | .admArd p d a => Sys2Proof.Machine.execAdmArd p d a s
  | .chsInt p a b => Sys2Proof.Machine.execChsInt p a b s
  | .chsFp p a b => Sys2Proof.Machine.execChsFp p a b s
  | .chsVec p a b => Sys2Proof.Machine.execChsVec p a b s
  | .chsEos p a => Sys2Proof.Machine.execChsEos p a s
  | .chsMark p a b => Sys2Proof.Machine.execChsMark p a b s
  | .chrInt p d a => Sys2Proof.Machine.execChrInt p d a s
  | .chrFp p d a => Sys2Proof.Machine.execChrFp p d a s
  | .chrVec p d a => Sys2Proof.Machine.execChrVec p d a s
  | .chrEnd p d a => Sys2Proof.Machine.execChrEnd p d a s
  | .chrStat p d a => Sys2Proof.Machine.execChrStat p d a s
  | .chrLat p d a => Sys2Proof.Machine.execChrLat p d a s
  | .chcBind p a b => Sys2Proof.Machine.execChcBind p a b s
  | .chcCred p a b => Sys2Proof.Machine.execChcCred p a b s
  | .chcSpst p a b => Sys2Proof.Machine.execChcSpst p a b s
  | .semSsig p a b => Sys2Proof.Machine.execSemSsig p a b s
  | .semSsigr p a b => Sys2Proof.Machine.execSemSsigr p a b s
  | .semSwait p d a b => Sys2Proof.Machine.execSemSwait p d a b s
  | .semSwaitd p d a b => Sys2Proof.Machine.execSemSwaitd p d a b s
  | .semSset p a b => Sys2Proof.Machine.execSemSset p a b s
  | .semSrd p d a => Sys2Proof.Machine.execSemSrd p d a s
  | .bara p d a => Sys2Proof.Machine.execBara p d a s
  | .barw p d a b => Sys2Proof.Machine.execBarw p d a b s
  | .taskSpawn p d a b => Sys2Proof.Machine.execTaskSpawn p d a b s
  | .taskWake p a b => Sys2Proof.Machine.execTaskWake p a b s
  | .taskSpri p a b => Sys2Proof.Machine.execTaskSpri p a b s
  | .taskTstat p d a => Sys2Proof.Machine.execTaskTstat p d a s
  | .ctxCsave p mx a b => Sys2Proof.Machine.execCtxCsave p mx a b s
  | .ctxCrest p mx a b => Sys2Proof.Machine.execCtxCrest p mx a b s
  | .otcInvo p a => Sys2Proof.Machine.execOtcInvo p a s
  | .otcInva p a => Sys2Proof.Machine.execOtcInva p a s
  | .otcPin p a b => Sys2Proof.Machine.execOtcPin p a b s
  | .tblwRoute p mx a b => Sys2Proof.Machine.execTblwRoute p mx a b s
  | .tblwName p mx a b => Sys2Proof.Machine.execTblwName p mx a b s
  | .tblwHeat p mx a b => Sys2Proof.Machine.execTblwHeat p mx a b s
  | .tblwAdmc p mx a b => Sys2Proof.Machine.execTblwAdmc p mx a b s
  | .haltc p a => Sys2Proof.Machine.execHaltc p a s
  | .powerOn t => Sys2Proof.Machine.execPowerOn t s
  | .waferTimeBroadcast die time => Sys2Proof.Machine.execWaferTimeBroadcast die time s
  | .wstale die => Sys2Proof.Machine.execWstale die s
  | .taskSelect plot half => Sys2Proof.Machine.execTaskSelect plot half s
  | .blockMap plot half => Sys2Proof.Machine.execBlockMap plot half s
  | .blockCommit plot half => Sys2Proof.Machine.execBlockCommit plot half s
  | .gatePark plot half => Sys2Proof.Machine.execGatePark plot half s
  | .wdog plot half => Sys2Proof.Machine.execWdog plot half s
  | .commitOpPerform plot task serial pick => Sys2Proof.Machine.execCommitOpPerform plot task serial pick s
  | .scTokenArrive die => Sys2Proof.Machine.execScTokenArrive die s
  | .engineStart cmd => Sys2Proof.Machine.execEngineStart cmd s
  | .copyChunk cmd => Sys2Proof.Machine.execCopyChunk cmd s
  | .xchnRecord cmd => Sys2Proof.Machine.execXchnRecord cmd s
  | .xredRow cmd => Sys2Proof.Machine.execXredRow cmd s
  | .collectiveChunk cmd => Sys2Proof.Machine.execCollectiveChunk cmd s
  | .flitReceive port flit => Sys2Proof.Machine.execFlitReceive port flit s
  | .portLinkDown port => Sys2Proof.Machine.execPortLinkDown port s
  | .passRelease handle => Sys2Proof.Machine.execPassRelease handle s
  | .feederRowRelease plot row => Sys2Proof.Machine.execFeederRowRelease plot row s
  | .cellFire plot row col => Sys2Proof.Machine.execCellFire plot row col s
  | .loaderWordWrite plot pick => Sys2Proof.Machine.execLoaderWordWrite plot pick s
  | .accRowWrite plot col => Sys2Proof.Machine.execAccRowWrite plot col s
  | .drainWriterRow plot tile => Sys2Proof.Machine.execDrainWriterRow plot tile s
  | .accParityError plot where_ => Sys2Proof.Machine.execAccParityError plot where_ s
  | .admWindow die => Sys2Proof.Machine.execAdmWindow die s
  | .rillItemSend plot entry => Sys2Proof.Machine.execRillItemSend plot entry s
  | .rillItemArrive plot entry jin => Sys2Proof.Machine.execRillItemArrive plot entry jin s
  | .converterTake plot entry jin => Sys2Proof.Machine.execConverterTake plot entry jin s
  | .creditArrive plot entry => Sys2Proof.Machine.execCreditArrive plot entry s
  | .joinMerge plot entry => Sys2Proof.Machine.execJoinMerge plot entry s
  | .deadlockDetect wafer die cluster ports cores => Sys2Proof.Machine.execDeadlockDetect wafer die cluster ports cores s
  | .rillQuiesceTimeout launch => Sys2Proof.Machine.execRillQuiesceTimeout launch s
  | .lqtailDoorbell port q value => Sys2Proof.Machine.execLqtailDoorbell port q value s
  | .launchTake q => Sys2Proof.Machine.execLaunchTake q s
  | .launchPlace q => Sys2Proof.Machine.execLaunchPlace q s
  | .launchComplete launch => Sys2Proof.Machine.execLaunchComplete launch s
  | .completionPost q => Sys2Proof.Machine.execCompletionPost q s
  | .hostPreempt port cq launch => Sys2Proof.Machine.execHostPreempt port cq launch s
  | .hostRestore port cq launch => Sys2Proof.Machine.execHostRestore port cq launch s
  | .hostMigrate port cq launch => Sys2Proof.Machine.execHostMigrate port cq launch s
  | .hostKill port cq launch => Sys2Proof.Machine.execHostKill port cq launch s
  | .hostCmdUnknown port cmd cq launch => Sys2Proof.Machine.execHostCmdUnknown port cmd cq launch s
  | .oclaim claims => Sys2Proof.Machine.execOclaim claims s
  | .hgo port hport => Sys2Proof.Machine.execHgo port hport s
  | .ownerLinkLost => Sys2Proof.Machine.execOwnerLinkLost s
  | .featdrvWrite port value => Sys2Proof.Machine.execFeatdrvWrite port value s
  | .psreqP0 port => Sys2Proof.Machine.execPsreqP0 port s
  | .psreqP1 port => Sys2Proof.Machine.execPsreqP1 port s
  | .psreqP2 port => Sys2Proof.Machine.execPsreqP2 port s
  | .psreqP3 port => Sys2Proof.Machine.execPsreqP3 port s
  | .psreqP4 port => Sys2Proof.Machine.execPsreqP4 port s
  | .pageansResident port obj pg => Sys2Proof.Machine.execPageansResident port obj pg s
  | .pageansDecline port obj pg => Sys2Proof.Machine.execPageansDecline port obj pg s
  | .thermalTrip temp => Sys2Proof.Machine.execThermalTrip temp s
  | .tripClear port hottest => Sys2Proof.Machine.execTripClear port hottest s
  | .securityAlarm => Sys2Proof.Machine.execSecurityAlarm s
  | .secaClear port => Sys2Proof.Machine.execSecaClear port s
  | .attestNonceWrite port value => Sys2Proof.Machine.execAttestNonceWrite port value s
  | .attestComplete port => Sys2Proof.Machine.execAttestComplete port s
  | .heatSample temps => Sys2Proof.Machine.execHeatSample temps s
  | .stewardRebind plot => Sys2Proof.Machine.execStewardRebind plot s
  | .hostMemoryWrite port off bytes => Sys2Proof.Machine.execHostMemoryWrite port off bytes s
  | .hostMemoryRead port off len => Sys2Proof.Machine.execHostMemoryRead port off len s
  | .mgmtTelemetryRead item => Sys2Proof.Machine.execMgmtTelemetryRead item s
  | .coreWindowWrite plot off value => Sys2Proof.Machine.execCoreWindowWrite plot off value s
  | .fieldWindowWrite plot off value => Sys2Proof.Machine.execFieldWindowWrite plot off value s
  | .tileStateWrite plot tile value => Sys2Proof.Machine.execTileStateWrite plot tile value s
  | .otrootWrite die value => Sys2Proof.Machine.execOtrootWrite die value s
  | .aqueductRouteWrite m value => Sys2Proof.Machine.execAqueductRouteWrite m value s
  | .registerWrite reg value => Sys2Proof.Machine.execRegisterWrite reg value s
  | .hostLinkDown port => Sys2Proof.Machine.execHostLinkDown port s
  | .hostLinkUp port => Sys2Proof.Machine.execHostLinkUp port s
  | .portLinkUp port => Sys2Proof.Machine.execPortLinkUp port s
  | .plotFailure plot => Sys2Proof.Machine.execPlotFailure plot s

end Sys2Proof.Machine
end

