-- ==== Sys2Proof/Machine/Env.lean ====
section
/-! DEFINITION. What happens between the table's steps: the clocks advance, and the outside or an arbitrary choice of the hardware acts
(R22, R23, R168, R197, R362, R373). -/

namespace Sys2Proof.Machine

open Sys2Proof

/-! ## Clocks (R22, R23) -/

/-- Seventeenths of a nanosecond in a clock period of a power state: 850 MHz, 425 MHz, and the 10 ns steps of P3. -/
def period (ps : BitVec 3) : Nat :=
  match ps.toNat with
  | 0 => 20
  | 1 => 40
  | 2 => 20
  | 3 => 170
  | _ => 0

/-- Wafer time after some seventeenths of a nanosecond: half as much as long as the copy is ahead of the broadcast. -/
def Die.passTime (d : Die) (x : Nat) : Die :=
  let slow := min (x / 2) d.behind
  let n := d.wfrac + (if slow < d.behind then slow else x - slow)
  { d with wtime := d.wtime + BitVec.ofNat 64 (n / 17), wfrac := n % 17, behind := d.behind - slow, sinceB := d.sinceB + x }

/-- A die's clock advanced by n periods; in P3 SY.CYC holds. -/
def Die.passCycles (d : Die) (ps : BitVec 3) (n : Nat) : Die :=
  let d1 := d.passTime (n * period ps)
  if ps.toNat ≤ 2 then { d1 with cyc := d1.cyc + BitVec.ofNat 64 n } else d1

/-! ## Performance counters that count cycles (R397) -/

/-- Whether a window half stalls at a gate. -/
def Half.atGate (h : Half) : Bool := h.blk.any (fun b => b.slots.any (fun r => r.st == .waiting && r.gate.isSome))

/-- Whether a window half stalls for a stream or the handle list. -/
def Plot.noRoom (x : Plot) (h : Half) : Bool :=
  match h.task, h.blk with
  | some k, some b => b.slots.all (fun r => r.st != .waiting) && !(x.task k).roomFor b
  | _, _ => false

/-- A counter of a plot advanced. -/
def Plot.addCount (x : Plot) (i n : Nat) : Plot := if n = 0 then x else { x with perf := x.perf.put i (x.perf.get i 0 + BitVec.ofNat 64 n) }

/-- Cycles in which both halves are empty count by themselves; others are taken from counter 31, which is kept less SY.CYC. -/
def Plot.busyCycles (x : Plot) (n : Nat) : Plot :=
  if x.h0.task.isNone && x.h1.task.isNone then x else { x with perf := x.perf.put 31 (x.perf.get 31 0 - BitVec.ofNat 64 n) }

/-- The counters 5, 7, 26, 27 and 31 of a plot after n cycles, in which its units were held for tokens of ports 0 and 1 or not. -/
def Plot.countCycles (x : Plot) (n : Nat) (held0 held1 : Bool) : Plot :=
  let b2n := fun (b : Bool) => if b then n else 0
  ((((x.addCount 5 (b2n (x.h0.atGate || x.h1.atGate))).addCount 7 (b2n (x.noRoom x.h0 || x.noRoom x.h1))).addCount 26
    (b2n held0)).addCount 27 (b2n held1)).busyCycles n

/-! ## The clock directive (log 4) -/

/-- Whether an admission window ends strictly between two cycle counts. -/
def passesWindow (old new : Nat) : Bool := decide (old / 1024 < (new - 1) / 1024)

/-- A die advanced: its counters and clocks, and the admission windows that pass without an ADM_WINDOW (R258). -/
def State.clockDie (s : State) (die n : Nat) : State :=
  let d := s.die die
  let ps := s.mod.pscur
  if ps.toNat ≤ 2 then
    let s0 := if d.cyc.extractLsb' 0 10 = 0 ∧ d.admMark ≠ d.cyc ∧ n ≠ 0 then s.admRefill die else s
    let s1 := { s0 with plots := s0.plots.map (fun (x : Nat × Plot) => if dieOf x.1 = die then (x.1, x.2.countCycles n (s0.tokenHeld0 x.1) (s0.tokenHeld1 x.1)) else x) }
    let s2 := s1.setDie die ((s1.die die).passCycles ps n)
    if passesWindow d.cyc.toNat (d.cyc.toNat + n) then s2.admRefill die else s2
  else s.setDie die (d.passCycles ps n)

/-- SIGLOST is set by the SIG trap, once that is the cause taken (R49, R69). -/
def Task.sigLost (t : Task) (c : CauseRec) : Task := if c.cause == .sig then { t with sigctl := t.sigctl ||| 0x80 } else t

/-- The blocks of a plot in which a cause was found in the cycle that ends are aborted by it (R69, R70). -/
def State.takeAborts (s : State) (p : Nat) : State :=
  [false, true].foldl (fun s h =>
    match ((s.plot p).half h).task, ((s.plot p).half h).blk with
    | some k, some b => (match b.abort with
      | some c => (s.onTask p k (fun t => t.sigLost c)).takeException p k c b.bpc
      | none => s)
    | _, _ => s) s

/-- A pending asynchronous cause of a task acts at the end of a cycle (R219): its mapped block is aborted as for pre-emption, unless it can commit or
fails its commit checks (R70), and a task that has parked meanwhile becomes READY. -/
def State.asyncAbort (s : State) (p k : Nat) : State :=
  let t := s.task p k
  if t.asyncCause.isNone || t.leaving != .no then s
  else if t.st == .wait then s.ready p k
  else match (s.plot p).halfOf k with
  | some h => if t.st == .running && !s.commitDue p h then ((s.dropBlock p k).withdraw p k).ready p k else s
  | none => s

/-- The cycle of a plot ends: causes found in it take their effect (R69, R219), and a task that could not leave for a migrating extent tries again
(R171). -/
def State.endCycle (s : State) (p : Nat) : State :=
  slotIdx.foldl (fun s k => if (s.task p k).leaving == .no then s.asyncAbort p k else s.settle p k) (s.takeAborts p)

/-- The cycles of the plots of a die end; 84 stands for every die. -/
def State.endCycles (s : State) (die : Nat) : State :=
  ((s.plots.map (·.1)).filter (fun p => die == 84 || dieOf p == die)).foldl State.endCycle s

/-- While an alarm halts the cores, a block that it has left to its own end, and that does not come to it, is aborted too (R408, R411). -/
def State.haltRest (s : State) : State := if s.mod.trip || s.mod.seca then s.halt else s

/-- Time passes on one die, or on all (84); the host command in progress goes on, and tasks whose page is resident are restored. A module
that is off, or has not booted, has no clock. -/
def State.clock (s0 : State) (die n : Nat) : State :=
  if s0.mod.pscur == 4 || !(s0.mod.boot == 2 || s0.mod.boot == 4) then s0
  else
    let s := (s0.endCycles die).haltRest.powerStep
    let s1 := if die = 84 then (List.range 84).foldl (fun s d => s.clockDie d n) s else if die < 84 then s.clockDie die n else s
    let s2 := s1.ownerLoss
    if s2.sluiceOn then s2.hostProgress.restoreResident else s2

/-! ## The hardware's own choices -/

/-- A near-cache granule half dropped (R158, log 8). -/
def State.nearDrop (s : State) (p g : Nat) : State := s.onPlot p (fun x => { x with near := x.near.filter (fun e => e.1 != g) })

/-- A core's block cache takes the block at an address of its launch's code (R58, log 69). -/
def State.codeFill (s : State) (p : Nat) (bpc : BitVec 40) : State :=
  match (s.plot p).owner with
  | none => s
  | some (id, _) =>
    let t : Task := { launch := id, priv := true, bpc := bpc }
    if ((s.plot p).cached t).isSome || s.codeLost p t || bpc.toNat % 8 != 0 then s
    else match s.codeAt p t with
    | .ok ws => s.onPlot p (fun x => x.cache ⟨id, bpc, ws⟩)
    | .error _ => s

/-- A core's block cache drops a block (R58, log 69). -/
def State.codeDrop (s : State) (p : Nat) (bpc : BitVec 40) : State := s.onPlot p (fun x => { x with code := x.code.filter (fun c => c.bpc != bpc) })

/-- A cistern takes an extent into its cache (R362, R363): a valid one that no lower-numbered one overlaps, while there is room. -/
def State.otcFill (s : State) (die : Nat) (obj : BitVec 24) (ext : Nat) : State :=
  match s.lookupWith (s.die die).nodes obj with
  | .found d0 d1 desc =>
    let x0 := s.rdW (s.extAddr desc d1 ext)
    let lower := (List.range ext).any (fun i =>
      let y0 := s.rdW (s.extAddr desc d1 i)
      y0.getLsbD 63 && overlaps (extOff y0) (extLen y0) (extOff x0) (extLen x0))
    let d := s.die die
    if 83 < die || !s.clocked || !d1.getLsbD 0 || d1.extractLsb' 2 2 == 3 || decide ((d1.extractLsb' 16 16).toNat ≤ ext) || !x0.getLsbD 63 ||
        lower || decide (512 ≤ d.otc.length) || d.otc.any (fun e => e.obj == obj && e.ext == ext) then s
    else s.setDie die { d with otc := d.otc ++ [⟨obj, ext, d0, d1, x0, s.rdW (s.extAddr desc d1 ext + 8), false, []⟩] }
  | _ => s

/-- A cistern caches the entry of a table node on the walk to an object (R363). -/
def State.nodeFill (s : State) (die : Nat) (obj : BitVec 24) (level : Nat) : State :=
  if 83 < die || !s.clocked || level < 1 || 3 < level then s
  else match s.nodeWord (s.die die).nodes obj.toNat s.mod.otroot.toNat level 3 with
  | some w => s.setDie die { s.die die with nodes := (s.die die).nodes.put (nodeKey obj.toNat level) w }
  | none => s

/-- A cistern drops a cached node entry (R363). -/
def State.nodeDrop (s : State) (die : Nat) (obj : BitVec 24) (level : Nat) : State :=
  if 83 < die then s else s.setDie die { s.die die with nodes := (s.die die).nodes.drop (nodeKey obj.toNat level) }

/-- A cistern replaces the unlocked entries of an object (R363). -/
def State.otcDrop (s : State) (die : Nat) (obj : BitVec 24) : State :=
  if 83 < die then s else s.setDie die { s.die die with otc := (s.die die).otc.filter (fun e => e.obj != obj || e.locked) }

/-- A skip beat falls on a die-boundary crossing of a plot, which drops it (R21): the plot's counter 28 counts it (R397). -/
def State.skipBeat (s : State) (p : Nat) : State :=
  if s.enabled p && s.clocked && [1, 2, 3, 4].any (fun o => (hop p o).any (fun q => dieOf q != dieOf p)) then s.bump p 28 1 else s

/-- The effect of a directive that is neither a slot nor an event. -/
def State.env (s : State) (d : Directive) : State :=
  match d with
  | .slot .. => s
  | .event _ => s
  | .clock die n => s.clock die n
  | .memError a hard => s.storedError a hard
  | .nearDrop p g => s.nearDrop p g
  | .codeFill p bpc => s.codeFill p bpc
  | .codeDrop p bpc => s.codeDrop p bpc
  | .nodeFill die obj l => s.nodeFill die obj l
  | .nodeDrop die obj l => s.nodeDrop die obj l
  | .otcFill die obj ext => s.otcFill die obj ext
  | .otcDrop die obj => s.otcDrop die obj
  | .hop p e k => s.routerHop p e k
  | .steward => if s.mod.boot = 1 then s.bootStep else s.stewardStep
  | .skipBeat p => s.skipBeat p
  | .flashError i e => s.flashError i e
  | .refit uid p k => { s with faulted := s.faulted.map (fun x => if x.uid == uid then { x with spot := some (p, k) } else x) }

end Sys2Proof.Machine
end

