-- ==== Sys2Proof/Machine/Round.lean ====
section
/-! DEFINITION. What the module does when its agenda names nothing (log 1): every unit tries its next action once, in one fixed order, and
then every clock advances by one cycle. An action whose condition does not hold leaves the state as it is. -/

namespace Sys2Proof.Machine

open Sys2Proof

/-- A half of a plot's window: the selection, the map, or the slots that have not executed and then the end of the block. -/
noncomputable def State.roundHalf (s : State) (p : Nat) (h : Bool) : List Directive :=
  let y := (s.plot p).half h
  match y.task, y.blk with
  | some _, some b =>
    (List.range b.slots.length).map (fun k => .slot p h k 0) ++ [.event (.blockCommit p h), .event (.gatePark p h), .event (.wdog p h)]
  | some _, none => [.event (.blockMap p h)]
  | none, _ => [.event (.taskSelect p h)]

/-- The tasks of a plot: both halves, and the operations that have not performed. -/
noncomputable def State.roundPlot (s : State) (p : Nat) : List Directive :=
  if slotIdx.all (fun k => (s.task p k).st == .free) then []
  else s.roundHalf p false ++ s.roundHalf p true ++
    slotIdx.flatMap (fun k => (s.task p k).ops.map (fun o => .event (.commitOpPerform p k o.serial 0)) ++
      (s.task p k).hostOps.map (fun x => .event (.commitOpPerform p k x.1 0)))

/-- An engine command. -/
noncomputable def roundCmd (n : Nat) : List Directive :=
  [.event (.engineStart n), .event (.copyChunk n), .event (.xchnRecord n), .event (.xredRow n), .event (.collectiveChunk n)]

/-- A plot of a field: feeders, loader, cells from the south-east corner, drain unit and drain writers. -/
noncomputable def roundFieldPlot (p : Nat) : List Directive :=
  (List.range 16).map (fun i => .event (.feederRowRelease p i)) ++ [.event (.loaderWordWrite p 0)] ++
    (List.range 256).map (fun k => .event (.cellFire p (15 - k / 16) (15 - k % 16))) ++
    (List.range 16).map (fun c => .event (.accRowWrite p c)) ++ (List.range 16).map (fun t => .event (.drainWriterRow p t))

/-- A field. -/
noncomputable def State.roundField (s : State) (f : Field) : List Directive :=
  .event (.passRelease f.handle.toNat) :: (f.cellsOf.map (fun x => s.fieldPlot f x.1 x.2)).flatMap roundFieldPlot

/-- A rill entry, with the items on their way from it. -/
noncomputable def roundRill (p e : Nat) (r : Rill) : List Directive :=
  .event (.rillItemSend p e) :: (List.range r.transit.length).map (fun k => .hop p e k) ++
  [ .event (.rillItemArrive p e false), .event (.rillItemArrive p e true), .event (.converterTake p e false),
   .event (.converterTake p e true), .event (.joinMerge p e), .event (.creditArrive p e)]

/-- The ports and cores that a set of blocked ports leads to, and the blocked ports of those cores (R304). -/
def State.closeSet (s : State) : Nat → List (Nat × Nat) → List (Nat × Nat) × List Nat
  | 0, ps => (ps, [])
  | n + 1, ps =>
    let cs := (ps.flatMap (fun x => s.portCores x.1 x.2)).eraseDups
    let more := cs.flatMap (fun c => (s.portsOf c).filter (fun x => s.portBlocked x.1 x.2 && (s.portCores x.1 x.2).all (fun d => s.coreStuck d)))
    let ps2 := (ps ++ more).eraseDups
    if ps2.length == ps.length then (ps, cs) else State.closeSet s n ps2

/-- A pair put in its place in a rising list. -/
def insertPort (x : Nat × Nat) : List (Nat × Nat) → List (Nat × Nat)
  | [] => [x]
  | y :: t => if x.1 < y.1 ∨ (x.1 = y.1 ∧ x.2 ≤ y.2) then x :: y :: t else y :: insertPort x t

/-- The detectors look at the set that one blocked port leads to (R304). -/
noncomputable def State.roundPort (s : State) (x : Nat × Nat) : List Directive :=
  let (ps, cs) := s.closeSet 128 [x]
  let sorted := ps.foldr insertPort []
  [.event (.deadlockDetect false (dieOf x.1) (clusterIn x.1) sorted cs), .event (.deadlockDetect true 0 0 sorted cs)]

/-- The ports a plot's tasks may be blocked on. -/
noncomputable def State.roundPorts (s : State) (p : Nat) (x : Plot) : List Directive :=
  ((x.rills.map (·.1)).filter (fun e => s.portBlocked p e)).flatMap (fun e => s.roundPort (p, e))

/-- A launch queue. -/
noncomputable def State.roundQueue (s : State) (q : Nat) : List Directive :=
  [.event (.launchTake q), .event (.launchPlace q)] ++ List.replicate (s.queue q).waiting.length (.event (.completionPost q))

/-- One round: the steps of the boot while BOOT is 0 or 1 and the module is on; else everything once, and one cycle of every clock. -/
noncomputable def State.round (s : State) : List Directive :=
  if s.mod.boot == 0 && s.mod.pscur != 4 then [.event (.powerOn ⟨true, true, none, [], [], [], [], []⟩)]
  else if s.mod.boot == 1 then [.steward]
  else
    s.plots.flatMap (fun x => s.roundPlot x.1) ++ s.cmds.flatMap (fun c => roundCmd c.serial) ++ s.fields.flatMap s.roundField ++
    s.plots.flatMap (fun x => x.2.rills.flatMap (fun e => roundRill x.1 e.1 e.2)) ++ s.plots.flatMap (fun x => s.roundPorts x.1 x.2) ++
    (if s.dies.any (fun d => !d.2.seqQ.isEmpty) then [.event (.scTokenArrive s.mod.tokenDie)] else []) ++
    (List.range 8).flatMap s.roundQueue ++ s.launches.flatMap (fun l => l.hostLeft.map (fun x => .event (.commitOpPerform x.1 x.2.1 x.2.2 0)) ++ [.event (.launchComplete l.id.toNat)]) ++ (if s.mod.mapGen.getLsbD 0 then [.steward] else []) ++ [.clock 84 1]

end Sys2Proof.Machine
end

