-- ==== Sys2Proof/Machine/Step.lean ====
section
/-! DEFINITION. The step function: it takes the next directive of the agenda (log 1), a new round when there is none, and lets it
happen. -/

namespace Sys2Proof.Machine

open Sys2Proof

/-- The word of slot k of the block mapped in a half of a plot's window. -/
def State.slotWord (s : State) (plot : Nat) (half : Bool) (k : Nat) : Option (BitVec 64) :=
  match ((s.plot plot).half half).blk with
  | some b => b.words[k]?
  | none => none

/-- What one directive does to the state it finds. A slot's word is decoded and executed; an event takes place; the rest is the
environment's. An instruction is no event: it executes only in its slot. -/
noncomputable def act (d : Directive) (s : State) : Host.Outcome State Fault Refusal :=
  match d with
  | .slot p h k pick =>
    match s.slotWord p h k with
    | none => .next s
    | some w =>
      match decode w with
      | none => .fault .illegalWord
      | some i => exec i { s with focus := ⟨p, h, k, pick, false⟩ }
  | .event e => if e.fields.isSome then .next s else exec e s
  | .clock d n => .next (s.env (.clock d n))
  | .memError a h => .next (s.env (.memError a h))
  | .nearDrop p g => .next (s.env (.nearDrop p g))
  | .codeFill p a => .next (s.env (.codeFill p a))
  | .codeDrop p a => .next (s.env (.codeDrop p a))
  | .nodeFill d o l => .next (s.env (.nodeFill d o l))
  | .nodeDrop d o l => .next (s.env (.nodeDrop d o l))
  | .otcFill d o x => .next (s.env (.otcFill d o x))
  | .otcDrop d o => .next (s.env (.otcDrop d o))
  | .hop p e k => .next (s.env (.hop p e k))
  | .steward => .next (s.env .steward)
  | .skipBeat p => .next (s.env (.skipBeat p))
  | .flashError i e => .next (s.env (.flashError i e))
  | .refit u p k => .next (s.env (.refit u p k))

/-- One step of the module. -/
noncomputable def step (s : State) : Host.Outcome State Fault Refusal :=
  match s.agenda with
  | d :: rest => act d { s with agenda := rest }
  | [] => match s.round with
    | d :: rest => act d { s with agenda := rest }
    | [] => .next s

/-- A block of one word, mapped in the first half of plot 0's window for its task slot 0 (log 2). -/
def oneWordBlock (w : BitVec 64) : Block where
  bpc := 0
  words := [w]
  slots := [{}]
  mapped := 0
  pri0 := 0
  pmsel0 := 0
  order := 0

/-- The state in which the next step executes the word w: a RUNNING task whose mapped block holds it, and the agenda naming its slot. -/
def State.withFetchWord (s : State) (_nbits w : Nat) : State :=
  let x := s.plot 0
  let s1 := s.setPlot 0 { x with
    tasks := x.tasks.set 0 { x.tasks[0] with st := .running, priv := true }
    h0 := { task := some 0, blk := some (oneWordBlock (BitVec.ofNat 64 w)) } }
  { s1 with agenda := .slot 0 false 0 0 :: s.agenda }

end Sys2Proof.Machine
end

