-- ==== Sys2Proof/Safety.lean ====
section
/-! DEFINITION. The words in which claims are made: when a slot runs, what an executed slot leaves, when a block commits, a safe run, the
canonical form of memory, and what is left unchanged. -/

namespace Sys2Proof.Machine

open Sys2Proof

/-! ## Slots -/

/-- The slot cx is under execution and its predicate holds (R61, R63). -/
def State.runs (s : State) (cx : Cx) (p : Pred) : Prop := s.cx? = some cx ∧ cx.predicate p = .val true

/-- No executed slot of the block writes what this record writes, or branches as it does (R64, R65, R96). -/
def Cx.free (cx : Cx) (r : SlotRec) : Prop := ∀ q ∈ cx.blk.slots, q.st = .done → r.clash q = false

/-- What an executed slot leaves: its record, and the performance counter of executed instructions advanced (R61, R397). -/
def State.executed (s : State) (cx : Cx) (r : SlotRec) : State := (s.setSlot cx { r with st := .done, cyc := s.cycOf cx.p }).bump cx.p 3 1

/-- An instruction gives a value to its slot, for D at the commit, and does nothing else. -/
def Gives (s : State) (cx : Cx) (i : Instr) (d : Dst) (v : Val) : Prop :=
  exec i s = .next (s.executed cx { val := some v, dst := d })

/-- A commit-point instruction captures its operands and does nothing else before the commit (R62). -/
def Asks (s : State) (cx : Cx) (i : Instr) (a : CAct) : Prop := exec i s = .next (s.executed cx { act := some a })

/-- A branch-class instruction asks for its transfer and does nothing else before the commit (R62, R64). -/
def Branches (s : State) (cx : Cx) (i : Instr) (b : Br) : Prop := exec i s = .next (s.executed cx { br := some b })

/-- No checked result triggers: every finite one has a tag at or above the threshold (R49). -/
def Cx.quiet (cx : Cx) (cs : List Checked) : Prop := ∀ c ∈ cs, c.fin = true → cx.task.theta ≤ c.tag

/-- A floating-point instruction gives a value and flags for the commit; `unit` is the performance counter of its class (R39, R397). -/
def FpGives (s : State) (cx : Cx) (i : Instr) (d : Dst) (v : Val) (fl : FFlags) (unit : Nat) : Prop :=
  exec i s = .next ((s.bump cx.p unit 1).executed cx { val := some v, dst := d, flags := fl })

/-- A scalar FP result with its tag and flags, unless its significance triggers (R49, R136). -/
def GivesFp (s : State) (cx : Cx) (i : Instr) (d : Dst) (f : FpFmt) (r : FpRes) : Prop :=
  cx.quiet [r.checked f] → FpGives s cx i d (.fp r.reg) r.flags 15

/-- A vector of FP32 results with their tags and flags, unless the significance of a lane triggers (R138). -/
def GivesVec (s : State) (cx : Cx) (i : Instr) (d : Dst) (r : Nat → FpRes) : Prop :=
  cx.quiet (laneChecks (lanes16 r)) → FpGives s cx i d (.vec (vecOf (lanes16 r))) (flagsOf (lanes16 r)) 16

/-- A lane-wise value that is not checked, with its flags (R138). -/
def GivesPlain (s : State) (cx : Cx) (i : Instr) (d : Dst) (v : Val) (fl : FFlags) : Prop := FpGives s cx i d v fl 16

/-- The first of the checked results, in lane order, that triggers (R49, R50). -/
def Cx.lowest (cx : Cx) (cs : List Checked) (c : Checked) : Prop :=
  ∃ pre post, cs = pre ++ c :: post ∧ cx.quiet pre ∧ c.fin = true ∧ c.tag < cx.task.theta

/-- How an instruction whose results are checked ends when one triggers, and when its record `r` clashes with an executed slot's; `t` is the
state with the counter of its class advanced. A trigger counts its lanes, and is SIG for the lowest lane while the trap is enabled, else marks
SIGLOST for the commit (R49, R50, R136, R138, R221); a clash that no SIG comes before is DECODE (R65; log 73 orders the two). -/
def Triggers (s t : State) (cx : Cx) (i : Instr) (r : SlotRec) (cs : List Checked) : Prop :=
  (∀ c, cx.lowest cs c →
    let u := t.bump cx.p 30 (cs.filter (fun c => c.fin && decide (c.tag < cx.task.theta))).length
    (cx.task.sigTrap = true → exec i s = .next (u.abortSlot cx
      { cause := .sig, lane := c.lane, info := BitVec.ofNat 64 (c.tag % 64 * 2 ^ 32 + c.info.toNat) })) ∧
    (cx.task.sigTrap = false →
      (cx.free r → exec i s = .next (u.executed cx { r with siglost := true })) ∧
      (¬cx.free r → exec i s = .next (u.abortSlot cx { cause := .decode })))) ∧
  (cx.quiet cs → ¬cx.free r → exec i s = .next (t.abortSlot cx { cause := .decode }))

/-- A scalar FP result, checked. -/
def TriggersFp (s : State) (cx : Cx) (i : Instr) (d : Dst) (f : FpFmt) (r : FpRes) (unit : Nat) : Prop :=
  Triggers s (s.bump cx.p unit 1) cx i { val := some (.fp r.reg), dst := d, flags := r.flags } [r.checked f]

/-- Sixteen FP32 results, every lane checked (R138). -/
def TriggersVec (s : State) (cx : Cx) (i : Instr) (d : Dst) (r : Nat → FpRes) : Prop :=
  Triggers s (s.bump cx.p 16 1) cx i { val := some (.vec (vecOf (lanes16 r))), dst := d, flags := flagsOf (lanes16 r) } (laneChecks (lanes16 r))

/-- The pieces of a load: those found when its first part performed, else those that its checks find now (R175, R178, R214). -/
def State.found (s : State) (cx : Cx) (q : Ptr) (off : BitVec 64) (size al : Nat) (need : BitVec 8) (side : Bool) (ps : List Piece) : Prop :=
  (cx.sr.homes.2 = [] ∧ s.access (dieOf cx.p) cx.task.priv q off size al need side false = .ok ps) ∨ (ps ≠ [] ∧ cx.sr.homes.2 = ps)

/-- A slot ends with its record, or finds DECODE where that clashes with an executed slot's (R64, R65). -/
def Ends (s t : State) (cx : Cx) (i : Instr) (r : SlotRec) : Prop :=
  (cx.free r → exec i s = .next (t.executed cx r)) ∧ (¬cx.free r → exec i s = .next (t.abortSlot cx { cause := .decode }))

/-! ## Commits -/

/-- The block of a half of a plot's window may go on to its commit: it is complete and its task is not leaving, no cause aborts it, the other
half's block does not go first, and it has not failed (R59, R68, R70, R181). -/
def State.mayCommit (s : State) (p : Nat) (h : Bool) (cx : Cx) : Prop :=
  s.blockCx p h = some cx ∧ cx.ended = true ∧ s.givesWay p h cx.blk = false ∧ cx.blk.failed = false

/-- Everything a block without a TAKE needs for its commit: its checks pass, its operations and items have room, and its semaphores cover its
takes (R68). -/
def State.checksPass (s : State) (p : Nat) (h : Bool) (cx : Cx) : Prop :=
  s.taking p h = false ∧ s.blockCheck cx cx.blk.slots 0 = .ok ∧ cx.task.roomFor cx.blk = true ∧ s.chsFull p cx.blk = none ∧
  s.semsCover p cx.blk = true

/-- The block of a half of a plot's window is about to commit from the state t: it has no TAKE and all its checks pass, or its last TAKE empties
its words now, which leaves t (R68, R181). -/
def State.readyToCommit (s : State) (p : Nat) (h : Bool) (cx : Cx) (t : State) : Prop :=
  (s.mayCommit p h cx ∧ s.checksPass p h cx ∧ s.takeRecs cx = [] ∧ t = s) ∨
  (∃ c x, s.mayCommit p h c ∧ s.nextTake p h = some x ∧ x.scope ≠ .seq ∧ t = s.takeEvent c.t x ∧ t.blockCx p h = some cx ∧
    (∀ y ∈ s.takes, x.with y = true → y.done = false → (s.sideAt y.home).poison = false) ∧ cx.blk.failed = false ∧ t.nextTake p h = none ∧ t.semsCover p cx.blk = true)

/-- The branch a block has executed: none, or that of its lowest executed branch-class slot (R64). -/
def Block.branch (b : Block) : Option Br := b.slots.findSome? (fun r => if r.st == .done then r.br else none)

/-- A block whose commit neither ends its task nor enters a handler: it has executed no ENDT and no TRAP, and no ACLR, which may perform at the
commit and meet FIELD (R272, R282). -/
def Block.stays (b : Block) : Prop :=
  b.branch ≠ some .endt ∧ (∀ n, b.branch ≠ some (.trap n)) ∧ ∀ x ∈ b.acts, ∀ a, x.2.kind ≠ .aclr a

/-- A value as a register keeps it: PRED and MASK zero-extended (R56, R89). -/
def Val.stored : Val → Val
  | .pred b => .int (predInt b)
  | .mask m => .int (m.zeroExtend 64)
  | v => v

/-- The registers that can hold a value (R56). -/
def Val.fits (v : Val) (d : Dst) : Bool :=
  match d, v with
  | .g _, .int _ => true
  | .g _, .pred _ => true
  | .g _, .mask _ => true
  | .f _, .fp _ => true
  | .v _, .vec _ => true
  | .c _, .ptr _ => true
  | _, _ => false

/-- What a register holds. -/
def Regs.at (r : Regs) (d : Dst) : Option Val :=
  match d with
  | .none => none
  | .g i => some (.int (r.getG i))
  | .f i => some (.fp (r.getF i))
  | .v i => some (.vec (r.getV i))
  | .c i => some (.ptr (r.getC i))

/-! ## Operations -/

/-- An issued operation of a task that stays may perform now: the dies are clocked, what it must follow has performed, and the acquire effect that it owes
has been made (R193, R194, R199). -/
def State.performs (s : State) (p k : Nat) (o : Op) : Prop :=
  k < 16 ∧ s.clocked = true ∧ s.opOf p k o.serial = some o ∧ (s.task p k).depsMet o = true ∧ (s.task p k).leaving = .no ∧
  (s.task p k).st ≠ .free ∧ o.acq = false

/-- An operation of the state s is outstanding no longer in u; one without a D has changed no register of its task (R194). -/
def State.over (s u : State) (p k : Nat) (o : Op) : Prop :=
  (∀ q ∈ (u.task p k).ops, ¬(q.serial = o.serial ∧ q.act = o.act)) ∧ (o.act.dst = .none → (u.task p k).regs = (s.task p k).regs)

/-- An operation is over, and its late result has reached its D, unless a later block has written or bound it; what later blocks wrote there then
takes effect (R177). -/
def State.lands (s u : State) (p k : Nat) (o : Op) (v : Val) : Prop :=
  s.over u p k o ∧
  let t := s.task p k
  let d := o.act.dst
  ((∀ q ∈ t.ops, q.act.dst = d → q = o) → d ≠ .none →
    let r := if o.stale then t.regs else t.regs.write d v
    ((∀ x ∈ t.heldWrites, x.1 ≠ d) → (u.task p k).regs = r) ∧
    ∀ w, t.heldWrites.filter (fun x => x.1 == d) = [(d, w)] → (u.task p k).regs = r.write d w)

/-- An operation ends with a deferred fault (R176): its task ends with a record that names its slot and block, and leaves once nothing else is
outstanding. -/
def State.defers (s u : State) (p k : Nat) (o : Op) (c : CauseRec) : Prop :=
  let t := s.task p k
  let others := t.ops.filter (fun q => !o.same q)
  (others = [] → u.task p k = {}) ∧
  (others ≠ [] → (u.task p k).leaving = .ended ∧ ∀ q ∈ (u.task p k).ops, ¬(q.serial = o.serial ∧ q.act = o.act)) ∧
  (∀ b, u.rdByte b = s.rdByte b) ∧
  ∀ (l : Launch) (h : l.q < 8), s.launch? t.launch = some l → (u.queues[l.q]).waiting = (s.queues[l.q]).waiting ++
    [errWords 0x01 p k t.launch o.bpc { c with slot := o.slot, defer := true } false (s.wtimeOf p) 0]

/-- COMMIT_OP_PERFORM of an operation has a next state of which something holds. -/
def State.does (s : State) (p k : Nat) (o : Op) (pick : Nat) (f : State → Prop) : Prop :=
  ∃ u, exec (.commitOpPerform p k o.serial pick) s = .next u ∧ f u

/-! ## Rounding (R36, R37, R43, R44) -/

/-- A finite value as a real number; 0 for any other (R27). -/
noncomputable def FVal.real : FVal → ℝ
  | .fin n m e => (if n then -1 else 1) * (m * (2 : ℝ) ^ e)
  | _ => 0

/-- k is the non-negative real x rounded to an integer in a mode, on behalf of a negative number if `neg` (R36). -/
def Nearest (r : Rnd) (neg : Bool) (x : ℝ) (k : Nat) : Prop :=
  let down := (k : ℝ) ≤ x ∧ x < k + 1
  let up := x ≤ k ∧ (k : ℝ) < x + 1
  match r with
  | .rne => |x - k| ≤ 1 / 2 ∧ (|x - k| = 1 / 2 → k % 2 = 0)
  | .rna => |x - k| ≤ 1 / 2 ∧ (|x - k| = 1 / 2 → x < k)
  | .rtz => down
  | .rup => if neg then down else up
  | .rdn => if neg then up else down
  | .dyn => False

/-- E(x) of R43 as a real number has it: floor(log2 |x|). -/
noncomputable def expoOf (x : ℝ) : Int := Int.log 2 |x|

/-- The spacing of a format's numbers with the leading bit of x: its precision's, but no finer than that of the subnormals. -/
noncomputable def FpFmt.gridAt (f : FpFmt) (x : ℝ) : Int := max (expoOf x - f.p + 1) (f.emin - f.fw)

/-- A code is the real v rounded once into a format that has infinities, with the flags of R37; a zero has the sign `zneg`. Overflow goes to
infinity or the largest finite number by mode and sign, and tininess is that of the magnitude rounded with unbounded exponent. -/
def FpFmt.Rounds (f : FpFmt) (r : Rnd) (v : ℝ) (zneg : Bool) (bits : BitVec 64) (fl : FFlags) : Prop :=
  let b := f.dec bits.toNat
  let top := (f.dec f.maxCode).real
  (v = 0 → b.isZero = true ∧ b.neg = zneg ∧ fl = 0) ∧
  (v ≠ 0 → ∃ (neg : Bool) (k k0 : Nat), (neg = true ↔ v < 0) ∧
    let value := (k : ℝ) * 2 ^ f.gridAt v
    let free := (k0 : ℝ) * 2 ^ (expoOf v - f.p + 1)
    Nearest r neg (|v| / 2 ^ f.gridAt v) k ∧ Nearest r neg (|v| / 2 ^ (expoOf v - f.p + 1)) k0 ∧
    (top < value → fl = fOF ||| fNX ∧
      (if r = .rtz ∨ (r = .rup ∧ neg = true) ∨ (r = .rdn ∧ neg = false) then b.isFin = true ∧ b.neg = neg ∧ |b.real| = top else b = .inf neg)) ∧
    (value ≤ top → b.isFin = true ∧ b.neg = neg ∧ |b.real| = value ∧ (value = |v| → fl = 0) ∧
      (value ≠ |v| → free < 2 ^ f.emin → fl = fUF ||| fNX) ∧ (value ≠ |v| → (2 : ℝ) ^ f.emin ≤ free → fl = fNX)))

/-- The tag of the value b to which the real v was rounded: a rule's, less than p where rounding changed it, 0 unless b is finite (R43). -/
def FpFmt.Capped (f : FpFmt) (b : FVal) (v : ℝ) (rule tag : Nat) : Prop :=
  (b.isFin = false → tag = 0) ∧ (b.isFin = true → (b.real = v → tag = rule) ∧ (b.real ≠ v → tag = min rule (f.p - 1)))

/-- The tag that R44 gives a sum b of x and y before the cap. A sum that underflow rounds to zero takes 0 (log 67). -/
def FpFmt.SumTag (f : FpFmt) (x : ℝ) (sx : Nat) (y : ℝ) (sy : Nat) (b : ℝ) (tag : Nat) : Prop :=
  let lx := expoOf x - sx + 1
  let ly := expoOf y - sy + 1
  let of := fun (l : Int) => min f.p (expoOf b - l + 1).toNat
  (b = 0 → x = 0 → y = 0 → tag = min sx sy) ∧ (b = 0 → x ≠ 0 ∨ y ≠ 0 → tag = 0) ∧
  (b ≠ 0 → (x = 0 → y ≠ 0 → tag = of ly) ∧ (x ≠ 0 → y = 0 → tag = of lx) ∧ (x ≠ 0 → y ≠ 0 → tag = of (max lx ly)))

/-- A result rounded from a real number, with its flags, and its tag by a rule. -/
def FpFmt.Result (f : FpFmt) (r : Rnd) (v : ℝ) (zneg : Bool) (rule : Nat) (q : FpRes) : Prop :=
  f.Rounds r v zneg q.bits q.flags ∧ f.Capped (f.dec q.bits.toNat) v rule q.tag

/-- A sum of x and y rounded, with the tag of the add rule. -/
def FpFmt.Sum (f : FpFmt) (r : Rnd) (x : ℝ) (sx : Nat) (y : ℝ) (sy : Nat) (zneg : Bool) (q : FpRes) : Prop :=
  ∃ rule, f.SumTag x sx y sy (f.dec q.bits.toNat).real rule ∧ f.Result r (x + y) zneg rule q

/-- The formats of R26 that have infinities. -/
def withInf : List FpFmt := [fp64, fp32, fp16, bf16, e5m2]

/-- The sign of an exact zero sum of two addends (R41). -/
def zeroSign (r : Rnd) (x : ℝ) (xn : Bool) (y : ℝ) (yn : Bool) (zneg : Bool) : Prop :=
  (x = 0 ∧ y = 0 ∧ xn = yn → zneg = xn) ∧ (¬(x = 0 ∧ y = 0 ∧ xn = yn) → zneg = decide (r = .rdn))

/-- The real v rounded once, with RNE, to a code of a format without infinities: the code, whether it changed, and the flags. Beyond the largest
finite value it saturates, or is the NaN with `nanOvf` (R38). -/
def FpFmt.Saturates (f : FpFmt) (nanOvf : Bool) (v : ℝ) (zneg : Bool) (q : Nat × Bool × FFlags) : Prop :=
  let b := f.dec q.1
  let top := (f.dec f.maxCode).real
  (v = 0 → b.isZero = true ∧ b.neg = zneg ∧ q.2 = (false, 0)) ∧
  (v ≠ 0 → ∃ (neg : Bool) (k k0 : Nat), (neg = true ↔ v < 0) ∧
    let value := (k : ℝ) * 2 ^ f.gridAt v
    let free := (k0 : ℝ) * 2 ^ (expoOf v - f.p + 1)
    Nearest .rne neg (|v| / 2 ^ f.gridAt v) k ∧ Nearest .rne neg (|v| / 2 ^ (expoOf v - f.p + 1)) k0 ∧
    (top < value → (nanOvf = true → q = (0x7F, true, fOF ||| fNX)) ∧
      (nanOvf = false → b.isFin = true ∧ b.neg = neg ∧ |b.real| = top ∧ q.2 = (true, fNX))) ∧
    (value ≤ top → b.isFin = true ∧ b.neg = neg ∧ |b.real| = value ∧ (value = |v| → q.2 = (false, 0)) ∧
      (value ≠ |v| → free < 2 ^ f.emin → q.2 = (true, fUF ||| fNX)) ∧ (value ≠ |v| → (2 : ℝ) ^ f.emin ≤ free → q.2 = (true, fNX))))

/-- The real v, in steps of 2^-sh, rounded with RNE to an integer that is clamped to ±lim, as a code of w bits (R28, R38). -/
def Clamps (lim w : Nat) (sh : Int) (v : ℝ) (q : Nat × Bool × FFlags) : Prop :=
  ∃ (neg : Bool) (k : Nat), (v ≠ 0 → (neg = true ↔ v < 0)) ∧ Nearest .rne neg (|v| * 2 ^ sh) k ∧ q.1 < 2 ^ w ∧
    signedOf w q.1 = (if neg then -((min k lim : Nat) : Int) else (min k lim : Nat)) ∧
    (((min k lim : Nat) : ℝ) = |v| * 2 ^ sh → q.2 = (false, 0)) ∧ (((min k lim : Nat) : ℝ) ≠ |v| * 2 ^ sh → q.2 = (true, fNX))

/-- An element made from the real v, a zero with the sign `zneg` (R30, R38). -/
def Elem.Quantised (k : Elem) (nanOvf : Bool) (v : ℝ) (zneg : Bool) (q : Nat × Bool × FFlags) : Prop :=
  match k with
  | .e2m1 => Sys2Proof.Machine.e2m1.Saturates false v zneg q
  | .e4m3 => Sys2Proof.Machine.e4m3.Saturates nanOvf v zneg q
  | .int4 => Clamps 7 4 0 v q
  | .int8 => Clamps 127 8 0 v q
  | .mxint8 => Clamps 127 8 6 v q

/-! ## Owners -/

/-- The port of an event that is a write which only the owner's port may make (R400). -/
def ownerPort (i : Instr) : Option Nat :=
  match i with
  | .lqtailDoorbell p _ _ => some p
  | .hostPreempt p _ _ => some p
  | .hostRestore p _ _ => some p
  | .hostMigrate p _ _ => some p
  | .hostKill p _ _ => some p
  | .hostCmdUnknown p _ _ _ => some p
  | .hgo p _ => some p
  | .featdrvWrite p _ => some p
  | .psreqP0 p => some p
  | .psreqP1 p => some p
  | .psreqP2 p => some p
  | .psreqP3 p => some p
  | .psreqP4 p => some p
  | .pageansResident p _ _ => some p
  | .pageansDecline p _ _ => some p
  | .tripClear p _ => some p
  | .secaClear p => some p
  | .hostMemoryWrite p _ _ => some p
  | _ => none

/-- A live port that is the owner's (R400). -/
def State.ownedBy (s : State) (port : Nat) : Prop := s.portLive port = true ∧ s.mod.ovalid = true ∧ s.mod.oport.toNat = port

/-! ## Runs -/

/-- A step that does not stop the machine. -/
def Safe (o : Out) : Prop := ∃ t, o = .next t

/-- Memory is in its canonical form: addresses strictly rising, nothing listed that reads as unlisted. -/
def State.canonical (s : State) : Prop := Memory.wf s.mem = true

/-! ## Frames -/

/-- Every byte and every sideband of memory is as before. -/
def SameMemory (s t : State) : Prop := (∀ a, t.rdByte a = s.rdByte a) ∧ ∀ a, t.sideAt a = s.sideAt a

/-- Every register of every task is as before. -/
def SameRegs (s t : State) : Prop := ∀ p k, (t.task p k).regs = (s.task p k).regs

/-- Every task is as before: its registers, its flags and system registers, its program counter, its handlers and its operations. -/
def SameTasks (s t : State) : Prop := ∀ p k, t.task p k = s.task p k

/-- Everything but the execution window and the performance counters of one plot is as before. -/
def SameButWindow (s t : State) (p : Nat) : Prop :=
  t.mem = s.mem ∧ t.side = s.side ∧ t.dies = s.dies ∧ t.cmds = s.cmds ∧ t.bufs = s.bufs ∧ t.fields = s.fields ∧
  t.queues = s.queues ∧ t.launches = s.launches ∧ t.faulted = s.faulted ∧ t.mod = s.mod ∧ t.attest = s.attest ∧
  (∀ q, q ≠ p → t.plot q = s.plot q) ∧
  (let x := s.plot p
   ({ t.plot p with h0 := x.h0, h1 := x.h1, perf := x.perf, perfCyc := x.perfCyc, perfNew := x.perfNew } : Plot) = x)

end Sys2Proof.Machine
end

