-- ==== Sys2Proof/Certificates/Slice0/Obligations.lean ====
section
/-! DEFINITION. The statements for the provers, in the order of OBLIGATIONS.json. -/

open Sys2Proof Sys2Proof.Machine

/-! ## Integer instructions -/

/-- R99 and R100 in the words of arithmetic: wrapping, 32-bit, clamped signed and clamped unsigned sums and differences; the low, 32-bit,
signed high and unsigned high parts of products. Each of these twelve completes with that value. -/
def Obligations.IntegerArithmetic : Prop :=
  ∀ (s : State) (cx : Cx) (p : Pred) (d : Dst) (a b : Opnd) (x y : BitVec 64),
    s.runs cx p → cx.free { dst := d } → cx.int a = .val x → cx.int b = .val y →
    Gives s cx (.add p d a b) d (.int (BitVec.ofNat 64 (x.toNat + y.toNat))) ∧
    Gives s cx (.addw p d a b) d (.int ((BitVec.ofNat 32 (x.toNat + y.toNat)).signExtend 64)) ∧
    Gives s cx (.adds p d a b) d (.int (BitVec.ofInt 64 (max (-(2 ^ 63)) (min (2 ^ 63 - 1) (x.toInt + y.toInt))))) ∧
    Gives s cx (.addu p d a b) d (.int (BitVec.ofNat 64 (min (2 ^ 64 - 1) (x.toNat + y.toNat)))) ∧
    Gives s cx (.sub p d a b) d (.int (BitVec.ofInt 64 ((x.toNat : Int) - y.toNat))) ∧
    Gives s cx (.subw p d a b) d (.int ((BitVec.ofInt 32 ((x.toNat : Int) - y.toNat)).signExtend 64)) ∧
    Gives s cx (.subs p d a b) d (.int (BitVec.ofInt 64 (max (-(2 ^ 63)) (min (2 ^ 63 - 1) (x.toInt - y.toInt))))) ∧
    Gives s cx (.subu p d a b) d (.int (BitVec.ofNat 64 (x.toNat - y.toNat))) ∧
    Gives s cx (.mul p d a b) d (.int (BitVec.ofNat 64 (x.toNat * y.toNat))) ∧
    Gives s cx (.mulw p d a b) d (.int ((BitVec.ofNat 32 (x.toNat * y.toNat)).signExtend 64)) ∧
    Gives s cx (.mulhs p d a b) d (.int (BitVec.ofInt 64 (x.toInt * y.toInt / 2 ^ 64))) ∧
    Gives s cx (.mulhu p d a b) d (.int (BitVec.ofNat 64 (x.toNat * y.toNat / 2 ^ 64)))

/-- R101: the four divisions by every divisor. By zero they give all ones or the dividend and ask for IDZ at the commit; the quotient
truncates toward zero, the signed remainder takes the dividend's sign, and the overflowing signed division wraps without a flag. -/
def Obligations.IntegerDivision : Prop :=
  ∀ (s : State) (cx : Cx) (p : Pred) (d : Dst) (a b : Opnd) (x y : BitVec 64),
    s.runs cx p → cx.free { dst := d } → cx.int a = .val x → cx.int b = .val y →
    let gives := fun (i : Instr) (v : BitVec 64) =>
      exec i s = .next (s.executed cx { val := some (.int v), dst := d, idz := decide (y = 0) })
    gives (.divs p d a b) (if y = 0 then BitVec.ofInt 64 (-1) else
      if x.toInt = -(2 ^ 63) ∧ y.toInt = -1 then BitVec.ofInt 64 (-(2 ^ 63)) else BitVec.ofInt 64 (x.toInt.tdiv y.toInt)) ∧
    gives (.divu p d a b) (if y = 0 then 0xFFFFFFFFFFFFFFFF else BitVec.ofNat 64 (x.toNat / y.toNat)) ∧
    gives (.rems p d a b) (if y = 0 then x else
      if x.toInt = -(2 ^ 63) ∧ y.toInt = -1 then 0 else BitVec.ofInt 64 (x.toInt.tmod y.toInt)) ∧
    gives (.remu p d a b) (if y = 0 then x else BitVec.ofNat 64 (x.toNat % y.toNat))

/-- R102: the bitwise forms bit by bit, shifts by the low six bits of B, and the four selections by signed or unsigned order. R103: the
counts of leading and trailing zeros (64 of zero) and of ones, and the reversals of bits and of bytes. -/
def Obligations.IntegerLogicAndBits : Prop :=
   (∀ (s : State) (cx : Cx) (p : Pred) (d : Dst) (a b : Opnd) (x y : BitVec 64),
      s.runs cx p → cx.free { dst := d } → cx.int a = .val x → cx.int b = .val y →
      let n := y.toNat % 64
      Gives s cx (.andI p d a b) d (.int (x &&& y)) ∧
      Gives s cx (.orI p d a b) d (.int (x ||| y)) ∧
      Gives s cx (.xorI p d a b) d (.int (x ^^^ y)) ∧
      Gives s cx (.andn p d a b) d (.int (x &&& ~~~y)) ∧
      Gives s cx (.orn p d a b) d (.int (x ||| ~~~y)) ∧
      Gives s cx (.xnor p d a b) d (.int (~~~(x ^^^ y))) ∧
      Gives s cx (.shl p d a b) d (.int (BitVec.ofNat 64 (x.toNat * 2 ^ n))) ∧
      Gives s cx (.shr p d a b) d (.int (BitVec.ofNat 64 (x.toNat / 2 ^ n))) ∧
      Gives s cx (.sra p d a b) d (.int (BitVec.ofInt 64 (x.toInt / 2 ^ n))) ∧
      Gives s cx (.ror p d a b) d (.int (x.rotateRight n)) ∧
      Gives s cx (.mins p d a b) d (.int (if x.toInt ≤ y.toInt then x else y)) ∧
      Gives s cx (.minu p d a b) d (.int (if x.toNat ≤ y.toNat then x else y)) ∧
      Gives s cx (.maxs p d a b) d (.int (if x.toInt ≤ y.toInt then y else x)) ∧
      Gives s cx (.maxu p d a b) d (.int (if x.toNat ≤ y.toNat then y else x))) ∧
   (∀ (s : State) (cx : Cx) (p : Pred) (d : Dst) (a : Opnd) (x : BitVec 64),
      s.runs cx p → cx.free { dst := d } → cx.int a = .val x →
      (∃ n ≤ 64, Gives s cx (.clz p d a) d (.int (BitVec.ofNat 64 n)) ∧ (∀ i, 64 - n ≤ i → x.getLsbD i = false) ∧
        (n < 64 → x.getLsbD (63 - n) = true)) ∧
      (∃ n ≤ 64, Gives s cx (.ctz p d a) d (.int (BitVec.ofNat 64 n)) ∧ (∀ i < n, x.getLsbD i = false) ∧ (n < 64 → x.getLsbD n = true)) ∧
      Gives s cx (.popc p d a) d (.int (BitVec.ofNat 64 ((List.range 64).countP (fun i => x.getLsbD i)))) ∧
      (∃ v : BitVec 64, Gives s cx (.brev p d a) d (.int v) ∧ ∀ i < 64, v.getLsbD (63 - i) = x.getLsbD i) ∧
      (∃ v : BitVec 64, Gives s cx (.bswap p d a) d (.int v) ∧ ∀ i < 8, ∀ j < 8, v.getLsbD (8 * (7 - i) + j) = x.getLsbD (8 * i + j)))

/-- R104 and R105: the moves of immediates, and the fields that EXTU, EXTS and INS take and place, bit by bit; a length of 0 means 64. R107
and R109: SEL gives A where the predicate C is true and B where it is false; a ZERO takes the class of the other operand, and a g register
beside a MASK its low 16 bits; what is selected, and what MOV copies, keeps its tags and its validity: that of a NaN or infinity too, by R107 and R109
against R43, is the model's choice (log 67). MOVGF gives tag 53 and MOVFG drops the tag. -/
def Obligations.FieldsSelectsAndMoves : Prop :=
   (∀ (s : State) (cx : Cx) (p : Pred) (d : Dst) (a b : Opnd) (x y : BitVec 64) (imm : BitVec 19) (pos len : BitVec 6),
      s.runs cx p → cx.free { dst := d } → cx.int a = .val x → cx.int b = .val y →
      let size := fun (l : BitVec 6) => if l = 0 then 64 else l.toNat
      Gives s cx (.movi p d imm) d (.int (BitVec.ofInt 64 imm.toInt)) ∧
      Gives s cx (.movx p d a imm) d (.int (BitVec.ofNat 64 (x.toNat * 2 ^ 19 + imm.toNat))) ∧
      (∃ v : BitVec 64, Gives s cx (.extu p d a b) d (.int v) ∧ ∀ i < 64,
        v.getLsbD i = (decide (i < size (y.extractLsb' 6 6)) && x.getLsbD (i + y.toNat % 64))) ∧
      (∃ v : BitVec 64, Gives s cx (.exts p d a b) d (.int v) ∧ ∀ i < 64,
        v.getLsbD i = x.getLsbD (min 63 (min i (size (y.extractLsb' 6 6) - 1) + y.toNat % 64))) ∧
      (∃ v : BitVec 64, Gives s cx (.ins p d a b pos len) d (.int v) ∧ ∀ i < 64,
        v.getLsbD i = if pos.toNat ≤ i ∧ i < pos.toNat + size len then y.getLsbD (i - pos.toNat) else x.getLsbD i)) ∧
   (∀ (s : State) (cx : Cx) (p : Pred) (d : Dst) (a b c e f : Opnd) (q : Bool) (u v : Val) (x : BitVec 64) (r : FReg),
      s.runs cx p → cx.free { dst := d } → cx.pred c = .val q → cx.any a = .val u → cx.any b = .val v → cx.int e = .val x →
      cx.fp f = .val r →
      (a ≠ .zero → b ≠ .zero → Gives s cx (.sel p d a b c) d (if q then u.beside v else v.beside u)) ∧
      (a = .zero → b ≠ .zero → Gives s cx (.sel p d a b c) d (if q then v.zeroLike else v)) ∧
      (a ≠ .zero → b = .zero → Gives s cx (.sel p d a b c) d (if q then u else u.zeroLike)) ∧
      (a = .zero → b = .zero → Gives s cx (.sel p d a b c) d (.int 0)) ∧
      Gives s cx (.mov p d a) d u ∧
      Gives s cx (.movgf p d e) d (.fp ⟨x, 53⟩) ∧
      Gives s cx (.movfg p d f) d (.int r.bits))

/-- R106 and R108: the integer comparisons, and the forms on predicates. -/
def Obligations.ComparesAndPredicates : Prop :=
  ∀ (s : State) (cx : Cx) (p : Pred) (d : Dst) (a b a' b' : Opnd) (x y : BitVec 64) (q r : Bool),
    s.runs cx p → cx.free { dst := d } → cx.int a = .val x → cx.int b = .val y → cx.pred a' = .val q → cx.pred b' = .val r →
    Gives s cx (.cmpEq p d a b) d (.pred (decide (x = y))) ∧
    Gives s cx (.cmpNe p d a b) d (.pred (decide (x ≠ y))) ∧
    Gives s cx (.cmpLts p d a b) d (.pred (decide (x.toInt < y.toInt))) ∧
    Gives s cx (.cmpLes p d a b) d (.pred (decide (x.toInt ≤ y.toInt))) ∧
    Gives s cx (.cmpLtu p d a b) d (.pred (decide (x.toNat < y.toNat))) ∧
    Gives s cx (.cmpLeu p d a b) d (.pred (decide (x.toNat ≤ y.toNat))) ∧
    Gives s cx (.pand p d a' b') d (.pred (q && r)) ∧
    Gives s cx (.por p d a' b') d (.pred (q || r)) ∧
    Gives s cx (.pxor p d a' b') d (.pred (xor q r)) ∧
    Gives s cx (.pnot p d a') d (.pred (!q)) ∧
    Gives s cx (.tstnz p d a) d (.pred (decide (x ≠ 0)))

/-! ## Control, system registers and the commit -/

/-- R110 to R116, R118 and R119 in the slot: a branch-class form asks for its transfer, CALL also gives its link, the address of the block
that follows, and WRS captures its operand for the commit. A PARK mask of 0 stands for all sixteen bits. R95, R96, R119 and R397: what RDS
gives of each system register: SY.PRI and SY.PMSEL as at the block's start, the others as they stand, SY.PMVAL as the performance counter that
SY.PMSEL selects reads, or 0 of a counter that the core does not hold. -/
def Obligations.ControlAndSystemReads : Prop :=
   (∀ (s : State) (cx : Cx) (p : Pred) (a : Opnd) (v : BitVec 64) (x : BitVec 19) (n : BitVec 8) (num : BitVec 12) (link : BitVec 6),
      s.runs cx p → cx.int a = .val v →
      (cx.free { br := some .endt } →
        Branches s cx (.br p x) (.rel x) ∧ Branches s cx (.brx p a) (.abs v) ∧ Branches s cx (.ret p a) (.abs v) ∧
        Branches s cx (.endt p) .endt ∧ Branches s cx (.yieldT p) .yielded ∧
        Branches s cx (.park p a) (.park (if v.toNat % 2 ^ 16 = 0 then 0xFFFF else BitVec.ofNat 16 v.toNat)) ∧
        Branches s cx (.trap p n) (.trap n) ∧ Branches s cx (.tret p) .tret ∧ Branches s cx (.tretAt p a) (.tretAt v)) ∧
      (cx.free { dst := .g link, br := some .endt } →
        exec (.call p link x) s = .next (s.executed cx
          { val := some (.int (BitVec.ofNat 64 ((cx.blk.bpc.toNat + 8 * (cx.blk.words.length + 1)) % 2 ^ 40)))
            dst := .g link
            br := some (.call link x) })) ∧
      (cx.free { act := some { kind := .wrs num.toNat v } } → Asks s cx (.wrs p num a) { kind := .wrs num.toNat v })) ∧
   (∀ (s : State) (cx : Cx) (p : Pred) (d : Dst), s.runs cx p → cx.free { dst := d } →
      let t := s.task cx.p cx.t
      let gives := fun (n : BitVec 12) (v : BitVec 64) => Gives s cx (.rds p d n) d (.int v)
      gives 0x000 (cx.blk.bpc.zeroExtend 64) ∧
      gives 0x001 (BitVec.ofNat 64 ((if t.priv then 2 ^ 48 else 0) + t.launch.toNat * 2 ^ 16 + cx.t % 16)) ∧
      gives 0x002 (cx.blk.pri0.zeroExtend 64) ∧ gives 0x003 (t.fctl.zeroExtend 64) ∧ gives 0x004 (t.sigctl.zeroExtend 64) ∧
      (∃ w : BitVec 64, gives 0x005 w ∧ ∀ k < 8, (w.extractLsb' (6 * k) 6).toNat =
        (t.ops.filter (fun o => o.act.mx.any (fun m => m.stream.toNat == k))).length % 64) ∧
      gives 0x006 (if t.smiss then 1 else 0) ∧ gives 0x007 (t.park.zeroExtend 64) ∧ gives 0x008 (t.trapv.zeroExtend 64) ∧
      gives 0x009 (BitVec.ofNat 64 (256 * t.frame.toNat)) ∧ gives 0x00A ((s.nameOf cx.p).zeroExtend 64) ∧
      gives 0x00B (BitVec.ofNat 64 cx.p) ∧
      gives 0x00C ((s.plot cx.p).fu.role.zeroExtend 32 ++ (s.plot cx.p).fu.handle) ∧
      gives 0x00D (s.die (dieOf cx.p)).cyc ∧ gives 0x00E (s.die (dieOf cx.p)).wtime ∧ gives 0x010 (t.wake.zeroExtend 64) ∧
      (∃ w : BitVec 64, gives 0x100 w ∧ ∀ k < 16, w.extractLsb' (3 * k) 3 = (s.task cx.p k).st.code) ∧
      gives 0x101 (cx.blk.pmsel0.zeroExtend 64) ∧
      let i := (s.plot cx.p).pmsel.toNat
      gives 0x102 (if i < 48 then (s.plot cx.p).counter (s.die (dieOf cx.p)).cyc i else 0))

/-- R65, R68, R177 and R272 at the commit point: every register an executed slot names takes its value, but that of an ASTA, which may perform
then. A register that a late result is still owed to keeps what it holds, and the value is kept to be written once that has arrived. Every
other register of the task and every register of every other task is as before. BLOCK_COMMIT completes. -/
def Obligations.CommitWritesRegisters : Prop :=
  ∀ (s t : State) (p : Nat) (h : Bool) (cx : Cx), s.readyToCommit p h cx t → cx.blk.stays →
    ∃ u, exec (.blockCommit p h) s = .next u ∧
      (∀ r ∈ cx.blk.slots, ∀ v, r.st = .done → r.val = some v → v.fits r.dst →
        (∀ q ∈ cx.blk.slots, q.st = .done → q.val.isSome → q.dst = r.dst → q = r) →
        (∀ x ∈ cx.blk.acts, x.2.kind.accTile ≠ none → x.2.dst ≠ r.dst) →
        (cx.task.latePending r.dst = false → (u.task p cx.t).regs.at r.dst = some v.stored) ∧
        (cx.task.latePending r.dst = true → (u.task p cx.t).regs.at r.dst = cx.task.regs.at r.dst ∧
          ((∀ x ∈ cx.blk.acts, x.2.dst ≠ r.dst) → (r.dst, v) ∈ (u.task p cx.t).heldWrites))) ∧
      (∀ d, (∀ r ∈ cx.blk.slots, r.st = .done → r.val.isSome → r.dst ≠ d) →
        (∀ x ∈ cx.blk.acts, x.2.kind.accTile ≠ none → x.2.dst ≠ d) → (u.task p cx.t).regs.at d = cx.task.regs.at d) ∧
      ∀ q k, ¬(q = p ∧ k = cx.t) → (u.task q k).regs = (s.task q k).regs

/-- R57, R64 and R110 to R116: where control goes at the commit: to the block that follows, or where the executed branch says; the task
competes again, or parks. That a target outside 40 bits is kept as lying beyond every code object is the model's reading (log 35). -/
def Obligations.CommitTransfersControl : Prop :=
  ∀ (s t : State) (p : Nat) (h : Bool) (cx : Cx), s.readyToCommit p h cx t →
    (∀ x ∈ cx.blk.acts, ∀ a, x.2.kind ≠ .wrs 0x010 a ∧ x.2.kind ≠ .aclr a) →
    ∃ u, exec (.blockCommit p h) s = .next u ∧ (u.plot p).half h = {} ∧
      let v := u.task p cx.t
      let next : Int := cx.blk.bpc.toNat + 8 * (cx.blk.words.length + 1)
      let at_ := fun (a : Int) => v.bpc = BitVec.ofInt 40 a ∧ v.far = !decide (0 ≤ a ∧ a < 2 ^ 40)
      (cx.blk.branch = none → at_ next ∧ v.st = .ready) ∧
      (∀ x, cx.blk.branch = some (.rel x) → at_ (cx.blk.bpc.toNat + 8 * x.toInt) ∧ v.st = .ready) ∧
      (∀ k x, cx.blk.branch = some (.call k x) → at_ (cx.blk.bpc.toNat + 8 * x.toInt) ∧ v.st = .ready) ∧
      (∀ a, cx.blk.branch = some (.abs a) → at_ a.toNat ∧ v.st = .ready) ∧
      (cx.blk.branch = some .yielded → at_ next ∧ v.st = .ready) ∧
      (∀ m, cx.blk.branch = some (.park m) →
        at_ next ∧ if cx.task.wake &&& m = 0 then v.st = .wait ∧ v.wait = .park m else v.st = .ready)

/-- R113 at the commit: ENDT ends the task. Its slot is FREE and its registers are gone once nothing it issued is outstanding; until then the
task maps no block. -/
def Obligations.EndtFreesTheSlot : Prop :=
  ∀ (s t : State) (p : Nat) (h : Bool) (cx : Cx), s.readyToCommit p h cx t → cx.blk.branch = some .endt →
    ∃ u, exec (.blockCommit p h) s = .next u ∧ (u.plot p).half h = {} ∧
      (cx.task.ops = [] → cx.blk.acts = [] → u.task p cx.t = {}) ∧
      ((u.task p cx.t).ops ≠ [] → (u.task p cx.t).leaving = .ended ∧ (u.task p cx.t).st = .running)

/-- R118 at the commit: TRET.AT and TRET clear SY.TRAPV.ACT and set BPC, TRET from the header of the frame that SY.FRAME names, as it stands
in memory. -/
def Obligations.TretLeavesTheHandler : Prop :=
  ∀ (s t : State) (p : Nat) (h : Bool) (cx : Cx), s.readyToCommit p h cx t → cx.blk.acts = [] →
    (∀ r ∈ cx.blk.slots, r.pop = none) →
    ∃ u, exec (.blockCommit p h) s = .next u ∧
      let v := u.task p cx.t
      (∀ a, cx.blk.branch = some (.tretAt a) →
        v.bpc = BitVec.ofNat 40 a.toNat ∧ v.trapv = cx.task.trapv &&& ~~~1 ∧ v.st = .ready) ∧
      (∀ bs, cx.blk.branch = some .tret → t.tretBpc p cx.t cx.task = .ok bs →
        v.bpc = BitVec.ofNat 40 (leNat bs) ∧ v.trapv = cx.task.trapv &&& ~~~1 ∧ v.st = .ready)

/-- R39, R49, R96, R101 and R201 at the commit: the sticky flags of the executed slots, IDZ, SIGLOST and SMISS are ORed in, those set before stay set, and
nothing clears one that no WRS of the block writes. -/
def Obligations.CommitOrsFlags : Prop :=
  ∀ (s t : State) (p : Nat) (h : Bool) (cx : Cx), s.readyToCommit p h cx t → cx.blk.stays →
    (∀ x ∈ cx.blk.acts, ∀ n a, x.2.kind ≠ .wrs n a) →
    ∃ u, exec (.blockCommit p h) s = .next u ∧
      let v := u.task p cx.t
      let done := cx.blk.slots.filter (fun r => r.st == .done)
      (∀ i < 5, v.fctl.getLsbD (3 + i) = (cx.task.fctl.getLsbD (3 + i) || done.any (fun r => r.flags.getLsbD i))) ∧
      v.fctl.getLsbD 8 = (cx.task.fctl.getLsbD 8 || done.any (fun r => r.idz)) ∧
      v.fctl.extractLsb' 0 3 = cx.task.fctl.extractLsb' 0 3 ∧
      v.sigctl.getLsbD 7 = (cx.task.sigctl.getLsbD 7 || done.any (fun r => r.siglost)) ∧
      v.sigctl.extractLsb' 0 7 = cx.task.sigctl.extractLsb' 0 7 ∧
      (cx.task.smiss = true ∨ done.any (fun r => r.smiss) = true → v.smiss = true)

/-- R95 to R97 and R347 at the commit: what a WRS leaves in each system register a task may write, with the block's flags ORed in after it.
Reserved rounding codes read as 0, W1C bits clear where 1 is written, but for a wake bit or a mismatch of the same cycle, ACT stays, and fields
ignore the bits outside them. R397: SY.PMVAL stores into the counter that SY.PMSEL selects, and the events of the same cycle are added to what it
stored; the counters of blocks committed advance with the commit itself, and one that the core does not hold is no place to store. -/
def Obligations.CommitWritesSystemRegister : Prop :=
  ∀ (s t : State) (p : Nat) (h : Bool) (cx : Cx) (k n : Nat) (a : BitVec 64), s.readyToCommit p h cx t →
    cx.blk.stays → cx.blk.acts = [(k, { kind := .wrs n a })] →
    ∃ u, exec (.blockCommit p h) s = .next u ∧
      let v := u.task p cx.t
      let done := cx.blk.slots.filter (fun r => r.st == .done)
      (n = 0x002 → v.pri = a.extractLsb' 0 3) ∧
      (n = 0x003 → (∀ i < 5, v.fctl.getLsbD (3 + i) = (a.getLsbD (3 + i) || done.any (fun r => r.flags.getLsbD i))) ∧
        v.fctl.getLsbD 8 = (a.getLsbD 8 || done.any (fun r => r.idz)) ∧
        v.fctl.extractLsb' 0 3 = if (a.extractLsb' 0 3).toNat ≤ 4 then a.extractLsb' 0 3 else 0) ∧
      (n = 0x004 → v.sigctl.extractLsb' 0 7 = a.extractLsb' 0 7 ∧
        v.sigctl.getLsbD 7 = ((cx.task.sigctl.getLsbD 7 && !a.getLsbD 7) || done.any (fun r => r.siglost))) ∧
      (n = 0x006 → v.smiss = ((cx.task.smiss && (!a.getLsbD 0 || cx.task.smissAt == some (s.cycOf p))) || done.any (fun r => r.smiss))) ∧
      (n = 0x007 → v.park = a.extractLsb' 0 16) ∧
      (n = 0x008 → cx.blk.branch ≠ some .tret → (∀ b, cx.blk.branch ≠ some (.tretAt b)) →
        v.trapv.extractLsb' 3 37 = a.extractLsb' 3 37 ∧ v.trapv.getLsbD 1 = a.getLsbD 1 ∧
        v.trapv.getLsbD 0 = cx.task.trapv.getLsbD 0 ∧ v.trapv.getLsbD 2 = false) ∧
      (n = 0x009 → v.frame = a.extractLsb' 8 32) ∧
      (n = 0x010 → v.wake = cx.task.wake &&& ~~~(a.extractLsb' 0 16 &&&
        ~~~(if cx.task.wakeCyc = s.cycOf p then cx.task.wakeNew else 0))) ∧
      (n = 0x101 → (u.plot p).pmsel = a.extractLsb' 0 6) ∧
      let i := (t.plot p).pmsel.toNat
      let value := fun (y : State) (j : Nat) => (y.plot p).counter (t.cycOf p) j
      (n = 0x102 → (∀ r ∈ cx.blk.slots, r.pop = none) →
        (i < 48 → value u i = a + (if (t.plot p).perfCyc = t.cycOf p then (t.plot p).perfNew.get i 0 else 0) +
          (if i = 1 ∨ i = 32 + cx.t then 1 else 0)) ∧
        (∀ j, (i < 48 → j ≠ i) → j ≠ 1 → j ≠ 32 + cx.t → value u j = value t j))

/-- R68: a commit writes no memory unless the block sends on a rill, whose reservoir lies in a bank, and changes no sideband but those of
the words its last TAKE empties: the stores, AMO, CAS and CST of the block perform later. R68, R110, R118, R175, R298 and R302: where a check
fails, the block of the lowest slot that fails one takes that fault, with nothing performed: a store, TAKE, AMO, CAS or CST by the checks of its
access with the rights of its kind, a CSAVE or CREST by those of its frame, which of scope seq is SCSPAN before any other (log 83), a send, CHC or BARA by those of its port or group, a
SPAWN or a branch whose target is no multiple of 8, a TRET without an
active handler; a wait for a migrating extent leaves all as it is. The order of codes at a broken rill is the model's reading (log 82), and so is
PRIV before ALIGN for TRET.AT (log 73). -/
def Obligations.CommitLeavesMemory : Prop :=
  (∀ (s t : State) (p : Nat) (h : Bool) (cx : Cx), s.readyToCommit p h cx t → cx.blk.stays →
    (∀ x ∈ cx.blk.acts, ∀ q f w, x.2.kind ≠ .chs q f w) →
    ∃ u, exec (.blockCommit p h) s = .next u ∧ SameMemory t u ∧ (∀ a, u.rdByte a = s.rdByte a) ∧
      (s.taking p h = false → SameMemory s u)) ∧
  (∀ (s : State) (p : Nat) (h : Bool) (cx : Cx) (k : Nat) (r : SlotRec), s.mayCommit p h cx → s.taking p h = false →
    cx.blk.slots[k]? = some r → r.st = .done → s.blockCheck cx (cx.blk.slots.take k) 0 = .ok →
    let fails := fun (c : CauseRec) =>
      exec (.blockCommit p h) s = .next (s.takeException p cx.t { c with slot := k } cx.blk.bpc)
    (∀ a, r.act = some a →
      let seq := a.mx.any (fun m => m.scope == .seq)
      let looks := fun (off : BitVec 64) (n al : Nat) (need : BitVec 8) (side : Bool) =>
        (∀ c, s.access (dieOf p) cx.task.priv a.ptr off n al need side seq = .bad c → fails c) ∧
        (s.access (dieOf p) cx.task.priv a.ptr off n al need side seq = .wait → exec (.blockCommit p h) s = .next s)
      let rill := fun (code : Nat) (port : BitVec 64) => fails { cause := .rill, info := BitVec.ofNat 64 (code * 256 + port.toNat % 256) }
      (∀ n mode al x, a.kind = .store n mode al x → looks a.off n al (if mode = .plain then rW else rW ||| rF) (mode != .plain)) ∧
      (∀ n al, a.kind = .take n al → looks a.off n al (rR ||| rT) true) ∧
      (∀ f n b, a.kind = .amo f n b → looks 0 n n (rR ||| rW ||| rA) true) ∧
      (∀ n b e, a.kind = .cas n b e → looks 0 n n (rR ||| rW ||| rA) true) ∧
      (∀ q, a.kind = .cst q → looks a.off 32 32 (rW ||| rC) true) ∧
      (∀ port form x, a.kind = .chs port form x →
        let e := s.rill p port.toNat
        if 63 < port.toNat ∨ e.role ≠ 1 then rill 1 port
        else if e.fits form = false then rill 2 port
        else if e.latest = true ∧ (form = .eos ∨ form = .mark) then rill 3 port
        else if form = .mark ∧ x.toNat % 2 ^ 16 = 0xFFFF then rill 6 port
        else e.broken = true → rill 7 port) ∧
      (∀ port b, a.kind = .bind port b →
        let e := s.rill p port.toNat
        if 63 < port.toNat ∨ e.role ≠ 2 then rill 1 port else e.broken = true → rill 7 port) ∧
      (∀ port b, a.kind = .cred port b → (∀ x ∈ cx.blk.slots.take k, x.pop = none ∧ x.act = none) →
        let e := s.rill p port.toNat
        if 63 < port.toNat ∨ e.role ≠ 2 then rill 1 port
        else if e.cmode = false ∨ e.latest = true then rill 3 port
        else if e.broken = true then rill 7 port
        else e.owed < b.toNat → rill 4 port) ∧
      (∀ port b, a.kind = .spst port b →
        let e := s.rill p port.toNat
        let high := b.toNat % 2 ^ 21
        let low := b.toNat / 2 ^ 21 % 2 ^ 21
        if 63 < port.toNat ∨ e.role ≠ 1 then rill 1 port
        else if e.broken = true then rill 7 port
        else e.spill = false ∨ high ≤ low ∨ 64 * e.rsize < high → rill 5 port) ∧
      (∀ x, a.kind = .bara x → s.barPlace p x = none ∨ x.toNat / 2 ^ 16 % 2 ^ 16 = 0 → fails { cause := .barr }) ∧
      (∀ x y, a.kind = .spawn x y → 2 ^ 40 ≤ x.toNat ∨ x.toNat % 8 ≠ 0 → fails { cause := .align }) ∧
      (∀ y, a.kind = .csave y → if seq = true then fails { cause := .scspan } else looks 0 4096 256 rW false) ∧
      (∀ y, a.kind = .crest y → if seq = true then fails { cause := .scspan } else looks 0 4096 256 rR false)) ∧
    (r.act = none →
      (∀ x, r.br = some (.abs x) → x.toNat % 8 ≠ 0 → fails { cause := .align }) ∧
      (∀ x, r.br = some (.tretAt x) → cx.task.trapv.getLsbD 0 = false → fails { cause := .priv }) ∧
      (∀ x, r.br = some (.tretAt x) → cx.task.trapv.getLsbD 0 = true → x.toNat % 8 ≠ 0 → fails { cause := .align }) ∧
      (r.br = some .tret → cx.task.trapv.getLsbD 0 = false → fails { cause := .priv })))

/-! ## Scalar floating point -/

/-- R123 to R125, R130, R131 and R135: the checked forms on operands of every format. Each completes with the value, flags and tag that its
function of the values and tags read gives, in the rounding mode its slot names or SY.FCTL holds, unless the significance triggers. -/
def Obligations.FloatArithmetic : Prop :=
  ∀ (s : State) (cx : Cx) (p : Pred) (d : Dst) (a b c e : Opnd) (x y z : FReg) (n : BitVec 64) (fmt src : Fmt) (rnd : Rnd),
    s.runs cx p → cx.free { dst := d } → cx.fp a = .val x → cx.fp b = .val y → cx.fp c = .val z → cx.int e = .val n →
    let f := fmtOf fmt
    let m := cx.task.mode rnd
    let X := x.read f
    let Y := y.read f
    let Z := z.read f
    GivesFp s cx (.fadd p d fmt rnd a b) d f (fpAdd f m X.1 X.2 Y.1 Y.2) ∧
    GivesFp s cx (.fsub p d fmt rnd a b) d f (fpAdd f m X.1 X.2 Y.1.flip Y.2) ∧
    GivesFp s cx (.fmul p d fmt rnd a b) d f (fpMul f m X.1 X.2 Y.1 Y.2) ∧
    GivesFp s cx (.ffma p d fmt rnd a b c) d f (fpFma f m X.1 X.2 Y.1 Y.2 Z.1 Z.2) ∧
    GivesFp s cx (.fdiv p d fmt rnd a b) d f (fpDiv f m X.1 X.2 Y.1 Y.2) ∧
    GivesFp s cx (.fsqrt p d fmt rnd a) d f (fpSqrt f m X.1 X.2) ∧
    GivesFp s cx (.fcvt p d fmt src rnd a) d f (fpCvt f m (x.read (fmtOf src)).1 (x.read (fmtOf src)).2) ∧
    GivesFp s cx (.fcviSf p d fmt rnd e) d f (intToFp f m n.toInt) ∧
    GivesFp s cx (.fcviUf p d fmt rnd e) d f (intToFp f m n.toNat) ∧
    GivesFp s cx (.frcp p d fmt a) d f (fpRcp f X.1 X.2) ∧
    GivesFp s cx (.frsq p d fmt a) d f (fpRsq f X.1 X.2) ∧
    GivesFp s cx (.fex2 p d fmt a) d f (fpEx2 f X.1 X.2) ∧
    GivesFp s cx (.flg2 p d fmt a) d f (fpLg2 f X.1 X.2)

/-- R128, R129 and R131 to R134: the forms whose results no threshold checks: selections, comparisons, conversions to integers, the sign
forms on the bits of the format, the class, and the tag forms. Each completes for every operand. A result that is a NaN or an infinity has tag 0:
that R43's 'whatever the operation' goes before the tags of R128 and R132 is the model's choice (log 67). -/
def Obligations.FloatUnchecked : Prop :=
  ∀ (s : State) (cx : Cx) (p : Pred) (d : Dst) (a b e : Opnd) (x y : FReg) (n : BitVec 64) (fmt : Fmt) (rnd : Rnd),
    s.runs cx p → cx.free { dst := d } → cx.fp a = .val x → cx.fp b = .val y → cx.int e = .val n →
    let f := fmtOf fmt
    let m := cx.task.mode rnd
    let xb := f.take x.bits
    let yb := f.take y.bits
    let xt := min x.tag.toNat f.p
    let yt := min y.tag.toNat f.p
    let xv := f.dec xb.toNat
    let yv := f.dec yb.toNat
    let gives := fun (i : Instr) (v : Val) (fl : FFlags) => FpGives s cx i d v fl 15
    let tagged0 := fun (b : BitVec 64) (t : Nat) => Val.fp ⟨b, BitVec.ofNat 6 (if (f.dec b.toNat).isFin then t else 0)⟩
    let picks := fun (i : Instr) (big mg : Bool) => gives i (.fp (fpMnx f big mg xb xt yb yt).reg) (fpMnx f big mg xb xt yb yt).flags
    let cmps := fun (i : Instr) (k : FCmp) => gives i (.pred (fpCmp k xv yv).1) (fpCmp k xv yv).2
    let ints := fun (i : Instr) (lo hi : Int) => gives i (.int (BitVec.ofInt 64 (fpToInt m lo hi xv).1)) (fpToInt m lo hi xv).2
    let sgn := BitVec.twoPow 64 (f.width - 1)
    picks (.fmin p d fmt a b) false false ∧ picks (.fmax p d fmt a b) true false ∧
    picks (.fminm p d fmt a b) false true ∧ picks (.fmaxm p d fmt a b) true true ∧
    cmps (.fcmpEq p d fmt a b) .eq ∧ cmps (.fcmpLt p d fmt a b) .lt ∧ cmps (.fcmpLe p d fmt a b) .le ∧
    cmps (.fcmpUn p d fmt a b) .un ∧ cmps (.fcmpEqs p d fmt a b) .eqs ∧
    ints (.fcviFs p d fmt rnd a) (-(2 ^ 63)) (2 ^ 63 - 1) ∧ ints (.fcviFu p d fmt rnd a) 0 (2 ^ 64 - 1) ∧
    gives (.fabs p d fmt a) (tagged0 (xb &&& ~~~sgn) xt) 0 ∧
    gives (.fneg p d fmt a) (tagged0 (xb ^^^ sgn) xt) 0 ∧
    gives (.fcps p d fmt a b) (tagged0 ((xb &&& ~~~sgn) ||| (yb &&& sgn)) xt) 0 ∧
    gives (.fcls p d fmt a) (.int (BitVec.ofNat 64 (2 ^ fpClass f xv))) 0 ∧
    gives (.fsigr p d fmt a) (.int (BitVec.ofNat 64 xt)) 0 ∧
    gives (.fsigw p d fmt a e) (.fp ⟨xb, BitVec.ofNat 6 (if xv.isFin then min f.p n.toInt.toNat else 0)⟩) 0 ∧
    gives (.fsiglt p d fmt a e) (.pred (decide ((xt : Int) < n.toInt))) 0

/-- R36, R37, R40, R41, R43, R44, R123 to R126 and R128 to R131: what the arithmetic of the FP forms gives. Special operands: a NaN gives the
canonical NaN with tag 0, and NV if one is signalling; opposite infinities, zero times infinity, zero by zero, infinity by infinity and the root
of a negative number give NV; a finite number by zero gives a signed infinity and DZ; every other infinite operand gives the exact infinite
result, or a zero of the quotient. EQ and UN signal on signalling NaNs alone, LT, LE and EQS on every NaN. Finite operands: sums, products, fused
sums, quotients, roots and conversions are the exact real rounded once in the mode, with overflow, tininess and flags by R37, the sign of a zero
by R41 and the tag by R44 with its cap; a sum that underflow rounds to zero takes tag 0, and an integer 0 gives +0 (log 67). A number becomes the
nearest integer, or the nearer bound with NV; comparisons are those of the reals; FMNX selects by value or magnitude with -0 below +0, A at
equality. -/
def Obligations.FloatSpecialOperands : Prop :=
 (∀ (s : State) (cx : Cx) (p : Pred) (d : Dst) (a b : Opnd) (x y : FReg) (fmt : Fmt) (rnd : Rnd),
    s.runs cx p → cx.free { dst := d } → cx.fp a = .val x → cx.fp b = .val y →
    let f := fmtOf fmt
    let X := (x.read f).1
    let Y := (y.read f).1
    let nan := fun (i : Instr) (fl : FFlags) => FpGives s cx i d (.fp ⟨f.qnan, 0⟩) fl 15
    let sig := if X.isSnan ∨ Y.isSnan then fNV else 0
    (X.isNan ∨ Y.isNan → nan (.fadd p d fmt rnd a b) sig ∧ nan (.fsub p d fmt rnd a b) sig ∧ nan (.fmul p d fmt rnd a b) sig ∧
      nan (.fdiv p d fmt rnd a b) sig ∧
      FpGives s cx (.fcmpEq p d fmt a b) d (.pred false) sig 15 ∧ FpGives s cx (.fcmpUn p d fmt a b) d (.pred true) sig 15 ∧
      FpGives s cx (.fcmpLt p d fmt a b) d (.pred false) fNV 15 ∧ FpGives s cx (.fcmpLe p d fmt a b) d (.pred false) fNV 15 ∧
      FpGives s cx (.fcmpEqs p d fmt a b) d (.pred false) fNV 15) ∧
    (X.isNan → nan (.fsqrt p d fmt rnd a) (if X.isSnan then fNV else 0)) ∧
    (∀ n, X = .inf n → Y = .inf (!n) → nan (.fadd p d fmt rnd a b) fNV) ∧
    (∀ n, X = .inf n → Y = .inf n → nan (.fsub p d fmt rnd a b) fNV) ∧
    (X.isZero → Y.isInf → nan (.fmul p d fmt rnd a b) fNV) ∧
    (X.isInf → Y.isZero → nan (.fmul p d fmt rnd a b) fNV) ∧
    (X.isZero → Y.isZero → nan (.fdiv p d fmt rnd a b) fNV) ∧
    (X.isInf → Y.isInf → nan (.fdiv p d fmt rnd a b) fNV) ∧
    (X.isFin → X.isZero = false → Y.isZero →
      FpGives s cx (.fdiv p d fmt rnd a b) d (.fp ⟨f.inf (X.neg != Y.neg), 0⟩) fDZ 15) ∧
    (X.neg → X.isZero = false → nan (.fsqrt p d fmt rnd a) fNV) ∧
    (∀ n, let inf := fun (i : Instr) => FpGives s cx i d (.fp ⟨f.inf n, 0⟩) 0 15
      (X = .inf n → Y.isFin ∨ Y = .inf n → inf (.fadd p d fmt rnd a b)) ∧ (Y = .inf n → X.isFin → inf (.fadd p d fmt rnd a b)) ∧
      (X = .inf n → Y.isFin ∨ Y = .inf (!n) → inf (.fsub p d fmt rnd a b)) ∧ (Y = .inf (!n) → X.isFin → inf (.fsub p d fmt rnd a b)) ∧
      (X.isInf ∨ Y.isInf → X.isNan = false → Y.isNan = false → X.isZero = false → Y.isZero = false → n = (X.neg != Y.neg) →
        inf (.fmul p d fmt rnd a b)) ∧
      (X.isInf → Y.isFin → n = (X.neg != Y.neg) → inf (.fdiv p d fmt rnd a b)) ∧
      (X = .inf false → n = false → inf (.fsqrt p d fmt rnd a)))) ∧
 (∀ (f : FpFmt) (r : Rnd) (xn yn zn : Bool) (xm ym zm : Nat) (xe ye ze : Int) (sx sy sz : Nat) (neg : Bool), f ∈ withInf → r ≠ .dyn →
    let A := FVal.fin xn xm xe
    let B := FVal.fin yn ym ye
    let C := FVal.fin zn zm ze
    let X := A.real
    let Y := B.real
    let Z := C.real
    (zeroSign r X xn Y yn neg → f.Sum r X sx Y sy neg (fpAdd f r A sx B sy)) ∧
    (zeroSign r X xn (-Y) (!yn) neg → f.Sum r X sx (-Y) sy neg (fpAdd f r A sx B.flip sy)) ∧
    (zeroSign r (X * Y) (xn != yn) Z zn neg → f.Sum r (X * Y) (min sx sy) Z sz neg (fpFma f r A sx B sy C sz)) ∧
    f.Result r (X * Y) (xn != yn) (min sx sy) (fpMul f r A sx B sy) ∧
    (Y ≠ 0 → f.Result r (X / Y) (xn != yn) (min sx sy) (fpDiv f r A sx B sy)) ∧
    (∀ n, let q := fpDiv f r A sx (.inf n) sy
      (f.dec q.bits.toNat).isZero = true ∧ (f.dec q.bits.toNat).neg = (xn != n) ∧ q.flags = 0 ∧ q.tag = min sx sy) ∧
    (0 < X → f.Result r (Real.sqrt X) false (min (sx + 1) f.p) (fpSqrt f r A sx)) ∧
    (X = 0 → f.Result r 0 xn (min (sx + 1) f.p) (fpSqrt f r A sx)) ∧
    f.Result r X xn (min sx f.p) (fpCvt f r A sx) ∧
    (∀ v : Int, f.Result r v false f.p (intToFp f r v)) ∧
    (∀ lo hi : Int, lo ≤ hi → ∃ k : Nat, Nearest r xn |X| k ∧
      let n : Int := if xn then -(k : Int) else k
      let q := fpToInt r lo hi A
      (n < lo → q = (lo, fNV)) ∧ (hi < n → q = (hi, fNV)) ∧
      (lo ≤ n → n ≤ hi → ((n : ℝ) = X → q = (n, 0)) ∧ ((n : ℝ) ≠ X → q = (n, fNX)))) ∧
    ((fpCmp .eq A B).1 = true ↔ X = Y) ∧ ((fpCmp .eqs A B).1 = true ↔ X = Y) ∧ ((fpCmp .lt A B).1 = true ↔ X < Y) ∧
    ((fpCmp .le A B).1 = true ↔ X ≤ Y) ∧ (∀ k, (fpCmp k A B).2 = 0) ∧ (fpCmp .un A B).1 = false ∧
    (∀ xb yb : BitVec 64, f.dec xb.toNat = A → f.dec yb.toNat = B →
      let below := X < Y ∨ (X = Y ∧ xn = true ∧ yn = false)
      let above := Y < X ∨ (X = Y ∧ xn = false ∧ yn = true)
      let pick := fun (big mg : Bool) (first : Prop) =>
        (first → fpMnx f big mg xb sx yb sy = ⟨xb, 0, sx⟩) ∧ (¬first → fpMnx f big mg xb sx yb sy = ⟨yb, 0, sy⟩)
      pick true false (¬below) ∧ pick false false (¬above) ∧
      pick true true (|Y| < |X| ∨ (|X| = |Y| ∧ ¬below)) ∧ pick false true (|X| < |Y| ∨ (|X| = |Y| ∧ ¬above))))

/-- R49, R50, R136, R138, R221, R280 and R397: every form whose FP results are checked, when one of them is finite with a tag below the
threshold. With the trap enabled the slot has found SIG, which aborts the block with the cycle, names the slot and the lowest such lane, and
carries its tag and value; with it disabled the result stands and SIGLOST is set at the commit. The lanes that trigger are counted. A slot that
clashes with an executed one is DECODE, but where SIG is raised, which comes first by the model's choice (log 73). The forms are the scalar
arithmetic, conversions and approximations, the lane-wise arithmetic, the activations, the widening, integer and narrowing conversions, the
reductions, the dequantisations, and DRN on a row it may read. -/
def Obligations.SignificanceTriggers : Prop :=
   (∀ (s : State) (cx : Cx) (p : Pred) (d : Dst) (a b c e : Opnd) (x y z : FReg) (n : BitVec 64) (fmt src : Fmt) (rnd : Rnd),
      s.runs cx p → cx.fp a = .val x → cx.fp b = .val y → cx.fp c = .val z → cx.int e = .val n →
      let f := fmtOf fmt
      let m := cx.task.mode rnd
      let X := x.read f
      let Y := y.read f
      let Z := z.read f
      let sig := fun (i : Instr) (r : FpRes) => TriggersFp s cx i d f r 15
      sig (.fadd p d fmt rnd a b) (fpAdd f m X.1 X.2 Y.1 Y.2) ∧ sig (.fsub p d fmt rnd a b) (fpAdd f m X.1 X.2 Y.1.flip Y.2) ∧
      sig (.fmul p d fmt rnd a b) (fpMul f m X.1 X.2 Y.1 Y.2) ∧ sig (.ffma p d fmt rnd a b c) (fpFma f m X.1 X.2 Y.1 Y.2 Z.1 Z.2) ∧
      sig (.fdiv p d fmt rnd a b) (fpDiv f m X.1 X.2 Y.1 Y.2) ∧ sig (.fsqrt p d fmt rnd a) (fpSqrt f m X.1 X.2) ∧
      sig (.fcvt p d fmt src rnd a) (fpCvt f m (x.read (fmtOf src)).1 (x.read (fmtOf src)).2) ∧
      sig (.fcviSf p d fmt rnd e) (intToFp f m n.toInt) ∧ sig (.fcviUf p d fmt rnd e) (intToFp f m n.toNat) ∧
      sig (.frcp p d fmt a) (fpRcp f X.1 X.2) ∧ sig (.frsq p d fmt a) (fpRsq f X.1 X.2) ∧
      sig (.fex2 p d fmt a) (fpEx2 f X.1 X.2) ∧ sig (.flg2 p d fmt a) (fpLg2 f X.1 X.2)) ∧
   (∀ (s : State) (cx : Cx) (p : Pred) (d : Dst) (a b c e : Opnd) (x y z : VReg) (w : FReg) (rnd : Rnd) (hi : Bool),
      s.runs cx p → cx.vec a = .val x → cx.vec b = .val y → cx.vec c = .val z → cx.fp e = .val w →
      let m := cx.task.mode rnd
      let W := w.read fp32
      let sig := fun (i : Instr) (r : Nat → FpRes) => TriggersVec s cx i d r
      let each := fun (i : Instr) (f : FVal → Nat → FpRes) => sig i (fun k => f (x.f32 k).1 (x.f32 k).2)
      let wide := fun (i : Instr) (f : FpFmt) => sig i (fun k => fpCvt fp32 .rne (f.dec (elemAt x.lanes f.width k)) f.p)
      let dq := fun (i : Instr) (k : Elem) => sig i (fun j => dequantScaled k W.1 W.2 (elemAt x.lanes k.width j))
      let mxdq := fun (i : Instr) (k : Elem) =>
        sig i (fun j => dequantMx k ((x.lane 8).toNat % 256) (elemAt x.lanes k.width (if hi then 16 + j else j)))
      sig (.vadd p d (.f32 rnd) a b) (fun i => fpAdd fp32 m (x.f32 i).1 (x.f32 i).2 (y.f32 i).1 (y.f32 i).2) ∧
      sig (.vsub p d (.f32 rnd) a b) (fun i => fpAdd fp32 m (x.f32 i).1 (x.f32 i).2 (y.f32 i).1.flip (y.f32 i).2) ∧
      sig (.vmul p d (.f32 rnd) a b) (fun i => fpMul fp32 m (x.f32 i).1 (x.f32 i).2 (y.f32 i).1 (y.f32 i).2) ∧
      sig (.vfma p d (.f32 rnd) a b c) (fun i => fpFma fp32 m (x.f32 i).1 (x.f32 i).2 (y.f32 i).1 (y.f32 i).2 (z.f32 i).1 (z.f32 i).2) ∧
      sig (.vscl p d (.f32 rnd) a e) (fun i => fpMul fp32 m (x.f32 i).1 (x.f32 i).2 W.1 W.2) ∧
      sig (.vactRelu p d a) (fun i => reluRes (x.f32 i).1 (x.lane i) (x.f32 i).2) ∧
      each (.vactGelt p d a) (vAct geltOf fp32.zero 0x80000000 0x7F800000) ∧ each (.vactSilu p d a) (vAct siluOf fp32.zero 0x80000000 0x7F800000) ∧
      each (.vactExp p d a) (vAct expOf (fun _ => 0x3F800000) 0 0x7F800000) ∧ each (.vactTanh p d a) (vAct tanhOf fp32.zero 0xBF800000 0x3F800000) ∧
      each (.vactSigm p d a) (vAct sigmOf (fun _ => 0x3F000000) 0 0x3F800000) ∧ each (.vactRcp p d a) (fpRcp fp32) ∧
      each (.vactRsq p d a) (fpRsq fp32) ∧
      wide (.vcvtF32Bf16 p d a) bf16 ∧ wide (.vcvtF32F16 p d a) fp16 ∧ wide (.vcvtF32E5m2 p d a) e5m2 ∧ wide (.vcvtF32E4m3 p d a) e4m3 ∧
      sig (.vcvtF32I32 p d a) (fun i => intToFp fp32 .rne (x.lane i).toInt) ∧
      dq (.vdqE4m3Sat p d a e) .e4m3 ∧ dq (.vdqE4m3Nan p d a e) .e4m3 ∧ dq (.vdqInt8 p d a e) .int8 ∧ dq (.vdqInt4 p d a e) .int4 ∧
      mxdq (.vdqMxfp4 p d hi a) .e2m1 ∧ mxdq (.vdqMxint8 p d hi a) .mxint8 ∧ mxdq (.vdqMxfp8 p d hi a) .e4m3) ∧
   (∀ (s : State) (cx : Cx) (p : Pred) (d : Dst) (a : Opnd) (x : VReg), s.runs cx p → cx.vec a = .val x →
      let leaf := fun i => (⟨(x.lane i).zeroExtend 64, 0, x.tag32 i⟩ : FpRes)
      let tree := fun (f : FpRes → FpRes → FpRes) =>
        f (f (f (f (leaf 0) (leaf 1)) (f (leaf 2) (leaf 3))) (f (f (leaf 4) (leaf 5)) (f (leaf 6) (leaf 7))))
          (f (f (f (leaf 8) (leaf 9)) (f (leaf 10) (leaf 11))) (f (f (leaf 12) (leaf 13)) (f (leaf 14) (leaf 15))))
      let sig := fun (i : Instr) (r : FpRes) => TriggersFp s cx i d fp32 r 16
      let packs := fun (i : Instr) (f : FpFmt) =>
        let r := fun k => fpCvt f .rne (x.f32 k).1 (x.f32 k).2
        Triggers s (s.bump cx.p 16 1) cx i
          { val := some (.vec (packedVec f.width ((lanes16 r).map (fun r => r.bits.toNat)))), dst := d, flags := flagsOf (lanes16 r) }
          (lanes16 (fun k => ⟨k, (f.dec (r k).bits.toNat).isFin, (r k).tag,
            (fpCvt fp32 .rne (f.dec (r k).bits.toNat) 0).bits.extractLsb' 0 32⟩))
      sig (.vredSum p d a) (tree redAdd) ∧ sig (.vredMax p d a) (tree (redMnx true false)) ∧ sig (.vredMin p d a) (tree (redMnx false false)) ∧
      sig (.vredAmax p d a) { tree redAmax with bits := (tree redAmax).bits &&& 0x7FFFFFFF } ∧
      packs (.vcvtBf16F32 p d a) bf16 ∧ packs (.vcvtF16F32 p d a) fp16 ∧ packs (.vcvtE5m2F32 p d a) e5m2) ∧
   (∀ (s : State) (cx : Cx) (p : Pred) (d : Dst) (a : Opnd) (x : BitVec 64) (n : Nat), s.runs cx p → cx.int a = .val x →
      let t := x.toNat % 16
      cx.lowerRows t = .val n →
      let u := (s.plot cx.p).fu
      let y := u.tile t
      let cur := cx.blk.curOf t y.cur
      let r := cur + n
      let v := u.drainRow (y.base + r)
      let sig := fun (i : Instr) (pop : Option Pop) =>
        Triggers s s cx i { val := some (.vec v), dst := d, pop := pop }
          (lanes16 (fun k => ⟨k, (fp32.dec (v.lane k).toNat).isFin, (v.tag k).toNat, v.lane k⟩))
      u.south? = true → s.fieldOf cx.p ≠ none → y.rows ≠ 0 → y.auto = false → r < y.rows → (∀ m, u.prow t = some m → r < m) →
        sig (.drnPeek p d a) none ∧
        (y.st = .full → sig (.drnPop p d a) (some (.tile t r false cur)) ∧ sig (.drnLast p d a) (some (.tile t r true cur))))

/-! ## Vectors -/

/-- R137, R138, R140, R145 and R146: the lane-wise forms with FP32 results. Each completes with sixteen results, lane by lane the scalar
function of the lanes and tags read, and the OR of their flags, unless the significance of a lane triggers; the INT32 forms wrap and are not
checked. R138, R142 and R146: the reductions give the tree of R45 over the lanes, of which the final scalar alone is checked, and the
narrowing conversions pack sixteen elements, checked with the tags that they would carry unpacked. That a signalling NaN of a narrow format raises
NV when it is converted, E5M2 among them, is the model's reading (log 33); that GELT, SILU and TANH of a zero keep its sign, and that an infinity which
MAX, MIN or AMAX picks has tag 0, are the choices of log 67. -/
def Obligations.VectorArithmeticAndReductions : Prop :=
   (∀ (s : State) (cx : Cx) (p : Pred) (d : Dst) (a b c e g : Opnd) (x y z : VReg) (w : FReg) (n : BitVec 64) (rnd : Rnd),
      s.runs cx p → cx.free { dst := d } → cx.vec a = .val x → cx.vec b = .val y → cx.vec c = .val z → cx.fp e = .val w →
      cx.int g = .val n →
      let m := cx.task.mode rnd
      let W := w.read fp32
      let lanes := fun (i : Instr) (r : Nat → FpRes) => GivesVec s cx i d r
      let ints := fun (i : Instr) (r : Nat → BitVec 32) => GivesPlain s cx i d (.vec (intVec r)) 0
      let wide := fun (i : Instr) (f : FpFmt) => lanes i (fun k => fpCvt fp32 .rne (f.dec (elemAt x.lanes f.width k)) f.p)
      lanes (.vadd p d (.f32 rnd) a b) (fun i => fpAdd fp32 m (x.f32 i).1 (x.f32 i).2 (y.f32 i).1 (y.f32 i).2) ∧
      lanes (.vsub p d (.f32 rnd) a b) (fun i => fpAdd fp32 m (x.f32 i).1 (x.f32 i).2 (y.f32 i).1.flip (y.f32 i).2) ∧
      lanes (.vmul p d (.f32 rnd) a b) (fun i => fpMul fp32 m (x.f32 i).1 (x.f32 i).2 (y.f32 i).1 (y.f32 i).2) ∧
      lanes (.vfma p d (.f32 rnd) a b c)
        (fun i => fpFma fp32 m (x.f32 i).1 (x.f32 i).2 (y.f32 i).1 (y.f32 i).2 (z.f32 i).1 (z.f32 i).2) ∧
      lanes (.vscl p d (.f32 rnd) a e) (fun i => fpMul fp32 m (x.f32 i).1 (x.f32 i).2 W.1 W.2) ∧
      ints (.vadd p d .i32 a b) (fun i => BitVec.ofNat 32 ((x.lane i).toNat + (y.lane i).toNat)) ∧
      ints (.vsub p d .i32 a b) (fun i => BitVec.ofInt 32 ((x.lane i).toInt - (y.lane i).toInt)) ∧
      ints (.vmul p d .i32 a b) (fun i => BitVec.ofNat 32 ((x.lane i).toNat * (y.lane i).toNat)) ∧
      ints (.vfma p d .i32 a b c) (fun i => BitVec.ofNat 32 ((x.lane i).toNat * (y.lane i).toNat + (z.lane i).toNat)) ∧
      ints (.vscl p d .i32 a g) (fun i => BitVec.ofNat 32 ((x.lane i).toNat * n.toNat)) ∧
      lanes (.vactRelu p d a) (fun i => reluRes (x.f32 i).1 (x.lane i) (x.f32 i).2) ∧
      lanes (.vactGelt p d a) (fun i => vAct geltOf fp32.zero 0x80000000 0x7F800000 (x.f32 i).1 (x.f32 i).2) ∧
      lanes (.vactSilu p d a) (fun i => vAct siluOf fp32.zero 0x80000000 0x7F800000 (x.f32 i).1 (x.f32 i).2) ∧
      lanes (.vactExp p d a) (fun i => vAct expOf (fun _ => 0x3F800000) 0 0x7F800000 (x.f32 i).1 (x.f32 i).2) ∧
      lanes (.vactTanh p d a) (fun i => vAct tanhOf fp32.zero 0xBF800000 0x3F800000 (x.f32 i).1 (x.f32 i).2) ∧
      lanes (.vactSigm p d a) (fun i => vAct sigmOf (fun _ => 0x3F000000) 0 0x3F800000 (x.f32 i).1 (x.f32 i).2) ∧
      lanes (.vactRcp p d a) (fun i => fpRcp fp32 (x.f32 i).1 (x.f32 i).2) ∧
      lanes (.vactRsq p d a) (fun i => fpRsq fp32 (x.f32 i).1 (x.f32 i).2) ∧
      wide (.vcvtF32Bf16 p d a) bf16 ∧ wide (.vcvtF32F16 p d a) fp16 ∧ wide (.vcvtF32E5m2 p d a) e5m2 ∧
      wide (.vcvtF32E4m3 p d a) e4m3 ∧
      lanes (.vcvtF32I32 p d a) (fun i => intToFp fp32 .rne (x.lane i).toInt) ∧
      GivesPlain s cx (.vcvtI32F32 p d a) d
        (.vec (intVec (fun i => BitVec.ofInt 32 (fpToInt .rne (-(2 ^ 31)) (2 ^ 31 - 1) (x.f32 i).1).1)))
        ((lanes16 (fun i => fpToInt .rne (-(2 ^ 31)) (2 ^ 31 - 1) (x.f32 i).1)).foldl (fun u q => u ||| q.2) 0)) ∧
   (∀ (s : State) (cx : Cx) (p : Pred) (d : Dst) (a : Opnd) (x : VReg),
      s.runs cx p → cx.free { dst := d } → cx.vec a = .val x →
      let leaf := fun i => (⟨(x.lane i).zeroExtend 64, 0, x.tag32 i⟩ : FpRes)
      let tree := fun (f : FpRes → FpRes → FpRes) =>
        f (f (f (f (leaf 0) (leaf 1)) (f (leaf 2) (leaf 3))) (f (f (leaf 4) (leaf 5)) (f (leaf 6) (leaf 7))))
          (f (f (f (leaf 8) (leaf 9)) (f (leaf 10) (leaf 11))) (f (f (leaf 12) (leaf 13)) (f (leaf 14) (leaf 15))))
      let gives := fun (i : Instr) (r : FpRes) => cx.quiet [r.checked fp32] → FpGives s cx i d (.fp r.reg) r.flags 16
      let packs := fun (i : Instr) (f : FpFmt) =>
        let rs := lanes16 (fun k => fpCvt f .rne (x.f32 k).1 (x.f32 k).2)
        (∀ k < 16, ∀ r, rs[k]? = some r → (f.dec r.bits.toNat).isFin = true → cx.task.theta ≤ r.tag) →
          FpGives s cx i d (.vec (packedVec f.width (rs.map (fun r => r.bits.toNat)))) (flagsOf rs) 16
      gives (.vredSum p d a) (tree redAdd) ∧
      gives (.vredMax p d a) (tree (redMnx true false)) ∧
      gives (.vredMin p d a) (tree (redMnx false false)) ∧
      gives (.vredAmax p d a) { tree redAmax with bits := (tree redAmax).bits &&& 0x7FFFFFFF } ∧
      packs (.vcvtBf16F32 p d a) bf16 ∧ packs (.vcvtF16F32 p d a) fp16 ∧ packs (.vcvtE5m2F32 p d a) e5m2)

/-- R126, R129, R141, R143, R144 and R151: the selections, comparisons, permutations, logic and shifts of lanes, lane by lane, with the tags they
keep. The FP32 comparisons raise the OR of what the scalar comparison raises on each pair of lanes. A lane that VSEL, VPERM and VSHR move has its tag
read by R42, one that VEXT and VINS move its tag as stored; that VSEL, VBC, VPERM, VEXT, VINS and VSHR keep the tag of a NaN or infinity, and that VMNX gives
one tag 0, are the choices of log 67. -/
def Obligations.VectorLanes : Prop :=
  ∀ (s : State) (cx : Cx) (p : Pred) (d : Dst) (a b c e g : Opnd) (x y : VReg) (w : FReg) (n : BitVec 64) (q : BitVec 16) (l : BitVec 4),
    s.runs cx p → cx.free { dst := d } → cx.vec a = .val x → cx.vec b = .val y → cx.fp e = .val w → cx.int g = .val n →
    cx.mask c = .val q →
    let vec := fun (i : Instr) (v : VReg) => GivesPlain s cx i d (.vec v) 0
    let ints := fun (i : Instr) (r : BitVec 32 → BitVec 32 → BitVec 32) => vec i (intVec (fun k => r (x.lane k) (y.lane k)))
    let cmp := fun (k : VCmpOp) (r : BitVec 32 → BitVec 32 → Bool) =>
      ∃ m : BitVec 16, GivesPlain s cx (.vcmp p d k a b) d (.mask m) 0 ∧ ∀ i < 16, m.getLsbD i = r (x.lane i) (y.lane i)
    let cmpF := fun (k : VCmpOp) (r : FCmp) =>
      ∃ m : BitVec 16, ∃ fl : FFlags, GivesPlain s cx (.vcmp p d k a b) d (.mask m) fl ∧
        (∀ j < 5, fl.getLsbD j = true ↔ ∃ i < 16, (fpCmp r (x.f32 i).1 (y.f32 i).1).2.getLsbD j = true) ∧
        ∀ i < 16, m.getLsbD i = (fpCmp r (x.f32 i).1 (y.f32 i).1).1
    let mnx := fun (k : VMnxOp) (big mg : Bool) =>
      let r := lanes16 (fun i => fpMnx fp32 big mg ((x.lane i).zeroExtend 64) (x.tag32 i) ((y.lane i).zeroExtend 64) (y.tag32 i))
      GivesPlain s cx (.vmnx p d k a b) d (.vec (vecOf r)) (flagsOf r)
    mnx .fmin false false ∧ mnx .fmax true false ∧ mnx .fminm false true ∧ mnx .fmaxm true true ∧
    ints (.vmnx p d .mins a b) (fun u v => if u.toInt ≤ v.toInt then u else v) ∧
    ints (.vmnx p d .maxs a b) (fun u v => if u.toInt ≤ v.toInt then v else u) ∧
    ints (.vmnx p d .minu a b) (fun u v => if u.toNat ≤ v.toNat then u else v) ∧
    ints (.vmnx p d .maxu a b) (fun u v => if u.toNat ≤ v.toNat then v else u) ∧
    cmpF .feq .eq ∧ cmpF .flt .lt ∧ cmpF .fle .le ∧ cmpF .fun_ .un ∧
    cmp .eq (fun u v => decide (u = v)) ∧ cmp .lts (fun u v => decide (u.toInt < v.toInt)) ∧
    cmp .les (fun u v => decide (u.toInt ≤ v.toInt)) ∧ cmp .ltu (fun u v => decide (u.toNat < v.toNat)) ∧
    cmp .leu (fun u v => decide (u.toNat ≤ v.toNat)) ∧
    vec (.vselSet p d a c) (VReg.mk16 (fun i => if q.getLsbD i then x.lane i else 0) (fun i => if q.getLsbD i then min (x.tag i).toNat 24 else 24)) ∧
    vec (.vselClr p d a c) (VReg.mk16 (fun i => if q.getLsbD i then 0 else x.lane i) (fun i => if q.getLsbD i then 24 else min (x.tag i).toNat 24)) ∧
    vec (.vbc p d .f32 e) (VReg.mk16 (fun _ => w.bits.extractLsb' 0 32) (fun _ => min w.tag.toNat 24)) ∧
    vec (.vbc p d .i32 g) (intVec (fun _ => n.extractLsb' 0 32)) ∧
    vec (.vperm p d a b) (VReg.mk16 (fun i => x.lane ((y.lane i).toNat % 16)) (fun i => min (x.tag ((y.lane i).toNat % 16)).toNat 24)) ∧
    GivesPlain s cx (.vext p d .f32 a g) d (.fp ⟨(x.lane (n.toNat % 16)).zeroExtend 64, x.tag (n.toNat % 16)⟩) 0 ∧
    GivesPlain s cx (.vext p d .i32 a g) d (.int ((x.lane (n.toNat % 16)).signExtend 64)) 0 ∧
    vec (.vins p d .f32 l a e) (VReg.mk16 (fun i => if i = l.toNat then w.bits.extractLsb' 0 32 else x.lane i)
      (fun i => if i = l.toNat then min w.tag.toNat 24 else (x.tag i).toNat)) ∧
    vec (.vins p d .i32 l a g) (VReg.mk16 (fun i => if i = l.toNat then n.extractLsb' 0 32 else x.lane i)
      (fun i => if i = l.toNat then 0 else (x.tag i).toNat)) ∧
    vec (.vidx p d) (intVec (fun i => BitVec.ofNat 32 i)) ∧
    vec (.vshr p d a g) (VReg.mk16 (fun i => if i + n.toNat < 16 then x.lane (i + n.toNat) else 0)
      (fun i => if i + n.toNat < 16 then min (x.tag (i + n.toNat)).toNat 24 else 0)) ∧
    ints (.vand p d a b) (fun u v => u &&& v) ∧ ints (.vor p d a b) (fun u v => u ||| v) ∧ ints (.vxor p d a b) (fun u v => u ^^^ v) ∧
    ints (.vshl p d a b) (fun u v => BitVec.ofNat 32 (u.toNat * 2 ^ (v.toNat % 32))) ∧
    ints (.vshrl p d a b) (fun u v => BitVec.ofNat 32 (u.toNat / 2 ^ (v.toNat % 32))) ∧
    ints (.vsra p d a b) (fun u v => BitVec.ofInt 32 (u.toInt / 2 ^ (v.toNat % 32))) ∧
    vec (.vsigRd p d a) (intVec (fun i => BitVec.ofNat 32 (min (x.tag i).toNat 24))) ∧
    vec (.vsigMin p d a g) (VReg.mk16 x.lane
      (fun i => if (x.f32 i).1.isFin then min (min (x.tag i).toNat 24) (min 24 n.toInt.toNat) else 0)) ∧
    ∃ m : BitVec 16, GivesPlain s cx (.vsigLt p d a g) d (.mask m) 0 ∧
      ∀ i < 16, m.getLsbD i = decide ((min (x.tag i).toNat 24 : Nat) < n.toInt)

/-- R30, R38 and R147 to R150: quantisation with a scale and into MX blocks, whose results are packed and not checked, and dequantisation, whose
lanes are checked. Every form completes for every operand. An element is the exact quotient rounded once with RNE, saturated or the NaN beyond
E4M3's range, clamped for the integers, with its flags; a NaN or infinite lane raises NV; a scale that is not positive and finite makes every
element 0x7F or 0. An MX block of finite values, not all zero, takes the scale clamp(floor(log2 amax) - emax + 127, 0, 254); an all-zero block
and one with a NaN or infinity are zeros with E 0 and 0xFF. Dequantisation is the exact product rounded once, with the tag of R44. -/
def Obligations.VectorQuantisation : Prop :=
 (∀ (s : State) (cx : Cx) (p : Pred) (d : Dst) (a b e : Opnd) (x y : VReg) (w : FReg) (hi : Bool),
    s.runs cx p → cx.free { dst := d } → cx.vec a = .val x → cx.vec b = .val y → cx.fp e = .val w →
    let S := w.read fp32
    let X := lanes16 (fun i => (x.f32 i).1)
    let qnt := fun (i : Instr) (k : Elem) (nan : Bool) =>
      GivesPlain s cx i d (.vec (packedVec k.width (quantScaled k nan S.1 X).1)) (quantScaled k nan S.1 X).2
    let mx := fun (i : Instr) (k : Elem) =>
      let r := quantBlock k (X ++ lanes16 (fun i => (y.f32 i).1))
      GivesPlain s cx i d (.vec ⟨BitVec.ofNat 512 (packElems k.width r.1 + r.2.1 * 2 ^ 256), 0⟩) r.2.2
    let dq := fun (i : Instr) (k : Elem) => GivesVec s cx i d (fun j => dequantScaled k S.1 S.2 (elemAt x.lanes k.width j))
    let mxdq := fun (i : Instr) (k : Elem) => GivesVec s cx i d
      (fun j => dequantMx k ((x.lane 8).toNat % 256) (elemAt x.lanes k.width (if hi then 16 + j else j)))
    qnt (.vqntE4m3Sat p d a e) .e4m3 false ∧ qnt (.vqntE4m3Nan p d a e) .e4m3 true ∧ qnt (.vqntInt8 p d a e) .int8 false ∧
    qnt (.vqntInt4 p d a e) .int4 false ∧
    mx (.vqntMxfp4 p d a b) .e2m1 ∧ mx (.vqntMxint8 p d a b) .mxint8 ∧ mx (.vqntMxfp8 p d a b) .e4m3 ∧
    dq (.vdqE4m3Sat p d a e) .e4m3 ∧ dq (.vdqE4m3Nan p d a e) .e4m3 ∧ dq (.vdqInt8 p d a e) .int8 ∧ dq (.vdqInt4 p d a e) .int4 ∧
    mxdq (.vdqMxfp4 p d hi a) .e2m1 ∧ mxdq (.vdqMxint8 p d hi a) .mxint8 ∧ mxdq (.vdqMxfp8 p d hi a) .e4m3) ∧
 (∀ (k : Elem) (nan : Bool) (S : FVal) (xs : List FVal), (k = .e4m3 ∨ k = .int8 ∨ k = .int4) → (nan = true → k = .e4m3) →
    ((S.isFin = false ∨ S.real ≤ 0) → quantScaled k nan S xs = (xs.map (fun _ => if k = .e4m3 then 0x7F else 0), fNV)) ∧
    (S.isFin = true → 0 < S.real → ∃ rs : List (Nat × Bool × FFlags), rs.length = xs.length ∧
      quantScaled k nan S xs = (rs.map (fun q => q.1), rs.foldl (fun a q => a ||| q.2.2) 0) ∧
      ∀ (i : Nat) (x : FVal) (q : Nat × Bool × FFlags), xs[i]? = some x → rs[i]? = some q →
        (x.isFin = true → k.Quantised nan (x.real / S.real) x.neg q) ∧
        (x.isFin = false → q.2.2 = fNV) ∧
        (x.isNan = true → q.1 = if k = .e4m3 then 0x7F else 0) ∧
        (∀ n, x = .inf n → q.1 = if k = .e4m3 then (if nan then 0x7F else if n then 0xFE else 0x7E)
          else if k = .int8 then (if n then 0x81 else 127) else (if n then 9 else 7)))) ∧
 (∀ (k : Elem) (xs : List FVal), (k = .e2m1 ∨ k = .e4m3 ∨ k = .mxint8) →
    ((∃ x ∈ xs, x.isFin = false) → quantBlock k xs = (xs.map (fun _ => 0), 0xFF, fNV)) ∧
    ((∀ x ∈ xs, x.isZero = true) → quantBlock k xs = (xs.map (fun _ => 0), 0, 0)) ∧
    ((∀ x ∈ xs, x.isFin = true) → (∃ x ∈ xs, x.real ≠ 0) → ∃ (t : Int) (rs : List (Nat × Bool × FFlags)),
      (∀ x ∈ xs, x.real ≠ 0 → expoOf x.real ≤ t) ∧ (∃ x ∈ xs, x.real ≠ 0 ∧ expoOf x.real = t) ∧
      let e : Int := max 0 (min 254 (t - k.emax + 127))
      rs.length = xs.length ∧ quantBlock k xs = (rs.map (fun q => q.1), e.toNat, if rs.any (fun q => q.2.1) then fNX else 0) ∧
      ∀ (i : Nat) (x : FVal) (q : Nat × Bool × FFlags), xs[i]? = some x → rs[i]? = some q →
        k.Quantised false (x.real / 2 ^ (e - 127)) x.neg q)) ∧
 (∀ (k : Elem) (S : FVal) (ss x e : Nat),
    ((k.dec x).isFin = true → S.isFin = true →
      fp32.Result .rne ((k.dec x).real * S.real) ((k.dec x).neg != S.neg) (min k.prec (min ss 24)) (dequantScaled k S ss x)) ∧
    ((k.dec x).isFin = true → e < 255 → fp32.Result .rne ((k.dec x).real * 2 ^ ((e : Int) - 127)) (k.dec x).neg k.prec (dequantMx k e x)) ∧
    (dequantMx k 255 x = ⟨fp32.qnan, fNV, 0⟩) ∧ ((k.dec x).isFin = false → dequantMx k e x = ⟨fp32.qnan, fNV, 0⟩))

/-! ## Memory -/

/-- R187 and R189: PTR sets the cursor and PADD moves it, modulo 2^40; CDER narrows a pointer it may narrow and faults otherwise, CAPT before
CAPR before CAPB; CGET gives the fields as they are; a probe is false exactly where a one-byte access would fault. -/
def Obligations.PointerForms : Prop :=
  ∀ (s : State) (cx : Cx) (p : Pred) (d : Dst) (a b : Opnd) (q : Ptr) (x : BitVec 64),
    s.runs cx p → cx.free { dst := d } → cx.ptr a = .val q → cx.int b = .val x →
    let len := x.toNat % 2 ^ 40
    Gives s cx (.ptr p d a b) d (.ptr { q with cur := BitVec.ofNat 40 x.toNat }) ∧
    Gives s cx (.padd p d a b) d (.ptr { q with cur := BitVec.ofInt 40 (q.cur.toNat + x.toInt) }) ∧
    (q.valid = false ∨ q.low ≠ 0 ∨ (q.isPhys = false ∧ 2 ^ 40 < q.base + q.len) → exec (.cder p d a b) s = .next (s.abortSlot cx { cause := .capt })) ∧
    (q.valid = true → q.low = 0 → q.isPhys = true ∨ q.base + q.len ≤ 2 ^ 40 →
      (q.rights.getLsbD 7 = false ∨ q.isPhys = true → exec (.cder p d a b) s = .next (s.abortSlot cx { cause := .capr })) ∧
      (q.rights.getLsbD 7 = true → q.isPhys = false →
        (q.len < q.cur.toNat + len → exec (.cder p d a b) s = .next (s.abortSlot cx { cause := .capb })) ∧
        (q.cur.toNat + len ≤ q.len → Gives s cx (.cder p d a b) d
          (.ptr ⟨mkCap q.obj (q.rights &&& x.extractLsb' 40 8) (q.base + q.cur.toNat) len, 0, true⟩)))) ∧
    Gives s cx (.cget p d .cur a) d (.int (q.cur.zeroExtend 64)) ∧
    Gives s cx (.cget p d .base a) d (.int ((q.cap.extractLsb' 56 40).zeroExtend 64)) ∧
    Gives s cx (.cget p d .len a) d (.int ((q.cap.extractLsb' 16 40).zeroExtend 64)) ∧
    Gives s cx (.cget p d .idr a) d (.int ((q.cap.extractLsb' 96 32).zeroExtend 64)) ∧
    (∃ v, Gives s cx (.prbR p d a b) d (.pred v) ∧
      (v = false ↔ ∃ c, s.access (dieOf cx.p) cx.task.priv q x 1 0 rR false false = .bad c)) ∧
    ∃ v, Gives s cx (.prbW p d a b) d (.pred v) ∧
      (v = false ↔ ∃ c, s.access (dieOf cx.p) cx.task.priv q x 1 0 rW false false = .bad c)

/-- R156, R158, R168, R171, R178, R180, R183, R184 and R201: a plain load whose checks pass performs one of its remaining parts, after the
acquire effect of its first. A part is answered by the core's near cache if that holds its granule, else by its home, whose line a home
outside the core's own plot then fills; a poisoned home aborts the block. A part behind a host link that is down is free and posts an ENGINE
error record (R156, as log 64 reads it). With its last part the load completes, with the value its form makes of the bytes, or finds DECODE where
its D clashes. The homes stay those that its first part found (R214). Scope seq is left out here: such a load waits for the token. The order of the
parts, the lines a near cache holds, that POISON names the address alone, and that a NaN or infinity which FLS loads has tag 0 are the model's readings (logs
8, 9, 21 and 67). -/
def Obligations.PlainLoads : Prop :=
  ∀ (s : State) (cx : Cx) (p : Pred) (d : Dst) (mx : MX) (a b : Opnd) (q : Ptr) (off : BitVec 64) (sz : Size) (sgn : Bool) (fmt : Fmt)
    (tagged : Bool) (ps : List Piece) (h i n : Nat),
    s.runs cx p → cx.ptr a = .val q → cx.int b = .val off → cx.mustWait mx = false → mx.scope ≠ .seq →
    let left := ps.filter (fun y => !cx.sr.parts.contains y.2.1)
    left[cx.pick % left.length]? = some (h, i, n) →
    let s1 := if cx.sr.parts = [] then s.acquire cx mx else s
    let hit := if homeDist cx.p h = 0 then none else (s1.plot cx.p).near.find? (fun e => e.1 == h / 32 * 32)
    let lost := hit.isNone && s1.hostLost h
    let x := match hit with
      | some e => nearBytes e.2 h n
      | none => if lost then freeBits s1.free n else s1.rdNat h n
    let miss := cx.sr.smiss || (hit.isNone && !lost && s1.readerMismatch cx.p h mx.scope)
    let t := if hit.isSome then s1.bump cx.p 8 1
      else if lost then { s1 with free := s1.free + 4 }.lostAccess cx.p cx.t cx.blk.bpc cx.k h
      else if homeDist cx.p h = 0 then s1 else s1.nearLine cx.p h
    let X := cx.sr.acc ||| BitVec.ofNat 640 (x * 2 ^ (8 * i))
    let loads := fun (j : Instr) (size al : Nat) (v : Val) => s.found cx q off size al rR false ps →
        (hit = none → isHost h = false → (s1.sideAt h).poison = true →
          exec j s = .next (s1.abortSlot cx { cause := .poison, phys := BitVec.ofNat 64 h })) ∧
        (hit ≠ none ∨ isHost h = true ∨ (s1.sideAt h).poison = false →
          (cx.sr.parts.length + 1 ≠ ps.length →
            exec j s = .next (t.setSlot cx { cx.sr with
              acc := X, parts := i :: cx.sr.parts, smiss := miss, homes := (if q.isPhys then none else some q.obj, ps) })) ∧
          (cx.sr.parts.length + 1 = ps.length → Ends s ((if miss then t.bump cx.p 29 1 else t).bump cx.p 12 1) cx j
            { val := some v, dst := d, smiss := miss, acq := if miss then 0 else BitVec.twoPow 8 mx.stream.toNat }))
    let f := fmtOf fmt
    let fb := BitVec.ofNat 64 (X.toNat % 2 ^ f.width)
    let ft := if tagged then min (X.extractLsb' (if fmt = .f64 then 64 else 32) 6).toNat f.p else f.p
    (lost = true → ∀ (l : Launch) (hq : l.q < 8), s.launch? cx.task.launch = some l →
      (t.queues[l.q]).waiting = (s.queues[l.q]).waiting ++ [errWords 0x04 cx.p cx.t cx.task.launch cx.blk.bpc
        { cause := .engine, slot := cx.k, phys := BitVec.ofNat 64 h } (cx.task.leaving == .ended) (s.wtimeOf cx.p) 0]) ∧
    loads (.ld p d mx sz sgn a b) (sizeBytes sz) 0 (.int (if sgn then (X.extractLsb' 0 (8 * sizeBytes sz)).signExtend 64
      else (X.extractLsb' 0 (8 * sizeBytes sz)).zeroExtend 64)) ∧
    loads (.flsLd p d mx fmt tagged a b) (flsBytes fmt tagged) (if tagged then flsBytes fmt tagged else 0)
      (.fp ⟨fb, BitVec.ofNat 6 (if (f.dec fb.toNat).isFin then ft else 0)⟩) ∧
    loads (.vlsLd p d mx tagged a b) (if tagged then 80 else 64) (if tagged then 16 else 32)
      (.vec ⟨X.extractLsb' 0 512,
        BitVec.ofNat 96 (packTags (fun k => if tagged then min (X.extractLsb' (512 + 8 * k) 6).toNat 24 else 24) 16)⟩)

/-- R66, R168, R178, R180, R181, R183, R184 and R188: the loads that meet presence or a tag read the words of one home in one event, those of
the home that `pick` names (one event for each run of granules of one home is the model's reading, log 9). A poisoned one aborts the block. WAITF
and TAKE stall until every word of that home is full, on all the words not yet read, PRES reports whether they are, CLD takes the granule's TAG and
fills the near cache; TAKE also asks for its emptying at the commit. With the last home the load completes, or finds DECODE where its D clashes. Scope seq
is left out here: such a load waits for the token. That POISON names the address alone, and that a NaN or infinity which FLS loads has tag 0, are the readings
of logs 21 and 67. -/
def Obligations.PresenceLoads : Prop :=
  ∀ (s : State) (cx : Cx) (p : Pred) (d : Dst) (mx : MX) (a b : Opnd) (q : Ptr) (off : BitVec 64) (sz : Size) (sgn : Bool) (fmt : Fmt)
    (tagged : Bool) (ps : List Piece),
    s.runs cx p → cx.ptr a = .val q → cx.int b = .val off → cx.mustWait mx = false → mx.scope ≠ .seq →
    let left := ps.filter (fun y => !cx.sr.parts.contains y.2.1)
    ∀ y, left[cx.pick % left.length]? = some y →
    let now := left.filter (fun x => x.1 + y.2.1 == y.1 + x.2.1)
    let full := now.all (fun x => s.allFull x.1 x.2.2)
    let s1 := if cx.sr.parts = [] then s.acquire cx mx else s
    let X := cx.sr.acc ||| BitVec.ofNat 640 (now.foldl (fun m x => m + s.rdNat x.1 x.2.2 * 2 ^ (8 * x.2.1)) 0)
    let miss := cx.sr.smiss || now.any (fun x => s.readerMismatch cx.p x.1 mx.scope)
    let parts := now.map (fun x => x.2.1) ++ cx.sr.parts
    let bad := now.find? (fun x => (s.sideAt x.1).poison)
    let checked := fun (size al : Nat) (need : BitVec 8) => s.found cx q off size al need true ps
    let dies := fun (j : Instr) => ∀ x, bad = some x → exec j s = .next (s.abortSlot cx { cause := .poison, phys := BitVec.ofNat 64 x.1 })
    let ends := fun (j : Instr) (v : Val) (act : Option CAct) (t : State) => bad = none →
      (parts.length < ps.length → exec j s = .next (t.setSlot cx { cx.sr with
        acc := X, parts := parts, smiss := miss, gate := none, homes := (if q.isPhys then none else some q.obj, ps) })) ∧
      (ps.length ≤ parts.length → Ends s ((if miss then t.bump cx.p 29 1 else t).bump cx.p 12 1) cx j
        { val := some v, dst := d, smiss := miss, act := act, acq := if miss then 0 else BitVec.twoPow 8 mx.stream.toNat })
    let waits := fun (j : Instr) => bad = none → exec j s = .next (s.stallLoad cx mx (.presence (left.map (fun x => (x.1, x.2.2))) q.isPhys))
    let take := fun (size al : Nat) => (some { kind := .take size al, mx := some mx, ptr := q, off := off } : Option CAct)
    let f := fmtOf fmt
    let w := 8 * sizeBytes sz
    let int := Val.int (if sgn then (X.extractLsb' 0 w).signExtend 64 else (X.extractLsb' 0 w).zeroExtend 64)
    let fb := BitVec.ofNat 64 (X.toNat % 2 ^ f.width)
    let ft := if tagged then min (X.extractLsb' (if fmt = .f64 then 64 else 32) 6).toNat f.p else f.p
    let fp := Val.fp ⟨fb, BitVec.ofNat 6 (if (f.dec fb.toNat).isFin then ft else 0)⟩
    let vec := Val.vec ⟨X.extractLsb' 0 512,
      BitVec.ofNat 96 (packTags (fun k => if tagged then min (X.extractLsb' (512 + 8 * k) 6).toNat 24 else 24) 16)⟩
    let vn := if tagged then 80 else 64
    let va := if tagged then 16 else 32
    (checked (sizeBytes sz) (sizeBytes sz) rR →
      dies (.ldWaitf p d mx sz sgn a b) ∧ dies (.ldPres p d mx sz a b) ∧
      (full = true → ends (.ldWaitf p d mx sz sgn a b) int none s1) ∧ (full = false → waits (.ldWaitf p d mx sz sgn a b)) ∧
      ends (.ldPres p d mx sz a b) (.pred full) none s1) ∧
    (checked (sizeBytes sz) (sizeBytes sz) (rR ||| rT) → dies (.ldTake p d mx sz sgn a b) ∧
      (full = true → ends (.ldTake p d mx sz sgn a b) int (take (sizeBytes sz) (sizeBytes sz)) s1) ∧
      (full = false → waits (.ldTake p d mx sz sgn a b))) ∧
    (checked (flsBytes fmt tagged) (flsBytes fmt tagged) rR → dies (.flsLdWaitf p d mx fmt tagged a b) ∧
      (full = true → ends (.flsLdWaitf p d mx fmt tagged a b) fp none s1) ∧ (full = false → waits (.flsLdWaitf p d mx fmt tagged a b))) ∧
    (checked vn va rR → dies (.vlsLdWaitf p d mx tagged a b) ∧
      (full = true → ends (.vlsLdWaitf p d mx tagged a b) vec none s1) ∧ (full = false → waits (.vlsLdWaitf p d mx tagged a b))) ∧
    (checked vn va (rR ||| rT) → dies (.vlsLdTake p d mx tagged a b) ∧
      (full = true → ends (.vlsLdTake p d mx tagged a b) vec (take vn va) s1) ∧ (full = false → waits (.vlsLdTake p d mx tagged a b))) ∧
    (checked 32 32 rR → dies (.cld p d mx a b) ∧ ends (.cld p d mx a b) (.ptr (ptrOfBytes (leBytes X.toNat 32) (now.any (fun x => (s.sideAt x.1).tag)))) none
      (match now with
      | x :: _ => if homeDist cx.p x.1 = 0 then s1 else s1.nearLine cx.p x.1
      | [] => s1))

/-- R62, R178, R182 to R186 and R188 in the slot: a store, AMO, CAS or CST captures its pointer, its offset, its datum and its D for the
commit. A store may be misaligned only in its plain untagged ST and FLS forms. R170 to R172 and R175: the checks of an access, a load's where it
executes and theirs at the commit, in their order: CAPT, PRIV, CAPR, CAPB, ALIGN, ABSENT of the descriptor or beyond the object's size, SCSPAN, ABSENT of
a sideband in host memory, and then each part, lowest first: ABSENT, the page fault, or a wait for a migrating extent. -/
def Obligations.StoresAsk : Prop :=
  (∀ (s : State) (die : Nat) (priv : Bool) (q : Ptr) (off : BitVec 64) (n al : Nat) (need : BitVec 8) (side seq : Bool),
    let a := s.access die priv q off n al need side seq
    let e : Int := q.cur.toNat + off.toInt
    let o := q.start + e.toNat
    let ps := piecesOf o n
    let bad := fun (c : Cause) => ∃ r, a = .bad r ∧ r.cause = c
    let badAt := fun (c : Cause) (i : Nat) => ∃ r, a = .bad r ∧ r.cause = c ∧ (q.isPhys = false → r.obj = q.obj ∧ r.off = BitVec.ofNat 40 i)
    if q.valid = false ∨ q.low ≠ 0 ∨ (q.isPhys = false ∧ 2 ^ 40 < q.base + q.len) then bad .capt
    else if q.isPhys = true ∧ priv = false then bad .priv
    else if need &&& ~~~q.rights ≠ 0 then bad .capr
    else if e < 0 ∨ (q.viewLen : Int) < e + n then bad .capb
    else if al ≠ 0 ∧ o % al ≠ 0 then badAt .align o
    else if q.isPhys = true then
      if 0x10 ≤ spaceOf o ∧ spaceOf o ≤ 0x12 then bad .capb
      else if seq = true ∧ isHost o = true then bad .scspan
      else if side = true ∧ isHost o = true then bad .absent
      else if n ≠ 0 ∧ o / 2 ^ 48 ≠ (o + n - 1) / 2 ^ 48 then bad .absent
      else if ∃ x ∈ ps, s.homeOk x.1 = false then bad .absent
      else if need &&& (rW ||| rT) ≠ 0 ∧ ∃ x ∈ ps, inSteward x.1 = true then bad .absent
      else a = .ok ps
    else
      let pages := fun (t : Tr) => ∀ b f m, t = .page b f m → ∃ r, a = .bad r ∧ r.cause = .page ∧ r.obj = b ∧ r.off = f
      (∀ t, s.extFor die q.obj o = .error t → pages t ∧ (t = .wait → a = .wait) ∧ (t = .absent → badAt .absent o)) ∧
      ∀ d0 d1 x, s.extFor die q.obj o = .ok (d0, d1, x) →
        if d1.getLsbD 0 = false ∨ d1.extractLsb' 2 2 = 3 ∨ (d0.extractLsb' 0 41).toNat ≤ o then badAt .absent o
        else if seq = true ∧ d1.getLsbD 4 = true then badAt .scspan o
        else if side = true ∧ d1.getLsbD 4 = true then badAt .absent o
        else
          let tr := fun (i : Nat) => s.translateBy false die q.obj i
          (∀ pre y post, ps = pre ++ y :: post → (∀ z ∈ pre, ∃ b, tr z.1 = .home b) →
            (tr y.1 = .absent → badAt .absent y.1) ∧ pages (tr y.1) ∧ (tr y.1 = .wait → a = .wait)) ∧
          ((∀ y ∈ ps, ∃ b, tr y.1 = .home b) → ∃ hs, a = .ok hs ∧ hs.map (fun x => x.2) = ps.map (fun x => x.2) ∧
            hs.map (fun x => Tr.home x.1) = ps.map (fun x => tr x.1))) ∧
  (∀ (s : State) (cx : Cx) (p : Pred) (d : Dst) (mx : MX) (a b c e g r : Opnd) (q y : Ptr) (off x : BitVec 64) (w : FReg) (v : VReg) (sz : Size)
    (fmt : Fmt) (tagged wide : Bool) (pair : BitVec 5) (u z : BitVec 64),
    s.runs cx p → cx.free { dst := d } → cx.ptr a = .val q → cx.int b = .val off → cx.int c = .val x → cx.fp e = .val w → cx.vec g = .val v →
    cx.ptr r = .val y → cx.int (.g (pair ++ 0#1)) = .val u → cx.int (.g (pair ++ 1#1)) = .val z →
    let n := sizeBytes sz
    let f := fmtOf fmt
    let st := fun (i : Instr) (k : CKind) => Asks s cx i { kind := k, mx := some mx, ptr := q, off := off }
    let amo := fun (i : Instr) (k : CKind) => Asks s cx i { kind := k, mx := some mx, ptr := q, dst := d }
    let fn := flsBytes fmt tagged
    let fd := BitVec.ofNat 640 (w.bits.toNat % 2 ^ f.width + if tagged then min w.tag.toNat f.p * 2 ^ (if fmt = .f64 then 64 else 32) else 0)
    let vn := if tagged then 80 else 64
    let va := if tagged then 16 else 32
    let vd := BitVec.ofNat 640 (v.lanes.toNat +
      if tagged then (List.range 16).foldl (fun m i => m + min (v.tag i).toNat 24 * 2 ^ (512 + 8 * i)) 0 else 0)
    let wn := if wide then 8 else 4
    st (.st p mx sz a b c) (.store n .plain 0 (x.zeroExtend 640)) ∧ st (.stFill p mx sz a b c) (.store n .fill n (x.zeroExtend 640)) ∧
    st (.stSetf p mx sz a b c) (.store n .setf n (x.zeroExtend 640)) ∧ st (.stClre p mx sz a b c) (.store n .clre n (x.zeroExtend 640)) ∧
    st (.flsSt p mx fmt tagged a b e) (.store fn .plain (if tagged then fn else 0) fd) ∧
    st (.flsStFill p mx fmt tagged a b e) (.store fn .fill fn fd) ∧
    st (.vlsSt p mx tagged a b g) (.store vn .plain va vd) ∧ st (.vlsStFill p mx tagged a b g) (.store vn .fill va vd) ∧
    st (.vlsStSetf p mx tagged a b g) (.store vn .setf va vd) ∧ st (.vlsStClre p mx tagged a b g) (.store vn .clre va vd) ∧
    st (.cst p mx a b r) (.cst y) ∧
    amo (.amoAdd p d mx wide a c) (.amo .add wn x) ∧ amo (.amoAnd p d mx wide a c) (.amo .and wn x) ∧
    amo (.amoOr p d mx wide a c) (.amo .or wn x) ∧ amo (.amoXor p d mx wide a c) (.amo .xor wn x) ∧
    amo (.amoMins p d mx wide a c) (.amo .mins wn x) ∧ amo (.amoMaxs p d mx wide a c) (.amo .maxs wn x) ∧
    amo (.amoMinu p d mx wide a c) (.amo .minu wn x) ∧ amo (.amoMaxu p d mx wide a c) (.amo .maxu wn x) ∧
    amo (.amoXchg p d mx wide a c) (.amo .xchg wn x) ∧ amo (.amoFadd32 p d mx a e) (.amo .fadd 4 w.bits) ∧
    amo (.amoFmax32 p d mx a e) (.amo .fmax 4 w.bits) ∧ amo (.amoFmin32 p d mx a e) (.amo .fmin 4 w.bits) ∧
    amo (.cas32 p d mx a c) (.cas 4 (BitVec.ofNat 64 (x.toNat % 2 ^ 32)) (BitVec.ofNat 64 (x.toNat / 2 ^ 32))) ∧
    amo (.cas64 p d mx a pair) (.cas 8 u z))

/-- R68, R177, R193, R211, R222 and R272: at the commit each commit-point operation that does not take effect there is issued, as captured, under
the block's address and its slot, in slot order behind those it has outstanding; every stream counts the operations issued on it. The ACC forms, which name no stream, perform at the commit
itself. -/
def Obligations.CommitIssuesOperations : Prop :=
  ∀ (s t : State) (p : Nat) (h : Bool) (cx : Cx), s.readyToCommit p h cx t → cx.blk.stays →
    ∃ u, exec (.blockCommit p h) s = .next u ∧
      (∀ x ∈ cx.blk.acts, x.2.kind.immediate = false → x.2.kind.accTile = none →
        ∃ o ∈ (u.task p cx.t).ops, o.act = x.2 ∧ o.slot = x.1 ∧ o.bpc = cx.blk.bpc ∧ o.done = [] ∧ o.queued = false) ∧
      ((∀ x ∈ cx.blk.acts, x.2.kind.accTile = none) → (u.task p cx.t).ops.map (fun o => (o.slot, o.act)) =
        cx.task.ops.map (fun o => (o.slot, o.act)) ++ cx.blk.acts.filter (fun x => !x.2.kind.immediate)) ∧
      ∀ k < 8, (∀ x ∈ cx.blk.acts, x.2.kind.accTile ≠ none → ∀ m, x.2.mx = some m → m.stream.toNat ≠ k) →
        (u.task p cx.t).strm k = cx.task.strm k +
        (cx.blk.acts.filter (fun x => !x.2.kind.immediate && x.2.mx.any (fun m => m.stream.toNat == k))).length

/-- R156, R166 to R168, R176, R179, R182 to R184, R193 and R194: an issued store whose operations before it have performed, of a scope below seq,
with no poisoned part and, for FILL, no full word, performs: a plain store the part that `pick` names, any other all its parts. Exactly the
bytes of those parts change, to the datum's, at their homes and in the shadow spares that mirror them; their granules' presence follows the mode,
their TAG is 0 and their STAMP is the scope's; every other sideband and every register is as before. A part behind a host link that is down writes
nothing, and a lone one posts an ENGINE error record (R156, as log 64 reads it). With its last part the operation is over. A store to host memory
is then accepted by the host agent: of scope host it is over only when the agent reports it complete, in an event of its own that changes no
memory; of a narrower scope the task keeps, for operations of scope host, that the report is still to come, and once it has left its slot its launch
does. R200: a scope below the distance to a part's home sets SMISS. R113: with its last operation, a store, AMO, CAS or CST here, a task that has ended
frees its slot. That the parts perform one at a time
is the model's reading (log 9). -/
def Obligations.StorePerforms : Prop :=
  (∀ (s : State) (p k serial pick : Nat) (o : Op) (m : MX) (n al : Nat) (mode : StMode) (data : BitVec 640), k < 16 →
    s.clocked = true → s.opOf p k serial = some o → (s.task p k).depsMet o = true → (s.task p k).leaving = .no →
    o.act.kind = .store n mode al data → o.act.mx = some m → o.act.dst = .none → m.scope ≠ .seq → Memory.wf s.mem = true →
    (∀ x ∈ o.homes, s.partPoison x = false ∧ (mode = .fill → s.anyFull x.1 x.2.2 = false)) →
    let now := o.nextParts pick
    let at_ := fun (x : Piece) => x.1 :: (s.mirrorOf x.1).toList
    now ≠ [] →
    (∀ x ∈ now, 0 < x.2.2 ∧ ∀ h ∈ at_ x, h % 32 + x.2.2 ≤ 32 ∧ inSteward h = false) →
    (now.flatMap at_).Pairwise (fun h g => h / 32 ≠ g / 32) →
    ∃ u, exec (.commitOpPerform p k serial pick) s = .next u ∧
      (∀ x ∈ now, s.hostLost x.1 = false → ∀ h ∈ at_ x, ∀ j < x.2.2, u.rdByte (h + j) = data.extractLsb' (8 * (x.2.1 + j)) 8) ∧
      (∀ b, (∀ x ∈ now, s.hostLost x.1 = true ∨ ∀ h ∈ at_ x, b < h ∨ h + x.2.2 ≤ b) → u.rdByte b = s.rdByte b) ∧
      (∀ x, now = [x] → s.hostLost x.1 = true → ∀ (l : Launch) (hq : l.q < 8), s.launch? (s.task p k).launch = some l →
        (u.queues[l.q]).waiting = (s.queues[l.q]).waiting ++ [errWords 0x04 p k (s.task p k).launch o.bpc
          { cause := .engine, slot := o.slot, phys := BitVec.ofNat 64 x.1 } false (s.wtimeOf p) 0]) ∧
      (∀ x ∈ now, isHost x.1 = false → ∀ h ∈ at_ x, u.sideAt h =
        { pres := presAfter mode (s.sideAt x.1).pres (wordsOf x.1 x.2.2), tag := false, stamp := m.scope.code,
          poison := (s.sideAt x.1).poison && x.2.2 != 32 }) ∧
      (∀ b, (∀ x ∈ now, ∀ h ∈ at_ x, b / 32 ≠ h / 32) → u.sideAt b = s.sideAt b) ∧
      (u.task p k).smiss = ((s.task p k).smiss || now.any (fun x => !s.hostLost x.1 && decide (scopeNum m.scope < homeDist p x.1))) ∧
      SameRegs s u ∧
      let gone := ∀ q ∈ (u.task p k).ops, ¬(q.serial = serial ∧ q.act = o.act)
      let toHost := ∃ x ∈ o.homes, isHost x.1 = true ∧ s.hostLost x.1 = false
      (now.length = (o.homes.filter (fun x => !o.done.contains x.2.1)).length →
        (¬toHost → gone) ∧
        (toHost → m.scope ≠ .host → gone ∧ (serial, m.stream) ∈ (u.task p k).hostOps) ∧
        (toHost → m.scope = .host → ∃ q, u.opOf p k serial = some q ∧ q.act = o.act ∧ ∀ x ∈ o.homes, x.2.1 ∈ q.done))) ∧
  (∀ (s : State) (p k serial pick : Nat) (o : Op) (m : MX) (n al : Nat) (mode : StMode) (data : BitVec 640), k < 16 →
    s.clocked = true → s.opOf p k serial = some o → (s.task p k).depsMet o = true → (s.task p k).leaving = .no →
    o.act.kind = .store n mode al data → o.act.mx = some m → o.act.dst = .none → m.scope ≠ .seq →
    (∀ x ∈ o.homes, x.2.1 ∈ o.done) →
    ∃ u, exec (.commitOpPerform p k serial pick) s = .next u ∧ (∀ q ∈ (u.task p k).ops, ¬(q.serial = serial ∧ q.act = o.act)) ∧
      SameMemory s u ∧ SameRegs s u) ∧
  (∀ (s : State) (p k serial pick : Nat), s.clocked = true → s.opOf p k serial = none → (s.task p k).leaving = .no →
    (∃ x ∈ (s.task p k).hostOps, x.1 = serial) → k < 16 →
    ∃ u, exec (.commitOpPerform p k serial pick) s = .next u ∧ SameMemory s u ∧ SameRegs s u ∧
      (u.task p k).hostOps = (s.task p k).hostOps.filter (fun x => x.1 != serial)) ∧
  (∀ (s : State) (p k serial pick : Nat), s.clocked = true → s.opOf p k serial = none → (∀ x ∈ (s.task p k).hostOps, x.1 ≠ serial) →
    ∃ u, exec (.commitOpPerform p k serial pick) s = .next u ∧ SameMemory s u ∧ SameTasks s u ∧
      u.launches = s.launches.map (fun l => { l with hostLeft := l.hostLeft.filter (fun x => x != (p, k, serial)) })) ∧
  (∀ (s : State) (p k serial pick : Nat) (o : Op) (m : MX), k < 16 →
    s.clocked = true → s.opOf p k serial = some o → (s.task p k).depsMet o = true → (s.task p k).leaving = .ended →
    o.act.mx = some m → m.scope ≠ .seq → (∀ q ∈ (s.task p k).ops, o.same q = true) →
    (∃ n mode al x, o.act.kind = .store n mode al x ∧ ∀ y ∈ o.homes, y.2.1 ∈ o.done) ∨
      (∃ y, o.homes.head? = some y ∧ ((∃ q, o.act.kind = .cst q) ∨
        (s.sideAt y.1).poison = false ∧ ((∃ f n b, o.act.kind = .amo f n b) ∨ ∃ n b e, o.act.kind = .cas n b e))) →
    ∃ u, exec (.commitOpPerform p k serial pick) s = .next u ∧ u.task p k = {})

/-- R166 to R168, R177, R185, R186, R188 and R194: an issued AMO, CAS or CST at its home. An AMO leaves the function of the old value and its
operand, a CAS its new value where the old one is the expected, and both deliver the old value to their D, unless a later block has written or
bound it; what later blocks wrote there then takes effect. A write leaves the granule's presence, TAG 0 and the scope as STAMP, in the home and in
the shadow spare that mirrors it; a CAS that fails changes nothing there; a CST leaves the pointer's granule and its TAG. No other byte or sideband
changes. R168 and R176: a store, AMO or CAS that meets a poisoned granule there, or a FILL that meets a full word, performs nothing: its unit
returns, its late result is 0 and its task ends with a record that marks the fault as deferred. R200 and R201: a scope, or for an AMO or CAS a stamp,
below the distance to the home sets SMISS. COMMIT_OP_PERFORM completes. That POISON at any part goes before DFILL at an earlier one, and that both name the
physical address alone, are the model's readings (logs 9 and 21). -/
def Obligations.AtomicsPerform : Prop :=
  (∀ (s : State) (p k serial pick : Nat) (o : Op) (m : MX) (a n : Nat), k < 16 →
    s.clocked = true → s.opOf p k serial = some o → (s.task p k).depsMet o = true → (s.task p k).leaving = .no →
    o.act.mx = some m → m.scope ≠ .seq → Memory.wf s.mem = true → o.homes = [(a, 0, n)] → o.done = [] → isHost a = false →
    let places := a :: (s.mirrorOf a).toList
    (∀ h ∈ places, h % 32 + n ≤ 32 ∧ inSteward h = false) → places.Pairwise (fun h g => h / 32 ≠ g / 32) →
    let t := s.task p k
    let old := s.rdNat a n
    let written := fun (u : State) (tag : Bool) => ∀ h ∈ places, u.sideAt h =
      { pres := (s.sideAt a).pres, tag := tag, stamp := m.scope.code, poison := (s.sideAt a).poison && n != 32 }
    let lands := fun (u : State) (v : Val) => s.lands u p k o v
    ((s.sideAt a).poison = false ∧ (n = 4 ∨ n = 8) ∧ ((∃ f b, o.act.kind = .amo f n b) ∨ ∃ x y, o.act.kind = .cas n x y) ∨
      n = 32 ∧ ∃ q, o.act.kind = .cst q) →
    ∃ u, exec (.commitOpPerform p k serial pick) s = .next u ∧
      (∀ b, (∀ h ∈ places, b < h ∨ h + n ≤ b) → u.rdByte b = s.rdByte b) ∧ (∀ b, (∀ h ∈ places, b / 32 ≠ h / 32) → u.sideAt b = s.sideAt b) ∧
      (∀ q j, ¬(q = p ∧ j = k) → (u.task q j).regs = (s.task q j).regs) ∧
      let far := decide (scopeNum m.scope < homeDist p a)
      ((∀ q, o.act.kind ≠ .cst q) → (u.task p k).smiss = (t.smiss || far || decide (stampNum (s.sideAt a).stamp < homeDist p a))) ∧
      ((∃ q, o.act.kind = .cst q) → (u.task p k).smiss = (t.smiss || far)) ∧
      (∀ f b, o.act.kind = .amo f n b →
        lands u (if f ∈ [AmoOp.fadd, .fmax, .fmin] then .fp ⟨BitVec.ofNat 64 old, BitVec.ofNat 6 (if (fp32.dec old).isFin then 24 else 0)⟩
          else .int (BitVec.ofNat 64 old)) ∧ written u false ∧
        ∀ h ∈ places,
          (f = .add → u.rdNat h n = (old + b.toNat) % 2 ^ (8 * n)) ∧
          (f = .and → u.rdNat h n = (old &&& b.toNat) % 2 ^ (8 * n)) ∧
          (f = .or → u.rdNat h n = (old ||| b.toNat) % 2 ^ (8 * n)) ∧
          (f = .xor → u.rdNat h n = (old ^^^ b.toNat) % 2 ^ (8 * n)) ∧
          (f = .minu → u.rdNat h n = min old (b.toNat % 2 ^ (8 * n))) ∧
          (f = .maxu → u.rdNat h n = max old (b.toNat % 2 ^ (8 * n))) ∧
          (f = .mins → (BitVec.ofNat (8 * n) (u.rdNat h n)).toInt = min (BitVec.ofNat (8 * n) old).toInt (BitVec.ofNat (8 * n) b.toNat).toInt) ∧
          (f = .maxs → (BitVec.ofNat (8 * n) (u.rdNat h n)).toInt = max (BitVec.ofNat (8 * n) old).toInt (BitVec.ofNat (8 * n) b.toNat).toInt) ∧
          (f = .xchg → u.rdNat h n = b.toNat % 2 ^ (8 * n)) ∧
          (n = 4 → let x := b.toNat % 2 ^ 32
            (f = .fadd → u.rdNat h 4 = (fpAdd fp32 .rne (fp32.dec old) 24 (fp32.dec x) 24).bits.toNat % 2 ^ 32) ∧
            (f = .fmax → u.rdNat h 4 = (fpMnx fp32 true false (BitVec.ofNat 64 old) 24 (BitVec.ofNat 64 x) 24).bits.toNat % 2 ^ 32) ∧
            (f = .fmin → u.rdNat h 4 = (fpMnx fp32 false false (BitVec.ofNat 64 old) 24 (BitVec.ofNat 64 x) 24).bits.toNat % 2 ^ 32))) ∧
      (∀ x y, o.act.kind = .cas n x y →
        lands u (.int (BitVec.ofNat 64 old)) ∧
        (old = x.toNat → written u false ∧ ∀ h ∈ places, u.rdNat h n = y.toNat % 2 ^ (8 * n)) ∧
        (old ≠ x.toNat → SameMemory s u)) ∧
      (∀ q, o.act.kind = .cst q → lands u (.int 0) ∧ written u (q.usable && !q.isPhys) ∧
        ∀ h ∈ places, ∀ j < 32, u.rdByte (h + j) = q.bytes.getD j 0)) ∧
  (∀ (s : State) (p k serial pick : Nat) (o : Op) (m : MX) (x : Piece) (c : CauseRec), k < 16 →
    s.clocked = true → s.opOf p k serial = some o → (s.task p k).depsMet o = true → (s.task p k).leaving = .no →
    o.act.mx = some m → m.scope ≠ .seq → o.done = [] → (∀ y ∈ s.takes, y.plot ≠ p) →
    ((∃ n mode al data, o.act.kind = .store n mode al data ∧ o.homes.find? s.partPoison = some x ∧ c = { cause := .poison, phys := BitVec.ofNat 64 x.1 }) ∨
     (∃ n al data, o.act.kind = .store n .fill al data ∧ o.homes.find? s.partPoison = none ∧
        o.homes.find? (fun y => s.anyFull y.1 y.2.2) = some x ∧ c = { cause := .dfill, phys := BitVec.ofNat 64 x.1 }) ∨
     (((∃ f n b, o.act.kind = .amo f n b) ∨ ∃ n b e, o.act.kind = .cas n b e) ∧ o.homes.head? = some x ∧ (s.sideAt x.1).poison = true ∧
        c = { cause := .poison, phys := BitVec.ofNat 64 x.1 })) →
    let t := s.task p k
    let d := o.act.dst
    let others := t.ops.filter (fun q => !o.same q)
    ∃ u, exec (.commitOpPerform p k serial pick) s = .next u ∧ SameMemory s u ∧
      (others = [] → u.task p k = {}) ∧
      (others ≠ [] → (u.task p k).leaving = .ended ∧ (u.task p k).ops = others ∧
        (o.stale = false → d ≠ .none → (∀ q ∈ t.ops, q.act.dst = d → q = o) → (∀ y ∈ t.heldWrites, y.1 ≠ d) →
          (u.task p k).regs = t.regs.write d (zeroFor d))) ∧
      ∀ (l : Launch) (hq : l.q < 8), s.launch? t.launch = some l →
        (u.queues[l.q]).waiting = (s.queues[l.q]).waiting ++ [errWords 0x01 p k t.launch o.bpc { c with slot := o.slot, defer := true } false
          (s.wtimeOf p) 0])

/-- R166, R181, R191 and R208: how the TAKEs of a block on its way to the commit point empty their words, home by home, each in an event of its
own. While all words of the home are full the event clears their presence and leaves the scope as STAMP, with data and TAG as before; after the
last one the block commits if its semaphores still cover its takes. If a word is no longer full the block fails: the words it has emptied are
set full again, one event a granule, but for those that another event has touched since, with the STAMP from before the first TAKE of the granule,
and it is then re-executed. A TAKE of scope seq waits in the cistern of the home's die. A granule poisoned since its load raises POISON in the task (R168). While
its words are emptied the block keeps the homes of its other operations (R171). That the homes are emptied one by one, that the restore
takes events of its own, and that such an emptying raises POISON at once, are the model's readings (logs 9, 40 and 84). -/
def Obligations.CommitEmptiesTakenWords : Prop :=
  (∀ (s : State) (p : Nat) (h : Bool) (cx : Cx), s.mayCommit p h cx → s.checksPass p h cx → s.takeRecs cx ≠ [] →
    let w : State := { s with takes := s.takes ++ s.takeRecs cx }
    let u := w.keepHomes cx
    exec (.blockCommit p h) s = exec (.blockCommit p h) u ∧ ∃ b, ((u.plot p).half h).blk = some b ∧
      ∀ (k : Nat) (r : SlotRec) (a : CAct), cx.blk.slots[k]? = some r → r.st = .done → r.act = some a → a.kind.isMem = true → a.kind.isTake = false →
        ∃ r', b.slots[k]? = some r' ∧ r'.homes.2 = w.actHomes cx a) ∧
  (∀ (s : State) (p : Nat) (h : Bool) (cx : Cx) (x : TakeRec), s.mayCommit p h cx → s.nextTake p h = some x →
    let run := s.takes.filter (fun y => x.with y && !y.done)
    (x.scope = .seq → ∃ u, exec (.blockCommit p h) s = .next u ∧ SameMemory s u ∧ SameRegs s u ∧
      ∃ r ∈ (u.die (dieOfAddr x.home)).seqQ, r.plot = p ∧ r.half = h ∧ r.slot = x.slot ∧ r.take = true) ∧
    (∀ y, x.scope ≠ .seq → run.find? (fun y => (s.sideAt y.home).poison) = some y → (s.plot p).halfOf cx.t = some h →
      exec (.blockCommit p h) s = .next (s.takeException p cx.t { cause := .poison, slot := x.slot, phys := BitVec.ofNat 64 y.home } cx.blk.bpc)) ∧
    (x.scope ≠ .seq → (∀ y ∈ run, (s.sideAt y.home).poison = false) → run.all s.stillFull = false →
      ∃ u, exec (.blockCommit p h) s = .next u ∧ SameMemory s u ∧ SameRegs s u ∧ u.takes = s.takes ∧
        ∃ b, ((u.plot p).half h).blk = some b ∧ b.failed = true) ∧
    (x.scope ≠ .seq → (∀ y ∈ run, (s.sideAt y.home).poison = false) → run.all s.stillFull = true → (∀ y ∈ run, s.mirrorOf y.home = none) →
      run.Pairwise (fun y z => y.home / 32 ≠ z.home / 32) → (∃ y ∈ s.takes, y.of p h ∧ y.done = false ∧ y ∉ run) →
      ∃ u, exec (.blockCommit p h) s = .next u ∧ (∀ b, u.rdByte b = s.rdByte b) ∧ SameRegs s u ∧
        (∀ y ∈ run, u.sideAt y.home = { s.sideAt y.home with pres := (s.sideAt y.home).pres &&& ~~~y.words, stamp := y.scope.code }) ∧
        ∀ b, (∀ y ∈ run, b / 32 ≠ y.home / 32) → u.sideAt b = s.sideAt b)) ∧
  (∀ (s t : State) (p : Nat) (h : Bool) (cx : Cx), s.readyToCommit p h cx t →
    exec (.blockCommit p h) s = .next (({ t with takes := t.takes.filter (fun x => !x.of p h) }.takeSems p cx.blk).commit
      { cx with task := ({ t with takes := t.takes.filter (fun x => !x.of p h) }.takeSems p cx.blk).task p cx.t } |>.commitAcc p cx.t cx.blk)) ∧
  (∀ (s : State) (p : Nat) (h : Bool) (cx : Cx), s.blockCx p h = some cx → cx.ended = true → s.givesWay p h cx.blk = false →
    cx.blk.failed = true →
    (∀ x, s.takes.find? (fun x => x.of p h && x.done) = some x →
      let ys := s.takes.filter (fun y => y.of p h && y.done && y.home / 32 == x.home / 32)
      let ws := ys.foldl (fun w y => w ||| y.words) 0
      (∀ y ∈ ys, s.mirrorOf y.home = none) →
      ∃ u, exec (.blockCommit p h) s = .next u ∧ (∀ b, u.rdByte b = s.rdByte b) ∧ SameRegs s u ∧
        (∀ y, ys.find? (fun y => y.words != 0) = some y →
          u.sideAt x.home = { s.sideAt x.home with pres := (s.sideAt x.home).pres ||| ws, stamp := y.stamp }) ∧
        (∀ b, b / 32 ≠ x.home / 32 ∨ ws = 0 → u.sideAt b = s.sideAt b) ∧
        ∀ y ∈ u.takes, y.of p h = true → y.done = true → y.home / 32 ≠ x.home / 32) ∧
    (s.takes.find? (fun x => x.of p h && x.done) = none → (s.plot p).halfOf cx.t = some h →
      ∃ u, exec (.blockCommit p h) s = .next u ∧ SameMemory s u ∧ SameRegs s u ∧ (u.task p cx.t).st = .ready ∧
        (u.task p cx.t).bpc = cx.task.bpc))

/-! ## Engines, fields, rills, synchronisation and system forms in the slot -/

/-- R62, R315, R316, R319, R321, R324 and R325 in the slot: an engine command captures its pointers, its name and its command word. R66,
R207, R383, R386 to R388, R392 and R393 in the slot: the signals, SSET and BARA capture their operands; SRD gives a semaphore's value; SWAIT
and SWAITD stall until the value covers the lower takes and the threshold and give it less those takes (where the threshold is 0 and the
value does not cover them, some value: log 36); BARW stalls while the group is in the generation named. R199, R384, R386 and R392 as they perform: an
operation that owes an acquire effect drops the core's near lines within its scope first; SSIG and SSIGR add to their semaphore, up to 0xFFFF, and SSET
sets it, before the takes and sums of the same cycle (log 7), with every task that waits on it made READY; SSIGR finds ABSENT and PRIV deferred; BARA counts an arrival,
delivers the generation, and with the last one ends it and wakes its waiters, or finds BARR deferred, the group as it was. -/
def Obligations.EngineAndSynchronisationForms : Prop :=
   (∀ (s : State) (cx : Cx) (p : Pred) (mx : MX) (a b c e g : Opnd) (q r l : Ptr) (n w : BitVec 64),
      s.runs cx p → cx.ptr a = .val q → cx.ptr b = .val r → cx.ptr c = .val l → cx.int e = .val n → cx.int g = .val w →
      Asks s cx (.xcpy p mx a b g) { kind := .xcpy r w, mx := some mx, ptr := q } ∧
      Asks s cx (.xchn p mx a g) { kind := .xchn w, mx := some mx, ptr := q } ∧
      Asks s cx (.xred p mx a b c) { kind := .xred r l, mx := some mx, ptr := q } ∧
      Asks s cx (.xcolAllredSum p mx e g) { kind := .xcol .allredSum n w, mx := some mx } ∧
      Asks s cx (.xcolAllredMax p mx e g) { kind := .xcol .allredMax n w, mx := some mx } ∧
      Asks s cx (.xcolAllgath p mx e g) { kind := .xcol .allgath n w, mx := some mx } ∧
      Asks s cx (.xcolRedscatSum p mx e g) { kind := .xcol .redscatSum n w, mx := some mx } ∧
      Asks s cx (.xcolBcast p mx e g) { kind := .xcol .bcast n w, mx := some mx } ∧
      Asks s cx (.xregReg p mx e a) { kind := .xregReg n q, mx := some mx, ptr := q } ∧
      Asks s cx (.xregRel p mx e) { kind := .xregRel n, mx := some mx }) ∧
   (∀ (s : State) (cx : Cx) (p : Pred) (d : Dst) (a b : Opnd) (x y : BitVec 64) (u : Nat),
      s.runs cx p → cx.int a = .val x → cx.int b = .val y →
      let n := x.toNat % 256
      let t := y.toNat % 2 ^ 16
      let v := ((s.plot cx.p).sem n).toNat
      Asks s cx (.semSsig p a b) { kind := .ssig x y } ∧
      Asks s cx (.semSsigr p a b) { kind := .ssigr x y } ∧
      Asks s cx (.semSset p a b) { kind := .sset x y } ∧
      (cx.free { dst := d } → Asks s cx (.bara p d a) { kind := .bara x, dst := d } ∧
        Gives s cx (.semSrd p d a) d (.int (BitVec.ofNat 64 v))) ∧
      (cx.lowerTakes n = .val u →
        (t ≠ 0 → v < u + t → exec (.semSwait p d a b) s = .next (s.stallGate cx (.sem n (u + t))) ∧
          exec (.semSwaitd p d a b) s = .next (s.stallGate cx (.sem n (u + t)))) ∧
        (t = 0 ∨ u + t ≤ v → ∃ w : BitVec 64, (u ≤ v → w = BitVec.ofNat 64 (v - u)) ∧
          let z := ({ s with free := s.free + 1 } : State).bump cx.p 18 1
          Ends s z cx (.semSwait p d a b) { val := some (.int w), dst := d, acq := 0xFF, later := true } ∧
          Ends s z cx (.semSwaitd p d a b) { val := some (.int w), dst := d, pop := some (.sem n t), acq := 0xFF, later := true })) ∧
      (s.barPlace cx.p x = none → exec (.barw p d a b) s = .next (s.abortSlot cx { cause := .barr })) ∧
      ∀ die key, s.barPlace cx.p x = some (die, key) →
        let g := (s.bar die key).gen
        (g.toNat = t → exec (.barw p d a b) s = .next (s.stallGate cx (.barrier die key x (BitVec.ofNat 16 t)))) ∧
        (g.toNat ≠ t → Ends s s cx (.barw p d a b) { val := some (.int (BitVec.ofNat 64 g.toNat)), dst := d, acq := 0xFF, later := true })) ∧
   (∀ (s : State) (p k pick : Nat) (o : Op) (m : MX), s.clocked = true → s.opOf p k o.serial = some o → (s.task p k).depsMet o = true →
      o.act.kind.isMem = false → o.acq = true → o.done = [] → o.act.mx = some m →
      let w := (s.discard p m.scope).onOp p k o.serial (fun q => { q with acq := false })
      exec (.commitOpPerform p k o.serial pick) s = exec (.commitOpPerform p k o.serial pick) w ∧
      (w.plot p).near = (s.plot p).near.filter (fun e => decide (scopeNum m.scope < homeDist p e.1)) ∧ SameMemory s w ∧ SameRegs s w) ∧
   (∀ (s : State) (p k pick : Nat) (o : Op), s.performs p k o →
      let does := s.does p k o pick
      let t := s.task p k
      let signalled := fun (u : State) (q n : Nat) (v : Nat) =>
        s.over u p k o ∧ ((u.plot q).sem n).toNat = min v 0xFFFF ∧ (∀ i, i ≠ n → (u.plot q).sem i = (s.plot q).sem i) ∧
        ∀ j < 16, (s.task q j).st = .wait → (s.task q j).wait = .sem n → (u.task q j).st = .ready
      (∀ a b, o.act.kind = .ssig a b →
        does (fun u => signalled u p (a.toNat % 256) (((s.plot p).sem (a.toNat % 256)).toNat + b.toNat % 2 ^ 16))) ∧
      (∀ a b, o.act.kind = .sset a b →
        let r := (s.plot p).semNow (s.cycOf p) (a.toNat % 256)
        let v := b.toNat % 2 ^ 16
        does (fun u => signalled u p (a.toNat % 256) (if r.taken ≤ v then v - r.taken + r.inc else v))) ∧
      (∀ a b, o.act.kind = .ssigr a b →
        let target := s.resolve (BitVec.ofNat 32 (a.toNat / 2 ^ 32))
        (target = none → does (fun u => s.defers u p k o { cause := .absent })) ∧
        ∀ q, target = some q →
          if (s.plot q).stat = .hole then does (fun u => s.defers u p k o { cause := .absent })
          else if o.priv = true ∨ (s.plot q).owner.map (fun x => x.1) = some t.launch then
            does (fun u => signalled u q (a.toNat % 256) (((s.plot q).sem (a.toNat % 256)).toNat + b.toNat % 2 ^ 16))
          else does (fun u => s.defers u p k o { cause := .priv })) ∧
      ∀ a, o.act.kind = .bara a →
        let barr := does (fun u => s.defers u p k o { cause := .barr } ∧ ∀ d i, u.bar d i = s.bar d i)
        (s.barPlace p a = none → barr) ∧
        ∀ die key, s.barPlace p a = some (die, key) →
          let g := s.bar die key
          let count := a.extractLsb' 16 16
          if a.extractLsb' 4 3 = 5 ∧ s.podReach = false then barr
          else if g.arr ≠ 0 ∧ (g.count ≠ count ∨ g.owner ≠ t.launch) then barr
          else does (fun u => s.lands u p k o (.int (g.gen.zeroExtend 64)) ∧
            u.bar die key = (if g.arr + 1 = count then { g with gen := g.gen + 1, arr := 0, count := 0, owner := t.launch }
              else { g with arr := g.arr + 1, count := count, owner := t.launch }) ∧
            (∀ d i, (d, i) ≠ (die, key) → u.bar d i = s.bar d i) ∧
            (g.arr + 1 = count → ∀ q, ∀ j < 16, ∀ x, (s.task q j).st = .wait → (s.task q j).wait = .barrier die key x → (u.task q j).st = .ready)))

/-- R46, R259, R272 to R283 in the slot: CONF, FREL, FEED, WLD, ACC and ADM.ASET capture their operands; FQRY gives the field's word or 0 and
ARD the port's word or 0. R46, R49, R67, R256 and R280: DRN on a tile of a SOUTH plot. POP and LAST stall until the tile is FULL; a tile that
no one may drain, or a row at or beyond its rows, is a FIELD fault, and a marked row a SOFT trap; else, counting from where the tile's cursor stood
at the block's first pop of it, the row beyond those that lower slots pop is read, with tags from its peaks, and POP and LAST consume it at the
commit. That SOFT names the row with the tile's BASE added, and that FQRY takes a handle of 64 bits, are the model's readings (logs 38 and 65). As they perform: R273 to R275: a CONF whose image passes configures its plots and delivers the new handle, any other
delivers its refusal, and one that meets a migrating extent waits; FREL of a live field of its launch waits for the passes in the array and then releases
it, of any other handle does nothing. R277 and R278: FEED and WLD find FIELD, CAPB or ABSENT deferred, or are taken by the feeder, which holds four, or
the loader. R254, R272 and R282: ACLR finds FIELD deferred, waits for passes and drain writers, or empties its tiles; ASTA delivers the tile's word.
R283: ASET clamps its cap to 1 to 1,024 at the commit and takes effect at once. -/
def Obligations.FieldAndDrainForms : Prop :=
   (∀ (s : State) (cx : Cx) (p : Pred) (d : Dst) (mx : MX) (fin swap eos : Bool) (a e g : Opnd) (q : Ptr) (n w : BitVec 64),
      s.runs cx p → cx.free { dst := d } → cx.ptr a = .val q → cx.int e = .val n → cx.int g = .val w →
      Asks s cx (.cfgConf p d mx a g) { kind := .conf w, mx := some mx, ptr := q, dst := d } ∧
      Asks s cx (.cfgFrel p mx e) { kind := .frel n, mx := some mx } ∧
      Asks s cx (.feed p mx fin swap eos a g) { kind := .feed fin swap eos w, mx := some mx, ptr := q } ∧
      Asks s cx (.wld p mx a g) { kind := .wld w, mx := some mx, ptr := q } ∧
      Asks s cx (.accAclr p e) { kind := .aclr n } ∧
      Asks s cx (.accAsta p d e) { kind := .asta n, dst := d } ∧
      Asks s cx (.admAset p e g) { kind := .aset n w } ∧
      (∀ f, n.toNat < 2 ^ 32 → s.liveField (n.extractLsb' 0 32) = some f →
        Gives s cx (.cfgFqry p d e) d
          (.int (BitVec.ofNat 64 (f.mode * 2 ^ 40 + f.cols * 2 ^ 32 + f.rows * 2 ^ 24 + (s.logCols f).length * 2 ^ 12 + f.lr)))) ∧
      (2 ^ 32 ≤ n.toNat ∨ s.liveField (n.extractLsb' 0 32) = none → Gives s cx (.cfgFqry p d e) d (.int 0)) ∧
      let port := if n.getLsbD 0 then (s.plot cx.p).fu.port1 else (s.plot cx.p).fu.port0
      Gives s cx (.admArd p d e) d (.int (if s.fieldOf cx.p = none then 0 else
        BitVec.ofNat 64 (port.cnt * 2 ^ 48 + port.ocap * 2 ^ 32 + port.pcap * 2 ^ 16 + min port.ocap port.pcap)))) ∧
   (∀ (s : State) (cx : Cx) (p : Pred) (d : Dst) (a : Opnd) (x : BitVec 64) (n : Nat),
      s.runs cx p → cx.free { dst := d } → cx.int a = .val x →
      let t := x.toNat % 16
      cx.lowerRows t = .val n →
      let u := (s.plot cx.p).fu
      let y := u.tile t
      let cur := cx.blk.curOf t y.cur
      let r := cur + n
      let v := u.drainRow (y.base + r)
      let gives := fun (i : Instr) (pop : Option Pop) =>
        (∀ k < 16, (fp32.dec (v.lane k).toNat).isFin = true → cx.task.theta ≤ (v.tag k).toNat) →
          exec i s = .next (s.executed cx { val := some (.vec v), dst := d, pop := pop })
      let all := fun (o : Instr → Prop) => o (.drnPop p d a) ∧ o (.drnLast p d a) ∧ o (.drnPeek p d a)
      (u.south? = false ∨ s.fieldOf cx.p = none ∨ y.rows = 0 ∨ y.auto = true →
        all (fun i => exec i s = .next (s.abortSlot cx { cause := .field }))) ∧
      (u.south? = true → s.fieldOf cx.p ≠ none → y.rows ≠ 0 → y.auto = false →
        (y.st ≠ .full → exec (.drnPop p d a) s = .next (s.stallGate cx (.tile t)) ∧ exec (.drnLast p d a) s = .next (s.stallGate cx (.tile t))) ∧
        (y.st = .full → y.rows ≤ r → all (fun i => exec i s = .next (s.abortSlot cx { cause := .field }))) ∧
        (y.st = .full → r < y.rows → ∀ m, u.prow t = some m → m ≤ r →
          all (fun i => exec i s = .next (s.abortSlot cx { cause := .soft, info := BitVec.ofNat 64 (t * 2 ^ 12 + (y.base + r)) }))) ∧
        (r < y.rows → (∀ m, u.prow t = some m → r < m) →
          gives (.drnPeek p d a) none ∧
          (y.st = .full → gives (.drnPop p d a) (some (.tile t r false cur)) ∧ gives (.drnLast p d a) (some (.tile t r true cur)))))) ∧
   (∀ (s : State) (p k pick : Nat) (o : Op), s.performs p k o →
      let does := s.does p k o pick
      let exactly := fun (t : State) => exec (.commitOpPerform p k o.serial pick) s = .next t
      let fails := fun (c : Cause) => ∃ e : CauseRec, e.cause = c ∧ does (fun u => s.defers u p k o e)
      let t := s.task p k
      let u := (s.plot p).fu
      (∀ a, o.act.kind = .conf a →
        let q := o.act.ptr.start + o.act.ptr.cur.toNat
        let c := s.confOf p k o a q
        let i := c.img
        let f := c.fld
        let refuses := fun (e : Nat) => does (fun v => s.lands v p k o (.int (BitVec.ofNat 64 (2 ^ 63 + e))) ∧ SameMemory s v ∧ v.fields = s.fields ∧
          ∀ q, (v.plot q).fu = (s.plot q).fu)
        (s.confWaits (dieOf p) o.act.ptr q c = true → exactly s) ∧
        (s.confWaits (dieOf p) o.act.ptr q c = false → s.confLost (dieOf p) o.act.ptr q c = [] →
          (∀ e, s.confCode p k o a q c = some e → refuses e) ∧
          (s.confCode p k o a q c = none →
            (s.mod.pscur ≠ 2 ∧ s.mod.pscur ≠ 3 ∧ i.hdr.cls = 0x7E ∧ crc32 i.crcBytes = i.hdr.fld 32 32 ∧ f.mode ≤ 3 ∧ 1 ≤ f.rows ∧ f.rows ≤ 84 ∧
              1 ≤ f.cols ∧ f.cols ≤ 192 ∧ f.k ≠ 0 ∧ f.lr ≤ (s.availRows f).length ∧ f.mrow < f.rows ∧ f.mcol < f.cols ∧
              ∀ x ∈ f.cellsOf, (s.plot (s.fieldPlot f x.1 x.2)).fu.handle = 0xFFFFFFFF ∧
                (s.plot (s.fieldPlot f x.1 x.2)).owner.map (fun y => y.1) = some t.launch) ∧
            (s.installAll c.rills t.launch none ≠ none →
              let h := a.extractLsb' 0 32 ||| BitVec.ofNat 32 (s.gens.get (a.toNat % 2 ^ 32) 0 % 127 + 1)
              s.installAll c.rills t.launch (some h) ≠ none →
              does (fun v => s.lands v p k o (.int (h.zeroExtend 64)) ∧
                (∃ g, v.fields = s.fields ++ [g] ∧ g.handle = h ∧ g.launch = t.launch ∧ g.masterPlot = p ∧ g.masterUid = t.uid ∧ g.rows = f.rows ∧
                  g.cols = f.cols ∧ g.mode = f.mode ∧ g.lr = f.lr ∧ g.k = f.k ∧ g.mrow = f.mrow ∧ g.mcol = f.mcol ∧ g.passes = [] ∧
                  g.stopped = false) ∧
                ∀ x ∈ f.cellsOf, let y := (v.plot (s.fieldPlot f x.1 x.2)).fu
                  y.handle = h ∧ y.feeds = [] ∧ y.wlds = [] ∧ y.port0.pcap = 1024 ∧ y.port1.pcap = 1024))))) ∧
      (∀ h, o.act.kind = .frel h →
        let field := if h.toNat < 2 ^ 32 then s.liveField (BitVec.ofNat 32 h.toNat) else none
        (field = none ∨ (∃ f, field = some f ∧ f.launch ≠ t.launch) → does (fun v => s.over v p k o ∧ v.fields = s.fields ∧ SameMemory s v)) ∧
        ∀ f, field = some f → f.launch = t.launch →
          let busy := f.stopped = false ∧ ((∃ x ∈ f.passes, x.entered = true) ∨
            (∃ q ∈ s.southPlots f, ∃ x ∈ (s.plot q).fu.tiles, x.2.emptying = true) ∨
            ∃ q ∈ t.ops, q.serial < o.serial ∧ q.act.kind.accTile ≠ none)
          (busy → exactly (s.onField f.handle (fun f => { f with releasing := some o.serial }))) ∧
          (¬busy → does (fun v => (∀ q ∈ (v.task p k).ops, ¬(q.serial = o.serial ∧ q.act = o.act)) ∧
            v.fields = s.fields.filter (fun g => g.handle != f.handle) ∧
            ∀ x ∈ f.cellsOf, let y := (v.plot (s.fieldPlot f x.1 x.2)).fu
              y.handle = 0xFFFFFFFF ∧ y.role = 0 ∧ y.feeds = [] ∧ y.wlds = []))) ∧
      (∀ fin swap eos b, o.act.kind = .feed fin swap eos b → (∀ c ∈ u.feeds, c.serial ≠ o.serial) →
        let m := b.toNat % 2 ^ 10
        let q0 := b.toNat / 2 ^ 32 % 2 ^ 16
        let legal := b &&& 0xFFFF0000FFF0FC00 = 0 ∧ 1 ≤ m ∧ m ≤ 512
        (s.fieldOf p = none ∨ u.west? = false ∨ ¬legal → fails .field) ∧
        ∀ f r c a, s.fieldOf p = some f → s.fieldPos f p = some (r, c) → f.gen r c 0 = some a → u.west? = true → legal →
          let rs := (List.range m).flatMap (fun j => (s.fedRows f r).flatMap (fun x => f.beatRanges a q0 j x.1))
          (rangesFit o.act.ptr rs = false → fails .capb) ∧
          (rangesFit o.act.ptr rs = true → s.srcHole (dieOf p) a o.act.ptr rs = true → fails .absent) ∧
          (rangesFit o.act.ptr rs = true → s.srcHole (dieOf p) a o.act.ptr rs = false →
            (u.feeds.length < 4 → does (fun v => (∃ x, v.opOf p k o.serial = some x ∧ x.act = o.act) ∧ SameMemory s v ∧ SameRegs s v ∧
              ∃ x, (v.plot p).fu.feeds = u.feeds ++ [x] ∧ x.serial = o.serial ∧ x.uid = t.uid ∧ x.ptr = o.act.ptr ∧ x.m = m ∧
                x.tile = b.extractLsb' 16 4 ∧ x.q0 = q0 ∧ x.fin = fin ∧ x.swap = swap ∧ x.eos = eos ∧ x.next = 0 ∧ x.released = false)) ∧
            (4 ≤ u.feeds.length → does (fun v => (v.plot p).fu.feeds = u.feeds ∧ SameMemory s v ∧ SameRegs s v ∧
              ∃ x, v.opOf p k o.serial = some x ∧ x.act = o.act ∧ x.queued = true)))) ∧
      (∀ b, o.act.kind = .wld b →
        (s.fieldOf p = none ∨ u.north? = false ∨ 2 ^ 16 ≤ b.toNat → fails .field) ∧
        ∀ f r c a, s.fieldOf p = some f → s.fieldPos f p = some (r, c) → f.gen r c 2 = some a → u.north? = true → b.toNat < 2 ^ 16 →
          let words := (List.range f.lr).flatMap (fun i => (List.range (s.localCols f c).length).map (fun j => (i, j)))
          let rs := words.flatMap (fun x => f.wordRanges a b.toNat x.1 x.2)
          (rangesFit o.act.ptr rs = false → fails .capb) ∧
          (rangesFit o.act.ptr rs = true → s.srcHole (dieOf p) a o.act.ptr rs = true → fails .absent) ∧
          (rangesFit o.act.ptr rs = true → s.srcHole (dieOf p) a o.act.ptr rs = false →
            (words = [] → does (fun v => s.over v p k o)) ∧
            (words ≠ [] → (∀ x ∈ u.wlds, x.serial ≠ o.serial) → does (fun v => (∃ x, v.opOf p k o.serial = some x ∧ x.act = o.act) ∧
              SameMemory s v ∧ SameRegs s v ∧ ∃ x, (v.plot p).fu.wlds = u.wlds ++ [x] ∧ x.serial = o.serial ∧ x.uid = t.uid ∧ x.ptr = o.act.ptr ∧
                x.n = b.toNat ∧ x.left = words)))) ∧
      (∀ a, o.act.kind = .aclr a →
        let i := a.toNat % 16
        (s.fieldOf p = none → fails .field) ∧
        ∀ f, s.fieldOf p = some f →
          let ps := if a.getLsbD 4 then (List.range f.cols).map (fun c => s.fieldPlot f (f.rows - 1) c) else [p]
          let bad := (a.getLsbD 4 = false ∧ u.south? = false) ∨ ∃ q ∈ ps, ((s.plot q).fu.tile i).rows = 0
          let busy := (∃ x ∈ f.passes, x.entered = true ∧ x.tile.toNat = i) ∨ ∃ q ∈ ps, ((s.plot q).fu.tile i).emptying = true
          (bad → fails .field) ∧ (¬bad → busy → exactly s) ∧
          (¬bad → ¬busy → does (fun v => s.over v p k o ∧ SameMemory s v ∧ ∀ q ∈ ps,
            let x := (s.plot q).fu.tile i
            let y := (v.plot q).fu
            (y.tile i).st = .empty ∧ (y.tile i).prog = 0 ∧ (y.tile i).cur = 0 ∧ (y.tile i).rows = x.rows ∧ (y.tile i).base = x.base ∧
            (∀ r < x.rows, ∀ h < 16, y.accAt (x.base + r) h = 0) ∧ y.prow i = none))) ∧
      (∀ a, o.act.kind = .asta a → does (fun v => SameMemory s v ∧
        s.lands v p k o (.int (if s.fieldOf p ≠ none ∧ u.south? = true then u.tileWord (a.toNat % 16) else 0))))) ∧
   (∀ (s t : State) (p k : Nat) (h : Bool) (cx : Cx) (x b : BitVec 64), s.readyToCommit p h cx t → cx.blk.acts = [(k, { kind := .aset x b })] →
      cx.blk.stays → (∀ r ∈ cx.blk.slots, r.pop = none) → t.fieldOf p ≠ none →
      ∃ u, exec (.blockCommit p h) s = .next u ∧
        let cap := (max 1 (min 1024 b.toInt)).toNat
        let set := fun (y z : AdmPort) => z.pcap = cap ∧ z.ocap = y.ocap ∧ z.cnt = min y.cnt (min y.ocap cap)
        if x.getLsbD 0 then set (t.plot p).fu.port1 (u.plot p).fu.port1 ∧ (u.plot p).fu.port0 = (t.plot p).fu.port0
        else set (t.plot p).fu.port0 (u.plot p).fu.port0 ∧ (u.plot p).fu.port1 = (t.plot p).fu.port1)

/-- R62, R288, R298 and R302 in the slot: the sends capture their port and value, FP as FP32, and CHC its argument. R66, R67, R291, R292,
R296, R299 to R301 and R303: the receive forms. A port that is no receive end, a form that does not fit, a broken rill and a token where data is
wanted trap with their codes, in that order; END has no form to fit and traps a latest-value rill after a broken one, LAT any other kind of port
before a broken one. An item not there yet stalls; an element gives its value, which the commit consumes; a BF16 NaN widens to the canonical NaN.
END is true at an EOS, which it consumes, and false at data, on which its block then stands; STAT and LAT give their words. A form whose D clashes
finds DECODE. That STAT traps at every port of a broken rill, a join that it feeds among them, is the model's reading (log 63), and so is the tag that FP gives a NaN or infinity (log
67). R288, R292, R293, R298 and R302 at the commit: a send appends its item to the send buffer, or to the reservoir in the bank when that is full or not empty, and
re-evaluates back-pressure; a latest-value end numbers it and, full, lets the oldest go; CHC binds the wake bit, returns credits to the end upstream, or
sets HIGH and LOW. -/
def Obligations.RillForms : Prop :=
   (∀ (s : State) (cx : Cx) (p : Pred) (a b c e : Opnd) (q x : BitVec 64) (w : FReg) (v : VReg),
      s.runs cx p → cx.int a = .val q → cx.int b = .val x → cx.fp c = .val w → cx.vec e = .val v →
      Asks s cx (.chsInt p a b) { kind := .chs q .int (BitVec.ofNat 512 x.toNat) } ∧
      Asks s cx (.chsFp p a c) { kind := .chs q .fp (BitVec.ofNat 512 (w.bits.toNat % 2 ^ 32)) } ∧
      Asks s cx (.chsVec p a e) { kind := .chs q .vec v.lanes } ∧
      Asks s cx (.chsEos p a) { kind := .chs q .eos 0 } ∧
      Asks s cx (.chsMark p a b) { kind := .chs q .mark (BitVec.ofNat 512 (x.toNat % 2 ^ 16)) } ∧
      Asks s cx (.chcBind p a b) { kind := .bind q x } ∧
      Asks s cx (.chcCred p a b) { kind := .cred q x } ∧
      Asks s cx (.chcSpst p a b) { kind := .spst q x }) ∧
   (∀ (s : State) (cx : Cx) (p : Pred) (d : Dst) (a : Opnd) (q : BitVec 64) (k : Nat),
      s.runs cx p → cx.int a = .val q →
      let port := q.toNat
      let r := s.rill cx.p port
      let traps := fun (i : Instr) (code : Nat) =>
        exec i s = .next (s.abortSlot cx { cause := .rill, info := BitVec.ofNat 64 (code * 256 + port % 256) })
      let waits := fun (i : Instr) => exec i s = .next ((s.waitsOn cx.p cx.t port false).stallGate cx (.rill port k))
      let ends := fun (i : Instr) (v : Val) (pop : Option Pop) => Ends s s cx i { val := some v, dst := d, pop := pop }
      let form := fun (i : Instr) (f : ChsForm) (v : BitVec 512 → Val) =>
        (63 < port ∨ r.role ≠ 2 → traps i 1) ∧
        (port ≤ 63 → r.role = 2 → (r.fits f = false → traps i 2) ∧ (r.fits f = true →
          (r.broken = true → traps i 7) ∧
          (r.broken = false → cx.lowerItems port = .val k →
            (r.item k = none → waits i) ∧ (r.item k = some .eos → traps i 5) ∧
            ∀ ws seq, r.item k = some (.data ws seq) → ends i (v ws) (some (if r.latest then .latest port seq else .rill port)))))
      form (.chrInt p d a) .int (fun ws => .int (if r.fmt = 4 then (ws.extractLsb' 0 32).signExtend 64 else ws.extractLsb' 0 64)) ∧
      form (.chrFp p d a) .fp (fun ws =>
        let b := if r.fmt = 1 then (if (bf16.dec (ws.toNat % 2 ^ 16)).isNan then 0x7FC00000 else BitVec.ofNat 64 (ws.toNat % 2 ^ 16 * 2 ^ 16))
          else BitVec.ofNat 64 (ws.toNat % 2 ^ 32)
        .fp ⟨b, BitVec.ofNat 6 (if (fp32.dec b.toNat).isFin then (if r.fmt = 1 then 8 else 24) else 0)⟩) ∧
      form (.chrVec p d a) .vec (fun ws => .vec (vecOfElem r.fmt ws)) ∧
      (63 < port ∨ r.role ≠ 2 → traps (.chrEnd p d a) 1) ∧
      (port ≤ 63 → r.role = 2 → (r.broken = true → traps (.chrEnd p d a) 7) ∧
        (r.broken = false → cx.lowerItems port = .val k →
          (r.latest = true → traps (.chrEnd p d a) 3) ∧
          (r.latest = false → (r.item k = none → waits (.chrEnd p d a)) ∧
            (r.item k = some .eos → ends (.chrEnd p d a) (.pred true) (some (.rill port))) ∧
            ∀ ws seq, r.item k = some (.data ws seq) → ends (.chrEnd p d a) (.pred false) (some (.head port))))) ∧
      let torn := r.broken = true ∨ r.role = 3 ∧ ∃ u ∈ r.ups, (s.rill u.1 u.2).broken = true
      (63 < port → traps (.chrStat p d a) 1) ∧ (port ≤ 63 → torn → traps (.chrStat p d a) 7) ∧
      (port ≤ 63 → ¬torn → ends (.chrStat p d a) (.int r.stat) none) ∧
      (63 < port → traps (.chrLat p d a) 1) ∧ (port ≤ 63 → r.role ≠ 2 ∨ r.latest = false → traps (.chrLat p d a) 3) ∧
      (port ≤ 63 → r.role = 2 → r.latest = true → (r.broken = true → traps (.chrLat p d a) 7) ∧
        (r.broken = false → ends (.chrLat p d a)
          (.int (BitVec.ofNat 64 ((if r.valid then 2 ^ 33 else 0) + (if r.unread then 2 ^ 32 else 0) + r.seq.toNat))) none))) ∧
   (∀ (s t : State) (p k : Nat) (h : Bool) (cx : Cx) (q : BitVec 64) (c : CKind), s.readyToCommit p h cx t → cx.blk.stays →
      cx.blk.acts = [(k, { kind := c })] → (∀ x ∈ cx.blk.slots, x.pop = none) → Memory.wf t.mem = true →
      let r := t.rill p q.toNat
      let commits := fun (f : State → Rill → Prop) => ∃ u, exec (.blockCommit p h) s = .next u ∧ f u (u.rill p q.toNat)
      (∀ form x, c = .chs q form x →
        let item := r.itemOf form x
        (form = .eos → item = .eos) ∧ (form = .mark → item = .mark (x.extractLsb' 0 16)) ∧
        (form = .int → item = .data (BitVec.ofNat 512 (x.toNat % 2 ^ (if r.fmt = 4 then 32 else 64))) 0) ∧
        (form = .fp → r.fmt ≠ 1 → item = .data (BitVec.ofNat 512 (x.toNat % 2 ^ 32)) 0) ∧
        commits (fun u y => y.refused = false ∧
          (r.latest = true → y.seq = r.seq + 1 ∧ SameMemory t u ∧ ∃ z, y.buf = (if r.room r.buf item then r.buf else r.buf.drop 1) ++ [z] ∧
            (∀ ws n, item = .data ws n → z = .data ws (r.seq + 1))) ∧
          (r.latest = false →
            let n := r.res.length
            if r.spill = true ∧ (r.res ≠ [] ∨ r.room r.buf item = false) then
              y.res = r.res ++ [item] ∧ y.buf = r.buf ∧ y.bp = (if r.high < n + 1 then true else if n + 1 < r.low then false else r.bp) ∧
              (∀ j < (r.itemBytes item).length, u.rdByte (mkAddr 1 p (4096 * r.rbase + 64 * ((r.ringHead + n) % (64 * r.rsize))) + j) =
                (r.itemBytes item).getD j 0)
            else y.buf = r.buf ++ [item] ∧ y.res = r.res ∧ SameMemory t u))) ∧
      (∀ b, c = .bind q b → commits (fun _ y => y.wtask = b.toNat % 16 ∧ y.wbit = b.toNat / 16 % 16 ∧ y.wen = b.getLsbD 8)) ∧
      (∀ b, c = .cred q b → r.role = 2 → commits (fun u y => y.owed = r.owed - b.toNat ∧
        ∀ x, r.ups.head? = some x → (u.rill x.1 x.2).back = (t.rill x.1 x.2).back + b.toNat)) ∧
      (∀ b, c = .spst q b →
        let high := b.toNat % 2 ^ 21
        let low := b.toNat / 2 ^ 21 % 2 ^ 21
        commits (fun u y => y.high = high ∧ y.low = low ∧
          y.bp = (if high < r.res.length then true else if r.res.length < low then false else r.bp) ∧
          (y.hasRoom [.eos] = true → ∀ j < 16, j ≠ cx.t → (t.task p j).st = .wait → (t.task p j).wait = .rill q.toNat true → (u.task p j).st = .ready))))

/-- R62, R231, R232, R344 to R347, R354, R365 to R367, R370, R377, R379 and R380 in the slot: the task, context, cache and table forms and
HALTC capture their operands; TSTAT gives the fields of a slot, 0 of a slot number above 15. As they perform: SPAWN starts a task in the lowest FREE
slot and delivers it, or all ones; WAKE readies a SUSPENDED slot and sets wake bits; SPRI sets a priority at the commit; CSAVE finds PRIV deferred, waits for
a block that ends by itself, or writes the slot's frame and leaves it SAVED; CREST finds PRIV, POISON or what its frame's home meets deferred, or restores the
slot; INVO and INVA wait for the accesses in flight and remove entries from every cistern; PIN locks or unlocks an extent; TBLW finds PRIV deferred or
writes routes, thresholds or caps; HALTC ends the launch. That an ended target whose operations drain is PRIV is the model's reading (log 87). -/
def Obligations.TaskAndSystemForms : Prop :=
  (∀ (s : State) (cx : Cx) (p : Pred) (d : Dst) (mx : MX) (a b c : Opnd) (x y : BitVec 64) (q : Ptr),
    s.runs cx p → cx.free { dst := d } → cx.int a = .val x → cx.int b = .val y → cx.ptr c = .val q →
    Asks s cx (.taskSpawn p d a b) { kind := .spawn x y, dst := d } ∧
    Asks s cx (.taskWake p a b) { kind := .wake x y } ∧
    Asks s cx (.taskSpri p a b) { kind := .spri x y } ∧
    Asks s cx (.ctxCsave p mx c b) { kind := .csave y, mx := some mx, ptr := q } ∧
    Asks s cx (.ctxCrest p mx c b) { kind := .crest y, mx := some mx, ptr := q } ∧
    Asks s cx (.otcInvo p a) { kind := .invo x } ∧
    Asks s cx (.otcInva p a) { kind := .inva } ∧
    Asks s cx (.otcPin p a b) { kind := .pin x y } ∧
    Asks s cx (.tblwRoute p mx c b) { kind := .tblw .route y, mx := some mx, ptr := q } ∧
    Asks s cx (.tblwName p mx c b) { kind := .tblw .name y, mx := some mx, ptr := q } ∧
    Asks s cx (.tblwHeat p mx c b) { kind := .tblw .heat y, mx := some mx, ptr := q } ∧
    Asks s cx (.tblwAdmc p mx c b) { kind := .tblw .admc y, mx := some mx, ptr := q } ∧
    Asks s cx (.haltc p a) { kind := .haltc x } ∧
    ∃ w : BitVec 64, Gives s cx (.taskTstat p d a) d (.int w) ∧ (15 < x.toNat → w = 0) ∧
      (x.toNat ≤ 15 →
        let t := s.task cx.p x.toNat
        let waited := ((s.die (dieOf cx.p)).cyc - t.since).toNat
        (w.extractLsb' 0 4).toNat = t.st.code.toNat ∧ (w.extractLsb' 4 4).toNat = t.pri.toNat ∧
        (w.extractLsb' 8 4).toNat = (if t.st = .ready then min 7 (t.pri.toNat + waited / 4096) else t.pri.toNat) ∧
        (w.extractLsb' 12 3).toNat = t.wait.kind ∧ w.getLsbD 15 = decide (t.pend ≠ 0) ∧ w.extractLsb' 16 16 = t.wake ∧
        w.extractLsb' 32 32 = 0)) ∧
  (∀ (s : State) (p k pick : Nat) (o : Op), s.performs p k o →
    let does := s.does p k o pick
    let exactly := fun (t : State) => exec (.commitOpPerform p k o.serial pick) s = .next t
    let defers := fun (c : CauseRec) => does (fun u => s.defers u p k o c)
    let t := s.task p k
    let pos := o.act.ptr.start + o.act.ptr.cur.toNat
    let homes := fun (n : Nat) => s.partHomes (dieOf p) o.act.ptr (piecesOf pos n)
    (∀ a b, o.act.kind = .spawn a b →
      ((∀ j < 16, (s.task p j).st ≠ .free) → does (fun u => s.lands u p k o (.int (BitVec.allOnes 64)) ∧ ∀ j, j ≠ k → u.task p j = s.task p j)) ∧
      ∀ j < 16, (s.task p j).st = .free → (∀ i < j, (s.task p i).st ≠ .free) →
        does (fun u => s.lands u p k o (.int (BitVec.ofNat 64 j)) ∧ (∀ i, i ≠ k → i ≠ j → u.task p i = s.task p i) ∧
          let v := u.task p j
          v.st = .ready ∧ v.bpc = a.extractLsb' 0 40 ∧ v.launch = t.launch ∧ v.priv = o.priv ∧ v.pri = o.pri ∧ v.ops = [] ∧
          v.regs.getG 0 = b ∧ (∀ i : Fin 64, i ≠ 0 → v.regs.g[i] = 0) ∧ (∀ i : Fin 7, v.regs.c[i.val]? = some o.regs[i]) ∧
          v.regs.c[7] = s.privPtr p t.launch j)) ∧
    (∀ a b, o.act.kind = .wake a b →
      (15 < a.toNat → does (fun u => s.over u p k o ∧ ∀ j, j ≠ k → u.task p j = s.task p j)) ∧
      (a.toNat ≤ 15 →
        let j := a.toNat
        let x := s.task p j
        let bits := b.extractLsb' 0 16
        does (fun u => s.over u p k o ∧ (∀ i, i ≠ k → i ≠ j → u.task p i = s.task p i) ∧
          (x.st ≠ .free → (u.task p j).wake = x.wake ||| bits) ∧ (x.st = .free → u.task p j = x) ∧
          (x.st = .suspended → (u.task p j).st = .ready) ∧
          (∀ m, x.st = .wait → x.wait = .park m → (u.task p j).st = if (x.wake ||| bits) &&& m = 0 then .wait else .ready)))) ∧
    (∀ b, o.act.kind = .csave b → (s.plot p).ctxBefore o.serial b = false →
      let j := (b.extractLsb' 0 4).toNat
      let x := s.task p j
      (o.made = true → does (fun u => s.over u p k o)) ∧
      (o.made = false → o.queued = false → j = k ∨ x.st = .free ∨ x.st = .saved ∨ x.leaving = .ended → defers { cause := .priv }) ∧
      (o.made = false → o.queued = false → j ≠ k → x.st ≠ .free → x.st ≠ .saved → x.leaving = .no →
        ((s.plot p).aborting j = true ∨ s.blockDue p j = true → exactly s) ∧
        ((s.plot p).aborting j = false → s.blockDue p j = false → x.halting = false → x.ops = [] → x.hostOps = [] →
          ∀ ps m, o.act.mx = some m → homes 4096 = .ok ps → (∀ y ∈ s.takes, y.plot ≠ p) →
          (∀ y ∈ ps, s.hostLost y.1 = false ∧ s.mirrorOf y.1 = none ∧ 0 < y.2.2 ∧ y.1 % 32 + y.2.2 ≤ 32 ∧ y.2.1 + y.2.2 ≤ 4096 ∧
            inSteward y.1 = false) →
          ps.Pairwise (fun y z => y.1 / 32 ≠ z.1 / 32) → Memory.wf s.mem = true →
          let frame := (s.setTask p j { x with causeWt := s.wtimeOf p, causeStrm := x.strmWord }).frameBytes p j x.bpc none x.wait
          does (fun u => (∀ y ∈ ps, ∀ i < y.2.2, u.rdByte (y.1 + i) = frame.getD (y.2.1 + i) 0) ∧
            (∀ b, (∀ y ∈ ps, b < y.1 ∨ y.1 + y.2.2 ≤ b) → u.rdByte b = s.rdByte b) ∧
            (u.task p j).st = .saved ∧ (u.task p j).frameAt = some (o.act.ptr, pos) ∧ (u.task p j).regs = x.regs ∧
            (m.scope ≠ .host → s.over u p k o) ∧
            (s.over u p k o ∨ ∃ y, u.opOf p k o.serial = some y ∧ y.act = o.act ∧ y.made = true))))) ∧
    (∀ b, o.act.kind = .crest b → (s.plot p).ctxBefore o.serial b = false →
      let j := (b.extractLsb' 0 4).toNat
      let x := s.task p j
      (homes 4096 = .wait → exactly s) ∧ (∀ c, homes 4096 = .bad c → defers c) ∧
      ∀ ps, homes 4096 = .ok ps →
        let poisoned := fun (y : Piece) => !isHost y.1 && (s.sideAt y.1).poison
        (∀ y, ps.find? poisoned = some y → defers { cause := .poison, phys := BitVec.ofNat 64 y.1 }) ∧
        (ps.find? poisoned = none → (∀ y ∈ ps, s.hostLost y.1 = false) →
          let bs := ps.flatMap (fun y => s.rdBytes y.1 y.2.2)
          let word := fun (i : Nat) => BitVec.ofNat 64 (leNat ((bs.drop i).take 8))
          let fits := (x.st = .free ∨ x.st = .saved) ∧ (word 8).extractLsb' 0 3 = 4 ∧ (word 0).extractLsb' 40 24 = 0 ∧
            (word 8).extractLsb' 42 22 = 0 ∧ (word 8).extractLsb' 28 4 = 0 ∧ (word 8).extractLsb' 3 5 = 0
          (¬fits → defers { cause := .priv }) ∧
          (fits → j ≠ k → does (fun u => s.over u p k o ∧
            let v := u.task p j
            v.st = (if b.getLsbD 8 then .suspended else .ready) ∧ v.wait = .none ∧ v.bpc = (word 0).extractLsb' 0 40 ∧
            v.priv = ((word 0xB08).getLsbD 48 && o.priv) ∧ v.launch = (word 0xB08).extractLsb' 16 32 ∧ v.pri = (word 0xB10).extractLsb' 0 3 ∧
            (∀ i : Fin 64, v.regs.g[i] = word (0x100 + 8 * i.val)) ∧ (∀ i : Fin 32, v.regs.f[i].bits = word (0x300 + 8 * i.val)))))) ∧
    (∀ a, o.act.kind = .invo a →
      let obj := a.extractLsb' 0 24
      (s.pendingOn (fun x => x == obj) = true → exactly s) ∧
      (s.pendingOn (fun x => x == obj) = false → does (fun u => s.over u p k o ∧
        ∀ d, (u.die d).otc = (s.die d).otc.filter (fun e => e.obj != obj) ∧
          (u.die d).nodes = (s.die d).nodes.filter (fun e => !nodeOf obj e.1)))) ∧
    (o.act.kind = .inva →
      (s.pendingOn (fun _ => true) = true → exactly s) ∧
      (s.pendingOn (fun _ => true) = false → does (fun u => s.over u p k o ∧ ∀ d, (u.die d).otc = []))) ∧
    (∀ a b, o.act.kind = .pin a b →
      let obj := a.extractLsb' 0 24
      let i := (b.extractLsb' 0 16).toNat
      let absent := defers { cause := .absent, obj := obj }
      (s.lookup obj = .wait → exactly s) ∧ (s.lookup obj = .absent → absent) ∧
      ∀ d0 d1 desc, s.lookup obj = .found d0 d1 desc →
        let x0 := s.rdW (s.extAddr desc d1 i)
        let x1 := s.rdW (s.extAddr desc d1 i + 8)
        (d1.getLsbD 0 = false ∨ d1.extractLsb' 2 2 = 3 ∨ (d1.extractLsb' 16 16).toNat ≤ i ∨ x0.getLsbD 63 = false → absent) ∧
        (d1.getLsbD 0 = true → d1.extractLsb' 2 2 ≠ 3 → i < (d1.extractLsb' 16 16).toNat → x0.getLsbD 63 = true → b.getLsbD 17 = false →
          does (fun u => s.over u p k o ∧ SameMemory s u ∧ ∀ d < 84,
            (b.getLsbD 16 = false → (s.die d).otc.length ≤ 512 → (u.die d).otc =
              (s.die d).otc.map (fun e => if e.obj = obj ∧ e.ext = i then { e with locked := false } else e)) ∧
            (b.getLsbD 16 = true → (s.die d).otc.length < 512 → ∃ e ∈ (u.die d).otc, e.obj = obj ∧ e.ext = i ∧ e.x0 = x0 ∧ e.x1 = x1 ∧
              e.d0 = d0 ∧ e.d1 = d1 ∧ ((s.die d).locked ≠ 128 → e.locked = true))))) ∧
    (∀ kind b, o.act.kind = .tblw kind b →
      let n := tblwCount kind b
      let looks := s.partHomesBy false (dieOf p) o.act.ptr (piecesOf pos (8 * n))
      (looks = .wait → exactly s) ∧ (∀ c, looks = .bad c → defers c) ∧
      ∀ ps, looks = .ok ps → ps.find? (fun y => !isHost y.1 && (s.sideAt y.1).poison) = none → (∀ y ∈ ps, s.hostLost y.1 = false) →
        let bs := ps.flatMap (fun y => s.rdBytes y.1 y.2.2)
        let words := (List.range n).map (fun i => BitVec.ofNat 64 (leNat ((bs.drop (8 * i)).take 8)))
        (s.tblwOk kind b words = false → defers { cause := .priv }) ∧
        (s.tblwOk kind b words = true →
          (kind = .heat → does (fun u => s.over u p k o ∧ ∀ w, words = [w] → u.mod.thi = w.extractLsb' 0 8 ∧ u.mod.tlo = w.extractLsb' 8 8)) ∧
          (kind = .route → does (fun u => s.over u p k o ∧ ∀ i < n,
            (u.plot (b.toNat / 2 ^ 32 % 2 ^ 16)).route (b.toNat % 256 + i) = (words.getD i 0).extractLsb' 0 12)) ∧
          (kind = .admc → does (fun u => s.over u p k o ∧ ∀ w, words = [w] →
            let q := w.toNat % 2 ^ 16
            let port := fun (u : State) => if w.getLsbD 16 then (u.plot q).fu.port1 else (u.plot q).fu.port0
            (port u).ocap = (w.extractLsb' 17 11).toNat ∧ (port u).pcap = (port s).pcap ∧ (port u).cnt = min (port s).cnt (port u).ecap)) ∧
          (kind = .name → exactly ((words.foldl (fun s w => match s.nameEntry w with
            | some (x, y) => s.rebind x y
            | none => s) s).finishOp p k o none)))) ∧
    (∀ a, o.act.kind = .haltc a → does (fun u => ∀ l, s.launch? t.launch = some l → l.st ≠ .ending →
      ∃ m, u.launch? t.launch = some m ∧ m.st = .ending ∧ m.kind = 0x17 ∧ m.reason = a.extractLsb' 0 32))) ∧
  (∀ (s t : State) (p k : Nat) (h : Bool) (cx : Cx) (x b : BitVec 64), s.readyToCommit p h cx t → cx.blk.stays →
    cx.blk.acts = [(k, { kind := .spri x b })] → x.toNat ≤ 15 → (t.task p x.toNat).st ≠ .free →
    ∃ u, exec (.blockCommit p h) s = .next u ∧ (u.task p x.toNat).pri = b.extractLsb' 0 3)

/-! ## Exceptions -/

/-- R117, R218 and R220: taking TRAP, SIG, SOFT, RILL, DEADLK or ENGINE in a task with a handler that is not active, whose frame fits its
private area and which is owed no late result. The block goes, the header of the frame is written at SY.FRAME with the block's address, the
cause, the slot, the lane, the number, the addresses and INFO, and SY.STRM and the wafer time of the cause; SY.TRAPV.ACT is set and the task is
READY at the handler; what R304 knows of its waits is set aside for the return. Every other register of the task and every other byte of memory
is as before. That the header alone is written, without
the tags, and that a part of the frame behind a host link that is down is not, are the model's readings (logs 64 and 68). -/
def Obligations.ProgramTrapEntersHandler : Prop :=
  ∀ (s : State) (p k : Nat) (c : CauseRec) (bpc : BitVec 40) (ps : List Piece), k < 16 →
    c.cause ∈ [Cause.trap, .sig, .soft, .rill, .deadlk, .engine] →
    let t := s.task p k
    let off := 256 * t.frame.toNat
    let header := frameHeader { t with causeWt := s.wtimeOf p, causeStrm := t.strmWord } bpc (some c) 2
    t.trapv.getLsbD 1 = true → t.trapv.getLsbD 0 = false → off + 256 ≤ (s.privArea p t.launch k).2 → t.anyLate = false → t.st ≠ .saved →
    s.partHomes (dieOf p) (s.privPtr p t.launch k) (piecesOf off 256) = .ok ps → Memory.wf s.mem = true →
    (∀ x ∈ ps, s.mirrorOf x.1 = none ∧ 0 < x.2.2 ∧ x.1 % 32 + x.2.2 ≤ 32 ∧ x.2.1 + x.2.2 ≤ 256 ∧ inSteward x.1 = false) →
    ps.Pairwise (fun x y => x.1 / 32 ≠ y.1 / 32) → (∀ x ∈ ps, s.hostLost x.1 = false) →
    let u := s.takeException p k c bpc
    (∃ n, u.task p k = { t with
        st := .ready, wait := .none, since := s.cycOf p, turn := n, levelE := 8, trapv := t.trapv ||| 1, bpc := t.trapv &&& ~~~7, far := false
        leaving := .no, rwait := [], rheld := some (bpc, t.rwait), causeWt := s.wtimeOf p, causeStrm := t.strmWord }) ∧
    (∀ x ∈ ps, ∀ j < x.2.2, u.rdByte (x.1 + j) = (wordBytes header).getD (x.2.1 + j) 0) ∧
    (∀ b, (∀ x ∈ ps, b < x.1 ∨ x.1 + x.2.2 ≤ b) → u.rdByte b = s.rdByte b) ∧
    (∀ q j, ¬(q = p ∧ j = k) → (u.task q j).regs = (s.task q j).regs) ∧
    header[0]? = some (bpc.zeroExtend 64) ∧
    header[1]? = some (BitVec.ofNat 64 ((if c.defer then 2 ^ 41 else 0) + (if c.async then 2 ^ 40 else 0) + c.num.toNat * 2 ^ 32 +
      c.lane % 16 * 2 ^ 24 + c.slot % 256 * 2 ^ 16 + c.cause.code.toNat * 2 ^ 8 + 2)) ∧
    header[2]? = some (c.off ++ c.obj) ∧ header[3]? = some c.phys ∧ header[4]? = some t.strmWord ∧
    header[5]? = some (s.wtimeOf p) ∧ header[6]? = some c.info ∧ header.length = 32

/-- R113, R117, R218 and R234: a system fault, a program trap without a handler or inside one, and one whose frame does not fit (which
becomes CAPB), end the task. Its block goes, one error record is handed to the completion queue of its launch, its registers are gone once
nothing it issued is outstanding, and no byte of memory changes; nor does a sideband or another task, unless the block had begun to empty the
words of a TAKE. Which fields of the record a failed trap entry keeps is the reading of log 44; that a system fault inside a handler leaves NESTED clear is that of
log 74. -/
def Obligations.FaultEndsTask : Prop :=
  ∀ (s : State) (p k : Nat) (c : CauseRec) (bpc : BitVec 40), k < 16 → c.cause ≠ .page →
    let t := s.task p k
    let program := c.cause ∈ [Cause.trap, .sig, .soft, .rill, .deadlk, .engine]
    let off := 256 * t.frame.toNat
    let bad := t.trapv.getLsbD 1 = false ∨ t.trapv.getLsbD 0 = true
    let e : CauseRec := if ¬program then c else if bad then { c with nested := t.trapv.getLsbD 0 } else
      { cause := .capb, slot := c.slot, lane := c.lane, obj := (s.privArea p t.launch k).1, off := BitVec.ofNat 40 off }
    ¬program ∨ bad ∨ (s.privArea p t.launch k).2 < off + 256 →
    let u := s.takeException p k c bpc
    (t.ops = [] → u.task p k = {}) ∧ (t.ops ≠ [] → (u.task p k).leaving = .ended ∧ (u.task p k).st = .running ∧ (u.task p k).ops = t.ops) ∧
    (∀ b, u.rdByte b = s.rdByte b) ∧ (∀ q j, ¬(q = p ∧ j = k) → (u.task q j).regs = (s.task q j).regs) ∧
    ((∀ x ∈ s.takes, x.plot ≠ p) → SameMemory s u ∧ ∀ q j, ¬(q = p ∧ j = k) → u.task q j = s.task q j) ∧
    ∀ (l : Launch) (h : l.q < 8), s.launch? t.launch = some l →
      (u.queues[l.q]).waiting = (s.queues[l.q]).waiting ++ [errWords 0x01 p k t.launch bpc e false (s.wtimeOf p) 0] ∧
      ∃ m, u.launch? t.launch = some m ∧ m.errs = l.errs + 1

/-- R223 to R226, R234, R343, R349 and R351: a page fault in a task of a launch whose operations have all performed. Its full frame is written at
its place in the launch's save area: the 4,096 bytes of R223, whose general registers follow the header, at STAMP 4, the presence of their granules
and every other byte of memory as before. A record of KIND 0x02 with the wafer time of the fault goes to the launch's completion queue, the slot
is SAVED (log 58), and the page is remembered until the host answers for it. -/
def Obligations.PageFaultSavesTask : Prop :=
  ∀ (s : State) (p k i : Nat) (c : CauseRec) (bpc : BitVec 40) (id : BitVec 32) (l : Launch) (ps : List Piece) (h : l.q < 8), k < 16 →
    c.cause = .page →
    let t := s.task p k
    t.ops = [] → t.hostOps = [] → t.refault = none → (s.plot p).owner = some (id, i) → s.launch? id = some l → t.launch = id →
    let area := capPtr (l.cap 0x40)
    s.partHomes (dieOf p) area (piecesOf (area.start + 65536 * i + 4096 * k) 4096) = .ok ps → (∀ x ∈ ps, s.hostLost x.1 = false) →
    (∀ x ∈ s.takes, x.plot ≠ p) →
    (∀ x ∈ ps, s.mirrorOf x.1 = none ∧ 0 < x.2.2 ∧ x.1 % 32 + x.2.2 ≤ 32 ∧ x.2.1 + x.2.2 ≤ 4096 ∧ inSteward x.1 = false) →
    ps.Pairwise (fun x y => x.1 / 32 ≠ y.1 / 32) → Memory.wf s.mem = true →
    let u := s.takeException p k c bpc
    let frame := (s.setTask p k { t with causeWt := s.wtimeOf p, causeStrm := t.strmWord }).frameBytes p k bpc (some c) t.wait
    frame.length = 4096 ∧
    (∀ j < 64, leNat ((frame.drop (256 + 8 * j)).take 8) = (t.regs.getG (BitVec.ofNat 6 j)).toNat) ∧
    (∀ x ∈ ps, ∀ j < x.2.2, u.rdByte (x.1 + j) = frame.getD (x.2.1 + j) 0) ∧
    (∀ b, (∀ x ∈ ps, b < x.1 ∨ x.1 + x.2.2 ≤ b) → u.rdByte b = s.rdByte b) ∧
    (∀ x ∈ ps, isHost x.1 = false → (u.sideAt x.1).stamp = 4 ∧ (u.sideAt x.1).pres = (s.sideAt x.1).pres) ∧
    (∀ b, (∀ x ∈ ps, b / 32 ≠ x.1 / 32) → u.sideAt b = s.sideAt b) ∧
    u.task p k = { t with
      st := .saved, leaving := .no, bpc := bpc, saveTo := none, frameAt := some (area, area.start + 65536 * i + 4096 * k)
      strmSet := some t.strmWord, seqSet := some (BitVec.ofNat 6 t.seqOps), causeWt := s.wtimeOf p, causeStrm := t.strmWord } ∧
    (u.queues[l.q]).waiting = (s.queues[l.q]).waiting ++ [errWords 0x02 p k id bpc c false (s.wtimeOf p) 0] ∧
    u.faulted = s.faulted ++ [{ launch := id, p := i, k := k, uid := t.uid, obj := c.obj, pg := c.off.extractLsb' 12 28,
                                handles := t.handles }] ∧
    ∀ q j, ¬(q = p ∧ j = k) → u.task q j = s.task q j

/-- R116 and R117: TRAP at the commit. Its block is committed, its registers written and its operations issued; then the trap enters the handler with the
address behind the block in the frame, once no late result of the block is outstanding (R177), or, without a handler or in one, ends the task with
a record. A task with operations outstanding leaves its slot only with the last of them. That the record of a trap that ends the task names the address behind the
block is the model's reading (log 86). -/
def Obligations.TrapInstructionTraps : Prop :=
  ∀ (s t : State) (p : Nat) (h : Bool) (cx : Cx) (n : BitVec 8), s.readyToCommit p h cx t → cx.blk.branch = some (.trap n) →
    (∀ x ∈ cx.blk.acts, (x.2.kind.immediate = false ∨ x.2.kind.isTake = true) ∧ x.2.kind.accTile = none) →
    (∀ r ∈ cx.blk.slots, r.pop = none) → cx.task.ops = [] →
    let k := cx.blk.slots.findIdx (fun r => r.st == .done && r.br.isSome)
    let next := BitVec.ofNat 40 (cx.blk.bpc.toNat + 8 * (cx.blk.words.length + 1))
    let off := 256 * cx.task.frame.toNat
    let ends := cx.task.trapv.getLsbD 1 = false ∨ cx.task.trapv.getLsbD 0 = true
    let issued := cx.blk.acts.filter (fun x => !x.2.kind.immediate)
    ∃ u, exec (.blockCommit p h) s = .next u ∧ (u.plot p).half h = {} ∧
      let v := u.task p cx.t
      let written :=
        (∀ r ∈ cx.blk.slots, ∀ w, r.st = .done → r.val = some w → w.fits r.dst →
          (∀ q ∈ cx.blk.slots, q.st = .done → q.val.isSome → q.dst = r.dst → q = r) → v.regs.at r.dst = some w.stored) ∧
        (∀ d, (∀ r ∈ cx.blk.slots, r.st = .done → r.val.isSome → r.dst ≠ d) → v.regs.at d = cx.task.regs.at d) ∧
        v.ops.map (fun o => (o.slot, o.act)) = issued
      (ends → issued = [] → v = {}) ∧
      (ends → issued ≠ [] → written ∧ v.leaving = .ended ∧ v.st = .running) ∧
      (¬ends → off + 256 ≤ (t.privArea p cx.task.launch cx.t).2 →
        (∃ ps, t.partHomes (dieOf p) (t.privPtr p cx.task.launch cx.t) (piecesOf off 256) = .ok ps) →
        written ∧
        ((∀ x ∈ issued, x.2.dst = .none) → v.bpc = cx.task.trapv &&& ~~~7 ∧ v.trapv = cx.task.trapv ||| 1 ∧ v.st = .ready) ∧
        ((∃ x ∈ issued, x.2.dst ≠ .none) → v.st = .running ∧ v.leaving = .trapping { cause := .trap, num := n, slot := k } next false)) ∧
      ∀ (l : Launch) (hq : l.q < 8), ends → s.launch? cx.task.launch = some l →
        (u.queues[l.q]).waiting = (s.queues[l.q]).waiting ++ [errWords 0x01 p cx.t cx.task.launch next
          { cause := .trap, num := n, slot := k, nested := cx.task.trapv.getLsbD 0 } false (s.wtimeOf p) 0]

/-! ## Every instruction -/

/-- R64, R65, R69, R96 and R177: a slot that would write a register or system register which an executed slot of its block writes, now or by a late
result, or branch in a block that has branched, finds DECODE, which aborts the block. This is said here of every form but the checked FP forms and
DRN, the loads, the waits on semaphores and barriers, and the receives, whose own statements say it. R61 and R63 for all 256 instructions: without a
waiting slot nothing happens; while its predicate is not yet known a slot waits; where the predicate fails, or is itself null, the slot is nullified:
its record says so and the counter of nullified slots advances. -/
def Obligations.NullifiedAndClashingSlots : Prop :=
   (∀ (cx : Cx) (r : SlotRec), ¬cx.free r ↔ ∃ q ∈ cx.blk.slots, q.st = .done ∧
      ((∃ d, d ≠ .none ∧ (r.dst = d ∨ ∃ c, r.act = some c ∧ c.dst = d) ∧ (q.dst = d ∨ ∃ c, q.act = some c ∧ c.dst = d)) ∨
       (∃ n v w c e, r.act = some c ∧ c.kind = .wrs n v ∧ q.act = some e ∧ e.kind = .wrs n w) ∨
       (r.br.isSome = true ∧ q.br.isSome = true))) ∧
   (∀ (s : State) (cx : Cx) (p : Pred) (d : Dst) (a b pa pb pc fa fb va vb vc q m za zb : Opnd) (x y g0 g1 : BitVec 64) (t0 t1 t2 : Bool)
      (f0 f1 : FReg) (v0 v1 v2 : VReg) (r : Ptr) (k : BitVec 16) (z0 z1 : Val) (imm : BitVec 19) (num : BitVec 12) (pos len link : BitVec 6)
      (fmt : Fmt) (rnd : Rnd) (mx : MX) (l : BitVec 4) (kc : VCmpOp) (km : VMnxOp) (wide : Bool) (pair : BitVec 5) (n : BitVec 8),
      s.runs cx p → cx.int a = .val x → cx.int b = .val y → cx.pred pa = .val t0 → cx.pred pb = .val t1 → cx.pred pc = .val t2 →
      cx.fp fa = .val f0 → cx.fp fb = .val f1 → cx.vec va = .val v0 → cx.vec vb = .val v1 → cx.vec vc = .val v2 → cx.ptr q = .val r →
      cx.mask m = .val k → cx.any za = .val z0 → cx.any zb = .val z1 → cx.int (.g (pair ++ 0#1)) = .val g0 → cx.int (.g (pair ++ 1#1)) = .val g1 →
      let decode := fun (t : State) (i : Instr) => exec i s = .next (t.abortSlot cx { cause := .decode })
      (¬cx.free { dst := d } →
        (∀ i ∈ [Instr.add p d a b, .addw p d a b, .adds p d a b, .addu p d a b, .sub p d a b, .subw p d a b, .subs p d a b, .subu p d a b,
            .mul p d a b, .mulw p d a b, .mulhs p d a b, .mulhu p d a b, .divs p d a b, .divu p d a b, .rems p d a b, .remu p d a b,
            .andI p d a b, .orI p d a b, .xorI p d a b, .andn p d a b, .orn p d a b, .xnor p d a b, .shl p d a b, .shr p d a b, .sra p d a b,
            .ror p d a b, .mins p d a b, .minu p d a b, .maxs p d a b, .maxu p d a b], decode s i) ∧
        (∀ i ∈ [Instr.clz p d a, .ctz p d a, .popc p d a, .brev p d a, .bswap p d a, .movi p d imm, .movx p d a imm, .extu p d a b, .exts p d a b,
            .ins p d a b pos len, .cmpEq p d a b, .cmpNe p d a b, .cmpLts p d a b, .cmpLes p d a b, .cmpLtu p d a b, .cmpLeu p d a b,
            .pand p d pa pb, .por p d pa pb, .pxor p d pa pb, .pnot p d pa, .tstnz p d a, .sel p d za zb pc, .mov p d za, .movgf p d a,
            .movfg p d fa, .rds p d num], decode s i) ∧
        (∀ i ∈ [Instr.ptr p d q b, .padd p d q b, .cget p d .cur q, .cget p d .base q, .cget p d .len q, .cget p d .idr q, .prbR p d q b,
            .prbW p d q b, .cfgFqry p d a, .admArd p d a, .semSrd p d a, .taskTstat p d a], decode s i) ∧
        (r.valid = true → r.low = 0 → r.isPhys = false → r.base + r.len ≤ 2 ^ 40 → r.rights.getLsbD 7 = true →
          r.cur.toNat + y.toNat % 2 ^ 40 ≤ r.len → decode s (.cder p d q b)) ∧
        (∀ i ∈ [Instr.amoAdd p d mx wide q a, .amoAnd p d mx wide q a, .amoOr p d mx wide q a, .amoXor p d mx wide q a, .amoMins p d mx wide q a,
            .amoMaxs p d mx wide q a, .amoMinu p d mx wide q a, .amoMaxu p d mx wide q a, .amoXchg p d mx wide q a, .amoFadd32 p d mx q fa,
            .amoFmax32 p d mx q fa, .amoFmin32 p d mx q fa, .cas32 p d mx q a, .cas64 p d mx q pair, .bara p d a, .taskSpawn p d a b,
            .accAsta p d a, .cfgConf p d mx q a], decode s i) ∧
        (∀ i ∈ [Instr.fmin p d fmt fa fb, .fmax p d fmt fa fb, .fminm p d fmt fa fb, .fmaxm p d fmt fa fb, .fcmpEq p d fmt fa fb,
            .fcmpLt p d fmt fa fb, .fcmpLe p d fmt fa fb, .fcmpUn p d fmt fa fb, .fcmpEqs p d fmt fa fb, .fcviFs p d fmt rnd fa,
            .fcviFu p d fmt rnd fa, .fabs p d fmt fa, .fneg p d fmt fa, .fcps p d fmt fa fb, .fcls p d fmt fa, .fsigr p d fmt fa,
            .fsigw p d fmt fa a, .fsiglt p d fmt fa a], decode (s.bump cx.p 15 1) i) ∧
        (∀ i ∈ [Instr.vmnx p d km va vb, .vcmp p d kc va vb, .vselSet p d va m, .vselClr p d va m, .vbc p d .f32 fa, .vbc p d .i32 a,
            .vperm p d va vb, .vext p d .f32 va a, .vext p d .i32 va a, .vins p d .f32 l va fa, .vins p d .i32 l va a, .vidx p d,
            .vshr p d va a, .vand p d va vb, .vor p d va vb, .vxor p d va vb, .vshl p d va vb, .vshrl p d va vb, .vsra p d va vb,
            .vsigRd p d va, .vsigMin p d va a, .vsigLt p d va a, .vadd p d .i32 va vb, .vsub p d .i32 va vb, .vmul p d .i32 va vb,
            .vfma p d .i32 va vb vc, .vscl p d .i32 va a, .vcvtI32F32 p d va, .vqntE4m3Sat p d va fa, .vqntE4m3Nan p d va fa,
            .vqntInt8 p d va fa, .vqntInt4 p d va fa, .vqntMxfp4 p d va vb, .vqntMxint8 p d va vb, .vqntMxfp8 p d va vb],
            decode (s.bump cx.p 16 1) i)) ∧
      (¬cx.free { br := some .endt } → ∀ i ∈ [Instr.br p imm, .brx p a, .ret p a, .endt p, .yieldT p, .park p a, .trap p n, .tret p, .tretAt p a],
        decode s i) ∧
      (¬cx.free { dst := .g link, br := some .endt } → decode s (.call p link imm)) ∧
      (¬cx.free { act := some { kind := .wrs num.toNat x } } → decode s (.wrs p num a))) ∧
   (∀ (i : Instr) (f : Fields) (p : Pred) (s : State), i.fields = some f → f.pred = some p →
      (s.cx? = none → exec i s = .next s) ∧
      ∀ cx, s.cx? = some cx →
        (cx.predicate p = .wait → exec i s = .next s) ∧
        (cx.predicate p = .val false ∨ cx.predicate p = .null →
          exec i s = .next ((s.setSlot cx { st := .nulled, cyc := s.cycOf cx.p }).bump cx.p 4 1)))

/-- R61: no instruction and no event stops the machine: each has a next state, whatever the state. -/
def Obligations.NothingStops : Prop := ∀ (i : Instr) (s : State), ∃ t, exec i s = .next t

/-- R62, R68 and R69: executing a slot writes no register, no memory and no sideband. R69 and R70: a cause that it finds stands in the block
with the slot's number, before any cause of a higher slot, and is taken when the cycle ends, at the block's address. R49 and R69: SIGLOST is set
by a SIG that is taken, and by no trigger that another cause comes before. -/
def Obligations.SlotsWriteNothing : Prop :=
  (∀ (i : Instr) (s t : State), i.fields.isSome = true → exec i s = .next t → t.mem = s.mem ∧ t.side = s.side ∧ SameRegs s t) ∧
  (∀ (s : State) (cx : Cx) (c : CauseRec), s.cx? = some cx →
    ((s.abortSlot cx c).plot cx.p).half cx.half = { task := some cx.t, blk := some { cx.blk with abort := some { c with slot := cx.k } } }) ∧
  ∀ (s : State) (p : Nat) (h : Bool) (k : Nat) (b : Block) (c : CauseRec), (s.plot p).half h = { task := some k, blk := some b } →
    b.abort = some c → (∀ d, ((s.plot p).half (!h)).blk = some d → d.abort = none) →
    s.takeAborts p = (if c.cause = .sig then s.onTask p k (fun t => { t with sigctl := t.sigctl ||| 0x80 }) else s).takeException p k c b.bpc

/-- A step does what the head of the agenda says, or what the first directive of a new round says when the agenda is empty: it executes the
instruction that the word of the named slot decodes to, or lets the event take place. The order is the model's own (log 1). -/
def Obligations.StepRunsDecoded : Prop :=
  ∀ (s : State) (rest : List Directive), s.agenda = [] ∧ rest = s.round.drop 1 ∨ rest = s.agenda.drop 1 ∧ s.agenda ≠ [] →
    let head := if s.agenda = [] then s.round.head? else s.agenda.head?
    (∀ p h k pick w i, head = some (.slot p h k pick) → s.slotWord p h k = some w → decode w = some i →
      step s = exec i { s with agenda := rest, focus := ⟨p, h, k, pick, false⟩ }) ∧
    (∀ e, head = some (.event e) → e.fields = none → step s = exec e { s with agenda := rest }) ∧
    (∀ p h k pick, head = some (.slot p h k pick) → s.slotWord p h k = none → step s = .next { s with agenda := rest }) ∧
    (head = none → step s = .next s)

/-- Words written out from the encodings of R52 to R56 and R77 to R87 decode to what they stand for. -/
def Obligations.WordsDecode : Prop :=
  decode 0x0220041C0C100000 = some (.adds .always (.g 3) (.g 1) (.g 2)) ∧
  decode 0x0200042427C7FFFF = some (.add .always (.g 4) (.g 4) (.imm 0x7FFFF)) ∧
  decode 0x240005FFC7F80005 = some (.call .always 63 5) ∧
  decode 0x280007FFFFF80000 = some (.endt .always) ∧
  decode 0 = none

/-- Decode and encode agree: the word of every well-formed instruction, with every operand at every value its encoding admits, decodes to
it. -/
def Obligations.DecodeEncode : Prop := ∀ i : Instr, i.wf = true → decode (encode i) = some i

/-- Every word that decodes is the word of its instruction: no bit of a word is left without a meaning (R52 to R56, R60). -/
def Obligations.EncodeDecode : Prop := ∀ (w : BitVec 64) (i : Instr), decode w = some i → encode i = w ∧ i.wf = true

/-- The canonical form of memory, addresses strictly rising and nothing listed that reads as unlisted, is kept by every step. The spec gives memory
as bytes (08, R153 to R172); that it is held as such a list is the model's own choice (log 3). -/
def Obligations.MemoryStaysCanonical : Prop := ∀ s t : State, Memory.wf s.mem = true → step s = .next t → Memory.wf t.mem = true

/-- R154, R402 and R409: the module before its first power-on. It is at BOOT 0, nothing is listed in memory and every unlisted byte of a
basin or bank reads 0 with its presence empty; every semaphore and every clock is 0; no launch, field or task is there. Host memory that
nothing has written reads 0 as well, which is the model's choice (log 3). -/
def Obligations.ResetState : Prop :=
  let s := State.reset
  s.mod.boot = 0 ∧ Memory.wf s.mem = true ∧ (∀ a, inSteward a = false → s.rdByte a = 0) ∧ (∀ a, s.sideAt a = {}) ∧
  (∀ p n, (s.plot p).sem n = 0) ∧ (∀ d, (s.die d).cyc = 0) ∧ s.launches = [] ∧ s.fields = [] ∧ s.cmds = [] ∧
  ∀ p k, k < 16 → (s.task p k).st = .free

/-- R57 to R60, R87, R88, R97, R156, R219 and R344: mapping the block of a half's READY task. A pending asynchronous cause is raised first. A
block that passes the checks is mapped, its slots waiting, and the task is RUNNING; a word that breaks a DECODE rule, or a system form or register
in a task without privilege, is the fault that the checks name, with its slot; a bad header is DECODE at 255, above every slot. The words come
from the core's block cache while that holds them, which is not coherent with stores (when it fills and drops is log 69), else from memory, which
fills the cache, a miss that is counted, whether or not the checks then pass (R397). A
fetch over a host link that is down posts an ENGINE error record (R156, as log 64 reads it). The causes of a fetch outside the addresses are
readings of log 35. BLOCK_MAP completes. -/
def Obligations.BlockMapChecks : Prop :=
  ∀ (s : State) (p : Nat) (h : Bool) (k : Nat), k < 16 → s.mapping = true → (s.plot p).half h = { task := some k } →
    let t := s.task p k
    t.st = .ready → t.leaving = .no → t.halting = false → t.otcPending = false →
    let f := s.fetchOver p k t
    (∀ c i, t.asyncCause = some (c, i) → exec (.blockMap p h) s = .next (s.raiseAsync p k c i)) ∧
    (s.codeLost p t = false → f = s) ∧
    (s.codeLost p t = true → ∀ (l : Launch) (hq : l.q < 8), s.launch? t.launch = some l →
      (f.queues[l.q]).waiting = (s.queues[l.q]).waiting ++ [errWords 0x04 p k t.launch t.bpc { cause := .engine, slot := 255 } false
        (s.wtimeOf p) 0]) ∧
    (∀ hd ws, t.asyncCause = none → s.fetchBlock p t = .ok (hd :: ws) →
      ∃ u, exec (.blockMap p h) s = .next u ∧ (u.task p k).st = .running ∧ (u.task p k).regs = t.regs ∧
        ∃ b, ((u.plot p).half h).blk = some b ∧ b.bpc = t.bpc ∧ b.words = ws ∧ b.slots = List.replicate ws.length {} ∧ b.pri0 = t.pri) ∧
    (∀ c, t.asyncCause = none → s.fetchBlock p t = .error (some c) →
      (∀ ws, t.far = false → t.bpc.toNat % 8 = 0 → s.codeOf p t = .ok ws →
        exec (.blockMap p h) s = .next ((f.fillCode p t ws).takeException p k c t.bpc)) ∧
      ((∀ ws, t.far = true ∨ t.bpc.toNat % 8 ≠ 0 ∨ s.codeOf p t ≠ .ok ws) → exec (.blockMap p h) s = .next (f.takeException p k c t.bpc))) ∧
    (∀ ws, (s.plot p).cached t ≠ none → f.fillCode p t ws = f) ∧
    (∀ ws, (s.plot p).cached t = none → ws.length ≤ 129 →
      ∃ u, f.fillCode p t ws = u.bump p 11 1 ∧ (u.plot p).cached t = some ws ∧ SameMemory f u ∧ SameTasks f u) ∧
    (t.far = true → s.fetchBlock p t = .error (some { cause := .capb })) ∧
    (∀ hd ws, (s.plot p).cached t = none → s.fetch p t t.bpc.toNat 255 = .word hd →
      s.fetchWords p t (t.bpc.toNat + 8) 0 (hd.toNat / 2 ^ 49 % 128 + 1) = .ok ws → s.codeOf p t = .ok (hd :: ws)) ∧
    (∀ ws, (s.plot p).cached t = some ws → s.codeBad p t ws.length = none → s.codeOf p t = .ok ws) ∧
    ∀ hd ws, t.far = false → t.bpc.toNat % 8 = 0 → s.codeOf p t = .ok (hd :: ws) →
      let good := hd.toNat / 2 ^ 56 = 0xB5 ∧ hd.toNat % 2 ^ 48 = 0
      (∀ j, checkBlock t.priv ws = some (true, j) → s.fetchBlock p t = .error (some { cause := .decode, slot := j })) ∧
      (∀ j, checkBlock t.priv ws = some (false, j) → good → s.fetchBlock p t = .error (some { cause := .priv, slot := j })) ∧
      (checkBlock t.priv ws = none → good → s.fetchBlock p t = .ok (hd :: ws)) ∧
      ((∀ j, checkBlock t.priv ws ≠ some (true, j)) → ¬good → s.fetchBlock p t = .error (some { cause := .decode, slot := 255 }))

/-! ## Events at the edges -/

/-- R400, R403, R405, R407, R408 and R411: what the owner's port may do, and what another live port's writes do instead: they are dropped and
counted. HGO moves the ownership with its nonce; FEATDRV and FEATACK change only while no launch is there; the power states are accepted, or
refused with 0x41 while a field is live and 0x42 while a launch is; a change between P0, P1 and P2 waits, in progress, while a block is mapped
anywhere, no block is mapped meanwhile, and it is made once every core stands at a block boundary; the owner clears the trip once every sensor is
below 100, and the security alarm. HGO, FEATDRV_WRITE, PSREQ_P0 to PSREQ_P4, TRIP_CLEAR and SECA_CLEAR complete. That a waiting P2 is refused when
a field has become live meanwhile is the model's choice (log 29). -/
def Obligations.OwnerActions : Prop :=
  ∀ (s : State) (port : Nat),
    let boundary := ∀ x ∈ s.plots, x.2.h0.blk = none ∧ x.2.h1.blk = none
    let waiting := fun (n : Nat) => s.onMod (fun m => { m with psbusy := true, pswant := BitVec.ofNat 3 n, psref := 0 })
    (s.mod.psbusy = false ∨ ¬boundary → s.powerStep = s) ∧
    (s.mod.psbusy = true → boundary →
      (s.mod.pswant = 2 → s.fields ≠ [] → s.powerStep = s.onMod (fun m => { m with psbusy := false, psref := 0x41 })) ∧
      (s.mod.pswant ≠ 2 ∨ s.fields = [] → s.powerStep.mod = { s.mod with pscur := s.mod.pswant, psref := 0, psbusy := false } ∧
        SameMemory s s.powerStep ∧ SameTasks s s.powerStep)) ∧
    (s.portLive port = true → ¬(s.mod.ovalid = true ∧ s.mod.oport.toNat = port) → ∀ i : Instr, ownerPort i = some port →
      exec i s = .next (s.onMod (fun m => { m with drops := if m.drops = 0xFFFF then m.drops else m.drops + 1 }))) ∧
    (s.portLive port = false → ∀ i : Instr, ownerPort i = some port → exec i s = .next s) ∧
    (s.ownedBy port →
      (∀ n, exec (.hgo port n) s = .next (s.onMod (fun m => { m with
        oport := BitVec.ofNat 3 n, hport := BitVec.ofNat 3 n, ononce := m.hnonce,
        ownerDown := if m.linkUp.getLsbD (n % 8) then none else some (s.die stewardDie).wtime }))) ∧
      (∀ v, exec (.featdrvWrite port v) s = .next (if s.launches = [] then s.onMod (fun m => { m with
          featdrv := v ++ m.featdrv.extractLsb' 0 64, featack := Config.featDev &&& (v ++ m.featdrv.extractLsb' 0 64) }) else s)) ∧
      (boundary → exec (.psreqP0 port) s = .next (s.onMod (fun m => { m with pscur := 0, psref := 0, psbusy := false })) ∧
        exec (.psreqP1 port) s = .next (s.onMod (fun m => { m with pscur := 1, psref := 0, psbusy := false }))) ∧
      (¬boundary → exec (.psreqP0 port) s = .next (waiting 0) ∧ exec (.psreqP1 port) s = .next (waiting 1) ∧
        (s.fields = [] → exec (.psreqP2 port) s = .next (waiting 2)) ∧ ∀ n, (waiting n).mapping = false) ∧
      (s.fields ≠ [] → exec (.psreqP2 port) s = .next (s.onMod (fun m => { m with psref := 0x41 }))) ∧
      (boundary → s.fields = [] → ∃ u, exec (.psreqP2 port) s = .next u ∧ u.mod = { s.mod with pscur := 2, psref := 0, psbusy := false } ∧
        SameMemory s u ∧ SameTasks s u) ∧
      ((∃ l ∈ s.launches, l.st ≠ .saved) → exec (.psreqP3 port) s = .next (s.onMod (fun m => { m with psref := 0x42 }))) ∧
      ((∀ l ∈ s.launches, l.st = .saved) →
        ∃ u, exec (.psreqP3 port) s = .next u ∧ u.mod = { s.mod with pscur := 3, psref := 0, psbusy := false } ∧ SameMemory s u ∧ SameTasks s u) ∧
      (∃ u, exec (.psreqP4 port) s = .next u ∧ u.mod.pscur = 4 ∧ u.mod.boot = 0 ∧ u.launches = [] ∧ u.fields = [] ∧
        (∀ p k, k < 16 → (u.task p k).st = .free) ∧ ∀ c ∈ u.mem, isHost c.1 = true) ∧
      (∀ n, exec (.tripClear port n) s = .next (if n < 100 then s.onMod (fun m => { m with trip := false }) else s)) ∧
      exec (.secaClear port) s = .next (s.onMod (fun m => { m with seca := false })))

/-- R400, R401, R406 and R166: the owner's write within one granule of device memory that is not poisoned stores its bytes, at stamp 6, and
changes no other byte; any live port reads device memory, and all ones where HW-B names none, which the port reports, as for a write.
A resident page lets everything paused at it go on, commands, operations, FEEDs and WLDs, those of saved fields included, and its tasks be restored.
A declined one stops a waiting engine command with 0x04, ends a waiting task with a record of KIND 0x01 and CAUSE 0x08, and stops a field one of whose
FEEDs or WLDs waits with FIELD in its master task (State.fieldFault, which FieldInputEvents states), a saved one when it is restored. HOST_MEMORY_WRITE, HOST_MEMORY_READ, PAGEANS_RESIDENT and PAGEANS_DECLINE complete. What a host write does at once and what it leaves
alone are readings of logs 20 and 31. -/
def Obligations.HostMemoryAndPages : Prop :=
  ∀ (s : State) (port off : Nat) (bytes : List Byte) (obj pg : Nat),
    let h := s.hwb off
    let n := bytes.length
    (s.ownedBy port → s.hwbOk off n = true → off % 32 + n ≤ 32 → h % 32 + n ≤ 32 → inSteward h = false →
      (s.sideAt h).poison = false → s.mirrorOf h = none →
      Memory.wf s.mem = true →
      ∃ u, exec (.hostMemoryWrite port off bytes) s = .next u ∧ (∀ j < n, u.rdByte (h + j) = bytes.getD j 0) ∧
        (∀ b, b < h ∨ h + n ≤ b → u.rdByte b = s.rdByte b) ∧ (∀ b, b / 32 ≠ h / 32 → u.sideAt b = s.sideAt b) ∧
        u.sideAt h = { pres := (s.sideAt h).pres, tag := false, stamp := 6, poison := false } ∧ SameTasks s u) ∧
    (s.ownedBy port → s.hwbOk off n = false → s.mod.boot = 2 → 0 < n → off + n ≤ 2 ^ 36 →
      exec (.hostMemoryWrite port off bytes) s = .next (s.onMod (fun m => { m with urs := m.urs ++ [port] }))) ∧
    (∀ len, s.portLive port = true →
      (s.hwbOk off len = false → s.mod.boot = 2 → 0 < len → off + len ≤ 2 ^ 36 → exec (.hostMemoryRead port off len) s =
        .next ({ s with free := s.free + len }.onMod (fun m => { m with hostRead := List.replicate len 0xFF, urs := m.urs ++ [port] }))) ∧
      (s.mod.boot ≠ 2 ∨ len = 0 ∨ 2 ^ 36 < off + len → exec (.hostMemoryRead port off len) s =
        .next ({ s with free := s.free + len }.onMod (fun m => { m with hostRead := List.replicate len 0xFF }))) ∧
      (s.hwbOk off len = true → off % 32 + len ≤ 32 → (s.sideAt h).poison = false → exec (.hostMemoryRead port off len) s =
        .next ({ s with free := s.free + len }.onMod (fun m => { m with hostRead := s.rdBytes h len })))) ∧
    (s.ownedBy port → s.mod.boot = 2 →
      let o := BitVec.ofNat 24 obj
      let g := BitVec.ofNat 28 pg
      let at_ := fun (x : Option (BitVec 24 × BitVec 40)) => ∃ off, x = some (o, off) ∧ pageOf off = g
      let woken := s.resume o g
      exec (.pageansResident port obj pg) s = .next woken.restoreResident ∧
      woken.cmds.length = s.cmds.length ∧ (∀ c ∈ woken.cmds, ¬at_ c.paused) ∧
      (∀ p k, ∀ x ∈ (woken.task p k).ops, k < 16 → ¬at_ x.paused) ∧ (∀ x ∈ woken.faulted, x.obj = o → x.pg = g → x.resident = true) ∧
      (∀ p, (woken.plot p).fu.feeds.length = (s.plot p).fu.feeds.length ∧ (∀ c ∈ (woken.plot p).fu.feeds, ¬at_ c.paused) ∧
        (woken.plot p).fu.wlds.length = (s.plot p).fu.wlds.length ∧ ∀ c ∈ (woken.plot p).fu.wlds, ¬at_ c.paused) ∧
      (∀ l ∈ woken.launches, ∀ f ∈ l.savedFields, ∀ h ∈ f.held, (∀ c ∈ h.feeds, ¬at_ c.paused) ∧ ∀ c ∈ h.wlds, ¬at_ c.paused) ∧
      woken.mem = s.mem ∧
      (∀ f, s.fields = [f] → s.cmds = [] → s.faulted = [] → s.pausedOps o g = [] → (∀ l ∈ s.launches, l.savedFields = []) →
        let waits := ∃ x ∈ f.cellsOf, let u := (s.plot (s.fieldPlot f x.1 x.2)).fu
          (∃ c ∈ u.feeds, at_ c.paused) ∨ ∃ c ∈ u.wlds, at_ c.paused
        (waits → exec (.pageansDecline port obj pg) s = .next (s.fieldFault f.handle)) ∧ (¬waits → exec (.pageansDecline port obj pg) s = .next s)) ∧
      (s.fields = [] → s.cmds = [] → s.faulted = [] → s.pausedOps o g = [] →
        ∃ u, exec (.pageansDecline port obj pg) s = .next u ∧ u.launches.length = s.launches.length ∧
          ∀ (i j : Nat) (l m : Launch) (f h : Field), s.launches[i]? = some l → u.launches[i]? = some m → l.savedFields[j]? = some f →
            m.savedFields[j]? = some h →
            let waits := ∃ x ∈ f.held, (∃ c ∈ x.feeds, at_ c.paused) ∨ ∃ c ∈ x.wlds, at_ c.paused
            (waits → h = { f with stopped := true }) ∧ (¬waits → h = f)) ∧
      (∀ c, s.cmds = [c] → at_ c.paused → s.faulted = [] → s.pausedOps o g = [] → s.fields = [] → (∀ l ∈ s.launches, l.savedFields = []) →
        exec (.pageansDecline port obj pg) s = .next (s.cmdStop c 0x04)) ∧
      (∀ x, s.faulted = [x] → x.resident = true → s.cmds = [] → s.fields = [] → (∀ l ∈ s.launches, l.savedFields = []) → s.pausedOps o g = [] →
        ∃ u, exec (.pageansDecline port obj pg) s = .next u ∧ u.faulted = [x] ∧ SameMemory s u ∧ SameTasks s u) ∧
      (∀ x, s.faulted = [x] → x.obj = o → x.pg = g → x.resident = false → s.cmds = [] → s.fields = [] →
        (∀ l ∈ s.launches, l.savedFields = []) → s.pausedOps o g = [] →
        ∃ u, exec (.pageansDecline port obj pg) s = .next u ∧ u.faulted = [] ∧ SameMemory s u ∧
          (∀ p k, (s.task p k).st ≠ .saved → u.task p k = s.task p k) ∧
          ∀ (l : Launch) (hq : l.q < 8), s.launch? x.launch = some l → ∃ more r,
            (u.queues[l.q]).waiting = (s.queues[l.q]).waiting ++ more ++ [r] ∧ more.length ≤ 1 ∧ ((∀ a, s.hostLost a = false) → more = []) ∧
            (r.headD 0).extractLsb' 0 8 = 0x01 ∧ (r.headD 0).extractLsb' 8 8 = 0x08))

/-- R374, R399, R403, R404, R408, R409, R410, R411 and R413: what befalls the module at its edges, whoever owns it. OCLAIM, HOST_LINK_DOWN,
HOST_LINK_UP, OWNER_LINK_LOST, THERMAL_TRIP, SECURITY_ALARM, ATTEST_NONCE_WRITE, ATTEST_COMPLETE, MGMT_TELEMETRY_READ and POWER_ON complete. The lowest live port that
claims with a nonce owns it; the link of a port goes and comes, and an owner without its link for 2 s is the owner no more; a sensor at 110
trips and the security alarm is set; an attestation starts with the last nonce word and ends with the port's report; the management bus reads
its items; a power-on loses everything but host memory and runs the first slot that verifies, and the boot then drops log entries whose CRC fails
and takes COUNT from a token whose constant, serial and signature are right. What a
power-on finds comes with the event, and what a sensor reads is free (log 6). -/
def Obligations.ModuleEvents : Prop :=
  ∀ (s : State) (port : Nat),
    (∀ nonce : BitVec 64, s.mod.ovalid = false → s.portLive port = true → nonce ≠ 0 →
      exec (.oclaim [(port, nonce)]) s =
        .next (s.onMod (fun m => { m with ovalid := true, oport := BitVec.ofNat 3 port, ononce := nonce, ownerDown := none })) ∧
      ∀ q n2, port < q → exec (.oclaim [(q, n2), (port, nonce)]) s = exec (.oclaim [(port, nonce)]) s) ∧
    (∀ claims, s.mod.ovalid = true → exec (.oclaim claims) s = .next s) ∧
    (port ≤ 7 →
      (s.mod.linkUp.getLsbD port = true → exec (.hostLinkDown port) s = .next (s.onMod (fun m => { m with
        linkUp := m.linkUp &&& ~~~(BitVec.twoPow 8 port)
        ownerDown := if m.ovalid = true ∧ m.oport.toNat = port then some (s.die stewardDie).wtime else m.ownerDown }))) ∧
      ((∀ t, s.mod.ownerDown = some t → s.mod.ovalid = true → ((s.die stewardDie).wtime - t).toNat < 2000000000) →
        exec (.hostLinkUp port) s = .next (s.onMod (fun m => { m with
          linkUp := m.linkUp ||| BitVec.twoPow 8 port, ownerDown := if m.oport.toNat = port then none else m.ownerDown }))) ∧
      (∀ t, s.mod.ownerDown = some t → s.mod.ovalid = true → 2000000000 ≤ ((s.die stewardDie).wtime - t).toNat →
        ∃ u, exec (.hostLinkUp port) s = .next u ∧ u.mod.ovalid = false ∧ u.mod.olost = true ∧ u.mod.linkUp = s.mod.linkUp ||| BitVec.twoPow 8 port ∧
          SameMemory s u ∧ SameTasks s u ∧ ∀ q (h : q < 8), (u.queues[q]).lqOff = true ∧ (u.queues[q]).cqOff = true)) ∧
    (∀ t, s.mod.ownerDown = some t → s.mod.ovalid = true → 2000000000 ≤ ((s.die stewardDie).wtime - t).toNat →
      ∃ u, exec .ownerLinkLost s = .next u ∧ u.mod.ovalid = false ∧ u.mod.olost = true ∧ SameMemory s u ∧ SameTasks s u ∧
        ∀ q (h : q < 8), (u.queues[q]).lqOff = true ∧ (u.queues[q]).cqOff = true) ∧
    (∀ temp, 110 ≤ temp → s.mod.boot ≠ 0 → s.mod.pscur ≠ 4 → s.mod.trip = false →
      ∃ u, exec (.thermalTrip temp) s = .next u ∧ u.mod.trip = true ∧ u.mapping = false ∧ (∀ b, u.rdByte b = s.rdByte b) ∧
        (s.takes = [] → SameMemory s u) ∧ SameRegs s u) ∧
    (s.mod.boot ≠ 0 → s.mod.pscur ≠ 4 →
      ∃ u, exec .securityAlarm s = .next u ∧ u.mod.seca = true ∧ u.mapping = false ∧ (∀ b, u.rdByte b = s.rdByte b) ∧
        (s.takes = [] → SameMemory s u) ∧
        (s.mod.erase = true → u.mod.boot = 4 ∧ u.mod.keysErased = true ∧ u.launches = []) ∧ (s.mod.erase = false → SameRegs s u)) ∧
    (∀ value, s.portLive port = true → s.mod.boot = 2 →
      ∃ u, exec (.attestNonceWrite port value) s = .next u ∧ (u.attestOf port).busy = true ∧ (u.attestOf port).ready = false ∧
        (u.attestOf port).nonce = putField (s.attestOf port).nonce 192 64 value.toNat ∧ u.mem = s.mem ∧ SameTasks s u) ∧
    (port < 8 → (s.attestOf port).busy = true → s.mod.boot ≠ 0 → s.mod.pscur ≠ 4 →
      ∃ u, exec (.attestComplete port) s = .next u ∧ (u.attestOf port).busy = false ∧ (u.attestOf port).ready = true ∧
        (u.attestOf port).fail = s.mod.keysErased ∧ u.mem = s.mem ∧ SameTasks s u ∧
        (s.mod.linkUp.getLsbD port = true → u.mod.msix = s.mod.msix ++ [(port, 9)])) ∧
    (∀ i v, (i = .psCur ∧ v = s.mod.pscur.zeroExtend 64) ∨ (i = .boot ∧ v = s.mod.boot.zeroExtend 64) ∨
        (i = .alarm ∧ v = BitVec.ofNat 64 (s.mod.drops.toNat * 2 ^ 16 + (if s.mod.logfull then 16 else 0) + (if s.mod.olost then 8 else 0) +
          (if s.mod.seca then 4 else 0) + (if s.mod.trip then 2 else 0))) ∨
        (∃ d, i = .wstale d ∧ v = if (s.die d).wstale then 1 else 0) ∨
        (∃ p, plotExists p = true ∧ i = .sensor p ∧ v = Config.sensor s.free p) ∨
        (∃ c, c < 192 ∧ i = .heat c ∧ v = BitVec.ofNat 64 ((s.mod.temp.get c 0).toNat + if s.mod.hot.contains c then 256 else 0)) →
      exec (.mgmtTelemetryRead i) s = .next ({ s with free := s.free + 1 }.onMod (fun m => { m with tele := v }))) ∧
    ∀ (t : SelfTest), ∃ u, exec (.powerOn t) s = .next u ∧ u.launches = [] ∧ (∀ c ∈ u.mem, isHost c.1 = true) ∧
      u.mod.boot = (if t.fwA = true ∨ t.fwB = true then 1 else 3) ∧ u.mod.tokenRec = t.token ∧
      (t.fwA = true ∨ t.fwB = true → u.mod.fwslot = !t.fwA ∧ u.mod.selfTest = some t) ∧
      (∀ v : State, v.mod.boot = 1 → v.mod.selfTest = some t → v.bootStep.mod.boot = 2 ∧ v.bootStep.mod.token = testCount t ∧
        v.bootStep.mod.selfTest = none ∧ v.bootStep.mod.retPage = v.mod.retPage.filter RetEnt.good ∧ v.bootStep.mem = v.mem) ∧
      (∀ v : State, v.mod.boot ≠ 1 → v.bootStep = v) ∧
      (∀ r, t.token = some r → r.extractLsb' 0 64 = 0x314E4B544E4C5746 → r.extractLsb' 64 64 = Config.serial →
        Config.tokenSigned (r.extractLsb' 0 512) (r.extractLsb' 512 3072) = true → testCount t = some (r.extractLsb' 128 16))

/-- R2, R161 to R164, R169, R252, R256, R328, R329, R357 and R378: what a write through each window leaves, and what the links, the sensors and
the routes do. CORE_WINDOW_WRITE, FIELD_WINDOW_WRITE, TILE_STATE_WRITE, OTROOT_WRITE, AQUEDUCT_ROUTE_WRITE, REGISTER_WRITE, PORT_LINK_DOWN,
PORT_LINK_UP and HEAT_SAMPLE complete, and so does FLIT_RECEIVE, which brings nothing over a port whose link is down. A core window write of a slot that is live is refused, a field window write while the plot belongs to a
field; a pointer written through the window is not valid. What a write of the stream and sequential-order words does to a slot that is not live is
the choice of log 24, the one routing table of a module that of log 54, and how an edge register is written by its event that of log 59. -/
def Obligations.RegisterWindows : Prop :=
  ∀ (s : State) (p : Nat) (w : BitVec 64),
    (plotExists p = true → (s.plot p).stat ≠ .hole →
      (∀ k o, k < 16 → (s.task p k).st = .free ∨ (s.task p k).st = .saved ∨ (s.task p k).st = .suspended →
        exec (.coreWindowWrite p (0x1000 * k) w) s = .next (s.onTask p k (fun t => { t with bpc := w.extractLsb' 0 40, far := false })) ∧
        exec (.coreWindowWrite p (0x1000 * k + 0x540) w) s = .next (s.onTask p k (fun t => { t with strmSet := some (w &&& 0xFFFFFFFFFFFF) })) ∧
        exec (.coreWindowWrite p (0x1000 * k + 0x548) w) s = .next (s.onTask p k (fun t => { t with seqSet := some (w.extractLsb' 0 6) })) ∧
        (o < 64 → exec (.coreWindowWrite p (0x1000 * k + 0x100 + 8 * o) w) s =
          .next (s.onTask p k (fun t => { t with regs := { t.regs with g := t.regs.g.setIfInBounds o w } }))) ∧
        (o < 8 → ∀ j < 3, ∃ u, exec (.coreWindowWrite p (0x1000 * k + 0x440 + 32 * o + 8 * j) w) s = .next u ∧
          ((u.task p k).regs.getC (BitVec.ofNat 3 o)).valid = false)) ∧
      (∀ k o, k < 16 → o < 0x200 → (s.task p k).st = .ready ∨ (s.task p k).st = .running ∨ (s.task p k).st = .wait →
        exec (.coreWindowWrite p (0x1000 * k + 8 * o) w) s = .next s) ∧
      (∀ n, n < 256 → exec (.coreWindowWrite p (0x12000 + 8 * n) w) s = .next (s.setSem p n (w.extractLsb' 0 16)))) ∧
    (s.windowOpen p = true →
      (∀ i j, i < 16 → j < 16 →
        let key := 16 * i + j
        let set := fun (g : Cell → Cell) => s.onFu p (fun u => { u with cells := u.cells.put key (g (u.cell key)) })
        exec (.fieldWindowWrite p (64 * key) w) s =
          .next (set (fun c => { c with wAct := c.wAct.extractLsb' 64 64 ++ w, par := false })) ∧
        exec (.fieldWindowWrite p (64 * key + 0x20) w) s =
          .next (set (fun c => { c with gAct := w.extractLsb' 0 32, gLoad := w.extractLsb' 32 32 }))) ∧
      (∀ row col, row < 512 → col < 16 → exec (.fieldWindowWrite p (0x10000 + 128 * row + 8 * col) w) s =
        .next (s.onFu p (fun u => u.setAcc row col (w.extractLsb' 0 40)))) ∧
      ∀ t, t < 16 → ∃ u, exec (.tileStateWrite p t w) s = .next u ∧
        let x := (u.plot p).fu.tile t
        x.base = (w.extractLsb' 20 10).toNat ∧ x.prog = (w.extractLsb' 50 10).toNat ∧ x.cur = (w.extractLsb' 40 10).toNat ∧
        x.rows = (if (w.extractLsb' 20 10).toNat + (w.extractLsb' 30 10).toNat ≤ 512 then (w.extractLsb' 30 10).toNat else 0) ∧
        x.st = (if w.extractLsb' 62 2 = 1 then .accum else if w.extractLsb' 62 2 = 2 then .full else .empty)) ∧
    (s.windowOpen p = false → (∀ o, exec (.fieldWindowWrite p o w) s = .next s) ∧ ∀ t, exec (.tileStateWrite p t w) s = .next s) ∧
    (∀ die, die ≤ 83 → s.pendingOn (fun _ => true) = false →
      ∃ u, exec (.otrootWrite die w) s = .next u ∧ u.mod.otroot = w.extractLsb' 11 45 ++ (0 : BitVec 11) ∧
        u.mem = s.mem ∧ SameTasks s u ∧ ∀ d, (u.die d).otc = [] ∧ (u.die d).nodes = []) ∧
    (∀ m, m ≤ 63 → exec (.aqueductRouteWrite m w) s =
      .next (s.onMod (fun x => { x with ports := x.ports.put m (w.extractLsb' 0 48) }))) ∧
    (∀ port, s.ownedBy port →
      exec (.registerWrite (.hwa port 0x20) w) s = .next (s.onMod (fun m => { m with hport := w.extractLsb' 0 3 })) ∧
      exec (.registerWrite (.hwa port 0x28) w) s = .next (s.onMod (fun m => { m with hnonce := w })) ∧
      (s.mod.boot = 2 → exec (.registerWrite (.hwa port 0x100208) w) s = .next (s.onMod (fun m => { m with carg0 := w.extractLsb' 0 32 })))) ∧
    (∀ port, exec (.registerWrite (.hwa port 0x08) w) s = .next s ∧
      ∀ o, 0x1018 ≤ o → o < 0x11D8 → exec (.registerWrite (.hwa port o) w) s = .next s) ∧
    (∀ die, die ≤ 83 → exec (.registerWrite (.cistern die 0x20) w) s =
      .next (s.setDie die { s.die die with cecnt := w.extractLsb' 0 32 })) ∧
    (∀ port, port < 48 →
      exec (.portLinkDown port) s = .next (s.onMod (fun m => { m with link := m.link &&& ~~~(BitVec.twoPow 48 port) })) ∧
      exec (.portLinkUp port) s = .next (s.onMod (fun m => { m with link := m.link ||| BitVec.twoPow 48 port }))) ∧
    (∀ port f, (∃ t, exec (.flitReceive port f) s = .next t) ∧ (s.mod.link.getLsbD port = false → exec (.flitReceive port f) s = .next s)) ∧
    ∀ c t, c < 192 → ∃ u, exec (.heatSample [(c, t)]) s = .next u ∧ SameMemory s u ∧ SameTasks s u ∧
      (u.mod.temp.get c 0).toNat = min 255 t ∧ (∀ d, d ≠ c → u.mod.temp.get d 0 = s.mod.temp.get d 0) ∧
      (s.mod.hot.contains c = false → u.mod.hot.contains c = decide (s.mod.thi.toNat ≤ min 255 t)) ∧
      (s.mod.hot.contains c = true → u.mod.hot.contains c = !decide (min 255 t ≤ s.mod.tlo.toNat))

/-! ## Events of the window and of time -/

/-- R59, R66, R69, R70, R218, R219, R298 and R344: a free half takes the task of highest effective priority that has waited longest at it, unless a
pending asynchronous cause, which it takes then; a block whose gate has stalled for SY.PARK cycles parks its task; one mapped for 2^26 cycles
ends it. A block that can commit in that cycle does neither. TASK_SELECT, GATE_PARK and WDOG complete. -/
def Obligations.WindowEvents : Prop :=
  ∀ (s : State) (p : Nat) (h : Bool),
    (∀ k, s.mapping = true → ((s.plot p).half h).task = none → s.selection p = some k →
      let t := s.task p k
      let now := s.cycOf p
      let taken := { s with uid := s.uid + 1 }.setTask p k { t with since := now, turn := s.uid, levelE := 8 }
      let waited := fun (j : Nat) => (s.task p j).levelWait now
      ((s.plot p).selectable (s.wtimeOf p) k = true ∧ ∀ j < 16, (s.plot p).selectable (s.wtimeOf p) j = true →
        (s.task p j).epri now < t.epri now ∨ (s.task p j).epri now = t.epri now ∧
          (waited j < waited k ∨ waited j = waited k ∧ t.turn ≤ (s.task p j).turn)) ∧
      (t.asyncCause = none → exec (.taskSelect p h) s = .next (taken.setHalf p h { task := some k, blk := none })) ∧
      (t.trapv.getLsbD 0 = false → t.pend.getLsbD 0 = true → exec (.taskSelect p h) s = .next
        ((taken.onTask p k (fun t => t.takePend 0)).takeException p k { cause := .deadlk, info := t.pendInfo.get 0 0, async := true } t.bpc)) ∧
      (t.trapv.getLsbD 0 = false → t.pend.getLsbD 0 = false → t.pend.getLsbD 3 = true → exec (.taskSelect p h) s = .next
        ((taken.onTask p k (fun t => t.takePend 3)).takeException p k { cause := .engine, info := t.engInfo, async := true } t.bpc))) ∧
    (s.selection p = none → (∀ k < 16, (s.plot p).selectable (s.wtimeOf p) k = false) ∧ exec (.taskSelect p h) s = .next s) ∧
    ∀ cx, s.blockCx p h = some cx → (s.plot p).halfOf cx.t = some h →
      (s.commitReady p h = true ∨ cx.blk.abort.isSome = true → exec (.gatePark p h) s = .next s) ∧
      (s.commitDue p h = true ∨ cx.blk.abort.isSome = true → exec (.wdog p h) s = .next s) ∧
      (cx.blk.abort = none →
        (s.commitReady p h = false → s.taking p h = false →
          (∃ r ∈ cx.blk.slots, ∃ g, r.gate = some g ∧ r.st = .waiting ∧ cx.task.park.toNat ≤ (s.cycOf p - r.since).toNat ∧ s.gateMet p g = false) →
          ∃ g u, (∃ r ∈ cx.blk.slots, r.gate = some g ∧ cx.task.park.toNat ≤ (s.cycOf p - r.since).toNat ∧ s.gateMet p g = false) ∧
            exec (.gatePark p h) s = .next u ∧ (u.plot p).half h = {} ∧ u.task p cx.t = { cx.task with st := .wait, wait := g.wait } ∧
            u.mem = s.mem ∧ u.side = s.side ∧ ∀ q j, ¬(q = p ∧ j = cx.t) → u.task q j = s.task q j) ∧
        (s.commitDue p h = false → 2 ^ 26 ≤ (s.cycOf p - cx.blk.mapped).toNat → exec (.wdog p h) s = .next (s.takeException p cx.t { cause := .wdog } cx.blk.bpc)))

/-- R23, R209 and R258: the token of the order of all seq operations goes on along the serpentine ring of the 84 dies, once its die has
served its queue; an admission window sets every counter of its die to its effective cap; a broadcast of wafer time, with the latency of its
path to the die added, never sets the die's copy back; and the copy is stale after 64 µs without one. SC_TOKEN_ARRIVE, ADM_WINDOW,
WAFER_TIME_BROADCAST and WSTALE complete. Clocks advance as the agenda says, and the latencies are the boot's own (log 4). -/
def Obligations.TimeEvents : Prop :=
  ∀ (s : State) (die : Nat), die < 84 →
    (s.mod.tokenDie = die → s.clocked = true →
      let r := die / 12
      let c := die % 12
      let next := if r % 2 = 0 then (if c < 11 then die + 1 else if r = 6 then 0 else die + 12) else (if 0 < c then die - 1 else die + 12)
      next < 84 ∧ (∃ u, exec (.scTokenArrive die) s = .next u ∧ u.mod.tokenDie = next) ∧
      ((s.die die).seqQ = [] → exec (.scTokenArrive die) s = .next (s.onMod (fun m => { m with tokenDie := next })))) ∧
    ((s.die die).cyc.toNat % 1024 = 0 → (s.die die).admMark ≠ (s.die die).cyc →
      ∃ u, exec (.admWindow die) s = .next u ∧ SameMemory s u ∧ SameTasks s u ∧ (u.die die).admMark = (s.die die).cyc ∧
        let full := fun (a : AdmPort) => ({ a with cnt := min a.ocap a.pcap } : AdmPort)
        ∀ p, (u.plot p).fu = if dieOf p = die then
          { (s.plot p).fu with port0 := full (s.plot p).fu.port0, port1 := full (s.plot p).fu.port1 } else (s.plot p).fu) ∧
    (∀ time, s.mod.boot = 2 → s.mod.pscur.toNat ≤ 2 →
      let now := time + Config.pathLatency die
      ∃ u, exec (.waferTimeBroadcast die time) s = .next u ∧ (u.die die).wstale = false ∧ (u.die die).sinceB = 0 ∧
        (u.die die).wtime = (if (s.die die).wtime < now then now else (s.die die).wtime) ∧
        (∀ d, d ≠ die → u.die d = s.die d) ∧ u.mem = s.mem ∧ SameTasks s u) ∧
    (64000 * 17 ≤ (s.die die).sinceB → exec (.wstale die) s = .next (s.setDie die { s.die die with wstale := true }))

/-! ## Events of the engines -/

/-- R194, R199, R204 and R311 to R330: what each event does to an outstanding command whose engine works and which is not paused. It starts when
the operations it must follow have performed and its semaphore, without the increments of the cycle, holds its threshold, which the start takes
(R384); each 4 KiB chunk is read whole and then written with FILL, or as its record says; an XRED reads its index words and rows granule by
granule and then writes its destination row; a chunk, record or row that cannot be read or written stops the command with the code that R316
lists, after the writer-side check of the writes that had performed; the last one ends it, but writes of scope host that reached the host are
complete only with the host's report, a later event. A collective's last chunk ends it once what it contributes is delivered (R206). ENGINE_START, COPY_CHUNK, XCHN_RECORD, XRED_ROW and COLLECTIVE_CHUNK complete. Which writes of a stopped chunk
had performed is free (log 14), that a chunk moves at one instant is the choice of log 76, and the order of XRED's words is R321's. -/
def Obligations.EngineEvents : Prop :=
  ∀ (s : State) (n : Nat) (c : Cmd), s.cmd? n = some c → c.paused = none → s.engines = true →
    let written := fun (u : State) (ps : List EPiece) => if ps.any (fun x => x.1.toHost)
      then (u.cmdMiss c ps).onCmd n (fun x => { x with toHost := true, hostWait := c.scope == .host }) else u.cmdMiss c ps
    let ends := fun (u : State) =>
      if ((u.cmd? n).map (·.hostWait)).getD false then (u.onCmd n (fun x => { x with allMade := true })).unitMade n else u.cmdDone c
    let follows := fun (d : Nat) => s.outstanding d (c.scope == .host)
    (c.phase = .waiting → (∀ d ∈ c.deps, follows d = false) → s.colTurn c = true → c.needsHeader = none →
      let thr := (c.semWord.extractLsb' 44 12).toNat
      let j := (c.semWord.extractLsb' 56 8).toNat
      let p := s.semPlot c
      let r := (s.plot p).semNow (s.cycOf p) j
      let t := if thr = 0 then s else s.takeSem p j thr
      let a := t.cmdAcquire c
      let run := a.onCmd c.serial (fun x => { x with phase := .running })
      let starts := exec (.engineStart n) s
      (r.base.toNat < thr → starts = .next s) ∧
      (thr ≤ r.base.toNat → ((t.plot p).sem j).toNat = (if thr = 0 then ((s.plot p).sem j).toNat else min (r.base.toNat - thr + r.inc) 0xFFFF) ∧
        (∀ d w, c.act.kind = .xcpy d w → starts = .next (if w.toNat % 2 ^ 28 = 0 then a.cmdDone c else run)) ∧
        (∀ w, c.act.kind = .xchn w → starts = .next run) ∧
        (∀ d l, c.act.kind = .xred d l → starts = .next run) ∧
        (∀ f b w, c.act.kind = .xcol f b w → starts = .next (match t.colRefusal c f b with
          | some e => a.cmdStop c e
          | none => run)) ∧
        (∀ b q, c.act.kind = .xregReg b q → starts = .next (a.xregReg c b q)) ∧
        (∀ b, c.act.kind = .xregRel b → starts = .next (a.xregRel c b)))) ∧
    (c.phase = .waiting → (∃ d ∈ c.deps, follows d = true) → exec (.engineStart n) s = .next s) ∧
    (∀ d l, c.act.kind = .xred d l → c.record = [] → c.phase = .waiting → (∀ d ∈ c.deps, follows d = false) →
      let ps := s.nearPieces c.die l (l.start + l.cur.toNat) 64
      engTrouble ps = none → ∀ s1 bs, s.engRead ps = .ok s1 bs →
        exec (.engineStart n) s = .next (if ({ c with record := bs } : Cmd).headerOk d l then s1.onCmd c.serial (fun x => { x with record := bs })
          else s1.cmdStop { c with record := bs } 0x05)) ∧
    (∀ d w, c.act.kind = .xcpy d w → c.phase = .running → c.hostWait = false →
      let off := 4096 * c.chunk
      let len := w.toNat % 2 ^ 28
      let m := min 4096 (len - off)
      let src := s.engPieces c.die c.act.ptr (c.act.ptr.start + c.act.ptr.cur.toNat + off) m
      let dst := s.engPieces c.die d (d.start + d.cur.toNat + off) m
      (∀ e, engTrouble (src ++ dst) = some (.stop e) → exec (.copyChunk n) s = .next (s.cmdStop c e)) ∧
      (∀ ob f b, engTrouble (src ++ dst) = some (.page ob f b) → exec (.copyChunk n) s = .next (s.cmdPause c ob f b)) ∧
      (engTrouble (src ++ dst) = none →
        (∀ e, s.engRead src = .stop e → exec (.copyChunk n) s = .next (s.cmdStop c e)) ∧
        ∀ s1 bs, s.engRead src = .ok s1 bs →
          (∀ s2 e done, s1.engWrite .fill c.scope.code dst bs = .stop s2 e done →
            exec (.copyChunk n) s = .next ((written s2 done).cmdStop c e)) ∧
          ∀ s2, s1.engWrite .fill c.scope.code dst bs = .ok s2 → exec (.copyChunk n) s = .next (
            if off + m < len then (written s2 dst).onCmd n (fun x => { x with chunk := x.chunk + 1 }) else ends (written s2 dst)))) ∧
    (c.phase = .running → c.hostWait = true →
      let told := s.onCmd n (fun x => { x with hostWait := false })
      let reports := fun (i : Instr) => exec i s = .next (if c.allMade then told.cmdDone c else told)
      (∀ d w, c.act.kind = .xcpy d w → reports (.copyChunk n)) ∧ (∀ w, c.act.kind = .xchn w → reports (.copyChunk n) ∧ reports (.xchnRecord n)) ∧
      (∀ d l, c.act.kind = .xred d l → reports (.xredRow n)) ∧ ∀ f b w, c.act.kind = .xcol f b w → reports (.collectiveChunk n)) ∧
    (∀ w, c.act.kind = .xchn w → c.phase = .running → c.hostWait = false →
      (c.record = [] → exec (.xchnRecord n) s = .next (s.readRecord c)) ∧
      (c.record ≠ [] → c.rowsDone = true → exec (.xchnRecord n) s = .next (s.closeRecord c)) ∧
      (c.record ≠ [] → c.rowsDone = false → exec (.copyChunk n) s = .next (s.recordChunk c))) ∧
    (∀ d l, c.act.kind = .xred d l → c.phase = .running → c.hostWait = false →
      let tbl := c.act.ptr
      let width := c.redLen * c.redSize
      let read := c.got.length
      let xs := idxOf c.got c.redCount
      let part := fun (ps : List EPiece) (m : Nat) => ps.find? (fun x => x.2.1 == m)
      (read < c.redIdxBytes → c.redBad = none ∧
        s.redNext c l = part (s.nearPieces c.die l (l.start + l.cur.toNat + 64) c.redIdxBytes) read) ∧
      (c.redIdxBytes ≤ read →
        ((∃ b ∈ (c.got.take c.redIdxBytes).drop (2 * c.redCount), b ≠ 0) → c.redBad = some 0x05) ∧
        ((∀ b ∈ (c.got.take c.redIdxBytes).drop (2 * c.redCount), b = 0) →
          ((∃ x ∈ xs, tbl.viewLen < tbl.cur.toNat + (x + 1) * width) → c.redBad = some 0x07) ∧
          ((∀ x ∈ xs, tbl.cur.toNat + (x + 1) * width ≤ tbl.viewLen) → c.redBad = none)) ∧
        ∀ m, m = read - c.redIdxBytes →
          (xs[m / width]? = none → s.redNext c l = none) ∧
          ∀ x, xs[m / width]? = some x → s.redNext c l =
            part (s.nearPieces c.die tbl (tbl.start + tbl.cur.toNat + x * width) width) (m % width)) ∧
      (∀ e, c.redBad = some e → exec (.xredRow n) s = .next (s.cmdStop c e)) ∧
      (c.redBad = none →
        (∀ x, s.redNext c l = some x →
          (∀ e, x.1 = .stop e → exec (.xredRow n) s = .next (s.cmdStop c e)) ∧
          (∀ ob f b, x.1 = .page ob f b → exec (.xredRow n) s = .next ((s.onCmd n (fun y => { y with got := [] })).cmdPause c ob f b)) ∧
          ((∃ a, x.1 = .home a ∨ x.1 = .win a) →
            (∀ e, s.engReadPiece x = .stop e → exec (.xredRow n) s = .next (s.cmdStop c e)) ∧
            ∀ s1 bs, s.engReadPiece x = .ok s1 bs → exec (.xredRow n) s = .next (s1.onCmd n (fun y => { y with got := y.got ++ bs })))) ∧
        (s.redNext c l = none →
          let dst := s.nearPieces c.die d (d.start + d.cur.toNat) (4 * c.redLen)
          let bs := c.got.drop c.redIdxBytes
          let vals := (List.range c.redCount).map (fun i => rowVals c.redSize c.redLen ((bs.drop (i * width)).take width))
          let out := (redSum vals c.redLen).flatMap (fun w => leBytes w.toNat 4)
          engTrouble dst = none →
          (∀ s3, s.wordWrite c.scope.code dst out = .ok s3 → exec (.xredRow n) s = .next (ends (written s3 dst))) ∧
          ∀ s3 e done, s.wordWrite c.scope.code dst out = .stop s3 e done →
            exec (.xredRow n) s = .next ((written s3 done).cmdStop c e)))) ∧
    (∀ f b w, c.act.kind = .xcol f b w → c.phase = .running → c.hostWait = false →
      (∀ e, s.colStop c f b = some e → exec (.collectiveChunk n) s = .next (s.cmdStop c e)) ∧
      ∀ buf, s.colStop c f b = none → s.colBuf c b = some buf → (∀ i < c.members, i ≠ c.rank → s.reaches (c.member i) = true) →
        (c.len ≤ 4096 * c.chunk → exec (.collectiveChunk n) s = .next (if s.delivered c f b then ends s else s)) ∧
        (4096 * c.chunk < c.len →
        let base := 4096 * c.chunk
        let len := min 4096 (c.len - base)
        let start := buf.ptr.start + buf.ptr.cur.toNat
        let own := if c.gives f then s.bufPieces buf (start + base) len else []
        engTrouble own = none → ∀ s1 mine, s.engRead own = .ok s1 mine →
        let ring := if f = .bcast then [0] else List.range c.members
        let cs := ring.map (fun i => if i = c.rank then some mine else s.contribution c b i c.chunk)
        ((∃ x ∈ cs, x = none) → exec (.collectiveChunk n) s = .next s) ∧
        ((∀ x ∈ cs, x ≠ none) →
          let out := colResult f c.rank c.len c.chunk (cs.map (·.getD []))
          let ps := out.map (fun x => s1.bufPieces buf (start + x.1) x.2.length)
          let writes := (List.range out.length).foldl (fun (acc : EWr) i => match acc, out[i]?, ps[i]? with
              | .ok s, some x, some q => (s.engWrite .fill 5 q x.2).after (ps.take i).flatten
              | e, _, _ => e) (.ok s1)
          engTrouble ps.flatten = none →
            (∀ s2 e ds, writes = .stop s2 e ds → exec (.collectiveChunk n) s = .next ((written s2 ds).cmdStop c e)) ∧
            ∀ s2, writes = .ok s2 →
            let next := (written s2 ps.flatten).onCmd n (fun x => { x with chunk := x.chunk + 1 })
            exec (.collectiveChunk n) s = .next (if base + len < c.len ∨ next.delivered c f b = false then next else ends next))))

/-- R194, R211, R222, R312, R314, R317, R328 to R330 and R384: how a command ends, and what FLIT_RECEIVE does. One that has performed leaves the cistern: SSEM
rises by SINC in the core that holds the name which issued it, its stream unit returns, its handle leaves the list of its task, and what it wrote to the host
below scope host is kept for operations of scope host. One that stops signals and returns its unit too; its handle's ERR bit is set, one record of KIND 0x04
with the handle goes to its launch, and ENGINE is pending in its task with the code. One that meets a page not resident pauses, with one record of KIND 0x02.
A signal of a semaphore saturates, and comes to the same before and after a set or a consumption of its cycle. A flit of at most 224 bytes for this module, over a live
port with its CRC right and its hop count below 8, stores with FILL, or waits for its collective, or arrives at its barrier; one whose hop count
has reached 8 is discarded, which stops its collective with 0x0A here; any other does nothing here. FLIT_RECEIVE completes for every flit and in
every state. That a flit says what it carries in the form of FlitBody, and a discard's stop, are readings of log 12. -/
def Obligations.CommandEndsAndFlits : Prop :=
  ∀ (s : State) (c : Cmd),
    let place := fun (p k : Nat) => s.handleSlot c.serial = some (p, k) ∧ s.unitSlot c.serial = some (p, k) ∧ k < 16 ∧ (s.task p k).leaving = .no
    let signals := fun (u : State) => ∀ p j, ((u.plot p).sem j).toNat =
      if p = s.semPlot c ∧ j = (c.semWord.extractLsb' 36 8).toNat then min (((s.plot p).sem j).toNat + (c.semWord.extractLsb' 28 8).toNat) 0xFFFF
      else ((s.plot p).sem j).toNat
    let unitBack := fun (u : State) (p k : Nat) => ∀ o, s.opOf p k c.serial = some o →
      (u.task p k).ops = (s.task p k).ops.filter (fun q => !o.same q)
    let records := fun (u : State) (r : List (BitVec 64)) => ∀ (l : Launch) (hq : l.q < 8), s.launch? c.launch = some l →
      (u.queues[l.q]).waiting = (s.queues[l.q]).waiting ++ [r] ∧ ∃ m, u.launch? c.launch = some m ∧ m.errs = l.errs + 1
    let failed := c.handle ||| BitVec.twoPow 64 56
    (s.cmdDone c).cmd? c.serial = none ∧
    (∀ e, (s.cmdStop c e).cmd? c.serial = none) ∧
    (∀ p k, place p k →
      (let u := s.cmdDone c
       signals u ∧ unitBack u p k ∧ (u.task p k).handles = (s.task p k).handles.filter (fun h => h.1 != c.serial) ∧ SameMemory s u ∧
       ((∀ o, s.opOf p k c.serial = some o → o.act.dst = .none) → SameRegs s u) ∧
       ∀ m, s.cmd? c.serial = some c → c.act.mx = some m → c.toHost = true → m.scope ≠ .host → (c.serial, m.stream) ∈ (u.task p k).hostOps) ∧
      ∀ e, (s.task p k).st ≠ .saved →
        let u := s.cmdStop c e
        signals u ∧ unitBack u p k ∧ SameMemory s u ∧
        (u.task p k).handles = (s.task p k).handles.map (fun h => if h.1 = c.serial then (h.1, h.2 ||| BitVec.twoPow 64 56) else h) ∧
        records u (errWords 0x04 c.plot k c.launch c.bpc { cause := .engine, slot := c.slot } false (s.wtimeOf c.plot) failed) ∧
        (u.task p k).pend.getLsbD 3 = true ∧ (u.task p k).engQ = (s.task p k).engQ ++ [(failed, BitVec.ofNat 8 e)] ∧
        ((s.task p k).st = .wait → (s.task p k).trapv.getLsbD 0 = false → (u.task p k).st = .ready)) ∧
    (∀ ob f b, let u := s.cmdPause c ob f b
      u.cmd? c.serial = (s.cmd? c.serial).map (fun x => { x with paused := some (ob, f) }) ∧ SameMemory s u ∧ SameTasks s u ∧
      ∀ p k, s.handleSlot c.serial = some (p, k) →
        records u (errWords 0x02 c.plot k c.launch c.bpc { cause := .page, slot := c.slot, obj := ob, off := f, nested := b } false (s.wtimeOf c.plot) c.handle)) ∧
    (∀ p k i, (((s.signal p k i).plot p).sem k).toNat = min (((s.plot p).sem k).toNat + i) 0xFFFF ∧
      ∀ v t, (((s.plot p).semNow (s.cycOf p) k).taken ≤ v.toNat →
          (((s.signal p k i).setSem p k v).plot p).sem k = (((s.setSem p k v).signal p k i).plot p).sem k) ∧
        (t ≤ s.semFree p k → (((s.signal p k i).takeSem p k t).plot p).sem k = (((s.takeSem p k t).signal p k i).plot p).sem k)) ∧
    ∀ (port : Nat) (f : Flit),
      let here := s.mod.link.getLsbD port = true ∧ f.crcOk = true ∧ f.dest = s.mod.modId.toNat ∧
        (∀ a bs, f.body = .write a bs → bs.length ≤ 224) ∧
        ∀ b k fn l crc pos ch o bs, f.body = .contrib b k fn l crc pos ch o bs → bs.length ≤ 224
      let receives := fun (t : State) => exec (.flitReceive port f) s = .next t
      let keeps := fun (b : FlitBody) => s.onMod (fun m => { m with inbox := m.inbox ++ [b] })
      (∃ t, receives t) ∧
      (¬here → receives s) ∧
      (here → f.hop < 8 →
        (∀ a bs, f.body = .write a bs → receives (s.remoteWrite a bs)) ∧
        (∀ b k fn l crc pos ch o bs, f.body = .contrib b k fn l crc pos ch o bs → receives (keeps f.body)) ∧
        (∀ b k code all, f.body = .stop b k code all → receives (keeps f.body)) ∧
        (∀ b k, f.body = .delivered b k → receives (keeps f.body)) ∧
        ∀ g cnt l, f.body = .arrive g cnt l →
          (g ≤ 15 → cnt ≠ 0 → ∀ t old, s.arrive stewardDie (0x33600 + 16 * g) (BitVec.ofNat 16 cnt) l = some (t, old) → receives t) ∧
          ((15 < g ∨ cnt = 0 ∨ s.arrive stewardDie (0x33600 + 16 * g) (BitVec.ofNat 16 cnt) l = none) → receives s)) ∧
      (here → 8 ≤ f.hop →
        (∀ b k fn l crc pos ch o bs, f.body = .contrib b k fn l crc pos ch o bs → receives (keeps (.stop b k 0x0A false))) ∧
        (∀ b k code all, f.body = .stop b k code all → receives (keeps (.stop b k 0x0A false))) ∧
        (∀ b k, f.body = .delivered b k → receives (keeps (.stop b k 0x0A false))) ∧
        ((∃ a bs, f.body = .write a bs) ∨ (∃ g cnt l, f.body = .arrive g cnt l) → receives s))

/-! ## Events of a field -/

/-- R239 to R244, R247, R254, R258, R266, R268 and R277: the events that feed a field. When every WEST plot of a field holds its next FEED
and they agree, the pass is released; two that differ are FIELD. A row of a WEST plot offers the beat of its next activation row, the first
of a row-slice under a token of port 0; the loader fills a loading register under a token of port 1; a cell with its beat and its sum at
hand, and its outputs free, swaps if the beat asks, and passes on the beat and the sum with its dot product added. A word read for a loading
register that is full waits in the loader, and the last word read ends the WLD. State.fieldFault, with which FIELD stops a field, ends its master task
with one record of that cause, also where a page fault has saved it, and leaves every byte of memory: that the token is charged at the read, where a word waits and what
ends the WLD are readings of log 62. A source behind a host link that is down reads as free values, with ENGINE records (R156, as log 64 reads it).
A cell that fires is counted, and the beat that the first one of a row takes enters the plot's cells (R397). PASS_RELEASE, FEEDER_ROW_RELEASE,
LOADER_WORD_WRITE and CELL_FIRE complete. A field that is being saved begins no new row (log 49); that a beat's swap is made in the very step in which the
cell fires is the choice of log 77. -/
def Obligations.FieldInputEvents : Prop :=
  ∀ (s : State) (p : Nat) (f : Field),
    (∀ h : BitVec 32, s.liveField h = some f →
      let u := s.fieldFault h
      let master := s.findTask f.launch f.masterUid
      let held := s.faulted.find? (fun x => x.uid == f.masterUid && x.launch == f.launch)
      (∃ g, u.liveField h = some g ∧ g.stopped = true ∧ g.passes = f.passes) ∧ (∀ b, u.rdByte b = s.rdByte b) ∧
      (held = none → master = none → u = s.onField h (fun g => { g with stopped := true })) ∧
      (∀ q k, held = none → master = some (q, k) →
        ((s.task q k).ops = [] → u.task q k = {}) ∧ ((s.task q k).ops ≠ [] → (u.task q k).leaving = .ended ∧ (u.task q k).ops = (s.task q k).ops) ∧
        ∀ (l : Launch) (hq : l.q < 8), s.launch? (s.task q k).launch = some l → (u.queues[l.q]).waiting = (s.queues[l.q]).waiting ++
          [errWords 0x01 q k (s.task q k).launch (s.task q k).bpc { cause := .field } false (s.wtimeOf q) 0]) ∧
      ∀ x, held = some x → (∀ y ∈ u.faulted, y.uid ≠ x.uid) ∧
        ∀ (l : Launch) (hq : l.q < 8), s.launch? f.launch = some l → (u.queues[l.q]).waiting = (s.queues[l.q]).waiting ++
          [errWords 0x01 f.masterPlot x.k f.launch 0 { cause := .field } true (s.wtimeOf f.masterPlot) 0]) ∧
    (∀ (h : Nat) (c : FeedCmd), s.liveField (BitVec.ofNat 32 h) = some f → f.stopped = false → f.releasing = none → f.rows ≠ 0 →
      (∀ q ∈ s.westPlots f, (s.plot q).fu.nextFeed ≠ none) → (s.plot (s.fieldPlot f 0 0)).fu.nextFeed = some c →
      ((∃ q ∈ s.westPlots f, ∃ d, (s.plot q).fu.nextFeed = some d ∧ c.agrees d = false) →
        exec (.passRelease h) s = .next (s.fieldFault f.handle)) ∧
      ((∀ q ∈ s.westPlots f, ∀ d, (s.plot q).fu.nextFeed = some d → c.agrees d = true) →
        exec (.passRelease h) s = .next ((List.range f.rows).foldl (fun s r => s.releaseFeed f r)
          (if s.activeCols f = [] then s else
           let pass : Pass := { tile := c.tile, m := c.m, fin := c.fin, swap := c.swap, eos := c.eos, left := s.activeCols f }
           s.onField f.handle (fun f => { f with passes := f.passes ++ [pass] }))))) ∧
    (∀ r, let q := s.fieldPlot f r 0
      ∀ c, (s.plot q).fu.nextFeed = some c → s.releaseFeed f r = if s.fedRows f r = []
        then (s.onFu q (fun u => { u with feeds := u.feeds.filter (fun x => x.serial != c.serial) })).finishHeld q c.uid c.serial
        else s.onFu q (fun u => { u with
          feeds := changeFirst (fun x => !x.released) (fun x => { x with released := true, start := s.cycOf q }) u.feeds })) ∧
    ∀ (r c : Nat), s.fieldOf p = some f → s.fieldPos f p = some (r, c) →
      let u := (s.plot p).fu
      (∀ (row i : Nat) (a : Agen) (cmd : FeedCmd), (s.fedRows f r).find? (fun x => x.2 == row) = some (i, row) → f.gen r c 0 = some a →
        u.feeds.find? (fun x => x.released && decide (x.offered.get row 0 < x.m)) = some cmd → u.west? = true → cmd.paused = none →
        s.admitting = true → (u.west.get row []).length < 8 → cmd.start.toNat + u.delay.get row 0 ≤ (s.cycOf p).toNat →
        let m := cmd.offered.get row 0
        s.srcCheck (dieOf p) a cmd.ptr (f.beatRanges a cmd.q0 m i) = .ok →
        (m = cmd.next → u.port0.cnt ≠ 0 ∧ (s.isSaving f.launch = false ∨ s.begun f (u.laterThan cmd.serial) m = true)) →
        ∃ t, exec (.feederRowRelease p row) s = .next t ∧
          (t.plot p).fu.west.get row [] = u.west.get row [] ++
            [cmd.beat m (f.beatData a cmd.q0 m i (fun o n => s.srcBytes (dieOf p) a cmd.ptr o n))] ∧
          (t.plot p).fu.port0.cnt = (if m = cmd.next then u.port0.cnt - 1 else u.port0.cnt) ∧
          (∀ (l : Launch) (hq : l.q < 8), s.launch? f.launch = some l → ∃ more, (t.queues[l.q]).waiting = (s.queues[l.q]).waiting ++
            (s.srcLost (dieOf p) a cmd.ptr (f.beatRanges a cmd.q0 m i)).map (fun h => errWords 0x04 p cmd.slot f.launch cmd.bpc
              { cause := .engine, phys := BitVec.ofNat 64 h } false (s.wtimeOf p) 0) ++ more) ∧
          ∀ j, j ≠ row → (t.plot p).fu.west.get j [] = u.west.get j []) ∧
      (∀ (pick n i jl g j b : Nat), (s.logRows f)[i]? = some g → (s.localCols f c)[jl]? = some (j, b) →
        let q := s.fieldPlot f (g / 16) c
        let key := 16 * (g % 16) + b
        let cell := (s.plot q).fu.cell key
        let loads := fun (w : BitVec 128 × BitVec 32) => ({ cell with
          wLoad := w.1, full := true
          gLoad := if f.mode = 1 then w.2 else if f.mode = 2 then cell.gLoad.extractLsb' 8 24 ++ w.2.extractLsb' 0 8 else cell.gLoad } : Cell)
        let goes := fun (earlier : List (Nat × Nat × BitVec 128 × BitVec 32)) => cell.full = false ∧ ∀ x ∈ earlier, ¬(x.1 = i ∧ x.2.1 = jl)
        (∀ (a : Agen) (cmd : WldCmd) (rest : List WldCmd), f.gen r c 2 = some a → u.wlds = cmd :: rest →
          pick % (u.loaded.length + cmd.left.length) = u.loaded.length + n → cmd.left[n]? = some (i, jl) →
          cmd.paused = none → u.port1.cnt ≠ 0 → s.admitting = true → s.srcCheck (dieOf p) a cmd.ptr (f.wordRanges a cmd.n i jl) = .ok →
          let w := f.wordData a cmd.n i jl (fun o n => s.srcBytes (dieOf p) a cmd.ptr o n)
          ∃ t, exec (.loaderWordWrite p pick) s = .next t ∧ (t.plot p).fu.port1.cnt = u.port1.cnt - 1 ∧
            (cmd.left.filter (fun x => x != (i, jl)) = [] → (t.plot p).fu.wlds = rest) ∧
            (goes u.loaded → (t.plot q).fu.cell key = loads w ∧ (t.plot p).fu.loaded = u.loaded) ∧
            (¬goes u.loaded → (t.plot q).fu.cell key = cell ∧ (t.plot p).fu.loaded = u.loaded ++ [(i, jl, w)])) ∧
        ∀ w, u.loaded[n]? = some (i, jl, w) → pick % (u.loaded.length + (u.wlds.head?.map (·.left.length)).getD 0) = n →
          goes (u.loaded.take n) → ∃ t, exec (.loaderWordWrite p pick) s = .next t ∧
            (t.plot q).fu.cell key = loads w ∧ (t.plot p).fu.loaded = u.loaded.eraseIdx n) ∧
      (∀ (i j li lj : Nat) (b : Beat) (n : Psum), i < 16 → j < 16 → f.stopped = false →
        let g := 16 * r + i
        let h := 16 * c + j
        (s.logRows f).findIdx (· == g) = li → (s.logCols f).findIdx (· == h) = lj → li < (s.logRows f).length → lj < (s.logCols f).length →
        let cell := s.cellAt f g h
        cell.east = none → cell.south = none → s.cellInputs f li lj g h = some (b, n) → (b.swap = true → cell.full = true) →
        (li = 0 → lj = 0 → s.isSaving f.launch = false ∧ (b.m = 0 → s.mayEnter f b.tile = true)) →
        let mx := if f.mode = 2 then cell.gLoad.extractLsb' 0 8 else cell.mx
        let x : Cell := if b.swap then { cell with wAct := cell.wLoad, gAct := cell.gLoad, full := false, par := false, mx := mx } else cell
        let d := cellStep f.mode (li % 8 == 7 || li + 1 == f.lr) b.data b.scale x.wAct x.gAct x.mx ⟨n.val, n.gp, n.peak.toNat⟩
        ∃ t, exec (.cellFire p i j) s = .next t ∧
          (let out : Psum := { n with val := d.val, gp := d.gp, peak := BitVec.ofNat 8 d.peak, bad := n.bad || x.par }
           t.cellAt f g h = { x with east := if lj + 1 = (s.logCols f).length then none else some b, south := some out }) ∧
          (let count := fun (v : State) (k : Nat) => (v.plot p).counter (s.cycOf p) k
           count t 22 = count s 22 + 1 ∧ count t 23 = count s 23 + (if (s.localCols f c).head?.map (·.1) = some lj then 1 else 0)) ∧
          t.mem = s.mem ∧ SameTasks s t)

/-- R251 to R253, R255, R256 and R269: the events that take results out. A column's sum is chained or stored into its tile's row, and stops
the field with FIELD beyond the tile's rows (State.fieldFault, which FieldInputEvents states); a parity error marks its array row, or the rows its cell fires into; a drain writer writes the
words of the next row with FILL at stamp 4, empties the tile with its last, and stops the field with FIELD at a poisoned row or a word that
cannot be written. ACC_ROW_WRITE, ACC_PARITY_ERROR and DRAIN_WRITER_ROW complete. What a FIELD record carries and what a drain writer leaves of
a bad row are readings of logs 46 and 47, a dead host link's record of log 64. -/
def Obligations.FieldOutputEvents : Prop :=
  ∀ (s : State) (p : Nat),
    (∀ row col, row < 512 → col < 16 → s.enabled p = true →
      exec (.accParityError p (.acc row col)) s = .next (if (s.plot p).fu.poison.contains row then s
        else s.onFu p (fun u => { u with poison := u.poison ++ [row] }))) ∧
    (∀ i j, i < 16 → j < 16 → s.enabled p = true →
      exec (.accParityError p (.cell i j)) s =
        .next (s.onFu p (fun u => { u with cells := u.cells.put (16 * i + j) { u.cell (16 * i + j) with par := true } }))) ∧
    ∀ (f : Field) (r c : Nat), s.fieldOf p = some f → s.fieldPos f p = some (r, c) → f.stopped = false →
      let u := (s.plot p).fu
      (∀ (col g : Nat) (n : Psum), col < 16 → r + 1 = f.rows → (s.logRows f)[f.lr - 1]? = some g →
        (s.cellAt f g (16 * c + col)).south = some n →
        let t := u.tile n.tile.toNat
        (t.rows ≤ n.m → exec (.accRowWrite p col) s = .next (s.fieldFault f.handle)) ∧
        (n.m < t.rows → t.st = .full → exec (.accRowWrite p col) s = .next s) ∧
        (n.m < t.rows → t.st ≠ .full →
          let chain := t.st == .accum || t.pend.any (fun x => x.tend && x.cols.getLsbD col)
          ∃ v, exec (.accRowWrite p col) s = .next v ∧
            (v.plot p).fu.accAt (t.base + n.m) col = accStep chain (u.accAt (t.base + n.m) col) n.val n.peak ∧
            (v.cellAt f g (16 * c + col)).south = none ∧
            (n.bad = true → (v.plot p).fu.poison.contains (t.base + n.m) = true) ∧ v.mem = s.mem)) ∧
      ∀ (t m : Nat) (a : Agen), (u.tile t).draining = some m → f.gen r c 1 = some a →
        let x := u.tile t
        let ws := (s.localCols f c).map (fun y => (a.drainHomes t m y.1, (u.accAt (x.base + m) y.2).extractLsb' 0 32))
        let put := fun (s : State) (w : List (Option Nat × Nat × Nat) × BitVec 32) => w.1.foldl (fun s x => match x.1 with
          | some h => if s.hostLost h then s.lostFor p 0 f.launch h else s.homeWrite h (leBytes (w.2.toNat / 2 ^ (8 * x.2.1)) x.2.2) .fill 4
          | none => s) s
        (u.poison.contains (x.base + m) = true → exec (.drainWriterRow p t) s = .next (s.fieldFault f.handle)) ∧
        (u.poison.contains (x.base + m) = false → (∃ w ∈ ws, ∃ y ∈ w.1, s.drainable y = false) →
          exec (.drainWriterRow p t) s = .next (((ws.filter (fun w => w.1.all s.drainable)).foldl put s).fieldFault f.handle)) ∧
        (u.poison.contains (x.base + m) = false → (∀ w ∈ ws, ∀ y ∈ w.1, s.drainable y = true) →
          ∃ v : State, v = ws.foldl put s ∧
            (m + 1 < x.rows → exec (.drainWriterRow p t) s =
              .next ((v.bump p 25 1).onFu p (fun u => u.setTile t { u.tile t with draining := some (m + 1) }))) ∧
            (x.rows ≤ m + 1 → exec (.drainWriterRow p t) s = .next ((v.bump p 25 1).drainDone p f t))) ∧
        (((s.drainDone p f t).plot p).fu.tile t).st = .empty ∧ (((s.drainDone p f t).plot p).fu.tile t).draining = none

/-! ## Events of rills -/

/-- R289 to R292, R294, R298, R368 and R432: the movement of items. A send end's first item goes on its way under a credit, that of a LATEST rill
without one; each router passes it on by the route entry in force there, or delivers it; the item delivered first, in the receiving format, enters
a buffer with room, and a LATEST element replaces the one held; a converter takes an item while none of its outputs waits; a credit reaches its
send end; a join passes data on from the input it did not take from last, and one token for two. What has arrived keeps the format of its upstream
end when that end is removed. RILL_ITEM_SEND, RILL_ITEM_ARRIVE, CONVERTER_TAKE,
CREDIT_ARRIVE and JOIN_MERGE complete in every state, and do nothing where their condition does not hold. What becomes of an item that no route
delivers, that items keep their order past a detour by waiting before the last router, and the credits of joins and converters, are readings of
logs 50 and 53. -/
def Obligations.RillEvents : Prop :=
  ∀ (s : State) (p e : Nat),
    let r := s.rill p e
    ((∃ u, exec (.rillItemSend p e) s = .next u) ∧ (∀ jin, ∃ u, exec (.rillItemArrive p e jin) s = .next u) ∧
      (∀ jin, ∃ u, exec (.converterTake p e jin) s = .next u) ∧ (∃ u, exec (.creditArrive p e) s = .next u) ∧
      ∃ u, exec (.joinMerge p e) s = .next u) ∧
    (∀ x rest, r.role = 1 → r.broken = false → r.down ≠ none → r.buf = x :: rest → r.latest = true ∨ r.credits ≠ 0 →
      ∃ u, exec (.rillItemSend p e) s = .next u ∧ (u.rill p e).credits = (if r.latest then r.credits else r.credits - 1) ∧
        (u.rill p e).transit = r.transit ++ [⟨x, p, r.route⟩] ∧ SameRegs s u ∧ (r.res = [] → (u.rill p e).buf = rest ∧ u.mem = s.mem)) ∧
    (r.role ≠ 1 ∨ r.broken = true ∨ r.down = none ∨ r.buf = [] ∨ r.latest = false ∧ r.credits = 0 → exec (.rillItemSend p e) s = .next s) ∧
    (∀ k t, r.transit[k]? = some t →
      let w := (s.plot t.plot).route t.idx
      let out := (w.extractLsb' 0 3).toNat
      let held := r.broken = true ∨ (∃ x ∈ r.transit.take k, x.plot = t.plot) ∨ (r.detoured = true ∧ k ≠ 0 ∧ out = 0) ∨ w.getLsbD 11 = false
      (held → s.routerHop p e k = s) ∧
      (¬held → out = 0 → s.routerHop p e k =
        (s.setRill p e { r with
          transit := r.transit.eraseIdx k
          moved := s.instant
          detoured := r.detoured && !decide (r.transit.length = 1) }).deliverItem t.plot r.pport r.jin t.item) ∧
      (¬held → out ≠ 0 → s.routerHop p e k = match hop t.plot out with
        | none => s
        | some q => s.setRill p e { r with transit := r.transit.set k ⟨t.item, q, (w.extractLsb' 3 8).toNat⟩, moved := s.instant })) ∧
    (∀ jin x, r.role = 2 ∧ jin = false ∨ r.role = 3 → s.flows p e jin = true → s.nextIn p e jin = some x →
      let room := r.room (r.inBuf jin) x = true
      let leaves := fun (u : State) => u.mem = s.mem ∧ SameRegs s u ∧ (s.hasConv p e jin = true →
          (u.rill p e).inConv jin = (r.inConv jin).drop 1 ∧ (u.rill p e).inFlight jin = r.inFlight jin) ∧
        (s.hasConv p e jin = false → (u.rill p e).inFlight jin = (r.inFlight jin).drop 1 ∧ (u.rill p e).inConv jin = r.inConv jin)
      (r.latest = false → room → r.role = 3 ∨ (∀ y ∈ (r.buf ++ [x]).head?, y.isMark = false) →
        ∃ u, exec (.rillItemArrive p e jin) s = .next u ∧ (u.rill p e).inBuf jin = r.inBuf jin ++ [x] ∧ leaves u) ∧
      (∀ v, r.latest = false → room → r.role = 2 → r.buf = [] → x = .mark v →
        ∃ u, exec (.rillItemArrive p e jin) s = .next u ∧ (u.rill p e).buf = [] ∧
          (u.rill p e).lastMark = (if v = 0xFFFF then r.lastMark else v) ∧ leaves u) ∧
      (∀ ws n, r.latest = true → x = .data ws n → ∃ u, exec (.rillItemArrive p e jin) s = .next u ∧ (u.rill p e).buf = [x] ∧
        (u.rill p e).unread = true ∧ (u.rill p e).seq = n ∧ leaves u) ∧
      (r.latest = false → ¬room → exec (.rillItemArrive p e jin) s = .next s)) ∧
    (∀ jin, (r.role ≠ 2 ∧ r.role ≠ 3) ∨ s.flows p e jin = false ∨ s.nextIn p e jin = none → exec (.rillItemArrive p e jin) s = .next s) ∧
    (∀ jin, (∀ u f, s.upOf p e jin = some (u, f) → s.srcFmt p e jin = some (s.rill u f).fmt) ∧
      (s.upOf p e jin = none → s.srcFmt p e jin = if jin then r.src1 else r.src)) ∧
    (∀ jin x rest n, s.hasConv p e jin = true → r.inConv jin = [] → s.flows p e jin = true → r.inFlight jin = x :: rest →
      s.srcFmt p e jin = some n →
      let c := convTake n r.fmt (r.inGroup jin) x
      let owes := x.isData = true ∧ r.cmode = true ∧ r.role = 2
      ∃ t, exec (.converterTake p e jin) s = .next t ∧ (t.rill p e).inConv jin = c.1 ∧ (t.rill p e).inGroup jin = c.2 ∧
        (t.rill p e).inFlight jin = rest ∧ (t.rill p e).owed = (if owes then r.owed + 1 else r.owed) ∧
        ∀ u f, s.upOf p e jin = some (u, f) → (u, f) ≠ (p, e) →
          (t.rill u f).back = (if x.isData = true ∧ ¬owes then (s.rill u f).back + 1 else (s.rill u f).back)) ∧
    (∀ jin, s.hasConv p e jin = false ∨ r.inConv jin ≠ [] ∨ s.flows p e jin = false ∨ r.inFlight jin = [] →
      exec (.converterTake p e jin) s = .next s) ∧
    exec (.creditArrive p e) s = .next (if r.back = 0 then s else s.setRill p e { r with back := r.back - 1, credits := r.credits + 1 }) ∧
    let in0 := if s.flows p e false then r.buf else []
    let in1 := if s.flows p e true then r.buf1 else []
    let merges := r.role = 3 ∧ r.broken = false ∧ r.credits ≠ 0 ∧ r.down ≠ none
    let takes := fun (jin : Bool) => ∀ x rest, r.inBuf jin = x :: rest → ∃ u, exec (.joinMerge p e) s = .next u ∧
      (u.rill p e).credits = r.credits - 1 ∧ (u.rill p e).lastIn = jin ∧ (u.rill p e).inBuf jin = rest ∧
      (u.rill p e).inBuf (!jin) = r.inBuf (!jin) ∧ (u.rill p e).transit = r.transit ++ [⟨x, p, r.route⟩] ∧ u.mem = s.mem ∧ SameTasks s u
    (merges → (headData in0 = true → headData in1 = true → takes (!r.lastIn)) ∧ (headData in0 = true → headData in1 = false → takes false) ∧
      (headData in0 = false → headData in1 = true → takes true) ∧
      ∀ x y t0 t1, in0 = x :: t0 → in1 = y :: t1 → x.isData = false → y.isData = false → ∃ u, exec (.joinMerge p e) s = .next u ∧
        (u.rill p e).credits = r.credits - 1 ∧ (u.rill p e).buf = t0 ∧ (u.rill p e).buf1 = t1 ∧
        (∃ z, (u.rill p e).transit = r.transit ++ [⟨z, p, r.route⟩] ∧ (z = .eos ↔ x = .eos ∧ y = .eos) ∧
          ∀ v, x = .mark v → z = .mark v) ∧ u.mem = s.mem ∧ SameTasks s u) ∧
    (¬merges ∨ headData in0 = false ∧ headData in1 = false ∧ (in0 = [] ∨ in1 = []) → exec (.joinMerge p e) s = .next s)

/-- R295, R304, R305 and R309: a set of blocked ports and stuck cores that has stood still for 2^16 cycles makes DEADLK pending in each of its
waiting tasks, once, unless an item of its rills can move in that very cycle, the cycles being those of the die that detects; and 4,096 cycles after the sluice's markers went out, the rills of a
save count as quiet. DEADLOCK_DETECT and RILL_QUIESCE_TIMEOUT complete. Which sets count is the reading of log 52. -/
def Obligations.DeadlockAndQuiescence : Prop :=
  ∀ (s : State),
    (∀ (wafer : Bool) (die cluster : Nat) (ports : List (Nat × Nat)) (cores : List Nat) (l : Launch), s.deadSet ports cores = true →
      (wafer = false → oneCluster die cluster ports cores = true) → (wafer = true → someCluster ports cores = false) →
      (∀ x ∈ ports, (s.rill x.1 x.2).launch = l.id) → s.launch? l.id = some l →
      let dd := detDie wafer die ports cores
      let since := s.stillSince dd ports cores
      ((s.die dd).cyc.toNat < since.toNat + 2 ^ 16 ∨ (∃ x ∈ ports, s.canStir x = true) ∨ (∃ x ∈ s.fired, x.1 = ports ∧ since.toNat ≤ x.2.toNat) →
        exec (.deadlockDetect wafer die cluster ports cores) s = .next s) ∧
      (since.toNat + 2 ^ 16 ≤ (s.die dd).cyc.toNat → (∀ x ∈ s.fired, x.1 = ports → x.2.toNat < since.toNat) → (∀ x ∈ ports, s.canStir x = false) →
        ∃ u, exec (.deadlockDetect wafer die cluster ports cores) s = .next u ∧ (ports, (s.die dd).cyc) ∈ u.fired ∧
          ∀ c ∈ cores, ∀ k < 16, (∃ x ∈ ports, x.1 = c ∧ (s.plot c).waitsPort k x.2 ((s.rill x.1 x.2).role == 1) = true) →
            (u.task c k).pend.getLsbD 0 = true)) ∧
    ∀ (c : HostCmd) (l : Launch) (n : Nat), s.hostCmd = some c → s.launch? (BitVec.ofNat 32 n) = some l → c.launch = l.id → l.marked = true →
      4096 ≤ ((s.die stewardDie).cyc - c.start).toNat →
      exec (.rillQuiesceTimeout n) s = .next { s with hostCmd := some { c with quiet := true } }

/-! ## Events of the sluice and of the steward -/

/-- R332 to R334, R338 to R342: the way of a launch. The owner writes LQTAIL; the sluice takes the record at LQHEAD, which advances at once, and
rejects it with a record of KIND 0x11 or keeps it; it is placed on the first place found and started, with each of its tasks READY at its
entry with its argument in g0; when all of it is gone it is completed: its fields and buffers go, and, once no host agent owes the report of one of its
writes, its record of R342 is posted and its plots are free with every slot FREE; and the first waiting record is written at CQTAIL, which advances, and
the owner's port is interrupted. LQTAIL_DOORBELL, LAUNCH_TAKE, LAUNCH_PLACE, LAUNCH_COMPLETE and COMPLETION_POST complete in every state, and do
nothing where their condition does not hold. A record's tables read over a host link that is down post ENGINE records (log 64). That an id is live, for 0x29, from when its record is taken is the choice of log 25. -/
def Obligations.LaunchEvents : Prop :=
  ∀ (s : State) (q : Nat), q < 8 →
    let x := s.queue q
    ((∀ port v, ∃ u, exec (.lqtailDoorbell port q v) s = .next u) ∧ (∃ u, exec (.launchTake q) s = .next u) ∧
      (∃ u, exec (.launchPlace q) s = .next u) ∧ (∀ n, ∃ u, exec (.launchComplete n) s = .next u) ∧ ∃ u, exec (.completionPost q) s = .next u) ∧
    (s.sluiceOn = false ∨ s.ownerUp = false ∨ s.mod.featack.getLsbD 0 = false ∨ s.nextServed ≠ some q → exec (.launchTake q) s = .next s) ∧
    (s.sluiceOn = false ∨ x.taken = none → exec (.launchPlace q) s = .next s) ∧
    (s.sluiceOn = false ∨ s.ownerUp = false ∨ x.waiting = [] ∨ x.cqRoom = false → exec (.completionPost q) s = .next s) ∧
    (∀ port v, s.ownedBy port → s.mod.boot = 2 →
      exec (.lqtailDoorbell port q v) s = .next (s.onQueue q (fun y => { y with lqtail := v.extractLsb' 0 12 }))) ∧
    (s.sluiceOn = true → s.ownerUp = true → s.mod.featack.getLsbD 0 = true → s.nextServed = some q → x.undef = 0 →
      let ws := (List.range 32).map (fun i => s.rdW (s.ownerAddr x.lqbase (256 * (x.lqhead.toNat % x.lqsize.toNat)) + 8 * i))
      let l := newLaunch ws q
      let s1 := { s with turn := (q + 1) % 8 }.onQueue q (fun y => { y with lqhead := BitVec.ofNat 12 ((y.lqhead.toNat + 1) % y.lqsize.toNat) })
      (∀ c, s1.launchCode l = some c → exec (.launchTake q) s = .next ((s1.tablesLost l).post q (doneWords 0x11 c l.id 0 0 0))) ∧
      (s1.launchCode l = none → exec (.launchTake q) s = .next ((s1.tablesLost l).onQueue q (fun y => { y with taken := some ws })))) ∧
    (∀ l : Launch, (s.tablesLost l).mem = s.mem ∧ SameTasks s (s.tablesLost l) ∧ ((∀ a, s.hostLost a = false) → s.tablesLost l = s)) ∧
    (∀ ws, x.taken = some ws → s.sluiceOn = true →
      let l := newLaunch ws q
      let s1 := s.onQueue q (fun y => { y with taken := none })
      (s.findPlace l [] = none → exec (.launchPlace q) s = .next s) ∧
      (∀ pl, s.findPlace l [] = some pl →
        (s1.startLaunch (l.at_ pl) = none → exec (.launchPlace q) s = .next (s1.post q (doneWords 0x11 0x27 l.id 0 0 0))) ∧
        ∀ t, s1.startLaunch (l.at_ pl) = some t → exec (.launchPlace q) s = .next t)) ∧
    (∀ (l : Launch) (ts : List Tmpl) (p k : Nat) (at_ : Nat × Nat) (t : Tmpl), (slotTmpls ts at_).length ≤ 16 → (slotTmpls ts at_)[k]? = some t →
      let v := (s.startTasks l ts p at_).task p k
      v.st = .ready ∧ v.bpc = t.entry ∧ v.launch = l.id ∧ v.priv = l.privBit ∧ v.pri = t.t0.extractLsb' 45 3 ∧ v.regs.getG 0 = t.t2 ∧
      v.ops = [] ∧ v.trapv = 0 ∧ ∀ i < 7, v.regs.getC (BitVec.ofNat 3 i) = capPtr (l.cap (0x70 + 16 * i))) ∧
    (∀ (n : Nat) (l : Launch), s.launch? (BitVec.ofNat 32 n) = some l → s.sluiceOn = true → l.st = .live ∨ l.st = .ending → s.allGone l = true →
      let s1 := s.onLaunch l.id (fun y => { y with st := .ending })
      let fs := s1.fields.filter (fun f => f.launch == l.id)
      ((∀ f ∈ fs, s1.releasable f = true) → exec (.launchComplete n) s = .next (s1.finishLaunch l)) ∧
      ((∃ f ∈ fs, s1.releasable f = false) → ∃ u, exec (.launchComplete n) s = .next u ∧ SameMemory s u ∧ SameTasks s u ∧
        ∀ f ∈ u.fields, f.launch = l.id → f.releasing.isSome = true)) ∧
    (∀ l : Launch, let v := s.stripLaunch l
      let u := s.finishLaunch l
      (∀ f ∈ v.fields, f.launch ≠ l.id) ∧ (∀ b ∈ v.bufs, b.valid = true → b.launch ≠ l.id) ∧ (v.hostOwed l = true → u = v) ∧
      (v.hostOwed l = false ↔ (∀ x, v.launch? l.id = some x → x.hostLeft = []) ∧ ∀ p ∈ v.plotsOf l.id, ∀ k < 16, (v.task p k).hostOps = []) ∧
      (v.hostOwed l = false → u.mem = v.mem ∧ u.launches = v.launches.eraseP (fun x => x.id == l.id) ∧
        (∀ p ∈ v.plotsOf l.id, (u.plot p).owner = none ∧ ∀ k < 16, u.task p k = {}) ∧
        ∀ hq : l.q < 8, (u.queues[l.q]).waiting = (v.queues[l.q]).waiting ++
          [[BitVec.ofNat 64 l.kind.toNat, l.id.zeroExtend 64, (((v.launch? l.id).map (fun x => x.errs)).getD l.errs).zeroExtend 64, 0,
            if l.kind = 0x17 then l.reason.zeroExtend 64 else 0, 0, 0, 0]])) ∧
    ∀ (r : List (BitVec 64)) (rest : List (List (BitVec 64))), x.waiting = r :: rest → s.sluiceOn = true → s.ownerUp = true →
      x.cqRoom = true →
      let stamped := if 0x10 ≤ ((r.headD 0).extractLsb' 0 8).toNat then r.set 6 (s.die stewardDie).wtime else r
      let t := s.wrBytes (s.ownerAddr x.cqbase (64 * (x.cqtail.toNat % x.cqsize.toNat))) (wordBytes stamped)
      exec (.completionPost q) s = .next ((t.onQueue q (fun y =>
        { y with waiting := rest, cqtail := BitVec.ofNat 12 ((y.cqtail.toNat + 1) % y.cqsize.toNat) })).onMod
          (fun m => { m with msix := m.msix ++ [(m.oport.toNat, q)] }))

/-- R18, R348 to R353, R372, R376 and R377: the owner's commands while none is in progress. One for no launch, or for an ending one, is refused
with 0x30; one for a launch in another state with 0x31; the others begin. KILL ends its launch at once, and makes of one that is completing a killed
one. A MIGRATE marks the extents of both plots, whose MIG bits accesses wait for. A rebind gives the name of a failed plot
to its spare, and a plot that fails without one is a hole; GEN is odd until the steward has written every word that changes, which until then
reads as before. The end of a launch ends its tasks without a record, keeps every byte of memory, and stops its commands. A command in progress ends with
its record once all of the launch, or of the plot that moves, is saved and its rills and fields are at rest, or a place is found; one whose launch has
ended meanwhile is refused with 0x30. Each word that the steward writes is a plain write at stamp 6. HOST_PREEMPT, HOST_RESTORE, HOST_MIGRATE, HOST_KILL, HOST_CMD_UNKNOWN, STEWARD_REBIND and PLOT_FAILURE complete. That a command
in progress goes on with the clocks is the model's choice (log 27); the order of the steward's writes is log 57's. -/
def Obligations.HostCommands : Prop :=
  ∀ (s : State) (port cq n : Nat), s.ownedBy port → s.sluiceOn = true → s.hostCmd = none →
    let id := BitVec.ofNat 32 n
    let errs := ((s.launch? id).map (·.errs)).getD 0
    let begun := fun (t : State) (cmd : Nat) (src dst : Nat) =>
      let c : HostCmd := { cmd := cmd, launch := id, cq := cq % 8, start := (s.die stewardDie).cyc, src := src, dst := dst }
      ({ t with hostCmd := some c } : State)
    let refused := fun (i : Instr) (code : Nat) => exec i s = .next (s.post (cq % 8) (doneWords 0x15 code id errs 0 0))
    let changing := fun (u : State) (p : Nat) =>
        u.mod.mapGen = s.mod.mapGen + (if s.mod.mapGen.getLsbD 0 then 2 else 1) ∧
        (s.mod.mapLag = [] → ∀ i ∈ [0, 8], u.stewardWord (0x40 + 16 * (pcol p * 84 + prow p) + i) =
          s.stewardWord (0x40 + 16 * (pcol p * 84 + prow p) + i))
    (s.launch? id = none → refused (.hostPreempt port cq n) 0x30 ∧ refused (.hostRestore port cq n) 0x30 ∧
      refused (.hostMigrate port cq n) 0x30 ∧ refused (.hostKill port cq n) 0x30) ∧
    (∀ cmd, cmd % 16 = 0 ∨ 4 < cmd % 16 → refused (.hostCmdUnknown port cmd cq n) 0x30) ∧
    (∀ l, s.launch? id = some l →
      (l.st = .ending → refused (.hostPreempt port cq n) 0x30 ∧ refused (.hostRestore port cq n) 0x30 ∧ refused (.hostMigrate port cq n) 0x30) ∧
      (l.st ≠ .ending → l.st ≠ .live → refused (.hostPreempt port cq n) 0x31 ∧ refused (.hostMigrate port cq n) 0x31) ∧
      (l.st ≠ .ending → l.st ≠ .saved → refused (.hostRestore port cq n) 0x31) ∧
      (l.st = .live → exec (.hostPreempt port cq n) s =
        .next (begun (s.onLaunch id (fun l => { l with st := .saving, marked := false })) 1 0xFFFF 0xFFFF).hostProgress) ∧
      (l.st = .saved → exec (.hostRestore port cq n) s = .next (begun s 2 0xFFFF 0xFFFF).hostProgress) ∧
      (l.st = .live →
        (∀ code, s.migrateCode l (s.resolve s.mod.carg0) s.mod.carg1.toNat = some code → refused (.hostMigrate port cq n) code) ∧
        ∀ p, s.resolve s.mod.carg0 = some p → s.migrateCode l (some p) s.mod.carg1.toNat = none →
          let q := s.mod.carg1.toNat
          let m := s.markExts p q
          let t := ((m.onPlot p (fun x => { x with migrating := true })).onPlot q (fun x => { x with migrating := true })).onLaunch id
            (fun l => { l with marked := false })
          exec (.hostMigrate port cq n) s =
            .next ({ begun t 3 p q with hostCmd := (begun t 3 p q).hostCmd.map (fun c => { c with marks := s.extsOn p q }) } : State).hostProgress ∧
          (∀ a, s.extsOn p q = [a] → a % 8 = 0 → Memory.wf s.mem = true → m.rdW a = s.rdW a ||| BitVec.twoPow 64 61) ∧
          (∀ a, s.extsOn p q = [] → m.rdByte a = s.rdByte a)) ∧
      exec (.hostKill port cq n) s = .next ((begun s 4 0xFFFF 0xFFFF).killLaunch id 0x16 0) ∧
      (l.st = .ending → l.kind = 0x10 → exec (.hostKill port cq n) s =
        .next ((begun s 4 0xFFFF 0xFFFF).onLaunch id (fun l => { l with kind := 0x16, reason := 0 }))) ∧
      (l.st = .ending → l.kind ≠ 0x10 → exec (.hostKill port cq n) s = .next (begun s 4 0xFFFF 0xFFFF))) ∧
    (∀ (l : Launch) (kind : BitVec 8) (reason : BitVec 32), s.launch? id = some l → l.st ≠ .ending →
      let u := s.killLaunch id kind reason
      (∃ m, u.launch? id = some m ∧ m.st = .ending ∧ m.kind = kind ∧ m.reason = reason ∧ m.q = l.q) ∧ (∀ b, u.rdByte b = s.rdByte b) ∧
      (∀ p ∈ s.plotsOf id, ∀ k < 16, (s.task p k).st ≠ .free →
        u.task p k = {} ∨ ((u.task p k).leaving = .ended ∧ (u.task p k).st = .running ∧ (u.task p k).pend = 0)) ∧
      (∀ c ∈ u.cmds, c.launch ≠ id) ∧ (∀ x ∈ u.faulted, x.launch ≠ id) ∧
      ((∀ c ∈ s.cmds, c.launch ≠ id) → u.queues = s.queues ∧ u.cmds = s.cmds ∧
        ∀ p ∈ s.plotsOf id, ∀ k < 16, (s.task p k).st ≠ .free → (s.task p k).ops = [] → u.task p k = {})) ∧
    (∀ (c : HostCmd) (l : Launch), let t : State := { s with hostCmd := some c }
      let u := t.hostProgress
      let ends := fun (kind : Nat) (plot : BitVec 32) => u.hostCmd = none ∧ ∃ m, u.launch? l.id = some m ∧
        ∀ hq : c.cq < 8, ∃ more, (u.queues[c.cq]).waiting = (s.queues[c.cq]).waiting ++ more ++
          [[BitVec.ofNat 64 kind, l.id.zeroExtend 64, m.errs.zeroExtend 64, plot.zeroExtend 64, 0, 0, 0, 0]]
      (c.cmd = 4 → u = t) ∧
      (c.cmd ≠ 4 → s.launch? c.launch = none → u.hostCmd = none ∧ ∀ hq : c.cq < 8, (u.queues[c.cq]).waiting = (s.queues[c.cq]).waiting ++
        [doneWords 0x15 0x30 c.launch 0 0 0]) ∧
      (c.cmd ≠ 4 → s.launch? c.launch = some l → l.st = .ending → u.hostCmd = none ∧ ∀ hq : c.cq < 8,
        (u.queues[c.cq]).waiting = (s.queues[c.cq]).waiting ++ [doneWords 0x15 0x30 c.launch l.errs 0 0]) ∧
      (c.cmd = 1 → s.launch? c.launch = some l → l.st ≠ .ending →
        let v := (t.plotsOf l.id).foldl (fun s p => s.saveCore p) t
        let q := v.quiesce c l (fun _ r => r.launch == l.id)
        let fs := q.1.fields.filter (fun f => f.launch == l.id)
        ((∃ p ∈ t.plotsOf l.id, (v.plot p).allSaved = false) → u = v) ∧
        ((∀ p ∈ t.plotsOf l.id, (v.plot p).allSaved = true) → q.2 = true → (∀ x ∈ q.1.cmds, x.launch ≠ l.id) → l.fieldsStop = true ∨ fs = [] →
          (∀ f ∈ fs, q.1.atRest f = true) →
          ends 0x12 0 ∧ (∃ m, u.launch? l.id = some m ∧ m.st = .saved) ∧ (∀ x ∈ q.1.placed l, (u.plot x.1).owner = none) ∧
            ∀ f ∈ u.fields, f.launch ≠ l.id)) ∧
      (c.cmd = 2 → s.launch? c.launch = some l → l.st ≠ .ending → (t.findAgain l = none → u = t) ∧
        (u.hostCmd = none → ends 0x13 0 ∧ ∃ m, u.launch? l.id = some m ∧ m.st = .live ∧ m.savedFields = [])) ∧
      (c.cmd = 3 → s.launch? c.launch = some l → l.st ≠ .ending → ∀ id2 i, (s.plot c.src).owner = some (id2, i) → (s.plot c.dst).stat ≠ .hole →
        let v := t.saveCore c.src
        let q := v.quiesce c l (fun p r => r.launch == l.id && (p == c.src || r.down.map (fun d => d.1) == some c.src))
        ((v.plot c.src).allSaved = false → u = v) ∧ ((v.plot c.src).allSaved = true → q.2 = false → u = q.1) ∧
        ((v.plot c.src).allSaved = true → q.2 = true → c.src ≠ c.dst → ends 0x14 (l.plotName i) ∧ (u.plot c.src).owner = none ∧
          (u.plot c.dst).owner = some (l.id, i)))) ∧
    ((∀ p, s.enabled p = true → (s.plot p).partner ≠ 0xFFFF → (s.plot (s.plot p).partner.toNat).stat = .spare →
        let q := (s.plot p).partner.toNat
        ∃ u, exec (.stewardRebind p) s = .next u ∧ (u.plot p).stat = .hole ∧ (u.plot p).rebound = true ∧ (u.plot q).stat = (s.plot p).stat ∧
          (s.nameOf p, q) ∈ u.mod.rebinds ∧ changing u p) ∧
      (∀ p, s.mod.boot = 2 → s.enabled p = true → (s.plot p).partner = 0xFFFF →
        ∃ u, exec (.plotFailure p) s = .next u ∧ (u.plot p).stat = .hole ∧ changing u p) ∧
      ∀ p, s.mod.boot = 2 → plotExists p = true → (s.plot p).stat = .spare → ∃ u, exec (.plotFailure p) s = .next u ∧
        (u.plot p).stat = .hole ∧ ((s.plot p).partner ≠ 0xFFFF → (u.plot (s.plot p).partner.toNat).partner = 0xFFFF) ∧ changing u p) ∧
    (let plain := fun (u : State) (off : Nat) =>
       let a := mkAddr 1 stewardPlot off
       u.mem = s.mem ∧ SameTasks s u ∧ (u.sideAt a).stamp = 6 ∧ (u.sideAt a).tag = false ∧ (u.sideAt a).pres = (s.sideAt a).pres ∧
       ∀ b, b / 32 ≠ a / 32 → u.sideAt b = s.sideAt b
     (∀ x t, s.mod.mapLag = x :: t → s.stewardStep.mod = { s.mod with mapLag := t } ∧ plain s.stewardStep x.1) ∧
     (s.mod.mapLag = [] → s.mod.mapGen.getLsbD 0 = true →
       s.stewardStep.mod = { s.mod with mapGen := s.mod.mapGen + 1 } ∧ plain s.stewardStep 0) ∧
     (s.mod.mapLag = [] → s.mod.mapGen.getLsbD 0 = false → s.stewardStep = s))
end

