-- ==== Sys2Proof/Laws/Slot.lean ====
section
/-! SUPPORT. What executing a slot can do: the shapes every instruction's meaning goes through, each said once. -/

namespace Sys2Proof.Machine

open Sys2Proof

@[simp] theorem Rd.bind_val {α β : Type} (a : α) (f : α → Rd β) : (Rd.val a).bind f = f a := rfl
@[simp] theorem Rd.bind_wait {α β : Type} (f : α → Rd β) : (Rd.wait : Rd α).bind f = .wait := rfl
@[simp] theorem Rd.bind_null {α β : Type} (f : α → Rd β) : (Rd.null : Rd α).bind f = .null := rfl

/-- The slot runs and its effect is the state t. -/
theorem runSlot_val {p : Pred} {s t : State} {cx : Cx} {f : Cx → Rd State} (h : s.runs cx p) (hf : f cx = .val t) :
    runSlot p s f = .next t := by
  simp [runSlot, h.1, h.2, hf]

/-- Whether or not it runs, a slot leaves the state as it was, is nullified, or has its effect: it never stops the machine. -/
theorem runSlot_cases (p : Pred) (s : State) (f : Cx → Rd State) :
    runSlot p s f = .next s ∨ (∃ cx, s.cx? = some cx ∧ runSlot p s f = .next (s.nullify cx)) ∨
    ∃ cx t, s.runs cx p ∧ f cx = .val t ∧ runSlot p s f = .next t := by
  unfold runSlot State.runs
  cases h : s.cx? with
  | none => exact .inl rfl
  | some cx =>
    cases hp : cx.predicate p with
    | wait => exact .inl (by simp [hp])
    | null => exact .inr (.inl ⟨cx, rfl, by simp [hp]⟩)
    | val b =>
      cases b with
      | false => exact .inr (.inl ⟨cx, rfl, by simp [hp]⟩)
      | true =>
        cases hf : f cx with
        | wait => exact .inl (by simp [hp, hf])
        | null => exact .inr (.inl ⟨cx, rfl, by simp [hp, hf]⟩)
        | val t => exact .inr (.inr ⟨cx, t, ⟨rfl, hp⟩, hf, by simp [hp, hf]⟩)

/-- A slot that clashes with no executed one is done. -/
theorem finish_free {s : State} {cx : Cx} {r : SlotRec} (h : cx.free r) : s.finish cx r = s.executed cx r := by
  have h0 : cx.blk.slots.any (fun q => q.st == .done && r.clash q) = false := by
    rw [List.any_eq_false]
    intro q hq
    by_cases e : q.st = .done
    · simp [e, h q hq e]
    · simp [e]
  simp [State.finish, State.executed, h0]

/-- A record that clashes with an executed slot's. -/
theorem clash_of_not_free {cx : Cx} {r : SlotRec} (h : ¬cx.free r) :
    cx.blk.slots.any (fun q => q.st == .done && r.clash q) = true := by
  by_contra hn
  have h0 := List.any_eq_false.1 (Bool.eq_false_iff.2 hn)
  exact h (fun q hq e => by simpa [e] using h0 q hq)

/-- A slot that clashes with an executed one has found DECODE. -/
theorem finish_clash {s : State} {cx : Cx} {r : SlotRec} (h : ¬cx.free r) : s.finish cx r = s.abortSlot cx { cause := .decode } := by
  simp [State.finish, clash_of_not_free h]

/-- A slot that runs and ends with a record is done with it, or has found DECODE. -/
theorem ends_finish {p : Pred} {s t : State} {cx : Cx} {f : Cx → Rd State} {r : SlotRec} {i : Instr} (hr : s.runs cx p)
    (hi : exec i s = runSlot p s f) (hf : f cx = .val (t.finish cx r)) : Ends s t cx i r := by
  have h := hi.trans (runSlot_val hr hf)
  exact ⟨fun hc => by rw [h, finish_free hc], fun hc => by rw [h, finish_clash hc]⟩

/-- Clashing depends on what a record writes and whether it branches, not on its value. -/
theorem free_of_dst {cx : Cx} {d : Dst} {r : SlotRec} (h : cx.free { dst := d }) (hd : r.dst = d) (ha : r.act = none) (hb : r.br = none) :
    cx.free r := by
  intro q hq e
  have := h q hq e
  simpa [SlotRec.clash, SlotRec.dsts, SlotRec.wrsNum, hd, ha, hb] using this

/-- A record that captures an operation for D is free where D is, if it writes no system register. -/
theorem free_act {cx : Cx} {d : Dst} {r : SlotRec} {a : CAct} (h : cx.free { dst := d }) (hd : r.dst = .none) (ha : r.act = some a)
    (hk : a.dst = d) (hw : ∀ n x, a.kind ≠ .wrs n x) (hb : r.br = none) : cx.free r := by
  intro q hq e
  have := h q hq e
  have h2 : r.wrsNum = none := by
    unfold SlotRec.wrsNum
    rw [ha]
    cases e : a.kind <;> simp_all
  simp only [SlotRec.clash, SlotRec.dsts, h2, ha, hb, hd] at *
  by_cases h3 : (d != Dst.none) = true <;> simp_all

/-- A record that captures an operation without D is always free, if it writes no system register. -/
theorem free_noD {cx : Cx} {r : SlotRec} {a : CAct} (hd : r.dst = .none) (ha : r.act = some a) (hk : a.dst = .none)
    (hw : ∀ n x, a.kind ≠ .wrs n x) (hb : r.br = none) : cx.free r := by
  intro q hq e
  have h2 : r.wrsNum = none := by
    unfold SlotRec.wrsNum
    rw [ha]
    cases e : a.kind <;> simp_all
  simp [SlotRec.clash, SlotRec.dsts, h2, ha, hb, hd, hk]

theorem result_free {s : State} {cx : Cx} {d : Dst} {v : Val} (h : cx.free { dst := d }) :
    s.result cx d v = s.executed cx { val := some v, dst := d } :=
  finish_free (free_of_dst h rfl rfl rfl)

theorem capture_free {s : State} {cx : Cx} {a : CAct} (h : cx.free { act := some a }) :
    s.capture cx a = s.executed cx { act := some a } := finish_free h

theorem branch_free {s : State} {cx : Cx} {b : Br} (h : cx.free { br := some b }) :
    s.branch cx b = s.executed cx { br := some b } := finish_free h

/-- No triggering result among those that are quiet. -/
theorem trigger_quiet {cx : Cx} {cs : List Checked} (h : cx.quiet cs) : cx.task.trigger cs = none := by
  simp only [Task.trigger, List.find?_eq_none]
  intro c hc
  cases hf : c.fin with
  | false => simp
  | true => have := h c hc hf; simp; omega

/-- A quiet FP result is done with its value and flags. -/
theorem fpResult_quiet {s : State} {cx : Cx} {d : Dst} {v : Val} {fl : FFlags} {cs : List Checked} {u : Nat} (h : cx.free { dst := d })
    (hq : cx.quiet cs) : s.fpResult cx d v fl cs u = (s.bump cx.p u 1).executed cx { val := some v, dst := d, flags := fl } := by
  simp only [State.fpResult, trigger_quiet hq]
  exact finish_free (free_of_dst h rfl rfl rfl)

/-- The lowest lane that triggers is the one that is reported. -/
theorem trigger_lowest {cx : Cx} {cs : List Checked} {c : Checked} (h : cx.lowest cs c) : cx.task.trigger cs = some c := by
  obtain ⟨pre, post, rfl, hq, hf, ht⟩ := h
  have h0 := trigger_quiet hq
  simp only [Task.trigger] at h0 ⊢
  simp [List.find?_append, h0, hf, ht]

/-- A result that triggers while the trap is enabled has found SIG for its lowest lane. -/
theorem fpResult_sig {s : State} {cx : Cx} {d : Dst} {v : Val} {fl : FFlags} {cs : List Checked} {c : Checked} {u : Nat} (h : cx.lowest cs c)
    (ht : cx.task.sigTrap = true) : s.fpResult cx d v fl cs u =
      ((s.bump cx.p u 1).bump cx.p 30 (cs.filter (fun c => c.fin && decide (c.tag < cx.task.theta))).length).abortSlot cx
        { cause := .sig, lane := c.lane, info := sigInfo c } := by
  simp [State.fpResult, trigger_lowest h, ht]

/-- A result that triggers while the trap is disabled marks SIGLOST for the commit. -/
theorem fpResult_lost {s : State} {cx : Cx} {d : Dst} {v : Val} {fl : FFlags} {cs : List Checked} {c : Checked} {u : Nat} (h : cx.lowest cs c)
    (ht : cx.task.sigTrap = false) : s.fpResult cx d v fl cs u =
      ((s.bump cx.p u 1).bump cx.p 30 (cs.filter (fun c => c.fin && decide (c.tag < cx.task.theta))).length).finish cx
        { val := some v, dst := d, flags := fl, siglost := true } := by
  simp [State.fpResult, trigger_lowest h, ht]

/-- A quiet result goes to its record. -/
theorem fpResult_done {s : State} {cx : Cx} {d : Dst} {v : Val} {fl : FFlags} {cs : List Checked} {u : Nat} (h : cx.quiet cs) :
    s.fpResult cx d v fl cs u = (s.bump cx.p u 1).finish cx { val := some v, dst := d, flags := fl } := by
  simp [State.fpResult, trigger_quiet h]

theorem quiet_nil (cx : Cx) : cx.quiet [] := by
  intro c hc; cases hc

end Sys2Proof.Machine
end

