-- ==== Sys2Proof/Laws/State.lean ====
section
/-! SUPPORT. What each update of the state leaves alone: one lemma per field per update; and what reading finds after writing, in the maps,
the plots, the tasks and the dies. -/

namespace Sys2Proof.Machine

open Sys2Proof

/-! ## Fields after updates -/

@[simp] theorem State.setPlot_mem (s : State) (p : Nat) (x : Plot) : (s.setPlot p x).mem = s.mem := rfl
@[simp] theorem State.setPlot_side (s : State) (p : Nat) (x : Plot) : (s.setPlot p x).side = s.side := rfl
@[simp] theorem State.setPlot_dies (s : State) (p : Nat) (x : Plot) : (s.setPlot p x).dies = s.dies := rfl
@[simp] theorem State.setPlot_cmds (s : State) (p : Nat) (x : Plot) : (s.setPlot p x).cmds = s.cmds := rfl
@[simp] theorem State.setPlot_bufs (s : State) (p : Nat) (x : Plot) : (s.setPlot p x).bufs = s.bufs := rfl
@[simp] theorem State.setPlot_fields (s : State) (p : Nat) (x : Plot) : (s.setPlot p x).fields = s.fields := rfl
@[simp] theorem State.setPlot_gens (s : State) (p : Nat) (x : Plot) : (s.setPlot p x).gens = s.gens := rfl
@[simp] theorem State.setPlot_queues (s : State) (p : Nat) (x : Plot) : (s.setPlot p x).queues = s.queues := rfl
@[simp] theorem State.setPlot_launches (s : State) (p : Nat) (x : Plot) : (s.setPlot p x).launches = s.launches := rfl
@[simp] theorem State.setPlot_turn (s : State) (p : Nat) (x : Plot) : (s.setPlot p x).turn = s.turn := rfl
@[simp] theorem State.setPlot_faulted (s : State) (p : Nat) (x : Plot) : (s.setPlot p x).faulted = s.faulted := rfl
@[simp] theorem State.setPlot_hostCmd (s : State) (p : Nat) (x : Plot) : (s.setPlot p x).hostCmd = s.hostCmd := rfl
@[simp] theorem State.setPlot_attest (s : State) (p : Nat) (x : Plot) : (s.setPlot p x).attest = s.attest := rfl
@[simp] theorem State.setPlot_mod (s : State) (p : Nat) (x : Plot) : (s.setPlot p x).mod = s.mod := rfl
@[simp] theorem State.setPlot_fired (s : State) (p : Nat) (x : Plot) : (s.setPlot p x).fired = s.fired := rfl
@[simp] theorem State.setPlot_agenda (s : State) (p : Nat) (x : Plot) : (s.setPlot p x).agenda = s.agenda := rfl
@[simp] theorem State.setPlot_focus (s : State) (p : Nat) (x : Plot) : (s.setPlot p x).focus = s.focus := rfl
@[simp] theorem State.setPlot_free (s : State) (p : Nat) (x : Plot) : (s.setPlot p x).free = s.free := rfl
@[simp] theorem State.setPlot_uid (s : State) (p : Nat) (x : Plot) : (s.setPlot p x).uid = s.uid := rfl
@[simp] theorem State.setPlot_takes (s : State) (p : Nat) (x : Plot) : (s.setPlot p x).takes = s.takes := rfl

@[simp] theorem State.onPlot_mem (s : State) (p : Nat) (f : Plot → Plot) : (s.onPlot p f).mem = s.mem := rfl
@[simp] theorem State.onPlot_side (s : State) (p : Nat) (f : Plot → Plot) : (s.onPlot p f).side = s.side := rfl
@[simp] theorem State.onPlot_dies (s : State) (p : Nat) (f : Plot → Plot) : (s.onPlot p f).dies = s.dies := rfl
@[simp] theorem State.onPlot_cmds (s : State) (p : Nat) (f : Plot → Plot) : (s.onPlot p f).cmds = s.cmds := rfl
@[simp] theorem State.onPlot_bufs (s : State) (p : Nat) (f : Plot → Plot) : (s.onPlot p f).bufs = s.bufs := rfl
@[simp] theorem State.onPlot_fields (s : State) (p : Nat) (f : Plot → Plot) : (s.onPlot p f).fields = s.fields := rfl
@[simp] theorem State.onPlot_gens (s : State) (p : Nat) (f : Plot → Plot) : (s.onPlot p f).gens = s.gens := rfl
@[simp] theorem State.onPlot_queues (s : State) (p : Nat) (f : Plot → Plot) : (s.onPlot p f).queues = s.queues := rfl
@[simp] theorem State.onPlot_launches (s : State) (p : Nat) (f : Plot → Plot) : (s.onPlot p f).launches = s.launches := rfl
@[simp] theorem State.onPlot_turn (s : State) (p : Nat) (f : Plot → Plot) : (s.onPlot p f).turn = s.turn := rfl
@[simp] theorem State.onPlot_faulted (s : State) (p : Nat) (f : Plot → Plot) : (s.onPlot p f).faulted = s.faulted := rfl
@[simp] theorem State.onPlot_hostCmd (s : State) (p : Nat) (f : Plot → Plot) : (s.onPlot p f).hostCmd = s.hostCmd := rfl
@[simp] theorem State.onPlot_attest (s : State) (p : Nat) (f : Plot → Plot) : (s.onPlot p f).attest = s.attest := rfl
@[simp] theorem State.onPlot_mod (s : State) (p : Nat) (f : Plot → Plot) : (s.onPlot p f).mod = s.mod := rfl
@[simp] theorem State.onPlot_fired (s : State) (p : Nat) (f : Plot → Plot) : (s.onPlot p f).fired = s.fired := rfl
@[simp] theorem State.onPlot_agenda (s : State) (p : Nat) (f : Plot → Plot) : (s.onPlot p f).agenda = s.agenda := rfl
@[simp] theorem State.onPlot_focus (s : State) (p : Nat) (f : Plot → Plot) : (s.onPlot p f).focus = s.focus := rfl
@[simp] theorem State.onPlot_free (s : State) (p : Nat) (f : Plot → Plot) : (s.onPlot p f).free = s.free := rfl
@[simp] theorem State.onPlot_uid (s : State) (p : Nat) (f : Plot → Plot) : (s.onPlot p f).uid = s.uid := rfl
@[simp] theorem State.onPlot_takes (s : State) (p : Nat) (f : Plot → Plot) : (s.onPlot p f).takes = s.takes := rfl

@[simp] theorem State.setTask_mem (s : State) (p k : Nat) (t : Task) : (s.setTask p k t).mem = s.mem := rfl
@[simp] theorem State.setTask_side (s : State) (p k : Nat) (t : Task) : (s.setTask p k t).side = s.side := rfl
@[simp] theorem State.setTask_dies (s : State) (p k : Nat) (t : Task) : (s.setTask p k t).dies = s.dies := rfl
@[simp] theorem State.setTask_cmds (s : State) (p k : Nat) (t : Task) : (s.setTask p k t).cmds = s.cmds := rfl
@[simp] theorem State.setTask_bufs (s : State) (p k : Nat) (t : Task) : (s.setTask p k t).bufs = s.bufs := rfl
@[simp] theorem State.setTask_fields (s : State) (p k : Nat) (t : Task) : (s.setTask p k t).fields = s.fields := rfl
@[simp] theorem State.setTask_gens (s : State) (p k : Nat) (t : Task) : (s.setTask p k t).gens = s.gens := rfl
@[simp] theorem State.setTask_queues (s : State) (p k : Nat) (t : Task) : (s.setTask p k t).queues = s.queues := rfl
@[simp] theorem State.setTask_launches (s : State) (p k : Nat) (t : Task) : (s.setTask p k t).launches = s.launches := rfl
@[simp] theorem State.setTask_turn (s : State) (p k : Nat) (t : Task) : (s.setTask p k t).turn = s.turn := rfl
@[simp] theorem State.setTask_faulted (s : State) (p k : Nat) (t : Task) : (s.setTask p k t).faulted = s.faulted := rfl
@[simp] theorem State.setTask_hostCmd (s : State) (p k : Nat) (t : Task) : (s.setTask p k t).hostCmd = s.hostCmd := rfl
@[simp] theorem State.setTask_attest (s : State) (p k : Nat) (t : Task) : (s.setTask p k t).attest = s.attest := rfl
@[simp] theorem State.setTask_mod (s : State) (p k : Nat) (t : Task) : (s.setTask p k t).mod = s.mod := rfl
@[simp] theorem State.setTask_fired (s : State) (p k : Nat) (t : Task) : (s.setTask p k t).fired = s.fired := rfl
@[simp] theorem State.setTask_agenda (s : State) (p k : Nat) (t : Task) : (s.setTask p k t).agenda = s.agenda := rfl
@[simp] theorem State.setTask_focus (s : State) (p k : Nat) (t : Task) : (s.setTask p k t).focus = s.focus := rfl
@[simp] theorem State.setTask_free (s : State) (p k : Nat) (t : Task) : (s.setTask p k t).free = s.free := rfl
@[simp] theorem State.setTask_uid (s : State) (p k : Nat) (t : Task) : (s.setTask p k t).uid = s.uid := rfl
@[simp] theorem State.setTask_takes (s : State) (p k : Nat) (t : Task) : (s.setTask p k t).takes = s.takes := rfl

@[simp] theorem State.onTask_mem (s : State) (p k : Nat) (f : Task → Task) : (s.onTask p k f).mem = s.mem := rfl
@[simp] theorem State.onTask_side (s : State) (p k : Nat) (f : Task → Task) : (s.onTask p k f).side = s.side := rfl
@[simp] theorem State.onTask_dies (s : State) (p k : Nat) (f : Task → Task) : (s.onTask p k f).dies = s.dies := rfl
@[simp] theorem State.onTask_cmds (s : State) (p k : Nat) (f : Task → Task) : (s.onTask p k f).cmds = s.cmds := rfl
@[simp] theorem State.onTask_bufs (s : State) (p k : Nat) (f : Task → Task) : (s.onTask p k f).bufs = s.bufs := rfl
@[simp] theorem State.onTask_fields (s : State) (p k : Nat) (f : Task → Task) : (s.onTask p k f).fields = s.fields := rfl
@[simp] theorem State.onTask_gens (s : State) (p k : Nat) (f : Task → Task) : (s.onTask p k f).gens = s.gens := rfl
@[simp] theorem State.onTask_queues (s : State) (p k : Nat) (f : Task → Task) : (s.onTask p k f).queues = s.queues := rfl
@[simp] theorem State.onTask_launches (s : State) (p k : Nat) (f : Task → Task) : (s.onTask p k f).launches = s.launches := rfl
@[simp] theorem State.onTask_turn (s : State) (p k : Nat) (f : Task → Task) : (s.onTask p k f).turn = s.turn := rfl
@[simp] theorem State.onTask_faulted (s : State) (p k : Nat) (f : Task → Task) : (s.onTask p k f).faulted = s.faulted := rfl
@[simp] theorem State.onTask_hostCmd (s : State) (p k : Nat) (f : Task → Task) : (s.onTask p k f).hostCmd = s.hostCmd := rfl
@[simp] theorem State.onTask_attest (s : State) (p k : Nat) (f : Task → Task) : (s.onTask p k f).attest = s.attest := rfl
@[simp] theorem State.onTask_mod (s : State) (p k : Nat) (f : Task → Task) : (s.onTask p k f).mod = s.mod := rfl
@[simp] theorem State.onTask_fired (s : State) (p k : Nat) (f : Task → Task) : (s.onTask p k f).fired = s.fired := rfl
@[simp] theorem State.onTask_agenda (s : State) (p k : Nat) (f : Task → Task) : (s.onTask p k f).agenda = s.agenda := rfl
@[simp] theorem State.onTask_focus (s : State) (p k : Nat) (f : Task → Task) : (s.onTask p k f).focus = s.focus := rfl
@[simp] theorem State.onTask_free (s : State) (p k : Nat) (f : Task → Task) : (s.onTask p k f).free = s.free := rfl
@[simp] theorem State.onTask_uid (s : State) (p k : Nat) (f : Task → Task) : (s.onTask p k f).uid = s.uid := rfl
@[simp] theorem State.onTask_takes (s : State) (p k : Nat) (f : Task → Task) : (s.onTask p k f).takes = s.takes := rfl

@[simp] theorem State.setHalf_mem (s : State) (p : Nat) (h : Bool) (y : Half) : (s.setHalf p h y).mem = s.mem := rfl
@[simp] theorem State.setHalf_side (s : State) (p : Nat) (h : Bool) (y : Half) : (s.setHalf p h y).side = s.side := rfl
@[simp] theorem State.setHalf_dies (s : State) (p : Nat) (h : Bool) (y : Half) : (s.setHalf p h y).dies = s.dies := rfl
@[simp] theorem State.setHalf_cmds (s : State) (p : Nat) (h : Bool) (y : Half) : (s.setHalf p h y).cmds = s.cmds := rfl
@[simp] theorem State.setHalf_bufs (s : State) (p : Nat) (h : Bool) (y : Half) : (s.setHalf p h y).bufs = s.bufs := rfl
@[simp] theorem State.setHalf_fields (s : State) (p : Nat) (h : Bool) (y : Half) : (s.setHalf p h y).fields = s.fields := rfl
@[simp] theorem State.setHalf_gens (s : State) (p : Nat) (h : Bool) (y : Half) : (s.setHalf p h y).gens = s.gens := rfl
@[simp] theorem State.setHalf_queues (s : State) (p : Nat) (h : Bool) (y : Half) : (s.setHalf p h y).queues = s.queues := rfl
@[simp] theorem State.setHalf_launches (s : State) (p : Nat) (h : Bool) (y : Half) : (s.setHalf p h y).launches = s.launches := rfl
@[simp] theorem State.setHalf_turn (s : State) (p : Nat) (h : Bool) (y : Half) : (s.setHalf p h y).turn = s.turn := rfl
@[simp] theorem State.setHalf_faulted (s : State) (p : Nat) (h : Bool) (y : Half) : (s.setHalf p h y).faulted = s.faulted := rfl
@[simp] theorem State.setHalf_hostCmd (s : State) (p : Nat) (h : Bool) (y : Half) : (s.setHalf p h y).hostCmd = s.hostCmd := rfl
@[simp] theorem State.setHalf_attest (s : State) (p : Nat) (h : Bool) (y : Half) : (s.setHalf p h y).attest = s.attest := rfl
@[simp] theorem State.setHalf_mod (s : State) (p : Nat) (h : Bool) (y : Half) : (s.setHalf p h y).mod = s.mod := rfl
@[simp] theorem State.setHalf_fired (s : State) (p : Nat) (h : Bool) (y : Half) : (s.setHalf p h y).fired = s.fired := rfl
@[simp] theorem State.setHalf_agenda (s : State) (p : Nat) (h : Bool) (y : Half) : (s.setHalf p h y).agenda = s.agenda := rfl
@[simp] theorem State.setHalf_focus (s : State) (p : Nat) (h : Bool) (y : Half) : (s.setHalf p h y).focus = s.focus := rfl
@[simp] theorem State.setHalf_free (s : State) (p : Nat) (h : Bool) (y : Half) : (s.setHalf p h y).free = s.free := rfl
@[simp] theorem State.setHalf_uid (s : State) (p : Nat) (h : Bool) (y : Half) : (s.setHalf p h y).uid = s.uid := rfl
@[simp] theorem State.setHalf_takes (s : State) (p : Nat) (h : Bool) (y : Half) : (s.setHalf p h y).takes = s.takes := rfl

@[simp] theorem State.setSlot_mem (s : State) (cx : Cx) (r : SlotRec) : (s.setSlot cx r).mem = s.mem := rfl
@[simp] theorem State.setSlot_side (s : State) (cx : Cx) (r : SlotRec) : (s.setSlot cx r).side = s.side := rfl
@[simp] theorem State.setSlot_dies (s : State) (cx : Cx) (r : SlotRec) : (s.setSlot cx r).dies = s.dies := rfl
@[simp] theorem State.setSlot_cmds (s : State) (cx : Cx) (r : SlotRec) : (s.setSlot cx r).cmds = s.cmds := rfl
@[simp] theorem State.setSlot_bufs (s : State) (cx : Cx) (r : SlotRec) : (s.setSlot cx r).bufs = s.bufs := rfl
@[simp] theorem State.setSlot_fields (s : State) (cx : Cx) (r : SlotRec) : (s.setSlot cx r).fields = s.fields := rfl
@[simp] theorem State.setSlot_gens (s : State) (cx : Cx) (r : SlotRec) : (s.setSlot cx r).gens = s.gens := rfl
@[simp] theorem State.setSlot_queues (s : State) (cx : Cx) (r : SlotRec) : (s.setSlot cx r).queues = s.queues := rfl
@[simp] theorem State.setSlot_launches (s : State) (cx : Cx) (r : SlotRec) : (s.setSlot cx r).launches = s.launches := rfl
@[simp] theorem State.setSlot_turn (s : State) (cx : Cx) (r : SlotRec) : (s.setSlot cx r).turn = s.turn := rfl
@[simp] theorem State.setSlot_faulted (s : State) (cx : Cx) (r : SlotRec) : (s.setSlot cx r).faulted = s.faulted := rfl
@[simp] theorem State.setSlot_hostCmd (s : State) (cx : Cx) (r : SlotRec) : (s.setSlot cx r).hostCmd = s.hostCmd := rfl
@[simp] theorem State.setSlot_attest (s : State) (cx : Cx) (r : SlotRec) : (s.setSlot cx r).attest = s.attest := rfl
@[simp] theorem State.setSlot_mod (s : State) (cx : Cx) (r : SlotRec) : (s.setSlot cx r).mod = s.mod := rfl
@[simp] theorem State.setSlot_fired (s : State) (cx : Cx) (r : SlotRec) : (s.setSlot cx r).fired = s.fired := rfl
@[simp] theorem State.setSlot_agenda (s : State) (cx : Cx) (r : SlotRec) : (s.setSlot cx r).agenda = s.agenda := rfl
@[simp] theorem State.setSlot_focus (s : State) (cx : Cx) (r : SlotRec) : (s.setSlot cx r).focus = s.focus := rfl
@[simp] theorem State.setSlot_free (s : State) (cx : Cx) (r : SlotRec) : (s.setSlot cx r).free = s.free := rfl
@[simp] theorem State.setSlot_uid (s : State) (cx : Cx) (r : SlotRec) : (s.setSlot cx r).uid = s.uid := rfl
@[simp] theorem State.setSlot_takes (s : State) (cx : Cx) (r : SlotRec) : (s.setSlot cx r).takes = s.takes := rfl

@[simp] theorem State.setDie_mem (s : State) (d : Nat) (x : Die) : (s.setDie d x).mem = s.mem := rfl
@[simp] theorem State.setDie_side (s : State) (d : Nat) (x : Die) : (s.setDie d x).side = s.side := rfl
@[simp] theorem State.setDie_plots (s : State) (d : Nat) (x : Die) : (s.setDie d x).plots = s.plots := rfl
@[simp] theorem State.setDie_cmds (s : State) (d : Nat) (x : Die) : (s.setDie d x).cmds = s.cmds := rfl
@[simp] theorem State.setDie_bufs (s : State) (d : Nat) (x : Die) : (s.setDie d x).bufs = s.bufs := rfl
@[simp] theorem State.setDie_fields (s : State) (d : Nat) (x : Die) : (s.setDie d x).fields = s.fields := rfl
@[simp] theorem State.setDie_gens (s : State) (d : Nat) (x : Die) : (s.setDie d x).gens = s.gens := rfl
@[simp] theorem State.setDie_queues (s : State) (d : Nat) (x : Die) : (s.setDie d x).queues = s.queues := rfl
@[simp] theorem State.setDie_launches (s : State) (d : Nat) (x : Die) : (s.setDie d x).launches = s.launches := rfl
@[simp] theorem State.setDie_turn (s : State) (d : Nat) (x : Die) : (s.setDie d x).turn = s.turn := rfl
@[simp] theorem State.setDie_faulted (s : State) (d : Nat) (x : Die) : (s.setDie d x).faulted = s.faulted := rfl
@[simp] theorem State.setDie_hostCmd (s : State) (d : Nat) (x : Die) : (s.setDie d x).hostCmd = s.hostCmd := rfl
@[simp] theorem State.setDie_attest (s : State) (d : Nat) (x : Die) : (s.setDie d x).attest = s.attest := rfl
@[simp] theorem State.setDie_mod (s : State) (d : Nat) (x : Die) : (s.setDie d x).mod = s.mod := rfl
@[simp] theorem State.setDie_fired (s : State) (d : Nat) (x : Die) : (s.setDie d x).fired = s.fired := rfl
@[simp] theorem State.setDie_agenda (s : State) (d : Nat) (x : Die) : (s.setDie d x).agenda = s.agenda := rfl
@[simp] theorem State.setDie_focus (s : State) (d : Nat) (x : Die) : (s.setDie d x).focus = s.focus := rfl
@[simp] theorem State.setDie_free (s : State) (d : Nat) (x : Die) : (s.setDie d x).free = s.free := rfl
@[simp] theorem State.setDie_uid (s : State) (d : Nat) (x : Die) : (s.setDie d x).uid = s.uid := rfl
@[simp] theorem State.setDie_takes (s : State) (d : Nat) (x : Die) : (s.setDie d x).takes = s.takes := rfl

@[simp] theorem State.onMod_mem (s : State) (f : Module → Module) : (s.onMod f).mem = s.mem := rfl
@[simp] theorem State.onMod_side (s : State) (f : Module → Module) : (s.onMod f).side = s.side := rfl
@[simp] theorem State.onMod_plots (s : State) (f : Module → Module) : (s.onMod f).plots = s.plots := rfl
@[simp] theorem State.onMod_dies (s : State) (f : Module → Module) : (s.onMod f).dies = s.dies := rfl
@[simp] theorem State.onMod_cmds (s : State) (f : Module → Module) : (s.onMod f).cmds = s.cmds := rfl
@[simp] theorem State.onMod_bufs (s : State) (f : Module → Module) : (s.onMod f).bufs = s.bufs := rfl
@[simp] theorem State.onMod_fields (s : State) (f : Module → Module) : (s.onMod f).fields = s.fields := rfl
@[simp] theorem State.onMod_gens (s : State) (f : Module → Module) : (s.onMod f).gens = s.gens := rfl
@[simp] theorem State.onMod_queues (s : State) (f : Module → Module) : (s.onMod f).queues = s.queues := rfl
@[simp] theorem State.onMod_launches (s : State) (f : Module → Module) : (s.onMod f).launches = s.launches := rfl
@[simp] theorem State.onMod_turn (s : State) (f : Module → Module) : (s.onMod f).turn = s.turn := rfl
@[simp] theorem State.onMod_faulted (s : State) (f : Module → Module) : (s.onMod f).faulted = s.faulted := rfl
@[simp] theorem State.onMod_hostCmd (s : State) (f : Module → Module) : (s.onMod f).hostCmd = s.hostCmd := rfl
@[simp] theorem State.onMod_attest (s : State) (f : Module → Module) : (s.onMod f).attest = s.attest := rfl
@[simp] theorem State.onMod_fired (s : State) (f : Module → Module) : (s.onMod f).fired = s.fired := rfl
@[simp] theorem State.onMod_agenda (s : State) (f : Module → Module) : (s.onMod f).agenda = s.agenda := rfl
@[simp] theorem State.onMod_focus (s : State) (f : Module → Module) : (s.onMod f).focus = s.focus := rfl
@[simp] theorem State.onMod_free (s : State) (f : Module → Module) : (s.onMod f).free = s.free := rfl
@[simp] theorem State.onMod_uid (s : State) (f : Module → Module) : (s.onMod f).uid = s.uid := rfl
@[simp] theorem State.onMod_takes (s : State) (f : Module → Module) : (s.onMod f).takes = s.takes := rfl

@[simp] theorem State.onLaunch_mem (s : State) (id : BitVec 32) (f : Launch → Launch) : (s.onLaunch id f).mem = s.mem := rfl
@[simp] theorem State.onLaunch_side (s : State) (id : BitVec 32) (f : Launch → Launch) : (s.onLaunch id f).side = s.side := rfl
@[simp] theorem State.onLaunch_plots (s : State) (id : BitVec 32) (f : Launch → Launch) : (s.onLaunch id f).plots = s.plots := rfl
@[simp] theorem State.onLaunch_dies (s : State) (id : BitVec 32) (f : Launch → Launch) : (s.onLaunch id f).dies = s.dies := rfl
@[simp] theorem State.onLaunch_cmds (s : State) (id : BitVec 32) (f : Launch → Launch) : (s.onLaunch id f).cmds = s.cmds := rfl
@[simp] theorem State.onLaunch_bufs (s : State) (id : BitVec 32) (f : Launch → Launch) : (s.onLaunch id f).bufs = s.bufs := rfl
@[simp] theorem State.onLaunch_fields (s : State) (id : BitVec 32) (f : Launch → Launch) : (s.onLaunch id f).fields = s.fields := rfl
@[simp] theorem State.onLaunch_gens (s : State) (id : BitVec 32) (f : Launch → Launch) : (s.onLaunch id f).gens = s.gens := rfl
@[simp] theorem State.onLaunch_queues (s : State) (id : BitVec 32) (f : Launch → Launch) : (s.onLaunch id f).queues = s.queues := rfl
@[simp] theorem State.onLaunch_turn (s : State) (id : BitVec 32) (f : Launch → Launch) : (s.onLaunch id f).turn = s.turn := rfl
@[simp] theorem State.onLaunch_faulted (s : State) (id : BitVec 32) (f : Launch → Launch) : (s.onLaunch id f).faulted = s.faulted := rfl
@[simp] theorem State.onLaunch_hostCmd (s : State) (id : BitVec 32) (f : Launch → Launch) : (s.onLaunch id f).hostCmd = s.hostCmd := rfl
@[simp] theorem State.onLaunch_attest (s : State) (id : BitVec 32) (f : Launch → Launch) : (s.onLaunch id f).attest = s.attest := rfl
@[simp] theorem State.onLaunch_mod (s : State) (id : BitVec 32) (f : Launch → Launch) : (s.onLaunch id f).mod = s.mod := rfl
@[simp] theorem State.onLaunch_fired (s : State) (id : BitVec 32) (f : Launch → Launch) : (s.onLaunch id f).fired = s.fired := rfl
@[simp] theorem State.onLaunch_agenda (s : State) (id : BitVec 32) (f : Launch → Launch) : (s.onLaunch id f).agenda = s.agenda := rfl
@[simp] theorem State.onLaunch_focus (s : State) (id : BitVec 32) (f : Launch → Launch) : (s.onLaunch id f).focus = s.focus := rfl
@[simp] theorem State.onLaunch_free (s : State) (id : BitVec 32) (f : Launch → Launch) : (s.onLaunch id f).free = s.free := rfl
@[simp] theorem State.onLaunch_uid (s : State) (id : BitVec 32) (f : Launch → Launch) : (s.onLaunch id f).uid = s.uid := rfl
@[simp] theorem State.onLaunch_takes (s : State) (id : BitVec 32) (f : Launch → Launch) : (s.onLaunch id f).takes = s.takes := rfl

@[simp] theorem State.makeReady_mem (s : State) (p k : Nat) : (s.makeReady p k).mem = s.mem := rfl
@[simp] theorem State.makeReady_side (s : State) (p k : Nat) : (s.makeReady p k).side = s.side := rfl
@[simp] theorem State.makeReady_dies (s : State) (p k : Nat) : (s.makeReady p k).dies = s.dies := rfl
@[simp] theorem State.makeReady_cmds (s : State) (p k : Nat) : (s.makeReady p k).cmds = s.cmds := rfl
@[simp] theorem State.makeReady_bufs (s : State) (p k : Nat) : (s.makeReady p k).bufs = s.bufs := rfl
@[simp] theorem State.makeReady_fields (s : State) (p k : Nat) : (s.makeReady p k).fields = s.fields := rfl
@[simp] theorem State.makeReady_gens (s : State) (p k : Nat) : (s.makeReady p k).gens = s.gens := rfl
@[simp] theorem State.makeReady_queues (s : State) (p k : Nat) : (s.makeReady p k).queues = s.queues := rfl
@[simp] theorem State.makeReady_launches (s : State) (p k : Nat) : (s.makeReady p k).launches = s.launches := rfl
@[simp] theorem State.makeReady_turn (s : State) (p k : Nat) : (s.makeReady p k).turn = s.turn := rfl
@[simp] theorem State.makeReady_faulted (s : State) (p k : Nat) : (s.makeReady p k).faulted = s.faulted := rfl
@[simp] theorem State.makeReady_hostCmd (s : State) (p k : Nat) : (s.makeReady p k).hostCmd = s.hostCmd := rfl
@[simp] theorem State.makeReady_attest (s : State) (p k : Nat) : (s.makeReady p k).attest = s.attest := rfl
@[simp] theorem State.makeReady_mod (s : State) (p k : Nat) : (s.makeReady p k).mod = s.mod := rfl
@[simp] theorem State.makeReady_fired (s : State) (p k : Nat) : (s.makeReady p k).fired = s.fired := rfl
@[simp] theorem State.makeReady_agenda (s : State) (p k : Nat) : (s.makeReady p k).agenda = s.agenda := rfl
@[simp] theorem State.makeReady_focus (s : State) (p k : Nat) : (s.makeReady p k).focus = s.focus := rfl
@[simp] theorem State.makeReady_free (s : State) (p k : Nat) : (s.makeReady p k).free = s.free := rfl
@[simp] theorem State.makeReady_uid (s : State) (p k : Nat) : (s.makeReady p k).uid = s.uid := rfl
@[simp] theorem State.makeReady_takes (s : State) (p k : Nat) : (s.makeReady p k).takes = s.takes := rfl

@[simp] theorem State.ready_mem (s : State) (p k : Nat) : (s.ready p k).mem = s.mem := rfl
@[simp] theorem State.ready_side (s : State) (p k : Nat) : (s.ready p k).side = s.side := rfl
@[simp] theorem State.ready_dies (s : State) (p k : Nat) : (s.ready p k).dies = s.dies := rfl
@[simp] theorem State.ready_cmds (s : State) (p k : Nat) : (s.ready p k).cmds = s.cmds := rfl
@[simp] theorem State.ready_bufs (s : State) (p k : Nat) : (s.ready p k).bufs = s.bufs := rfl
@[simp] theorem State.ready_fields (s : State) (p k : Nat) : (s.ready p k).fields = s.fields := rfl
@[simp] theorem State.ready_gens (s : State) (p k : Nat) : (s.ready p k).gens = s.gens := rfl
@[simp] theorem State.ready_queues (s : State) (p k : Nat) : (s.ready p k).queues = s.queues := rfl
@[simp] theorem State.ready_launches (s : State) (p k : Nat) : (s.ready p k).launches = s.launches := rfl
@[simp] theorem State.ready_turn (s : State) (p k : Nat) : (s.ready p k).turn = s.turn := rfl
@[simp] theorem State.ready_faulted (s : State) (p k : Nat) : (s.ready p k).faulted = s.faulted := rfl
@[simp] theorem State.ready_hostCmd (s : State) (p k : Nat) : (s.ready p k).hostCmd = s.hostCmd := rfl
@[simp] theorem State.ready_attest (s : State) (p k : Nat) : (s.ready p k).attest = s.attest := rfl
@[simp] theorem State.ready_mod (s : State) (p k : Nat) : (s.ready p k).mod = s.mod := rfl
@[simp] theorem State.ready_fired (s : State) (p k : Nat) : (s.ready p k).fired = s.fired := rfl
@[simp] theorem State.ready_agenda (s : State) (p k : Nat) : (s.ready p k).agenda = s.agenda := rfl
@[simp] theorem State.ready_focus (s : State) (p k : Nat) : (s.ready p k).focus = s.focus := rfl
@[simp] theorem State.ready_free (s : State) (p k : Nat) : (s.ready p k).free = s.free := rfl

@[simp] theorem State.bump_mem (s : State) (p i n : Nat) : (s.bump p i n).mem = s.mem := by unfold State.bump; split <;> rfl
@[simp] theorem State.bump_side (s : State) (p i n : Nat) : (s.bump p i n).side = s.side := by unfold State.bump; split <;> rfl
@[simp] theorem State.bump_dies (s : State) (p i n : Nat) : (s.bump p i n).dies = s.dies := by unfold State.bump; split <;> rfl
@[simp] theorem State.bump_cmds (s : State) (p i n : Nat) : (s.bump p i n).cmds = s.cmds := by unfold State.bump; split <;> rfl
@[simp] theorem State.bump_bufs (s : State) (p i n : Nat) : (s.bump p i n).bufs = s.bufs := by unfold State.bump; split <;> rfl
@[simp] theorem State.bump_fields (s : State) (p i n : Nat) : (s.bump p i n).fields = s.fields := by unfold State.bump; split <;> rfl
@[simp] theorem State.bump_gens (s : State) (p i n : Nat) : (s.bump p i n).gens = s.gens := by unfold State.bump; split <;> rfl
@[simp] theorem State.bump_queues (s : State) (p i n : Nat) : (s.bump p i n).queues = s.queues := by unfold State.bump; split <;> rfl
@[simp] theorem State.bump_launches (s : State) (p i n : Nat) : (s.bump p i n).launches = s.launches := by unfold State.bump; split <;> rfl
@[simp] theorem State.bump_turn (s : State) (p i n : Nat) : (s.bump p i n).turn = s.turn := by unfold State.bump; split <;> rfl
@[simp] theorem State.bump_faulted (s : State) (p i n : Nat) : (s.bump p i n).faulted = s.faulted := by unfold State.bump; split <;> rfl
@[simp] theorem State.bump_hostCmd (s : State) (p i n : Nat) : (s.bump p i n).hostCmd = s.hostCmd := by unfold State.bump; split <;> rfl
@[simp] theorem State.bump_attest (s : State) (p i n : Nat) : (s.bump p i n).attest = s.attest := by unfold State.bump; split <;> rfl
@[simp] theorem State.bump_mod (s : State) (p i n : Nat) : (s.bump p i n).mod = s.mod := by unfold State.bump; split <;> rfl
@[simp] theorem State.bump_fired (s : State) (p i n : Nat) : (s.bump p i n).fired = s.fired := by unfold State.bump; split <;> rfl
@[simp] theorem State.bump_agenda (s : State) (p i n : Nat) : (s.bump p i n).agenda = s.agenda := by unfold State.bump; split <;> rfl
@[simp] theorem State.bump_focus (s : State) (p i n : Nat) : (s.bump p i n).focus = s.focus := by unfold State.bump; split <;> rfl
@[simp] theorem State.bump_free (s : State) (p i n : Nat) : (s.bump p i n).free = s.free := by unfold State.bump; split <;> rfl
@[simp] theorem State.bump_uid (s : State) (p i n : Nat) : (s.bump p i n).uid = s.uid := by unfold State.bump; split <;> rfl
@[simp] theorem State.bump_takes (s : State) (p i n : Nat) : (s.bump p i n).takes = s.takes := by unfold State.bump; split <;> rfl

@[simp] theorem State.setSide_mem (s : State) (a : Nat) (x : Side) : (s.setSide a x).mem = s.mem := by unfold State.setSide; split <;> rfl
@[simp] theorem State.setSide_plots (s : State) (a : Nat) (x : Side) : (s.setSide a x).plots = s.plots := by unfold State.setSide; split <;> rfl
@[simp] theorem State.setSide_dies (s : State) (a : Nat) (x : Side) : (s.setSide a x).dies = s.dies := by unfold State.setSide; split <;> rfl
@[simp] theorem State.setSide_cmds (s : State) (a : Nat) (x : Side) : (s.setSide a x).cmds = s.cmds := by unfold State.setSide; split <;> rfl
@[simp] theorem State.setSide_bufs (s : State) (a : Nat) (x : Side) : (s.setSide a x).bufs = s.bufs := by unfold State.setSide; split <;> rfl
@[simp] theorem State.setSide_fields (s : State) (a : Nat) (x : Side) : (s.setSide a x).fields = s.fields := by unfold State.setSide; split <;> rfl
@[simp] theorem State.setSide_gens (s : State) (a : Nat) (x : Side) : (s.setSide a x).gens = s.gens := by unfold State.setSide; split <;> rfl
@[simp] theorem State.setSide_queues (s : State) (a : Nat) (x : Side) : (s.setSide a x).queues = s.queues := by unfold State.setSide; split <;> rfl
@[simp] theorem State.setSide_launches (s : State) (a : Nat) (x : Side) : (s.setSide a x).launches = s.launches := by unfold State.setSide; split <;> rfl
@[simp] theorem State.setSide_turn (s : State) (a : Nat) (x : Side) : (s.setSide a x).turn = s.turn := by unfold State.setSide; split <;> rfl
@[simp] theorem State.setSide_faulted (s : State) (a : Nat) (x : Side) : (s.setSide a x).faulted = s.faulted := by unfold State.setSide; split <;> rfl
@[simp] theorem State.setSide_hostCmd (s : State) (a : Nat) (x : Side) : (s.setSide a x).hostCmd = s.hostCmd := by unfold State.setSide; split <;> rfl
@[simp] theorem State.setSide_attest (s : State) (a : Nat) (x : Side) : (s.setSide a x).attest = s.attest := by unfold State.setSide; split <;> rfl
@[simp] theorem State.setSide_mod (s : State) (a : Nat) (x : Side) : (s.setSide a x).mod = s.mod := by unfold State.setSide; split <;> rfl
@[simp] theorem State.setSide_fired (s : State) (a : Nat) (x : Side) : (s.setSide a x).fired = s.fired := by unfold State.setSide; split <;> rfl
@[simp] theorem State.setSide_agenda (s : State) (a : Nat) (x : Side) : (s.setSide a x).agenda = s.agenda := by unfold State.setSide; split <;> rfl
@[simp] theorem State.setSide_focus (s : State) (a : Nat) (x : Side) : (s.setSide a x).focus = s.focus := by unfold State.setSide; split <;> rfl
@[simp] theorem State.setSide_free (s : State) (a : Nat) (x : Side) : (s.setSide a x).free = s.free := by unfold State.setSide; split <;> rfl
@[simp] theorem State.setSide_uid (s : State) (a : Nat) (x : Side) : (s.setSide a x).uid = s.uid := by unfold State.setSide; split <;> rfl
@[simp] theorem State.setSide_takes (s : State) (a : Nat) (x : Side) : (s.setSide a x).takes = s.takes := by unfold State.setSide; split <;> rfl

@[simp] theorem State.post_mem (s : State) (q : Nat) (r : List (BitVec 64)) : (s.post q r).mem = s.mem := by unfold State.post; split <;> rfl
@[simp] theorem State.post_side (s : State) (q : Nat) (r : List (BitVec 64)) : (s.post q r).side = s.side := by unfold State.post; split <;> rfl
@[simp] theorem State.post_plots (s : State) (q : Nat) (r : List (BitVec 64)) : (s.post q r).plots = s.plots := by unfold State.post; split <;> rfl
@[simp] theorem State.post_dies (s : State) (q : Nat) (r : List (BitVec 64)) : (s.post q r).dies = s.dies := by unfold State.post; split <;> rfl
@[simp] theorem State.post_cmds (s : State) (q : Nat) (r : List (BitVec 64)) : (s.post q r).cmds = s.cmds := by unfold State.post; split <;> rfl
@[simp] theorem State.post_bufs (s : State) (q : Nat) (r : List (BitVec 64)) : (s.post q r).bufs = s.bufs := by unfold State.post; split <;> rfl
@[simp] theorem State.post_fields (s : State) (q : Nat) (r : List (BitVec 64)) : (s.post q r).fields = s.fields := by unfold State.post; split <;> rfl
@[simp] theorem State.post_gens (s : State) (q : Nat) (r : List (BitVec 64)) : (s.post q r).gens = s.gens := by unfold State.post; split <;> rfl
@[simp] theorem State.post_launches (s : State) (q : Nat) (r : List (BitVec 64)) : (s.post q r).launches = s.launches := by unfold State.post; split <;> rfl
@[simp] theorem State.post_turn (s : State) (q : Nat) (r : List (BitVec 64)) : (s.post q r).turn = s.turn := by unfold State.post; split <;> rfl
@[simp] theorem State.post_faulted (s : State) (q : Nat) (r : List (BitVec 64)) : (s.post q r).faulted = s.faulted := by unfold State.post; split <;> rfl
@[simp] theorem State.post_hostCmd (s : State) (q : Nat) (r : List (BitVec 64)) : (s.post q r).hostCmd = s.hostCmd := by unfold State.post; split <;> rfl
@[simp] theorem State.post_attest (s : State) (q : Nat) (r : List (BitVec 64)) : (s.post q r).attest = s.attest := by unfold State.post; split <;> rfl
@[simp] theorem State.post_mod (s : State) (q : Nat) (r : List (BitVec 64)) : (s.post q r).mod = s.mod := by unfold State.post; split <;> rfl
@[simp] theorem State.post_fired (s : State) (q : Nat) (r : List (BitVec 64)) : (s.post q r).fired = s.fired := by unfold State.post; split <;> rfl
@[simp] theorem State.post_agenda (s : State) (q : Nat) (r : List (BitVec 64)) : (s.post q r).agenda = s.agenda := by unfold State.post; split <;> rfl
@[simp] theorem State.post_focus (s : State) (q : Nat) (r : List (BitVec 64)) : (s.post q r).focus = s.focus := by unfold State.post; split <;> rfl
@[simp] theorem State.post_free (s : State) (q : Nat) (r : List (BitVec 64)) : (s.post q r).free = s.free := by unfold State.post; split <;> rfl
@[simp] theorem State.post_uid (s : State) (q : Nat) (r : List (BitVec 64)) : (s.post q r).uid = s.uid := by unfold State.post; split <;> rfl
@[simp] theorem State.post_takes (s : State) (q : Nat) (r : List (BitVec 64)) : (s.post q r).takes = s.takes := by unfold State.post; split <;> rfl

@[simp] theorem State.executed_mem (s : State) (cx : Cx) (r : SlotRec) : (s.executed cx r).mem = s.mem := by simp [State.executed]
@[simp] theorem State.executed_side (s : State) (cx : Cx) (r : SlotRec) : (s.executed cx r).side = s.side := by simp [State.executed]
@[simp] theorem State.executed_dies (s : State) (cx : Cx) (r : SlotRec) : (s.executed cx r).dies = s.dies := by simp [State.executed]
@[simp] theorem State.executed_cmds (s : State) (cx : Cx) (r : SlotRec) : (s.executed cx r).cmds = s.cmds := by simp [State.executed]
@[simp] theorem State.executed_bufs (s : State) (cx : Cx) (r : SlotRec) : (s.executed cx r).bufs = s.bufs := by simp [State.executed]
@[simp] theorem State.executed_fields (s : State) (cx : Cx) (r : SlotRec) : (s.executed cx r).fields = s.fields := by simp [State.executed]
@[simp] theorem State.executed_gens (s : State) (cx : Cx) (r : SlotRec) : (s.executed cx r).gens = s.gens := by simp [State.executed]
@[simp] theorem State.executed_queues (s : State) (cx : Cx) (r : SlotRec) : (s.executed cx r).queues = s.queues := by simp [State.executed]
@[simp] theorem State.executed_launches (s : State) (cx : Cx) (r : SlotRec) : (s.executed cx r).launches = s.launches := by simp [State.executed]
@[simp] theorem State.executed_turn (s : State) (cx : Cx) (r : SlotRec) : (s.executed cx r).turn = s.turn := by simp [State.executed]
@[simp] theorem State.executed_faulted (s : State) (cx : Cx) (r : SlotRec) : (s.executed cx r).faulted = s.faulted := by simp [State.executed]
@[simp] theorem State.executed_hostCmd (s : State) (cx : Cx) (r : SlotRec) : (s.executed cx r).hostCmd = s.hostCmd := by simp [State.executed]
@[simp] theorem State.executed_attest (s : State) (cx : Cx) (r : SlotRec) : (s.executed cx r).attest = s.attest := by simp [State.executed]
@[simp] theorem State.executed_mod (s : State) (cx : Cx) (r : SlotRec) : (s.executed cx r).mod = s.mod := by simp [State.executed]
@[simp] theorem State.executed_fired (s : State) (cx : Cx) (r : SlotRec) : (s.executed cx r).fired = s.fired := by simp [State.executed]
@[simp] theorem State.executed_agenda (s : State) (cx : Cx) (r : SlotRec) : (s.executed cx r).agenda = s.agenda := by simp [State.executed]
@[simp] theorem State.executed_focus (s : State) (cx : Cx) (r : SlotRec) : (s.executed cx r).focus = s.focus := by simp [State.executed]
@[simp] theorem State.executed_free (s : State) (cx : Cx) (r : SlotRec) : (s.executed cx r).free = s.free := by simp [State.executed]
@[simp] theorem State.executed_uid (s : State) (cx : Cx) (r : SlotRec) : (s.executed cx r).uid = s.uid := by simp [State.executed]
@[simp] theorem State.executed_takes (s : State) (cx : Cx) (r : SlotRec) : (s.executed cx r).takes = s.takes := by simp [State.executed]

/-! ## Maps -/

theorem SMap.get_put {α : Type} (m : SMap α) (k j : Nat) (v d : α) :
    SMap.get (SMap.put m k v) j d = if j = k then v else SMap.get m j d := by
  induction m with
  | nil =>
    simp only [SMap.put, SMap.get]
    by_cases h : j = k
    · simp [h]
    · simp [h, Ne.symm h]
  | cons x t ih =>
    obtain ⟨i, u⟩ := x
    simp only [SMap.put]
    split
    · simp only [SMap.get]
      by_cases h : k = j
      · simp [h]
      · simp [h, Ne.symm h]
    · split
      · rename_i h; subst h
        simp only [SMap.get]
        by_cases h : k = j
        · simp [h]
        · simp [h, Ne.symm h]
      · simp only [SMap.get, ih]
        by_cases h : i = j
        · subst h; simp; omega
        · simp [h]

@[simp] theorem SMap.get_put_same {α : Type} (m : SMap α) (k : Nat) (v d : α) : SMap.get (SMap.put m k v) k d = v := by
  simp [SMap.get_put]

theorem SMap.get_put_ne {α : Type} (m : SMap α) {k j : Nat} (h : j ≠ k) (v d : α) :
    SMap.get (SMap.put m k v) j d = SMap.get m j d := by
  simp [SMap.get_put, h]

theorem SMap.get_drop {α : Type} (m : SMap α) (k j : Nat) (d : α) (h : j ≠ k) : SMap.get (SMap.drop m k) j d = SMap.get m j d := by
  induction m with
  | nil => rfl
  | cons x t ih =>
    obtain ⟨i, u⟩ := x
    simp only [SMap.drop, SMap.get]
    split
    · rename_i e; subst e; simp [Ne.symm h, ih]
    · simp only [SMap.get, ih]

/-- A dropped key reads as the default. -/
@[simp] theorem SMap.get_drop_same {α : Type} (m : SMap α) (k : Nat) (d : α) : SMap.get (SMap.drop m k) k d = d := by
  induction m with
  | nil => rfl
  | cons x t ih =>
    obtain ⟨i, u⟩ := x
    simp only [SMap.drop]
    split
    · exact ih
    · rename_i e; simp [SMap.get, e, ih]

/-! ## Plots, dies, tasks -/

theorem State.plot_setPlot (s : State) (p q : Nat) (x : Plot) : (s.setPlot p x).plot q = if q = p then x else s.plot q := by
  simp [State.plot, State.setPlot, SMap.get_put]

@[simp] theorem State.plot_setPlot_same (s : State) (p : Nat) (x : Plot) : (s.setPlot p x).plot p = x := by
  simp [State.plot_setPlot]

theorem State.plot_onPlot (s : State) (p q : Nat) (f : Plot → Plot) :
    (s.onPlot p f).plot q = if q = p then f (s.plot p) else s.plot q := by
  simp [State.onPlot, State.plot_setPlot]

@[simp] theorem State.plot_onPlot_same (s : State) (p : Nat) (f : Plot → Plot) : (s.onPlot p f).plot p = f (s.plot p) := by
  simp [State.plot_onPlot]

@[simp] theorem State.plot_setDie (s : State) (d : Nat) (x : Die) (q : Nat) : (s.setDie d x).plot q = s.plot q := rfl
@[simp] theorem State.plot_onMod (s : State) (f : Module → Module) (q : Nat) : (s.onMod f).plot q = s.plot q := rfl
@[simp] theorem State.plot_onLaunch (s : State) (i : BitVec 32) (f : Launch → Launch) (q : Nat) :
    (s.onLaunch i f).plot q = s.plot q := rfl
@[simp] theorem State.plot_post (s : State) (i : Nat) (r : List (BitVec 64)) (q : Nat) : (s.post i r).plot q = s.plot q := by
  simp [State.plot]
@[simp] theorem State.plot_setSide (s : State) (a : Nat) (x : Side) (q : Nat) : (s.setSide a x).plot q = s.plot q := by
  simp [State.plot]

@[simp] theorem State.die_onPlot (s : State) (p d : Nat) (f : Plot → Plot) : (s.onPlot p f).die d = s.die d := rfl
@[simp] theorem State.die_onTask (s : State) (p k d : Nat) (f : Task → Task) : (s.onTask p k f).die d = s.die d := rfl
@[simp] theorem State.die_setTask (s : State) (p k d : Nat) (t : Task) : (s.setTask p k t).die d = s.die d := rfl
@[simp] theorem State.die_bump (s : State) (p i n d : Nat) : (s.bump p i n).die d = s.die d := by simp [State.die]
@[simp] theorem State.die_setSlot (s : State) (cx : Cx) (r : SlotRec) (d : Nat) : (s.setSlot cx r).die d = s.die d := rfl

/-! The instant, in the clock of every die, is the dies' alone. -/

@[simp] theorem State.setPlot_instant (s : State) (p : Nat) (x : Plot) : (s.setPlot p x).instant = s.instant := rfl
@[simp] theorem State.onPlot_instant (s : State) (p : Nat) (f : Plot → Plot) : (s.onPlot p f).instant = s.instant := rfl
@[simp] theorem State.setTask_instant (s : State) (p k : Nat) (t : Task) : (s.setTask p k t).instant = s.instant := rfl
@[simp] theorem State.onTask_instant (s : State) (p k : Nat) (f : Task → Task) : (s.onTask p k f).instant = s.instant := rfl
@[simp] theorem State.setSlot_instant (s : State) (cx : Cx) (r : SlotRec) : (s.setSlot cx r).instant = s.instant := rfl
@[simp] theorem State.onMod_instant (s : State) (f : Module → Module) : (s.onMod f).instant = s.instant := rfl
@[simp] theorem State.onLaunch_instant (s : State) (i : BitVec 32) (f : Launch → Launch) : (s.onLaunch i f).instant = s.instant := rfl

theorem State.die_setDie (s : State) (d e : Nat) (x : Die) : (s.setDie d x).die e = if e = d then x else s.die e := by
  simp [State.die, State.setDie, SMap.get_put]

theorem Plot.task_setTask (x : Plot) (k j : Nat) (t : Task) :
    (x.setTask k t).task j = if j = k ∧ k < 16 then t else x.task j := by
  unfold Plot.task Plot.setTask
  by_cases hj : j < 16
  · simp only [hj, dif_pos, Vector.getElem_setIfInBounds]
    by_cases h : k = j
    · subst h; simp [hj]
    · simp [h, Ne.symm h]
  · simp only [hj, dif_neg, not_false_eq_true]
    split
    · rename_i h; omega
    · rfl

theorem State.task_setTask (s : State) (p k q j : Nat) (t : Task) :
    (s.setTask p k t).task q j = if q = p ∧ j = k ∧ k < 16 then t else s.task q j := by
  unfold State.task State.setTask
  rw [State.plot_onPlot]
  by_cases h : q = p
  · subst h; simp [Plot.task_setTask]
  · simp [h]

theorem State.task_onTask (s : State) (p k q j : Nat) (f : Task → Task) :
    (s.onTask p k f).task q j = if q = p ∧ j = k ∧ k < 16 then f (s.task p k) else s.task q j := by
  simp [State.onTask, State.task_setTask]

/-- A task outside the sixteen slots does not exist: it reads as an empty one, whatever is written. -/
theorem State.task_out (s : State) (p : Nat) {k : Nat} (h : ¬ k < 16) : s.task p k = {} := by
  simp [State.task, Plot.task, h]

/-- A property of tasks that a function keeps survives its application to one of them. -/
theorem State.onTask_keeps {β : Type} (g : Task → β) (s : State) (p k q j : Nat) (f : Task → Task) (h : ∀ t, g (f t) = g t) :
    g ((s.onTask p k f).task q j) = g (s.task q j) := by
  rw [State.task_onTask]
  split
  · rename_i e; rw [h, e.1, e.2.1]
  · rfl

/-- Changing a plot without its tasks changes no task. -/
theorem State.task_onPlot (s : State) (p q j : Nat) (f : Plot → Plot) (h : ∀ x, (f x).tasks = x.tasks) :
    (s.onPlot p f).task q j = s.task q j := by
  have e : ((s.onPlot p f).plot q).tasks = (s.plot q).tasks := by
    rw [State.plot_onPlot]
    split
    · rename_i e; rw [h, e]
    · rfl
  simp only [State.task, Plot.task, e]

@[simp] theorem State.task_bump (s : State) (p i n q j : Nat) : (s.bump p i n).task q j = s.task q j := by
  unfold State.bump
  split
  · exact State.task_onPlot s p q j _ (fun _ => rfl)
  · rfl

@[simp] theorem State.task_setHalf (s : State) (p : Nat) (h : Bool) (y : Half) (q j : Nat) : (s.setHalf p h y).task q j = s.task q j :=
  State.task_onPlot s p q j _ (fun _ => by unfold Plot.setHalf; split <;> rfl)

@[simp] theorem State.task_setSlot (s : State) (cx : Cx) (r : SlotRec) (q j : Nat) : (s.setSlot cx r).task q j = s.task q j :=
  State.task_onPlot s cx.p q j _ (fun _ => by unfold Plot.setHalf; split <;> rfl)

@[simp] theorem State.task_executed (s : State) (cx : Cx) (r : SlotRec) (q j : Nat) : (s.executed cx r).task q j = s.task q j := by
  simp [State.executed]

@[simp] theorem State.task_setDie (s : State) (d : Nat) (x : Die) (q j : Nat) : (s.setDie d x).task q j = s.task q j := rfl
@[simp] theorem State.task_onMod (s : State) (f : Module → Module) (q j : Nat) : (s.onMod f).task q j = s.task q j := rfl
@[simp] theorem State.task_onLaunch (s : State) (i : BitVec 32) (f : Launch → Launch) (q j : Nat) :
    (s.onLaunch i f).task q j = s.task q j := rfl
@[simp] theorem State.task_post (s : State) (i : Nat) (r : List (BitVec 64)) (q j : Nat) : (s.post i r).task q j = s.task q j := by
  simp [State.task]
@[simp] theorem State.task_setSide (s : State) (a : Nat) (x : Side) (q j : Nat) : (s.setSide a x).task q j = s.task q j := by
  simp [State.task]

/-- A task made READY keeps everything but its state, its wait and its turn. -/
theorem State.task_ready (s : State) (p k q j : Nat) :
    (s.ready p k).task q j = if q = p ∧ j = k ∧ k < 16
      then { s.task p k with st := .ready, wait := .none, since := s.cycOf p, turn := s.uid, levelE := 8 } else s.task q j := by
  show ((s.makeReady p k).task q j) = _
  simp [State.makeReady, State.task_onTask, Task.queued]

end Sys2Proof.Machine
end

