-- ==== Sys2Proof/Laws/Commit.lean ====
section
/-! SUPPORT. What the parts of a commit leave alone: the units they act on change no task, and the issue of operations changes only the
operations and handles of the committing task. -/

namespace Sys2Proof.Machine

open Sys2Proof

/-! ## Rills, fields and tiles change no task -/

@[simp] theorem State.task_setRill (s : State) (p e : Nat) (r : Rill) (q j : Nat) : (s.setRill p e r).task q j = s.task q j :=
  State.task_onPlot s p q j _ (fun _ => rfl)
@[simp] theorem State.task_onRill (s : State) (p e : Nat) (f : Rill → Rill) (q j : Nat) : (s.onRill p e f).task q j = s.task q j :=
  State.task_setRill s p e _ q j
@[simp] theorem State.task_onFu (s : State) (p : Nat) (f : FUnit → FUnit) (q j : Nat) : (s.onFu p f).task q j = s.task q j :=
  State.task_onPlot s p q j _ (fun _ => rfl)

@[simp] theorem State.task_giveBack (s : State) (p e : Nat) (b : Bool) (n q j : Nat) : (s.giveBack p e b n).task q j = s.task q j := by
  unfold State.giveBack
  split
  · rfl
  · split <;> simp

@[simp] theorem State.task_absorb (s : State) (p e q j : Nat) : (s.absorb p e).task q j = s.task q j := by
  unfold State.absorb
  dsimp only
  split
  · rfl
  · split <;> simp

@[simp] theorem State.task_popRill (s : State) (p e q j : Nat) : (s.popRill p e).task q j = s.task q j := by
  unfold State.popRill
  dsimp only
  split
  · rfl
  · split <;> simp

@[simp] theorem State.task_popLatest (s : State) (p e : Nat) (n : BitVec 32) (q j : Nat) :
    (s.popLatest p e n).task q j = s.task q j := by
  simp [State.popLatest]

@[simp] theorem State.task_popTile (s : State) (p t c : Nat) (l : Bool) (q j : Nat) : (s.popTile p t c l).task q j = s.task q j := by
  simp [State.popTile]

/-- Folding steps that each keep a property keeps it. -/
theorem foldl_keeps {α β γ : Type} (g : β → γ) (f : β → α → β) (xs : List α) (h : ∀ b, ∀ a ∈ xs, g (f b a) = g b) (b : β) :
    g (xs.foldl f b) = g b := by
  induction xs generalizing b with
  | nil => rfl
  | cons x t ih =>
    rw [List.foldl_cons, ih (fun b a ha => h b a (List.mem_cons_of_mem _ ha)), h b x (List.mem_cons_self ..)]

@[simp] theorem State.task_pops (s : State) (p : Nat) (b : Block) (q j : Nat) : (s.pops p b).task q j = s.task q j := by
  unfold State.pops
  refine foldl_keeps (fun s => s.task q j) _ _ (fun s r _ => ?_) s
  split <;> simp

theorem State.task_wrBytes (bs : List Byte) (s : State) (a q j : Nat) : (s.wrBytes a bs).task q j = s.task q j := by
  induction bs generalizing s a with
  | nil => rfl
  | cons b t ih => rw [State.wrBytes, ih]; rfl

@[simp] theorem State.task_append (s : State) (p e : Nat) (x : Item) (q j : Nat) : (s.append p e x).task q j = s.task q j := by
  unfold State.append
  dsimp only
  split
  · simp
  · split
    · rw [State.task_setRill]; exact State.task_wrBytes ..
    · simp

/-! ## What wakes and effects of a commit leave of a task -/

/-- What no effect of a commit but the committing block's own writes changes in a task. -/
def Task.fixed (t : Task) : Regs × BitVec 40 × Bool × Leaving × BitVec 40 × BitVec 32 × BitVec 16 × BitVec 9 × BitVec 8 × BitVec 16 × Bool :=
  (t.regs, t.bpc, t.far, t.leaving, t.trapv, t.frame, t.park, t.fctl, t.sigctl, t.wake, t.smiss)

theorem State.fixed_ready (s : State) (p k q j : Nat) : ((s.ready p k).task q j).fixed = (s.task q j).fixed := by
  rw [State.task_ready]
  split
  · rename_i h; rw [h.1, h.2.1]; rfl
  · rfl

/-- Waking the tasks of a plot changes of each only its state, its wait and its turn. -/
theorem State.fixed_wakePlot (s : State) (p q j : Nat) (f : WaitFor → Bool) : ((s.wakePlot p f).task q j).fixed = (s.task q j).fixed := by
  unfold State.wakePlot
  refine foldl_keeps (fun s => (s.task q j).fixed) _ _ (fun s k _ => ?_) s
  dsimp only
  split
  · rfl
  · split
    · exact State.fixed_ready ..
    · split
      · rw [State.task_setTask]
        split
        · rename_i h; rw [h.1, h.2.1]; rfl
        · rfl
      · rfl

theorem State.fixed_wakeGranule (s : State) (a q j : Nat) : ((s.wakeGranule a).task q j).fixed = (s.task q j).fixed := by
  show (State.task (List.foldl _ s _) q j).fixed = _
  exact foldl_keeps (fun s => (s.task q j).fixed) _ _ (fun s p _ => State.fixed_wakePlot ..) s

theorem State.task_wrSide (s : State) (a : Nat) (x : Side) (q j : Nat) : (s.wrSide a x).task q j = s.task q j := by
  unfold State.wrSide
  split <;> simp

theorem State.fixed_restoreTake (s : State) (x : TakeRec) (q j : Nat) : ((s.restoreTake x).task q j).fixed = (s.task q j).fixed := by
  unfold State.restoreTake
  split
  · rfl
  · rw [State.fixed_wakeGranule]
    show ((s.wrSide _ _).task q j).fixed = _
    rw [State.task_wrSide]

theorem State.fixed_dropBlock (s : State) (p k q j : Nat) : ((s.dropBlock p k).task q j).fixed = (s.task q j).fixed := by
  unfold State.dropBlock
  split
  · rfl
  · dsimp only
    rw [State.task_setHalf]
    refine (foldl_keeps (fun s => (s.task q j).fixed) State.restoreTake _ (fun s x _ => State.fixed_restoreTake s x q j) _).trans ?_
    show (State.task (if _ then _ else _) q j).fixed = _
    split <;> simp

/-- A commit-point effect changes of a task at most its priority, its state, its wait and its turn. -/
theorem State.fixed_applyAct (s : State) (p : Nat) (a : CAct) (q j : Nat) : ((s.applyAct p a).task q j).fixed = (s.task q j).fixed := by
  unfold State.applyAct
  split
  · simp
  · simp
  · simp
  · unfold State.roomWake
    split
    · rw [State.fixed_wakePlot, State.task_onRill]
    · rw [State.task_onRill]
  · split
    · rfl
    · exact State.onTask_keeps Task.fixed s _ _ q j _ (fun _ => rfl)
  · split
    · rfl
    · simp
  · rfl

theorem State.fixed_applyActs (p q j : Nat) (xs : List (Nat × CAct)) (s : State) :
    ((xs.foldl (fun s x => s.applyAct p x.2) s).task q j).fixed = (s.task q j).fixed :=
  foldl_keeps (fun s => (s.task q j).fixed) _ _ (fun s x _ => State.fixed_applyAct s p x.2 q j) s

/-- Aborting a block to re-execute it changes of a task only its state, its wait and its turn. -/
theorem State.fixed_reexec (s : State) (p k q j : Nat) : ((s.reexec p k).task q j).fixed = (s.task q j).fixed := by
  unfold State.reexec
  rw [State.fixed_ready]
  exact State.fixed_dropBlock s p k q j

theorem State.fixed_abortOther (s : State) (p k : Nat) (h : Bool) (b : Block) (q j : Nat) :
    ((s.abortOther p k h b).task q j).fixed = (s.task q j).fixed := by
  unfold State.abortOther
  dsimp only
  split
  · split
    · exact State.fixed_reexec ..
    · rfl
  · rfl

theorem State.fixed_issueCmd (s : State) (cx : Cx) (a : CAct) (o : Op) (q j : Nat) :
    ((s.issueCmd cx a o).task q j).fixed = (s.task q j).fixed := by
  unfold State.issueCmd
  split
  · rfl
  · dsimp only
    refine (congrArg Task.fixed (State.task_bump ..)).trans ((State.onTask_keeps Task.fixed _ _ _ q j _ ?_).trans ?_)
    · exact fun _ => rfl
    · split <;> rfl

/-- Issuing an operation changes of a task only its operations and handles. -/
theorem State.fixed_issue (s : State) (cx : Cx) (k : Nat) (a : CAct) (q j : Nat) :
    ((s.issue cx k a).task q j).fixed = (s.task q j).fixed := by
  have h1 : ∀ (os : List Op) (ws : List (Dst × Val)), ((({ s with uid := s.uid + 1 } : State).setTask cx.p cx.t
      { s.task cx.p cx.t with ops := os, heldWrites := ws }).task q j).fixed = (s.task q j).fixed := by
    intro os ws
    rw [State.task_setTask]
    split
    · rename_i h; rw [h.1, h.2.1]; rfl
    · rfl
  unfold State.issue
  dsimp only
  split <;> (try rw [State.fixed_issueCmd]) <;> split <;> (try rw [State.task_bump]) <;> split <;> (try rw [State.task_bump]) <;> exact h1 _ _

theorem State.fixed_issues (cx : Cx) (q j : Nat) (xs : List (Nat × CAct)) (s : State) :
    ((xs.foldl (fun s x => if x.2.kind.immediate then s else s.issue cx x.1 x.2) s).task q j).fixed = (s.task q j).fixed := by
  refine foldl_keeps (fun s => (s.task q j).fixed) _ _ (fun s x _ => ?_) s
  split
  · rfl
  · exact State.fixed_issue ..

end Sys2Proof.Machine
end

