-- ==== Sys2Proof/Laws/Memory.lean ====
section
/-! SUPPORT. Memory: what a byte reads as after a write, that a write leaves every other byte alone, and that every operation that changes
memory keeps its canonical form. -/

namespace Sys2Proof.Machine

open Sys2Proof

/-! ## The canonical form -/

theorem risingFrom_mono {m : List Host.Cell} {n k : Nat} (h : risingFrom m n = true) (hk : k ≤ n) : risingFrom m k = true := by
  cases m with
  | nil => rfl
  | cons x t =>
    obtain ⟨a, v⟩ := x
    simp only [risingFrom, Bool.and_eq_true, decide_eq_true_eq] at h ⊢
    exact ⟨⟨by omega, h.1.2⟩, h.2⟩

/-- Nothing below the first key is listed. -/
theorem memGet_below {m : List Host.Cell} {n a : Nat} (h : risingFrom m n = true) (ha : a < n) : memGet m a = memUnlisted := by
  induction m generalizing n with
  | nil => rfl
  | cons x t ih =>
    obtain ⟨b, v⟩ := x
    simp only [risingFrom, Bool.and_eq_true, decide_eq_true_eq] at h
    simp only [memGet]
    rw [if_neg (by omega)]
    exact ih h.2 (by omega)

theorem risingFrom_memPut {m : List Host.Cell} {n a : Nat} (v : Byte) (h : risingFrom m n = true) (ha : n ≤ a) :
    risingFrom (memPut m a v) n = true := by
  induction m generalizing n with
  | nil =>
    simp only [memPut]
    split
    · rfl
    · rename_i hv; simp [risingFrom, ha, hv]
  | cons x t ih =>
    obtain ⟨b, u⟩ := x
    have h0 := h
    simp only [risingFrom, Bool.and_eq_true, decide_eq_true_eq] at h0
    simp only [memPut]
    split
    · split
      · exact h
      · rename_i hab hv
        have hv' : (v != memUnlisted) = true := by simp [hv]
        simp only [risingFrom, Bool.and_eq_true, decide_eq_true_eq]
        exact ⟨⟨ha, hv'⟩, ⟨⟨by omega, h0.1.2⟩, h0.2⟩⟩
    · split
      · rename_i hab; subst hab
        split
        · exact risingFrom_mono h0.2 (by omega)
        · rename_i hv; simp [risingFrom, ha, hv, h0.2]
      · simp only [risingFrom, Bool.and_eq_true, decide_eq_true_eq]
        exact ⟨h0.1, ih h0.2 (by omega)⟩

/-- A byte written keeps the canonical form. -/
theorem wf_memPut {m : List Host.Cell} (a : Nat) (v : Byte) (h : Memory.wf m = true) : Memory.wf (memPut m a v) = true :=
  risingFrom_memPut v h (Nat.zero_le a)

theorem memGet_memPut_from {m : List Host.Cell} {n : Nat} (a b : Nat) (v : Byte) (h : risingFrom m n = true) :
    memGet (memPut m a v) b = if b = a then v else memGet m b := by
  induction m generalizing n with
  | nil =>
    simp only [memPut]
    split
    · rename_i hv; subst hv; simp [memGet]
    · simp only [memGet]; split <;> split <;> first | rfl | omega
  | cons x t ih =>
    obtain ⟨c, u⟩ := x
    simp only [risingFrom, Bool.and_eq_true, decide_eq_true_eq] at h
    simp only [memPut]
    split
    · rename_i hac
      split
      · rename_i hv
        split
        · rename_i hb; subst hb; subst hv
          simp only [memGet]; rw [if_neg (by omega)]
          exact memGet_below h.2 (by omega)
        · rfl
      · by_cases e : b = a
        · simp [memGet, e]
        · simp [memGet, e, Ne.symm e]
    · split
      · rename_i hac; subst hac
        split
        · rename_i hv
          split
          · rename_i hb; subst hb; subst hv; exact memGet_below h.2 (by omega)
          · simp only [memGet]; rw [if_neg (by omega)]
        · simp only [memGet]; split <;> split <;> first | rfl | omega
      · simp only [memGet, ih h.2]
        split <;> split <;> first | rfl | omega

/-- In canonical memory a byte reads as it was last written, and a write leaves every other byte alone. -/
theorem memGet_memPut {m : List Host.Cell} (a b : Nat) (v : Byte) (h : Memory.wf m = true) :
    memGet (memPut m a v) b = if b = a then v else memGet m b := memGet_memPut_from a b v h

theorem risingFrom_filter {m : List Host.Cell} {n : Nat} (f : Host.Cell → Bool) (h : risingFrom m n = true) :
    risingFrom (m.filter f) n = true := by
  induction m generalizing n with
  | nil => rfl
  | cons x t ih =>
    obtain ⟨a, v⟩ := x
    simp only [risingFrom, Bool.and_eq_true, decide_eq_true_eq] at h
    simp only [List.filter_cons]
    split
    · simp only [risingFrom, Bool.and_eq_true, decide_eq_true_eq]
      exact ⟨h.1, ih h.2⟩
    · exact risingFrom_mono (ih h.2) (by omega)

/-! ## The operations that change memory -/

theorem State.wf_wrBytes (bs : List Byte) (s : State) (a : Nat) (h : Memory.wf s.mem = true) : Memory.wf (s.wrBytes a bs).mem = true := by
  induction bs generalizing s a with
  | nil => exact h
  | cons b t ih => exact ih _ _ (wf_memPut a b h)

/-- Bytes written from a on: each reads as written, and every other byte as before. -/
theorem State.memGet_wrBytes (bs : List Byte) (s : State) (a b : Nat) (h : Memory.wf s.mem = true) :
    memGet (s.wrBytes a bs).mem b = if a ≤ b ∧ b < a + bs.length then bs.getD (b - a) 0 else memGet s.mem b := by
  induction bs generalizing s a with
  | nil => simp [State.wrBytes]
  | cons x t ih =>
    rw [State.wrBytes, ih _ _ (wf_memPut a x h)]
    simp only [memGet_memPut _ _ _ h, List.length_cons]
    by_cases e : b = a
    · subst e
      rw [if_neg (by omega), if_pos rfl, if_pos (by omega)]
      simp
    · by_cases g : a + 1 ≤ b ∧ b < a + 1 + t.length
      · rw [if_pos g, if_pos (by omega)]
        obtain ⟨k, rfl⟩ : ∃ k, b = a + 1 + k := ⟨b - (a + 1), by omega⟩
        rw [show a + 1 + k - (a + 1) = k by omega, show a + 1 + k - a = k + 1 by omega]
        simp
      · rw [if_neg g, if_neg e, if_neg (by omega)]

@[simp] theorem State.mem_setSide (s : State) (a : Nat) (x : Side) : (s.setSide a x).mem = s.mem := by
  unfold State.setSide
  split <;> rfl

@[simp] theorem State.mem_wrSide (s : State) (a : Nat) (x : Side) : (s.wrSide a x).mem = s.mem := by
  unfold State.wrSide
  split <;> simp

theorem State.wf_wrHome (s : State) (a : Nat) (bs : List Byte) (h : Memory.wf s.mem = true) : Memory.wf (s.wrHome a bs).mem = true := by
  unfold State.wrHome
  split
  · exact State.wf_wrBytes _ _ _ (State.wf_wrBytes _ _ _ h)
  · exact State.wf_wrBytes _ _ _ h

/-- Folding steps that each keep a property keeps it. -/
theorem foldl_inv {α β : Type} (P : β → Prop) (f : β → α → β) (xs : List α) (h : ∀ b a, P b → P (f b a)) (b : β) (hb : P b) :
    P (xs.foldl f b) := by
  induction xs generalizing b with
  | nil => exact hb
  | cons x t ih => exact ih _ (h b x hb)

@[simp] theorem State.mem_makeReady (s : State) (p k : Nat) : (s.makeReady p k).mem = s.mem := by
  simp [State.makeReady]

@[simp] theorem State.mem_wakePlot (s : State) (p : Nat) (f : WaitFor → Bool) : (s.wakePlot p f).mem = s.mem := by
  unfold State.wakePlot
  refine foldl_inv (fun t => t.mem = s.mem) _ _ (fun b k hb => ?_) s rfl
  dsimp only
  split
  · exact hb
  · split
    · simpa [State.ready] using hb
    · split
      · simpa using hb
      · exact hb

@[simp] theorem State.mem_wakeAll (s : State) (f : WaitFor → Bool) : (s.wakeAll f).mem = s.mem := by
  unfold State.wakeAll
  refine foldl_inv (fun t => t.mem = s.mem) _ _ (fun b p hb => ?_) s rfl
  simpa using hb

/-- Noting that words were touched leaves memory. -/
@[simp] theorem State.mem_touch (s : State) (a : Nat) (w : BitVec 8) : (s.touch a w).mem = s.mem := rfl

theorem State.wf_homeWrite (s : State) (a : Nat) (bs : List Byte) (m : StMode) (st : BitVec 3) (h : Memory.wf s.mem = true) :
    Memory.wf (s.homeWrite a bs m st).mem = true := by
  have h1 := State.wf_wrHome s a bs h
  unfold State.homeWrite
  dsimp only
  split
  · exact h1
  · split
    · simpa [State.wakeGranule] using h1
    · simpa using h1

theorem State.wf_unpowered (s : State) (h : Memory.wf s.mem = true) : Memory.wf s.unpowered.mem = true := risingFrom_filter _ h

theorem State.wf_swapMem (s : State) (p q : Nat) : Memory.wf (s.swapMem p q).mem = true :=
  foldl_inv (fun m => Memory.wf m = true) (fun m (c : Host.Cell) => memPut m (swapAddr p q c.1) c.2) _ (fun _ _ hb => wf_memPut _ _ hb) [] rfl

/-- Memory at reset lists nothing. -/
theorem State.wf_reset : Memory.wf State.reset.mem = true := rfl

/-! ## Sidebands -/

theorem State.sideAt_setSide (s : State) (a b : Nat) (x : Side) :
    (s.setSide a x).sideAt b = if b / 32 = a / 32 then x else s.sideAt b := by
  unfold State.setSide State.sideAt
  by_cases e : b / 32 = a / 32
  · rw [e]; split
    · rename_i hx; simp [hx]
    · simp
  · rw [if_neg e]
    have : b / 32 * 32 ≠ a / 32 * 32 := by omega
    split
    · exact SMap.get_drop _ _ _ _ this
    · exact SMap.get_put_ne _ this _ _

end Sys2Proof.Machine
end

