-- ==== Sys2Proof/Laws/Rounding.lean ====
section
/-! SUPPORT. Rounding: the model's integer arithmetic of R36 and R37 finds the nearest number of the format's grid, and a packed code stands for it. -/

namespace Sys2Proof.Laws

open Sys2Proof Sys2Proof.Machine

/-! ## One rounding to a grid -/

/-- An exact real stands for the magnitude v: its integer part is known, and whether anything follows it. -/
def Holds (x : Exact) (v : ℝ) : Prop :=
  (x.sticky = false → v = x.m * (2 : ℝ) ^ x.e) ∧
  (x.sticky = true → x.m * (2 : ℝ) ^ x.e < v ∧ v < (x.m + 1) * (2 : ℝ) ^ x.e)

/-- The kept integer, rounded up or not, is the nearest one: k is the integer part and d the rest. -/
theorem nearest_of_parts (r : Rnd) (hr : r ≠ .dyn) (neg : Bool) (x : ℝ) (k cmp : Nat) (lost : Bool) (d : ℝ) (hx : x = k + d) (h0 : 0 ≤ d)
    (h1 : d < 1) (hl : lost = true ↔ d ≠ 0) (hc : (cmp = 0 ↔ d < 1 / 2) ∧ (cmp = 1 ↔ d = 1 / 2) ∧ (cmp = 2 ↔ 1 / 2 < d)) :
    Nearest r neg x (if (lost && roundUp r neg (k % 2 == 1) cmp) = true then k + 1 else k) := by
  obtain ⟨c0, c1, c2⟩ := hc
  have hd : lost = false → d = 0 := fun h => by
    by_contra hne
    have := hl.2 hne
    simp [h] at this
  have up : x - ((k + 1 : Nat) : ℝ) = d - 1 := by push_cast; linarith
  have dn : x - (k : ℝ) = d := by linarith
  cases hlo : lost
  · have : d = 0 := hd hlo
    cases r <;> cases neg <;> simp_all [Nearest]
  · have hne : d ≠ 0 := hl.1 hlo
    have hpos : 0 < d := lt_of_le_of_ne h0 (Ne.symm hne)
    cases r with
    | dyn => exact absurd rfl hr
    | rtz => simp [Nearest, roundUp]; constructor <;> linarith
    | rup =>
      cases neg
      · simp [Nearest, roundUp]; constructor <;> linarith
      · simp [Nearest, roundUp]; constructor <;> linarith
    | rdn =>
      cases neg
      · simp [Nearest, roundUp]; constructor <;> linarith
      · simp [Nearest, roundUp]; constructor <;> linarith
    | rna =>
      rcases lt_trichotomy d (1 / 2) with h | h | h
      · have : cmp = 0 := c0.2 h
        have hab : |d| = d := abs_of_pos hpos
        simp [Nearest, roundUp, this, dn, hab]
        exact ⟨by linarith, fun e => by norm_num at h; linarith⟩
      · have : cmp = 1 := c1.2 h
        simp only [Nearest, roundUp, this, Bool.true_and]
        simp only [ge_iff_le, le_refl, decide_true, if_true]
        rw [up, h]
        refine ⟨by norm_num [abs_of_neg], fun _ => by push_cast; linarith⟩
      · have : cmp = 2 := c2.2 h
        simp only [Nearest, roundUp, this, Bool.true_and]
        simp only [ge_iff_le, Nat.one_le_ofNat, decide_true, if_true]
        rw [up, abs_of_neg (by linarith)]
        exact ⟨by linarith, fun e => by linarith⟩
    | rne =>
      rcases lt_trichotomy d (1 / 2) with h | h | h
      · have : cmp = 0 := c0.2 h
        have hab : |d| = d := abs_of_pos hpos
        simp [Nearest, roundUp, this, dn, hab]
        exact ⟨by linarith, fun e => by norm_num at h; linarith⟩
      · have : cmp = 1 := c1.2 h
        by_cases ho : k % 2 = 1
        · simp only [Nearest, roundUp, this, Bool.true_and]
          simp only [ho, beq_self_eq_true, Bool.or_true, Bool.and_self, if_true]
          rw [up, h]
          exact ⟨by norm_num [abs_of_neg], fun _ => by omega⟩
        · have hb : (k % 2 == 1) = false := by simpa using ho
          simp only [Nearest, roundUp, this, Bool.true_and, hb, Bool.and_false, Bool.or_false]
          have : (1 == 2) = false := rfl
          simp only [this, Bool.false_eq_true, if_false]
          rw [dn, h]
          exact ⟨by norm_num [abs_of_pos], fun _ => by omega⟩
      · have : cmp = 2 := c2.2 h
        simp only [Nearest, roundUp, this, Bool.true_and]
        simp only [beq_self_eq_true, Bool.true_or, if_true]
        rw [up, abs_of_neg (by linarith)]
        exact ⟨by linarith, fun e => by linarith⟩

/-- `roundAt` gives the nearest multiple of 2^u, and says whether anything was lost. -/
theorem roundAt_spec (r : Rnd) (hr : r ≠ .dyn) (x : Exact) (v : ℝ) (hv : Holds x v) (u : Int) (hs : x.sticky = true → x.e < u) :
    Nearest r x.neg (v / 2 ^ u) (roundAt r x u).1 ∧ ((roundAt r x u).2 = false ↔ ((roundAt r x u).1 : ℝ) * 2 ^ u = v) := by
  have pu : (0 : ℝ) < 2 ^ u := by positivity
  by_cases hu : u ≤ x.e
  · have hst : x.sticky = false := by
      by_contra h
      have := hs (by simpa using h)
      omega
    have hv0 := hv.1 hst
    have hpow : (2 : ℝ) ^ x.e = ((2 ^ (x.e - u).toNat : Nat) : ℝ) * 2 ^ u := by
      push_cast
      rw [← zpow_natCast, ← zpow_add₀ (by norm_num)]
      congr 1
      omega
    have hval : v / 2 ^ u = ((x.m * 2 ^ (x.e - u).toNat : Nat) : ℝ) := by
      rw [hv0, hpow]; push_cast; field_simp
    have e1 : roundAt r x u = (x.m * 2 ^ (x.e - u).toNat, x.sticky) := by simp [roundAt, hu]
    rw [e1, hst]
    refine ⟨?_, by simp only [true_iff]; rw [← hval]; field_simp⟩
    have := nearest_of_parts r hr x.neg (v / 2 ^ u) (x.m * 2 ^ (x.e - u).toNat) 0 false 0 (by rw [hval]; simp) le_rfl one_pos
      (by simp) ⟨by simp, by simp, by norm_num⟩
    simpa using this
  · push Not at hu
    obtain ⟨s, hs1⟩ : ∃ s : Nat, (u - x.e).toNat = s + 1 := ⟨(u - x.e).toNat - 1, by omega⟩
    have hue : u = x.e + ((s + 1 : Nat) : Int) := by omega
    set δ : ℝ := v / 2 ^ x.e - x.m with hδ
    have pe : (0 : ℝ) < 2 ^ x.e := by positivity
    have hvδ : v = (x.m + δ) * 2 ^ x.e := by rw [hδ]; field_simp; ring
    have hδ0 : 0 ≤ δ ∧ δ < 1 ∧ (x.sticky = false ↔ δ = 0) := by
      cases hst : x.sticky
      · have := hv.1 hst
        have : δ = 0 := by rw [hδ, this]; field_simp; ring
        simp [this]
      · obtain ⟨a, b⟩ := hv.2 hst
        have ha : (x.m : ℝ) < v / 2 ^ x.e := (lt_div_iff₀ pe).2 a
        have hb : v / 2 ^ x.e < x.m + 1 := (div_lt_iff₀ pe).2 b
        refine ⟨by linarith, by linarith, ?_⟩
        simp only [Bool.true_eq_false, false_iff]
        intro h; linarith
    obtain ⟨d0, d1, dz⟩ := hδ0
    set k := x.m / 2 ^ (s + 1) with hk
    set rem := x.m % 2 ^ (s + 1) with hrem
    have hm : x.m = 2 ^ (s + 1) * k + rem := by rw [hk, hrem]; exact (Nat.div_add_mod _ _).symm
    have hrl : rem < 2 ^ (s + 1) := Nat.mod_lt _ (by positivity)
    have ps : (0 : ℝ) < 2 ^ (s + 1) := by positivity
    set d : ℝ := (rem + δ) / 2 ^ (s + 1) with hd
    have hmr : (x.m : ℝ) = 2 ^ (s + 1) * k + rem := by exact_mod_cast hm
    have hvu : v / 2 ^ u = k + d := by
      rw [hvδ, hue, zpow_add₀ (by norm_num), zpow_natCast, hd, hmr]
      field_simp
      ring
    have hd0 : 0 ≤ d := by rw [hd]; positivity
    have hrl' : (rem : ℝ) + 1 ≤ 2 ^ (s + 1) := by exact_mod_cast hrl
    have hd1 : d < 1 := by rw [hd, div_lt_one ps]; linarith
    have hz : d = 0 ↔ rem = 0 ∧ x.sticky = false := by
      rw [hd, div_eq_zero_iff, dz]
      have : (0 : ℝ) ≤ rem := by positivity
      constructor
      · rintro (h | h)
        · refine ⟨?_, by linarith⟩
          have : (rem : ℝ) = 0 := by linarith
          exact_mod_cast this
        · exact absurd h ps.ne'
      · rintro ⟨h1, h2⟩
        left; simp [h1, h2]
    set cmp := if rem < 2 ^ s then 0 else if 2 ^ s < rem then 2 else if x.sticky then 2 else 1 with hcmp
    have half : (2 : ℝ) ^ (s + 1) = 2 * 2 ^ s := by rw [pow_succ]; ring
    have pc : (0 : ℝ) < 2 ^ s := by positivity
    have trich : (rem < 2 ^ s ∧ d < 1 / 2 ∧ cmp = 0) ∨ (d = 1 / 2 ∧ cmp = 1) ∨ (1 / 2 < d ∧ cmp = 2) := by
      rcases lt_trichotomy rem (2 ^ s) with h | h | h
      · left
        refine ⟨h, ?_, by simp [hcmp, h]⟩
        have : (rem : ℝ) + 1 ≤ 2 ^ s := by exact_mod_cast h
        rw [hd, div_lt_iff₀ ps, half]; linarith
      · right
        have h' : (rem : ℝ) = 2 ^ s := by exact_mod_cast h
        cases hst : x.sticky
        · left
          have : δ = 0 := dz.1 hst
          refine ⟨?_, by simp [hcmp, h, hst]⟩
          rw [hd, h', this, half]; field_simp; ring
        · right
          have hne : δ ≠ 0 := fun e => by simp [hst] at dz; exact dz e
          have hp : 0 < δ := lt_of_le_of_ne d0 (Ne.symm hne)
          refine ⟨?_, by simp [hcmp, h, hst]⟩
          rw [hd, lt_div_iff₀ ps, h', half]; linarith
      · right; right
        have h' : (2 : ℝ) ^ s + 1 ≤ rem := by exact_mod_cast h
        refine ⟨?_, by simp [hcmp, h, Nat.not_lt.2 h.le]⟩
        rw [hd, lt_div_iff₀ ps, half]; linarith
    have hc : (cmp = 0 ↔ d < 1 / 2) ∧ (cmp = 1 ↔ d = 1 / 2) ∧ (cmp = 2 ↔ 1 / 2 < d) := by
      rcases trich with ⟨_, h, e⟩ | ⟨h, e⟩ | ⟨h, e⟩
      · rw [e]
        exact ⟨iff_of_true rfl h, iff_of_false (by decide) (fun c => by linarith), iff_of_false (by decide) (fun c => by linarith)⟩
      · rw [e, h]; norm_num
      · rw [e]
        exact ⟨iff_of_false (by decide) (fun c => by linarith), iff_of_false (by decide) (fun c => by linarith), iff_of_true rfl h⟩
    set lost := (rem != 0 || x.sticky) with hlo
    have hl : lost = true ↔ d ≠ 0 := by
      rw [Ne, hz, hlo]
      cases x.sticky <;> simp
    have e1 : roundAt r x u = (if (lost && roundUp r x.neg (k % 2 == 1) cmp) = true then k + 1 else k, lost) := by
      simp only [roundAt, if_neg (not_le.2 hu), hs1, Nat.add_sub_cancel]
      rfl
    rw [e1]
    refine ⟨nearest_of_parts r hr x.neg _ k cmp lost d hvu hd0 hd1 hl hc, ?_⟩
    have hv2 : v = (k + d) * 2 ^ u := by rw [← hvu]; field_simp
    constructor
    · intro h
      have hdz : d = 0 := by
        by_contra hne
        rw [hl.2 hne] at h
        cases h
      have h' : lost = false := h
      simp [h', hv2, hdz]
    · intro h
      rw [hv2] at h
      have hkd := mul_right_cancel₀ pu.ne' h
      by_contra hlf
      have hlt : lost = true := by simpa using hlf
      have hne := hl.1 hlt
      have hpos : 0 < d := lt_of_le_of_ne hd0 (Ne.symm hne)
      split at hkd
      · push_cast at hkd; linarith
      · linarith

/-! ## Codes -/

/-- What the magnitude bits of a code stand for, the exponent unbounded. -/
noncomputable def codeVal (f : FpFmt) (c : Nat) : ℝ :=
  if c / 2 ^ f.fw = 0 then (c % 2 ^ f.fw : Nat) * (2 : ℝ) ^ (f.emin - f.fw)
  else ((2 ^ f.fw + c % 2 ^ f.fw : Nat) : ℝ) * (2 : ℝ) ^ (((c / 2 ^ f.fw : Nat) : Int) - f.bias - f.fw)

/-- A format whose codes up to the largest finite one all stand for finite values. -/
structure Good (f : FpFmt) : Prop where
  frac : 1 ≤ f.fw
  wide : f.ew + f.fw < 64
  top : f.maxCode < 2 ^ (f.ew + f.fw)
  pos : 1 ≤ f.maxCode
  fin : ∀ c ≤ f.maxCode, ¬(f.kind = .ieee ∧ c / 2 ^ f.fw = 2 ^ f.ew - 1) ∧ ¬(f.kind = .e4m3 ∧ c / 2 ^ f.fw = 15 ∧ c % 2 ^ f.fw = 7)

theorem good_ieee (e w : Nat) (he : 1 ≤ e) (hw : 1 ≤ w) (h : e + w < 64) : Good ⟨e, w, .ieee⟩ where
  frac := hw
  wide := h
  top := by
    have h1 : 1 ≤ 2 ^ e := Nat.one_le_two_pow
    have h2 : 1 ≤ 2 ^ w := Nat.one_le_two_pow
    simp only [FpFmt.maxCode, pow_add]
    have : (2 ^ e - 1) * 2 ^ w ≤ 2 ^ e * 2 ^ w := Nat.mul_le_mul_right _ (Nat.sub_le _ _)
    have : 1 ≤ 2 ^ e * 2 ^ w := Nat.mul_pos (by omega) (by omega)
    omega
  pos := by
    have h1 : 2 ^ 1 ≤ 2 ^ e := Nat.pow_le_pow_right (by norm_num) he
    have h2 : 2 ^ 1 ≤ 2 ^ w := Nat.pow_le_pow_right (by norm_num) hw
    simp only [FpFmt.maxCode]
    have : 1 * 2 ≤ (2 ^ e - 1) * 2 ^ w := Nat.mul_le_mul (by omega) (by omega)
    omega
  fin := by
    intro c hc
    refine ⟨?_, by simp⟩
    rintro ⟨-, h⟩
    simp only [FpFmt.maxCode] at hc h
    have h2 : 1 ≤ 2 ^ w := Nat.one_le_two_pow
    have : c / 2 ^ w < 2 ^ e - 1 := by
      rw [Nat.div_lt_iff_lt_mul (by omega)]
      have : 1 ≤ (2 ^ e - 1) * 2 ^ w := Nat.mul_pos (by have : 2 ^ 1 ≤ 2 ^ e := Nat.pow_le_pow_right (by norm_num) he
                                                        omega) (by omega)
      omega
    omega

theorem good_e4m3 : Good e4m3 where
  frac := by decide
  wide := by decide
  top := by decide
  pos := by decide
  fin := by
    intro c hc
    have : c < 127 := Nat.lt_succ_of_le hc
    revert c
    decide

theorem good_e2m1 : Good e2m1 where
  frac := by decide
  wide := by decide
  top := by decide
  pos := by decide
  fin := by intro c hc; simp [e2m1]

/-- Codes rise as the magnitudes they stand for. -/
theorem codeVal_strictMono (f : FpFmt) : StrictMono (codeVal f) := by
  apply strictMono_nat_of_lt_succ
  intro c
  have h2 : 0 < 2 ^ f.fw := by positivity
  set q := c / 2 ^ f.fw with hq
  set m := c % 2 ^ f.fw with hm
  have hc : c = 2 ^ f.fw * q + m := (Nat.div_add_mod _ _).symm
  have hml : m < 2 ^ f.fw := Nat.mod_lt _ h2
  by_cases hlt : m + 1 < 2 ^ f.fw
  · have e1 : (c + 1) / 2 ^ f.fw = q := by
      rw [hc, add_assoc, Nat.mul_add_div h2, Nat.div_eq_of_lt hlt, add_zero]
    have e2 : (c + 1) % 2 ^ f.fw = m + 1 := by
      rw [hc, add_assoc, Nat.mul_add_mod, Nat.mod_eq_of_lt hlt]
    simp only [codeVal, e1, e2, ← hq, ← hm]
    split
    · exact mul_lt_mul_of_pos_right (by push_cast; linarith) (by positivity)
    · exact mul_lt_mul_of_pos_right (by push_cast; linarith) (by positivity)
  · have hmm : m + 1 = 2 ^ f.fw := by omega
    have e0 : c + 1 = 2 ^ f.fw * (q + 1) := by rw [mul_add, mul_one]; omega
    have e1 : (c + 1) / 2 ^ f.fw = q + 1 := by rw [e0, Nat.mul_div_cancel_left _ h2]
    have e2 : (c + 1) % 2 ^ f.fw = 0 := by rw [e0, Nat.mul_mod_right]
    have hmr : (m : ℝ) + 1 = 2 ^ f.fw := by exact_mod_cast hmm
    simp only [codeVal, e1, e2, ← hq, ← hm, Nat.add_zero, Nat.succ_ne_zero, if_false]
    split
    · rename_i hz
      rw [hz, FpFmt.emin]
      simp only [zero_add, Nat.cast_one]
      exact mul_lt_mul_of_pos_right (by push_cast; linarith) (by positivity)
    · have : (2 : ℝ) ^ (((q + 1 : Nat) : Int) - f.bias - f.fw) = 2 * 2 ^ ((q : Int) - f.bias - f.fw) := by
        rw [← zpow_one_add₀ (by norm_num)]; congr 1; push_cast; ring
      rw [this]
      have hp : (0 : ℝ) < 2 ^ ((q : Int) - f.bias - f.fw) := by positivity
      push_cast
      nlinarith

/-- The sign bit of a code. -/
def signBit (f : FpFmt) (neg : Bool) : Nat := if neg then 2 ^ (f.ew + f.fw) else 0

/-- A code up to the largest finite one stands for its magnitude, with its sign. -/
theorem dec_code (f : FpFmt) (hf : Good f) (neg : Bool) (c : Nat) (hc : c ≤ f.maxCode) :
    (f.dec (signBit f neg + c)).isFin = true ∧ (f.dec (signBit f neg + c)).neg = neg ∧
    |(f.dec (signBit f neg + c)).real| = codeVal f c := by
  have hlt : c < 2 ^ (f.ew + f.fw) := lt_of_le_of_lt hc hf.top
  have h2 : 0 < 2 ^ f.fw := by positivity
  have hs : (signBit f neg + c) / 2 ^ (f.ew + f.fw) % 2 = if neg then 1 else 0 := by
    cases neg
    · simp [signBit, Nat.div_eq_of_lt hlt]
    · simp only [signBit, if_true]
      rw [Nat.add_div_left _ (by positivity), Nat.div_eq_of_lt hlt]
  have hq : c / 2 ^ f.fw < 2 ^ f.ew := by
    rw [Nat.div_lt_iff_lt_mul h2, ← pow_add]
    exact hlt
  have he : (signBit f neg + c) / 2 ^ f.fw % 2 ^ f.ew = c / 2 ^ f.fw := by
    cases neg
    · simp [signBit, Nat.mod_eq_of_lt hq]
    · simp only [signBit, if_true, pow_add]
      rw [mul_comm, Nat.mul_add_div h2, Nat.add_mod_left, Nat.mod_eq_of_lt hq]
  have hr : (signBit f neg + c) % 2 ^ f.fw = c % 2 ^ f.fw := by
    cases neg
    · simp [signBit]
    · simp only [signBit, if_true, pow_add]
      rw [mul_comm, Nat.mul_add_mod]
  obtain ⟨n1, n2⟩ := hf.fin c hc
  have hneg : decide ((signBit f neg + c) / 2 ^ (f.ew + f.fw) % 2 = 1) = neg := by rw [hs]; cases neg <;> simp
  simp only [FpFmt.dec, he, hr, if_neg n1, if_neg n2, hneg]
  have sgn : ∀ (m : Nat) (e : Int), |(FVal.fin neg m e).real| = m * (2 : ℝ) ^ e := by
    intro m e
    have hp : (0 : ℝ) ≤ m * (2 : ℝ) ^ e := by positivity
    cases neg <;> simp [FVal.real, abs_of_nonneg hp]
  split
  · rename_i hz
    refine ⟨rfl, rfl, ?_⟩
    rw [sgn]; simp [codeVal, hz]
  · rename_i hz
    refine ⟨rfl, rfl, ?_⟩
    rw [sgn]; simp only [codeVal, hz, if_false]

/-- A packed number of the format's grid has the code of its magnitude. -/
theorem pack_code (f : FpFmt) (neg : Bool) (k : Nat) (u : Int) (hk : k ≠ 0) (hk2 : k ≤ 2 ^ (f.fw + 1)) (hu : f.emin - f.fw ≤ u) :
    ∃ c, f.pack neg k u = signBit f neg + c ∧ codeVal f c = k * (2 : ℝ) ^ u := by
  have h2 : 0 < 2 ^ f.fw := by positivity
  have hlo : 2 ^ Nat.log2 k ≤ k := Nat.log2_self_le hk
  have hhi : k < 2 ^ (Nat.log2 k + 1) := Nat.lt_log2_self
  set l := Nat.log2 k with hl
  simp only [FpFmt.pack, hk, if_false, ← hl]
  by_cases hx : (l : Int) + u < f.emin
  · simp only [hx, if_true, hu]
    have hfr : k * 2 ^ (u - (f.emin - f.fw)).toNat < 2 ^ f.fw := by
      calc k * 2 ^ (u - (f.emin - f.fw)).toNat < 2 ^ (l + 1) * 2 ^ (u - (f.emin - f.fw)).toNat := by
            exact Nat.mul_lt_mul_of_pos_right hhi (by positivity)
        _ = 2 ^ (l + 1 + (u - (f.emin - f.fw)).toNat) := by rw [← pow_add]
        _ ≤ 2 ^ f.fw := Nat.pow_le_pow_right (by norm_num) (by omega)
    refine ⟨_, rfl, ?_⟩
    simp only [codeVal, Nat.div_eq_of_lt hfr, Nat.mod_eq_of_lt hfr, if_true]
    push_cast
    rw [mul_assoc, ← zpow_natCast, ← zpow_add₀ (by norm_num)]
    congr 2
    omega
  · simp only [hx, if_false]
    have hlf : l ≤ f.fw + 1 := by
      by_contra h
      have : 2 ^ (f.fw + 2) ≤ 2 ^ l := Nat.pow_le_pow_right (by norm_num) (by omega)
      have : 2 ^ (f.fw + 2) = 2 * 2 ^ (f.fw + 1) := by rw [pow_succ]; ring
      have : 0 < 2 ^ (f.fw + 1) := by positivity
      omega
    have key : ∀ fr : Nat, 2 ^ f.fw ≤ fr → fr < 2 ^ (f.fw + 1) → (fr : ℝ) * 2 ^ ((l : Int) + u - f.fw) = k * (2 : ℝ) ^ u →
        ∃ c, signBit f neg + ((l : Int) + u + f.bias).toNat * 2 ^ f.fw + (fr - 2 ^ f.fw) = signBit f neg + c ∧
          codeVal f c = k * (2 : ℝ) ^ u := by
      intro fr h1 h3 h4
      refine ⟨((l : Int) + u + f.bias).toNat * 2 ^ f.fw + (fr - 2 ^ f.fw), by omega, ?_⟩
      have hrl : fr - 2 ^ f.fw < 2 ^ f.fw := by rw [pow_succ] at h3; omega
      have hpos : 1 ≤ (l : Int) + u + f.bias := by simp only [FpFmt.emin] at hx; omega
      have hd : (((l : Int) + u + f.bias).toNat * 2 ^ f.fw + (fr - 2 ^ f.fw)) / 2 ^ f.fw = ((l : Int) + u + f.bias).toNat := by
        rw [mul_comm, Nat.mul_add_div h2, Nat.div_eq_of_lt hrl, add_zero]
      have hm : (((l : Int) + u + f.bias).toNat * 2 ^ f.fw + (fr - 2 ^ f.fw)) % 2 ^ f.fw = fr - 2 ^ f.fw := by
        rw [mul_comm, Nat.mul_add_mod, Nat.mod_eq_of_lt hrl]
      have hne : ((l : Int) + u + f.bias).toNat ≠ 0 := by omega
      simp only [codeVal, hd, hm, hne, if_false]
      rw [show 2 ^ f.fw + (fr - 2 ^ f.fw) = fr by omega, ← h4]
      congr 2
      rw [Int.toNat_of_nonneg (by omega)]
      ring
    by_cases hg : (l : Int) + u - f.fw ≤ u
    · simp only [hg, if_true]
      have hlf : l ≤ f.fw := by omega
      have hsh : (u - ((l : Int) + u - f.fw)).toNat = f.fw - l := by omega
      rw [hsh]
      apply key
      · calc 2 ^ f.fw = 2 ^ l * 2 ^ (f.fw - l) := by rw [← pow_add]; congr 1; omega
          _ ≤ k * 2 ^ (f.fw - l) := Nat.mul_le_mul_right _ hlo
      · calc k * 2 ^ (f.fw - l) < 2 ^ (l + 1) * 2 ^ (f.fw - l) := Nat.mul_lt_mul_of_pos_right hhi (by positivity)
          _ = 2 ^ (f.fw + 1) := by rw [← pow_add]; congr 1; omega
      · push_cast
        rw [mul_assoc, ← zpow_natCast, ← zpow_add₀ (by norm_num)]
        congr 2
        omega
    · simp only [hg, if_false]
      have hl1 : l = f.fw + 1 := by omega
      have hk1 : k = 2 ^ (f.fw + 1) := le_antisymm hk2 (by rw [← hl1]; exact hlo)
      have hsh : ((l : Int) + u - f.fw - u).toNat = 1 := by omega
      have hdv : k / 2 ^ 1 = 2 ^ f.fw := by rw [hk1, pow_succ]; omega
      rw [hsh, hdv]
      apply key _ le_rfl (by rw [pow_succ]; omega)
      rw [hk1]
      push_cast
      rw [← zpow_natCast, ← zpow_natCast, ← zpow_add₀ (by norm_num), ← zpow_add₀ (by norm_num)]
      congr 1
      omega

/-! ## Rounding into a format -/

/-- The leading bit of an exact real is that of the magnitude it stands for. -/
theorem expoOf_exact (x : Exact) (v : ℝ) (hv : Holds x v) (hm : x.m ≠ 0) : 0 < v ∧ expoOf v = (Nat.log2 x.m : Int) + x.e := by
  have hlo : 2 ^ Nat.log2 x.m ≤ x.m := Nat.log2_self_le hm
  have hhi : x.m + 1 ≤ 2 ^ (Nat.log2 x.m + 1) := Nat.lt_log2_self
  have hlo' : (2 : ℝ) ^ Nat.log2 x.m ≤ x.m := by exact_mod_cast hlo
  have hhi' : (x.m : ℝ) + 1 ≤ 2 ^ (Nat.log2 x.m + 1) := by exact_mod_cast hhi
  have pe : (0 : ℝ) < 2 ^ x.e := by positivity
  have bounds : x.m * (2 : ℝ) ^ x.e ≤ v ∧ v < (x.m + 1) * (2 : ℝ) ^ x.e := by
    cases h : x.sticky
    · have := hv.1 h
      exact ⟨this.ge, by rw [this]; nlinarith⟩
    · have := hv.2 h
      exact ⟨this.1.le, this.2⟩
  have b1 : (2 : ℝ) ^ ((Nat.log2 x.m : Int) + x.e) ≤ v := by
    rw [zpow_add₀ (by norm_num), zpow_natCast]
    exact le_trans (mul_le_mul_of_nonneg_right hlo' pe.le) bounds.1
  have b2 : v < (2 : ℝ) ^ ((Nat.log2 x.m : Int) + x.e + 1) := by
    rw [show (Nat.log2 x.m : Int) + x.e + 1 = ((Nat.log2 x.m + 1 : Nat) : Int) + x.e by push_cast; ring, zpow_add₀ (by norm_num), zpow_natCast]
    exact lt_of_lt_of_le bounds.2 (mul_le_mul_of_nonneg_right hhi' pe.le)
  have pv : 0 < v := lt_of_lt_of_le (by positivity) b1
  refine ⟨pv, ?_⟩
  rw [expoOf, abs_of_pos pv]
  apply le_antisymm
  · have := (Int.lt_zpow_iff_log_lt (b := 2) (by norm_num) pv).1 (by exact_mod_cast b2)
    omega
  · exact (Int.zpow_le_iff_le_log (b := 2) (by norm_num) pv).1 (by exact_mod_cast b1)

/-- A rounded magnitude lies less than one step away. -/
theorem Nearest.near {r : Rnd} {neg : Bool} {x : ℝ} {k : Nat} (h : Nearest r neg x k) : (k : ℝ) < x + 1 ∧ x < k + 1 := by
  cases r with
  | dyn => exact h.elim
  | rtz => exact ⟨by have := h.1; linarith, h.2⟩
  | rup => cases neg <;> simp only [Nearest] at h <;> constructor <;> (try norm_num at h) <;> linarith [h.1, h.2]
  | rdn => cases neg <;> simp only [Nearest] at h <;> constructor <;> (try norm_num at h) <;> linarith [h.1, h.2]
  | rne => have := abs_le.1 h.1; constructor <;> linarith [this.1, this.2]
  | rna => have := abs_le.1 h.1; constructor <;> linarith [this.1, this.2]

/-- The bounds of a decoded finite value's integer and exponent. -/
theorem dec_bounds (f : FpFmt) (b : Nat) (n : Bool) (m : Nat) (e : Int) (h : f.dec b = .fin n m e) : m < 2 ^ (f.fw + 1) ∧ f.emin - f.fw ≤ e := by
  have hfr : b % 2 ^ f.fw < 2 ^ f.fw := Nat.mod_lt _ (by positivity)
  simp only [FpFmt.dec] at h
  split at h
  · split at h <;> cases h
  · split at h
    · cases h
    · split at h
      · simp only [FVal.fin.injEq] at h
        obtain ⟨-, rfl, rfl⟩ := h
        exact ⟨by rw [pow_succ]; omega, le_rfl⟩
      · rename_i he
        simp only [FVal.fin.injEq] at h
        obtain ⟨-, rfl, rfl⟩ := h
        refine ⟨by rw [pow_succ]; omega, ?_⟩
        have : 1 ≤ b / 2 ^ f.fw % 2 ^ f.ew := by omega
        have : (1 : Int) ≤ ((b / 2 ^ f.fw % 2 ^ f.ew : Nat) : Int) := by exact_mod_cast this
        simp only [FpFmt.emin]
        omega

/-- The largest finite code stands for a finite value. -/
theorem dec_top (f : FpFmt) (hf : Good f) : ∃ n m e, f.dec f.maxCode = .fin n m e ∧ m * (2 : ℝ) ^ e = codeVal f f.maxCode := by
  obtain ⟨h1, -, h3⟩ := dec_code f hf false f.maxCode le_rfl
  simp only [signBit, Bool.false_eq_true, if_false, zero_add] at h1 h3
  cases hd : f.dec f.maxCode with
  | nan _ => rw [hd] at h1; cases h1
  | inf _ => rw [hd] at h1; cases h1
  | fin n m e =>
    refine ⟨n, m, e, rfl, ?_⟩
    rw [← h3, hd]
    have hp : (0 : ℝ) ≤ m * (2 : ℝ) ^ e := by positivity
    cases n <;> simp [FVal.real, abs_of_nonneg hp]

/-- A code with its sign fits the word that carries it. -/
theorem code_fits (f : FpFmt) (hf : Good f) (neg : Bool) (c : Nat) (hc : c ≤ f.maxCode) :
    (BitVec.ofNat 64 (signBit f neg + c)).toNat = signBit f neg + c := by
  rw [BitVec.toNat_ofNat]
  apply Nat.mod_eq_of_lt
  have h1 := lt_of_le_of_lt hc hf.top
  have h2 : 2 ^ (f.ew + f.fw + 1) ≤ 2 ^ 64 := Nat.pow_le_pow_right (by norm_num) (by have := hf.wide; omega)
  rw [pow_succ] at h2
  cases neg <;> simp [signBit] <;> omega

/-- Comparing two scaled integers on their common grid compares what they stand for. -/
theorem scaled_lt (a : Nat) (u : Int) (b : Nat) (w : Int) :
    (b * 2 ^ (w - min u w).toNat < a * 2 ^ (u - min u w).toNat) ↔ (b : ℝ) * (2 : ℝ) ^ w < a * (2 : ℝ) ^ u := by
  have key : ∀ (c : Nat) (z : Int), min u w ≤ z → (c : ℝ) * (2 : ℝ) ^ z = ((c * 2 ^ (z - min u w).toNat : Nat) : ℝ) * 2 ^ (min u w) := by
    intro c z hz
    push_cast
    rw [mul_assoc, ← zpow_natCast, ← zpow_add₀ (by norm_num)]
    congr 2
    omega
  rw [key a u (min_le_left _ _), key b w (min_le_right _ _), mul_lt_mul_iff_left₀ (by positivity), Nat.cast_lt]

/-- R36 and R37 for a magnitude that is not zero: the nearest multiple of the format's grid, what it is packed into or what it overflows to, and
the flags. -/
theorem round_core (f : FpFmt) (hf : Good f) (r : Rnd) (hr : r ≠ .dyn) (x : Exact) (v : ℝ) (hv : Holds x v) (hm : x.m ≠ 0)
    (hs : x.sticky = true → x.e < expoOf v - f.p + 1) :
    ∃ k k0 : Nat, Nearest r x.neg (v / 2 ^ f.gridAt v) k ∧ Nearest r x.neg (v / 2 ^ (expoOf v - f.p + 1)) k0 ∧
      (codeVal f f.maxCode < k * (2 : ℝ) ^ f.gridAt v → f.round f.p r x =
        ⟨if f.kind = .ieee then overflowTo f r x.neg else BitVec.ofNat 64 (signBit f x.neg + f.maxCode), fOF ||| fNX, true, true⟩) ∧
      (k * (2 : ℝ) ^ f.gridAt v ≤ codeVal f f.maxCode →
        ∃ c ≤ f.maxCode, (f.round f.p r x).bits.toNat = signBit f x.neg + c ∧ codeVal f c = k * (2 : ℝ) ^ f.gridAt v ∧
          (f.round f.p r x).ovf = false ∧ ((f.round f.p r x).inexact = false ↔ k * (2 : ℝ) ^ f.gridAt v = v) ∧
          (k * (2 : ℝ) ^ f.gridAt v = v → (f.round f.p r x).flags = 0) ∧
          (k * (2 : ℝ) ^ f.gridAt v ≠ v → (k0 : ℝ) * 2 ^ (expoOf v - f.p + 1) < 2 ^ f.emin → (f.round f.p r x).flags = fUF ||| fNX) ∧
          (k * (2 : ℝ) ^ f.gridAt v ≠ v → (2 : ℝ) ^ f.emin ≤ (k0 : ℝ) * 2 ^ (expoOf v - f.p + 1) → (f.round f.p r x).flags = fNX)) := by
  obtain ⟨pv, he⟩ := expoOf_exact x v hv hm
  obtain ⟨n, tm, te, hd, htop⟩ := dec_top f hf
  set u0 : Int := expoOf v - f.p + 1 with hu0
  set u : Int := f.gridAt v with hu
  have hmax : u = max u0 (f.emin - f.fw) := rfl
  have hle : u0 ≤ u := le_max_left _ _
  have hge : f.emin - f.fw ≤ u := le_max_right _ _
  have hs1 : x.sticky = true → x.e < u := fun h => lt_of_lt_of_le (hs h) hle
  obtain ⟨hn, hl⟩ := roundAt_spec r hr x v hv u hs1
  obtain ⟨hn0, -⟩ := roundAt_spec r hr x v hv u0 hs
  set k := (roundAt r x u).1 with hk
  set lost := (roundAt r x u).2 with hlost
  set k0 := (roundAt r x u0).1 with hk0
  have hif : (if ((Nat.log2 x.m : Int) + x.e - f.p + 1) < f.emin - f.fw then f.emin - f.fw else (Nat.log2 x.m : Int) + x.e - f.p + 1) = u := by
    rw [hmax, hu0, he]
    split <;> omega
  have hu0' : (Nat.log2 x.m : Int) + x.e - f.p + 1 = u0 := by rw [hu0, he]
  have hcmp := scaled_lt k u tm te
  rw [htop] at hcmp
  have htiny : (if k0 = 0 then true else decide ((Nat.log2 k0 : Int) + u0 < f.emin)) = true ↔ (k0 : ℝ) * 2 ^ u0 < 2 ^ f.emin := by
    by_cases hz : k0 = 0
    · simp only [hz, if_true, true_iff, Nat.cast_zero, zero_mul]
      positivity
    · simp only [hz, if_false, decide_eq_true_eq]
      have a1 : (2 : ℝ) ^ Nat.log2 k0 ≤ k0 := by exact_mod_cast Nat.log2_self_le hz
      have a2 : (k0 : ℝ) < 2 ^ (Nat.log2 k0 + 1) := by exact_mod_cast Nat.lt_log2_self
      have pu : (0 : ℝ) < 2 ^ u0 := by positivity
      constructor
      · intro h
        calc (k0 : ℝ) * 2 ^ u0 < 2 ^ (Nat.log2 k0 + 1) * 2 ^ u0 := mul_lt_mul_of_pos_right a2 pu
          _ = (2 : ℝ) ^ (((Nat.log2 k0 + 1 : Nat) : Int) + u0) := by rw [zpow_add₀ (by norm_num) ((Nat.log2 k0 + 1 : Nat) : Int) u0, zpow_natCast]
          _ ≤ 2 ^ f.emin := zpow_le_zpow_right₀ (by norm_num) (by push_cast; omega)
      · intro h
        by_contra hn
        have : (2 : ℝ) ^ f.emin ≤ 2 ^ ((Nat.log2 k0 : Int) + u0) := zpow_le_zpow_right₀ (by norm_num) (by omega)
        rw [zpow_add₀ (by norm_num), zpow_natCast] at this
        nlinarith
  have hround : f.round f.p r x =
      if k * 2 ^ (u - min u te).toNat > tm * 2 ^ (te - min u te).toNat then
        ⟨if f.kind = .ieee then overflowTo f r x.neg else BitVec.ofNat 64 (signBit f x.neg + f.maxCode), fOF ||| fNX, true, true⟩
      else ⟨BitVec.ofNat 64 (f.pack x.neg k u), (if lost then fNX else 0) ||| (if lost && (if k0 = 0 then true else
        decide ((Nat.log2 k0 : Int) + u0 < f.emin)) then fUF else 0), lost, false⟩ := by
    rw [FpFmt.round, if_neg (by simp [hm])]
    simp only [hu0', hd]
    rw [hu0'] at hif
    rw [hif]
    rfl
  refine ⟨k, k0, hn, hn0, ?_, ?_⟩
  · intro h
    rw [hround, if_pos (hcmp.2 h)]
  · intro h
    rw [hround, if_neg (fun c => absurd (hcmp.1 c) (not_lt.2 h))]
    have hcode : ∃ c ≤ f.maxCode, f.pack x.neg k u = signBit f x.neg + c ∧ codeVal f c = k * (2 : ℝ) ^ u := by
      by_cases hz : k = 0
      · refine ⟨0, Nat.zero_le _, by simp [FpFmt.pack, hz, signBit], by simp [codeVal, hz]⟩
      · have hk2 : k ≤ 2 ^ (f.fw + 1) := by
          have h1 := (Nearest.near (r := r) (neg := x.neg) hn).1
          have h2 : v / 2 ^ u < 2 ^ (f.fw + 1) := by
            rw [div_lt_iff₀ (by positivity)]
            have h3 : v < (2 : ℝ) ^ (expoOf v + 1) := by
              have := (Int.lt_zpow_iff_log_lt (b := 2) (by norm_num) pv (x := expoOf v + 1)).2 (by rw [expoOf, abs_of_pos pv]; omega)
              exact_mod_cast this
            refine lt_of_lt_of_le h3 ?_
            rw [← zpow_natCast, ← zpow_add₀ (by norm_num)]
            apply zpow_le_zpow_right₀ (by norm_num)
            have : (f.p : Int) = f.fw + 1 := by simp [FpFmt.p]
            push_cast
            omega
          have h4 : (k : ℝ) < ((2 ^ (f.fw + 1) + 1 : Nat) : ℝ) := by push_cast; linarith
          have := Nat.cast_lt.1 h4
          omega
        obtain ⟨c, h1, h2⟩ := pack_code f x.neg k u hz hk2 hge
        refine ⟨c, ?_, h1, h2⟩
        rw [← (codeVal_strictMono f).le_iff_le, h2]
        exact h
    obtain ⟨c, hc, h1, h2⟩ := hcode
    refine ⟨c, hc, by rw [h1]; exact code_fits f hf x.neg c hc, h2, rfl, hl, ?_, ?_, ?_⟩
    · intro e
      simp [hl.2 e]
    · intro e t
      have : lost = true := by
        by_contra hne
        exact e (hl.1 (by simpa using hne))
      simp only [this, htiny.2 t, Bool.and_self, if_true]
      decide
    · intro e t
      have : lost = true := by
        by_contra hne
        exact e (hl.1 (by simpa using hne))
      have ht : (if k0 = 0 then true else decide ((Nat.log2 k0 : Int) + u0 < f.emin)) = false := by
        by_contra hne
        have := htiny.1 ((Bool.not_eq_false _).mp hne)
        linarith
      simp [this, ht]

/-- Infinity's code stands for infinity. -/
theorem dec_inf (e w : Nat) (h : e + w < 64) (neg : Bool) :
    (⟨e, w, .ieee⟩ : FpFmt).dec ((⟨e, w, .ieee⟩ : FpFmt).inf neg).toNat = .inf neg := by
  have h1 : 1 ≤ 2 ^ e := Nat.one_le_two_pow
  have h2 : 0 < 2 ^ w := by positivity
  have hlt : (2 ^ e - 1) * 2 ^ w < 2 ^ (e + w) := by
    rw [pow_add]
    exact Nat.mul_lt_mul_of_pos_right (by omega) h2
  have h64 : 2 ^ (e + w + 1) ≤ 2 ^ 64 := Nat.pow_le_pow_right (by norm_num) (by omega)
  rw [pow_succ] at h64
  have hn : ((⟨e, w, .ieee⟩ : FpFmt).inf neg).toNat = (if neg then 2 ^ (e + w) else 0) + (2 ^ e - 1) * 2 ^ w := by
    simp only [FpFmt.inf, BitVec.toNat_ofNat]
    apply Nat.mod_eq_of_lt
    cases neg <;> simp <;> omega
  rw [hn]
  have a1 : ((if neg then 2 ^ (e + w) else 0) + (2 ^ e - 1) * 2 ^ w) / 2 ^ w % 2 ^ e = 2 ^ e - 1 := by
    cases neg
    · simp [Nat.mul_div_cancel _ h2, Nat.mod_eq_of_lt (show 2 ^ e - 1 < 2 ^ e by omega)]
    · simp only [if_true, pow_add, ← add_mul]
      rw [Nat.mul_div_cancel _ h2, Nat.add_mod_left, Nat.mod_eq_of_lt (by omega)]
  have a2 : ((if neg then 2 ^ (e + w) else 0) + (2 ^ e - 1) * 2 ^ w) % 2 ^ w = 0 := by
    cases neg
    · simp
    · simp only [if_true, pow_add, ← add_mul]
      exact Nat.mul_mod_left _ _
  have a3 : decide (((if neg then 2 ^ (e + w) else 0) + (2 ^ e - 1) * 2 ^ w) / 2 ^ (e + w) % 2 = 1) = neg := by
    cases neg
    · simp [Nat.div_eq_of_lt hlt]
    · simp only [if_true]
      rw [Nat.add_div_left _ (by positivity), Nat.div_eq_of_lt hlt]
      simp
  simp only [FpFmt.dec, a1, a2, a3]
  simp

/-- R36, R37: an exact real rounded into a format that has infinities, and whether it changed. -/
theorem round_rounds (e w : Nat) (he : 1 ≤ e) (hw : 1 ≤ w) (h64 : e + w < 64) (r : Rnd) (hr : r ≠ .dyn) (x : Exact) (v : ℝ)
    (hv : Holds x |v|) (hn : v ≠ 0 → (x.neg = true ↔ v < 0)) (hm : v ≠ 0 → x.m ≠ 0)
    (hs : x.sticky = true → x.e < expoOf v - (w + 1 : Nat) + 1) :
    let f : FpFmt := ⟨e, w, .ieee⟩
    let q := f.round f.p r x
    f.Rounds r v x.neg q.bits q.flags ∧
    ((f.dec q.bits.toNat).isFin = true → (q.inexact = false ↔ (f.dec q.bits.toNat).real = v)) := by
  intro f q
  have hf : Good f := good_ieee e w he hw h64
  have hexp : expoOf |v| = expoOf v := by simp [expoOf]
  have hgrid : f.gridAt |v| = f.gridAt v := by simp [FpFmt.gridAt, hexp]
  have htop : (f.dec f.maxCode).real = codeVal f f.maxCode := by
    obtain ⟨h1, h2, h3⟩ := dec_code f hf false f.maxCode le_rfl
    simp only [signBit, Bool.false_eq_true, if_false, zero_add] at h1 h2 h3
    rw [← h3]
    cases hd : f.dec f.maxCode with
    | nan _ => rw [hd] at h1; cases h1
    | inf _ => rw [hd] at h1; cases h1
    | fin n m e =>
      rw [hd] at h2
      have hp : (0 : ℝ) ≤ m * (2 : ℝ) ^ e := by positivity
      have : n = false := h2
      simp [FVal.real, this, abs_of_nonneg hp]
  by_cases hz : v = 0
  · have hmz : x.m = 0 ∧ x.sticky = false := by
      rw [hz, abs_zero] at hv
      have pe : (0 : ℝ) < 2 ^ x.e := by positivity
      cases hst : x.sticky
      · have := hv.1 hst
        refine ⟨?_, rfl⟩
        have : (x.m : ℝ) = 0 := by
          rcases mul_eq_zero.1 this.symm with h | h
          · exact h
          · exact absurd h pe.ne'
        exact_mod_cast this
      · have := (hv.2 hst).1
        have : (0 : ℝ) ≤ x.m * 2 ^ x.e := by positivity
        linarith
    have hq : q = ⟨BitVec.ofNat 64 (f.pack x.neg 0 0), 0, false, false⟩ := by
      simp only [q, FpFmt.round, hmz, Bool.not_false, and_self, if_true]
    have hpk : f.pack x.neg 0 0 = signBit f x.neg + 0 := by simp [FpFmt.pack, signBit]
    have hbits : q.bits.toNat = signBit f x.neg + 0 := by
      rw [hq, hpk]
      exact code_fits f hf x.neg 0 (Nat.zero_le _)
    obtain ⟨h1, h2, h3⟩ := dec_code f hf x.neg 0 (Nat.zero_le _)
    rw [← hbits] at h1 h2 h3
    have h3' : (f.dec q.bits.toNat).real = 0 := by
      have : codeVal f 0 = 0 := by simp [codeVal]
      rw [this] at h3
      exact abs_eq_zero.1 h3
    have hzero : (f.dec q.bits.toNat).isZero = true := by
      cases hd : f.dec q.bits.toNat with
      | nan _ => rw [hd] at h1; cases h1
      | inf _ => rw [hd] at h1; cases h1
      | fin n m e =>
        rw [hd] at h3'
        have pe : (2 : ℝ) ^ e ≠ 0 := by positivity
        have : (m : ℝ) = 0 := by
          cases n <;> simpa [FVal.real, pe] using h3'
        simpa [FVal.isZero] using this
    refine ⟨⟨fun _ => ⟨hzero, h2, by rw [hq]⟩, fun hne => absurd hz hne⟩, fun _ => ?_⟩
    rw [h3', hz, hq]
    simp
  · have hpos : 0 < |v| := abs_pos.2 hz
    obtain ⟨k, k0, hk, hk0, hover, hin⟩ := round_core f hf r hr x |v| hv (hm hz) (by rw [hexp]; exact hs)
    rw [hgrid] at hk hover hin
    rw [hexp] at hk0
    simp only [hexp] at hin
    constructor
    · refine ⟨fun c => absurd c hz, fun _ => ⟨x.neg, k, k0, hn hz, hk, hk0, ?_, ?_⟩⟩
      · intro hlt
        rw [htop] at hlt
        have hq : q = ⟨overflowTo f r x.neg, fOF ||| fNX, true, true⟩ := hover hlt
        refine ⟨by rw [hq], ?_⟩
        obtain ⟨h1, h2, h3⟩ := dec_code f hf x.neg f.maxCode le_rfl
        rw [← code_fits f hf x.neg f.maxCode le_rfl] at h1 h2 h3
        have hinf := dec_inf e w h64 x.neg
        rw [hq, htop]
        cases r with
        | dyn => exact absurd rfl hr
        | rtz => exact ⟨h1, h2, h3⟩
        | rne => exact hinf
        | rna => exact hinf
        | rup =>
          cases hneg : x.neg
          · rw [hneg] at hinf; exact hinf
          · rw [hneg] at h1 h2 h3; exact ⟨h1, h2, h3⟩
        | rdn =>
          cases hneg : x.neg
          · rw [hneg] at h1 h2 h3; exact ⟨h1, h2, h3⟩
          · rw [hneg] at hinf; exact hinf
      · intro hle
        rw [htop] at hle
        obtain ⟨c, hc, hb, hcv, -, -, g1, g2, g3⟩ := hin hle
        obtain ⟨h1, h2, h3⟩ := dec_code f hf x.neg c hc
        rw [← hb] at h1 h2 h3
        exact ⟨h1, h2, h3.trans hcv, g1, g2, g3⟩
    · intro hfin
      by_cases hle : k * (2 : ℝ) ^ f.gridAt v ≤ codeVal f f.maxCode
      · obtain ⟨c, hc, hb, hcv, -, hx, -⟩ := hin hle
        obtain ⟨h1, h2, h3⟩ := dec_code f hf x.neg c hc
        rw [← hb] at h1 h2 h3
        rw [show q.inexact = false ↔ _ from hx, ← hcv, ← h3]
        change |(f.dec q.bits.toNat).real| = |v| ↔ _
        constructor
        · intro hab
          cases hd : f.dec q.bits.toNat with
          | nan _ => rw [hd] at hfin; cases hfin
          | inf _ => rw [hd] at hfin; cases hfin
          | fin n m ex =>
            have h2' : (f.dec q.bits.toNat).neg = x.neg := h2
            rw [hd] at h2' hab
            have hp : (0 : ℝ) ≤ m * (2 : ℝ) ^ ex := by positivity
            have hne : n = x.neg := h2'
            cases n
            · have : ¬ v < 0 := fun c => by have := (hn hz).2 c; rw [← hne] at this; cases this
              simp only [FVal.real, Bool.false_eq_true, if_false, one_mul, abs_of_nonneg hp] at hab ⊢
              rw [hab, abs_of_nonneg (not_lt.1 this)]
            · have : v < 0 := (hn hz).1 hne.symm
              simp only [FVal.real, if_true, neg_mul, one_mul, abs_neg, abs_of_nonneg hp] at hab ⊢
              rw [hab, abs_of_neg this, neg_neg]
        · intro h; rw [h]
      · have hlt : codeVal f f.maxCode < k * (2 : ℝ) ^ f.gridAt v := not_le.1 hle
        have hq : q = ⟨overflowTo f r x.neg, fOF ||| fNX, true, true⟩ := hover hlt
        obtain ⟨h1, h2, h3⟩ := dec_code f hf x.neg f.maxCode le_rfl
        rw [← code_fits f hf x.neg f.maxCode le_rfl] at h1 h2 h3
        constructor
        · intro c; rw [hq] at c; cases c
        intro hreal
        exfalso
        have hab : |(f.dec q.bits.toNat).real| = codeVal f f.maxCode := by
          have hinf := dec_inf e w h64 x.neg
          have : q.bits = overflowTo f r x.neg := by rw [hq]
          rw [this] at hfin ⊢
          have two : overflowTo f r x.neg = f.inf x.neg ∨ overflowTo f r x.neg = BitVec.ofNat 64 (signBit f x.neg + f.maxCode) := by
            simp only [overflowTo, signBit]
            cases r <;> simp <;> cases x.neg <;> simp
          rcases two with h | h
          · rw [h, hinf] at hfin; cases hfin
          · rw [h]; exact h3
        rw [hreal] at hab
        have hgridtop : |v| = codeVal f f.maxCode := hab
        -- |v| is itself the grid's largest number, and it is not rounded up
        obtain ⟨n, tm, te, hd, ht⟩ := dec_top f hf
        obtain ⟨hb1, hb2⟩ := dec_bounds f _ n tm te hd
        have hv1 : ∃ j : Nat, |v| / 2 ^ f.gridAt v = j := by
          have hH : Holds ⟨false, tm, te, false⟩ |v| := ⟨fun _ => by rw [hgridtop, ← ht], fun c => by cases c⟩
          have hne : tm ≠ 0 := by
            rintro rfl
            rw [hgridtop, ← ht] at hpos
            simp at hpos
          have hex := (expoOf_exact _ _ hH hne).2
          rw [hexp] at hex
          have hl : Nat.log2 tm < f.fw + 1 := (Nat.log2_lt hne).2 hb1
          have hg : f.gridAt v ≤ te := by
            have : (f.p : Int) = f.fw + 1 := by simp [FpFmt.p]
            simp only [FpFmt.gridAt, max_le_iff]
            constructor
            · simp only at hex
              omega
            · exact hb2
          refine ⟨tm * 2 ^ (te - f.gridAt v).toNat, ?_⟩
          rw [hgridtop, ← ht, div_eq_iff (by positivity)]
          push_cast
          rw [mul_assoc, ← zpow_natCast, ← zpow_add₀ (by norm_num)]
          congr 2
          omega
        obtain ⟨j, hj⟩ := hv1
        have : k = j := by
          have a := Nearest.near hk
          rw [hj] at a
          have a1 : k < j + 1 := by exact_mod_cast a.1
          have a2 : j < k + 1 := by exact_mod_cast a.2
          omega
        rw [this, ← hj, div_mul_cancel₀ _ (by positivity), hgridtop] at hlt
        exact lt_irrefl _ hlt

/-! ## The exact results -/

/-- The real a finite value stands for, as an integer times a power of two. -/
theorem real_scaled (n : Bool) (m : Nat) (e g : Int) (h : g ≤ e) :
    (FVal.fin n m e).real = (((if n then -1 else 1) * (m * 2 ^ (e - g).toNat : Nat) : Int) : ℝ) * (2 : ℝ) ^ g := by
  have : (2 : ℝ) ^ e = 2 ^ (e - g).toNat * 2 ^ g := by
    rw [← zpow_natCast, ← zpow_add₀ (by norm_num)]
    congr 1
    omega
  cases n <;> simp only [FVal.real, this, if_true, Bool.false_eq_true, if_false] <;> push_cast <;> ring

/-- The magnitude of a finite value. -/
theorem abs_real (n : Bool) (m : Nat) (e : Int) : |(FVal.fin n m e).real| = m * (2 : ℝ) ^ e := by
  have hp : (0 : ℝ) ≤ m * (2 : ℝ) ^ e := by positivity
  cases n <;> simp [FVal.real, abs_of_nonneg hp]

/-- A finite value is zero when its integer is. -/
theorem real_eq_zero (n : Bool) (m : Nat) (e : Int) : (FVal.fin n m e).real = 0 ↔ m = 0 := by
  have pe : (2 : ℝ) ^ e ≠ 0 := by positivity
  cases n <;> simp [FVal.real, pe]

/-- A finite value that is not zero is negative when its sign is. -/
theorem real_neg (n : Bool) (m : Nat) (e : Int) (h : m ≠ 0) : n = true ↔ (FVal.fin n m e).real < 0 := by
  have hp : (0 : ℝ) < m * (2 : ℝ) ^ e := by
    have : (0 : ℝ) < m := by exact_mod_cast Nat.pos_of_ne_zero h
    positivity
  cases n <;> simp [FVal.real, hp, hp.le]

/-- What an exact real must meet so that `round_rounds` applies to the real v. -/
structure Stands (x : Exact) (v : ℝ) (p : Nat) : Prop where
  holds : Holds x |v|
  sign : v ≠ 0 → (x.neg = true ↔ v < 0)
  lead : v ≠ 0 → x.m ≠ 0
  enough : x.sticky = true → x.e < expoOf v - p + 1

/-- An integer times a power of two stands for itself. -/
theorem stands_fin (n : Bool) (m : Nat) (e : Int) (p : Nat) : Stands ⟨n, m, e, false⟩ (FVal.fin n m e).real p where
  holds := ⟨fun _ => abs_real n m e, fun c => by cases c⟩
  sign := fun h => real_neg n m e (fun c => h ((real_eq_zero n m e).2 c))
  lead := fun h c => h ((real_eq_zero n m e).2 c)
  enough := fun c => by cases c

/-- The exact sum stands for the sum, and a zero sum has the sign of R41. -/
theorem stands_add (r : Rnd) (xn : Bool) (xm : Nat) (xe : Int) (yn : Bool) (ym : Nat) (ye : Int) (p : Nat) :
    let X := FVal.fin xn xm xe
    let Y := FVal.fin yn ym ye
    let q := exactAdd r xn xm xe yn ym ye
    Stands q (X.real + Y.real) p ∧
    (X.real + Y.real = 0 → q.neg = if X.real = 0 ∧ Y.real = 0 ∧ xn = yn then xn else decide (r = .rdn)) := by
  intro X Y q
  set g := min xe ye with hg
  set t : Int := (if xn then -1 else 1) * (xm * 2 ^ (xe - g).toNat : Nat) + (if yn then -1 else 1) * (ym * 2 ^ (ye - g).toNat : Nat) with ht
  have hsum : X.real + Y.real = (t : ℝ) * 2 ^ g := by
    rw [real_scaled xn xm xe g (min_le_left _ _), real_scaled yn ym ye g (min_le_right _ _), ← add_mul, ht]
    push_cast
    ring
  have pg : (0 : ℝ) < 2 ^ g := by positivity
  have hz : X.real + Y.real = 0 ↔ t = 0 := by
    rw [hsum, mul_eq_zero]
    constructor
    · rintro (h | h)
      · exact_mod_cast h
      · exact absurd h pg.ne'
    · intro h; left; rw [h]; simp
  have hq : q = if t = 0 then ⟨if xm = 0 ∧ ym = 0 ∧ xn = yn then xn else r == .rdn, 0, 0, false⟩ else ⟨t < 0, t.natAbs, g, false⟩ := rfl
  by_cases h0 : t = 0
  · rw [if_pos h0] at hq
    have hs0 := hz.2 h0
    refine ⟨⟨⟨fun _ => ?_, fun c => by rw [hq] at c; cases c⟩, fun c => absurd hs0 c, fun c => absurd hs0 c, fun c => by rw [hq] at c; cases c⟩,
      fun _ => ?_⟩
    · rw [hs0, hq]; simp
    · rw [hq]
      simp only [real_eq_zero, X, Y]
      by_cases hc : xm = 0 ∧ ym = 0 ∧ xn = yn
      · rw [if_pos hc, if_pos hc]
      · rw [if_neg hc, if_neg hc]
        cases r <;> rfl
  · rw [if_neg h0] at hq
    have hab : |X.real + Y.real| = (t.natAbs : ℝ) * 2 ^ g := by
      rw [hsum, abs_mul, abs_of_pos pg, Nat.cast_natAbs, Int.cast_abs]
    have hlt : X.real + Y.real < 0 ↔ t < 0 := by
      rw [hsum]
      constructor
      · intro h
        by_contra hc
        have : (0 : ℝ) ≤ t := by exact_mod_cast not_lt.1 hc
        nlinarith
      · intro h
        have : (t : ℝ) < 0 := by exact_mod_cast h
        nlinarith
    refine ⟨⟨⟨fun _ => ?_, fun c => by rw [hq] at c; cases c⟩, fun _ => ?_, fun _ => ?_, fun c => by rw [hq] at c; cases c⟩,
      fun c => absurd (hz.1 c) h0⟩
    · rw [hq]; exact hab
    · rw [hq, hlt]; simp
    · rw [hq]; simp only [ne_eq, Int.natAbs_eq_zero]; exact h0

/-- The exact product is the product. -/
theorem real_mul (xn : Bool) (xm : Nat) (xe : Int) (yn : Bool) (ym : Nat) (ye : Int) :
    (FVal.fin (xn != yn) (xm * ym) (xe + ye)).real = (FVal.fin xn xm xe).real * (FVal.fin yn ym ye).real := by
  cases xn <;> cases yn <;> simp [FVal.real, zpow_add₀] <;> ring

/-- The exact quotient stands for the quotient. -/
theorem stands_div (xn : Bool) (xm : Nat) (xe : Int) (yn : Bool) (ym : Nat) (ye : Int) (p : Nat) (hp : p ≤ 100) (hy : ym ≠ 0) :
    Stands (exactDiv (xn != yn) xm xe ym ye) ((FVal.fin xn xm xe).real / (FVal.fin yn ym ye).real) p := by
  set X := (FVal.fin xn xm xe).real with hX
  set Y := (FVal.fin yn ym ye).real with hY
  obtain ⟨S, hS⟩ : ∃ S, S = Nat.log2 ym + 130 := ⟨_, rfl⟩
  obtain ⟨n, hn⟩ : ∃ n, n = xm * 2 ^ S := ⟨_, rfl⟩
  have hq : exactDiv (xn != yn) xm xe ym ye = ⟨xn != yn, n / ym, xe - ye - (S : Int), n % ym != 0⟩ := by
    rw [hn, hS]; rfl
  have py : (0 : ℝ) < ym := by exact_mod_cast Nat.pos_of_ne_zero hy
  have pe : (0 : ℝ) < 2 ^ (xe - ye - (S : Int)) := by positivity
  have hab : |X / Y| = ((n : ℝ) / ym) * 2 ^ (xe - ye - (S : Int)) := by
    rw [abs_div, hX, hY, abs_real, abs_real, hn, zpow_sub₀ (by norm_num), zpow_sub₀ (by norm_num), zpow_natCast]
    push_cast
    field_simp
  have hdm : (n : ℝ) / ym = (n / ym : Nat) + ((n % ym : Nat) : ℝ) / ym := by
    have : (n : ℝ) = ym * (n / ym : Nat) + (n % ym : Nat) := by exact_mod_cast (Nat.div_add_mod n ym).symm
    rw [this]
    field_simp
  have hml : ((n % ym : Nat) : ℝ) < ym := by exact_mod_cast Nat.mod_lt _ (Nat.pos_of_ne_zero hy)
  have hz : X / Y = 0 ↔ xm = 0 := by
    have : Y ≠ 0 := fun c => hy ((real_eq_zero _ _ _).1 c)
    rw [div_eq_zero_iff, or_iff_left this, hX, real_eq_zero]
  have hHolds : Holds (exactDiv (xn != yn) xm xe ym ye) |X / Y| := by
    rw [hq, hab, hdm]
    constructor
    · intro h
      have : n % ym = 0 := by simpa using h
      simp [this]
    · intro h
      have hne : n % ym ≠ 0 := by simpa using h
      have h1 : (0 : ℝ) < ((n % ym : Nat) : ℝ) / ym := by
        have : (0 : ℝ) < ((n % ym : Nat) : ℝ) := by exact_mod_cast Nat.pos_of_ne_zero hne
        positivity
      have h2 : ((n % ym : Nat) : ℝ) / ym < 1 := (div_lt_one py).2 hml
      exact ⟨mul_lt_mul_of_pos_right (by simpa using h1) pe, mul_lt_mul_of_pos_right (by simpa using h2) pe⟩
  have hbig : xm ≠ 0 → 2 ^ 129 ≤ n / ym := by
    intro h
    rw [Nat.le_div_iff_mul_le (Nat.pos_of_ne_zero hy), hn, hS]
    have h1 : ym < 2 ^ (Nat.log2 ym + 1) := Nat.lt_log2_self
    calc 2 ^ 129 * ym ≤ 2 ^ 129 * 2 ^ (Nat.log2 ym + 1) := Nat.mul_le_mul_left _ h1.le
      _ = 1 * 2 ^ (Nat.log2 ym + 130) := by rw [← pow_add, one_mul]; congr 1; omega
      _ ≤ xm * 2 ^ (Nat.log2 ym + 130) := Nat.mul_le_mul_right _ (Nat.pos_of_ne_zero h)
  refine ⟨hHolds, ?_, ?_, ?_⟩
  · intro h
    have hx0 : xm ≠ 0 := fun c => h (hz.2 c)
    have hx := real_neg xn xm xe hx0
    have hy' := real_neg yn ym ye hy
    have hxz : X ≠ 0 := fun c => hx0 ((real_eq_zero _ _ _).1 c)
    have hyz : Y ≠ 0 := fun c => hy ((real_eq_zero _ _ _).1 c)
    rw [hq]
    change (xn != yn) = true ↔ _
    rw [div_neg_iff]
    rw [← hX] at hx
    rw [← hY] at hy'
    cases xn <;> cases yn <;> simp at hx hy' ⊢
    · exact ⟨fun _ => hy', fun c => absurd c (not_lt.2 hx)⟩
    · exact Or.inl ⟨lt_of_le_of_ne hx (Ne.symm hxz), hy'⟩
    · exact Or.inr ⟨hx, lt_of_le_of_ne hy' (Ne.symm hyz)⟩
    · exact ⟨fun c => absurd c (not_lt.2 hx.le), fun _ => hy'.le⟩
  · intro h
    have hx0 : xm ≠ 0 := fun c => h (hz.2 c)
    have := hbig hx0
    rw [hq]
    change n / ym ≠ 0
    omega
  · intro h
    have hx0 : xm ≠ 0 := by
      rintro rfl
      rw [hq] at h
      simp [hn] at h
    have hm0 : n / ym ≠ 0 := by have := hbig hx0; omega
    have hexp := (expoOf_exact _ _ hHolds (by rw [hq]; exact hm0)).2
    have hl : 129 ≤ Nat.log2 (n / ym) := (Nat.le_log2 hm0).2 (hbig hx0)
    have : expoOf |X / Y| = expoOf (X / Y) := by simp [expoOf]
    rw [← this, hexp, hq]
    simp only
    omega

/-- The integer square root, from a lower bound and the bits still to try. -/
theorem isqrtFrom_spec (n : Nat) : ∀ (k acc : Nat), acc * acc ≤ n → n < (acc + 2 ^ (k + 1)) * (acc + 2 ^ (k + 1)) →
    isqrtFrom n acc k * isqrtFrom n acc k ≤ n ∧ n < (isqrtFrom n acc k + 1) * (isqrtFrom n acc k + 1) := by
  intro k
  induction k with
  | zero =>
    intro acc h1 h2
    simp only [isqrtFrom]
    split
    · rename_i h
      exact ⟨h, h2⟩
    · rename_i h
      exact ⟨h1, not_le.1 h⟩
  | succ k ih =>
    intro acc h1 h2
    simp only [isqrtFrom]
    have hp : (2 : Nat) ^ (k + 1 + 1) = 2 ^ (k + 1) + 2 ^ (k + 1) := by rw [pow_succ 2 (k + 1)]; ring
    rw [hp, ← add_assoc] at h2
    split
    · rename_i h
      exact ih _ h h2
    · rename_i h
      exact ih _ h1 (not_le.1 h)

/-- The integer square root. -/
theorem isqrt_spec (n : Nat) : isqrt n * isqrt n ≤ n ∧ n < (isqrt n + 1) * (isqrt n + 1) := by
  apply isqrtFrom_spec n _ 0 (by simp)
  rw [zero_add, ← pow_add]
  by_cases h : n = 0
  · rw [h]; positivity
  · calc n < 2 ^ (Nat.log2 n + 1) := Nat.lt_log2_self
      _ ≤ _ := Nat.pow_le_pow_right (by norm_num) (by omega)

/-- The exact square root stands for the square root. -/
theorem stands_sqrt (m : Nat) (e : Int) (p : Nat) (hp : p ≤ 80) (hm : m ≠ 0) :
    Stands (exactSqrt m e) (Real.sqrt (m * (2 : ℝ) ^ e)) p := by
  obtain ⟨a, h, ha, hh, hval⟩ : ∃ (a : Nat) (h : Int), a = (if e % 2 = 1 then 2 * m else m) ∧ h = (if e % 2 = 1 then e - 1 else e) / 2 ∧
      (m : ℝ) * (2 : ℝ) ^ e = a * 2 ^ (2 * h) := by
    refine ⟨_, _, rfl, rfl, ?_⟩
    split
    · rename_i ho
      have : e = 1 + 2 * ((e - 1) / 2) := by omega
      conv_lhs => rw [this, zpow_add₀ (by norm_num)]
      push_cast
      ring
    · rename_i ho
      have : e = 2 * (e / 2) := by omega
      conv_lhs => rw [this]
  have ha0 : a ≠ 0 := by rw [ha]; split <;> omega
  obtain ⟨T, hT⟩ : ∃ T : Nat, T = 80 := ⟨_, rfl⟩
  obtain ⟨n, hn⟩ : ∃ n, n = a * 2 ^ (2 * T) := ⟨_, rfl⟩
  have hq : exactSqrt m e = ⟨false, isqrt n, h - (T : Int), isqrt n * isqrt n != n⟩ := by
    rw [hn, ha, hh, hT]; rfl
  obtain ⟨s1, s2⟩ := isqrt_spec n
  set s := isqrt n with hs
  have pe : (0 : ℝ) < 2 ^ (h - (T : Int)) := by positivity
  have hv : Real.sqrt (m * (2 : ℝ) ^ e) = Real.sqrt n * 2 ^ (h - (T : Int)) := by
    have : (m : ℝ) * (2 : ℝ) ^ e = n * (2 ^ (h - (T : Int))) ^ 2 := by
      rw [hval, hn]
      push_cast
      rw [← zpow_natCast (2 : ℝ) (2 * T), ← zpow_natCast ((2 : ℝ) ^ (h - (T : Int))) 2, ← zpow_mul, mul_assoc, ← zpow_add₀ (by norm_num)]
      congr 2
      push_cast
      ring
    rw [this, Real.sqrt_mul (by positivity), Real.sqrt_sq pe.le]
  have r1 : (s : ℝ) ≤ Real.sqrt n := by
    apply Real.le_sqrt_of_sq_le
    have : ((s * s : Nat) : ℝ) ≤ n := by exact_mod_cast s1
    push_cast at this
    nlinarith
  have r2 : Real.sqrt n < s + 1 := by
    rw [Real.sqrt_lt' (by positivity)]
    have : (n : ℝ) < (((s + 1) * (s + 1) : Nat) : ℝ) := by exact_mod_cast s2
    push_cast at this
    nlinarith
  have hn0 : 2 ^ (2 * T) ≤ n := by
    rw [hn]
    exact Nat.le_mul_of_pos_left _ (Nat.pos_of_ne_zero ha0)
  have hbig : 2 ^ T ≤ s := by
    by_contra hc
    have h1 : s + 1 ≤ 2 ^ T := by omega
    have h2 : (s + 1) * (s + 1) ≤ 2 ^ T * 2 ^ T := Nat.mul_le_mul h1 h1
    rw [← pow_add, show T + T = 2 * T by ring] at h2
    omega
  have hs0 : s ≠ 0 := by
    have : 0 < 2 ^ T := by positivity
    omega
  have hpos : 0 < Real.sqrt (m * (2 : ℝ) ^ e) := by
    apply Real.sqrt_pos.2
    have : (0 : ℝ) < m := by exact_mod_cast Nat.pos_of_ne_zero hm
    positivity
  have hHolds : Holds (exactSqrt m e) |Real.sqrt (m * (2 : ℝ) ^ e)| := by
    rw [abs_of_pos hpos, hv, hq]
    constructor
    · intro hst
      have : s * s = n := by simpa using hst
      change Real.sqrt n * _ = (s : ℝ) * _
      rw [← this]
      push_cast
      rw [Real.sqrt_mul_self (by positivity)]
    · intro hst
      have hne : s * s ≠ n := by simpa using hst
      have : (s : ℝ) ≠ Real.sqrt n := by
        intro c
        have h2 : (s : ℝ) * s = n := by rw [c]; exact Real.mul_self_sqrt (by positivity)
        exact hne (by exact_mod_cast h2)
      exact ⟨mul_lt_mul_of_pos_right (lt_of_le_of_ne r1 this) pe, mul_lt_mul_of_pos_right r2 pe⟩
  refine ⟨hHolds, ?_, ?_, ?_⟩
  · intro _
    rw [hq]
    change false = true ↔ _
    exact ⟨fun c => (Bool.false_ne_true c).elim, fun c => absurd c (not_lt.2 hpos.le)⟩
  · intro _
    rw [hq]
    exact hs0
  · intro _
    have hexp := (expoOf_exact _ _ hHolds (by rw [hq]; exact hs0)).2
    have hl : T ≤ Nat.log2 s := (Nat.le_log2 hs0).2 hbig
    have : expoOf |Real.sqrt (m * (2 : ℝ) ^ e)| = expoOf (Real.sqrt (m * (2 : ℝ) ^ e)) := by simp [expoOf]
    rw [← this, hexp, hq]
    simp only
    omega

/-- The tag of a rounded result: the rule's, less than p where rounding changed the value. -/
theorem fmt_capped (f : FpFmt) (q : Rounded) (v : ℝ) (rule : Nat)
    (h : (f.dec q.bits.toNat).isFin = true → (q.inexact = false ↔ (f.dec q.bits.toNat).real = v)) :
    f.Capped (f.dec q.bits.toNat) v rule (f.result q.bits q.flags (capTag f.p q.inexact rule)).tag := by
  constructor
  · intro hf
    simp [FpFmt.result, hf]
  · intro hf
    have hi := h hf
    constructor
    · intro hr
      simp [FpFmt.result, hf, capTag, hi.2 hr]
    · intro hr
      have : q.inexact = true := by
        by_contra hc
        exact hr (hi.1 (by simpa using hc))
      simp [FpFmt.result, hf, capTag, this]

/-! ## Sums, products and conversions -/

/-- The leading bit of a finite value that is not zero. -/
theorem expo_real (n : Bool) (m : Nat) (e : Int) (h : m ≠ 0) : (FVal.fin n m e).expo = expoOf (FVal.fin n m e).real := by
  have := (expoOf_exact ⟨n, m, e, false⟩ _ (stands_fin n m e 0).holds h).2
  simp only at this
  rw [FVal.expo, ← this, expoOf, expoOf, abs_abs]

/-- The add rule's tag is R44's. -/
theorem addTag_sum (f : FpFmt) (xn : Bool) (xm : Nat) (xe : Int) (sx : Nat) (yn : Bool) (ym : Nat) (ye : Int) (sy : Nat) (b : FVal) (hb : b.isFin = true) :
    f.SumTag (FVal.fin xn xm xe).real sx (FVal.fin yn ym ye).real sy b.real (addTag (.fin xn xm xe) sx (.fin yn ym ye) sy b f.p) := by
  cases b with
  | nan _ => cases hb
  | inf _ => cases hb
  | fin bn bm be =>
    simp only [FpFmt.SumTag, ne_eq, real_eq_zero, addTag, FVal.isZero, lowBit]
    refine ⟨?_, ?_, ?_⟩
    · rintro rfl rfl rfl; simp
    · rintro rfl h
      have : ¬(xm = 0 ∧ ym = 0) := by tauto
      simp only [beq_self_eq_true, Bool.true_and, if_true]
      rw [if_neg (by simpa using this)]
    · intro h
      have hb0 : (bm == 0) = false := by simpa using h
      simp only [hb0, Bool.false_and, Bool.false_eq_true, if_false, ← expo_real bn bm be h]
      refine ⟨?_, ?_, ?_⟩
      · rintro rfl hy
        simp only [beq_self_eq_true, if_true, ← expo_real yn ym ye hy]
      · rintro hx rfl
        have : (xm == 0) = false := by simpa using hx
        simp only [this, Bool.false_eq_true, if_false, beq_self_eq_true, if_true, ← expo_real xn xm xe hx]
      · intro hx hy
        have h1 : (xm == 0) = false := by simpa using hx
        have h2 : (ym == 0) = false := by simpa using hy
        simp only [h1, h2, Bool.false_eq_true, if_false, ← expo_real xn xm xe hx, ← expo_real yn ym ye hy]

/-- A real that an exact one stands for, rounded into a format that has infinities, with the flags, and with a rule's tag. -/
theorem stands_rounds (f : FpFmt) (hf : f ∈ withInf) (r : Rnd) (hr : r ≠ .dyn) (x : Exact) (v : ℝ) (h : Stands x v f.p) :
    let q := f.round f.p r x
    f.Rounds r v x.neg q.bits q.flags ∧
    ((f.dec q.bits.toNat).isFin = true → (q.inexact = false ↔ (f.dec q.bits.toNat).real = v)) := by
  simp only [withInf, List.mem_cons, List.not_mem_nil, or_false] at hf
  rcases hf with rfl | rfl | rfl | rfl | rfl
  · exact round_rounds 11 52 (by norm_num) (by norm_num) (by norm_num) r hr x v h.holds h.sign h.lead h.enough
  · exact round_rounds 8 23 (by norm_num) (by norm_num) (by norm_num) r hr x v h.holds h.sign h.lead h.enough
  · exact round_rounds 5 10 (by norm_num) (by norm_num) (by norm_num) r hr x v h.holds h.sign h.lead h.enough
  · exact round_rounds 8 7 (by norm_num) (by norm_num) (by norm_num) r hr x v h.holds h.sign h.lead h.enough
  · exact round_rounds 5 2 (by norm_num) (by norm_num) (by norm_num) r hr x v h.holds h.sign h.lead h.enough

/-- The sign matters to a rounding only where the result is a zero. -/
theorem rounds_zneg (f : FpFmt) (r : Rnd) (v : ℝ) (a b : Bool) (bits : BitVec 64) (fl : FFlags) (h : f.Rounds r v a bits fl) (hv : v = 0 → a = b) :
    f.Rounds r v b bits fl :=
  ⟨fun z => by rw [← hv z]; exact h.1 z, h.2⟩

/-- A rounded result with its tag by a rule. -/
theorem stands_result (f : FpFmt) (hf : f ∈ withInf) (r : Rnd) (hr : r ≠ .dyn) (x : Exact) (v : ℝ) (zneg : Bool) (rule : Nat) (h : Stands x v f.p)
    (hz : v = 0 → x.neg = zneg) :
    let q := f.round f.p r x
    f.Result r v zneg rule (f.result q.bits q.flags (capTag f.p q.inexact rule)) := by
  intro q
  obtain ⟨h1, h2⟩ := stands_rounds f hf r hr x v h
  exact ⟨rounds_zneg f r v _ _ _ _ h1 hz, fmt_capped f q v rule h2⟩

/-- The precision of the formats that have infinities. -/
theorem withInf_p (f : FpFmt) (hf : f ∈ withInf) : f.p ≤ 53 := by
  revert f
  decide

/-- A sum of two finite values (R41, R44, R123, R124). -/
theorem addVals_sum (f : FpFmt) (hf : f ∈ withInf) (r : Rnd) (hr : r ≠ .dyn) (xn : Bool) (xm : Nat) (xe : Int) (sx : Nat) (yn : Bool) (ym : Nat)
    (ye : Int) (sy : Nat) (zneg : Bool)
    (hz : zeroSign r (FVal.fin xn xm xe).real xn (FVal.fin yn ym ye).real yn zneg) :
    f.Sum r (FVal.fin xn xm xe).real sx (FVal.fin yn ym ye).real sy zneg (addVals f r (.fin xn xm xe) sx (.fin yn ym ye) sy) := by
  obtain ⟨h1, h2⟩ := stands_add r xn xm xe yn ym ye f.p
  set q := f.round f.p r (exactAdd r xn xm xe yn ym ye) with hq
  have e : addVals f r (.fin xn xm xe) sx (.fin yn ym ye) sy =
      f.result q.bits q.flags (capTag f.p q.inexact (addTag (.fin xn xm xe) sx (.fin yn ym ye) sy (f.dec q.bits.toNat) f.p)) := rfl
  rw [e]
  have res := fun rule => stands_result f hf r hr _ _ zneg rule h1 (fun z => by
    rw [h2 z]
    split
    · rename_i h; exact (hz.1 h).symm
    · rename_i h; exact (hz.2 h).symm)
  by_cases hfin : (f.dec q.bits.toNat).isFin = true
  · exact ⟨_, addTag_sum f xn xm xe sx yn ym ye sy _ hfin, res _⟩
  · have hnf : (f.dec q.bits.toNat).isFin = false := by simpa using hfin
    have hb : (f.dec q.bits.toNat).real = 0 := by
      cases hd : f.dec q.bits.toNat with
      | nan _ => rfl
      | inf _ => rfl
      | fin n m e => rw [hd] at hnf; cases hnf
    have hne : (FVal.fin xn xm xe).real ≠ 0 ∨ (FVal.fin yn ym ye).real ≠ 0 := by
      by_contra hc
      push Not at hc
      have := (res 0).1.1 (by rw [hc.1, hc.2, add_zero])
      have hzero := this.1
      change (f.dec q.bits.toNat).isZero = true at hzero
      cases hd : f.dec q.bits.toNat with
      | nan _ => rw [hd] at hzero; cases hzero
      | inf _ => rw [hd] at hzero; cases hzero
      | fin n m e => rw [hd] at hnf; cases hnf
    refine ⟨0, ?_, ?_⟩
    · change f.SumTag _ _ _ _ (f.dec q.bits.toNat).real 0
      rw [hb]
      exact ⟨fun _ hx hy => absurd hx (by rcases hne with h | h; exact h; exact absurd hy h), fun _ _ => rfl, fun c => absurd rfl c⟩
    · refine ⟨(res 0).1, ?_, ?_⟩
      · intro _
        simp [FpFmt.result, hnf]
      · intro c
        have c' : (f.dec q.bits.toNat).isFin = true := c
        rw [hnf] at c'; cases c'

/-- An FP32 or other value decoded as finite. -/
theorem isFin_fin (x : FVal) (h : x.isFin = true) : ∃ n m e, x = .fin n m e := by
  cases x with
  | nan _ => cases h
  | inf _ => cases h
  | fin n m e => exact ⟨n, m, e, rfl⟩

/-! ## Quantisation -/

/-- Every non-negative real has a nearest integer. -/
theorem nearest_exists (neg : Bool) (x : ℝ) (h : 0 ≤ x) : ∃ k, Nearest .rne neg x k := by
  have h1 : (⌊x⌋₊ : ℝ) ≤ x := Nat.floor_le h
  have h2 : x < ⌊x⌋₊ + 1 := Nat.lt_floor_add_one x
  have := nearest_of_parts .rne (by decide) neg x ⌊x⌋₊
  rcases lt_trichotomy (x - ⌊x⌋₊) (1 / 2) with hd | hd | hd
  · have hc : (0 = 0 ↔ x - ⌊x⌋₊ < 1 / 2) ∧ (0 = 1 ↔ x - ⌊x⌋₊ = 1 / 2) ∧ (0 = 2 ↔ 1 / 2 < x - ⌊x⌋₊) :=
      ⟨iff_of_true rfl hd, iff_of_false (by decide) hd.ne, iff_of_false (by decide) (not_lt.2 hd.le)⟩
    exact ⟨_, this 0 (decide (x - ⌊x⌋₊ ≠ 0)) (x - ⌊x⌋₊) (by ring) (by linarith) (by linarith) (by simp) hc⟩
  · have hc : (1 = 0 ↔ x - ⌊x⌋₊ < 1 / 2) ∧ (1 = 1 ↔ x - ⌊x⌋₊ = 1 / 2) ∧ (1 = 2 ↔ 1 / 2 < x - ⌊x⌋₊) :=
      ⟨iff_of_false (by decide) (not_lt.2 hd.ge), iff_of_true rfl hd, iff_of_false (by decide) (not_lt.2 hd.le)⟩
    exact ⟨_, this 1 (decide (x - ⌊x⌋₊ ≠ 0)) (x - ⌊x⌋₊) (by ring) (by linarith) (by linarith) (by simp) hc⟩
  · have hc : (2 = 0 ↔ x - ⌊x⌋₊ < 1 / 2) ∧ (2 = 1 ↔ x - ⌊x⌋₊ = 1 / 2) ∧ (2 = 2 ↔ 1 / 2 < x - ⌊x⌋₊) :=
      ⟨iff_of_false (by decide) (not_lt.2 hd.le), iff_of_false (by decide) hd.ne', iff_of_true rfl hd⟩
    exact ⟨_, this 2 (decide (x - ⌊x⌋₊ ≠ 0)) (x - ⌊x⌋₊) (by ring) (by linarith) (by linarith) (by simp) hc⟩

/-- A code of two's complement. -/
theorem signedOf_code (w n : Nat) (neg : Bool) (h : n < 2 ^ (w - 1)) (hw : 1 ≤ w) :
    let c := if neg then (2 ^ w - n) % 2 ^ w else n
    c < 2 ^ w ∧ signedOf w c = if neg then -(n : Int) else n := by
  have hp : 2 ^ w = 2 * 2 ^ (w - 1) := by rw [← pow_succ']; congr 1; omega
  intro c
  cases neg
  · have hc : c = n := rfl
    have : n < 2 ^ w := by omega
    rw [hc]
    exact ⟨this, by simp [signedOf, Nat.mod_eq_of_lt this, h]⟩
  · have hc : c = (2 ^ w - n) % 2 ^ w := rfl
    have hlt : c < 2 ^ w := Nat.mod_lt _ (by positivity)
    refine ⟨hlt, ?_⟩
    by_cases hz : n = 0
    · simp [hc, hz, signedOf]
    · have hcv : c = 2 ^ w - n := by rw [hc, Nat.mod_eq_of_lt (by omega)]
      simp only [signedOf, Nat.mod_eq_of_lt hlt, if_true]
      rw [if_neg (by omega), hcv]
      push_cast [Nat.cast_sub (show n ≤ 2 ^ w by omega)]
      ring

/-- An integer element made from a real (R28, R38). -/
theorem clamps_quant (lim w : Nat) (sh : Int) (hlim : lim < 2 ^ (w - 1)) (hw : 1 ≤ w) (x : Exact) (v : ℝ) (h : Stands x v 100) (hl : lim < 2 ^ 90) :
    let r := roundAt .rne { x with e := x.e + sh } 0
    let ch := r.2 || decide (lim < r.1)
    Clamps lim w sh v (if x.neg then (2 ^ w - min r.1 lim) % 2 ^ w else min r.1 lim, ch, if ch then fNX else 0) := by
  intro r ch
  have psh : (0 : ℝ) < 2 ^ sh := by positivity
  have hH : Holds { x with e := x.e + sh } (|v| * 2 ^ sh) := by
    refine ⟨fun hst => ?_, fun hst => ?_⟩
    · rw [h.holds.1 hst]
      simp only
      rw [zpow_add₀ (by norm_num), mul_assoc]
    · obtain ⟨a, b⟩ := h.holds.2 hst
      simp only
      rw [zpow_add₀ (by norm_num), ← mul_assoc, ← mul_assoc]
      exact ⟨mul_lt_mul_of_pos_right a psh, mul_lt_mul_of_pos_right b psh⟩
  have code := signedOf_code w (min r.1 lim) x.neg (by omega) hw
  by_cases hs : x.sticky = true → x.e + sh < 0
  · obtain ⟨h1, h2⟩ := roundAt_spec .rne (by decide) { x with e := x.e + sh } _ hH 0 hs
    simp only [zpow_zero, div_one, mul_one] at h1 h2
    have hch : ch = false ↔ ((min r.1 lim : Nat) : ℝ) = |v| * 2 ^ sh := by
      simp only [ch, Bool.or_eq_false_iff, decide_eq_false_iff_not, not_lt]
      constructor
      · rintro ⟨a, b⟩
        rw [min_eq_left b]
        exact h2.1 a
      · intro a
        by_cases hle : r.1 ≤ lim
        · rw [min_eq_left hle] at a
          exact ⟨h2.2 a, hle⟩
        · exfalso
          have hlt : lim < r.1 := not_le.1 hle
          rw [min_eq_right hlt.le] at a
          have hn := Nearest.near h1
          rw [← a] at hn
          have : r.1 < lim + 1 := by exact_mod_cast hn.1
          omega
    refine ⟨x.neg, r.1, h.sign, h1, code.1, code.2, ?_, ?_⟩
    · intro a
      rw [hch.2 a]; rfl
    · intro a
      have : ch = true := by
        by_contra hc
        exact a (hch.1 (by simpa using hc))
      rw [this]; rfl
  · push Not at hs
    obtain ⟨hst, he⟩ := hs
    have hm : x.m ≠ 0 ∧ 2 ^ 90 ≤ x.m := by
      have h1 := h.enough hst
      have hv0 : v ≠ 0 := by
        rintro rfl
        have := (h.holds.2 hst).1
        rw [abs_zero] at this
        have : (0 : ℝ) ≤ x.m * 2 ^ x.e := by positivity
        linarith
      have hm0 := h.lead hv0
      have hex := (expoOf_exact x _ h.holds hm0).2
      have : expoOf |v| = expoOf v := by simp [expoOf]
      rw [← this, hex] at h1
      have : 90 ≤ Nat.log2 x.m := by push_cast at h1; omega
      exact ⟨hm0, (Nat.le_log2 hm0).1 this⟩
    have hr : r = (x.m * 2 ^ (x.e + sh).toNat, true) := by
      simp only [r, roundAt, he, if_true, sub_zero, hst]
    have hbig : lim < r.1 := by
      rw [hr]
      have : x.m * 1 ≤ x.m * 2 ^ (x.e + sh).toNat := Nat.mul_le_mul_left _ Nat.one_le_two_pow
      simp only
      omega
    have hbigv : (lim : ℝ) + 1 ≤ |v| * 2 ^ sh := by
      have h1 := (hH.2 hst).1
      have h2 : (1 : ℝ) ≤ 2 ^ (x.e + sh) := one_le_zpow₀ (by norm_num) he
      have h3 : ((lim + 1 : Nat) : ℝ) ≤ x.m := by exact_mod_cast (by omega : lim + 1 ≤ x.m)
      push_cast at h3
      simp only at h1
      have h4 : (0 : ℝ) ≤ x.m := by positivity
      nlinarith
    obtain ⟨k, hk⟩ := nearest_exists x.neg (|v| * 2 ^ sh) (by positivity)
    have hkl : lim < k := by
      have := (Nearest.near hk).2
      have h5 : (lim : ℝ) < k := by linarith
      exact_mod_cast h5
    have hmin : min r.1 lim = min k lim := by omega
    have hchv : ch = true := by simp [ch, hr]
    rw [hmin] at code ⊢
    refine ⟨x.neg, k, h.sign, hk, code.1, code.2, ?_, ?_⟩
    · intro a
      exfalso
      rw [min_eq_right hkl.le] at a
      linarith
    · intro _
      rw [hchv]; rfl

/-- An element of a format without infinities made from a real (R30, R38). -/
theorem saturates_quant (f : FpFmt) (hf : Good f) (hk : f.kind ≠ .ieee) (hp : f.p ≤ 100) (nanOvf : Bool) (x : Exact) (v : ℝ) (h : Stands x v 100)
    (zneg : Bool) (hz : v = 0 → x.neg = zneg ∧ x.m = 0) :
    let q := f.round f.p .rne x
    f.Saturates nanOvf v zneg (if q.ovf && nanOvf then (0x7F, true, fOF ||| fNX) else (q.bits.toNat, q.inexact, if q.ovf then fNX else q.flags)) := by
  intro q
  have hexp : expoOf |v| = expoOf v := by simp [expoOf]
  have hgrid : f.gridAt |v| = f.gridAt v := by simp [FpFmt.gridAt, hexp]
  have htop : (f.dec f.maxCode).real = codeVal f f.maxCode := by
    obtain ⟨h1, h2, h3⟩ := dec_code f hf false f.maxCode le_rfl
    simp only [signBit, Bool.false_eq_true, if_false, zero_add] at h1 h2 h3
    obtain ⟨n, m, e, hd⟩ := isFin_fin _ h1
    rw [hd] at h2 h3 ⊢
    have hp : (0 : ℝ) ≤ m * (2 : ℝ) ^ e := by positivity
    have : n = false := h2
    rw [← h3]
    simp [FVal.real, this, abs_of_nonneg hp]
  by_cases hv : v = 0
  · obtain ⟨hz1, hz2⟩ := hz hv
    have hst : x.sticky = false := by
      by_contra hc
      have := (h.holds.2 (by simpa using hc)).1
      rw [hv, abs_zero, hz2] at this
      simp at this
    have hq : q = ⟨BitVec.ofNat 64 (f.pack x.neg 0 0), 0, false, false⟩ := by
      simp only [q, FpFmt.round, hz2, hst, Bool.not_false, and_self, if_true]
    have hpk : f.pack x.neg 0 0 = signBit f x.neg + 0 := by simp [FpFmt.pack, signBit]
    have hb : (BitVec.ofNat 64 (f.pack x.neg 0 0)).toNat = signBit f x.neg + 0 := by rw [hpk]; exact code_fits f hf x.neg 0 (Nat.zero_le _)
    obtain ⟨h1, h2, h3⟩ := dec_code f hf x.neg 0 (Nat.zero_le _)
    have hzero : (f.dec (signBit f x.neg + 0)).isZero = true := by
      obtain ⟨n, m, e, hd⟩ := isFin_fin _ h1
      rw [hd, abs_real] at h3
      have : codeVal f 0 = 0 := by simp [codeVal]
      rw [this] at h3
      have pe : (2 : ℝ) ^ e ≠ 0 := by positivity
      have : (m : ℝ) = 0 := by simpa [pe] using h3
      rw [hd]
      simpa [FVal.isZero] using this
    refine ⟨fun _ => ?_, fun c => absurd hv c⟩
    rw [hq]
    simp only [Bool.false_and, Bool.false_eq_true, if_false]
    rw [hb]
    exact ⟨hzero, by rw [h2, hz1], trivial⟩
  · have hs : x.sticky = true → x.e < expoOf |v| - f.p + 1 := fun c => by
      have := h.enough c
      rw [hexp]
      push_cast at this
      omega
    obtain ⟨k, k0, n1, n2, hover, hin⟩ := round_core f hf .rne (by decide) x |v| h.holds (h.lead hv) hs
    rw [hgrid] at n1 hover hin
    rw [hexp] at n2
    simp only [hexp] at hin
    refine ⟨fun c => absurd c hv, fun _ => ⟨x.neg, k, k0, h.sign hv, n1, n2, ?_, ?_⟩⟩
    · intro hlt
      rw [htop] at hlt
      have hq : q = ⟨BitVec.ofNat 64 (signBit f x.neg + f.maxCode), fOF ||| fNX, true, true⟩ := by
        have := hover hlt
        rw [if_neg hk] at this
        exact this
      obtain ⟨h1, h2, h3⟩ := dec_code f hf x.neg f.maxCode le_rfl
      rw [hq]
      constructor
      · rintro rfl; rfl
      · rintro rfl
        simp only [Bool.and_false, Bool.false_eq_true, if_false, if_true]
        rw [code_fits f hf x.neg f.maxCode le_rfl, htop]
        exact ⟨h1, h2, h3, trivial⟩
    · intro hle
      rw [htop] at hle
      obtain ⟨c, hc, hb, hcv, hov, hx, g1, g2, g3⟩ := hin hle
      obtain ⟨h1, h2, h3⟩ := dec_code f hf x.neg c hc
      have hov' : q.ovf = false := hov
      have hb' : q.bits.toNat = signBit f x.neg + c := hb
      have hx' : q.inexact = false ↔ k * (2 : ℝ) ^ f.gridAt v = |v| := hx
      have g1' : k * (2 : ℝ) ^ f.gridAt v = |v| → q.flags = 0 := g1
      have g2' : k * (2 : ℝ) ^ f.gridAt v ≠ |v| → _ → q.flags = fUF ||| fNX := g2
      have g3' : k * (2 : ℝ) ^ f.gridAt v ≠ |v| → _ → q.flags = fNX := g3
      have hxt : k * (2 : ℝ) ^ f.gridAt v ≠ |v| → q.inexact = true := fun a => by
        by_contra hc
        exact a (hx'.1 (by simpa using hc))
      rw [hov']
      simp only [Bool.false_and, Bool.false_eq_true, if_false]
      rw [hb']
      exact ⟨h1, h2, h3.trans hcv, fun a => by rw [hx'.2 a, g1' a], fun a b => by rw [hxt a, g2' a b], fun a b => by rw [hxt a, g3' a b]⟩

/-- An element made from a real. -/
theorem quant_quantised (k : Elem) (nanOvf : Bool) (hk : k = .e2m1 → nanOvf = false) (x : Exact) (v : ℝ) (h : Stands x v 100) (zneg : Bool)
    (hz : v = 0 → x.neg = zneg ∧ x.m = 0) : k.Quantised nanOvf v zneg (k.quant nanOvf x) := by
  cases k
  · have := hk rfl
    subst this
    exact saturates_quant _ good_e2m1 (by decide) (by decide) false x v h zneg hz
  · exact saturates_quant _ good_e4m3 (by decide) (by decide) nanOvf x v h zneg hz
  · exact clamps_quant 7 4 0 (by decide) (by decide) x v h (by norm_num)
  · exact clamps_quant 127 8 0 (by decide) (by decide) x v h (by norm_num)
  · exact clamps_quant 127 8 6 (by decide) (by decide) x v h (by norm_num)

/-! ## One lemma per function -/

/-- FMUL of finite values (R123). -/
theorem fpMul_result (f : FpFmt) (hf : f ∈ withInf) (r : Rnd) (hr : r ≠ .dyn) (xn : Bool) (xm : Nat) (xe : Int) (sx : Nat) (yn : Bool) (ym : Nat)
    (ye : Int) (sy : Nat) :
    f.Result r ((FVal.fin xn xm xe).real * (FVal.fin yn ym ye).real) (xn != yn) (min sx sy) (fpMul f r (.fin xn xm xe) sx (.fin yn ym ye) sy) := by
  have h := stands_fin (xn != yn) (xm * ym) (xe + ye) f.p
  rw [real_mul] at h
  exact stands_result f hf r hr _ _ (xn != yn) _ h (fun _ => rfl)

/-- FDIV of finite values (R123). -/
theorem fpDiv_result (f : FpFmt) (hf : f ∈ withInf) (r : Rnd) (hr : r ≠ .dyn) (xn : Bool) (xm : Nat) (xe : Int) (sx : Nat) (yn : Bool) (ym : Nat)
    (ye : Int) (sy : Nat) (hy : ym ≠ 0) :
    f.Result r ((FVal.fin xn xm xe).real / (FVal.fin yn ym ye).real) (xn != yn) (min sx sy) (fpDiv f r (.fin xn xm xe) sx (.fin yn ym ye) sy) := by
  have h := stands_div xn xm xe yn ym ye f.p (by have := withInf_p f hf; omega) hy
  have e : fpDiv f r (.fin xn xm xe) sx (.fin yn ym ye) sy =
      f.result (f.round f.p r (exactDiv (xn != yn) xm xe ym ye)).bits (f.round f.p r (exactDiv (xn != yn) xm xe ym ye)).flags
        (capTag f.p (f.round f.p r (exactDiv (xn != yn) xm xe ym ye)).inexact (min sx sy)) := by
    simp only [fpDiv, FVal.isNan, Bool.or_self, Bool.false_eq_true, if_false, if_neg hy]
    rfl
  rw [e]
  exact stands_result f hf r hr _ _ (xn != yn) _ h (fun _ => rfl)

/-- FSQRT of a positive finite value (R125). -/
theorem fpSqrt_result (f : FpFmt) (hf : f ∈ withInf) (r : Rnd) (hr : r ≠ .dyn) (m : Nat) (e : Int) (sx : Nat) (hm : m ≠ 0) :
    f.Result r (Real.sqrt (FVal.fin false m e).real) false (min (sx + 1) f.p) (fpSqrt f r (.fin false m e) sx) := by
  have h := stands_sqrt m e f.p (by have := withInf_p f hf; omega) hm
  have hx : (FVal.fin false m e).real = m * (2 : ℝ) ^ e := by simp [FVal.real]
  rw [hx]
  have e1 : fpSqrt f r (.fin false m e) sx = f.result (f.round f.p r (exactSqrt m e)).bits (f.round f.p r (exactSqrt m e)).flags
        (capTag f.p (f.round f.p r (exactSqrt m e)).inexact (min (sx + 1) f.p)) := by
    simp only [fpSqrt, if_neg hm, Bool.false_eq_true, if_false]
  rw [e1]
  exact stands_result f hf r hr _ _ false _ h (fun _ => rfl)

/-- FCVT of a finite value (R130). -/
theorem fpCvt_result (f : FpFmt) (hf : f ∈ withInf) (r : Rnd) (hr : r ≠ .dyn) (n : Bool) (m : Nat) (e : Int) (sx : Nat) :
    f.Result r (FVal.fin n m e).real n (min sx f.p) (fpCvt f r (.fin n m e) sx) :=
  stands_result f hf r hr _ _ n _ (stands_fin n m e f.p) (fun _ => rfl)

/-- FCVI of an integer (R131). -/
theorem intToFp_result (f : FpFmt) (hf : f ∈ withInf) (r : Rnd) (hr : r ≠ .dyn) (v : Int) : f.Result r v false f.p (intToFp f r v) := by
  have hx : (FVal.fin (decide (v < 0)) v.natAbs 0).real = v := by
    simp only [FVal.real, zpow_zero, mul_one, Nat.cast_natAbs, Int.cast_abs]
    by_cases h : v < 0
    · have : (v : ℝ) < 0 := by exact_mod_cast h
      simp [h, abs_of_neg this]
    · have : (0 : ℝ) ≤ v := by exact_mod_cast not_lt.1 h
      simp [h, abs_of_nonneg this]
  have h := stands_fin (decide (v < 0)) v.natAbs 0 f.p
  rw [hx] at h
  have e : intToFp f r v = f.result (f.round f.p r ⟨v < 0, v.natAbs, 0, false⟩).bits (f.round f.p r ⟨v < 0, v.natAbs, 0, false⟩).flags
      (capTag f.p (f.round f.p r ⟨v < 0, v.natAbs, 0, false⟩).inexact f.p) := by
    simp only [intToFp, capTag]
    congr 1
    split
    · omega
    · rfl
  rw [e]
  exact stands_result f hf r hr _ _ false _ h (fun z => by
    have : v = 0 := by exact_mod_cast z
    simp [this])

/-- A finite value rounded to an integer between bounds (R131). -/
theorem fpToInt_nearest (r : Rnd) (hr : r ≠ .dyn) (lo hi : Int) (n : Bool) (m : Nat) (e : Int) :
    ∃ k : Nat, Nearest r n |(FVal.fin n m e).real| k ∧
      let i : Int := if n then -(k : Int) else k
      let q := fpToInt r lo hi (.fin n m e)
      (i < lo → q = (lo, fNV)) ∧ (lo ≤ hi → hi < i → q = (hi, fNV)) ∧
      (lo ≤ i → i ≤ hi → ((i : ℝ) = (FVal.fin n m e).real → q = (i, 0)) ∧ ((i : ℝ) ≠ (FVal.fin n m e).real → q = (i, fNX))) := by
  obtain ⟨h1, h2⟩ := roundAt_spec r hr ⟨n, m, e, false⟩ _ (stands_fin n m e 0).holds 0 (fun c => by cases c)
  simp only [zpow_zero, div_one, mul_one] at h1 h2
  set k := (roundAt r ⟨n, m, e, false⟩ 0).1 with hk
  set lost := (roundAt r ⟨n, m, e, false⟩ 0).2 with hl
  have hri : roundInt r n m e = (if n then -(k : Int) else k, lost) := rfl
  refine ⟨k, h1, ?_⟩
  intro i q
  have hq : q = if i < lo then (lo, fNV) else if hi < i then (hi, fNV) else (i, if lost then fNX else 0) := by
    simp only [q, fpToInt, hri]
    rfl
  have hex : lost = false ↔ (i : ℝ) = (FVal.fin n m e).real := by
    rw [h2, abs_real]
    cases n <;> simp [i, FVal.real]
  refine ⟨fun a => by rw [hq, if_pos a], fun a b => by rw [hq, if_neg (by omega), if_pos b], fun a b => ⟨fun c => ?_, fun c => ?_⟩⟩
  · rw [hq, if_neg (by omega), if_neg (by omega), hex.2 c]; rfl
  · have : lost = true := by
      by_contra h
      exact c (hex.1 (by simpa using h))
    rw [hq, if_neg (by omega), if_neg (by omega), this]; rfl

/-- The order of finite values is that of the reals. -/
theorem fpOrd_real (xn : Bool) (xm : Nat) (xe : Int) (yn : Bool) (ym : Nat) (ye : Int) :
    let X := (FVal.fin xn xm xe).real
    let Y := (FVal.fin yn ym ye).real
    (fpOrd (.fin xn xm xe) (.fin yn ym ye) = .lt ↔ X < Y) ∧ (fpOrd (.fin xn xm xe) (.fin yn ym ye) = .gt ↔ Y < X) ∧
    (fpOrd (.fin xn xm xe) (.fin yn ym ye) = .eq ↔ X = Y) := by
  intro X Y
  set g := min xe ye with hg
  set a : Int := (if xn then -1 else 1) * (xm * 2 ^ (xe - g).toNat : Nat) with ha
  set b : Int := (if yn then -1 else 1) * (ym * 2 ^ (ye - g).toNat : Nat) with hb
  have hX : X = (a : ℝ) * 2 ^ g := real_scaled xn xm xe g (min_le_left _ _)
  have hY : Y = (b : ℝ) * 2 ^ g := real_scaled yn ym ye g (min_le_right _ _)
  have pg : (0 : ℝ) < 2 ^ g := by positivity
  have ho : fpOrd (.fin xn xm xe) (.fin yn ym ye) = if a < b then .lt else if b < a then .gt else .eq := rfl
  have l1 : X < Y ↔ a < b := by rw [hX, hY, mul_lt_mul_iff_left₀ pg, Int.cast_lt]
  have l2 : Y < X ↔ b < a := by rw [hX, hY, mul_lt_mul_iff_left₀ pg, Int.cast_lt]
  rw [ho, l1, l2]
  have l3 : X = Y ↔ a = b := by
    constructor
    · intro h
      have h1 := mt l1.2 (not_lt.2 h.ge)
      have h2 := mt l2.2 (not_lt.2 h.le)
      omega
    · intro h; rw [hX, hY, h]
  rw [l3]
  rcases lt_trichotomy a b with h | h | h
  · simp [h, h.ne, h.not_gt]
  · simp [h]
  · simp [h, h.ne', h.not_gt]

/-- The exact quotient by a positive scale stands for the quotient. -/
theorem stands_quotient (xn : Bool) (xm : Nat) (xe : Int) (ym : Nat) (ye : Int) (hy : ym ≠ 0) :
    Stands (quotient (.fin xn xm xe) (.fin false ym ye)) ((FVal.fin xn xm xe).real / (FVal.fin false ym ye).real) 100 ∧
    ((FVal.fin xn xm xe).real / (FVal.fin false ym ye).real = 0 →
      (quotient (.fin xn xm xe) (.fin false ym ye)).neg = xn ∧ (quotient (.fin xn xm xe) (.fin false ym ye)).m = 0) := by
  have hq : quotient (.fin xn xm xe) (.fin false ym ye) =
      if xm = 0 then ⟨xn != false, 0, 0, false⟩ else exactDiv (xn != false) xm xe ym ye := rfl
  have hy0 : (FVal.fin false ym ye).real ≠ 0 := fun c => hy ((real_eq_zero _ _ _).1 c)
  have hz : (FVal.fin xn xm xe).real / (FVal.fin false ym ye).real = 0 ↔ xm = 0 := by
    rw [div_eq_zero_iff, or_iff_left hy0, real_eq_zero]
  by_cases h0 : xm = 0
  · rw [if_pos h0] at hq
    have hv := hz.2 h0
    rw [hv, hq]
    refine ⟨⟨⟨fun _ => by simp, fun c => by cases c⟩, fun c => absurd rfl c, fun c => absurd rfl c, fun c => by cases c⟩, fun _ => ⟨by simp, rfl⟩⟩
  · rw [if_neg h0] at hq
    rw [hq]
    exact ⟨stands_div xn xm xe false ym ye 100 le_rfl hy, fun c => absurd (hz.1 c) h0⟩

/-- The largest leading bit among the values of a list that are not zero. -/
theorem topExpo_real (xs : List FVal) (h : ∀ x ∈ xs, x.isFin = true) :
    (topExpo xs = none ∧ ∀ x ∈ xs, x.real = 0) ∨
    ∃ t, topExpo xs = some t ∧ (∀ x ∈ xs, x.real ≠ 0 → expoOf x.real ≤ t) ∧ ∃ x ∈ xs, x.real ≠ 0 ∧ expoOf x.real = t := by
  induction xs using List.reverseRecOn with
  | nil => left; exact ⟨rfl, by simp⟩
  | append_singleton l y ih =>
    have ih := ih (fun x hx => h x (by simp [hx]))
    obtain ⟨n, m, e, rfl⟩ := isFin_fin y (h y (by simp))
    have hstep : topExpo (l ++ [.fin n m e]) = if m = 0 then topExpo l else
        match topExpo l with
        | none => some (FVal.fin n m e).expo
        | some t => some (max t (FVal.fin n m e).expo) := by
      simp only [topExpo, List.foldl_append, List.foldl_cons, List.foldl_nil, FVal.isZero]
      by_cases hm : m = 0
      · simp [hm]
      · have : (m == 0) = false := by simpa using hm
        simp only [this, Bool.false_eq_true, if_false, hm] <;> rfl
    by_cases hm : m = 0
    · rw [if_pos hm] at hstep
      have hr : (FVal.fin n m e).real = 0 := (real_eq_zero n m e).2 hm
      rw [hstep]
      rcases ih with ⟨a, b⟩ | ⟨t, a, b, x, hx, c⟩
      · left
        refine ⟨a, fun x hx => ?_⟩
        rcases List.mem_append.1 hx with hx | hx
        · exact b x hx
        · rw [List.mem_singleton.1 hx]; exact hr
      · right
        refine ⟨t, a, fun x hx hne => ?_, x, by simp [hx], c⟩
        rcases List.mem_append.1 hx with hx | hx
        · exact b x hx hne
        · rw [List.mem_singleton.1 hx] at hne; exact absurd hr hne
    · rw [if_neg hm] at hstep
      have hr : (FVal.fin n m e).real ≠ 0 := fun c => hm ((real_eq_zero n m e).1 c)
      have he := expo_real n m e hm
      right
      rcases ih with ⟨a, b⟩ | ⟨t, a, b, x, hx, c⟩
      · rw [a] at hstep
        refine ⟨_, hstep, fun x hx hne => ?_, .fin n m e, by simp, hr, he.symm⟩
        rcases List.mem_append.1 hx with hx | hx
        · exact absurd (b x hx) hne
        · rw [List.mem_singleton.1 hx, he]
      · rw [a] at hstep
        refine ⟨_, hstep, fun x hx hne => ?_, ?_⟩
        · rcases List.mem_append.1 hx with hx | hx
          · exact le_trans (b x hx hne) (le_max_left _ _)
          · rw [List.mem_singleton.1 hx, he]; exact le_max_right _ _
        · rcases le_total (FVal.fin n m e).expo t with hle | hle
          · exact ⟨x, by simp [hx], c.1, by rw [c.2, max_eq_left hle]⟩
          · exact ⟨.fin n m e, by simp, hr, by rw [max_eq_right hle, he]⟩

end Sys2Proof.Laws
end

