-- ==== Sys2Proof/Tests/Slice0.lean ====
section
/-! SUPPORT. Tests: words written out from the spec's encodings decode to what they stand for, each check of a word refuses an ill-formed
one, single instructions give the spec's worked examples, and for each obligation with hypotheses a concrete state and operands meet them. -/

namespace Sys2Proof.Tests

open Sys2Proof Sys2Proof.Machine

set_option Elab.async false

/-! ## Decoding: one word per instruction, written from R52 to R54 and R79 to R87 -/

theorem test_decode_integer : ∀ x ∈ ([
    (0x0200051C0C100000, .add .always (.g 35) (.g 1) (.g 2)),
    (0x0210051C0C100000, .addw .always (.g 35) (.g 1) (.g 2)),
    (0x0220051C0C100000, .adds .always (.g 35) (.g 1) (.g 2)),
    (0x0230051C0C100000, .addu .always (.g 35) (.g 1) (.g 2)),
    (0x0400051C0FC7FFFE, .sub .always (.g 35) (.g 1) (.imm 0x7FFFE)),
    (0x0410051C0FC7FFFE, .subw .always (.g 35) (.g 1) (.imm 0x7FFFE)),
    (0x0420051C0FC7FFFE, .subs .always (.g 35) (.g 1) (.imm 0x7FFFE)),
    (0x0430051C0FC7FFFE, .subu .always (.g 35) (.g 1) (.imm 0x7FFFE)),
    (0x0600051FC417FFFE, .mul .always (.g 35) (.imm 0x7FFFE) (.g 2)),
    (0x0610051FC417FFFE, .mulw .always (.g 35) (.imm 0x7FFFE) (.g 2)),
    (0x0620051FC417FFFE, .mulhs .always (.g 35) (.imm 0x7FFFE) (.g 2)),
    (0x0630051FC417FFFE, .mulhu .always (.g 35) (.imm 0x7FFFE) (.g 2)),
    (0x08042D1C0C100000, .divs (.ifTrue 5) (.g 35) (.g 1) (.g 2)),
    (0x08142D1C0C100000, .divu (.ifTrue 5) (.g 35) (.g 1) (.g 2)),
    (0x08242D1C0C100000, .rems (.ifTrue 5) (.g 35) (.g 1) (.g 2)),
    (0x08342D1C0C100000, .remu (.ifTrue 5) (.g 35) (.g 1) (.g 2)),
    (0x0A08351C0FC80000, .andI (.ifFalse 6) (.g 35) (.g 1) .zero),
    (0x0A18351C0FC80000, .orI (.ifFalse 6) (.g 35) (.g 1) .zero),
    (0x0A28351C0FC80000, .xorI (.ifFalse 6) (.g 35) (.g 1) .zero),
    (0x0A38351C0FC80000, .andn (.ifFalse 6) (.g 35) (.g 1) .zero),
    (0x0A48351C0FC80000, .orn (.ifFalse 6) (.g 35) (.g 1) .zero),
    (0x0A58351C0FC80000, .xnor (.ifFalse 6) (.g 35) (.g 1) .zero),
    (0x0C00051C0FC7FFFE, .shl .always (.g 35) (.g 1) (.imm 0x7FFFE)),
    (0x0C10051C0FC7FFFE, .shr .always (.g 35) (.g 1) (.imm 0x7FFFE)),
    (0x0C20051C0FC7FFFE, .sra .always (.g 35) (.g 1) (.imm 0x7FFFE)),
    (0x0C30051C0FC7FFFE, .ror .always (.g 35) (.g 1) (.imm 0x7FFFE)),
    (0x0E0007FC0C100000, .mins .always .none (.g 1) (.g 2)),
    (0x0E1007FC0C100000, .minu .always .none (.g 1) (.g 2)),
    (0x0E2007FC0C100000, .maxs .always .none (.g 1) (.g 2)),
    (0x0E3007FC0C100000, .maxu .always .none (.g 1) (.g 2)),
    (0x1000051C0FF80000, .clz .always (.g 35) (.g 1)),
    (0x1010051C0FF80000, .ctz .always (.g 35) (.g 1)),
    (0x1020051C0FF80000, .popc .always (.g 35) (.g 1)),
    (0x1030051C0FF80000, .brev .always (.g 35) (.g 1)),
    (0x1040051C0FF80000, .bswap .always (.g 35) (.g 1)),
    (0x1200051FC7FFFFFE, .movi .always (.g 35) 0x7FFFE),
    (0x1400051C0FC7FFFE, .movx .always (.g 35) (.g 1) 0x7FFFE),
    (0x1600051C0C100000, .extu .always (.g 35) (.g 1) (.g 2)),
    (0x1610051C0C100000, .exts .always (.g 35) (.g 1) (.g 2)),
    (0x1620051C0C100B53, .ins .always (.g 35) (.g 1) (.g 2) 0x13 0x2D),
    (0x1800051C0C100000, .cmpEq .always (.g 35) (.g 1) (.g 2)),
    (0x1810051C0C100000, .cmpNe .always (.g 35) (.g 1) (.g 2)),
    (0x1820051C0C100000, .cmpLts .always (.g 35) (.g 1) (.g 2)),
    (0x1830051C0C100000, .cmpLes .always (.g 35) (.g 1) (.g 2)),
    (0x1840051C0C100000, .cmpLtu .always (.g 35) (.g 1) (.g 2)),
    (0x1850051C0C100000, .cmpLeu .always (.g 35) (.g 1) (.g 2)),
    (0x1A0007270F104800, .sel .always (.v 4) (.v 1) (.v 2) (.slot 9)),
    (0x1C00051838400000, .pand .always (.g 35) (.slot 7) (.slot 8)),
    (0x1C10051838400000, .por .always (.g 35) (.slot 7) (.slot 8)),
    (0x1C20051838400000, .pxor .always (.g 35) (.slot 7) (.slot 8)),
    (0x1C3005183FF80000, .pnot .always (.g 35) (.slot 7)),
    (0x1C40051C0FF80000, .tstnz .always (.g 35) (.g 1)),
    (0x1E0007A78FF80000, .mov .always (.c 4) (.c 1)),
    (0x1E1006FC0FF80000, .movgf .always (.f 31) (.g 1)),
    (0x1E20051E27F80000, .movfg .always (.g 35) (.f 4))] : List (BitVec 64 × Instr)), decode x.1 = some x.2 ∧ encode x.2 = x.1 := by decide +kernel

theorem test_decode_control : ∀ x ∈ ([
    (0x200837FFC7FFFFFE, .br (.ifFalse 6) 0x7FFFE),
    (0x220007FC0FF80000, .brx .always (.g 1)),
    (0x240005FFC7F80005, .call .always 63 5),
    (0x260007FC0FF80000, .ret .always (.g 1)),
    (0x28042FFFFFF80000, .endt (.ifTrue 5)),
    (0x281007FFFFF80000, .yieldT .always),
    (0x282007FC0FF80000, .park .always (.g 1)),
    (0x2A0007FFFFF800C7, .trap .always 0xC7),
    (0x2C00051FFFF80101, .rds .always (.g 35) 0x101),
    (0x2C1007FC0FF80008, .wrs .always 0x008 (.g 1)),
    (0x2E0007FFFFF80000, .tret .always),
    (0x2E1007FFFC100000, .tretAt .always (.g 2))] : List (BitVec 64 × Instr)), decode x.1 = some x.2 ∧ encode x.2 = x.1 := by decide +kernel

theorem test_decode_float : ∀ x ∈ ([
    (0x401006FE26280000, .fadd .always (.f 31) .f32 .rtz (.f 4) (.f 5)),
    (0x42A006FE26280000, .fsub .always (.f 31) .f64 .rup (.f 4) (.f 5)),
    (0x453006FE26280000, .fmul .always (.f 31) .bf16 .rdn (.f 4) (.f 5)),
    (0x47C006FE262E3000, .ffma .always (.f 31) .f16 .rna (.f 4) (.f 5) (.f 6)),
    (0x48D006FE26280000, .fdiv .always (.f 31) .f64 .dyn (.f 4) (.f 5)),
    (0x4A0006FE27F80000, .fsqrt .always (.f 31) .f32 .rne (.f 4)),
    (0x4D0006FE26280000, .fmin .always (.f 31) .bf16 (.f 4) (.f 5)),
    (0x4D1006FE26280000, .fmax .always (.f 31) .bf16 (.f 4) (.f 5)),
    (0x4D2006FE26280000, .fminm .always (.f 31) .bf16 (.f 4) (.f 5)),
    (0x4D3006FE26280000, .fmaxm .always (.f 31) .bf16 (.f 4) (.f 5)),
    (0x4F80051E26280000, .fcmpEq .always (.g 35) .f16 (.f 4) (.f 5)),
    (0x4F90051E26280000, .fcmpLt .always (.g 35) .f16 (.f 4) (.f 5)),
    (0x4FA0051E26280000, .fcmpLe .always (.g 35) .f16 (.f 4) (.f 5)),
    (0x4FB0051E26280000, .fcmpUn .always (.g 35) .f16 (.f 4) (.f 5)),
    (0x4FC0051E26280000, .fcmpEqs .always (.g 35) .f16 (.f 4) (.f 5)),
    (0x510006FE27F8000D, .fcvt .always (.f 31) .bf16 .f64 .rdn (.f 4)),
    (0x5200051E27F80009, .fcviFs .always (.g 35) .f64 .rup (.f 4)),
    (0x5210051E27F80009, .fcviFu .always (.g 35) .f64 .rup (.f 4)),
    (0x522006FC0FF80007, .fcviSf .always (.f 31) .f16 .rtz (.g 1)),
    (0x523006FC0FF80007, .fcviUf .always (.f 31) .f16 .rtz (.g 1)),
    (0x548006FE27F80000, .fabs .always (.f 31) .f64 (.f 4)),
    (0x549006FE27F80000, .fneg .always (.f 31) .f64 (.f 4)),
    (0x542006FE26280000, .fcps .always (.f 31) .f32 (.f 4) (.f 5)),
    (0x5600051E27F80000, .fsigr .always (.g 35) .f32 (.f 4)),
    (0x569006FE27C7FFFE, .fsigw .always (.f 31) .f64 (.f 4) (.imm 0x7FFFE)),
    (0x5720051E24100000, .fsiglt .always (.g 35) .bf16 (.f 4) (.g 2)),
    (0x598006FE27F80000, .frcp .always (.f 31) .f16 (.f 4)),
    (0x599006FE27F80000, .frsq .always (.f 31) .f16 (.f 4)),
    (0x59A006FE27F80000, .fex2 .always (.f 31) .f16 (.f 4)),
    (0x59B006FE27F80000, .flg2 .always (.f 31) .f16 (.f 4)),
    (0x5B00051E27F80000, .fcls .always (.g 35) .bf16 (.f 4))] : List (BitVec 64 × Instr)), decode x.1 = some x.2 ∧ encode x.2 = x.1 := by decide +kernel

theorem test_decode_vector : ∀ x ∈ ([
    (0x602007270F100000, .vadd .always (.v 4) (.f32 .rup) (.v 1) (.v 2)),
    (0x630007270F100000, .vsub .always (.v 4) .i32 (.v 1) (.v 2)),
    (0x645007270F100000, .vmul .always (.v 4) (.f32 .dyn) (.v 1) (.v 2)),
    (0x663007270F171800, .vfma .always (.v 4) (.f32 .rdn) (.v 1) (.v 2) (.v 3)),
    (0x693007270F100000, .vmnx .always (.v 4) .maxu (.v 1) (.v 2)),
    (0x6A30051F0F100000, .vcmp .always (.g 35) .fun_ (.v 1) (.v 2)),
    (0x6C0007270C500000, .vselSet .always (.v 4) (.v 1) (.g 10)),
    (0x6C1007270C500000, .vselClr .always (.v 4) (.v 1) (.g 10)),
    (0x6E0006FF0FF80000, .vredSum .always (.f 31) (.v 1)),
    (0x6E1006FF0FF80000, .vredMax .always (.f 31) (.v 1)),
    (0x6E2006FF0FF80000, .vredMin .always (.f 31) (.v 1)),
    (0x6E3006FF0FF80000, .vredAmax .always (.f 31) (.v 1))] : List (BitVec 64 × Instr)), decode x.1 = some x.2 ∧ encode x.2 = x.1 := by decide +kernel

theorem test_decode_vector_approx : ∀ x ∈ ([
    (0x710007240FF80000, .vbc .always (.v 4) .i32 (.g 1)),
    (0x720007270F100000, .vperm .always (.v 4) (.v 1) (.v 2)),
    (0x740007270FF80000, .vactRelu .always (.v 4) (.v 1)),
    (0x741007270FF80000, .vactGelt .always (.v 4) (.v 1)),
    (0x742007270FF80000, .vactSilu .always (.v 4) (.v 1)),
    (0x743007270FF80000, .vactExp .always (.v 4) (.v 1)),
    (0x744007270FF80000, .vactTanh .always (.v 4) (.v 1)),
    (0x745007270FF80000, .vactSigm .always (.v 4) (.v 1)),
    (0x746007270FF80000, .vactRcp .always (.v 4) (.v 1)),
    (0x747007270FF80000, .vactRsq .always (.v 4) (.v 1)),
    (0x760007270FF80000, .vcvtBf16F32 .always (.v 4) (.v 1)),
    (0x761007270FF80000, .vcvtF32Bf16 .always (.v 4) (.v 1)),
    (0x762007270FF80000, .vcvtF16F32 .always (.v 4) (.v 1)),
    (0x763007270FF80000, .vcvtF32F16 .always (.v 4) (.v 1)),
    (0x764007270FF80000, .vcvtI32F32 .always (.v 4) (.v 1)),
    (0x765007270FF80000, .vcvtF32I32 .always (.v 4) (.v 1)),
    (0x766007270FF80000, .vcvtE5m2F32 .always (.v 4) (.v 1)),
    (0x767007270FF80000, .vcvtF32E5m2 .always (.v 4) (.v 1)),
    (0x768007270FF80000, .vcvtF32E4m3 .always (.v 4) (.v 1)),
    (0x780007270E280000, .vqntE4m3Sat .always (.v 4) (.v 1) (.f 5)),
    (0x781007270E280000, .vqntE4m3Nan .always (.v 4) (.v 1) (.f 5)),
    (0x782007270F100000, .vqntMxfp4 .always (.v 4) (.v 1) (.v 2)),
    (0x783007270F100000, .vqntMxint8 .always (.v 4) (.v 1) (.v 2)),
    (0x784007270F100000, .vqntMxfp8 .always (.v 4) (.v 1) (.v 2)),
    (0x785007270E280000, .vqntInt8 .always (.v 4) (.v 1) (.f 5)),
    (0x786007270E280000, .vqntInt4 .always (.v 4) (.v 1) (.f 5))] : List (BitVec 64 × Instr)), decode x.1 = some x.2 ∧ encode x.2 = x.1 := by decide +kernel

theorem test_decode_vector_lanes : ∀ x ∈ ([
    (0x830007270C100000, .vscl .always (.v 4) .i32 (.v 1) (.g 2)),
    (0x7A0007270E280000, .vdqE4m3Sat .always (.v 4) (.v 1) (.f 5)),
    (0x7A1007270E280000, .vdqE4m3Nan .always (.v 4) (.v 1) (.f 5)),
    (0x7A5007270E280000, .vdqInt8 .always (.v 4) (.v 1) (.f 5)),
    (0x7A6007270E280000, .vdqInt4 .always (.v 4) (.v 1) (.f 5)),
    (0x7A2007270FF80001, .vdqMxfp4 .always (.v 4) true (.v 1)),
    (0x7A3007270FF80001, .vdqMxint8 .always (.v 4) true (.v 1)),
    (0x7A4007270FF80001, .vdqMxfp8 .always (.v 4) true (.v 1)),
    (0x7C0007270FF80000, .vsigRd .always (.v 4) (.v 1)),
    (0x7C1007270FC7FFFE, .vsigMin .always (.v 4) (.v 1) (.imm 0x7FFFE)),
    (0x7C20051F0C100000, .vsigLt .always (.g 35) (.v 1) (.g 2)),
    (0x7E0006FF0FC7FFFE, .vext .always (.f 31) .f32 (.v 1) (.imm 0x7FFFE)),
    (0x7F1007270C10000B, .vins .always (.v 4) .i32 11 (.v 1) (.g 2)),
    (0x7E200727FFF80000, .vidx .always (.v 4)),
    (0x7E3007270C100000, .vshr .always (.v 4) (.v 1) (.g 2)),
    (0x800007270F100000, .vand .always (.v 4) (.v 1) (.v 2)),
    (0x801007270F100000, .vor .always (.v 4) (.v 1) (.v 2)),
    (0x802007270F100000, .vxor .always (.v 4) (.v 1) (.v 2)),
    (0x803007270F100000, .vshl .always (.v 4) (.v 1) (.v 2)),
    (0x804007270F100000, .vshrl .always (.v 4) (.v 1) (.v 2)),
    (0x805007270F100000, .vsra .always (.v 4) (.v 1) (.v 2))] : List (BitVec 64 × Instr)), decode x.1 = some x.2 ∧ encode x.2 = x.1 := by decide +kernel

theorem test_decode_memory : ∀ x ∈ ([
    (0x9060051F8C15A380, .ld .always (.g 35) ⟨5, 0xA3, .wafer⟩ .b32 true (.c 1) (.g 2)),
    (0x90B0051F8C15A380, .ldWaitf .always (.g 35) ⟨5, 0xA3, .wafer⟩ .b64 false (.c 1) (.g 2)),
    (0x9110051F8C15A380, .ldTake .always (.g 35) ⟨5, 0xA3, .wafer⟩ .b16 false (.c 1) (.g 2)),
    (0x9180051F8FCDA380, .ldPres .always (.g 35) ⟨5, 0xA3, .wafer⟩ .b8 (.c 1) .zero),
    (0x9200042F8C15A380, .st .always ⟨5, 0xA3, .wafer⟩ .b8 (.c 1) (.g 2) (.g 5)),
    (0x9290042F8C15A380, .stFill .always ⟨5, 0xA3, .wafer⟩ .b16 (.c 1) (.g 2) (.g 5)),
    (0x9320042F8C15A380, .stSetf .always ⟨5, 0xA3, .wafer⟩ .b32 (.c 1) (.g 2) (.g 5)),
    (0x93B0042F8C15A380, .stClre .always ⟨5, 0xA3, .wafer⟩ .b64 (.c 1) (.g 2) (.g 5)),
    (0x94A006FF8C15A380, .flsLd .always (.f 31) ⟨5, 0xA3, .wafer⟩ .f64 true (.c 1) (.g 2)),
    (0x956006FF8C15A380, .flsLdWaitf .always (.f 31) ⟨5, 0xA3, .wafer⟩ .f16 false (.c 1) (.g 2)),
    (0x945006378C15A380, .flsSt .always ⟨5, 0xA3, .wafer⟩ .bf16 false (.c 1) (.g 2) (.f 6)),
    (0x959006378C15A380, .flsStFill .always ⟨5, 0xA3, .wafer⟩ .f32 true (.c 1) (.g 2) (.f 6)),
    (0x960007278C15A380, .vlsLd .always (.v 4) ⟨5, 0xA3, .wafer⟩ false (.c 1) (.g 2)),
    (0x96A007278C15A380, .vlsLdWaitf .always (.v 4) ⟨5, 0xA3, .wafer⟩ true (.c 1) (.g 2)),
    (0x964007278C15A380, .vlsLdTake .always (.v 4) ⟨5, 0xA3, .wafer⟩ false (.c 1) (.g 2)),
    (0x9610071F8C15A380, .vlsSt .always ⟨5, 0xA3, .wafer⟩ false (.c 1) (.g 2) (.v 3)),
    (0x96B0071F8C15A380, .vlsStFill .always ⟨5, 0xA3, .wafer⟩ true (.c 1) (.g 2) (.v 3)),
    (0x9650071F8C15A380, .vlsStSetf .always ⟨5, 0xA3, .wafer⟩ false (.c 1) (.g 2) (.v 3)),
    (0x96F0071F8C15A380, .vlsStClre .always ⟨5, 0xA3, .wafer⟩ true (.c 1) (.g 2) (.v 3))] : List (BitVec 64 × Instr)), decode x.1 = some x.2 ∧ encode x.2 = x.1 := by decide +kernel

theorem test_decode_atomic_pointer : ∀ x ∈ ([
    (0x9800051F8C15A382, .amoAdd .always (.g 35) ⟨5, 0xA3, .wafer⟩ false (.c 1) (.g 2)),
    (0x9810051F8C15A383, .amoAnd .always (.g 35) ⟨5, 0xA3, .wafer⟩ true (.c 1) (.g 2)),
    (0x9820051F8C15A382, .amoOr .always (.g 35) ⟨5, 0xA3, .wafer⟩ false (.c 1) (.g 2)),
    (0x9830051F8C15A383, .amoXor .always (.g 35) ⟨5, 0xA3, .wafer⟩ true (.c 1) (.g 2)),
    (0x9840051F8C15A382, .amoMins .always (.g 35) ⟨5, 0xA3, .wafer⟩ false (.c 1) (.g 2)),
    (0x9850051F8C15A383, .amoMaxs .always (.g 35) ⟨5, 0xA3, .wafer⟩ true (.c 1) (.g 2)),
    (0x9860051F8C15A382, .amoMinu .always (.g 35) ⟨5, 0xA3, .wafer⟩ false (.c 1) (.g 2)),
    (0x9870051F8C15A383, .amoMaxu .always (.g 35) ⟨5, 0xA3, .wafer⟩ true (.c 1) (.g 2)),
    (0x9880051F8C15A382, .amoXchg .always (.g 35) ⟨5, 0xA3, .wafer⟩ false (.c 1) (.g 2)),
    (0x989006FF8E2DA382, .amoFadd32 .always (.f 31) ⟨5, 0xA3, .wafer⟩ (.c 1) (.f 5)),
    (0x98A006FF8E2DA382, .amoFmax32 .always (.f 31) ⟨5, 0xA3, .wafer⟩ (.c 1) (.f 5)),
    (0x98B006FF8E2DA382, .amoFmin32 .always (.f 31) ⟨5, 0xA3, .wafer⟩ (.c 1) (.f 5)),
    (0x9A00051F8C15A380, .cas32 .always (.g 35) ⟨5, 0xA3, .wafer⟩ (.c 1) (.g 2)),
    (0x9A10051F8D55A380, .cas64 .always (.g 35) ⟨5, 0xA3, .wafer⟩ (.c 1) 21),
    (0x9C0007A78FC7FFFE, .ptr .always (.c 4) (.c 1) (.imm 0x7FFFE)),
    (0x9C1007A78FC7FFFE, .padd .always (.c 4) (.c 1) (.imm 0x7FFFE)),
    (0x9C2007A78FC7FFFE, .cder .always (.c 4) (.c 1) (.imm 0x7FFFE)),
    (0x9C30051F8FF80002, .cget .always (.g 35) .len (.c 1)),
    (0x9C4007A78C15A380, .cld .always (.c 4) ⟨5, 0xA3, .wafer⟩ (.c 1) (.g 2)),
    (0x9C50079F8C15A380, .cst .always ⟨5, 0xA3, .wafer⟩ (.c 1) (.g 2) (.c 3)),
    (0x9E00051F8C100000, .prbR .always (.g 35) (.c 1) (.g 2)),
    (0x9E10051F8C100000, .prbW .always (.g 35) (.c 1) (.g 2))] : List (BitVec 64 × Instr)), decode x.1 = some x.2 ∧ encode x.2 = x.1 := by decide +kernel

theorem test_decode_engine : ∀ x ∈ ([
    (0xB000042F8F95A380, .xcpy .always ⟨5, 0xA3, .wafer⟩ (.c 1) (.c 2) (.g 5)),
    (0xB200042F8FFDA380, .xchn .always ⟨5, 0xA3, .wafer⟩ (.c 1) (.g 5)),
    (0xB400079F8F95A380, .xred .always ⟨5, 0xA3, .wafer⟩ (.c 1) (.c 2) (.c 3)),
    (0xB600042C0FFDA380, .xcolAllredSum .always ⟨5, 0xA3, .wafer⟩ (.g 1) (.g 5)),
    (0xB610042C0FFDA380, .xcolAllredMax .always ⟨5, 0xA3, .wafer⟩ (.g 1) (.g 5)),
    (0xB620042C0FFDA380, .xcolAllgath .always ⟨5, 0xA3, .wafer⟩ (.g 1) (.g 5)),
    (0xB630042C0FFDA380, .xcolRedscatSum .always ⟨5, 0xA3, .wafer⟩ (.g 1) (.g 5)),
    (0xB640042C0FFDA380, .xcolBcast .always ⟨5, 0xA3, .wafer⟩ (.g 1) (.g 5)),
    (0xB80007FC0F95A380, .xregReg .always ⟨5, 0xA3, .wafer⟩ (.g 1) (.c 2)),
    (0xB81007FC0FFDA380, .xregRel .always ⟨5, 0xA3, .wafer⟩ (.g 1))] : List (BitVec 64 × Instr)), decode x.1 = some x.2 ∧ encode x.2 = x.1 := by decide +kernel

theorem test_decode_field_rill : ∀ x ∈ ([
    (0xC000051F8C15A380, .cfgConf .always (.g 35) ⟨5, 0xA3, .wafer⟩ (.c 1) (.g 2)),
    (0xC01007FC0FFDA380, .cfgFrel .always ⟨5, 0xA3, .wafer⟩ (.g 1)),
    (0xC020051C0FF80000, .cfgFqry .always (.g 35) (.g 1)),
    (0xC20007FF8C15A385, .feed .always ⟨5, 0xA3, .wafer⟩ true false true (.c 1) (.g 2)),
    (0xC40007FF8C15A380, .wld .always ⟨5, 0xA3, .wafer⟩ (.c 1) (.g 2)),
    (0xC60007240FF80000, .drnPop .always (.v 4) (.g 1)),
    (0xC61007240FF80000, .drnLast .always (.v 4) (.g 1)),
    (0xC62007240FF80000, .drnPeek .always (.v 4) (.g 1)),
    (0xC80007FFC7FFFFFE, .accAclr .always (.imm 0x7FFFE)),
    (0xC810051C0FF80000, .accAsta .always (.g 35) (.g 1)),
    (0xCA0007FC0C100000, .chsInt .always (.g 1) (.g 2)),
    (0xCA1007FC0E280000, .chsFp .always (.g 1) (.f 5)),
    (0xCA2007FC0F100000, .chsVec .always (.g 1) (.v 2)),
    (0xCA3007FFC7FFFFFE, .chsEos .always (.imm 0x7FFFE)),
    (0xCA4007FC0FC7FFFE, .chsMark .always (.g 1) (.imm 0x7FFFE)),
    (0xCC00051C0FF80000, .chrInt .always (.g 35) (.g 1)),
    (0xCC1006FC0FF80000, .chrFp .always (.f 31) (.g 1)),
    (0xCC2007240FF80000, .chrVec .always (.v 4) (.g 1)),
    (0xCC30051C0FF80000, .chrEnd .always (.g 35) (.g 1)),
    (0xCC40051C0FF80000, .chrStat .always (.g 35) (.g 1)),
    (0xCC50051C0FF80000, .chrLat .always (.g 35) (.g 1)),
    (0xCE0007FC0C100000, .chcBind .always (.g 1) (.g 2)),
    (0xCE1007FC0C100000, .chcCred .always (.g 1) (.g 2)),
    (0xCE2007FC0C100000, .chcSpst .always (.g 1) (.g 2)),
    (0xD00007FC0FC7FFFE, .admAset .always (.g 1) (.imm 0x7FFFE)),
    (0xD010051FC7FFFFFE, .admArd .always (.g 35) (.imm 0x7FFFE))] : List (BitVec 64 × Instr)), decode x.1 = some x.2 ∧ encode x.2 = x.1 := by decide +kernel

theorem test_decode_sync_task_system : ∀ x ∈ ([
    (0xE00007FC0FC7FFFE, .semSsig .always (.g 1) (.imm 0x7FFFE)),
    (0xE01007FC0FC7FFFE, .semSsigr .always (.g 1) (.imm 0x7FFFE)),
    (0xE020051C0C100000, .semSwait .always (.g 35) (.g 1) (.g 2)),
    (0xE030051C0C100000, .semSwaitd .always (.g 35) (.g 1) (.g 2)),
    (0xE04007FC0C100000, .semSset .always (.g 1) (.g 2)),
    (0xE050051C0FF80000, .semSrd .always (.g 35) (.g 1)),
    (0xE200051C0FF80000, .bara .always (.g 35) (.g 1)),
    (0xE400051C0C100000, .barw .always (.g 35) (.g 1) (.g 2)),
    (0xE600051FC417FFFE, .taskSpawn .always (.g 35) (.imm 0x7FFFE) (.g 2)),
    (0xE61007FC0C100000, .taskWake .always (.g 1) (.g 2)),
    (0xE62007FC0C100000, .taskSpri .always (.g 1) (.g 2)),
    (0xE630051C0FF80000, .taskTstat .always (.g 35) (.g 1)),
    (0xF00007FF8C15A380, .ctxCsave .always ⟨5, 0xA3, .wafer⟩ (.c 1) (.g 2)),
    (0xF01007FF8C15A380, .ctxCrest .always ⟨5, 0xA3, .wafer⟩ (.c 1) (.g 2)),
    (0xF20007FC0FF80000, .otcInvo .always (.g 1)),
    (0xF21007FC0FF80000, .otcInva .always (.g 1)),
    (0xF22007FC0C100000, .otcPin .always (.g 1) (.g 2)),
    (0xF40007FF8C15A380, .tblwRoute .always ⟨5, 0xA3, .wafer⟩ (.c 1) (.g 2)),
    (0xF41007FF8C15A380, .tblwName .always ⟨5, 0xA3, .wafer⟩ (.c 1) (.g 2)),
    (0xF42007FF8C15A380, .tblwHeat .always ⟨5, 0xA3, .wafer⟩ (.c 1) (.g 2)),
    (0xF43007FF8C15A380, .tblwAdmc .always ⟨5, 0xA3, .wafer⟩ (.c 1) (.g 2)),
    (0xF60007FC0FF80000, .haltc .always (.g 1))] : List (BitVec 64 × Instr)), decode x.1 = some x.2 ∧ encode x.2 = x.1 := by decide +kernel

/-! ## Well-formedness: each check refuses an ill-formed term or word -/

/-- A register of another class (R55), two IMMs (R55), D of another class (R56), SEL of two classes, of a register as its predicate
and of ZERO beside a pointer (R54, R107, R55), a 64-bit sign-extending load (R180), an unassigned and a read-only system register (R81), ZERO as a pointer (R54), a g register as a
PRED (R55), IMM in a memory form (R53), and an event, which has no word. -/
theorem test_wf_refuses : ∀ i ∈ ([
    .add .always (.g 1) (.f 1) (.g 2), .add .always (.g 1) (.imm 1) (.imm 2), .add .always (.f 1) (.g 1) (.g 2),
    .fneg .always (.g 1) .f32 (.f 1), .sel .always .none (.v 1) (.f 2) (.slot 3), .sel .always .none (.v 1) (.v 2) (.g 3),
    .sel .always .none (.c 1) .zero (.slot 3),
    .ld .always (.g 1) ⟨0, 0, .core⟩ .b64 true (.c 1) .zero, .rds .always (.g 1) 0x00F, .wrs .always 0x000 (.g 1),
    .wrs .always 0x005 (.g 1), .ptr .always (.c 1) .zero (.g 1), .pnot .always (.g 1) (.g 2),
    .st .always ⟨0, 0, .core⟩ .b8 (.c 1) (.imm 4) (.g 1), .vadd .always (.v 1) .i32 (.v 1) (.f 2), .securityAlarm] : List Instr),
    i.wf = false := by decide +kernel

/-- The like of them, well formed, is accepted. -/
theorem test_wf_accepts : ∀ i ∈ ([
    .add .always (.g 1) (.imm 1) (.g 2), .fneg .always (.f 1) .f32 (.f 1), .sel .always .none (.v 1) (.v 2) (.slot 3),
    .sel .always .none (.g 1) (.slot 2) (.slot 3), .sel .always .none (.g 1) .zero (.slot 3),
    .ld .always (.g 1) ⟨0, 0, .core⟩ .b32 true (.c 1) .zero, .rds .always (.g 1) 0x00E, .wrs .always 0x008 (.g 1),
    .pnot .always (.g 1) .zero] : List Instr), i.wf = true := by decide +kernel

/-- Pairs of words that differ in one field: the first decodes, the second breaks the rule named beside it. -/
theorem test_words_refused : ([
    (0x0200041C0C100000, 0x0000000000000000), -- ILL (R88)
    (0x0200041C0C100000, 0x3200041C0C100000), -- an unassigned OP
    (0x0230041C0C100000, 0x0240041C0C100000), -- an unassigned FN
    (0x02080C1C0C100000, 0x020C0C1C0C100000), -- PM 0b11 (R60)
    (0x0200041C0C100000, 0x02000C1C0C100000), -- PS without a predicate (R60)
    (0x0200041C0FC80000, 0x0200041C0FD00000), -- a reserved descriptor (R54)
    (0x0200041C0C100000, 0x0200041C0FF80000), -- NONE where an operand is wanted (R55)
    (0x1000041C0FF80000, 0x1000041C0FC80000), -- an operand where none is (R55)
    (0x0200041C0FC00001, 0x0200041C0C100001), -- X without IMM (R53)
    (0x0200041FC4100001, 0x0200041FC7C00001), -- two IMMs (R55)
    (0x2A0007FFFFF800FF, 0x2A0007FFFFF80100), -- an X bit that a fixed form does not name (R53)
    (0x1A0007270F104800, 0x1A0007270F104801), -- X[10:0] of operand C (R53)
    (0x4050060E16180000, 0x4060060E16180000), -- rounding code 6 in FN (R82)
    (0x5000060E17F80014, 0x5000060E17F8001C), -- rounding code 7 in X (R82)
    (0x9800040F8C15A382, 0x9800040F8C15A381), -- AMO size 1 (R84)
    (0x9890060F8E15A382, 0x9890060F8E15A383), -- FADD32 of size 3 (R84)
    (0x9A10040F8D55A380, 0x9A10040F8D5DA380), -- CAS.64 of an odd register (R84)
    (0x9060040F8C15A380, 0x9070040F8C15A380), -- a sign-extending load of 64 bits (R180)
    (0x9180040F8C15A380, 0x91C0040F8C15A380), -- LD.PRES with a sign (R180)
    (0x9640070F8C15A380, 0x9660070F8C15A380), -- VLS.LD of mode 3 (R84)
    (0x240005FFC7F80005, 0x240007FFC7F80005), -- CALL without a link (R80)
    (0x0200041C0C100000, 0x0200001C0C100000), -- a slot as D (R56)
    (0x4000060E16180000, 0x4000040E16180000), -- D of another class (R56)
    (0x7A50070F16180000, 0x7A50070F16180001), -- the half of a form that has none (R83)
    (0x6930070F17180000, 0x69B0070F17180000), -- FN[3] of a vector row (R83)
    (0x2C00040FFFF8000E, 0x2C00040FFFF8000F), -- an unassigned system register (R81)
    (0x2C1007FC0FF80002, 0x2C1007FC0FF80001), -- a write of a read-only one (R81)
    (0x1C3004082FF80000, 0x1C30040C2FF80000), -- a g register as a PRED (R55)
    (0x9C00078F97C80000, 0x9C00078FCFC80000), -- ZERO as a pointer (R54)
    (0x1A0007FF0F104800, 0x1A0007FF0E104800), -- SEL of two classes (R107)
    (0x9000040F8C15A380, 0x9000040F8FC5A380), -- IMM in a memory form (R53)
    (0x9000040F8C15A380, 0x9000040F8C15A381)  -- an extra bit of a memory form (R53)
    ] : List (BitVec 64 × BitVec 64)).map (fun x => ((decode x.1).isSome, (decode x.2).isSome)) =
    List.replicate 32 (true, false) := by decide +kernel

/-- The checks that need the block (R55, R60, R81, R87, R88, R174, R212): the answer names DECODE (true) or PRIV, with the slot. -/
theorem test_block_checks :
    -- a lower slot of the class is accepted
    checkBlock true ([0x180007FC0C100000, 0x0204041C0C100000]) = none ∧
    -- its own slot
    checkBlock true ([0x020007F804100000]) = some (true, 0) ∧
    -- a higher slot
    checkBlock true ([0x020007FC0C100000, 0x020007F814100000, 0x020007FC0C100000]) = some (true, 1) ∧
    -- a slot without a value
    checkBlock true ([0x280007FFFFF80000, 0x020007F804100000]) = some (true, 1) ∧
    -- a slot of another class
    checkBlock true ([0x180007FC0C100000, 0x020007F804100000]) = some (true, 1) ∧
    -- a predicate slot that is no PRED
    checkBlock true ([0x020007FC0C100000, 0x0204041C0C100000]) = some (true, 1) ∧
    -- a load whose mask names the stream of a lower store
    checkBlock true ([0x9230042F8FCA0000, 0x9030040F8FC80400]) = some (true, 1) ∧
    -- a load whose mask does not
    checkBlock true ([0x9230042F8FCA0000, 0x9030040F8FC80300]) = none ∧
    -- a privileged form without privilege
    checkBlock false ([0x020007FC0C100000, 0xF60007FC0FF80000]) = some (false, 1) ∧
    -- with privilege
    checkBlock true ([0x020007FC0C100000, 0xF60007FC0FF80000]) = none ∧
    -- a privileged register without privilege
    checkBlock false ([0x2C00040FFFF80100]) = some (false, 0) ∧
    -- DECODE before PRIV (R88)
    checkBlock false ([0xF60007FC0FF80000, 0x0000000000000000]) = some (true, 1) ∧
    -- 64 operations on one stream (R212)
    checkBlock true (List.replicate 64 0x9230042F8FCA0000) = some (true, 63) := by decide +kernel

/-- A header's N, and the headers that R57 refuses. -/
theorem test_header_words : headerWords 0xB5FE000000000000 = some 128 ∧ headerWords 0xB501000000000000 = some 1 ∧
    headerWords 0xB400000000000000 = none ∧ headerWords 0xB500000000000001 = none := by decide +kernel

/-! ## One step: the spec's worked examples -/

/-- A task with a few registers set; every other one is as at power-on. -/
def taskWith (g : List (BitVec 64)) (f : List FReg) (v : List VReg) (c : List Ptr) : Task where
  st := .running
  priv := true
  regs := { g := Vector.ofFn (fun i => g.getD i.val 0), f := Vector.ofFn (fun i => f.getD i.val ⟨0, 53⟩),
            v := Vector.ofFn (fun i => v.getD i.val zeroVec), c := Vector.ofFn (fun i => c.getD i.val {}) }

/-- Plot 0 runs a block of task t whose first slots have executed as listed; the next slot is under execution. -/
def running (t : Task) (done : List SlotRec) : State :=
  let x := State.reset.plot 0
  let b : Block := { oneWordBlock 0 with words := List.replicate (done.length + 1) 0, slots := done ++ [{}] }
  { (State.reset.setPlot 0 { x with tasks := x.tasks.set 0 t, h0 := { task := some 0, blk := some b } }) with
    focus := ⟨0, false, done.length, 0, false⟩ }

/-- What the slot under execution holds once an instruction has executed there. -/
noncomputable def after (s : State) (i : Instr) : Option SlotRec :=
  match exec i s with
  | .next t => (t.plot 0).h0.blk.bind (fun b => b.slots[s.focus.slot]?)
  | _ => none

/-- The value it gives, and the flags. -/
noncomputable def gives (s : State) (i : Instr) : Option (Option Val × FFlags) := (after s i).map (fun r => (r.val, r.flags))

/-- The cause with which it aborts its block. -/
noncomputable def aborted (s : State) (i : Instr) : Option CauseRec :=
  match exec i s with
  | .next t => (t.plot 0).h0.blk.bind (·.abort)
  | _ => none

/-- Integer operands in g1 and g2. -/
def ints (a b : BitVec 64) : State := running (taskWith [0, a, b] [] [] []) []

/-- FP operands in f1, f2 and f3. -/
def fps (l : List FReg) : State := running (taskWith [] (⟨0, 53⟩ :: l) [] []) []

/-- Vector operands in v1 and v2. -/
def vecs (l : List VReg) : State := running (taskWith [] [] (zeroVec :: l) []) []

/-- A vector of given lanes, each with tag 24. -/
def lanesOf (l : List (BitVec 32)) : VReg := VReg.mk16 (fun i => l.getD i 0) (fun _ => 24)

theorem test_add_examples :
    gives (ints 0x7FFFFFFFFFFFFFF0 0x40) (.add .always (.g 3) (.g 1) (.g 2)) = some (some (.int 0x8000000000000030), 0) ∧
    gives (ints 0x7FFFFFFFFFFFFFF0 0x40) (.adds .always (.g 3) (.g 1) (.g 2)) = some (some (.int 0x7FFFFFFFFFFFFFFF), 0) ∧
    gives (ints 3 5) (.subu .always (.g 3) (.g 1) (.g 2)) = some (some (.int 0), 0) ∧
    gives (ints 0x7FFFFFFF 1) (.addw .always (.g 3) (.g 1) (.g 2)) = some (some (.int 0xFFFFFFFF80000000), 0) := by decide +kernel

theorem test_division_table :
    gives (ints 7 0xFFFFFFFFFFFFFFFE) (.divs .always (.g 3) (.g 1) (.g 2)) = some (some (.int 0xFFFFFFFFFFFFFFFD), 0) ∧
    gives (ints 0xFFFFFFFFFFFFFFF9 2) (.divu .always (.g 3) (.g 1) (.g 2)) = some (some (.int 0x7FFFFFFFFFFFFFFC), 0) ∧
    gives (ints 0xFFFFFFFFFFFFFFF9 2) (.rems .always (.g 3) (.g 1) (.g 2)) = some (some (.int 0xFFFFFFFFFFFFFFFF), 0) ∧
    gives (ints 0x8000000000000000 0xFFFFFFFFFFFFFFFF) (.divs .always (.g 3) (.g 1) (.g 2)) =
      some (some (.int 0x8000000000000000), 0) ∧
    gives (ints 0x8000000000000000 0xFFFFFFFFFFFFFFFF) (.rems .always (.g 3) (.g 1) (.g 2)) = some (some (.int 0), 0) ∧
    (after (ints 5 0) (.remu .always (.g 3) (.g 1) (.g 2))).map (fun r => (r.val, r.idz)) = some (some (.int 5), true) := by
  decide +kernel

theorem test_fields_and_constants :
    gives (ints 0xF000 0x10C) (.exts .always (.g 3) (.g 1) (.g 2)) = some (some (.int 0xFFFFFFFFFFFFFFFF), 0) ∧
    gives (ints 0x246 0) (.movx .always (.g 3) (.g 1) 0x45678) = some (some (.int 0x12345678), 0) ∧
    gives (ints 0 0) (.clz .always (.g 3) (.g 1)) = some (some (.int 64), 0) ∧
    gives (ints 1 0) (.brev .always (.g 3) (.g 1)) = some (some (.int 0x8000000000000000), 0) := by decide +kernel

theorem test_fadd_f16_modes :
    (let s := fps [⟨0x7BFF, 11⟩, ⟨0x4C00, 11⟩]
     let f := fun r => gives s (.fadd .always (.f 4) .f16 r (.f 1) (.f 2))
     f .rne = some (some (.fp ⟨0x7C00, 0⟩), fOF ||| fNX) ∧ f .rna = some (some (.fp ⟨0x7C00, 0⟩), fOF ||| fNX) ∧
     f .rup = some (some (.fp ⟨0x7C00, 0⟩), fOF ||| fNX) ∧ f .rtz = some (some (.fp ⟨0x7BFF, 10⟩), fNX) ∧
     f .rdn = some (some (.fp ⟨0x7BFF, 10⟩), fNX)) := by decide +kernel

theorem test_fcvt_bf16 :
    gives (fps [⟨0x3F818000, 24⟩]) (.fcvt .always (.f 5) .bf16 .f32 .rtz (.f 1)) = some (some (.fp ⟨0x3F81, 7⟩), fNX) ∧
    gives (fps [⟨0x3F818000, 24⟩]) (.fcvt .always (.f 5) .bf16 .f32 .rne (.f 1)) = some (some (.fp ⟨0x3F82, 7⟩), fNX) ∧
    decode 0x5100062E17F80004 = some (.fcvt .always (.f 5) .bf16 .f32 .rtz (.f 2)) := by decide +kernel

theorem test_fcvi_table :
    gives (fps [⟨0xBF400000, 24⟩]) (.fcviFu .always (.g 3) .f32 .rtz (.f 1)) = some (some (.int 0), fNX) ∧
    gives (fps [⟨0xBF400000, 24⟩]) (.fcviFu .always (.g 3) .f32 .rne (.f 1)) = some (some (.int 0), fNV) ∧
    gives (fps [⟨0x5F000000, 24⟩]) (.fcviFs .always (.g 3) .f32 .rne (.f 1)) = some (some (.int 0x7FFFFFFFFFFFFFFF), fNV) ∧
    gives (ints 16777217 0) (.fcviSf .always (.f 3) .f32 .rne (.g 1)) = some (some (.fp ⟨0x4B800000, 23⟩), fNX) ∧
    gives (ints 0xFFFFFFFFFFFFFFFF 0) (.fcviUf .always (.f 3) .f16 .rne (.g 1)) = some (some (.fp ⟨0x7C00, 0⟩), fOF ||| fNX) := by
  decide +kernel

theorem test_division_and_reciprocal :
    gives (fps [⟨0x3F800000, 24⟩, ⟨0x40400000, 24⟩]) (.fdiv .always (.f 3) .f32 .rne (.f 1) (.f 2)) =
      some (some (.fp ⟨0x3EAAAAAB, 23⟩), fNX) ∧
    gives (fps [⟨0x40400000, 24⟩]) (.frcp .always (.f 3) .f32 (.f 1)) = some (some (.fp ⟨0x3EAAB000, 12⟩), fNX) ∧
    gives (fps [⟨0, 24⟩, ⟨0x80000000, 9⟩]) (.fmin .always (.f 3) .f32 (.f 1) (.f 2)) = some (some (.fp ⟨0x80000000, 9⟩), 0) ∧
    gives (fps [⟨0x7FC00000, 0⟩, ⟨0x40400000, 24⟩]) (.fmax .always (.f 3) .f32 (.f 1) (.f 2)) =
      some (some (.fp ⟨0x40400000, 24⟩), 0) := by decide +kernel

theorem test_vred_sum_example :
    gives (vecs [lanesOf [0x40400000, 0x3F800000, 0x4B800000, 0x3F800000]]) (.vredSum .always (.f 3) (.v 1)) =
      some (some (.fp ⟨0x4B800002, 23⟩), fNX) := by decide +kernel

/-- R142's tie: of lanes -2 (tag 5) and +2 (tag 20) the lower lane's operand stands. -/
theorem test_vred_amax_tie :
    gives (vecs [VReg.mk16 (fun i => if i = 0 then 0xC0000000 else if i = 1 then 0x40000000 else 0)
        (fun i => if i = 0 then 5 else if i = 1 then 20 else 24)]) (.vredAmax .always (.f 3) (.v 1)) =
      some (some (.fp ⟨0x40000000, 5⟩), 0) := by decide +kernel

/-- R389's first two rows, and R397: a counter that is written in the cycle of an event counts it. -/
theorem test_same_cycle :
    (let s : State := (State.reset.setSem 0 9 0xFFFF).clock 84 1
     let t : State := { s with mod := { s.mod with boot := 2 } }.clock 84 1
     let u := t.setSem 0 9 4 |>.clock 84 1
     (((t.signal 0 9 1).takeSem 0 9 1).plot 0).sem 9 = 0xFFFF ∧ (((u.signal 0 9 2).setSem 0 9 0).plot 0).sem 9 = 2 ∧
     ((((t.signal 0 9 1).plot 0).setCounter (t.cycOf 0) 17 5).counter (t.cycOf 0) 17) = 6) := by decide +kernel

/-- R10's ports of the dies of drow 0 and drow 6. -/
theorem test_port_die : [0, 1, 23, 24, 47].map portDie = [0, 0, 11, 72, 83] := by decide

theorem test_vact_examples :
    gives (vecs [lanesOf [0x3F000000]]) (.vactTanh .always (.v 3) (.v 1)) =
      some (some (.vec (VReg.mk16 (fun i => if i = 0 then 0x3EECA000 else 0) (fun _ => 12))), fNX) ∧
    gives (vecs [lanesOf [0xC0400000]]) (.vactRelu .always (.v 3) (.v 1)) =
      some (some (.vec (VReg.mk16 (fun _ => 0) (fun _ => 12))), 0) := by decide +kernel

theorem test_vshr_and_vmnx :
    (gives (vecs [lanesOf [1, 2, 3]]) (.vshr .always (.v 3) (.v 1) (.imm 1))).map (fun x => match x.1 with
      | some (.vec v) => (v.lane 0, v.lane 1, v.tag 15)
      | _ => (0, 0, 9)) = some (2, 3, 0) ∧
    gives (vecs [lanesOf [0x80000000], lanesOf [1]]) (.vmnx .always (.v 3) .mins (.v 1) (.v 2)) =
      some (some (.vec (intVec (fun i => if i = 0 then 0x80000000 else 0))), 0) := by decide +kernel

/-- A pointer of object 5 with every right, a view of 256 bytes from 64. -/
def somePtr : Ptr := ⟨mkCap 5 0xFF 64 256, 16, true⟩

theorem test_pointer_forms :
    (let s := running (taskWith [0, 240, 241] [] [] [{}, somePtr]) []
     gives s (.cder .always (.c 2) (.c 1) (.g 1)) = some (some (.ptr ⟨mkCap 5 0 80 240, 0, true⟩), 0) ∧
     gives s (.padd .always (.c 2) (.c 1) (.imm 0x7FFFF)) = some (some (.ptr { somePtr with cur := 15 }), 0) ∧
     gives s (.cget .always (.g 2) .idr (.c 1)) = some (some (.int 0x5FF), 0) ∧
     (aborted s (.cder .always (.c 2) (.c 1) (.g 2))).map (·.cause) = some .capb) := by decide +kernel

/-! ## Witnesses: for each obligation with hypotheses, a state and operands that meet them -/

/-- A pointer by physical address to pages of memory, with every right (R172). -/
def physPtr (a pages : Nat) : Ptr :=
  ⟨(0xFFFFFF : BitVec 24) ++ (0xFF : BitVec 8) ++ BitVec.ofNat 56 a ++ BitVec.ofNat 24 pages ++ (0 : BitVec 16), 0, true⟩

/-- A task with values in a few registers of each file; c2 points at plot 0's basin, c3 at a remote plot's,
c6 at host memory. -/
def someTask : Task :=
  taskWith [0, 5, 7, 0, 3, 0x8000000000000000, 0xFFFFFFFFFFFFFFFF] [⟨0x3F800000, 24⟩, ⟨0x40400000, 3⟩, ⟨0x7FC00000, 0⟩, ⟨0x7F800000, 0⟩,
    ⟨0xFF800000, 0⟩, ⟨0, 24⟩, ⟨0xBF800000, 24⟩, ⟨0x7F800001, 0⟩] [zeroVec, lanesOf [1, 2, 3]]
    [{}, somePtr, physPtr 0x1000 4, physPtr 0x500001000 4, { somePtr with valid := false }, { somePtr with cap := mkCap 5 0x7F 64 256 },
     physPtr 0x8000000001000 4]

/-- Slot 2 of its block is under execution; slot 0 has given a true PRED, slot 1 a MASK. -/
def slotState : State := running someTask [{ st := .done, val := some (.pred true) }, { st := .done, val := some (.mask 5) }]

/-- A context, where a state has none. -/
def noCx : Cx := ⟨0, false, 0, 0, 0, false, oneWordBlock 0, {}, {}⟩

/-- The slot under execution in a state. -/
def cxOf (s : State) : Cx := s.cx?.getD noCx

/-- The slot of slotState under execution. -/
def slotCx : Cx := cxOf slotState

theorem slot_runs : slotState.runs slotCx .always := ⟨by decide +kernel, by decide +kernel⟩

/-- No executed slot of slotState writes or branches. -/
theorem slot_free (r : SlotRec) : slotCx.free r := by
  have h : ∀ q ∈ slotCx.blk.slots, q.dsts = [] ∧ q.wrsNum = none ∧ q.br = none := by decide +kernel
  intro q hq _
  obtain ⟨h1, h2, h3⟩ := h q hq
  simp [SlotRec.clash, h1, h2, h3]

/-- IntegerArithmetic. -/
theorem witness_IntegerArithmetic : slotState.runs slotCx .always ∧ slotCx.free { dst := .g 3 } ∧ slotCx.int (.g 1) = .val 5 ∧
    slotCx.int (.imm 0x7FFFF) = .val 0xFFFFFFFFFFFFFFFF := ⟨slot_runs, slot_free _, by decide +kernel⟩

/-- IntegerDivision: a zero divisor, and the dividend and divisor whose quotient overflows. -/
theorem witness_IntegerDivision : slotState.runs slotCx .always ∧ slotCx.free { dst := .g 3 } ∧ slotCx.int (.g 1) = .val 5 ∧
    slotCx.int .zero = .val 0 ∧ slotCx.int (.g 5) = .val 0x8000000000000000 ∧ slotCx.int (.g 6) = .val 0xFFFFFFFFFFFFFFFF :=
  ⟨slot_runs, slot_free _, by decide +kernel⟩

/-- IntegerLogicAndBits: shift amounts 0 and 63, the bits of 0 and of all ones. -/
theorem witness_IntegerLogicAndBits : slotState.runs slotCx .always ∧ slotCx.free { dst := .none } ∧ slotCx.int .zero = .val 0 ∧
    slotCx.int (.imm 63) = .val 63 ∧ slotCx.int (.g 6) = .val 0xFFFFFFFFFFFFFFFF := ⟨slot_runs, slot_free _, by decide +kernel⟩

/-- FieldsSelectsAndMoves: the operands of SEL given, ZERO in A, in B, and in both. -/
theorem witness_FieldsSelectsAndMoves : slotState.runs slotCx .always ∧ slotCx.free { dst := .v 3 } ∧ slotCx.pred (.slot 0) = .val true ∧
    slotCx.any (.v 1) = .val (.vec (lanesOf [1, 2, 3])) ∧ slotCx.any (.v 0) = .val (.vec zeroVec) ∧ slotCx.any .zero = .val (.int 0) ∧
    slotCx.int (.g 1) = .val 5 ∧ slotCx.fp (.f 0) = .val ⟨0x3F800000, 24⟩ := ⟨slot_runs, slot_free _, by decide +kernel⟩

/-- ComparesAndPredicates. -/
theorem witness_ComparesAndPredicates : slotState.runs slotCx .always ∧ slotCx.free { dst := .g 3 } ∧ slotCx.int (.g 1) = .val 5 ∧
    slotCx.int (.g 5) = .val 0x8000000000000000 ∧ slotCx.pred (.slot 0) = .val true ∧ slotCx.pred .zero = .val false :=
  ⟨slot_runs, slot_free _, by decide +kernel⟩

/-- ControlAndSystemReads. -/
theorem witness_ControlAndSystemReads : slotState.runs slotCx .always ∧ slotCx.int (.g 1) = .val 5 ∧ slotCx.free { br := some .endt } ∧
    slotCx.free { dst := .g 63, br := some .endt } ∧ slotCx.free { act := some { kind := .wrs 0x003 5 } } ∧ slotCx.free { dst := .g 5 } :=
  ⟨slot_runs, by decide +kernel, slot_free _, slot_free _, slot_free _, slot_free _⟩

/-- FloatArithmetic, with a sum that no threshold stops. -/
theorem witness_FloatArithmetic : slotState.runs slotCx .always ∧ slotCx.free { dst := .f 3 } ∧ slotCx.fp (.f 0) = .val ⟨0x3F800000, 24⟩ ∧
    slotCx.fp (.f 1) = .val ⟨0x40400000, 3⟩ ∧ slotCx.fp .zero = .val zeroFp ∧ slotCx.int (.g 1) = .val 5 ∧ slotCx.task.theta = 0 :=
  ⟨slot_runs, slot_free _, by decide +kernel⟩

/-- FloatUnchecked, with a quiet and a signalling NaN. -/
theorem witness_FloatUnchecked : slotState.runs slotCx .always ∧ slotCx.free { dst := .f 3 } ∧ slotCx.fp (.f 2) = .val ⟨0x7FC00000, 0⟩ ∧
    slotCx.fp (.f 7) = .val ⟨0x7F800001, 0⟩ ∧ slotCx.int (.g 5) = .val 0x8000000000000000 := ⟨slot_runs, slot_free _, by decide +kernel⟩

/-- FloatSpecialOperands, an operand for each clause: a quiet and a signalling NaN, both infinities, a zero, a finite and a negative number. -/
theorem witness_FloatSpecialOperands : slotState.runs slotCx .always ∧ slotCx.free { dst := .f 9 } ∧
    (∀ i : BitVec 5, i.toNat < 8 → slotCx.fp (.f i) = .val (someTask.regs.getF i)) ∧
    (let X := fun i => ((someTask.regs.getF i).read fp32).1
     (X 2).isNan = true ∧ (X 7).isSnan = true ∧ X 3 = .inf false ∧ X 4 = .inf true ∧ (X 5).isZero = true ∧ (X 0).isFin = true ∧
     (X 0).isZero = false ∧ (X 6).neg = true ∧ (X 6).isZero = false) := ⟨slot_runs, slot_free _, by decide +kernel⟩

/-- SignificanceTriggers: a sum whose tag lies below the threshold 8, with the trap on and off. -/
theorem witness_SignificanceTriggers : ∀ trap : Bool,
    let s := running { someTask with sigctl := if trap then 0x48 else 0x08 } []
    let cx := cxOf s
    let r := fpAdd fp32 .rne ((⟨0x3F800000, 24⟩ : FReg).read fp32).1 24 ((⟨0x40400000, 3⟩ : FReg).read fp32).1 3
    s.cx? = some cx ∧ cx.predicate .always = .val true ∧ (∀ q ∈ cx.blk.slots, q.st = .done → SlotRec.clash { dst := .f 3 } q = false) ∧
    cx.fp (.f 0) = .val ⟨0x3F800000, 24⟩ ∧ cx.fp (.f 1) = .val ⟨0x40400000, 3⟩ ∧ (fp32.dec r.bits.toNat).isFin = true ∧
    r.tag < cx.task.theta ∧ cx.task.sigTrap = trap := by decide +kernel

/-- VectorArithmeticAndReductions, VectorLanes and VectorQuantisation; no threshold stops any lane. -/
theorem witness_VectorForms : slotState.runs slotCx .always ∧ slotCx.free { dst := .v 3 } ∧ slotCx.vec (.v 1) = .val (lanesOf [1, 2, 3]) ∧
    slotCx.vec .zero = .val zeroVec ∧ slotCx.mask (.slot 1) = .val 5 ∧ slotCx.fp (.f 0) = .val ⟨0x3F800000, 24⟩ ∧ slotCx.int (.g 1) = .val 5 ∧
    slotCx.task.theta = 0 := ⟨slot_runs, slot_free _, by decide +kernel⟩

/-- PointerForms: a pointer CDER may narrow, with a length at its end and one beyond; an invalid one, one without right D, a physical one. -/
theorem witness_PointerForms : slotState.runs slotCx .always ∧ slotCx.free { dst := .c 6 } ∧ slotCx.ptr (.c 1) = .val somePtr ∧
    somePtr.valid = true ∧ somePtr.low = 0 ∧ somePtr.rights.getLsbD 7 = true ∧ somePtr.isPhys = false ∧
    slotCx.int (.imm 240) = .val 240 ∧ somePtr.cur.toNat + 240 ≤ somePtr.len ∧ slotCx.int (.imm 241) = .val 241 ∧
    somePtr.len < somePtr.cur.toNat + 241 ∧ slotCx.ptr (.c 4) = .val { somePtr with valid := false } ∧
    slotCx.ptr (.c 5) = .val { somePtr with cap := mkCap 5 0x7F 64 256 } ∧ slotCx.ptr (.c 2) = .val (physPtr 0x1000 4) ∧
    (physPtr 0x1000 4).isPhys = true := ⟨slot_runs, slot_free _, by decide +kernel⟩

/-- The fields of a memory form: stream 0, no mask, scope wafer. -/
def mx0 : MX := ⟨0, 0, .wafer⟩

/-- slotState with granules of plot 0's basin given a sideband, and lines in its near cache. -/
def withSide (a : Nat) (x : Side) (near : SMap (BitVec 256)) : State := (slotState.setSide a x).onPlot 0 (fun y => { y with near := near })

/-- PlainLoads: an access of one part, near and remote, of two parts, to a poisoned home, answered by the near
cache, and to a host whose link is up and down. -/
theorem witness_PlainLoads : slotState.runs slotCx .always ∧ slotCx.free { dst := .g 3 } ∧ slotCx.ptr (.c 2) = .val (physPtr 0x1000 4) ∧
    slotCx.ptr (.c 3) = .val (physPtr 0x500001000 4) ∧ slotCx.int .zero = .val 0 ∧ slotCx.int (.imm 30) = .val 30 ∧
    slotCx.mustWait mx0 = false ∧ mx0.scope ≠ .seq ∧ slotCx.sr.parts = [] ∧
    slotState.access (dieOf slotCx.p) slotCx.task.priv (physPtr 0x1000 4) 0 8 0 rR false false = .ok [(0x1000, 0, 8)] ∧
    slotState.access (dieOf slotCx.p) slotCx.task.priv (physPtr 0x1000 4) 30 4 0 rR false false = .ok [(0x101E, 0, 2), (0x1020, 2, 2)] ∧
    slotState.access (dieOf slotCx.p) slotCx.task.priv (physPtr 0x500001000 4) 0 8 0 rR false false = .ok [(0x500001000, 0, 8)] ∧
    homeDist slotCx.p 0x1000 = 0 ∧ homeDist slotCx.p 0x500001000 ≠ 0 ∧ ((withSide 0x1000 { poison := true } []).sideAt 0x1000).poison = true ∧
    slotCx.ptr (.c 6) = .val (physPtr 0x8000000001000 4) ∧ slotState.hostLost 0x8000000001000 = false ∧
    slotState.access (dieOf slotCx.p) slotCx.task.priv (physPtr 0x8000000001000 4) 0 8 0 rR false false = .ok [(0x8000000001000, 0, 8)] ∧
    (let s : State := { slotState with mod := { slotState.mod with linkUp := 0 } }
     s.hostLost 0x8000000001000 = true ∧ s.cx? = some slotCx ∧ s.hostLost 0x1000 = false ∧
       s.access (dieOf slotCx.p) slotCx.task.priv (physPtr 0x8000000001000 4) 0 8 0 rR false false = .ok [(0x8000000001000, 0, 8)]) ∧
    (((withSide 0 {} [(0x500001000, 1)]).plot 0).near.find? (fun e => e.1 == 0x500001000 / 32 * 32)).isSome = true ∧
    (withSide 0x1000 { poison := true } [(0x500001000, 1)]).cx?.map (fun c => (c.sr, c.task)) = slotState.cx?.map (fun c => (c.sr, c.task)) :=
  ⟨slot_runs, slot_free _, by decide +kernel⟩

/-- PresenceLoads: every form's access, with its words full and empty. -/
theorem witness_PresenceLoads : slotState.runs slotCx .always ∧ slotCx.free { dst := .g 3 } ∧ slotCx.ptr (.c 2) = .val (physPtr 0x1000 4) ∧
    slotCx.int .zero = .val 0 ∧ slotCx.mustWait mx0 = false ∧
    (let ok := fun n al need ps => slotState.access (dieOf slotCx.p) slotCx.task.priv (physPtr 0x1000 4) 0 n al need true false = .ok ps ∧
       ∀ x ∈ ps, (slotState.sideAt x.1).poison = false
     ok 8 8 rR [(0x1000, 0, 8)] ∧ ok 8 8 (rR ||| rT) [(0x1000, 0, 8)] ∧ ok 64 32 rR [(0x1000, 0, 32), (0x1020, 32, 32)] ∧
     ok 80 16 (rR ||| rT) [(0x1000, 0, 32), (0x1020, 32, 32), (0x1040, 64, 16)] ∧ ok 32 32 rR [(0x1000, 0, 32)]) ∧
    slotState.allFull 0x1000 8 = false ∧ (withSide 0x1000 { pres := 3 } []).allFull 0x1000 8 = true :=
  ⟨slot_runs, slot_free _, by decide +kernel⟩

/-- StoresAsk, with the even register that CAS.64 reads. -/
theorem witness_StoresAsk : slotState.runs slotCx .always ∧ slotCx.free { dst := .g 3 } ∧ slotCx.ptr (.c 2) = .val (physPtr 0x1000 4) ∧
    slotCx.int .zero = .val 0 ∧ slotCx.int (.g 1) = .val 5 ∧ slotCx.fp (.f 0) = .val ⟨0x3F800000, 24⟩ ∧
    slotCx.vec (.v 1) = .val (lanesOf [1, 2, 3]) ∧ slotCx.ptr (.c 1) = .val somePtr ∧ slotCx.int (.g ((2 : BitVec 5) ++ 0#1)) = .val 3 ∧
    slotCx.int (.g ((2 : BitVec 5) ++ 1#1)) = .val 0x8000000000000000 := ⟨slot_runs, slot_free _, by decide +kernel⟩

/-- EngineAndSynchronisationForms: semaphore 5 below, at and above the threshold 7, a threshold of 0, a barrier group that is none, and one
in and past the generation waited for. -/
theorem witness_EngineAndSynchronisationForms : slotState.runs slotCx .always ∧ slotCx.free { dst := .g 3 } ∧ slotCx.ptr (.c 2) = .val (physPtr 0x1000 4) ∧
    slotCx.ptr (.c 3) = .val (physPtr 0x500001000 4) ∧ slotCx.ptr (.c 1) = .val somePtr ∧ slotCx.int (.g 1) = .val 5 ∧ slotCx.int (.g 2) = .val 7 ∧
    slotCx.lowerTakes 5 = .val 0 ∧ slotCx.int .zero = .val 0 ∧ ((slotState.plot 0).sem 5).toNat < 0 + 7 ∧
    0 + 7 ≤ (((slotState.onPlot 0 (fun x => { x with sems := [(5, 7)] })).plot 0).sem 5).toNat ∧
    slotCx.int (.imm 0x35) = .val 0x35 ∧ slotState.barPlace 0 5 = none ∧ slotState.barPlace 0 0x35 = some (0, 0x33450) ∧
    (slotState.bar 0 0x33450).gen.toNat = 0 ∧ (slotState.bar 0 0x33450).gen.toNat ≠ 7 :=
  ⟨slot_runs, slot_free _, by decide +kernel⟩

/-- A field of one plot, plot 0, in BF16 mode with 16 logical rows, its master in the task of uid 0. -/
def oneField : Field where
  handle := 1
  launch := 9
  masterPlot := 0
  masterUid := 0
  rect := 0
  row := 0
  col := 0
  rows := 1
  cols := 1
  mrow := 0
  mcol := 0
  mode := 0
  lr := 16
  k := 0
  image := 0
  imagePtr := {}
  priv := true
  agens := []
  entries := []

/-- A state whose module is ready, with one rectangle of 84 rows and 192 columns, in which plot 0 is the whole of a field. -/
def inField (s : State) (f : Field) (u : FUnit) : State :=
  { s.onPlot 0 (fun x => { x with fu := { u with handle := 1, role := 0x17 } }) with
    fields := [f], mod := { s.mod with boot := 2, rects := [(0, 0, 84, 192)] } }

/-- Tile 5 of two rows in a state, its state given. -/
def tile5 (st : TileSt) (cur : Nat) : Tile := { st := st, base := 4, rows := 2, cur := cur }

/-- FieldAndDrainForms: a field that is there and one that is not; a tile that no one may drain, one that is not FULL, one read to its end, a
marked row, and the last row of an unmarked tile. -/
theorem witness_FieldAndDrainForms : slotState.runs slotCx .always ∧ slotCx.free { dst := .v 3 } ∧ slotCx.ptr (.c 2) = .val (physPtr 0x1000 4) ∧
    slotCx.int (.g 1) = .val 5 ∧ slotCx.lowerRows 5 = .val 0 ∧ slotState.liveField 5 = none ∧
    (let s := fun (t : Tile) (marks : List Nat) => inField slotState oneField { tiles := [(5, t)], poison := marks }
     let u := fun t marks => ((s t marks).plot 0).fu
     (s {} []).cx?.map (fun c => (c.p, c.blk, c.sr, c.task)) = slotState.cx?.map (fun c => (c.p, c.blk, c.sr, c.task)) ∧
     ((s {} []).liveField 1).isSome = true ∧ ((s {} []).fieldOf 0).isSome = true ∧ (u {} []).south? = true ∧ ((u {} []).tile 5).rows = 0 ∧
     ((u (tile5 .accum 0) []).tile 5).st ≠ .full ∧ ((u (tile5 .full 2) []).tile 5).rows ≤ 2 ∧
     (u (tile5 .full 1) [5]).prow 5 = some 1 ∧ 1 < ((u (tile5 .full 1) []).tile 5).rows ∧ (u (tile5 .full 1) []).prow 5 = none ∧
     ((u (tile5 .full 1) []).tile 5).auto = false) := ⟨slot_runs, slot_free _, by decide +kernel⟩

/-- A rill entry of a role, kind, format and vector bit (R286), with a buffer. -/
def entry (role fmt : Nat) (latest vec : Bool) (buf : List Item) : Rill :=
  { ent := BitVec.ofNat 224 (role * 2 ^ 39 + (if latest then 2 ^ 42 else 0) + fmt * 2 ^ 43 + (if vec then 2 ^ 46 else 0)), buf := buf }

/-- RillForms at port 5, port 63 and a port beyond: no receive end, an end that does not fit, a broken one, one without an item, with an EOS
and with an element, a LATEST one, and one that is not. -/
theorem witness_RillForms : slotState.runs slotCx .always ∧ slotCx.free { dst := .g 3 } ∧ slotCx.int (.g 1) = .val 5 ∧ slotCx.int (.g 2) = .val 7 ∧
    slotCx.int (.imm 63) = .val 63 ∧ slotCx.int (.imm 64) = .val 64 ∧ slotCx.fp (.f 0) = .val ⟨0x3F800000, 24⟩ ∧
    slotCx.vec (.v 1) = .val (lanesOf [1, 2, 3]) ∧ slotCx.lowerItems 5 = .val 0 ∧ (slotState.rill 0 5).role ≠ 2 ∧
    (let r := fun x => (slotState.setRill 0 5 x).rill 0 5
     (slotState.setRill 0 5 (entry 2 5 false false [])).cx? = slotState.cx? ∧
     (r (entry 2 5 false false [])).role = 2 ∧ (r (entry 2 5 false false [])).fits .int = true ∧ (r (entry 2 0 false false [])).fits .int = false ∧
     (r (entry 2 0 false false [])).fits .fp = true ∧ (r (entry 2 0 false true [])).fits .vec = true ∧
     (r { entry 2 5 false false [] with broken := true }).broken = true ∧ (r (entry 2 5 false false [])).broken = false ∧
     (r (entry 2 5 false false [])).item 0 = none ∧ (r (entry 2 5 false false [.mark 3, .eos])).item 0 = some .eos ∧
     (r (entry 2 5 false false [.data 9 0])).item 0 = some (.data 9 0) ∧ (r (entry 2 5 false false [])).latest = false ∧
     (r { entry 2 5 true false [.data 9 4] with unread := true }).latest = true ∧
     (r { entry 2 5 true false [.data 9 4] with unread := true }).item 0 = some (.data 9 4)) := ⟨slot_runs, slot_free _, by decide +kernel⟩

/-- TaskAndSystemForms: slot numbers 15 and 16. -/
theorem witness_TaskAndSystemForms : slotState.runs slotCx .always ∧ slotCx.free { dst := .g 3 } ∧ slotCx.int (.imm 15) = .val 15 ∧
    slotCx.int (.imm 16) = .val 16 ∧ slotCx.int (.g 2) = .val 7 ∧ slotCx.ptr (.c 2) = .val (physPtr 0x1000 4) :=
  ⟨slot_runs, slot_free _, by decide +kernel⟩

/-! ### Commits -/

/-- The conditions of readyToCommit as one test. -/
def readyB (s : State) : Bool :=
  match s.blockCx 0 false with
  | none => false
  | some cx => cx.ended && !s.givesWay 0 false cx.blk && !cx.blk.failed && !s.taking 0 false && decide (s.blockCheck cx cx.blk.slots 0 = .ok) &&
    cx.task.roomFor cx.blk && decide (s.chsFull 0 cx.blk = none) && s.semsCover 0 cx.blk && decide (s.takeRecs cx = [])

/-- The block of plot 0's first half in a state. -/
def blkCx (s : State) : Cx := (s.blockCx 0 false).getD noCx

theorem ready_intro {s : State} (h : readyB s = true) : ∃ t, s.readyToCommit 0 false (blkCx s) t := by
  unfold readyB at h
  split at h
  · cases h
  · rename_i cx hc
    simp only [Bool.and_eq_true, Bool.not_eq_true', decide_eq_true_eq] at h
    obtain ⟨⟨⟨⟨⟨⟨⟨⟨h1, h2⟩, h3⟩, h4⟩, h5⟩, h6⟩, h7⟩, h8⟩, h9⟩ := h
    have hb : blkCx s = cx := by unfold blkCx; rw [hc]; rfl
    exact ⟨s, by rw [hb]; exact .inl ⟨⟨hc, h1, h2, h3⟩, ⟨h4, h5, h6, h7, h8⟩, h9, rfl⟩⟩

/-- A block with no ENDT and no TRAP, as a test. -/
def staysB (b : Block) : Bool :=
  (match b.branch with
  | some .endt => false
  | some (.trap _) => false
  | _ => true) && b.acts.all (fun x => match x.2.kind with
  | .aclr _ => false
  | _ => true)

theorem stays_intro {b : Block} (h : staysB b = true) : b.stays := by
  simp only [staysB, Bool.and_eq_true, List.all_eq_true] at h
  refine ⟨fun e => ?_, fun n e => ?_, fun x hx a e => ?_⟩
  · rw [e] at h; cases h.1
  · rw [e] at h; cases h.1
  · have := h.2 x hx
    rw [e] at this; cases this

/-- A block of a task whose slots have all executed as listed. -/
def committingOf (t : Task) (done : List SlotRec) : State :=
  let b : Block := { oneWordBlock 0 with words := List.replicate done.length 0, slots := done }
  (running t []).onPlot 0 (fun x => { x with h0 := { task := some 0, blk := some b } })

/-- That of someTask with a handler at 0x800000000, wake bit 1 set. -/
def committing (done : List SlotRec) : State := committingOf { someTask with trapv := 0x800000002, wake := 2, frame := 4 } done

/-- The record of an executed slot that gives a value. -/
def gave (d : Dst) (v : Val) : SlotRec := { st := .done, val := some v, dst := d }

/-- The record of an executed branch. -/
def went (b : Br) : SlotRec := { st := .done, br := some b }

/-- The record of an executed commit-point form. -/
def asked (a : CAct) : SlotRec := { st := .done, act := some a }

/-- CommitWritesRegisters: a value of each class in its register, three of them the last of their file, and a nullified slot. -/
theorem witness_CommitWritesRegisters :
    let nulled : SlotRec := { gave (.g 63) (.int 8) with st := .nulled }
    let s := committing [gave (.g 63) (.int 9), gave (.f 31) (.fp ⟨1, 2⟩), gave (.v 15) (.vec zeroVec), gave (.c 6) (.ptr somePtr),
      gave (.g 4) (.pred true), nulled]
    (∃ t, s.readyToCommit 0 false (blkCx s) t) ∧ (blkCx s).blk.stays ∧
    (∀ r ∈ (blkCx s).blk.slots, r.st = .done → (r.val.map (fun v => v.fits r.dst)) = some true) :=
  ⟨ready_intro (by decide +kernel), stays_intro (by decide +kernel), by decide +kernel⟩

/-- CommitTransfersControl: each way a block may end; PARK with a wake bit set and with none. -/
theorem witness_CommitTransfersControl :
    ∀ x ∈ ([(none, gave .none (.int 0)), (some (.rel 0x7FFFF), went (.rel 0x7FFFF)), (some (.call 3 5), went (.call 3 5)),
      (some (.abs 0x10000000000), went (.abs 0x10000000000)), (some .yielded, went .yielded), (some (.park 2), went (.park 2)),
      (some (.park 0x8000), went (.park 0x8000))] : List (Option Br × SlotRec)),
    let s := committing [x.2]
    (∃ t, s.readyToCommit 0 false (blkCx s) t) ∧ (blkCx s).blk.halts = false ∧ (blkCx s).blk.acts = [] ∧ (blkCx s).blk.branch = x.1 ∧
      (blkCx s).task.wake &&& 2 ≠ 0 ∧ (blkCx s).task.wake &&& 0x8000 = 0 := by
  have h : ∀ x ∈ ([(none, gave .none (.int 0)), (some (.rel 0x7FFFF), went (.rel 0x7FFFF)), (some (.call 3 5), went (.call 3 5)),
      (some (.abs 0x10000000000), went (.abs 0x10000000000)), (some .yielded, went .yielded), (some (.park 2), went (.park 2)),
      (some (.park 0x8000), went (.park 0x8000))] : List (Option Br × SlotRec)),
    let s := committing [x.2]
    readyB s = true ∧ (blkCx s).blk.halts = false ∧ (blkCx s).blk.acts = [] ∧ (blkCx s).blk.branch = x.1 ∧
      (blkCx s).task.wake &&& 2 ≠ 0 ∧ (blkCx s).task.wake &&& 0x8000 = 0 := by decide +kernel
  exact fun x hx => ⟨ready_intro (h x hx).1, (h x hx).2⟩

/-- EndtFreesTheSlot: a task with nothing outstanding, and one whose block asks for a store. -/
theorem witness_EndtFreesTheSlot :
    let s := committing [went .endt]
    let u := committing [asked { kind := .store 8 .plain 0 1, mx := some mx0, ptr := physPtr 0x1000 4 }, went .endt]
    (∃ t, s.readyToCommit 0 false (blkCx s) t) ∧ (blkCx s).blk.branch = some .endt ∧ (blkCx s).task.ops = [] ∧ (blkCx s).blk.acts = [] ∧
    (∃ t, u.readyToCommit 0 false (blkCx u) t) ∧ (blkCx u).blk.branch = some .endt ∧ (blkCx u).blk.acts ≠ [] :=
  ⟨ready_intro (by decide +kernel), by decide +kernel, by decide +kernel, by decide +kernel, ready_intro (by decide +kernel), by decide +kernel⟩

/-- An entry of the object table cache: an object whose one extent lies at a home (R363). -/
def objEnt (obj : BitVec 24) (at_ : Nat) : OtcEnt :=
  ⟨obj, 0, 0x10000, 1, BitVec.ofNat 64 (2 ^ 63 + 2 ^ 62 + 15 * 2 ^ 40), BitVec.ofNat 64 at_, false, []⟩

/-- A launch of one plot with a private area (object 7), a code object (11) and a save area (10). -/
def oneLaunch : Launch where
  id := 9
  words := [0, 0x0101, 0x10000, 0, (mkCap 11 0x05 0 0x10000).extractLsb' 0 64, (mkCap 11 0x05 0 0x10000).extractLsb' 64 64, 0, 0,
    (mkCap 10 0xFF 0 0x10000).extractLsb' 0 64, (mkCap 10 0xFF 0 0x10000).extractLsb' 64 64] ++ List.replicate 18 0 ++ [7, 0, 0, 0]
  q := 3
  rect := 0
  row := 0
  col := 0

/-- A state in which that launch holds plot 0, its objects cached by die 0. -/
def launched (s : State) : State :=
  { (s.onPlot 0 (fun x => { x with owner := some (9, 0) })).setDie 0 { otc := [objEnt 7 0x8000, objEnt 10 0x10000, objEnt 11 0x20000] } with
    launches := [oneLaunch], mod := { s.mod with boot := 2, rects := [(0, 0, 84, 192)], ovalid := true, oport := 2 } }

/-- The task of that launch, with a handler. -/
def trapTask : Task := { someTask with trapv := 0x800000002, frame := 4, launch := 9, uid := 6 }

/-- TretLeavesTheHandler: TRET.AT, and TRET from a frame in memory, in an active handler. -/
theorem witness_TretLeavesTheHandler :
    let s := committingOf { trapTask with trapv := 0x800000003 } [went (.tretAt 0x800)]
    let u := launched (committingOf { trapTask with trapv := 0x800000003 } [went .tret])
    (∃ t, s.readyToCommit 0 false (blkCx s) t) ∧ (blkCx s).blk.branch = some (.tretAt 0x800) ∧
    (∃ t, u.readyToCommit 0 false (blkCx u) t) ∧ (blkCx u).blk.branch = some .tret ∧
    u.tretBpc 0 (blkCx u).t (blkCx u).task = .ok (List.replicate 8 0) ∧ (blkCx u).blk.acts = [] ∧ (∀ r ∈ (blkCx u).blk.slots, r.pop = none) :=
  ⟨ready_intro (by decide +kernel), by decide +kernel, ready_intro (by decide +kernel), by decide +kernel, by decide +kernel, by decide +kernel⟩

/-- CommitOrsFlags: slots with flags, IDZ, SIGLOST and SMISS. -/
theorem witness_CommitOrsFlags :
    let s := committing [{ gave (.f 1) (.fp ⟨0, 0⟩) with flags := 0x1F, siglost := true }, { gave (.g 1) (.int 0) with idz := true, smiss := true }]
    (∃ t, s.readyToCommit 0 false (blkCx s) t) ∧ (blkCx s).blk.stays ∧ (blkCx s).blk.acts = [] :=
  ⟨ready_intro (by decide +kernel), stays_intro (by decide +kernel), by decide +kernel⟩

/-- CommitWritesSystemRegister: a block that writes all ones to each system register named. -/
theorem witness_CommitWritesSystemRegister : ∀ n ∈ [0x002, 0x003, 0x004, 0x006, 0x007, 0x008, 0x009, 0x010, 0x101],
    let s := committing [asked { kind := .wrs n 0xFFFFFFFFFFFFFFFF }]
    (∃ t, s.readyToCommit 0 false (blkCx s) t) ∧ (blkCx s).blk.stays ∧ (blkCx s).blk.acts = [(0, { kind := .wrs n 0xFFFFFFFFFFFFFFFF })] ∧
      ∀ r ∈ (blkCx s).blk.slots, r.flags = 0 ∧ r.idz = false ∧ r.siglost = false ∧ r.smiss = false := by
  have h : ∀ n ∈ [0x002, 0x003, 0x004, 0x006, 0x007, 0x008, 0x009, 0x010, 0x101],
    let s := committing [asked { kind := .wrs n 0xFFFFFFFFFFFFFFFF }]
    readyB s = true ∧ staysB (blkCx s).blk = true ∧ (blkCx s).blk.acts = [(0, { kind := .wrs n 0xFFFFFFFFFFFFFFFF })] ∧
      ∀ r ∈ (blkCx s).blk.slots, r.flags = 0 ∧ r.idz = false ∧ r.siglost = false ∧ r.smiss = false := by decide +kernel
  exact fun n hn => ⟨ready_intro (h n hn).1, stays_intro (h n hn).2.1, (h n hn).2.2⟩

/-- CommitLeavesMemory and CommitIssuesOperations: a block that asks for a store and an atomic. -/
theorem witness_CommitIssuesOperations :
    let s := committing [asked { kind := .store 8 .plain 0 1, mx := some mx0, ptr := physPtr 0x1000 4 },
      asked { kind := .amo .add 8 1, mx := some mx0, ptr := physPtr 0x1000 4, dst := .g 9 }]
    (∃ t, s.readyToCommit 0 false (blkCx s) t) ∧ (blkCx s).blk.stays ∧ (blkCx s).blk.acts.length = 2 ∧
      ∀ x ∈ (blkCx s).blk.acts, x.2.kind.immediate = false :=
  ⟨ready_intro (by decide +kernel), stays_intro (by decide +kernel), by decide +kernel⟩

/-- A block on its way to its commit whose words of a TAKE are full or not, and its records of the words emptied. -/
def taken (act : CAct) (pres : BitVec 8) (rs : List TakeRec) (failed : Bool) : State :=
  let s := (committing [{ gave (.g 3) (.int 0) with act := some act }]).setSide 0x1000 { pres := pres }
  let t := s.onPlot 0 (fun x => { x with h0 := { x.h0 with blk := x.h0.blk.map (fun b => { b with failed := failed }) } })
  { t with takes := rs }

/-- CommitEmptiesTakenWords: a TAKE of eight full bytes, of scope wafer and seq, before its words are emptied and while they are, the last among
them; one whose words are no longer full; and a failed block with words to set full again and with none. -/
theorem witness_CommitEmptiesTakenWords :
    let a : CAct := { kind := .take 8 8, mx := some mx0, ptr := physPtr 0x1000 4 }
    let s := taken a 3 [] false
    let r : TakeRec := { plot := 0, half := false, slot := 0, scope := mx0.scope, home := 0x1000, run := 0x1280, words := 3 }
    let u := taken a 3 [r] false
    let v := taken a 1 [r, { r with slot := 1, home := 0x1020 }] false
    let f := taken a 3 [{ r with done := true }] true
    (s.takeRecs (blkCx s) = [r] ∧ s.taking 0 false = false ∧ s.blockCheck (blkCx s) (blkCx s).blk.slots 0 = .ok ∧
      (blkCx s).task.roomFor (blkCx s).blk = true ∧ s.chsFull 0 (blkCx s).blk = none ∧ s.semsCover 0 (blkCx s).blk = true) ∧
    (∀ x ∈ [s, u, v, taken a 3 [{ r with scope := .seq }] false],
      x.blockCx 0 false = some (blkCx x) ∧ (blkCx x).ended = true ∧ x.givesWay 0 false (blkCx x).blk = false ∧ (blkCx x).blk.failed = false) ∧
    u.nextTake 0 false = some r ∧ r.scope ≠ .seq ∧ (taken a 3 [{ r with scope := .seq }] false).nextTake 0 false = some { r with scope := .seq } ∧
    ((u.takes.filter (fun y => r.with y && !y.done)).all u.stillFull = true ∧ (u.takeEvent 0 r).blockCx 0 false = some (blkCx u) ∧
      (u.takeEvent 0 r).nextTake 0 false = none ∧ (u.takeEvent 0 r).semsCover 0 (blkCx u).blk = true) ∧
    (v.nextTake 0 false = some r ∧ (v.takes.filter (fun y => r.with y && !y.done)).all v.stillFull = false ∧
      ∃ y ∈ v.takes, y.of 0 false = true ∧ y.done = false ∧ y ∉ v.takes.filter (fun y => r.with y && !y.done)) ∧
    (∀ x ∈ [f, taken a 3 [] true], (blkCx x).ended = true ∧ (blkCx x).blk.failed = true ∧ x.givesWay 0 false (blkCx x).blk = false) ∧
    f.takes.find? (fun x => x.of 0 false && x.done) = some { r with done := true } ∧ s.mirrorOf 0x1000 = none := by decide +kernel

/-- An issued operation of the task in slot 3 of plot 0, in a module that runs. -/
def issuedIn (o : Op) : State :=
  { State.reset.onPlot 0 (fun x => { x with tasks := x.tasks.set 3 { someTask with ops := [o], uid := 6 } }) with mod := { boot := 2 } }

/-- A plain store of 8 bytes in two parts. -/
def storeOp (mode : StMode) (homes : List (Nat × Nat × Nat)) : Op :=
  { serial := 4, act := { kind := .store 8 mode 0 0x1122334455667788, mx := some mx0, ptr := physPtr 0x1000 4 }, bpc := 0, slot := 0, deps := [],
    homes := homes }

/-- StorePerforms: a plain store with one part to go of two, with its last, a FILL of empty words at the end of a granule, and a store
to a host whose link is up and down. -/
theorem witness_StorePerforms : ∀ o ∈ [storeOp .plain [(0x101E, 0, 2), (0x1020, 2, 6)],
      { storeOp .plain [(0x101E, 0, 2), (0x1020, 2, 6)] with done := [0] }, storeOp .fill [(0x1018, 0, 8)],
      storeOp .plain [(0x8000000001000, 0, 8)]],
    ∀ up ∈ [0xFF, 0],
    let r := issuedIn o
    let s : State := { r with mod := { r.mod with linkUp := up } }
    s.hostLost 0x101E = false ∧ s.hostLost 0x8000000001000 = (up == 0) ∧
    s.clocked = true ∧ s.opOf 0 3 4 = some o ∧ (s.task 0 3).depsMet o = true ∧ (s.task 0 3).leaving = .no ∧ mx0.scope ≠ .seq ∧
    Memory.wf s.mem = true ∧ (∀ x ∈ o.homes, s.partPoison x = false ∧ s.anyFull x.1 x.2.2 = false) ∧ o.nextParts 0 ≠ [] ∧
    (∀ x ∈ o.nextParts 0, s.mirrorOf x.1 = none ∧ 0 < x.2.2 ∧ x.1 % 32 + x.2.2 ≤ 32 ∧ inSteward x.1 = false) ∧
    (o.nextParts 0).Pairwise (fun x y => x.1 / 32 ≠ y.1 / 32) := by decide +kernel

/-- StorePerforms: a store of scope host accepted at every home, which waits for the host. -/
theorem witness_StorePerformsHost :
    let m : MX := ⟨0, 0, .host⟩
    let o : Op := { storeOp .plain [(0x8000000001000, 0, 8)] with done := [0], act := { kind := .store 8 .plain 0 5, mx := some m } }
    let s := issuedIn o
    s.clocked = true ∧ s.opOf 0 3 4 = some o ∧ (s.task 0 3).depsMet o = true ∧ (s.task 0 3).leaving = .no ∧ o.act.mx = some m ∧
      m.scope ≠ .seq ∧ (∀ x ∈ o.homes, x.2.1 ∈ o.done) := by decide +kernel

/-- AtomicsPerform: an AMO of 8 bytes at the end of a granule, a CAS and a CST. -/
theorem witness_AtomicsPerform : ∀ x ∈ ([(.amo .mins 8 0xFFFFFFFFFFFFFFFF, 0x1018, 8), (.cas 4 0 5, 0x1000, 4), (.cst somePtr, 0x1020, 32)] :
      List (CKind × Nat × Nat)),
    let o : Op := { serial := 4, act := { kind := x.1, mx := some mx0, dst := .g 9 }, bpc := 0, slot := 0, deps := [],
                    homes := [(x.2.1, 0, x.2.2)] }
    let s := issuedIn o
    s.clocked = true ∧ s.opOf 0 3 4 = some o ∧ (s.task 0 3).depsMet o = true ∧ (s.task 0 3).leaving = .no ∧ Memory.wf s.mem = true ∧
    (s.sideAt x.2.1).poison = false ∧ s.mirrorOf x.2.1 = none ∧ isHost x.2.1 = false ∧ inSteward x.2.1 = false ∧
    x.2.1 % 32 + x.2.2 ≤ 32 := by decide +kernel

/-! ### Exceptions -/

/-- The pieces of trapTask's frame. -/
def frameHomes : List Piece := (List.range 8).map (fun i => (0x8400 + 32 * i, 32 * i, 32))

/-- ProgramTrapEntersHandler: a RUNNING task with a handler, whose frame is the last that fits its private area. -/
theorem witness_ProgramTrapEntersHandler :
    let s := launched (committingOf trapTask [])
    let t := s.task 0 0
    t.trapv.getLsbD 1 = true ∧ t.trapv.getLsbD 0 = false ∧ 256 * t.frame.toNat + 256 ≤ (s.privArea 0 t.launch 0).2 ∧ t.anyLate = false ∧
    s.partHomes (dieOf 0) (s.privPtr 0 t.launch 0) (piecesOf (256 * t.frame.toNat) 256) = .ok frameHomes ∧ Memory.wf s.mem = true ∧
    (∀ x ∈ frameHomes, s.mirrorOf x.1 = none ∧ 0 < x.2.2 ∧ x.1 % 32 + x.2.2 ≤ 32 ∧ x.2.1 + x.2.2 ≤ 256 ∧ inSteward x.1 = false) ∧
    frameHomes.Pairwise (fun x y => x.1 / 32 ≠ y.1 / 32) := by decide +kernel

/-- FaultEndsTask: no handler, an active one, and a frame one beyond the last that fits; the launch posts to queue 3. -/
theorem witness_FaultEndsTask :
    let s := fun tv fr => launched (committingOf { trapTask with trapv := tv, frame := fr } [])
    ((s 0 4).task 0 0).trapv.getLsbD 1 = false ∧ ((s 0x800000003 4).task 0 0).trapv.getLsbD 0 = true ∧
    ((s 0x800000002 256).privArea 0 9 0).2 < 256 * ((s 0x800000002 256).task 0 0).frame.toNat + 256 ∧
    ((s 0x800000002 256).task 0 0).ops = [] ∧ ((s 0x800000002 256).task 0 0).launch = 9 ∧
    (s 0x800000002 256).launch? 9 = some oneLaunch ∧ oneLaunch.q < 8 := by decide +kernel

/-- PageFaultSavesTask: its frame lies in the launch's save area. -/
theorem witness_PageFaultSavesTask :
    let s := launched (committingOf trapTask [])
    let t := s.task 0 0
    t.ops = [] ∧ t.refault = none ∧ (s.plot 0).owner = some (9, 0) ∧ s.launch? 9 = some oneLaunch ∧ t.launch = 9 ∧
    s.partHomes (dieOf 0) (capPtr (oneLaunch.cap 0x40)) (piecesOf ((capPtr (oneLaunch.cap 0x40)).start + 65536 * 0 + 4096 * 0) 4096) =
      .ok ((List.range 128).map (fun i => (0x10000 + 32 * i, 32 * i, 32))) := by decide +kernel

/-- TrapInstructionTraps: with a handler whose frame fits, and without. -/
theorem witness_TrapInstructionTraps :
    let s := launched (committingOf trapTask [went (.trap 255)])
    let u := launched (committingOf { trapTask with trapv := 0 } [went (.trap 255)])
    (∃ t, s.readyToCommit 0 false (blkCx s) t) ∧ (∃ t, u.readyToCommit 0 false (blkCx u) t) ∧
    (blkCx s).blk.branch = some (.trap 255) ∧ (blkCx u).blk.branch = some (.trap 255) ∧ (blkCx s).blk.acts = [] ∧
    (∀ r ∈ (blkCx s).blk.slots, r.pop = none ∧ r.val = none) ∧ (blkCx s).task.ops = [] ∧ (blkCx s).task.launch = 9 ∧
    256 * (blkCx s).task.frame.toNat + 256 ≤ (s.privArea 0 9 (blkCx s).t).2 ∧
    s.partHomes (dieOf 0) (s.privPtr 0 9 (blkCx s).t) (piecesOf (256 * (blkCx s).task.frame.toNat) 256) = .ok frameHomes ∧
    s.launch? 9 = some oneLaunch :=
  ⟨ready_intro (by decide +kernel), ready_intro (by decide +kernel), by decide +kernel⟩

/-- NullifiedAndClashingSlots: a predicate of a slot not yet executed, a false one, one that names a nullified slot, no slot at all; and executed
slots that have written g3, branched and written a system register. -/
theorem witness_NullifiedAndClashingSlots :
    let s := running someTask [{ st := .done, val := some (.pred true) }, { st := .nulled }, {}]
    let cx := cxOf s
    let u := running someTask [gave (.g 3) (.int 0), went .endt, asked { kind := .wrs 0x003 5 }]
    s.cx? = some cx ∧ cx.predicate (.ifTrue 2) = .wait ∧ cx.predicate (.ifFalse 0) = .val false ∧ cx.predicate (.ifTrue 1) = .null ∧
    State.reset.cx? = none ∧ u.cx? = some (cxOf u) ∧ (cxOf u).predicate .always = .val true ∧ (cxOf u).int (.g 1) = .val 5 ∧
    (cxOf u).blk.slots.map (fun r => (r.st, r.dst, r.br.isSome, r.act.map (·.kind))) =
      [(.done, .g 3, false, none), (.done, .none, true, none), (.done, .none, false, some (.wrs 0x003 5)), (.waiting, .none, false, none)] := by
  decide +kernel

/-- SlotsWriteNothing, NothingStops and MemoryStaysCanonical. -/
theorem witness_SlotsWriteNothing : (Instr.add .always (.g 3) (.g 1) (.g 2)).fields.isSome = true ∧ Memory.wf State.reset.mem = true ∧
    (∃ t, exec (.add .always (.g 3) (.g 1) (.g 2)) slotState = .next t) := ⟨by decide +kernel, by decide +kernel, _, rfl⟩

/-- StepRunsDecoded: an agenda that is empty, one whose head is a slot with a word, one whose head is an event and one whose slot has no word. -/
theorem witness_StepRunsDecoded :
    let s := { slotState with agenda := [.slot 0 false 0 7] }
    let b : Block := { oneWordBlock 0 with words := [0x0200042427C7FFFF], slots := [{}] }
    let u := s.onPlot 0 (fun x => { x with h0 := { task := some 0, blk := some b } })
    (State.reset.agenda = [] ∧ State.reset.round.head? ≠ none) ∧ s.agenda ≠ [] ∧ u.slotWord 0 false 0 = some 0x0200042427C7FFFF ∧
    decode 0x0200042427C7FFFF = some (.add .always (.g 4) (.g 4) (.imm 0x7FFFF)) ∧ (Instr.blockMap 0 false).fields = none ∧
    State.reset.slotWord 0 false 0 = none := by decide +kernel

/-- A state whose plot 0's first half holds the READY task 0 of a launch with a code object at 0x20000, the words given. -/
def fetching (t : Task) (ws : List (BitVec 64)) : State :=
  let s := launched ((running t []).onPlot 0 (fun x => { x with h0 := { task := some 0 } }))
  (List.range ws.length).foldl (fun s i => s.wrBytes (0x20000 + 8 * i) (leBytes (ws.getD i 0).toNat 8)) s

/-- The header of a block of n slots, at n - 1 (R53). -/
def headerOf (n : Nat) : BitVec 64 := BitVec.ofNat 64 (0xB5 * 2 ^ 56 + n * 2 ^ 49)

/-- A task of the launch that is READY at the start of its code object. -/
def readyTask (priv : Bool) : Task := { trapTask with st := .ready, bpc := 0, priv := priv, trapv := 0 }

/-- BlockMapChecks: a block that passes, from memory and from the block cache, one with a word that decodes to nothing, one with a system form
without privilege, a bad header above good words and above a bad one, a task whose target lies beyond 40 bits, one with ENGINE pending, and a
code object in host memory whose link is down. -/
theorem witness_BlockMapChecks :
    let ok := [headerOf 0, 0x0200042427C7FFFF]
    let s := fetching (readyTask true) ok
    (s.mapping = true ∧ (s.plot 0).half false = { task := some 0 } ∧ (s.task 0 0).st = .ready ∧ (s.task 0 0).leaving = .no ∧
      (s.task 0 0).otcPending = false) ∧
    s.fetchBlock 0 (s.task 0 0) = .ok ok ∧ s.codeOf 0 (s.task 0 0) = .ok ok ∧ (s.plot 0).cached (s.task 0 0) = none ∧
    (s.task 0 0).asyncCause = none ∧ ({ readyTask true with pend := 8 } : Task).asyncCause = some (.engine, 3) ∧
    (let u := s.onPlot 0 (fun x => { x with code := [⟨9, 0, [headerOf 0, 1]⟩] })
     (u.plot 0).cached (u.task 0 0) = some [headerOf 0, 1] ∧ u.codeBad 0 (u.task 0 0) 2 = none) ∧ s.fetch 0 (s.task 0 0) 0 255 = .word (headerOf 0) ∧
    (headerOf 0).toNat / 2 ^ 56 = 0xB5 ∧ (headerOf 0).toNat % 2 ^ 48 = 0 ∧
    s.fetchWords 0 (s.task 0 0) 8 0 ((headerOf 0).toNat / 2 ^ 49 % 128 + 1) = .ok [0x0200042427C7FFFF] ∧
    checkBlock true [0x0200042427C7FFFF] = none ∧ checkBlock true [0] = some (true, 0) ∧
    checkBlock false [encode (.otcInva .always .zero)] = some (false, 0) ∧
    (let u := fetching (readyTask true) [0, 0x0200042427C7FFFF]
     u.fetchBlock 0 (u.task 0 0) = .error (some { cause := .decode, slot := 255 })) ∧
    (let u := fetching (readyTask true) [0, 0]
     u.fetchBlock 0 (u.task 0 0) = .error (some { cause := .decode, slot := 0 })) ∧ ({ readyTask true with far := true } : Task).far = true ∧
    s.codeLost 0 (s.task 0 0) = false ∧
    (let u := (s.setDie 0 { otc := [⟨11, 0, 0x10000, 17, BitVec.ofNat 64 (2 ^ 63 + 2 ^ 62 + 15 * 2 ^ 40), 0x8000000020000, false, []⟩] })
     let v : State := { u with mod := { u.mod with linkUp := 0 } }
     u.codeLost 0 (u.task 0 0) = false ∧ v.codeLost 0 (v.task 0 0) = true ∧ (v.launch? 9).isSome = true) := by
  decide +kernel

/-! ### Events of the module -/

/-- A module that runs and whose owner is port 2. -/
def owned : State := { State.reset with mod := { boot := 2, ovalid := true, oport := 2, linkUp := 0xEF, rects := [(0, 0, 84, 192)], featack := 1 } }

/-- OwnerActions: the owner's port, another live port, the last port, a port with its link down, and one that is none; launches and fields
there and not there. -/
theorem witness_OwnerActions :
    let busy := launched (inField owned oneField {})
    (owned.ownedBy 2 ∧ owned.portLive 3 = true ∧ owned.portLive 7 = true ∧ owned.mod.oport.toNat ≠ 3 ∧ owned.portLive 4 = false ∧
      owned.portLive 8 = false) ∧ ownerPort (.psreqP0 3) = some 3 ∧ ownerPort (.psreqP0 8) = some 8 ∧ owned.launches = [] ∧ owned.fields = [] ∧
    (busy.ownedBy 2 ∧ busy.launches = [oneLaunch] ∧ oneLaunch.st ≠ .saved ∧ busy.fields ≠ []) := by
  unfold State.ownedBy
  decide +kernel

/-- A command that copies 5000 bytes. -/
def oneCmd : Cmd where
  serial := 3
  handle := 0
  act := { kind := .xcpy (physPtr 0x8000 4) 5000, mx := some mx0, ptr := physPtr 0x1000 4 }
  deps := []
  plot := 0
  name := 0
  launch := 9
  uid := 6
  bpc := 0
  priv := true

/-- A task that faulted on page 2 of object 7. -/
def oneFault : Faulted := { launch := 9, p := 0, k := 3, uid := 6, obj := 7, pg := 2 }

/-- HostMemoryAndPages: device memory through slice 0 of HW-B, the last bytes of a granule; accesses HW-B does not serve; an engine command and
a faulted task that wait for a page, each alone. -/
theorem witness_HostMemoryAndPages :
    let s := { owned with mod := { owned.mod with slices := [(0, 0x10000)] } }
    let u := { owned with cmds := [{ oneCmd with paused := some (7, 0x2008) }] }
    let v := { owned with faulted := [oneFault], launches := [oneLaunch] }
    (s.ownedBy 2 ∧ s.hwb 24 = 0x10018 ∧ s.hwbOk 24 8 = true ∧ inSteward 0x10018 = false ∧ (s.sideAt 0x10018).poison = false ∧
      s.mirrorOf 0x10018 = none ∧ Memory.wf s.mem = true ∧ s.hwbOk 24 0 = false ∧ s.hwbOk (2 ^ 36 - 4) 8 = false) ∧
    (u.mod.boot = 2 ∧ pageOf 0x2008 = 2 ∧ u.faulted = [] ∧ u.pausedOps 7 2 = [] ∧ u.fields = [] ∧ u.launches = []) ∧
    v.faulted = [oneFault] ∧ v.cmds = [] ∧ v.fields = [] ∧ (∀ l ∈ v.launches, l.savedFields = []) ∧ v.pausedOps 7 2 = [] ∧
    v.launch? 9 = some oneLaunch ∧ oneLaunch.q < 8 := by
  unfold State.ownedBy
  decide +kernel

/-- ModuleEvents: no owner and an owner; a link up and one down; an owner gone for 2 s exactly; 110 degrees; a module to erase and one not; an
attestation begun; the last column of HEAT. -/
theorem witness_ModuleEvents :
    let s := { owned with mod := { owned.mod with ovalid := false } }
    let lost := { owned.setDie stewardDie { wtime := 2000000000 } with mod := { owned.mod with ownerDown := some 0 } }
    let er := { owned with mod := { owned.mod with erase := true } }
    let att := owned.onAttest 7 (fun a => { a with busy := true })
    (s.mod.ovalid = false ∧ s.portLive 0 = true ∧ s.portLive 7 = true ∧ owned.mod.ovalid = true ∧ owned.mod.linkUp.getLsbD 7 = true ∧
      owned.mod.linkUp.getLsbD 4 = false) ∧
    (lost.mod.ownerDown = some 0 ∧ lost.mod.ovalid = true ∧ 2000000000 ≤ ((lost.die stewardDie).wtime - 0).toNat) ∧
    (owned.mod.boot = 2 ∧ owned.mod.pscur = 0 ∧ owned.mod.trip = false ∧ owned.mod.erase = false ∧ er.mod.erase = true) ∧
    (att.attestOf 7).busy = true ∧ att.mod.boot = 2 ∧ att.mod.linkUp.getLsbD 7 = true := by decide +kernel

/-- RegisterWindows: an enabled plot with its window open, one with its window taken by a field; FREE, SAVED and RUNNING tasks; port 2 owns. -/
theorem witness_RegisterWindows :
    let s := owned.onTask 0 15 (fun t => { t with st := .running })
    let u := owned.onTask 0 15 (fun t => { t with st := .saved })
    let v := inField owned oneField {}
    (s.enabled 0 = true ∧ (s.task 0 0).st = .free ∧ (s.task 0 15).st = .running ∧ (u.task 0 15).st = .saved ∧ s.windowOpen 0 = true) ∧
    (v.enabled 0 = true ∧ v.windowOpen 0 = false) ∧ s.pendingOn (fun _ => true) = false ∧ owned.ownedBy 2 ∧ owned.mod.boot = 2 := by
  unfold State.ownedBy
  decide +kernel

/-! ### Events of the window, of time and of the engines -/

/-- Whether a free half would take task k. -/
def takesSlot (s : State) (k : Nat) : Bool := s.mapping && ((s.plot 0).half true).task.isNone && decide (s.selection 0 = some k)

/-- Plot 0 with the READY tasks 4 and 5, of which 5 has the higher priority and may have causes pending. -/
def twoReady (pend : BitVec 16) : State :=
  (owned.onTask 0 4 (fun t => { t with st := .ready })).onTask 0 5 (fun t => { t with st := .ready, pri := 3, pend := pend })

/-- A block of task 0 mapped at cycle 0 with its first slot stalled for a semaphore since then, at a cycle. -/
def stalled (now : BitVec 64) : State :=
  let b : Block := { oneWordBlock 0 with words := [0], slots := [{ gate := some (.sem 9 1) }], mapped := 0 }
  ({ (running someTask []).onPlot 0 (fun x => { x with h0 := { task := some 0, blk := some b } }) with mod := owned.mod }).setDie 0 { cyc := now }

/-- WindowEvents: a selection without a cause, with DEADLK, and with ENGINE pending; none; a gate that has stalled for SY.PARK cycles exactly,
and a block mapped for 2^26. -/
theorem witness_WindowEvents :
    takesSlot (twoReady 0) 5 = true ∧ takesSlot (twoReady 9) 5 = true ∧ takesSlot (twoReady 8) 5 = true ∧ ((twoReady 0).task 0 5).asyncCause = none ∧
    ((twoReady 9).task 0 5).pend.getLsbD 0 = true ∧ ((twoReady 8).task 0 5).pend.getLsbD 0 = false ∧
    ((twoReady 8).task 0 5).pend.getLsbD 3 = true ∧ ((twoReady 8).task 0 5).trapv.getLsbD 0 = false ∧ owned.selection 0 = none ∧
    (let s := stalled 256
     s.blockCx 0 false = some (blkCx s) ∧ (s.plot 0).halfOf (blkCx s).t = some false ∧ (blkCx s).task.park.toNat = 256 ∧
       s.commitReady 0 false = false ∧ (blkCx s).blk.abort = none ∧ s.taking 0 false = false ∧
       (s.cycOf 0).toNat = 256 ∧ (blkCx s).blk.slots = [{ gate := some (.sem 9 1) }] ∧ s.gateMet 0 (.sem 9 1) = false) ∧
    (let s := stalled 0x4000000
     s.blockCx 0 false = some (blkCx s) ∧ (s.plot 0).halfOf (blkCx s).t = some false ∧ s.commitReady 0 false = false ∧
       (blkCx s).blk.abort = none ∧ 2 ^ 26 ≤ (s.cycOf 0 - (blkCx s).blk.mapped).toNat) := by
  decide +kernel

/-- TimeEvents: the token at the first and at the last die, a queue empty and not; a die in its first cycle of a window; an earlier and a later
wafer time; a die for 64 µs without a broadcast. -/
theorem witness_TimeEvents :
    let s := { owned with mod := { owned.mod with tokenDie := 83 } }
    let q := owned.setDie 0 { seqQ := [⟨0, 3, some 4, false, 0, false⟩] }
    let d := owned.setDie 83 { cyc := 1024, wtime := 77, sinceB := 64000 * 17 }
    (s.mod.tokenDie = 83 ∧ s.clocked = true ∧ (s.die 83).seqQ = [] ∧ q.mod.tokenDie = 0 ∧ q.clocked = true ∧ (q.die 0).seqQ ≠ []) ∧
    ((d.die 83).cyc.toNat % 1024 = 0 ∧ (d.die 83).admMark ≠ (d.die 83).cyc ∧ d.mod.boot = 2 ∧ d.mod.pscur = 0 ∧ 64000 * 17 ≤ (d.die 83).sinceB ∧
      (d.die 83).wtime = 77) := by decide +kernel

/-- A pointer to the whole of object 7. -/
def objPtr : Ptr := ⟨mkCap 7 0xFF 0 0x10000, 0, true⟩

/-- A module with one command, its object 7 cached by die 0, in memory or paged out. -/
def withCmd (c : Cmd) (inMemory : Bool) : State :=
  let e := objEnt 7 0x8000
  { owned.setDie 0 { otc := [if inMemory then e else { e with x0 := e.x0 &&& ~~~(0x4000000000000000 : BitVec 64) }] } with cmds := [c] }

/-- That reading pieces succeeds with a number of bytes, and that writing them with FILL then succeeds. -/
def moves (s : State) (src dst : List EPiece) (n : Nat) : Bool :=
  engTrouble (src ++ dst) == none && match s.engRead src with
  | .ok s1 bs => bs.length == n && (match s1.engWrite .fill 4 dst bs with
    | .ok _ => true
    | _ => false)
  | _ => false

/-- That writing stops with a code, after a number of pieces. -/
def stopsWith (w : EWr) (code done : Nat) : Bool :=
  match w with
  | .stop _ e d => e == code && d.length == done
  | _ => false

/-- That a page is in the way. -/
def isPage (t : Option ETr) : Bool :=
  match t with
  | some (.page ..) => true
  | _ => false

/-- The first 5000-byte copy of object 7 to itself, its second half on chunk 1. -/
def copyCmd : Cmd := { oneCmd with
                                  act := { kind := .xcpy { objPtr with cur := 0x2000 } 5000, mx := some mx0, ptr := objPtr }
                                  phase := .running
                                  chunk := 1 }

/-- EngineEvents, XCPY: a start with its semaphore at its threshold, one below it, and one that must follow another; the last chunk of a copy,
one that no home answers, one to a page paged out, one whose source is poisoned and one whose destination holds a full word. -/
theorem witness_EngineEventsCopies :
    let w := { oneCmd with act := { kind := .xcpy (physPtr 0x8000 4) (5000 + 2 * 2 ^ 44 + 9 * 2 ^ 56), mx := some mx0, ptr := physPtr 0x1000 4 } }
    let s := (withCmd w true).onPlot 0 (fun x => { x with sems := [(9, 2)] })
    let late := withCmd { w with deps := [4] } true
    let u := { late with cmds := late.cmds ++ [{ oneCmd with serial := 4 }] }
    (s.cmd? 3 = some w ∧ w.paused = none ∧ s.engines = true ∧ w.phase = .waiting ∧ w.deps = [] ∧ s.colTurn w = true ∧
      w.needsHeader = none ∧ s.semPlot w = 0 ∧ (w.semWord.extractLsb' 44 12).toNat = 2 ∧ (w.semWord.extractLsb' 56 8).toNat = 9 ∧
      ((s.plot 0).semNow (s.cycOf 0) 9).base.toNat = 2 ∧ ((((withCmd w true).signal 0 9 2).plot 0).semNow (s.cycOf 0) 9).base.toNat = 0) ∧
    (u.cmd? 3 = some { w with deps := [4] } ∧ u.outstanding 4 false = true) ∧
    (let s := withCmd copyCmd true
     s.cmd? 3 = some copyCmd ∧ copyCmd.phase = .running ∧
       moves s (s.engPieces 0 objPtr 0x1000 904) (s.engPieces 0 { objPtr with cur := 0x2000 } 0x3000 904) 904 = true ∧
       engTrouble (s.engPieces 0 (physPtr (2 ^ 55) 4) (2 ^ 55) 4 ++ []) = some (.stop 1) ∧
       (s.setSide 0x9000 { poison := true }).engRead (s.engPieces 0 objPtr 0x1000 4) = .stop 2 ∧
       stopsWith ((s.setSide 0xB000 { pres := 1 }).engWrite .fill 4 (s.engPieces 0 objPtr 0x3000 4) [1, 2, 3, 4]) 3 0 = true) ∧
    (let s := withCmd copyCmd false
     isPage (engTrouble (s.engPieces 0 objPtr 0x1000 4 ++ [])) = true) := by decide +kernel

/-- A chain command whose record in hand is of one row of n bytes, none copied yet, or is not read yet. -/
def chainCmd (record : List Byte) : Cmd :=
  { oneCmd with act := { kind := .xchn 0, mx := some mx0, ptr := objPtr }, phase := .running, record := record }

/-- An index-list header: COUNT 2, LEN 1, FP32, no semaphores (R321). -/
def headerBytes : List Byte := leBytes 0x10002 8 ++ List.replicate 56 0

/-- A reduction of rows of object 7 with its list at offset 0x1000, to offset 0x2000. -/
def redCmd (record : List Byte) : Cmd :=
  { oneCmd with act := { kind := .xred { objPtr with cur := 0x2000 } { objPtr with cur := 0x1000 }, mx := some mx0, ptr := objPtr }, record := record }

/-- EngineEvents, XCHN and XRED: a record to read, rows to copy and none left; a header to read, in order and out of it; two rows of one element
to add, their index words and then a row read granule by granule, index words with a bit too much and an index beyond the table, and the sum
written into a word that is empty and one that is full; commands whose last write of scope host the host has not reported. -/
theorem witness_EngineEventsRecords :
    let rec1 : List Byte := List.replicate 0x60 0 ++ leBytes (2 ^ 32 + 4) 8 ++ List.replicate 24 0
    let s := withCmd (chainCmd rec1) true
    (s.cmd? 3 = some (chainCmd rec1) ∧ (chainCmd []).record = [] ∧ rec1 ≠ [] ∧ (chainCmd rec1).rowsDone = false ∧
      ({ chainCmd rec1 with row := 1 } : Cmd).rowsDone = true) ∧
    (let c := redCmd []
     let u := withCmd c true
     let dst := { objPtr with cur := 0x2000 }
     let lst := { objPtr with cur := 0x1000 }
     u.cmd? 3 = some c ∧ c.phase = .waiting ∧ c.needsHeader = some (dst, lst) ∧
       engTrouble (u.nearPieces 0 lst 0x1000 64) = none ∧
       (match u.engRead (u.nearPieces 0 lst 0x1000 64) with
        | .ok _ bs => bs.length == 64 && !({ c with record := bs } : Cmd).headerOk dst lst
        | _ => false) = true ∧ (redCmd headerBytes).headerOk dst lst = true) ∧
    (let c := fun (got : List Byte) => ({ redCmd headerBytes with phase := .running, got := got } : Cmd)
     let idx := leBytes 1 8
     let u := fun got => withCmd (c got) true
     let lst := { objPtr with cur := 0x1000 }
     let dst := (u []).nearPieces 0 { objPtr with cur := 0x2000 } 0x2000 4
     (u []).cmd? 3 = some (c []) ∧ (c []).redCount = 2 ∧ (c []).redLen = 1 ∧ (c []).redSize = 4 ∧ (c []).redIdxBytes = 8 ∧ (c []).redBad = none ∧
       (u []).redNext (c []) lst = some (.home 0x9040, 0, 8) ∧ idxOf idx 2 = [1, 0] ∧ (c idx).redBad = none ∧
       (u idx).redNext (c idx) lst = some (.home 0x8004, 0, 4) ∧
       (match (u idx).engReadPiece (.home 0x8004, 0, 4) with
        | .ok _ bs => bs.length == 4
        | _ => false) = true ∧
       ((u idx).setSide 0x8000 { poison := true }).engReadPiece (.home 0x8004, 0, 4) = .stop 2 ∧
       (c (leBytes (2 ^ 40) 8)).redBad = some 5 ∧ (c (leBytes 0x3FFF 8)).redBad = none ∧
       (c (leBytes 0x4000 8)).redBad = some 7 ∧
       (u (idx ++ idx)).redNext (c (idx ++ idx)) lst = none ∧ (c (idx ++ idx)).redBad = none ∧ engTrouble dst = none ∧
       (match (u (idx ++ idx)).wordWrite 4 dst [0, 0, 0, 0] with
        | .ok _ => true
        | _ => false) = true ∧
       stopsWith (((u (idx ++ idx)).setSide 0xA000 { pres := 1 }).wordWrite 4 dst [0, 0, 0, 0]) 3 0 = true) ∧
    (let w := { copyCmd with hostWait := true, toHost := true, allMade := true }
     (withCmd w true).cmd? 3 = some w ∧ ({ chainCmd [] with hostWait := true } : Cmd).hostWait = true ∧ ETr.toHost (.home 0x8000000001000) = true ∧
       ETr.toHost (.home 0x8000) = false) := by decide +kernel

/-- A collective over name 0x05 of one or two members, this module of rank 0 among them, in a registered buffer at object 7 (R323, R324). -/
def colCmd (members : Nat) : Cmd :=
  { oneCmd with
    act := { kind := .xcol .allredSum 0x05 8, mx := some mx0 }
    phase := .running
    group := [BitVec.ofNat 64 members, 0x0100, 0, 0, 0, 0, 0, 0, 0] }

/-- A module with that collective, its buffer registered and module 1 within reach. -/
def inCollective (members : Nat) (inbox : List FlitBody) : State :=
  let s := withCmd (colCmd members) true
  let b : Buf := { name := 0x05, launch := 9, obj := 7, off := 0, size := 0x100, valid := true, ptr := objPtr, pages := [(0, 0x8000)] }
  { s with bufs := [b], mod := { s.mod with link := 1, ports := [(1, 1)], featack := 0x05, inbox := inbox } }

/-- EngineEvents, XCOL: a start that is refused and one that is not; a stop from another member, for all and of its own; a contribution that is
missing, one that is there, and a ring of one; all chunks done, with this member's contributions delivered and not. -/
theorem witness_EngineEventsCollectives :
    (let s := inCollective 2 []
     let c := colCmd 2
     s.cmd? 3 = some c ∧ c.phase = .running ∧ s.colTurn c = true ∧ owned.colRefusal c .allredSum 0x05 = some 0x0A ∧
       s.colRefusal c .allredSum 0x05 = none ∧ s.colStop c .allredSum 0x05 = none ∧ (s.colBuf c 0x05).isSome = true ∧ c.members = 2 ∧ c.rank = 0 ∧
       s.reaches (c.member 1) = true ∧ s.contribution c 0x05 1 0 = none ∧ c.len = 8 ∧
       c.gives .allredSum = true ∧ (s.colBuf c 0x05).map (fun b => moves s (s.bufPieces b 0 8) [] 8) = some true ∧
       s.delivered c .allredSum 0x05 = false ∧ (inCollective 2 [.delivered 0x05 0]).delivered c .allredSum 0x05 = true ∧
       ({ c with chunk := 1 } : Cmd).len ≤ 4096 * 1) ∧
    (inCollective 2 [.stop 0x05 0 9 true]).colStop (colCmd 2) .allredSum 0x05 = some 9 ∧
    (inCollective 2 [.stop 0x05 0 8 false]).colStop (colCmd 2) .allredSum 0x05 = some 10 ∧
    (let m := FlitBody.contrib 0x05 0 0 8 (colCmd 2).groupCrc 1 0 0 [0, 0, 0x80, 0x3F, 0, 0, 0, 0]
     let s := inCollective 2 [m]
     s.colStop (colCmd 2) .allredSum 0x05 = none ∧ (s.contribution (colCmd 2) 0x05 1 0).isSome = true) ∧
    (colCmd 1).members = 1 ∧ (inCollective 1 []).colRefusal (colCmd 1) .allredSum 0x05 = none := by decide +kernel

/-- CommandEndsAndFlits: a flit for this module over a live port at the last hop it may have made and one hop beyond, each body it may have, with
224 bytes and with one more, and each thing that keeps one out; an arrival at barrier group 15. -/
theorem witness_CommandEndsAndFlits :
    let s := inCollective 2 []
    let f : Flit := { dest := 0, src := 1, hop := 7, seq := 0, crcOk := true, body := .arrive 15 2 9 }
    let part := fun (n : Nat) => FlitBody.contrib 0x05 0 0 8 0 1 0 0 (List.replicate n 0)
    s.mod.link.getLsbD 0 = true ∧ s.mod.link.getLsbD 1 = false ∧ f.crcOk = true ∧ f.hop < 8 ∧ f.dest = s.mod.modId.toNat ∧
    8 ≤ ({ f with hop := 8, body := part 224 } : Flit).hop ∧ flitFits (part 224) = true ∧ flitFits (part 225) = false ∧
    flitFits (.write 0 (List.replicate 224 0)) = true ∧ flitFits (.stop 5 0 9 true) = true ∧ flitFits (.delivered 5 0) = true ∧
    (s.arrive stewardDie (0x33600 + 16 * 15) (BitVec.ofNat 16 2) 9).isSome = true ∧
    (s.setDie stewardDie { bars := [(0x33600, { arr := 1, count := 3 })] }).arrive stewardDie 0x33600 2 9 = none ∧
    ((s.plot 0).semNow (s.cycOf 0) 9).taken ≤ 0 ∧ s.semFree 0 9 = 0 ∧ s.cmd? 3 = some (colCmd 2) := by decide +kernel


/-! ### Events of a field -/

/-- A generator of plot (0, 0) of a field for unit u, reading through physical pointers or writing to object 7, whose page 0x1000 is at 0x9000. -/
def genOf (u : Nat) : Agen :=
  { r := 0, c := 0, unit := u, pay := if u = 1 then 0x1000 * 2 ^ 56 + 64 else 16 * 2 ^ 24 + 256, ptr := objPtr
    window := [(0x1000, 0x9000, 4096), (0, 0x8000, 4096)] }

/-- oneField with 16 rows of 8 elements, and its generators. -/
def fedField : Field := { oneField with k := 128, agens := [genOf 0, genOf 1, genOf 2] }

/-- A FEED of one row for tile 5, released at cycle 0 or not. -/
def oneFeed (released : Bool) : FeedCmd where
  serial := 4
  uid := 6
  slot := 0
  bpc := 0
  ptr := physPtr 0x1000 4
  priv := true
  m := 1
  tile := 5
  q0 := 0
  fin := true
  swap := true
  eos := false
  released := released

/-- A WLD of one word: logical row 15, column 0. -/
def oneWld : WldCmd where
  serial := 5
  uid := 6
  slot := 0
  bpc := 0
  ptr := physPtr 0x1000 4
  priv := true
  n := 0
  left := [(15, 0)]

/-- That field with a feed not yet released in plot 0, and with two rows of plots whose feeds are given. -/
def twoWest (a b : FeedCmd) : State :=
  (inField owned { fedField with rows := 2 } { feeds := [a] }).onPlot 1 (fun x => { x with fu := { feeds := [b], handle := 1, role := 5 } })

/-- FieldInputEvents, a pass: WEST plots that agree, two that differ, and the rows that plot 0 feeds. -/
theorem witness_FieldInputEventsPass :
    let ok := twoWest (oneFeed false) { oneFeed false with serial := 7 }
    let bad := twoWest (oneFeed false) { oneFeed false with eos := true }
    let f := { fedField with rows := 2 }
    ok.liveField 1 = some f ∧ f.stopped = false ∧ f.releasing = none ∧ f.rows ≠ 0 ∧ ok.westPlots f = [0, 1] ∧
    (ok.plot 0).fu.nextFeed = some (oneFeed false) ∧ (ok.plot 1).fu.nextFeed = some { oneFeed false with serial := 7 } ∧
    (oneFeed false).agrees { oneFeed false with serial := 7 } = true ∧ ok.activeCols f = [0] ∧
    (bad.plot 1).fu.nextFeed = some { oneFeed false with eos := true } ∧ (oneFeed false).agrees { oneFeed false with eos := true } = false ∧
    ok.fedRows f 0 ≠ [] := by decide +kernel

/-- The beat of a pass's first row, which asks for a swap, in a cell. -/
def oneBeat : Beat := { data := 0x3F80, scale := 0, tile := 5, tend := true, fin := true, swap := true, eos := false, m := 0 }

/-- FieldInputEvents, a plot: the last row with its first beat, fresh under a token; a word for the loading register of cell (15, 0), free and full, and one that waits for it; the first and
the last cell with its beat and its sum, the first beat entering the array. -/
theorem witness_FieldInputEventsPlot :
    (let s := inField owned fedField { feeds := [oneFeed true], wlds := [oneWld] }
     let u := (s.plot 0).fu
     s.fieldOf 0 = some fedField ∧ s.fieldPos fedField 0 = some (0, 0) ∧ (s.fedRows fedField 0).find? (fun x => x.2 == 15) = some (15, 15) ∧
       fedField.gen 0 0 0 = some (genOf 0) ∧ u.feeds.find? (fun x => x.released && decide (x.offered.get 15 0 < x.m)) = some (oneFeed true) ∧
       u.west? = true ∧ s.admitting = true ∧ u.west.get 15 [] = [] ∧ (oneFeed true).start.toNat + u.delay.get 15 0 ≤ (s.cycOf 0).toNat ∧
       s.srcCheck 0 (genOf 0) (oneFeed true).ptr (fedField.beatRanges (genOf 0) 0 0 15) = .ok ∧ (oneFeed true).next = 0 ∧ u.port0.cnt ≠ 0 ∧
       s.isSaving 9 = false ∧ fedField.gen 0 0 2 = some (genOf 2) ∧ u.loaded = [] ∧ oneWld.left[7 % 1]? = some (15, 0) ∧ (s.logRows fedField)[15]? = some 15 ∧
       (s.localCols fedField 0)[0]? = some (0, 0) ∧ (u.cell 240).full = false ∧ u.port1.cnt ≠ 0 ∧
       s.srcCheck 0 (genOf 2) oneWld.ptr (fedField.wordRanges (genOf 2) 0 15 0) = .ok) ∧
    (let s := inField owned fedField { west := [(0, [oneBeat])], cells := [(0, { full := true, wLoad := 0x4000 })] }
     s.cellInputs fedField 0 0 0 0 = some (oneBeat, ⟨0, 0, 0, 5, true, true, false, 0, false⟩) ∧ (s.cellAt fedField 0 0).full = true ∧
       s.isSaving 9 = false ∧ s.mayEnter fedField 5 = true ∧ (s.logRows fedField).findIdx (· == 0) = 0 ∧ (s.logCols fedField).length = 16) ∧
    (let n : Psum := ⟨0x3F800000, 0, 127, 5, true, true, false, 0, false⟩
     let s := inField owned fedField { cells := [(239, { south := some n }), (254, { east := some { oneBeat with swap := false } })] }
     s.cellInputs fedField 15 15 15 15 = some ({ oneBeat with swap := false }, n) ∧ (s.cellAt fedField 15 15).east = none ∧
       (s.cellAt fedField 15 15).south = none ∧ (s.logRows fedField).findIdx (· == 15) = 15 ∧ (s.logCols fedField).findIdx (· == 15) = 15) := by
  decide +kernel

/-- FieldInputEvents: a word the loader has read waits for its cell, whose register is full, then free. -/
theorem witness_FieldInputEventsHeld :
    (let s := inField owned fedField { loaded := [(15, 0, 7, 0)], cells := [(240, { full := true })], wlds := [oneWld] }
     (s.plot 0).fu.loaded[0]? = some (15, 0, 7, 0) ∧ 2 % (1 + oneWld.left.length) = 0 ∧ 3 % (1 + oneWld.left.length) = 1 ∧
       ((s.plot 0).fu.cell 240).full = true ∧ (((inField owned fedField { loaded := [(15, 0, 7, 0)] }).plot 0).fu.cell 240).full = false) := by decide +kernel

/-- FieldOutputEvents: sums for the last row of a tile and for the row beyond it, a full tile; the last row of a drain, one
with a word that is full, and a poisoned row. -/
theorem witness_FieldOutputEvents :
    let sum := fun (m : Nat) => (⟨0x3F800000, 0, 127, 5, true, true, false, m, true⟩ : Psum)
    let at_ := fun (m : Nat) (t : Tile) (rows : List Nat) =>
      inField owned fedField { cells := [(240, { south := some (sum m) })], tiles := [(5, t)], poison := rows }
    (let s := at_ 1 (tile5 .accum 0) []
     s.enabled 0 = true ∧ s.fieldOf 0 = some fedField ∧ s.fieldPos fedField 0 = some (0, 0) ∧ fedField.stopped = false ∧
       (s.logRows fedField)[fedField.lr - 1]? = some 15 ∧ (s.cellAt fedField 15 0).south = some (sum 1) ∧ ((s.plot 0).fu.tile 5).rows = 2 ∧
       ((s.plot 0).fu.tile 5).st = .accum) ∧
    ((at_ 2 (tile5 .accum 0) []).cellAt fedField 15 0).south = some (sum 2) ∧ (((at_ 1 (tile5 .full 0) []).plot 0).fu.tile 5).st = .full ∧
    (let s := at_ 1 { tile5 .full 0 with draining := some 1 } []
     let u := (s.plot 0).fu
     (u.tile 5).draining = some 1 ∧ fedField.gen 0 0 1 = some (genOf 1) ∧ u.poison.contains 5 = false ∧
       (s.localCols fedField 0).length = 16 ∧ (s.localCols fedField 0).all (fun y => ((genOf 1).drainHomes 5 1 y.1).all s.drainable) = true ∧
       (s.hostLost 0x9040 = false ∧ ((genOf 1).drainHomes 5 1 0).map (·.1) = [some 0x9040] ∧
         (s.setSide 0x9040 { pres := 1 }).drainable (some 0x9040, 0, 4) = false)) ∧
    (let s := at_ 1 { tile5 .full 0 with draining := some 1 } [5]
     (s.plot 0).fu.poison.contains 5 = true) := by decide +kernel

/-! ### Events of rills and of the sluice -/

/-- A rill from send end (0, 5) to entry (0, 6), whose route is in force. -/
def oneRill (send recv : Rill) : State :=
  ((owned.onPlot 0 (fun x => { x with routes := [(0, 2048)] })).setRill 0 5 { send with down := some (0, 6) }).setRill 0 6 { recv with ups := [(0, 5)] }

/-- The element 9 with sequence number 4. -/
def item9 : Item := .data 9 4

/-- A join at (0, 6) of two inputs, its output at (0, 7). -/
def joinOf (b0 b1 : List Item) (credits : Nat) : Rill :=
  { entry 3 5 false false b0 with buf1 := b1, credits := credits, down := some (0, 7) }

/-- RillEvents, sends and arrivals: a send under its last credit, one without, a LATEST one; an element that finds room for one more, none, and
a LATEST end; a marker at an empty end; an arrival at a join; items in a router whose entry delivers, leads east, off the wafer, and is invalid. -/
theorem witness_RillEventsMoves :
    let send := fun (n : Nat) (latest : Bool) => { entry 1 5 latest false [item9] with credits := n }
    let jin := { send 1 false with ent := (send 1 false).ent ||| BitVec.ofNat 224 (2 ^ 52) }
    let recv := fun (latest : Bool) (n : Nat) => { entry 2 5 latest false (List.replicate n item9) with flight := [item9] }
    (let s := oneRill (send 1 false) (recv false 7)
     (s.rill 0 5).role = 1 ∧ (s.rill 0 5).broken = false ∧ (s.rill 0 5).down = some (0, 6) ∧ (s.rill 0 5).buf = [item9] ∧ (s.rill 0 5).res = [] ∧
       (s.rill 0 5).credits ≠ 0 ∧ (s.rill 0 6).role = 2 ∧ s.hasConv 0 6 false = false ∧ s.nextIn 0 6 false = some item9 ∧
       s.flows 0 6 false = true ∧ (s.rill 0 6).room ((s.rill 0 6).inBuf false) item9 = true ∧
       (∀ y ∈ ((s.rill 0 6).buf ++ [item9]).head?, y.isMark = false)) ∧
    (let s := oneRill (send 0 false) (recv false 8)
     (s.rill 0 5).latest = false ∧ (s.rill 0 5).credits = 0 ∧ (s.rill 0 6).latest = false ∧
       (s.rill 0 6).room ((s.rill 0 6).inBuf false) item9 = false) ∧
    (let s := oneRill (send 0 true) (recv true 1)
     (s.rill 0 5).latest = true ∧ (s.rill 0 6).latest = true ∧ s.flows 0 6 false = true ∧ s.nextIn 0 6 false = some item9) ∧
    (let s := oneRill (send 0 false) { entry 2 5 false false [] with flight := [.mark 0xFFFF] }
     s.nextIn 0 6 false = some (.mark 0xFFFF) ∧ (s.rill 0 6).buf = [] ∧ (s.rill 0 6).room ((s.rill 0 6).inBuf false) (.mark 0xFFFF) = true) ∧
    (let s := oneRill jin { joinOf [] [] 0 with flight1 := [item9] }
     (s.rill 0 6).role = 3 ∧ (s.rill 0 5).jin = true ∧ s.hasConv 0 6 true = false ∧ s.nextIn 0 6 true = some item9 ∧
       s.flows 0 6 true = true ∧ (s.rill 0 6).latest = false ∧ (s.rill 0 6).room ((s.rill 0 6).inBuf true) item9 = true) ∧
    (let r : Rill := { send 1 false with transit := [⟨item9, 0, 0⟩] }
     let s := oneRill r (recv false 0)
     (s.rill 0 5).transit[0]? = some ⟨item9, 0, 0⟩ ∧ ((s.plot 0).route 0).getLsbD 11 = true ∧ ((s.plot 0).route 0).extractLsb' 0 3 = 0 ∧
       ((s.plot 0).route 1).getLsbD 11 = false ∧ hop 0 2 ≠ none ∧ hop 0 1 = none) := by
  decide +kernel

/-- RillEvents, the rest: a converter from FP32 to MX vectors with an element under CMODE 1 and 0, and with a token; a credit on its way back; a
join with data or a token at each input. -/
theorem witness_RillEventsJoins :
    let conv := fun (cmode : Bool) (x : Item) =>
      let r := { entry 2 3 false true [] with flight := [x] }
      oneRill (entry 1 0 false true []) { r with ent := r.ent ||| BitVec.ofNat 224 (if cmode then 2 ^ 47 else 0) }
    let joined := fun (x y : Item) => oneRill (entry 1 5 false false []) (joinOf [x] [y] 1)
    (let s := conv true item9
     s.hasConv 0 6 false = true ∧ (s.rill 0 6).inConv false = [] ∧ s.flows 0 6 false = true ∧ (s.rill 0 6).inFlight false = [item9] ∧
       s.upOf 0 6 false = some (0, 5) ∧ item9.isData = true ∧ (s.rill 0 6).cmode = true ∧ (s.rill 0 6).role = 2) ∧
    ((conv false item9).rill 0 6).cmode = false ∧ ((conv false .eos).rill 0 6).inFlight false = [.eos] ∧ Item.eos.isData = false ∧
    ((oneRill { entry 1 5 false false [] with back := 1 } (entry 2 5 false false [])).rill 0 5).back ≠ 0 ∧
    (let s := joined item9 (.mark 3)
     (s.rill 0 6).role = 3 ∧ (s.rill 0 6).broken = false ∧ (s.rill 0 6).credits ≠ 0 ∧ (s.rill 0 6).down ≠ none ∧ s.flows 0 6 false = true ∧
       s.flows 0 6 true = true ∧ (s.rill 0 6).buf = [item9] ∧ (s.rill 0 6).buf1 = [.mark 3]) ∧
    ((joined item9 item9).rill 0 6).buf1 = [item9] ∧ ((joined .eos item9).rill 0 6).buf = [.eos] ∧ ((joined .eos .eos).rill 0 6).buf1 = [.eos] := by
  decide +kernel

/-- Core p with a receive end 5 fed by end 6 of core q, on which the task in slot 3 waits since cycle 0, and an idle send end 6. -/
def waitingCore (s : State) (p q : Nat) : State :=
  let x := s.setRill p 5 { entry 2 5 false false [] with ups := [(q, 6)], launch := 9 }
  let y := x.setRill p 6 { entry 1 5 false false [] with down := some (q, 5), launch := 9 }
  y.onTask p 3 (fun t => { t with st := .wait, wait := .rill 5 false, rwait := [(10, [])] })

/-- DeadlockAndQuiescence: a set within a cluster and one across the wafer, one cycle short of 2^16 and at it, and one with a
credit on its way; a save whose
markers went out 4,096 cycles ago. -/
theorem witness_DeadlockAndQuiescence :
    let s := { waitingCore owned 0 0 with launches := [oneLaunch] }
    let w := { waitingCore (waitingCore owned 0 24531) 24531 0 with launches := [oneLaunch] }
    let at_ := fun (s : State) (n : BitVec 64) => s.setDie 0 { cyc := n }
    (s.deadSet [(0, 5)] [0] = true ∧ oneCluster 0 (clusterIn 0) [(0, 5)] [0] = true ∧ (s.rill 0 5).launch = oneLaunch.id ∧
      s.launch? 9 = some oneLaunch ∧ detDie false 0 [(0, 5)] [0] = 0 ∧ s.stillSince 0 [(0, 5)] [0] = 0 ∧
      ((at_ s 65535).die 0).cyc.toNat < 0 + 2 ^ 16 ∧ 0 + 2 ^ 16 ≤ ((at_ s 65536).die 0).cyc.toNat ∧ s.fired = [] ∧
      (s.plot 0).waitsPort 3 5 ((s.rill 0 5).role == 1) = true ∧ s.canStir (0, 5) = false ∧
      (s.onRill 0 6 (fun r => { r with back := 1 })).canStir (0, 5) = true) ∧
    (w.deadSet [(0, 5), (24531, 5)] [0, 24531] = true ∧ someCluster [(0, 5), (24531, 5)] [0, 24531] = false ∧
      detDie true 0 [(0, 5), (24531, 5)] [0, 24531] = 0 ∧ w.stillSince 0 [(0, 5), (24531, 5)] [0, 24531] = 0) ∧
    (let u := { owned.setDie stewardDie { cyc := 4096 } with
       launches := [{ oneLaunch with marked := true }], hostCmd := some { cmd := 1, launch := 9, cq := 0, start := 0 } }
     u.launch? 9 = some { oneLaunch with marked := true } ∧ 4096 ≤ ((u.die stewardDie).cyc - 0).toNat) := by decide +kernel

/-- A launch record of one plot, privileged, with no private area, its code, its one template and its save area at physical addresses, and a
number of rill records in its table. -/
def launchWords (rills : Nat) : List (BitVec 64) :=
  let cap := fun (a n : Nat) => [(physPtr a n).cap.extractLsb' 0 64, (physPtr a n).cap.extractLsb' 64 64]
  [0x900000101, 0x0101, BitVec.ofNat 64 (2 ^ 40 + rills * 2 ^ 48), 0] ++ cap 0x20000 4 ++ cap 0x30000 1 ++ cap 0x100000 32 ++ [0, 0] ++
    (if rills = 0 then [0, 0] else cap 0x31000 1) ++ List.replicate 14 0 ++ [16, 0, 0, 0]

/-- The words of that record's template: one task at offset 8 of the code, of priority 2, on every plot, with argument 5. -/
def oneTmpl : Tmpl := ⟨BitVec.ofNat 64 (8 + 2 ^ 40 + 2 * 2 ^ 45), 0x01010000, 5, 0⟩

/-- Words stored from an address up. -/
def storing (s : State) (a : Nat) (ws : List (BitVec 64)) : State := s.wrBytes a (wordBytes ws)

/-- A module of one plot with the template, the object table of the sixteen empty private objects 16 to 31, and queues of 2 entries at host address 0. -/
def serving (x : LQueue) : State :=
  let s := storing { owned with mod := { owned.mod with rects := [(0, 0, 1, 1)], otroot := 0x40000 } } 0x30000
    [oneTmpl.t0, oneTmpl.t1, oneTmpl.t2, oneTmpl.t3]
  let node := fun (a : Nat) => BitVec.ofNat 64 (2 ^ 63 + 2 ^ 62 + a)
  let t := storing (storing (storing (storing s 0x40000 [node 0x40800]) 0x40800 [node 0x41000]) 0x41080 (List.replicate 16 (node 0x42000))) 0x42000 [0, 1]
  t.onQueue 7 (fun _ => { x with lqsize := 2, cqsize := 2 })

/-- LaunchEvents, the queue: a record that passes every check, one that does not; a completion record and an error record posted to an empty ring. -/
theorem witness_LaunchEventsQueue :
    let s := serving { lqtail := 1 }
    let good := storing s (10 * 2 ^ 48) (launchWords 0)
    let done := serving { waiting := [doneWords 0x10 0 9 0 0 0, [0]] }
    (owned.ownedBy 2 ∧ s.sluiceOn = true ∧ s.ownerUp = true ∧ s.mod.featack.getLsbD 0 = true ∧ s.nextServed = some 7 ∧ (s.queue 7).undef = 0 ∧
      s.ownerAddr (s.queue 7).lqbase (256 * ((s.queue 7).lqhead.toNat % (s.queue 7).lqsize.toNat)) = 10 * 2 ^ 48) ∧
    s.launchCode (newLaunch (List.replicate 32 0) 7) = some 0x20 ∧
    ((List.range 32).map (fun i => good.rdW (10 * 2 ^ 48 + 8 * i)) = launchWords 0 ∧ s.launchCode (newLaunch (launchWords 0) 7) = none ∧
      (newLaunch (launchWords 0) 7).id = 9) ∧
    ((done.queue 7).waiting = [doneWords 0x10 0 9 0 0 0, [0]] ∧ (done.queue 7).cqRoom = true ∧ done.sluiceOn = true ∧ done.ownerUp = true) := by
  unfold State.ownedBy
  decide +kernel

/-- LaunchEvents, the place: a record waiting for a plot that another launch holds, one that finds it free, and one whose rill its place refuses
(a route of software that is not there); the task that starts. -/
theorem witness_LaunchEventsPlace :
    let s := serving { taken := some (launchWords 0) }
    let l := newLaunch (launchWords 0) 7
    let u := storing (serving { taken := some (launchWords 1) }) 0x31000 [0x600000005000000, 0x8000000, 0, 0]
    let m := newLaunch (launchWords 1) 7
    ((s.queue 7).taken = some (launchWords 0) ∧ s.sluiceOn = true ∧ s.launches = [] ∧ s.findPlace l [] = some (0, 0, 0) ∧
      (s.startLaunch (l.at_ (0, 0, 0))).isSome = true ∧ s.tmpls l = [oneTmpl]) ∧
    (s.onPlot 0 (fun x => { x with owner := some (3, 0) })).findPlace l [] = none ∧
    (∃ y ∈ (launched s).launches, y.id = l.id ∧ y.st ≠ .saved) ∧
    (u.findPlace m [] = some (0, 0, 0) ∧ (u.startLaunch (m.at_ (0, 0, 0))).isNone = true) ∧
    (slotTmpls [oneTmpl] (0, 0))[0]? = some oneTmpl ∧ (slotTmpls [oneTmpl] (0, 0)).length ≤ 16 ∧ oneTmpl.entry = 8 := by decide +kernel

/-- LaunchEvents, the end: a launch whose tasks are gone, with no field, and with one whose pass is still in the array. -/
theorem witness_LaunchEventsEnd :
    let s := launched owned
    let f := { oneField with passes := [{ tile := 5, m := 1, fin := true, swap := false, eos := false, entered := true }] }
    let u := inField s f {}
    s.launch? 9 = some oneLaunch ∧ s.sluiceOn = true ∧ oneLaunch.st = .live ∧ s.allGone oneLaunch = true ∧ s.fields = [] ∧
    u.allGone oneLaunch = true ∧ u.fields = [f] ∧ f.launch = oneLaunch.id ∧ u.releasable f = false := by decide +kernel

/-- HostCommands: no launch of that name, and one in each state that decides; a migration that is refused and one that begins; a plot with a
spare, that spare, and a plot without one; a change of the map under way. -/
theorem witness_HostCommands :
    let at_ := fun (st : LState) => { launched owned with launches := [{ oneLaunch with st := st }] }
    let l : Launch := { oneLaunch with words := oneLaunch.words.set 2 0 }
    let moving := fun (dst : BitVec 16) => { launched owned with launches := [l], mod := { owned.mod with carg0 := 0, carg1 := dst } }
    let spare := (owned.onPlot 0 (fun x => { x with partner := 7 })).onPlot 7 (fun x => { x with stat := .spare, partner := 0 })
    ((at_ .live).ownedBy 2 ∧ (at_ .live).sluiceOn = true ∧ (at_ .live).hostCmd = none ∧ (at_ .live).launch? 8 = none) ∧
    (at_ .live).launch? 9 = some oneLaunch ∧ (at_ .ending).launch? 9 = some { oneLaunch with st := .ending } ∧
    (at_ .saving).launch? 9 = some { oneLaunch with st := .saving } ∧ (at_ .saved).launch? 9 = some { oneLaunch with st := .saved } ∧
    ((moving 1).resolve (moving 1).mod.carg0 = some 0 ∧ (moving 1).migrateCode l (some 0) 1 = none ∧
      (moving 0xFFFF).migrateCode l (some 0) 0xFFFF = some 0x32) ∧
    (spare.enabled 0 = true ∧ (spare.plot 0).partner = 7 ∧ (spare.plot 7).stat = .spare ∧ plotExists 7 = true ∧ spare.mod.mapLag = [] ∧
      spare.mod.mapGen.getLsbD 0 = false ∧ (spare.mapChange [0] (fun s => s.onPlot 0 (fun x => { x with stat := .hole }))).mod.mapLag ≠ []) ∧ owned.enabled 0 = true ∧
    (owned.plot 0).partner = 0xFFFF := by
  unfold State.ownedBy
  decide +kernel

/-! ### Clashes, triggers and what stands outstanding -/

/-- slotState with an executed slot that writes g3, one that branches and one that writes SY.FCTL before the slot under execution. -/
def clashState : State := running someTask [{ st := .done, val := some (.pred true) }, { st := .done, val := some (.mask 5) },
  gave (.g 3) (.int 0), went .endt, asked { kind := .wrs 0x003 5 }]

/-- The slot under execution there. -/
def clashCx : Cx := cxOf clashState

theorem clash_intro {r q : SlotRec} (hq : q ∈ clashCx.blk.slots) (hd : q.st = .done) (h : r.clash q = true) : ¬clashCx.free r :=
  fun f => by rw [f q hq hd] at h; cases h

theorem clash_dst : ¬clashCx.free { dst := .g 3 } := clash_intro (q := gave (.g 3) (.int 0)) (by decide +kernel) rfl (by decide +kernel)

/-- NullifiedAndClashingSlots, and the clash that the loads, the waits, the receives and the checked FP forms meet: a written register, now and
late, a second branch, CALL by either, a written system register. -/
theorem witness_Clashes : clashState.runs clashCx .always ∧ ¬clashCx.free { dst := .g 3 } ∧ ¬clashCx.free { act := some { kind := .bara 0, dst := .g 3 } } ∧
    ¬clashCx.free { br := some .endt } ∧ ¬clashCx.free { dst := .g 63, br := some .endt } ∧ ¬clashCx.free { act := some { kind := .wrs 0x003 7 } } ∧
    clashCx.int (.g 1) = .val 5 ∧ clashCx.pred (.slot 0) = .val true ∧ clashCx.fp (.f 0) = .val ⟨0x3F800000, 24⟩ ∧
    clashCx.vec (.v 1) = .val (lanesOf [1, 2, 3]) ∧ clashCx.ptr (.c 1) = .val somePtr ∧ clashCx.mask (.slot 1) = .val 5 ∧
    clashCx.any .zero = .val (.int 0) ∧ clashCx.int (.g ((2 : BitVec 5) ++ 0#1)) = .val 3 ∧
    clashCx.int (.g ((2 : BitVec 5) ++ 1#1)) = .val 0x8000000000000000 ∧ somePtr.base + somePtr.len ≤ 2 ^ 40 ∧
    somePtr.cur.toNat + (5 : BitVec 64).toNat % 2 ^ 40 ≤ somePtr.len :=
  ⟨⟨by decide +kernel, by decide +kernel⟩, clash_dst, clash_intro (q := gave (.g 3) (.int 0)) (by decide +kernel) rfl (by decide +kernel),
    clash_intro (q := went .endt) (by decide +kernel) rfl (by decide +kernel),
    clash_intro (q := went .endt) (by decide +kernel) rfl (by decide +kernel),
    clash_intro (q := asked { kind := .wrs 0x003 5 }) (by decide +kernel) rfl (by decide +kernel), by decide +kernel⟩

theorem lowest_intro {cx : Cx} {cs : List Checked} {c : Checked} (h : cs.find? (fun c => c.fin && decide (c.tag < cx.task.theta)) = some c) :
    cx.lowest cs c := by
  obtain ⟨hc, pre, post, e, hp⟩ := List.find?_eq_some_iff_append.mp h
  simp only [Bool.and_eq_true, decide_eq_true_eq] at hc
  refine ⟨pre, post, e, fun d hd hf => ?_, hc.1, hc.2⟩
  have := hp d hd
  simp only [hf, Bool.true_and, Bool.not_eq_true', decide_eq_false_iff_not] at this
  omega

/-- The lanes of v1 that a threshold of 8 stops: 2 and 5. -/
def weakLanes : VReg := VReg.mk16 (fun _ => 0x3F800000) (fun i => if i = 2 then 3 else if i = 5 then 1 else 24)

/-- A task with those lanes and that threshold, the trap on or off. -/
def weakTask (trap : Bool) : Task :=
  { taskWith [0, 5] [⟨0x3F800000, 24⟩, ⟨0x40400000, 3⟩] [zeroVec, weakLanes] [] with sigctl := if trap then 0x48 else 0x08 }

/-- SignificanceTriggers: lane 2 is the lowest of a vector sum that triggers, a scalar sum triggers, and lane 0 of a row that DRN reads, with the
trap on and off; a sum that does not, whose D clashes. -/
theorem witness_SignificanceTriggersForms : ∀ trap : Bool,
    let s := running (weakTask trap) []
    let cx := cxOf s
    s.runs cx .always ∧ cx.vec (.v 1) = .val weakLanes ∧ cx.fp (.f 1) = .val ⟨0x40400000, 3⟩ ∧ cx.task.sigTrap = trap ∧
    (∃ c, c.lane = 2 ∧ cx.lowest (laneChecks (lanes16 (fun i => fpAdd fp32 .rne (weakLanes.f32 i).1 (weakLanes.f32 i).2 (weakLanes.f32 i).1
      (weakLanes.f32 i).2))) c) ∧
    (∃ c, cx.lowest [(fpAdd fp32 .rne ((⟨0x3F800000, 24⟩ : FReg).read fp32).1 24 ((⟨0x40400000, 3⟩ : FReg).read fp32).1 3).checked fp32] c) ∧
    (let u := inField s oneField { tiles := [(5, tile5 .full 0)], acc := [(64, 0x7F3F800000)] }
     (u.cx?.map (fun c => (c.p, c.blk, c.task))) = s.cx?.map (fun c => (c.p, c.blk, c.task)) ∧ cx.int (.g 1) = .val 5 ∧ cx.lowerRows 5 = .val 0 ∧
       (u.plot 0).fu.south? = true ∧ u.fieldOf 0 ≠ none ∧ ((u.plot 0).fu.tile 5).auto = false ∧ (u.plot 0).fu.prow 5 = none) := by
  intro trap
  refine ⟨⟨by cases trap <;> decide +kernel, by cases trap <;> decide +kernel⟩, by cases trap <;> decide +kernel,
    by cases trap <;> decide +kernel, by cases trap <;> decide +kernel, ?_, ?_, by cases trap <;> decide +kernel⟩
  · exact ⟨⟨2, true, 4, 0x40000000⟩, rfl, lowest_intro (by cases trap <;> decide +kernel)⟩
  · exact ⟨⟨0, true, 4, 0x40800000⟩, lowest_intro (by cases trap <;> decide +kernel)⟩

/-- A state whose slot under execution has met its first part, at homes that it keeps. -/
def halfLoaded (q : Option (BitVec 24)) (ps : List Piece) : State :=
  slotState.onPlot 0 (fun x => { x with h0 := { x.h0 with blk := x.h0.blk.map (fun b =>
    { b with slots := b.slots.set 2 { parts := [0], homes := (q, ps) } }) } })

/-- PlainLoads and PresenceLoads: a load whose first part has performed, with the homes that it found, and a poisoned one among the others. -/
theorem witness_LoadsUnderWay :
    let ps : List Piece := [(0x101E, 0, 2), (0x1020, 2, 2)]
    let s := halfLoaded none ps
    let u := s.setSide 0x1020 { poison := true }
    (cxOf s).sr.homes.2 = ps ∧ ps ≠ [] ∧ s.cx? = some (cxOf s) ∧ (cxOf s).predicate .always = .val true ∧
      (ps.filter (fun y => !(cxOf s).sr.parts.contains y.2.1))[7 % 1]? = some (0x1020, 2, 2) ∧ (cxOf s).mustWait mx0 = false ∧
      (u.sideAt 0x1020).poison = true ∧ u.cx? = s.cx? ∧ (physPtr 0x1000 4).isPhys = true ∧ somePtr.isPhys = false := by decide +kernel

/-- An operation of serial 4 whose late result goes to a register. -/
def lateOp (d : Dst) (stale : Bool) : Op :=
  { serial := 4, act := { kind := .amo .add 8 1, mx := some mx0, dst := d }, bpc := 0, slot := 0, deps := [], homes := [(0x1000, 0, 8)], stale := stale }

/-- CommitWritesRegisters: a register to which a late result is owed, of an operation that its D still names and of one whose result an earlier
block has overwritten. -/
theorem witness_CommitWritesRegistersLate : ∀ stale : Bool,
    let s := committingOf { someTask with ops := [lateOp (.g 63) stale] } [gave (.g 63) (.int 9), gave (.g 62) (.int 1)]
    (∃ t, s.readyToCommit 0 false (blkCx s) t) ∧ (blkCx s).blk.stays ∧ (blkCx s).task.latePending (.g 63) = true ∧
    (blkCx s).task.latePending (.g 62) = false ∧ (blkCx s).blk.acts = [] := fun stale =>
  ⟨ready_intro (by cases stale <;> decide +kernel), stays_intro (by cases stale <;> decide +kernel), by cases stale <;> decide +kernel⟩

/-- CommitTransfersControl: a block that executes HALTC beside its branch. -/
theorem witness_CommitTransfersControlHalting :
    let s := committingOf { someTask with priv := true } [asked { kind := .haltc 7 }, went (.rel 5)]
    (∃ t, s.readyToCommit 0 false (blkCx s) t) ∧ (blkCx s).blk.halts = true ∧ (blkCx s).blk.branch = some (.rel 5) ∧
    (∀ x ∈ (blkCx s).blk.acts, x.2.kind = .haltc 7) := ⟨ready_intro (by decide +kernel), by decide +kernel⟩

/-- CommitWritesSystemRegister, SY.PMVAL: a counter selected, one that counts commits, and one that is none; an event of the same cycle. -/
theorem witness_CommitWritesCounter : ∀ i ∈ [(5 : BitVec 6), 1, 32, 48],
    let s := (committing [asked { kind := .wrs 0x102 9 }]).onPlot 0 (fun x => { x with pmsel := i, perfNew := [(5, 1)] })
    (∃ t, s.readyToCommit 0 false (blkCx s) t) ∧ (blkCx s).blk.stays ∧ (blkCx s).blk.acts = [(0, { kind := .wrs 0x102 9 })] ∧
      (s.plot 0).pmsel = i ∧ (s.plot 0).perfCyc = s.cycOf 0 ∧ ∀ r ∈ (blkCx s).blk.slots, r.pop = none := by
  have h : ∀ i ∈ [(5 : BitVec 6), 1, 32, 48],
    let s := (committing [asked { kind := .wrs 0x102 9 }]).onPlot 0 (fun x => { x with pmsel := i, perfNew := [(5, 1)] })
    readyB s = true ∧ staysB (blkCx s).blk = true ∧ (blkCx s).blk.acts = [(0, { kind := .wrs 0x102 9 })] ∧
      (s.plot 0).pmsel = i ∧ (s.plot 0).perfCyc = s.cycOf 0 ∧ ∀ r ∈ (blkCx s).blk.slots, r.pop = none := by decide +kernel
  exact fun i hi => ⟨ready_intro (h i hi).1, stays_intro (h i hi).2.1, (h i hi).2.2⟩

/-- Plot 0 with plot 1 as its shadow spare, and an issued operation. -/
def mirrored (o : Op) : State :=
  ((issuedIn o).onPlot 0 (fun x => { x with partner := 1 })).onPlot 1 (fun x => { x with stat := .spare, partner := 0 })

/-- StorePerforms and AtomicsPerform: homes that a shadow spare mirrors; float forms; a late result that another has overtaken, and one whose
register keeps a later write; a host write that the agent has yet to report. -/
theorem witness_PerformsMirrored :
    (let s := mirrored (storeOp .fill [(0x1018, 0, 8)])
     let b := mkAddr 0 1 0x1018
     s.mirrorOf 0x1018 = some b ∧ b % 32 + 8 ≤ 32 ∧ inSteward b = false ∧ b / 32 ≠ 0x1018 / 32 ∧ s.clocked = true ∧
       s.opOf 0 3 4 = some (storeOp .fill [(0x1018, 0, 8)]) ∧ (s.task 0 3).depsMet (storeOp .fill [(0x1018, 0, 8)]) = true) ∧
    (∀ f ∈ [AmoOp.fadd, .fmax, .fmin],
      let o : Op := { lateOp (.f 9) false with act := { kind := .amo f 4 0x40400000, mx := some mx0, dst := .f 9 }, homes := [(0x1000, 0, 4)] }
      let s := mirrored o
      s.opOf 0 3 4 = some o ∧ s.mirrorOf 0x1000 = some (mkAddr 0 1 0x1000) ∧ (s.sideAt 0x1000).poison = false ∧ isHost 0x1000 = false ∧
        ∀ q ∈ (s.task 0 3).ops, q.act.dst = .f 9 → q = o) ∧
    (let s := (issuedIn (lateOp (.g 9) true)).onTask 0 3 (fun t => { t with heldWrites := [(.g 9, .int 7)] })
     (s.task 0 3).heldWrites.filter (fun x => x.1 == .g 9) = [(.g 9, .int 7)] ∧ (s.task 0 3).leaving = .no) ∧
    (let s := (issuedIn (storeOp .plain [])).onTask 0 3 (fun t => { t with ops := [], hostOps := [(4, 0)] })
     s.clocked = true ∧ s.opOf 0 3 4 = none ∧ (s.task 0 3).leaving = .no ∧ ∃ x ∈ (s.task 0 3).hostOps, x.1 = 4) := by decide +kernel

/-- AtomicsPerform, the deferred faults: a store and an AMO that meet poison, a FILL that meets a full word, alone and beside another operation. -/
theorem witness_DeferredFaults : ∀ more ∈ [[], [lateOp (.g 10) false]],
    let at_ := fun (o : Op) (x : Side) =>
      ((issuedIn o).onTask 0 3 (fun t => { t with ops := o :: more.map (fun q => { q with serial := 5 }), launch := 9 })).setSide 0x1000 x
    let st := storeOp .plain [(0x1000, 0, 8)]
    let fl := storeOp .fill [(0x1000, 0, 8)]
    let am := lateOp (.g 9) false
    (let s := at_ st { poison := true }
     s.opOf 0 3 4 = some st ∧ (s.task 0 3).depsMet st = true ∧ st.homes.find? s.partPoison = some (0x1000, 0, 8) ∧ s.takes = []) ∧
    (let s := at_ fl { pres := 2 }
     s.opOf 0 3 4 = some fl ∧ fl.homes.find? s.partPoison = none ∧ fl.homes.find? (fun y => s.anyFull y.1 y.2.2) = some (0x1000, 0, 8)) ∧
    (let s := at_ am { poison := true }
     s.opOf 0 3 4 = some am ∧ am.homes.head? = some (0x1000, 0, 8) ∧ (s.sideAt 0x1000).poison = true ∧ am.done = [] ∧
       (s.task 0 3).ops.filter (fun q => !am.same q) = more.map (fun q => { q with serial := 5 }) ∧ (s.task 0 3).heldWrites = []) := by decide +kernel

/-- CommitEmptiesTakenWords, the restore: two TAKEs of a failed block on one granule, the first with words, and one on another granule. -/
theorem witness_CommitRestoresTakenWords :
    let r : TakeRec := { plot := 0, half := false, slot := 0, scope := mx0.scope, home := 0x1000, run := 0x1280, words := 3, done := true }
    let s := taken { kind := .take 8 8, mx := some mx0, ptr := physPtr 0x1000 4 } 3 [r, { r with slot := 1, home := 0x1008, words := 12 },
      { r with slot := 2, home := 0x1020 }] true
    s.takes.find? (fun x => x.of 0 false && x.done) = some r ∧
      (s.takes.filter (fun y => y.of 0 false && y.done && y.home / 32 == 0x1000 / 32)).length = 2 ∧
      (s.takes.filter (fun y => y.of 0 false && y.done && y.home / 32 == 0x1000 / 32)).find? (fun y => y.words != 0) = some r ∧
      (∀ y ∈ s.takes, s.mirrorOf y.home = none) ∧ (s.plot 0).halfOf (blkCx s).t = some false ∧ s.blockCx 0 false = some (blkCx s) := by decide +kernel

/-- RillForms: a join that a broken rill feeds, and one that none does. -/
theorem witness_RillFormsTorn :
    let s := fun (b : Bool) => (slotState.setRill 0 5 { entry 3 5 false false [] with ups := [(0, 6)] }).setRill 0 6
      { entry 1 5 false false [] with broken := b }
    ((s true).rill 0 5).role = 3 ∧ ((s true).rill 0 5).broken = false ∧ (∃ u ∈ ((s true).rill 0 5).ups, ((s true).rill u.1 u.2).broken = true) ∧
    (∀ u ∈ ((s false).rill 0 5).ups, ((s false).rill u.1 u.2).broken = false) ∧ (s true).cx? = some slotCx := by decide +kernel

/-- SlotsWriteNothing: a cycle that ends with a SIG in one half alone, and with another cause. -/
theorem witness_TakeAborts : ∀ c ∈ [Cause.sig, .page],
    let b : Block := { oneWordBlock 0 with words := [0], slots := [{}], abort := some { cause := c, slot := 0 } }
    let s := (running someTask []).onPlot 0 (fun x => { x with h0 := { task := some 0, blk := some b } })
    (s.plot 0).half false = { task := some 0, blk := some b } ∧ b.abort = some { cause := c, slot := 0 } ∧ ((s.plot 0).half true).blk = none ∧
      (slotState.cx?).isSome = true := by decide +kernel

/-! ### The module, the engines, fields, rills and the sluice once more -/

/-- BlockMapChecks: the task of `fetching` has met no HALTC. -/
theorem witness_BlockMapNotHalting : ((fetching (readyTask true) []).task 0 0).halting = false := by decide +kernel

/-- PageFaultSavesTask: the pieces of its place. -/
theorem witness_PageFaultPlace :
    let ps : List Piece := (List.range 128).map (fun i => (0x10000 + 32 * i, 32 * i, 32))
    let s := launched (committingOf trapTask [])
    (s.task 0 0).hostOps = [] ∧ s.takes = [] ∧ Memory.wf s.mem = true ∧ (∀ x ∈ ps, s.hostLost x.1 = false) ∧
    (∀ x ∈ ps, s.mirrorOf x.1 = none ∧ 0 < x.2.2 ∧ x.1 % 32 + x.2.2 ≤ 32 ∧ x.2.1 + x.2.2 ≤ 4096 ∧ inSteward x.1 = false) ∧
    ps.Pairwise (fun x y => x.1 / 32 ≠ y.1 / 32) := by decide +kernel

/-- OwnerActions: every core at a block boundary, one with a block mapped, and a change in progress to P2 and to P1. -/
theorem witness_PowerChanges :
    let busy := { (running someTask []) with mod := { owned.mod with psbusy := true, pswant := 1 } }
    let p2 := inField { owned with mod := { owned.mod with psbusy := true, pswant := 2 } } oneField {}
    (∀ x ∈ owned.plots, x.2.h0.blk = none ∧ x.2.h1.blk = none) ∧ (∃ x ∈ busy.plots, x.2.h0.blk ≠ none) ∧ busy.mod.psbusy = true ∧
    p2.mod.pswant = 2 ∧ p2.mod.psbusy = true ∧ p2.fields ≠ [] ∧ (∀ x ∈ p2.plots, x.2.h0.blk = none ∧ x.2.h1.blk = none) ∧
    owned.mod.psbusy = false := by decide +kernel

/-- HostMemoryAndPages: an access that reaches no space of HW-B, one beyond its end, and a task whose page has been answered. -/
theorem witness_UnsupportedRequests :
    let s := { owned with mod := { owned.mod with slices := [(0, 0x6000000000000)] } }
    s.hwbOk 0 8 = false ∧ s.mod.boot = 2 ∧ 0 + 8 ≤ 2 ^ 36 ∧ ¬(2 ^ 36 - 4 + 8 ≤ 2 ^ 36) ∧
    ({ oneFault with resident := true } : Faulted).resident = true ∧ oneFault.resident = false := by decide +kernel

/-- ModuleEvents: an owner whose link comes back in time and too late; a boot under way, and a module that is not at BOOT 1. -/
theorem witness_BootAndLinks :
    let lost := fun (t : BitVec 64) => { owned.setDie stewardDie { wtime := t } with mod := { owned.mod with ownerDown := some 0 } }
    let test : SelfTest := ⟨true, false, none, [3], [], [], [], [(0, 5)]⟩
    let boot := { State.reset with mod := { State.reset.mod with boot := 1, selfTest := some test } }
    ((((lost 1999999999).die stewardDie).wtime - 0).toNat < 2000000000) ∧ 2000000000 ≤ (((lost 2000000000).die stewardDie).wtime - 0).toNat ∧
    boot.mod.boot = 1 ∧ boot.mod.selfTest = some test ∧ owned.mod.boot ≠ 1 ∧ plotExists 0 = true := by decide +kernel

/-- WindowEvents: a block whose commit is due, with all its checks passed and with one failed; one that is not due. -/
theorem witness_CommitDue :
    let s := committing [gave (.g 3) (.int 9)]
    let u := committingOf { someTask with priv := false } [went .tret]
    (s.commitReady 0 false = true ∧ s.commitDue 0 false = true) ∧ (u.commitReady 0 false = false ∧ u.commitDue 0 false = true) ∧
    (stalled 0x4000000).commitDue 0 false = false := by decide +kernel

/-- FieldInputEvents: a source that a dead host link cuts off, in a launch that is there. -/
theorem witness_SourceLost :
    let s := launched (inField owned fedField { feeds := [{ oneFeed true with ptr := physPtr 0x8000000001000 4 }] })
    let u : State := { s with mod := { s.mod with linkUp := 0 } }
    u.launch? fedField.launch = some oneLaunch ∧ oneLaunch.q < 8 ∧
      u.srcLost 0 (genOf 0) (physPtr 0x8000000001000 4) (fedField.beatRanges (genOf 0) 0 0 15) ≠ [] ∧
      u.srcCheck 0 (genOf 0) (physPtr 0x8000000001000 4) (fedField.beatRanges (genOf 0) 0 0 15) = .ok := by decide +kernel

/-- RillEvents: a rill whose items a rebind has put on a detour, the oldest at its last router and a later one there. -/
theorem witness_Detoured :
    let r : Rill := { entry 1 5 false false [] with transit := [⟨item9, 1, 0⟩, ⟨item9, 0, 0⟩], detoured := true }
    let s := oneRill r (entry 2 5 false false [])
    (s.rill 0 5).detoured = true ∧ (s.rill 0 5).transit[1]? = some ⟨item9, 0, 0⟩ ∧ ((s.plot 0).route 0).extractLsb' 0 3 = 0 ∧
      ((s.plot 0).route 0).getLsbD 11 = true ∧ (s.rill 0 5).broken = false := by decide +kernel

/-- DeadlockAndQuiescence: a wait that began at an instant of the detecting die, whatever the clock of another die says. -/
theorem witness_StillSince :
    let s := waitingCore owned 0 0
    let u := s.onTask 0 3 (fun t => { t with rwait := [(10, [(0, 5), (83, 900)])] })
    u.stillSince 0 [(0, 5)] [0] = 5 ∧ (u.fired = []) := by decide +kernel

/-- HostCommands: a migration with one extent on the two plots, one with none, and a launch that is completing, and one that is killed. -/
theorem witness_MigrateMarks :
    let node := fun (a : Nat) => BitVec.ofNat 64 (2 ^ 63 + 2 ^ 62 + a)
    let s := storing (storing (storing (storing { owned with mod := { owned.mod with otroot := 0x40000 } } 0x40000 [node 0x40800]) 0x40800
      [node 0x41000]) 0x41008 [node 0x42000]) 0x42000 [0, 0x10001, BitVec.ofNat 64 (2 ^ 63 + 2 ^ 62), 0x50000]
    s.extsOn 0 1 = [0x42010] ∧ 0x42010 % 8 = 0 ∧ Memory.wf s.mem = true ∧ owned.extsOn 0 1 = [] ∧
    ({ oneLaunch with st := .ending } : Launch).kind = 0x10 ∧ ({ oneLaunch with st := .ending, kind := 0x16 } : Launch).kind ≠ 0x10 := by decide +kernel

/-! ### What a commit checks, ORs in, empties and issues -/

/-- CommitOrsFlags and CommitWritesSystemRegister: a mismatch noted before the block; blocks whose slots raise flags, IDZ, SIGLOST and SMISS
beside a WRS of the register that holds them, and beside none. -/
theorem witness_StickyBits : ∀ n ∈ [0x003, 0x004, 0x006, 0x007],
    let r : SlotRec := { asked { kind := .wrs n 0 } with flags := 0x1F, idz := true, siglost := true, smiss := true }
    let s := committingOf { someTask with smiss := true } [r]
    let u := committingOf { someTask with smiss := true } [{ r with act := none }]
    (∃ t, s.readyToCommit 0 false (blkCx s) t) ∧ (∃ t, u.readyToCommit 0 false (blkCx u) t) ∧ (blkCx s).blk.stays ∧ (blkCx u).blk.stays ∧
      (blkCx s).blk.acts = [(0, { kind := .wrs n 0 })] ∧ (blkCx u).blk.acts = [] ∧ (blkCx s).task.smiss = true := by
  have h : ∀ n ∈ [0x003, 0x004, 0x006, 0x007],
    let r : SlotRec := { asked { kind := .wrs n 0 } with flags := 0x1F, idz := true, siglost := true, smiss := true }
    let s := committingOf { someTask with smiss := true } [r]
    let u := committingOf { someTask with smiss := true } [{ r with act := none }]
    readyB s = true ∧ readyB u = true ∧ staysB (blkCx s).blk = true ∧ staysB (blkCx u).blk = true ∧
      (blkCx s).blk.acts = [(0, { kind := .wrs n 0 })] ∧ (blkCx u).blk.acts = [] ∧ (blkCx s).task.smiss = true := by decide +kernel
  exact fun n hn => have q := h n hn; ⟨ready_intro q.1, ready_intro q.2.1, stays_intro q.2.2.1, stays_intro q.2.2.2.1, q.2.2.2.2⟩

/-- That a block stands at its commit point, with every slot below slot 1 past its check and slot 1 executed. -/
def atSlot1 (s : State) : Bool :=
  match s.blockCx 0 false with
  | none => false
  | some cx => cx.ended && !s.givesWay 0 false cx.blk && !cx.blk.failed && !s.taking 0 false &&
    decide (s.blockCheck cx (cx.blk.slots.take 1) 0 = .ok) && (cx.blk.slots[1]?.map (·.st)) == some .done

theorem atSlot1_intro {s : State} (h : atSlot1 s = true) : s.mayCommit 0 false (blkCx s) ∧ s.taking 0 false = false ∧
    (∃ r, (blkCx s).blk.slots[1]? = some r ∧ r.st = .done) ∧ s.blockCheck (blkCx s) ((blkCx s).blk.slots.take 1) 0 = .ok := by
  unfold atSlot1 at h
  split at h
  · cases h
  · rename_i cx hc
    have hb : blkCx s = cx := by unfold blkCx; rw [hc]; rfl
    simp only [Bool.and_eq_true, Bool.not_eq_true', decide_eq_true_eq, beq_iff_eq, Option.map_eq_some_iff] at h
    obtain ⟨⟨⟨⟨⟨h1, h2⟩, h3⟩, h4⟩, h5⟩, h6⟩ := h
    rw [hb]
    exact ⟨⟨hc, h1, h2, h3⟩, h4, h6, h5⟩

/-- A block whose slot 1 asks for something, its slot 0 for nothing. -/
def asking (t : Task) (a : CAct) : State := committingOf t [gave (.g 3) (.int 0), asked a]

/-- That an access is turned away with a cause. -/
def turnsAway (a : Homes) (c : Cause) : Bool :=
  match a with
  | .bad r => r.cause == c
  | _ => false

/-- CommitLeavesMemory, the accesses that fail at the commit, by an invalid pointer, without privilege, beyond the view, off their alignment
and at a host's presence, and one that waits for a migrating extent; frames of scope seq. -/
theorem witness_CommitChecksAccesses :
    (∀ k ∈ ([.store 8 .plain 0 1, .store 8 .fill 8 1, .take 8 8, .amo .add 8 1, .cas 4 0 5, .cst somePtr, .csave 3, .crest 3] : List CKind),
      ∀ m ∈ [mx0, { mx0 with scope := .seq }],
      atSlot1 (asking someTask { kind := k, mx := some m, ptr := { somePtr with valid := false } }) = true) ∧
    (let acc := fun (q : Ptr) (off : BitVec 64) => slotState.access 0 true q off 8 8 (rW ||| rF) true false
     turnsAway (acc { somePtr with valid := false } 0) .capt = true ∧
     turnsAway (slotState.access 0 false (physPtr 0x1000 4) 0 8 8 rW true false) .priv = true ∧
     turnsAway (acc { somePtr with cap := mkCap 5 0x01 64 256 } 0) .capr = true ∧ turnsAway (acc (physPtr 0x1000 4) 0x4000) .capb = true ∧
     turnsAway (acc (physPtr 0x1000 4) 4) .align = true ∧ turnsAway (acc (physPtr 0x8000000001000 4) 0) .absent = true ∧
     turnsAway (slotState.access 0 true (physPtr 0x8000000001000 4) 0 8 8 rR false true) .scspan = true ∧
     turnsAway (acc objPtr 0) .page = false ∧ turnsAway ((withCmd oneCmd false).access 0 true objPtr 0 8 8 rW true false) .page = true) ∧
    (let e := objEnt 7 0x8000
     let s := owned.setDie 0 { otc := [{ e with x0 := e.x0 ||| BitVec.twoPow 64 61 }] }
     (s.access 0 true objPtr 0 8 8 rW true false matches .wait) = true) := by decide +kernel

/-- CommitLeavesMemory, the rill forms: at a port beyond the last and at one of another kind, with a form that does not fit, at a LATEST end, with
a number kept for the sluice, at a broken end, with more credits than are owed, without a reservoir and with HIGH at LOW. -/
theorem witness_CommitChecksRills : ∀ x ∈ ([
      (.chs 64 .int 0, { ent := 0 }), (.chs 5 .int 0, { ent := 0 }), (.chs 5 .vec 0, entry 1 5 false false []), (.chs 5 .eos 0, entry 1 5 true false []),
      (.chs 5 .mark 0xFFFF, entry 1 5 false false []), (.chs 5 .int 0, { entry 1 5 false false [] with broken := true }),
      (.bind 64 0, { ent := 0 }), (.bind 5 0, { entry 2 5 false false [] with broken := true }),
      (.cred 64 0, { ent := 0 }), (.cred 5 0, entry 2 5 false false []),
      (.cred 5 0, { entry 2 5 false false [] with ent := (entry 2 5 false false []).ent ||| BitVec.ofNat 224 (2 ^ 47), broken := true }),
      (.cred 5 1, { entry 2 5 false false [] with ent := (entry 2 5 false false []).ent ||| BitVec.ofNat 224 (2 ^ 47) }),
      (.spst 64 0, { ent := 0 }), (.spst 5 0, { entry 1 5 false false [] with broken := true }), (.spst 5 0, entry 1 5 false false [])] : List (CKind × Rill)),
    let s := (asking someTask { kind := x.1 }).setRill 0 5 x.2
    atSlot1 s = true ∧ (blkCx s).blk.slots[1]? = some (asked { kind := x.1 }) ∧ (∀ y ∈ (blkCx s).blk.slots.take 1, y.pop = none ∧ y.act = none) ∧
      s.rill 0 5 = x.2 := by decide +kernel

/-- CommitLeavesMemory, the others: BARA of no group and of a count of 0, a SPAWN and branches whose target is no multiple of 8 or lies beyond 40
bits, a TRET and a TRET.AT in no handler, and a TRET.AT in one. -/
theorem witness_CommitChecksTargets :
    (∀ k ∈ ([.bara 5, .bara 0x35, .spawn 4 0, .spawn 0x10000000000 0] : List CKind), atSlot1 (asking someTask { kind := k }) = true) ∧
    owned.barPlace 0 5 = none ∧ (0x35 : BitVec 64).toNat / 2 ^ 16 % 2 ^ 16 = 0 ∧
    (∀ b ∈ ([.abs 4, .tretAt 8, .tretAt 4, .tret] : List Br), ∀ act : Bool,
      let s := committingOf { someTask with trapv := if act then 0x800000003 else 0x800000002 } [gave (.g 3) (.int 0), went b]
      atSlot1 s = true ∧ (blkCx s).blk.slots[1]? = some (went b) ∧ (blkCx s).task.trapv.getLsbD 0 = act) := by decide +kernel

/-- CommitEmptiesTakenWords: the granule of a TAKE poisoned since its load, and a store in the same block, which keeps its homes. -/
theorem witness_CommitTakesPoison :
    let a : CAct := { kind := .take 8 8, mx := some mx0, ptr := physPtr 0x1000 4 }
    let r : TakeRec := { plot := 0, half := false, slot := 0, scope := mx0.scope, home := 0x1000, run := 0x1280, words := 3 }
    let s := (taken a 3 [r] false).setSide 0x1000 { pres := 3, poison := true }
    let st : CAct := { kind := .store 8 .plain 0 1, mx := some mx0, ptr := physPtr 0x2000 4 }
    let u := (committing [{ gave (.g 3) (.int 0) with act := some a }, asked st]).setSide 0x1000 { pres := 3 }
    (s.nextTake 0 false = some r ∧ (s.takes.filter (fun y => r.with y && !y.done)).find? (fun y => (s.sideAt y.home).poison) = some r ∧
      (s.plot 0).halfOf (blkCx s).t = some false ∧ s.blockCx 0 false = some (blkCx s) ∧ (blkCx s).ended = true ∧
      s.givesWay 0 false (blkCx s).blk = false ∧ (blkCx s).blk.failed = false) ∧
    (u.takeRecs (blkCx u) = [r] ∧ u.blockCx 0 false = some (blkCx u) ∧ (blkCx u).blk.slots[1]? = some (asked st) ∧ st.kind.isMem = true ∧
      st.kind.isTake = false ∧ u.taking 0 false = false ∧ u.blockCheck (blkCx u) (blkCx u).blk.slots 0 = .ok) := by decide +kernel

/-- TrapInstructionTraps: a block that also writes a register and asks for a store, alone and beside an AMO with a D, with a handler and without. -/
theorem witness_TrapWritesAndIssues :
    let st : CAct := { kind := .store 8 .plain 0 1, mx := some mx0, ptr := physPtr 0x1000 4 }
    let am : CAct := { kind := .amo .add 8 1, mx := some mx0, ptr := physPtr 0x1000 4, dst := .g 9 }
    let s := fun (tv : Nat) (more : List SlotRec) =>
      launched (committingOf { trapTask with trapv := BitVec.ofNat 40 tv } ([gave (.g 63) (.int 8), asked st] ++ more ++ [went (.trap 255)]))
    ∀ tv ∈ [0, 0x800000002, 0x800000003], ∀ more ∈ [[], [asked am]],
      (∃ t, (s tv more).readyToCommit 0 false (blkCx (s tv more)) t) ∧ (blkCx (s tv more)).blk.branch = some (.trap 255) ∧
      (∀ x ∈ (blkCx (s tv more)).blk.acts, x.2.kind.immediate = false ∧ x.2.kind.accTile = none) ∧
      (∀ r ∈ (blkCx (s tv more)).blk.slots, r.pop = none) ∧ (blkCx (s tv more)).task.ops = [] ∧ (blkCx (s tv more)).blk.acts ≠ [] ∧
      (s tv more).partHomes (dieOf 0) ((s tv more).privPtr 0 9 (blkCx (s tv more)).t) (piecesOf (256 * (blkCx (s tv more)).task.frame.toNat) 256) =
        .ok frameHomes := by
  intro st am s tv htv more hm
  have h : ∀ tv ∈ [0, 0x800000002, 0x800000003], ∀ more ∈ [[], [asked am]],
      readyB (s tv more) = true ∧ (blkCx (s tv more)).blk.branch = some (.trap 255) ∧
      (∀ x ∈ (blkCx (s tv more)).blk.acts, x.2.kind.immediate = false ∧ x.2.kind.accTile = none) ∧
      (∀ r ∈ (blkCx (s tv more)).blk.slots, r.pop = none) ∧ (blkCx (s tv more)).task.ops = [] ∧ (blkCx (s tv more)).blk.acts ≠ [] ∧
      (s tv more).partHomes (dieOf 0) ((s tv more).privPtr 0 9 (blkCx (s tv more)).t) (piecesOf (256 * (blkCx (s tv more)).task.frame.toNat) 256) =
        .ok frameHomes := by decide +kernel
  exact ⟨ready_intro (h tv htv more hm).1, (h tv htv more hm).2⟩

/-- CommitIssuesOperations and the forms that take effect at the commit: ADM.ASET of a field's plot, TASK.SPRI of a task that is there, CHS in each form at
a send end with room, at a full one with a reservoir, at a LATEST one that is full, CHC.BIND, CHC.CRED with a credit owed, and CHC.SPST. -/
theorem witness_CommitsAlone :
    let full := List.replicate 8 item9
    let cred : Rill := { entry 2 5 false false [] with ent := (entry 2 5 false false []).ent ||| BitVec.ofNat 224 (2 ^ 47), owed := 1, ups := [(0, 6)] }
    let spill := { entry 1 5 false false full with ent := (entry 1 5 false false full).ent ||| BitVec.ofNat 224 (2 ^ 53 + 2 ^ 69), high := 40, low := 3 }
    (∀ x ∈ ([(.chs 5 .int 7, entry 1 5 false false []), (.chs 5 .fp 7, entry 1 0 false false []), (.chs 5 .fp 7, entry 1 1 false false []),
        (.chs 5 .vec 7, entry 1 0 false true []), (.chs 5 .eos 0, entry 1 5 false false []), (.chs 5 .mark 0xFFFE, entry 1 5 false false []),
        (.chs 5 .int 7, spill), (.chs 5 .int 7, entry 1 5 true false full), (.bind 5 0x1FF, entry 2 5 false false []), (.cred 5 1, cred),
        (.spst 5 40, spill), (.aset 1 0, { ent := 0 }), (.spri 0 7, { ent := 0 })] : List (CKind × Rill)),
      let s := inField ((committing [asked { kind := x.1 }]).setRill 0 5 x.2) oneField {}
      (∃ t, s.readyToCommit 0 false (blkCx s) t) ∧ (blkCx s).blk.stays ∧ (blkCx s).blk.acts = [(0, { kind := x.1 })] ∧ (s.rill 0 5) = x.2 ∧
        (∀ r ∈ (blkCx s).blk.slots, r.pop = none) ∧ Memory.wf s.mem = true ∧ s.fieldOf 0 ≠ none ∧ (s.task 0 0).st ≠ .free) ∧
    spill.spill = true ∧ spill.room full item9 = false ∧ (entry 1 5 true false full).room full item9 = false ∧ cred.role = 2 := by
  intro full cred spill
  have h : ∀ x ∈ ([(.chs 5 .int 7, entry 1 5 false false []), (.chs 5 .fp 7, entry 1 0 false false []), (.chs 5 .fp 7, entry 1 1 false false []),
        (.chs 5 .vec 7, entry 1 0 false true []), (.chs 5 .eos 0, entry 1 5 false false []), (.chs 5 .mark 0xFFFE, entry 1 5 false false []),
        (.chs 5 .int 7, spill), (.chs 5 .int 7, entry 1 5 true false full), (.bind 5 0x1FF, entry 2 5 false false []), (.cred 5 1, cred),
        (.spst 5 40, spill), (.aset 1 0, { ent := 0 }), (.spri 0 7, { ent := 0 })] : List (CKind × Rill)),
      let s := inField ((committing [asked { kind := x.1 }]).setRill 0 5 x.2) oneField {}
      readyB s = true ∧ staysB (blkCx s).blk = true ∧ (blkCx s).blk.acts = [(0, { kind := x.1 })] ∧ (s.rill 0 5) = x.2 ∧
        (∀ r ∈ (blkCx s).blk.slots, r.pop = none) ∧ Memory.wf s.mem = true ∧ s.fieldOf 0 ≠ none ∧ (s.task 0 0).st ≠ .free := by decide +kernel
  exact ⟨fun x hx => ⟨ready_intro (h x hx).1, stays_intro (h x hx).2.1, (h x hx).2.2⟩, by decide +kernel⟩

/-! ### What issued operations meet when they perform -/

/-- An issued operation of serial 4 that owes no acquire. -/
def opAs (a : CAct) : Op := { serial := 4, act := a, bpc := 0, slot := 0, deps := [] }

/-- StorePerforms and AtomicsPerform: a scope below the distance to the home, with a mismatch set before and none, and the last operation of a task that has
ended: a store accepted at every home, an AMO, a CAS and a CST. -/
theorem witness_WriterMismatchAndEnd :
    (let m : MX := ⟨0, 0, .core⟩
     let o : Op := { storeOp .plain [(0x500001000, 0, 8)] with act := { kind := .store 8 .plain 0 5, mx := some m } }
     let s := issuedIn o
     s.opOf 0 3 4 = some o ∧ (s.task 0 3).depsMet o = true ∧ scopeNum m.scope < homeDist 0 0x500001000 ∧ s.hostLost 0x500001000 = false ∧
       (s.task 0 3).smiss = false ∧ ((s.onTask 0 3 (fun t => { t with smiss := true })).task 0 3).smiss = true ∧ m.scope ≠ .seq) ∧
    (∀ o ∈ [{ storeOp .plain [(0x1000, 0, 8)] with done := [0] }, lateOp (.g 9) false,
        { lateOp (.g 9) false with act := { kind := .cas 8 0 5, mx := some mx0, dst := .g 9 } },
        { lateOp .none false with act := { kind := .cst somePtr, mx := some mx0, ptr := physPtr 0x1000 4 }, homes := [(0x1000, 0, 32)] }],
      let s := (issuedIn o).onTask 0 3 (fun t => { t with leaving := .ended })
      s.clocked = true ∧ s.opOf 0 3 4 = some o ∧ (s.task 0 3).depsMet o = true ∧ (s.task 0 3).leaving = .ended ∧ o.act.mx = some mx0 ∧
        (∀ q ∈ (s.task 0 3).ops, o.same q = true) ∧ o.homes.head?.isSome = true ∧ (s.sideAt 0x1000).poison = false) := by decide +kernel

/-- EngineAndSynchronisationForms: an operation that owes an acquire effect, with lines of the plot's near cache within its scope and beyond it. -/
theorem witness_OwedAcquire :
    let o : Op := { opAs { kind := .frel 5, mx := some { mx0 with scope := .die } } with acq := true }
    let s := (issuedIn o).onPlot 0 (fun x => { x with near := [(0x100001000, 1), (0x1000000001000, 2)] })
    s.clocked = true ∧ s.opOf 0 3 4 = some o ∧ (s.task 0 3).depsMet o = true ∧ o.act.kind.isMem = false ∧ o.acq = true ∧ o.done = [] := by
  decide +kernel

/-- EngineAndSynchronisationForms: signals to a semaphore on which a task waits, below and beyond 0xFFFF, a set after a consumption of its cycle, SSIGR
of no plot, of a hole, of the own launch's plot and of another's with and without privilege; BARA of no group, of a pod out of reach, of a group
that another COUNT or launch holds, before its last arrival and at it, with a task that waits. -/
theorem witness_SignalsPerform :
    (∀ k ∈ ([.ssig 5 7, .ssig 5 0xFFFF, .sset 5 1, .ssigr 5 1, .ssigr 0xFFFFFFFF00000005 1, .bara 5, .bara 0x20055, .bara 0x20035] : List CKind),
      ∀ priv : Bool, ∀ stat ∈ [PStat.good, .hole],
      let o := { opAs { kind := k } with priv := priv }
      let s := ((issuedIn o).onPlot 0 (fun x => { x with sems := [(5, 7)], stat := stat })).onTask 0 4
        (fun t => { t with st := .wait, wait := .sem 5 })
      s.performs 0 3 o ∧ (s.task 0 4).wait = .sem 5) ∧
    (let s := { owned with mod := { owned.mod with featack := 8, ports := [(1, 2)], link := 1 } }
     let t := (launched owned)
     owned.resolve 0 = some 0 ∧ owned.resolve 0xFFFFFFFF = none ∧ (t.plot 0).owner.map (fun x => x.1) = some 9 ∧ (owned.plot 0).owner = none ∧
       s.barPlace 0 0x20055 ≠ none ∧ s.podReach = false ∧ owned.barPlace 0 5 = none ∧ owned.barPlace 0 0x20035 = some (0, 0x33450)) ∧
    (∀ b ∈ ([{ arr := 1, count := 3 }, { arr := 1, count := 2, owner := 5 }, { arr := 1, count := 2, owner := 9 }, {}] : List Bar),
      let o := opAs { kind := .bara 0x20035, dst := .g 9 }
      let s := (((issuedIn o).setDie 0 { bars := [(0x33450, b)] }).onTask 0 4 (fun t => { t with st := .wait, wait := .barrier 0 0x33450 0x35 })).onTask
        0 3 (fun t => { t with launch := 9 })
      s.performs 0 3 o ∧ s.bar 0 0x33450 = b ∧ (s.task 0 4).wait = .barrier 0 0x33450 0x35) := by
  unfold State.performs
  decide +kernel

/-- FieldAndDrainForms: CONF of an image at 0x1000 that passes every check (a header, the two generators, an end frame, with its CRC), of one without a CRC,
and one whose pointer's pages are being moved. -/
theorem witness_ConfPerforms :
    let frame := fun (cls unit pay : Nat) => leBytes (cls * 2 ^ 248 + unit * 2 ^ 224 + pay) 32
    let hdr := fun (crc : Nat) => frame 0x7E 0 (2 ^ 144 + 2 ^ 136 + 2 ^ 108 + 8 * 2 ^ 92 + 4 * 2 ^ 76 + crc * 2 ^ 32)
    let image := fun (crc : Nat) => hdr crc ++ frame 4 0 0 ++ frame 4 2 0 ++ frame 0 0 0
    let good := crc32 (image 0)
    let s := fun (a : CAct) (crc : Nat) =>
      let l : Launch := { oneLaunch with words := oneLaunch.words.set 3 0x2100000000 }
      let t : State := { launched ((issuedIn (opAs a)).onTask 0 3 (fun t => { t with launch := 9, uid := 6 })) with launches := [l] }
      t.wrBytes 0x1000 (image crc)
    let a : CAct := { kind := .conf 0, mx := some mx0, ptr := physPtr 0x1000 4, dst := .g 9 }
    let b : CAct := { a with ptr := objPtr }
    let c := fun (crc : Nat) => (s a crc).confOf 0 3 (opAs a) 0 0x1000
    (∀ crc ∈ [good, 0], (s a crc).performs 0 3 (opAs a) ∧ (s a crc).confWaits 0 (physPtr 0x1000 4) 0x1000 (c crc) = false ∧
      (s a crc).confLost 0 (physPtr 0x1000 4) 0x1000 (c crc) = []) ∧
    (s a good).confCode 0 3 (opAs a) 0 0x1000 (c good) = none ∧ (c good).fld.k = 8 ∧ (c good).rills = [] ∧
    (s a 0).confCode 0 3 (opAs a) 0 0x1000 (c 0) = some 2 ∧
    ((s a good).installAll (c good).rills 9 none).isSome = true ∧ ((s a good).installAll (c good).rills 9 (some 1)).isSome = true ∧
    (let e := objEnt 7 0x8000
     let t := (s b 0).setDie 0 { otc := [{ e with x0 := e.x0 ||| BitVec.twoPow 64 61 }] }
     t.performs 0 3 (opAs b) ∧ t.confWaits 0 objPtr 0 (t.confOf 0 3 (opAs b) 0 0) = true) := by
  unfold State.performs
  decide +kernel

/-- FieldAndDrainForms: FREL of no handle, of another launch's field, of one with a pass in the array and of one without; FEED and WLD in no field, with bits
that must be 0, beyond their pointer, over a hole, with room and without; ACLR and ASTA in no field, of a tile of no rows, of one being drained and of one at
rest, of the plot and of the field. -/
theorem witness_FieldFormsPerform :
    let at_ := fun (k : CKind) (q : Ptr) (f : Field) (u : FUnit) =>
      inField ((issuedIn (opAs { kind := k, mx := some mx0, ptr := q })).onTask 0 3 (fun t => { t with launch := 9 })) f u
    let busy := { fedField with passes := [{ tile := 5, m := 1, fin := true, swap := false, eos := false, entered := true }] }
    let fed : FUnit := { feeds := List.replicate 4 { oneFeed false with serial := 1 }, tiles := [(5, tile5 .full 0), (6, { tile5 .full 0 with draining := some 0 })] }
    let q := physPtr 0x1000 4
    let feed : CKind := .feed true false false 0x50001
    (∀ k ∈ ([.frel 1, .frel 0x100000001, feed, .feed true false false 0, .wld 0, .wld 0x10000, .aclr 5, .aclr 0x15, .aclr 6, .aclr 0, .asta 5] : List CKind),
      ∀ f ∈ [fedField, busy, { fedField with launch := 8 }], ∀ u ∈ [fed, { fed with feeds := [] }],
      let s := at_ k q f u
      s.performs 0 3 (opAs { kind := k, mx := some mx0, ptr := q }) ∧ s.liveField 1 = some f ∧ s.fieldOf 0 = some f ∧
        (s.plot 0).fu.feeds.length = u.feeds.length ∧ (∀ c ∈ (s.plot 0).fu.feeds, c.serial ≠ 4) ∧ (∀ c ∈ (s.plot 0).fu.wlds, c.serial ≠ 4)) ∧
    (let s := at_ feed q fedField fed
     let rs := (s.fedRows fedField 0).flatMap (fun x => fedField.beatRanges (genOf 0) 0 0 x.1)
     let words := (List.range fedField.lr).flatMap (fun i => (List.range (s.localCols fedField 0).length).map (fun j => (i, j)))
     let ws := words.flatMap (fun x => fedField.wordRanges (genOf 2) 0 x.1 x.2)
     s.fieldPos fedField 0 = some (0, 0) ∧ fedField.gen 0 0 0 = some (genOf 0) ∧ fedField.gen 0 0 2 = some (genOf 2) ∧ (s.plot 0).fu.west? = true ∧
       (s.plot 0).fu.north? = true ∧ (s.plot 0).fu.south? = true ∧ rangesFit q rs = true ∧ s.srcHole 0 (genOf 0) q rs = false ∧ words ≠ [] ∧
       rangesFit q ws = true ∧ s.srcHole 0 (genOf 2) q ws = false ∧ rangesFit { q with cur := 0x3FFF } rs = false ∧
       ((s.onPlot 1 (fun x => { x with stat := .hole })).srcHole 0 (genOf 0) (physPtr (mkAddr 0 1 0) 4) rs) = true ∧
       ((s.plot 0).fu.tile 0).rows = 0 ∧ ((s.plot 0).fu.tile 6).emptying = true ∧ ((s.plot 0).fu.tile 5).emptying = false) ∧
    (let s := issuedIn (opAs { kind := feed })
     s.performs 0 3 (opAs { kind := feed }) ∧ s.fieldOf 0 = none) := by
  unfold State.performs
  decide +kernel

/-- TaskAndSystemForms: SPAWN with slot 15 alone free and with none; WAKE of a suspended, a parked and a free slot and of slot 16; the waits of INVO and INVA;
PIN of no object and of an extent; TBLW in each form, and with too much; HALTC; CSAVE of its own slot, a free one, one whose block is due or is aborting and
one at rest; CREST of a frame that is none and of one. -/
theorem witness_TaskFormsPerform :
    let at_ := fun (k : CKind) (q : Ptr) => launched ((issuedIn (opAs { kind := k, mx := some mx0, ptr := q })).onTask 0 3
      (fun t => { t with launch := 9 }))
    let q := physPtr 0x1000 4
    (∀ k ∈ ([.spawn 8 5, .wake 4 2, .wake 16 2, .wake 5 2, .wake 0 2, .invo 7, .inva, .pin 7 0x10000, .pin 7 0, .tblw .heat 0, .tblw .route 0x180,
        .tblw .admc 1, .tblw .name 1, .haltc 7, .csave 3, .csave 4, .csave 6, .crest 4, .crest 6] : List CKind),
      let s := ((at_ k q).onTask 0 4 (fun t => { t with st := .suspended })).onTask 0 5 (fun t => { t with st := .wait, wait := .park 2 })
      s.performs 0 3 (opAs { kind := k, mx := some mx0, ptr := q }) ∧ (s.plot 0).ctxBefore 4 4 = false ∧ (s.task 0 4).st = .suspended ∧
        (s.task 0 5).wait = .park 2 ∧ (s.task 0 6).st = .free ∧ s.pendingOn (fun x => x == 7) = false ∧ s.launch? 9 = some oneLaunch ∧
        oneLaunch.st ≠ .ending ∧ (s.plot 0).aborting 4 = false ∧ s.blockDue 0 4 = false ∧ (s.task 0 4).ops = [] ∧ (s.task 0 4).leaving = .no) ∧
    (let s := (List.range 16).foldl (fun s j => s.onTask 0 j (fun t => { t with st := .running })) (at_ (.spawn 8 5) q)
     (∀ j < 16, (s.task 0 j).st ≠ .free) ∧ ((s.onTask 0 15 (fun _ => {})).task 0 15).st = .free ∧
       s.opOf 0 3 4 = some (opAs { kind := .spawn 8 5, mx := some mx0, ptr := q })) ∧
    (let ps : List Piece := (List.range 128).map (fun i => (0x1000 + 32 * i, 32 * i, 32))
     let s := at_ (.csave 4) q
     let save : Op := opAs { kind := .csave 4, mx := some mx0, ptr := q }
     s.partHomes 0 q (piecesOf 0x1000 4096) = .ok ps ∧ s.takes = [] ∧ Memory.wf s.mem = true ∧
       (∀ y ∈ ps, s.hostLost y.1 = false ∧ s.mirrorOf y.1 = none ∧ 0 < y.2.2 ∧ y.1 % 32 + y.2.2 ≤ 32 ∧ y.2.1 + y.2.2 ≤ 4096 ∧ inSteward y.1 = false) ∧
       ps.Pairwise (fun y z => y.1 / 32 ≠ z.1 / 32) ∧ (∀ y ∈ ps, (s.sideAt y.1).poison = false) ∧
       ((s.setSide 0x1FE0 { poison := true }).sideAt 0x1FE0).poison = true ∧ save.made = false ∧ ({ save with made := true } : Op).made = true ∧
       ((storing s 0x1008 [4]).rdW 0x1008).extractLsb' 0 3 = 4 ∧ (s.rdW 0x1008).extractLsb' 0 3 ≠ 4) ∧
    (let s := committing [gave (.g 3) (.int 9)]
     let u := s.onPlot 0 (fun x => { x with h0 := { x.h0 with blk := x.h0.blk.map (fun b => { b with abort := some { cause := .field } }) } })
     s.blockDue 0 0 = true ∧ (u.plot 0).aborting 0 = true) ∧
    (let s := fun (ws : List (BitVec 64)) => storing { owned with mod := { owned.mod with featack := 0x10 } } 0x1000 ws
     let ok := fun (k : TblKind) (b : BitVec 64) (ws : List (BitVec 64)) => (s ws).tblwOk k b ws
     ok .heat 0 [0x3250] = true ∧ ok .heat 0 [0x5050] = false ∧ ok .route 0x180 [0] = true ∧ ok .route 0x101 [0] = false ∧
       ok .admc 1 [BitVec.ofNat 64 (1024 * 2 ^ 17 + 2 ^ 16)] = true ∧ ok .admc 1 [BitVec.ofNat 64 (1025 * 2 ^ 17)] = false ∧
       ok .name 1 [0xFFFF000000000000] = false ∧ (s [5]).partHomesBy false 0 q (piecesOf 0x1000 8) = .ok [(0x1000, 0, 8)]) ∧
    (let node := fun (a : Nat) => BitVec.ofNat 64 (2 ^ 63 + 2 ^ 62 + a)
     let s := storing (storing (storing (storing { owned with mod := { owned.mod with otroot := 0x40000 } } 0x40000 [node 0x40800]) 0x40800
       [node 0x41000]) 0x41038 [node 0x42000]) 0x42000 [0x10000, 0x10001, BitVec.ofNat 64 (2 ^ 63 + 2 ^ 62), 0x50000]
     s.lookup 7 = .found 0x10000 0x10001 0x42000 ∧ s.lookup 8 = .absent ∧ (s.rdW (s.extAddr 0x42000 0x10001 0)).getLsbD 63 = true ∧
       (s.die 0).otc.length < 512 ∧ (s.die 0).locked ≠ 128) := by
  unfold State.performs
  decide +kernel

/-! ### Real values, pages, fields, launches and host commands -/

theorem real_values : (FVal.fin false 3 (-1)).real = 3 / 2 ∧ (FVal.fin true 0 5).real = 0 ∧ (FVal.fin true 3 (-1)).real = -(3 / 2) := by
  refine ⟨?_, ?_, ?_⟩ <;> norm_num [FVal.real]

/-- FloatSpecialOperands and VectorQuantisation: the numbers 3/2, -0 and -3/2 among the operands of each format with infinities and without, the last finite
number of each and its infinity; scales that are not positive and finite; lanes with a NaN, all zero, and finite. -/
theorem witness_RealOperands :
    (∀ f ∈ withInf, (f.dec (f.inf true).toNat).isInf = true ∧ (f.dec ((f.inf false).toNat - 1)).isFin = true ∧
      (f.dec 0).isZero = true) ∧ fp64 ∈ withInf ∧ e5m2 ∈ withInf ∧ e4m3 ∉ withInf ∧ Rnd.rna ≠ .dyn ∧
    (FVal.fin true 0 5).real ≤ 0 ∧ (FVal.fin true 3 (-1)).real ≤ 0 ∧ 0 < (FVal.fin false 3 (-1)).real ∧ (FVal.inf false).isFin = false ∧
    (∃ x ∈ [FVal.fin false 3 (-1), .inf true], x.isFin = false) ∧ (∀ x ∈ [FVal.fin true 0 5], x.isZero = true) ∧
    (∀ x ∈ [FVal.fin true 0 5, .fin false 3 (-1)], x.isFin = true) ∧ (∃ x ∈ [FVal.fin true 0 5, .fin false 3 (-1)], x.real ≠ 0) := by
  obtain ⟨h1, h2, h3⟩ := real_values
  refine ⟨by decide +kernel, by decide, by decide, by decide +kernel, by decide, by rw [h2], by rw [h3]; norm_num, by rw [h1]; norm_num, rfl,
    ⟨.inf true, by simp, rfl⟩, by simp [FVal.isZero], by simp [FVal.isFin], ⟨.fin false 3 (-1), by simp, by rw [h1]; norm_num⟩⟩

/-- HostMemoryAndPages: a field with a FEED, with a WLD and with neither paused at the page, live and saved with its launch. -/
theorem witness_PausedFeeds :
    let feed : FUnit := { feeds := [{ oneFeed true with paused := some (7, 0x2008) }] }
    let wld : FUnit := { wlds := [{ oneWld with paused := some (7, 0x2FFF) }] }
    (∀ u ∈ [feed, wld, {}],
      let s := inField owned oneField u
      s.fields = [oneField] ∧ s.cmds = [] ∧ s.faulted = [] ∧ s.pausedOps 7 2 = [] ∧ s.launches = [] ∧ oneField.cellsOf = [(0, 0)] ∧
        s.fieldPlot oneField 0 0 = 0 ∧ (s.plot 0).fu.feeds = u.feeds ∧ (s.plot 0).fu.wlds = u.wlds ∧ s.mod.boot = 2 ∧ s.ownedBy 2) ∧
    (let held : HeldUnit := { r := 0, c := 0, feeds := feed.feeds, wlds := wld.wlds, drains := [], ms := [] }
     let l : Launch := { oneLaunch with st := .saved, savedFields := [{ oneField with held := [held] }, oneField] }
     let s : State := { owned with launches := [l] }
     s.fields = [] ∧ s.cmds = [] ∧ s.faulted = [] ∧ s.pausedOps 7 2 = [] ∧ s.launches[0]? = some l ∧ l.savedFields[1]? = some oneField ∧
       s.mod.boot = 2 ∧ s.ownedBy 2) ∧ pageOf 0x2008 = 2 ∧ pageOf 0x2FFF = 2 ∧ pageOf 0x3000 ≠ 2 := by
  unfold State.ownedBy
  decide +kernel

/-- FieldInputEvents: a live field whose master is gone, stands in a slot with and without operations, and waits for a page. -/
theorem witness_FieldFaults :
    let f := { oneField with masterUid := 6 }
    let s := fun (ops : List Op) => inField (launched (owned.onTask 0 3 (fun _ => { trapTask with ops := ops }))) f {}
    let gone := inField (launched owned) f {}
    let held : State := { gone with faulted := [oneFault] }
    (∀ u ∈ [s [], s [lateOp (.g 9) false], gone, held], u.liveField 1 = some f) ∧ gone.findTask 9 6 = none ∧ (s []).findTask 9 6 = some (0, 3) ∧
    (s [lateOp (.g 9) false]).findTask 9 6 = some (0, 3) ∧ ((s []).task 0 3).launch = 9 ∧ (s []).launch? 9 = some oneLaunch ∧
    (s []).faulted = [] ∧ held.faulted.find? (fun x => x.uid == f.masterUid && x.launch == f.launch) = some oneFault := by decide +kernel

/-- RillEvents: a receive end whose send end is gone keeps the format of what has arrived, and converts it; one that never had a send end. -/
theorem witness_KeptFormat :
    let r := { entry 2 3 false true [] with flight := [item9], src := some 0, src1 := some 5 }
    let s := owned.setRill 0 6 r
    s.upOf 0 6 false = none ∧ s.srcFmt 0 6 false = some 0 ∧ s.hasConv 0 6 false = true ∧ s.flows 0 6 false = true ∧ (s.rill 0 6).inConv false = [] ∧
      s.srcFmt 0 6 true = some 5 ∧ owned.srcFmt 0 6 false = none := by decide +kernel

/-- LaunchEvents: a launch that owes a host agent's report, of a task that has left and of one in its slot, and one that owes none; a module whose links
are all up. -/
theorem witness_HostOwed :
    let s := launched owned
    let left : State := { s with launches := [{ oneLaunch with hostLeft := [(0, 3, 4)] }] }
    let here := s.onTask 0 3 (fun t => { t with hostOps := [(4, 0)] })
    (s.stripLaunch oneLaunch).hostOwed oneLaunch = false ∧ (left.stripLaunch oneLaunch).hostOwed oneLaunch = true ∧
      (here.stripLaunch oneLaunch).hostOwed oneLaunch = true ∧ (s.stripLaunch oneLaunch).launch? 9 = some oneLaunch ∧ oneLaunch.kind = 0x10 ∧
      ({ oneLaunch with kind := 0x17 } : Launch).kind = 0x17 := by decide +kernel

theorem linksUp : ∀ a, ({ owned with mod := { owned.mod with linkUp := 0xFF } } : State).hostLost a = false := by
  intro a
  have h : ∀ n, n < 8 → (0xFF : BitVec 8).getLsbD n = true := by decide
  show (isHost a && !(0xFF : BitVec 8).getLsbD (spaceOf a - 8)) = false
  by_cases hh : isHost a = true
  · have : spaceOf a - 8 < 8 := by
      simp only [isHost, Bool.and_eq_true, decide_eq_true_eq] at hh
      omega
    rw [h _ this, hh]
    rfl
  · simp [hh]

/-- HostCommands: a launch with tasks that are free, wait with an operation outstanding and have none, with a command and without; a command of each kind in
progress, for a launch that is gone, ending, and at the point where it ends; the map's words, odd and even. -/
theorem witness_HostProgress :
    let s := launched (owned.onTask 0 3 (fun _ => { trapTask with ops := [lateOp (.g 9) false] }))
    let cmd := fun (n : Nat) => ({ cmd := n, launch := 9, cq := 7, start := 0, src := 0, dst := 1 } : HostCmd)
    let l : Launch := { oneLaunch with marked := true }
    let calm : State := { launched owned with launches := [l], hostCmd := some (cmd 1) }
    (s.launch? 9 = some oneLaunch ∧ oneLaunch.st ≠ .ending ∧ 0 ∈ s.plotsOf 9 ∧ (s.task 0 3).st ≠ .free ∧ (s.task 0 3).ops ≠ [] ∧ s.cmds = [] ∧
      ({ s with cmds := [oneCmd] } : State).cmds = [oneCmd] ∧ oneCmd.launch = 9) ∧
    (owned.launch? 9 = none ∧ ({ launched owned with launches := [{ oneLaunch with st := .ending }] } : State).launch? 9 =
      some { oneLaunch with st := .ending }) ∧
    (calm.launch? 9 = some l ∧ l.st ≠ .ending ∧ calm.plotsOf 9 = [0] ∧ (((calm.plotsOf 9).foldl (fun s p => s.saveCore p) calm).plot 0).allSaved = true ∧
      (((calm.plotsOf 9).foldl (fun s p => s.saveCore p) calm).quiesce (cmd 1) l (fun _ r => r.launch == 9)).2 = true ∧
      (((calm.plotsOf 9).foldl (fun s p => s.saveCore p) calm).quiesce (cmd 1) l (fun _ r => r.launch == 9)).1.fields = [] ∧ calm.cmds = []) ∧
    (let v : State := { calm with hostCmd := some (cmd 3) }
     (v.plot 0).owner = some (9, 0) ∧ (v.plot 1).stat ≠ .hole ∧ ((v.saveCore 0).plot 0).allSaved = true ∧
       ((v.saveCore 0).quiesce (cmd 3) l (fun p r => r.launch == 9 && (p == 0 || r.down.map (fun d => d.1) == some 0))).2 = true) ∧
    (let w := newLaunch (launchWords 0) 7
     let v : State := { serving {} with launches := [{ w with st := .saved }], hostCmd := some { cmd 2 with launch := w.id } }
     v.launch? w.id = some { w with st := .saved } ∧ v.findAgain { w with st := .saved } = some (0, 0, 0) ∧ v.hostProgress.hostCmd = none) ∧
    (let v : State := { owned with mod := { owned.mod with mapLag := [(0x40, 5)], mapGen := 1 } }
     v.mod.mapLag = [(0x40, 5)] ∧ ({ owned with mod := { owned.mod with mapGen := 1 } } : State).mod.mapGen.getLsbD 0 = true ∧ owned.mod.mapLag = []) := by
  decide +kernel

/-- CommandEndsAndFlits: a command whose task holds its stream unit and its handle, with a write that reached the host and none, and a task that waits. -/
theorem witness_CommandEnds :
    let o : Op := { opAs oneCmd.act with serial := 3 }
    let c : Cmd := { oneCmd with toHost := true, act := { oneCmd.act with kind := .xcpy (physPtr 0x8000 4) (5000 + 0xFF0000000 + 9 * 2 ^ 36) } }
    let s := fun (x : Cmd) => { launched (issuedIn o) with cmds := [x] }.onTask 0 3 (fun t => { t with handles := [(3, 7)], st := .wait, launch := 9 })
    ∀ x ∈ [oneCmd, c], (s x).handleSlot 3 = some (0, 3) ∧ (s x).unitSlot 3 = some (0, 3) ∧ ((s x).task 0 3).leaving = .no ∧ (s x).opOf 0 3 3 = some o ∧
      (s x).cmd? 3 = some x ∧ x.act.mx = some mx0 ∧ mx0.scope ≠ .host ∧ o.act.dst = .none ∧ ((s x).task 0 3).st = .wait ∧
      ((s x).task 0 3).trapv.getLsbD 0 = false ∧ (s x).launch? x.launch = some oneLaunch ∧ (s x).semPlot x = 0 := by decide +kernel

/-- RegisterWindows: ports whose link is down and up. -/
theorem witness_PortLinks : owned.mod.link.getLsbD 0 = false ∧ (inCollective 2 []).mod.link.getLsbD 0 = true := by decide +kernel

end Sys2Proof.Tests
end

