-- ==== Sys2Proof/Proofs/TimeAndCommands.lean ====
section
/-! PROOFS. The events of time (R23, R209, R258), and the owner's RESTORE of a saved launch whose id a taken record carries (R338, R349; log 25). -/

namespace Sys2Proof.Machine

open Sys2Proof

/-! ## Admission windows (R258) -/

/-- A map whose values are changed by key, where the default stays the default. -/
theorem SMap.get_map {α : Type} (m : SMap α) (g : Nat → α → α) (k : Nat) (d : α) (h : g k d = d) :
    SMap.get (m.map (fun x : Nat × α => (x.1, g x.1 x.2))) k d = g k (SMap.get m k d) := by
  induction m with
  | nil => exact h.symm
  | cons x t ih =>
    obtain ⟨j, v⟩ := x
    by_cases hj : j = k
    · subst hj; simp [SMap.get]
    · simp [SMap.get, hj, ih]

/-- An admission port whose counter stands at its effective cap. -/
def AdmPort.refilled (a : AdmPort) : AdmPort := { a with cnt := a.ecap }

/-- A plot with the counters of both admission ports at their caps. -/
def Plot.refilled (x : Plot) : Plot :=
  { x with fu := { x.fu with port0 := x.fu.port0.refilled, port1 := x.fu.port1.refilled } }

/-- What a window of a die makes of the plot with id p. -/
def Plot.afterWindow (die p : Nat) (x : Plot) : Plot := if dieOf p = die then x.refilled else x

theorem Plot.afterWindow_default (die p : Nat) : Plot.afterWindow die p {} = {} := by
  simp [Plot.afterWindow, Plot.refilled, AdmPort.refilled, AdmPort.ecap]

theorem State.admRefill_plot (s : State) (die p : Nat) : (s.admRefill die).plot p = (s.plot p).afterWindow die p := by
  have hm : (s.admRefill die).plots = s.plots.map (fun x => (x.1, x.2.afterWindow die x.1)) := by
    refine List.map_congr_left fun x _ => ?_
    by_cases hx : dieOf x.1 = die <;> simp [hx, Plot.afterWindow, Plot.refilled, AdmPort.refilled]
  rw [State.plot, hm]
  exact SMap.get_map s.plots (Plot.afterWindow die) p {} (Plot.afterWindow_default die p)

/-- A window changes a plot in its field units alone. -/
theorem State.admRefill_plot_fu (s : State) (die p : Nat) : ∃ u, (s.admRefill die).plot p = { s.plot p with fu := u } := by
  rw [State.admRefill_plot, Plot.afterWindow]
  by_cases hp : dieOf p = die
  · exact ⟨_, by rw [if_pos hp, Plot.refilled]⟩
  · exact ⟨(s.plot p).fu, by rw [if_neg hp]⟩

/-- What the steward's views say of the module and its plots does not depend on the plots' field units (R371, R376). -/
theorem State.stewardWord_of_fu {s t : State} (hm : t.mod = s.mod) (hp : ∀ p, ∃ u, t.plot p = { s.plot p with fu := u }) (off : Nat) :
    t.stewardWord off = s.stewardWord off := by
  have hstat : ∀ p, (t.plot p).stat = (s.plot p).stat := fun p => by
    obtain ⟨u, hu⟩ := hp p
    rw [hu]
  have hentry : ∀ p i, t.mapEntry p i = s.mapEntry p i := fun p i => by
    obtain ⟨u, hu⟩ := hp p
    simp only [State.mapEntry, hu, hm]
  have hhead : ∀ i, t.mapHeader i = s.mapHeader i := fun i => by
    simp only [State.mapHeader, State.countStat, hstat, hm]
  simp only [State.stewardWord, State.stewardNow, hentry, hhead, hm]

theorem State.admRefill_sameMemory (s : State) (die : Nat) : SameMemory s (s.admRefill die) := by
  constructor
  · intro a
    have hw := State.stewardWord_of_fu (s := s) (t := s.admRefill die) rfl (s.admRefill_plot_fu die)
    have hmem : (s.admRefill die).mem = s.mem := rfl
    simp only [State.rdByte, hw, hmem]
  · intro a
    rfl

theorem State.admRefill_sameTasks (s : State) (die : Nat) : SameTasks s (s.admRefill die) := by
  intro p k
  obtain ⟨u, hu⟩ := s.admRefill_plot_fu die p
  simp only [State.task, Plot.task, hu]

theorem State.admRefill_admMark (s : State) (die : Nat) : ((s.admRefill die).die die).admMark = (s.die die).cyc := by
  simp only [State.admRefill, State.die_setDie, if_pos]
  rfl

/-- The first ADM_WINDOW of a cycle that is a multiple of 1,024 refills the counters of its die. -/
theorem execAdmWindow_due {s : State} {die : Nat} (hd : die < 84) (hc : (s.die die).cyc.toNat % 1024 = 0)
    (hm : (s.die die).admMark ≠ (s.die die).cyc) : exec (.admWindow die) s = .next (s.admRefill die) := by
  have hlow : (s.die die).cyc.extractLsb' 0 10 = 0 := by
    apply BitVec.eq_of_toNat_eq
    simpa [BitVec.extractLsb'_toNat] using hc
  have hin : ¬ 83 < die := by omega
  show execAdmWindow die s = _
  simp [execAdmWindow, hin, hlow, hm]

/-! ## The SC token (R209) -/

/-- The serpentine ring stays on the 84 dies. -/
theorem tokenNext_lt {die : Nat} (h : die < 84) : tokenNext die < 84 := by
  simp only [tokenNext]
  split_ifs <;> omega

/-- A die that holds the token serves up to sixteen of its queue and passes the token on. -/
theorem execScTokenArrive_held {s : State} {die : Nat} (ht : s.mod.tokenDie = die) (hc : s.clocked = true) :
    exec (.scTokenArrive die) s = .next { (((s.die die).seqQ.take 16).foldl (fun s r => s.serveSeq die r) s).onMod
      (fun m => { m with tokenDie := tokenNext die }) with focus := s.focus } := by
  show execScTokenArrive die s = _
  simp [execScTokenArrive, ht, hc]

theorem execScTokenArrive_idle {s : State} {die : Nat} (ht : s.mod.tokenDie = die) (hc : s.clocked = true) (hq : (s.die die).seqQ = []) :
    exec (.scTokenArrive die) s = .next (s.onMod (fun m => { m with tokenDie := tokenNext die })) := by
  rw [execScTokenArrive_held ht hc, hq]
  rfl

/-! ## Wafer time (R23) -/

/-- A die that a broadcast has reached: its copy is set where it was behind, and is to be caught up with where it was ahead. -/
def Die.told (d : Die) (now : BitVec 64) : Die :=
  { (if d.wtime < now then { d with wtime := now, wfrac := 0, behind := 0 } else { d with behind := 17 * (d.wtime - now).toNat }) with
    wstale := false, sinceB := 0 }

/-- A broadcast never sets the copy back. -/
theorem Die.told_wtime (d : Die) (now : BitVec 64) : (d.told now).wtime = if d.wtime < now then now else d.wtime := by
  simp only [Die.told]
  split_ifs <;> rfl

theorem execWaferTimeBroadcast_on {s : State} {die : Nat} (time : BitVec 64) (hd : die < 84) (hb : s.mod.boot = 2)
    (hp : s.mod.pscur.toNat ≤ 2) :
    exec (.waferTimeBroadcast die time) s = .next (s.setDie die ((s.die die).told (time + Config.pathLatency die))) := by
  have hin : ¬ 83 < die := by omega
  have hps : ¬ 3 ≤ s.mod.pscur.toNat := by omega
  show execWaferTimeBroadcast die time s = _
  simp [execWaferTimeBroadcast, Die.told, hin, hb, hps]

theorem execWstale_due {s : State} {die : Nat} (hd : die < 84) (h : 64000 * 17 ≤ (s.die die).sinceB) :
    exec (.wstale die) s = .next (s.setDie die { s.die die with wstale := true }) := by
  have hin : ¬ 83 < die := by omega
  have hs : ¬ (s.die die).sinceB < 64000 * 17 := by omega
  show execWstale die s = _
  simp [execWstale, hin, hs]

/-- Settles O52: each event is the one update that the lemmas above name, and the frames follow from what that update touches. -/
theorem timeEvents : Obligations.TimeEvents := by
  unfold Obligations.TimeEvents
  intro s die hd
  refine ⟨fun ht hc => ⟨tokenNext_lt hd, ⟨_, execScTokenArrive_held ht hc, rfl⟩, execScTokenArrive_idle ht hc⟩, fun hc hm => ?_,
    fun time hb hp => ?_, execWstale_due hd⟩
  · refine ⟨_, execAdmWindow_due hd hc hm, s.admRefill_sameMemory die, s.admRefill_sameTasks die, s.admRefill_admMark die, fun p => ?_⟩
    rw [State.admRefill_plot, Plot.afterWindow]
    split_ifs <;> rfl
  · refine ⟨_, execWaferTimeBroadcast_on time hd hb hp, ?_, ?_, ?_, fun d hne => ?_, rfl, fun p k => rfl⟩
    · simp [State.die_setDie, Die.told]
    · simp [State.die_setDie, Die.told]
    · simp [State.die_setDie, Die.told_wtime]
    · simp [State.die_setDie, hne]

/-! ## RESTORE of a saved launch whose id has come to life again (R338, R349; log 25) -/

/-- A command of the owner, while none is in progress, is taken. -/
theorem State.hostCmdWrite_taken {s : State} {port : Nat} (ho : s.ownedBy port) (hs : s.sluiceOn = true) (hc : s.hostCmd = none)
    (f : State → State) : s.hostCmdWrite port f = f s := by
  obtain ⟨hlive, hvalid, hport⟩ := ho
  simp [State.hostCmdWrite, State.byOwner, hlive, hvalid, hport, hs, hc]

/-- A launch record that a queue has taken makes its id that of a live launch. -/
theorem State.idLive_of_taken {s : State} {id : BitVec 32} {i : Nat} (hi : i < 8) {ws : List (BitVec 64)}
    (ht : (s.queues[i]).taken = some ws) (hw : (newLaunch ws 0).id = id) : s.idLive id = true := by
  have hany : s.queues.any (fun q => q.taken.any (fun ws => (newLaunch ws 0).id == id)) = true :=
    Vector.any_eq_true.2 ⟨i, hi, by simp [ht, hw]⟩
  simp [State.idLive, hany]

/-- RESTORE of a saved launch is refused while its id is that of a live one. -/
theorem execHostRestore_idLive {s : State} {port : Nat} (cq n : Nat) {l : Launch} (ho : s.ownedBy port) (hs : s.sluiceOn = true)
    (hc : s.hostCmd = none) (hl : s.launch? (BitVec.ofNat 32 n) = some l) (hst : l.st = .saved)
    (hid : s.idLive (BitVec.ofNat 32 n) = true) :
    exec (.hostRestore port cq n) s = .next (s.refuseCmd (cq % 8) (BitVec.ofNat 32 n) 0x31) := by
  show execHostRestore port cq n s = _
  simp [execHostRestore, State.hostCmdWrite_taken ho hs hc, hl, hst, hid]

/-- A RESTORE in progress waits while no place is found for its launch. -/
theorem State.hostProgress_restore_waits {s : State} {c : HostCmd} {l : Launch} (hs : s.sluiceOn = true) (hc : s.hostCmd = some c)
    (h2 : c.cmd = 2) (hl : s.launch? c.launch = some l) (hst : l.st = .saved) (hp : s.findAgain l = none) : s.hostProgress = s := by
  simp [State.hostProgress, State.restoreStep, hs, hc, h2, hl, hst, hp]

/-- A saved launch of id 9. -/
def savedNine : Launch := { id := 9, words := [], q := 0, rect := 0, row := 0, col := 0, st := .saved }

/-- A booted module of an owner at port 0, whose queue 0 holds a record of id 9 that waits for its placement, while a launch of id 9 is saved.
The check of R338 lets such a record through, for the id of a saved launch is not live. -/
def takenBesideSaved : State :=
  { State.reset with
    mod := { boot := 2, ovalid := true }
    launches := [savedNine]
    queues := State.reset.queues.set 0 { taken := some [9 * 2 ^ 32] } }

/-- Refutes O60: in takenBesideSaved a record that a queue has taken carries the saved launch's id, so that RESTORE is refused with 0x31, where
the statement has it begin for every saved launch. -/
theorem not_hostCommands : ¬ Obligations.HostCommands := by
  unfold Obligations.HostCommands
  intro h
  have ho : takenBesideSaved.ownedBy 0 := ⟨by decide, by decide, by decide⟩
  have hs : takenBesideSaved.sluiceOn = true := by decide
  have hl : takenBesideSaved.launch? (BitVec.ofNat 32 9) = some savedNine := by decide
  have hid : takenBesideSaved.idLive (BitVec.ofNat 32 9) = true :=
    State.idLive_of_taken (i := 0) (by decide) (ws := [9 * 2 ^ 32]) rfl (by decide)
  have hrefused := execHostRestore_idLive (port := 0) 0 9 ho hs rfl hl rfl hid
  obtain ⟨-, -, hstates, -⟩ := h takenBesideSaved 0 0 9 ho hs rfl
  obtain ⟨-, -, -, -, hrestore, -⟩ := hstates savedNine hl
  have hbegun : exec (.hostRestore 0 0 9) takenBesideSaved = .next (takenBesideSaved.startCmd 2 9 0 0xFFFF 0xFFFF).hostProgress :=
    hrestore rfl
  have hwaits := State.hostProgress_restore_waits (s := takenBesideSaved.startCmd 2 9 0 0xFFFF 0xFFFF) (l := savedNine) hs rfl rfl hl rfl
    (by decide)
  rw [hrefused, hwaits] at hbegun
  have hcmd := congrArg State.hostCmd (Host.Outcome.next.inj hbegun)
  rw [State.refuseCmd, State.post_hostCmd] at hcmd
  cases hcmd

end Sys2Proof.Machine
end

