-- ==== Sys2Proof/Proofs/CheckedForms.lean ====
section
/-! PROOFS. How a slot whose FP results are checked ends (R39, R49, R136, R138): one lemma for each shape of instruction, from which what it gives
while it is quiet and what it does when it triggers follow alike (R49, R50, R136, R138, R221, R280, R397). -/

namespace Sys2Proof.Machine

open Sys2Proof

/-! ## A slot that ends with checked results -/

/-- A slot that ends with the record r once its checked results have been compared with the threshold (R49, R50). -/
def State.finishChecked (s : State) (cx : Cx) (r : SlotRec) (cs : List Checked) : State :=
  match cx.task.trigger cs with
  | none => s.finish cx r
  | some c =>
    let u := s.bump cx.p 30 (cs.filter (fun c => c.fin && decide (c.tag < cx.task.theta))).length
    if cx.task.sigTrap then u.abortSlot cx { cause := .sig, lane := c.lane, info := sigInfo c } else u.finish cx { r with siglost := true }

/-- The end of a slot with FP results is that of its record and checks, once its unit has been counted. -/
theorem State.fpResult_eq (s : State) (cx : Cx) (d : Dst) (v : Val) (fl : FFlags) (cs : List Checked) (unit : Nat) :
    s.fpResult cx d v fl cs unit = (s.bump cx.p unit 1).finishChecked cx { val := some v, dst := d, flags := fl } cs := rfl

/-- SIGLOST is not part of what clashes (R65). -/
theorem Cx.free_siglost {cx : Cx} {r : SlotRec} (b : Bool) : cx.free { r with siglost := b } ↔ cx.free r := Iff.rfl

/-- Results that do not trigger leave the record. -/
theorem State.finishChecked_quiet {s : State} {cx : Cx} {r : SlotRec} {cs : List Checked} (h : cx.quiet cs) :
    s.finishChecked cx r cs = s.finish cx r := by
  simp [State.finishChecked, trigger_quiet h]

/-- An instruction that ends with checked results does what R49 and R50 say when one of them triggers. -/
theorem triggers_of_finishChecked {s t : State} {cx : Cx} {i : Instr} {r : SlotRec} {cs : List Checked}
    (hi : exec i s = .next (t.finishChecked cx r cs)) : Triggers s t cx i r cs := by
  refine ⟨fun c hc => ⟨fun ht => ?_, fun ht => ⟨fun hf => ?_, fun hf => ?_⟩⟩, fun hq hf => ?_⟩
  · rw [hi]
    simp [State.finishChecked, trigger_lowest hc, ht, sigInfo]
  · rw [hi]
    simp only [State.finishChecked, trigger_lowest hc, ht, Bool.false_eq_true, if_false]
    exact congrArg _ (finish_free ((Cx.free_siglost true).2 hf))
  · rw [hi]
    simp only [State.finishChecked, trigger_lowest hc, ht, Bool.false_eq_true, if_false]
    exact congrArg _ (finish_clash (mt (Cx.free_siglost true).1 hf))
  · rw [hi, State.finishChecked_quiet hq, finish_clash hf]

/-- The same instruction gives its record while they are quiet and D is free. -/
theorem executed_of_finishChecked {s t : State} {cx : Cx} {i : Instr} {r : SlotRec} {cs : List Checked}
    (hi : exec i s = .next (t.finishChecked cx r cs)) (hf : cx.free r) (hq : cx.quiet cs) : exec i s = .next (t.executed cx r) := by
  rw [hi, State.finishChecked_quiet hq, finish_free hf]

/-! ## FP results -/

/-- An instruction whose slot hands a value with its flags to the check of its results (R136, R138). -/
def Checks (s : State) (cx : Cx) (i : Instr) (d : Dst) (v : Val) (fl : FFlags) (cs : List Checked) (unit : Nat) : Prop :=
  exec i s = .next (s.fpResult cx d v fl cs unit)

theorem Checks.triggers {s : State} {cx : Cx} {i : Instr} {d : Dst} {v : Val} {fl : FFlags} {cs : List Checked} {unit : Nat}
    (h : Checks s cx i d v fl cs unit) : Triggers s (s.bump cx.p unit 1) cx i { val := some v, dst := d, flags := fl } cs :=
  triggers_of_finishChecked h

theorem Checks.gives {s : State} {cx : Cx} {i : Instr} {d : Dst} {v : Val} {fl : FFlags} {cs : List Checked} {unit : Nat}
    (h : Checks s cx i d v fl cs unit) (hf : cx.free { dst := d }) (hq : cx.quiet cs) : FpGives s cx i d v fl unit :=
  executed_of_finishChecked h (free_of_dst hf rfl rfl rfl) hq

/-- A value that is not checked is given whatever it is (R138). -/
theorem Checks.gives_unchecked {s : State} {cx : Cx} {i : Instr} {d : Dst} {v : Val} {fl : FFlags} {unit : Nat}
    (h : Checks s cx i d v fl [] unit) (hf : cx.free { dst := d }) : FpGives s cx i d v fl unit :=
  h.gives hf (quiet_nil cx)

/-- An instruction with one scalar FP result, checked in a format. -/
abbrev ChecksFp (s : State) (cx : Cx) (i : Instr) (d : Dst) (f : FpFmt) (r : FpRes) (unit : Nat) : Prop :=
  Checks s cx i d (.fp r.reg) r.flags [r.checked f] unit

/-- An instruction with sixteen FP32 results, every lane checked. -/
abbrev ChecksVec (s : State) (cx : Cx) (i : Instr) (d : Dst) (r : Nat → FpRes) : Prop :=
  Checks s cx i d (.vec (vecOf (lanes16 r))) (flagsOf (lanes16 r)) (laneChecks (lanes16 r)) 16

/-- A NaN or an infinity never triggers, so it is given with tag 0 (R43, R49). -/
theorem ChecksFp.gives_nonfinite {s : State} {cx : Cx} {i : Instr} {d : Dst} {f : FpFmt} {r : FpRes} {unit : Nat} {b : BitVec 64} {fl : FFlags}
    (h : ChecksFp s cx i d f r unit) (hf : cx.free { dst := d }) (hr : r = ⟨b, fl, 0⟩) (hb : (f.dec b.toNat).isFin = false) :
    FpGives s cx i d (.fp ⟨b, 0⟩) fl unit := by
  subst hr
  refine Checks.gives h hf (fun c hc hfin => ?_)
  obtain rfl := List.mem_singleton.1 hc
  exact absurd hfin (by simp [FpRes.checked, hb])

/-! ## The shapes of instructions -/

section Shapes

variable {s : State} {cx : Cx} {p : Pred} {d : Dst} {i : Instr} {a b c : Opnd}

theorem fp1_checks {x : FReg} {src dst : FpFmt} (f : Task → FVal → Nat → FpRes) (hr : s.runs cx p) (ha : cx.fp a = .val x)
    (hi : exec i s = fp1 p d a src dst s f) : ChecksFp s cx i d dst (f cx.task (x.read src).1 (x.read src).2) 15 :=
  hi.trans (runSlot_val hr (by rw [ha]; rfl))

theorem fp2_checks {x y : FReg} {fmt : FpFmt} (f : Task → FVal → Nat → FVal → Nat → FpRes) (hr : s.runs cx p) (ha : cx.fp a = .val x)
    (hb : cx.fp b = .val y) (hi : exec i s = fp2 p d a b fmt s f) :
    ChecksFp s cx i d fmt (f cx.task (x.read fmt).1 (x.read fmt).2 (y.read fmt).1 (y.read fmt).2) 15 :=
  hi.trans (runSlot_val hr (by rw [ha, Rd.bind_val, hb]; rfl))

/-- FADD, FSUB, FMUL and FDIV of the values and tags read (R123). -/
theorem fadd_checks {x y : FReg} (fmt : Fmt) (rnd : Rnd) (hr : s.runs cx p) (ha : cx.fp a = .val x) (hb : cx.fp b = .val y) : let f := fmtOf fmt
    ChecksFp s cx (.fadd p d fmt rnd a b) d f (fpAdd f (cx.task.mode rnd) (x.read f).1 (x.read f).2 (y.read f).1 (y.read f).2) 15 :=
  fp2_checks (fun t => fpAdd (fmtOf fmt) (t.mode rnd)) hr ha hb rfl

theorem fsub_checks {x y : FReg} (fmt : Fmt) (rnd : Rnd) (hr : s.runs cx p) (ha : cx.fp a = .val x) (hb : cx.fp b = .val y) : let f := fmtOf fmt
    ChecksFp s cx (.fsub p d fmt rnd a b) d f (fpAdd f (cx.task.mode rnd) (x.read f).1 (x.read f).2 (y.read f).1.flip (y.read f).2) 15 :=
  fp2_checks (fun t => fpSub (fmtOf fmt) (t.mode rnd)) hr ha hb rfl

theorem fmul_checks {x y : FReg} (fmt : Fmt) (rnd : Rnd) (hr : s.runs cx p) (ha : cx.fp a = .val x) (hb : cx.fp b = .val y) : let f := fmtOf fmt
    ChecksFp s cx (.fmul p d fmt rnd a b) d f (fpMul f (cx.task.mode rnd) (x.read f).1 (x.read f).2 (y.read f).1 (y.read f).2) 15 :=
  fp2_checks (fun t => fpMul (fmtOf fmt) (t.mode rnd)) hr ha hb rfl

theorem fdiv_checks {x y : FReg} (fmt : Fmt) (rnd : Rnd) (hr : s.runs cx p) (ha : cx.fp a = .val x) (hb : cx.fp b = .val y) : let f := fmtOf fmt
    ChecksFp s cx (.fdiv p d fmt rnd a b) d f (fpDiv f (cx.task.mode rnd) (x.read f).1 (x.read f).2 (y.read f).1 (y.read f).2) 15 :=
  fp2_checks (fun t => fpDiv (fmtOf fmt) (t.mode rnd)) hr ha hb rfl

theorem fsqrt_checks {x : FReg} (fmt : Fmt) (rnd : Rnd) (hr : s.runs cx p) (ha : cx.fp a = .val x) : let f := fmtOf fmt
    ChecksFp s cx (.fsqrt p d fmt rnd a) d f (fpSqrt f (cx.task.mode rnd) (x.read f).1 (x.read f).2) 15 :=
  fp1_checks (fun t => fpSqrt (fmtOf fmt) (t.mode rnd)) hr ha rfl

theorem ffma_checks {x y z : FReg} (fmt : Fmt) (rnd : Rnd) (hr : s.runs cx p) (ha : cx.fp a = .val x) (hb : cx.fp b = .val y)
    (hc : cx.fp c = .val z) : let f := fmtOf fmt
    ChecksFp s cx (.ffma p d fmt rnd a b c) d f (fpFma f (cx.task.mode rnd) (x.read f).1 (x.read f).2 (y.read f).1 (y.read f).2 (z.read f).1 (z.read f).2) 15 :=
  runSlot_val hr (by rw [ha, Rd.bind_val, hb, Rd.bind_val, hc]; rfl)

theorem intFp_checks {n : BitVec 64} {fmt : FpFmt} {rnd : Rnd} (v : BitVec 64 → Int) (hr : s.runs cx p) (ha : cx.int a = .val n)
    (hi : exec i s = intFp p d a fmt rnd v s) : ChecksFp s cx i d fmt (intToFp fmt (cx.task.mode rnd) (v n)) 15 :=
  hi.trans (runSlot_val hr (by rw [ha]; rfl))

theorem fpPred_checks {x y : FReg} {fmt : FpFmt} {k : FCmp} (hr : s.runs cx p) (ha : cx.fp a = .val x) (hb : cx.fp b = .val y)
    (hi : exec i s = fpPred p d a b fmt k s) :
    Checks s cx i d (.pred (fpCmp k (x.read fmt).1 (y.read fmt).1).1) (fpCmp k (x.read fmt).1 (y.read fmt).1).2 [] 15 :=
  hi.trans (runSlot_val hr (by rw [ha, Rd.bind_val, hb]; rfl))

/-- Checked lanes of one VEC operand, the value read bit by bit where the form needs it. -/
theorem vec1_checks {x : VReg} {r : VReg → Nat → FpRes} (hr : s.runs cx p) (ha : cx.vec a = .val x)
    (hi : exec i s = runSlot p s (fun cx => (cx.vec a).bind (fun x => .val (s.vecResult cx d (lanes16 (r x)))))) : ChecksVec s cx i d (r x) :=
  hi.trans (runSlot_val hr (by rw [ha]; rfl))

/-- A value of one VEC operand that is not checked. -/
theorem plain1_checks {x : VReg} {v : VReg → Val} {fl : VReg → FFlags} (hr : s.runs cx p) (ha : cx.vec a = .val x)
    (hi : exec i s = runSlot p s (fun cx => (cx.vec a).bind (fun x => .val (s.vecPlain cx d (v x) (fl x))))) :
    Checks s cx i d (v x) (fl x) [] 16 :=
  hi.trans (runSlot_val hr (by rw [ha]; rfl))

/-- A value of two VEC operands that is not checked. -/
theorem plain2_checks {x y : VReg} {v : VReg → VReg → Val} {fl : VReg → VReg → FFlags} (hr : s.runs cx p) (ha : cx.vec a = .val x)
    (hb : cx.vec b = .val y)
    (hi : exec i s = runSlot p s (fun cx => (cx.vec a).bind (fun x => (cx.vec b).bind (fun y => .val (s.vecPlain cx d (v x y) (fl x y)))))) :
    Checks s cx i d (v x y) (fl x y) [] 16 :=
  hi.trans (runSlot_val hr (by rw [ha, Rd.bind_val, hb]; rfl))

theorem vArith2_f32_checks {x y : VReg} {rnd : Rnd} (f : Rnd → FVal → Nat → FVal → Nat → FpRes) (g : BitVec 32 → BitVec 32 → BitVec 32)
    (hr : s.runs cx p) (ha : cx.vec a = .val x) (hb : cx.vec b = .val y) (hi : exec i s = vArith2 p d (.f32 rnd) a b s f g) :
    ChecksVec s cx i d (fun k => f (cx.task.mode rnd) (x.f32 k).1 (x.f32 k).2 (y.f32 k).1 (y.f32 k).2) :=
  hi.trans (runSlot_val hr (by rw [ha, Rd.bind_val, hb]; rfl))

theorem vArith2_i32_checks {x y : VReg} (f : Rnd → FVal → Nat → FVal → Nat → FpRes) (g : BitVec 32 → BitVec 32 → BitVec 32)
    (hr : s.runs cx p) (ha : cx.vec a = .val x) (hb : cx.vec b = .val y) (hi : exec i s = vArith2 p d .i32 a b s f g) :
    Checks s cx i d (.vec (intVec (fun k => g (x.lane k) (y.lane k)))) 0 [] 16 :=
  hi.trans (runSlot_val hr (by rw [ha, Rd.bind_val, hb]; rfl))

theorem vfma_f32_checks {x y z : VReg} (rnd : Rnd) (hr : s.runs cx p) (ha : cx.vec a = .val x) (hb : cx.vec b = .val y) (hc : cx.vec c = .val z) :
    ChecksVec s cx (.vfma p d (.f32 rnd) a b c) d
      (fun k => fpFma fp32 (cx.task.mode rnd) (x.f32 k).1 (x.f32 k).2 (y.f32 k).1 (y.f32 k).2 (z.f32 k).1 (z.f32 k).2) :=
  runSlot_val hr (by rw [ha, Rd.bind_val, hb, Rd.bind_val, hc]; rfl)

theorem vfma_i32_checks {x y z : VReg} (hr : s.runs cx p) (ha : cx.vec a = .val x) (hb : cx.vec b = .val y) (hc : cx.vec c = .val z) :
    Checks s cx (.vfma p d .i32 a b c) d (.vec (intVec (fun k => x.lane k * y.lane k + z.lane k))) 0 [] 16 :=
  runSlot_val hr (by rw [ha, Rd.bind_val, hb, Rd.bind_val, hc]; rfl)

theorem vscl_f32_checks {x : VReg} {w : FReg} (rnd : Rnd) (hr : s.runs cx p) (ha : cx.vec a = .val x) (hb : cx.fp b = .val w) :
    ChecksVec s cx (.vscl p d (.f32 rnd) a b) d
      (fun k => fpMul fp32 (cx.task.mode rnd) (x.f32 k).1 (x.f32 k).2 (w.read fp32).1 (w.read fp32).2) :=
  runSlot_val hr (by rw [ha, Rd.bind_val, hb]; rfl)

theorem vscl_i32_checks {x : VReg} {n : BitVec 64} (hr : s.runs cx p) (ha : cx.vec a = .val x) (hb : cx.int b = .val n) :
    Checks s cx (.vscl p d .i32 a b) d (.vec (intVec (fun k => x.lane k * lo32 n))) 0 [] 16 :=
  runSlot_val hr (by rw [ha, Rd.bind_val, hb]; rfl)

theorem vQuant_checks {x : VReg} {w : FReg} {k : Elem} {nan : Bool} (hr : s.runs cx p) (ha : cx.vec a = .val x) (hb : cx.fp b = .val w)
    (hi : exec i s = vQuant p d a b k nan s) : let q := quantScaled k nan (w.read fp32).1 (lanes16 (fun j => (x.f32 j).1))
    Checks s cx i d (.vec (packedVec k.width q.1)) q.2 [] 16 :=
  hi.trans (runSlot_val hr (by rw [ha, Rd.bind_val, hb]; rfl))

theorem vDequant_checks {x : VReg} {w : FReg} {k : Elem} (hr : s.runs cx p) (ha : cx.vec a = .val x) (hb : cx.fp b = .val w)
    (hi : exec i s = vDequant p d a b k s) :
    ChecksVec s cx i d (fun j => dequantScaled k (w.read fp32).1 (w.read fp32).2 (elemAt x.lanes k.width j)) :=
  hi.trans (runSlot_val hr (by rw [ha, Rd.bind_val, hb]; rfl))

/-- Dequantisation of half an MX block, its scale and elements in plain arithmetic. -/
theorem vDequantMx_checks {x : VReg} {k : Elem} {hi : Bool} (hr : s.runs cx p) (ha : cx.vec a = .val x) (he : exec i s = vDequantMx p d hi a k s) :
    ChecksVec s cx i d (fun j => dequantMx k ((x.lane 8).toNat % 256) (elemAt x.lanes k.width (if hi then 16 + j else j))) := by
  have h := vec1_checks (r := fun (x : VReg) j => dequantMx k ((x.lane 8).extractLsb' 0 8).toNat (elemAt x.lanes k.width ((if hi then 16 else 0) + j))) hr ha he
  have e1 : ((x.lane 8).extractLsb' 0 8).toNat = (x.lane 8).toNat % 256 := by simp
  have e2 : ∀ j, (if hi then 16 else 0) + j = if hi then 16 + j else j := fun j => by cases hi <;> simp
  simpa only [e1, e2] using h

/-- The reductions: the tree of R45 over the lanes. -/
theorem vRed_checks {x : VReg} (f : FpRes → FpRes → FpRes) (g : FpRes → FpRes) (hr : s.runs cx p) (ha : cx.vec a = .val x)
    (hi : exec i s = vRed p d a s f g) : let leaf := fun k => (⟨(x.lane k).zeroExtend 64, 0, x.tag32 k⟩ : FpRes)
    ChecksFp s cx i d fp32 (g (f (f (f (f (leaf 0) (leaf 1)) (f (leaf 2) (leaf 3))) (f (f (leaf 4) (leaf 5)) (f (leaf 6) (leaf 7))))
          (f (f (f (leaf 8) (leaf 9)) (f (leaf 10) (leaf 11))) (f (f (leaf 12) (leaf 13)) (f (leaf 14) (leaf 15)))))) 16 :=
  hi.trans (runSlot_val hr (by rw [ha]; rfl))

/-- The narrowing conversions: sixteen elements packed, each checked with the tag it would carry unpacked. -/
theorem vNarrow_checks {x : VReg} {f : FpFmt} (hr : s.runs cx p) (ha : cx.vec a = .val x) (hi : exec i s = vNarrow p d a f s) :
    let r := fun k => fpCvt f .rne (x.f32 k).1 (x.f32 k).2
    Checks s cx i d (.vec (packedVec f.width ((lanes16 r).map (fun r => r.bits.toNat)))) (flagsOf (lanes16 r))
      (lanes16 (fun k => ⟨k, (f.dec (r k).bits.toNat).isFin, (r k).tag, (fpCvt fp32 .rne (f.dec (r k).bits.toNat) 0).bits.extractLsb' 0 32⟩)) 16 :=
  hi.trans (runSlot_val hr (by rw [ha]; rfl))

end Shapes

end Sys2Proof.Machine
end

