-- ==== Sys2Proof/Proofs/Significance.lean ====
section
/-! PROOFS. DRN as it reads its row (R280), and what every checked form does when a tag lies below the threshold (R49, R50, R136, R138). -/

namespace Sys2Proof.Machine

open Sys2Proof

/-! ## DRN on a row that it may read -/

/-- The lanes of a drained row, as R49 checks them. -/
def VReg.checks (v : VReg) : List Checked := lanes16 (fun k => ⟨k, (fp32.dec (v.lane k).toNat).isFin, (v.tag k).toNat, v.lane k⟩)

/-- The consumption that a DRN form records for the commit (R280). -/
def DrnForm.taken (form : DrnForm) (t r cur : Nat) : Option Pop :=
  match form with
  | .pop => some (.tile t r false cur)
  | .last => some (.tile t r true cur)
  | .peek => none

/-- A DRN ends with the checks of the row it has read. The function is opened by itself and not at its arguments, where comparing it with its body
would evaluate the drained lanes. -/
theorem State.drnRead_eq (s : State) (cx : Cx) (d : Dst) (t r cur : Nat) (form : DrnForm) {v : VReg}
    (hv : (s.plot cx.p).fu.drainRow (((s.plot cx.p).fu.tile t).base + r) = v) :
    s.drnRead cx d t r cur form = s.finishChecked cx { val := some (.vec v), dst := d, pop := form.taken t r cur } v.checks := by
  suffices h : ∀ F, F = State.drnRead →
      F s cx d t r cur form = s.finishChecked cx { val := some (.vec v), dst := d, pop := form.taken t r cur } v.checks from h _ rfl
  intro F hF
  delta State.drnRead at hF
  subst hF
  simp only [hv, State.finishChecked, VReg.checks, lanes16]
  generalize cx.task.trigger _ = o
  cases o <;> rfl

section Drn

variable {s : State} {cx : Cx} {p : Pred} {d : Dst} {a : Opnd} {x : BitVec 64} {n : Nat} {i : Instr} {form : DrnForm}

/-- What a DRN does once its operand is read and the pops of lower slots are known: the order of its checks (R280). -/
theorem drnSlot_eq (hr : s.runs cx p) (ha : cx.int a = .val x) (hn : cx.lowerRows (x.toNat % 16) = .val n) (hi : exec i s = drnSlot p d form a s) :
    let t := x.toNat % 16
    let u := (s.plot cx.p).fu
    let y := u.tile t
    let cur := cx.blk.curOf t y.cur
    let c := cur + n
    exec i s = .next (if !u.south? || (s.fieldOf cx.p).isNone || y.rows = 0 || y.auto then s.abortSlot cx { cause := .field }
      else if form != .peek && y.st != .full then s.stallGate cx (.tile t)
      else if y.rows ≤ c then s.abortSlot cx { cause := .field }
      else if (u.prow t).any (fun r => decide (r ≤ c)) then
        s.abortSlot cx { cause := .soft, info := BitVec.ofNat 64 (t * 2 ^ 12 + (y.base + c)) }
      else s.drnRead cx d t c cur form) := by
  have e : (x.extractLsb' 0 4).toNat = x.toNat % 16 := by simp
  refine hi.trans (runSlot_val hr ?_)
  rw [ha, Rd.bind_val]
  simp only [e, hn, Rd.bind_val]
  split
  · rfl
  · split
    · rfl
    · split
      · rfl
      · cases h : (s.plot cx.p).fu.prow (x.toNat % 16) with
        | none => simp
        | some r => by_cases hc : r ≤ cx.blk.curOf (x.toNat % 16) ((s.plot cx.p).fu.tile (x.toNat % 16)).cur + n <;> simp [hc]

/-- The tile of a DRN may be drained by software. -/
def State.mayDrain (s : State) (p t : Nat) : Prop :=
  (s.plot p).fu.south? = true ∧ s.fieldOf p ≠ none ∧ ((s.plot p).fu.tile t).rows ≠ 0 ∧ ((s.plot p).fu.tile t).auto = false

/-- A row below ROWS and below every marked one is read, by POP and LAST once the tile is FULL. -/
theorem drnSlot_reads (hr : s.runs cx p) (ha : cx.int a = .val x) (hn : cx.lowerRows (x.toNat % 16) = .val n) (hi : exec i s = drnSlot p d form a s)
    (hd : s.mayDrain cx.p (x.toNat % 16)) :
    let t := x.toNat % 16
    let u := (s.plot cx.p).fu
    let cur := cx.blk.curOf t (u.tile t).cur
    let v := u.drainRow ((u.tile t).base + (cur + n))
    (form = .peek ∨ (u.tile t).st = .full) → cur + n < (u.tile t).rows → (∀ m, u.prow t = some m → cur + n < m) →
    exec i s = .next (s.finishChecked cx { val := some (.vec v), dst := d, pop := form.taken t (cur + n) cur } v.checks) := by
  intro t u cur v hs hlt hm
  obtain ⟨h1, h2, h3, h4⟩ := hd
  have e := drnSlot_eq hr ha hn hi
  have hno : ¬((u.prow t).any (fun r => decide (r ≤ cur + n)) = true) := by
    cases h : u.prow t with
    | none => simp
    | some m => simpa using hm m h
  have hst : ¬((form != .peek && (u.tile t).st != .full) = true) := by
    rcases hs with h | h <;> simp [h]
  have hnone : (s.fieldOf cx.p).isNone = false := by simpa [Option.isSome_iff_ne_none] using h2
  rw [e, if_neg (by simp [h1, hnone, h3, h4]), if_neg hst, if_neg (Nat.not_le.2 hlt), if_neg hno, State.drnRead_eq _ _ _ _ _ _ _ rfl]

end Drn

/-! ## Every checked form -/

/-- Settles O17: each form of the shapes of CheckedForms and of DRN triggers alike. -/
theorem significanceTriggers : Obligations.SignificanceTriggers := by
  refine ⟨fun s cx p d a b c e x y z n fmt src rnd hr ha hb hc he => ?_, fun s cx p d a b c e x y z w rnd hi hr ha hb hc he => ?_,
    fun s cx p d a x hr ha => ?_, fun s cx p d a x n hr ha => ?_⟩
  · refine ⟨?_, ?_, ?_, ?_, ?_, ?_, ?_, ?_, ?_, ?_, ?_, ?_, ?_⟩
    · exact (fadd_checks fmt rnd hr ha hb).triggers
    · exact (fsub_checks fmt rnd hr ha hb).triggers
    · exact (fmul_checks fmt rnd hr ha hb).triggers
    · exact (ffma_checks fmt rnd hr ha hb hc).triggers
    · exact (fdiv_checks fmt rnd hr ha hb).triggers
    · exact (fsqrt_checks fmt rnd hr ha).triggers
    · exact Checks.triggers (fp1_checks (fun t => fpCvt (fmtOf fmt) (t.mode rnd)) hr ha rfl)
    · exact Checks.triggers (intFp_checks (fun n => n.toInt) hr he rfl)
    · exact Checks.triggers (intFp_checks (fun n => (n.toNat : Int)) hr he rfl)
    · exact Checks.triggers (fp1_checks (fun _ => fpRcp (fmtOf fmt)) hr ha rfl)
    · exact Checks.triggers (fp1_checks (fun _ => fpRsq (fmtOf fmt)) hr ha rfl)
    · exact Checks.triggers (fp1_checks (fun _ => fpEx2 (fmtOf fmt)) hr ha rfl)
    · exact Checks.triggers (fp1_checks (fun _ => fpLg2 (fmtOf fmt)) hr ha rfl)
  · refine ⟨?_, ?_, ?_, ?_, ?_, ?_, ?_, ?_, ?_, ?_, ?_, ?_, ?_, ?_, ?_, ?_, ?_, ?_, ?_, ?_, ?_, ?_, ?_, ?_, ?_⟩
    · exact Checks.triggers (vArith2_f32_checks (fpAdd fp32) (· + ·) hr ha hb rfl)
    · exact Checks.triggers (vArith2_f32_checks (fpSub fp32) (· - ·) hr ha hb rfl)
    · exact Checks.triggers (vArith2_f32_checks (fpMul fp32) (· * ·) hr ha hb rfl)
    · exact (vfma_f32_checks rnd hr ha hb hc).triggers
    · exact (vscl_f32_checks rnd hr ha he).triggers
    · exact (vec1_checks (i := .vactRelu p d a) hr ha rfl).triggers
    · exact (vec1_checks (i := .vactGelt p d a) hr ha rfl).triggers
    · exact (vec1_checks (i := .vactSilu p d a) hr ha rfl).triggers
    · exact (vec1_checks (i := .vactExp p d a) hr ha rfl).triggers
    · exact (vec1_checks (i := .vactTanh p d a) hr ha rfl).triggers
    · exact (vec1_checks (i := .vactSigm p d a) hr ha rfl).triggers
    · exact (vec1_checks (i := .vactRcp p d a) hr ha rfl).triggers
    · exact (vec1_checks (i := .vactRsq p d a) hr ha rfl).triggers
    · exact (vec1_checks (i := .vcvtF32Bf16 p d a) hr ha rfl).triggers
    · exact (vec1_checks (i := .vcvtF32F16 p d a) hr ha rfl).triggers
    · exact (vec1_checks (i := .vcvtF32E5m2 p d a) hr ha rfl).triggers
    · exact (vec1_checks (i := .vcvtF32E4m3 p d a) hr ha rfl).triggers
    · exact (vec1_checks (i := .vcvtF32I32 p d a) hr ha rfl).triggers
    · exact (vDequant_checks (i := .vdqE4m3Sat p d a e) hr ha he rfl).triggers
    · exact (vDequant_checks (i := .vdqE4m3Nan p d a e) hr ha he rfl).triggers
    · exact (vDequant_checks (i := .vdqInt8 p d a e) hr ha he rfl).triggers
    · exact (vDequant_checks (i := .vdqInt4 p d a e) hr ha he rfl).triggers
    · exact (vDequantMx_checks (i := .vdqMxfp4 p d hi a) hr ha rfl).triggers
    · exact (vDequantMx_checks (i := .vdqMxint8 p d hi a) hr ha rfl).triggers
    · exact (vDequantMx_checks (i := .vdqMxfp8 p d hi a) hr ha rfl).triggers
  · refine ⟨?_, ?_, ?_, ?_, ?_, ?_, ?_⟩
    · exact Checks.triggers (vRed_checks redAdd id hr ha rfl)
    · exact Checks.triggers (vRed_checks (redMnx true false) id hr ha rfl)
    · exact Checks.triggers (vRed_checks (redMnx false false) id hr ha rfl)
    · exact Checks.triggers (vRed_checks redAmax (fun r => { r with bits := r.bits &&& 0x7FFFFFFF }) hr ha rfl)
    · exact (vNarrow_checks (i := .vcvtBf16F32 p d a) hr ha rfl).triggers
    · exact (vNarrow_checks (i := .vcvtF16F32 p d a) hr ha rfl).triggers
    · exact (vNarrow_checks (i := .vcvtE5m2F32 p d a) hr ha rfl).triggers
  · intro t hn u y cur r v sig h1 h2 h3 h4 hlt hm
    have hd : s.mayDrain cx.p t := ⟨h1, h2, h3, h4⟩
    exact ⟨triggers_of_finishChecked (drnSlot_reads (form := .peek) hr ha hn rfl hd (.inl rfl) hlt hm), fun hf =>
      ⟨triggers_of_finishChecked (drnSlot_reads (form := .pop) hr ha hn rfl hd (.inr hf) hlt hm),
        triggers_of_finishChecked (drnSlot_reads (form := .last) hr ha hn rfl hd (.inr hf) hlt hm)⟩⟩

end Sys2Proof.Machine
end

