-- ==== Sys2Proof/Proofs/VectorForms.lean ====
section
/-! PROOFS. The lane-wise forms, the conversions and the reductions (R137 to R146), quantisation and dequantisation (R30, R38, R147 to R150). -/

namespace Sys2Proof.Machine

open Sys2Proof Sys2Proof.Laws

/-! ## Lanes and integers -/

/-- Lane-wise checks are quiet when each lane is. -/
theorem Cx.quiet_lanes16 {cx : Cx} {c : Nat → Checked} (h : ∀ k < 16, (c k).fin = true → cx.task.theta ≤ (c k).tag) : cx.quiet (lanes16 c) := by
  intro y hy
  obtain ⟨k, hk, rfl⟩ := List.mem_map.1 hy
  exact h k (List.mem_range.1 hk)

theorem lanes16_getElem? {α : Type} (f : Nat → α) {k : Nat} (hk : k < 16) : (lanes16 f)[k]? = some (f k) := by
  simp [lanes16, hk]

theorem add_lanes (x y : BitVec 32) : x + y = BitVec.ofNat 32 (x.toNat + y.toNat) := by
  rw [BitVec.ofNat_add, BitVec.ofNat_toNat, BitVec.ofNat_toNat, BitVec.setWidth_eq, BitVec.setWidth_eq]

theorem mul_lanes (x y : BitVec 32) : x * y = BitVec.ofNat 32 (x.toNat * y.toNat) := by
  rw [BitVec.ofNat_mul, BitVec.ofNat_toNat, BitVec.ofNat_toNat, BitVec.setWidth_eq, BitVec.setWidth_eq]

theorem sub_lanes (x y : BitVec 32) : x - y = BitVec.ofInt 32 (x.toInt - y.toInt) := by
  apply BitVec.eq_of_toInt_eq
  rw [BitVec.toInt_sub, BitVec.toInt_ofInt]

theorem fma_lanes (x y z : BitVec 32) : x * y + z = BitVec.ofNat 32 (x.toNat * y.toNat + z.toNat) := by
  rw [BitVec.ofNat_add, ← mul_lanes, BitVec.ofNat_toNat, BitVec.setWidth_eq]

/-- A lane times the low 32 bits of a register. -/
theorem scale_lanes (x : BitVec 32) (n : BitVec 64) : x * lo32 n = BitVec.ofNat 32 (x.toNat * n.toNat) := by
  rw [mul_lanes]
  apply BitVec.eq_of_toNat_eq
  simp [lo32, Nat.mul_mod]

/-! ## Lane-wise forms and reductions -/

/-- Settles O18: the shapes of CheckedForms, with the INT32 lanes written in plain arithmetic. -/
theorem vectorArithmeticAndReductions : Obligations.VectorArithmeticAndReductions := by
  refine ⟨fun s cx p d a b c e g x y z w n rnd hr hf ha hb hc he hg => ?_, fun s cx p d a x hr hf ha => ?_⟩
  · refine ⟨?_, ?_, ?_, ?_, ?_, ?_, ?_, ?_, ?_, ?_, ?_, ?_, ?_, ?_, ?_, ?_, ?_, ?_, ?_, ?_, ?_, ?_, ?_, ?_⟩
    · exact Checks.gives (vArith2_f32_checks (fpAdd fp32) (· + ·) hr ha hb rfl) hf
    · exact Checks.gives (vArith2_f32_checks (fpSub fp32) (· - ·) hr ha hb rfl) hf
    · exact Checks.gives (vArith2_f32_checks (fpMul fp32) (· * ·) hr ha hb rfl) hf
    · exact (vfma_f32_checks rnd hr ha hb hc).gives hf
    · exact (vscl_f32_checks rnd hr ha he).gives hf
    · simp only [← add_lanes]
      exact Checks.gives_unchecked (vArith2_i32_checks (fpAdd fp32) (· + ·) hr ha hb rfl) hf
    · simp only [← sub_lanes]
      exact Checks.gives_unchecked (vArith2_i32_checks (fpSub fp32) (· - ·) hr ha hb rfl) hf
    · simp only [← mul_lanes]
      exact Checks.gives_unchecked (vArith2_i32_checks (fpMul fp32) (· * ·) hr ha hb rfl) hf
    · simp only [← fma_lanes]
      exact (vfma_i32_checks hr ha hb hc).gives_unchecked hf
    · simp only [← scale_lanes]
      exact (vscl_i32_checks hr ha hg).gives_unchecked hf
    · exact (vec1_checks (i := .vactRelu p d a) hr ha rfl).gives hf
    · exact (vec1_checks (i := .vactGelt p d a) hr ha rfl).gives hf
    · exact (vec1_checks (i := .vactSilu p d a) hr ha rfl).gives hf
    · exact (vec1_checks (i := .vactExp p d a) hr ha rfl).gives hf
    · exact (vec1_checks (i := .vactTanh p d a) hr ha rfl).gives hf
    · exact (vec1_checks (i := .vactSigm p d a) hr ha rfl).gives hf
    · exact (vec1_checks (i := .vactRcp p d a) hr ha rfl).gives hf
    · exact (vec1_checks (i := .vactRsq p d a) hr ha rfl).gives hf
    · exact (vec1_checks (i := .vcvtF32Bf16 p d a) hr ha rfl).gives hf
    · exact (vec1_checks (i := .vcvtF32F16 p d a) hr ha rfl).gives hf
    · exact (vec1_checks (i := .vcvtF32E5m2 p d a) hr ha rfl).gives hf
    · exact (vec1_checks (i := .vcvtF32E4m3 p d a) hr ha rfl).gives hf
    · exact (vec1_checks (i := .vcvtF32I32 p d a) hr ha rfl).gives hf
    · exact (plain1_checks (i := .vcvtI32F32 p d a) hr ha rfl).gives_unchecked hf
  · have narrow : ∀ (i : Instr) (f : FpFmt), exec i s = vNarrow p d a f s →
        let rs := lanes16 (fun k => fpCvt f .rne (x.f32 k).1 (x.f32 k).2)
        (∀ k < 16, ∀ r, rs[k]? = some r → (f.dec r.bits.toNat).isFin = true → cx.task.theta ≤ r.tag) →
          FpGives s cx i d (.vec (packedVec f.width (rs.map (fun r => r.bits.toNat)))) (flagsOf rs) 16 := by
      intro i f hi rs hq
      exact (vNarrow_checks hr ha hi).gives hf
        (Cx.quiet_lanes16 (fun k hk hfin => hq k hk _ (lanes16_getElem? _ hk) hfin))
    refine ⟨?_, ?_, ?_, ?_, narrow _ bf16 rfl, narrow _ fp16 rfl, narrow _ e5m2 rfl⟩
    · exact Checks.gives (vRed_checks redAdd id hr ha rfl) hf
    · exact Checks.gives (vRed_checks (redMnx true false) id hr ha rfl) hf
    · exact Checks.gives (vRed_checks (redMnx false false) id hr ha rfl) hf
    · exact Checks.gives (vRed_checks redAmax (fun r => { r with bits := r.bits &&& 0x7FFFFFFF }) hr ha rfl) hf

/-! ## Quantisation with a scale (R38, R147) -/

/-- A scale is accepted when it is finite and positive. -/
theorem scaleOk_iff (S : FVal) : scaleOk S = true ↔ S.isFin = true ∧ 0 < S.real := by
  cases S with
  | nan _ => simp [scaleOk, FVal.isFin]
  | inf _ => simp [scaleOk, FVal.isFin]
  | fin n m e =>
    have pe : (0 : ℝ) < 2 ^ e := by positivity
    cases n
    · simp [scaleOk, FVal.isFin, FVal.isZero, FVal.neg, FVal.real, pe, Nat.pos_iff_ne_zero]
    · have : (0 : ℝ) ≤ m * 2 ^ e := by positivity
      simp [scaleOk, FVal.isFin, FVal.neg, FVal.real, this]

/-- A positive finite scale. -/
theorem posScale_eq {S : FVal} (hf : S.isFin = true) (hp : 0 < S.real) : ∃ m e, S = .fin false m e ∧ m ≠ 0 := by
  obtain ⟨n, m, e, rfl⟩ := isFin_fin S hf
  have h := (scaleOk_iff _).2 ⟨hf, hp⟩
  simp only [scaleOk, FVal.isFin, FVal.isZero, FVal.neg, Bool.true_and, Bool.and_eq_true, Bool.not_eq_true', beq_eq_false_iff_ne] at h
  exact ⟨m, e, by rw [h.2], h.1⟩

/-- One element with whether it changed: the code and the flags are those of `quantOne`. -/
def quantElem (k : Elem) (nanOvf : Bool) (S x : FVal) : Nat × Bool × FFlags :=
  if x.isFin then k.quant nanOvf (quotient x S) else (k.special nanOvf x, false, fNV)

theorem quantOne_eq (k : Elem) (nanOvf : Bool) (S x : FVal) :
    quantOne k nanOvf S x = ((quantElem k nanOvf S x).1, (quantElem k nanOvf S x).2.2) := by
  unfold quantOne quantElem
  split <;> rfl

theorem quantScaled_bad {k : Elem} {nanOvf : Bool} {S : FVal} {xs : List FVal} (h : S.isFin = false ∨ S.real ≤ 0) :
    quantScaled k nanOvf S xs = (xs.map (fun _ => if k = .e4m3 then 0x7F else 0), fNV) := by
  have : ¬scaleOk S = true := fun c => by
    obtain ⟨h1, h2⟩ := (scaleOk_iff S).1 c
    rcases h with h | h
    · rw [h1] at h; cases h
    · exact absurd h2 (not_lt.2 h)
  rw [quantScaled, if_neg this]

theorem quantScaled_good {k : Elem} {nanOvf : Bool} {S : FVal} {xs : List FVal} (hf : S.isFin = true) (hp : 0 < S.real) :
    let rs := xs.map (quantElem k nanOvf S)
    quantScaled k nanOvf S xs = (rs.map (fun q => q.1), rs.foldl (fun a q => a ||| q.2.2) 0) := by
  intro rs
  rw [quantScaled, if_pos ((scaleOk_iff S).2 ⟨hf, hp⟩)]
  simp only [rs, List.map_map, List.foldl_map, Function.comp_def, quantOne_eq]

/-- A finite lane gives the quotient by the scale, rounded once. -/
theorem quantElem_quantised {k : Elem} {nanOvf : Bool} {S x : FVal} (hk : k = .e2m1 → nanOvf = false) (hf : S.isFin = true) (hp : 0 < S.real)
    (hx : x.isFin = true) : k.Quantised nanOvf (x.real / S.real) x.neg (quantElem k nanOvf S x) := by
  obtain ⟨m, e, rfl, hm⟩ := posScale_eq hf hp
  obtain ⟨xn, xm, xe, rfl⟩ := isFin_fin x hx
  rw [quantElem, if_pos hx]
  obtain ⟨hs, hz⟩ := stands_quotient xn xm xe m e hm
  exact quant_quantised k nanOvf hk _ _ hs _ hz

/-- A lane that is not finite gives the special element and NV. -/
theorem quantElem_nonfinite {k : Elem} {nanOvf : Bool} {S x : FVal} (hx : x.isFin = false) :
    quantElem k nanOvf S x = (k.special nanOvf x, false, fNV) := by
  simp [quantElem, hx]

theorem Elem.special_nan {k : Elem} {nanOvf : Bool} {x : FVal} (hk : k = .e4m3 ∨ k = .int8 ∨ k = .int4) (hx : x.isNan = true) :
    k.special nanOvf x = if k = .e4m3 then 0x7F else 0 := by
  rcases hk with rfl | rfl | rfl <;> simp [Elem.special, hx]

theorem Elem.special_inf {k : Elem} {nanOvf : Bool} (n : Bool) (hk : k = .e4m3 ∨ k = .int8 ∨ k = .int4) :
    k.special nanOvf (.inf n) = if k = .e4m3 then (if nanOvf then 0x7F else if n then 0xFE else 0x7E)
      else if k = .int8 then (if n then 0x81 else 127) else (if n then 9 else 7) := by
  rcases hk with rfl | rfl | rfl <;> cases nanOvf <;> cases n <;> rfl

/-! ## Quantisation into an MX block (R30, R148) -/

/-- One element of an MX block with the scale code e (R30). -/
def blockElem (k : Elem) (e : Int) (x : FVal) : Nat × Bool × FFlags :=
  match x with
  | .fin n m ex => k.quant false ⟨n, m, ex - (e - 127), false⟩
  | _ => (0, false, 0)

theorem quantBlock_nonfinite {k : Elem} {xs : List FVal} (h : ∃ x ∈ xs, x.isFin = false) :
    quantBlock k xs = (xs.map (fun _ => 0), 0xFF, fNV) := by
  have : xs.any (fun x => !x.isFin) = true := by simpa using h
  rw [quantBlock, if_pos this]

theorem not_any_nonfinite {xs : List FVal} (h : ∀ x ∈ xs, x.isFin = true) : ¬xs.any (fun x => !x.isFin) = true := by
  simpa using h

theorem FVal.isFin_of_isZero {x : FVal} (h : x.isZero = true) : x.isFin = true := by
  cases x with
  | nan _ => cases h
  | inf _ => cases h
  | fin _ _ _ => rfl

theorem FVal.real_of_isZero {x : FVal} (h : x.isZero = true) : x.real = 0 := by
  cases x with
  | nan _ => rfl
  | inf _ => rfl
  | fin n m e => exact (real_eq_zero n m e).2 (by simpa [FVal.isZero] using h)

theorem quantBlock_zero {k : Elem} {xs : List FVal} (h : ∀ x ∈ xs, x.isZero = true) : quantBlock k xs = (xs.map (fun _ => 0), 0, 0) := by
  have hfin := fun x hx => FVal.isFin_of_isZero (h x hx)
  have ht : topExpo xs = none := by
    rcases topExpo_real xs hfin with ⟨ht, -⟩ | ⟨t, -, -, x, hx, hne, -⟩
    · exact ht
    · exact absurd (FVal.real_of_isZero (h x hx)) hne
  rw [quantBlock, if_neg (not_any_nonfinite hfin), ht]

theorem quantBlock_finite {k : Elem} {xs : List FVal} {t : Int} (h : ∀ x ∈ xs, x.isFin = true) (ht : topExpo xs = some t) :
    let e : Int := max 0 (min 254 (t - k.emax + 127))
    let rs := xs.map (blockElem k e)
    quantBlock k xs = (rs.map (fun q => q.1), e.toNat, if rs.any (fun q => q.2.1) then fNX else 0) := by
  intro e rs
  rw [quantBlock, if_neg (not_any_nonfinite h), ht]
  rfl

/-- An element of a finite lane: its value over the block's scale, rounded once. -/
theorem blockElem_quantised (k : Elem) (e : Int) {x : FVal} (hx : x.isFin = true) :
    k.Quantised false (x.real / 2 ^ (e - 127)) x.neg (blockElem k e x) := by
  obtain ⟨n, m, ex, rfl⟩ := isFin_fin x hx
  have hv : (FVal.fin n m (ex - (e - 127))).real = (FVal.fin n m ex).real / 2 ^ (e - 127) := by
    simp only [FVal.real, zpow_sub₀ (two_ne_zero' ℝ) ex]
    ring
  have hs := stands_fin n m (ex - (e - 127)) 100
  rw [hv] at hs
  refine quant_quantised k false (fun _ => rfl) _ _ hs n (fun hz => ⟨rfl, ?_⟩)
  rw [← hv] at hz
  exact (real_eq_zero n m _).1 hz

/-! ## Dequantisation (R149, R150) -/

theorem fp32_mem_withInf : fp32 ∈ withInf := by simp [withInf]

theorem dequantScaled_result {k : Elem} {S : FVal} (ss : Nat) {x : Nat} (hx : (k.dec x).isFin = true) (hS : S.isFin = true) :
    fp32.Result .rne ((k.dec x).real * S.real) ((k.dec x).neg != S.neg) (min k.prec (min ss 24)) (dequantScaled k S ss x) := by
  obtain ⟨n, m, e, h⟩ := isFin_fin _ hx
  obtain ⟨sn, sm, se, rfl⟩ := isFin_fin S hS
  rw [dequantScaled, h]
  exact fpMul_result fp32 fp32_mem_withInf .rne (by decide) n m e _ sn sm se _

theorem dequantMx_result {k : Elem} {e x : Nat} (hx : (k.dec x).isFin = true) (he : e < 255) :
    fp32.Result .rne ((k.dec x).real * 2 ^ ((e : Int) - 127)) (k.dec x).neg k.prec (dequantMx k e x) := by
  obtain ⟨n, m, ex, h⟩ := isFin_fin _ hx
  have hv : (FVal.fin n m (ex + e - 127)).real = (FVal.fin n m ex).real * 2 ^ ((e : Int) - 127) := by
    simp only [FVal.real, add_sub_assoc, zpow_add₀ (two_ne_zero' ℝ) ex]
    ring
  have hs := stands_fin n m (ex + e - 127) fp32.p
  rw [hv] at hs
  rw [dequantMx, h]
  simp only [if_neg (show ¬e = 0xFF by omega)]
  exact stands_result fp32 fp32_mem_withInf .rne (by decide) _ _ n k.prec hs (fun _ => rfl)

/-- The scale 0xFF and an element that is a NaN give the canonical NaN. -/
theorem dequantMx_nan {k : Elem} {e x : Nat} (h : e = 255 ∨ (k.dec x).isFin = false) : dequantMx k e x = ⟨fp32.qnan, fNV, 0⟩ := by
  unfold dequantMx
  cases hd : k.dec x with
  | nan _ => rfl
  | inf _ => rfl
  | fin n m ex =>
    rcases h with rfl | h
    · rfl
    · rw [hd] at h; cases h

/-! ## The forms -/

/-- Settles O20: the forms complete with the shapes of CheckedForms, and their elements and scales are the exact values rounded once. -/
theorem vectorQuantisation : Obligations.VectorQuantisation := by
  refine ⟨fun s cx p d a b e x y w hi hr hf ha hb he => ?_, fun k nan S xs hk hn => ⟨quantScaled_bad, fun hS hp => ?_⟩,
    fun k xs hk => ⟨quantBlock_nonfinite, quantBlock_zero, fun hfin hne => ?_⟩,
    fun k S ss x e => ⟨dequantScaled_result ss, dequantMx_result, dequantMx_nan (.inl rfl), fun h => dequantMx_nan (.inr h)⟩⟩
  · have qnt : ∀ (i : Instr) (k : Elem) (nan : Bool), exec i s = vQuant p d a e k nan s → _ :=
      fun i k nan hi => (vQuant_checks hr ha he hi).gives_unchecked hf
    have dq : ∀ (i : Instr) (k : Elem), exec i s = vDequant p d a e k s → _ := fun i k hi => (vDequant_checks hr ha he hi).gives hf
    have mxdq : ∀ (i : Instr) (k : Elem), exec i s = vDequantMx p d hi a k s → _ := fun i k he => (vDequantMx_checks hr ha he).gives hf
    refine ⟨qnt _ _ _ rfl, qnt _ _ _ rfl, qnt _ _ _ rfl, qnt _ _ _ rfl, ?_, ?_, ?_, dq _ _ rfl, dq _ _ rfl, dq _ _ rfl, dq _ _ rfl,
      mxdq _ _ rfl, mxdq _ _ rfl, mxdq _ _ rfl⟩
    · exact (plain2_checks (i := .vqntMxfp4 p d a b) hr ha hb rfl).gives_unchecked hf
    · exact (plain2_checks (i := .vqntMxint8 p d a b) hr ha hb rfl).gives_unchecked hf
    · exact (plain2_checks (i := .vqntMxfp8 p d a b) hr ha hb rfl).gives_unchecked hf
  · refine ⟨xs.map (quantElem k nan S), by simp, quantScaled_good hS hp, fun i x q hx hq => ?_⟩
    have hq' : quantElem k nan S x = q := by simpa [hx] using hq
    subst hq'
    have hk2 : k = .e2m1 → nan = false := by rcases hk with rfl | rfl | rfl <;> simp
    refine ⟨quantElem_quantised hk2 hS hp, fun h => by rw [quantElem_nonfinite h], fun h => ?_, ?_⟩
    · have : x.isFin = false := by cases x <;> simp_all [FVal.isNan, FVal.isFin]
      rw [quantElem_nonfinite this, Elem.special_nan hk h]
    · rintro n rfl
      rw [quantElem_nonfinite rfl, Elem.special_inf n hk]
  · obtain ⟨x0, hx0, hx0ne⟩ := hne
    rcases topExpo_real xs hfin with ⟨-, hz⟩ | ⟨t, ht, hle, hat⟩
    · exact absurd (hz x0 hx0) hx0ne
    · refine ⟨t, xs.map (blockElem k (max 0 (min 254 (t - k.emax + 127)))), hle, hat, by simp, quantBlock_finite hfin ht, fun i x q hx hq => ?_⟩
      have hq' : blockElem k (max 0 (min 254 (t - k.emax + 127))) x = q := by simpa [hx] using hq
      subst hq'
      exact blockElem_quantised k _ (hfin x (List.mem_of_getElem? hx))

end Sys2Proof.Machine
end

