-- ==== Sys2Proof/Proofs/FloatArithmetic.lean ====
section
/-! PROOFS. What the arithmetic of the FP forms gives: special operands, then the values of finite operands (R36 to R44, R123 to R131). -/

namespace Sys2Proof.Machine

open Sys2Proof Sys2Proof.Laws

/-! ## Special operands -/

/-- The canonical NaN of a format is a NaN, and its infinities are infinite. -/
theorem fmtOf_dec_qnan (fmt : Fmt) : ((fmtOf fmt).dec (fmtOf fmt).qnan.toNat).isFin = false := by
  cases fmt <;> decide

theorem fmtOf_dec_inf (fmt : Fmt) (n : Bool) : ((fmtOf fmt).dec ((fmtOf fmt).inf n).toNat).isFin = false := by
  cases fmt <;> cases n <;> decide

theorem snanFlag_pair (x y : FVal) : snanFlag [x, y] = if x.isSnan ∨ y.isSnan then fNV else 0 := by
  simp [snanFlag]

theorem FVal.isNan_flip (x : FVal) : x.flip.isNan = x.isNan := by cases x <;> rfl
theorem FVal.isSnan_flip (x : FVal) : x.flip.isSnan = x.isSnan := by cases x <;> rfl
theorem FVal.isFin_flip (x : FVal) : x.flip.isFin = x.isFin := by cases x <;> rfl

section Special

variable {f : FpFmt} {r : Rnd} {x y : FVal} {sx sy : Nat}

/-- A NaN operand gives the canonical NaN with tag 0, and NV for a signalling one (R40). -/
theorem fpAdd_nan (h : x.isNan ∨ y.isNan) : fpAdd f r x sx y sy = ⟨f.qnan, snanFlag [x, y], 0⟩ :=
  if_pos (by simpa using h)

theorem fpMul_nan (h : x.isNan ∨ y.isNan) : fpMul f r x sx y sy = ⟨f.qnan, snanFlag [x, y], 0⟩ :=
  if_pos (by simpa using h)

theorem fpDiv_nan (h : x.isNan ∨ y.isNan) : fpDiv f r x sx y sy = ⟨f.qnan, snanFlag [x, y], 0⟩ :=
  if_pos (by simpa using h)

theorem fpSqrt_nan (h : x.isNan) : fpSqrt f r x sx = ⟨f.qnan, if x.isSnan then fNV else 0, 0⟩ := by
  cases x with
  | nan _ => rfl
  | inf _ => cases h
  | fin _ _ _ => cases h

/-- Opposite infinities, zero times infinity, zero by zero, infinity by infinity and the root of a negative number (R40, R123, R125). -/
theorem fpAdd_opposite (n : Bool) : fpAdd f r (.inf n) sx (.inf (!n)) sy = ⟨f.qnan, fNV, 0⟩ := by
  cases n <;> rfl

theorem fpMul_zero_inf (h : (x.isZero ∧ y.isInf) ∨ (x.isInf ∧ y.isZero)) : fpMul f r x sx y sy = ⟨f.qnan, fNV, 0⟩ := by
  cases x <;> cases y <;> simp_all [fpMul, FVal.isZero, FVal.isInf, FVal.isNan, FpFmt.nanRes]

theorem fpDiv_zero_zero (hx : x.isZero) (hy : y.isZero) : fpDiv f r x sx y sy = ⟨f.qnan, fNV, 0⟩ := by
  cases x <;> cases y <;> simp_all [fpDiv, FVal.isZero, FVal.isNan, FpFmt.nanRes]

theorem fpDiv_inf_inf (hx : x.isInf) (hy : y.isInf) : fpDiv f r x sx y sy = ⟨f.qnan, fNV, 0⟩ := by
  cases x <;> cases y <;> simp_all [fpDiv, FVal.isInf, FVal.isNan, FpFmt.nanRes]

theorem fpSqrt_negative (hn : x.neg) (hz : x.isZero = false) : fpSqrt f r x sx = ⟨f.qnan, fNV, 0⟩ := by
  cases x <;> simp_all [fpSqrt, FVal.neg, FVal.isZero, FpFmt.nanRes]

/-- A finite number by zero (R123). -/
theorem fpDiv_by_zero (hx : x.isFin) (hz : x.isZero = false) (hy : y.isZero) : fpDiv f r x sx y sy = ⟨f.inf (x.neg != y.neg), fDZ, 0⟩ := by
  cases x <;> cases y <;> simp_all [fpDiv, FVal.isZero, FVal.isNan, FVal.isFin]

/-- The exact infinite results (R40, R123, R125). -/
theorem fpAdd_inf_left {n : Bool} (hy : y.isFin ∨ y = .inf n) : fpAdd f r (.inf n) sx y sy = ⟨f.inf n, 0, 0⟩ := by
  cases y <;> simp_all [fpAdd, addVals, FVal.isNan, FVal.isFin]

theorem fpAdd_inf_right {n : Bool} (hx : x.isFin) : fpAdd f r x sx (.inf n) sy = ⟨f.inf n, 0, 0⟩ := by
  cases x <;> simp_all [fpAdd, addVals, FVal.isNan, FVal.isFin]

theorem fpMul_inf (h : x.isInf ∨ y.isInf) (hx : x.isNan = false) (hy : y.isNan = false) (zx : x.isZero = false) (zy : y.isZero = false) :
    fpMul f r x sx y sy = ⟨f.inf (x.neg != y.neg), 0, 0⟩ := by
  cases x <;> cases y <;> simp_all [fpMul, FVal.isZero, FVal.isInf, FVal.isNan]

theorem fpDiv_inf_left (hx : x.isInf) (hy : y.isFin) : fpDiv f r x sx y sy = ⟨f.inf (x.neg != y.neg), 0, 0⟩ := by
  cases x <;> cases y <;> simp_all [fpDiv, FVal.isInf, FVal.isFin, FVal.isNan]

/-- A NaN makes every comparison false but UN; EQ and UN signal on signalling NaNs alone, the others on every NaN (R129). -/
theorem fpCmp_nan (h : x.isNan ∨ y.isNan) (k : FCmp) :
    fpCmp k x y = (decide (k = .un), if k = .eq ∨ k = .un then snanFlag [x, y] else fNV) := by
  have : (x.isNan || y.isNan) = true := by simpa using h
  cases k <;> simp [fpCmp, this]

end Special

/-! ## Finite operands -/

theorem real_flip (n : Bool) (m : Nat) (e : Int) : (FVal.fin n m e).flip.real = -(FVal.fin n m e).real := by
  cases n <;> simp [FVal.flip, FVal.real]

theorem fpAdd_sum {f : FpFmt} {r : Rnd} {xn yn zneg : Bool} {xm ym sx sy : Nat} {xe ye : Int} (hf : f ∈ withInf) (hr : r ≠ .dyn)
    (hz : zeroSign r (FVal.fin xn xm xe).real xn (FVal.fin yn ym ye).real yn zneg) :
    f.Sum r (FVal.fin xn xm xe).real sx (FVal.fin yn ym ye).real sy zneg (fpAdd f r (.fin xn xm xe) sx (.fin yn ym ye) sy) :=
  addVals_sum f hf r hr xn xm xe sx yn ym ye sy zneg hz

theorem fpSub_sum {f : FpFmt} {r : Rnd} {xn yn zneg : Bool} {xm ym sx sy : Nat} {xe ye : Int} (hf : f ∈ withInf) (hr : r ≠ .dyn)
    (hz : zeroSign r (FVal.fin xn xm xe).real xn (-(FVal.fin yn ym ye).real) (!yn) zneg) :
    f.Sum r (FVal.fin xn xm xe).real sx (-(FVal.fin yn ym ye).real) sy zneg (fpAdd f r (.fin xn xm xe) sx (FVal.fin yn ym ye).flip sy) := by
  rw [← real_flip] at hz ⊢
  exact fpAdd_sum hf hr hz

theorem fpFma_sum {f : FpFmt} {r : Rnd} {xn yn zn zneg : Bool} {xm ym zm sx sy sz : Nat} {xe ye ze : Int} (hf : f ∈ withInf) (hr : r ≠ .dyn)
    (hz : zeroSign r ((FVal.fin xn xm xe).real * (FVal.fin yn ym ye).real) (xn != yn) (FVal.fin zn zm ze).real zn zneg) :
    f.Sum r ((FVal.fin xn xm xe).real * (FVal.fin yn ym ye).real) (min sx sy) (FVal.fin zn zm ze).real sz zneg
      (fpFma f r (.fin xn xm xe) sx (.fin yn ym ye) sy (.fin zn zm ze) sz) := by
  rw [← real_mul] at hz ⊢
  have e : fpFma f r (.fin xn xm xe) sx (.fin yn ym ye) sy (.fin zn zm ze) sz =
      addVals f r (.fin (xn != yn) (xm * ym) (xe + ye)) (min sx sy) (.fin zn zm ze) sz := by simp [fpFma, FVal.isNan, FVal.isInf, FVal.neg]
  rw [e]
  exact addVals_sum f hf r hr _ _ _ _ _ _ _ _ zneg hz

/-- The code of a zero of a sign is that zero. -/
theorem dec_pack_zero {f : FpFmt} (hf : f ∈ withInf) (n : Bool) :
    (f.dec (BitVec.ofNat 64 (f.pack n 0 0)).toNat).isZero = true ∧ (f.dec (BitVec.ofNat 64 (f.pack n 0 0)).toNat).neg = n := by
  revert f n
  decide

/-- An exact zero stands for 0, with any tag. -/
theorem result_zero {f : FpFmt} (hf : f ∈ withInf) (r : Rnd) (n : Bool) (tag : Nat) : f.Result r 0 n tag ⟨BitVec.ofNat 64 (f.pack n 0 0), 0, tag⟩ := by
  obtain ⟨hz, hn⟩ := dec_pack_zero hf n
  refine ⟨⟨fun _ => ⟨hz, hn, rfl⟩, fun h => absurd rfl h⟩, ⟨fun h => ?_, fun _ => ⟨fun _ => rfl, fun h => absurd ?_ h⟩⟩⟩
  · dsimp only at h ⊢
    generalize f.dec _ = b at h hz
    cases b <;> simp_all [FVal.isFin, FVal.isZero]
  · dsimp only
    generalize f.dec _ = b at hz
    cases b with
    | nan _ => cases hz
    | inf _ => cases hz
    | fin n m e => exact (real_eq_zero n m e).2 (by simpa [FVal.isZero] using hz)

/-! ## Comparison and selection -/

section Order

variable (xn yn : Bool) (xm ym : Nat) (xe ye : Int)

/-- The comparisons of finite values are those of the reals (R129). -/
theorem fpCmp_fin (k : FCmp) : fpCmp k (.fin xn xm xe) (.fin yn ym ye) =
    (match k with
     | .eq | .eqs => fpOrd (.fin xn xm xe) (.fin yn ym ye) == .eq
     | .lt => fpOrd (.fin xn xm xe) (.fin yn ym ye) == .lt
     | .le => fpOrd (.fin xn xm xe) (.fin yn ym ye) != .gt
     | .un => false, 0) := by
  cases k <;> rfl

/-- FMNX's order: negative zero below positive zero (R128). -/
theorem fpOrdZ_lt : fpOrdZ (.fin xn xm xe) (.fin yn ym ye) = .lt ↔
    (FVal.fin xn xm xe).real < (FVal.fin yn ym ye).real ∨ ((FVal.fin xn xm xe).real = (FVal.fin yn ym ye).real ∧ xn = true ∧ yn = false) := by
  obtain ⟨h1, -, h3⟩ := fpOrd_real xn xm xe yn ym ye
  rw [← h1, ← h3]
  unfold fpOrdZ
  cases fpOrd (.fin xn xm xe) (.fin yn ym ye) <;> cases xn <;> cases yn <;> simp [FVal.neg]

theorem fpOrdZ_gt : fpOrdZ (.fin xn xm xe) (.fin yn ym ye) = .gt ↔
    (FVal.fin yn ym ye).real < (FVal.fin xn xm xe).real ∨ ((FVal.fin xn xm xe).real = (FVal.fin yn ym ye).real ∧ xn = false ∧ yn = true) := by
  obtain ⟨-, h2, h3⟩ := fpOrd_real xn xm xe yn ym ye
  rw [← h2, ← h3]
  unfold fpOrdZ
  cases fpOrd (.fin xn xm xe) (.fin yn ym ye) <;> cases xn <;> cases yn <;> simp [FVal.neg]

theorem real_mag (n : Bool) (m : Nat) (e : Int) : (FVal.fin n m e).mag.real = |(FVal.fin n m e).real| := by
  rw [abs_real]
  simp [FVal.mag, FVal.real]

/-- By value A is picked unless it is on the wrong side of B, and by magnitude the value decides a tie (R128). -/
theorem mnxPickA_value (big : Bool) :
    mnxPickA big false (.fin xn xm xe) (.fin yn ym ye) = true ↔ fpOrdZ (.fin xn xm xe) (.fin yn ym ye) ≠ if big then .lt else .gt := by
  cases big <;> simp [mnxPickA]

theorem mnxPickA_mag_big : mnxPickA true true (.fin xn xm xe) (.fin yn ym ye) = true ↔
    |(FVal.fin yn ym ye).real| < |(FVal.fin xn xm xe).real| ∨
      (|(FVal.fin xn xm xe).real| = |(FVal.fin yn ym ye).real| ∧ fpOrdZ (.fin xn xm xe) (.fin yn ym ye) ≠ .lt) := by
  obtain ⟨-, h2, h3⟩ := fpOrd_real false xm xe false ym ye
  rw [← real_mag, ← real_mag, FVal.mag, FVal.mag, ← h2, ← h3]
  simp only [mnxPickA, FVal.mag]
  cases fpOrd (.fin false xm xe) (.fin false ym ye) <;> simp

theorem mnxPickA_mag_small : mnxPickA false true (.fin xn xm xe) (.fin yn ym ye) = true ↔
    |(FVal.fin xn xm xe).real| < |(FVal.fin yn ym ye).real| ∨
      (|(FVal.fin xn xm xe).real| = |(FVal.fin yn ym ye).real| ∧ fpOrdZ (.fin xn xm xe) (.fin yn ym ye) ≠ .gt) := by
  obtain ⟨h1, -, h3⟩ := fpOrd_real false xm xe false ym ye
  rw [← real_mag, ← real_mag, FVal.mag, FVal.mag, ← h1, ← h3]
  simp only [mnxPickA, FVal.mag]
  cases fpOrd (.fin false xm xe) (.fin false ym ye) <;> simp

end Order

/-- Of two numbers FMNX gives the one picked, with its tag and no flag (R128). -/
theorem fpMnx_fin {f : FpFmt} {big mg : Bool} {xb yb : BitVec 64} {sx sy : Nat} {A B : FVal} {first : Prop} (hx : f.dec xb.toNat = A)
    (hy : f.dec yb.toNat = B) (fx : A.isFin) (fy : B.isFin) (h : mnxPickA big mg A B = true ↔ first) :
    (first → fpMnx f big mg xb sx yb sy = ⟨xb, 0, sx⟩) ∧ (¬first → fpMnx f big mg xb sx yb sy = ⟨yb, 0, sy⟩) := by
  obtain ⟨xn, xm, xe, rfl⟩ := isFin_fin A fx
  obtain ⟨yn, ym, ye, rfl⟩ := isFin_fin B fy
  have e : fpMnx f big mg xb sx yb sy = if mnxPickA big mg (.fin xn xm xe) (.fin yn ym ye) then ⟨xb, 0, sx⟩ else ⟨yb, 0, sy⟩ := by
    simp [fpMnx, hx, hy, snanFlag, FpFmt.result, FVal.isNan, FVal.isSnan, FVal.isFin]
  rw [e, ← h]
  exact ⟨fun c => if_pos c, fun c => if_neg c⟩

/-! ## The obligation -/

/-- A form whose one result is the canonical NaN, or an infinity, completes with it whatever the threshold. -/
theorem ChecksFp.gives_qnan {s : State} {cx : Cx} {i : Instr} {d : Dst} {fmt : Fmt} {r : FpRes} {fl : FFlags} (hf : cx.free { dst := d })
    (h : ChecksFp s cx i d (fmtOf fmt) r 15) (hr : r = ⟨(fmtOf fmt).qnan, fl, 0⟩) : FpGives s cx i d (.fp ⟨(fmtOf fmt).qnan, 0⟩) fl 15 :=
  h.gives_nonfinite hf hr (fmtOf_dec_qnan fmt)

theorem ChecksFp.gives_inf {s : State} {cx : Cx} {i : Instr} {d : Dst} {fmt : Fmt} {r : FpRes} {fl : FFlags} {n : Bool} (hf : cx.free { dst := d })
    (h : ChecksFp s cx i d (fmtOf fmt) r 15) (hr : r = ⟨(fmtOf fmt).inf n, fl, 0⟩) : FpGives s cx i d (.fp ⟨(fmtOf fmt).inf n, 0⟩) fl 15 :=
  h.gives_nonfinite hf hr (fmtOf_dec_inf fmt n)

/-- A comparison with a NaN completes with `fpCmp_nan`. -/
theorem fpPred_nan {s : State} {cx : Cx} {p : Pred} {d : Dst} {a b : Opnd} {x y : FReg} {f : FpFmt} {i : Instr} (k : FCmp) (hr : s.runs cx p)
    (hf : cx.free { dst := d }) (ha : cx.fp a = .val x) (hb : cx.fp b = .val y) (hi : exec i s = fpPred p d a b f k s)
    (h : (x.read f).1.isNan ∨ (y.read f).1.isNan) :
    FpGives s cx i d (.pred (decide (k = .un))) (if k = .eq ∨ k = .un then snanFlag [(x.read f).1, (y.read f).1] else fNV) 15 := by
  have := (fpPred_checks hr ha hb hi).gives_unchecked hf
  rwa [fpCmp_nan h] at this

/-- Settles O16: every special operand gives a NaN or an infinity, and finite operands the exact real rounded once (Laws). -/
theorem floatSpecialOperands : Obligations.FloatSpecialOperands := by
  refine ⟨fun s cx p d a b x y fmt rnd hr hf ha hb => ?_, fun f r xn yn zn xm ym zm xe ye ze sx sy sz neg hf hr => ?_⟩
  · intro f X Y nan sig
    have add := fadd_checks (d := d) fmt rnd hr ha hb
    have sub := fsub_checks (d := d) fmt rnd hr ha hb
    have mul := fmul_checks (d := d) fmt rnd hr ha hb
    have div := fdiv_checks (d := d) fmt rnd hr ha hb
    have sqrt := fsqrt_checks (d := d) fmt rnd hr ha
    refine ⟨fun h => ?_, fun h => sqrt.gives_qnan hf (fpSqrt_nan h), fun n hX hY => add.gives_qnan hf ?_, fun n hX hY => sub.gives_qnan hf ?_,
      fun hX hY => mul.gives_qnan hf (fpMul_zero_inf (.inl ⟨hX, hY⟩)), fun hX hY => mul.gives_qnan hf (fpMul_zero_inf (.inr ⟨hX, hY⟩)),
      fun hX hY => div.gives_qnan hf (fpDiv_zero_zero hX hY), fun hX hY => div.gives_qnan hf (fpDiv_inf_inf hX hY),
      fun hX hX0 hY => div.gives_inf hf (fpDiv_by_zero hX hX0 hY), fun hX hX0 => sqrt.gives_qnan hf (fpSqrt_negative hX hX0), fun n => ?_⟩
    · have hs : sig = snanFlag [X, Y] := (snanFlag_pair X Y).symm
      have hflip : snanFlag [X, Y.flip] = snanFlag [X, Y] := by simp only [snanFlag_pair, FVal.isSnan_flip]
      rw [hs]
      exact ⟨add.gives_qnan hf (fpAdd_nan h), sub.gives_qnan hf ((fpAdd_nan (by rwa [FVal.isNan_flip])).trans (by rw [hflip])),
        mul.gives_qnan hf (fpMul_nan h), div.gives_qnan hf (fpDiv_nan h),
        fpPred_nan .eq hr hf ha hb rfl h, fpPred_nan .un hr hf ha hb rfl h, fpPred_nan .lt hr hf ha hb rfl h,
        fpPred_nan .le hr hf ha hb rfl h, fpPred_nan .eqs hr hf ha hb rfl h⟩
    · change fpAdd _ _ X _ Y _ = _
      rw [hX, hY, fpAdd_opposite]
    · change fpAdd _ _ X _ Y.flip _ = _
      rw [hX, hY, FVal.flip, fpAdd_opposite]
    · refine ⟨fun hX hY => add.gives_inf hf ?_, fun hY hX => add.gives_inf hf ?_, fun hX hY => sub.gives_inf hf ?_, fun hY hX => sub.gives_inf hf ?_,
        fun h hX hY zX zY hn => mul.gives_inf hf ?_, fun hX hY hn => div.gives_inf hf ?_, fun hX hn => sqrt.gives_inf hf ?_⟩
      · change fpAdd _ _ X _ Y _ = _
        rw [hX, fpAdd_inf_left hY]
      · change fpAdd _ _ X _ Y _ = _
        rw [hY, fpAdd_inf_right hX]
      · change fpAdd _ _ X _ Y.flip _ = _
        rw [hX, fpAdd_inf_left (hY.imp (fun h => by rwa [FVal.isFin_flip]) (fun h => by rw [h, FVal.flip, Bool.not_not]))]
      · change fpAdd _ _ X _ Y.flip _ = _
        rw [hY, FVal.flip, Bool.not_not, fpAdd_inf_right hX]
      · rw [fpMul_inf h hX hY zX zY, hn]
      · rw [fpDiv_inf_left hX hY, hn]
      · change fpSqrt _ _ X _ = _
        rw [hX, hn]
        rfl
  · intro A B C X Y Z
    obtain ⟨hlt, hgt, heq⟩ := fpOrd_real xn xm xe yn ym ye
    refine ⟨fpAdd_sum hf hr, fpSub_sum hf hr, fpFma_sum hf hr, fpMul_result f hf r hr _ _ _ _ _ _ _ _,
      fun hY => fpDiv_result f hf r hr _ _ _ _ _ _ _ _ (mt (real_eq_zero yn ym ye).2 hY), fun n => ?_, fun hX => ?_, fun hX => ?_,
      fpCvt_result f hf r hr _ _ _ _, intToFp_result f hf r hr, fun lo hi hle => ?_, ?_, ?_, ?_, ?_, fun k => ?_, rfl, fun xb yb hx hy => ?_⟩
    · obtain ⟨hz, hn⟩ := dec_pack_zero hf (xn != n)
      exact ⟨hz, hn, rfl, rfl⟩
    · have hm : xm ≠ 0 := mt (real_eq_zero xn xm xe).2 hX.ne'
      obtain rfl : xn = false := by
        by_contra hn
        exact lt_asymm hX ((real_neg xn xm xe hm).1 (by simpa using hn))
      exact fpSqrt_result f hf r hr xm xe sx hm
    · obtain rfl := (real_eq_zero xn xm xe).1 hX
      exact result_zero hf r xn _
    · obtain ⟨k, hk, h1, h2, h3⟩ := fpToInt_nearest r hr lo hi xn xm xe
      exact ⟨k, hk, h1, h2 hle, h3⟩
    · rw [fpCmp_fin, ← heq, beq_iff_eq]
    · rw [fpCmp_fin, ← heq, beq_iff_eq]
    · rw [fpCmp_fin, ← hlt, beq_iff_eq]
    · rw [fpCmp_fin, ← not_lt, ← hgt, bne_iff_ne]
    · rw [fpCmp_fin]
    · refine ⟨fpMnx_fin hx hy rfl rfl ?_, fpMnx_fin hx hy rfl rfl ?_, fpMnx_fin hx hy rfl rfl ?_, fpMnx_fin hx hy rfl rfl ?_⟩
      · rw [mnxPickA_value, if_pos rfl, Ne, fpOrdZ_lt]
      · rw [mnxPickA_value, if_neg Bool.false_ne_true, Ne, fpOrdZ_gt]
      · rw [mnxPickA_mag_big, Ne, fpOrdZ_lt]
      · rw [mnxPickA_mag_small, Ne, fpOrdZ_gt]

end Sys2Proof.Machine
end

