-- ==== Sys2Proof/Proofs/CommitSteps.lean ====
section
/-! PROOFS. The commit of a block that is ready (R68): what COMMIT does to the state it starts from, its parts in order, and what each part leaves of
a task and of a plot. -/

namespace Sys2Proof.Machine

open Sys2Proof

/-! ## Folds -/

/-- Folding steps that, for the members of the list, keep an invariant keeps it. -/
theorem foldl_inv_mem {α β : Type} {P : β → Prop} {f : β → α → β} {xs : List α} (h : ∀ b, P b → ∀ a ∈ xs, P (f b a)) {b : β} (hb : P b) :
    P (xs.foldl f b) := by
  induction xs generalizing b with
  | nil => exact hb
  | cons x t ih => exact ih (fun b hb a ha => h b hb a (List.mem_cons_of_mem _ ha)) (h b hb x (List.mem_cons_self ..))

/-- A bit into which every step ORs one of its own. -/
theorem foldl_or {α β : Type} {g : β → Bool} {f : β → α → β} {h : α → Bool} (hf : ∀ b a, g (f b a) = (g b || h a)) (xs : List α) (b : β) :
    g (xs.foldl f b) = (g b || xs.any h) := by
  induction xs generalizing b with
  | nil => simp
  | cons x t ih => rw [List.foldl_cons, ih, hf, List.any_cons, Bool.or_assoc]

/-! ## What a commit reads of a plot besides its window, semaphores and rills -/

/-- Tasks, field units and performance counters. -/
def Plot.view (x : Plot) : Vector Task 16 × FUnit × BitVec 6 × SMap (BitVec 64) × BitVec 64 × SMap (BitVec 64) :=
  (x.tasks, x.fu, x.pmsel, x.perf, x.perfCyc, x.perfNew)

/-- The views of all plots, with the dies and the fields. -/
def State.view (s : State) : (Nat → Vector Task 16 × FUnit × BitVec 6 × SMap (BitVec 64) × BitVec 64 × SMap (BitVec 64)) × SMap Die × List Field :=
  (fun q => (s.plot q).view, s.dies, s.fields)

theorem State.onPlot_keeps {γ : Type} (g : Plot → γ) (s : State) (p q : Nat) {f : Plot → Plot} (h : ∀ x, g (f x) = g x) :
    g ((s.onPlot p f).plot q) = g (s.plot q) := by
  rw [State.plot_onPlot]
  split
  · rename_i e; rw [h, e]
  · rfl

theorem State.view_onPlot (s : State) (p : Nat) {f : Plot → Plot} (h : ∀ x, (f x).view = x.view) : (s.onPlot p f).view = s.view :=
  Prod.ext (funext (fun q => State.onPlot_keeps Plot.view s p q h)) rfl

theorem Plot.view_setHalf (x : Plot) (h : Bool) (y : Half) : (x.setHalf h y).view = x.view := by
  cases h <;> rfl

theorem State.view_setHalf (s : State) (p : Nat) (h : Bool) (y : Half) : (s.setHalf p h y).view = s.view :=
  State.view_onPlot s p (fun x => Plot.view_setHalf x h y)

theorem State.view_takeSems (s : State) (p : Nat) (b : Block) : (s.takeSems p b).view = s.view := by
  refine foldl_keeps State.view _ _ (fun s r _ => ?_) s
  split
  · exact State.view_onPlot s p (fun _ => rfl)
  · rfl

theorem plot_view_of_view {s t : State} (h : s.view = t.view) (q : Nat) : (s.plot q).view = (t.plot q).view := congrFun (congrArg Prod.fst h) q

theorem task_of_view {s t : State} (h : s.view = t.view) (q j : Nat) : s.task q j = t.task q j := by
  have e : (s.plot q).tasks = (t.plot q).tasks := congrArg Prod.fst (plot_view_of_view h q)
  simp only [State.task, Plot.task, e]

theorem cycOf_of_view {s t : State} (h : s.view = t.view) (p : Nat) : s.cycOf p = t.cycOf p := by
  have e : s.dies = t.dies := congrArg (fun v => v.2.1) h
  simp only [State.cycOf, State.die, e]

/-! ## The block that commits -/

theorem State.blockCx_eq {s : State} {p : Nat} {h : Bool} {cx : Cx} (hc : s.blockCx p h = some cx) :
    cx.p = p ∧ cx.half = h ∧ cx.t < 16 ∧ cx.task = s.task p cx.t ∧ ((s.plot p).half h).task = some cx.t := by
  unfold State.blockCx at hc
  dsimp only at hc
  split at hc
  · rename_i t b ht hb
    split at hc
    · rename_i hlt
      obtain rfl := Option.some.inj hc
      exact ⟨rfl, rfl, hlt, rfl, ht⟩
    · cases hc
  · cases hc

/-- What a home event of a TAKE leaves: the dies, whose the halves are, and which tasks leave. -/
def State.takeKept (s : State) : SMap Die × (Nat → Bool → Option Nat) × (Nat → Nat → Leaving) :=
  (s.dies, fun q h => ((s.plot q).half h).task, fun q j => (s.task q j).leaving)

theorem State.takeKept_onPlot (s : State) (p : Nat) {f : Plot → Plot} (hf : ∀ x, (f x).tasks = x.tasks)
    (hh : ∀ x h, ((f x).half h).task = (x.half h).task) : (s.onPlot p f).takeKept = s.takeKept := by
  refine Prod.ext rfl (Prod.ext (funext (fun q => funext (fun h => ?_))) (funext (fun q => funext (fun j => ?_))))
  · exact State.onPlot_keeps (fun x => (x.half h).task) s p q (fun x => hh x h)
  · exact congrArg Task.leaving (State.task_onPlot s p q j f hf)

theorem State.takeKept_bump (s : State) (p i n : Nat) : (s.bump p i n).takeKept = s.takeKept := by
  unfold State.bump
  split
  · exact State.takeKept_onPlot s p (fun _ => rfl) (fun _ _ => rfl)
  · rfl

theorem State.takeKept_missed (s : State) (p k : Nat) (now : BitVec 64) : (s.onTask p k (Task.missed now)).takeKept = s.takeKept := by
  refine Prod.ext rfl (Prod.ext (funext (fun q => funext (fun h => ?_))) (funext (fun q => funext (fun j => ?_))))
  · exact State.onPlot_keeps (fun x => (x.half h).task) s p q (fun _ => rfl)
  · exact State.onTask_keeps Task.leaving s p k q j _ (fun _ => rfl)

theorem State.takeKept_setSide (s : State) (a : Nat) (x : Side) : (s.setSide a x).takeKept = s.takeKept := by
  unfold State.setSide
  split <;> rfl

theorem State.takeKept_wrSide (s : State) (a : Nat) (x : Side) : (s.wrSide a x).takeKept = s.takeKept := by
  unfold State.wrSide
  split
  · rw [State.takeKept_setSide, State.takeKept_setSide]
  · rw [State.takeKept_setSide]

theorem State.takeKept_clearTake (s : State) (k : Nat) (x : TakeRec) : (s.clearTake k x).takeKept = s.takeKept := by
  have h3 : ∀ (g : List TakeRec → List TakeRec) (f : Plot → Plot) (y : Side), (∀ x, (f x).tasks = x.tasks) → (∀ x h, ((f x).half h).task = (x.half h).task) →
      (({ (s.touch x.home x.words).wrSide x.home y with
        takes := g ((s.touch x.home x.words).wrSide x.home y).takes } : State).onPlot x.plot f).takeKept = s.takeKept := by
    intro g f y hf hh
    rw [State.takeKept_onPlot _ _ hf hh]
    exact State.takeKept_wrSide (s.touch x.home x.words) x.home y
  unfold State.clearTake
  dsimp only
  split
  · rw [State.takeKept_missed, State.takeKept_bump]
    exact h3 _ _ _ (fun _ => rfl) (fun _ _ => rfl)
  · exact h3 _ _ _ (fun _ => rfl) (fun _ _ => rfl)

theorem State.takeKept_failBlock (s : State) (p : Nat) (h : Bool) : (s.failBlock p h).takeKept = s.takeKept := by
  refine State.takeKept_onPlot s p (fun x => by cases h <;> rfl) (fun x h' => ?_)
  cases h <;> cases h' <;> rfl

/-- An event that finds no poison. -/
theorem State.takeKept_takeEvent {s : State} {k : Nat} {x : TakeRec}
    (hp : ∀ y ∈ s.takes, x.with y = true → y.done = false → (s.sideAt y.home).poison = false) : (s.takeEvent k x).takeKept = s.takeKept := by
  have hnone : (s.takes.filter (fun y => x.with y && !y.done)).find? (fun y => (s.sideAt y.home).poison) = none := by
    refine List.find?_eq_none.2 (fun y hy => ?_)
    obtain ⟨hm, hy⟩ := List.mem_filter.1 hy
    simp only [Bool.and_eq_true, Bool.not_eq_true'] at hy
    simp [hp y hm hy.1 hy.2]
  unfold State.takeEvent
  dsimp only
  rw [hnone]
  dsimp only
  split
  · exact foldl_keeps State.takeKept _ _ (fun s y _ => State.takeKept_clearTake s k y) s
  · exact State.takeKept_failBlock ..

/-- The block that is ready is one of its half, of a task that stays, and the dies are those of the state it was found in. -/
theorem readyToCommit_cx {s t : State} {p : Nat} {h : Bool} {cx : Cx} (hr : s.readyToCommit p h cx t) :
    cx.p = p ∧ cx.half = h ∧ cx.t < 16 ∧ cx.task = t.task p cx.t ∧ cx.task.leaving = .no ∧ t.cycOf p = s.cycOf p := by
  rcases hr with ⟨⟨hc, he, -, -⟩, -, -, rfl⟩ | ⟨c, x, ⟨hc, he, -, -⟩, -, -, rfl, ht, hp, -⟩
  · obtain ⟨h1, h2, h3, h4, -⟩ := State.blockCx_eq hc
    simp only [Cx.ended, Bool.and_eq_true, beq_iff_eq] at he
    exact ⟨h1, h2, h3, h4, he.1.2, rfl⟩
  · have hk := State.takeKept_takeEvent (k := c.t) hp
    obtain ⟨h1, h2, h3, h4, h5⟩ := State.blockCx_eq ht
    obtain ⟨-, -, -, c4, c5⟩ := State.blockCx_eq hc
    have hhalf : ((State.plot (s.takeEvent c.t x) p).half h).task = ((s.plot p).half h).task := congrFun (congrFun (congrArg (fun v => v.2.1) hk) p) h
    have hdies : (s.takeEvent c.t x).dies = s.dies := congrArg Prod.fst hk
    have hleave : ((s.takeEvent c.t x).task p c.t).leaving = (s.task p c.t).leaving := congrFun (congrFun (congrArg (fun v => v.2.2) hk) p) c.t
    have htc : cx.t = c.t := Option.some.inj (h5.symm.trans (hhalf.trans c5))
    simp only [Cx.ended, Bool.and_eq_true, beq_iff_eq] at he
    refine ⟨h1, h2, h3, h4, ?_, by simp only [State.cycOf, State.die, hdies]⟩
    rw [h4, htc, hleave, ← c4]
    exact he.1.2

/-! ## COMMIT from the state in which the block is ready -/

/-- The state a commit starts from: the block's TAKEs are over, and its SWAITDs have taken theirs (R181, R387). -/
def State.taken (t : State) (cx : Cx) : State := ({ t with takes := t.takes.filter (fun x => !x.of cx.p cx.half) }).takeSems cx.p cx.blk

theorem State.view_taken (t : State) (cx : Cx) : (t.taken cx).view = t.view := State.view_takeSems ..

theorem State.pass_covered {t : State} {cx : Cx} (h : t.semsCover cx.p cx.blk = true) :
    t.pass cx = ((t.taken cx).commit { cx with task := (t.taken cx).task cx.p cx.t }).commitAcc cx.p cx.t cx.blk := by
  simp [State.pass, h, State.taken]

theorem State.semsCover_setHalf (s : State) (p : Nat) (h : Bool) (y : Half) (b : Block) : (s.setHalf p h y).semsCover p b = s.semsCover p b := by
  have e : ∀ n, (s.setHalf p h y).semFree p n = s.semFree p n := by
    intro n
    simp only [State.semFree, State.setHalf, State.plot_onPlot_same]
    cases h <;> rfl
  simp only [State.semsCover, e]

theorem State.keepHomes_eq (s : State) (cx : Cx) : s.keepHomes cx = s ∨ ∃ y, s.keepHomes cx = s.setHalf cx.p cx.half y := by
  unfold State.keepHomes
  split
  · exact .inr ⟨_, rfl⟩
  · exact .inl rfl

theorem State.takeOn_none {s : State} {cx : Cx} (h : s.nextTake cx.p cx.half = none) : s.takeOn cx = s.pass cx := by
  unfold State.takeOn
  rw [h]

theorem State.takeOn_some {s : State} {cx : Cx} {x : TakeRec} (h : s.nextTake cx.p cx.half = some x) (hx : x.scope ≠ .seq) :
    s.takeOn cx = s.takeStep cx x := by
  unfold State.takeOn
  rw [h]
  exact if_neg (by simpa using hx)

/-- The home event of a block's last TAKE passes it. -/
theorem State.takeStep_last {s : State} {c cx : Cx} {x : TakeRec} (h : (s.takeEvent c.t x).blockCx c.p c.half = some cx) (hf : cx.blk.failed = false)
    (hn : (s.takeEvent c.t x).nextTake c.p c.half = none) : s.takeStep c x = (s.takeEvent c.t x).pass cx := by
  unfold State.takeStep
  dsimp only
  rw [h]
  simp [hf, hn]

/-- A half that empties no words has none to empty next. -/
theorem State.nextTake_none {s : State} {p : Nat} {h : Bool} (ht : s.taking p h = false) : s.nextTake p h = none := by
  refine List.find?_eq_none.2 (fun z hz => ?_)
  have := List.any_eq_false.1 ht z hz
  simp [this]

theorem State.taking_of_nextTake {s : State} {p : Nat} {h : Bool} {x : TakeRec} (hn : s.nextTake p h = some x) : s.taking p h = true := by
  have hx := List.find?_some hn
  simp only [Bool.and_eq_true] at hx
  exact List.any_eq_true.2 ⟨x, List.mem_of_find?_eq_some hn, hx.1⟩

/-- Homes kept for later change nothing that a commit reads. -/
theorem State.keepHomes_kept (s : State) (cx : Cx) : (s.keepHomes cx).view = s.view ∧
    (s.keepHomes cx).semsCover cx.p cx.blk = s.semsCover cx.p cx.blk ∧ (s.keepHomes cx).takes = s.takes := by
  rcases State.keepHomes_eq s cx with e | ⟨y, e⟩
  · rw [e]
    exact ⟨rfl, rfl, rfl⟩
  · rw [e]
    exact ⟨State.view_setHalf .., State.semsCover_setHalf .., rfl⟩

/-- COMMIT of a block without TAKEs whose checks pass. -/
theorem exec_blockCommit_checked {s : State} {p : Nat} {h : Bool} {cx : Cx} (hm : s.mayCommit p h cx) (hk : s.checksPass p h cx)
    (htr : s.takeRecs cx = []) : exec (.blockCommit p h) s = .next ((s.keepHomes cx).takeOn cx) := by
  obtain ⟨hc, he, hg, hf⟩ := hm
  obtain ⟨ht, hb, hroom, hfull, hs⟩ := hk
  change execBlockCommit p h s = _
  simp only [execBlockCommit, hc, he, hg, hf, ht, hb, hroom, hfull, hs, htr, List.append_nil, Bool.not_true, Bool.or_self, Bool.false_eq_true, if_false]

/-- COMMIT of a block that empties its words. -/
theorem exec_blockCommit_taking {s : State} {p : Nat} {h : Bool} {cx : Cx} (hm : s.mayCommit p h cx) (ht : s.taking p h = true) :
    exec (.blockCommit p h) s = .next (s.takeOn cx) := by
  obtain ⟨hc, he, hg, hf⟩ := hm
  change execBlockCommit p h s = _
  simp only [execBlockCommit, hc, he, hg, hf, ht, Bool.not_true, Bool.or_self, Bool.false_eq_true, if_false, if_true]

/-- A block that is ready commits, from a state of which a commit reads what the one that left it ready shows. -/
theorem exec_blockCommit {s t : State} {p : Nat} {h : Bool} {cx : Cx} (hr : s.readyToCommit p h cx t) :
    ∃ w : State, w.view = t.view ∧ exec (.blockCommit p h) s = .next ((w.commit cx).commitAcc cx.p cx.t cx.blk) := by
  obtain ⟨rfl, rfl, -, htask, -⟩ := readyToCommit_cx hr
  have hcx : ∀ u : State, u.view = t.view → { cx with task := (u.taken cx).task cx.p cx.t } = cx := by
    intro u hu
    rw [task_of_view ((State.view_taken u cx).trans hu), ← htask]
  rcases hr with ⟨hm, hk, htr, rfl⟩ | ⟨c, x, hm, hn, hx, rfl, ht, -, hf, hn2, hs⟩
  · obtain ⟨hv, hsems, htakes⟩ := State.keepHomes_kept t cx
    have hnext : (t.keepHomes cx).nextTake cx.p cx.half = none := by
      unfold State.nextTake
      rw [htakes]
      exact State.nextTake_none hk.1
    refine ⟨_, (State.view_taken (t.keepHomes cx) cx).trans hv, ?_⟩
    rw [exec_blockCommit_checked hm hk htr, State.takeOn_none hnext, State.pass_covered (hsems.trans hk.2.2.2.2), hcx _ hv]
  · obtain ⟨c1, c2, -⟩ := State.blockCx_eq hm.1
    refine ⟨_, State.view_taken (s.takeEvent c.t x) cx, ?_⟩
    rw [exec_blockCommit_taking hm (State.taking_of_nextTake hn), State.takeOn_some (by rwa [c1, c2]) hx,
      State.takeStep_last (by rwa [c1, c2]) hf (by rwa [c1, c2]), State.pass_covered hs, hcx _ rfl]

end Sys2Proof.Machine
end

