-- ==== Sys2Proof/Proofs/Waking.lean ====
section
/-! PROOFS. What waking tasks and discarding a mapped block leave alone (R66, R69, R181): everything but the window, the sideband, the event counters and
of every task its state and its place in the selection. And what the bytes of memory depend on. -/

namespace Sys2Proof.Machine

open Sys2Proof

/-! ## The state without what a wake or a discarded block changes -/

/-- A task but for its state, its wait and its turn. -/
def Task.still (t : Task) : Task := { t with st := .free, wait := .none, since := 0, turn := 0, levelE := 8, woken := false }

/-- A plot but for its window and its counters. -/
def Plot.still (x : Plot) : Plot :=
  { x with tasks := x.tasks.map Task.still, h0 := {}, h1 := {}, perf := [], perfCyc := 0, perfNew := [] }

/-- A launch but for the frames of its saved tasks, a die but for its queue of seq operations. -/
def Launch.still (l : Launch) : Launch := { l with frames := [] }
def Die.still (d : Die) : Die := { d with seqQ := [] }

/-- The parts of a state that waking tasks and discarding blocks leave alone. -/
structure Still where
  plots : Nat → Plot
  mem : List Host.Cell
  mod : Module
  queues : Vector LQueue 8
  launches : List Launch
  fields : List Field
  dies : Nat → Die

def State.still (s : State) : Still :=
  ⟨fun q => (s.plot q).still, s.mem, s.mod, s.queues, s.launches.map Launch.still, s.fields, fun d => (s.die d).still⟩

/-! ## What they leave, read off -/

theorem task_still_of_still {s t : State} (h : s.still = t.still) (q j : Nat) : (s.task q j).still = (t.task q j).still := by
  have e : (s.plot q).tasks.map Task.still = (t.plot q).tasks.map Task.still := congrArg (fun v => (v.plots q).tasks) h
  unfold State.task Plot.task
  split
  · rename_i hj
    simpa using congrArg (fun v => v[j]) e
  · rfl

theorem fu_of_still {s t : State} (h : s.still = t.still) (q : Nat) : (s.plot q).fu = (t.plot q).fu := congrArg (fun v => (v.plots q).fu) h

theorem wtimeOf_of_still {s t : State} (h : s.still = t.still) (p : Nat) : s.wtimeOf p = t.wtimeOf p :=
  congrArg (fun v => (v.dies (dieOf p)).wtime) h

/-! ## Updates -/

theorem State.still_onPlot (s : State) (p : Nat) {f : Plot → Plot} (h : ∀ x, (f x).still = x.still) : (s.onPlot p f).still = s.still := by
  have e : (fun q => ((s.onPlot p f).plot q).still) = fun q => (s.plot q).still := funext (fun q => State.onPlot_keeps Plot.still s p q h)
  unfold State.still
  rw [e]
  rfl

theorem Plot.still_setTask (x : Plot) {k : Nat} {t : Task} (h : t.still = (x.task k).still) : (x.setTask k t).still = x.still := by
  have e : (x.setTask k t).tasks.map Task.still = x.tasks.map Task.still := by
    apply Vector.ext
    intro i hi
    simp only [Plot.setTask, Vector.getElem_map, Vector.getElem_setIfInBounds]
    split
    · rename_i hk
      subst hk
      rw [h, Plot.task, dif_pos hi]
    · rfl
  unfold Plot.still
  rw [e]
  rfl

/-- A task changed in its state, its wait and its turn alone. -/
theorem State.still_onTask (s : State) (p k : Nat) {f : Task → Task} (h : ∀ t, (f t).still = t.still) : (s.onTask p k f).still = s.still := by
  have e : (fun q => ((s.onTask p k f).plot q).still) = fun q => (s.plot q).still := by
    funext q
    change ((s.onPlot p (fun x => x.setTask k (f (s.task p k)))).plot q).still = _
    rw [State.plot_onPlot]
    split
    · rename_i hq
      subst hq
      exact Plot.still_setTask _ (h _)
    · rfl
  unfold State.still
  rw [e]
  rfl

theorem State.still_ready (s : State) (p k : Nat) : (s.ready p k).still = s.still :=
  State.still_onTask s p k (f := fun t => { t.queued (s.cycOf p) s.uid with st := .ready, wait := .none }) (fun _ => rfl)

theorem State.still_bump (s : State) (p i n : Nat) : (s.bump p i n).still = s.still := by
  unfold State.bump
  split
  · exact State.still_onPlot s p (fun _ => rfl)
  · rfl

theorem State.still_setHalf (s : State) (p : Nat) (h : Bool) (y : Half) : (s.setHalf p h y).still = s.still :=
  State.still_onPlot s p (fun x => by cases h <;> rfl)

theorem State.still_wakePlot (s : State) (p : Nat) (f : WaitFor → Bool) : (s.wakePlot p f).still = s.still := by
  unfold State.wakePlot
  refine foldl_keeps State.still _ _ (fun s k _ => ?_) s
  dsimp only
  split
  · rfl
  · split
    · exact State.still_ready s p k
    · split
      · exact State.still_onTask s p k (f := fun t => { t with woken := true }) (fun _ => rfl)
      · rfl

/-- Waking marks frames of saved tasks too. -/
theorem State.still_launches (s : State) {ls : List Launch} (h : ls.map Launch.still = s.launches.map Launch.still) :
    State.still { s with launches := ls } = s.still := by
  unfold State.still
  rw [h]
  rfl

theorem State.still_wakeAll (s : State) (f : WaitFor → Bool) : (s.wakeAll f).still = s.still := by
  unfold State.wakeAll
  refine (State.still_launches _ ?_).trans (foldl_keeps State.still _ _ (fun s p _ => State.still_wakePlot s p f) s)
  rw [List.map_map]
  rfl

theorem State.still_setSide (s : State) (a : Nat) (x : Side) : (s.setSide a x).still = s.still := by
  unfold State.setSide
  split <;> rfl

theorem State.still_wrSide (s : State) (a : Nat) (x : Side) : (s.wrSide a x).still = s.still := by
  unfold State.wrSide
  split
  · rw [State.still_setSide, State.still_setSide]
  · rw [State.still_setSide]

theorem State.still_restoreTake (s : State) (x : TakeRec) : (s.restoreTake x).still = s.still := by
  unfold State.restoreTake
  split
  · rfl
  · refine (State.still_wakeAll _ _).trans ?_
    exact State.still_wrSide s x.home _

theorem State.still_untake (s : State) (p : Nat) (h : Bool) : (s.untake p h).still = s.still :=
  foldl_keeps State.still State.restoreTake _ (fun s x _ => State.still_restoreTake s x) _

theorem State.still_dropBlock (s : State) (p k : Nat) : (s.dropBlock p k).still = s.still := by
  unfold State.dropBlock
  split
  · rfl
  · dsimp only
    rw [State.still_setHalf, State.still_untake]
    split
    · exact State.still_bump ..
    · rfl

theorem State.still_withdraw (s : State) (p k : Nat) : (s.withdraw p k).still = s.still := by
  have e : ∀ d, ((s.withdraw p k).die d).still = (s.die d).still := by
    intro d
    have hd := SMap.get_map s.dies (fun _ x => { x with seqQ := x.seqQ.filter (fun r => !(r.plot == p && r.task == k && r.serial.isNone)) }) d {} rfl
    exact (show ((s.withdraw p k).die d).still = _ from congrArg Die.still hd).trans rfl
  have e' : (fun d => ((s.withdraw p k).die d).still) = fun d => (s.die d).still := funext e
  unfold State.still
  rw [e']
  rfl

theorem State.still_reexec (s : State) (p k : Nat) : (s.reexec p k).still = s.still := by
  unfold State.reexec
  rw [State.still_ready, State.still_withdraw, State.still_dropBlock]

theorem State.still_abortOther (s : State) (p k : Nat) (h : Bool) (b : Block) : (s.abortOther p k h b).still = s.still := by
  unfold State.abortOther
  dsimp only
  split
  · split
    · exact State.still_reexec ..
    · rfl
  · rfl

/-! ## Bytes -/

/-- What the steward's words say of a plot (R371). -/
def Plot.mapped (x : Plot) : PStat × BitVec 16 × BitVec 4 × BitVec 16 × BitVec 16 × Bool := (x.stat, x.partner, x.deadl, x.colBy, x.rowBy, x.rebound)

/-- What a byte reads as depends on memory, and in the steward's range on the module and the map of its plots. -/
theorem rdByte_eq {s t : State} (hm : s.mem = t.mem) (hmod : s.mod = t.mod) (hp : ∀ q, (s.plot q).mapped = (t.plot q).mapped) (a : Nat) :
    s.rdByte a = t.rdByte a := by
  have h : ∀ q, (s.plot q).stat = (t.plot q).stat ∧ (s.plot q).partner = (t.plot q).partner ∧ (s.plot q).deadl = (t.plot q).deadl ∧
      (s.plot q).colBy = (t.plot q).colBy ∧ (s.plot q).rowBy = (t.plot q).rowBy ∧ (s.plot q).rebound = (t.plot q).rebound := by
    intro q
    simpa only [Plot.mapped, Prod.mk.injEq] using hp q
  have hhead : ∀ i, s.mapHeader i = t.mapHeader i := fun i => by
    simp only [State.mapHeader, State.countStat, fun q => (h q).1, hmod]
  have hentry : ∀ p i, s.mapEntry p i = t.mapEntry p i := fun p i => by
    obtain ⟨h1, h2, h3, h4, h5, h6⟩ := h p
    simp only [State.mapEntry, h1, h2, h3, h4, h5, h6, hmod]
  have hw : ∀ off, s.stewardWord off = t.stewardWord off := fun off => by
    simp only [State.stewardWord, State.stewardNow, hhead, hentry, hmod]
  simp only [State.rdByte, hw, hm]

theorem rdByte_of_still {s t : State} (h : s.still = t.still) (a : Nat) : s.rdByte a = t.rdByte a :=
  rdByte_eq (congrArg Still.mem h) (congrArg Still.mod h) (fun q => congrArg (fun v => (v.plots q).mapped) h) a

end Sys2Proof.Machine
end

