-- ==== Sys2Proof/Proofs/CommitFlags.lean ====
section
/-! PROOFS. What a commit leaves in the system registers of its task and of its core (R39, R49, R95 to R97, R201, R347, R397). -/

namespace Sys2Proof.Machine

open Sys2Proof

/-! ## The parts of a commit -/

/-- The registers, system registers and flags that a block writes (R68, R96). -/
def State.commitWrites (s : State) (cx : Cx) : State :=
  (cx.blk.acts.foldl (fun s x => match x.2.kind with
    | .wrs n a => s.wrs cx.p cx.t n a
    | _ => s) ((s.setHalf cx.p cx.half {}).onTask cx.p cx.t (fun t => t.writeRegs cx.blk))).onTask cx.p cx.t
      (fun t => { (t.writeFlags cx.blk) with rwait := [], refault := none })

/-- Its pops and effects (R67, R68), and what it counts (R397). -/
def State.commitEffects (s : State) (cx : Cx) : State :=
  (((cx.blk.acts.foldl (fun s x => s.applyAct cx.p x.2) (s.pops cx.p cx.blk)).bump cx.p 1 1).bump cx.p (32 + cx.t) 1).bump cx.p 13
    (cx.blk.acts.filter (fun x => x.2.kind.isTake)).length

/-- The issue of its operations, and the other half's block aborted where the two pop one queue. -/
def State.commitIssues (s : State) (cx : Cx) : State :=
  ((cx.blk.acts.foldl (fun s x => if x.2.kind.immediate then s else s.issue cx x.1 x.2) s).onTask cx.p cx.t Task.haltDeps).abortOther cx.p cx.t
    cx.half cx.blk

/-- What the register window shows from now on. -/
def State.commitShows (s : State) (cx : Cx) : State :=
  (if cx.blk.acts.isEmpty then s else s.onTask cx.p cx.t (fun t => { t with causeStrm := t.strmWord })).showTask cx.p cx.t

theorem State.commit_eq (s : State) (cx : Cx) :
    s.commit cx = (((((s.commitWrites cx).commitEffects cx).transfer cx).commitIssues cx).commitShows cx).settle cx.p cx.t := rfl

/-- A task that stays has nothing to settle. -/
theorem State.settle_staying {s : State} {p k : Nat} (h : (s.task p k).leaving = .no) : s.settle p k = s := by
  unfold State.settle
  dsimp only
  rw [h]

/-! ## The transfer of control of a block that stays -/

/-- The transfer of a block that stays updates its task by functions that keep g, and makes it READY or parks it. -/
theorem State.transfer_keeps {γ : Type} (G : State → γ) {s : State} {cx : Cx} (hs : cx.blk.branch ≠ some .endt ∧ ∀ n, cx.blk.branch ≠ some (.trap n))
    (hready : ∀ s, G (s.ready cx.p cx.t) = G s)
    (hhalt : ∀ s, G (s.onTask cx.p cx.t (fun t => { t with halting := true })) = G s)
    (hgoto : ∀ s x, G (s.onTask cx.p cx.t (fun t => t.goto x)) = G s)
    (hpark : ∀ s m, G (s.onTask cx.p cx.t (fun t => { t with st := .wait, wait := .park m })) = G s)
    (htret : cx.blk.branch = some .tret → ∀ s b,
      G (s.onTask cx.p cx.t (fun t => { (t.leaveHandler.waitAgain b) with bpc := b, far := false })) = G s)
    (htretAt : ∀ a : BitVec 64, cx.blk.branch = some (.tretAt a) → ∀ s,
      G (s.onTask cx.p cx.t (fun t => (t.leaveHandler.waitAgain (a.extractLsb' 0 40)).goto (a.toNat : Int))) = G s) :
    G (s.transfer cx) = G s := by
  have hh : G (if cx.blk.halts then s.onTask cx.p cx.t (fun t => { t with halting := true }) else s) = G s := by
    split
    · exact hhalt s
    · rfl
  obtain ⟨he, ht⟩ := hs
  unfold State.transfer
  extract_lets p k next br slot rel u
  change G u = G s at hh
  have hbr : br = cx.blk.branch := rfl
  clear_value br u
  rw [← hbr] at he ht htret htretAt
  split
  · rw [hready, hgoto, hh]
  · rw [hready, hgoto, hh]
  · rw [hready, hgoto, hh]
  · rw [hready, hgoto, hh]
  · exact absurd rfl he
  · rw [hready, hgoto, hh]
  · split
    · rw [hready, hgoto, hh]
    · rw [hpark, hgoto, hh]
  · exact absurd rfl (ht _)
  · rw [hready, htret rfl, hh]
  · rw [hready, htretAt _ rfl, hh]

/-! ## What the parts leave of a task -/

/-- The system registers of a task that the parts of a commit but its own writes leave alone, with what it is leaving for. -/
def Task.flagged (t : Task) : Leaving × BitVec 9 × BitVec 8 × Bool × BitVec 16 × BitVec 32 × BitVec 16 :=
  (t.leaving, t.fctl, t.sigctl, t.smiss, t.park, t.frame, t.wake)

theorem Task.flagged_of_fixed {t u : Task} (h : t.fixed = u.fixed) : t.flagged = u.flagged := by
  simp only [Task.fixed, Prod.mk.injEq] at h
  simp only [Task.flagged, Prod.mk.injEq]
  obtain ⟨-, -, -, h1, -, h2, h3, h4, h5, h6, h7⟩ := h
  exact ⟨h1, h4, h5, h7, h3, h2, h6⟩

theorem State.fixed_commitEffects (s : State) (cx : Cx) (q j : Nat) : ((s.commitEffects cx).task q j).fixed = (s.task q j).fixed := by
  unfold State.commitEffects
  rw [State.task_bump, State.task_bump, State.task_bump, State.fixed_applyActs, State.task_pops]

theorem State.fixed_commitIssues (s : State) (cx : Cx) (q j : Nat) : ((s.commitIssues cx).task q j).fixed = (s.task q j).fixed := by
  unfold State.commitIssues
  rw [State.fixed_abortOther, State.onTask_keeps Task.fixed _ _ _ _ _ Task.haltDeps (fun _ => rfl), State.fixed_issues]

theorem State.fixed_showTask (s : State) (p k q j : Nat) : ((s.showTask p k).task q j).fixed = (s.task q j).fixed :=
  State.onTask_keeps Task.fixed s p k q j _ (fun _ => rfl)

theorem Task.fixed_causeStrm (t : Task) (w : BitVec 64) : ({ t with causeStrm := w } : Task).fixed = t.fixed := rfl

theorem State.fixed_commitShows (s : State) (cx : Cx) (q j : Nat) : ((s.commitShows cx).task q j).fixed = (s.task q j).fixed := by
  unfold State.commitShows
  rw [State.fixed_showTask]
  split
  · rfl
  · exact State.onTask_keeps Task.fixed s cx.p cx.t q j _ (fun t => Task.fixed_causeStrm t t.strmWord)

/-- A function of tasks that being made READY, going elsewhere and leaving a handler keep. -/
structure TransferKeeps {β : Type} (g : Task → β) (tret : Prop) : Prop where
  ready : ∀ (t : Task) n m, g { t with st := .ready, wait := .none, since := n, turn := m, levelE := 8 } = g t
  halting : ∀ t : Task, g { t with halting := true } = g t
  goto : ∀ (t : Task) x, g (t.goto x) = g t
  park : ∀ (t : Task) m, g { t with st := .wait, wait := .park m } = g t
  leave : tret → ∀ (t : Task) b, g ({ (t.leaveHandler.waitAgain b) with bpc := b, far := false }) = g t
  leaveAt : tret → ∀ (t : Task) b x, g ((t.leaveHandler.waitAgain b).goto x) = g t

theorem State.transfer_task {β : Type} {g : Task → β} {tret : Prop} (hg : TransferKeeps g tret) {s : State} {cx : Cx}
    (hs : cx.blk.branch ≠ some .endt ∧ ∀ n, cx.blk.branch ≠ some (.trap n))
    (ht : cx.blk.branch = some .tret ∨ (∃ a, cx.blk.branch = some (.tretAt a)) → tret) (q j : Nat) :
    g ((s.transfer cx).task q j) = g (s.task q j) := by
  have on : ∀ (s : State) (f : Task → Task), (∀ t, g (f t) = g t) → g ((s.onTask cx.p cx.t f).task q j) = g (s.task q j) :=
    fun s f => State.onTask_keeps g s cx.p cx.t q j f
  refine State.transfer_keeps (fun s => g (s.task q j)) hs (fun s => ?_) (fun s => on s _ hg.halting) (fun s x => on s _ (hg.goto · x))
    (fun s m => on s _ (hg.park · m)) (fun h s b => on s _ (hg.leave (ht (.inl h)) · b))
    (fun a h s => on s _ (hg.leaveAt (ht (.inr ⟨a, h⟩)) · _ _))
  rw [State.task_ready]
  split
  · rename_i e
    rw [hg.ready, e.1, e.2.1]
  · rfl

theorem Task.flagged_transferKeeps : TransferKeeps Task.flagged True where
  ready _ _ _ := rfl
  halting _ := rfl
  goto _ _ := rfl
  park _ _ := rfl
  leave _ _ _ := rfl
  leaveAt _ _ _ _ := rfl

/-- SY.TRAPV, which TRET alone changes. -/
theorem Task.trapv_transferKeeps : TransferKeeps Task.trapv False where
  ready _ _ _ := rfl
  halting _ := rfl
  goto _ _ := rfl
  park _ _ := rfl
  leave h := h.elim
  leaveAt h := h.elim

/-- A task that stays has after the commit the system registers that the block's writes left, and settles nothing. -/
theorem State.commit_flagged {s : State} {cx : Cx} (hs : cx.blk.branch ≠ some .endt ∧ ∀ n, cx.blk.branch ≠ some (.trap n))
    (hl : ((s.commitWrites cx).task cx.p cx.t).leaving = .no) :
    s.commit cx = (((((s.commitWrites cx).commitEffects cx).transfer cx).commitIssues cx).commitShows cx) ∧
    ((s.commit cx).task cx.p cx.t).flagged = ((s.commitWrites cx).task cx.p cx.t).flagged := by
  have hf : ((((((s.commitWrites cx).commitEffects cx).transfer cx).commitIssues cx).commitShows cx).task cx.p cx.t).flagged =
      ((s.commitWrites cx).task cx.p cx.t).flagged := by
    rw [Task.flagged_of_fixed (State.fixed_commitShows ..), Task.flagged_of_fixed (State.fixed_commitIssues ..),
      State.transfer_task Task.flagged_transferKeeps hs (fun _ => trivial), Task.flagged_of_fixed (State.fixed_commitEffects ..)]
  have hc := State.settle_staying ((congrArg Prod.fst hf).trans hl)
  rw [State.commit_eq, hc]
  exact ⟨rfl, hf⟩

/-! ## The block's flags -/

/-- The flags of one executed slot ORed in. -/
def Task.orFlags (t : Task) (r : SlotRec) : Task :=
  { t with
    fctl := t.fctl ||| (((r.flags.zeroExtend 9 : BitVec 9)) <<< 3) ||| (if r.idz then (0x100 : BitVec 9) else 0)
    sigctl := if r.siglost then t.sigctl ||| 0x80 else t.sigctl
    smiss := t.smiss || r.smiss
    acq := t.acq ||| r.acq }

/-- The executed slots of a block. -/
def Block.done (b : Block) : List SlotRec := b.slots.filter (fun r => r.st == .done)

theorem Task.writeFlags_eq (t : Task) (b : Block) : t.writeFlags b = b.done.foldl Task.orFlags t := by
  unfold Task.writeFlags Block.done
  rw [List.foldl_filter]
  congr 1
  funext t r
  cases r.st <;> rfl

theorem Task.orFlags_fctl (t : Task) (r : SlotRec) (i : Nat) (hi : i < 9) : (t.orFlags r).fctl.getLsbD i =
    (t.fctl.getLsbD i || (if i < 3 then false else if i = 8 then r.idz else r.flags.getLsbD (i - 3))) := by
  simp only [Task.orFlags]
  cases r.idz <;> interval_cases i <;> simp

theorem Task.orFlags_sigctl (t : Task) (r : SlotRec) : (t.orFlags r).sigctl.getLsbD 7 = (t.sigctl.getLsbD 7 || r.siglost) ∧
    (t.orFlags r).sigctl.extractLsb' 0 7 = t.sigctl.extractLsb' 0 7 := by
  simp only [Task.orFlags]
  cases r.siglost
  · simp
  · constructor
    · simp
    · apply BitVec.eq_of_getLsbD_eq
      intro i hi
      interval_cases i <;> simp

/-- Every sticky bit after the flags of a block: as before, or set by an executed slot (R39, R49, R96, R101, R201). -/
theorem Task.writeFlags_fctl (t : Task) (b : Block) :
    (∀ i < 5, (t.writeFlags b).fctl.getLsbD (3 + i) = (t.fctl.getLsbD (3 + i) || b.done.any (fun r => r.flags.getLsbD i))) ∧
    (t.writeFlags b).fctl.getLsbD 8 = (t.fctl.getLsbD 8 || b.done.any (fun r => r.idz)) ∧
    (t.writeFlags b).fctl.extractLsb' 0 3 = t.fctl.extractLsb' 0 3 := by
  have bit : ∀ i < 9, (t.writeFlags b).fctl.getLsbD i =
      (t.fctl.getLsbD i || b.done.any (fun r => if i < 3 then false else if i = 8 then r.idz else r.flags.getLsbD (i - 3))) := by
    intro i hi
    rw [Task.writeFlags_eq]
    exact foldl_or (g := fun t => t.fctl.getLsbD i) (fun t r => Task.orFlags_fctl t r i hi) b.done t
  refine ⟨fun i hi => ?_, ?_, ?_⟩
  · rw [bit (3 + i) (by omega)]
    simp only [show ¬3 + i < 3 by omega, show ¬3 + i = 8 by omega, if_false, Nat.add_sub_cancel_left]
  · exact bit 8 (by decide)
  · apply BitVec.eq_of_getLsbD_eq
    intro i hi
    simp [hi, bit i (by omega)]

theorem Task.writeFlags_sigctl (t : Task) (b : Block) :
    (t.writeFlags b).sigctl.getLsbD 7 = (t.sigctl.getLsbD 7 || b.done.any (fun r => r.siglost)) ∧
    (t.writeFlags b).sigctl.extractLsb' 0 7 = t.sigctl.extractLsb' 0 7 := by
  rw [Task.writeFlags_eq]
  exact ⟨foldl_or (g := fun t => t.sigctl.getLsbD 7) (fun t r => (Task.orFlags_sigctl t r).1) b.done t,
    foldl_keeps (fun t => t.sigctl.extractLsb' 0 7) _ _ (fun t r _ => (Task.orFlags_sigctl t r).2) t⟩

theorem Task.writeFlags_smiss (t : Task) (b : Block) : (t.writeFlags b).smiss = (t.smiss || b.done.any (fun r => r.smiss)) := by
  rw [Task.writeFlags_eq]
  exact foldl_or (g := Task.smiss) (fun _ _ => rfl) b.done t

/-- What the flags and the registers of a block leave alone. -/
def Task.plain (t : Task) : Leaving × BitVec 3 × BitVec 16 × BitVec 40 × BitVec 32 × BitVec 16 :=
  (t.leaving, t.pri, t.park, t.trapv, t.frame, t.wake)

theorem Task.plain_writeFlags (t : Task) (b : Block) : (t.writeFlags b).plain = t.plain := by
  rw [Task.writeFlags_eq]
  exact foldl_keeps Task.plain Task.orFlags _ (fun _ _ _ => rfl) t

/-- The results of a block reach registers alone, or wait (R177). -/
theorem Task.writeRegs_keeps {β : Type} (g : Task → β) (hr : ∀ (t : Task) x y z, g { t with regs := x, ops := y, heldWrites := z } = g t) (t : Task)
    (b : Block) : g (t.writeRegs b) = g t := by
  refine foldl_keeps g _ _ (fun t r _ => ?_) t
  split
  · split
    · rfl
    · unfold Task.writeReg
      split
      · exact hr t t.regs _ _
      · exact hr t _ t.ops t.heldWrites
  · rfl

/-! ## ACC forms at the commit -/

/-- An operation that ends changes of its task the registers, the operations and what waits for a register (R113, R177). -/
theorem Task.opEnds_keeps {β : Type} (g : Task → β) (hg : ∀ (t : Task) x y z, g { t with regs := x, ops := y, heldWrites := z } = g t) (t : Task)
    (o : Op) (late : Option Val) : g (t.opEnds o late) = g t := by
  unfold Task.opEnds
  split
  · rfl
  · extract_lets d u
    have hu : g u = g t := hg t _ _ t.heldWrites
    have hu2 : ∀ x y, g { u with regs := x, heldWrites := y } = g u := fun x y => hg u x u.ops y
    clear_value u
    split
    · exact hu
    · exact (hu2 _ _).trans hu

theorem Task.flagged_opEnds (t : Task) (o : Op) (late : Option Val) : (t.opEnds o late).flagged = t.flagged :=
  Task.opEnds_keeps Task.flagged (fun _ _ _ _ => rfl) t o late

theorem State.flagged_finishOp {s : State} {p k : Nat} (o : Op) (late : Option Val) (h : (s.task p k).leaving = .no) :
    ((s.finishOp p k o late).task p k).flagged = (s.task p k).flagged := by
  have key : ∀ x y, ((s.setTask p k { ((s.task p k).opEnds o late) with lateAt := x, strmAt := y }).task p k).flagged = (s.task p k).flagged := by
    intro x y
    rw [State.task_setTask]
    split
    · exact Task.flagged_opEnds (s.task p k) o late
    · rfl
  unfold State.finishOp
  dsimp only
  rw [State.settle_staying ((congrArg Prod.fst (key _ _)).trans h)]
  exact key _ _

/-- An ACC form that is no ACLR changes no system register of a task that stays. -/
theorem State.flagged_accEvent {s : State} {p k : Nat} {o : Op} (ho : ∀ a, o.act.kind ≠ .aclr a) (h : (s.task p k).leaving = .no) :
    ((s.accEvent p k o).task p k).flagged = (s.task p k).flagged := by
  unfold State.accEvent
  split
  · rfl
  · split
    · rename_i a e; exact absurd e (ho a)
    · exact State.flagged_finishOp o _ h
    · rfl

theorem State.flagged_commitAcc {s : State} {p k : Nat} {b : Block} (hb : ∀ x ∈ b.acts, ∀ a, x.2.kind ≠ .aclr a) (h : (s.task p k).leaving = .no) :
    ((s.commitAcc p k b).task p k).flagged = (s.task p k).flagged := by
  unfold State.commitAcc
  refine foldl_inv_mem (P := fun u : State => (u.task p k).flagged = (s.task p k).flagged) (fun u hu x hx => ?_) rfl
  split
  · rename_i o ho
    have hact : o.act = x.2 := by
      have := List.find?_some ho
      simp only [Bool.and_eq_true, beq_iff_eq] at this
      exact this.2
    rw [State.flagged_accEvent (fun a => hact ▸ hb x (List.mem_of_mem_filter hx) a) ((congrArg Prod.fst hu).trans h), hu]
  · exact hu

/-! ## The obligations -/

/-- A block that writes no system register writes its registers and flags alone. -/
theorem State.task_commitWrites {s : State} {cx : Cx} (ht : cx.t < 16) (hw : ∀ x ∈ cx.blk.acts, ∀ n a, x.2.kind ≠ .wrs n a) :
    (s.commitWrites cx).task cx.p cx.t =
      { (((s.task cx.p cx.t).writeRegs cx.blk).writeFlags cx.blk) with rwait := [], refault := none } := by
  have hfold : ∀ s : State, cx.blk.acts.foldl (fun s x => match x.2.kind with
      | .wrs n a => s.wrs cx.p cx.t n a
      | _ => s) s = s := by
    intro s
    refine foldl_keeps id _ _ (fun s x hx => ?_) s
    split
    · rename_i n a e; exact absurd e (hw x hx n a)
    · rfl
  unfold State.commitWrites
  rw [hfold, State.task_onTask, if_pos ⟨rfl, rfl, ht⟩, State.task_onTask, if_pos ⟨rfl, rfl, ht⟩, State.task_setHalf]

/-- Settles O11: the commit leaves the flags of its task as the block's writes left them, into which every executed slot has ORed its own. -/
theorem commitOrsFlags : Obligations.CommitOrsFlags := by
  intro s t p h cx hr hs hw
  obtain ⟨w, hv, he⟩ := exec_blockCommit hr
  obtain ⟨rfl, -, ht, htask, hleave, -⟩ := readyToCommit_cx hr
  obtain ⟨hendt, htrap, hacc⟩ := hs
  refine ⟨_, he, ?_⟩
  have hregs : ((w.task cx.p cx.t).writeRegs cx.blk).flagged = cx.task.flagged := by
    rw [Task.writeRegs_keeps Task.flagged (fun _ _ _ _ => rfl), task_of_view hv, htask]
  have hwr := State.task_commitWrites (s := w) ht hw
  have hl : ((w.commitWrites cx).task cx.p cx.t).leaving = .no := by
    rw [hwr]
    exact (congrArg Prod.fst (Task.plain_writeFlags _ _)).trans ((congrArg Prod.fst hregs).trans hleave)
  obtain ⟨-, hc⟩ := State.commit_flagged ⟨hendt, htrap⟩ hl
  have hfin := (State.flagged_commitAcc hacc ((congrArg Prod.fst hc).trans hl)).trans hc
  rw [hwr] at hfin
  simp only [Task.flagged, Prod.mk.injEq] at hfin hregs
  obtain ⟨-, hfctl, hsig, hmiss, -⟩ := hfin
  obtain ⟨-, rfctl, rsig, rmiss, -⟩ := hregs
  obtain ⟨f1, f2, f3⟩ := Task.writeFlags_fctl ((w.task cx.p cx.t).writeRegs cx.blk) cx.blk
  obtain ⟨g1, g2⟩ := Task.writeFlags_sigctl ((w.task cx.p cx.t).writeRegs cx.blk) cx.blk
  have m1 := Task.writeFlags_smiss ((w.task cx.p cx.t).writeRegs cx.blk) cx.blk
  rw [rfctl] at f1 f2 f3
  rw [rsig] at g1 g2
  rw [rmiss] at m1
  dsimp only
  rw [hfctl, hsig, hmiss, m1]
  refine ⟨f1, f2, f3, g1, g2, fun hor => ?_⟩
  rcases hor with hor | hor
  · rw [hor, Bool.true_or]
  · rw [show cx.blk.done.any (fun r => r.smiss) = true from hor, Bool.or_true]

end Sys2Proof.Machine
end

