-- ==== Sys2Proof/Proofs/SystemRegisters.lean ====
section
/-! PROOFS. What a WRS leaves in each system register that a task may write, SY.PMSEL and SY.PMVAL among them (R95 to R97, R347, R397). -/

namespace Sys2Proof.Machine

open Sys2Proof

/-! ## SY.PRI and SY.PMSEL, which nothing in a commit but a WRS or SPRI changes -/

/-- SY.PRI of every task and SY.PMSEL of every core. -/
def State.select (s : State) : (Nat → Nat → BitVec 3) × (Nat → BitVec 6) := (fun q j => (s.task q j).pri, fun q => (s.plot q).pmsel)

theorem State.select_onPlot (s : State) (p : Nat) {f : Plot → Plot} (ht : ∀ x, (f x).tasks = x.tasks) (hm : ∀ x, (f x).pmsel = x.pmsel) :
    (s.onPlot p f).select = s.select := by
  refine Prod.ext (funext (fun q => funext (fun j => ?_))) (funext (fun q => State.onPlot_keeps Plot.pmsel s p q hm))
  exact congrArg Task.pri (State.task_onPlot s p q j f ht)

theorem State.pmsel_onTask (s : State) (p k q : Nat) (f : Task → Task) : ((s.onTask p k f).plot q).pmsel = (s.plot q).pmsel :=
  State.onPlot_keeps Plot.pmsel s p q (fun _ => rfl)

theorem State.select_onTask (s : State) (p k : Nat) {f : Task → Task} (hf : ∀ t, (f t).pri = t.pri) : (s.onTask p k f).select = s.select := by
  refine Prod.ext (funext (fun q => funext (fun j => State.onTask_keeps Task.pri s p k q j f hf))) (funext (fun q => State.pmsel_onTask s p k q f))

theorem select_of_still {s t : State} (h : s.still = t.still) : s.select = t.select := by
  refine Prod.ext (funext (fun q => funext (fun j => ?_))) (funext (fun q => congrArg (fun v => (v.plots q).pmsel) h))
  exact show (s.task q j).still.pri = (t.task q j).still.pri from congrArg Task.pri (task_still_of_still h q j)

theorem State.select_ready (s : State) (p k : Nat) : (s.ready p k).select = s.select :=
  select_of_still (State.still_ready s p k)

theorem State.select_abortOther (s : State) (p k : Nat) (h : Bool) (b : Block) : (s.abortOther p k h b).select = s.select :=
  select_of_still (State.still_abortOther s p k h b)

theorem State.select_bump (s : State) (p i n : Nat) : (s.bump p i n).select = s.select :=
  select_of_still (State.still_bump s p i n)

theorem State.select_setRill (s : State) (p e : Nat) (r : Rill) : (s.setRill p e r).select = s.select :=
  State.select_onPlot s p (fun _ => rfl) (fun _ => rfl)

theorem State.select_giveBack (s : State) (p e : Nat) (b : Bool) (n : Nat) : (s.giveBack p e b n).select = s.select := by
  unfold State.giveBack
  split
  · rfl
  · split
    · exact State.select_setRill ..
    · rfl

theorem State.select_absorb (s : State) (p e : Nat) : (s.absorb p e).select = s.select := by
  unfold State.absorb
  dsimp only
  split
  · rfl
  · split
    · rfl
    · rw [State.select_giveBack, State.select_setRill]

theorem State.select_popRill (s : State) (p e : Nat) : (s.popRill p e).select = s.select := by
  unfold State.popRill
  dsimp only
  split
  · rfl
  · rw [State.select_bump, State.select_absorb]
    split
    · rw [State.select_setRill]
    · rw [State.select_giveBack, State.select_setRill]

theorem State.select_pops (s : State) (p : Nat) (b : Block) : (s.pops p b).select = s.select := by
  unfold State.pops
  refine foldl_keeps State.select _ _ (fun s r _ => ?_) s
  split
  · exact State.select_popRill ..
  · exact (State.select_bump ..).trans (State.select_setRill ..)
  · exact (State.select_bump ..).trans (State.select_onPlot s p (fun _ => rfl) (fun _ => rfl))
  · rfl

theorem Task.pri_causeStrm (t : Task) (w : BitVec 64) : ({ t with causeStrm := w } : Task).pri = t.pri := rfl

theorem State.select_showTask (s : State) (p k : Nat) : (s.showTask p k).select = s.select :=
  State.select_onTask s p k (fun _ => rfl)

theorem State.select_commitShows (s : State) (cx : Cx) : (s.commitShows cx).select = s.select := by
  unfold State.commitShows
  rw [State.select_showTask]
  split
  · rfl
  · exact State.select_onTask s cx.p cx.t (fun t => Task.pri_causeStrm t t.strmWord)

theorem State.select_transfer {s : State} {cx : Cx} (hs : cx.blk.branch ≠ some .endt ∧ ∀ n, cx.blk.branch ≠ some (.trap n)) :
    (s.transfer cx).select = s.select :=
  State.transfer_keeps State.select hs (fun s => State.select_ready s _ _) (fun s => State.select_onTask s _ _ (fun _ => rfl))
    (fun s _ => State.select_onTask s _ _ (fun _ => rfl)) (fun s _ => State.select_onTask s _ _ (fun _ => rfl))
    (fun _ s _ => State.select_onTask s _ _ (fun _ => rfl)) (fun _ _ s => State.select_onTask s _ _ (fun _ => rfl))

/-! ## A block whose one act takes effect at the commit alone -/

/-- An act that is neither issued nor an effect on a unit: a WRS. -/
theorem State.commitEffects_wrs {s : State} {cx : Cx} {k n : Nat} {a : BitVec 64} (ha : cx.blk.acts = [(k, { kind := .wrs n a })]) :
    s.commitEffects cx = (((s.pops cx.p cx.blk).bump cx.p 1 1).bump cx.p (32 + cx.t) 1).bump cx.p 13 0 := by
  unfold State.commitEffects
  rw [ha]
  rfl

theorem State.commitIssues_wrs {s : State} {cx : Cx} {k n : Nat} {a : BitVec 64} (ha : cx.blk.acts = [(k, { kind := .wrs n a })]) :
    s.commitIssues cx = (s.onTask cx.p cx.t Task.haltDeps).abortOther cx.p cx.t cx.half cx.blk := by
  unfold State.commitIssues
  rw [ha]
  rfl

theorem State.commitAcc_wrs {s : State} {p j : Nat} {b : Block} {k n : Nat} {a : BitVec 64} (ha : b.acts = [(k, { kind := .wrs n a })]) :
    s.commitAcc p j b = s := by
  unfold State.commitAcc
  rw [ha]
  rfl

theorem State.commitWrites_wrs {s : State} {cx : Cx} {k n : Nat} {a : BitVec 64} (ha : cx.blk.acts = [(k, { kind := .wrs n a })]) :
    s.commitWrites cx = (((s.setHalf cx.p cx.half {}).onTask cx.p cx.t (fun t => t.writeRegs cx.blk)).wrs cx.p cx.t n a).onTask cx.p cx.t
      (fun t => { (t.writeFlags cx.blk) with rwait := [], refault := none }) := by
  unfold State.commitWrites
  rw [ha]
  rfl

/-- What a WRS leaves of its task, in the die cycle `now`. -/
def Task.wrsAt (t : Task) (now : BitVec 64) (n : Nat) (a : BitVec 64) : Task :=
  if n = 0x101 ∨ n = 0x102 then t else if n = 0x006 then t.wrsMiss now a else if n = 0x010 then t.wrsWake now a else t.wrs n a

theorem State.task_wrs (s : State) (p n : Nat) {k : Nat} (a : BitVec 64) (hk : k < 16) :
    (s.wrs p k n a).task p k = (s.task p k).wrsAt (s.cycOf p) n a := by
  unfold State.wrs
  split
  · exact State.task_onPlot s p p k _ (fun _ => rfl)
  · exact State.task_onPlot s p p k _ (fun _ => by split <;> rfl)
  · rw [State.task_onTask, if_pos ⟨rfl, rfl, hk⟩]
    rfl
  · rw [State.task_onTask, if_pos ⟨rfl, rfl, hk⟩]
    rfl
  · rename_i h1 h2 h3 h4
    rw [State.task_onTask, if_pos ⟨rfl, rfl, hk⟩, Task.wrsAt, if_neg (fun h => h.elim h1 h2), if_neg h3, if_neg h4]

/-- No WRS changes what its task is leaving for. -/
theorem Task.leaving_wrs (t : Task) (n : Nat) (a : BitVec 64) : (t.wrs n a).leaving = t.leaving := by
  unfold Task.wrs
  split <;> rfl

theorem Task.leaving_wrsAt (t : Task) (now : BitVec 64) (n : Nat) (a : BitVec 64) : (t.wrsAt now n a).leaving = t.leaving := by
  unfold Task.wrsAt Task.wrsMiss Task.wrsWake
  split
  · rfl
  · split
    · split
      · rfl
      · exact Task.leaving_wrs ..
    · split
      · exact Task.leaving_wrs ..
      · exact Task.leaving_wrs ..

/-! ## The committed task -/

/-- What a write of registers leaves of what a WRS reads. -/
def Task.sys (t : Task) : Leaving × BitVec 9 × BitVec 8 × Bool × BitVec 40 × BitVec 16 × Option (BitVec 64) × BitVec 64 × BitVec 16 :=
  (t.leaving, t.fctl, t.sigctl, t.smiss, t.trapv, t.wake, t.smissAt, t.wakeCyc, t.wakeNew)

/-- The task that a WRS has written, before the block's flags. -/
def Task.written (t : Task) (b : Block) (now : BitVec 64) (n : Nat) (a : BitVec 64) : Task := (t.writeRegs b).wrsAt now n a

theorem State.task_commitWrites_wrs {s : State} {cx : Cx} {k n : Nat} {a : BitVec 64} (ht : cx.t < 16)
    (ha : cx.blk.acts = [(k, { kind := .wrs n a })]) : (s.commitWrites cx).task cx.p cx.t =
      { (((s.task cx.p cx.t).written cx.blk (s.cycOf cx.p) n a).writeFlags cx.blk) with rwait := [], refault := none } := by
  rw [State.commitWrites_wrs ha, State.task_onTask, if_pos ⟨rfl, rfl, ht⟩, State.task_wrs _ _ _ _ ht, State.task_onTask, if_pos ⟨rfl, rfl, ht⟩,
    State.task_setHalf]
  rfl

/-- The committed task of a block whose one act is a WRS: what its WRS wrote, with the flags ORed in after it (R96). -/
theorem State.commit_wrs {w : State} {cx : Cx} {k n : Nat} {a : BitVec 64} (ht : cx.t < 16) (ha : cx.blk.acts = [(k, { kind := .wrs n a })])
    (hs : cx.blk.branch ≠ some .endt ∧ ∀ n, cx.blk.branch ≠ some (.trap n)) (hl : (w.task cx.p cx.t).leaving = .no) :
    let v := (w.commit cx).task cx.p cx.t
    let x := ((w.task cx.p cx.t).written cx.blk (w.cycOf cx.p) n a).writeFlags cx.blk
    v.flagged = x.flagged ∧ (w.commit cx).select = (w.commitWrites cx).select ∧ v.pri = x.pri ∧
    (cx.blk.branch ≠ some .tret → (∀ b, cx.blk.branch ≠ some (.tretAt b)) → v.trapv = x.trapv) ∧
    w.commit cx = ((((w.commitWrites cx).commitEffects cx).transfer cx).commitIssues cx).commitShows cx := by
  intro v x
  have hw := State.task_commitWrites_wrs (s := w) ht ha
  have hlx : x.leaving = .no := by
    refine (congrArg Prod.fst (Task.plain_writeFlags _ _)).trans ?_
    refine (Task.leaving_wrsAt ..).trans ?_
    exact (Task.writeRegs_keeps Task.leaving (fun _ _ _ _ => rfl) _ _).trans hl
  obtain ⟨hc, hf⟩ := State.commit_flagged hs (by rw [hw]; exact hlx)
  have hsel : (w.commit cx).select = (w.commitWrites cx).select := by
    rw [hc, State.select_commitShows, State.commitIssues_wrs ha, State.select_abortOther, State.select_onTask (f := Task.haltDeps) _ _ _ (fun _ => rfl),
      State.select_transfer hs, State.commitEffects_wrs ha, State.select_bump, State.select_bump, State.select_bump, State.select_pops]
  refine ⟨hf.trans (by rw [hw]; rfl), hsel, ?_, fun h1 h2 => ?_, hc⟩
  · refine (congrFun (congrFun (congrArg Prod.fst hsel) cx.p) cx.t).trans ?_
    change ((w.commitWrites cx).task cx.p cx.t).pri = _
    rw [hw]
  · have trapv_of_fixed : ∀ {t u : Task}, t.fixed = u.fixed → t.trapv = u.trapv := fun h => congrArg (fun y => y.2.2.2.2.1) h
    change ((w.commit cx).task cx.p cx.t).trapv = _
    rw [hc, trapv_of_fixed (State.fixed_commitShows ..), trapv_of_fixed (State.fixed_commitIssues ..),
      State.transfer_task Task.trapv_transferKeeps hs (fun h => h.elim (fun h => h1 h) (fun ⟨b, h⟩ => h2 b h)),
      trapv_of_fixed (State.fixed_commitEffects ..), hw]

/-! ## The performance counters -/

/-- A core's counters, with SY.PMSEL. -/
def Plot.perfs (x : Plot) : BitVec 6 × SMap (BitVec 64) × BitVec 64 × SMap (BitVec 64) := (x.pmsel, x.perf, x.perfCyc, x.perfNew)

/-- The counters of every core, with the dies, whose cycles they count. -/
def State.tally (s : State) : (Nat → BitVec 6 × SMap (BitVec 64) × BitVec 64 × SMap (BitVec 64)) × SMap Die := (fun q => (s.plot q).perfs, s.dies)

theorem State.tally_onPlot (s : State) (p : Nat) {f : Plot → Plot} (hf : ∀ x, (f x).perfs = x.perfs) : (s.onPlot p f).tally = s.tally :=
  Prod.ext (funext (fun q => State.onPlot_keeps Plot.perfs s p q hf)) rfl

theorem State.tally_onTask (s : State) (p k : Nat) (f : Task → Task) : (s.onTask p k f).tally = s.tally := State.tally_onPlot s p (fun _ => rfl)

theorem State.tally_ready (s : State) (p k : Nat) : (s.ready p k).tally = s.tally :=
  State.tally_onTask s p k (fun t => { t.queued (s.cycOf p) s.uid with st := .ready, wait := .none })

theorem State.tally_transfer {s : State} {cx : Cx} (hs : cx.blk.branch ≠ some .endt ∧ ∀ n, cx.blk.branch ≠ some (.trap n)) :
    (s.transfer cx).tally = s.tally :=
  State.transfer_keeps State.tally hs (fun s => State.tally_ready s ..) (fun s => State.tally_onTask s ..) (fun s _ => State.tally_onTask s ..)
    (fun s _ => State.tally_onTask s ..) (fun _ s _ => State.tally_onTask s ..) (fun _ _ s => State.tally_onTask s ..)

theorem State.tally_commitShows (s : State) (cx : Cx) : (s.commitShows cx).tally = s.tally := by
  unfold State.commitShows State.showTask
  rw [State.tally_onTask]
  split
  · rfl
  · exact State.tally_onTask ..

theorem State.pops_none {s : State} {p : Nat} {b : Block} (h : ∀ r ∈ b.slots, r.pop = none) : s.pops p b = s := by
  refine foldl_keeps id _ _ (fun s r hr => ?_) s
  rw [h r hr]
  cases r.st <;> rfl

theorem State.abortOther_none {s : State} {p k : Nat} {h : Bool} {b : Block} (hp : ∀ r ∈ b.slots, r.pop = none) : s.abortOther p k h b = s := by
  unfold State.abortOther
  dsimp only
  split
  · rw [if_neg]
    simp only [Bool.and_eq_true, List.any_eq_true, not_and, not_exists]
    intro _ r _
    split
    · simp only [List.any_eq_true, not_exists, not_and]
      intro r2 hr2
      rw [hp r2 hr2]
      simp
    · simp
  · rfl

/-- An event counted adds to its counter alone. -/
theorem Plot.counter_count (x : Plot) (now cyc : BitVec 64) (i n j : Nat) :
    (x.count now i n).counter cyc j = x.counter cyc j + if j = i then BitVec.ofNat 64 n else 0 := by
  unfold Plot.counter Plot.count
  rw [SMap.get_put]
  split
  · rename_i h
    rw [h]
    bv_omega
  · simp

theorem State.counter_bump (s : State) (p i n j : Nat) (cyc : BitVec 64) (hi : i < 48) :
    ((s.bump p i n).plot p).counter cyc j = (s.plot p).counter cyc j + if j = i then BitVec.ofNat 64 n else 0 := by
  rw [State.bump, if_pos hi, State.plot_onPlot_same, Plot.counter_count]

/-- A counter written reads as the value, with the events that the cycle has counted (R397). -/
theorem Plot.counter_setCounter (x : Plot) (cyc : BitVec 64) (i j : Nat) (v : BitVec 64) : (x.setCounter cyc i v).counter cyc j =
    if j = i then v + (if x.perfCyc = cyc then x.perfNew.get i 0 else 0) else x.counter cyc j := by
  unfold Plot.counter Plot.setCounter
  rw [SMap.get_put]
  split
  · rename_i h
    rw [h, BitVec.sub_add_cancel]
  · rfl

theorem counter_of_tally {s t : State} (h : s.tally = t.tally) (p : Nat) (cyc : BitVec 64) (j : Nat) :
    (s.plot p).counter cyc j = (t.plot p).counter cyc j := by
  have e : (s.plot p).perf = (t.plot p).perf := congrArg (fun v => v.2.1) (congrFun (congrArg Prod.fst h) p)
  rw [Plot.counter, Plot.counter, e]

/-- The counters after a commit whose one act stores into SY.PMVAL: what it stored, and the blocks committed (R397). -/
theorem State.commit_counter {w : State} {cx : Cx} {k : Nat} {a : BitVec 64} (ht : cx.t < 16) (ha : cx.blk.acts = [(k, { kind := .wrs 0x102 a })])
    (hs : cx.blk.branch ≠ some .endt ∧ ∀ n, cx.blk.branch ≠ some (.trap n)) (hl : (w.task cx.p cx.t).leaving = .no)
    (hp : ∀ r ∈ cx.blk.slots, r.pop = none) (j : Nat) :
    let x := w.plot cx.p
    let cyc := w.cycOf cx.p
    ((w.commit cx).plot cx.p).counter cyc j =
      (if j = x.pmsel.toNat ∧ x.pmsel.toNat < 48 then a + (if x.perfCyc = cyc then x.perfNew.get j 0 else 0) else x.counter cyc j) +
        (if j = 1 then 1 else 0) + (if j = 32 + cx.t then 1 else 0) := by
  intro x cyc
  obtain ⟨-, -, -, -, hc⟩ := State.commit_wrs ht ha hs hl
  have htal : (w.commit cx).tally = ((w.commitWrites cx).commitEffects cx).tally := by
    rw [hc, State.tally_commitShows, State.commitIssues_wrs ha, State.abortOther_none hp, State.tally_onTask, State.tally_transfer hs]
  have h0 : ((w.setHalf cx.p cx.half {}).onTask cx.p cx.t (fun t => t.writeRegs cx.blk)).tally = w.tally := by
    rw [State.tally_onTask]
    exact State.tally_onPlot w cx.p (fun y => by cases cx.half <;> rfl)
  rw [counter_of_tally htal, State.commitEffects_wrs ha, State.pops_none hp, State.counter_bump _ _ _ _ _ _ (by decide),
    State.counter_bump _ _ _ _ _ _ (by omega), State.counter_bump _ _ _ _ _ _ (by decide), State.commitWrites_wrs ha,
    counter_of_tally (State.tally_onTask ..)]
  generalize hw0 : (w.setHalf cx.p cx.half {}).onTask cx.p cx.t (fun t => t.writeRegs cx.blk) = w0 at h0
  have hperf : (w0.plot cx.p).perfs = x.perfs := congrFun (congrArg Prod.fst h0) cx.p
  have hcyc : w0.cycOf cx.p = cyc := by
    have : w0.dies = w.dies := congrArg Prod.snd h0
    simp only [cyc, State.cycOf, State.die, this]
  simp only [Plot.perfs, Prod.mk.injEq] at hperf
  obtain ⟨hsel, hpf, hpc, hpn⟩ := hperf
  have hval : ((w0.wrs cx.p cx.t 0x102 a).plot cx.p).counter cyc j =
      if j = x.pmsel.toNat ∧ x.pmsel.toNat < 48 then a + (if x.perfCyc = cyc then x.perfNew.get j 0 else 0) else x.counter cyc j := by
    have hother : (w0.plot cx.p).counter cyc j = x.counter cyc j := by rw [Plot.counter, Plot.counter, hpf]
    change ((w0.onPlot cx.p _).plot cx.p).counter cyc j = _
    rw [State.plot_onPlot_same, hsel, hcyc]
    by_cases h48 : x.pmsel.toNat < 48
    · rw [if_pos h48, Plot.counter_setCounter, hother, hpc, hpn]
      by_cases hj : j = x.pmsel.toNat
      · rw [if_pos hj, if_pos (show j = x.pmsel.toNat ∧ x.pmsel.toNat < 48 from ⟨hj, h48⟩), hj]
      · rw [if_neg hj, if_neg (fun h => hj h.1)]
    · rw [if_neg h48, if_neg (fun h => h48 h.2), hother]
  rw [hval]
  simp

/-! ## The obligation -/

/-- The bits of a system register's new value (R95 to R97). -/
theorem wrs_fctl (a : BitVec 64) : let x : BitVec 9 := a.extractLsb' 3 6 ++ (if a.extractLsb' 0 3 ≤ 4 then a.extractLsb' 0 3 else 0)
    (∀ i < 6, x.getLsbD (3 + i) = a.getLsbD (3 + i)) ∧ x.extractLsb' 0 3 = if (a.extractLsb' 0 3).toNat ≤ 4 then a.extractLsb' 0 3 else 0 := by
  have le_iff : (a.extractLsb' 0 3 ≤ 4) ↔ (a.extractLsb' 0 3).toNat ≤ 4 := BitVec.le_def
  simp only [le_iff]
  generalize (if (a.extractLsb' 0 3).toNat ≤ 4 then a.extractLsb' 0 3 else 0) = y
  refine ⟨fun i hi => (BitVec.getLsbD_append ..).trans ?_, BitVec.eq_of_getLsbD_eq (fun i hi => ?_)⟩
  · simp [hi]
  · rw [BitVec.getLsbD_extractLsb', decide_eq_true hi, Bool.true_and, Nat.zero_add]
    exact (BitVec.getLsbD_append ..).trans (if_pos hi)

theorem wrs_sigctl (s : BitVec 8) (a : BitVec 64) : let x : BitVec 8 := (s.extractLsb' 7 1 &&& ~~~(a.extractLsb' 7 1)) ++ a.extractLsb' 0 7
    x.extractLsb' 0 7 = a.extractLsb' 0 7 ∧ x.getLsbD 7 = (s.getLsbD 7 && !a.getLsbD 7) := by
  refine ⟨BitVec.eq_of_getLsbD_eq (fun i hi => ?_), (BitVec.getLsbD_append ..).trans ?_⟩
  · rw [BitVec.getLsbD_extractLsb', decide_eq_true hi, Bool.true_and, Nat.zero_add]
    exact (BitVec.getLsbD_append ..).trans (if_pos hi)
  · simp

theorem wrs_trapv (v : BitVec 40) (a : BitVec 64) :
    let x : BitVec 40 := (a.extractLsb' 0 40 &&& ~~~7) ||| (a.extractLsb' 0 40 &&& 2) ||| (v &&& 1)
    x.extractLsb' 3 37 = a.extractLsb' 3 37 ∧ x.getLsbD 1 = a.getLsbD 1 ∧ x.getLsbD 0 = v.getLsbD 0 ∧ x.getLsbD 2 = false := by
  intro x
  refine ⟨?_, ?_, ?_, ?_⟩
  · have h7 : (~~~7 : BitVec 40).extractLsb' 3 37 = BitVec.allOnes 37 := by decide
    have h2 : (2 : BitVec 40).extractLsb' 3 37 = 0#37 := by decide
    have h1 : (1 : BitVec 40).extractLsb' 3 37 = 0#37 := by decide
    have ha : (a.extractLsb' 0 40).extractLsb' 3 37 = a.extractLsb' 3 37 := by
      apply BitVec.eq_of_getLsbD_eq
      intro i hi
      simp [hi]
    simp only [x, BitVec.extractLsb'_or, BitVec.extractLsb'_and, h7, h2, h1, ha, BitVec.and_allOnes, BitVec.and_zero, BitVec.or_zero]
  · simp [x]
  · simp [x]
  · simp [x]

/-- The registers that the flags do not touch, as a WRS leaves them. -/
theorem Task.written_sys (t : Task) (b : Block) (now : BitVec 64) (n : Nat) (a : BitVec 64) :
    let x := t.written b now n a
    (n = 0x002 → x.pri = a.extractLsb' 0 3) ∧
    (n = 0x003 → x.fctl = a.extractLsb' 3 6 ++ (if a.extractLsb' 0 3 ≤ 4 then a.extractLsb' 0 3 else 0)) ∧
    (n = 0x004 → x.sigctl = (t.sigctl.extractLsb' 7 1 &&& ~~~(a.extractLsb' 7 1)) ++ a.extractLsb' 0 7) ∧
    (n = 0x006 → x.smiss = (t.smiss && (!a.getLsbD 0 || t.smissAt == some now))) ∧
    (n = 0x007 → x.park = a.extractLsb' 0 16) ∧
    (n = 0x008 → x.trapv = (a.extractLsb' 0 40 &&& ~~~7) ||| (a.extractLsb' 0 40 &&& 2) ||| (t.trapv &&& 1)) ∧
    (n = 0x009 → x.frame = a.extractLsb' 8 32) ∧
    (n = 0x010 → x.wake = t.wake &&& ~~~(a.extractLsb' 0 16 &&& ~~~(if t.wakeCyc = now then t.wakeNew else 0))) := by
  have hsys : (t.writeRegs b).sys = t.sys := Task.writeRegs_keeps Task.sys (fun _ _ _ _ => rfl) t b
  simp only [Task.sys, Prod.mk.injEq] at hsys
  obtain ⟨-, -, hsig, hmiss, htrapv, hwake, hat, hcyc, hnew⟩ := hsys
  refine ⟨?_, ?_, ?_, ?_, ?_, ?_, ?_, ?_⟩ <;> rintro rfl
  · rfl
  · rfl
  · rw [← hsig]
    rfl
  · rw [← hmiss, ← hat]
    change (Task.wrsMiss _ now a).smiss = _
    unfold Task.wrsMiss
    split
    · rename_i h
      rw [h, Bool.or_true, Bool.and_true]
    · rename_i h
      rw [Bool.eq_false_iff.2 h, Bool.or_false]
      rfl
  · rfl
  · rw [← htrapv]
    rfl
  · rfl
  · rw [← hwake, ← hcyc, ← hnew]
    change (t.writeRegs b).wake &&& ~~~((a &&& ~~~(if (t.writeRegs b).wakeCyc == now then (t.writeRegs b).wakeNew.zeroExtend 64 else 0)).extractLsb' 0 16) = _
    have e : ∀ c : BitVec 64, (a &&& ~~~c).extractLsb' 0 16 = a.extractLsb' 0 16 &&& ~~~(c.extractLsb' 0 16) := fun c => by
      apply BitVec.eq_of_getLsbD_eq
      intro i hi
      simp [hi, show i < 64 by omega]
    rw [e]
    simp only [beq_iff_eq]
    split
    · congr 4
      apply BitVec.eq_of_getLsbD_eq
      intro i hi
      simp [hi, show i < 64 by omega]
    · rfl

/-- Settles O12: the task is left with what its WRS wrote and the flags ORed in after it; the rest of the commit touches no register named here. -/
theorem commitWritesSystemRegister : Obligations.CommitWritesSystemRegister := by
  intro s t p h cx k n a hr hs ha
  obtain ⟨w, hv, he⟩ := exec_blockCommit hr
  obtain ⟨rfl, -, ht, htask, hleave, hcyc⟩ := readyToCommit_cx hr
  obtain ⟨hendt, htrap, -⟩ := hs
  have hwt : w.task cx.p cx.t = cx.task := (task_of_view hv ..).trans htask.symm
  have hwcyc : w.cycOf cx.p = t.cycOf cx.p := cycOf_of_view hv cx.p
  rw [State.commitAcc_wrs ha] at he
  refine ⟨_, he, ?_⟩
  have hl : (w.task cx.p cx.t).leaving = .no := by rw [hwt, hleave]
  obtain ⟨hf, hsel, hpri, htrapv, -⟩ := State.commit_wrs ht ha ⟨hendt, htrap⟩ hl
  rw [hwt, hwcyc, hcyc] at hf hpri htrapv
  set x := cx.task.written cx.blk (s.cycOf cx.p) n a with hx
  obtain ⟨w2, w3, w4, w6, w7, w8, w9, w10⟩ := Task.written_sys cx.task cx.blk (s.cycOf cx.p) n a
  obtain ⟨f1, f2, f3⟩ := Task.writeFlags_fctl x cx.blk
  obtain ⟨g1, g2⟩ := Task.writeFlags_sigctl x cx.blk
  have m1 := Task.writeFlags_smiss x cx.blk
  have pl := Task.plain_writeFlags x cx.blk
  simp only [Task.flagged, Prod.mk.injEq] at hf
  obtain ⟨-, hfctl, hsig, hmiss, hpark, hframe, hwake⟩ := hf
  simp only [Task.plain, Prod.mk.injEq] at pl
  obtain ⟨-, ppri, ppark, ptrapv, pframe, pwake⟩ := pl
  refine ⟨fun hn => ?_, fun hn => ?_, fun hn => ?_, fun hn => ?_, fun hn => ?_, fun hn h1 h2 => ?_, fun hn => ?_, fun hn => ?_, fun hn => ?_, ?_⟩
  · rw [hpri, ppri, hx, w2 hn]
  · obtain ⟨b1, b2⟩ := wrs_fctl a
    rw [hfctl]
    rw [hx, w3 hn] at f1 f2 f3
    exact ⟨fun i hi => by rw [hx, f1 i hi, b1 i (by omega)]; rfl, by rw [hx, f2, b1 5 (by omega)]; rfl, by rw [hx, f3, b2]⟩
  · obtain ⟨b1, b2⟩ := wrs_sigctl cx.task.sigctl a
    rw [hsig]
    rw [hx, w4 hn] at g1 g2
    exact ⟨by rw [hx, g2, b1], by rw [hx, g1, b2]; rfl⟩
  · rw [hmiss, m1, hx, w6 hn]
    rfl
  · rw [hpark, ppark, hx, w7 hn]
  · rw [htrapv h1 h2, ptrapv, hx, w8 hn]
    exact wrs_trapv cx.task.trapv a
  · rw [hframe, pframe, hx, w9 hn]
  · rw [hwake, pwake, hx, w10 hn]
  · subst hn
    refine (congrFun (congrArg Prod.snd hsel) cx.p).trans ?_
    change ((w.commitWrites cx).plot cx.p).pmsel = _
    rw [State.commitWrites_wrs ha, State.pmsel_onTask]
    exact congrArg Plot.pmsel (State.plot_onPlot_same _ cx.p _)
  · intro i value hn hp
    subst hn
    have hcount := State.commit_counter ht ha ⟨hendt, htrap⟩ hl hp
    have hplot := plot_view_of_view hv cx.p
    simp only [Plot.view, Prod.mk.injEq] at hplot
    obtain ⟨-, -, hm, hperf, hpc, hpn⟩ := hplot
    have hkeep : ∀ j, (w.plot cx.p).counter (t.cycOf cx.p) j = value t j := fun j => by simp only [value, Plot.counter, hperf]
    simp only [hwcyc, hkeep] at hcount
    rw [hm, hpc, hpn] at hcount
    refine ⟨fun hi => ?_, fun j h0 h1 h2 => ?_⟩
    · refine (hcount i).trans ?_
      rw [if_pos ⟨rfl, hi⟩]
      by_cases h1 : i = 1
      · simp [h1, show ¬(1 = 32 + cx.t) by omega]
      · simp [h1]
    · refine (hcount j).trans ?_
      rw [if_neg (fun h => h0 h.2 h.1), if_neg h1, if_neg h2]
      simp

end Sys2Proof.Machine
end

