-- ==== Sys2Proof/Proofs/OperationEnds.lean ====
section
/-! PROOFS. How an issued operation that performs ends: as performed, with a late result, or with a deferred fault (R176, R177, R194). -/

namespace Sys2Proof.Machine

open Sys2Proof

/-! ## COMMIT_OP_PERFORM -/

/-- An operation that may perform, and is no access to memory of its own, does its own event. -/
theorem exec_perform {s : State} {p k pick : Nat} {o : Op} (h : s.performs p k o) (hm : o.act.kind.isMem = false) :
    exec (.commitOpPerform p k o.serial pick) s = .next (s.performAt p k o pick) := by
  obtain ⟨-, hc, hop, hd, -, -, hacq⟩ := h
  have ho : ({ o with acq := false } : Op) = o := by rw [← hacq]
  change execCommitOpPerform p k o.serial pick s = _
  simp only [execCommitOpPerform, hop, hc, hd, Bool.and_self, if_true, State.perform, hm, State.acquireOnce, hacq, Bool.false_eq_true, if_false, ho]

theorem does_of_performAt {s u : State} {p k pick : Nat} {o : Op} {f : State → Prop} (h : s.performs p k o) (hm : o.act.kind.isMem = false)
    (hu : s.performAt p k o pick = u) (hf : f u) : s.does p k o pick f :=
  ⟨u, by rw [exec_perform h hm, hu], hf⟩

theorem exactly_of_performAt {s u : State} {p k pick : Nat} {o : Op} (h : s.performs p k o) (hm : o.act.kind.isMem = false)
    (hu : s.performAt p k o pick = u) : exec (.commitOpPerform p k o.serial pick) s = .next u := by rw [exec_perform h hm, hu]

/-! ## The task of an operation that has ended -/

theorem Op.same_iff (o q : Op) : o.same q = true ↔ q.serial = o.serial ∧ q.act = o.act := by
  simp [Op.same]

theorem Task.ops_opEnds (t : Task) (o : Op) (late : Option Val) : (t.opEnds o late).ops = t.ops.filter (fun q => !o.same q) := by
  unfold Task.opEnds
  split
  · rename_i h
    exact (List.filter_eq_self.2 (fun q hq => by simpa using List.find?_eq_none.1 h q hq)).symm
  · extract_lets d u
    split <;> rfl

theorem Task.over_opEnds (t : Task) (o : Op) (late : Option Val) : ∀ q ∈ (t.opEnds o late).ops, ¬(q.serial = o.serial ∧ q.act = o.act) := by
  intro q hq
  rw [Task.ops_opEnds] at hq
  have := (List.mem_filter.1 hq).2
  rw [← Op.same_iff]
  simpa using this

theorem Regs.write_none (r : Regs) (v : Val) : r.write .none v = r := by
  cases v <;> rfl

/-- An operation without a D changes no register as it ends. -/
theorem Task.regs_opEnds_none (t : Task) {o : Op} (late : Option Val) (h : o.act.dst = .none) : (t.opEnds o late).regs = t.regs := by
  unfold Task.opEnds
  split
  · rfl
  · simp only [h, beq_self_eq_true, Bool.true_or, if_true]
    cases late with
    | none => rfl
    | some v =>
      dsimp only
      split
      · rfl
      · exact Regs.write_none ..

/-- The operation of a serial is the one that stands for it. -/
theorem find_same_of_opOf {s : State} {p k : Nat} {o : Op} (h : s.opOf p k o.serial = some o) : (s.task p k).ops.find? o.same = some o := by
  unfold State.opOf at h
  generalize (s.task p k).ops = ops at h ⊢
  induction ops with
  | nil => cases h
  | cons q qs ih =>
    rw [List.find?_cons] at h ⊢
    by_cases hq : q.serial = o.serial
    · rw [show (q.serial == o.serial) = true by simpa using hq] at h
      obtain rfl := Option.some.inj h
      rw [(Op.same_iff q q).2 ⟨rfl, rfl⟩]
    · rw [show (q.serial == o.serial) = false by simpa using hq] at h
      have : o.same q = false := Bool.eq_false_iff.2 (fun e => hq ((Op.same_iff o q).1 e).1)
      rw [this]
      exact ih h

/-- The registers after the last late result of a register: what later blocks wrote there takes effect (R177). -/
theorem Task.regs_opEnds_last {t : Task} {o : Op} {v : Val} (hf : t.ops.find? o.same = some o) (hd : o.act.dst ≠ .none)
    (hl : ∀ q ∈ t.ops, q.act.dst = o.act.dst → q = o) :
    (t.opEnds o (some v)).regs = (t.heldWrites.filter (fun x => x.1 == o.act.dst)).foldl (fun r x => r.write o.act.dst x.2)
      (if o.stale then t.regs else t.regs.write o.act.dst v) := by
  have hpend : (t.ops.filter (fun q => !o.same q)).any (fun q => q.act.dst == o.act.dst) = false := by
    rw [List.any_eq_false]
    intro q hq
    obtain ⟨hm, hs⟩ := List.mem_filter.1 hq
    intro e
    have := hl q hm (by simpa using e)
    subst this
    simp [Op.same] at hs
  have hd' : (o.act.dst == Dst.none) = false := by simpa using hd
  rw [List.foldl_filter]
  simp only [Task.opEnds, hf, Task.latePending, hpend, hd', Bool.and_false, Bool.or_self, Bool.false_eq_true, if_false]

/-! ## Ended as performed -/

/-- An operation of a task that stays ends in the task alone. -/
theorem State.finishOp_eq {s : State} {p k : Nat} (o : Op) (late : Option Val) (h : (s.task p k).leaving = .no) :
    ∃ x y, s.finishOp p k o late = s.setTask p k { ((s.task p k).opEnds o late) with lateAt := x, strmAt := y } := by
  refine ⟨_, _, State.settle_staying ?_⟩
  rw [State.task_setTask]
  split
  · exact (congrArg Prod.fst (Task.flagged_opEnds (s.task p k) o late)).trans h
  · exact h

theorem State.task_finishOp {s : State} {p k : Nat} (o : Op) (late : Option Val) (hk : k < 16) (h : (s.task p k).leaving = .no) :
    ((s.finishOp p k o late).task p k).ops = ((s.task p k).opEnds o late).ops ∧
    ((s.finishOp p k o late).task p k).regs = ((s.task p k).opEnds o late).regs := by
  obtain ⟨x, y, e⟩ := State.finishOp_eq o late h
  rw [e, State.task_setTask, if_pos ⟨rfl, rfl, hk⟩]
  exact ⟨rfl, rfl⟩

theorem Plot.mapped_setTask (x : Plot) (k : Nat) (t : Task) : (x.setTask k t).mapped = x.mapped := rfl

theorem State.mapped_setTask (s : State) (p k : Nat) (t : Task) (q : Nat) : ((s.setTask p k t).plot q).mapped = (s.plot q).mapped :=
  State.onPlot_keeps Plot.mapped s p q (fun _ => rfl)

theorem sameMemory_setTask (s : State) (p k : Nat) (t : Task) : SameMemory s (s.setTask p k t) :=
  ⟨fun a => rdByte_eq (State.setTask_mem ..) (State.setTask_mod ..) (State.mapped_setTask s p k t) a, fun a => by simp only [State.sideAt, State.setTask_side]⟩

/-- Ending an operation leaves memory, the fields and the field units. -/
theorem State.finishOp_frame {s : State} {p k : Nat} (o : Op) (late : Option Val) (h : (s.task p k).leaving = .no) :
    SameMemory s (s.finishOp p k o late) ∧ (s.finishOp p k o late).fields = s.fields ∧ ∀ q, ((s.finishOp p k o late).plot q).fu = (s.plot q).fu := by
  obtain ⟨x, y, e⟩ := State.finishOp_eq o late h
  rw [e]
  exact ⟨sameMemory_setTask .., rfl, fun q => State.onPlot_keeps Plot.fu s p q (fun _ => rfl)⟩

/-- A late result delivered to the task as it was in s. -/
theorem lands_of_finishOp {s u : State} {p k : Nat} {o : Op} {v : Val} (h : s.performs p k o) (hu : u.task p k = s.task p k) :
    s.lands (u.finishOp p k o (some v)) p k o v := by
  obtain ⟨hk, -, hop, -, hl, -⟩ := h
  obtain ⟨hops, hregs⟩ := State.task_finishOp o (some v) hk (by rw [hu, hl])
  rw [hu] at hops hregs
  refine ⟨⟨fun q hq => Task.over_opEnds _ o _ q (hops ▸ hq), fun hd => hregs.trans (Task.regs_opEnds_none _ _ hd)⟩, ?_⟩
  intro t d hlast hd r
  have hr := hregs.trans (Task.regs_opEnds_last (find_same_of_opOf hop) hd hlast)
  refine ⟨fun hw => ?_, fun w hw => ?_⟩
  · rw [hr, List.filter_eq_nil_iff.2 (fun x hx => by simpa using hw x hx)]
    rfl
  · rw [hr, hw]
    rfl

/-- An operation over without a late result. -/
theorem over_of_finishOp {s u : State} {p k : Nat} {o : Op} (h : s.performs p k o) (hu : u.task p k = s.task p k) :
    s.over (u.finishOp p k o none) p k o := by
  obtain ⟨hk, -, -, -, hl, -⟩ := h
  obtain ⟨hops, hregs⟩ := State.task_finishOp o none hk (by rw [hu, hl])
  rw [hu] at hops hregs
  exact ⟨fun q hq => Task.over_opEnds _ o _ q (hops ▸ hq), fun hd => hregs.trans (Task.regs_opEnds_none _ _ hd)⟩

/-! ## Ended with a deferred fault -/

theorem launch?_of_still {s t : State} (h : s.still = t.still) (id : BitVec 32) : (s.launch? id).map Launch.still = (t.launch? id).map Launch.still := by
  have key : ∀ u : State, (u.launch? id).map Launch.still = (u.launches.map Launch.still).find? (fun l => l.id == id) := by
    intro u
    rw [List.find?_map]
    rfl
  rw [key, key]
  exact congrArg (fun v => v.launches.find? (fun l => l.id == id)) h

/-- A record posted is one more at the end of its launch's queue, and leaves tasks, memory and plots. -/
theorem State.postErr_posts {s : State} {kind : BitVec 8} {p k : Nat} {launch : BitVec 32} {bpc : BitVec 40} {c : CauseRec} {ended : Bool}
    {detail : BitVec 64} {l : Launch} (hl : s.launch? launch = some l) (hq : l.q < 8) :
    ((s.postErr kind p k launch bpc c ended detail).queues[l.q]).waiting =
      (s.queues[l.q]).waiting ++ [errWords kind p k launch bpc c ended (s.wtimeOf p) detail] := by
  simp only [State.postErr, State.postErrAt, hl, State.post, hq, dif_pos]
  simp [State.onLaunch]

theorem State.post_plots_mod (s : State) (q : Nat) (r : List (BitVec 64)) : (s.post q r).plots = s.plots ∧ (s.post q r).mod = s.mod ∧ (s.post q r).mem = s.mem := by
  unfold State.post
  split <;> exact ⟨rfl, rfl, rfl⟩

theorem State.postErr_frame (s : State) (kind : BitVec 8) (p k : Nat) (launch : BitVec 32) (bpc : BitVec 40) (c : CauseRec) (ended : Bool)
    (detail : BitVec 64) : let u := s.postErr kind p k launch bpc c ended detail
    u.plots = s.plots ∧ u.mod = s.mod ∧ u.mem = s.mem := by
  unfold State.postErr State.postErrAt
  dsimp only
  split
  · exact ⟨rfl, rfl, rfl⟩
  · exact State.post_plots_mod ..

theorem State.mapped_vacate (s : State) (p k : Nat) (t : Task) (q : Nat) : ((s.vacate p k t).plot q).mapped = (s.plot q).mapped :=
  (State.onPlot_keeps Plot.mapped (s.setTask p k t) p q (f := fun x => { x with vacated := (s.setTask p k t).instant }) (fun _ => rfl)).trans
    (State.mapped_setTask s p k t q)

/-- What a task leaves of its launch and the memory as it goes (R113, R341). -/
theorem State.vacate_leaveHost_frame (s : State) (p k : Nat) : let u := (s.leaveHost p k).vacate p k {}
    u.queues = s.queues ∧ u.mem = s.mem ∧ u.mod = s.mod ∧ ∀ q, (u.plot q).mapped = (s.plot q).mapped := by
  have h0 : (s.leaveHost p k).queues = s.queues ∧ (s.leaveHost p k).mem = s.mem ∧ (s.leaveHost p k).mod = s.mod ∧ (s.leaveHost p k).plots = s.plots := by
    unfold State.leaveHost
    dsimp only
    split <;> exact ⟨rfl, rfl, rfl, rfl⟩
  obtain ⟨h1, h2, h3, h4⟩ := h0
  refine ⟨h1, h2, h3, fun q => ?_⟩
  rw [State.mapped_vacate]
  simp only [State.plot, h4]

/-- The state in which an ended task's record is posted: its block dropped, and its task ended. -/
theorem State.endTask_frame (s : State) {p k : Nat} (c : CauseRec) (bpc : BitVec 40) (hk : k < 16) : let u := s.endTask p k c bpc
    (u.task p k).leaving = .ended ∧ (u.task p k).ops = (s.task p k).ops ∧ (∀ a, u.rdByte a = s.rdByte a) ∧
    ∀ (l : Launch) (h : l.q < 8), s.launch? (s.task p k).launch = some l →
      (u.queues[l.q]).waiting = (s.queues[l.q]).waiting ++ [errWords 0x01 p k (s.task p k).launch bpc c false (s.wtimeOf p) 0] := by
  unfold State.endTask
  extract_lets x t y
  have hx : x.still = s.still := (State.still_withdraw ..).trans (State.still_dropBlock ..)
  have ht : t.still = (s.task p k).still := task_still_of_still hx p k
  have hops : t.ops = (s.task p k).ops := show t.still.ops = (s.task p k).still.ops from congrArg Task.ops ht
  have hlaunch : t.launch = (s.task p k).launch := show t.still.launch = (s.task p k).still.launch from congrArg Task.launch ht
  obtain ⟨hplots, hmod, hmem⟩ := State.postErr_frame x 0x01 p k t.launch bpc c false 0
  refine ⟨?_, ?_, fun a => ?_, fun l hl hq => ?_⟩
  · rw [State.task_setTask, if_pos ⟨rfl, rfl, hk⟩]
  · rw [State.task_setTask, if_pos ⟨rfl, rfl, hk⟩]
    exact hops
  · refine ((sameMemory_setTask ..).1 a).trans (Eq.trans (rdByte_eq hmem hmod (fun q => ?_) a) (rdByte_of_still hx a))
    simp only [State.plot, hplots]
  · have hx? := launch?_of_still hx (s.task p k).launch
    rw [hq] at hx?
    obtain ⟨l', hl', he⟩ := Option.map_eq_some_iff.1 hx?
    have hlq : l'.q = l.q := show l'.still.q = l.still.q from congrArg Launch.q he
    have hpost := State.postErr_posts (kind := 0x01) (p := p) (k := k) (bpc := bpc) (c := c) (ended := false) (detail := 0) hl' (hlq ▸ hl)
    simp only [hlq, wtimeOf_of_still hx, show x.queues = s.queues from congrArg Still.queues hx] at hpost
    rw [← hpost, ← hlaunch]
    rfl

/-- A task that has ended goes once nothing it issued is outstanding. -/
theorem State.settle_ended {s : State} {p k : Nat} (h : (s.task p k).leaving = .ended) :
    s.settle p k = if (s.task p k).ops = [] then (s.leaveHost p k).vacate p k {} else s := by
  unfold State.settle State.freeIfDone
  simp only [h, beq_self_eq_true, Bool.true_and, List.isEmpty_iff]

theorem State.task_vacate (s : State) {p k : Nat} (t : Task) (hk : k < 16) : (s.vacate p k t).task p k = t :=
  (State.task_onPlot (s.setTask p k t) p p k (fun x => { x with vacated := (s.setTask p k t).instant }) (fun _ => rfl)).trans
    (by rw [State.task_setTask, if_pos ⟨rfl, rfl, hk⟩])

/-- A fault found as an operation performs ends its task, with a record of the operation's slot and block (R176). -/
theorem defers_of_deferFault {s : State} {p k : Nat} {o : Op} (c : CauseRec) (h : s.performs p k o) : s.defers (s.deferFault p k o c) p k o c := by
  obtain ⟨hk, -, -, -, hl, -⟩ := h
  have he : s.deferFault p k o c = ((s.setTask p k ((s.task p k).opEnds o (some (zeroFor o.act.dst)))).endTask p k
      { c with slot := o.slot, defer := true } o.bpc).settle p k := by
    unfold State.deferFault
    dsimp only
    rw [hl]
    rfl
  generalize hs1 : s.setTask p k ((s.task p k).opEnds o (some (zeroFor o.act.dst))) = s1 at he
  have ht1 : s1.task p k = (s.task p k).opEnds o (some (zeroFor o.act.dst)) := by rw [← hs1, State.task_setTask, if_pos ⟨rfl, rfl, hk⟩]
  have hlaunch1 : (s1.task p k).launch = (s.task p k).launch := by
    rw [ht1]
    exact Task.opEnds_keeps Task.launch (fun _ _ _ _ => rfl) _ _ _
  obtain ⟨hend, hops, hmem, hrec⟩ := State.endTask_frame s1 (p := p) { c with slot := o.slot, defer := true } o.bpc hk
  rw [ht1, Task.ops_opEnds] at hops
  rw [hlaunch1] at hrec
  rw [State.settle_ended hend, hops] at he
  generalize s1.endTask p k { c with slot := o.slot, defer := true } o.bpc = u at he hend hops hmem hrec
  obtain ⟨vq, vm, vmod, vp⟩ := State.vacate_leaveHost_frame u p k
  have hmem' : ∀ a, u.rdByte a = s.rdByte a := fun a => (hmem a).trans (by rw [← hs1]; exact (sameMemory_setTask ..).1 a)
  have hrec' : ∀ (l : Launch) (h : l.q < 8), s.launch? (s.task p k).launch = some l → (u.queues[l.q]).waiting = (s.queues[l.q]).waiting ++
      [errWords 0x01 p k (s.task p k).launch o.bpc { c with slot := o.slot, defer := true } false (s.wtimeOf p) 0] := by
    intro l hq hlook
    have := hrec l hq (by rw [← hs1]; exact hlook)
    rw [this, ← hs1]
    rfl
  by_cases hnone : (s.task p k).ops.filter (fun q => !o.same q) = []
  · rw [if_pos hnone] at he
    rw [he]
    refine ⟨fun _ => State.task_vacate _ _ hk, fun hne => absurd hnone hne, fun a => (rdByte_eq vm vmod vp a).trans (hmem' a), fun l hq hlook => ?_⟩
    rw [← hrec' l hq hlook]
    exact congrArg (fun v => (v[l.q]).waiting) vq
  · rw [if_neg hnone] at he
    rw [he]
    refine ⟨fun hno => absurd hno hnone, fun _ => ⟨hend, fun q hq => ?_⟩, hmem', hrec'⟩
    rw [hops] at hq
    rw [← Op.same_iff]
    simpa using (List.mem_filter.1 hq).2

end Sys2Proof.Machine
end

