-- ==== Sys2Proof/Proofs/FieldSlots.lean ====
section
/-! PROOFS. The field, ACC, admission and drain forms in the slot (R259, R272 to R283): what each captures or gives. -/

namespace Sys2Proof.Machine

open Sys2Proof

theorem extract_high_eq_zero (h : BitVec 64) : h.extractLsb' 32 32 = 0 ↔ h.toNat < 2 ^ 32 := by
  rw [← BitVec.toNat_inj, BitVec.extractLsb'_toNat, Nat.shiftRight_eq_div_pow]
  have := h.isLt
  change h.toNat / 2 ^ 32 % 2 ^ 32 = 0 ↔ _
  omega

/-- Neither a handle of more than 32 bits nor one that no field has names a field (R276). -/
theorem State.fieldQuery_none {s : State} {h : BitVec 64} (hn : 2 ^ 32 ≤ h.toNat ∨ s.liveField (h.extractLsb' 0 32) = none) : s.fieldQuery h = 0 := by
  unfold State.fieldQuery
  split
  · rfl
  · rename_i hlow
    rcases hn with hn | hn
    · exact absurd (fun e => absurd ((extract_high_eq_zero h).1 e) (Nat.not_lt.2 hn)) hlow
    · rw [hn]

theorem State.fieldQuery_some {s : State} {h : BitVec 64} {f : Field} (hlow : h.toNat < 2 ^ 32) (hf : s.liveField (h.extractLsb' 0 32) = some f) :
    s.fieldQuery h = BitVec.ofNat 64 (f.mode * 2 ^ 40 + f.cols * 2 ^ 32 + f.rows * 2 ^ 24 + (s.logCols f).length * 2 ^ 12 + f.lr) := by
  simp only [State.fieldQuery, (extract_high_eq_zero h).2 hlow, hf, ne_eq, not_true_eq_false, if_false]

section Slot

variable {s : State} {cx : Cx} {p : Pred} {d : Dst} {a b : Opnd} {q : Ptr} {n w : BitVec 64}

/-- An operation without a D is captured whatever executed slots write. -/
theorem asks_of_capture {i : Instr} {x : CAct} (h : exec i s = .next (s.capture cx x)) (hd : x.dst = .none) (hw : ∀ n y, x.kind ≠ .wrs n y) : Asks s cx i x :=
  h.trans (congrArg _ (capture_free (free_noD rfl rfl hd hw rfl)))

theorem asks_of_capture_dst {i : Instr} {x : CAct} (h : exec i s = .next (s.capture cx x)) (hf : cx.free { dst := d }) (hd : x.dst = d)
    (hw : ∀ n y, x.kind ≠ .wrs n y) : Asks s cx i x :=
  h.trans (congrArg _ (capture_free (free_act hf rfl rfl hd hw rfl)))

theorem asks_conf (hr : s.runs cx p) (hf : cx.free { dst := d }) (ha : cx.ptr a = .val q) (hb : cx.int b = .val w) (mx : MX) :
    Asks s cx (.cfgConf p d mx a b) { kind := .conf w, mx := some mx, ptr := q, dst := d } :=
  asks_of_capture_dst (runSlot_val hr (by rw [ha, Rd.bind_val, hb]; rfl)) hf rfl (by simp)

theorem asks_frel (hr : s.runs cx p) (ha : cx.int a = .val n) (mx : MX) : Asks s cx (.cfgFrel p mx a) { kind := .frel n, mx := some mx } :=
  asks_of_capture (runSlot_val hr (by rw [ha]; rfl)) rfl (by simp)

theorem asks_feed (hr : s.runs cx p) (ha : cx.ptr a = .val q) (hb : cx.int b = .val w) (mx : MX) (fin swap eos : Bool) :
    Asks s cx (.feed p mx fin swap eos a b) { kind := .feed fin swap eos w, mx := some mx, ptr := q } :=
  asks_of_capture (runSlot_val hr (by rw [ha, Rd.bind_val, hb]; rfl)) rfl (by simp)

theorem asks_wld (hr : s.runs cx p) (ha : cx.ptr a = .val q) (hb : cx.int b = .val w) (mx : MX) :
    Asks s cx (.wld p mx a b) { kind := .wld w, mx := some mx, ptr := q } :=
  asks_of_capture (runSlot_val hr (by rw [ha, Rd.bind_val, hb]; rfl)) rfl (by simp)

theorem asks_aclr (hr : s.runs cx p) (ha : cx.int a = .val n) : Asks s cx (.accAclr p a) { kind := .aclr n } :=
  asks_of_capture (runSlot_val hr (by rw [ha]; rfl)) rfl (by simp)

theorem asks_asta (hr : s.runs cx p) (hf : cx.free { dst := d }) (ha : cx.int a = .val n) : Asks s cx (.accAsta p d a) { kind := .asta n, dst := d } :=
  asks_of_capture_dst (runSlot_val hr (by rw [ha]; rfl)) hf rfl (by simp)

theorem asks_aset (hr : s.runs cx p) (ha : cx.int a = .val n) (hb : cx.int b = .val w) : Asks s cx (.admAset p a b) { kind := .aset n w } :=
  asks_of_capture (runSlot_val hr (by rw [ha, Rd.bind_val, hb]; rfl)) rfl (by simp)

theorem gives_fqry (hr : s.runs cx p) (hf : cx.free { dst := d }) (ha : cx.int a = .val n) {v : BitVec 64} (hv : s.fieldQuery n = v) :
    Gives s cx (.cfgFqry p d a) d (.int v) := by
  subst hv
  exact (runSlot_val hr (by rw [ha]; rfl)).trans (congrArg _ (result_free hf))

theorem gives_ard (hr : s.runs cx p) (hf : cx.free { dst := d }) (ha : cx.int a = .val n) :
    let port := if n.getLsbD 0 then (s.plot cx.p).fu.port1 else (s.plot cx.p).fu.port0
    Gives s cx (.admArd p d a) d (.int (if s.fieldOf cx.p = none then 0 else
      BitVec.ofNat 64 (port.cnt * 2 ^ 48 + port.ocap * 2 ^ 32 + port.pcap * 2 ^ 16 + min port.ocap port.pcap))) := by
  intro port
  have hport : (s.plot cx.p).fu.port n = port := rfl
  have hg : Gives s cx (.admArd p d a) d (.int (if (s.fieldOf cx.p).isSome then ((s.plot cx.p).fu.port n).word else 0)) :=
    (runSlot_val hr (by rw [ha]; rfl)).trans (congrArg _ (result_free hf))
  cases h : s.fieldOf cx.p with
  | none => simpa [h] using hg
  | some f => simpa [h, hport, AdmPort.word, AdmPort.ecap] using hg

/-! ## DRN -/

variable {x : BitVec 64} {m : Nat} {i : Instr} {form : DrnForm}

/-- FIELD on a tile that no one may drain (R256, R280). -/
theorem drn_undrainable (hr : s.runs cx p) (ha : cx.int a = .val x) (hn : cx.lowerRows (x.toNat % 16) = .val m) (hi : exec i s = drnSlot p d form a s)
    (h : let u := (s.plot cx.p).fu
      let y := u.tile (x.toNat % 16)
      u.south? = false ∨ s.fieldOf cx.p = none ∨ y.rows = 0 ∨ y.auto = true) : exec i s = .next (s.abortSlot cx { cause := .field }) := by
  refine (drnSlot_eq hr ha hn hi).trans (congrArg _ (if_pos ?_))
  rcases h with h | h | h | h <;> simp [h]

/-- POP and LAST stall until the tile is FULL. -/
theorem drn_stalls (hr : s.runs cx p) (ha : cx.int a = .val x) (hn : cx.lowerRows (x.toNat % 16) = .val m) (hi : exec i s = drnSlot p d form a s)
    (hd : s.mayDrain cx.p (x.toNat % 16)) (hf : form ≠ .peek) (hs : ((s.plot cx.p).fu.tile (x.toNat % 16)).st ≠ .full) :
    exec i s = .next (s.stallGate cx (.tile (x.toNat % 16))) := by
  obtain ⟨h1, h2, h3, h4⟩ := hd
  have hsome : (s.fieldOf cx.p).isNone = false := by simpa [Option.isSome_iff_ne_none] using h2
  refine (drnSlot_eq hr ha hn hi).trans (congrArg _ ?_)
  rw [if_neg (by simp [h1, hsome, h3, h4]), if_pos (by simp [hf, hs])]

/-- In a FULL tile a row at or beyond ROWS is FIELD, and one at or beyond a marked row SOFT. -/
theorem drn_full (hr : s.runs cx p) (ha : cx.int a = .val x) (hn : cx.lowerRows (x.toNat % 16) = .val m) (hi : exec i s = drnSlot p d form a s)
    (hd : s.mayDrain cx.p (x.toNat % 16)) (hs : ((s.plot cx.p).fu.tile (x.toNat % 16)).st = .full) :
    let t := x.toNat % 16
    let u := (s.plot cx.p).fu
    let y := u.tile t
    let r := cx.blk.curOf t y.cur + m
    (y.rows ≤ r → exec i s = .next (s.abortSlot cx { cause := .field })) ∧
    (r < y.rows → ∀ k, u.prow t = some k → k ≤ r →
      exec i s = .next (s.abortSlot cx { cause := .soft, info := BitVec.ofNat 64 (t * 2 ^ 12 + (y.base + r)) })) := by
  intro t u y r
  obtain ⟨h1, h2, h3, h4⟩ := hd
  have hsome : (s.fieldOf cx.p).isNone = false := by simpa [Option.isSome_iff_ne_none] using h2
  have e := drnSlot_eq hr ha hn hi
  dsimp only at e
  rw [if_neg (by simp [h1, hsome, h3, h4]), if_neg (by simp [hs])] at e
  refine ⟨fun h => e.trans (congrArg _ (if_pos h)), fun h k hk hle => e.trans (congrArg _ ?_)⟩
  rw [if_neg (Nat.not_le.2 h), if_pos (by rw [hk]; simpa using hle)]

/-- A row that may be read is given, while no lane of it triggers. -/
theorem drn_gives (hr : s.runs cx p) (ha : cx.int a = .val x) (hn : cx.lowerRows (x.toNat % 16) = .val m) (hi : exec i s = drnSlot p d form a s)
    (hfree : cx.free { dst := d }) (hd : s.mayDrain cx.p (x.toNat % 16)) :
    let t := x.toNat % 16
    let u := (s.plot cx.p).fu
    let cur := cx.blk.curOf t (u.tile t).cur
    let v := u.drainRow ((u.tile t).base + (cur + m))
    (form = .peek ∨ (u.tile t).st = .full) → cur + m < (u.tile t).rows → (∀ k, u.prow t = some k → cur + m < k) →
    (∀ k < 16, (fp32.dec (v.lane k).toNat).isFin = true → cx.task.theta ≤ (v.tag k).toNat) →
    exec i s = .next (s.executed cx { val := some (.vec v), dst := d, pop := form.taken t (cur + m) cur }) := fun hs hlt hm hq =>
  executed_of_finishChecked (drnSlot_reads hr ha hn hi hd hs hlt hm) (free_of_dst hfree rfl rfl rfl) (Cx.quiet_lanes16 hq)

end Slot

end Sys2Proof.Machine
end

