-- ==== Sys2Proof/Proofs/Settling.lean ====
section
/-! PROOFS. What a task that leaves its slot leaves alone (R113, R177, R224): the fields and the field units; and no operation is new. -/

namespace Sys2Proof.Machine

open Sys2Proof

/-- A state that has another's fields and field units, and of every task no operation that the other has not. -/
structure State.Trims (s u : State) : Prop where
  fields : u.fields = s.fields
  fu : ∀ q, (u.plot q).fu = (s.plot q).fu
  ops : ∀ q j, ∀ o ∈ (u.task q j).ops, o ∈ (s.task q j).ops

theorem State.Trims.refl (s : State) : s.Trims s := ⟨rfl, fun _ => rfl, fun _ _ _ h => h⟩

theorem State.Trims.trans {s t u : State} (h : s.Trims t) (h' : t.Trims u) : s.Trims u :=
  ⟨h'.fields.trans h.fields, fun q => (h'.fu q).trans (h.fu q), fun q j o ho => h.ops q j o (h'.ops q j o ho)⟩

/-! ## Updates -/

theorem trims_of_plots {s u : State} (hp : u.plots = s.plots) (hf : u.fields = s.fields) : s.Trims u :=
  ⟨hf, fun q => by simp only [State.plot, hp], fun q j o h => by simpa only [State.task, State.plot, hp] using h⟩

theorem trims_of_still {s u : State} (h : u.still = s.still) : s.Trims u :=
  ⟨congrArg Still.fields h, fu_of_still h, fun q j o ho => by
    rwa [show (u.task q j).ops = (s.task q j).ops from
      show (u.task q j).still.ops = (s.task q j).still.ops from congrArg Task.ops (task_still_of_still h q j)] at ho⟩

theorem trims_onPlot (s : State) (p : Nat) {f : Plot → Plot} (ht : ∀ x, (f x).tasks = x.tasks) (hu : ∀ x, (f x).fu = x.fu) : s.Trims (s.onPlot p f) :=
  ⟨rfl, fun q => State.onPlot_keeps Plot.fu s p q hu, fun q j o h => by rwa [State.task_onPlot s p q j f ht] at h⟩

theorem trims_setTask (s : State) (p k : Nat) {t : Task} (h : ∀ o ∈ t.ops, o ∈ (s.task p k).ops) : s.Trims (s.setTask p k t) := by
  refine ⟨rfl, fun q => State.onPlot_keeps Plot.fu s p q (fun _ => rfl), fun q j o ho => ?_⟩
  rw [State.task_setTask] at ho
  split at ho
  · rename_i e
    rw [e.1, e.2.1]
    exact h o ho
  · exact ho

theorem trims_onTask (s : State) (p k : Nat) {f : Task → Task} (h : ∀ t, (f t).ops = t.ops) : s.Trims (s.onTask p k f) :=
  trims_setTask s p k (fun o ho => by rwa [h] at ho)

theorem trims_foldl {α : Type} {f : State → α → State} (h : ∀ (s : State) (x : α), s.Trims (f s x)) (xs : List α) (s : State) : s.Trims (xs.foldl f s) :=
  foldl_inv_mem (fun _ hb a _ => hb.trans (h _ a)) (State.Trims.refl s)

/-! ## Writes of the hardware -/

theorem trims_wrBytes (bs : List Byte) (s : State) (a : Nat) : s.Trims (s.wrBytes a bs) := by
  induction bs generalizing s a with
  | nil => exact .refl s
  | cons b t ih => exact (trims_of_plots (s := s) (u := { s with mem := memPut s.mem a b }) rfl rfl).trans (ih { s with mem := memPut s.mem a b } (a + 1))

theorem trims_homeWrite (s : State) (a : Nat) (bs : List Byte) (mode : StMode) (stamp : BitVec 3) : s.Trims (s.homeWrite a bs mode stamp) := by
  have hw : s.Trims ((s.wrHome a bs).touch a (wordsOf a bs.length)) := by
    refine State.Trims.trans (t := s.wrHome a bs) ?_ (trims_of_plots rfl rfl)
    unfold State.wrHome
    split
    · exact (trims_wrBytes bs s a).trans (trims_wrBytes ..)
    · exact trims_wrBytes bs s a
  unfold State.homeWrite
  dsimp only
  split
  · exact hw
  · refine hw.trans ?_
    split
    · exact trims_of_still ((State.still_wakeAll ..).trans (State.still_wrSide ..))
    · exact trims_of_still (State.still_wrSide ..)

theorem trims_postErrAt (s : State) (wt : BitVec 64) (kind : BitVec 8) (p k : Nat) (launch : BitVec 32) (bpc : BitVec 40) (c : CauseRec) (ended : Bool)
    (detail : BitVec 64) : s.Trims (s.postErrAt wt kind p k launch bpc c ended detail) := by
  unfold State.postErrAt
  split
  · exact .refl s
  · refine trims_of_plots (State.post_plots ..) ?_
    unfold State.post
    split <;> rfl

theorem trims_putParts (s : State) (p k : Nat) (launch : BitVec 32) (core : Bool) (bs : List Byte) (stamp : BitVec 3) (ps : List (Nat × Nat × Nat)) :
    s.Trims (s.putParts p k launch core bs stamp ps) := by
  refine trims_foldl (fun s x => ?_) ps s
  unfold State.putPart
  split
  · exact trims_postErrAt ..
  · split
    · exact (trims_homeWrite ..).trans (trims_onPlot _ p (fun _ => rfl) (fun _ => rfl))
    · exact trims_homeWrite ..

theorem trims_writeFrame (s : State) (p k : Nat) (bpc : BitVec 40) (c : Option CauseRec) (w : WaitFor) (ps : List (Nat × Nat × Nat)) :
    s.Trims (s.writeFrame p k bpc c w ps) := by
  unfold State.writeFrame
  extract_lets t
  have hput : s.Trims ((s.putParts p k t.launch true (s.frameBytes p k bpc c w) 4 ps).noteSave p k w) :=
    (trims_putParts s ..).trans (trims_of_plots (u := State.noteSave _ p k w) rfl rfl)
  refine hput.trans (trims_foldl (fun s i => ?_) _ _)
  split
  · split
    · exact .refl s
    · exact trims_of_still (State.still_wrSide ..)
  · exact .refl s

/-! ## Leaving the slot -/

theorem trims_vacate (s : State) (p k : Nat) {t : Task} (h : t.ops = []) : s.Trims (s.vacate p k t) :=
  (trims_setTask s p k (by simp [h])).trans (trims_onPlot _ p (fun _ => rfl) (fun _ => rfl))

theorem trims_freeIfDone (s : State) (p k : Nat) : s.Trims (s.freeIfDone p k) := by
  unfold State.freeIfDone
  dsimp only
  split
  · refine State.Trims.trans ?_ (trims_vacate _ p k rfl)
    unfold State.leaveHost
    dsimp only
    split
    · exact .refl s
    · exact trims_of_plots rfl rfl
  · exact .refl s

theorem trims_endTask (s : State) (p k : Nat) (c : CauseRec) (bpc : BitVec 40) : s.Trims (s.endTask p k c bpc) := by
  unfold State.endTask
  extract_lets x t y
  have hx : s.Trims x := trims_of_still ((State.still_withdraw ..).trans (State.still_dropBlock ..))
  have hy : x.Trims y := trims_postErrAt ..
  have ht : y.task p k = t := by
    simp only [State.task, State.plot, show y.plots = x.plots from (State.postErr_frame x 0x01 p k t.launch bpc c false 0).1, t]
  exact (hx.trans hy).trans (trims_setTask _ p k (fun o ho => by rwa [ht]))

theorem trims_enterHandler (s : State) (p k : Nat) (c : CauseRec) (bpc : BitVec 40) : s.Trims (s.enterHandler p k c bpc) := by
  unfold State.enterHandler
  dsimp only
  split
  · exact .refl s
  · exact trims_endTask ..
  · exact ((trims_putParts s ..).trans (trims_of_still (State.still_ready ..))).trans (trims_onTask _ p k (fun _ => rfl))

/-- The record of a task that a page fault has saved, and its slot SAVED (R226). -/
theorem trims_faultSaved {s u : State} (h : s.Trims u) (fs : List Faulted) (p k : Nat) {wt : BitVec 64} {launch : BitVec 32} {bpc : BitVec 40} {c : CauseRec}
    {t : Task} (ht : t.ops = []) : s.Trims ((State.postErrAt { u with faulted := fs } wt 0x02 p k launch bpc c false 0).vacate p k t) :=
  ((h.trans (trims_of_plots (u := { u with faulted := fs }) rfl rfl)).trans (trims_postErrAt ..)).trans (trims_vacate _ p k ht)

theorem trims_settle (s : State) (p k : Nat) : s.Trims (s.settle p k) := by
  unfold State.settle
  dsimp only
  split
  · exact .refl s
  · exact trims_freeIfDone ..
  · split
    · exact .refl s
    · exact (trims_enterHandler ..).trans (trims_freeIfDone ..)
  · split
    · exact .refl s
    · split
      · exact trims_vacate _ p k rfl
      · split
        · exact .refl s
        · exact (trims_endTask ..).trans (trims_freeIfDone ..)
        · split
          · refine trims_faultSaved ?_ _ p k rfl
            split
            · exact (trims_writeFrame s ..).trans (trims_postErrAt ..)
            · exact trims_writeFrame ..
          · exact (trims_writeFrame s ..).trans (trims_vacate _ p k rfl)

theorem trims_finishOp (s : State) (p k : Nat) (o : Op) (late : Option Val) : s.Trims (s.finishOp p k o late) := by
  refine (trims_setTask s p k (fun q hq => ?_)).trans (trims_settle ..)
  have hq' : q ∈ ((s.task p k).opEnds o late).ops := hq
  rw [Task.ops_opEnds] at hq'
  exact (List.mem_filter.1 hq').1

/-- An operation that has performed is outstanding no longer, whatever its task does then. -/
theorem gone_of_finishOp (s : State) {p k : Nat} (o : Op) (late : Option Val) (hk : k < 16) :
    ∀ q ∈ ((s.finishOp p k o late).task p k).ops, ¬(q.serial = o.serial ∧ q.act = o.act) := by
  intro q hq
  have hq' := (trims_settle _ p k).ops p k q hq
  rw [State.task_setTask, if_pos ⟨rfl, rfl, hk⟩] at hq'
  exact Task.over_opEnds _ o late q hq'

end Sys2Proof.Machine
end

