-- ==== Sys2Proof/Proofs/FieldRelease.lean ====
section
/-! PROOFS. CFG.FREL as it performs (R272, R275): the field goes once nothing works in it, with the FEEDs and WLDs of its plots and its rill entries. -/

namespace Sys2Proof.Machine

open Sys2Proof

/-! ## A fold that reaches what one of its steps establishes -/

/-- What the step of one member establishes and every step keeps holds after the fold. -/
theorem foldl_reaches {α β : Type} {P : β → Prop} {f : β → α → β} {x : α} (hget : ∀ b, P (f b x)) (hkeep : ∀ b y, P b → P (f b y)) :
    ∀ {xs : List α}, x ∈ xs → ∀ b, P (xs.foldl f b) := by
  intro xs hx
  induction xs with
  | nil => cases hx
  | cons y t ih =>
    intro b
    rcases List.mem_cons.1 hx with rfl | ht
    · exact foldl_inv_mem (P := P) (b := f b x) (fun b hb a _ => hkeep b a hb) (hget b)
    · exact ih ht _

/-! ## The parts of a release -/

theorem State.fu_onFu (s : State) (p q : Nat) (f : FUnit → FUnit) : ((s.onFu p f).plot q).fu = if q = p then f (s.plot q).fu else (s.plot q).fu := by
  rw [State.onFu, State.plot_onPlot]
  split
  · rename_i e
    rw [e]
  · rfl

theorem trims_onRill (s : State) (p e : Nat) (f : Rill → Rill) : s.Trims (s.onRill p e f) :=
  trims_onPlot s p (f := fun x => { x with rills := x.rills.put e (f (s.rill p e)) }) (fun _ => rfl) (fun _ => rfl)

theorem trims_breakRill (s : State) (p e : Nat) : s.Trims (s.breakRill p e) :=
  (trims_onRill s p e _).trans (trims_of_still (State.still_wakePlot ..))

/-- An entry of the rill table freed, with the routes of its path. -/
theorem trims_freeEntry (s : State) (p e : Nat) (path : List (Nat × Nat)) :
    s.Trims ((s.freePath path).onPlot p (fun x => { x with rills := x.rills.drop e })) :=
  (trims_foldl (fun s x => trims_onPlot s x.1 (f := fun y => { y with routes := y.routes.drop x.2 }) (fun _ => rfl) (fun _ => rfl)) path s).trans
    (trims_onPlot _ p (f := fun x => { x with rills := x.rills.drop e }) (fun _ => rfl) (fun _ => rfl))

theorem trims_removeRills (s : State) (f : Nat → Rill → Bool) : s.Trims (s.removeRills f) := by
  unfold State.removeRills
  extract_lets s0 gone isGone s1 left
  have h1 : s.Trims s1 := trims_foldl (fun s g => trims_freeEntry s g.1 g.2.1 g.2.2.path) gone s
  refine h1.trans (trims_foldl (fun s x => ?_) _ _)
  extract_lets r cut joinGone s2
  have h2 : s.Trims s2 := trims_onRill ..
  split
  · exact h2.trans (trims_breakRill ..)
  · exact h2

theorem trims_finishHeld (s : State) (p uid serial : Nat) : s.Trims (s.finishHeld p uid serial) := by
  unfold State.finishHeld
  split
  · exact .refl s
  · split
    · exact trims_finishOp ..
    · exact .refl s

/-- The feeder and loader of a plot emptied; the fields and all other units are as they were. -/
theorem State.dropFeeds_trims (s : State) (p : Nat) : (s.onFu p (fun u => { u with feeds := [], wlds := [], loaded := [] })).Trims (s.dropFeeds p) := by
  unfold State.dropFeeds
  extract_lets u s1 s2 s3
  have h2 : s1.Trims s2 := trims_foldl (fun s c => trims_finishHeld ..) _ _
  have h3 : s2.Trims s3 := trims_foldl (fun s c => trims_finishHeld ..) _ _
  exact (h2.trans h3).trans (trims_foldl (fun s k => trims_foldl (fun s o => trims_finishOp ..) _ _) _ _)

theorem State.dropFeeds_fields (s : State) (p : Nat) : (s.dropFeeds p).fields = s.fields := (State.dropFeeds_trims s p).fields

/-- A plot whose feeder and loader hold nothing. -/
def FUnit.unfed (u : FUnit) : Prop := u.feeds = [] ∧ u.wlds = []

theorem State.dropFeeds_unfed (s : State) (p : Nat) : ((s.dropFeeds p).plot p).fu.unfed := by
  rw [(State.dropFeeds_trims s p).fu, State.fu_onFu, if_pos rfl]
  exact ⟨rfl, rfl⟩

theorem State.dropFeeds_keeps_unfed (s : State) (p : Nat) {q : Nat} (h : (s.plot q).fu.unfed) : ((s.dropFeeds p).plot q).fu.unfed := by
  rw [(State.dropFeeds_trims s p).fu, State.fu_onFu]
  split
  · exact ⟨rfl, rfl⟩
  · exact h

/-- What a released plot shows of its field (R275). -/
def FUnit.free (u : FUnit) : Prop := u.handle = 0xFFFFFFFF ∧ u.role = 0

/-- The field is gone, and its plots are free with nothing in their feeders and loaders. -/
theorem State.releaseField_frees (s : State) (f : Field) : (s.releaseField f).fields = s.fields.filter (fun g => g.handle != f.handle) ∧
    ∀ x ∈ f.cellsOf, ((s.releaseField f).plot (s.fieldPlot f x.1 x.2)).fu.free ∧ ((s.releaseField f).plot (s.fieldPlot f x.1 x.2)).fu.unfed := by
  unfold State.releaseField
  extract_lets ps s1 s2 s3
  have hs1 : s1.fields = s.fields := foldl_keeps State.fields _ ps (fun s p _ => State.dropFeeds_fields s p) s
  have h2 : s1.Trims s2 := trims_removeRills ..
  have hstep : ∀ (w : State) (p q : Nat) (g : WaitFor → Bool), (((w.onFu p FUnit.released).wakePlot p g).plot q).fu =
      if q = p then (w.plot q).fu.released else (w.plot q).fu := fun w p q g =>
    ((trims_of_still (State.still_wakePlot ..)).fu q).trans (State.fu_onFu w p q _)
  refine ⟨?_, fun x hx => ?_⟩
  · refine (foldl_keeps State.fields _ ps (fun w p _ => (trims_of_still (State.still_wakePlot (w.onFu p FUnit.released) p _)).fields) s3).trans ?_
    change s2.fields.filter _ = _
    rw [h2.fields, hs1]
  · have hq : s.fieldPlot f x.1 x.2 ∈ ps := List.mem_map_of_mem hx
    generalize s.fieldPlot f x.1 x.2 = q at hq
    have hu1 : (s1.plot q).fu.unfed :=
      foldl_reaches (P := fun w : State => (w.plot q).fu.unfed) (fun w => State.dropFeeds_unfed w q) (fun w p h => State.dropFeeds_keeps_unfed w p h) hq s
    have hu3 : (s3.plot q).fu.unfed := by
      change (s2.plot q).fu.unfed
      rw [h2.fu]
      exact hu1
    refine ⟨foldl_reaches (P := fun w : State => (w.plot q).fu.free) (fun w => ?_) (fun w p h => ?_) hq s3,
      foldl_inv_mem (P := fun w : State => (w.plot q).fu.unfed) (fun w h p _ => ?_) hu3⟩
    · rw [hstep, if_pos rfl]
      exact ⟨rfl, rfl⟩
    · rw [hstep]
      split
      · exact ⟨rfl, rfl⟩
      · exact h
    · rw [hstep]
      split
      · exact h
      · exact h

/-! ## FREL -/

section Frel

variable {s : State} {p k pick : Nat} {o : Op} {h : BitVec 64}

theorem State.performAt_frel (hk : o.act.kind = .frel h) : s.performAt p k o pick = s.frelEvent p k o h := by
  simp only [State.performAt, hk]

/-- The live field that a handle of 64 bits names (R275). -/
def State.named (s : State) (h : BitVec 64) : Option Field := if h.toNat < 2 ^ 32 then s.liveField (BitVec.ofNat 32 h.toNat) else none

theorem State.named_eq (s : State) (h : BitVec 64) : (if h.extractLsb' 32 32 = 0 then s.liveField (h.extractLsb' 0 32) else none) = s.named h := by
  have e : h.extractLsb' 0 32 = BitVec.ofNat 32 h.toNat := BitVec.eq_of_toNat_eq (by simp)
  simp only [State.named, extract_high_eq_zero, e]

theorem State.frelEvent_none {s : State} (p k : Nat) (o : Op) (hf : s.named h = none) : s.frelEvent p k o h = s.finishOp p k o none := by
  unfold State.frelEvent
  rw [State.named_eq, hf]

theorem State.frelEvent_some {s : State} (p k : Nat) (o : Op) {f : Field} (hf : s.named h = some f) :
    s.frelEvent p k o h = if f.launch ≠ (s.task p k).launch then s.finishOp p k o none
      else if s.releasable f && (f.stopped || !(s.task p k).accBefore o.serial) then (s.releaseField f).finishOp p k o none
      else s.onField f.handle (fun f => { f with releasing := some o.serial }) := by
  unfold State.frelEvent
  rw [State.named_eq, hf]

/-- A FREL that names no live field of its launch performs nothing. -/
theorem frel_stale (hp : s.performs p k o) (hk : o.act.kind = .frel h)
    (hn : s.named h = none ∨ ∃ f, s.named h = some f ∧ f.launch ≠ (s.task p k).launch) :
    s.does p k o pick (fun v => s.over v p k o ∧ v.fields = s.fields ∧ SameMemory s v) := by
  have hend : s.performAt p k o pick = s.finishOp p k o none := by
    rw [State.performAt_frel hk]
    rcases hn with hf | ⟨f, hf, hne⟩
    · exact State.frelEvent_none p k o hf
    · exact (State.frelEvent_some p k o hf).trans (if_pos hne)
  obtain ⟨hmem, hfields, -⟩ := State.finishOp_frame (s := s) o none hp.2.2.2.2.1
  exact does_of_performAt hp (by rw [hk]; rfl) hend ⟨over_of_finishOp hp rfl, hfields, hmem⟩

/-- What a release waits for: a pass in the array, a drain writer at work, an earlier ACC form of its task (R272, R275). -/
def State.frelBusy (s : State) (p k : Nat) (o : Op) (f : Field) : Prop :=
  f.stopped = false ∧ ((∃ x ∈ f.passes, x.entered = true) ∨ (∃ q ∈ s.southPlots f, ∃ x ∈ (s.plot q).fu.tiles, x.2.emptying = true) ∨
    ∃ q ∈ (s.task p k).ops, q.serial < o.serial ∧ q.act.kind.accTile ≠ none)

theorem State.frelBusy_iff (s : State) (p k : Nat) (o : Op) (f : Field) :
    (s.releasable f && (f.stopped || !(s.task p k).accBefore o.serial)) = false ↔ s.frelBusy p k o f := by
  unfold State.frelBusy State.releasable Task.accBefore
  cases f.stopped
  · rw [← not_iff_not]
    simp
  · simp

/-- A FREL of a live field of its launch waits, or releases it. -/
theorem frel_live (hp : s.performs p k o) (hk : o.act.kind = .frel h) {f : Field} (hf : s.named h = some f)
    (hl : f.launch = (s.task p k).launch) :
    (s.frelBusy p k o f → exec (.commitOpPerform p k o.serial pick) s = .next (s.onField f.handle (fun f => { f with releasing := some o.serial }))) ∧
    (¬s.frelBusy p k o f → s.does p k o pick (fun v => (∀ q ∈ (v.task p k).ops, ¬(q.serial = o.serial ∧ q.act = o.act)) ∧
      v.fields = s.fields.filter (fun g => g.handle != f.handle) ∧
      ∀ x ∈ f.cellsOf, let y := (v.plot (s.fieldPlot f x.1 x.2)).fu
        y.handle = 0xFFFFFFFF ∧ y.role = 0 ∧ y.feeds = [] ∧ y.wlds = [])) := by
  have e := (State.performAt_frel (s := s) (p := p) (k := k) (pick := pick) hk).trans (State.frelEvent_some p k o hf)
  rw [if_neg (not_not.2 hl)] at e
  have hm : o.act.kind.isMem = false := by rw [hk]; rfl
  refine ⟨fun hb => exactly_of_performAt hp hm (e.trans ?_), fun hb => does_of_performAt hp hm (e.trans (if_pos ?_)) ?_⟩
  · rw [(s.frelBusy_iff p k o f).2 hb, if_neg Bool.false_ne_true]
  · exact Bool.eq_true_of_not_eq_false (mt (s.frelBusy_iff p k o f).1 hb)
  · obtain ⟨hfields, hplots⟩ := State.releaseField_frees s f
    have ht := trims_finishOp (s.releaseField f) p k o none
    refine ⟨gone_of_finishOp _ o none hp.1, ht.fields.trans hfields, fun x hx => ?_⟩
    obtain ⟨⟨h1, h2⟩, h3, h4⟩ := hplots x hx
    rw [ht.fu]
    exact ⟨h1, h2, h3, h4⟩

end Frel

end Sys2Proof.Machine
end

