-- ==== Sys2Proof/Proofs/FieldUnits.lean ====
section
/-! PROOFS. FEED, WLD, ACC.ACLR and ACC.ASTA as they perform (R254, R272, R277, R278, R282). -/

namespace Sys2Proof.Machine

open Sys2Proof

/-! ## Changes of field units and of outstanding operations -/

theorem SameMemory.trans {s t u : State} (h : SameMemory s t) (h' : SameMemory t u) : SameMemory s u :=
  ⟨fun a => (h'.1 a).trans (h.1 a), fun a => (h'.2 a).trans (h.2 a)⟩

theorem sameMemory_onPlot (s : State) (p : Nat) {f : Plot → Plot} (h : ∀ x, (f x).mapped = x.mapped) : SameMemory s (s.onPlot p f) :=
  ⟨fun a => rdByte_eq (State.onPlot_mem ..) (State.onPlot_mod ..) (fun q => State.onPlot_keeps Plot.mapped s p q h) a,
    fun a => by simp only [State.sideAt, State.onPlot_side]⟩

theorem sameMemory_onFu (s : State) (p : Nat) (f : FUnit → FUnit) : SameMemory s (s.onFu p f) := sameMemory_onPlot s p (fun _ => rfl)

theorem sameMemory_onOp (s : State) (p k n : Nat) (f : Op → Op) : SameMemory s (s.onOp p k n f) := sameMemory_setTask ..

theorem sameRegs_onFu (s : State) (p : Nat) (f : FUnit → FUnit) : SameRegs s (s.onFu p f) := fun q j => by rw [State.task_onFu]

theorem sameRegs_onOp (s : State) (p k n : Nat) (f : Op → Op) : SameRegs s (s.onOp p k n f) := fun q j =>
  State.onTask_keeps Task.regs s p k q j (fun t => { t with ops := t.ops.map (fun o => if o.serial == n then f o else o) }) (fun _ => rfl)

theorem State.fu_onOp (s : State) (p k n q : Nat) (f : Op → Op) : ((s.onOp p k n f).plot q).fu = (s.plot q).fu :=
  State.onPlot_keeps Plot.fu s p q (fun _ => rfl)

theorem State.opOf_onFu (s : State) (p q j n : Nat) (f : FUnit → FUnit) : (s.onFu p f).opOf q j n = s.opOf q j n := by
  unfold State.opOf
  rw [State.task_onFu]

/-- The operation of a serial, changed. -/
theorem State.opOf_onOp {s : State} {p k n : Nat} {o : Op} {f : Op → Op} (hk : k < 16) (h : s.opOf p k n = some o) (hf : ∀ q, (f q).serial = q.serial) :
    (s.onOp p k n f).opOf p k n = some (f o) := by
  have hn : o.serial = n := by simpa using List.find?_some h
  have hp : ((fun q : Op => q.serial == n) ∘ fun q => if q.serial == n then f q else q) = fun q => q.serial == n := by
    funext q
    simp only [Function.comp]
    split
    · rw [hf]
    · rfl
  unfold State.opOf at h ⊢
  rw [State.onOp, State.task_onTask, if_pos ⟨rfl, rfl, hk⟩, List.find?_map, hp, h]
  simp [hn]

/-- An operation of the state s finds a cause as it performs. -/
def State.fails (s : State) (p k : Nat) (o : Op) (pick : Nat) (c : Cause) : Prop :=
  ∃ e : CauseRec, e.cause = c ∧ s.does p k o pick (fun u => s.defers u p k o e)

theorem fails_of_deferFault {s : State} {p k pick : Nat} {o : Op} {e : CauseRec} (h : s.performs p k o) (hm : o.act.kind.isMem = false)
    (hu : s.performAt p k o pick = s.deferFault p k o e) : s.fails p k o pick e.cause :=
  ⟨e, rfl, does_of_performAt h hm hu (defers_of_deferFault e h)⟩

/-! ## FEED -/

section Feed

variable {s : State} {p k pick : Nat} {o : Op} {fin swap eos : Bool} {b : BitVec 64}

theorem extract_toNat (b : BitVec 64) (lo n : Nat) : (b.extractLsb' lo n).toNat = b.toNat / 2 ^ lo % 2 ^ n := by
  rw [BitVec.extractLsb'_toNat, Nat.shiftRight_eq_div_pow]

theorem feedOk_iff (b : BitVec 64) : feedOk b = true ↔ b &&& 0xFFFF0000FFF0FC00 = 0 ∧ 1 ≤ b.toNat % 2 ^ 10 ∧ b.toNat % 2 ^ 10 ≤ 512 := by
  have hm : (b.extractLsb' 0 10).toNat = b.toNat % 2 ^ 10 := by simp
  have hz : b.extractLsb' 0 10 ≠ 0 ↔ 1 ≤ b.toNat % 2 ^ 10 := by
    rw [← hm, ne_eq, ← BitVec.toNat_inj, Nat.one_le_iff_ne_zero]
    rfl
  simp only [feedOk, Bool.and_eq_true, beq_iff_eq, bne_iff_ne, decide_eq_true_eq, hz, hm, and_assoc]

theorem State.performAt_feed (hk : o.act.kind = .feed fin swap eos b) (hn : ∀ c ∈ (s.plot p).fu.feeds, c.serial ≠ o.serial) :
    s.performAt p k o pick = s.feedEvent p k o fin swap eos b := by
  simp only [State.performAt, hk]
  exact if_neg (by simpa using hn)

/-- A FEED outside a field, on a plot that is not WEST, or with parameters that are not legal finds FIELD. -/
theorem State.feedEvent_field (h : s.fieldOf p = none ∨ (s.plot p).fu.west? = false ∨ feedOk b = false) :
    s.feedEvent p k o fin swap eos b = s.deferFault p k o { cause := .field } := by
  unfold State.feedEvent
  dsimp only
  split
  · rfl
  · rename_i f hf
    split
    · rfl
    · split
      · rfl
      · refine if_pos ?_
        rcases h with h | h | h
        · rw [hf] at h
          cases h
        · simp [h]
        · simp [h]

/-- What a FEED places in the feeder (R277). -/
def State.feedCmd (s : State) (p k : Nat) (o : Op) (fin swap eos : Bool) (b : BitVec 64) : FeedCmd :=
  { serial := o.serial, uid := (s.task p k).uid, mx := o.act.mx, slot := k, bpc := o.bpc, ptr := o.act.ptr, priv := o.priv,
    m := b.toNat % 2 ^ 10, tile := b.extractLsb' 16 4, q0 := b.toNat / 2 ^ 32 % 2 ^ 16, fin := fin, swap := swap, eos := eos }

/-- The bytes that a FEED's beats read (R266, R277). -/
def State.feedRanges (s : State) (f : Field) (a : Agen) (r : Nat) (b : BitVec 64) : List (Nat × Nat) :=
  (List.range (b.toNat % 2 ^ 10)).flatMap (fun j => (s.fedRows f r).flatMap (fun x => f.beatRanges a (b.toNat / 2 ^ 32 % 2 ^ 16) j x.1))

theorem State.feedEvent_legal {f : Field} {r c : Nat} {a : Agen} (hf : s.fieldOf p = some f) (hpos : s.fieldPos f p = some (r, c))
    (hgen : f.gen r c 0 = some a) (hw : (s.plot p).fu.west? = true) (hb : feedOk b = true) :
    s.feedEvent p k o fin swap eos b =
      if !rangesFit o.act.ptr (s.feedRanges f a r b) then s.deferFault p k o { cause := .capb }
      else if s.srcHole (dieOf p) a o.act.ptr (s.feedRanges f a r b) then
        s.deferFault p k o { cause := .absent, obj := if o.act.ptr.isPhys then 0 else o.act.ptr.obj }
      else if (s.plot p).fu.feeds.length < 4 then
        (s.onFu p (fun u => { u with feeds := u.feeds ++ [s.feedCmd p k o fin swap eos b] })).onOp p k o.serial (fun q => { q with queued := false })
      else s.onOp p k o.serial (fun q => { q with queued := true }) := by
  have hm : (b.extractLsb' 0 10).toNat = b.toNat % 2 ^ 10 := by simp
  have hq : (b.extractLsb' 32 16).toNat = b.toNat / 2 ^ 32 % 2 ^ 16 := extract_toNat b 32 16
  unfold State.feedEvent
  simp only [hf, hpos, hgen, hw, hb, hm, hq, Bool.not_true, Bool.or_self, Bool.false_eq_true, if_false]
  rfl

theorem fails_feed_field (hp : s.performs p k o) (hk : o.act.kind = .feed fin swap eos b) (hn : ∀ c ∈ (s.plot p).fu.feeds, c.serial ≠ o.serial)
    (h : s.fieldOf p = none ∨ (s.plot p).fu.west? = false ∨ feedOk b = false) : s.fails p k o pick .field :=
  fails_of_deferFault (e := { cause := .field }) hp (by rw [hk]; rfl) ((State.performAt_feed hk hn).trans (State.feedEvent_field h))

/-- A legal FEED is checked against its view and its window, then taken by the feeder, or waits for room in it. -/
theorem feed_legal (hp : s.performs p k o) (hk : o.act.kind = .feed fin swap eos b) (hn : ∀ c ∈ (s.plot p).fu.feeds, c.serial ≠ o.serial)
    {f : Field} {r c : Nat} {a : Agen} (hf : s.fieldOf p = some f) (hpos : s.fieldPos f p = some (r, c)) (hgen : f.gen r c 0 = some a)
    (hw : (s.plot p).fu.west? = true) (hb : feedOk b = true) :
    let u := (s.plot p).fu
    let rs := s.feedRanges f a r b
    (rangesFit o.act.ptr rs = false → s.fails p k o pick .capb) ∧
    (rangesFit o.act.ptr rs = true → s.srcHole (dieOf p) a o.act.ptr rs = true → s.fails p k o pick .absent) ∧
    (rangesFit o.act.ptr rs = true → s.srcHole (dieOf p) a o.act.ptr rs = false →
      (u.feeds.length < 4 → s.does p k o pick (fun v => (∃ x, v.opOf p k o.serial = some x ∧ x.act = o.act) ∧ SameMemory s v ∧ SameRegs s v ∧
        (v.plot p).fu.feeds = u.feeds ++ [s.feedCmd p k o fin swap eos b])) ∧
      (4 ≤ u.feeds.length → s.does p k o pick (fun v => (v.plot p).fu.feeds = u.feeds ∧ SameMemory s v ∧ SameRegs s v ∧
        ∃ x, v.opOf p k o.serial = some x ∧ x.act = o.act ∧ x.queued = true))) := by
  intro u rs
  have hm : o.act.kind.isMem = false := by rw [hk]; rfl
  have hop : s.opOf p k o.serial = some o := hp.2.2.1
  have e := (State.performAt_feed (pick := pick) (k := k) hk hn).trans (State.feedEvent_legal hf hpos hgen hw hb)
  refine ⟨fun h1 => ?_, fun h1 h2 => ?_, fun h1 h2 => ⟨fun h3 => ?_, fun h3 => ?_⟩⟩
  · rw [if_pos (by rw [h1]; rfl)] at e
    exact fails_of_deferFault hp hm e
  · rw [if_neg (by rw [h1]; exact Bool.false_ne_true), if_pos h2] at e
    exact fails_of_deferFault hp hm e
  · rw [if_neg (by rw [h1]; exact Bool.false_ne_true), if_neg (by rw [h2]; exact Bool.false_ne_true), if_pos h3] at e
    refine does_of_performAt hp hm e ⟨⟨_, State.opOf_onOp hp.1 ((State.opOf_onFu ..).trans hop) (fun _ => rfl), rfl⟩,
      (sameMemory_onFu ..).trans (sameMemory_onOp ..), fun q j => (sameRegs_onOp _ p k _ _ q j).trans (sameRegs_onFu s p _ q j), ?_⟩
    rw [State.fu_onOp, State.fu_onFu, if_pos rfl]
  · rw [if_neg (by rw [h1]; exact Bool.false_ne_true), if_neg (by rw [h2]; exact Bool.false_ne_true), if_neg (Nat.not_lt.2 h3)] at e
    refine does_of_performAt hp hm e ⟨?_, sameMemory_onOp .., sameRegs_onOp s p k o.serial _, _, State.opOf_onOp hp.1 hop (fun _ => rfl), rfl, rfl⟩
    rw [State.fu_onOp]

end Feed

/-! ## WLD -/

section Wld

variable {s : State} {p k pick : Nat} {o : Op} {b : BitVec 64}

theorem extract_upper_eq_zero (b : BitVec 64) : b.extractLsb' 16 48 = 0 ↔ b.toNat < 2 ^ 16 := by
  rw [← BitVec.toNat_inj, extract_toNat]
  have := b.isLt
  change b.toNat / 2 ^ 16 % 2 ^ 48 = 0 ↔ _
  omega

theorem State.performAt_wld (hk : o.act.kind = .wld b) : s.performAt p k o pick = s.wldEvent p k o b := by
  simp only [State.performAt, hk]

/-- A WLD outside a field, on a plot that is not NORTH, or with a tile number beyond 16 bits finds FIELD. -/
theorem State.wldEvent_field (h : s.fieldOf p = none ∨ (s.plot p).fu.north? = false ∨ 2 ^ 16 ≤ b.toNat) :
    s.wldEvent p k o b = s.deferFault p k o { cause := .field } := by
  unfold State.wldEvent
  dsimp only
  split
  · rfl
  · rename_i f hf
    split
    · rfl
    · split
      · rfl
      · refine if_pos ?_
        rcases h with h | h | h
        · rw [hf] at h
          cases h
        · simp [h]
        · simpa using .inr (mt (extract_upper_eq_zero b).1 (Nat.not_lt.2 h))

/-- The words of a weight tile that the loader of a NORTH plot loads (R268). -/
def State.wldWords (s : State) (f : Field) (c : Nat) : List (Nat × Nat) :=
  (List.range f.lr).flatMap (fun i => (List.range (s.localCols f c).length).map (fun j => (i, j)))

/-- What a WLD places in the loader (R278). -/
def State.wldCmd (s : State) (p k : Nat) (o : Op) (n : Nat) (words : List (Nat × Nat)) : WldCmd :=
  { serial := o.serial, uid := (s.task p k).uid, mx := o.act.mx, slot := k, bpc := o.bpc, ptr := o.act.ptr, priv := o.priv, n := n, left := words }

theorem State.wldEvent_legal {f : Field} {r c : Nat} {a : Agen} (hf : s.fieldOf p = some f) (hpos : s.fieldPos f p = some (r, c))
    (hgen : f.gen r c 2 = some a) (hw : (s.plot p).fu.north? = true) (hb : b.toNat < 2 ^ 16) :
    let words := s.wldWords f c
    let rs := words.flatMap (fun x => f.wordRanges a b.toNat x.1 x.2)
    s.wldEvent p k o b =
      if !rangesFit o.act.ptr rs then s.deferFault p k o { cause := .capb }
      else if s.srcHole (dieOf p) a o.act.ptr rs then
        s.deferFault p k o { cause := .absent, obj := if o.act.ptr.isPhys then 0 else o.act.ptr.obj }
      else if words.isEmpty then s.finishOp p k o none
      else if (s.plot p).fu.wlds.any (fun x => x.serial == o.serial) then s
      else s.onFu p (fun u => { u with wlds := u.wlds ++ [s.wldCmd p k o b.toNat words] }) := by
  have hn : (b.extractLsb' 0 16).toNat = b.toNat := by
    rw [extract_toNat, Nat.pow_zero, Nat.div_one, Nat.mod_eq_of_lt hb]
  unfold State.wldEvent
  simp only [hf, hpos, hgen, hw, (extract_upper_eq_zero b).2 hb, hn, bne_self_eq_false, Bool.not_true, Bool.or_self, Bool.false_eq_true, if_false]
  rfl

theorem fails_wld_field (hp : s.performs p k o) (hk : o.act.kind = .wld b)
    (h : s.fieldOf p = none ∨ (s.plot p).fu.north? = false ∨ 2 ^ 16 ≤ b.toNat) : s.fails p k o pick .field :=
  fails_of_deferFault (e := { cause := .field }) hp (by rw [hk]; rfl) ((State.performAt_wld hk).trans (State.wldEvent_field h))

/-- A legal WLD is checked against its view and its window, then taken by the loader, unless it has no word to load. -/
theorem wld_legal (hp : s.performs p k o) (hk : o.act.kind = .wld b) {f : Field} {r c : Nat} {a : Agen} (hf : s.fieldOf p = some f)
    (hpos : s.fieldPos f p = some (r, c)) (hgen : f.gen r c 2 = some a) (hw : (s.plot p).fu.north? = true) (hb : b.toNat < 2 ^ 16) :
    let u := (s.plot p).fu
    let words := s.wldWords f c
    let rs := words.flatMap (fun x => f.wordRanges a b.toNat x.1 x.2)
    (rangesFit o.act.ptr rs = false → s.fails p k o pick .capb) ∧
    (rangesFit o.act.ptr rs = true → s.srcHole (dieOf p) a o.act.ptr rs = true → s.fails p k o pick .absent) ∧
    (rangesFit o.act.ptr rs = true → s.srcHole (dieOf p) a o.act.ptr rs = false →
      (words = [] → s.does p k o pick (fun v => s.over v p k o)) ∧
      (words ≠ [] → (∀ x ∈ u.wlds, x.serial ≠ o.serial) → s.does p k o pick (fun v => (∃ x, v.opOf p k o.serial = some x ∧ x.act = o.act) ∧
        SameMemory s v ∧ SameRegs s v ∧ (v.plot p).fu.wlds = u.wlds ++ [s.wldCmd p k o b.toNat words]))) := by
  intro u words rs
  have hm : o.act.kind.isMem = false := by rw [hk]; rfl
  have e := (State.performAt_wld (s := s) (p := p) (k := k) (pick := pick) hk).trans (State.wldEvent_legal hf hpos hgen hw hb)
  refine ⟨fun h1 => ?_, fun h1 h2 => ?_, fun h1 h2 => ⟨fun h3 => ?_, fun h3 h4 => ?_⟩⟩
  · rw [if_pos (by rw [h1]; rfl)] at e
    exact fails_of_deferFault hp hm e
  · rw [if_neg (by rw [h1]; exact Bool.false_ne_true), if_pos h2] at e
    exact fails_of_deferFault hp hm e
  · rw [if_neg (by rw [h1]; exact Bool.false_ne_true), if_neg (by rw [h2]; exact Bool.false_ne_true), if_pos (List.isEmpty_iff.2 h3)] at e
    exact does_of_performAt hp hm e (over_of_finishOp hp rfl)
  · rw [if_neg (by rw [h1]; exact Bool.false_ne_true), if_neg (by rw [h2]; exact Bool.false_ne_true), if_neg (mt List.isEmpty_iff.1 h3),
      if_neg (by simpa using h4)] at e
    refine does_of_performAt hp hm e ⟨⟨o, (State.opOf_onFu ..).trans hp.2.2.1, rfl⟩, sameMemory_onFu .., sameRegs_onFu s p _, ?_⟩
    rw [State.fu_onFu, if_pos rfl]

end Wld

/-! ## ACLR -/

/-- A tile that is empty, with its accumulators 0 and no row marked (R253, R254). -/
def FUnit.cleared (u : FUnit) (i : Nat) : Prop :=
  (u.tile i).st = .empty ∧ (u.tile i).prog = 0 ∧ (u.tile i).cur = 0 ∧
  (∀ r < (u.tile i).rows, ∀ h < 16, u.accAt ((u.tile i).base + r) h = 0) ∧ u.prow i = none

/-- A key that a filter drops reads as the default. -/
theorem SMap.get_filter_dropped {α : Type} (m : SMap α) {g : Nat × α → Bool} {k : Nat} (h : ∀ v, g (k, v) = false) (d : α) :
    SMap.get (m.filter g) k d = d := by
  induction m with
  | nil => rfl
  | cons x t ih =>
    obtain ⟨j, v⟩ := x
    rw [List.filter_cons]
    split
    · rename_i hg
      have hj : j ≠ k := fun e => by
        rw [e, h v] at hg
        cases hg
      rw [SMap.get, if_neg hj, ih]
    · exact ih

theorem FUnit.tile_clearTile (u : FUnit) (i : Nat) :
    (u.clearTile i).tile i = { u.tile i with st := .empty, prog := 0, cur := 0, eos := false, pend := [] } := SMap.get_put_same ..

theorem FUnit.accLost_clearTile (u : FUnit) (i : Nat) : (u.clearTile i).accLost = u.accLost := rfl

theorem FUnit.acc_clearTile (u : FUnit) (i : Nat) : (u.clearTile i).acc =
    let x := u.tile i
    let kept := u.acc.filter (fun e => !(decide (x.base ≤ e.1 / 16) && decide (e.1 / 16 < x.base + x.rows)))
    if u.accLost = 0 then kept else (List.range (16 * x.rows)).foldl (fun (m : SMap (BitVec 40)) j => SMap.put m (16 * x.base + j) 0) kept := rfl

theorem FUnit.clearTile_cleared (u : FUnit) (i : Nat) : (u.clearTile i).cleared i := by
  unfold FUnit.cleared
  rw [FUnit.tile_clearTile]
  refine ⟨rfl, rfl, rfl, fun r hr h hh => ?_, ?_⟩
  · have hr' : r < (u.tile i).rows := hr
    rw [FUnit.accAt, FUnit.accLost_clearTile, FUnit.acc_clearTile]
    change SMap.get _ (16 * ((u.tile i).base + r) + h) _ = 0
    dsimp only
    by_cases hl : u.accLost = 0
    · rw [if_pos hl, if_pos hl]
      refine SMap.get_filter_dropped _ (fun v => ?_) 0
      have e : (16 * ((u.tile i).base + r) + h) / 16 = (u.tile i).base + r := by omega
      simp [e, hr']
    · rw [if_neg hl, if_neg hl]
      have hkey : 16 * ((u.tile i).base + r) + h = 16 * (u.tile i).base + (16 * r + h) := by omega
      rw [hkey]
      have hin : 16 * r + h ∈ List.range (16 * (u.tile i).rows) := List.mem_range.2 (by omega)
      refine foldl_reaches (P := fun m : SMap (BitVec 40) => SMap.get m (16 * (u.tile i).base + (16 * r + h)) _ = 0) (fun m => ?_) (fun m j hm => ?_) hin _
      · exact SMap.get_put_same ..
      rw [SMap.get_put]
      split
      · rfl
      · exact hm
  · unfold FUnit.prow
    rw [FUnit.tile_clearTile]
    refine List.find?_eq_none.2 (fun r hr => ?_)
    have hr' : r < (u.tile i).rows := List.mem_range.1 hr
    simp [FUnit.clearTile, FUnit.setTile, hr']

section Aclr

variable {s : State} {p k pick : Nat} {o : Op} {a : BitVec 64}

theorem State.performAt_aclr (hk : o.act.kind = .aclr a) : s.performAt p k o pick = s.aclrEvent p k o a := by
  simp only [State.performAt, hk]

/-- The plots whose tile an ACLR clears (R254). -/
def State.aclrPlots (s : State) (f : Field) (p : Nat) (a : BitVec 64) : List Nat :=
  if a.getLsbD 4 then (List.range f.cols).map (fun c => s.fieldPlot f (f.rows - 1) c) else [p]

/-- The tiles of some plots cleared. -/
def State.clearTiles (s : State) (ps : List Nat) (i : Nat) : State := ps.foldl (fun s q => s.onFu q (fun u => u.clearTile i)) s

theorem fails_aclr_field (hp : s.performs p k o) (hk : o.act.kind = .aclr a) (hf : s.fieldOf p = none) : s.fails p k o pick .field := by
  refine fails_of_deferFault (e := { cause := .field }) hp (by rw [hk]; rfl) ((State.performAt_aclr hk).trans ?_)
  unfold State.aclrEvent
  rw [hf]

theorem State.aclrEvent_some {f : Field} (hf : s.fieldOf p = some f) :
    let i := a.toNat % 16
    let ps := s.aclrPlots f p a
    s.aclrEvent p k o a = if (!a.getLsbD 4 && !(s.plot p).fu.south?) || ps.any (fun q => ((s.plot q).fu.tile i).rows == 0) then
        s.deferFault p k o { cause := .field }
      else if f.passes.any (fun x => x.entered && x.tile.toNat == i) || ps.any (fun q => ((s.plot q).fu.tile i).emptying) then s
      else (s.clearTiles ps i).finishOp p k o none := by
  have hi : (a.extractLsb' 0 4).toNat = a.toNat % 16 := by simp
  unfold State.aclrEvent
  rw [hf]
  simp only [hi]
  rfl

theorem State.clearTiles_frame (s : State) (ps : List Nat) (i p k : Nat) : (s.clearTiles ps i).task p k = s.task p k ∧ SameMemory s (s.clearTiles ps i) :=
  ⟨foldl_keeps (fun w : State => w.task p k) _ ps (fun _ _ _ => State.task_onFu ..) s,
    foldl_inv_mem (P := SameMemory s) (fun _ hw _ _ => hw.trans (sameMemory_onFu ..)) ⟨fun _ => rfl, fun _ => rfl⟩⟩

theorem State.clearTiles_clears (s : State) {ps : List Nat} (i : Nat) {q : Nat} (hq : q ∈ ps) : (((s.clearTiles ps i).plot q).fu).cleared i := by
  refine foldl_reaches (P := fun w : State => ((w.plot q).fu).cleared i) (fun w => ?_) (fun w y hw => ?_) hq s
  · rw [State.fu_onFu, if_pos rfl]
    exact FUnit.clearTile_cleared ..
  · rw [State.fu_onFu]
    split
    · exact FUnit.clearTile_cleared ..
    · exact hw

/-- Clearing a tile leaves ROWS and BASE. -/
theorem State.clearTiles_shape (s : State) (ps : List Nat) (i q : Nat) :
    (((s.clearTiles ps i).plot q).fu.tile i).rows = ((s.plot q).fu.tile i).rows ∧
    (((s.clearTiles ps i).plot q).fu.tile i).base = ((s.plot q).fu.tile i).base := by
  have hstep : ∀ (g : Tile → Nat), (∀ x : Tile, g { x with st := .empty, prog := 0, cur := 0, eos := false, pend := [] } = g x) →
      g (((s.clearTiles ps i).plot q).fu.tile i) = g ((s.plot q).fu.tile i) := by
    intro g hg
    refine foldl_keeps (fun w : State => g ((w.plot q).fu.tile i)) _ ps (fun w y _ => ?_) s
    rw [State.fu_onFu]
    split
    · rw [FUnit.tile_clearTile, hg]
    · rfl
  exact ⟨hstep Tile.rows (fun _ => rfl), hstep Tile.base (fun _ => rfl)⟩

/-- An ACLR in a field finds FIELD, waits, or clears. -/
theorem aclr_performs (hp : s.performs p k o) (hk : o.act.kind = .aclr a) {f : Field} (hf : s.fieldOf p = some f) :
    let i := a.toNat % 16
    let ps := s.aclrPlots f p a
    let bad := (a.getLsbD 4 = false ∧ (s.plot p).fu.south? = false) ∨ ∃ q ∈ ps, ((s.plot q).fu.tile i).rows = 0
    let busy := (∃ x ∈ f.passes, x.entered = true ∧ x.tile.toNat = i) ∨ ∃ q ∈ ps, ((s.plot q).fu.tile i).emptying = true
    (bad → s.fails p k o pick .field) ∧ (¬bad → busy → exec (.commitOpPerform p k o.serial pick) s = .next s) ∧
    (¬bad → ¬busy → s.does p k o pick (fun v => s.over v p k o ∧ SameMemory s v ∧ ∀ q ∈ ps,
      let x := (s.plot q).fu.tile i
      let y := (v.plot q).fu
      (y.tile i).st = .empty ∧ (y.tile i).prog = 0 ∧ (y.tile i).cur = 0 ∧ (y.tile i).rows = x.rows ∧ (y.tile i).base = x.base ∧
      (∀ r < x.rows, ∀ h < 16, y.accAt (x.base + r) h = 0) ∧ y.prow i = none)) := by
  intro i ps bad busy
  have hm : o.act.kind.isMem = false := by rw [hk]; rfl
  have hbad : ((!a.getLsbD 4 && !(s.plot p).fu.south?) || ps.any (fun q => ((s.plot q).fu.tile i).rows == 0)) = true ↔ bad := by simp [bad]
  have hbusy : (f.passes.any (fun x => x.entered && x.tile.toNat == i) || ps.any (fun q => ((s.plot q).fu.tile i).emptying)) = true ↔ busy := by
    simp [busy]
  have e := (State.performAt_aclr (s := s) (p := p) (k := k) (pick := pick) hk).trans (State.aclrEvent_some hf)
  refine ⟨fun h => ?_, fun h1 h2 => ?_, fun h1 h2 => ?_⟩
  · rw [if_pos (hbad.2 h)] at e
    exact fails_of_deferFault hp hm e
  · rw [if_neg (mt hbad.1 h1), if_pos (hbusy.2 h2)] at e
    exact exactly_of_performAt hp hm e
  · rw [if_neg (mt hbad.1 h1), if_neg (mt hbusy.1 h2)] at e
    obtain ⟨htask, hmem⟩ := State.clearTiles_frame s ps i p k
    obtain ⟨hsame, -, hfu⟩ := State.finishOp_frame (s := s.clearTiles ps i) (p := p) (k := k) o none (by rw [htask]; exact hp.2.2.2.2.1)
    refine does_of_performAt hp hm e ⟨over_of_finishOp hp htask, hmem.trans hsame, fun q hq => ?_⟩
    obtain ⟨h3, h4, h5, h6, h7⟩ := State.clearTiles_clears s i hq
    obtain ⟨h8, h9⟩ := State.clearTiles_shape s ps i q
    rw [h8, h9] at h6
    rw [hfu]
    exact ⟨h3, h4, h5, h8, h9, h6, h7⟩

/-! ## ASTA -/

/-- ASTA delivers the state word of its tile, 0 off a SOUTH plot of a field (R252, R282). -/
theorem asta_performs (hp : s.performs p k o) (hk : o.act.kind = .asta a) : s.does p k o pick (fun v => SameMemory s v ∧
    s.lands v p k o (.int (if s.fieldOf p ≠ none ∧ (s.plot p).fu.south? = true then (s.plot p).fu.tileWord (a.toNat % 16) else 0))) := by
  have hi : (a.extractLsb' 0 4).toNat = a.toNat % 16 := by simp
  have e : s.performAt p k o pick = s.finishOp p k o
      (some (.int (if s.fieldOf p ≠ none ∧ (s.plot p).fu.south? = true then (s.plot p).fu.tileWord (a.toNat % 16) else 0))) := by
    simp only [State.performAt, hk, State.astaEvent, hi, Bool.and_eq_true, Option.isSome_iff_ne_none]
  exact does_of_performAt hp (by rw [hk]; rfl) e ⟨(State.finishOp_frame o _ hp.2.2.2.2.1).1, lands_of_finishOp hp rfl⟩

end Aclr

end Sys2Proof.Machine
end

