-- ==== Sys2Proof/Proofs/FieldConfiguration.lean ====
section
/-! PROOFS. CFG.CONF as it performs (R273, R274): it waits, is refused, or configures its plots and delivers the handle. -/

namespace Sys2Proof.Machine

open Sys2Proof

/-! ## Rill entries installed -/

/-- What installing rill entries leaves alone: the fields, the module with its name table, and the tasks. -/
def State.unwired (s : State) : List Field × Module × (Nat → Nat → Task) := (s.fields, s.mod, fun q j => s.task q j)

theorem unwired_onPlot (s : State) (p : Nat) {f : Plot → Plot} (h : ∀ x, (f x).tasks = x.tasks) : (s.onPlot p f).unwired = s.unwired :=
  Prod.ext rfl (Prod.ext rfl (funext (fun q => funext (fun j => State.task_onPlot s p q j f h))))

theorem unwired_setRill (s : State) (p e : Nat) (r : Rill) : (s.setRill p e r).unwired = s.unwired :=
  unwired_onPlot s p (f := fun x => { x with rills := x.rills.put e r }) (fun _ => rfl)

theorem unwired_setRoute (s : State) (p i : Nat) (w : BitVec 12) : (s.onPlot p (fun x => { x with routes := x.routes.put i w })).unwired = s.unwired :=
  unwired_onPlot s p (f := fun x => { x with routes := x.routes.put i w }) (fun _ => rfl)

theorem unwired_takePath (s : State) (lo : Nat) (ps : List (Nat × Nat)) : ∀ x, s.takePath lo ps = some x → x.1.unwired = s.unwired := by
  induction ps with
  | nil =>
    intro x hx
    obtain rfl := Option.some.inj hx
    rfl
  | cons y t ih =>
    obtain ⟨p, o⟩ := y
    intro x hx
    rw [State.takePath] at hx
    split at hx
    · cases hx
    · rename_i s1 next used h1
      split at hx
      · cases hx
      · obtain rfl := Option.some.inj hx
        exact (unwired_setRoute s1 ..).trans (ih _ h1)

theorem unwired_installOne {s t : State} {d : RDecl} {launch : BitVec 32} {field : Option (BitVec 32)} (h : s.installOne d launch field = some t) :
    t.unwired = s.unwired := by
  unfold State.installOne at h
  extract_lets r put at h
  have hput : ∀ u ent path, (put u ent path).unwired = u.unwired := by
    intro u ent path
    simp only [put]
    split
    · exact (unwired_setRill ..).trans (unwired_setRill ..)
    · exact unwired_setRill ..
  clear_value put
  split at h
  · obtain rfl := Option.some.inj h
    rfl
  · split at h
    · obtain rfl := Option.some.inj h
      exact hput ..
    · split at h
      · split at h
        · obtain rfl := Option.some.inj h
          exact hput ..
        · cases h
      · split at h
        · cases h
        · split at h
          · cases h
          · rename_i hpath
            obtain rfl := Option.some.inj h
            exact (hput ..).trans (unwired_takePath _ _ _ _ hpath)

theorem unwired_installAll {s t : State} {ds : List RDecl} {launch : BitVec 32} {field : Option (BitVec 32)} (h : s.installAll ds launch field = some t) :
    t.unwired = s.unwired := by
  have key : ∀ u, (ds.foldl (fun acc d => match acc with
      | some s => s.installOne d launch field
      | none => none) (some s)) = some u → u.unwired = s.unwired := by
    refine foldl_inv_mem (P := fun acc : Option State => ∀ u, acc = some u → u.unwired = s.unwired) (fun acc ih d _ u hu => ?_)
      (fun u hu => by rw [← Option.some.inj hu])
    cases acc with
    | none => cases hu
    | some w => exact (unwired_installOne hu).trans (ih w rfl)
  unfold State.installAll at h
  split at h
  · cases h
  · exact key t h

/-! ## The checks passed -/

section Checks

variable {s : State} {p k : Nat} {o : Op} {a : BitVec 64} {q : Nat}

/-- An image that no refusal applies to is whole, and its header, its rectangle and its rows pass (R273). -/
theorem State.confCode_none {c : Conf} (h : s.confCode p k o a q c = none) :
    (s.mod.pscur == 2 || s.mod.pscur == 3) = false ∧ (c.img.hdr.cls != 0x7E) = false ∧
    (c.img.whole && decide (crc32 c.img.crcBytes ≠ c.img.hdr.fld 32 32)) = false ∧
    (decide (3 < c.img.mode) = false ∧ (c.img.rows == 0) = false ∧ decide (84 < c.img.rows) = false ∧ (c.img.cols == 0) = false ∧
      decide (192 < c.img.cols) = false ∧ (c.img.k == 0) = false) ∧
    s.confPlots c.fld (s.task p k).launch = true ∧ decide ((s.availRows c.fld).length < c.img.lr) = false ∧ c.img.whole = true ∧
    decide (c.img.rows ≤ c.img.mrow) = false ∧ decide (c.img.cols ≤ c.img.mcol) = false := by
  have hall := List.find?_eq_none.1 (Option.map_eq_none_iff.1 h)
  simp only [List.forall_mem_cons, Bool.not_eq_true, Bool.or_eq_false_iff] at hall
  obtain ⟨h1, -, -, -, h5, h6, h7, -, h9, h10, -, -, -, h14, -, h16, -⟩ := hall
  simp_all

/-- The same said of the image's field. -/
theorem conf_passed {c : Conf} (hc : s.confOf p k o a q = c) (h : s.confCode p k o a q c = none) :
    let i := c.img
    let f := c.fld
    s.mod.pscur ≠ 2 ∧ s.mod.pscur ≠ 3 ∧ i.hdr.cls = 0x7E ∧ crc32 i.crcBytes = i.hdr.fld 32 32 ∧ f.mode ≤ 3 ∧ 1 ≤ f.rows ∧ f.rows ≤ 84 ∧
      1 ≤ f.cols ∧ f.cols ≤ 192 ∧ f.k ≠ 0 ∧ f.lr ≤ (s.availRows f).length ∧ f.mrow < f.rows ∧ f.mcol < f.cols ∧
      ∀ x ∈ f.cellsOf, (s.plot (s.fieldPlot f x.1 x.2)).fu.handle = 0xFFFFFFFF ∧
        (s.plot (s.fieldPlot f x.1 x.2)).owner.map (fun y => y.1) = some (s.task p k).launch := by
  intro i f
  obtain ⟨h1, h2, h3, ⟨h4, h5, h6, h7, h8, h9⟩, h10, h11, h12, h13, h14⟩ := State.confCode_none h
  have hshape : f.mode = i.mode ∧ f.rows = i.rows ∧ f.cols = i.cols ∧ f.k = i.k ∧ f.lr = i.lr ∧ f.mrow = i.mrow ∧ f.mcol = i.mcol := by
    subst hc
    exact ⟨rfl, rfl, rfl, rfl, rfl, rfl, rfl⟩
  obtain ⟨e1, e2, e3, e4, e5, e6, e7⟩ := hshape
  rw [e1, e2, e3, e4, e5, e6, e7]
  simp only [Bool.or_eq_false_iff, beq_eq_false_iff_ne, bne_eq_false_iff_eq, decide_eq_false_iff_not, Nat.not_lt, Nat.not_le, h12, Bool.true_and,
    ne_eq, not_not] at h1 h2 h3 h4 h5 h6 h7 h8 h9 h11 h13 h14
  refine ⟨h1.1, h1.2, h2, h3, h4, Nat.one_le_iff_ne_zero.2 h5, h6, Nat.one_le_iff_ne_zero.2 h7, h8, h9, h11, h13, h14, fun x hx => ?_⟩
  have hall := (Bool.and_eq_true_iff.1 h10).1
  simpa using List.all_eq_true.1 hall x hx

end Checks

/-! ## The field configured -/

/-- A plot that belongs to the field of a handle, with empty feeder and loader and its caps at their greatest (R258, R273). -/
def FUnit.joins (u : FUnit) (h : BitVec 32) : Prop :=
  u.handle = h ∧ u.feeds = [] ∧ u.wlds = [] ∧ u.port0.pcap = 1024 ∧ u.port1.pcap = 1024

theorem State.confUnit_joins (s : State) (i : Image) (f : Field) (r c : Nat) (u : FUnit) : (s.confUnit i f r c u).joins f.handle := by
  simp only [FUnit.joins, State.confUnit, and_self]

theorem State.resolve_of_mod {s t : State} (h : s.mod = t.mod) (n : BitVec 32) : s.resolve n = t.resolve n := by
  unfold State.resolve State.rectPlot
  rw [h]

theorem State.fieldPlot_of_mod {s t : State} (h : s.mod = t.mod) (f : Field) (r c : Nat) : s.fieldPlot f r c = t.fieldPlot f r c := by
  unfold State.fieldPlot
  rw [State.resolve_of_mod h]

/-- The field units of some plots set one after the other. -/
def State.setUnits (s : State) (i : Image) (f : Field) (xs : List (Nat × Nat)) : State :=
  xs.foldl (fun s x => s.onFu (s.fieldPlot f x.1 x.2) (fun u => s.confUnit i f x.1 x.2 u)) s

theorem State.setUnits_frame (s : State) (i : Image) (f : Field) (xs : List (Nat × Nat)) : (s.setUnits i f xs).unwired = s.unwired :=
  foldl_keeps State.unwired _ xs (fun s x _ => unwired_onPlot s (s.fieldPlot f x.1 x.2) (f := fun y => { y with fu := s.confUnit i f x.1 x.2 y.fu })
    (fun _ => rfl)) s

/-- The units of a field's plots set one after the other, each at the place that the name table gives it. -/
theorem joins_of_cells {s t : State} (hmod : s.mod = t.mod) (i : Image) (f : Field) {xs : List (Nat × Nat)} {x : Nat × Nat} (hx : x ∈ xs) :
    ((t.setUnits i f xs).plot (s.fieldPlot f x.1 x.2)).fu.joins f.handle := by
  refine foldl_reaches (P := fun w : State => s.mod = w.mod → (w.plot (s.fieldPlot f x.1 x.2)).fu.joins f.handle)
    (fun w hw => ?_) (fun w y ih hw => ?_) hx t (hmod.trans (congrArg (fun v => v.2.1) (State.setUnits_frame t i f xs)).symm)
  · have hw' : s.mod = w.mod := hw
    rw [State.fu_onFu, if_pos (State.fieldPlot_of_mod hw' f x.1 x.2)]
    exact State.confUnit_joins ..
  · rw [State.fu_onFu]
    split
    · exact State.confUnit_joins ..
    · exact ih hw

/-- A configured field is the last of the list, its plots belong to it, and the tasks are as they were. -/
theorem State.configure_some {s t : State} {die : Nat} {c : Conf} {f : Field} (h : s.configure die c f = some t) :
    t.fields = s.fields ++ [{ f with agens := s.confGens die c, entries := c.rills.map (fun d => (d.p, d.e)) }] ∧
    (∀ q j, t.task q j = s.task q j) ∧ ∀ x ∈ f.cellsOf, (t.plot (s.fieldPlot f x.1 x.2)).fu.joins f.handle := by
  unfold State.configure at h
  split at h
  · cases h
  · rename_i s1 hs1
    obtain rfl := Option.some.inj h
    have hu := unwired_installAll hs1
    have hmod : s1.mod = s.mod := congrArg (fun v => v.2.1) hu
    let g : Field := { f with agens := s.confGens die c, entries := c.rills.map (fun d => (d.p, d.e)) }
    have hset := State.setUnits_frame { s1 with fields := s1.fields ++ [g] } c.img f f.cellsOf
    refine ⟨(congrArg Prod.fst hset).trans (congrArg (· ++ [g]) (congrArg Prod.fst hu)), fun q j => ?_, fun x hx => ?_⟩
    · exact (congrFun (congrFun (congrArg (fun v => v.2.2) hset) q) j).trans (congrFun (congrFun (congrArg (fun v => v.2.2) hu) q) j)
    · exact joins_of_cells (t := { s1 with fields := s1.fields ++ [g] }) hmod.symm c.img f hx

/-! ## CONF -/

section Conf

variable {s : State} {p k pick : Nat} {o : Op} {a : BitVec 64}

/-- The position that a CONF reads its image from. -/
def Op.imageAt (o : Op) : Nat := o.act.ptr.start + o.act.ptr.cur.toNat

/-- The handle of a field whose origin is a (R274). -/
def State.confHandle (s : State) (a : BitVec 64) : BitVec 32 := a.extractLsb' 0 32 ||| BitVec.ofNat 32 (s.gens.get (a.toNat % 2 ^ 32) 0 % 127 + 1)

theorem conf_waits (hp : s.performs p k o) (hk : o.act.kind = .conf a)
    (hw : s.confWaits (dieOf p) o.act.ptr o.imageAt (s.confOf p k o a o.imageAt) = true) : exec (.commitOpPerform p k o.serial pick) s = .next s := by
  refine exactly_of_performAt hp (by rw [hk]; rfl) ?_
  simp only [State.performAt, hk]
  exact if_pos hw

theorem conf_refused (hp : s.performs p k o) (hk : o.act.kind = .conf a)
    (hw : s.confWaits (dieOf p) o.act.ptr o.imageAt (s.confOf p k o a o.imageAt) = false)
    (hl : s.confLost (dieOf p) o.act.ptr o.imageAt (s.confOf p k o a o.imageAt) = []) {e : Nat}
    (he : s.confCode p k o a o.imageAt (s.confOf p k o a o.imageAt) = some e) :
    s.does p k o pick (fun v => s.lands v p k o (.int (BitVec.ofNat 64 (2 ^ 63 + e))) ∧ SameMemory s v ∧ v.fields = s.fields ∧
      ∀ q, (v.plot q).fu = (s.plot q).fu) := by
  have hend : s.performAt p k o pick = s.finishOp p k o (some (.int (BitVec.ofNat 64 (2 ^ 63 + e)))) := by
    simp only [Op.imageAt] at hw hl he
    simp only [State.performAt, hk, State.confEvent, hl, hw, he, List.isEmpty_nil, if_true, Bool.false_eq_true, if_false]
  obtain ⟨hmem, hfields, hfu⟩ := State.finishOp_frame (s := s) o (some (.int (BitVec.ofNat 64 (2 ^ 63 + e)))) hp.2.2.2.2.1
  exact does_of_performAt hp (by rw [hk]; rfl) hend ⟨lands_of_finishOp hp rfl, hmem, hfields, hfu⟩

theorem conf_configures (hp : s.performs p k o) (hk : o.act.kind = .conf a)
    (hw : s.confWaits (dieOf p) o.act.ptr o.imageAt (s.confOf p k o a o.imageAt) = false)
    (hl : s.confLost (dieOf p) o.act.ptr o.imageAt (s.confOf p k o a o.imageAt) = [])
    (he : s.confCode p k o a o.imageAt (s.confOf p k o a o.imageAt) = none)
    (hi : s.installAll (s.confOf p k o a o.imageAt).rills (s.task p k).launch (some (s.confHandle a)) ≠ none) :
    let f := (s.confOf p k o a o.imageAt).fld
    s.does p k o pick (fun v => s.lands v p k o (.int ((s.confHandle a).zeroExtend 64)) ∧
      (∃ l g, v.fields = s.fields ++ [{ f with handle := s.confHandle a, idx := s.freeFieldIdx f.launch, agens := l, entries := g }]) ∧
      ∀ x ∈ f.cellsOf, (v.plot (s.fieldPlot f x.1 x.2)).fu.joins (s.confHandle a)) := by
  intro f
  have hh : a.extractLsb' 0 32 ||| BitVec.ofNat 32 (s.nextGen (a.extractLsb' 0 32)) = s.confHandle a := by
    have e : (a.extractLsb' 0 32).toNat = a.toNat % 2 ^ 32 := by simp
    simp only [State.nextGen, State.confHandle, e]
  obtain ⟨t, ht⟩ : ∃ t, s.configure (dieOf p) (s.confOf p k o a o.imageAt) { f with handle := s.confHandle a, idx := s.freeFieldIdx f.launch } = some t := by
    unfold State.configure
    split
    · rename_i hnone
      exact absurd hnone hi
    · exact ⟨_, rfl⟩
  have hend : ∃ g, s.performAt p k o pick = State.finishOp { t with gens := g } p k o (some (.int ((s.confHandle a).zeroExtend 64))) := by
    refine ⟨t.gens.put (a.extractLsb' 0 32).toNat (s.nextGen (a.extractLsb' 0 32)), ?_⟩
    simp only [Op.imageAt, f] at hw hl he ht
    simp only [State.performAt, hk, State.confEvent, hl, hw, he, hh, List.isEmpty_nil, if_true, Bool.false_eq_true, if_false]
    rw [ht]
  obtain ⟨gens, hend⟩ := hend
  obtain ⟨hfields, htask, hjoins⟩ := State.configure_some ht
  have hleave : (State.task { t with gens := gens } p k).leaving = .no := (congrArg Task.leaving (htask p k)).trans hp.2.2.2.2.1
  obtain ⟨-, hf, hfu⟩ := State.finishOp_frame o (some (.int ((s.confHandle a).zeroExtend 64))) hleave
  refine does_of_performAt hp (by rw [hk]; rfl) hend ⟨lands_of_finishOp hp (htask p k), ⟨_, _, hf.trans hfields⟩, fun x hx => ?_⟩
  rw [hfu]
  exact hjoins x hx

end Conf

end Sys2Proof.Machine
end

