-- ==== Sys2Proof/Proofs/FieldForms.lean ====
section
/-! PROOFS. ADM.ASET at the commit (R283), and the field, ACC, admission and drain forms together (R46, R259, R272 to R283). -/

namespace Sys2Proof.Machine

open Sys2Proof

/-! ## What a commit without pops leaves of the field units -/

/-- The fields, and the field units of every plot. -/
def State.units (s : State) : List Field × (Nat → FUnit) := (s.fields, fun q => (s.plot q).fu)

theorem State.units_onPlot (s : State) (p : Nat) {f : Plot → Plot} (h : ∀ x, (f x).fu = x.fu) : (s.onPlot p f).units = s.units :=
  Prod.ext rfl (funext (fun q => State.onPlot_keeps Plot.fu s p q h))

theorem State.units_onTask (s : State) (p k : Nat) (f : Task → Task) : (s.onTask p k f).units = s.units := State.units_onPlot s p (fun _ => rfl)

theorem units_of_still {s t : State} (h : s.still = t.still) : s.units = t.units := Prod.ext (congrArg Still.fields h) (funext (fu_of_still h))

theorem State.units_bump (s : State) (p i n : Nat) : (s.bump p i n).units = s.units := units_of_still (State.still_bump s p i n)

theorem State.units_transfer {s : State} {cx : Cx} (hs : cx.blk.branch ≠ some .endt ∧ ∀ n, cx.blk.branch ≠ some (.trap n)) :
    (s.transfer cx).units = s.units :=
  State.transfer_keeps State.units hs (fun s => units_of_still (State.still_ready s ..)) (fun s => State.units_onTask s ..)
    (fun s _ => State.units_onTask s ..) (fun s _ => State.units_onTask s ..) (fun _ s _ => State.units_onTask s ..) (fun _ _ s => State.units_onTask s ..)

theorem State.units_commitShows (s : State) (cx : Cx) : (s.commitShows cx).units = s.units := by
  unfold State.commitShows State.showTask
  rw [State.units_onTask]
  split
  · rfl
  · exact State.units_onTask ..

theorem fieldOf_of_units {s t : State} (h : s.units = t.units) (p : Nat) : s.fieldOf p = t.fieldOf p := by
  have hf : s.fields = t.fields := congrArg Prod.fst h
  have hu : (s.plot p).fu = (t.plot p).fu := congrFun (congrArg Prod.snd h) p
  simp only [State.fieldOf, State.liveField, hf, hu]

theorem units_of_view {s t : State} (h : s.view = t.view) : s.units = t.units :=
  Prod.ext (congrArg (fun v => v.2.2) h) (funext (fun q => congrArg (fun v => v.2.1) (plot_view_of_view h q)))

/-! ## ASET -/

/-- A port with a new cap, which its count respects at once (R258, R283). -/
def AdmPort.capped (a : AdmPort) (cap : Nat) : AdmPort := { a with pcap := cap }.clampCnt

/-- Admission port x[0] of a plot given a cap. -/
def FUnit.setCap (u : FUnit) (x : BitVec 64) (cap : Nat) : FUnit :=
  if x.getLsbD 0 then { u with port1 := u.port1.capped cap } else { u with port0 := u.port0.capped cap }

theorem State.applyAct_aset {s : State} {p : Nat} (x b : BitVec 64) (h : s.fieldOf p ≠ none) :
    s.applyAct p { kind := .aset x b } = s.onFu p (fun u => u.setCap x (max 1 (min 1024 b.toInt)).toNat) := by
  have hsome : ¬((s.fieldOf p).isNone = true) := by simpa using h
  exact if_neg hsome

/-- The field units after a commit whose one act is an ASET on a plot of a field. -/
theorem State.commit_aset {w : State} {cx : Cx} {k : Nat} {x b : BitVec 64} (ht : cx.t < 16) (ha : cx.blk.acts = [(k, { kind := .aset x b })])
    (hs : cx.blk.branch ≠ some .endt ∧ ∀ n, cx.blk.branch ≠ some (.trap n)) (hl : (w.task cx.p cx.t).leaving = .no)
    (hp : ∀ r ∈ cx.blk.slots, r.pop = none) (hf : w.fieldOf cx.p ≠ none) :
    (((w.commit cx).commitAcc cx.p cx.t cx.blk).plot cx.p).fu = (w.plot cx.p).fu.setCap x (max 1 (min 1024 b.toInt)).toNat := by
  have hw : ∀ y ∈ cx.blk.acts, ∀ n a, y.2.kind ≠ .wrs n a := by
    rw [ha]
    simp
  have hu : (w.commitWrites cx).units = w.units := by
    unfold State.commitWrites
    rw [ha, State.units_onTask]
    refine (State.units_onTask (w.setHalf cx.p cx.half {}) cx.p cx.t (fun t => t.writeRegs cx.blk)).trans ?_
    exact State.units_onPlot w cx.p (fun y => by cases cx.half <;> rfl)
  have hleave : ((w.commitWrites cx).task cx.p cx.t).leaving = .no := by
    rw [State.task_commitWrites ht hw]
    exact (congrArg Prod.fst (Task.plain_writeFlags _ _)).trans ((Task.writeRegs_keeps Task.leaving (fun _ _ _ _ => rfl) _ _).trans hl)
  have hissues : ∀ s : State, s.commitIssues cx = s.onTask cx.p cx.t Task.haltDeps := by
    intro s
    unfold State.commitIssues
    rw [ha, State.abortOther_none hp]
    rfl
  have heffects : (w.commitWrites cx).commitEffects cx =
      ((((w.commitWrites cx).applyAct cx.p { kind := .aset x b }).bump cx.p 1 1).bump cx.p (32 + cx.t) 1).bump cx.p 13 0 := by
    unfold State.commitEffects
    rw [ha, State.pops_none hp]
    rfl
  have hacc : (w.commit cx).commitAcc cx.p cx.t cx.blk = w.commit cx := by
    unfold State.commitAcc
    rw [ha]
    rfl
  have hend : (w.commit cx).units = ((w.commitWrites cx).applyAct cx.p { kind := .aset x b }).units := by
    rw [(State.commit_flagged hs hleave).1, State.units_commitShows, hissues, State.units_onTask, State.units_transfer hs, heffects, State.units_bump,
      State.units_bump, State.units_bump]
  have hfu : ((w.commitWrites cx).plot cx.p).fu = (w.plot cx.p).fu := congrFun (congrArg Prod.snd hu) cx.p
  have hlast : ((w.commit cx).plot cx.p).fu = (((w.commitWrites cx).applyAct cx.p { kind := .aset x b }).plot cx.p).fu :=
    congrFun (congrArg Prod.snd hend) cx.p
  rw [hacc, hlast, State.applyAct_aset x b (by rwa [fieldOf_of_units hu]), State.fu_onFu, if_pos rfl, hfu]

/-! ## The obligation -/

/-- Settles O30: what each form captures or gives in the slot, what DRN finds, what each operation does as it performs, and what ASET leaves. -/
theorem fieldAndDrainForms : Obligations.FieldAndDrainForms := by
  refine ⟨?_, ?_, ?_, ?_⟩
  · intro s cx p d mx fin swap eos a e g q n w hr hf ha he hg
    exact ⟨asks_conf hr hf ha hg mx, asks_frel hr he mx, asks_feed hr ha hg mx fin swap eos, asks_wld hr ha hg mx, asks_aclr hr he, asks_asta hr hf he,
      asks_aset hr he hg, fun f hlow hl => gives_fqry hr hf he (State.fieldQuery_some hlow hl),
      fun hn => gives_fqry hr hf he (State.fieldQuery_none hn), gives_ard hr hf he⟩
  · intro s cx p d a x n hr hf ha t hn u y cur r v gives all
    refine ⟨fun h => ⟨drn_undrainable (form := .pop) hr ha hn rfl h, drn_undrainable (form := .last) hr ha hn rfl h,
      drn_undrainable (form := .peek) hr ha hn rfl h⟩, fun h1 h2 h3 h4 => ?_⟩
    have hd : s.mayDrain cx.p t := ⟨h1, h2, h3, h4⟩
    refine ⟨fun hs => ⟨drn_stalls (form := .pop) hr ha hn rfl hd (by decide) hs, drn_stalls (form := .last) hr ha hn rfl hd (by decide) hs⟩,
      fun hs hle => ⟨(drn_full (form := .pop) hr ha hn rfl hd hs).1 hle, (drn_full (form := .last) hr ha hn rfl hd hs).1 hle,
        (drn_full (form := .peek) hr ha hn rfl hd hs).1 hle⟩,
      fun hs hlt m hm hle => ⟨(drn_full (form := .pop) hr ha hn rfl hd hs).2 hlt m hm hle, (drn_full (form := .last) hr ha hn rfl hd hs).2 hlt m hm hle,
        (drn_full (form := .peek) hr ha hn rfl hd hs).2 hlt m hm hle⟩,
      fun hlt hm => ⟨drn_gives (form := .peek) hr ha hn rfl hf hd (.inl rfl) hlt hm, fun hs =>
        ⟨drn_gives (form := .pop) hr ha hn rfl hf hd (.inr hs) hlt hm, drn_gives (form := .last) hr ha hn rfl hf hd (.inr hs) hlt hm⟩⟩⟩
  · intro s p k pick o hp does exactly fails t u
    refine ⟨fun a hk => ?_, fun h hk => ?_, fun fin swap eos b hk hn => ?_, fun b hk => ?_, fun a hk => ?_, fun a hk => asta_performs hp hk⟩
    · intro q c i f refuses
      refine ⟨conf_waits hp hk, fun hw hl => ⟨fun e he => conf_refused hp hk hw hl he, fun he => ⟨conf_passed rfl he, fun _ => ?_⟩⟩⟩
      intro h hi
      obtain ⟨v, hv, hlands, ⟨l, g, hfields⟩, hplots⟩ := conf_configures hp hk hw hl he hi
      exact ⟨v, hv, hlands, ⟨_, hfields, rfl, rfl, rfl, rfl, rfl, rfl, rfl, rfl, rfl, rfl, rfl, rfl, rfl⟩, hplots⟩
    · intro field
      exact ⟨frel_stale hp hk, fun f hf hl => frel_live hp hk hf hl⟩
    · intro m q0 legal
      refine ⟨fun h => fails_feed_field hp hk hn ?_, fun f r c a hf hpos hgen hw hb => ?_⟩
      · exact h.imp_right (Or.imp_right (fun hb => Bool.eq_false_iff.2 (mt (feedOk_iff b).1 hb)))
      · obtain ⟨h1, h2, h3⟩ := feed_legal (pick := pick) hp hk hn hf hpos hgen hw ((feedOk_iff b).2 hb)
        refine ⟨h1, h2, fun hfit hhole => ⟨fun hlt => ?_, (h3 hfit hhole).2⟩⟩
        obtain ⟨v, hv, hop, hmem, hregs, hfeeds⟩ := (h3 hfit hhole).1 hlt
        exact ⟨v, hv, hop, hmem, hregs, _, hfeeds, rfl, rfl, rfl, rfl, rfl, rfl, rfl, rfl, rfl, rfl, rfl⟩
    · refine ⟨fails_wld_field hp hk, fun f r c a hf hpos hgen hw hb => ?_⟩
      obtain ⟨h1, h2, h3⟩ := wld_legal (pick := pick) hp hk hf hpos hgen hw hb
      refine ⟨h1, h2, fun hfit hhole => ⟨(h3 hfit hhole).1, fun hne hnew => ?_⟩⟩
      obtain ⟨v, hv, hop, hmem, hregs, hwlds⟩ := (h3 hfit hhole).2 hne hnew
      exact ⟨v, hv, hop, hmem, hregs, _, hwlds, rfl, rfl, rfl, rfl, rfl⟩
    · exact ⟨fails_aclr_field hp hk, fun f hf => aclr_performs hp hk hf⟩
  · intro s t p k h cx x b hr ha hs hp hf
    obtain ⟨w, hv, he⟩ := exec_blockCommit hr
    obtain ⟨rfl, -, ht, htask, hleave, -⟩ := readyToCommit_cx hr
    have hu := units_of_view hv
    have hl : (w.task cx.p cx.t).leaving = .no := by rw [task_of_view hv, ← htask, hleave]
    have hfu := State.commit_aset ht ha ⟨hs.1, hs.2.1⟩ hl hp (by rwa [fieldOf_of_units hu])
    rw [show (w.plot cx.p).fu = (t.plot cx.p).fu from congrFun (congrArg Prod.snd hu) cx.p] at hfu
    refine ⟨_, he, ?_⟩
    dsimp only
    rw [hfu]
    unfold FUnit.setCap
    split
    · exact ⟨⟨rfl, rfl, rfl⟩, rfl⟩
    · exact ⟨⟨rfl, rfl, rfl⟩, rfl⟩

end Sys2Proof.Machine
end

