-- ==== Sys2Proof/Proofs/WordParts.lean ====
section
/-! PROOFS. The parts of an instruction word (R52 to R56): the codes of operands and of its other parts, what is read back from them, the
  word of
its fields, and what the checks of its row say of each field. -/

namespace Sys2Proof

/-! ## The codes of operands, and back -/

@[simp] theorem Fields.pred_fieldsMk (op : BitVec 7) (fn : BitVec 5) (p : Pred) (d a b : BitVec 8) (x : BitVec 19) :
    (fieldsMk op fn p d a b x).pred = some p := by
  cases p <;> rfl

section
variable (op : BitVec 7) (fn : BitVec 5) (p : Pred) (d a b : BitVec 8) (x : BitVec 19)
@[simp] theorem fieldsMk_op : (fieldsMk op fn p d a b x).op = op := rfl
@[simp] theorem fieldsMk_fn : (fieldsMk op fn p d a b x).fn = fn := rfl
@[simp] theorem fieldsMk_d : (fieldsMk op fn p d a b x).d = d := rfl
@[simp] theorem fieldsMk_a : (fieldsMk op fn p d a b x).a = a := rfl
@[simp] theorem fieldsMk_b : (fieldsMk op fn p d a b x).b = b := rfl
@[simp] theorem fieldsMk_x : (fieldsMk op fn p d a b x).x = x := rfl
end

@[simp] theorem Dst.ofCode_code (d : Dst) : Dst.ofCode d.code = some d := by
  cases d with
  | none => rfl
  | g i => revert i; decide
  | f i => revert i; decide
  | v i => revert i; decide
  | c i => revert i; decide

/-- An operand that is IMM carries x. -/
def Opnd.carries (a : Opnd) (x : BitVec 19) : Prop := ∀ y, a = .imm y → y = x

/-- Only the IMM descriptor looks at the immediate. -/
theorem Opnd.ofCode_of_ne {c : BitVec 8} (h : c ≠ 0xF8) (x : BitVec 19) : Opnd.ofCode c x = Opnd.ofCode c 0 := by
  simp only [Opnd.ofCode, if_neg h]

theorem Opnd.code_ne_imm {a : Opnd} (h : ∀ y, a ≠ .imm y) : a.code ≠ 0xF8 := by
  cases a with
  | imm y => exact absurd rfl (h y)
  | zero => decide
  | slot k => exact (by decide : ∀ k, (Opnd.slot k).code ≠ 0xF8) k
  | g i => exact (by decide : ∀ i, (Opnd.g i).code ≠ 0xF8) i
  | f i => exact (by decide : ∀ i, (Opnd.f i).code ≠ 0xF8) i
  | v i => exact (by decide : ∀ i, (Opnd.v i).code ≠ 0xF8) i
  | c i => exact (by decide : ∀ i, (Opnd.c i).code ≠ 0xF8) i

/-- The code of an operand names it, where the word's immediate is the one it carries. -/
theorem Opnd.ofCode_code {a : Opnd} {x : BitVec 19} (h : a.carries x) : Opnd.ofCode a.code x = some a := by
  by_cases hi : ∃ y, a = .imm y
  · obtain ⟨y, rfl⟩ := hi
    simp [Opnd.ofCode, Opnd.code, h y rfl]
  · rw [Opnd.ofCode_of_ne (Opnd.code_ne_imm (not_exists.1 hi))]
    cases a with
    | imm y => exact absurd ⟨y, rfl⟩ hi
    | zero => rfl
    | slot k => exact (by decide : ∀ k, Opnd.ofCode (Opnd.slot k).code 0 = some (.slot k)) k
    | g i => exact (by decide : ∀ i, Opnd.ofCode (Opnd.g i).code 0 = some (.g i)) i
    | f i => exact (by decide : ∀ i, Opnd.ofCode (Opnd.f i).code 0 = some (.f i)) i
    | v i => exact (by decide : ∀ i, Opnd.ofCode (Opnd.v i).code 0 = some (.v i)) i
    | c i => exact (by decide : ∀ i, Opnd.ofCode (Opnd.c i).code 0 = some (.c i)) i

theorem Opnd.carries_of_ne {a : Opnd} (h : a.code ≠ 0xF8) (x : BitVec 19) : a.carries x := by
  rintro y rfl
  exact absurd rfl h

/-- Of one operand, the word carries what it needs. -/
theorem Opnd.carries_immX (a b : Opnd) : a.carries (immX a b) := by
  rintro y rfl
  rfl

/-- Of two operands, the word carries what the second needs where the first is not IMM. -/
theorem Opnd.carries_immX_right {a b : Opnd} (h : a.code ≠ 0xF8 ∨ b.code ≠ 0xF8) : b.carries (immX a b) := by
  rintro y rfl
  cases a <;> first | rfl | simp [Opnd.code] at h

/-- The code an operand was read from. -/
theorem Opnd.code_of_ofCode {c : BitVec 8} {x : BitVec 19} {a : Opnd} (h : Opnd.ofCode c x = some a) : a.code = c := by
  by_cases hc : c = 0xF8
  · subst hc
    have : a = .imm x := by simpa [Opnd.ofCode] using h.symm
    rw [this]; rfl
  · rw [Opnd.ofCode_of_ne hc] at h
    have e : ∀ c : BitVec 8, ∀ a ∈ Opnd.ofCode c 0, a.code = c := by decide
    exact e c a h

theorem Dst.code_of_ofCode {c : BitVec 8} {d : Dst} (hc : dstAny c = true) (h : Dst.ofCode c = some d) : d.code = c :=
  (by decide : ∀ c : BitVec 8, dstAny c = true → ∀ d ∈ Dst.ofCode c, d.code = c) c hc d h

/-! ## The other parts of a word, and back -/

@[simp] theorem Scope.ofCode_code (s : Scope) : Scope.ofCode s.code = s := by cases s <;> rfl
@[simp] theorem Fmt.ofCode_code (t : Fmt) : Fmt.ofCode t.code = t := by cases t <;> rfl
@[simp] theorem Rnd.ofCode_code (r : Rnd) : Rnd.ofCode r.code = some r := by cases r <;> rfl
@[simp] theorem VTy.ofCode_code (t : VTy) : VTy.ofCode t.code = t := by cases t <;> rfl
@[simp] theorem Size.ofCode_code (t : Size) : Size.ofCode t.code = t := by cases t <;> rfl
@[simp] theorem CgetSel.ofCode_code (t : CgetSel) : CgetSel.ofCode t.code = t := by cases t <;> rfl
@[simp] theorem VMnxOp.ofCode_code (k : VMnxOp) : VMnxOp.ofCode k.code = some k := by cases k <;> rfl
@[simp] theorem VCmpOp.ofCode_code (k : VCmpOp) : VCmpOp.ofCode k.code = some k := by cases k <;> rfl
@[simp] theorem VArith.ofCode_code (t : VArith) : VArith.ofCode t.code = some t := by
  cases t with
  | f32 r => cases r <;> rfl
  | i32 => rfl

@[simp] theorem Scope.code_ofCode (c : BitVec 3) : (Scope.ofCode c).code = c := by revert c; decide
@[simp] theorem Fmt.code_ofCode (c : BitVec 2) : (Fmt.ofCode c).code = c := by revert c; decide
@[simp] theorem VTy.code_ofCode (c : BitVec 1) : (VTy.ofCode c).code = c := by revert c; decide
@[simp] theorem Size.code_ofCode (c : BitVec 2) : (Size.ofCode c).code = c := by revert c; decide
@[simp] theorem CgetSel.code_ofCode (c : BitVec 2) : (CgetSel.ofCode c).code = c := by revert c; decide
theorem Rnd.code_of_ofCode {c : BitVec 3} {r : Rnd} (h : Rnd.ofCode c = some r) : r.code = c :=
  (by decide : ∀ c, ∀ r ∈ Rnd.ofCode c, r.code = c) c r h
theorem VArith.code_of_ofCode {c : BitVec 5} {t : VArith} (h : VArith.ofCode c = some t) : t.code = c :=
  (by decide : ∀ c, ∀ t ∈ VArith.ofCode c, t.code = c) c t h
theorem VMnxOp.code_of_ofCode {c : BitVec 5} {t : VMnxOp} (h : VMnxOp.ofCode c = some t) : t.code = c :=
  (by decide : ∀ c, ∀ t ∈ VMnxOp.ofCode c, t.code = c) c t h
theorem VCmpOp.code_of_ofCode {c : BitVec 5} {t : VCmpOp} (h : VCmpOp.ofCode c = some t) : t.code = c :=
  (by decide : ∀ c, ∀ t ∈ VCmpOp.ofCode c, t.code = c) c t h

/-- Bits above the lower part of a word are those of its upper part. -/
theorem extract_append_hi {w v : Nat} (a : BitVec w) (b : BitVec v) (s n : Nat) (h : v ≤ s) :
    (a ++ b).extractLsb' s n = a.extractLsb' (s - v) n := by
  apply BitVec.eq_of_getLsbD_eq
  intro i hi
  have e : s + i - v = s - v + i := by omega
  simp [BitVec.getLsbD_append, show ¬ s + i < v by omega, e]

/-- Bits within the lower part of a word are that part's. -/
theorem extract_append_lo {w v : Nat} (a : BitVec w) (b : BitVec v) (s n : Nat) (h : s + n ≤ v) :
    (a ++ b).extractLsb' s n = b.extractLsb' s n := by
  apply BitVec.eq_of_getLsbD_eq
  intro i hi
  simp [BitVec.getLsbD_append, show s + i < v by omega]

/-- The ordering fields do not look at the five low bits of X. -/
@[simp] theorem MX.ofX_bits (m : MX) (e : BitVec 5) : MX.ofX (m.bits ++ e) = m := by
  obtain ⟨st, mask, sc⟩ := m
  have hb : ∀ s n, (st ++ mask ++ sc.code ++ e : BitVec 19).extractLsb' (s + 5) n = (st ++ mask ++ sc.code : BitVec 14).extractLsb' s n :=
    fun s n =>
    (extract_append_hi (v := 5) (st ++ mask ++ sc.code) e (s + 5) n (by omega)).trans (by simp)
  have h1 : (st ++ mask ++ sc.code : BitVec 14).extractLsb' 11 3 = st :=
    (extract_append_hi (st ++ mask) sc.code 11 3 (by decide)).trans ((extract_append_hi st mask 8 3 (by decide)).trans (by simp))
  have h2 : (st ++ mask ++ sc.code : BitVec 14).extractLsb' 3 8 = mask :=
    (extract_append_hi (st ++ mask) sc.code 3 8 (by decide)).trans ((extract_append_lo st mask 0 8 (by decide)).trans (by simp))
  have h3 : (st ++ mask ++ sc.code : BitVec 14).extractLsb' 0 3 = sc.code :=
    (extract_append_lo (st ++ mask) sc.code 0 3 (by decide)).trans (by simp)
  show MX.mk _ _ (Scope.ofCode _) = _
  rw [show MX.bits ⟨st, mask, sc⟩ = st ++ mask ++ sc.code from rfl]
  exact congr (congr (congrArg MX.mk ((hb 11 3).trans h1)) ((hb 3 8).trans h2)) ((congrArg Scope.ofCode ((hb 0 3).trans h3)).trans
    (Scope.ofCode_code sc))

/-! ## The parts that FN and X are put together from -/

@[simp] theorem append23_hi (a : BitVec 2) (b : BitVec 3) : (a ++ b : BitVec 5).extractLsb' 3 2 = a := by revert a b; decide
@[simp] theorem append23_lo (a : BitVec 2) (b : BitVec 3) : (a ++ b : BitVec 5).extractLsb' 0 3 = b := by revert a b; decide
@[simp] theorem append14_hi (a : BitVec 1) (b : BitVec 4) : (a ++ b : BitVec 5).extractLsb' 4 1 = a := by revert a b; decide
@[simp] theorem append14_lo (a : BitVec 1) (b : BitVec 4) : (a ++ b : BitVec 5).extractLsb' 0 4 = b := by revert a b; decide

/-- The parts of the FN of LD and ST: a mode, a sign and a size. -/
@[simp] theorem fnSize_mode (n : BitVec 2) (s : BitVec 1) (z : BitVec 2) : (n ++ s ++ z : BitVec 5).extractLsb' 3 2 = n := by
  revert n s z; decide
@[simp] theorem fnSize_size (n : BitVec 2) (s : BitVec 1) (z : BitVec 2) : (n ++ s ++ z : BitVec 5).extractLsb' 0 2 = z := by
  revert n s z; decide
@[simp] theorem fnSize_sign (n : BitVec 2) (s : Bool) (z : BitVec 2) : (n ++ BitVec.ofBool s ++ z : BitVec 5)[2] = s := by
  revert n s z; decide

/-- A store's FN has no sign. -/
@[simp] theorem fnSize_mode3 (n : BitVec 3) (z : BitVec 2) : (n ++ z : BitVec 5).extractLsb' 3 2 = n.extractLsb' 1 2 := by
  revert n z; decide
@[simp] theorem fnSize_size3 (n : BitVec 3) (z : BitVec 2) : (n ++ z : BitVec 5).extractLsb' 0 2 = z := by revert n z; decide

/-- The parts of the FN of FLS: a mode, tagged or not, a format, load or store. -/
@[simp] theorem fnFls_mode (n t : BitVec 1) (z : BitVec 2) (k : BitVec 1) : (n ++ t ++ z ++ k : BitVec 5).extractLsb' 4 1 = n := by
  revert n t z k; decide
@[simp] theorem fnFls_tagged (n : BitVec 1) (t : Bool) (z : BitVec 2) (k : BitVec 1) :
    (n ++ BitVec.ofBool t ++ z ++ k : BitVec 5)[3] = t := by
  revert n t z k; decide
@[simp] theorem fnFls_fmt (n t : BitVec 1) (z : BitVec 2) (k : BitVec 1) : (n ++ t ++ z ++ k : BitVec 5).extractLsb' 1 2 = z := by
  revert n t z k; decide
@[simp] theorem fnFls_kind (n t : BitVec 1) (z : BitVec 2) (k : BitVec 1) : (n ++ t ++ z ++ k : BitVec 5).extractLsb' 0 1 = k := by
  revert n t z k; decide

@[simp] theorem xOpC_c (c : BitVec 8) : (c ++ 0#11 : BitVec 19).extractLsb' 11 8 = c :=
  (extract_append_hi c 0#11 11 8 (by decide)).trans (by simp)
@[simp] theorem xIns_len (len pos : BitVec 6) : (0#7 ++ len ++ pos : BitVec 19).extractLsb' 6 6 = len :=
  (extract_append_hi (0#7 ++ len) pos 6 6 (by decide)).trans ((extract_append_lo 0#7 len 0 6 (by decide)).trans (by simp))
@[simp] theorem xIns_pos (len pos : BitVec 6) : (0#7 ++ len ++ pos : BitVec 19).extractLsb' 0 6 = pos :=
  (extract_append_lo (0#7 ++ len) pos 0 6 (by decide)).trans (by simp)
@[simp] theorem xTrap_n (n : BitVec 8) : (0#11 ++ n : BitVec 19).extractLsb' 0 8 = n :=
  (extract_append_lo 0#11 n 0 8 (by decide)).trans (by simp)
@[simp] theorem xSys_num (n : BitVec 12) : (0#7 ++ n : BitVec 19).extractLsb' 0 12 = n :=
  (extract_append_lo 0#7 n 0 12 (by decide)).trans (by simp)
@[simp] theorem xRnd_rnd (r : BitVec 3) (t : BitVec 2) : (0#14 ++ r ++ t : BitVec 19).extractLsb' 2 3 = r := by revert r t; decide
@[simp] theorem xRnd_fmt (r : BitVec 3) (t : BitVec 2) : (0#14 ++ r ++ t : BitVec 19).extractLsb' 0 2 = t := by revert r t; decide
@[simp] theorem xCget_sel (w : BitVec 2) : (0#17 ++ w : BitVec 19).extractLsb' 0 2 = w := by revert w; decide
@[simp] theorem xHalf_hi (b : Bool) : (0#18 ++ BitVec.ofBool b : BitVec 19)[0] = b := by revert b; decide
@[simp] theorem xLane_lane (l : BitVec 4) : (0#15 ++ l : BitVec 19).extractLsb' 0 4 = l := by revert l; decide
@[simp] theorem dCall_link (l : BitVec 6) : (0b10#2 ++ l : BitVec 8).extractLsb' 0 6 = l := by revert l; decide
@[simp] theorem bCas_pair (l : BitVec 5) : (2#2 ++ l ++ 0#1 : BitVec 8).extractLsb' 1 5 = l := by revert l; decide

/-- X of an AMO: the ordering fields above its five low bits. -/
theorem xAmo_eq (m : BitVec 14) (w : Bool) :
    (m ++ 0#3 ++ 1#1 ++ BitVec.ofBool w : BitVec 19) = m ++ (0#3 ++ 1#1 ++ BitVec.ofBool w : BitVec 5) := by
  have h1 : (m ++ 0#3 ++ 1#1 : BitVec 18) = m ++ (0#3 ++ 1#1 : BitVec 4) := BitVec.append_assoc
  rw [h1]
  exact BitVec.append_assoc
/-- X of a FEED. -/
theorem xFeed_eq (m : BitVec 14) (e s f : Bool) : (m ++ 0#2 ++ BitVec.ofBool e ++ BitVec.ofBool s ++ BitVec.ofBool f : BitVec 19) =
    m ++ (0#2 ++ BitVec.ofBool e ++ BitVec.ofBool s ++ BitVec.ofBool f : BitVec 5) := by
  have h1 : (m ++ 0#2 ++ BitVec.ofBool e : BitVec 17) = m ++ (0#2 ++ BitVec.ofBool e : BitVec 3) := BitVec.append_assoc
  have h2 : (m ++ (0#2 ++ BitVec.ofBool e : BitVec 3) ++ BitVec.ofBool s : BitVec 18) = m ++ (0#2 ++ BitVec.ofBool e ++ BitVec.ofBool s :
    BitVec 4) :=
    BitVec.append_assoc
  rw [h1, h2]
  exact BitVec.append_assoc
@[simp] theorem xAmo_wide (w : Bool) : (1#4 ++ BitVec.ofBool w : BitVec 5)[0] = w := by revert w; decide
@[simp] theorem xFeed_fin (e s f : Bool) : (0#2 ++ BitVec.ofBool e ++ BitVec.ofBool s ++ BitVec.ofBool f : BitVec 5)[0] = f := by
  revert e s f; decide
@[simp] theorem xFeed_swap (e s f : Bool) : (0#2 ++ BitVec.ofBool e ++ BitVec.ofBool s ++ BitVec.ofBool f : BitVec 5)[1] = s := by
  revert e s f; decide
@[simp] theorem xFeed_eos (e s f : Bool) : (0#2 ++ BitVec.ofBool e ++ BitVec.ofBool s ++ BitVec.ofBool f : BitVec 5)[2] = e := by
  revert e s f; decide

/-- The bits of X below the ordering fields. -/
theorem xMem_bit (m : BitVec 14) (e : BitVec 5) (i : Nat) (h : i < 5) : (m ++ e : BitVec 19)[i] = e[i] := by
  rw [← BitVec.getLsbD_eq_getElem, ← BitVec.getLsbD_eq_getElem]
  exact (BitVec.getLsbD_append).trans (by simp [h])

/-! ## Rows -/

/-- The row of OP and FN, found by them alone. -/
def rowOf (op : BitVec 7) (fn : BitVec 5) : Option OpRow :=
  (opRows op.toNat).find? (fun r => r.op == op.toNat && decide (r.lo ≤ (fn &&& r.mask)) && decide ((fn &&& r.mask) ≤ r.hi))

theorem Fields.row?_eq (f : Fields) : f.row? = rowOf f.op f.fn := rfl

/-- A word that passes its checks passes those of its row. -/
theorem Fields.ok_row {s : SlotCls} {f : Fields} (h : f.ok s = true) : ∃ r, rowOf f.op f.fn = some r ∧ f.okRow s r = true := by
  rw [Fields.ok] at h
  split at h
  next r hr => exact ⟨r, hr, h⟩
  next => cases h

/-- The checks of a row, taken apart. -/
theorem Fields.okRow_iff {s : SlotCls} {f : Fields} {r : OpRow} : f.okRow s r = true ↔
    f.predOk s = true ∧ descFits s r.a f.a = true ∧ descFits s r.b f.b = true ∧ (r.c = .none ∨ descFits s r.c (f.cCode r) = true) ∧
    f.sameOk s r = true ∧ f.dOk s r = true ∧ f.xOk r = true ∧ f.chkOk r = true ∧ (if r.x = .imm then f.imms r ≤ 1 else f.imms r = 0) := by
  simp only [Fields.okRow, Bool.and_eq_true, Bool.or_eq_true, beq_iff_eq, and_assoc]
  split <;> simp

/-- At most one of A and B is IMM. -/
theorem Fields.ok_one_imm {s : SlotCls} {f : Fields} (h : f.ok s = true) : f.a ≠ 0xF8 ∨ f.b ≠ 0xF8 := by
  obtain ⟨r, -, hr⟩ := Fields.ok_row h
  obtain ⟨-, -, -, -, -, -, -, -, hi⟩ := Fields.okRow_iff.1 hr
  by_contra hc
  push Not at hc
  have : 2 ≤ f.imms r := by
    simp only [Fields.imms, hc.1, hc.2]
    simp
  split at hi <;> omega

theorem dstAny_of_dstFits {c : BitVec 8} {k : VCls} (h : dstFits c k = true) : dstAny c = true := by
  revert h
  revert c
  cases k <;> decide

/-- D of a row that writes a register there is a register or NONE. -/
theorem Fields.dstAny_of_dOk {s : SlotCls} {f : Fields} {r : OpRow} (h : f.dOk s r = true) (hc : r.c = .none ∨ r.x = .opC) (hk : r.chk ≠
  .call) :
    dstAny f.d = true := by
  have h0 : (r.c != .none && r.x != .opC) = false := by rcases hc with h | h <;> simp [h]
  have h1 : (r.chk == .call) = false := by simpa using hk
  rw [Fields.dOk, h0, h1] at h
  cases hres : r.res with
  | none =>
    have : f.d = 0xFF := by simpa [hres] using h
    rw [this]; decide
  | val c => 
    simp [hres, Fields.resCls] at h
    exact dstAny_of_dstFits h
  | same =>
    cases hq : f.resCls s r with
    | none => simpa [hres, hq] using h
    | some c => exact dstAny_of_dstFits (by simpa [hres, hq] using h)
  

/-- The code of IMM is no D: a register's or NONE's, an operand C's that is not IMM, or CALL's. -/
theorem Fields.d_ne_imm {s : SlotCls} {f : Fields} {r : OpRow} (h : f.okRow s r = true) (hx : r.x ≠ .imm) : f.d ≠ 0xF8 := by
  obtain ⟨-, -, -, -, -, hd, -, hk, hi⟩ := Fields.okRow_iff.1 h
  rw [if_neg hx] at hi
  by_cases hcall : r.chk = .call
  · intro e
    simp [Fields.chkOk, hcall, e] at hk
  · by_cases hc : r.c = .none ∨ r.x = .opC
    · intro e
      have := Fields.dstAny_of_dOk hd hc hcall
      rw [e] at this
      exact absurd this (by decide)
    · obtain ⟨hc, ho⟩ := not_or.1 hc
      intro e
      simp [Fields.imms, Fields.cCode, hc, ho, e] at hi

/-- Where no row of OP and FN has the immediate form, no descriptor is IMM. -/
theorem Fields.ok_no_imm {s : SlotCls} {f : Fields} (h : f.ok s = true) (hx : (rowOf f.op f.fn).all (fun r => r.x != .imm) = true) :
    f.a ≠ 0xF8 ∧ f.b ≠ 0xF8 ∧ f.d ≠ 0xF8 := by
  obtain ⟨r, hr, hok⟩ := Fields.ok_row h
  have hn : r.x ≠ .imm := by simpa [hr] using hx
  obtain ⟨-, -, -, -, -, -, -, -, hi⟩ := Fields.okRow_iff.1 hok
  rw [if_neg hn] at hi
  refine ⟨fun e => ?_, fun e => ?_, Fields.d_ne_imm hok hn⟩ <;> simp [Fields.imms, e] at hi

/-- Nor is the operand C that X names. -/
theorem Fields.ok_c_ne_imm {s : SlotCls} {f : Fields} (h : f.ok s = true)
    (hx : (rowOf f.op f.fn).all (fun r => r.x == .opC && r.c != .none) = true) : f.x.extractLsb' 11 8 ≠ 0xF8 := by
  obtain ⟨r, hr, hok⟩ := Fields.ok_row h
  have hn : r.x = .opC ∧ r.c ≠ .none := by simpa [hr] using hx
  obtain ⟨-, -, -, -, -, -, -, -, hi⟩ := Fields.okRow_iff.1 hok
  rw [if_neg (by simp [hn.1])] at hi
  intro e
  simp [Fields.imms, Fields.cCode, hn.1, hn.2, e] at hi

/-- Whether some row of OP has the immediate form. -/
def opHasImm (op : BitVec 7) : Bool := (opRows op.toNat).any (fun r => r.op == op.toNat && r.x == .imm)

/-- An OP without an immediate form has none at any FN. -/
theorem rowOf_no_imm {op : BitVec 7} (fn : BitVec 5) (h : opHasImm op = false) : (rowOf op fn).all (fun r => r.x != .imm) = true := by
  cases hr : rowOf op fn with
  | none => rfl
  | some r =>
    have hm := List.mem_of_find?_eq_some hr
    have hp := List.find?_some hr
    simp only [Bool.and_eq_true, beq_iff_eq] at hp
    have := List.any_eq_false.1 h r hm
    simpa [hp.1.1] using this

theorem Opnd.reads {a : Opnd} (h : a.code ≠ 0xF8) (x : BitVec 19) : Opnd.ofCode a.code x = some a :=
  Opnd.ofCode_code (Opnd.carries_of_ne h x)

/-! ## The word of its fields -/

theorem Fields.pack_ofWord (w : BitVec 64) : (Fields.ofWord w).pack = w := by
  have h1 : (w.extractLsb' 57 7 ++ w.extractLsb' 52 5 : BitVec 12) = w.extractLsb' 52 12 :=
    BitVec.extractLsb'_append_extractLsb'_eq_extractLsb' rfl
  have h2 : (w.extractLsb' 52 12 ++ w.extractLsb' 50 2 : BitVec 14) = w.extractLsb' 50 14 :=
    BitVec.extractLsb'_append_extractLsb'_eq_extractLsb' rfl
  have h3 : (w.extractLsb' 50 14 ++ w.extractLsb' 43 7 : BitVec 21) = w.extractLsb' 43 21 :=
    BitVec.extractLsb'_append_extractLsb'_eq_extractLsb' rfl
  have h4 : (w.extractLsb' 43 21 ++ w.extractLsb' 35 8 : BitVec 29) = w.extractLsb' 35 29 :=
    BitVec.extractLsb'_append_extractLsb'_eq_extractLsb' rfl
  have h5 : (w.extractLsb' 35 29 ++ w.extractLsb' 27 8 : BitVec 37) = w.extractLsb' 27 37 :=
    BitVec.extractLsb'_append_extractLsb'_eq_extractLsb' rfl
  have h6 : (w.extractLsb' 27 37 ++ w.extractLsb' 19 8 : BitVec 45) = w.extractLsb' 19 45 :=
    BitVec.extractLsb'_append_extractLsb'_eq_extractLsb' rfl
  have h7 : (w.extractLsb' 19 45 ++ w.extractLsb' 0 19 : BitVec 64) = w.extractLsb' 0 64 :=
    BitVec.extractLsb'_append_extractLsb'_eq_extractLsb' rfl
  simp only [Fields.pack, Fields.ofWord, h1, h2, h3, h4, h5, h6, h7]
  simp

theorem Fields.ofWord_pack (f : Fields) : Fields.ofWord f.pack = f := by
  obtain ⟨op, fn, pm, ps, d, a, b, x⟩ := f
  have hop : (op ++ fn ++ pm ++ ps ++ d ++ a ++ b ++ x : BitVec 64).extractLsb' 57 7 = op :=
    (extract_append_hi _ x 57 7 (by decide)).trans ((extract_append_hi _ b 38 7 (by decide)).trans ((extract_append_hi _ a 30 7 (by
      decide)).trans ((extract_append_hi _ d 22 7 (by decide)).trans ((extract_append_hi _ ps 14 7 (by decide)).trans ((extract_append_hi _
        pm 7 7 (by decide)).trans ((extract_append_hi _ fn 5 7 (by decide)).trans (by simp)))))))
  have hfn : (op ++ fn ++ pm ++ ps ++ d ++ a ++ b ++ x : BitVec 64).extractLsb' 52 5 = fn :=
    (extract_append_hi _ x 52 5 (by decide)).trans ((extract_append_hi _ b 33 5 (by decide)).trans ((extract_append_hi _ a 25 5 (by
      decide)).trans ((extract_append_hi _ d 17 5 (by decide)).trans ((extract_append_hi _ ps 9 5 (by decide)).trans ((extract_append_hi _
        pm 2 5 (by decide)).trans ((extract_append_lo _ fn 0 5 (by decide)).trans (by simp)))))))
  have hpm : (op ++ fn ++ pm ++ ps ++ d ++ a ++ b ++ x : BitVec 64).extractLsb' 50 2 = pm :=
    (extract_append_hi _ x 50 2 (by decide)).trans ((extract_append_hi _ b 31 2 (by decide)).trans ((extract_append_hi _ a 23 2 (by
      decide)).trans ((extract_append_hi _ d 15 2 (by decide)).trans ((extract_append_hi _ ps 7 2 (by decide)).trans ((extract_append_lo _
        pm 0 2 (by decide)).trans (by simp))))))
  have hps : (op ++ fn ++ pm ++ ps ++ d ++ a ++ b ++ x : BitVec 64).extractLsb' 43 7 = ps :=
    (extract_append_hi _ x 43 7 (by decide)).trans ((extract_append_hi _ b 24 7 (by decide)).trans ((extract_append_hi _ a 16 7 (by
      decide)).trans ((extract_append_hi _ d 8 7 (by decide)).trans ((extract_append_lo _ ps 0 7 (by decide)).trans (by simp)))))
  have hd : (op ++ fn ++ pm ++ ps ++ d ++ a ++ b ++ x : BitVec 64).extractLsb' 35 8 = d :=
    (extract_append_hi _ x 35 8 (by decide)).trans ((extract_append_hi _ b 16 8 (by decide)).trans ((extract_append_hi _ a 8 8 (by
      decide)).trans ((extract_append_lo _ d 0 8 (by decide)).trans (by simp))))
  have ha : (op ++ fn ++ pm ++ ps ++ d ++ a ++ b ++ x : BitVec 64).extractLsb' 27 8 = a :=
    (extract_append_hi _ x 27 8 (by decide)).trans ((extract_append_hi _ b 8 8 (by decide)).trans ((extract_append_lo _ a 0 8 (by
      decide)).trans (by simp)))
  have hb : (op ++ fn ++ pm ++ ps ++ d ++ a ++ b ++ x : BitVec 64).extractLsb' 19 8 = b :=
    (extract_append_hi _ x 19 8 (by decide)).trans ((extract_append_lo _ b 0 8 (by decide)).trans (by simp))
  have hx : (op ++ fn ++ pm ++ ps ++ d ++ a ++ b ++ x : BitVec 64).extractLsb' 0 19 = x :=
    (extract_append_lo _ x 0 19 (by decide)).trans (by simp)
  simp only [Fields.ofWord, Fields.pack, hop, hfn, hpm, hps, hd, ha, hb, hx]


/-! ## From the fields back to the instruction's fields -/

theorem bitVec_of_toNat {w n : Nat} {x : BitVec w} (h : x.toNat = n) : x = BitVec.ofNat w n := by
  rw [← h, BitVec.ofNat_toNat, BitVec.setWidth_eq]

section
variable {f : Fields} {op : BitVec 7} {fn : BitVec 5} {P : OpRow → Bool}

theorem rowOf_all_mono {o : Option OpRow} {P Q : OpRow → Bool} (h : o.all P = true) (hq : ∀ r, P r = true → Q r = true) : o.all Q = true :=
  by
  cases o with
  | none => rfl
  | some r => exact hq r h

/-- The row of a word that passes its checks, with what every row of OP and FN has. -/
theorem Fields.ok_row_of (h : f.ok none = true) (ho : f.op = op) (hf : f.fn = fn) (hr : (rowOf op fn).all P = true) :
    ∃ r, P r = true ∧ f.okRow none r = true := by
  obtain ⟨r, e, hok⟩ := Fields.ok_row h
  rw [ho, hf] at e
  exact ⟨r, by simpa [e] using hr, hok⟩

theorem rowOf_all {Q : OpRow → Bool} (fn : BitVec 5) (h : (opRows op.toNat).all (fun r => r.op != op.toNat || Q r) = true) : (rowOf op
  fn).all Q = true := by
  cases hr : rowOf op fn with
  | none => rfl
  | some r =>
    have hm := List.all_eq_true.1 h r (List.mem_of_find?_eq_some hr)
    have hp := List.find?_some hr
    simp only [Bool.and_eq_true, beq_iff_eq] at hp
    simpa [hp.1.1] using hm

theorem Fields.d_unused (h : f.ok none = true) (ho : f.op = op) (hf : f.fn = fn)
    (hr : (rowOf op fn).all (fun r => r.c == .none && r.res == .none && r.chk != .call) = true) : f.d = 0xFF := by
  obtain ⟨r, hp, hok⟩ := Fields.ok_row_of h ho hf hr
  obtain ⟨-, -, -, -, -, hd, -⟩ := Fields.okRow_iff.1 hok
  simp only [Bool.and_eq_true, beq_iff_eq, bne_iff_ne] at hp
  simpa [Fields.dOk, hp.1.1, hp.1.2, hp.2] using hd

theorem Fields.a_unused (h : f.ok none = true) (ho : f.op = op) (hf : f.fn = fn)
    (hr : (rowOf op fn).all (fun r => r.a == .none) = true) : f.a = 0xFF := by
  obtain ⟨r, hp, hok⟩ := Fields.ok_row_of h ho hf hr
  obtain ⟨-, ha, -⟩ := Fields.okRow_iff.1 hok
  simpa [descFits, beq_iff_eq.1 hp] using ha

theorem Fields.b_unused (h : f.ok none = true) (ho : f.op = op) (hf : f.fn = fn)
    (hr : (rowOf op fn).all (fun r => r.b == .none) = true) : f.b = 0xFF := by
  obtain ⟨r, hp, hok⟩ := Fields.ok_row_of h ho hf hr
  obtain ⟨-, -, hb, -⟩ := Fields.okRow_iff.1 hok
  simpa [descFits, beq_iff_eq.1 hp] using hb

theorem Fields.a_imm (h : f.ok none = true) (ho : f.op = op) (hf : f.fn = fn)
    (hr : (rowOf op fn).all (fun r => r.a == .immOnly) = true) : f.a = 0xF8 := by
  obtain ⟨r, hp, hok⟩ := Fields.ok_row_of h ho hf hr
  obtain ⟨-, ha, -⟩ := Fields.okRow_iff.1 hok
  simpa [descFits, beq_iff_eq.1 hp] using ha

theorem Fields.b_imm (h : f.ok none = true) (ho : f.op = op) (hf : f.fn = fn)
    (hr : (rowOf op fn).all (fun r => r.b == .immOnly) = true) : f.b = 0xF8 := by
  obtain ⟨r, hp, hok⟩ := Fields.ok_row_of h ho hf hr
  obtain ⟨-, -, hb, -⟩ := Fields.okRow_iff.1 hok
  simpa [descFits, beq_iff_eq.1 hp] using hb

theorem Fields.d_reg (h : f.ok none = true) (ho : f.op = op) (hf : f.fn = fn)
    (hr : (rowOf op fn).all (fun r => (r.c == .none || r.x == .opC) && r.chk != .call) = true) : dstAny f.d = true := by
  obtain ⟨r, hp, hok⟩ := Fields.ok_row_of h ho hf hr
  obtain ⟨-, -, -, -, -, hd, -⟩ := Fields.okRow_iff.1 hok
  simp only [Bool.and_eq_true, Bool.or_eq_true, beq_iff_eq, bne_iff_ne] at hp
  exact Fields.dstAny_of_dOk hd hp.1 hp.2

/-- X of the immediate form is that of its IMM descriptor, zero without one. -/
theorem Fields.x_imm (h : f.ok none = true) (ho : f.op = op) (hf : f.fn = fn)
    (hr : (rowOf op fn).all (fun r => r.x == .imm) = true) : f.a = 0xF8 ∨ f.b = 0xF8 ∨ f.x = 0 := by
  obtain ⟨r, hp, hok⟩ := Fields.ok_row_of h ho hf hr
  obtain ⟨-, -, -, -, -, -, hx, -⟩ := Fields.okRow_iff.1 hok
  simpa [Fields.xOk, beq_iff_eq.1 hp, or_assoc] using hx

theorem Fields.x_fixed {m : BitVec 19} (h : f.ok none = true) (ho : f.op = op) (hf : f.fn = fn)
    (hr : (rowOf op fn).all (fun r => r.x == .fixed m) = true) : f.x &&& ~~~m = 0 := by
  obtain ⟨r, hp, hok⟩ := Fields.ok_row_of h ho hf hr
  obtain ⟨-, -, -, -, -, -, hx, -⟩ := Fields.okRow_iff.1 hok
  simpa [Fields.xOk, beq_iff_eq.1 hp] using hx

theorem Fields.x_zero (h : f.ok none = true) (ho : f.op = op) (hf : f.fn = fn)
    (hr : (rowOf op fn).all (fun r => r.x == .fixed 0) = true) : f.x = 0 := by
  have hx := Fields.x_fixed h ho hf hr
  rwa [show ~~~(0 : BitVec 19) = BitVec.allOnes 19 by decide, BitVec.and_allOnes] at hx

theorem Fields.x_mem {e : BitVec 5} (h : f.ok none = true) (ho : f.op = op) (hf : f.fn = fn)
    (hr : (rowOf op fn).all (fun r => r.x == .mem e) = true) : f.x.extractLsb' 0 5 &&& ~~~e = 0 := by
  obtain ⟨r, hp, hok⟩ := Fields.ok_row_of h ho hf hr
  obtain ⟨-, -, -, -, -, -, hx, -⟩ := Fields.okRow_iff.1 hok
  simpa [Fields.xOk, beq_iff_eq.1 hp] using hx

theorem Fields.x_opC (h : f.ok none = true) (ho : f.op = op) (hf : f.fn = fn)
    (hr : (rowOf op fn).all (fun r => r.x == .opC) = true) : f.x.extractLsb' 11 8 ++ 0#11 = f.x := by
  obtain ⟨r, hp, hok⟩ := Fields.ok_row_of h ho hf hr
  obtain ⟨-, -, -, -, -, -, hx, -⟩ := Fields.okRow_iff.1 hok
  have hl : f.x.extractLsb' 0 11 = 0#11 := by simpa [Fields.xOk, beq_iff_eq.1 hp] using hx
  rw [← hl]
  exact (BitVec.extractLsb'_append_extractLsb'_eq_extractLsb' rfl).trans (by simp)

/-- The ordering fields and the five low bits make up X. -/
theorem MX.bits_ofX (x : BitVec 19) : ((MX.ofX x).bits ++ x.extractLsb' 0 5 : BitVec 19) = x := by
  have h1 : (x.extractLsb' 16 3 ++ x.extractLsb' 8 8 : BitVec 11) = x.extractLsb' 8 11 :=
    BitVec.extractLsb'_append_extractLsb'_eq_extractLsb' rfl
  have h2 : (x.extractLsb' 8 11 ++ x.extractLsb' 5 3 : BitVec 14) = x.extractLsb' 5 14 :=
    BitVec.extractLsb'_append_extractLsb'_eq_extractLsb' rfl
  have h3 : (x.extractLsb' 5 14 ++ x.extractLsb' 0 5 : BitVec 19) = x.extractLsb' 0 19 :=
    BitVec.extractLsb'_append_extractLsb'_eq_extractLsb' rfl
  simp only [MX.bits, MX.ofX, Scope.code_ofCode, h1, h2, h3]
  simp

/-- The fields are those of their parts. -/
theorem Fields.mk_eq {p : Pred} {d a b : BitVec 8} {x : BitVec 19} (h : f.ok none = true) (ho : f.op = op) (hf : f.fn = fn)
    (hp : f.pred = some p) (hd : f.d = d) (ha : f.a = a) (hb : f.b = b) (hx : f.x = x) : fieldsMk op fn p d a b x = f := by
  obtain ⟨r, -, hok⟩ := Fields.ok_row h
  obtain ⟨hps, -⟩ := Fields.okRow_iff.1 hok
  subst ho hf hd ha hb hx
  obtain ⟨op, fn, pm, ps, d, a, b, x⟩ := f
  have e : pm = p.pm ∧ ps = p.ps := by
    simp only [Fields.pred] at hp
    simp only [Fields.predOk] at hps
    have hpm := pm.isLt
    split at hp <;> rename_i e
    · cases hp
      rw [e] at hps
      exact ⟨BitVec.eq_of_toNat_eq e, by simpa [Pred.ps] using hps⟩
    · cases hp
      exact ⟨BitVec.eq_of_toNat_eq e, rfl⟩
    · cases hp
      exact ⟨BitVec.eq_of_toNat_eq e, rfl⟩
    · cases hp
  simp only [fieldsMk, e.1, e.2]

theorem immX_of_ofCode {a b : Opnd} (ha : Opnd.ofCode f.a f.x = some a) (hb : Opnd.ofCode f.b f.x = some b)
    (hx : f.a = 0xF8 ∨ f.b = 0xF8 ∨ f.x = 0) : f.x = immX a b := by
  by_cases h1 : f.a = 0xF8
  · have : a = .imm f.x := by simpa [h1, Opnd.ofCode] using ha.symm
    rw [this]; rfl
  · have na : ∀ y, a ≠ .imm y := by
      rintro y rfl
      exact h1 (Opnd.code_of_ofCode ha).symm
    by_cases h2 : f.b = 0xF8
    · have : b = .imm f.x := by simpa [h2, Opnd.ofCode] using hb.symm
      rw [this]
      cases a <;> first | rfl | exact absurd rfl (na _)
    · have nb : ∀ y, b ≠ .imm y := by
        rintro y rfl
        exact h2 (Opnd.code_of_ofCode hb).symm
      have hz : f.x = 0 := (hx.resolve_left h1).resolve_left h2
      rw [hz]
      cases a <;> cases b <;> first | rfl | exact absurd rfl (na _) | exact absurd rfl (nb _)


/-! ## One lemma for each shape of row -/

variable {i : Instr} {x : Opnd → Opnd → BitVec 19}

theorem fields_dab {mk : Pred → Dst → Opnd → Opnd → Instr} (h : f.ok none = true) (ho : f.op = op) (hf : f.fn = fn)
    (hr : (rowOf op fn).all (fun r => (r.c == .none || r.x == .opC) && r.chk != .call) = true)
    (hd : (do let p ← f.pred; let d ← Dst.ofCode f.d; let a ← Opnd.ofCode f.a f.x; let b ← Opnd.ofCode f.b f.x; some (mk p d a b)) = some i)
    (hm : ∀ p d a b, (mk p d a b).fields = some (fieldsMk op fn p d.code a.code b.code (x a b)))
    (hx : ∀ a b, Opnd.ofCode f.a f.x = some a → Opnd.ofCode f.b f.x = some b → f.x = x a b) : i.fields = some f := by
  simp only [Option.bind_eq_bind, Option.bind_eq_some_iff, Option.some.injEq] at hd
  obtain ⟨p, hp, d, hd, a, ha, b, hb, rfl⟩ := hd
  rw [hm]
  exact congrArg some (Fields.mk_eq h ho hf hp (Dst.code_of_ofCode (Fields.d_reg h ho hf hr) hd).symm (Opnd.code_of_ofCode ha).symm
    (Opnd.code_of_ofCode hb).symm (hx a b ha hb))

theorem fields_da {b : BitVec 8} {x : Opnd → BitVec 19} {mk : Pred → Dst → Opnd → Instr} (h : f.ok none = true) (ho : f.op = op) (hf : f.fn
  = fn)
    (hr : (rowOf op fn).all (fun r => (r.c == .none || r.x == .opC) && r.chk != .call) = true)
    (hd : (do let p ← f.pred; let d ← Dst.ofCode f.d; let a ← Opnd.ofCode f.a f.x; some (mk p d a)) = some i)
    (hm : ∀ p d a, (mk p d a).fields = some (fieldsMk op fn p d.code a.code b (x a)))
    (hb : f.b = b) (hx : ∀ a, Opnd.ofCode f.a f.x = some a → f.x = x a) : i.fields = some f := by
  simp only [Option.bind_eq_bind, Option.bind_eq_some_iff, Option.some.injEq] at hd
  obtain ⟨p, hp, d, hd, a, ha, rfl⟩ := hd
  rw [hm]
  exact congrArg some (Fields.mk_eq h ho hf hp (Dst.code_of_ofCode (Fields.d_reg h ho hf hr) hd).symm (Opnd.code_of_ofCode ha).symm hb (hx
    a ha))

theorem fields_d {a b : BitVec 8} {mk : Pred → Dst → Instr} (h : f.ok none = true) (ho : f.op = op) (hf : f.fn = fn)
    (hr : (rowOf op fn).all (fun r => (r.c == .none || r.x == .opC) && r.chk != .call) = true)
    (hd : (do let p ← f.pred; let d ← Dst.ofCode f.d; some (mk p d)) = some i)
    (hm : ∀ p d, (mk p d).fields = some (fieldsMk op fn p d.code a b f.x))
    (ha : f.a = a) (hb : f.b = b) : i.fields = some f := by
  simp only [Option.bind_eq_bind, Option.bind_eq_some_iff, Option.some.injEq] at hd
  obtain ⟨p, hp, d, hd, rfl⟩ := hd
  rw [hm]
  exact congrArg some (Fields.mk_eq h ho hf hp (Dst.code_of_ofCode (Fields.d_reg h ho hf hr) hd).symm ha hb rfl)

theorem fields_ab {d : BitVec 8} {mk : Pred → Opnd → Opnd → Instr} (h : f.ok none = true) (ho : f.op = op) (hf : f.fn = fn)
    (hd : (do let p ← f.pred; let a ← Opnd.ofCode f.a f.x; let b ← Opnd.ofCode f.b f.x; some (mk p a b)) = some i)
    (hm : ∀ p a b, (mk p a b).fields = some (fieldsMk op fn p d a.code b.code (x a b)))
    (hD : f.d = d) (hx : ∀ a b, Opnd.ofCode f.a f.x = some a → Opnd.ofCode f.b f.x = some b → f.x = x a b) : i.fields = some f := by
  simp only [Option.bind_eq_bind, Option.bind_eq_some_iff, Option.some.injEq] at hd
  obtain ⟨p, hp, a, ha, b, hb, rfl⟩ := hd
  rw [hm]
  exact congrArg some (Fields.mk_eq h ho hf hp hD (Opnd.code_of_ofCode ha).symm (Opnd.code_of_ofCode hb).symm (hx a b ha hb))

theorem fields_a {d b : BitVec 8} {x : Opnd → BitVec 19} {mk : Pred → Opnd → Instr} (h : f.ok none = true) (ho : f.op = op) (hf : f.fn = fn)
    (hd : (do let p ← f.pred; let a ← Opnd.ofCode f.a f.x; some (mk p a)) = some i)
    (hm : ∀ p a, (mk p a).fields = some (fieldsMk op fn p d a.code b (x a)))
    (hD : f.d = d) (hb : f.b = b) (hx : ∀ a, Opnd.ofCode f.a f.x = some a → f.x = x a) : i.fields = some f := by
  simp only [Option.bind_eq_bind, Option.bind_eq_some_iff, Option.some.injEq] at hd
  obtain ⟨p, hp, a, ha, rfl⟩ := hd
  rw [hm]
  exact congrArg some (Fields.mk_eq h ho hf hp hD (Opnd.code_of_ofCode ha).symm hb (hx a ha))

theorem fields_p {d a b : BitVec 8} {mk : Pred → Instr} (h : f.ok none = true) (ho : f.op = op) (hf : f.fn = fn)
    (hd : (do let p ← f.pred; some (mk p)) = some i) (hm : ∀ p, (mk p).fields = some (fieldsMk op fn p d a b f.x))
    (hD : f.d = d) (ha : f.a = a) (hb : f.b = b) : i.fields = some f := by
  simp only [Option.bind_eq_bind, Option.bind_eq_some_iff, Option.some.injEq] at hd
  obtain ⟨p, hp, rfl⟩ := hd
  rw [hm]
  exact congrArg some (Fields.mk_eq h ho hf hp hD ha hb rfl)

theorem fields_cab {mk : Pred → Opnd → Opnd → Opnd → Instr} (h : f.ok none = true) (ho : f.op = op) (hf : f.fn = fn)
    (hd : (do let p ← f.pred; let c ← Opnd.ofCode f.d f.x; let a ← Opnd.ofCode f.a f.x; let b ← Opnd.ofCode f.b f.x; some (mk p c a b)) =
      some i)
    (hm : ∀ p c a b, (mk p c a b).fields = some (fieldsMk op fn p c.code a.code b.code f.x)) : i.fields = some f := by
  simp only [Option.bind_eq_bind, Option.bind_eq_some_iff, Option.some.injEq] at hd
  obtain ⟨p, hp, c, hc, a, ha, b, hb, rfl⟩ := hd
  rw [hm]
  exact congrArg some (Fields.mk_eq h ho hf hp (Opnd.code_of_ofCode hc).symm (Opnd.code_of_ofCode ha).symm (Opnd.code_of_ofCode hb).symm
    rfl)

theorem fields_ca {b : BitVec 8} {mk : Pred → Opnd → Opnd → Instr} (h : f.ok none = true) (ho : f.op = op) (hf : f.fn = fn)
    (hd : (do let p ← f.pred; let c ← Opnd.ofCode f.d f.x; let a ← Opnd.ofCode f.a f.x; some (mk p c a)) = some i)
    (hm : ∀ p c a, (mk p c a).fields = some (fieldsMk op fn p c.code a.code b f.x)) (hb : f.b = b) : i.fields = some f := by
  simp only [Option.bind_eq_bind, Option.bind_eq_some_iff, Option.some.injEq] at hd
  obtain ⟨p, hp, c, hc, a, ha, rfl⟩ := hd
  rw [hm]
  exact congrArg some (Fields.mk_eq h ho hf hp (Opnd.code_of_ofCode hc).symm (Opnd.code_of_ofCode ha).symm hb rfl)

/-- X of a row of the immediate form with two operands. -/
theorem Fields.x_imm2 (h : f.ok none = true) (ho : f.op = op) (hf : f.fn = fn) (hr : (rowOf op fn).all (fun r => r.x == .imm) = true) :
    ∀ a b, Opnd.ofCode f.a f.x = some a → Opnd.ofCode f.b f.x = some b → f.x = immX a b :=
  fun _ _ ha hb => immX_of_ofCode ha hb (Fields.x_imm h ho hf hr)

/-- X of a row of the immediate form with one operand. -/
theorem Fields.x_imm1 (h : f.ok none = true) (ho : f.op = op) (hf : f.fn = fn) (hr : (rowOf op fn).all (fun r => r.x == .imm && r.b ==
  .none) = true) :
    ∀ a, Opnd.ofCode f.a f.x = some a → f.x = immX a .zero := by
  intro a ha
  obtain ⟨r, hp, -⟩ := Fields.ok_row_of h ho hf hr
  have hi : (rowOf op fn).all (fun r => r.x == .imm) = true := rowOf_all_mono hr (by simp +contextual)
  have hb : f.b = 0xFF := Fields.b_unused h ho hf (rowOf_all_mono hr (by simp +contextual))
  have hx := Fields.x_imm h ho hf hi
  rw [hb] at hx
  by_cases h1 : f.a = 0xF8
  · have : a = .imm f.x := by simpa [h1, Opnd.ofCode] using ha.symm
    rw [this]; rfl
  · have hz : f.x = 0 := (hx.resolve_left h1).resolve_left (by decide)
    rw [hz]
    cases a with
    | imm y => exact absurd (Opnd.code_of_ofCode ha).symm h1
    | _ => rfl

end

/-! ### Rows whose FN names the form -/

section
variable {f : Fields} {i : Instr} {n m : Nat}

theorem fields_dab_imm {mk : Pred → Dst → Opnd → Opnd → Instr} (h : f.ok none = true) (ho : f.op.toNat = n) (hf : f.fn.toNat = m)
    (hr : (rowOf (BitVec.ofNat 7 n) (BitVec.ofNat 5 m)).all (fun r => r.x == .imm && r.c == .none && r.chk != .call) = true)
    (hd : (do let p ← f.pred; let d ← Dst.ofCode f.d; let a ← Opnd.ofCode f.a f.x; let b ← Opnd.ofCode f.b f.x; some (mk p d a b)) = some i)
    (hm : ∀ p d a b, (mk p d a b).fields = some (fieldsMk (BitVec.ofNat 7 n) (BitVec.ofNat 5 m) p d.code a.code b.code (immX a b))) :
    i.fields = some f := by
  refine fields_dab h (bitVec_of_toNat ho) (bitVec_of_toNat hf) (rowOf_all_mono hr fun r => ?_) hd hm
    (Fields.x_imm2 h (bitVec_of_toNat ho) (bitVec_of_toNat hf) (rowOf_all_mono hr fun r => ?_)) <;>
  simp +contextual

theorem fields_da_imm {mk : Pred → Dst → Opnd → Instr} (h : f.ok none = true) (ho : f.op.toNat = n) (hf : f.fn.toNat = m)
    (hr : (rowOf (BitVec.ofNat 7 n) (BitVec.ofNat 5 m)).all (fun r => r.x == .imm && r.c == .none && r.chk != .call && r.b == .none) = true)
    (hd : (do let p ← f.pred; let d ← Dst.ofCode f.d; let a ← Opnd.ofCode f.a f.x; some (mk p d a)) = some i)
    (hm : ∀ p d a, (mk p d a).fields = some (fieldsMk (BitVec.ofNat 7 n) (BitVec.ofNat 5 m) p d.code a.code 0xFF (immX a .zero))) :
    i.fields = some f := by
  refine fields_da h (bitVec_of_toNat ho) (bitVec_of_toNat hf) (rowOf_all_mono hr fun r => ?_) hd hm
    (Fields.b_unused h (bitVec_of_toNat ho) (bitVec_of_toNat hf) (rowOf_all_mono hr fun r => ?_))
    (Fields.x_imm1 h (bitVec_of_toNat ho) (bitVec_of_toNat hf) (rowOf_all_mono hr fun r => ?_)) <;>
  simp +contextual

theorem fields_ab_imm {mk : Pred → Opnd → Opnd → Instr} (h : f.ok none = true) (ho : f.op.toNat = n) (hf : f.fn.toNat = m)
    (hr : (rowOf (BitVec.ofNat 7 n) (BitVec.ofNat 5 m)).all
      (fun r => r.x == .imm && r.c == .none && r.chk != .call && r.res == .none) = true)
    (hd : (do let p ← f.pred; let a ← Opnd.ofCode f.a f.x; let b ← Opnd.ofCode f.b f.x; some (mk p a b)) = some i)
    (hm : ∀ p a b, (mk p a b).fields = some (fieldsMk (BitVec.ofNat 7 n) (BitVec.ofNat 5 m) p 0xFF a.code b.code (immX a b))) :
    i.fields = some f := by
  refine fields_ab h (bitVec_of_toNat ho) (bitVec_of_toNat hf) hd hm
    (Fields.d_unused h (bitVec_of_toNat ho) (bitVec_of_toNat hf) (rowOf_all_mono hr fun r => ?_))
    (Fields.x_imm2 h (bitVec_of_toNat ho) (bitVec_of_toNat hf) (rowOf_all_mono hr fun r => ?_)) <;>
  simp +contextual

theorem fields_a_imm {mk : Pred → Opnd → Instr} (h : f.ok none = true) (ho : f.op.toNat = n) (hf : f.fn.toNat = m)
    (hr : (rowOf (BitVec.ofNat 7 n) (BitVec.ofNat 5 m)).all
      (fun r => r.x == .imm && r.c == .none && r.chk != .call && r.res == .none && r.b == .none) = true)
    (hd : (do let p ← f.pred; let a ← Opnd.ofCode f.a f.x; some (mk p a)) = some i)
    (hm : ∀ p a, (mk p a).fields = some (fieldsMk (BitVec.ofNat 7 n) (BitVec.ofNat 5 m) p 0xFF a.code 0xFF (immX a .zero))) :
    i.fields = some f := by
  refine fields_a h (bitVec_of_toNat ho) (bitVec_of_toNat hf) hd hm
    (Fields.d_unused h (bitVec_of_toNat ho) (bitVec_of_toNat hf) (rowOf_all_mono hr fun r => ?_))
    (Fields.b_unused h (bitVec_of_toNat ho) (bitVec_of_toNat hf) (rowOf_all_mono hr fun r => ?_))
    (Fields.x_imm1 h (bitVec_of_toNat ho) (bitVec_of_toNat hf) (rowOf_all_mono hr fun r => ?_)) <;>
  simp +contextual

theorem fields_dab_zero {mk : Pred → Dst → Opnd → Opnd → Instr} (h : f.ok none = true) (ho : f.op.toNat = n) (hf : f.fn.toNat = m)
    (hr : (rowOf (BitVec.ofNat 7 n) (BitVec.ofNat 5 m)).all (fun r => r.x == .fixed 0 && r.c == .none && r.chk != .call) = true)
    (hd : (do let p ← f.pred; let d ← Dst.ofCode f.d; let a ← Opnd.ofCode f.a f.x; let b ← Opnd.ofCode f.b f.x; some (mk p d a b)) = some i)
    (hm : ∀ p d a b, (mk p d a b).fields = some (fieldsMk (BitVec.ofNat 7 n) (BitVec.ofNat 5 m) p d.code a.code b.code 0)) :
    i.fields = some f := by
  refine fields_dab h (bitVec_of_toNat ho) (bitVec_of_toNat hf) (rowOf_all_mono hr fun r => ?_) hd hm fun _ _ _ _ =>
    (Fields.x_zero h (bitVec_of_toNat ho) (bitVec_of_toNat hf) (rowOf_all_mono hr fun r => ?_)) <;>
  simp +contextual

theorem fields_da_zero {mk : Pred → Dst → Opnd → Instr} (h : f.ok none = true) (ho : f.op.toNat = n) (hf : f.fn.toNat = m)
    (hr : (rowOf (BitVec.ofNat 7 n) (BitVec.ofNat 5 m)).all (fun r => r.x == .fixed 0 && r.c == .none && r.chk != .call && r.b == .none) =
      true)
    (hd : (do let p ← f.pred; let d ← Dst.ofCode f.d; let a ← Opnd.ofCode f.a f.x; some (mk p d a)) = some i)
    (hm : ∀ p d a, (mk p d a).fields = some (fieldsMk (BitVec.ofNat 7 n) (BitVec.ofNat 5 m) p d.code a.code 0xFF 0)) :
    i.fields = some f := by
  refine fields_da h (bitVec_of_toNat ho) (bitVec_of_toNat hf) (rowOf_all_mono hr fun r => ?_) hd hm
    (Fields.b_unused h (bitVec_of_toNat ho) (bitVec_of_toNat hf) (rowOf_all_mono hr fun r => ?_)) fun _ _ =>
    (Fields.x_zero h (bitVec_of_toNat ho) (bitVec_of_toNat hf) (rowOf_all_mono hr fun r => ?_)) <;>
  simp +contextual

end

/-! ### The parts of FN, X and the descriptors that carry more than an operand -/

theorem fn_fmt {fn : BitVec 5} {k : BitVec 3} (h : fn.extractLsb' 0 3 = k) : (Fmt.ofCode (fn.extractLsb' 3 2)).code ++ k = fn := by
  subst h; revert fn; decide
theorem fn_fmt_rnd {fn : BitVec 5} {r : Rnd} (h : Rnd.ofCode (fn.extractLsb' 0 3) = some r) :
    (Fmt.ofCode (fn.extractLsb' 3 2)).code ++ r.code = fn := by
  rw [Rnd.code_of_ofCode h]; exact fn_fmt rfl
theorem fn_vty {fn : BitVec 5} {k : BitVec 4} (h : fn.extractLsb' 0 4 = k) : (VTy.ofCode (fn.extractLsb' 4 1)).code ++ k = fn := by
  subst h; revert fn; decide
theorem fn_sized {fn : BitVec 5} {k : BitVec 2} (h : fn.extractLsb' 3 2 = k) :
    k ++ BitVec.ofBool (fn.getLsbD 2) ++ (Size.ofCode (fn.extractLsb' 0 2)).code = fn := by
  subst h; revert fn; decide
theorem fn_fls {fn : BitVec 5} {n k : BitVec 1} (h : fn.extractLsb' 4 1 = n ∧ fn.extractLsb' 0 1 = k) :
    n ++ BitVec.ofBool (fn.getLsbD 3) ++ (Fmt.ofCode (fn.extractLsb' 1 2)).code ++ k = fn := by
  obtain ⟨rfl, rfl⟩ := h; revert fn; decide
theorem fn_vls {fn : BitVec 5} {n : BitVec 2} {k : BitVec 1} (h : fn.extractLsb' 1 2 = n ∧ fn.extractLsb' 0 1 = k) (h4 : fn.extractLsb' 4 1
  = 0) :
    0#1 ++ BitVec.ofBool (fn.getLsbD 3) ++ n ++ k = fn := by
  obtain ⟨rfl, rfl⟩ := h; revert fn; decide
theorem dst_call {d : BitVec 8} (h : d.extractLsb' 6 2 = 0b10) : 0b10#2 ++ d.extractLsb' 0 6 = d := by revert d; decide
theorem b_cas {b : BitVec 8} (h : descFits none .evenG b = true) : 2#2 ++ b.extractLsb' 1 5 ++ 0#1 = b := by revert b; decide

/-- A word without bits above k is its k low bits. -/
theorem toNat_low {x m : BitVec 19} {k : Nat} (h : x &&& ~~~m = 0) (hm : m.toNat = 2 ^ k - 1) :
    (x.extractLsb' 0 k).toNat = x.toNat := by
  have e : x &&& m = x := by
    ext i hi
    have hb : (x &&& ~~~m)[i] = false := by rw [h]; simp
    simpa using hb
  have hn : x.toNat &&& (2 ^ k - 1) = x.toNat := by
    rw [← hm, ← BitVec.toNat_and, e]
  rw [Nat.and_two_pow_sub_one_eq_mod] at hn
  simpa [BitVec.extractLsb'_toNat] using hn

section
variable {f : Fields} {op : BitVec 7} {fn : BitVec 5} (h : f.ok none = true) (ho : f.op = op) (hf : f.fn = fn)
include h ho hf

theorem Fields.x_ins (hr : (rowOf op fn).all (fun r => r.x == .fixed 0xFFF) = true) : 0#7 ++ f.x.extractLsb' 6 6 ++ f.x.extractLsb' 0 6 =
  f.x := by
  have hx := toNat_low (Fields.x_fixed h ho hf hr) (k := 12) (by decide)
  have h0 : (f.x.extractLsb' 6 6 ++ f.x.extractLsb' 0 6 : BitVec 12) = f.x.extractLsb' 0 12 :=
    BitVec.extractLsb'_append_extractLsb'_eq_extractLsb' rfl
  have h1 : (0#7 ++ f.x.extractLsb' 6 6 ++ f.x.extractLsb' 0 6 : BitVec 19) = 0#7 ++ (f.x.extractLsb' 6 6 ++ f.x.extractLsb' 0 6 : BitVec
    12) :=
    BitVec.append_assoc
  rw [h1, h0]
  exact BitVec.eq_of_toNat_eq ((BitVec.toNat_append 0#7 (f.x.extractLsb' 0 12)).trans (by simp [hx]))

theorem Fields.x_sys (hr : (rowOf op fn).all (fun r => r.x == .fixed 0xFFF) = true) : 0#7 ++ f.x.extractLsb' 0 12 = f.x :=
  BitVec.eq_of_toNat_eq ((BitVec.toNat_append 0#7 (f.x.extractLsb' 0 12)).trans
    (by simp [toNat_low (Fields.x_fixed h ho hf hr) (k := 12) (by decide)]))

theorem Fields.x_trap (hr : (rowOf op fn).all (fun r => r.x == .fixed 0xFF) = true) : 0#11 ++ f.x.extractLsb' 0 8 = f.x :=
  BitVec.eq_of_toNat_eq ((BitVec.toNat_append 0#11 (f.x.extractLsb' 0 8)).trans
    (by simp [toNat_low (Fields.x_fixed h ho hf hr) (k := 8) (by decide)]))

theorem Fields.x_lane (hr : (rowOf op fn).all (fun r => r.x == .fixed 0xF) = true) : 0#15 ++ f.x.extractLsb' 0 4 = f.x :=
  BitVec.eq_of_toNat_eq ((BitVec.toNat_append 0#15 (f.x.extractLsb' 0 4)).trans
    (by simp [toNat_low (Fields.x_fixed h ho hf hr) (k := 4) (by decide)]))

theorem Fields.x_sel (hr : (rowOf op fn).all (fun r => r.x == .fixed 0x3) = true) : 0#17 ++ (CgetSel.ofCode (f.x.extractLsb' 0 2)).code =
  f.x := by
  rw [CgetSel.code_ofCode]
  exact BitVec.eq_of_toNat_eq ((BitVec.toNat_append 0#17 (f.x.extractLsb' 0 2)).trans
    (by simp [toNat_low (Fields.x_fixed h ho hf hr) (k := 2) (by decide)]))

theorem Fields.x_half (hr : (rowOf op fn).all (fun r => r.x == .fixed 0x1) = true) : 0#18 ++ BitVec.ofBool (f.x.getLsbD 0) = f.x := by
  have e : BitVec.ofBool (f.x.getLsbD 0) = f.x.extractLsb' 0 1 := by
    ext i hi
    have : i = 0 := by omega
    subst this; simp
  rw [e]
  exact BitVec.eq_of_toNat_eq ((BitVec.toNat_append 0#18 (f.x.extractLsb' 0 1)).trans
    (by simp [toNat_low (Fields.x_fixed h ho hf hr) (k := 1) (by decide)]))

theorem Fields.x_rnd {r : Rnd} (e : Rnd.ofCode (f.x.extractLsb' 2 3) = some r) (hr : (rowOf op fn).all (fun r => r.x == .fixed 0x1F) =
  true) :
    0#14 ++ r.code ++ (Fmt.ofCode (f.x.extractLsb' 0 2)).code = f.x := by
  have hx := toNat_low (Fields.x_fixed h ho hf hr) (k := 5) (by decide)
  have h0 : (f.x.extractLsb' 2 3 ++ f.x.extractLsb' 0 2 : BitVec 5) = f.x.extractLsb' 0 5 :=
    BitVec.extractLsb'_append_extractLsb'_eq_extractLsb' rfl
  have h1 : (0#14 ++ f.x.extractLsb' 2 3 ++ f.x.extractLsb' 0 2 : BitVec 19) = 0#14 ++ (f.x.extractLsb' 2 3 ++ f.x.extractLsb' 0 2 : BitVec
    5) :=
    BitVec.append_assoc
  rw [Rnd.code_of_ofCode e, Fmt.code_ofCode, h1, h0]
  exact BitVec.eq_of_toNat_eq ((BitVec.toNat_append 0#14 (f.x.extractLsb' 0 5)).trans (by simp [hx]))

theorem Fields.x_mx (hr : (rowOf op fn).all (fun r => r.x == .mem 0) = true) : (MX.ofX f.x).bits ++ 0#5 = f.x := by
  have hx := Fields.x_mem h ho hf hr
  have e : f.x.extractLsb' 0 5 = 0#5 := (by decide : ∀ l : BitVec 5, l &&& ~~~0 = 0 → l = 0) _ hx
  conv_rhs => rw [← MX.bits_ofX f.x, e]

theorem Fields.x_amo (hr : (rowOf op fn).all (fun r => r.x == .mem 3 && r.chk == .amoI) = true) :
    (MX.ofX f.x).bits ++ 0#3 ++ 1#1 ++ BitVec.ofBool (f.x.getLsbD 0) = f.x := by
  have hx := Fields.x_mem (e := 3) h ho hf (rowOf_all_mono hr (by simp +contextual))
  obtain ⟨r, hp, hok⟩ := Fields.ok_row_of h ho hf hr
  obtain ⟨-, -, -, -, -, -, -, hk, -⟩ := Fields.okRow_iff.1 hok
  have hc : r.chk = .amoI := by simpa using (Bool.and_eq_true_iff.1 hp).2
  have h1 : (f.x.extractLsb' 0 5).getLsbD 1 = true := by simpa [Fields.chkOk, hc] using hk
  have h0 : f.x.getLsbD 0 = (f.x.extractLsb' 0 5).getLsbD 0 := by simp
  have e : (0#3 ++ 1#1 ++ BitVec.ofBool ((f.x.extractLsb' 0 5).getLsbD 0) : BitVec 5) = f.x.extractLsb' 0 5 :=
    (by decide : ∀ l : BitVec 5, l &&& ~~~3 = 0 → l.getLsbD 1 = true → 0#3 ++ 1#1 ++ BitVec.ofBool (l.getLsbD 0) = l) _ hx h1
  rw [xAmo_eq, h0, e, MX.bits_ofX]

theorem Fields.x_amoF (hr : (rowOf op fn).all (fun r => r.x == .mem 3 && r.chk == .amoF) = true) : (MX.ofX f.x).bits ++ 2#5 = f.x := by
  have hx := Fields.x_mem (e := 3) h ho hf (rowOf_all_mono hr (by simp +contextual))
  obtain ⟨r, hp, hok⟩ := Fields.ok_row_of h ho hf hr
  obtain ⟨-, -, -, -, -, -, -, hk, -⟩ := Fields.okRow_iff.1 hok
  have hc : r.chk = .amoF := by simpa using (Bool.and_eq_true_iff.1 hp).2
  have h1 : (f.x.extractLsb' 0 5).extractLsb' 0 2 = 2#2 := by
    have h2 : f.x.extractLsb' 0 2 = 2#2 := by simpa [Fields.chkOk, hc] using hk
    rw [← h2]; ext i hi; simp
  have e : f.x.extractLsb' 0 5 = 2#5 := (by decide : ∀ l : BitVec 5, l &&& ~~~3 = 0 → l.extractLsb' 0 2 = 2#2 → l = 2#5) _ hx h1
  conv_rhs => rw [← MX.bits_ofX f.x, e]

theorem Fields.x_feed (hr : (rowOf op fn).all (fun r => r.x == .mem 7) = true) :
    (MX.ofX f.x).bits ++ 0#2 ++ BitVec.ofBool (f.x.getLsbD 2) ++ BitVec.ofBool (f.x.getLsbD 1) ++ BitVec.ofBool (f.x.getLsbD 0) = f.x := by
  have hx := Fields.x_mem h ho hf hr
  have hb : ∀ i < 5, f.x.getLsbD i = (f.x.extractLsb' 0 5).getLsbD i := fun i hi => by simp [hi]
  have e := (by decide : ∀ l : BitVec 5, l &&& ~~~7 = 0 →
    0#2 ++ BitVec.ofBool (l.getLsbD 2) ++ BitVec.ofBool (l.getLsbD 1) ++ BitVec.ofBool (l.getLsbD 0) = l) _ hx
  rw [xFeed_eq, hb 2 (by decide), hb 1 (by decide), hb 0 (by decide), e, MX.bits_ofX]

theorem Fields.d_call (hr : (rowOf op fn).all (fun r => r.chk == .call) = true) : f.d = 0b10#2 ++ f.d.extractLsb' 0 6 := by
  obtain ⟨r, hp, hok⟩ := Fields.ok_row_of h ho hf hr
  obtain ⟨-, -, -, -, -, -, -, hk, -⟩ := Fields.okRow_iff.1 hok
  exact (dst_call (by simpa [Fields.chkOk, beq_iff_eq.1 hp] using hk)).symm

theorem Fields.b_pair (hr : (rowOf op fn).all (fun r => r.b == .evenG) = true) : f.b = 2#2 ++ f.b.extractLsb' 1 5 ++ 0#1 := by
  obtain ⟨r, hp, hok⟩ := Fields.ok_row_of h ho hf hr
  obtain ⟨-, -, hb, -⟩ := Fields.okRow_iff.1 hok
  exact (b_cas (by simpa [beq_iff_eq.1 hp] using hb)).symm

end

end Sys2Proof
end

