-- ==== Sys2Proof/Proofs/Encoding.lean ====
section
/-! PROOFS. Decode and encode agree (R52 to R56, R77 to R88): the decoder reads from an instruction's fields that instruction, and what it
  reads
from fields that pass their checks has those fields. -/

namespace Sys2Proof

/-! ## From an instruction's fields to the instruction -/

/-- The decoder reads from an instruction's fields that instruction, where they pass their checks. -/
theorem Instr.ofFields_fields (i : Instr) (f : Fields) (hf : i.fields = some f) (h : f.ok none = true) : Instr.ofFields f = some i := by
  cases i
  case add p d a b | addw p d a b | adds p d a b | addu p d a b | sub p d a b | subw p d a b | subs p d a b | subu p d a b
      | mul p d a b | mulw p d a b | mulhs p d a b | mulhu p d a b | divs p d a b | divu p d a b | rems p d a b | remu p d a b
      | andI p d a b | orI p d a b | xorI p d a b | andn p d a b | orn p d a b | xnor p d a b | shl p d a b | shr p d a b
      | sra p d a b | ror p d a b | mins p d a b | minu p d a b | maxs p d a b | maxu p d a b | extu p d a b | exts p d a b
      | cmpEq p d a b | cmpNe p d a b | cmpLts p d a b | cmpLes p d a b | cmpLtu p d a b | cmpLeu p d a b | fsigw p d fmt a b
      | fsiglt p d fmt a b | vext p d t a b | vshr p d a b | vsigMin p d a b | vsigLt p d a b | ptr p d a b | padd p d a b
      | cder p d a b | prbR p d a b | prbW p d a b | admAset p a b | chsInt p a b | chsFp p a b | chsVec p a b | chsMark p a b
      | chcBind p a b | chcCred p a b | chcSpst p a b | semSsig p a b | semSsigr p a b | semSwait p d a b | semSwaitd p d a b
      | semSset p a b | barw p d a b | taskSpawn p d a b | taskWake p a b | taskSpri p a b | otcPin p a b =>
    cases hf
    have hb := Opnd.ofCode_code (Opnd.carries_immX_right (Fields.ok_one_imm h))
    simp [Instr.ofFields, decInt, decFp, decVec, decMem, decUnit, decTask, decSys, Opnd.ofCode_code (Opnd.carries_immX a b), hb]
  case clz p d a | ctz p d a | popc p d a | brev p d a | bswap p d a | tstnz p d a | mov p d a | movgf p d a | brx p a | ret p a
      | park p a | accAclr p a | accAsta p d a | admArd p d a | chsEos p a | chrInt p d a | chrFp p d a | chrVec p d a
      | chrEnd p d a | chrStat p d a | chrLat p d a | semSrd p d a | bara p d a | taskTstat p d a | otcInvo p a | otcInva p a
      | haltc p a =>
    cases hf
    simp [Instr.ofFields, decInt, decCtl, decUnit, decTask, decSys, Opnd.ofCode_code (Opnd.carries_immX a .zero)]
  case movi p d x | br p x | call p link x =>
    cases hf
    simp [Instr.ofFields, decInt, decCtl]
  case movx p d a x =>
    cases hf
    have ha : a.code ≠ 0xF8 := by simpa using Fields.ok_one_imm h
    simp [Instr.ofFields, decInt, Opnd.reads ha]
  case fadd p d fmt rnd a b | fsub p d fmt rnd a b | fmul p d fmt rnd a b | fdiv p d fmt rnd a b | fmin p d fmt a b
      | fmax p d fmt a b | fminm p d fmt a b | fmaxm p d fmt a b | fcmpEq p d fmt a b | fcmpLt p d fmt a b | fcmpLe p d fmt a b
      | fcmpUn p d fmt a b | fcmpEqs p d fmt a b | fcps p d fmt a b | vadd p d t a b | vsub p d t a b | vmul p d t a b
      | vscl p d t a b | vmnx p d k a b | vcmp p d k a b | vselSet p d a b | vselClr p d a b | vperm p d a b | vand p d a b
      | vor p d a b | vxor p d a b | vshl p d a b | vshrl p d a b | vsra p d a b | vqntE4m3Sat p d a b | vqntE4m3Nan p d a b
      | vqntInt8 p d a b | vqntInt4 p d a b | vqntMxfp4 p d a b | vqntMxint8 p d a b | vqntMxfp8 p d a b | vdqE4m3Sat p d a b
      | vdqE4m3Nan p d a b | vdqInt8 p d a b | vdqInt4 p d a b | ld p d mx sz sgn a b | ldWaitf p d mx sz sgn a b
      | ldTake p d mx sz sgn a b | ldPres p d mx sz a b | flsLd p d mx fmt tagged a b | flsLdWaitf p d mx fmt tagged a b
      | vlsLd p d mx tagged a b | vlsLdWaitf p d mx tagged a b | vlsLdTake p d mx tagged a b | amoFadd32 p d mx a b
      | amoFmax32 p d mx a b | amoFmin32 p d mx a b | cas32 p d mx a b | xregReg p mx a b | cfgConf p d mx a b | wld p mx a b
      | ctxCsave p mx a b | ctxCrest p mx a b | tblwRoute p mx a b | tblwName p mx a b | tblwHeat p mx a b | tblwAdmc p mx a b =>
    cases hf
    obtain ⟨ha, hb, -⟩ := Fields.ok_no_imm h (rowOf_no_imm _ rfl)
    simp [Instr.ofFields, decFp, decVec, decMem, decEng, decUnit, decSys, Opnd.reads ha, Opnd.reads hb]
  case amoAdd p d mx wide a b | amoAnd p d mx wide a b | amoOr p d mx wide a b | amoXor p d mx wide a b
      | amoMins p d mx wide a b | amoMaxs p d mx wide a b | amoMinu p d mx wide a b | amoMaxu p d mx wide a b
      | amoXchg p d mx wide a b =>
    cases hf
    obtain ⟨ha, hb, -⟩ := Fields.ok_no_imm h (rowOf_no_imm _ rfl)
    simp [Instr.ofFields, decMem, Opnd.reads ha, Opnd.reads hb, xAmo_eq, xMem_bit]
  case feed p mx fin swap eos a b =>
    cases hf
    obtain ⟨ha, hb, -⟩ := Fields.ok_no_imm h (rowOf_no_imm _ rfl)
    rw [xFeed_eq] at *
    simp [Instr.ofFields, decUnit, Opnd.reads ha, Opnd.reads hb, xMem_bit]
  case wrs p num a | fsqrt p d fmt rnd a | fcvt p d dst src rnd a | fcviFs p d fmt rnd a | fcviFu p d fmt rnd a
      | fcviSf p d fmt rnd a | fcviUf p d fmt rnd a | fabs p d fmt a | fneg p d fmt a | frcp p d fmt a | frsq p d fmt a
      | fex2 p d fmt a | flg2 p d fmt a | fcls p d fmt a | vredSum p d a | vredMax p d a | vredMin p d a | vredAmax p d a
      | vbc p d t a | vactRelu p d a | vactGelt p d a | vactSilu p d a | vactExp p d a | vactTanh p d a | vactSigm p d a
      | vactRcp p d a | vactRsq p d a | vcvtBf16F32 p d a | vcvtF32Bf16 p d a | vcvtF16F32 p d a | vcvtF32F16 p d a
      | vcvtI32F32 p d a | vcvtF32I32 p d a | vcvtE5m2F32 p d a | vcvtF32E5m2 p d a | vcvtF32E4m3 p d a | vdqMxfp4 p d hi a
      | vdqMxint8 p d hi a | vdqMxfp8 p d hi a | cas64 p d mx a pair | xregRel p mx a | cfgFrel p mx a | cfgFqry p d a
      | drnPop p d a | drnLast p d a | drnPeek p d a =>
    cases hf
    obtain ⟨ha, -⟩ := Fields.ok_no_imm h (rowOf_no_imm _ rfl)
    simp [Instr.ofFields, decCtl, decFp, decVec, decMem, decEng, decUnit, Opnd.reads ha]
  case st p mx sz a b c | stFill p mx sz a b c | stSetf p mx sz a b c | stClre p mx sz a b c | flsSt p mx fmt tagged a b c
      | flsStFill p mx fmt tagged a b c | vlsSt p mx tagged a b c | vlsStFill p mx tagged a b c | vlsStSetf p mx tagged a b c
      | vlsStClre p mx tagged a b c | xcpy p mx a b c | xred p mx a b c =>
    cases hf
    obtain ⟨ha, hb, hc⟩ := Fields.ok_no_imm h (rowOf_no_imm _ rfl)
    simp [Instr.ofFields, decMem, decEng, Opnd.reads ha, Opnd.reads hb, Opnd.reads hc]
  case xchn p mx a c | xcolAllredSum p mx a c | xcolAllredMax p mx a c | xcolAllgath p mx a c | xcolRedscatSum p mx a c
      | xcolBcast p mx a c =>
    cases hf
    obtain ⟨ha, -, hc⟩ := Fields.ok_no_imm h (rowOf_no_imm _ rfl)
    simp [Instr.ofFields, decEng, Opnd.reads ha, Opnd.reads hc]
  case endt p | yieldT p | trap p n | rds p d num | tret p | vidx p d =>
    cases hf
    simp [Instr.ofFields, decCtl, decVec]
  case ins p d a b pos len | pand p d a b | por p d a b | pxor p d a b | cld p d mx a b =>
    cases hf
    obtain ⟨ha, hb, -⟩ := Fields.ok_no_imm h (by simp only [fieldsMk_op, fieldsMk_fn]; decide)
    simp [Instr.ofFields, decInt, decMem, Opnd.reads ha, Opnd.reads hb]
  case pnot p d a | movfg p d a | vsigRd p d a | cget p d w a =>
    cases hf
    obtain ⟨ha, -⟩ := Fields.ok_no_imm h (by simp only [fieldsMk_op, fieldsMk_fn]; decide)
    simp [Instr.ofFields, decInt, decVec, decMem, Opnd.reads ha]
  case cst p mx a b c =>
    cases hf
    obtain ⟨ha, hb, hc⟩ := Fields.ok_no_imm h (by simp only [fieldsMk_op, fieldsMk_fn]; decide)
    simp [Instr.ofFields, decMem, Opnd.reads ha, Opnd.reads hb, Opnd.reads hc]
  case fsigr p d fmt a =>
    cases hf
    obtain ⟨ha, -⟩ := Fields.ok_no_imm h (by simp only [fieldsMk_op, fieldsMk_fn]; cases fmt <;> decide)
    simp [Instr.ofFields, decFp, Opnd.reads ha]
  case vins p d t lane a b =>
    cases hf
    obtain ⟨ha, hb, -⟩ := Fields.ok_no_imm h (by simp only [fieldsMk_op, fieldsMk_fn]; cases t <;> decide)
    simp [Instr.ofFields, decVec, Opnd.reads ha, Opnd.reads hb]
  case tretAt p b =>
    cases hf
    obtain ⟨-, hb, -⟩ := Fields.ok_no_imm h (rowOf_no_imm _ rfl)
    simp [Instr.ofFields, decCtl, Opnd.reads hb]
  case sel p d a b c =>
    cases hf
    obtain ⟨ha, hb, -⟩ := Fields.ok_no_imm h (rowOf_no_imm _ rfl)
    have hc : c.code ≠ 0xF8 := by simpa using Fields.ok_c_ne_imm h (by simp only [fieldsMk_op, fieldsMk_fn]; decide)
    simp [Instr.ofFields, decInt, Opnd.reads ha, Opnd.reads hb, Opnd.reads hc]
  case ffma p d fmt rnd a b c =>
    cases hf
    obtain ⟨ha, hb, -⟩ := Fields.ok_no_imm h (rowOf_no_imm _ rfl)
    have hc : c.code ≠ 0xF8 := by
      simpa using Fields.ok_c_ne_imm h (by simp only [fieldsMk_op, fieldsMk_fn]; cases fmt <;> cases rnd <;> decide)
    simp [Instr.ofFields, decFp, Opnd.reads ha, Opnd.reads hb, Opnd.reads hc]
  case vfma p d t a b c =>
    cases hf
    obtain ⟨ha, hb, -⟩ := Fields.ok_no_imm h (rowOf_no_imm _ rfl)
    have hc : c.code ≠ 0xF8 := by
      simpa using Fields.ok_c_ne_imm h (by
        simp only [fieldsMk_op, fieldsMk_fn]
        cases t with
        | f32 r => cases r <;> decide
        | i32 => decide)
    simp [Instr.ofFields, decVec, Opnd.reads ha, Opnd.reads hb, Opnd.reads hc]
  all_goals cases hf

/-! ## From the fields to the instruction that has them -/

/-! ### Rows with parts of their own -/

section
variable {f : Fields} {op : BitVec 7} {fn : BitVec 5} {i : Instr} {τ : Type}

theorem fieldsMk_congr {fn fn' : BitVec 5} {p : Pred} {d a b : BitVec 8} {x x' : BitVec 19} (hf : fn = fn') (hx : x = x') :
    some (fieldsMk op fn p d a b x) = some (fieldsMk op fn' p d a b x') := by
  rw [hf, hx]

/-- What holds of every FN that the map assigns to OP. -/
theorem Fields.fn_assigned {C : BitVec 5 → Prop} (h : f.ok none = true) (ho : f.op = op) (hc : ∀ fn, (rowOf op fn).isSome = true → C fn) :
  C f.fn := by
  obtain ⟨r, e, -⟩ := Fields.ok_row h
  exact hc f.fn (by rw [← ho, e]; rfl)

theorem fields_b {d a : BitVec 8} {mk : Pred → Opnd → Instr} (h : f.ok none = true) (ho : f.op = op) (hf : f.fn = fn)
    (hd : (do let p ← f.pred; let b ← Opnd.ofCode f.b f.x; some (mk p b)) = some i)
    (hm : ∀ p b, (mk p b).fields = some (fieldsMk op fn p d a b.code f.x)) (hD : f.d = d) (ha : f.a = a) : i.fields = some f := by
  simp only [Option.bind_eq_bind, Option.bind_eq_some_iff, Option.some.injEq] at hd
  obtain ⟨p, hp, b, hb, rfl⟩ := hd
  rw [hm]
  exact congrArg some (Fields.mk_eq h ho hf hp hD ha (Opnd.code_of_ofCode hb).symm rfl)

theorem fields_dab_then {t : Option τ} {mk : Pred → Dst → Opnd → Opnd → τ → Instr} (h : f.ok none = true) (ho : f.op = op)
    (hr : (rowOf op f.fn).all (fun r => (r.c == .none || r.x == .opC) && r.chk != .call) = true)
    (hd : (do let p ← f.pred; let d ← Dst.ofCode f.d; let a ← Opnd.ofCode f.a f.x; let b ← Opnd.ofCode f.b f.x; let e ← t; some (mk p d a b
      e)) = some i)
    (hm : ∀ p d a b e, t = some e → (mk p d a b e).fields = some (fieldsMk op f.fn p d.code a.code b.code f.x)) : i.fields = some f := by
  simp only [Option.bind_eq_bind, Option.bind_eq_some_iff, Option.some.injEq] at hd
  obtain ⟨p, hp, d, hd, a, ha, b, hb, e, he, rfl⟩ := hd
  rw [hm p d a b e he]
  exact congrArg some (Fields.mk_eq h ho rfl hp (Dst.code_of_ofCode (Fields.d_reg h ho rfl hr) hd).symm (Opnd.code_of_ofCode ha).symm
    (Opnd.code_of_ofCode hb).symm rfl)

theorem fields_da_then {b : BitVec 8} {t : Option τ} {mk : Pred → Dst → Opnd → τ → Instr} (h : f.ok none = true) (ho : f.op = op)
    (hr : (rowOf op f.fn).all (fun r => (r.c == .none || r.x == .opC) && r.chk != .call) = true)
    (hd : (do let p ← f.pred; let d ← Dst.ofCode f.d; let a ← Opnd.ofCode f.a f.x; let e ← t; some (mk p d a e)) = some i)
    (hm : ∀ p d a e, t = some e → (mk p d a e).fields = some (fieldsMk op f.fn p d.code a.code b f.x)) (hb : f.b = b) : i.fields = some f
      := by
  simp only [Option.bind_eq_bind, Option.bind_eq_some_iff, Option.some.injEq] at hd
  obtain ⟨p, hp, d, hd, a, ha, e, he, rfl⟩ := hd
  rw [hm p d a e he]
  exact congrArg some (Fields.mk_eq h ho rfl hp (Dst.code_of_ofCode (Fields.d_reg h ho rfl hr) hd).symm (Opnd.code_of_ofCode ha).symm hb
    rfl)

theorem fields_cdab {mk : Pred → Opnd → Dst → Opnd → Opnd → Instr} (h : f.ok none = true) (ho : f.op = op) (hf : f.fn = fn)
    (hr : (rowOf op fn).all (fun r => r.x == .opC && r.chk != .call) = true)
    (hd : (do
      let p ← f.pred; let c ← Opnd.ofCode (f.x.extractLsb' 11 8) f.x; let d ← Dst.ofCode f.d; let a ← Opnd.ofCode f.a f.x
      let b ← Opnd.ofCode f.b f.x; some (mk p c d a b)) = some i)
    (hm : ∀ p c d a b, (mk p c d a b).fields = some (fieldsMk op fn p d.code a.code b.code (c.code ++ 0#11))) : i.fields = some f := by
  simp only [Option.bind_eq_bind, Option.bind_eq_some_iff, Option.some.injEq] at hd
  obtain ⟨p, hp, c, hc, d, hd, a, ha, b, hb, rfl⟩ := hd
  have hx := Fields.x_opC h ho hf (rowOf_all_mono hr (by simp +contextual))
  rw [← Opnd.code_of_ofCode hc] at hx
  rw [hm]
  exact congrArg some (Fields.mk_eq h ho hf hp (Dst.code_of_ofCode (Fields.d_reg h ho hf (rowOf_all_mono hr (by simp +contextual))) hd).symm
    (Opnd.code_of_ofCode ha).symm (Opnd.code_of_ofCode hb).symm hx.symm)

theorem fields_cdab_then {t : Option τ} {mk : Pred → Opnd → Dst → Opnd → Opnd → τ → Instr} (h : f.ok none = true) (ho : f.op = op)
    (hr : (rowOf op f.fn).all (fun r => r.x == .opC && r.chk != .call) = true)
    (hd : (do
      let p ← f.pred; let c ← Opnd.ofCode (f.x.extractLsb' 11 8) f.x; let d ← Dst.ofCode f.d; let a ← Opnd.ofCode f.a f.x
      let b ← Opnd.ofCode f.b f.x; let e ← t; some (mk p c d a b e)) = some i)
    (hm : ∀ p c d a b e, t = some e → (mk p c d a b e).fields = some (fieldsMk op f.fn p d.code a.code b.code (c.code ++ 0#11))) :
    i.fields = some f := by
  cases t with
  | none => simp at hd
  | some e => exact fields_cdab h ho rfl hr hd (fun p c d a b => hm p c d a b e rfl)

end

/-- The integer rows: an instruction read from fields that pass their checks has those fields. -/
theorem decInt_fields {f : Fields} {i : Instr} (h : f.ok none = true) (hd : decInt f = some i) : i.fields = some f := by
  rw [decInt] at hd
  split at hd
  next ho =>
    split at hd
    iterate 4 next hf =>
      exact fields_dab_imm h ho hf (by decide) hd fun _ _ _ _ => rfl
    contradiction
  next ho =>
    split at hd
    iterate 4 next hf =>
      exact fields_dab_imm h ho hf (by decide) hd fun _ _ _ _ => rfl
    contradiction
  next ho =>
    split at hd
    iterate 4 next hf =>
      exact fields_dab_imm h ho hf (by decide) hd fun _ _ _ _ => rfl
    contradiction
  next ho =>
    split at hd
    iterate 4 next hf =>
      exact fields_dab_imm h ho hf (by decide) hd fun _ _ _ _ => rfl
    contradiction
  next ho =>
    split at hd
    iterate 6 next hf =>
      exact fields_dab_imm h ho hf (by decide) hd fun _ _ _ _ => rfl
    contradiction
  next ho =>
    split at hd
    iterate 4 next hf =>
      exact fields_dab_imm h ho hf (by decide) hd fun _ _ _ _ => rfl
    contradiction
  next ho =>
    split at hd
    iterate 4 next hf =>
      exact fields_dab_imm h ho hf (by decide) hd fun _ _ _ _ => rfl
    contradiction
  next ho =>
    split at hd
    iterate 5 next hf =>
      exact fields_da_imm h ho hf (by decide) hd fun _ _ _ => rfl
    contradiction
  next ho =>
    replace ho := bitVec_of_toNat ho
    split at hd
    next hf =>
      replace hf := bitVec_of_toNat hf
      exact fields_d h ho hf (by decide) hd (fun _ _ => rfl) (Fields.a_imm h ho hf (by decide)) (Fields.b_unused h ho hf (by decide))
    contradiction
  next ho =>
    replace ho := bitVec_of_toNat ho
    split at hd
    next hf =>
      replace hf := bitVec_of_toNat hf
      exact fields_da (x := fun _ => f.x) h ho hf (by decide) hd (fun _ _ _ => rfl) (Fields.b_imm h ho hf (by decide)) (fun _ _ => rfl)
    contradiction
  next ho =>
    split at hd
    iterate 2 next hf =>
      exact fields_dab_imm h ho hf (by decide) hd fun _ _ _ _ => rfl
    next hf =>
      replace ho := bitVec_of_toNat ho
      replace hf := bitVec_of_toNat hf
      exact fields_dab (x := fun _ _ => f.x) h ho hf (by decide) hd (fun _ _ _ _ => fieldsMk_congr rfl (Fields.x_ins h ho hf
        (by decide))) (fun _ _ _ _ => rfl)
    contradiction
  next ho =>
    split at hd
    iterate 6 next hf =>
      exact fields_dab_imm h ho hf (by decide) hd fun _ _ _ _ => rfl
    contradiction
  next ho =>
    replace ho := bitVec_of_toNat ho
    split at hd
    next hf =>
      replace hf := bitVec_of_toNat hf
      exact fields_cdab h ho hf (by decide) hd (fun _ _ _ _ _ => rfl)
    contradiction
  next ho =>
    split at hd
    iterate 3 next hf =>
      exact fields_dab_zero h ho hf (by decide) hd fun _ _ _ _ => rfl
    next hf =>
      exact fields_da_zero h ho hf (by decide) hd fun _ _ _ => rfl
    next hf =>
      exact fields_da_imm h ho hf (by decide) hd fun _ _ _ => rfl
    contradiction
  next ho =>
    split at hd
    iterate 2 next hf =>
      exact fields_da_imm h ho hf (by decide) hd fun _ _ _ => rfl
    next hf =>
      exact fields_da_zero h ho hf (by decide) hd fun _ _ _ => rfl
    contradiction
  contradiction

/-- The control rows: an instruction read from fields that pass their checks has those fields. -/
theorem decCtl_fields {f : Fields} {i : Instr} (h : f.ok none = true) (hd : decCtl f = some i) : i.fields = some f := by
  rw [decCtl] at hd
  split at hd
  next ho =>
    replace ho := bitVec_of_toNat ho
    split at hd
    next hf =>
      replace hf := bitVec_of_toNat hf
      exact fields_p h ho hf hd (fun _ => rfl) (Fields.d_unused h ho hf (by decide)) (Fields.a_imm h ho hf (by decide)) (Fields.b_unused
        h ho hf (by decide))
    contradiction
  next ho =>
    split at hd
    next hf =>
      exact fields_a_imm h ho hf (by decide) hd fun _ _ => rfl
    contradiction
  next ho =>
    replace ho := bitVec_of_toNat ho
    split at hd
    next hf =>
      replace hf := bitVec_of_toNat hf
      exact fields_p h ho hf hd (fun _ => rfl) (Fields.d_call h ho hf (by decide)) (Fields.a_imm h ho hf (by decide)) (Fields.b_unused h
        ho hf (by decide))
    contradiction
  next ho =>
    split at hd
    next hf =>
      exact fields_a_imm h ho hf (by decide) hd fun _ _ => rfl
    contradiction
  next ho =>
    split at hd
    iterate 2 next hf =>
      replace ho := bitVec_of_toNat ho
      replace hf := bitVec_of_toNat hf
      exact fields_p h ho hf hd (fun _ => fieldsMk_congr rfl (Fields.x_zero h ho hf (by decide)).symm) (Fields.d_unused h ho hf
        (by decide)) (Fields.a_unused h ho hf (by decide)) (Fields.b_unused h ho hf (by decide))
    next hf =>
      exact fields_a_imm h ho hf (by decide) hd fun _ _ => rfl
    contradiction
  next ho =>
    replace ho := bitVec_of_toNat ho
    split at hd
    next hf =>
      replace hf := bitVec_of_toNat hf
      exact fields_p h ho hf hd (fun _ => fieldsMk_congr rfl (Fields.x_trap h ho hf (by decide))) (Fields.d_unused h ho hf (by decide))
        (Fields.a_unused h ho hf (by decide)) (Fields.b_unused h ho hf (by decide))
    contradiction
  next ho =>
    replace ho := bitVec_of_toNat ho
    split at hd
    next hf =>
      replace hf := bitVec_of_toNat hf
      exact fields_d h ho hf (by decide) hd (fun _ _ => fieldsMk_congr rfl (Fields.x_sys h ho hf (by decide))) (Fields.a_unused h ho hf
        (by decide)) (Fields.b_unused h ho hf (by decide))
    next hf =>
      replace hf := bitVec_of_toNat hf
      exact fields_a (x := fun _ => f.x) h ho hf hd (fun _ _ => fieldsMk_congr rfl (Fields.x_sys h ho hf (by decide))) (Fields.d_unused
        h ho hf (by decide)) (Fields.b_unused h ho hf (by decide)) (fun _ _ => rfl)
    contradiction
  next ho =>
    replace ho := bitVec_of_toNat ho
    split at hd
    next hf =>
      replace hf := bitVec_of_toNat hf
      exact fields_p h ho hf hd (fun _ => fieldsMk_congr rfl (Fields.x_zero h ho hf (by decide)).symm) (Fields.d_unused h ho hf
        (by decide)) (Fields.a_unused h ho hf (by decide)) (Fields.b_unused h ho hf (by decide))
    next hf =>
      replace hf := bitVec_of_toNat hf
      exact fields_b h ho hf hd (fun _ _ => fieldsMk_congr rfl (Fields.x_zero h ho hf (by decide)).symm) (Fields.d_unused h ho hf
        (by decide)) (Fields.a_unused h ho hf (by decide))
    contradiction
  contradiction

/-- The scalar floating-point rows: an instruction read from fields that pass their checks has those fields. -/
theorem decFp_fields {f : Fields} {i : Instr} (h : f.ok none = true) (hd : decFp f = some i) : i.fields = some f := by
  rw [decFp] at hd
  split at hd
  next ho =>
    replace ho := bitVec_of_toNat ho
    exact fields_dab_then h ho (rowOf_all _ (by decide)) hd (fun _ _ _ _ _ e => fieldsMk_congr (fn_fmt_rnd e) (Fields.x_zero h ho rfl
      (rowOf_all _ (by decide))).symm)
  next ho =>
    replace ho := bitVec_of_toNat ho
    exact fields_dab_then h ho (rowOf_all _ (by decide)) hd (fun _ _ _ _ _ e => fieldsMk_congr (fn_fmt_rnd e) (Fields.x_zero h ho rfl
      (rowOf_all _ (by decide))).symm)
  next ho =>
    replace ho := bitVec_of_toNat ho
    exact fields_dab_then h ho (rowOf_all _ (by decide)) hd (fun _ _ _ _ _ e => fieldsMk_congr (fn_fmt_rnd e) (Fields.x_zero h ho rfl
      (rowOf_all _ (by decide))).symm)
  next ho =>
    replace ho := bitVec_of_toNat ho
    exact fields_cdab_then h ho (rowOf_all _ (by decide)) hd (fun _ _ _ _ _ _ e => fieldsMk_congr (fn_fmt_rnd e) rfl)
  next ho =>
    replace ho := bitVec_of_toNat ho
    exact fields_dab_then h ho (rowOf_all _ (by decide)) hd (fun _ _ _ _ _ e => fieldsMk_congr (fn_fmt_rnd e) (Fields.x_zero h ho rfl
      (rowOf_all _ (by decide))).symm)
  next ho =>
    replace ho := bitVec_of_toNat ho
    exact fields_da_then h ho (rowOf_all _ (by decide)) hd (fun _ _ _ _ e => fieldsMk_congr (fn_fmt_rnd e) (Fields.x_zero h ho rfl
      (rowOf_all _ (by decide))).symm) (Fields.b_unused h ho rfl (rowOf_all _ (by decide)))
  next ho =>
    replace ho := bitVec_of_toNat ho
    split at hd
    next hf =>
      exact fields_dab (x := fun _ _ => 0) h ho rfl (rowOf_all _ (by decide)) hd (fun _ _ _ _ => fieldsMk_congr (fn_fmt hf) rfl) (fun _
        _ _ _ => (Fields.x_zero h ho rfl (rowOf_all _ (by decide))))
    split at hd
    next hf =>
      exact fields_dab (x := fun _ _ => 0) h ho rfl (rowOf_all _ (by decide)) hd (fun _ _ _ _ => fieldsMk_congr (fn_fmt hf) rfl) (fun _
        _ _ _ => (Fields.x_zero h ho rfl (rowOf_all _ (by decide))))
    split at hd
    next hf =>
      exact fields_dab (x := fun _ _ => 0) h ho rfl (rowOf_all _ (by decide)) hd (fun _ _ _ _ => fieldsMk_congr (fn_fmt hf) rfl) (fun _
        _ _ _ => (Fields.x_zero h ho rfl (rowOf_all _ (by decide))))
    split at hd
    next hf =>
      exact fields_dab (x := fun _ _ => 0) h ho rfl (rowOf_all _ (by decide)) hd (fun _ _ _ _ => fieldsMk_congr (fn_fmt hf) rfl) (fun _
        _ _ _ => (Fields.x_zero h ho rfl (rowOf_all _ (by decide))))
    contradiction
  next ho =>
    replace ho := bitVec_of_toNat ho
    split at hd
    next hf =>
      exact fields_dab (x := fun _ _ => 0) h ho rfl (rowOf_all _ (by decide)) hd (fun _ _ _ _ => fieldsMk_congr (fn_fmt hf) rfl) (fun _
        _ _ _ => (Fields.x_zero h ho rfl (rowOf_all _ (by decide))))
    split at hd
    next hf =>
      exact fields_dab (x := fun _ _ => 0) h ho rfl (rowOf_all _ (by decide)) hd (fun _ _ _ _ => fieldsMk_congr (fn_fmt hf) rfl) (fun _
        _ _ _ => (Fields.x_zero h ho rfl (rowOf_all _ (by decide))))
    split at hd
    next hf =>
      exact fields_dab (x := fun _ _ => 0) h ho rfl (rowOf_all _ (by decide)) hd (fun _ _ _ _ => fieldsMk_congr (fn_fmt hf) rfl) (fun _
        _ _ _ => (Fields.x_zero h ho rfl (rowOf_all _ (by decide))))
    split at hd
    next hf =>
      exact fields_dab (x := fun _ _ => 0) h ho rfl (rowOf_all _ (by decide)) hd (fun _ _ _ _ => fieldsMk_congr (fn_fmt hf) rfl) (fun _
        _ _ _ => (Fields.x_zero h ho rfl (rowOf_all _ (by decide))))
    split at hd
    next hf =>
      exact fields_dab (x := fun _ _ => 0) h ho rfl (rowOf_all _ (by decide)) hd (fun _ _ _ _ => fieldsMk_congr (fn_fmt hf) rfl) (fun _
        _ _ _ => (Fields.x_zero h ho rfl (rowOf_all _ (by decide))))
    contradiction
  next ho =>
    replace ho := bitVec_of_toNat ho
    have hf : f.fn.extractLsb' 0 3 = 0#3 := Fields.fn_assigned (C := fun n => n.extractLsb' 0 3 = 0#3) h ho (by decide)
    exact fields_da_then h ho (rowOf_all _ (by decide)) hd (fun _ _ _ _ e => fieldsMk_congr (fn_fmt hf) (Fields.x_rnd h ho rfl e
      (rowOf_all _ (by decide)))) (Fields.b_unused h ho rfl (rowOf_all _ (by decide)))
  next ho =>
    replace ho := bitVec_of_toNat ho
    split at hd
    iterate 4 next hf =>
      replace hf := bitVec_of_toNat hf
      exact fields_da_then h ho (by rw [hf]; decide) hd (fun _ _ _ _ e => fieldsMk_congr hf.symm (Fields.x_rnd h ho rfl e
        (by rw [hf]; decide))) (Fields.b_unused h ho rfl (by rw [hf]; decide))
    contradiction
  next ho =>
    replace ho := bitVec_of_toNat ho
    split at hd
    next hf =>
      exact fields_da (x := fun _ => 0) h ho rfl (by revert hf; generalize f.fn = fn; revert fn; decide) hd (fun _ _ _ => fieldsMk_congr
        (fn_fmt hf) rfl) (Fields.b_unused h ho rfl (by revert hf; generalize f.fn = fn; revert fn; decide)) (fun _ _ => (Fields.x_zero h
        ho rfl (by revert hf; generalize f.fn = fn; revert fn; decide)))
    split at hd
    next hf =>
      exact fields_da (x := fun _ => 0) h ho rfl (by revert hf; generalize f.fn = fn; revert fn; decide) hd (fun _ _ _ => fieldsMk_congr
        (fn_fmt hf) rfl) (Fields.b_unused h ho rfl (by revert hf; generalize f.fn = fn; revert fn; decide)) (fun _ _ => (Fields.x_zero h
        ho rfl (by revert hf; generalize f.fn = fn; revert fn; decide)))
    split at hd
    next hf =>
      exact fields_dab (x := fun _ _ => 0) h ho rfl (by revert hf; generalize f.fn = fn; revert fn; decide) hd (fun _ _ _ _ =>
        fieldsMk_congr (fn_fmt hf) rfl) (fun _ _ _ _ => (Fields.x_zero h ho rfl
        (by revert hf; generalize f.fn = fn; revert fn; decide)))
    contradiction
  next ho =>
    replace ho := bitVec_of_toNat ho
    split at hd
    next hf =>
      exact fields_da (x := fun _ => 0) h ho rfl (by revert hf; generalize f.fn = fn; revert fn; decide) hd (fun _ _ _ => fieldsMk_congr
        (fn_fmt hf) rfl) (Fields.b_unused h ho rfl (by revert hf; generalize f.fn = fn; revert fn; decide)) (fun _ _ => (Fields.x_zero h
        ho rfl (by revert hf; generalize f.fn = fn; revert fn; decide)))
    split at hd
    next hf =>
      exact fields_dab h ho rfl (by revert hf; generalize f.fn = fn; revert fn; decide) hd (fun _ _ _ _ => fieldsMk_congr (fn_fmt hf)
        rfl) (Fields.x_imm2 h ho rfl (by revert hf; generalize f.fn = fn; revert fn; decide))
    split at hd
    next hf =>
      exact fields_dab h ho rfl (by revert hf; generalize f.fn = fn; revert fn; decide) hd (fun _ _ _ _ => fieldsMk_congr (fn_fmt hf)
        rfl) (Fields.x_imm2 h ho rfl (by revert hf; generalize f.fn = fn; revert fn; decide))
    contradiction
  next ho =>
    replace ho := bitVec_of_toNat ho
    split at hd
    next hf =>
      exact fields_da (x := fun _ => 0) h ho rfl (rowOf_all _ (by decide)) hd (fun _ _ _ => fieldsMk_congr (fn_fmt hf) rfl)
        (Fields.b_unused h ho rfl (rowOf_all _ (by decide))) (fun _ _ => (Fields.x_zero h ho rfl (rowOf_all _ (by decide))))
    split at hd
    next hf =>
      exact fields_da (x := fun _ => 0) h ho rfl (rowOf_all _ (by decide)) hd (fun _ _ _ => fieldsMk_congr (fn_fmt hf) rfl)
        (Fields.b_unused h ho rfl (rowOf_all _ (by decide))) (fun _ _ => (Fields.x_zero h ho rfl (rowOf_all _ (by decide))))
    split at hd
    next hf =>
      exact fields_da (x := fun _ => 0) h ho rfl (rowOf_all _ (by decide)) hd (fun _ _ _ => fieldsMk_congr (fn_fmt hf) rfl)
        (Fields.b_unused h ho rfl (rowOf_all _ (by decide))) (fun _ _ => (Fields.x_zero h ho rfl (rowOf_all _ (by decide))))
    split at hd
    next hf =>
      exact fields_da (x := fun _ => 0) h ho rfl (rowOf_all _ (by decide)) hd (fun _ _ _ => fieldsMk_congr (fn_fmt hf) rfl)
        (Fields.b_unused h ho rfl (rowOf_all _ (by decide))) (fun _ _ => (Fields.x_zero h ho rfl (rowOf_all _ (by decide))))
    contradiction
  next ho =>
    replace ho := bitVec_of_toNat ho
    have hf : f.fn.extractLsb' 0 3 = 0#3 := Fields.fn_assigned (C := fun n => n.extractLsb' 0 3 = 0#3) h ho (by decide)
    exact fields_da (x := fun _ => 0) h ho rfl (rowOf_all _ (by decide)) hd (fun _ _ _ => fieldsMk_congr (fn_fmt hf) rfl)
      (Fields.b_unused h ho rfl (rowOf_all _ (by decide))) (fun _ _ => (Fields.x_zero h ho rfl (rowOf_all _ (by decide))))
  contradiction

/-- The vector rows: an instruction read from fields that pass their checks has those fields. -/
theorem decVec_fields {f : Fields} {i : Instr} (h : f.ok none = true) (hd : decVec f = some i) : i.fields = some f := by
  rw [decVec] at hd
  split at hd
  next ho =>
    replace ho := bitVec_of_toNat ho
    exact fields_dab_then h ho (rowOf_all _ (by decide)) hd (fun _ _ _ _ _ e => fieldsMk_congr (VArith.code_of_ofCode e) (Fields.x_zero
      h ho rfl (rowOf_all _ (by decide))).symm)
  next ho =>
    replace ho := bitVec_of_toNat ho
    exact fields_dab_then h ho (rowOf_all _ (by decide)) hd (fun _ _ _ _ _ e => fieldsMk_congr (VArith.code_of_ofCode e) (Fields.x_zero
      h ho rfl (rowOf_all _ (by decide))).symm)
  next ho =>
    replace ho := bitVec_of_toNat ho
    exact fields_dab_then h ho (rowOf_all _ (by decide)) hd (fun _ _ _ _ _ e => fieldsMk_congr (VArith.code_of_ofCode e) (Fields.x_zero
      h ho rfl (rowOf_all _ (by decide))).symm)
  next ho =>
    replace ho := bitVec_of_toNat ho
    exact fields_cdab_then h ho (rowOf_all _ (by decide)) hd (fun _ _ _ _ _ _ e => fieldsMk_congr (VArith.code_of_ofCode e) rfl)
  next ho =>
    replace ho := bitVec_of_toNat ho
    exact fields_dab_then h ho (rowOf_all _ (by decide)) hd (fun _ _ _ _ _ e => fieldsMk_congr (VMnxOp.code_of_ofCode e) (Fields.x_zero
      h ho rfl (rowOf_all _ (by decide))).symm)
  next ho =>
    replace ho := bitVec_of_toNat ho
    exact fields_dab_then h ho (rowOf_all _ (by decide)) hd (fun _ _ _ _ _ e => fieldsMk_congr (VCmpOp.code_of_ofCode e) (Fields.x_zero
      h ho rfl (rowOf_all _ (by decide))).symm)
  next ho =>
    split at hd
    iterate 2 next hf =>
      exact fields_dab_zero h ho hf (by decide) hd fun _ _ _ _ => rfl
    contradiction
  next ho =>
    split at hd
    iterate 4 next hf =>
      exact fields_da_zero h ho hf (by decide) hd fun _ _ _ => rfl
    contradiction
  next ho =>
    replace ho := bitVec_of_toNat ho
    have hf : f.fn.extractLsb' 0 4 = 0#4 := Fields.fn_assigned (C := fun n => n.extractLsb' 0 4 = 0#4) h ho (by decide)
    exact fields_da (x := fun _ => 0) h ho rfl (rowOf_all _ (by decide)) hd (fun _ _ _ => fieldsMk_congr (fn_vty hf) rfl)
      (Fields.b_unused h ho rfl (rowOf_all _ (by decide))) (fun _ _ => (Fields.x_zero h ho rfl (rowOf_all _ (by decide))))
  next ho =>
    split at hd
    next hf =>
      exact fields_dab_zero h ho hf (by decide) hd fun _ _ _ _ => rfl
    contradiction
  next ho =>
    split at hd
    iterate 8 next hf =>
      exact fields_da_zero h ho hf (by decide) hd fun _ _ _ => rfl
    contradiction
  next ho =>
    split at hd
    iterate 9 next hf =>
      exact fields_da_zero h ho hf (by decide) hd fun _ _ _ => rfl
    contradiction
  next ho =>
    split at hd
    iterate 7 next hf =>
      exact fields_dab_zero h ho hf (by decide) hd fun _ _ _ _ => rfl
    contradiction
  next ho =>
    split at hd
    iterate 2 next hf =>
      exact fields_dab_zero h ho hf (by decide) hd fun _ _ _ _ => rfl
    iterate 3 next hf =>
      replace ho := bitVec_of_toNat ho
      replace hf := bitVec_of_toNat hf
      exact fields_da (x := fun _ => f.x) h ho hf (by decide) hd (fun _ _ _ => fieldsMk_congr rfl (Fields.x_half h ho hf (by decide)))
        (Fields.b_unused h ho hf (by decide)) (fun _ _ => rfl)
    iterate 2 next hf =>
      exact fields_dab_zero h ho hf (by decide) hd fun _ _ _ _ => rfl
    contradiction
  next ho =>
    split at hd
    next hf =>
      exact fields_da_zero h ho hf (by decide) hd fun _ _ _ => rfl
    iterate 2 next hf =>
      exact fields_dab_imm h ho hf (by decide) hd fun _ _ _ _ => rfl
    contradiction
  next ho =>
    replace ho := bitVec_of_toNat ho
    split at hd
    next hf =>
      exact fields_dab h ho rfl (by revert hf; generalize f.fn = fn; revert fn; decide) hd (fun _ _ _ _ => fieldsMk_congr (fn_vty hf)
        rfl) (Fields.x_imm2 h ho rfl (by revert hf; generalize f.fn = fn; revert fn; decide))
    split at hd
    next hf =>
      exact fields_dab (x := fun _ _ => f.x) h ho rfl (by revert hf; generalize f.fn = fn; revert fn; decide) hd (fun _ _ _ _ =>
        fieldsMk_congr (fn_vty hf) (Fields.x_lane h ho rfl (by revert hf; generalize f.fn = fn; revert fn; decide))) (fun _ _ _ _ =>
        rfl)
    split at hd
    next hf =>
      exact fields_d h ho hf (by decide) hd (fun _ _ => fieldsMk_congr rfl (Fields.x_zero h ho hf (by decide)).symm) (Fields.a_unused h
        ho hf (by decide)) (Fields.b_unused h ho hf (by decide))
    split at hd
    next hf =>
      exact fields_dab h ho hf (by decide) hd (fun _ _ _ _ => rfl) (Fields.x_imm2 h ho hf (by decide))
    contradiction
  next ho =>
    split at hd
    iterate 6 next hf =>
      exact fields_dab_zero h ho hf (by decide) hd fun _ _ _ _ => rfl
    contradiction
  next ho =>
    replace ho := bitVec_of_toNat ho
    exact fields_dab_then h ho (rowOf_all _ (by decide)) hd (fun _ _ _ _ _ e => fieldsMk_congr (VArith.code_of_ofCode e) (Fields.x_zero
      h ho rfl (rowOf_all _ (by decide))).symm)
  contradiction

/-- The memory rows: an instruction read from fields that pass their checks has those fields. -/
theorem decMem_fields {f : Fields} {i : Instr} (h : f.ok none = true) (hd : decMem f = some i) : i.fields = some f := by
  rw [decMem] at hd
  split at hd
  next ho =>
    replace ho := bitVec_of_toNat ho
    split at hd
    next hf =>
      exact fields_dab (x := fun _ _ => f.x) h ho rfl (rowOf_all _ (by decide)) hd (fun _ _ _ _ => fieldsMk_congr (fn_sized hf)
        (Fields.x_mx h ho rfl (rowOf_all _ (by decide)))) (fun _ _ _ _ => rfl)
    split at hd
    next hf =>
      exact fields_dab (x := fun _ _ => f.x) h ho rfl (rowOf_all _ (by decide)) hd (fun _ _ _ _ => fieldsMk_congr (fn_sized hf)
        (Fields.x_mx h ho rfl (rowOf_all _ (by decide)))) (fun _ _ _ _ => rfl)
    split at hd
    next hf =>
      exact fields_dab (x := fun _ _ => f.x) h ho rfl (rowOf_all _ (by decide)) hd (fun _ _ _ _ => fieldsMk_congr (fn_sized hf)
        (Fields.x_mx h ho rfl (rowOf_all _ (by decide)))) (fun _ _ _ _ => rfl)
    split at hd
    next hf =>
      have hs := Fields.fn_assigned (C := fun n => n.extractLsb' 3 2 = 3#2 → n.getLsbD 2 = false) h ho (by decide) hf
      have hn := fn_sized hf
      rw [hs] at hn
      exact fields_dab (x := fun _ _ => f.x) h ho rfl (rowOf_all _ (by decide)) hd (fun _ _ _ _ => fieldsMk_congr hn (Fields.x_mx h ho
        rfl (rowOf_all _ (by decide)))) (fun _ _ _ _ => rfl)
    contradiction
  next ho =>
    replace ho := bitVec_of_toNat ho
    split at hd
    next hf =>
      have hs := Fields.fn_assigned (C := fun n => n.getLsbD 2 = false) h ho (by decide)
      have hn := fn_sized hf
      rw [hs] at hn
      exact fields_cab h ho rfl hd (fun _ _ _ _ => fieldsMk_congr hn (Fields.x_mx h ho rfl (rowOf_all _ (by decide))))
    split at hd
    next hf =>
      have hs := Fields.fn_assigned (C := fun n => n.getLsbD 2 = false) h ho (by decide)
      have hn := fn_sized hf
      rw [hs] at hn
      exact fields_cab h ho rfl hd (fun _ _ _ _ => fieldsMk_congr hn (Fields.x_mx h ho rfl (rowOf_all _ (by decide))))
    split at hd
    next hf =>
      have hs := Fields.fn_assigned (C := fun n => n.getLsbD 2 = false) h ho (by decide)
      have hn := fn_sized hf
      rw [hs] at hn
      exact fields_cab h ho rfl hd (fun _ _ _ _ => fieldsMk_congr hn (Fields.x_mx h ho rfl (rowOf_all _ (by decide))))
    split at hd
    next hf =>
      have hs := Fields.fn_assigned (C := fun n => n.getLsbD 2 = false) h ho (by decide)
      have hn := fn_sized hf
      rw [hs] at hn
      exact fields_cab h ho rfl hd (fun _ _ _ _ => fieldsMk_congr hn (Fields.x_mx h ho rfl (rowOf_all _ (by decide))))
    contradiction
  next ho =>
    replace ho := bitVec_of_toNat ho
    split at hd
    next hf =>
      exact fields_dab (x := fun _ _ => f.x) h ho rfl (by revert hf; generalize f.fn = fn; revert fn; decide) hd (fun _ _ _ _ =>
        fieldsMk_congr (fn_fls hf) (Fields.x_mx h ho rfl (by revert hf; generalize f.fn = fn; revert fn; decide))) (fun _ _ _ _ => rfl)
    split at hd
    next hf =>
      exact fields_dab (x := fun _ _ => f.x) h ho rfl (by revert hf; generalize f.fn = fn; revert fn; decide) hd (fun _ _ _ _ =>
        fieldsMk_congr (fn_fls hf) (Fields.x_mx h ho rfl (by revert hf; generalize f.fn = fn; revert fn; decide))) (fun _ _ _ _ => rfl)
    split at hd
    next hf =>
      exact fields_cab h ho rfl hd (fun _ _ _ _ => fieldsMk_congr (fn_fls hf) (Fields.x_mx h ho rfl
        (by revert hf; generalize f.fn = fn; revert fn; decide)))
    split at hd
    next hf =>
      exact fields_cab h ho rfl hd (fun _ _ _ _ => fieldsMk_congr (fn_fls hf) (Fields.x_mx h ho rfl
        (by revert hf; generalize f.fn = fn; revert fn; decide)))
    contradiction
  next ho =>
    replace ho := bitVec_of_toNat ho
    have h4 := Fields.fn_assigned (C := fun n => n.extractLsb' 4 1 = 0) h ho (by decide)
    split at hd
    next hf =>
      exact fields_dab (x := fun _ _ => f.x) h ho rfl (by revert hf; generalize f.fn = fn; revert fn; decide) hd (fun _ _ _ _ =>
        fieldsMk_congr (fn_vls hf h4) (Fields.x_mx h ho rfl (by revert hf; generalize f.fn = fn; revert fn; decide))) (fun _ _ _ _ =>
        rfl)
    split at hd
    next hf =>
      exact fields_dab (x := fun _ _ => f.x) h ho rfl (by revert hf; generalize f.fn = fn; revert fn; decide) hd (fun _ _ _ _ =>
        fieldsMk_congr (fn_vls hf h4) (Fields.x_mx h ho rfl (by revert hf; generalize f.fn = fn; revert fn; decide))) (fun _ _ _ _ =>
        rfl)
    split at hd
    next hf =>
      exact fields_dab (x := fun _ _ => f.x) h ho rfl (by revert hf; generalize f.fn = fn; revert fn; decide) hd (fun _ _ _ _ =>
        fieldsMk_congr (fn_vls hf h4) (Fields.x_mx h ho rfl (by revert hf; generalize f.fn = fn; revert fn; decide))) (fun _ _ _ _ =>
        rfl)
    split at hd
    next hf =>
      exact fields_cab h ho rfl hd (fun _ _ _ _ => fieldsMk_congr (fn_vls hf h4) (Fields.x_mx h ho rfl
        (by revert hf; generalize f.fn = fn; revert fn; decide)))
    split at hd
    next hf =>
      exact fields_cab h ho rfl hd (fun _ _ _ _ => fieldsMk_congr (fn_vls hf h4) (Fields.x_mx h ho rfl
        (by revert hf; generalize f.fn = fn; revert fn; decide)))
    split at hd
    next hf =>
      exact fields_cab h ho rfl hd (fun _ _ _ _ => fieldsMk_congr (fn_vls hf h4) (Fields.x_mx h ho rfl
        (by revert hf; generalize f.fn = fn; revert fn; decide)))
    split at hd
    next hf =>
      exact fields_cab h ho rfl hd (fun _ _ _ _ => fieldsMk_congr (fn_vls hf h4) (Fields.x_mx h ho rfl
        (by revert hf; generalize f.fn = fn; revert fn; decide)))
    contradiction
  next ho =>
    replace ho := bitVec_of_toNat ho
    split at hd
    iterate 9 next hf =>
      replace hf := bitVec_of_toNat hf
      exact fields_dab (x := fun _ _ => f.x) h ho hf (by decide) hd (fun _ _ _ _ => fieldsMk_congr rfl (Fields.x_amo h ho hf
        (by decide))) (fun _ _ _ _ => rfl)
    iterate 3 next hf =>
      replace hf := bitVec_of_toNat hf
      exact fields_dab (x := fun _ _ => f.x) h ho hf (by decide) hd (fun _ _ _ _ => fieldsMk_congr rfl (Fields.x_amoF h ho hf
        (by decide))) (fun _ _ _ _ => rfl)
    contradiction
  next ho =>
    replace ho := bitVec_of_toNat ho
    split at hd
    next hf =>
      replace hf := bitVec_of_toNat hf
      exact fields_dab (x := fun _ _ => f.x) h ho hf (by decide) hd (fun _ _ _ _ => fieldsMk_congr rfl (Fields.x_mx h ho hf
        (by decide))) (fun _ _ _ _ => rfl)
    next hf =>
      replace hf := bitVec_of_toNat hf
      exact fields_da (x := fun _ => f.x) h ho hf (by decide) hd (fun _ _ _ => fieldsMk_congr rfl (Fields.x_mx h ho hf (by decide)))
        (Fields.b_pair h ho hf (by decide)) (fun _ _ => rfl)
    contradiction
  next ho =>
    split at hd
    iterate 3 next hf =>
      exact fields_dab_imm h ho hf (by decide) hd fun _ _ _ _ => rfl
    next hf =>
      replace ho := bitVec_of_toNat ho
      replace hf := bitVec_of_toNat hf
      exact fields_da (x := fun _ => f.x) h ho hf (by decide) hd (fun _ _ _ => fieldsMk_congr rfl (Fields.x_sel h ho hf (by decide)))
        (Fields.b_unused h ho hf (by decide)) (fun _ _ => rfl)
    next hf =>
      replace ho := bitVec_of_toNat ho
      replace hf := bitVec_of_toNat hf
      exact fields_dab (x := fun _ _ => f.x) h ho hf (by decide) hd (fun _ _ _ _ => fieldsMk_congr rfl (Fields.x_mx h ho hf
        (by decide))) (fun _ _ _ _ => rfl)
    next hf =>
      replace ho := bitVec_of_toNat ho
      replace hf := bitVec_of_toNat hf
      exact fields_cab h ho hf hd (fun _ _ _ _ => fieldsMk_congr rfl (Fields.x_mx h ho hf (by decide)))
    contradiction
  next ho =>
    split at hd
    iterate 2 next hf =>
      exact fields_dab_imm h ho hf (by decide) hd fun _ _ _ _ => rfl
    contradiction
  contradiction

/-- The engine rows: an instruction read from fields that pass their checks has those fields. -/
theorem decEng_fields {f : Fields} {i : Instr} (h : f.ok none = true) (hd : decEng f = some i) : i.fields = some f := by
  rw [decEng] at hd
  split at hd
  next ho =>
    replace ho := bitVec_of_toNat ho
    split at hd
    next hf =>
      replace hf := bitVec_of_toNat hf
      exact fields_cab h ho hf hd (fun _ _ _ _ => fieldsMk_congr rfl (Fields.x_mx h ho hf (by decide)))
    contradiction
  next ho =>
    replace ho := bitVec_of_toNat ho
    split at hd
    next hf =>
      replace hf := bitVec_of_toNat hf
      exact fields_ca h ho hf hd (fun _ _ _ => fieldsMk_congr rfl (Fields.x_mx h ho hf (by decide))) (Fields.b_unused h ho hf
        (by decide))
    contradiction
  next ho =>
    replace ho := bitVec_of_toNat ho
    split at hd
    next hf =>
      replace hf := bitVec_of_toNat hf
      exact fields_cab h ho hf hd (fun _ _ _ _ => fieldsMk_congr rfl (Fields.x_mx h ho hf (by decide)))
    contradiction
  next ho =>
    replace ho := bitVec_of_toNat ho
    split at hd
    iterate 5 next hf =>
      replace hf := bitVec_of_toNat hf
      exact fields_ca h ho hf hd (fun _ _ _ => fieldsMk_congr rfl (Fields.x_mx h ho hf (by decide))) (Fields.b_unused h ho hf
        (by decide))
    contradiction
  next ho =>
    replace ho := bitVec_of_toNat ho
    split at hd
    next hf =>
      replace hf := bitVec_of_toNat hf
      exact fields_ab (x := fun _ _ => f.x) h ho hf hd (fun _ _ _ => fieldsMk_congr rfl (Fields.x_mx h ho hf (by decide)))
        (Fields.d_unused h ho hf (by decide)) (fun _ _ _ _ => rfl)
    next hf =>
      replace hf := bitVec_of_toNat hf
      exact fields_a (x := fun _ => f.x) h ho hf hd (fun _ _ => fieldsMk_congr rfl (Fields.x_mx h ho hf (by decide))) (Fields.d_unused h
        ho hf (by decide)) (Fields.b_unused h ho hf (by decide)) (fun _ _ => rfl)
    contradiction
  contradiction

/-- The field and rill rows: an instruction read from fields that pass their checks has those fields. -/
theorem decUnit_fields {f : Fields} {i : Instr} (h : f.ok none = true) (hd : decUnit f = some i) : i.fields = some f := by
  rw [decUnit] at hd
  split at hd
  next ho =>
    split at hd
    next hf =>
      replace ho := bitVec_of_toNat ho
      replace hf := bitVec_of_toNat hf
      exact fields_dab (x := fun _ _ => f.x) h ho hf (by decide) hd (fun _ _ _ _ => fieldsMk_congr rfl (Fields.x_mx h ho hf
        (by decide))) (fun _ _ _ _ => rfl)
    next hf =>
      replace ho := bitVec_of_toNat ho
      replace hf := bitVec_of_toNat hf
      exact fields_a (x := fun _ => f.x) h ho hf hd (fun _ _ => fieldsMk_congr rfl (Fields.x_mx h ho hf (by decide))) (Fields.d_unused h
        ho hf (by decide)) (Fields.b_unused h ho hf (by decide)) (fun _ _ => rfl)
    next hf =>
      exact fields_da_zero h ho hf (by decide) hd fun _ _ _ => rfl
    contradiction
  next ho =>
    replace ho := bitVec_of_toNat ho
    split at hd
    next hf =>
      replace hf := bitVec_of_toNat hf
      exact fields_ab (x := fun _ _ => f.x) h ho hf hd (fun _ _ _ => fieldsMk_congr rfl (Fields.x_feed h ho hf (by decide)))
        (Fields.d_unused h ho hf (by decide)) (fun _ _ _ _ => rfl)
    contradiction
  next ho =>
    replace ho := bitVec_of_toNat ho
    split at hd
    next hf =>
      replace hf := bitVec_of_toNat hf
      exact fields_ab (x := fun _ _ => f.x) h ho hf hd (fun _ _ _ => fieldsMk_congr rfl (Fields.x_mx h ho hf (by decide)))
        (Fields.d_unused h ho hf (by decide)) (fun _ _ _ _ => rfl)
    contradiction
  next ho =>
    split at hd
    iterate 3 next hf =>
      exact fields_da_zero h ho hf (by decide) hd fun _ _ _ => rfl
    contradiction
  next ho =>
    split at hd
    next hf =>
      exact fields_a_imm h ho hf (by decide) hd fun _ _ => rfl
    next hf =>
      exact fields_da_imm h ho hf (by decide) hd fun _ _ _ => rfl
    contradiction
  next ho =>
    split at hd
    iterate 3 next hf =>
      exact fields_ab_imm h ho hf (by decide) hd fun _ _ _ => rfl
    next hf =>
      exact fields_a_imm h ho hf (by decide) hd fun _ _ => rfl
    next hf =>
      exact fields_ab_imm h ho hf (by decide) hd fun _ _ _ => rfl
    contradiction
  next ho =>
    split at hd
    iterate 6 next hf =>
      exact fields_da_imm h ho hf (by decide) hd fun _ _ _ => rfl
    contradiction
  next ho =>
    split at hd
    iterate 3 next hf =>
      exact fields_ab_imm h ho hf (by decide) hd fun _ _ _ => rfl
    contradiction
  next ho =>
    split at hd
    next hf =>
      exact fields_ab_imm h ho hf (by decide) hd fun _ _ _ => rfl
    next hf =>
      exact fields_da_imm h ho hf (by decide) hd fun _ _ _ => rfl
    contradiction
  contradiction

/-- The semaphore, barrier and task rows: an instruction read from fields that pass their checks has those fields. -/
theorem decTask_fields {f : Fields} {i : Instr} (h : f.ok none = true) (hd : decTask f = some i) : i.fields = some f := by
  rw [decTask] at hd
  split at hd
  next ho =>
    split at hd
    iterate 2 next hf =>
      exact fields_ab_imm h ho hf (by decide) hd fun _ _ _ => rfl
    iterate 2 next hf =>
      exact fields_dab_imm h ho hf (by decide) hd fun _ _ _ _ => rfl
    next hf =>
      exact fields_ab_imm h ho hf (by decide) hd fun _ _ _ => rfl
    next hf =>
      exact fields_da_imm h ho hf (by decide) hd fun _ _ _ => rfl
    contradiction
  next ho =>
    split at hd
    next hf =>
      exact fields_da_imm h ho hf (by decide) hd fun _ _ _ => rfl
    contradiction
  next ho =>
    split at hd
    next hf =>
      exact fields_dab_imm h ho hf (by decide) hd fun _ _ _ _ => rfl
    contradiction
  next ho =>
    split at hd
    next hf =>
      exact fields_dab_imm h ho hf (by decide) hd fun _ _ _ _ => rfl
    iterate 2 next hf =>
      exact fields_ab_imm h ho hf (by decide) hd fun _ _ _ => rfl
    next hf =>
      exact fields_da_imm h ho hf (by decide) hd fun _ _ _ => rfl
    contradiction
  contradiction

/-- The system rows: an instruction read from fields that pass their checks has those fields. -/
theorem decSys_fields {f : Fields} {i : Instr} (h : f.ok none = true) (hd : decSys f = some i) : i.fields = some f := by
  rw [decSys] at hd
  split at hd
  next ho =>
    replace ho := bitVec_of_toNat ho
    split at hd
    iterate 2 next hf =>
      replace hf := bitVec_of_toNat hf
      exact fields_ab (x := fun _ _ => f.x) h ho hf hd (fun _ _ _ => fieldsMk_congr rfl (Fields.x_mx h ho hf (by decide)))
        (Fields.d_unused h ho hf (by decide)) (fun _ _ _ _ => rfl)
    contradiction
  next ho =>
    split at hd
    iterate 2 next hf =>
      exact fields_a_imm h ho hf (by decide) hd fun _ _ => rfl
    next hf =>
      exact fields_ab_imm h ho hf (by decide) hd fun _ _ _ => rfl
    contradiction
  next ho =>
    replace ho := bitVec_of_toNat ho
    split at hd
    iterate 4 next hf =>
      replace hf := bitVec_of_toNat hf
      exact fields_ab (x := fun _ _ => f.x) h ho hf hd (fun _ _ _ => fieldsMk_congr rfl (Fields.x_mx h ho hf (by decide)))
        (Fields.d_unused h ho hf (by decide)) (fun _ _ _ _ => rfl)
    contradiction
  next ho =>
    split at hd
    next hf =>
      exact fields_a_imm h ho hf (by decide) hd fun _ _ => rfl
    contradiction
  contradiction

/-! ## Decoding and encoding agree -/

/-- An instruction read from fields that pass their checks has those fields. -/
theorem Instr.fields_ofFields {f : Fields} {i : Instr} (h : f.ok none = true) (hd : Instr.ofFields f = some i) : i.fields = some f := by
  rw [Instr.ofFields] at hd
  split_ifs at hd
  · exact decInt_fields h hd
  · exact decCtl_fields h hd
  · exact decFp_fields h hd
  · exact decVec_fields h hd
  · exact decMem_fields h hd
  · exact decEng_fields h hd
  · exact decUnit_fields h hd
  · exact decTask_fields h hd
  · exact decSys_fields h hd

/-- A word decodes to the instruction whose fields it has, where they pass their checks. -/
theorem decode_eq_some_iff {w : BitVec 64} {i : Instr} :
    decode w = some i ↔ (Fields.ofWord w).ok none = true ∧ i.fields = some (Fields.ofWord w) := by
  rw [decode]
  by_cases h : (Fields.ofWord w).ok none = true
  · rw [if_pos h]
    exact ⟨fun hd => ⟨h, Instr.fields_ofFields h hd⟩, fun hf => Instr.ofFields_fields i _ hf.2 h⟩
  · simp [h]

/-- A well-formed instruction has fields, which pass their checks. -/
theorem Instr.wf_iff {i : Instr} : i.wf = true ↔ ∃ f, i.fields = some f ∧ f.ok none = true := by
  unfold Instr.wf
  cases i.fields <;> simp

theorem encode_of_fields {i : Instr} {f : Fields} (h : i.fields = some f) : encode i = f.pack := by
  simp [encode, h]

/-- Settles O42: the word of an instruction is made of its fields, and the decoder reads from them that instruction. -/
theorem decodeEncode : Obligations.DecodeEncode := by
  unfold Obligations.DecodeEncode
  intro i hi
  obtain ⟨f, hf, hok⟩ := Instr.wf_iff.1 hi
  rw [encode_of_fields hf, decode_eq_some_iff, Fields.ofWord_pack]
  exact ⟨hok, hf⟩

/-- Settles O43: what the decoder reads has the fields of the word, and the word is made of them. -/
theorem encodeDecode : Obligations.EncodeDecode := by
  unfold Obligations.EncodeDecode
  intro w i hd
  obtain ⟨hok, hf⟩ := decode_eq_some_iff.1 hd
  exact ⟨(encode_of_fields hf).trans (Fields.pack_ofWord w), Instr.wf_iff.2 ⟨_, hf, hok⟩⟩

/-- Settles O41: each word is evaluated; the all-zero word fails its checks. -/
theorem wordsDecode : Obligations.WordsDecode := by
  unfold Obligations.WordsDecode
  simp only [decode_eq_some_iff]
  refine ⟨by decide, by decide, by decide, by decide, ?_⟩
  rw [decode, if_neg (by decide)]

end Sys2Proof
end

