-- ==== Sys2Proof/Proofs/Slots.lean ====
section
/-! PROOFS. What executing a slot and taking a step can do (R61 to R70): every instruction that has a word goes through `runSlot`, and every event has a
next state. -/

namespace Sys2Proof.Machine

open Sys2Proof

/-! ## The instructions of slots -/

/-- An instruction is one of a slot: it executes there, under the predicate of its word. -/
def Slotted (i : Instr) (s : State) : Prop := ∃ p g, (∀ f, i.fields = some f → f.pred = some p) ∧ exec i s = runSlot p s g

theorem slotted {i : Instr} {s : State} {p : Pred} {g : Cx → Rd State} {op : BitVec 7} {fn : BitVec 5} {d a b : BitVec 8} {x : BitVec 19}
    (he : exec i s = runSlot p s g) (hf : i.fields = some (fieldsMk op fn p d a b x)) : Slotted i s :=
  ⟨p, g, fun f h => by rw [← Option.some.inj (hf.symm.trans h), Fields.pred_fieldsMk], he⟩

/-- Every instruction that has a word is one of a slot. -/
theorem slotted_of_fields (s : State) {i : Instr} (h : i.fields.isSome = true) : Slotted i s := by
  cases i with
  | add | addw | adds | addu | sub | subw | subs | subu | mul | mulw | mulhs | mulhu | divs | divu | rems | remu | andI | orI | xorI | andn | orn
    | xnor | shl | shr | sra | ror | mins | minu | maxs | maxu | clz | ctz | popc | brev | bswap | movx | extu | exts | ins | cmpEq | cmpNe |
    cmpLts | cmpLes | cmpLtu | cmpLeu | sel | pand | por | pxor | pnot | tstnz | mov | movgf | movfg | brx | ret |     park | wrs | tretAt | fadd
    | fsub | fmul | ffma | fdiv | fsqrt | fmin | fmax | fminm | fmaxm | fcmpEq | fcmpLt | fcmpLe | fcmpUn | fcmpEqs | fcvt | fcviFs | fcviFu |
    fcviSf | fcviUf | fabs | fneg | fcps | fsigr | fsigw | fsiglt | frcp | frsq | fex2 | flg2 | fcls | vadd | vsub | vmul | vfma | vselSet |
    vselClr | vredSum | vredMax | vredMin | vredAmax | vperm | vext | vshr | vand | vor | vxor | vshl | vshrl | vsra | vactRelu | vactGelt |
    vactSilu | vactExp | vactTanh | vactSigm | vactRcp | vactRsq | vcvtBf16F32 | vcvtF32Bf16 | vcvtF16F32 | vcvtF32F16 | vcvtI32F32 | vcvtF32I32
    | vcvtE5m2F32 | vcvtF32E5m2 | vcvtF32E4m3 | vqntE4m3Sat | vqntE4m3Nan | vqntInt8 | vqntInt4 | vqntMxfp4 | vqntMxint8 | vqntMxfp8 | vdqE4m3Sat
    | vdqE4m3Nan | vdqInt8 | vdqInt4 | vdqMxfp4 | vdqMxint8 | vdqMxfp8 | vsigRd | vsigMin | vsigLt | ld | ldWaitf | ldTake | ldPres | st | stFill
    | stSetf | stClre | flsLd | flsLdWaitf | flsSt | flsStFill | vlsLd | vlsLdWaitf | vlsLdTake | vlsSt | vlsStFill | vlsStSetf | vlsStClre |
    amoAdd | amoAnd | amoOr | amoXor | amoMins | amoMaxs | amoMinu | amoMaxu | amoXchg | amoFadd32 | amoFmax32 | amoFmin32 | cas32 | cas64 | ptr
    | padd | cder | cget | cld | cst | prbR | prbW | xcpy | xchn | xred | xcolAllredSum | xcolAllredMax | xcolAllgath | xcolRedscatSum |
    xcolBcast | xregReg | xregRel | cfgConf | cfgFrel | cfgFqry | feed | wld | drnPop | drnLast | drnPeek | accAclr | accAsta | admAset | admArd
    | chsInt | chsFp | chsVec | chsEos | chsMark | chrInt | chrFp | chrVec | chrEnd | chrStat | chrLat | chcBind | chcCred | chcSpst | semSsig |
    semSsigr | semSwait | semSwaitd | semSset | semSrd | bara | barw | taskSpawn | taskWake | taskSpri | taskTstat | ctxCsave | ctxCrest |
    otcInvo | otcInva | otcPin | tblwRoute | tblwName | tblwHeat | tblwAdmc | haltc =>
    exact slotted rfl rfl
  | movi | br | call | endt | yieldT | trap | rds | tret | vidx =>
    exact slotted (g := fun _ => .val _) rfl rfl
  | vscl p d t | vmnx p d t | vcmp p d t | vbc p d t | vins p d t =>
    cases t <;> exact slotted rfl rfl
  | _ => exact absurd h Bool.false_ne_true

/-! ## Every instruction and event has a next state -/

/-- An event has a next state. -/
theorem exec_event (s : State) {e : Instr} (h : e.fields = none) : ∃ t, exec e s = .next t := by
  cases e with
  | powerOn | waferTimeBroadcast | wstale | taskSelect | blockMap | blockCommit | gatePark | wdog | commitOpPerform | scTokenArrive |
    engineStart | copyChunk | xchnRecord | xredRow | collectiveChunk | flitReceive | portLinkDown | passRelease | feederRowRelease |
    cellFire | loaderWordWrite | accRowWrite | drainWriterRow | accParityError | admWindow | rillItemSend | rillItemArrive | converterTake |
    creditArrive | joinMerge | deadlockDetect | rillQuiesceTimeout | lqtailDoorbell | launchTake | launchPlace | launchComplete |
    completionPost | hostPreempt | hostRestore | hostMigrate | hostKill | hostCmdUnknown | oclaim | hgo | ownerLinkLost | featdrvWrite |
    psreqP0 | psreqP1 | psreqP2 | psreqP3 | psreqP4 | pageansResident | pageansDecline | thermalTrip | tripClear | securityAlarm | secaClear
    | attestNonceWrite | attestComplete | heatSample | stewardRebind | hostMemoryWrite | hostMemoryRead | mgmtTelemetryRead |
    coreWindowWrite | fieldWindowWrite | tileStateWrite | otrootWrite | aqueductRouteWrite | registerWrite | hostLinkDown | hostLinkUp |
    portLinkUp | plotFailure =>
    exact ⟨_, rfl⟩
  | _ => exact absurd h (Option.some_ne_none _)

/-- Settles O38: an instruction goes through `runSlot`, which leaves the state, nullifies the slot or has its effect; an event's meaning is a state. -/
theorem nothingStops : Obligations.NothingStops := by
  intro i s
  cases h : i.fields with
  | none => exact exec_event s h
  | some f =>
    obtain ⟨p, g, -, he⟩ := slotted_of_fields s (i := i) (by rw [h]; rfl)
    rcases runSlot_cases p s g with hr | ⟨cx, -, hr⟩ | ⟨cx, t, -, -, hr⟩
    · exact ⟨_, he.trans hr⟩
    · exact ⟨_, he.trans hr⟩
    · exact ⟨_, he.trans hr⟩

/-! ## A step -/

theorem step_of_head {s : State} {rest : List Directive} {d : Directive}
    (hr : s.agenda = [] ∧ rest = s.round.drop 1 ∨ rest = s.agenda.drop 1 ∧ s.agenda ≠ [])
    (hd : (if s.agenda = [] then s.round.head? else s.agenda.head?) = some d) : step s = act d { s with agenda := rest } := by
  unfold step
  rcases hr with ⟨ha, rfl⟩ | ⟨rfl, ha⟩
  · rw [if_pos ha, List.head?_eq_some_iff] at hd
    obtain ⟨ds, hds⟩ := hd
    rw [ha, hds]
    rfl
  · rw [if_neg ha, List.head?_eq_some_iff] at hd
    obtain ⟨ds, hds⟩ := hd
    rw [hds]
    rfl

/-- Settles O40: by the head of the agenda, or of the round that follows an empty one. -/
theorem stepRunsDecoded : Obligations.StepRunsDecoded := by
  intro s rest hr head
  refine ⟨fun p h k pick w i hd hw hi => ?_, fun e hd he => ?_, fun p h k pick hd hw => ?_, fun hd => ?_⟩
  · have hw' : State.slotWord { s with agenda := rest } p h k = some w := hw
    rw [step_of_head hr hd, act]
    simp only [hw', hi]
  · rw [step_of_head hr hd, act, he]
    rfl
  · have hw' : State.slotWord { s with agenda := rest } p h k = none := hw
    rw [step_of_head hr hd, act]
    simp only [hw']
  · rcases hr with ⟨ha, rfl⟩ | ⟨rfl, ha⟩
    · have hn : s.round = [] := by simpa [head, ha] using hd
      rw [step, ha, hn]
    · simp [head, ha] at hd

/-! ## The end of a cycle, where the plots are listed out of order -/

/-- A task that waits for a word of the granule at 0. -/
def sleeper : Task := { st := .wait, wait := .presence [0] false }

/-- A block that DECODE aborts. -/
def doomedBlock : Block :=
  { bpc := 0, words := [], slots := [], mapped := 0, pri0 := 0, pmsel0 := 0, order := 0, abort := some { cause := .decode } }

/-- Task 0 of plot 3 stands in both halves, the second with that block; words of the granule at 0 are emptied for the first; and tasks of the plots 5 and
3, listed in this order, sleep on them. -/
def crossedHalves : State := { State.reset with
  plots := [(5, ({} : Plot).setTask 0 sleeper),
    (3, { ({} : Plot).setTask 1 sleeper with h0 := { task := some 0 }, h1 := { task := some 0, blk := some doomedBlock } })]
  takes := [{ plot := 3, half := false, slot := 0, scope := .wafer, home := 0, run := 640, words := 1, done := true }] }

theorem turn_takeAborts_crossed : ((crossedHalves.takeAborts 3).task 5 0).turn = 1 := by decide +kernel

theorem turn_takeException_crossed : ((crossedHalves.takeException 3 0 { cause := .decode } 0).task 5 0).turn = 0 := by decide +kernel

/-- Refutes O39, in its third part: `takeAborts` writes the task back also for a cause that is no SIG, and that lists plot 3 anew, before plot 5. The restore
of the emptied words then wakes the sleeper of plot 3 first, where the exception alone wakes that of plot 5 first. -/
theorem not_slotsWriteNothing : ¬ Obligations.SlotsWriteNothing := by
  rintro ⟨-, -, h⟩
  have e := h crossedHalves 3 true 0 doomedBlock { cause := .decode } rfl rfl (fun d hd => nomatch hd)
  have e' := congrArg (fun u => (State.task u 5 0).turn) e
  rw [if_neg (by decide)] at e'
  exact absurd (turn_takeAborts_crossed.symm.trans (e'.trans turn_takeException_crossed)) (by decide)

end Sys2Proof.Machine
end


-- ==== Sys2Proof/Proofs/Clashes.lean ====
section
/-! PROOFS. Slots that clash with an executed one, and nullified slots (R61, R63 to R65, R96, R177). -/

namespace Sys2Proof.Machine

open Sys2Proof

/-! ## What clashes -/

/-- A slot writes a register, by D or by a late result. -/
def SlotRec.writes (r : SlotRec) (d : Dst) : Prop := r.dst = d ∨ ∃ c, r.act = some c ∧ c.dst = d

theorem SlotRec.mem_dsts (r : SlotRec) (d : Dst) : d ∈ r.dsts ↔ d ≠ .none ∧ r.writes d := by
  unfold SlotRec.dsts SlotRec.writes
  cases r.act with
  | none =>
    simp only [List.append_nil, List.mem_filter, List.mem_singleton, bne_iff_ne, ne_eq]
    grind
  | some a =>
    simp only [List.cons_append, List.nil_append, List.mem_filter, List.mem_cons, List.not_mem_nil, bne_iff_ne, ne_eq]
    grind

theorem SlotRec.wrsNum_eq_some (r : SlotRec) (n : Nat) : r.wrsNum = some n ↔ ∃ v c, r.act = some c ∧ c.kind = .wrs n v := by
  unfold SlotRec.wrsNum
  cases ha : r.act with
  | none => simp
  | some a => cases hk : a.kind <;> simp [hk]

/-- Two records clash over a register, a system register, or as two branches (R64, R65, R96). -/
theorem SlotRec.clash_iff (r q : SlotRec) : r.clash q = true ↔
    (∃ d, d ≠ .none ∧ r.writes d ∧ q.writes d) ∨ (∃ n, r.wrsNum = some n ∧ q.wrsNum = some n) ∨ (r.br.isSome = true ∧ q.br.isSome = true) := by
  have hd : r.dsts.any (fun d => q.dsts.contains d) = true ↔ ∃ d, d ≠ .none ∧ r.writes d ∧ q.writes d := by
    simp only [List.any_eq_true, List.contains_iff_mem, SlotRec.mem_dsts]
    exact exists_congr (fun d => by tauto)
  have hw : (r.wrsNum.isSome && r.wrsNum == q.wrsNum) = true ↔ ∃ n, r.wrsNum = some n ∧ q.wrsNum = some n := by
    cases r.wrsNum with
    | none => simp
    | some n =>
      simp only [Option.isSome_some, Bool.true_and, beq_iff_eq, Option.some.injEq, exists_eq_left']
      exact eq_comm
  rw [SlotRec.clash, Bool.or_eq_true, Bool.or_eq_true, hd, hw, Bool.and_eq_true, or_assoc]

theorem Cx.not_free_iff (cx : Cx) (r : SlotRec) : ¬cx.free r ↔ ∃ q ∈ cx.blk.slots, q.st = .done ∧ r.clash q = true := by
  simp [Cx.free]

theorem Cx.not_free_of_writes {cx : Cx} {d : Dst} {r : SlotRec} (h : ¬cx.free { dst := d }) (hr : r.writes d) : ¬cx.free r := by
  rw [Cx.not_free_iff] at h ⊢
  obtain ⟨q, hq, hdone, hc⟩ := h
  refine ⟨q, hq, hdone, (SlotRec.clash_iff ..).2 (.inl ?_)⟩
  rcases (SlotRec.clash_iff ..).1 hc with ⟨d', hn, he | ⟨c, hc, -⟩, hqd⟩ | ⟨n, hn, -⟩ | ⟨hb, -⟩
  · obtain rfl : d = d' := he
    exact ⟨d, hn, hr, hqd⟩
  · cases hc
  · cases hn
  · cases hb

theorem Cx.not_free_of_branch {cx : Cx} {r : SlotRec} (h : ¬cx.free { br := some .endt }) (hr : r.br.isSome = true) : ¬cx.free r := by
  rw [Cx.not_free_iff] at h ⊢
  obtain ⟨q, hq, hdone, hc⟩ := h
  refine ⟨q, hq, hdone, (SlotRec.clash_iff ..).2 (.inr (.inr ⟨hr, ?_⟩))⟩
  rcases (SlotRec.clash_iff ..).1 hc with ⟨d', hn, he | ⟨c, hc, -⟩, -⟩ | ⟨n, hn, -⟩ | ⟨-, hb⟩
  · exact absurd he.symm hn
  · cases hc
  · cases hn
  · exact hb

/-! ## Slots that find DECODE -/

section

variable {s t : State} {cx : Cx} {p : Pred} {d : Dst} {i : Instr} {f : Cx → Rd State}

/-- A slot that would write a register which an executed one writes. -/
theorem decode_of_writes (hr : s.runs cx p) (hc : ¬cx.free { dst := d }) (hi : exec i s = runSlot p s f)
    (hf : ∃ r, f cx = .val (t.finish cx r) ∧ r.writes d) : exec i s = .next (t.abortSlot cx { cause := .decode }) := by
  obtain ⟨r, hf, hw⟩ := hf
  exact (ends_finish hr hi hf).2 (Cx.not_free_of_writes hc hw)

/-- A slot that would branch where one has branched. -/
theorem decode_of_branch (hr : s.runs cx p) (hc : ¬cx.free { br := some .endt }) (hi : exec i s = runSlot p s f)
    (hf : ∃ b, f cx = .val (s.branch cx b)) : exec i s = .next (s.abortSlot cx { cause := .decode }) := by
  obtain ⟨b, hf⟩ := hf
  exact (ends_finish hr hi hf).2 (Cx.not_free_of_branch hc rfl)

end

/-- CDER of a pointer that has D, within its view. -/
theorem cder_ok {r : Ptr} {y : BitVec 64} (hv : r.valid = true) (hl : r.low = 0) (hp : r.isPhys = false) (hb : r.base + r.len ≤ 2 ^ 40)
    (hd : r.rights.getLsbD 7 = true) (hlen : r.cur.toNat + y.toNat % 2 ^ 40 ≤ r.len) : ∃ q, cder r y = .ok q := by
  have hu : r.usable = true := by simpa [Ptr.usable, hv, hl, hp] using hb
  have hr : r.rights &&& rD ≠ 0 := by
    intro h
    have h7 := congrArg (fun z => BitVec.getLsbD z 7) h
    simp only [BitVec.getLsbD_and, hd, rD] at h7
    exact absurd h7 (by decide)
  have hn : ¬ r.len < r.cur.toNat + (y.extractLsb' 0 40).toNat := by
    rw [extract_toNat]
    omega
  unfold cder
  rw [if_neg (by simp [hu]), if_neg (by simpa [hp] using hr), if_neg hn]
  exact ⟨_, rfl⟩

theorem Rd.bind_of {α β : Type} {r : Rd α} {x : α} (h : r = .val x) (f : α → Rd β) : r.bind f = f x := by rw [h, Rd.bind_val]

/-- A record is not free where an executed one writes a register or system register that it would write, or has branched where it would (R64, R65, R96). -/
theorem not_free_iff_clashes (cx : Cx) (r : SlotRec) : ¬cx.free r ↔ ∃ q ∈ cx.blk.slots, q.st = .done ∧
    ((∃ d, d ≠ .none ∧ (r.dst = d ∨ ∃ c, r.act = some c ∧ c.dst = d) ∧ (q.dst = d ∨ ∃ c, q.act = some c ∧ c.dst = d)) ∨
      (∃ n v w c e, r.act = some c ∧ c.kind = .wrs n v ∧ q.act = some e ∧ e.kind = .wrs n w) ∨ (r.br.isSome = true ∧ q.br.isSome = true)) := by
  rw [Cx.not_free_iff]
  refine exists_congr (fun q => and_congr_right (fun _ => and_congr_right (fun _ => ?_)))
  rw [SlotRec.clash_iff]
  refine or_congr Iff.rfl (or_congr ?_ Iff.rfl)
  simp only [SlotRec.wrsNum_eq_some]
  constructor
  · rintro ⟨n, ⟨v, c, hc, hk⟩, w, e, he, hl⟩
    exact ⟨n, v, w, c, e, hc, hk, he, hl⟩
  · rintro ⟨n, v, w, c, e, hc, hk, he, hl⟩
    exact ⟨n, ⟨v, c, hc, hk⟩, w, e, he, hl⟩

/-- What every instruction of a slot does before its predicate holds (R61, R63). -/
theorem exec_unready {i : Instr} {f : Fields} {p : Pred} {s : State} (hi : i.fields = some f) (hp : f.pred = some p) :
    (s.cx? = none → exec i s = .next s) ∧ ∀ cx, s.cx? = some cx →
      (cx.predicate p = .wait → exec i s = .next s) ∧ (cx.predicate p = .val false ∨ cx.predicate p = .null → exec i s = .next (s.nullify cx)) := by
  obtain ⟨p', g, hp', he⟩ := slotted_of_fields s (i := i) (by rw [hi]; rfl)
  obtain rfl : p' = p := Option.some.inj ((hp' f hi).symm.trans hp)
  rw [he]
  refine ⟨fun hn => ?_, fun cx hcx => ⟨fun hw => ?_, fun hn => ?_⟩⟩
  · simp only [runSlot, hn]
  · simp only [runSlot, hcx, hw]
  · rcases hn with hn | hn <;> simp only [runSlot, hcx, hn, State.nullify]

/-- Settles O37: by what the executed records write; for each form, by the operands it reads before it ends; and by `runSlot`. -/
theorem nullifiedAndClashingSlots : Obligations.NullifiedAndClashingSlots := by
  refine ⟨not_free_iff_clashes, ?_, fun i f p s hi hp => exec_unready hi hp⟩
  intro s cx p d a b pa pb pc fa fb va vb vc q m za zb x y g0 g1 t0 t1 t2 f0 f1 v0 v1 v2 r k z0 z1 imm num pos len link fmt rnd mx l kc km wide pair n
    hr ha hb hpa hpb hpc hfa hfb hva hvb hvc hq hm hza hzb hg0 hg1 decode
  refine ⟨fun hc => ⟨?_, ?_, ?_, ?_, ?_, ?_, ?_⟩, fun hc => ?_, fun hc => ?_, fun hc => ?_⟩
  · simp only [List.forall_mem_cons, List.not_mem_nil, false_implies, implies_true, and_true]
    and_intros
    all_goals exact decode_of_writes hr hc rfl ⟨_, (Rd.bind_of ha _).trans (Rd.bind_of hb _), .inl rfl⟩
  · simp only [List.forall_mem_cons, List.not_mem_nil, false_implies, implies_true, and_true]
    and_intros
    any_goals exact decode_of_writes hr hc rfl ⟨_, Rd.bind_of ha _, .inl rfl⟩
    any_goals exact decode_of_writes hr hc rfl ⟨_, (Rd.bind_of ha _).trans (Rd.bind_of hb _), .inl rfl⟩
    any_goals exact decode_of_writes hr hc rfl ⟨_, Rd.bind_of hpa _, .inl rfl⟩
    any_goals exact decode_of_writes hr hc rfl ⟨_, (Rd.bind_of hpa _).trans (Rd.bind_of hpb _), .inl rfl⟩
    any_goals exact decode_of_writes hr hc rfl ⟨_, (Rd.bind_of hpc _).trans ((Rd.bind_of hza _).trans (Rd.bind_of hzb _)), .inl rfl⟩
    any_goals exact decode_of_writes hr hc rfl ⟨_, Rd.bind_of hza _, .inl rfl⟩
    any_goals exact decode_of_writes hr hc rfl ⟨_, Rd.bind_of hfa _, .inl rfl⟩
    all_goals exact decode_of_writes (f := fun _ => .val _) hr hc rfl ⟨_, rfl, .inl rfl⟩
  · simp only [List.forall_mem_cons, List.not_mem_nil, false_implies, implies_true, and_true]
    and_intros
    any_goals exact decode_of_writes hr hc rfl ⟨_, Rd.bind_of hq _, .inl rfl⟩
    any_goals exact decode_of_writes hr hc rfl ⟨_, Rd.bind_of ha _, .inl rfl⟩
    all_goals exact decode_of_writes hr hc rfl ⟨_, (Rd.bind_of hq _).trans (Rd.bind_of hb _), .inl rfl⟩
  · intro hv hl hp hbl hd hlen
    obtain ⟨w, hw⟩ := cder_ok hv hl hp hbl hd hlen
    exact decode_of_writes hr hc rfl ⟨_, (Rd.bind_of hq _).trans ((Rd.bind_of hb _).trans (by rw [hw]; rfl)), .inl rfl⟩
  · simp only [List.forall_mem_cons, List.not_mem_nil, false_implies, implies_true, and_true]
    and_intros
    any_goals exact decode_of_writes hr hc rfl ⟨_, (Rd.bind_of hq _).trans (Rd.bind_of ha _), .inr ⟨_, rfl, rfl⟩⟩
    any_goals exact decode_of_writes hr hc rfl ⟨_, (Rd.bind_of hq _).trans (Rd.bind_of hfa _), .inr ⟨_, rfl, rfl⟩⟩
    any_goals exact decode_of_writes hr hc rfl ⟨_, Rd.bind_of ha _, .inr ⟨_, rfl, rfl⟩⟩
    any_goals exact decode_of_writes hr hc rfl ⟨_, (Rd.bind_of ha _).trans (Rd.bind_of hb _), .inr ⟨_, rfl, rfl⟩⟩
    all_goals exact decode_of_writes hr hc rfl ⟨_, (Rd.bind_of hq _).trans (Rd.bind_of ((Rd.bind_of hg0 _).trans (Rd.bind_of hg1 _)) _), .inr ⟨_, rfl, rfl⟩⟩
  · simp only [List.forall_mem_cons, List.not_mem_nil, false_implies, implies_true, and_true]
    and_intros
    any_goals exact decode_of_writes hr hc rfl ⟨_, Rd.bind_of hfa _, .inl rfl⟩
    any_goals exact decode_of_writes hr hc rfl ⟨_, (Rd.bind_of hfa _).trans (Rd.bind_of ha _), .inl rfl⟩
    all_goals exact decode_of_writes hr hc rfl ⟨_, (Rd.bind_of hfa _).trans (Rd.bind_of hfb _), .inl rfl⟩
  · simp only [List.forall_mem_cons, List.not_mem_nil, false_implies, implies_true, and_true]
    and_intros
    · cases km <;> exact decode_of_writes hr hc rfl ⟨_, (Rd.bind_of hva _).trans (Rd.bind_of hvb _), .inl rfl⟩
    · cases kc <;> exact decode_of_writes hr hc rfl ⟨_, (Rd.bind_of hva _).trans (Rd.bind_of hvb _), .inl rfl⟩
    any_goals exact decode_of_writes hr hc rfl ⟨_, (Rd.bind_of hva _).trans (Rd.bind_of hvb _), .inl rfl⟩
    any_goals exact decode_of_writes hr hc rfl ⟨_, (Rd.bind_of hva _).trans (Rd.bind_of hm _), .inl rfl⟩
    any_goals exact decode_of_writes hr hc rfl ⟨_, Rd.bind_of hfa _, .inl rfl⟩
    any_goals exact decode_of_writes hr hc rfl ⟨_, Rd.bind_of ha _, .inl rfl⟩
    any_goals exact decode_of_writes hr hc rfl ⟨_, (Rd.bind_of hva _).trans (Rd.bind_of ha _), .inl rfl⟩
    any_goals exact decode_of_writes hr hc rfl ⟨_, (Rd.bind_of hva _).trans (Rd.bind_of hfa _), .inl rfl⟩
    any_goals exact decode_of_writes hr hc rfl ⟨_, Rd.bind_of hva _, .inl rfl⟩
    any_goals exact decode_of_writes hr hc rfl ⟨_, (Rd.bind_of hva _).trans ((Rd.bind_of hvb _).trans (Rd.bind_of hvc _)), .inl rfl⟩
    all_goals exact decode_of_writes (f := fun _ => .val _) hr hc rfl ⟨_, rfl, .inl rfl⟩
  · simp only [List.forall_mem_cons, List.not_mem_nil, false_implies, implies_true, and_true]
    and_intros
    any_goals exact decode_of_branch hr hc rfl ⟨_, Rd.bind_of ha _⟩
    all_goals exact decode_of_branch (f := fun _ => .val _) hr hc rfl ⟨_, rfl⟩
  · exact (ends_finish (f := fun c => .val (s.finish c { val := some (.int (c.blk.next.zeroExtend 64)), dst := .g link, br := some (.call link imm) }))
      hr rfl rfl).2 hc
  · exact (ends_finish hr rfl (Rd.bind_of ha _)).2 hc

end Sys2Proof.Machine
end


-- ==== Sys2Proof/Proofs/WindowEvents.lean ====
section
/-! PROOFS. The events of the execution window: selection, parking at a gate, the watchdog and the mapping of a block (R57 to R60, R66, R69, R218, R219,
R344). -/

namespace Sys2Proof.Machine

open Sys2Proof

/-! ## Selection -/

/-- The order in which tasks are selected (R344). -/
theorem Task.before_iff (a b : Task) (now : BitVec 64) : a.before b now = true ↔
    b.epri now < a.epri now ∨ a.epri now = b.epri now ∧ (b.levelWait now < a.levelWait now ∨ a.levelWait now = b.levelWait now ∧ a.turn < b.turn) := by
  unfold Task.before
  split
  · simp only [decide_eq_true_eq]
    omega
  · split
    · simp only [decide_eq_true_eq]
      omega
    · simp only [decide_eq_true_eq]
      omega

/-- The choice among some slots: what `selection` folds. -/
def Plot.choose (x : Plot) (wt now : BitVec 64) (best : Option Nat) (k : Nat) : Option Nat :=
  if x.selectable wt k then
    (match best with
    | none => some k
    | some j => if (x.task k).before (x.task j) now then some k else some j)
  else best

/-- A choice among slots: none of them can be selected, or the one chosen can, and none goes before it. -/
def Plot.Chosen (x : Plot) (wt now : BitVec 64) (ks : List Nat) (best : Option Nat) : Prop :=
  (best = none → ∀ k ∈ ks, x.selectable wt k = false) ∧
  ∀ k, best = some k → k ∈ ks ∧ x.selectable wt k = true ∧ ∀ j ∈ ks, x.selectable wt j = true → (x.task j).before (x.task k) now = false

theorem Plot.chosen_foldl (x : Plot) (wt now : BitVec 64) (ks : List Nat) : x.Chosen wt now ks (ks.foldl (x.choose wt now) none) := by
  induction ks using List.reverseRecOn with
  | nil => exact ⟨(fun _ k hk => nomatch hk), (fun k hk => nomatch hk)⟩
  | append_singleton ks k ih =>
    rw [List.foldl_append, List.foldl_cons, List.foldl_nil]
    generalize ks.foldl (x.choose wt now) none = best at ih
    obtain ⟨hnone, hsome⟩ := ih
    unfold Plot.choose
    by_cases hs : x.selectable wt k = true
    · rw [if_pos hs]
      cases best with
      | none =>
        refine ⟨(nomatch ·), fun i hi => ?_⟩
        obtain rfl := Option.some.inj hi
        refine ⟨by simp, hs, fun j hj hsj => ?_⟩
        rcases List.mem_append.1 hj with hj | hj
        · rw [hnone rfl j hj] at hsj
          cases hsj
        · rw [List.mem_singleton.1 hj, Bool.eq_false_iff]
          simp [Task.before_iff]
      | some b =>
        obtain ⟨hb, hsb, hmax⟩ := hsome b rfl
        dsimp only
        by_cases hbe : (x.task k).before (x.task b) now = true
        · rw [if_pos hbe]
          refine ⟨(nomatch ·), fun i hi => ?_⟩
          obtain rfl := Option.some.inj hi
          refine ⟨by simp, hs, fun j hj hsj => ?_⟩
          rcases List.mem_append.1 hj with hj | hj
          · have h1 := hmax j hj hsj
            rw [Bool.eq_false_iff, ne_eq, Task.before_iff] at h1 ⊢
            rw [Task.before_iff] at hbe
            omega
          · rw [List.mem_singleton.1 hj, Bool.eq_false_iff]
            simp [Task.before_iff]
        · rw [if_neg hbe]
          refine ⟨(nomatch ·), fun i hi => ?_⟩
          obtain rfl := Option.some.inj hi
          refine ⟨List.mem_append_left _ hb, hsb, fun j hj hsj => ?_⟩
          rcases List.mem_append.1 hj with hj | hj
          · exact hmax j hj hsj
          · rw [List.mem_singleton.1 hj, Bool.eq_false_iff]
            exact hbe
    · rw [if_neg hs]
      refine ⟨fun h j hj => ?_, fun i hi => ?_⟩
      · rcases List.mem_append.1 hj with hj | hj
        · exact hnone h j hj
        · rw [List.mem_singleton.1 hj, Bool.eq_false_iff]
          exact hs
      · obtain ⟨hb, hsb, hmax⟩ := hsome i hi
        refine ⟨List.mem_append_left _ hb, hsb, fun j hj hsj => ?_⟩
        rcases List.mem_append.1 hj with hj | hj
        · exact hmax j hj hsj
        · rw [List.mem_singleton.1 hj] at hsj
          exact absurd hsj hs

theorem State.chosen_selection (s : State) (p : Nat) : (s.plot p).Chosen (s.wtimeOf p) (s.cycOf p) slotIdx (s.selection p) :=
  Plot.chosen_foldl ..

theorem mem_slotIdx {k : Nat} : k ∈ slotIdx ↔ k < 16 := List.mem_range

/-- The state in which the selector has taken a task: its wait at its priority is over, and its turn is the latest. -/
def State.selected (s : State) (p k : Nat) : State :=
  { s with uid := s.uid + 1 }.setTask p k ((s.task p k).queued (s.cycOf p) s.uid)

theorem exec_taskSelect {s : State} {p k : Nat} {h : Bool} (hm : s.mapping = true) (hh : ((s.plot p).half h).task = none) (hk : s.selection p = some k) :
    exec (.taskSelect p h) s = .next (match (s.task p k).asyncCause with
      | some (c, i) => (s.selected p k).raiseAsync p k c i
      | none => (s.selected p k).setHalf p h { task := some k, blk := none }) := by
  change execTaskSelect p h s = _
  simp only [execTaskSelect, hm, hh, hk, Option.isSome_none, Bool.not_true, Bool.or_self, Bool.false_eq_true, if_false]
  rfl

theorem State.task_selected (s : State) (p : Nat) {k : Nat} (hk : k < 16) :
    (s.selected p k).task p k = (s.task p k).queued (s.cycOf p) s.uid := by
  rw [State.selected, State.task_setTask, if_pos ⟨rfl, rfl, hk⟩]

/-- A task taken for selection that has a pending cause enters the exception instead. -/
theorem State.raiseAsync_selected {s : State} {p k : Nat} (hk : k < 16) (c : Cause) (i : Nat) : (s.selected p k).raiseAsync p k c i =
    ((s.selected p k).onTask p k (fun t => t.takePend i)).takeException p k
      { cause := c, info := if i = 3 then (s.task p k).engInfo else (s.task p k).pendInfo.get i 0, async := true } (s.task p k).bpc := by
  unfold State.raiseAsync
  rw [State.task_selected s p hk]
  rfl

theorem exec_taskSelect_none {s : State} {p : Nat} (h : Bool) (hn : s.selection p = none) : exec (.taskSelect p h) s = .next s := by
  change execTaskSelect p h s = _
  simp only [execTaskSelect, hn, ite_self]

/-! ## Parking at a gate -/

theorem State.untake_none {s : State} {p : Nat} {h : Bool} (ht : s.taking p h = false) :
    s.untake p h = { s with takes := s.takes.filter (fun x => !x.of p h) } := by
  have hn : s.takes.filter (fun x => x.of p h) = [] := by
    rw [List.filter_eq_nil_iff]
    intro x hx
    exact Bool.eq_false_iff.1 (by simpa using List.any_eq_false.1 ht x hx)
  unfold State.untake
  rw [hn]
  rfl

/-- Whether a slot parks its block (R66): its gate has stalled for SY.PARK cycles, and is not met. -/
def State.parksOn (s : State) (p : Nat) (t : Task) (r : SlotRec) (g : Gate) : Prop :=
  r.gate = some g ∧ t.park.toNat ≤ (s.cycOf p - r.since).toNat ∧ s.gateMet p g = false

/-- Whether a slot that has executed may park by a gate: a send may (R298). -/
def Gate.isSend (g : Gate) : Bool :=
  match g with
  | .send .. => true
  | _ => false

/-- The choice among the gates of a block's slots: what `parkGate` folds. -/
def State.parkChoice (s : State) (p : Nat) (t : Task) (best : Option (Gate × Nat)) (r : SlotRec) : Option (Gate × Nat) :=
  match r.gate with
  | some g =>
    let stalled := (s.cycOf p - r.since).toNat
    if t.park.toNat ≤ stalled && !s.gateMet p g && (r.st == .waiting || g.isSend) then
      (match best with
      | some (_, n) => if n < stalled then some (g, stalled) else best
      | none => some (g, stalled))
    else best
  | none => best

/-- A choice is kept, or is the gate of a slot that parks its block. -/
theorem State.parkChoice_cases (s : State) (p : Nat) (t : Task) (best : Option (Gate × Nat)) (r : SlotRec) :
    s.parkChoice p t best r = best ∨ ∃ g n, s.parkChoice p t best r = some (g, n) ∧ s.parksOn p t r g := by
  unfold State.parkChoice
  split
  · rename_i g hg
    dsimp only
    by_cases hc : (decide (t.park.toNat ≤ (s.cycOf p - r.since).toNat) && !s.gateMet p g && (r.st == .waiting || g.isSend)) = true
    · rw [if_pos hc]
      simp only [Bool.and_eq_true, decide_eq_true_eq, Bool.not_eq_true'] at hc
      have hp : s.parksOn p t r g := ⟨hg, hc.1.1, hc.1.2⟩
      split
      · split
        · exact .inr ⟨g, _, rfl, hp⟩
        · exact .inl rfl
      · exact .inr ⟨g, _, rfl, hp⟩
    · exact .inl (if_neg hc)
  · exact .inl rfl

theorem State.parkChoice_isSome {s : State} {p : Nat} {t : Task} {r : SlotRec} (best : Option (Gate × Nat))
    (hr : best.isSome = true ∨ r.st = .waiting ∧ ∃ g, s.parksOn p t r g) : (s.parkChoice p t best r).isSome = true := by
  rcases hr with hb | ⟨hw, g, hg, hp, hm⟩
  · rcases s.parkChoice_cases p t best r with e | ⟨g, n, e, -⟩
    · rw [e, hb]
    · rw [e]
      rfl
  · unfold State.parkChoice
    rw [hg]
    dsimp only
    rw [hm, hw, decide_eq_true hp, if_pos (by simp)]
    split
    · split
      · rfl
      · rfl
    · rfl

/-- The gate by which a block parks is that of a slot that parks it. -/
theorem State.parksOn_parkGate {s : State} {p : Nat} {t : Task} {b : Block} {g : Gate} (h : s.parkGate p t b = some g) :
    ∃ r ∈ b.slots, s.parksOn p t r g := by
  obtain ⟨⟨g', n⟩, hf, rfl⟩ := Option.map_eq_some_iff.1 (show (b.slots.foldl (s.parkChoice p t) none).map (·.1) = some g from h)
  have key : ∀ rs : List SlotRec, ∀ g n, rs.foldl (s.parkChoice p t) none = some (g, n) → ∃ r ∈ rs, s.parksOn p t r g := by
    intro rs
    induction rs using List.reverseRecOn with
    | nil => exact fun _ _ h => nomatch h
    | append_singleton rs r ih =>
      intro g n h
      rw [List.foldl_append, List.foldl_cons, List.foldl_nil] at h
      rcases s.parkChoice_cases p t (rs.foldl (s.parkChoice p t) none) r with e | ⟨g', n', e, hp⟩
      · obtain ⟨r', hr', hp⟩ := ih g n (e ▸ h)
        exact ⟨r', List.mem_append_left _ hr', hp⟩
      · obtain ⟨rfl, -⟩ := Prod.mk.inj (Option.some.inj (e.symm.trans h))
        exact ⟨r, by simp, hp⟩
  exact key b.slots g' n hf

/-- A waiting slot that parks its block gives it a gate to park by. -/
theorem State.parkGate_isSome {s : State} {p : Nat} {t : Task} {b : Block} {r : SlotRec} {g : Gate} (hr : r ∈ b.slots) (hw : r.st = .waiting)
    (hp : s.parksOn p t r g) : (s.parkGate p t b).isSome = true := by
  have keep : ∀ (rs : List SlotRec) (best : Option (Gate × Nat)), best.isSome = true → (rs.foldl (s.parkChoice p t) best).isSome = true := by
    intro rs
    induction rs with
    | nil => exact fun _ h => h
    | cons r rs ih => exact fun best h => ih _ (State.parkChoice_isSome best (.inl h))
  change ((b.slots.foldl (s.parkChoice p t) none).map (·.1)).isSome = true
  rw [Option.isSome_map]
  obtain ⟨as, bs, e⟩ := List.append_of_mem hr
  rw [e, List.foldl_append, List.foldl_cons]
  exact keep bs _ (State.parkChoice_isSome _ (.inr ⟨hw, g, hp⟩))

/-- The state in which a block has parked by a gate. -/
def State.parked (s : State) (p k : Nat) (g : Gate) : State :=
  (((s.dropBlock p k).withdraw p k).onTask p k (fun t => { t with st := .wait, wait := g.wait })).bump p 6 1

theorem exec_gatePark {s : State} {p : Nat} {h : Bool} {cx : Cx} (hcx : s.blockCx p h = some cx) : exec (.gatePark p h) s = .next
    (match s.parkGate p cx.task cx.blk with
    | none => s
    | some g => if cx.blk.abort.isSome || s.commitReady p h then s else s.parked p cx.t g) := by
  change execGatePark p h s = _
  simp only [execGatePark, hcx]
  rfl

theorem exec_wdog {s : State} {p : Nat} {h : Bool} {cx : Cx} (hcx : s.blockCx p h = some cx) : exec (.wdog p h) s = .next
    (if (s.cycOf p - cx.blk.mapped).toNat < 2 ^ 26 || cx.blk.abort.isSome || s.commitDue p h then s
      else s.takeException p cx.t { cause := .wdog } cx.blk.bpc) := by
  change execWdog p h s = _
  simp only [execWdog, hcx]

/-- The block of a half: its task and its words. -/
theorem State.blockCx_half {s : State} {p : Nat} {h : Bool} {cx : Cx} (hcx : s.blockCx p h = some cx) :
    cx.t < 16 ∧ cx.task = s.task p cx.t ∧ (s.plot p).half h = { task := some cx.t, blk := some cx.blk } := by
  unfold State.blockCx at hcx
  dsimp only at hcx
  split at hcx
  · rename_i t b ht hb
    obtain ⟨hlt, e⟩ := Option.ite_none_right_eq_some.1 hcx
    obtain rfl := Option.some.inj e
    refine ⟨hlt, rfl, ?_⟩
    generalize (s.plot p).half h = y at ht hb
    obtain ⟨yt, yb⟩ := y
    obtain rfl := ht
    obtain rfl := hb
    rfl
  · cases hcx

/-- A discarded block that has taken nothing: a counter goes on, its records go, its half is free. -/
theorem State.dropBlock_untaken {s : State} {p k : Nat} {h : Bool} (hh : (s.plot p).halfOf k = some h) (ht : s.taking p h = false) :
    s.dropBlock p k = ({ (if ((s.plot p).half h).blk.isSome then s.bump p 2 1 else s) with takes := s.takes.filter (fun x => !x.of p h) }).setHalf p h {} := by
  have key : ∀ u : State, u.takes = s.takes → u.untake p h = { u with takes := s.takes.filter (fun x => !x.of p h) } := by
    intro u hu
    rw [← hu]
    exact State.untake_none (by rw [← ht]; exact congrArg (fun l : List TakeRec => l.any (fun x => x.of p h)) hu)
  unfold State.dropBlock
  rw [hh]
  dsimp only
  rw [key _ (by split <;> [exact State.bump_takes ..; rfl])]

theorem State.dropBlock_eq {s : State} {p : Nat} {h : Bool} {cx : Cx} (hcx : s.blockCx p h = some cx) (hh : (s.plot p).halfOf cx.t = some h)
    (ht : s.taking p h = false) :
    s.dropBlock p cx.t = ({ s.bump p 2 1 with takes := s.takes.filter (fun x => !x.of p h) }).setHalf p h {} := by
  obtain ⟨-, -, hb⟩ := State.blockCx_half hcx
  rw [State.dropBlock_untaken hh ht, hb]
  rfl

theorem half_setHalf (s : State) (p : Nat) (h : Bool) (y : Half) : ((s.setHalf p h y).plot p).half h = y := by
  rw [State.setHalf, State.plot_onPlot_same]
  cases h <;> rfl

theorem half_bump (s : State) (p i n : Nat) (h : Bool) : ((s.bump p i n).plot p).half h = (s.plot p).half h := by
  unfold State.bump
  split
  · rw [State.plot_onPlot_same]
    rfl
  · rfl

theorem half_onTask (s : State) (p k : Nat) (f : Task → Task) (h : Bool) : ((s.onTask p k f).plot p).half h = (s.plot p).half h := by
  rw [State.onTask, State.setTask, State.plot_onPlot_same]
  rfl

theorem half_withdraw (s : State) (p k : Nat) (h : Bool) : ((s.withdraw p k).plot p).half h = (s.plot p).half h := rfl

section Parked
variable {s : State} {p : Nat} {h : Bool} {cx : Cx} (hcx : s.blockCx p h = some cx) (hh : (s.plot p).halfOf cx.t = some h) (ht : s.taking p h = false)
include hcx hh ht

/-- A block that has taken nothing parks: its half is free, and memory is as it was. -/
theorem State.parked_keeps (g : Gate) : ((s.parked p cx.t g).plot p).half h = {} ∧ (s.parked p cx.t g).mem = s.mem ∧ (s.parked p cx.t g).side = s.side := by
  unfold State.parked
  refine ⟨?_, ?_, ?_⟩
  · rw [half_bump, half_onTask, half_withdraw, State.dropBlock_eq hcx hh ht, half_setHalf]
  · rw [State.bump_mem, State.onTask_mem]
    change (s.dropBlock p cx.t).mem = s.mem
    rw [State.dropBlock_eq hcx hh ht, State.setHalf_mem]
    exact State.bump_mem ..
  · rw [State.bump_side, State.onTask_side]
    change (s.dropBlock p cx.t).side = s.side
    rw [State.dropBlock_eq hcx hh ht, State.setHalf_side]
    exact State.bump_side ..

/-- Where a block that has taken nothing parks, its task waits and every other is as it was. -/
theorem State.task_parked (g : Gate) (q j : Nat) : (s.parked p cx.t g).task q j =
    if q = p ∧ j = cx.t then { cx.task with st := .wait, wait := g.wait } else s.task q j := by
  obtain ⟨hlt, htask, -⟩ := State.blockCx_half hcx
  have hd : ∀ q j, ((s.dropBlock p cx.t).withdraw p cx.t).task q j = s.task q j := by
    intro q j
    change (s.dropBlock p cx.t).task q j = _
    rw [State.dropBlock_eq hcx hh ht, State.task_setHalf]
    exact State.task_bump ..
  unfold State.parked
  rw [State.task_bump, State.task_onTask, hd, hd, htask]
  by_cases hq : q = p ∧ j = cx.t
  · rw [if_pos hq, if_pos ⟨hq.1, hq.2, hlt⟩]
  · rw [if_neg hq, if_neg (fun e => hq ⟨e.1, e.2.1⟩)]

end Parked

/-- Settles O51: the choice of `selection` is the best of the slots that can be selected; a gate that parks is that of a slot; the rest is the events'
own definition. -/
theorem windowEvents : Obligations.WindowEvents := by
  refine fun s p h => ⟨fun k hm hh hk => ?_, fun hn => ?_, fun cx hcx hhalf => ⟨fun ha => ?_, fun ha => ?_, fun hab => ⟨fun hr ht hg => ?_, fun hr hc => ?_⟩⟩⟩
  · obtain ⟨-, hsome⟩ := s.chosen_selection p
    obtain ⟨hmem, hsel, hmax⟩ := hsome k hk
    have he := exec_taskSelect hm hh hk
    refine ⟨⟨hsel, fun j hj hs => ?_⟩, fun ha => ?_, fun hv h0 => ?_, fun hv h0 h3 => ?_⟩
    · have hb := hmax j (mem_slotIdx.2 hj) hs
      rw [Bool.eq_false_iff, ne_eq, Task.before_iff] at hb
      change (s.task p j).epri (s.cycOf p) < (s.task p k).epri (s.cycOf p) ∨ (s.task p j).epri (s.cycOf p) = (s.task p k).epri (s.cycOf p) ∧
        ((s.task p j).levelWait (s.cycOf p) < (s.task p k).levelWait (s.cycOf p) ∨
          (s.task p j).levelWait (s.cycOf p) = (s.task p k).levelWait (s.cycOf p) ∧ (s.task p k).turn ≤ (s.task p j).turn)
      change ¬((s.task p k).epri (s.cycOf p) < (s.task p j).epri (s.cycOf p) ∨ (s.task p j).epri (s.cycOf p) = (s.task p k).epri (s.cycOf p) ∧
        ((s.task p k).levelWait (s.cycOf p) < (s.task p j).levelWait (s.cycOf p) ∨
          (s.task p j).levelWait (s.cycOf p) = (s.task p k).levelWait (s.cycOf p) ∧ (s.task p j).turn < (s.task p k).turn)) at hb
      omega
    · rw [he, ha]
      rfl
    · rw [he, show (s.task p k).asyncCause = some (.deadlk, 0) by unfold Task.asyncCause Task.trapAct; rw [hv, h0]; rfl]
      exact congrArg Host.Outcome.next (State.raiseAsync_selected (mem_slotIdx.1 hmem) ..)
    · rw [he, show (s.task p k).asyncCause = some (.engine, 3) by unfold Task.asyncCause Task.trapAct; rw [hv, h0, h3]; rfl]
      exact congrArg Host.Outcome.next (State.raiseAsync_selected (mem_slotIdx.1 hmem) ..)
  · exact ⟨fun k hk => (s.chosen_selection p).1 hn k (mem_slotIdx.2 hk), exec_taskSelect_none h hn⟩
  · rw [exec_gatePark hcx]
    split
    · rfl
    · rw [if_pos (by rcases ha with ha | ha <;> simp [ha])]
  · rw [exec_wdog hcx, if_pos (by rcases ha with ha | ha <;> simp [ha])]
  · obtain ⟨r, hrm, g, hrg, hw, hp, hmet⟩ := hg
    obtain ⟨g', hg'⟩ := Option.isSome_iff_exists.1 (State.parkGate_isSome hrm hw ⟨hrg, hp, hmet⟩)
    obtain ⟨hhalf', hmem, hside⟩ := State.parked_keeps hcx hhalf ht g'
    refine ⟨g', s.parked p cx.t g', State.parksOn_parkGate hg', ?_, hhalf', ?_, hmem, hside, fun q j hqj => ?_⟩
    · rw [exec_gatePark hcx, hg']
      simp [hab, hr]
    · rw [State.task_parked hcx hhalf ht, if_pos ⟨rfl, rfl⟩]
    · rw [State.task_parked hcx hhalf ht, if_neg hqj]
  · rw [exec_wdog hcx, if_neg (by simpa [hab, hr] using hc)]

end Sys2Proof.Machine
end


-- ==== Sys2Proof/Proofs/BlockMapping.lean ====
section
/-! PROOFS. Mapping a block (R57 to R60, R87, R88, R97, R156, R219, R397): the fetch through the block cache, the checks and the event itself. -/

namespace Sys2Proof.Machine

open Sys2Proof

/-! ## The block cache -/

/-- A block brought into the block cache is the first that the cache finds for its task. -/
theorem Plot.cached_cache (x : Plot) (t : Task) {ws : List (BitVec 64)} (hw : ws.length ≤ 129) : (x.cache ⟨t.launch, t.bpc, ws⟩).cached t = some ws := by
  have keep : ∀ (cs : List CodeBlk) (c : CodeBlk) (as : List CodeBlk) (n : Nat),
      ∃ bs m, cs.foldl (fun (acc : List CodeBlk × Nat) y =>
        if acc.2 + y.words.length ≤ codeRoom then (acc.1 ++ [y], acc.2 + y.words.length) else (acc.1, codeRoom)) (c :: as, n) = (c :: bs, m) := by
    intro cs
    induction cs with
    | nil => exact fun c as n => ⟨as, n, rfl⟩
    | cons y cs ih =>
      intro c as n
      rw [List.foldl_cons]
      split
      · exact ih c (as ++ [y]) _
      · exact ih c as _
  obtain ⟨bs, m, e⟩ := keep (x.code.filter (fun y => !(y.launch == t.launch && y.bpc == t.bpc))) ⟨t.launch, t.bpc, ws⟩ [] (0 + ws.length)
  have hroom : 0 + ws.length ≤ codeRoom := by
    unfold codeRoom
    omega
  have hc : (x.cache ⟨t.launch, t.bpc, ws⟩).code = ⟨t.launch, t.bpc, ws⟩ :: bs := by
    unfold Plot.cache
    rw [List.foldl_cons, if_pos hroom]
    exact congrArg Prod.fst e
  unfold Plot.cached
  rw [hc, List.find?_cons_of_pos (by simp)]
  rfl

theorem State.fillCode_cached {s : State} {p : Nat} {t : Task} (h : (s.plot p).cached t ≠ none) (ws : List (BitVec 64)) : s.fillCode p t ws = s :=
  if_pos (Option.isSome_iff_ne_none.2 h)

theorem State.fillCode_missed {s : State} {p : Nat} {t : Task} (h : (s.plot p).cached t = none) (ws : List (BitVec 64)) :
    s.fillCode p t ws = (s.onPlot p (fun x => x.cache ⟨t.launch, t.bpc, ws⟩)).bump p 11 1 :=
  if_neg (by rw [h]; exact Bool.false_ne_true)

theorem State.task_fillCode (s : State) (p : Nat) (t : Task) (ws : List (BitVec 64)) (q j : Nat) : (s.fillCode p t ws).task q j = s.task q j := by
  by_cases h : (s.plot p).cached t = none
  · rw [State.fillCode_missed h, State.task_bump]
    exact State.task_onPlot s p q j (fun x => x.cache ⟨t.launch, t.bpc, ws⟩) (fun _ => rfl)
  · rw [State.fillCode_cached h]

/-! ## Fetches over a link that is down -/

theorem State.fetchOver_reached {s : State} {p : Nat} {t : Task} (k : Nat) (h : s.codeLost p t = false) : s.fetchOver p k t = s :=
  if_neg (by rw [h]; exact Bool.false_ne_true)

/-- The words of a cached block do not come over a link. -/
theorem State.fetchOver_cached {s : State} {p : Nat} {t : Task} (k : Nat) (h : (s.plot p).cached t ≠ none) : s.fetchOver p k t = s := by
  refine State.fetchOver_reached k ?_
  unfold State.codeLost
  rw [Option.isNone_eq_false_iff.2 (Option.isSome_iff_ne_none.2 h)]
  simp

theorem State.plots_fetchOver (s : State) (p k : Nat) (t : Task) : (s.fetchOver p k t).plots = s.plots := by
  unfold State.fetchOver
  split
  · exact (State.postErr_frame ..).1
  · rfl

theorem State.plot_fetchOver (s : State) (p k : Nat) (t : Task) (q : Nat) : (s.fetchOver p k t).plot q = s.plot q := by
  unfold State.plot
  rw [State.plots_fetchOver]

theorem State.fetchOver_posts {s : State} {p k : Nat} {l : Launch} (hl : s.codeLost p (s.task p k) = true) (hleave : (s.task p k).leaving = .no)
    (hq : l.q < 8) (hlaunch : s.launch? (s.task p k).launch = some l) : ((s.fetchOver p k (s.task p k)).queues[l.q]).waiting = (s.queues[l.q]).waiting ++
      [errWords 0x04 p k (s.task p k).launch (s.task p k).bpc { cause := .engine, slot := 255 } false (s.wtimeOf p) 0] := by
  have h := State.postErr_posts (s := { s with free := s.free + 2 ^ 40 + 1032 }) (kind := 0x04) (p := p) (k := k) (bpc := (s.task p k).bpc)
    (c := { cause := .engine, slot := 255 }) (ended := false) (detail := 0) hlaunch hq
  have e : s.fetchOver p k (s.task p k) = ({ s with free := s.free + 2 ^ 40 + 1032 } : State).postErr 0x04 p k (s.task p k).launch (s.task p k).bpc
      { cause := .engine, slot := 255 } false 0 := by
    unfold State.fetchOver State.lostAccess
    rw [if_pos hl]
    change State.postErr _ 0x04 p k (s.task p k).launch _ _ ((s.task p k).leaving == .ended) 0 = _
    rw [hleave]
    rfl
  rw [e, h]
  rfl

/-! ## The checks -/

theorem headerOk_iff (h : BitVec 64) : headerOk h = true ↔ h.toNat / 2 ^ 56 = 0xB5 ∧ h.toNat % 2 ^ 48 = 0 := by
  unfold headerOk
  rw [Bool.and_eq_true, beq_iff_eq, beq_iff_eq, ← BitVec.toNat_inj, ← BitVec.toNat_inj, BitVec.extractLsb'_toNat, BitVec.extractLsb'_toNat,
    Nat.shiftRight_eq_div_pow, Nat.shiftRight_eq_div_pow, show (0xB5 : BitVec 8).toNat = 0xB5 from rfl, show (0 : BitVec 48).toNat = 0 from rfl]
  have := h.isLt
  omega

/-- The block that a task's fetch finds, once its header and words are there (R57 to R60). -/
theorem State.fetchBlock_of_code {s : State} {p : Nat} {t : Task} {hd : BitVec 64} {ws : List (BitVec 64)} (hfar : t.far = false) (hal : t.bpc.toNat % 8 = 0)
    (hc : s.codeOf p t = .ok (hd :: ws)) : s.fetchBlock p t = match checkBlock t.priv ws with
      | some (true, k) => .error (some { cause := .decode, slot := k })
      | some (false, k) => .error (some (if headerOk hd then { cause := .priv, slot := k } else { cause := .decode }))
      | none => if headerOk hd then .ok (hd :: ws) else .error (some { cause := .decode }) := by
  unfold State.fetchBlock
  rw [hfar, if_neg (by decide), if_neg (by omega), hc] <;> rfl

theorem State.fetchBlock_far {s : State} {p : Nat} {t : Task} (h : t.far = true) : s.fetchBlock p t = .error (some { cause := .capb }) := if_pos h

/-! ## The event -/

/-- The block that starts in a half (R58, R59). -/
def State.newBlock (s : State) (p : Nat) (t : Task) (ws : List (BitVec 64)) : Block :=
  { bpc := t.bpc, words := ws, slots := List.replicate ws.length {}, mapped := s.cycOf p, pri0 := t.pri, pmsel0 := (s.plot p).pmsel, order := s.uid }

/-- A block mapped in a half, its task RUNNING. -/
def State.mapBlock (s : State) (p : Nat) (h : Bool) (k : Nat) (t : Task) (ws : List (BitVec 64)) : State :=
  ({ s with uid := s.uid + 1 }.setHalf p h { task := some k, blk := some (s.newBlock p t ws) }).onTask p k (fun t => { t with st := .running })

theorem State.mapBlock_maps (s : State) (p : Nat) (h : Bool) {k : Nat} (hk : k < 16) (t : Task) (ws : List (BitVec 64)) :
    (s.mapBlock p h k t ws).task p k = { s.task p k with st := .running } ∧ (((s.mapBlock p h k t ws).plot p).half h).blk = some (s.newBlock p t ws) := by
  unfold State.mapBlock
  refine ⟨?_, ?_⟩
  · rw [State.task_onTask, if_pos ⟨rfl, rfl, hk⟩, State.task_setHalf]
    rfl
  · rw [half_onTask, half_setHalf]

/-- What BLOCK_MAP does where nothing holds its task back: a cause that is pending, a wait, a fault, or the block mapped. -/
theorem exec_blockMap {s : State} {p k : Nat} {h : Bool} (hm : s.mapping = true) (hh : (s.plot p).half h = { task := some k })
    (hst : (s.task p k).st = .ready) (hleave : (s.task p k).leaving = .no) (hhalt : (s.task p k).halting = false)
    (hotc : (s.task p k).otcPending = false) : exec (.blockMap p h) s = .next (match (s.task p k).asyncCause with
      | some (c, i) => s.raiseAsync p k c i
      | none => match s.fetchBlock p (s.task p k) with
        | .error none => s
        | .error (some c) => (s.fetched (s.fetchOver p k (s.task p k)) p (s.task p k)).takeException p k c (s.task p k).bpc
        | .ok [] => s
        | .ok (hd :: ws) => ((s.fetchOver p k (s.task p k)).fillCode p (s.task p k) (hd :: ws)).mapBlock p h k (s.task p k) ws) := by
  change execBlockMap p h s = _
  unfold execBlockMap
  simp only [hh, hm, hst, hleave, hhalt, hotc]
  rfl

/-- A block that cannot be mapped has come into the cache where its words could be fetched. -/
theorem State.fetched_of_code {s : State} (u : State) {p : Nat} {t : Task} {ws : List (BitVec 64)} (hfar : t.far = false) (hal : t.bpc.toNat % 8 = 0)
    (hc : s.codeOf p t = .ok ws) : s.fetched u p t = u.fillCode p t ws := by
  unfold State.fetched
  rw [hfar, hal, hc]
  rfl

theorem State.fetched_of_none {s : State} (u : State) {p : Nat} {t : Task} (h : ∀ ws, t.far = true ∨ t.bpc.toNat % 8 ≠ 0 ∨ s.codeOf p t ≠ .ok ws) :
    s.fetched u p t = u := by
  unfold State.fetched
  split
  · rfl
  · rename_i hn
    simp only [Bool.or_eq_true, bne_iff_ne, ne_eq, not_or, not_not] at hn
    split
    · rename_i ws hc
      rcases h ws with e | e | e
      · exact absurd e hn.1
      · exact absurd hn.2 e
      · exact absurd hc e
    · rfl

/-- Settles O46: the event's own cases, with the cache and the checks as the lemmas above say. -/
theorem blockMapChecks : Obligations.BlockMapChecks := by
  intro s p h k hk hm hh t hst hleave hhalt hotc f
  have he := exec_blockMap hm hh hst hleave hhalt hotc
  refine ⟨fun c i ha => ?_, fun hl => State.fetchOver_reached k hl, fun hl l hq hlaunch => State.fetchOver_posts hl hleave hq hlaunch,
    fun hd ws ha hf => ?_, fun c ha hf => ⟨fun ws hfar hal hc => ?_, fun hn => ?_⟩, fun ws hc => ?_, fun ws hc hw => ?_,
    fun hfar => State.fetchBlock_far hfar, fun hd ws hc hfd hfw => ?_, fun ws hc hb => ?_, fun hd ws hfar hal hc => ⟨fun j hj => ?_, fun j hj hg => ?_,
      fun hn hg => ?_, fun hn hg => ?_⟩⟩
  · rw [he, show (s.task p k).asyncCause = some (c, i) from ha]
  · rw [he, show (s.task p k).asyncCause = none from ha, show s.fetchBlock p (s.task p k) = .ok (hd :: ws) from hf]
    refine ⟨_, rfl, ?_⟩
    obtain ⟨htask, hblk⟩ := State.mapBlock_maps (f.fillCode p t (hd :: ws)) p h hk t ws
    have ht : (f.fillCode p t (hd :: ws)).task p k = t := by
      rw [State.task_fillCode, State.task, State.plot_fetchOver]
      rfl
    exact ⟨congrArg Task.st htask, (congrArg Task.regs htask).trans (congrArg Task.regs ht :), _, hblk, rfl, rfl, rfl, rfl⟩
  · rw [he, show (s.task p k).asyncCause = none from ha, show s.fetchBlock p (s.task p k) = .error (some c) from hf]
    exact congrArg (fun x : State => Host.Outcome.next (x.takeException p k c t.bpc)) (State.fetched_of_code f hfar hal hc)
  · rw [he, show (s.task p k).asyncCause = none from ha, show s.fetchBlock p (s.task p k) = .error (some c) from hf]
    exact congrArg (fun x : State => Host.Outcome.next (x.takeException p k c t.bpc)) (State.fetched_of_none f hn)
  · exact State.fillCode_cached (by rwa [State.plot_fetchOver]) ws
  · refine ⟨_, State.fillCode_missed (by rwa [State.plot_fetchOver]) ws, ?_, sameMemory_onPlot f p (fun _ => rfl), fun q j => ?_⟩
    · rw [State.plot_onPlot_same]
      exact Plot.cached_cache _ t hw
    · exact State.task_onPlot f p q j (fun x => x.cache ⟨t.launch, t.bpc, ws⟩) (fun _ => rfl)
  · have hn : (hd.extractLsb' 49 7).toNat = hd.toNat / 2 ^ 49 % 128 := by simp [Nat.shiftRight_eq_div_pow]
    unfold State.codeOf State.codeAt
    rw [hc]
    dsimp only
    rw [hfd]
    dsimp only
    rw [hn, hfw]
  · unfold State.codeOf
    rw [hc]
    dsimp only
    rw [hb]
  · rw [State.fetchBlock_of_code hfar hal hc, hj]
  · rw [State.fetchBlock_of_code hfar hal hc, hj]
    dsimp only
    rw [if_pos ((headerOk_iff hd).2 hg)]
  · rw [State.fetchBlock_of_code hfar hal hc, hn]
    dsimp only
    rw [if_pos ((headerOk_iff hd).2 hg)]
  · have hb : ¬headerOk hd = true := fun e => hg ((headerOk_iff hd).1 e)
    rw [State.fetchBlock_of_code hfar hal hc]
    split
    · rename_i j e
      exact absurd e (hn j)
    · rw [if_neg hb]
    · rw [if_neg hb]

end Sys2Proof.Machine
end


-- ==== Sys2Proof/Proofs/CommitParts.lean ====
section
/-! PROOFS. What the parts of a commit leave of a task, of a plot and of the rest of the state (R67, R68, R177, R272). -/

namespace Sys2Proof.Machine

open Sys2Proof

/-! ## Tasks -/

/-- A task but for its state, its place in the selection and its priority. -/
def Task.kept (t : Task) : Task := { t.still with pri := 0, levelAt := 0 }

theorem kept_of_still {s u : State} (h : s.still = u.still) (q j : Nat) : (s.task q j).kept = (u.task q j).kept :=
  congrArg (fun t : Task => { t with pri := 0, levelAt := 0 }) (task_still_of_still h q j)

theorem State.kept_applyAct (s : State) (p : Nat) (a : CAct) (q j : Nat) : ((s.applyAct p a).task q j).kept = (s.task q j).kept := by
  unfold State.applyAct
  split
  · simp
  · simp
  · simp
  · unfold State.roomWake
    split
    · rw [kept_of_still (State.still_wakePlot ..), State.task_onRill]
    · rw [State.task_onRill]
  · split
    · rfl
    · exact State.onTask_keeps Task.kept s _ _ q j _ (fun _ => rfl)
  · split
    · rfl
    · simp
  · rfl

theorem State.kept_commitEffects (s : State) (cx : Cx) (q j : Nat) : ((s.commitEffects cx).task q j).kept = (s.task q j).kept := by
  unfold State.commitEffects
  rw [State.task_bump, State.task_bump, State.task_bump]
  refine (foldl_keeps (fun s => (State.task s q j).kept) _ _ (fun s x _ => State.kept_applyAct s cx.p x.2 q j) _).trans ?_
  rw [State.task_pops]

/-- A task's registers, its outstanding operations, the results that wait for a register, and what it is leaving for. -/
def Task.results (t : Task) : Regs × List Op × List (Dst × Val) × Leaving := (t.regs, t.ops, t.heldWrites, t.leaving)

theorem results_of_kept {t u : Task} (h : t.kept = u.kept) : t.results = u.results := show t.kept.results = u.kept.results from congrArg Task.results h

theorem Task.results_transferKeeps : TransferKeeps Task.results True where
  ready _ _ _ := rfl
  halting _ := rfl
  goto _ _ := rfl
  park _ _ := rfl
  leave _ _ _ := rfl
  leaveAt _ _ _ _ := rfl

theorem State.results_showTask (s : State) (p k q j : Nat) : ((s.showTask p k).task q j).results = (s.task q j).results :=
  State.onTask_keeps Task.results s p k q j _ (fun _ => rfl)

theorem Task.results_causeStrm (t : Task) (w : BitVec 64) : ({ t with causeStrm := w } : Task).results = t.results := rfl

theorem State.results_commitShows (s : State) (cx : Cx) (q j : Nat) : ((s.commitShows cx).task q j).results = (s.task q j).results := by
  unfold State.commitShows
  rw [State.results_showTask]
  split
  · rfl
  · exact State.onTask_keeps Task.results s cx.p cx.t q j _ (fun t => Task.results_causeStrm t t.strmWord)

/-! ## The issue of operations -/

/-- What an operation is, whatever it waits for. -/
def Op.brief (o : Op) : Nat × CAct × BitVec 40 × List Nat × Bool := (o.slot, o.act, o.bpc, o.done, o.queued)

theorem briefs_outdated (os : List Op) (d : Dst) : (os.map (fun o => o.outdated d)).map Op.brief = os.map Op.brief := by
  rw [List.map_map]
  refine List.map_congr_left (fun o _ => ?_)
  simp only [Function.comp, Op.outdated]
  split <;> rfl

/-- An operation issued is one more at the end of its task's, and what waits for its D does so no longer (R177). -/
theorem State.task_issue (s : State) {cx : Cx} (k : Nat) (a : CAct) (ht : cx.t < 16) : ∃ o hs, o.brief = (k, a, cx.blk.bpc, [], false) ∧
    (s.issue cx k a).task cx.p cx.t = { s.task cx.p cx.t with
      ops := (s.task cx.p cx.t).ops.map (fun q => q.outdated a.dst) ++ [o]
      heldWrites := (s.task cx.p cx.t).heldWrites.filter (fun w => w.1 != a.dst), handles := hs } := by
  unfold State.issue
  extract_lets t acq o s1 s2 s3
  have h1 : s1.task cx.p cx.t = { t with ops := t.ops.map (fun q => q.outdated a.dst) ++ [o], heldWrites := t.heldWrites.filter (fun w => w.1 != a.dst) } := by
    simp only [s1]
    rw [State.task_setTask, if_pos ⟨rfl, rfl, ht⟩]
  have h2 : s2.task cx.p cx.t = s1.task cx.p cx.t := by
    simp only [s2]
    split
    · exact State.task_bump ..
    · rfl
  have h3 : s3.task cx.p cx.t = s2.task cx.p cx.t := by
    simp only [s3]
    split
    · exact State.task_bump ..
    · rfl
  have hb : o.brief = (k, a, cx.blk.bpc, [], false) := rfl
  clear_value o s3
  have he : ∃ hs, (if a.kind.isEngine then s3.issueCmd cx a o else s3).task cx.p cx.t = { s3.task cx.p cx.t with handles := hs } := by
    split
    · unfold State.issueCmd
      split
      · exact ⟨_, rfl⟩
      · dsimp only
        rw [State.task_bump, State.task_onTask, if_pos ⟨rfl, rfl, ht⟩]
        split
        · exact ⟨_, rfl⟩
        · exact ⟨_, rfl⟩
    · exact ⟨_, rfl⟩
  obtain ⟨hs, he⟩ := he
  exact ⟨o, hs, hb, by rw [he, h3, h2, h1]⟩

/-- Issuing the operations of a block, in slot order: each is one more of its task's, and a result that waits for a register which none of them names
goes on waiting. -/
theorem State.task_issues {cx : Cx} (ht : cx.t < 16) (xs : List (Nat × CAct)) (s : State) :
    let u := xs.foldl (fun s x => if x.2.kind.immediate then s else s.issue cx x.1 x.2) s
    (∃ os ws hs, u.task cx.p cx.t = { s.task cx.p cx.t with ops := os, heldWrites := ws, handles := hs }) ∧
    (u.task cx.p cx.t).ops.map Op.brief = (s.task cx.p cx.t).ops.map Op.brief ++
      (xs.filter (fun x => !x.2.kind.immediate)).map (fun x => (x.1, x.2, cx.blk.bpc, [], false)) ∧
    ∀ w ∈ (s.task cx.p cx.t).heldWrites, (∀ x ∈ xs, x.2.dst ≠ w.1) → w ∈ (u.task cx.p cx.t).heldWrites := by
  induction xs generalizing s with
  | nil => exact ⟨⟨_, _, _, rfl⟩, by simp, fun w hw _ => hw⟩
  | cons x xs ih =>
    rw [List.foldl_cons]
    obtain ⟨⟨os, ws, hs, hu⟩, hb, hw⟩ := ih (if x.2.kind.immediate then s else s.issue cx x.1 x.2)
    by_cases hi : x.2.kind.immediate = true
    · rw [if_pos hi] at hu hb hw ⊢
      refine ⟨⟨os, ws, hs, hu⟩, ?_, fun w hm hd => hw w hm (fun y hy => hd y (List.mem_cons_of_mem _ hy))⟩
      rw [hb, List.filter_cons_of_neg (by simp [hi])]
    · rw [if_neg hi] at hu hb hw ⊢
      obtain ⟨o, hs', ho, e⟩ := State.task_issue s x.1 x.2 ht
      rw [e] at hu hb hw
      refine ⟨⟨os, ws, hs, hu⟩, ?_, fun w hm hd => hw w ?_ (fun y hy => hd y (List.mem_cons_of_mem _ hy))⟩
      · rw [hb, List.filter_cons_of_pos (by simp [hi]), List.map_append, briefs_outdated, List.map_cons, List.map_cons, List.map_nil, ho, List.append_assoc]
        rfl
      · exact List.mem_filter.2 ⟨hm, by simpa using (hd x (List.mem_cons_self ..)).symm⟩

theorem Task.haltDeps_briefs (t : Task) : t.haltDeps.ops.map Op.brief = t.ops.map Op.brief := by
  unfold Task.haltDeps
  rw [List.map_map]
  refine List.map_congr_left (fun o _ => ?_)
  simp only [Function.comp]
  split <;> rfl

/-! ## The results of a block -/

/-- The result of a slot reaches its register, or waits for it (R68, R177). -/
def Task.writeSlot (t : Task) (r : SlotRec) : Task :=
  match r.st, r.val with
  | .done, some v => if r.dst == .none then t else t.writeReg r.dst v
  | _, _ => t

theorem Task.writeRegs_eq (t : Task) (b : Block) : t.writeRegs b = b.slots.foldl Task.writeSlot t := rfl

theorem Task.writeSlot_other {t : Task} {r : SlotRec} (h : ¬(r.st = .done ∧ r.val.isSome = true)) : t.writeSlot r = t := by
  unfold Task.writeSlot
  split
  · rename_i hd hv
    exact absurd ⟨hd, by rw [hv]; rfl⟩ h
  · rfl

theorem Task.writeSlot_result {t : Task} {r : SlotRec} {v : Val} (hd : r.st = .done) (hv : r.val = some v) (hn : r.dst ≠ .none) :
    t.writeSlot r = t.writeReg r.dst v := by
  unfold Task.writeSlot
  rw [hd, hv]
  exact if_neg (by simpa using hn)

theorem Task.writeSlot_cases (t : Task) (r : SlotRec) : t.writeSlot r = t ∨
    ∃ v, r.st = .done ∧ r.val = some v ∧ r.dst ≠ .none ∧ t.writeSlot r = t.writeReg r.dst v := by
  by_cases h : r.st = .done ∧ r.val.isSome = true
  · obtain ⟨hd, hs⟩ := h
    obtain ⟨v, hv⟩ := Option.isSome_iff_exists.1 hs
    by_cases hn : r.dst = .none
    · left
      unfold Task.writeSlot
      rw [hd, hv, hn]
      rfl
    · exact .inr ⟨v, hd, hv, hn, Task.writeSlot_result hd hv hn⟩
  · exact .inl (Task.writeSlot_other h)

theorem Task.writeReg_briefs (t : Task) (d : Dst) (v : Val) : (t.writeReg d v).ops.map Op.brief = t.ops.map Op.brief := by
  unfold Task.writeReg
  split
  · exact briefs_outdated ..
  · rfl

theorem latePending_of_briefs {t u : Task} (h : t.ops.map Op.brief = u.ops.map Op.brief) (d : Dst) : t.latePending d = u.latePending d := by
  have key : ∀ t : Task, t.latePending d = (d != .none && (t.ops.map Op.brief).any (fun b => b.2.1.dst == d)) := by
    intro t
    rw [List.any_map]
    rfl
  rw [key, key, h]

theorem Regs.at_write {v : Val} {d : Dst} (h : v.fits d = true) (r : Regs) : (r.write d v).at d = some v.stored := by
  unfold Val.fits at h
  split at h
  iterate 6 exact congrArg some (by simp [Regs.write, Regs.getG, Regs.getF, Regs.getV, Regs.getC, Val.stored])
  cases h

theorem getElem_set_ne_bv {α : Type} {n w : Nat} {xs : Vector α n} {i j : BitVec w} (hi : i.toNat < n) (hj : j.toNat < n) (h : i ≠ j) (x : α) :
    (xs.set i.toNat x hi)[j.toNat] = xs[j.toNat] := Vector.getElem_set_ne hi hj (fun e => h (BitVec.eq_of_toNat_eq e))

theorem Regs.at_write_ne {d e : Dst} (h : d ≠ e) (r : Regs) (v : Val) : (r.write d v).at e = r.at e := by
  unfold Regs.write
  split
  all_goals
    cases e
    all_goals simp_all [Regs.at, Regs.getG, Regs.getF, Regs.getV, Regs.getC, getElem_set_ne_bv]

theorem Task.writeSlot_briefs (t : Task) (r : SlotRec) : (t.writeSlot r).ops.map Op.brief = t.ops.map Op.brief := by
  rcases t.writeSlot_cases r with e | ⟨v, -, -, -, e⟩
  · rw [e]
  · rw [e, Task.writeReg_briefs]

theorem Task.writeRegs_briefs (t : Task) (b : Block) : (t.writeRegs b).ops.map Op.brief = t.ops.map Op.brief :=
  foldl_keeps (fun t : Task => t.ops.map Op.brief) _ _ (fun t r _ => Task.writeSlot_briefs t r) t

theorem Task.writeReg_pending {t : Task} {d : Dst} (h : t.latePending d = true) (v : Val) :
    (t.writeReg d v).regs = t.regs ∧ (d, v) ∈ (t.writeReg d v).heldWrites := by
  unfold Task.writeReg
  rw [if_pos h]
  exact ⟨rfl, List.mem_append_right _ (List.mem_singleton.2 rfl)⟩

theorem Task.writeReg_free {t : Task} {d : Dst} (h : t.latePending d = false) (v : Val) : t.writeReg d v = { t with regs := t.regs.write d v } :=
  if_neg (by rw [h]; exact Bool.false_ne_true)

theorem Task.writeReg_at_ne {d e : Dst} (h : d ≠ e) (t : Task) (v : Val) : (t.writeReg d v).regs.at e = t.regs.at e := by
  cases hp : t.latePending d with
  | true => rw [(Task.writeReg_pending hp v).1]
  | false => rw [Task.writeReg_free hp, Regs.at_write_ne h]

theorem Task.writeReg_held_ne {t : Task} {d : Dst} {w : Dst × Val} (h : d ≠ w.1) (hw : w ∈ t.heldWrites) (v : Val) : w ∈ (t.writeReg d v).heldWrites := by
  unfold Task.writeReg
  split
  · exact List.mem_append_left _ (List.mem_filter.2 ⟨hw, by simpa using h.symm⟩)
  · exact hw

theorem Task.writeRegs_at_other {t : Task} {b : Block} {d : Dst} (h : ∀ r ∈ b.slots, r.st = .done → r.val.isSome = true → r.dst ≠ d) :
    (t.writeRegs b).regs.at d = t.regs.at d := by
  refine foldl_keeps (fun t : Task => t.regs.at d) _ _ (fun t r hr => ?_) t
  rcases t.writeSlot_cases r with e | ⟨v, hd, hv, -, e⟩
  · exact congrArg (fun t : Task => t.regs.at d) e
  · exact (congrArg (fun t : Task => t.regs.at d) e).trans (Task.writeReg_at_ne (h r hr hd (by rw [hv]; rfl)) t v)

/-- A register that a late result is owed to keeps what it holds (R177). -/
theorem Task.writeRegs_at_pending {t : Task} {d : Dst} (h : t.latePending d = true) (b : Block) : (t.writeRegs b).regs.at d = t.regs.at d := by
  refine (foldl_inv_mem (P := fun u : Task => u.latePending d = true ∧ u.regs.at d = t.regs.at d) (fun u hu r _ => ?_) ⟨h, rfl⟩).2
  change (u.writeSlot r).latePending d = true ∧ (u.writeSlot r).regs.at d = t.regs.at d
  refine ⟨(latePending_of_briefs (Task.writeSlot_briefs u r) d).trans hu.1, ?_⟩
  rcases u.writeSlot_cases r with e | ⟨v, -, -, -, e⟩
  · rw [e, hu.2]
  · by_cases hd : r.dst = d
    · rw [e, hd, (Task.writeReg_pending hu.1 v).1, hu.2]
    · rw [e, Task.writeReg_at_ne hd, hu.2]

/-- What the step of one member establishes, and the steps of the members keep, holds after the fold. -/
theorem foldl_reaches_mem {α β : Type} {P : β → Prop} {f : β → α → β} {x : α} {xs : List α} (hx : x ∈ xs) (hget : ∀ b, P (f b x))
    (hkeep : ∀ b, ∀ y ∈ xs, P b → P (f b y)) (b : β) : P (xs.foldl f b) := by
  obtain ⟨as, bs, rfl⟩ := List.append_of_mem hx
  rw [List.foldl_append, List.foldl_cons]
  exact foldl_inv_mem (P := P) (fun b hb y hy => hkeep b y (List.mem_append_right _ (List.mem_cons_of_mem _ hy)) hb) (hget _)

/-- The result of a slot whose register no other names: it is there, or waits for a late one (R65, R68, R177). -/
theorem Task.writeRegs_result {t : Task} {b : Block} {r : SlotRec} {v : Val} (hr : r ∈ b.slots) (hd : r.st = .done) (hv : r.val = some v)
    (hf : v.fits r.dst = true) (hu : ∀ q ∈ b.slots, q.st = .done → q.val.isSome = true → q.dst = r.dst → q = r) :
    (t.latePending r.dst = false → (t.writeRegs b).regs.at r.dst = some v.stored) ∧
    (t.latePending r.dst = true → (r.dst, v) ∈ (t.writeRegs b).heldWrites) := by
  have hn : r.dst ≠ .none := fun e => by rw [e] at hf; cases hf
  have key : ((t.writeRegs b).latePending r.dst = false → (t.writeRegs b).regs.at r.dst = some v.stored) ∧
      ((t.writeRegs b).latePending r.dst = true → (r.dst, v) ∈ (t.writeRegs b).heldWrites) := by
    have hget : ∀ u : Task, ((u.writeSlot r).latePending r.dst = false → (u.writeSlot r).regs.at r.dst = some v.stored) ∧
        ((u.writeSlot r).latePending r.dst = true → (r.dst, v) ∈ (u.writeSlot r).heldWrites) := by
      intro u
      rw [latePending_of_briefs (Task.writeSlot_briefs u r), Task.writeSlot_result hd hv hn]
      exact ⟨fun h => by rw [Task.writeReg_free h]; exact Regs.at_write hf _, fun h => (Task.writeReg_pending h v).2⟩
    refine foldl_reaches_mem (P := fun u : Task => (u.latePending r.dst = false → u.regs.at r.dst = some v.stored) ∧
      (u.latePending r.dst = true → (r.dst, v) ∈ u.heldWrites)) hr hget (fun u q hq hP => ?_) t
    rcases u.writeSlot_cases q with e | ⟨x, hqd, hqv, -, e⟩
    · rwa [e]
    · by_cases hqr : q.dst = r.dst
      · rw [hu q hq hqd (by rw [hqv]; rfl) hqr]
        exact hget u
      · rw [latePending_of_briefs (Task.writeSlot_briefs u q), e, Task.writeReg_at_ne hqr]
        exact ⟨hP.1, fun h => Task.writeReg_held_ne hqr (hP.2 h) x⟩
  rwa [latePending_of_briefs (Task.writeRegs_briefs t b)] at key

/-! ## The home event of a TAKE -/

/-- The home event of a TAKE that finds no poison: its block fails, or a run of granules is emptied (R181). -/
theorem State.takeEvent_cases {s : State} {k : Nat} {x : TakeRec}
    (hp : ∀ y ∈ s.takes, x.with y = true → y.done = false → (s.sideAt y.home).poison = false) :
    s.takeEvent k x = s.failBlock x.plot x.half ∨ ∃ run : List TakeRec, s.takeEvent k x = run.foldl (fun s y => s.clearTake k y) s := by
  have hnone : (s.takes.filter (fun y => x.with y && !y.done)).find? (fun y => (s.sideAt y.home).poison) = none := by
    refine List.find?_eq_none.2 (fun y hy => ?_)
    obtain ⟨hm, hy⟩ := List.mem_filter.1 hy
    simp only [Bool.and_eq_true, Bool.not_eq_true'] at hy
    simp [hp y hm hy.1 hy.2]
  unfold State.takeEvent
  dsimp only
  rw [hnone]
  dsimp only
  split
  · exact .inr ⟨_, rfl⟩
  · exact .inl rfl

/-! ## The task of a block that stays -/

theorem State.results_wrs (s : State) (p k n : Nat) (a : BitVec 64) (q j : Nat) : ((s.wrs p k n a).task q j).results = (s.task q j).results := by
  have on : ∀ f : Task → Task, (∀ t, (f t).results = t.results) → ((s.onTask p k f).task q j).results = (s.task q j).results :=
    fun f => State.onTask_keeps Task.results s p k q j f
  have hw : ∀ (t : Task) n a, (t.wrs n a).results = t.results := by
    intro t n a
    unfold Task.wrs
    split <;> rfl
  unfold State.wrs
  split
  · exact congrArg Task.results (State.task_onPlot s p q j (fun x => { x with pmsel := a.extractLsb' 0 6 }) (fun _ => rfl))
  · refine congrArg Task.results (State.task_onPlot s p q j (fun x => if x.pmsel.toNat < 48 then x.setCounter (s.cycOf p) x.pmsel.toNat a else x) (fun x => ?_))
    split <;> rfl
  · refine on _ (fun t => ?_)
    unfold Task.wrsMiss
    split
    · rfl
    · exact hw ..
  · exact on _ (fun t => hw ..)
  · exact on _ (fun t => hw ..)

theorem Task.results_writeFlags (t : Task) (b : Block) : (t.writeFlags b).results = t.results := by
  rw [Task.writeFlags_eq]
  exact foldl_keeps Task.results Task.orFlags _ (fun _ _ _ => rfl) t

/-- What a block's own writes leave in the registers and the operations of its task. -/
theorem State.results_commitWrites (s : State) {cx : Cx} (ht : cx.t < 16) :
    ((s.commitWrites cx).task cx.p cx.t).results = ((s.task cx.p cx.t).writeRegs cx.blk).results := by
  have hflags : ∀ t : Task, ({ (t.writeFlags cx.blk) with rwait := [], refault := none } : Task).results = t.results :=
    fun t => Task.results_writeFlags t cx.blk
  unfold State.commitWrites
  rw [State.onTask_keeps Task.results _ cx.p cx.t cx.p cx.t _ hflags]
  refine (foldl_keeps (fun s => (State.task s cx.p cx.t).results) _ _ (fun s x _ => ?_) _).trans ?_
  · split
    · exact State.results_wrs ..
    · rfl
  · rw [State.task_onTask, if_pos ⟨rfl, rfl, ht⟩, State.task_setHalf]

/-- What a block's own writes leave of every other task. -/
theorem State.task_commitWrites_other (s : State) (cx : Cx) {q j : Nat} (h : ¬(q = cx.p ∧ j = cx.t)) : (s.commitWrites cx).task q j = s.task q j := by
  have on : ∀ (s : State) (f : Task → Task), (s.onTask cx.p cx.t f).task q j = s.task q j := by
    intro s f
    rw [State.task_onTask, if_neg (fun e => h ⟨e.1, e.2.1⟩)]
  unfold State.commitWrites
  rw [on]
  refine (foldl_keeps (fun s => State.task s q j) _ _ (fun s x _ => ?_) _).trans ((on _ _).trans (State.task_setHalf ..))
  split
  · unfold State.wrs
    split
    · exact State.task_onPlot s cx.p q j (fun x => { x with pmsel := _ }) (fun _ => rfl)
    · refine State.task_onPlot s cx.p q j (fun x => if x.pmsel.toNat < 48 then x.setCounter (s.cycOf cx.p) x.pmsel.toNat _ else x) (fun x => ?_)
      split <;> rfl
    · exact on ..
    · exact on ..
    · exact on ..
  · rfl

/-- What a commit leaves in the registers and the operations of a task that stays. -/
structure State.Results (s : State) (cx : Cx) (u : State) : Prop where
  leaving : (u.task cx.p cx.t).leaving = .no
  regs : (u.task cx.p cx.t).regs = ((s.task cx.p cx.t).writeRegs cx.blk).regs
  briefs : (u.task cx.p cx.t).ops.map Op.brief = (s.task cx.p cx.t).ops.map Op.brief ++
    (cx.blk.acts.filter (fun x => !x.2.kind.immediate)).map (fun x => (x.1, x.2, cx.blk.bpc, [], false))
  held : ∀ w ∈ ((s.task cx.p cx.t).writeRegs cx.blk).heldWrites, (∀ x ∈ cx.blk.acts, x.2.dst ≠ w.1) → w ∈ (u.task cx.p cx.t).heldWrites

theorem State.results_commitIssues {s : State} {cx : Cx} (ht : cx.t < 16) : let t := s.task cx.p cx.t
    let v := (s.commitIssues cx).task cx.p cx.t
    (v.leaving = t.leaving ∧ v.regs = t.regs) ∧ v.ops.map Op.brief = t.ops.map Op.brief ++
      (cx.blk.acts.filter (fun x => !x.2.kind.immediate)).map (fun x => (x.1, x.2, cx.blk.bpc, [], false)) ∧
    ∀ w ∈ t.heldWrites, (∀ x ∈ cx.blk.acts, x.2.dst ≠ w.1) → w ∈ v.heldWrites := by
  intro t v
  obtain ⟨⟨os, ws, hs, hu⟩, hb, hw⟩ := State.task_issues ht cx.blk.acts s
  have hv : v.results = (Task.haltDeps ((cx.blk.acts.foldl (fun s x => if x.2.kind.immediate then s else s.issue cx x.1 x.2) s).task cx.p cx.t)).results := by
    refine (results_of_kept (kept_of_still (State.still_abortOther ..) cx.p cx.t)).trans (congrArg Task.results ?_)
    rw [State.task_onTask, if_pos ⟨rfl, rfl, ht⟩]
  generalize (cx.blk.acts.foldl (fun s x => if x.2.kind.immediate then s else s.issue cx x.1 x.2) s).task cx.p cx.t = y at hu hb hw hv
  simp only [Task.results, Prod.mk.injEq] at hv
  obtain ⟨hregs, hops, hheld, hleave⟩ := hv
  refine ⟨⟨?_, ?_⟩, ?_, fun w hm hd => ?_⟩
  · rw [hleave, hu]
    rfl
  · rw [hregs, hu]
    rfl
  · rw [hops, Task.haltDeps_briefs, hb]
  · rw [hheld]
    exact hw w hm hd

theorem State.leaving_commitWrites {s : State} {cx : Cx} (ht : cx.t < 16) (hl : (s.task cx.p cx.t).leaving = .no) :
    ((s.commitWrites cx).task cx.p cx.t).leaving = .no :=
  (congrArg (fun v => v.2.2.2) (State.results_commitWrites s ht)).trans ((Task.writeRegs_keeps Task.leaving (fun _ _ _ _ => rfl) _ _).trans hl)

theorem Task.regs_transferKeeps : TransferKeeps Task.regs True where
  ready _ _ _ := rfl
  halting _ := rfl
  goto _ _ := rfl
  park _ _ := rfl
  leave _ _ _ := rfl
  leaveAt _ _ _ _ := rfl

/-- The commit of a task that stays. -/
theorem State.commit_results {s : State} {cx : Cx} (ht : cx.t < 16) (hs : cx.blk.branch ≠ some .endt ∧ ∀ n, cx.blk.branch ≠ some (.trap n))
    (hl : (s.task cx.p cx.t).leaving = .no) : s.Results cx (s.commit cx) := by
  have hw := State.results_commitWrites s ht
  have hpre : ((((s.commitWrites cx).commitEffects cx).transfer cx).task cx.p cx.t).results = ((s.task cx.p cx.t).writeRegs cx.blk).results := by
    rw [State.transfer_task Task.results_transferKeeps hs (fun _ => trivial), results_of_kept (State.kept_commitEffects ..), hw]
  have hkeep : ((s.task cx.p cx.t).writeRegs cx.blk).leaving = .no := by rw [Task.writeRegs_keeps Task.leaving (fun _ _ _ _ => rfl), hl]
  have hlw := State.leaving_commitWrites ht hl
  obtain ⟨⟨hleave, hregs⟩, hbriefs, hheld⟩ := State.results_commitIssues (s := ((s.commitWrites cx).commitEffects cx).transfer cx) ht
  have hend := State.results_commitShows ((((s.commitWrites cx).commitEffects cx).transfer cx).commitIssues cx) cx cx.p cx.t
  rw [← (State.commit_flagged hs hlw).1] at hend
  simp only [Task.results, Prod.mk.injEq] at hpre hend
  obtain ⟨pregs, pops, pheld, pleave⟩ := hpre
  obtain ⟨eregs, eops, eheld, eleave⟩ := hend
  refine ⟨?_, ?_, ?_, fun w hm hd => ?_⟩
  · rw [eleave, hleave, pleave, hkeep]
  · rw [eregs, hregs, pregs]
  · rw [eops, hbriefs, pops, Task.writeRegs_briefs]
  · rw [eheld]
    exact hheld w (by rwa [pheld]) hd

/-! ## ACC forms at the commit -/

/-- An ACC form that is no ACLR waits, or ends with a late result. -/
theorem State.accEvent_cases {s : State} {p k : Nat} {o : Op} (ho : ∀ a, o.act.kind ≠ .aclr a) :
    s.accEvent p k o = s ∨ ∃ v, s.accEvent p k o = s.finishOp p k o (some v) := by
  unfold State.accEvent
  split
  · exact .inl rfl
  · split
    · rename_i a e
      exact absurd e (ho a)
    · exact .inr ⟨_, rfl⟩
    · exact .inl rfl

/-- What the end of an ACC form of a block keeps, its commit keeps. -/
theorem State.commitAcc_induct {P : State → Prop} {s : State} {p k : Nat} {b : Block} (hb : ∀ x ∈ b.acts, ∀ a, x.2.kind ≠ .aclr a)
    (hl : (s.task p k).leaving = .no) (h : P s)
    (step : ∀ u o v, (u.task p k).leaving = .no → P u → (∃ x ∈ b.acts, x.2.kind.accTile ≠ none ∧ o.act = x.2) → P (u.finishOp p k o (some v))) :
    P (s.commitAcc p k b) := by
  unfold State.commitAcc
  refine (foldl_inv_mem (P := fun u : State => (u.task p k).leaving = .no ∧ P u) (fun u hu x hx => ?_) ⟨hl, h⟩).2
  obtain ⟨hm, hacc⟩ := List.mem_filter.1 hx
  split
  · rename_i o ho
    have hact : o.act = x.2 := by
      have := List.find?_some ho
      simp only [Bool.and_eq_true, beq_iff_eq] at this
      exact this.2
    rcases State.accEvent_cases (s := u) (p := p) (k := k) (o := o) (fun a => hact ▸ hb x hm a) with e | ⟨v, e⟩
    · rwa [e]
    · rw [e]
      exact ⟨(congrArg Prod.fst (State.flagged_finishOp o (some v) hu.1)).trans hu.1,
        step u o v hu.1 hu.2 ⟨x, hm, Option.isSome_iff_ne_none.1 hacc, hact⟩⟩
  · exact hu

end Sys2Proof.Machine
end


-- ==== Sys2Proof/Proofs/CommitResults.lean ====
section
/-! PROOFS. The registers that a commit writes, and the operations that it issues (R65, R68, R177, R193, R211, R272). -/

namespace Sys2Proof.Machine

open Sys2Proof

/-! ## Streams -/

/-- The operations on a stream, of their briefs. -/
theorem Task.strm_briefs (t : Task) (k : Nat) :
    t.strm k = ((t.ops.map Op.brief).filter (fun b => b.2.1.mx.any (fun m => m.stream.toNat == k))).length := by
  unfold Task.strm
  rw [List.filter_map, List.length_map]
  congr 2
  funext o
  change _ = o.act.mx.any (fun m => m.stream.toNat == k)
  cases o.act.mx <;> rfl

/-- An operation that ends takes none of another act with it. -/
theorem mem_opEnds {t : Task} {o q : Op} {late : Option Val} (h : q.act ≠ o.act) (hq : q ∈ t.ops) : q ∈ (t.opEnds o late).ops := by
  rw [Task.ops_opEnds]
  refine List.mem_filter.2 ⟨hq, ?_⟩
  rw [Bool.not_eq_true', Bool.eq_false_iff, ne_eq, Op.same_iff]
  exact fun e => h e.2

/-- Nor does one on no stream k change how many are on it. -/
theorem strm_opEnds {t : Task} {o : Op} (late : Option Val) {k : Nat} (h : ∀ m, o.act.mx = some m → m.stream.toNat ≠ k) :
    (t.opEnds o late).strm k = t.strm k := by
  unfold Task.strm
  rw [Task.ops_opEnds, List.filter_filter]
  congr 1
  refine List.filter_congr (fun q _ => ?_)
  by_cases hq : o.same q = true
  · have ha := ((Op.same_iff o q).1 hq).2
    rw [hq, ha]
    cases hm : o.act.mx with
    | none => rfl
    | some m => simpa using h m hm
  · simp [Bool.eq_false_iff.2 hq]

/-- Settles O25: the issue puts each operation behind those of its task, and the ACC forms that perform take no other with them. -/
theorem commitIssuesOperations : Obligations.CommitIssuesOperations := by
  intro s t p h cx hr hs
  obtain ⟨w, hv, he⟩ := exec_blockCommit hr
  obtain ⟨rfl, -, ht, htask, hleave, -⟩ := readyToCommit_cx hr
  obtain ⟨hendt, htrap, hacc⟩ := hs
  have hwt : w.task cx.p cx.t = cx.task := (task_of_view hv ..).trans htask.symm
  have hc := State.commit_results (s := w) ht ⟨hendt, htrap⟩ (by rw [hwt, hleave])
  have hb := hc.briefs
  rw [hwt] at hb
  refine ⟨_, he, fun x hx hi ha => ?_, fun hn => ?_, fun k hk hstream => ?_⟩
  · obtain ⟨o, ho, hbr⟩ : ∃ o ∈ ((w.commit cx).task cx.p cx.t).ops, o.brief = (x.1, x.2, cx.blk.bpc, [], false) := by
      refine List.mem_map.1 ?_
      rw [hb]
      exact List.mem_append_right _ (List.mem_map.2 ⟨x, List.mem_filter.2 ⟨hx, by simp [hi]⟩, rfl⟩)
    simp only [Op.brief, Prod.mk.injEq] at hbr
    obtain ⟨hslot, hact, hbpc, hdone, hq⟩ := hbr
    refine ⟨o, ?_, hact, hslot, hbpc, hdone, hq⟩
    refine State.commitAcc_induct (P := fun u : State => o ∈ (u.task cx.p cx.t).ops) hacc hc.leaving ho (fun u q v hl hu hq => ?_)
    obtain ⟨y, -, hy, hqa⟩ := hq
    rw [(State.task_finishOp q (some v) ht hl).1]
    exact mem_opEnds (fun e => hy (by rw [← hqa, ← e, hact, ha])) hu
  · have hid : (w.commit cx).commitAcc cx.p cx.t cx.blk = w.commit cx := by
      unfold State.commitAcc
      rw [List.filter_eq_nil_iff.2 (fun x hx => by simp [hn x hx])]
      rfl
    have hm := congrArg (List.map (fun b : Nat × CAct × BitVec 40 × List Nat × Bool => (b.1, b.2.1))) hb
    rw [hid]
    simpa [Function.comp_def, Op.brief] using hm
  · have hcount : ((w.commit cx).task cx.p cx.t).strm k = cx.task.strm k +
        (cx.blk.acts.filter (fun x => !x.2.kind.immediate && x.2.mx.any (fun m => m.stream.toNat == k))).length := by
      rw [Task.strm_briefs, Task.strm_briefs, hb, List.filter_append, List.length_append]
      congr 1
      rw [List.filter_map, List.length_map, List.filter_filter]
      exact congrArg List.length (List.filter_congr (fun x _ => Bool.and_comm ..))
    refine State.commitAcc_induct (P := fun u : State => (u.task cx.p cx.t).strm k = _) hacc hc.leaving hcount (fun u q v hl hu hq => ?_)
    obtain ⟨y, hym, hy, hqa⟩ := hq
    have hops := (State.task_finishOp q (some v) ht hl).1
    refine Eq.trans ?_ ((strm_opEnds (some v) (fun m hm => hstream y hym hy m (hqa ▸ hm))).trans hu)
    unfold Task.strm
    rw [hops]

/-! ## Registers -/

/-- The end of an operation changes no register but its D. -/
theorem Task.opEnds_at {t : Task} {o : Op} {d : Dst} (late : Option Val) (h : o.act.dst ≠ d) : (t.opEnds o late).regs.at d = t.regs.at d := by
  unfold Task.opEnds
  split
  · rfl
  · rename_i q hq
    extract_lets e u
    have hu : u.regs.at d = t.regs.at d := by
      simp only [u]
      split
      · split
        · rfl
        · exact Regs.at_write_ne h ..
      · rfl
    split
    · exact hu
    · refine Eq.trans ?_ hu
      refine foldl_keeps (fun r : Regs => r.at d) _ _ (fun r x _ => ?_) u.regs
      split
      · exact Regs.at_write_ne h ..
      · rfl

/-- Nor what waits for another. -/
theorem Task.opEnds_held {t : Task} {o : Op} {w : Dst × Val} (late : Option Val) (h : o.act.dst ≠ w.1) (hw : w ∈ t.heldWrites) :
    w ∈ (t.opEnds o late).heldWrites := by
  unfold Task.opEnds
  split
  · exact hw
  · extract_lets d u
    split
    · exact hw
    · exact List.mem_filter.2 ⟨hw, by simpa [d] using h.symm⟩

theorem State.held_finishOp {s : State} {p k : Nat} (o : Op) (late : Option Val) (hk : k < 16) (h : (s.task p k).leaving = .no) :
    ((s.finishOp p k o late).task p k).heldWrites = ((s.task p k).opEnds o late).heldWrites := by
  obtain ⟨x, y, e⟩ := State.finishOp_eq o late h
  rw [e, State.task_setTask, if_pos ⟨rfl, rfl, hk⟩]

/-- The home event of a TAKE that finds no poison changes no register. -/
theorem State.regs_takeEvent {s : State} {k : Nat} {x : TakeRec} (hp : ∀ y ∈ s.takes, x.with y = true → y.done = false → (s.sideAt y.home).poison = false)
    (q j : Nat) : ((s.takeEvent k x).task q j).regs = (s.task q j).regs := by
  have hclear : ∀ (s : State) (y : TakeRec), ((s.clearTake k y).task q j).regs = (s.task q j).regs := by
    intro s y
    have h3 : ∀ (u : State) (f : Plot → Plot), u.task q j = s.task q j → (∀ z, (f z).tasks = z.tasks) → (u.onPlot y.plot f).task q j = s.task q j :=
      fun u f hu hf => (State.task_onPlot u y.plot q j f hf).trans hu
    have hside : ∀ z, ((s.touch y.home y.words).wrSide y.home z).task q j = s.task q j := fun z => State.task_wrSide ..
    unfold State.clearTake
    extract_lets z s1 s2 s3
    have hs3 : s3.task q j = s.task q j := h3 s2 (fun x => { x with near := _ }) (hside _) (fun _ => rfl)
    split
    · rw [State.onTask_keeps Task.regs _ y.plot k q j (Task.missed _) (fun _ => rfl), State.task_bump, hs3]
    · rw [hs3]
  rcases State.takeEvent_cases (k := k) hp with e | ⟨run, e⟩
  · rw [e]
    exact congrArg Task.regs (State.task_onPlot s x.plot q j (fun z => z.setHalf x.half _) (fun z => by cases x.half <;> rfl))
  · rw [e]
    exact foldl_keeps (fun s : State => (s.task q j).regs) _ _ (fun s y _ => hclear s y) s

/-- A commit of a task that stays changes no register of another. -/
theorem State.regs_commit_other {s : State} {cx : Cx} (hs : cx.blk.branch ≠ some .endt ∧ ∀ n, cx.blk.branch ≠ some (.trap n)) (ht : cx.t < 16)
    (hl : (s.task cx.p cx.t).leaving = .no) {q j : Nat} (h : ¬(q = cx.p ∧ j = cx.t)) : ((s.commit cx).task q j).regs = (s.task q j).regs := by
  rw [(State.commit_flagged hs (State.leaving_commitWrites ht hl)).1]
  refine congrArg Prod.fst ((State.fixed_commitShows ..).trans (State.fixed_commitIssues ..)) |>.trans ?_
  refine (State.transfer_task Task.regs_transferKeeps hs (fun _ => trivial) q j).trans ((congrArg Prod.fst (State.fixed_commitEffects ..)).trans ?_)
  change ((s.commitWrites cx).task q j).regs = _
  rw [State.task_commitWrites_other s cx h]

/-- Nor do the ACC forms that perform with it. -/
theorem State.task_commitAcc_other {s : State} {p k : Nat} {b : Block} (hb : ∀ x ∈ b.acts, ∀ a, x.2.kind ≠ .aclr a) (hl : (s.task p k).leaving = .no)
    {q j : Nat} (h : ¬(q = p ∧ j = k)) : (s.commitAcc p k b).task q j = s.task q j := by
  refine State.commitAcc_induct (P := fun u : State => u.task q j = s.task q j) hb hl rfl (fun u o v hu hP _ => ?_)
  obtain ⟨x, y, e⟩ := State.finishOp_eq o (some v) hu
  rw [e, State.task_setTask, if_neg (fun e => h ⟨e.1, e.2.1⟩), hP]

theorem readyToCommit_regs {s t : State} {p : Nat} {h : Bool} {cx : Cx} (hr : s.readyToCommit p h cx t) (q j : Nat) :
    (t.task q j).regs = (s.task q j).regs := by
  rcases hr with ⟨-, -, -, rfl⟩ | ⟨c, x, -, -, -, rfl, -, hp, -⟩
  · rfl
  · exact State.regs_takeEvent hp q j

/-- Settles O7: the block's results are written once, at its commit; the ACC forms that perform then write their own registers alone. -/
theorem commitWritesRegisters : Obligations.CommitWritesRegisters := by
  intro s t p h cx hr hs
  obtain ⟨w, hv, he⟩ := exec_blockCommit hr
  obtain ⟨rfl, -, ht, htask, hleave, -⟩ := readyToCommit_cx hr
  obtain ⟨hendt, htrap, hacc⟩ := hs
  have hwt : w.task cx.p cx.t = cx.task := (task_of_view hv ..).trans htask.symm
  have hc := State.commit_results (s := w) ht ⟨hendt, htrap⟩ (by rw [hwt, hleave])
  have hregs := hc.regs
  have hheld := hc.held
  rw [hwt] at hregs hheld
  have hat : ∀ d, (∀ x ∈ cx.blk.acts, x.2.kind.accTile ≠ none → x.2.dst ≠ d) →
      (((w.commit cx).commitAcc cx.p cx.t cx.blk).task cx.p cx.t).regs.at d = (cx.task.writeRegs cx.blk).regs.at d := by
    intro d hd
    refine State.commitAcc_induct (P := fun u : State => (u.task cx.p cx.t).regs.at d = _) hacc hc.leaving (by rw [hregs]) (fun u q v hl hu hq => ?_)
    obtain ⟨y, hym, hy, hqa⟩ := hq
    rw [(State.task_finishOp q (some v) ht hl).2, Task.opEnds_at _ (hqa ▸ hd y hym hy), hu]
  refine ⟨_, he, fun r hrm v hd hval hf hu hn => ?_, fun d hd hn => ?_, fun q j hqj => ?_⟩
  · obtain ⟨hfree, hpend⟩ := Task.writeRegs_result (t := cx.task) hrm hd hval hf hu
    refine ⟨fun hl => (hat r.dst hn).trans (hfree hl), fun hl => ⟨(hat r.dst hn).trans (Task.writeRegs_at_pending hl cx.blk), fun hno => ?_⟩⟩
    refine State.commitAcc_induct (P := fun u : State => (r.dst, v) ∈ (u.task cx.p cx.t).heldWrites) hacc hc.leaving (hheld _ (hpend hl) hno)
      (fun u q x hl hu hq => ?_)
    obtain ⟨y, hym, -, hqa⟩ := hq
    rw [State.held_finishOp q (some x) ht hl]
    exact Task.opEnds_held _ (hqa ▸ hno y hym) hu
  · exact (hat d hn).trans (Task.writeRegs_at_other hd)
  · rw [State.task_commitAcc_other hacc hc.leaving hqj, State.regs_commit_other ⟨hendt, htrap⟩ ht (by rw [hwt, hleave]) hqj, task_of_view hv]
    exact readyToCommit_regs hr q j

end Sys2Proof.Machine
end


-- ==== Sys2Proof/Proofs/CommitFrame.lean ====
section
/-! PROOFS. What a commit leaves of the state around its task (R67, R68): of everything but the plots, and of a plot what its tasks, its rills, its field
units, its semaphores and its counters are not. -/

namespace Sys2Proof.Machine

open Sys2Proof

/-! ## Around the tasks, rills, units, semaphores and counters -/

/-- A function of plots that depends on none of the parts that a commit works on. -/
structure Plot.Ignores {γ : Type} (g : Plot → γ) : Prop where
  tasks : ∀ x t, g { x with tasks := t } = g x
  perf : ∀ x a b c, g { x with perf := a, perfCyc := b, perfNew := c } = g x
  pmsel : ∀ x a, g { x with pmsel := a } = g x
  sems : ∀ x a b, g { x with sems := a, semNew := b } = g x
  near : ∀ x a, g { x with near := a } = g x
  rills : ∀ x a, g { x with rills := a } = g x
  fu : ∀ x a, g { x with fu := a } = g x

/-- What the steward's map says of a plot, and the launch that holds it. -/
abbrev Placed := (PStat × BitVec 16 × BitVec 4 × BitVec 16 × BitVec 16 × Bool) × Option (BitVec 32 × Nat)

def Plot.placed (x : Plot) : Placed := (x.mapped, x.owner)

/-- The execution window of a plot. -/
def Plot.window (x : Plot) : Half × Half := (x.h0, x.h1)

theorem Plot.placed_ignores : Plot.Ignores Plot.placed :=
  ⟨fun _ _ => rfl, fun _ _ _ _ => rfl, fun _ _ => rfl, fun _ _ _ => rfl, fun _ _ => rfl, fun _ _ => rfl, fun _ _ => rfl⟩

theorem Plot.window_ignores : Plot.Ignores Plot.window :=
  ⟨fun _ _ => rfl, fun _ _ _ _ => rfl, fun _ _ => rfl, fun _ _ _ => rfl, fun _ _ => rfl, fun _ _ => rfl, fun _ _ => rfl⟩

/-- The state without its plots, its engine commands, the counts that issuing them advances, and the dies' queues of seq operations. -/
def State.outer (s : State) : State × (Nat → Die) :=
  ({ s with plots := [], uid := 0, cmds := [], dies := [], mod := { s.mod with colCount := [] } }, fun d => { s.die d with serial := 0, seqQ := [] })

/-- That, with what a function gives of every plot. -/
def State.around {γ : Type} (g : Plot → γ) (s : State) : (State × (Nat → Die)) × (Nat → γ) := (s.outer, fun q => g (s.plot q))

section Around

variable {γ : Type} {g : Plot → γ}

theorem State.around_onPlot (s : State) (p : Nat) {f : Plot → Plot} (h : ∀ x, g (f x) = g x) : (s.onPlot p f).around g = s.around g :=
  Prod.ext rfl (funext (fun q => State.onPlot_keeps g s p q h))

variable (hg : Plot.Ignores g)
include hg

theorem State.around_setTask (s : State) (p k : Nat) (t : Task) : (s.setTask p k t).around g = s.around g :=
  State.around_onPlot s p (fun x => hg.tasks x _)

theorem State.around_onTask (s : State) (p k : Nat) (f : Task → Task) : (s.onTask p k f).around g = s.around g := State.around_setTask hg ..

theorem State.around_bump (s : State) (p i n : Nat) : (s.bump p i n).around g = s.around g := by
  unfold State.bump
  split
  · exact State.around_onPlot s p (fun x => hg.perf x _ _ _)
  · rfl

theorem State.around_ready (s : State) (p k : Nat) : (s.ready p k).around g = s.around g :=
  State.around_onTask hg s p k (fun t => { t.queued (s.cycOf p) s.uid with st := .ready, wait := .none })

theorem State.around_wakePlot (s : State) (p : Nat) (f : WaitFor → Bool) : (s.wakePlot p f).around g = s.around g := by
  refine foldl_keeps (State.around g) _ _ (fun s k _ => ?_) s
  dsimp only
  split
  · rfl
  · split
    · exact State.around_ready hg ..
    · split
      · exact State.around_setTask hg ..
      · rfl

theorem State.around_setRill (s : State) (p e : Nat) (r : Rill) : (s.setRill p e r).around g = s.around g :=
  State.around_onPlot s p (fun x => hg.rills x _)

theorem State.around_onRill (s : State) (p e : Nat) (f : Rill → Rill) : (s.onRill p e f).around g = s.around g := State.around_setRill hg ..

theorem State.around_onFu (s : State) (p : Nat) (f : FUnit → FUnit) : (s.onFu p f).around g = s.around g := State.around_onPlot s p (fun x => hg.fu x _)

theorem State.around_giveBack (s : State) (p e : Nat) (b : Bool) (n : Nat) : (s.giveBack p e b n).around g = s.around g := by
  unfold State.giveBack
  split
  · rfl
  · split
    · exact State.around_onRill hg ..
    · rfl

theorem State.around_absorb (s : State) (p e : Nat) : (s.absorb p e).around g = s.around g := by
  unfold State.absorb
  dsimp only
  split
  · rfl
  · split
    · rfl
    · rw [State.around_giveBack hg, State.around_setRill hg]

theorem State.around_popRill (s : State) (p e : Nat) : (s.popRill p e).around g = s.around g := by
  unfold State.popRill
  dsimp only
  split
  · rfl
  · rw [State.around_bump hg, State.around_absorb hg]
    split
    · rw [State.around_setRill hg]
    · rw [State.around_giveBack hg, State.around_setRill hg]

theorem State.around_pops (s : State) (p : Nat) (b : Block) : (s.pops p b).around g = s.around g := by
  refine foldl_keeps (State.around g) _ _ (fun s r _ => ?_) s
  split
  · exact State.around_popRill hg ..
  · exact (State.around_bump hg ..).trans (State.around_onRill hg ..)
  · exact (State.around_bump hg ..).trans (State.around_onFu hg ..)
  · rfl

/-- An effect of the commit point but a send changes nothing around. -/
theorem State.around_applyAct (s : State) (p : Nat) {a : CAct} (ha : ∀ q f w, a.kind ≠ .chs q f w) : (s.applyAct p a).around g = s.around g := by
  unfold State.applyAct
  split
  · rename_i q f w e
    exact absurd e (ha q f w)
  · exact State.around_onRill hg ..
  · exact (State.around_giveBack hg ..).trans (State.around_onRill hg ..)
  · unfold State.roomWake
    split
    · exact (State.around_wakePlot hg ..).trans (State.around_onRill hg ..)
    · exact State.around_onRill hg ..
  · split
    · rfl
    · exact State.around_onTask hg ..
  · split
    · rfl
    · exact State.around_onFu hg ..
  · rfl

theorem State.around_wrs (s : State) (p k n : Nat) (a : BitVec 64) : (s.wrs p k n a).around g = s.around g := by
  unfold State.wrs
  split
  · exact State.around_onPlot s p (fun x => hg.pmsel x _)
  · refine State.around_onPlot s p (fun x => ?_)
    split
    · exact hg.perf x _ x.perfCyc x.perfNew
    · rfl
  · exact State.around_onTask hg ..
  · exact State.around_onTask hg ..
  · exact State.around_onTask hg ..

theorem State.around_commitEffects (s : State) {cx : Cx} (ha : ∀ x ∈ cx.blk.acts, ∀ q f w, x.2.kind ≠ .chs q f w) :
    (s.commitEffects cx).around g = s.around g := by
  unfold State.commitEffects
  rw [State.around_bump hg, State.around_bump hg, State.around_bump hg]
  exact (foldl_keeps (State.around g) _ _ (fun s x hx => State.around_applyAct hg s cx.p (ha x hx)) _).trans (State.around_pops hg ..)

theorem State.around_transfer {s : State} {cx : Cx} (hs : cx.blk.branch ≠ some .endt ∧ ∀ n, cx.blk.branch ≠ some (.trap n)) :
    (s.transfer cx).around g = s.around g :=
  State.transfer_keeps (State.around g) hs (fun s => State.around_ready hg s ..) (fun s => State.around_onTask hg s ..) (fun s _ => State.around_onTask hg s ..)
    (fun s _ => State.around_onTask hg s ..) (fun _ s _ => State.around_onTask hg s ..) (fun _ _ s => State.around_onTask hg s ..)

theorem State.around_issueCmd (s : State) (cx : Cx) (a : CAct) (o : Op) : (s.issueCmd cx a o).around g = s.around g := by
  unfold State.issueCmd
  split
  · rfl
  · extract_lets die d h t name k s1 s2 grp c
    have h1 : s1.around g = s.around g := by
      refine Prod.ext (Prod.ext rfl (funext (fun e => ?_))) rfl
      change ({ s1.die e with serial := 0, seqQ := [] } : Die) = { s.die e with serial := 0, seqQ := [] }
      simp only [s1]
      rw [State.die_setDie]
      split
      · rename_i he
        rw [he]
      · rfl
    have h2 : s2.around g = s1.around g := by
      simp only [s2]
      split <;> rfl
    rw [State.around_bump hg, State.around_onTask hg, ← h1, ← h2]
    rfl

theorem State.around_issue (s : State) (cx : Cx) (k : Nat) (a : CAct) : (s.issue cx k a).around g = s.around g := by
  unfold State.issue
  extract_lets t acq o s1 s2 s3
  have h1 : s1.around g = s.around g := State.around_setTask hg { s with uid := s.uid + 1 } cx.p cx.t _
  have h2 : s2.around g = s1.around g := by
    simp only [s2]
    split
    · exact State.around_bump hg ..
    · rfl
  have h3 : s3.around g = s2.around g := by
    simp only [s3]
    split
    · exact State.around_bump hg ..
    · rfl
  rw [← h1, ← h2, ← h3]
  split
  · exact State.around_issueCmd hg ..
  · rfl

theorem State.around_commitShows (s : State) (cx : Cx) : (s.commitShows cx).around g = s.around g := by
  unfold State.commitShows State.showTask
  rw [State.around_onTask hg]
  split
  · rfl
  · exact State.around_onTask hg ..

end Around

/-! ## The other half's block discarded -/

/-- A task in a plot of which one half is free is in the other. -/
theorem Plot.halfOf_other {x : Plot} {k : Nat} {half h : Bool} (hx : x.half half = {}) (hk : x.halfOf k = some h) : h = !half := by
  have hne : h ≠ half := by
    rintro rfl
    unfold Plot.halfOf at hk
    cases h with
    | false =>
      rw [show x.h0 = {} from hx, if_neg (by simp)] at hk
      split at hk <;> cases hk
    | true =>
      rw [show x.h1 = {} from hx] at hk
      split at hk
      · cases hk
      · simp at hk
  cases h <;> cases half <;> simp_all

section Dropped

variable {γ : Type} {g : Plot → γ} (hg : Plot.Ignores g) (hh : ∀ x h y, g (Plot.setHalf x h y) = g x)
include hg hh

omit hg in
theorem State.around_setHalf (s : State) (p : Nat) (h : Bool) (y : Half) : (s.setHalf p h y).around g = s.around g :=
  State.around_onPlot s p (fun x => hh x h y)

/-- A block that has taken nothing goes without a trace around it. -/
theorem State.around_dropBlock {s : State} {p k : Nat} (ht : ∀ h, (s.plot p).halfOf k = some h → s.taking p h = false) :
    (s.dropBlock p k).around g = s.around g := by
  cases hk : (s.plot p).halfOf k with
  | none =>
    unfold State.dropBlock
    rw [hk]
  | some h =>
    have hnone : s.takes.filter (fun x => !x.of p h) = s.takes :=
      List.filter_eq_self.2 (fun x hx => by simpa using List.any_eq_false.1 (ht h hk) x hx)
    rw [State.dropBlock_untaken hk (ht h hk), hnone, State.around_setHalf hh]
    split
    · have hb := State.around_bump hg s p 2 1
      rw [← hb]
      have htakes : s.takes = (s.bump p 2 1).takes := (State.bump_takes ..).symm
      rw [htakes]
    · rfl

omit hg hh in
theorem State.around_withdraw (s : State) (p k : Nat) : (s.withdraw p k).around g = s.around g := by
  refine Prod.ext (Prod.ext rfl (funext (fun d => ?_))) rfl
  have hd := SMap.get_map s.dies (fun _ x => { x with seqQ := x.seqQ.filter (fun r => !(r.plot == p && r.task == k && r.serial.isNone)) }) d {} rfl
  exact congrArg (fun x : Die => { x with serial := 0, seqQ := [] }) hd

theorem State.around_reexec {s : State} {p k : Nat} (ht : ∀ h, (s.plot p).halfOf k = some h → s.taking p h = false) :
    (s.reexec p k).around g = s.around g := by
  unfold State.reexec
  rw [State.around_ready hg, State.around_withdraw, State.around_dropBlock hg hh ht]

/-- The other half's block, which a commit discards, has taken nothing. -/
theorem State.around_abortOther {s : State} {p own : Nat} {half : Bool} (b : Block) (hhalf : (s.plot p).half half = {}) (ht : s.taking p (!half) = false) :
    (s.abortOther p own half b).around g = s.around g := by
  unfold State.abortOther
  dsimp only
  split
  · split
    · refine State.around_reexec hg hh (fun h hk => ?_)
      rwa [Plot.halfOf_other hhalf hk]
    · rfl
  · rfl

end Dropped

theorem Plot.placed_setHalf (x : Plot) (h : Bool) (y : Half) : (x.setHalf h y).placed = x.placed := by
  cases h <;> rfl

/-! ## The commit of a task that stays -/

section Staying

variable {γ : Type} {g : Plot → γ} {s : State} {cx : Cx} (hg : Plot.Ignores g) (hs : cx.blk.branch ≠ some .endt ∧ ∀ n, cx.blk.branch ≠ some (.trap n))
  (ha : ∀ x ∈ cx.blk.acts, ∀ q f w, x.2.kind ≠ .chs q f w)
include hg

theorem State.around_commitWrites (s : State) (cx : Cx) : (s.commitWrites cx).around g = (s.setHalf cx.p cx.half {}).around g := by
  unfold State.commitWrites
  rw [State.around_onTask hg]
  refine (foldl_keeps (State.around g) _ _ (fun s x _ => ?_) _).trans (State.around_onTask hg ..)
  split
  · exact State.around_wrs hg ..
  · rfl

theorem State.around_issues (s : State) (cx : Cx) :
    ((cx.blk.acts.foldl (fun s x => if x.2.kind.immediate then s else s.issue cx x.1 x.2) s).onTask cx.p cx.t Task.haltDeps).around g = s.around g := by
  rw [State.around_onTask hg]
  refine foldl_keeps (State.around g) _ _ (fun s x _ => ?_) s
  split
  · rfl
  · exact State.around_issue hg ..

include hs ha

/-- Up to the other half's block, a commit changes of what is around its half alone. -/
theorem State.around_toIssues : ((cx.blk.acts.foldl (fun s x => if x.2.kind.immediate then s else s.issue cx x.1 x.2)
    (((s.commitWrites cx).commitEffects cx).transfer cx)).onTask cx.p cx.t Task.haltDeps).around g = (s.setHalf cx.p cx.half {}).around g := by
  rw [State.around_issues hg, State.around_transfer hg hs, State.around_commitEffects hg _ ha, State.around_commitWrites hg]

variable (hh : ∀ x h y, g (Plot.setHalf x h y) = g x) (hno : s.taking cx.p (!cx.half) = false)
include hh hno

theorem State.around_commitIssues : ((((s.commitWrites cx).commitEffects cx).transfer cx).commitIssues cx).around g = s.around g := by
  have hw := State.around_toIssues (s := s) Plot.window_ignores hs ha
  unfold State.commitIssues
  rw [State.around_abortOther hg hh, State.around_toIssues hg hs ha, State.around_setHalf hh]
  · have h : _ = ((s.setHalf cx.p cx.half {}).plot cx.p).window := congrFun (congrArg Prod.snd hw) cx.p
    have hz := half_setHalf s cx.p cx.half {}
    generalize ((s.setHalf cx.p cx.half {}).plot cx.p) = x at h hz
    rw [← hz]
    cases cx.half
    · exact congrArg Prod.fst h
    · exact congrArg Prod.snd h
  · rw [← hno]
    exact congrArg (fun v => v.1.1.takes.any (fun x : TakeRec => x.of cx.p (!cx.half))) hw

end Staying

/-! ## Before the commit: the home event of a TAKE -/

/-- What is around the tasks, but for the sidebands and the TAKEs under way. -/
def State.beside (s : State) : State × (Nat → Die) × (Nat → Placed) :=
  ({ s.outer.1 with side := [], takes := [] }, s.outer.2, fun q => (s.plot q).placed)

theorem beside_of_around {s u : State} (h : s.around Plot.placed = u.around Plot.placed) : s.beside = u.beside :=
  congrArg (fun v : (State × (Nat → Die)) × (Nat → Placed) => (({ v.1.1 with side := [], takes := [] } : State), v.1.2, v.2)) h

theorem State.beside_setSide (s : State) (a : Nat) (x : Side) : (s.setSide a x).beside = s.beside := by
  unfold State.setSide
  split <;> rfl

theorem State.beside_wrSide (s : State) (a : Nat) (x : Side) : (s.wrSide a x).beside = s.beside := by
  unfold State.wrSide
  split
  · rw [State.beside_setSide, State.beside_setSide]
  · rw [State.beside_setSide]

theorem State.beside_clearTake (s : State) (k : Nat) (x : TakeRec) : (s.clearTake k x).beside = s.beside := by
  unfold State.clearTake
  extract_lets y s1 s2 s3
  have h1 : s1.beside = s.beside := State.beside_wrSide (s.touch x.home x.words) ..
  have h3 : s3.beside = s1.beside := beside_of_around (State.around_onPlot s2 x.plot (fun z => Plot.placed_ignores.near z _)) |>.trans rfl
  rw [← h1, ← h3]
  split
  · exact beside_of_around ((State.around_onTask Plot.placed_ignores ..).trans (State.around_bump Plot.placed_ignores ..))
  · rfl

theorem State.beside_takeEvent {s : State} {k : Nat} {x : TakeRec}
    (hp : ∀ y ∈ s.takes, x.with y = true → y.done = false → (s.sideAt y.home).poison = false) : (s.takeEvent k x).beside = s.beside := by
  rcases State.takeEvent_cases (k := k) hp with e | ⟨run, e⟩
  · rw [e]
    exact beside_of_around (State.around_onPlot s x.plot (fun z => Plot.placed_setHalf z ..))
  · rw [e]
    exact foldl_keeps State.beside _ _ (fun s y _ => State.beside_clearTake s k y) s

/-- A state whose counts of collectives are not told. -/
def State.uncounted (s : State) : State := { s with mod := { s.mod with colCount := [] } }

theorem State.stewardNow_uncounted (s : State) (off : Nat) : s.uncounted.stewardNow off = s.stewardNow off := by
  have hh : ∀ i, s.uncounted.mapHeader i = s.mapHeader i := fun _ => rfl
  have he : ∀ p i, s.uncounted.mapEntry p i = s.mapEntry p i := fun _ _ => rfl
  simp only [State.stewardNow, hh, he]
  rfl

theorem State.rdByte_uncounted (s : State) (a : Nat) : s.uncounted.rdByte a = s.rdByte a := by
  have hw : ∀ off, s.uncounted.stewardWord off = s.stewardWord off := fun off => by
    simp only [State.stewardWord, State.stewardNow_uncounted]
    rfl
  simp only [State.rdByte, hw]
  rfl

/-- The bytes of memory are what is beside the tasks. -/
theorem rdByte_of_beside {s u : State} (h : s.beside = u.beside) (a : Nat) : s.rdByte a = u.rdByte a := by
  have hm : s.uncounted.mem = u.uncounted.mem := congrArg (fun v : State × (Nat → Die) × (Nat → Placed) => v.1.mem) h
  have hmod : s.uncounted.mod = u.uncounted.mod := congrArg (fun v : State × (Nat → Die) × (Nat → Placed) => v.1.mod) h
  have hp : ∀ q, (s.uncounted.plot q).mapped = (u.uncounted.plot q).mapped := fun q =>
    congrArg (fun v : State × (Nat → Die) × (Nat → Placed) => (v.2.2 q).1) h
  rw [← State.rdByte_uncounted s, ← State.rdByte_uncounted u, rdByte_eq hm hmod hp]

theorem sameMemory_of_around {s u : State} (h : u.around Plot.placed = s.around Plot.placed) : SameMemory s u := by
  refine ⟨rdByte_of_beside (beside_of_around h), fun a => ?_⟩
  have hside : u.side = s.side := congrArg (fun v => v.1.1.side) h
  simp only [State.sideAt, hside]

theorem State.taking_setSide (s : State) (a : Nat) (x : Side) (p : Nat) (h : Bool) : (s.setSide a x).taking p h = s.taking p h := by
  unfold State.taking
  rw [State.setSide_takes]

/-- A change of the records of TAKEs under way that keeps whose they are keeps who is taking. -/
theorem taking_of_map {s u : State} {f : TakeRec → TakeRec} (hf : ∀ x p h, (f x).of p h = x.of p h) (hu : u.takes = s.takes.map f) (p : Nat) (h : Bool) :
    u.taking p h = s.taking p h := by
  unfold State.taking
  rw [hu, List.any_map]
  exact congrArg s.takes.any (funext (fun x => hf x p h))

theorem State.taking_clearTake (s : State) (k : Nat) (x : TakeRec) (p : Nat) (h : Bool) : (s.clearTake k x).taking p h = s.taking p h := by
  unfold State.clearTake
  extract_lets y s1 s2 s3
  have h1 : s1.taking p h = s.taking p h := by
    have ht : (s.touch x.home x.words).taking p h = s.taking p h := taking_of_map (s := s) (fun z _ _ => by split <;> rfl) rfl p h
    rw [← ht]
    simp only [s1]
    unfold State.wrSide
    split
    · rw [State.taking_setSide, State.taking_setSide]
    · rw [State.taking_setSide]
  have h3 : s3.taking p h = s1.taking p h := taking_of_map (s := s1) (fun z _ _ => by split <;> rfl) rfl p h
  rw [← h1, ← h3]
  split
  · exact congrArg (fun l : List TakeRec => l.any (fun x => x.of p h)) (State.bump_takes s3 ..)
  · rfl

theorem State.taking_takeEvent {s : State} {k : Nat} {x : TakeRec}
    (hp : ∀ y ∈ s.takes, x.with y = true → y.done = false → (s.sideAt y.home).poison = false) (p : Nat) (h : Bool) :
    (s.takeEvent k x).taking p h = s.taking p h := by
  rcases State.takeEvent_cases (k := k) hp with e | ⟨run, e⟩
  · rw [e]
    rfl
  · rw [e]
    exact foldl_keeps (fun s : State => s.taking p h) _ _ (fun s y _ => State.taking_clearTake s k y p h) s

/-! ## The block that is ready -/

/-- While a block may commit, the other half of its window empties no words. -/
theorem readyToCommit_alone {s t : State} {p : Nat} {h : Bool} {cx : Cx} (hr : s.readyToCommit p h cx t) : t.taking p (!h) = false := by
  have key : ∀ {c : Cx}, s.mayCommit p h c → s.taking p (!h) = false := fun hm => (Bool.or_eq_false_iff.1 hm.2.2.1).1
  rcases hr with ⟨hm, -, -, rfl⟩ | ⟨c, x, hm, -, -, rfl, -, hp, -⟩
  · exact key hm
  · rw [State.taking_takeEvent hp, key hm]

theorem readyToCommit_beside {s t : State} {p : Nat} {h : Bool} {cx : Cx} (hr : s.readyToCommit p h cx t) : t.beside = s.beside := by
  rcases hr with ⟨-, -, -, rfl⟩ | ⟨c, x, -, -, -, rfl, -, hp, -⟩
  · rfl
  · exact State.beside_takeEvent hp

/-- Nothing around the tasks changes up to the commit, but the records of the block's own TAKEs go. -/
theorem State.around_taken {γ : Type} {g : Plot → γ} (hg : Plot.Ignores g) (t : State) (cx : Cx) :
    (t.taken cx).around g = State.around g { t with takes := t.takes.filter (fun x => !x.of cx.p cx.half) } := by
  refine foldl_keeps (State.around g) _ _ (fun s r _ => ?_) _
  split
  · exact State.around_onPlot s cx.p (fun x => hg.sems x _ _)
  · rfl

/-- A block that is ready commits, from a state in which what is around the tasks is as it was. -/
theorem exec_blockCommit_around {s t : State} {p : Nat} {h : Bool} {cx : Cx} (hr : s.readyToCommit p h cx t) :
    ∃ w : State, w.view = t.view ∧ exec (.blockCommit p h) s = .next ((w.commit cx).commitAcc cx.p cx.t cx.blk) ∧
      w.around Plot.placed = State.around Plot.placed { t with takes := t.takes.filter (fun x => !x.of cx.p cx.half) } := by
  have htake : ∀ u : State, u.around Plot.placed = t.around Plot.placed →
      (u.taken cx).around Plot.placed = State.around Plot.placed { t with takes := t.takes.filter (fun x => !x.of cx.p cx.half) } := by
    intro u hu
    rw [State.around_taken Plot.placed_ignores]
    exact congrArg (fun v : (State × (Nat → Die)) × (Nat → Placed) =>
      (({ v.1.1 with takes := v.1.1.takes.filter (fun x => !x.of cx.p cx.half) }, v.1.2), v.2)) hu
  obtain ⟨rfl, rfl, -, htask, -⟩ := readyToCommit_cx hr
  have hcx : ∀ u : State, u.view = t.view → { cx with task := (u.taken cx).task cx.p cx.t } = cx := by
    intro u hu
    rw [task_of_view ((State.view_taken u cx).trans hu), ← htask]
  rcases hr with ⟨hm, hk, htr, rfl⟩ | ⟨c, x, hm, hn, hx, rfl, ht, -, hf, hn2, hs⟩
  · obtain ⟨hv, hsems, htakes⟩ := State.keepHomes_kept t cx
    have hnext : (t.keepHomes cx).nextTake cx.p cx.half = none := by
      unfold State.nextTake
      rw [htakes]
      exact State.nextTake_none hk.1
    refine ⟨_, (State.view_taken (t.keepHomes cx) cx).trans hv, ?_, htake _ ?_⟩
    · rw [exec_blockCommit_checked hm hk htr, State.takeOn_none hnext, State.pass_covered (hsems.trans hk.2.2.2.2), hcx _ hv]
    · rcases State.keepHomes_eq t cx with e | ⟨y, e⟩
      · rw [e]
      · rw [e, State.around_setHalf Plot.placed_setHalf]
  · obtain ⟨c1, c2, -⟩ := State.blockCx_eq hm.1
    refine ⟨_, State.view_taken (s.takeEvent c.t x) cx, ?_, htake _ rfl⟩
    rw [exec_blockCommit_taking hm (State.taking_of_nextTake hn), State.takeOn_some (by rwa [c1, c2]) hx,
      State.takeStep_last (by rwa [c1, c2]) hf (by rwa [c1, c2]), State.pass_covered hs, hcx _ rfl]

end Sys2Proof.Machine
end


-- ==== Sys2Proof/Proofs/CommitChecks.lean ====
section
/-! PROOFS. A commit leaves memory as it is (R68), and a block that fails a check of its commit takes that fault (R68, R110, R118, R175, R298, R302). -/

namespace Sys2Proof.Machine

open Sys2Proof

/-! ## Memory -/

/-- A commit of a task that stays and sends nothing changes nothing around the tasks. -/
theorem State.around_commit {s : State} {cx : Cx} (ht : cx.t < 16) (hs : cx.blk.branch ≠ some .endt ∧ ∀ n, cx.blk.branch ≠ some (.trap n))
    (hl : (s.task cx.p cx.t).leaving = .no) (ha : ∀ x ∈ cx.blk.acts, ∀ q f w, x.2.kind ≠ .chs q f w) (hno : s.taking cx.p (!cx.half) = false) :
    (s.commit cx).around Plot.placed = s.around Plot.placed := by
  rw [(State.commit_flagged hs (State.leaving_commitWrites ht hl)).1, State.around_commitShows Plot.placed_ignores]
  exact State.around_commitIssues Plot.placed_ignores hs ha Plot.placed_setHalf hno

theorem State.around_commitAcc {s : State} {p k : Nat} {b : Block} (hb : ∀ x ∈ b.acts, ∀ a, x.2.kind ≠ .aclr a) (hl : (s.task p k).leaving = .no) :
    (s.commitAcc p k b).around Plot.placed = s.around Plot.placed := by
  refine State.commitAcc_induct (P := fun u : State => u.around Plot.placed = s.around Plot.placed) hb hl rfl (fun u o v hu hP _ => ?_)
  obtain ⟨x, y, e⟩ := State.finishOp_eq o (some v) hu
  rw [e, State.around_setTask Plot.placed_ignores, hP]

/-- What is around the tasks is after such a commit as it was before, but for the records of the block's own TAKEs. -/
theorem commit_leaves_around {s t : State} {p : Nat} {h : Bool} {cx : Cx} (hr : s.readyToCommit p h cx t) (hs : cx.blk.stays)
    (ha : ∀ x ∈ cx.blk.acts, ∀ q f w, x.2.kind ≠ .chs q f w) : ∃ u, exec (.blockCommit p h) s = .next u ∧
      u.around Plot.placed = State.around Plot.placed { t with takes := t.takes.filter (fun x => !x.of cx.p cx.half) } := by
  obtain ⟨w, hv, he, hw⟩ := exec_blockCommit_around hr
  have halone := readyToCommit_alone hr
  obtain ⟨rfl, rfl, ht, htask, hleave, -⟩ := readyToCommit_cx hr
  obtain ⟨hendt, htrap, hacc⟩ := hs
  have hl : (w.task cx.p cx.t).leaving = .no := by rw [task_of_view hv, ← htask, hleave]
  refine ⟨_, he, ?_⟩
  rw [State.around_commitAcc hacc (State.commit_results ht ⟨hendt, htrap⟩ hl).leaving, State.around_commit ht ⟨hendt, htrap⟩ hl ha, hw]
  have htakes : w.takes = t.takes.filter (fun x => !x.of cx.p cx.half) := congrArg (fun v => v.1.1.takes) hw
  unfold State.taking at halone ⊢
  rw [htakes, List.any_eq_false]
  exact fun x hx => List.any_eq_false.1 halone x (List.mem_filter.1 hx).1

/-! ## Checks -/

/-- The checks of one executed slot (R68). -/
def State.slotCheck (s : State) (cx : Cx) (r : SlotRec) (k : Nat) : Chk :=
  (match r.act with
    | some a => s.actCheck { cx with k := k, sr := r } a
    | none => .ok).then (match r.br with
    | some b => s.brCheck { cx with k := k, sr := r } b
    | none => .ok)

theorem State.blockCheck_cons (s : State) (cx : Cx) {r : SlotRec} (hr : r.st = .done) (rs : List SlotRec) (k : Nat) :
    s.blockCheck cx (r :: rs) k = match s.slotCheck cx r k with
      | .ok => s.blockCheck cx rs (k + 1)
      | .bad e => .bad { e with slot := k }
      | .wait => .wait := by
  rw [State.blockCheck, hr]
  rfl

/-- The lowest slot that fails a check decides. -/
theorem State.blockCheck_append (s : State) (cx : Cx) (as bs : List SlotRec) (n : Nat) (h : s.blockCheck cx as n = .ok) :
    s.blockCheck cx (as ++ bs) n = s.blockCheck cx bs (n + as.length) := by
  induction as generalizing n with
  | nil => rfl
  | cons r rs ih =>
    rw [List.cons_append, State.blockCheck] at *
    split at h
    · rw [ih (n + 1) h, List.length_cons]
      congr 1
      omega
    · cases h
    · cases h

section Refused

variable {s : State} {p : Nat} {h : Bool} {cx : Cx} {k : Nat} {r : SlotRec} (hm : s.mayCommit p h cx) (ht : s.taking p h = false)
  (hk : cx.blk.slots[k]? = some r) (hd : r.st = .done) (hb : s.blockCheck cx (cx.blk.slots.take k) 0 = .ok)
include hm ht hk hd hb

omit hm ht in
theorem State.blockCheck_at : s.blockCheck cx cx.blk.slots 0 = match s.slotCheck cx r k with
    | .ok => s.blockCheck cx (cx.blk.slots.drop (k + 1)) (k + 1)
    | .bad e => .bad { e with slot := k }
    | .wait => .wait := by
  obtain ⟨hlt, hget⟩ := List.getElem?_eq_some_iff.1 hk
  have hsplit : cx.blk.slots = cx.blk.slots.take k ++ r :: cx.blk.slots.drop (k + 1) := by
    rw [← hget, List.cons_getElem_drop_succ, List.take_append_drop]
  have hlen : (cx.blk.slots.take k).length = k := by rw [List.length_take, Nat.min_eq_left (Nat.le_of_lt hlt)]
  conv_lhs => rw [hsplit, State.blockCheck_append s cx _ _ 0 hb, hlen, Nat.zero_add]
  exact State.blockCheck_cons s cx hd _ k

theorem exec_blockCommit_bad {c : CauseRec} (hc : s.slotCheck cx r k = .bad c) :
    exec (.blockCommit p h) s = .next (s.takeException p cx.t { c with slot := k } cx.blk.bpc) := by
  have hbad := State.blockCheck_at hk hd hb
  rw [hc] at hbad
  obtain ⟨hcx, he, hg, hf⟩ := hm
  change execBlockCommit p h s = _
  simp only [execBlockCommit, hcx, he, hg, hf, ht, hbad, Bool.not_true, Bool.or_self, Bool.false_eq_true, if_false]

theorem exec_blockCommit_wait (hc : s.slotCheck cx r k = .wait) : exec (.blockCommit p h) s = .next s := by
  have hwait := State.blockCheck_at hk hd hb
  rw [hc] at hwait
  obtain ⟨hcx, he, hg, hf⟩ := hm
  change execBlockCommit p h s = _
  simp only [execBlockCommit, hcx, he, hg, hf, ht, hwait, Bool.not_true, Bool.or_self, Bool.false_eq_true, if_false]

end Refused

theorem State.slotCheck_bad {s : State} {cx : Cx} {r : SlotRec} {k : Nat} {a : CAct} {c : CauseRec} (ha : r.act = some a)
    (hc : s.actCheck { cx with k := k, sr := r } a = .bad c) : s.slotCheck cx r k = .bad c := by
  unfold State.slotCheck
  rw [ha]
  dsimp only
  rw [hc]
  rfl

theorem State.slotCheck_wait {s : State} {cx : Cx} {r : SlotRec} {k : Nat} {a : CAct} (ha : r.act = some a)
    (hc : s.actCheck { cx with k := k, sr := r } a = .wait) : s.slotCheck cx r k = .wait := by
  unfold State.slotCheck
  rw [ha]
  dsimp only
  rw [hc]
  rfl

theorem State.slotCheck_br {s : State} {cx : Cx} {r : SlotRec} {k : Nat} {b : Br} (ha : r.act = none) (hb : r.br = some b) :
    s.slotCheck cx r k = s.brCheck { cx with k := k, sr := r } b := by
  unfold State.slotCheck
  rw [ha, hb]
  rfl

/-- The access of a load, store, AMO, CAS or CST whose checks are those of its commit: offset, length, alignment, rights, and whether it meets sidebands. -/
def CAct.access? (a : CAct) : Option (BitVec 64 × Nat × Nat × BitVec 8 × Bool) :=
  match a.kind with
  | .store n mode al _ => some (a.off, n, al, storeRights mode, mode != .plain)
  | .take n al => some (a.off, n, al, rR ||| rT, true)
  | .amo _ n _ => some (0, n, n, rR ||| rW ||| rA, true)
  | .cas n _ _ => some (0, n, n, rR ||| rW ||| rA, true)
  | .cst _ => some (a.off, 32, 32, rW ||| rC, true)
  | _ => none

theorem State.actCheck_access {s : State} {cx : Cx} {a : CAct} {off : BitVec 64} {n al : Nat} {need : BitVec 8} {side : Bool}
    (h : a.access? = some (off, n, al, need, side)) : s.actCheck cx a =
      (s.access (dieOf cx.p) cx.task.priv a.ptr off n al need side (a.mx.any (fun m => m.scope == .seq))).chk := by
  have hseq : a.mx.any (fun m => m.scope == .seq) = match a.mx with
      | some m => m.scope == .seq
      | none => false := by
    cases a.mx <;> rfl
  unfold CAct.access? at h
  unfold State.actCheck
  split at h
  iterate 5
    · rename_i hk
      cases h
      rw [hk, hseq] <;> rfl
  cases h

theorem storeRights_eq (m : StMode) : storeRights m = if m = .plain then rW else rW ||| rF := by
  cases m <;> rfl

/-- A CSAVE or CREST of scope seq is SCSPAN; else its frame's access decides. -/
theorem State.actCheck_frame {s : State} {cx : Cx} {a : CAct} {y : BitVec 64} {need : BitVec 8}
    (h : a.kind = .csave y ∧ need = rW ∨ a.kind = .crest y ∧ need = rR) : s.actCheck cx a =
      if a.mx.any (fun m => m.scope == .seq) then .bad { cause := .scspan }
      else (s.access (dieOf cx.p) cx.task.priv a.ptr 0 4096 256 need false false).chk := by
  have hseq : a.mx.any (fun m => m.scope == .seq) = match a.mx with
      | some m => m.scope == .seq
      | none => false := by
    cases a.mx <;> rfl
  unfold State.actCheck
  rcases h with ⟨hk, rfl⟩ | ⟨hk, rfl⟩
  all_goals
    rw [hk, hseq] <;> rfl

theorem rillBad_eq (port : BitVec 64) (code : Nat) :
    rillBad port code = .bad { cause := .rill, info := BitVec.ofNat 64 (code * 256 + port.toNat % 256) } := by
  have h : (port.extractLsb' 0 8).toNat = port.toNat % 256 := by simp
  unfold rillBad
  rw [h]

/-- What a check that finds a fault leads to. -/
def Chk.leads (f : CauseRec → Prop) (x : Chk) : Prop :=
  match x with
  | .bad c => f c
  | _ => True

theorem Chk.leads_ite (f : CauseRec → Prop) (c : Prop) [Decidable c] (a b : Chk) :
    (if c then a else b).leads f = if c then a.leads f else b.leads f := apply_ite (Chk.leads f) c a b

theorem Chk.leads_rillBad (f : CauseRec → Prop) (port : BitVec 64) (code : Nat) :
    (rillBad port code).leads f = f { cause := .rill, info := BitVec.ofNat 64 (code * 256 + port.toNat % 256) } := by
  rw [rillBad_eq]
  rfl

theorem Chk.leads_ok (f : CauseRec → Prop) : Chk.ok.leads f = True := rfl

/-- Credits are owed by the slots before alone that pop a port or return them. -/
theorem State.lowerOwed_none {s : State} {cx : Cx} {port : Nat} (h : ∀ x ∈ cx.blk.slots.take cx.k, x.pop = none ∧ x.act = none) :
    s.lowerOwed cx port = 0 := by
  refine foldl_inv_mem (P := fun n : Int => n = 0) (fun n hn x hx => ?_) rfl
  obtain ⟨h1, h2⟩ := h x hx
  rw [h1, h2, hn]
  rfl

/-- The checks of a send, in their order (R298). -/
theorem State.chsCheck_eq (s : State) (p : Nat) (port : BitVec 64) (form : ChsForm) (x : BitVec 512) : s.chsCheck p port form x =
    if 63 < port.toNat ∨ (s.rill p port.toNat).role ≠ 1 then rillBad port 1
    else if (s.rill p port.toNat).fits form = false then rillBad port 2
    else if (s.rill p port.toNat).latest = true ∧ (form = .eos ∨ form = .mark) then rillBad port 3
    else if form = .mark ∧ x.toNat % 2 ^ 16 = 0xFFFF then rillBad port 6
    else if (s.rill p port.toNat).broken = true then rillBad port 7 else .ok := by
  have hx : x.extractLsb' 0 16 = 0xFFFF ↔ x.toNat % 2 ^ 16 = 0xFFFF := by
    rw [← BitVec.toNat_inj]
    simp
  unfold State.chsCheck
  simp only [Bool.not_eq_true', Bool.and_eq_true, Bool.or_eq_true, beq_iff_eq, hx]

/-- The checks of CHC.CRED in a block whose lower slots pop nothing and act nowhere (R302). -/
theorem State.credCheck_eq {s : State} {cx : Cx} {port b : BitVec 64} (h : ∀ x ∈ cx.blk.slots.take cx.k, x.pop = none ∧ x.act = none) :
    s.credCheck cx port b =
      if 63 < port.toNat ∨ (s.rill cx.p port.toNat).role ≠ 2 then rillBad port 1
      else if (s.rill cx.p port.toNat).cmode = false ∨ (s.rill cx.p port.toNat).latest = true then rillBad port 3
      else if (s.rill cx.p port.toNat).broken = true then rillBad port 7
      else if (s.rill cx.p port.toNat).owed < b.toNat then rillBad port 4 else .ok := by
  unfold State.credCheck
  rw [State.lowerOwed_none h]
  simp only [Bool.or_eq_true, Bool.not_eq_true', add_zero, Nat.cast_lt]

/-- The checks of CHC.SPST (R302). -/
theorem State.spstCheck_eq (s : State) (p : Nat) (port b : BitVec 64) : s.spstCheck p port b =
    if 63 < port.toNat ∨ (s.rill p port.toNat).role ≠ 1 then rillBad port 1
    else if (s.rill p port.toNat).broken = true then rillBad port 7
    else if (s.rill p port.toNat).spill = false ∨ b.toNat % 2 ^ 21 ≤ b.toNat / 2 ^ 21 % 2 ^ 21 ∨ 64 * (s.rill p port.toNat).rsize < b.toNat % 2 ^ 21
      then rillBad port 5 else .ok := by
  have h0 : (b.extractLsb' 0 21).toNat = b.toNat % 2 ^ 21 := by simp
  have h1 : (b.extractLsb' 21 21).toNat = b.toNat / 2 ^ 21 % 2 ^ 21 := by simp [Nat.shiftRight_eq_div_pow]
  unfold State.spstCheck
  simp only [h0, h1, Bool.or_eq_true, Bool.not_eq_true', decide_eq_true_eq, or_assoc]

/-- Settles O13: the parts of a commit change nothing around the tasks; and the lowest slot whose check fails decides, each check being that of its form. -/
theorem commitLeavesMemory : Obligations.CommitLeavesMemory := by
  refine ⟨fun s t p h cx hr hs ha => ?_, fun s p h cx k r hm ht hk hd hb => ?_⟩
  · obtain ⟨u, he, hu⟩ := commit_leaves_around hr hs ha
    have hmem : SameMemory t u := sameMemory_of_around (s := { t with takes := t.takes.filter (fun x => !x.of cx.p cx.half) }) hu
    refine ⟨u, he, hmem, fun a => (hmem.1 a).trans (rdByte_of_beside (readyToCommit_beside hr) a), fun hno => ?_⟩
    rcases hr with ⟨-, -, -, rfl⟩ | ⟨c, x, -, hn, -⟩
    · exact hmem
    · rw [State.taking_of_nextTake hn] at hno
      cases hno
  · obtain ⟨hp, -, -, -, -⟩ := State.blockCx_eq hm.1
    subst hp
    intro fails
    have bad : ∀ {c : CauseRec}, s.slotCheck cx r k = .bad c → fails c := exec_blockCommit_bad hm ht hk hd hb
    refine ⟨fun a ha => ?_, fun ha => ?_⟩
    · intro seq looks rill
      have actBad : ∀ {c : CauseRec}, s.actCheck { cx with k := k, sr := r } a = .bad c → fails c := fun hc => bad (State.slotCheck_bad ha hc)
      have chk : ∀ {q : Homes} {c : Chk}, s.actCheck { cx with k := k, sr := r } a = q.chk → (∀ c, q = .bad c → fails c) ∧
          (q = .wait → exec (.blockCommit cx.p h) s = .next s) := by
        intro q c hchk
        refine ⟨fun c hc => actBad (by rw [hchk, hc]; rfl), fun hc => exec_blockCommit_wait hm ht hk hd hb (State.slotCheck_wait ha ?_)⟩
        rw [hchk, hc]
        rfl
      have hlooks : ∀ {off n al need side}, a.access? = some (off, n, al, need, side) → looks off n al need side :=
        fun hacc => chk (c := .ok) (State.actCheck_access hacc)
      have hframe : ∀ {y : BitVec 64} {need : BitVec 8}, (a.kind = .csave y ∧ need = rW ∨ a.kind = .crest y ∧ need = rR) →
          if seq = true then fails { cause := .scspan } else looks 0 4096 256 need false := by
        intro y need hkind
        have hc := State.actCheck_frame (s := s) (cx := { cx with k := k, sr := r }) hkind
        split
        · rename_i hs
          exact actBad (hc.trans (if_pos hs))
        · rename_i hs
          have hs' : seq = false := Bool.eq_false_iff.2 hs
          simp only [looks, hs']
          exact chk (c := .ok) (hc.trans (if_neg hs))
      have hleads : ∀ {c : Chk}, s.actCheck { cx with k := k, sr := r } a = c → c.leads fails := by
        intro c hc
        cases c with
        | ok => trivial
        | bad c => exact actBad hc
        | wait => trivial
      refine ⟨fun n mode al x hkind => hlooks ?_, fun n al hkind => hlooks ?_, fun f n b hkind => hlooks ?_, fun n b e hkind => hlooks ?_,
        fun q hkind => hlooks ?_, fun port form x hkind => ?_, fun port b hkind => ?_, fun port b hkind hlow => ?_, fun port b hkind => ?_,
        fun x hkind hx => actBad ?_, fun x y hkind hx => actBad ?_, fun y hkind => hframe (.inl ⟨hkind, rfl⟩), fun y hkind => hframe (.inr ⟨hkind, rfl⟩)⟩
      · unfold CAct.access?
        rw [hkind, ← storeRights_eq]
      iterate 4
        · unfold CAct.access?
          rw [hkind]
      · have hc := hleads (c := s.chsCheck cx.p port form x) (by unfold State.actCheck; rw [hkind])
        rw [State.chsCheck_eq] at hc
        simpa only [Chk.leads_ite, Chk.leads_rillBad, Chk.leads_ok, if_true_right] using hc
      · have hc := hleads (c := if 63 < port.toNat ∨ (s.rill cx.p port.toNat).role ≠ 2 then rillBad port 1
          else if (s.rill cx.p port.toNat).broken then rillBad port 7 else .ok) (by unfold State.actCheck; rw [hkind])
        simpa only [Chk.leads_ite, Chk.leads_rillBad, Chk.leads_ok, if_true_right] using hc
      · have hc := hleads (c := s.credCheck { cx with k := k, sr := r } port b) (by unfold State.actCheck; rw [hkind])
        rw [State.credCheck_eq hlow] at hc
        simpa only [Chk.leads_ite, Chk.leads_rillBad, Chk.leads_ok, if_true_right] using hc
      · have hc := hleads (c := s.spstCheck cx.p port b) (by unfold State.actCheck; rw [hkind])
        rw [State.spstCheck_eq] at hc
        simpa only [Chk.leads_ite, Chk.leads_rillBad, Chk.leads_ok, if_true_right] using hc
      · unfold State.actCheck
        rw [hkind]
        refine if_pos ?_
        have hn : (x.extractLsb' 16 16).toNat = x.toNat / 2 ^ 16 % 2 ^ 16 := by simp [Nat.shiftRight_eq_div_pow]
        rw [Bool.or_eq_true, Option.isNone_iff_eq_none, beq_iff_eq, ← BitVec.toNat_inj, hn]
        exact hx
      · unfold State.actCheck
        rw [hkind]
        exact if_pos hx
    · refine ⟨fun x hbr hx => bad ?_, fun x hbr hx => bad ?_, fun x hbr hact hx => bad ?_, fun hbr hx => bad ?_⟩
      · rw [State.slotCheck_br ha hbr]
        exact if_pos hx
      · rw [State.slotCheck_br ha hbr]
        exact if_pos (by simpa [Task.trapAct] using hx)
      · rw [State.slotCheck_br ha hbr]
        refine (if_neg ?_).trans (if_pos hx)
        simpa [Task.trapAct] using hact
      · rw [State.slotCheck_br ha hbr]
        exact if_pos (by simpa [Task.trapAct] using hx)

end Sys2Proof.Machine
end


-- ==== Sys2Proof/Proofs/CommitControl.lean ====
section
/-! PROOFS. Where control goes at a commit (R57, R64, R110 to R116), and the half that it leaves free. -/

namespace Sys2Proof.Machine

open Sys2Proof

/-! ## Windows -/

/-- The TAKEs under way, and the halves of every plot's window. -/
def State.halves (s : State) : List TakeRec × (Nat → Half × Half) := (s.takes, fun q => (s.plot q).window)

theorem halves_of_around {s u : State} (h : s.around Plot.window = u.around Plot.window) : s.halves = u.halves :=
  congrArg (fun v : (State × (Nat → Die)) × (Nat → Half × Half) => (v.1.1.takes, v.2)) h

theorem half_of_window {x y : Plot} (h : x.window = y.window) (b : Bool) : x.half b = y.half b := by
  cases b
  · exact congrArg Prod.fst h
  · exact congrArg Prod.snd h

theorem half_of_halves {s u : State} (h : u.halves = s.halves) (q : Nat) (b : Bool) : (u.plot q).half b = (s.plot q).half b :=
  half_of_window (congrFun (congrArg Prod.snd h) q) b

theorem State.halves_wrBytes (bs : List Byte) (s : State) (a : Nat) : (s.wrBytes a bs).halves = s.halves := by
  induction bs generalizing s a with
  | nil => rfl
  | cons b t ih => exact ih { s with mem := memPut s.mem a b } (a + 1)

theorem State.halves_setRill (s : State) (p e : Nat) (r : Rill) : (s.setRill p e r).halves = s.halves :=
  halves_of_around (State.around_setRill Plot.window_ignores ..)

theorem State.halves_append (s : State) (p e : Nat) (x : Item) : (s.append p e x).halves = s.halves := by
  unfold State.append
  dsimp only
  split
  · exact State.halves_setRill ..
  · split
    · exact (State.halves_setRill ..).trans (State.halves_wrBytes ..)
    · exact State.halves_setRill ..

theorem State.halves_applyAct (s : State) (p : Nat) (a : CAct) : (s.applyAct p a).halves = s.halves := by
  by_cases ha : ∃ q f w, a.kind = .chs q f w
  · obtain ⟨q, f, w, e⟩ := ha
    unfold State.applyAct
    rw [e]
    dsimp only
    exact (halves_of_around ((State.around_bump Plot.window_ignores ..).trans (State.around_onRill Plot.window_ignores ..))).trans (State.halves_append ..)
  · exact halves_of_around (State.around_applyAct Plot.window_ignores s p (fun q f w e => ha ⟨q, f, w, e⟩))

theorem State.halves_commitEffects (s : State) (cx : Cx) : (s.commitEffects cx).halves = s.halves := by
  unfold State.commitEffects
  refine (halves_of_around ((State.around_bump Plot.window_ignores ..).trans ((State.around_bump Plot.window_ignores ..).trans
    (State.around_bump Plot.window_ignores ..)))).trans ?_
  exact (foldl_keeps State.halves _ _ (fun s x _ => State.halves_applyAct s cx.p x.2) _).trans (halves_of_around (State.around_pops Plot.window_ignores ..))

/-! ## Halves that are freed -/

/-- Each half is as it was, or free. -/
structure State.Clears (s u : State) : Prop where
  half : ∀ q b, (u.plot q).half b = (s.plot q).half b ∨ (u.plot q).half b = {}

theorem State.Clears.of_window {s u : State} (h : ∀ q, (u.plot q).window = (s.plot q).window) : s.Clears u :=
  ⟨fun q b => .inl (half_of_window (h q) b)⟩

theorem State.Clears.of_around {s u : State} (h : u.around Plot.window = s.around Plot.window) : s.Clears u := .of_window (congrFun (congrArg Prod.snd h))

theorem State.Clears.of_halves {s u : State} (h : u.halves = s.halves) : s.Clears u := .of_window (congrFun (congrArg Prod.snd h))

theorem State.Clears.of_plots {s u : State} (h : u.plots = s.plots) : s.Clears u :=
  .of_window (fun q => by unfold State.plot; rw [h])

theorem State.Clears.refl (s : State) : s.Clears s := .of_halves rfl

theorem State.Clears.trans {s t u : State} (h : s.Clears t) (h' : t.Clears u) : s.Clears u := by
  refine ⟨fun q b => ?_⟩
  rcases h'.half q b with e | e
  · rw [e]
    exact h.half q b
  · exact .inr e

theorem clears_foldl {α : Type} {f : State → α → State} (h : ∀ (s : State) (x : α), s.Clears (f s x)) (xs : List α) (s : State) : s.Clears (xs.foldl f s) :=
  foldl_inv_mem (fun _ hb a _ => hb.trans (h _ a)) (State.Clears.refl s)

theorem clears_onTask (s : State) (p k : Nat) (f : Task → Task) : s.Clears (s.onTask p k f) := .of_around (State.around_onTask Plot.window_ignores ..)

theorem clears_setTask (s : State) (p k : Nat) (t : Task) : s.Clears (s.setTask p k t) := .of_around (State.around_setTask Plot.window_ignores ..)

theorem clears_wrSide (s : State) (a : Nat) (x : Side) : s.Clears (s.wrSide a x) := by
  unfold State.wrSide
  split
  · exact .of_plots ((State.setSide_plots ..).trans (State.setSide_plots ..))
  · exact .of_plots (State.setSide_plots ..)

theorem clears_wakeAll (s : State) (f : WaitFor → Bool) : s.Clears (s.wakeAll f) := by
  unfold State.wakeAll
  refine State.Clears.trans (t := (s.plots.map (·.1)).foldl (fun s p => s.wakePlot p f) s) (clears_foldl (fun s p => ?_) _ s) (.of_plots rfl)
  exact .of_around (State.around_wakePlot Plot.window_ignores s p f)

theorem clears_untake (s : State) (p : Nat) (h : Bool) : s.Clears (s.untake p h) := by
  unfold State.untake
  refine State.Clears.trans (t := { s with takes := s.takes.filter (fun x => !x.of p h) }) (.of_plots rfl) (clears_foldl (fun s x => ?_) _ _)
  unfold State.restoreTake
  split
  · exact .refl s
  · extract_lets y
    have hs : s.Clears ((s.wrSide x.home { y with pres := y.pres ||| x.words, stamp := x.stamp }).touch x.home x.words) :=
      (clears_wrSide s ..).trans (.of_plots rfl)
    exact hs.trans (clears_wakeAll ..)

theorem half_setHalf_of (s : State) (p : Nat) (h : Bool) (y : Half) (q : Nat) (b : Bool) :
    ((s.setHalf p h y).plot q).half b = if q = p ∧ b = h then y else (s.plot q).half b := by
  rw [State.setHalf, State.plot_onPlot]
  by_cases hq : q = p
  · subst hq
    cases h <;> cases b <;> simp [Plot.half, Plot.setHalf]
  · simp [hq]

theorem clears_setHalf (s : State) (p : Nat) (h : Bool) : s.Clears (s.setHalf p h {}) := by
  refine ⟨fun q b => ?_⟩
  rw [half_setHalf_of]
  split
  · exact .inr rfl
  · exact .inl rfl

theorem clears_dropBlock (s : State) (p k : Nat) : s.Clears (s.dropBlock p k) := by
  unfold State.dropBlock
  split
  · exact .refl s
  · dsimp only
    refine State.Clears.trans ?_ ((clears_untake ..).trans (clears_setHalf ..))
    split
    · exact .of_around (State.around_bump Plot.window_ignores ..)
    · exact .refl s

theorem clears_drop (s : State) (p k : Nat) : s.Clears ((s.dropBlock p k).withdraw p k) := (clears_dropBlock s p k).trans (.of_plots rfl)

theorem clears_reexec (s : State) (p k : Nat) : s.Clears (s.reexec p k) := (clears_drop s p k).trans (.of_around (State.around_ready Plot.window_ignores ..))

theorem clears_abortOther (s : State) (p k : Nat) (h : Bool) (b : Block) : s.Clears (s.abortOther p k h b) := by
  unfold State.abortOther
  dsimp only
  split
  · split
    · exact clears_reexec ..
    · exact .refl s
  · exact .refl s

/-! ## Tasks that leave -/

theorem clears_homeWrite (s : State) (a : Nat) (bs : List Byte) (mode : StMode) (stamp : BitVec 3) : s.Clears (s.homeWrite a bs mode stamp) := by
  have hw : s.Clears ((s.wrHome a bs).touch a (wordsOf a bs.length)) := by
    refine State.Clears.trans (t := s.wrHome a bs) ?_ (.of_plots rfl)
    unfold State.wrHome
    split
    · exact .of_halves ((State.halves_wrBytes ..).trans (State.halves_wrBytes ..))
    · exact .of_halves (State.halves_wrBytes ..)
  unfold State.homeWrite
  dsimp only
  split
  · exact hw
  · split
    · exact (hw.trans (clears_wrSide ..)).trans (clears_wakeAll ..)
    · exact hw.trans (clears_wrSide ..)

theorem clears_postErrAt (s : State) (wt : BitVec 64) (kind : BitVec 8) (p k : Nat) (launch : BitVec 32) (bpc : BitVec 40) (c : CauseRec) (ended : Bool)
    (detail : BitVec 64) : s.Clears (s.postErrAt wt kind p k launch bpc c ended detail) := by
  unfold State.postErrAt
  split
  · exact .refl s
  · exact .of_plots (State.post_plots ..)

theorem clears_putParts (s : State) (p k : Nat) (launch : BitVec 32) (core : Bool) (bs : List Byte) (stamp : BitVec 3) (ps : List (Nat × Nat × Nat)) :
    s.Clears (s.putParts p k launch core bs stamp ps) := by
  refine clears_foldl (fun s x => ?_) ps s
  unfold State.putPart
  split
  · exact clears_postErrAt ..
  · split
    · exact (clears_homeWrite s ..).trans (.of_around (State.around_onPlot _ p (fun y => Plot.window_ignores.near y _)))
    · exact clears_homeWrite ..

theorem clears_writeFrame (s : State) (p k : Nat) (bpc : BitVec 40) (c : Option CauseRec) (w : WaitFor) (ps : List (Nat × Nat × Nat)) :
    s.Clears (s.writeFrame p k bpc c w ps) := by
  unfold State.writeFrame
  extract_lets t
  have hput : s.Clears ((s.putParts p k t.launch true (s.frameBytes p k bpc c w) 4 ps).noteSave p k w) :=
    (clears_putParts s ..).trans (.of_plots (u := State.noteSave _ p k w) rfl)
  refine hput.trans (clears_foldl (fun s i => ?_) _ _)
  split
  · split
    · exact .refl s
    · exact clears_wrSide ..
  · exact .refl s

theorem clears_vacate (s : State) (p k : Nat) (t : Task) : s.Clears (s.vacate p k t) :=
  (clears_setTask s p k t).trans (.of_around (State.around_onPlot _ p (f := fun x => { x with vacated := _ }) (fun _ => rfl)))

theorem clears_freeIfDone (s : State) (p k : Nat) : s.Clears (s.freeIfDone p k) := by
  unfold State.freeIfDone
  dsimp only
  split
  · refine State.Clears.trans ?_ (clears_vacate ..)
    unfold State.leaveHost
    dsimp only
    split
    · exact .refl s
    · exact .of_plots rfl
  · exact .refl s

theorem clears_endTask (s : State) (p k : Nat) (c : CauseRec) (bpc : BitVec 40) : s.Clears (s.endTask p k c bpc) :=
  (clears_drop s p k).trans ((clears_postErrAt ..).trans (clears_setTask ..))

theorem clears_enterHandler (s : State) (p k : Nat) (c : CauseRec) (bpc : BitVec 40) : s.Clears (s.enterHandler p k c bpc) := by
  unfold State.enterHandler
  dsimp only
  split
  · exact .refl s
  · exact clears_endTask ..
  · exact ((clears_putParts s ..).trans (.of_around (State.around_ready Plot.window_ignores ..))).trans (clears_onTask ..)

theorem clears_faultSaved {s u : State} (h : s.Clears u) (fs : List Faulted) (wt : BitVec 64) (p k : Nat) (launch : BitVec 32) (bpc : BitVec 40)
    (c : CauseRec) (t : Task) : s.Clears ((State.postErrAt { u with faulted := fs } wt 0x02 p k launch bpc c false 0).vacate p k t) :=
  ((h.trans (.of_plots (u := { u with faulted := fs }) rfl)).trans (clears_postErrAt ..)).trans (clears_vacate ..)

theorem clears_settle (s : State) (p k : Nat) : s.Clears (s.settle p k) := by
  unfold State.settle
  dsimp only
  split
  · exact .refl s
  · exact clears_freeIfDone ..
  · split
    · exact .refl s
    · exact (clears_enterHandler ..).trans (clears_freeIfDone ..)
  · split
    · exact .refl s
    · split
      · exact clears_vacate ..
      · split
        · exact .refl s
        · exact (clears_endTask ..).trans (clears_freeIfDone ..)
        · split
          · refine clears_faultSaved ?_ _ _ p k ..
            split
            · exact (clears_writeFrame s ..).trans (clears_postErrAt ..)
            · exact clears_writeFrame s ..
          · exact (clears_writeFrame s ..).trans (clears_vacate ..)

theorem clears_raiseCause (s : State) (p k : Nat) (c : CauseRec) (bpc : BitVec 40) : s.Clears (s.raiseCause p k c bpc) := by
  unfold State.raiseCause
  dsimp only
  split
  iterate 6
    · split
      · exact clears_endTask ..
      · split
        · exact clears_endTask ..
        · exact ((clears_drop s p k).trans (clears_onTask ..)).trans (clears_onTask ..)
  · exact ((clears_drop s p k).trans (clears_onTask ..)).trans (clears_onTask ..)
  · exact clears_endTask ..

theorem clears_finishOp (s : State) (p k : Nat) (o : Op) (late : Option Val) : s.Clears (s.finishOp p k o late) :=
  (clears_setTask s p k _).trans (clears_settle ..)

/-! ## The half that a commit leaves free -/

theorem State.halves_commitWrites (s : State) (cx : Cx) : (s.commitWrites cx).halves = (s.setHalf cx.p cx.half {}).halves :=
  halves_of_around (State.around_commitWrites Plot.window_ignores s cx)

theorem clears_transfer (s : State) (cx : Cx) : s.Clears (s.transfer cx) := by
  have hh : s.Clears (if cx.blk.halts then s.onTask cx.p cx.t (fun t => { t with halting := true }) else s) := by
    split
    · exact clears_onTask ..
    · exact .refl s
  have go : ∀ (u : State) (f : Task → Task), u.Clears ((u.onTask cx.p cx.t f).ready cx.p cx.t) :=
    fun u f => (clears_onTask u ..).trans (.of_around (State.around_ready Plot.window_ignores ..))
  unfold State.transfer
  extract_lets p k next br slot rel u v
  have hv : u.Clears v := clears_onTask ..
  refine State.Clears.trans (t := u) hh ?_
  clear_value br v u
  split
  iterate 4
    · exact go ..
  · exact clears_onTask ..
  · exact go ..
  · split
    · exact hv.trans (.of_around (State.around_ready Plot.window_ignores ..))
    · exact hv.trans (clears_onTask ..)
  · exact (clears_onTask u ..).trans (clears_raiseCause ..)
  · exact go ..
  · exact go ..

theorem clears_commit (s : State) (cx : Cx) : (s.setHalf cx.p cx.half {}).Clears (s.commit cx) := by
  have heffects : (s.setHalf cx.p cx.half {}).Clears ((s.commitWrites cx).commitEffects cx) :=
    .of_halves ((State.halves_commitEffects ..).trans (State.halves_commitWrites s cx))
  have hissues : ∀ u : State, u.Clears (u.commitIssues cx) :=
    fun u => (State.Clears.of_around (State.around_issues Plot.window_ignores u cx)).trans (clears_abortOther ..)
  have hshows : ∀ u : State, u.Clears (u.commitShows cx) := fun u => .of_around (State.around_commitShows Plot.window_ignores u cx)
  rw [State.commit_eq]
  exact (((heffects.trans (clears_transfer _ cx)).trans (hissues _)).trans (hshows _)).trans (clears_settle ..)

theorem clears_commitAcc {s : State} {p k : Nat} {b : Block} (hb : ∀ x ∈ b.acts, ∀ a, x.2.kind ≠ .aclr a) : s.Clears (s.commitAcc p k b) := by
  unfold State.commitAcc
  refine foldl_inv_mem (P := s.Clears) (fun u hu x hx => ?_) (.refl s)
  split
  · rename_i o ho
    have hact : o.act = x.2 := by
      have := List.find?_some ho
      simp only [Bool.and_eq_true, beq_iff_eq] at this
      exact this.2
    rcases State.accEvent_cases (s := u) (p := p) (k := k) (o := o) (fun a => hact ▸ hb x (List.mem_of_mem_filter hx) a) with e | ⟨v, e⟩
    · rwa [e]
    · rw [e]
      exact hu.trans (clears_finishOp ..)
  · exact hu

/-- The block that has committed leaves its half free. -/
theorem State.half_commit (s : State) {cx : Cx} (hb : ∀ x ∈ cx.blk.acts, ∀ a, x.2.kind ≠ .aclr a) :
    (((s.commit cx).commitAcc cx.p cx.t cx.blk).plot cx.p).half cx.half = {} := by
  rcases ((clears_commit s cx).trans (clears_commitAcc hb)).half cx.p cx.half with e | e
  · rw [e, half_setHalf]
  · exact e

/-! ## The task -/

/-- Where a task stands: its next block, its state and what it waits for. -/
def Task.stands (t : Task) : BitVec 40 × Bool × TState × WaitFor := (t.bpc, t.far, t.st, t.wait)

/-- A block that has taken nothing changes no other task as it is discarded to be re-executed. -/
theorem State.task_reexec_untaken {s : State} {p k q j : Nat} (ht : ∀ h, (s.plot p).halfOf k = some h → s.taking p h = false) (hj : ¬(q = p ∧ j = k)) :
    (s.reexec p k).task q j = s.task q j := by
  unfold State.reexec
  rw [State.task_ready, if_neg (fun e => hj ⟨e.1, e.2.1⟩)]
  change (s.dropBlock p k).task q j = _
  cases hk : (s.plot p).halfOf k with
  | none =>
    unfold State.dropBlock
    rw [hk]
  | some h =>
    rw [State.dropBlock_untaken hk (ht h hk), State.task_setHalf]
    split
    · exact State.task_bump ..
    · rfl

/-- The other half's block, which a commit discards, changes no task but its own. -/
theorem State.task_abortOther_untaken {s : State} {p own q j : Nat} {half : Bool} (b : Block) (hhalf : (s.plot p).half half = {})
    (ht : s.taking p (!half) = false) (hj : q = p → j = own) : (s.abortOther p own half b).task q j = s.task q j := by
  unfold State.abortOther
  dsimp only
  split
  · split
    · rename_i k c hk hc hne
      simp only [Bool.and_eq_true, bne_iff_ne, ne_eq] at hne
      exact State.task_reexec_untaken (fun h hh => by rwa [Plot.halfOf_other hhalf hh]) (fun e => hne.1 (e.2.symm.trans (hj e.1)))
    · rfl
  · rfl

theorem Task.stands_haltDeps (t : Task) : t.haltDeps.stands = t.stands := rfl

theorem State.stands_showTask (s : State) (p k q j : Nat) : ((s.showTask p k).task q j).stands = (s.task q j).stands :=
  State.onTask_keeps Task.stands s p k q j _ (fun _ => rfl)

theorem Task.stands_causeStrm (t : Task) (w : BitVec 64) : ({ t with causeStrm := w } : Task).stands = t.stands := rfl

theorem State.stands_commitShows (s : State) (cx : Cx) (q j : Nat) : ((s.commitShows cx).task q j).stands = (s.task q j).stands := by
  unfold State.commitShows
  rw [State.stands_showTask]
  split
  · rfl
  · exact State.onTask_keeps Task.stands s cx.p cx.t q j _ (fun t => Task.stands_causeStrm t t.strmWord)

/-- Issuing a block's operations leaves its task standing where it is. -/
theorem State.stands_commitIssues {s : State} {cx : Cx} (ht : cx.t < 16) (hhalf : (s.plot cx.p).half cx.half = {})
    (hno : s.taking cx.p (!cx.half) = false) : ((s.commitIssues cx).task cx.p cx.t).stands = (s.task cx.p cx.t).stands := by
  obtain ⟨⟨os, ws, hs, hu⟩, -, -⟩ := State.task_issues ht cx.blk.acts s
  have hh := halves_of_around (State.around_issues Plot.window_ignores s cx)
  unfold State.commitIssues
  rw [State.task_abortOther_untaken cx.blk (by rw [half_of_halves hh, hhalf]) _ (fun _ => rfl), State.task_onTask, if_pos ⟨rfl, rfl, ht⟩,
    Task.stands_haltDeps, hu]
  · rfl
  · rw [← hno]
    exact congrArg (fun v : List TakeRec × (Nat → Half × Half) => v.1.any (fun x => x.of cx.p (!cx.half))) hh

/-- The end of an ACC form leaves its task standing where it is. -/
theorem State.stands_commitAcc {s : State} {p k : Nat} {b : Block} (hk : k < 16) (hb : ∀ x ∈ b.acts, ∀ a, x.2.kind ≠ .aclr a)
    (hl : (s.task p k).leaving = .no) : ((s.commitAcc p k b).task p k).stands = (s.task p k).stands := by
  refine State.commitAcc_induct (P := fun u : State => (u.task p k).stands = (s.task p k).stands) hb hl rfl (fun u o v hu hP _ => ?_)
  obtain ⟨x, y, e⟩ := State.finishOp_eq o (some v) hu
  rw [e, State.task_setTask, if_pos ⟨rfl, rfl, hk⟩, ← hP]
  exact Task.opEnds_keeps Task.stands (fun _ _ _ _ => rfl) (u.task p k) o (some v)

/-! ## SY.WAKE -/

/-- A block's own writes but those of SY.WAKE leave it. -/
theorem State.wake_commitWrites {s : State} {cx : Cx} (ht : cx.t < 16) (hw : ∀ x ∈ cx.blk.acts, ∀ a, x.2.kind ≠ .wrs 0x010 a) :
    ((s.commitWrites cx).task cx.p cx.t).wake = (s.task cx.p cx.t).wake := by
  have hflags : ∀ t : Task, ({ (t.writeFlags cx.blk) with rwait := [], refault := none } : Task).wake = t.wake :=
    fun t => congrArg (fun v => v.2.2.2.2.2) (Task.plain_writeFlags t cx.blk)
  have hwrs : ∀ (t : Task) n a, n ≠ 0x010 → (t.wrs n a).wake = t.wake := by
    intro t n a hn
    unfold Task.wrs
    split
    iterate 7
      · rfl
    · exact absurd rfl hn
    · rfl
  unfold State.commitWrites
  rw [State.onTask_keeps Task.wake _ cx.p cx.t cx.p cx.t _ hflags]
  refine (foldl_keeps (fun s => (State.task s cx.p cx.t).wake) _ _ (fun s x hx => ?_) _).trans ?_
  · split
    · rename_i n a hk
      have on : ∀ f : Task → Task, (∀ t, (f t).wake = t.wake) → ((s.onTask cx.p cx.t f).task cx.p cx.t).wake = (s.task cx.p cx.t).wake :=
        fun f => State.onTask_keeps Task.wake s cx.p cx.t cx.p cx.t f
      have hn : n ≠ 0x010 := by
        rintro rfl
        exact hw x hx a hk
      unfold State.wrs
      split
      · exact congrArg Task.wake (State.task_onPlot s cx.p cx.p cx.t (fun x => { x with pmsel := a.extractLsb' 0 6 }) (fun _ => rfl))
      · refine congrArg Task.wake (State.task_onPlot s cx.p cx.p cx.t
          (fun x => if x.pmsel.toNat < 48 then x.setCounter (s.cycOf cx.p) x.pmsel.toNat a else x) (fun x => ?_))
        split <;> rfl
      · refine on _ (fun t => ?_)
        unfold Task.wrsMiss
        split
        · rfl
        · exact hwrs _ _ _ (by decide)
      · exact absurd rfl hn
      · exact on _ (fun t => hwrs t n a hn)
    · rfl
  · rw [State.task_onTask, if_pos ⟨rfl, rfl, ht⟩, State.task_setHalf, Task.writeRegs_keeps Task.wake (fun _ _ _ _ => rfl)]

/-! ## The transfer -/

/-- A task goes on at an address, competing again. -/
def Task.goesTo (v : Task) (a : Int) : Prop := v.bpc = BitVec.ofInt 40 a ∧ v.far = (!decide (0 ≤ a ∧ a < 2 ^ 40))

theorem goesTo_of_stands {t u : Task} (h : t.stands = u.stands) {a : Int} {st : TState} (hu : u.goesTo a ∧ u.st = st) : t.goesTo a ∧ t.st = st := by
  simp only [Task.stands, Prod.mk.injEq] at h
  obtain ⟨h1, h2, h3, -⟩ := h
  exact ⟨⟨h1.trans hu.1.1, h2.trans hu.1.2⟩, h3.trans hu.2⟩

theorem State.goesTo_ready (s : State) (p : Nat) {k : Nat} (hk : k < 16) (a : Int) :
    (((s.onTask p k (fun t => t.goto a)).ready p k).task p k).goesTo a ∧ (((s.onTask p k (fun t => t.goto a)).ready p k).task p k).st = .ready := by
  rw [State.task_ready, if_pos ⟨rfl, rfl, hk⟩, State.task_onTask, if_pos ⟨rfl, rfl, hk⟩]
  exact ⟨⟨rfl, rfl⟩, rfl⟩

/-- The address of the block that follows (R57). -/
def Block.after (b : Block) : Int := b.bpc.toNat + 8 * (b.words.length + 1)

/-- A state in which a block with a HALTC has marked its task (R354). -/
def State.halted (s : State) (cx : Cx) : State := if cx.blk.halts then s.onTask cx.p cx.t (fun t => { t with halting := true }) else s

/-- The task of a block sent to an address, competing again. -/
def State.sentTo (s : State) (cx : Cx) (a : Int) : State := ((s.halted cx).onTask cx.p cx.t (fun t => t.goto a)).ready cx.p cx.t

section Transfer

variable (s : State) {cx : Cx}

theorem Block.after_cast (b : Block) : ((b.bpc.toNat + 8 * (b.words.length + 1) : Nat) : Int) = b.after := by
  unfold Block.after
  push_cast
  rfl

theorem Block.branch_eq (b : Block) : b.slots.findSome? (fun r => if r.st == .done then r.br else none) = b.branch := rfl

theorem State.transfer_none (h : cx.blk.branch = none) : s.transfer cx = s.sentTo cx cx.blk.after := by
  unfold State.transfer
  rw [Block.after_cast, Block.branch_eq, h]
  rfl

theorem State.transfer_rel {x : BitVec 19} (h : cx.blk.branch = some (.rel x)) : s.transfer cx = s.sentTo cx (cx.blk.bpc.toNat + 8 * x.toInt) := by
  unfold State.transfer
  rw [Block.branch_eq, h]
  rfl

theorem State.transfer_call {k : BitVec 6} {x : BitVec 19} (h : cx.blk.branch = some (.call k x)) :
    s.transfer cx = s.sentTo cx (cx.blk.bpc.toNat + 8 * x.toInt) := by
  unfold State.transfer
  rw [Block.branch_eq, h]
  rfl

theorem State.transfer_abs {a : BitVec 64} (h : cx.blk.branch = some (.abs a)) : s.transfer cx = s.sentTo cx a.toNat := by
  unfold State.transfer
  rw [Block.branch_eq, h]
  rfl

theorem State.transfer_yielded (h : cx.blk.branch = some .yielded) : s.transfer cx = s.sentTo cx cx.blk.after := by
  unfold State.transfer
  rw [Block.after_cast, Block.branch_eq, h]
  rfl

/-- A PARK waits where no wake bit of its mask is set (R115). -/
theorem State.transfer_park {m : BitVec 16} (h : cx.blk.branch = some (.park m)) : let u := (s.halted cx).onTask cx.p cx.t (fun t => t.goto cx.blk.after)
    s.transfer cx = if (u.task cx.p cx.t).wake &&& m != 0 then u.ready cx.p cx.t
      else u.onTask cx.p cx.t (fun t => { t with st := .wait, wait := .park m }) := by
  unfold State.transfer
  rw [Block.after_cast, Block.branch_eq, h]
  rfl

theorem State.task_halted (ht : cx.t < 16) : ∃ b, (s.halted cx).task cx.p cx.t = { s.task cx.p cx.t with halting := b } := by
  unfold State.halted
  split
  · rw [State.task_onTask, if_pos ⟨rfl, rfl, ht⟩]
    exact ⟨_, rfl⟩
  · exact ⟨_, rfl⟩

theorem State.sentTo_goes (ht : cx.t < 16) (a : Int) : ((s.sentTo cx a).task cx.p cx.t).goesTo a ∧ ((s.sentTo cx a).task cx.p cx.t).st = .ready :=
  State.goesTo_ready _ cx.p ht a

end Transfer

/-! ## The whole commit -/

section Goes

variable {w : State} {cx : Cx} (ht : cx.t < 16) (hl : (w.task cx.p cx.t).leaving = .no) (hno : w.taking cx.p (!cx.half) = false)
  (hs : cx.blk.branch ≠ some .endt ∧ ∀ n, cx.blk.branch ≠ some (.trap n)) (hacc : ∀ x ∈ cx.blk.acts, ∀ a, x.2.kind ≠ .aclr a)
include ht hl hno hs hacc

/-- Nothing of a commit after the transfer moves its task. -/
theorem State.stands_commit : (((w.commit cx).commitAcc cx.p cx.t cx.blk).task cx.p cx.t).stands =
      ((((w.commitWrites cx).commitEffects cx).transfer cx).task cx.p cx.t).stands := by
  have hh : (((w.commitWrites cx).commitEffects cx).transfer cx).halves = (w.setHalf cx.p cx.half {}).halves :=
    (halves_of_around (State.around_transfer Plot.window_ignores hs)).trans ((State.halves_commitEffects ..).trans (State.halves_commitWrites ..))
  rw [State.stands_commitAcc ht hacc (State.commit_results ht hs hl).leaving, (State.commit_flagged hs (State.leaving_commitWrites ht hl)).1,
    State.stands_commitShows, State.stands_commitIssues ht]
  · rw [half_of_halves hh, half_setHalf]
  · rw [← hno]
    exact congrArg (fun v : List TakeRec × (Nat → Half × Half) => v.1.any (fun x => x.of cx.p (!cx.half))) hh

/-- Nor does anything before it change SY.WAKE. -/
theorem State.goes_of_sentTo {a : Int} (h : ∀ s : State, s.transfer cx = s.sentTo cx a) :
    (((w.commit cx).commitAcc cx.p cx.t cx.blk).task cx.p cx.t).goesTo a ∧ (((w.commit cx).commitAcc cx.p cx.t cx.blk).task cx.p cx.t).st = .ready := by
  refine goesTo_of_stands (State.stands_commit ht hl hno hs hacc) ?_
  rw [h]
  exact State.sentTo_goes _ ht a

end Goes

theorem Task.goesTo_parked (t : Task) (a : Int) (x : TState) (w : WaitFor) : Task.goesTo { t.goto a with st := x, wait := w } a := ⟨rfl, rfl⟩

/-- A PARK leaves its task behind the block, waiting where SY.WAKE has no bit of its mask. -/
theorem State.parked_transfer {s : State} {cx : Cx} {m : BitVec 16} (ht : cx.t < 16) (h : cx.blk.branch = some (.park m)) :
    let v := (s.transfer cx).task cx.p cx.t
    v.goesTo cx.blk.after ∧ if (s.task cx.p cx.t).wake &&& m = 0 then v.st = .wait ∧ v.wait = .park m else v.st = .ready := by
  obtain ⟨b, hb⟩ := s.task_halted ht
  have hu : ((s.halted cx).onTask cx.p cx.t (fun t => t.goto cx.blk.after)).task cx.p cx.t =
      ({ s.task cx.p cx.t with halting := b } : Task).goto cx.blk.after := by
    rw [State.task_onTask, if_pos ⟨rfl, rfl, ht⟩, hb]
  have hw : (((s.halted cx).onTask cx.p cx.t (fun t => t.goto cx.blk.after)).task cx.p cx.t).wake = (s.task cx.p cx.t).wake := by
    rw [hu]
    rfl
  dsimp only
  rw [s.transfer_park h, hw]
  by_cases hz : (s.task cx.p cx.t).wake &&& m = 0
  · have hn : ¬((0 : BitVec 16) != 0) = true := by decide
    rw [hz, if_neg hn, if_pos rfl, State.task_onTask, if_pos ⟨rfl, rfl, ht⟩, hu]
    exact ⟨Task.goesTo_parked _ _ .wait (.park m), rfl, rfl⟩
  · have hn : ((s.task cx.p cx.t).wake &&& m != 0) = true := by simpa using hz
    simp only [hn, hz, if_true, if_false]
    exact State.goesTo_ready _ cx.p ht _

/-- Settles O8: the transfer sends the task where its branch says, and nothing of the commit after it moves the task. -/
theorem commitTransfersControl : Obligations.CommitTransfersControl := by
  intro s t p h cx hr ha
  obtain ⟨w, hv, he, haround⟩ := exec_blockCommit_around hr
  have halone := readyToCommit_alone hr
  obtain ⟨rfl, rfl, ht, htask, hleave, -⟩ := readyToCommit_cx hr
  have hacc : ∀ x ∈ cx.blk.acts, ∀ a, x.2.kind ≠ .aclr a := fun x hx a => (ha x hx a).2
  have hwt : w.task cx.p cx.t = cx.task := (task_of_view hv ..).trans htask.symm
  have hl : (w.task cx.p cx.t).leaving = .no := by rw [hwt, hleave]
  have hno : w.taking cx.p (!cx.half) = false := by
    have htakes : w.takes = t.takes.filter (fun x => !x.of cx.p cx.half) := congrArg (fun v => v.1.1.takes) haround
    unfold State.taking at halone ⊢
    rw [htakes, List.any_eq_false]
    exact fun x hx => List.any_eq_false.1 halone x (List.mem_filter.1 hx).1
  have stays : ∀ {b : Option Br}, cx.blk.branch = b → b ≠ some .endt → (∀ n, b ≠ some (.trap n)) →
      cx.blk.branch ≠ some .endt ∧ ∀ n, cx.blk.branch ≠ some (.trap n) := by
    rintro b rfl h1 h2
    exact ⟨h1, h2⟩
  have goes : ∀ {b : Option Br} {a : Int}, cx.blk.branch = b → b ≠ some .endt → (∀ n, b ≠ some (.trap n)) → (∀ s : State, s.transfer cx = s.sentTo cx a) →
      _ := fun hb h1 h2 hsent => State.goes_of_sentTo ht hl hno (stays hb h1 h2) hacc hsent
  refine ⟨_, he, State.half_commit w hacc, fun hb => ?_, fun x hb => ?_, fun k x hb => ?_, fun a hb => ?_, fun hb => ?_, fun m hb => ?_⟩
  · exact goes hb (by simp) (by simp) (fun s => s.transfer_none hb)
  · exact goes hb (by simp) (by simp) (fun s => s.transfer_rel hb)
  · exact goes hb (by simp) (by simp) (fun s => s.transfer_call hb)
  · exact goes hb (by simp) (by simp) (fun s => s.transfer_abs hb)
  · exact goes hb (by simp) (by simp) (fun s => s.transfer_yielded hb)
  · have hst := State.stands_commit ht hl hno (stays hb (by simp) (by simp)) hacc
    obtain ⟨hgo, hpark⟩ := State.parked_transfer (s := (w.commitWrites cx).commitEffects cx) ht hb
    have hwake : (((w.commitWrites cx).commitEffects cx).task cx.p cx.t).wake = cx.task.wake := by
      refine Eq.trans ?_ ((State.wake_commitWrites ht (fun x hx a => (ha x hx a).1)).trans (congrArg Task.wake hwt))
      exact (show (Task.kept _).wake = (Task.kept _).wake from congrArg Task.wake (State.kept_commitEffects (w.commitWrites cx) cx cx.p cx.t))
    rw [hwake] at hpark
    simp only [Task.stands, Prod.mk.injEq] at hst
    obtain ⟨h1, h2, h3, h4⟩ := hst
    dsimp only
    rw [h3, h4]
    exact ⟨⟨h1.trans hgo.1, h2.trans hgo.2⟩, hpark⟩

end Sys2Proof.Machine
end

