-- ==== Sys2Proof/Proofs/CommitTrap.lean ====
section
/-! PROOFS. A TRAP at the commit (R116, R117): the homes of the trap frame, the trap raised behind the block's results and operations, and the task that
then enters its handler, waits for its late results, or ends. -/

namespace Sys2Proof.Machine

open Sys2Proof

/-! ## The homes of a pointer's pieces are beside the tasks -/

section Homes

variable {s u : State} (h : s.beside = u.beside)
include h

theorem rdW_of_beside (a : Nat) : s.rdW a = u.rdW a := by
  simp only [State.rdW, State.rdNat, State.rdBytes, rdByte_of_beside h]

theorem otc_of_beside (d : Nat) : (s.die d).otc = (u.die d).otc ∧ (s.die d).nodes = (u.die d).nodes :=
  ⟨congrArg (fun v : State × (Nat → Die) × (Nat → Placed) => (v.2.1 d).otc) h, congrArg (fun v : State × (Nat → Die) × (Nat → Placed) => (v.2.1 d).nodes) h⟩

theorem walk_of_beside (nodes : SMap (BitVec 64)) (obj node lv : Nat) : s.walk nodes obj node lv = u.walk nodes obj node lv := by
  induction lv generalizing node with
  | zero => simp only [State.walk, rdW_of_beside h]
  | succ lv ih => simp only [State.walk, rdW_of_beside h, ih]

theorem findExt_of_beside (desc : Nat) (d1 : BitVec 64) (o i fuel : Nat) : s.findExt desc d1 o i fuel = u.findExt desc d1 o i fuel := by
  have he : ∀ i, s.extAddr desc d1 i = u.extAddr desc d1 i := fun i => by simp only [State.extAddr, rdW_of_beside h]
  induction fuel generalizing i with
  | zero => rfl
  | succ fuel ih => simp only [State.findExt, he, rdW_of_beside h, ih]

theorem extFor_of_beside (die : Nat) (obj : BitVec 24) (o : Nat) : s.extFor die obj o = u.extFor die obj o := by
  have hroot : s.mod.otroot = u.mod.otroot := congrArg (fun v : State × (Nat → Die) × (Nat → Placed) => v.1.mod.otroot) h
  have hl : ∀ nodes, s.lookupWith nodes obj = u.lookupWith nodes obj := fun nodes => by
    simp only [State.lookupWith, walk_of_beside h, hroot]
  simp only [State.extFor, otc_of_beside h, hl, findExt_of_beside h]

theorem homeOk_of_beside (a : Nat) : s.homeOk a = u.homeOk a := by
  have hp : ∀ q, (s.plot q).stat = (u.plot q).stat := fun q => congrArg (fun v : State × (Nat → Die) × (Nat → Placed) => (v.2.2 q).1.1) h
  have hr : s.mod.retired = u.mod.retired := congrArg (fun v : State × (Nat → Die) × (Nat → Placed) => v.1.mod.retired) h
  simp only [State.homeOk, State.enabled, State.retiredAt, hp, hr]

theorem partHomes_of_beside (die : Nat) (p : Ptr) (ps : List (Nat × Nat × Nat)) : s.partHomes die p ps = u.partHomes die p ps := by
  have ht : ∀ q, s.homeAt die p q = u.homeAt die p q := fun q => by
    simp only [State.homeAt, State.translate, State.translateBy, extFor_of_beside h, homeOk_of_beside h]
  have hf : ∀ q, s.translateBy false die p.obj q = u.translateBy false die p.obj q := fun q => by
    simp only [State.translateBy, extFor_of_beside h, homeOk_of_beside h]
  have hphys : ∀ q, s.physAt die p q = u.physAt die p q := fun q => by
    simp only [State.physAt, extFor_of_beside h]
  unfold State.partHomes
  induction ps with
  | nil => rfl
  | cons x ps ih => simp only [State.partHomesBy, ht, hf, hphys, ih]

theorem privArea_of_beside (p : Nat) (id : BitVec 32) (k : Nat) : s.privArea p id k = u.privArea p id k := by
  have ho : (s.plot p).owner = (u.plot p).owner := congrArg (fun v : State × (Nat → Die) × (Nat → Placed) => (v.2.2 p).2) h
  have hl : s.launch? id = u.launch? id := congrArg (fun v : State × (Nat → Die) × (Nat → Placed) => v.1.launch? id) h
  simp only [State.privArea, ho, hl]

theorem privPtr_of_beside (p : Nat) (id : BitVec 32) (k : Nat) : s.privPtr p id k = u.privPtr p id k := by
  simp only [State.privPtr, privArea_of_beside h]

end Homes

/-! ## The task that takes a trap -/

/-- The registers of a task that trap handling works with, and its launch (R117). -/
def Task.handler (t : Task) : BitVec 40 × BitVec 32 × BitVec 32 := (t.trapv, t.frame, t.launch)

theorem handler_of_kept {t u : Task} (h : t.kept = u.kept) : t.handler = u.handler := show t.kept.handler = u.kept.handler from congrArg Task.handler h

/-- A task's wait is over, its state aside. -/
theorem State.kept_drop (s : State) (p k q j : Nat) : ((((s.dropBlock p k).withdraw p k).task q j)).kept = (s.task q j).kept :=
  kept_of_still ((State.still_withdraw ..).trans (State.still_dropBlock ..)) q j

theorem State.task_endTask (s : State) {p k : Nat} (c : CauseRec) (bpc : BitVec 40) (hk : k < 16) : (s.endTask p k c bpc).task p k =
    { ((s.dropBlock p k).withdraw p k).task p k with st := .running, wait := .none, pend := 0, pendInfo := [], engQ := [], leaving := .ended } := by
  unfold State.endTask
  dsimp only
  rw [State.task_setTask, if_pos ⟨rfl, rfl, hk⟩]

/-- The program trap of a task without a handler, or in one, ends it. -/
theorem State.raiseCause_ends {s : State} {p k : Nat} {c : CauseRec} (bpc : BitVec 40) (hc : c.cause = .trap)
    (h : (s.task p k).trapv.getLsbD 1 = false ∨ (s.task p k).trapv.getLsbD 0 = true) :
    s.raiseCause p k c bpc = s.endTask p k { c with nested := (s.task p k).trapv.getLsbD 0 } bpc := by
  unfold State.raiseCause
  simp only [hc]
  rw [if_pos (by simpa [Task.trapEn, Task.trapAct] using h)]
  rfl

/-- The state of a task that waits to enter its handler. -/
def State.trapping (s : State) (p k : Nat) (c : CauseRec) (bpc : BitVec 40) : State :=
  (((s.dropBlock p k).withdraw p k).stamped p k).onTask p k (fun t => { t with st := .running, wait := .none, leaving := .trapping c bpc false })

/-- Another program trap, whose frame fits its area, waits for the task's late results. -/
theorem State.raiseCause_waits {s : State} {p k : Nat} {c : CauseRec} (bpc : BitVec 40) (hc : c.cause = .trap)
    (h : ¬((s.task p k).trapv.getLsbD 1 = false ∨ (s.task p k).trapv.getLsbD 0 = true))
    (hf : (s.task p k).frame.toNat * 256 + 256 ≤ (s.privArea p (s.task p k).launch k).2) : s.raiseCause p k c bpc = s.trapping p k c bpc := by
  unfold State.raiseCause
  simp only [hc]
  rw [if_neg (by simpa [Task.trapEn, Task.trapAct] using h), if_neg (Nat.not_lt.2 hf)]
  rfl

/-! ## The trap taken -/

theorem State.settle_trapping {s : State} {p k : Nat} {c : CauseRec} {bpc : BitVec 40} {b : Bool} (h : (s.task p k).leaving = .trapping c bpc b) :
    s.settle p k = if (s.task p k).anyLate then s else (s.enterHandler p k c bpc).freeIfDone p k := by
  unfold State.settle
  simp only [h]

theorem State.freeIfDone_staying {s : State} {p k : Nat} (h : (s.task p k).leaving = .no) : s.freeIfDone p k = s := by
  unfold State.freeIfDone
  simp [h]

theorem kept_of_plots {s u : State} (h : u.plots = s.plots) (q j : Nat) : (u.task q j).kept = (s.task q j).kept := by
  simp only [State.task, State.plot, h]

theorem State.kept_wrBytes (bs : List Byte) (s : State) (a q j : Nat) : ((s.wrBytes a bs).task q j).kept = (s.task q j).kept := by
  induction bs generalizing s a with
  | nil => rfl
  | cons b t ih => exact (ih { s with mem := memPut s.mem a b } (a + 1)).trans (kept_of_plots (s := s) rfl q j)

/-- A write at a home changes of a task its state alone, which may wake. -/
theorem State.kept_homeWrite (s : State) (a : Nat) (bs : List Byte) (mode : StMode) (stamp : BitVec 3) (q j : Nat) :
    ((s.homeWrite a bs mode stamp).task q j).kept = (s.task q j).kept := by
  have hw : (((s.wrHome a bs).touch a (wordsOf a bs.length)).task q j).kept = (s.task q j).kept := by
    refine (kept_of_plots (s := s.wrHome a bs) rfl q j).trans ?_
    unfold State.wrHome
    split
    · rw [State.kept_wrBytes, State.kept_wrBytes]
    · exact State.kept_wrBytes ..
  unfold State.homeWrite
  dsimp only
  split
  · exact hw
  · refine Eq.trans ?_ hw
    split
    · exact kept_of_still ((State.still_wakeAll ..).trans (State.still_wrSide ..)) q j
    · exact kept_of_still (State.still_wrSide ..) q j

theorem State.kept_coreWrite (s : State) (p a : Nat) (bs : List Byte) (mode : StMode) (stamp : BitVec 3) (q j : Nat) :
    ((s.coreWrite p a bs mode stamp).task q j).kept = (s.task q j).kept := by
  rw [← State.kept_homeWrite s a bs mode stamp q j]
  exact congrArg Task.kept (State.task_onPlot (s.homeWrite a bs mode stamp) p q j (fun x => { x with near := nearUpdate x.near a bs }) (fun _ => rfl))

theorem State.kept_putParts (s : State) (p k : Nat) (launch : BitVec 32) (core : Bool) (bs : List Byte) (stamp : BitVec 3) (ps : List (Nat × Nat × Nat))
    (q j : Nat) : ((s.putParts p k launch core bs stamp ps).task q j).kept = (s.task q j).kept := by
  refine foldl_keeps (fun s : State => (s.task q j).kept) _ _ (fun s x _ => ?_) s
  unfold State.putPart
  split
  · exact kept_of_plots (State.postErr_frame ..).1 q j
  · split
    · exact State.kept_coreWrite ..
    · exact State.kept_homeWrite ..

/-- The task as its handler finds it. -/
def Task.inHandler (t : Task) (bpc : BitVec 40) : Task :=
  { t with trapv := t.trapv ||| 1, bpc := t.trapv &&& ~~~7, far := false, leaving := .no, rwait := [], rheld := some (bpc, t.rwait) }

theorem State.enterHandler_ok {s : State} {p k : Nat} {c : CauseRec} {bpc : BitVec 40} {ps : List (Nat × Nat × Nat)}
    (h : s.partHomes (dieOf p) (s.privPtr p (s.task p k).launch k) (piecesOf ((s.task p k).frame.toNat * 256) 256) = .ok ps) :
    s.enterHandler p k c bpc = ((s.putParts p k (s.task p k).launch true (wordBytes (frameHeader (s.task p k) bpc (some c) 2)) 0 ps).ready p k).onTask p k
      (fun t => t.inHandler bpc) := by
  unfold State.enterHandler
  dsimp only
  rw [h]
  rfl

/-- The handler is entered once the trap frame has its homes. -/
theorem State.task_enterHandler {s : State} {p k : Nat} {c : CauseRec} {bpc : BitVec 40} {ps : List (Nat × Nat × Nat)} (hk : k < 16)
    (h : s.partHomes (dieOf p) (s.privPtr p (s.task p k).launch k) (piecesOf ((s.task p k).frame.toNat * 256) 256) = .ok ps) :
    let v := (s.enterHandler p k c bpc).task p k
    v.results = ((s.task p k).regs, (s.task p k).ops, (s.task p k).heldWrites, .no) ∧ v.bpc = (s.task p k).trapv &&& ~~~7 ∧
      v.trapv = (s.task p k).trapv ||| 1 ∧ v.st = .ready := by
  have hkept := State.kept_putParts s p k (s.task p k).launch true (wordBytes (frameHeader (s.task p k) bpc (some c) 2)) 0 ps p k
  have hres := results_of_kept hkept
  have htrapv : (State.task _ p k).trapv = (s.task p k).trapv := congrArg Prod.fst (handler_of_kept hkept)
  dsimp only
  rw [State.enterHandler_ok h, State.task_onTask, if_pos ⟨rfl, rfl, hk⟩, State.task_ready, if_pos ⟨rfl, rfl, hk⟩]
  generalize (s.putParts p k _ true _ 0 ps).task p k = y at hres htrapv
  simp only [Task.results, Prod.mk.injEq] at hres
  obtain ⟨hregs, hops, hheld, -⟩ := hres
  refine ⟨?_, congrArg (· &&& ~~~7) htrapv, congrArg (· ||| 1) htrapv, rfl⟩
  simp only [Task.results, Task.inHandler, hregs, hops, hheld]

/-! ## What the issue of operations and the register window leave of the state -/

theorem State.handler_commitIssues {s : State} {cx : Cx} (ht : cx.t < 16) :
    ((s.commitIssues cx).task cx.p cx.t).handler = (s.task cx.p cx.t).handler := by
  obtain ⟨⟨os, ws, hs, hu⟩, -, -⟩ := State.task_issues ht cx.blk.acts s
  unfold State.commitIssues
  rw [handler_of_kept (kept_of_still (State.still_abortOther ..) cx.p cx.t), State.task_onTask, if_pos ⟨rfl, rfl, ht⟩, hu]
  rfl

theorem Task.handler_causeStrm (t : Task) (w : BitVec 64) : ({ t with causeStrm := w } : Task).handler = t.handler := rfl

theorem State.handler_showTask (s : State) (p k q j : Nat) : ((s.showTask p k).task q j).handler = (s.task q j).handler :=
  State.onTask_keeps Task.handler s p k q j _ (fun _ => rfl)

theorem State.handler_commitShows (s : State) (cx : Cx) (q j : Nat) : ((s.commitShows cx).task q j).handler = (s.task q j).handler := by
  unfold State.commitShows
  rw [State.handler_showTask]
  split
  · rfl
  · exact State.onTask_keeps Task.handler s cx.p cx.t q j _ (fun t => Task.handler_causeStrm t t.strmWord)

/-- While the other half has taken nothing, issuing a block's operations leaves what is around as it is. -/
theorem State.around_commitIssues_of {s : State} {cx : Cx} (hhalf : (s.plot cx.p).half cx.half = {}) (hno : s.taking cx.p (!cx.half) = false) :
    (s.commitIssues cx).around Plot.placed = s.around Plot.placed := by
  have hh := halves_of_around (State.around_issues Plot.window_ignores s cx)
  unfold State.commitIssues
  rw [State.around_abortOther Plot.placed_ignores Plot.placed_setHalf cx.blk (by rw [half_of_halves hh, hhalf]), State.around_issues Plot.placed_ignores]
  rw [← hno]
  exact congrArg (fun v : List TakeRec × (Nat → Half × Half) => v.1.any (fun x => x.of cx.p (!cx.half))) hh

/-- A state from which a task that leaves issues its block's operations: what that makes of the task, and of what is around. -/
theorem State.leaves_commitIssues {s : State} {cx : Cx} (ht : cx.t < 16) (hhalf : (s.plot cx.p).half cx.half = {})
    (hno : s.taking cx.p (!cx.half) = false) : let t := s.task cx.p cx.t
    let x := (s.commitIssues cx).commitShows cx
    let v := x.task cx.p cx.t
    v.leaving = t.leaving ∧ v.regs = t.regs ∧ v.ops.map Op.brief = t.ops.map Op.brief ++
      (cx.blk.acts.filter (fun x => !x.2.kind.immediate)).map (fun x => (x.1, x.2, cx.blk.bpc, [], false)) ∧
    v.stands = t.stands ∧ v.handler = t.handler ∧ x.around Plot.placed = s.around Plot.placed := by
  intro t x v
  obtain ⟨⟨hleave, hregs⟩, hbriefs, -⟩ := State.results_commitIssues (s := s) ht
  have hres := State.results_commitShows (s.commitIssues cx) cx cx.p cx.t
  simp only [Task.results, Prod.mk.injEq] at hres
  obtain ⟨r1, r2, -, r4⟩ := hres
  refine ⟨r4.trans hleave, r1.trans hregs, by rw [← hbriefs]; exact congrArg (List.map Op.brief) r2, ?_, ?_, ?_⟩
  · exact (State.stands_commitShows ..).trans (State.stands_commitIssues ht hhalf hno)
  · exact (State.handler_commitShows ..).trans (State.handler_commitIssues ht)
  · exact (State.around_commitShows Plot.placed_ignores ..).trans (State.around_commitIssues_of hhalf hno)

/-! ## The commit up to the trap -/

/-- A commit that has sent its task behind the block. -/
def State.behind (s : State) (cx : Cx) : State := (s.halted cx).onTask cx.p cx.t (fun t => t.goto cx.blk.after)

theorem State.transfer_trap {s : State} {cx : Cx} {n : BitVec 8} (h : cx.blk.branch = some (.trap n)) : s.transfer cx =
    (s.behind cx).raiseCause cx.p cx.t { cause := .trap, num := n, slot := cx.blk.slots.findIdx (fun r => r.st == .done && r.br.isSome) }
      (BitVec.ofNat 40 (cx.blk.bpc.toNat + 8 * (cx.blk.words.length + 1))) := by
  have e : BitVec.ofInt 40 ((cx.blk.bpc.toNat + 8 * (cx.blk.words.length + 1) : Nat) : Int) = BitVec.ofNat 40 (cx.blk.bpc.toNat + 8 * (cx.blk.words.length + 1)) :=
    BitVec.ofInt_natCast ..
  rw [← e, Block.after_cast]
  unfold State.transfer
  rw [Block.after_cast, Block.branch_eq, h]
  rfl

theorem Task.handler_flagged (t : Task) (b : Block) : ({ (t.writeFlags b) with rwait := [], refault := none } : Task).handler = t.handler := by
  rw [Task.writeFlags_eq]
  exact foldl_keeps Task.handler Task.orFlags _ (fun _ _ _ => rfl) t

section Behind

variable {w : State} {cx : Cx} (ht : cx.t < 16) (hi : ∀ x ∈ cx.blk.acts, x.2.kind.immediate = false ∨ x.2.kind.isTake = true)

theorem State.around_behind {γ : Type} {g : Plot → γ} (hg : Plot.Ignores g) (s : State) : (s.behind cx).around g = s.around g := by
  unfold State.behind State.halted
  rw [State.around_onTask hg]
  split
  · rw [State.around_onTask hg]
  · rfl

include hi

theorem no_immediate_act {k : CKind} (hk : k.immediate = true ∧ k.isTake = false) : ∀ x ∈ cx.blk.acts, x.2.kind ≠ k := by
  rintro x hx rfl
  rcases hi x hx with h | h
  · exact absurd (hk.1.symm.trans h) (by decide)
  · exact absurd (hk.2.symm.trans h) (by decide)

/-- Up to the trap, a commit without effects at its commit point frees its half and leaves what is around. -/
theorem State.around_toTrap {γ : Type} {g : Plot → γ} (hg : Plot.Ignores g) :
    (((w.commitWrites cx).commitEffects cx).behind cx).around g = (w.setHalf cx.p cx.half {}).around g := by
  rw [State.around_behind hg, State.around_commitEffects hg _ (fun x hx _ _ _ => no_immediate_act hi ⟨rfl, rfl⟩ x hx), State.around_commitWrites hg]

/-- In the state up to the trap no TAKE of the other half is under way, so that the trap discards no block that has taken anything. -/
theorem State.window_toTrap (hno : w.taking cx.p (!cx.half) = false) :
    let s := ((w.commitWrites cx).commitEffects cx).behind cx
    (s.plot cx.p).half cx.half = {} ∧ s.taking cx.p (!cx.half) = false := by
  intro s
  have hh := halves_of_around (State.around_toTrap (w := w) hi Plot.window_ignores)
  refine ⟨by rw [half_of_halves hh, half_setHalf], ?_⟩
  rw [← hno]
  exact congrArg (fun v : List TakeRec × (Nat → Half × Half) => v.1.any (fun x => x.of cx.p (!cx.half))) hh

include ht

theorem State.task_toTrap : let v := (((w.commitWrites cx).commitEffects cx).behind cx).task cx.p cx.t
    let y := (w.task cx.p cx.t).writeRegs cx.blk
    v.regs = y.regs ∧ v.ops = y.ops ∧ v.handler = (w.task cx.p cx.t).handler := by
  intro v y
  obtain ⟨b, hb⟩ := ((w.commitWrites cx).commitEffects cx).task_halted ht
  have hv : v = ({ ((w.commitWrites cx).commitEffects cx).task cx.p cx.t with halting := b } : Task).goto cx.blk.after := by
    unfold v State.behind
    rw [State.task_onTask, if_pos ⟨rfl, rfl, ht⟩, hb]
  have hres : v.results = y.results := by
    rw [hv]
    exact (results_of_kept (State.kept_commitEffects ..)).trans (State.results_commitWrites w ht)
  have hhandler : v.handler = (w.task cx.p cx.t).handler := by
    rw [hv]
    refine (handler_of_kept (State.kept_commitEffects ..)).trans ?_
    rw [State.task_commitWrites ht (fun x hx _ _ => no_immediate_act hi ⟨rfl, rfl⟩ x hx)]
    exact (Task.handler_flagged ..).trans (Task.writeRegs_keeps Task.handler (fun _ _ _ _ => rfl) (w.task cx.p cx.t) cx.blk)
  simp only [Task.results, Prod.mk.injEq] at hres
  exact ⟨hres.1, hres.2.1, hhandler⟩

end Behind

/-! ## The trap that ends its task -/

theorem State.postErr_takes (s : State) (kind : BitVec 8) (p k : Nat) (launch : BitVec 32) (bpc : BitVec 40) (c : CauseRec) (ended : Bool)
    (detail : BitVec 64) : (s.postErr kind p k launch bpc c ended detail).takes = s.takes := by
  unfold State.postErr State.postErrAt State.post
  split
  · rfl
  · split <;> rfl

section Ends

variable {s : State} {cx : Cx} {c : CauseRec} {bpc : BitVec 40} (ht : cx.t < 16) (hhalf : (s.plot cx.p).half cx.half = {})
  (hno : s.taking cx.p (!cx.half) = false)
include hhalf hno

/-- Where a task's block lies in the other half, it has taken nothing. -/
theorem untaken_of_half (h : Bool) (hk : (s.plot cx.p).halfOf cx.t = some h) : s.taking cx.p h = false := by
  rwa [Plot.halfOf_other hhalf hk]

theorem State.around_dropOther : ((s.dropBlock cx.p cx.t).withdraw cx.p cx.t).around Plot.placed = s.around Plot.placed :=
  (State.around_withdraw ..).trans
    (State.around_dropBlock Plot.placed_ignores Plot.placed_setHalf (untaken_of_half hhalf hno))

theorem State.window_endTask : ((s.endTask cx.p cx.t c bpc).plot cx.p).half cx.half = {} ∧ (s.endTask cx.p cx.t c bpc).taking cx.p (!cx.half) = false := by
  constructor
  · rcases (clears_endTask s cx.p cx.t c bpc).half cx.p cx.half with e | e
    · rw [e, hhalf]
    · exact e
  · have htakes : (s.endTask cx.p cx.t c bpc).takes = s.takes :=
      (State.postErr_takes ..).trans (congrArg (fun v : (State × (Nat → Die)) × (Nat → Placed) => v.1.1.takes) (State.around_dropOther hhalf hno))
    unfold State.taking at hno ⊢
    rw [htakes, hno]

include ht

/-- A task that its trap ends, once its block's operations are issued. -/
theorem State.endTask_commit : let t := s.task cx.p cx.t
    let x := ((s.endTask cx.p cx.t c bpc).commitIssues cx).commitShows cx
    let v := (x.settle cx.p cx.t).task cx.p cx.t
    let issued := (cx.blk.acts.filter (fun x => !x.2.kind.immediate)).map (fun x => (x.1, x.2, cx.blk.bpc, ([] : List Nat), false))
    (t.ops = [] → issued = [] → v = {}) ∧
    (issued ≠ [] → v.regs = t.regs ∧ v.ops.map Op.brief = t.ops.map Op.brief ++ issued ∧ v.leaving = .ended ∧ v.st = .running) ∧
    ∀ (l : Launch) (h : l.q < 8), s.launch? t.launch = some l → ((x.settle cx.p cx.t).queues[l.q]).waiting =
      (s.queues[l.q]).waiting ++ [errWords 0x01 cx.p cx.t t.launch bpc c false (s.wtimeOf cx.p) 0] := by
  intro t x v issued
  obtain ⟨hh, hn⟩ := State.window_endTask (c := c) (bpc := bpc) hhalf hno
  obtain ⟨hleave, hregs, hbriefs, hstands, -, haround⟩ := State.leaves_commitIssues ht hh hn
  obtain ⟨-, -, -, hpost⟩ := State.endTask_frame s (p := cx.p) c bpc ht
  rw [State.task_endTask s c bpc ht] at hleave hregs hbriefs hstands
  have hkept := results_of_kept (State.kept_drop s cx.p cx.t cx.p cx.t)
  simp only [Task.results, Prod.mk.injEq] at hkept
  obtain ⟨kregs, kops, -, -⟩ := hkept
  simp only [kops] at hbriefs
  simp only [kregs] at hregs
  have hsettle := State.settle_ended hleave
  have hqueues : (x.settle cx.p cx.t).queues = (s.endTask cx.p cx.t c bpc).queues := by
    refine Eq.trans ?_ (congrArg (fun v : (State × (Nat → Die)) × (Nat → Placed) => v.1.1.queues) haround)
    rw [hsettle]
    split
    · exact (State.vacate_leaveHost_frame x cx.p cx.t).1
    · rfl
  have hops : (x.task cx.p cx.t).ops = [] ↔ t.ops.map Op.brief ++ issued = [] := by
    rw [← hbriefs, List.map_eq_nil_iff]
  refine ⟨fun ho hz => ?_, fun hz => ?_, fun l hq hl => ?_⟩
  · have he : (x.task cx.p cx.t).ops = [] := hops.2 (by rw [ho, hz]; rfl)
    unfold v
    rw [hsettle, if_pos he, State.task_vacate _ _ ht]
  · have he : (x.task cx.p cx.t).ops ≠ [] := fun h => hz (List.append_eq_nil_iff.1 (hops.1 h)).2
    have hv : v = x.task cx.p cx.t := by
      unfold v
      rw [hsettle, if_neg he]
    rw [hv]
    exact ⟨hregs, hbriefs, hleave, congrArg (fun y : BitVec 40 × Bool × TState × WaitFor => y.2.2.1) hstands⟩
  · rw [← hpost l hq hl]
    exact congrArg (fun y : Vector LQueue 8 => (y[l.q]).waiting) hqueues

end Ends

/-! ## The trap that enters the handler -/

section Enters

variable {s t : State} {cx : Cx} {c : CauseRec} {bpc : BitVec 40} (ht : cx.t < 16) (hhalf : (s.plot cx.p).half cx.half = {})
  (hno : s.taking cx.p (!cx.half) = false) (hb : s.beside = t.beside)

theorem State.task_trapping (s : State) {p k : Nat} (c : CauseRec) (bpc : BitVec 40) (hk : k < 16) : let v := (s.trapping p k c bpc).task p k
    let t := s.task p k
    v.regs = t.regs ∧ v.ops = t.ops ∧ v.leaving = .trapping c bpc false ∧ v.st = .running ∧ v.handler = t.handler := by
  intro v t
  have hkept := State.kept_drop s p k p k
  have hres := results_of_kept hkept
  have hhan := handler_of_kept hkept
  unfold v State.trapping State.stamped
  rw [State.task_onTask, if_pos ⟨rfl, rfl, hk⟩, State.task_onTask, if_pos ⟨rfl, rfl, hk⟩]
  simp only [Task.results, Task.handler, Prod.mk.injEq] at hres hhan ⊢
  exact ⟨hres.1, hres.2.1, trivial, trivial, hhan⟩

include hhalf hno

theorem State.window_trapping : let u := s.trapping cx.p cx.t c bpc
    (u.plot cx.p).half cx.half = {} ∧ u.taking cx.p (!cx.half) = false ∧ u.around Plot.placed = s.around Plot.placed := by
  intro u
  have haround : u.around Plot.placed = s.around Plot.placed :=
    (State.around_onTask Plot.placed_ignores ..).trans ((State.around_onTask Plot.placed_ignores ..).trans (State.around_dropOther hhalf hno))
  refine ⟨?_, ?_, haround⟩
  · rcases ((clears_drop s cx.p cx.t).trans ((clears_onTask ..).trans (clears_onTask ..))).half cx.p cx.half with e | e
    · exact e.trans hhalf
    · exact e
  · rw [← hno]
    exact congrArg (fun v : (State × (Nat → Die)) × (Nat → Placed) => v.1.1.takes.any (fun x => x.of cx.p (!cx.half))) haround

include ht hb

/-- A task that enters its handler, once its block's operations are issued and no late result is owed. -/
theorem State.trapping_commit : let r := s.task cx.p cx.t
    let x := ((s.trapping cx.p cx.t c bpc).commitIssues cx).commitShows cx
    let v := (x.settle cx.p cx.t).task cx.p cx.t
    let issued := (cx.blk.acts.filter (fun x => !x.2.kind.immediate)).map (fun x => (x.1, x.2, cx.blk.bpc, ([] : List Nat), false))
    (∃ ps, t.partHomes (dieOf cx.p) (t.privPtr cx.p r.launch cx.t) (piecesOf (256 * r.frame.toNat) 256) = .ok ps) →
    v.regs = r.regs ∧ v.ops.map Op.brief = r.ops.map Op.brief ++ issued ∧
    (v.anyLate = false → v.bpc = r.trapv &&& ~~~7 ∧ v.trapv = r.trapv ||| 1 ∧ v.st = .ready) ∧
    (v.anyLate = true → v.st = .running ∧ v.leaving = .trapping c bpc false) := by
  rintro r x v issued ⟨ps, hps⟩
  obtain ⟨hh, hn, hbe⟩ := State.window_trapping (c := c) (bpc := bpc) hhalf hno
  obtain ⟨tregs, tops, tleave, tst, than⟩ := State.task_trapping s (p := cx.p) c bpc ht
  obtain ⟨hleave, hregs, hbriefs, hstands, hhan, haround⟩ := State.leaves_commitIssues ht hh hn
  have hst : (x.task cx.p cx.t).st = .running := (congrArg (fun y : BitVec 40 × Bool × TState × WaitFor => y.2.2.1) hstands).trans tst
  have hhan' := hhan.trans than
  simp only [Task.handler, Prod.mk.injEq] at hhan'
  obtain ⟨htrapv, hframe, hlaunch⟩ := hhan'
  have hxb : x.beside = t.beside := ((beside_of_around haround).trans (beside_of_around hbe)).trans hb
  have hps' : x.partHomes (dieOf cx.p) (x.privPtr cx.p (x.task cx.p cx.t).launch cx.t) (piecesOf ((x.task cx.p cx.t).frame.toNat * 256) 256) = .ok ps := by
    rw [partHomes_of_beside hxb, privPtr_of_beside hxb, hlaunch, hframe, Nat.mul_comm, hps]
  have hsettle := State.settle_trapping (hleave.trans tleave)
  rw [tregs] at hregs
  rw [tops] at hbriefs
  by_cases hl : (x.task cx.p cx.t).anyLate = true
  · have hv : v = x.task cx.p cx.t := by
      unfold v
      rw [hsettle, if_pos hl]
    rw [hv]
    exact ⟨hregs, hbriefs, fun h => absurd (hl.symm.trans h) (by decide), fun _ => ⟨hst, hleave.trans tleave⟩⟩
  · obtain ⟨hres, h1, h2, h3⟩ := State.task_enterHandler (c := c) (bpc := bpc) ht hps'
    simp only [Task.results, Prod.mk.injEq] at hres
    obtain ⟨eregs, eops, -, eleave⟩ := hres
    have hv : v = (x.enterHandler cx.p cx.t c bpc).task cx.p cx.t := by
      unfold v
      rw [hsettle, if_neg hl, State.freeIfDone_staying eleave]
    have hlate : v.anyLate = (x.task cx.p cx.t).anyLate := by rw [hv, Task.anyLate, eops, Task.anyLate]
    rw [hlate, hv, eregs, eops]
    exact ⟨hregs, hbriefs, fun _ => ⟨htrapv ▸ h1, htrapv ▸ h2, h3⟩, fun h => absurd h hl⟩

end Enters

/-! ## The obligation -/

/-- What a task's operations are, from what each is. -/
theorem acts_of_briefs {t : Task} {xs : List (Nat × CAct)} {b : BitVec 40} (h : t.ops.map Op.brief = xs.map (fun x => (x.1, x.2, b, ([] : List Nat), false))) :
    t.ops.map (fun o => (o.slot, o.act)) = xs ∧ (t.anyLate = true ↔ ∃ x ∈ xs, x.2.dst ≠ .none) := by
  have hacts : t.ops.map (fun o => (o.slot, o.act)) = xs := by
    have := congrArg (List.map (fun y : Nat × CAct × BitVec 40 × List Nat × Bool => (y.1, y.2.1))) h
    simpa [Op.brief, Function.comp_def] using this
  refine ⟨hacts, ?_⟩
  rw [← hacts]
  simp [Task.anyLate]

theorem State.commitAcc_none {s : State} {p k : Nat} {b : Block} (h : ∀ x ∈ b.acts, x.2.kind.accTile = none) : s.commitAcc p k b = s := by
  unfold State.commitAcc
  rw [List.filter_eq_nil_iff.2 (fun x hx => by simp [h x hx])]
  rfl

/-- A task without operations gets its block's results, and its block's operations, those of the acts issued. -/
theorem written_of_regs {v y : Task} {b : Block} {issued : List (Nat × CAct)} (ho : y.ops = []) (hregs : v.regs = (y.writeRegs b).regs)
    (hacts : v.ops.map (fun o => (o.slot, o.act)) = issued) :
    (∀ r ∈ b.slots, ∀ w, r.st = .done → r.val = some w → w.fits r.dst →
      (∀ q ∈ b.slots, q.st = .done → q.val.isSome → q.dst = r.dst → q = r) → v.regs.at r.dst = some w.stored) ∧
    (∀ d, (∀ r ∈ b.slots, r.st = .done → r.val.isSome → r.dst ≠ d) → v.regs.at d = y.regs.at d) ∧
    v.ops.map (fun o => (o.slot, o.act)) = issued := by
  have hfree : ∀ d, y.latePending d = false := fun d => by simp [Task.latePending, ho]
  rw [hregs]
  exact ⟨fun r hr w hd hv hf hu => (Task.writeRegs_result hr hd hv hf hu).1 (hfree _), fun d hd => Task.writeRegs_at_other hd, hacts⟩

/-- Settles O36: the trap raised behind the block, in the state that the commit's results and operations leave. -/
theorem trapInstructionTraps : Obligations.TrapInstructionTraps := by
  intro s t p h cx n hr hb hacts _ hops k next off ends issued
  obtain ⟨w, hv, he, haround⟩ := exec_blockCommit_around hr
  have halone := readyToCommit_alone hr
  have hbeside : w.beside = t.beside := (beside_of_around haround).trans rfl
  have hsame := readyToCommit_beside hr
  obtain ⟨rfl, rfl, ht, htask, -⟩ := readyToCommit_cx hr
  have hi : ∀ x ∈ cx.blk.acts, x.2.kind.immediate = false ∨ x.2.kind.isTake = true := fun x hx => (hacts x hx).1
  have hwt : w.task cx.p cx.t = cx.task := (task_of_view hv ..).trans htask.symm
  have hno : w.taking cx.p (!cx.half) = false := by
    have htakes : w.takes = t.takes.filter (fun x => !x.of cx.p cx.half) := congrArg (fun v => v.1.1.takes) haround
    unfold State.taking at halone ⊢
    rw [htakes, List.any_eq_false]
    exact fun x hx => List.any_eq_false.1 halone x (List.mem_filter.1 hx).1
  obtain ⟨hhalf, hnoP⟩ := State.window_toTrap hi hno
  obtain ⟨pregs, pops, phan⟩ := State.task_toTrap (w := w) ht hi
  have hcommit : (w.commit cx).commitAcc cx.p cx.t cx.blk = w.commit cx := State.commitAcc_none (fun x hx => (hacts x hx).2)
  have hfree := State.half_commit w (cx := cx) (fun x hx a e => by simpa [e, CKind.accTile] using (hacts x hx).2)
  have hpb : (((w.commitWrites cx).commitEffects cx).behind cx).beside = t.beside :=
    (beside_of_around ((State.around_toTrap hi Plot.placed_ignores).trans (State.around_setHalf Plot.placed_setHalf ..))).trans hbeside
  have hops' : ((w.task cx.p cx.t).writeRegs cx.blk).ops = [] := by
    have := Task.writeRegs_briefs (w.task cx.p cx.t) cx.blk
    rw [hwt, hops] at this
    rw [hwt]
    simpa using this
  rw [hcommit, State.commit_eq, State.transfer_trap hb] at he hfree
  generalize ((w.commitWrites cx).commitEffects cx).behind cx = x at hhalf hnoP pregs pops phan hpb he hfree
  rw [hwt] at pregs phan
  simp only [Task.handler, Prod.mk.injEq] at phan
  obtain ⟨htrapv, hframe, hlaunch⟩ := phan
  have hxops : (x.task cx.p cx.t).ops = [] := pops.trans hops'
  have hmap : issued.map (fun x => (x.1, x.2, cx.blk.bpc, ([] : List Nat), false)) = [] ↔ issued = [] := List.map_eq_nil_iff
  refine ⟨_, he, hfree, ?_⟩
  by_cases hends : ends
  · rw [State.raiseCause_ends _ rfl (by rwa [htrapv]), htrapv]
    obtain ⟨hgone, hstays, hpost⟩ := State.endTask_commit (c := { cause := .trap, num := n, slot := k, nested := cx.task.trapv.getLsbD 0 }) (bpc := next)
      ht hhalf hnoP
    rw [hlaunch] at hpost
    refine ⟨fun _ hz => hgone hxops (hmap.2 hz), fun _ hz => ?_, fun hn => absurd hends hn, fun l hq _ hl => ?_⟩
    · obtain ⟨hregs, hbriefs, hleave, hst⟩ := hstays (fun e => hz (hmap.1 e))
      rw [hxops, List.map_nil, List.nil_append] at hbriefs
      exact ⟨written_of_regs hops (hregs.trans pregs) (acts_of_briefs hbriefs).1, hleave, hst⟩
    · have hxs := hpb.trans hsame
      have hlook : x.launch? cx.task.launch = some l := (congrArg (fun v : State × (Nat → Die) × (Nat → Placed) => v.1.launch? cx.task.launch) hxs).trans hl
      have hqueues : x.queues = s.queues := congrArg (fun v : State × (Nat → Die) × (Nat → Placed) => v.1.queues) hxs
      have hwtime : x.wtimeOf cx.p = s.wtimeOf cx.p := congrArg (fun v : State × (Nat → Die) × (Nat → Placed) => (v.2.1 (dieOf cx.p)).wtime) hxs
      have := hpost l hq hlook
      rwa [hqueues, hwtime] at this
  · refine ⟨fun h => absurd h hends, fun h => absurd h hends, fun _ hfit hhomes => ?_, fun _ _ h => absurd h hends⟩
    rw [State.raiseCause_waits _ rfl (by rwa [htrapv]) (by rw [hframe, hlaunch, privArea_of_beside hpb, Nat.mul_comm]; exact hfit)]
    obtain ⟨hregs, hbriefs, hin, hlate⟩ := State.trapping_commit (c := { cause := .trap, num := n, slot := k }) (bpc := next) ht hhalf hnoP hpb
      (by rwa [hlaunch, hframe])
    rw [hxops, List.map_nil, List.nil_append] at hbriefs
    obtain ⟨hacted, hany⟩ := acts_of_briefs hbriefs
    rw [htrapv] at hin
    refine ⟨written_of_regs hops (hregs.trans pregs) hacted, fun hnone => hin (Bool.eq_false_iff.2 (fun h => ?_)), fun hex => hlate (hany.2 hex)⟩
    obtain ⟨y, hy, hd⟩ := hany.1 h
    exact hd (hnone y hy)

end Sys2Proof.Machine
end

