-- ==== Sys2Proof/Proofs/AccessChecks.lean ====
section
/-! PROOFS. The checks of an access in their order (R170 to R172, R175), and the operands that stores, AMO, CAS and CST capture (R182 to R186, R188). -/

namespace Sys2Proof.Machine

open Sys2Proof

/-! ## Checks 1 to 5: the pointer -/

theorem Ptr.usable_eq_false (q : Ptr) :
    q.usable = false ↔ q.valid = false ∨ q.low ≠ 0 ∨ (q.isPhys = false ∧ 2 ^ 40 < q.base + q.len) := by
  unfold Ptr.usable
  rw [Bool.and_eq_false_iff, Bool.and_eq_false_iff, Bool.or_eq_false_iff, decide_eq_false_iff_not, beq_eq_false_iff_ne, or_assoc, Nat.not_le]

section Pointer

variable {priv : Bool} {q : Ptr} {off : BitVec 64} {n al : Nat} {need : BitVec 8}

/-- The distance of an access from the start of its pointer's view. -/
def Ptr.reach (q : Ptr) (off : BitVec 64) : Int := q.cur.toNat + off.toInt

theorem ptrCheck_capt (h : q.usable = false) : ptrCheck priv q off n al need = .error { cause := .capt } := by
  simp [ptrCheck, h]

variable (hu : q.usable = true)
include hu

theorem ptrCheck_priv (h : q.isPhys = true ∧ priv = false) : ptrCheck priv q off n al need = .error { cause := .priv } := by
  simp [ptrCheck, hu, h]

variable (hp : ¬(q.isPhys = true ∧ priv = false))
include hp

theorem ptrCheck_capr (h : need &&& ~~~q.rights ≠ 0) : ptrCheck priv q off n al need = .error { cause := .capr } := by
  have hp' : ¬(q.isPhys && !priv) = true := by simpa using hp
  unfold ptrCheck
  rw [if_neg (by simp [hu]), if_neg hp', if_pos (by simpa using h)]

variable (hr : need &&& ~~~q.rights = 0)
include hr

/-- Checks 4 and 5 of a pointer that names what it may. -/
theorem ptrCheck_bounds : ptrCheck priv q off n al need =
    if q.reach off < 0 ∨ (q.viewLen : Int) < q.reach off + n then .error { cause := .capb }
    else if al ≠ 0 ∧ (q.start + (q.reach off).toNat) % al ≠ 0 then
      .error { cause := .align, obj := if q.isPhys then 0 else q.obj, off := if q.isPhys then 0 else BitVec.ofNat 40 (q.start + (q.reach off).toNat),
               phys := if q.isPhys then BitVec.ofNat 64 (q.start + (q.reach off).toNat) else 0 }
    else .ok (q.start + (q.reach off).toNat) := by
  have hp' : ¬(q.isPhys && !priv) = true := by simpa using hp
  unfold ptrCheck
  rw [if_neg (by simp [hu]), if_neg hp', if_neg (by simp [hr])]
  rfl

end Pointer

theorem State.access_error {s : State} {die : Nat} {priv : Bool} {q : Ptr} {off : BitVec 64} {n al : Nat} {need : BitVec 8} {side seq : Bool} {c : CauseRec}
    (h : ptrCheck priv q off n al need = .error c) : s.access die priv q off n al need side seq = .bad c := by
  unfold State.access
  rw [h]

theorem State.access_ok {s : State} {die : Nat} {priv : Bool} {q : Ptr} {off : BitVec 64} {n al : Nat} {need : BitVec 8} {side seq : Bool} {o : Nat}
    (h : ptrCheck priv q off n al need = .ok o) :
    s.access die priv q off n al need side seq = s.accHomes die q o n (need &&& (rW ||| rT) != 0) side seq := by
  unfold State.access
  rw [h]

/-! ## Checks 6 to 9 of a physical capability -/

section Phys

variable {s : State} {die : Nat} {q : Ptr} (hp : q.isPhys = true)
include hp

theorem State.partHomesBy_phys_ok {sized : Bool} {ps : List (Nat × Nat × Nat)} (h : ∀ x ∈ ps, s.homeOk x.1 = true) :
    s.partHomesBy sized die q ps = .ok ps := by
  induction ps with
  | nil => rfl
  | cons x ps ih =>
    obtain ⟨hx, hps⟩ := List.forall_mem_cons.1 h
    simp [State.partHomesBy, State.homeAt, hp, hx, ih hps]

theorem State.partHomesBy_phys_bad {sized : Bool} {ps : List (Nat × Nat × Nat)} (h : ∃ x ∈ ps, s.homeOk x.1 = false) :
    ∃ r, s.partHomesBy sized die q ps = .bad r ∧ r.cause = .absent := by
  induction ps with
  | nil => simp at h
  | cons x ps ih =>
    cases hx : s.homeOk x.1 with
    | false =>
      refine ⟨{ cause := .absent, phys := s.physAt die q x.1 }, ?_, rfl⟩
      simp only [State.partHomesBy, State.homeAt, hp, hx, if_true, Bool.true_or]
      rfl
    | true =>
      obtain ⟨y, hy, hf⟩ := h
      rcases List.mem_cons.1 hy with rfl | hy
      · exact absurd (hx.symm.trans hf) (by decide)
      · obtain ⟨r, hr, hc⟩ := ih ⟨y, hy, hf⟩
        exact ⟨r, by simp [State.partHomesBy, State.homeAt, hp, hx, hr], hc⟩

/-- What ABSENT and SCSPAN name of a physical address. -/
def physCause (c : Cause) (o : Nat) : CauseRec := { cause := c, obj := 0, off := 0, phys := BitVec.ofNat 64 o }

theorem State.accHomes_phys (o n : Nat) (wr side seq : Bool) : s.accHomes die q o n wr side seq =
    if 0x10 ≤ spaceOf o && spaceOf o ≤ 0x12 then .bad { cause := .capb }
    else if seq && isHost o then .bad (physCause .scspan o)
    else if side && isHost o then .bad (physCause .absent o)
    else if n ≠ 0 && decide (o / 2 ^ 48 ≠ (o + n - 1) / 2 ^ 48) then .bad (physCause .absent o)
    else match s.partHomesBy false die q (piecesOf o n) with
      | .ok ps => (match if wr then ps.find? (fun x => inSteward x.1) else none with
        | some x => .bad { cause := .absent, phys := BitVec.ofNat 64 x.1 }
        | none => .ok ps)
      | r => r := by
  have hd : s.descCheck die q o = .ok [] := by
    unfold State.descCheck
    rw [if_pos hp]
  have hh : s.hostBacked die q o = isHost o := by
    unfold State.hostBacked
    rw [if_pos hp]
  unfold State.accHomes
  rw [hd, hh, hp]
  rw [Bool.true_and, Bool.true_and, Bool.and_true]
  rfl

end Phys

/-! ## Checks 6 to 9 of an object -/

/-- What ABSENT, ALIGN and SCSPAN name of an object offset. -/
def Ptr.causeAt (q : Ptr) (c : Cause) (o : Nat) : CauseRec := { cause := c, obj := q.obj, off := BitVec.ofNat 40 o, phys := 0 }

/-- What check 6 answers where the walk to the descriptor does not reach it. -/
def Ptr.unfound (q : Ptr) (o : Nat) : Tr → Homes
  | .page ob f m => .bad { cause := .page, obj := ob, off := f, nested := m }
  | .wait => .wait
  | _ => .bad (q.causeAt .absent o)

section Object

variable {s : State} {die : Nat} {q : Ptr} (hp : q.isPhys = false)
include hp

theorem State.accHomes_obj (o n : Nat) (wr side seq : Bool) : s.accHomes die q o n wr side seq =
    match s.descCheck die q o with
    | .bad c => .bad c
    | .wait => .wait
    | .ok _ =>
      if seq && s.hostBacked die q o then .bad (q.causeAt .scspan o)
      else if side && s.hostBacked die q o then .bad (q.causeAt .absent o)
      else s.partHomesBy false die q (piecesOf o n) := by
  unfold State.accHomes
  rw [hp, Bool.false_and, Bool.false_and, if_neg Bool.false_ne_true]
  cases s.descCheck die q o with
  | bad c => rfl
  | wait => rfl
  | ok _ =>
    dsimp only
    split
    · rfl
    · split
      · rfl
      · rw [Bool.false_and, Bool.false_and, if_neg Bool.false_ne_true, Bool.and_false]
        cases s.partHomesBy false die q (piecesOf o n) <;> rfl

theorem State.accHomes_error {o n : Nat} {wr side seq : Bool} {t : Tr} (h : s.extFor die q.obj o = .error t) :
    s.accHomes die q o n wr side seq = q.unfound o t := by
  have hd : s.descCheck die q o = q.unfound o t := by
    unfold State.descCheck
    rw [hp, if_neg Bool.false_ne_true]
    generalize s.extFor die q.obj o = r at h
    subst h
    cases t <;> rfl
  rw [State.accHomes_obj hp, hd]
  cases t <;> rfl

theorem State.accHomes_found {o n : Nat} {wr side seq : Bool} {d0 d1 : BitVec 64} {x : Option (BitVec 64 × BitVec 64)}
    (h : s.extFor die q.obj o = .ok (d0, d1, x)) : s.accHomes die q o n wr side seq =
    if d1.getLsbD 0 = false ∨ d1.extractLsb' 2 2 = 3 ∨ (d0.extractLsb' 0 41).toNat ≤ o then .bad (q.causeAt .absent o)
    else if seq = true ∧ d1.getLsbD 4 = true then .bad (q.causeAt .scspan o)
    else if side = true ∧ d1.getLsbD 4 = true then .bad (q.causeAt .absent o)
    else s.partHomesBy false die q (piecesOf o n) := by
  have hd : s.descCheck die q o = if d1.getLsbD 0 = false ∨ d1.extractLsb' 2 2 = 3 ∨ (d0.extractLsb' 0 41).toNat ≤ o
      then .bad (q.causeAt .absent o) else .ok [] := by
    unfold State.descCheck
    rw [hp, if_neg Bool.false_ne_true, h]
    simp only [Bool.or_eq_true, Bool.not_eq_true', beq_iff_eq, decide_eq_true_eq, or_assoc]
    rfl
  have hh : s.hostBacked die q o = d1.getLsbD 4 := by
    unfold State.hostBacked
    rw [hp, if_neg Bool.false_ne_true, h]
  rw [State.accHomes_obj hp, hd, hh]
  by_cases hc : d1.getLsbD 0 = false ∨ d1.extractLsb' 2 2 = 3 ∨ (d0.extractLsb' 0 41).toNat ≤ o
  · rw [if_pos hc, if_pos hc]
  · rw [if_neg hc, if_neg hc]
    simp only [Bool.and_eq_true]

theorem State.partHomesBy_cons (y : Nat × Nat × Nat) (ps : List (Nat × Nat × Nat)) : s.partHomesBy false die q (y :: ps) =
    match s.translateBy false die q.obj y.1 with
    | .absent => .bad { cause := .absent, obj := q.obj, off := BitVec.ofNat 40 y.1, phys := s.physAt die q y.1 }
    | .page ob f m => .bad { cause := .page, obj := ob, off := f, nested := m }
    | .wait => .wait
    | .home a => match s.partHomesBy false die q ps with
      | .ok hs => .ok ((a, y.2.1, y.2.2) :: hs)
      | r => r := by
  simp only [State.partHomesBy, hp]
  rfl

/-- The first part without a home decides. -/
theorem State.partHomesBy_first {pre ps : List (Nat × Nat × Nat)} {r : Homes} (hpre : ∀ z ∈ pre, ∃ b, s.translateBy false die q.obj z.1 = .home b)
    (hr : s.partHomesBy false die q ps = r) (hn : ∀ hs, r ≠ .ok hs) : s.partHomesBy false die q (pre ++ ps) = r := by
  induction pre with
  | nil => exact hr
  | cons z pre ih =>
    obtain ⟨⟨b, hb⟩, hrest⟩ := List.forall_mem_cons.1 hpre
    rw [List.cons_append, State.partHomesBy_cons hp, hb]
    dsimp only
    rw [ih hrest]
    cases r with
    | ok hs => exact absurd rfl (hn hs)
    | bad c => rfl
    | wait => rfl

theorem State.partHomesBy_homes {ps : List (Nat × Nat × Nat)} (h : ∀ y ∈ ps, ∃ b, s.translateBy false die q.obj y.1 = .home b) :
    ∃ hs, s.partHomesBy false die q ps = .ok hs ∧ hs.map (fun x => x.2) = ps.map (fun x => x.2) ∧
      hs.map (fun x => Tr.home x.1) = ps.map (fun x => s.translateBy false die q.obj x.1) := by
  induction ps with
  | nil => exact ⟨[], rfl, rfl, rfl⟩
  | cons y ps ih =>
    obtain ⟨⟨b, hb⟩, hrest⟩ := List.forall_mem_cons.1 h
    obtain ⟨hs, he, h2, h1⟩ := ih hrest
    refine ⟨(b, y.2.1, y.2.2) :: hs, ?_, ?_, ?_⟩
    · rw [State.partHomesBy_cons hp, hb]
      dsimp only
      rw [he]
    · simp [h2]
    · simp [h1, hb]

end Object

/-! ## Captures -/

theorem BitVec.low_half (x : BitVec 64) : (lo32 x).zeroExtend 64 = BitVec.ofNat 64 (x.toNat % 2 ^ 32) := by
  apply BitVec.eq_of_toNat_eq
  simp [lo32]

theorem BitVec.high_half (x : BitVec 64) : (x.extractLsb' 32 32).zeroExtend 64 = BitVec.ofNat 64 (x.toNat / 2 ^ 32) := by
  apply BitVec.eq_of_toNat_eq
  have := x.isLt
  simp only [BitVec.toNat_setWidth, BitVec.extractLsb'_toNat, Nat.shiftRight_eq_div_pow, BitVec.toNat_ofNat]
  omega

theorem Fmt.width_le (fmt : Fmt) : (fmtOf fmt).width ≤ 64 := by
  cases fmt <;> decide

theorem FpFmt.toNat_take {f : FpFmt} (h : f.width ≤ 64) (b : BitVec 64) : (f.take b).toNat = b.toNat % 2 ^ f.width := by
  unfold FpFmt.take
  rw [BitVec.toNat_ofNat, Nat.mod_eq_of_lt]
  exact (Nat.mod_lt _ (Nat.two_pow_pos _)).trans_le (Nat.pow_le_pow_right (by decide) h)

section Slot

variable {s : State} {cx : Cx} {p : Pred} {d : Dst} {a b c : Opnd} {q : Ptr} {off x : BitVec 64} {mx : MX}

theorem asks_store {α : Type} {i : Instr} {rd : Cx → Rd α} {k : α → CKind} {y : α} (hr : s.runs cx p) (ha : cx.ptr a = .val q) (hb : cx.int b = .val off)
    (hy : rd cx = .val y) (hi : exec i s = storeSlot p mx a b rd k .none s) (hw : ∀ n v, k y ≠ .wrs n v) :
    Asks s cx i { kind := k y, mx := some mx, ptr := q, off := off } :=
  asks_of_capture (hi.trans (runSlot_val hr (by rw [ha, Rd.bind_val, hb, Rd.bind_val, hy]; rfl))) rfl hw

theorem asks_amo {α : Type} {i : Instr} {rd : Cx → Rd α} {k : α → CKind} {y : α} (hr : s.runs cx p) (hf : cx.free { dst := d }) (ha : cx.ptr a = .val q)
    (hy : rd cx = .val y) (hi : exec i s = amoSlot p d mx a rd k s) (hw : ∀ n v, k y ≠ .wrs n v) :
    Asks s cx i { kind := k y, mx := some mx, ptr := q, dst := d } :=
  asks_of_capture_dst (hi.trans (runSlot_val hr (by rw [ha, Rd.bind_val, hy]; rfl))) hf rfl hw

theorem asks_st {i : Instr} {sz : Size} {m : StMode} (hr : s.runs cx p) (ha : cx.ptr a = .val q) (hb : cx.int b = .val off) (hc : cx.int c = .val x)
    (hi : exec i s = stSlot p mx sz m a b c s) :
    Asks s cx i { kind := .store (sizeBytes sz) m (if m == .plain then 0 else sizeBytes sz) (x.zeroExtend 640), mx := some mx, ptr := q, off := off } :=
  asks_store (k := fun x : BitVec 64 => .store (sizeBytes sz) m (if m == .plain then 0 else sizeBytes sz) (x.zeroExtend 640)) hr ha hb hc hi (by simp)

theorem asks_fls {i : Instr} {fmt : Fmt} {tagged : Bool} {m : StMode} {w : FReg} (hr : s.runs cx p) (ha : cx.ptr a = .val q) (hb : cx.int b = .val off)
    (hc : cx.fp c = .val w) (hi : exec i s = flsStore p mx fmt tagged m a b c s) :
    Asks s cx i { kind := .store (flsBytes fmt tagged) m (if tagged || m != .plain then flsBytes fmt tagged else 0) (flsData fmt tagged w),
                  mx := some mx, ptr := q, off := off } :=
  asks_store (k := fun w : FReg => .store (flsBytes fmt tagged) m (if tagged || m != .plain then flsBytes fmt tagged else 0) (flsData fmt tagged w))
    hr ha hb hc hi (by simp)

theorem asks_vls {i : Instr} {tagged : Bool} {m : StMode} {v : VReg} (hr : s.runs cx p) (ha : cx.ptr a = .val q) (hb : cx.int b = .val off)
    (hc : cx.vec c = .val v) (hi : exec i s = vlsStore p mx tagged m a b c s) :
    Asks s cx i { kind := .store (if tagged then 80 else 64) m (if tagged then 16 else 32) (vlsData tagged v), mx := some mx, ptr := q, off := off } :=
  asks_store (k := fun v : VReg => .store (if tagged then 80 else 64) m (if tagged then 16 else 32) (vlsData tagged v)) hr ha hb hc hi (by simp)

theorem asks_cst {y : Ptr} (hr : s.runs cx p) (ha : cx.ptr a = .val q) (hb : cx.int b = .val off) (hc : cx.ptr c = .val y) :
    Asks s cx (.cst p mx a b c) { kind := .cst y, mx := some mx, ptr := q, off := off } :=
  asks_store (k := fun y : Ptr => .cst y) hr ha hb hc rfl (by simp)

theorem asks_amoInt {i : Instr} {wide : Bool} {o : AmoOp} (hr : s.runs cx p) (hf : cx.free { dst := d }) (ha : cx.ptr a = .val q) (hc : cx.int c = .val x)
    (hi : exec i s = amoInt p d mx wide o a c s) : Asks s cx i { kind := .amo o (if wide then 8 else 4) x, mx := some mx, ptr := q, dst := d } :=
  asks_amo (k := fun x : BitVec 64 => .amo o (if wide then 8 else 4) x) hr hf ha hc hi (by simp)

theorem asks_amoFp {i : Instr} {o : AmoOp} {w : FReg} (hr : s.runs cx p) (hf : cx.free { dst := d }) (ha : cx.ptr a = .val q) (hc : cx.fp c = .val w)
    (hi : exec i s = amoFp p d mx o a c s) : Asks s cx i { kind := .amo o 4 w.bits, mx := some mx, ptr := q, dst := d } :=
  asks_amo (k := fun w : FReg => .amo o 4 w.bits) hr hf ha hc hi (by simp)

theorem asks_cas32 (hr : s.runs cx p) (hf : cx.free { dst := d }) (ha : cx.ptr a = .val q) (hc : cx.int c = .val x) : Asks s cx (.cas32 p d mx a c)
    { kind := .cas 4 (BitVec.ofNat 64 (x.toNat % 2 ^ 32)) (BitVec.ofNat 64 (x.toNat / 2 ^ 32)), mx := some mx, ptr := q, dst := d } := by
  rw [← BitVec.low_half, ← BitVec.high_half]
  exact asks_amo (k := fun x : BitVec 64 => .cas 4 ((lo32 x).zeroExtend 64) ((x.extractLsb' 32 32).zeroExtend 64)) hr hf ha hc rfl (by simp)

theorem asks_cas64 {pair : BitVec 5} {u z : BitVec 64} (hr : s.runs cx p) (hf : cx.free { dst := d }) (ha : cx.ptr a = .val q)
    (hu : cx.int (.g (pair ++ 0#1)) = .val u) (hz : cx.int (.g (pair ++ 1#1)) = .val z) :
    Asks s cx (.cas64 p d mx a pair) { kind := .cas 8 u z, mx := some mx, ptr := q, dst := d } :=
  asks_amo (k := fun x : BitVec 64 × BitVec 64 => .cas 8 x.1 x.2) (y := (u, z)) hr hf ha (by rw [hu, Rd.bind_val, hz, Rd.bind_val]) rfl (by simp)

end Slot

/-! ## The obligation -/

theorem ite_of {c p q : Prop} [Decidable c] (h : c → p) (hn : ¬c → q) : if c then p else q := by
  split
  · exact h ‹_›
  · exact hn ‹_›

/-- The checks of a physical access in their order. -/
theorem State.access_phys {s : State} {die : Nat} {priv : Bool} {q : Ptr} {off : BitVec 64} {n al : Nat} {need : BitVec 8} {side seq : Bool} {o : Nat}
    (hp : q.isPhys = true) (ho : ptrCheck priv q off n al need = .ok o) :
    let a := s.access die priv q off n al need side seq
    let ps := piecesOf o n
    let bad := fun (c : Cause) => ∃ r, a = .bad r ∧ r.cause = c
    if 0x10 ≤ spaceOf o ∧ spaceOf o ≤ 0x12 then bad .capb
    else if seq = true ∧ isHost o = true then bad .scspan
    else if side = true ∧ isHost o = true then bad .absent
    else if n ≠ 0 ∧ o / 2 ^ 48 ≠ (o + n - 1) / 2 ^ 48 then bad .absent
    else if ∃ x ∈ ps, s.homeOk x.1 = false then bad .absent
    else if need &&& (rW ||| rT) ≠ 0 ∧ ∃ x ∈ ps, inSteward x.1 = true then bad .absent
    else a = .ok ps := by
  intro a ps bad
  have ha : a = _ := (State.access_ok ho).trans (State.accHomes_phys hp o n (need &&& (rW ||| rT) != 0) side seq)
  have e1 : (0x10 ≤ spaceOf o && spaceOf o ≤ 0x12) = true ↔ 0x10 ≤ spaceOf o ∧ spaceOf o ≤ 0x12 := by
    rw [Bool.and_eq_true, decide_eq_true_iff, decide_eq_true_iff]
  have e4 : (decide (n ≠ 0) && decide (o / 2 ^ 48 ≠ (o + n - 1) / 2 ^ 48)) = true ↔ n ≠ 0 ∧ o / 2 ^ 48 ≠ (o + n - 1) / 2 ^ 48 := by
    rw [Bool.and_eq_true, decide_eq_true_iff, decide_eq_true_iff]
  simp only [e1, e4, Bool.and_eq_true] at ha
  split
  · rename_i h
    exact ⟨_, ha.trans (if_pos h), rfl⟩
  rename_i h
  rw [if_neg h] at ha
  split
  · rename_i h
    exact ⟨_, ha.trans (if_pos h), rfl⟩
  rename_i h
  rw [if_neg h] at ha
  split
  · rename_i h
    exact ⟨_, ha.trans (if_pos h), rfl⟩
  rename_i h
  rw [if_neg h] at ha
  split
  · rename_i h
    exact ⟨_, ha.trans (if_pos h), rfl⟩
  rename_i h
  rw [if_neg h] at ha
  split
  · rename_i h
    obtain ⟨r, hr, hc⟩ := State.partHomesBy_phys_bad (die := die) (sized := false) hp h
    rw [hr] at ha
    exact ⟨r, ha, hc⟩
  rename_i hok
  rw [State.partHomesBy_phys_ok hp (fun x hx => by simpa using fun h => hok ⟨x, hx, h⟩)] at ha
  dsimp only at ha
  split
  · rename_i h
    obtain ⟨hw, x, hx, hsteward⟩ := h
    obtain ⟨y, hy⟩ := Option.isSome_iff_exists.1 (List.find?_isSome (p := fun x => inSteward x.1).2 ⟨x, hx, hsteward⟩)
    rw [if_pos (by simpa using hw), hy] at ha
    exact ⟨_, ha, rfl⟩
  · rename_i h
    have hnone : (if (need &&& (rW ||| rT) != 0) = true then ps.find? (fun x => inSteward x.1) else none) = none := by
      split
      · rename_i hw
        exact List.find?_eq_none.2 (fun x hx hs => h ⟨by simpa using hw, x, hx, hs⟩)
      · rfl
    rw [hnone] at ha
    exact ha

/-- The checks of an access to an object in their order, from the walk to its descriptor on. -/
theorem State.access_object {s : State} {die : Nat} {priv : Bool} {q : Ptr} {off : BitVec 64} {n al : Nat} {need : BitVec 8} {side seq : Bool} {o : Nat}
    (hp : q.isPhys = false) (ho : ptrCheck priv q off n al need = .ok o) :
    let a := s.access die priv q off n al need side seq
    let ps := piecesOf o n
    let badAt := fun (c : Cause) (i : Nat) => ∃ r, a = .bad r ∧ r.cause = c ∧ (q.isPhys = false → r.obj = q.obj ∧ r.off = BitVec.ofNat 40 i)
    let pages := fun (t : Tr) => ∀ b f m, t = .page b f m → ∃ r, a = .bad r ∧ r.cause = .page ∧ r.obj = b ∧ r.off = f
    (∀ t, s.extFor die q.obj o = .error t → pages t ∧ (t = .wait → a = .wait) ∧ (t = .absent → badAt .absent o)) ∧
    ∀ d0 d1 x, s.extFor die q.obj o = .ok (d0, d1, x) →
      if d1.getLsbD 0 = false ∨ d1.extractLsb' 2 2 = 3 ∨ (d0.extractLsb' 0 41).toNat ≤ o then badAt .absent o
      else if seq = true ∧ d1.getLsbD 4 = true then badAt .scspan o
      else if side = true ∧ d1.getLsbD 4 = true then badAt .absent o
      else
        let tr := fun (i : Nat) => s.translateBy false die q.obj i
        (∀ pre y post, ps = pre ++ y :: post → (∀ z ∈ pre, ∃ b, tr z.1 = .home b) →
          (tr y.1 = .absent → badAt .absent y.1) ∧ pages (tr y.1) ∧ (tr y.1 = .wait → a = .wait)) ∧
        ((∀ y ∈ ps, ∃ b, tr y.1 = .home b) → ∃ hs, a = .ok hs ∧ hs.map (fun x => x.2) = ps.map (fun x => x.2) ∧
          hs.map (fun x => Tr.home x.1) = ps.map (fun x => tr x.1)) := by
  intro a ps badAt pages
  have ha : a = s.accHomes die q o n (need &&& (rW ||| rT) != 0) side seq := State.access_ok ho
  have named : ∀ c i, a = .bad (q.causeAt c i) → badAt c i := fun c i h => ⟨_, h, rfl, fun _ => ⟨rfl, rfl⟩⟩
  refine ⟨fun t ht => ?_, fun d0 d1 x hd => ?_⟩
  · have e := ha.trans (State.accHomes_error hp ht)
    refine ⟨?_, ?_, ?_⟩
    · rintro b f m rfl
      exact ⟨_, e, rfl, rfl, rfl⟩
    · rintro rfl
      exact e
    · rintro rfl
      exact named _ _ e
  · have e := ha.trans (State.accHomes_found hp hd)
    split
    · rename_i h
      exact named _ _ (e.trans (if_pos h))
    rename_i h
    rw [if_neg h] at e
    split
    · rename_i h
      exact named _ _ (e.trans (if_pos h))
    rename_i h
    rw [if_neg h] at e
    split
    · rename_i h
      exact named _ _ (e.trans (if_pos h))
    rename_i h
    rw [if_neg h] at e
    refine ⟨fun pre y post hps hpre => ?_, fun hall => ?_⟩
    · have hcons := State.partHomesBy_cons (s := s) (die := die) hp y post
      have first : ∀ r, s.partHomesBy false die q (y :: post) = r → (∀ hs, r ≠ .ok hs) → a = r := fun r hr hn => by
        rw [e, show piecesOf o n = _ from hps]
        exact State.partHomesBy_first hp hpre hr hn
      refine ⟨fun ht => ?_, fun b f m ht => ?_, fun ht => ?_⟩
      · rw [show s.translateBy false die q.obj y.1 = _ from ht] at hcons
        exact ⟨_, first _ hcons (by simp), rfl, fun _ => ⟨rfl, rfl⟩⟩
      · rw [show s.translateBy false die q.obj y.1 = _ from ht] at hcons
        exact ⟨_, first _ hcons (by simp), rfl, rfl, rfl⟩
      · rw [show s.translateBy false die q.obj y.1 = _ from ht] at hcons
        exact first _ hcons (by simp)
    · rw [e]
      exact State.partHomesBy_homes hp hall

/-- Settles O24: the checks by the branches of `ptrCheck` and `accHomes`; the captures form by form. -/
theorem storesAsk : Obligations.StoresAsk := by
  refine ⟨fun s die priv q off n al need side seq => ?_, ?_⟩
  · intro a e o ps bad badAt
    refine ite_of (fun h => ⟨_, State.access_error (ptrCheck_capt ((Ptr.usable_eq_false q).2 h)), rfl⟩) (fun h => ?_)
    have hu : q.usable = true := by
      rw [← Bool.not_eq_false, Ptr.usable_eq_false]
      exact h
    refine ite_of (fun h => ⟨_, State.access_error (ptrCheck_priv hu h), rfl⟩) (fun hpriv => ?_)
    refine ite_of (fun h => ⟨_, State.access_error (ptrCheck_capr hu hpriv h), rfl⟩) (fun h => ?_)
    have hb := ptrCheck_bounds (off := off) (n := n) (al := al) hu hpriv (Decidable.not_not.1 h)
    refine ite_of (fun h => ⟨_, State.access_error (hb.trans (if_pos h)), rfl⟩) (fun h => ?_)
    replace hb := hb.trans (if_neg h)
    refine ite_of (fun h => ⟨_, State.access_error (hb.trans (if_pos h)), rfl, fun hp => ?_⟩) (fun h => ?_)
    · rw [hp]
      exact ⟨rfl, rfl⟩
    replace hb := hb.trans (if_neg h)
    exact ite_of (fun hp => State.access_phys hp hb) (fun hp => State.access_object (Bool.eq_false_iff.2 hp) hb)
  · intro s cx p d mx a b c e g r q y off x w v sz fmt tagged wide pair u z hr hf ha hb hc he hg hq hu hz n f st amo fn fd vn va vd wn
    have hfd : flsData fmt tagged w = fd := by
      unfold flsData
      dsimp only
      rw [FpFmt.toNat_take (Fmt.width_le fmt)]
    have hstore := fun (i : Instr) (m : StMode) (hi : exec i s = stSlot p mx sz m a b c s) => asks_st (mx := mx) hr ha hb hc hi
    have hfls := fun (i : Instr) (m : StMode) (hi : exec i s = flsStore p mx fmt tagged m a b e s) => hfd ▸ asks_fls (mx := mx) hr ha hb he hi
    have hvls := fun (i : Instr) (m : StMode) (hi : exec i s = vlsStore p mx tagged m a b g s) => asks_vls (mx := mx) hr ha hb hg hi
    have hamo := fun (i : Instr) (o : AmoOp) (hi : exec i s = amoInt p d mx wide o a c s) => asks_amoInt (mx := mx) hr hf ha hc hi
    have hfp := fun (i : Instr) (o : AmoOp) (hi : exec i s = amoFp p d mx o a e s) => asks_amoFp (mx := mx) hr hf ha he hi
    refine ⟨hstore _ .plain rfl, hstore _ .fill rfl, hstore _ .setf rfl, hstore _ .clre rfl, ?_, ?_, hvls _ .plain rfl, hvls _ .fill rfl,
      hvls _ .setf rfl, hvls _ .clre rfl, asks_cst hr ha hb hq, hamo _ .add rfl, hamo _ .and rfl, hamo _ .or rfl, hamo _ .xor rfl, hamo _ .mins rfl,
      hamo _ .maxs rfl, hamo _ .minu rfl, hamo _ .maxu rfl, hamo _ .xchg rfl, hfp _ .fadd rfl, hfp _ .fmax rfl, hfp _ .fmin rfl,
      asks_cas32 hr hf ha hc, asks_cas64 hr hf ha hu hz⟩
    · simpa using hfls _ .plain rfl
    · simpa using hfls _ .fill rfl

end Sys2Proof.Machine
end

