-- ==== Sys2Proof/Proofs/PresenceLoads.lean ====
section
/-! PROOFS. The loads that meet presence or a tag (R66, R168, R178, R180, R181, R183, R184, R188): the words of one home read in one event. -/

namespace Sys2Proof.Machine

open Sys2Proof

/-! ## The values of loads -/

theorem BitVec.and_ones (y : BitVec 640) {w : Nat} (hw : w ≤ 64) : y.extractLsb' 0 64 &&& ones w = (y.extractLsb' 0 w).zeroExtend 64 := by
  apply BitVec.eq_of_toNat_eq
  have h1 : 2 ^ w - 1 < 2 ^ 64 := Nat.lt_of_lt_of_le (Nat.sub_lt (Nat.two_pow_pos w) (by decide)) (Nat.pow_le_pow_right (by decide) hw)
  have h2 : y.toNat % 2 ^ w < 2 ^ 64 := (Nat.mod_lt _ (Nat.two_pow_pos w)).trans_le (Nat.pow_le_pow_right (by decide) hw)
  rw [ones, BitVec.toNat_and, BitVec.toNat_ofNat, Nat.mod_eq_of_lt h1, Nat.and_two_pow_sub_one_eq_mod]
  simp only [BitVec.extractLsb'_toNat, Nat.shiftRight_zero, BitVec.toNat_setWidth]
  rw [Nat.mod_eq_of_lt h2, Nat.mod_mod_of_dvd _ (Nat.pow_dvd_pow 2 hw)]

theorem BitVec.shift_signExtend (y : BitVec 640) {w : Nat} (h0 : 0 < w) (hw : w ≤ 64) :
    (y.extractLsb' 0 64 <<< (64 - w)).sshiftRight (64 - w) = (y.extractLsb' 0 w).signExtend 64 := by
  apply BitVec.eq_of_getLsbD_eq
  intro i hi
  have e1 : (y.extractLsb' 0 64 <<< (64 - w)).msb = y.getLsbD (w - 1) := by
    rw [BitVec.msb_eq_getLsbD_last, BitVec.getLsbD_shiftLeft, BitVec.getLsbD_extractLsb']
    have h1 : ¬ (64 - 1 < 64 - w) := by omega
    have h2 : 64 - 1 - (64 - w) = w - 1 := by omega
    have h3 : w - 1 < 64 := by omega
    simp [h1, h2, h3]
  have e2 : (y.extractLsb' 0 w).msb = y.getLsbD (w - 1) := by
    rw [BitVec.msb_eq_getLsbD_last, BitVec.getLsbD_extractLsb']
    simp [h0]
  rw [BitVec.getLsbD_sshiftRight, BitVec.getLsbD_signExtend, e1, e2]
  by_cases h : i < w
  · have h1 : 64 - w + i < 64 := by omega
    have h2 : ¬64 - w + i < 64 - w := by omega
    have h3 : 64 - w + i - (64 - w) = i := by omega
    simp [h, h1, h2, h3, hi]
  · have h1 : ¬64 - w + i < 64 := by omega
    simp [h, h1, hi]

theorem LOut.int_val (x : BitVec 640) (sz : Size) (sgn full tag : Bool) : (LOut.int (sizeBytes sz) sgn).val x full tag =
    .int (if sgn then (x.extractLsb' 0 (8 * sizeBytes sz)).signExtend 64 else (x.extractLsb' 0 (8 * sizeBytes sz)).zeroExtend 64) := by
  have h0 : 0 < 8 * sizeBytes sz := by cases sz <;> decide
  have hw : 8 * sizeBytes sz ≤ 64 := by cases sz <;> decide
  rw [← BitVec.and_ones x hw, ← BitVec.shift_signExtend x h0 hw]
  rfl

theorem LOut.fls_val (x : BitVec 640) (fmt : Fmt) (tagged full tag : Bool) : let f := fmtOf fmt
    let b := BitVec.ofNat 64 (x.toNat % 2 ^ f.width)
    (LOut.fls fmt tagged).val x full tag = .fp ⟨b, BitVec.ofNat 6 (if (f.dec b.toNat).isFin
      then (if tagged then min (x.extractLsb' (if fmt = .f64 then 64 else 32) 6).toNat f.p else f.p) else 0)⟩ := by
  intro f b
  have hb : f.take (x.extractLsb' 0 64) = b := by
    unfold FpFmt.take b
    rw [BitVec.extractLsb'_toNat, Nat.shiftRight_zero, Nat.mod_mod_of_dvd _ (Nat.pow_dvd_pow 2 (Fmt.width_le fmt))]
  rw [← hb]
  rfl

/-! ## The event -/

section Event

variable {s : State} {cx : Cx} {p : Pred} {l : LoadSpec} {a b : Opnd} {q : Ptr} {off : BitVec 64} {ps : List Piece} {y : Piece}

theorem State.loadHomes_found (hf : s.found cx q off l.n l.align l.need l.mode.side ps) (hs : l.mx.scope ≠ .seq) : s.loadHomes cx l q off = .ok ps := by
  have hseq : (l.mx.scope == .seq) = false := by simpa using hs
  unfold State.loadHomes
  rw [hseq]
  rcases hf with ⟨h0, h⟩ | ⟨h0, h⟩
  · rw [h0]
    exact h
  · rw [h, if_neg (by simpa using h0)]

/-- A load that meets presence reads the pieces of one home. -/
theorem exec_presence_load {i : Instr} (hr : s.runs cx p) (ha : cx.ptr a = .val q) (hb : cx.int b = .val off) (hm : cx.mustWait l.mx = false)
    (hs : l.mx.scope ≠ .seq) (hmode : l.mode ≠ .plain) (hf : s.found cx q off l.n l.align l.need l.mode.side ps) :
    let left := ps.filter (fun y => !cx.sr.parts.contains y.2.1)
    left[cx.pick % left.length]? = some y → exec i s = loadSlot p l a b s →
    exec i s = .next (s.loadWhole cx l q off (left.filter (fun x => x.1 + y.2.1 == y.1 + x.2.1)) (if q.isPhys then none else some q.obj, ps)) := by
  intro left hy hi
  have hseq : (l.mx.scope == .seq) = false := by simpa using hs
  have hplain : (l.mode != .plain) = true := by simpa using hmode
  have he : s.load cx l q off = s.loadWhole cx l q off (runOf left y) (if q.isPhys then none else some q.obj, ps) := by
    unfold State.load
    rw [hm, State.loadHomes_found hf hs, hseq, hplain]
    simp only [Bool.false_eq_true, if_false, if_true]
    rw [hy]
  rw [hi]
  exact (runSlot_val hr (by rw [ha, Rd.bind_val, hb]; rfl)).trans (congrArg _ he)

variable {now : List Piece} {obj : Option (BitVec 24)}

theorem State.loadWhole_poison {x : Piece} (h : now.find? (fun x => (s.sideAt x.1).poison) = some x) :
    s.loadWhole cx l q off now (obj, ps) = s.abortSlot cx { cause := .poison, phys := BitVec.ofNat 64 x.1 } := by
  unfold State.loadWhole
  rw [h]
  rfl

variable (hp : now.find? (fun x => (s.sideAt x.1).poison) = none)
include hp

theorem State.loadWhole_waits (hm : l.mode = .waitf ∨ l.mode = .take) (hf : now.all (fun x => s.allFull x.1 x.2.2) = false) :
    s.loadWhole cx l q off now (obj, ps) = s.stallLoad cx l.mx
      (.presence ((ps.filter (fun x => !cx.sr.parts.contains x.2.1)).map (fun x => (x.1, x.2.2))) obj.isNone) := by
  unfold State.loadWhole
  rw [hp]
  dsimp only
  rw [hf, if_pos (by rcases hm with h | h <;> rw [h] <;> rfl)]

/-- What an event leaves of the near cache: the first part of a load drops the lines its order asks for, and CLD brings the line of another plot. -/
def State.loadNear (s : State) (cx : Cx) (l : LoadSpec) (now : List Piece) : State :=
  let s1 := if cx.sr.parts = [] then s.acquire cx l.mx else s
  if l.mode == .cld then
    (match now with
    | x :: _ => if homeDist cx.p x.1 = 0 then s1 else s1.nearLine cx.p x.1
    | [] => s1)
  else s1

/-- What a load holds once it has read some pieces. -/
def Cx.loaded (cx : Cx) (s : State) (now : List Piece) : BitVec 640 :=
  cx.sr.acc ||| BitVec.ofNat 640 (now.foldl (fun m x => m + s.rdNat x.1 x.2.2 * 2 ^ (8 * x.2.1)) 0)

theorem State.loadWhole_reads (hm : (l.mode = .waitf ∨ l.mode = .take) → now.all (fun x => s.allFull x.1 x.2.2) = true) :
    let miss := cx.sr.smiss || now.any (fun x => s.readerMismatch cx.p x.1 l.mx.scope)
    let parts := now.map (fun x => x.2.1) ++ cx.sr.parts
    s.loadWhole cx l q off now (obj, ps) =
      if parts.length < ps.length then (s.loadNear cx l now).setSlot cx { cx.sr with
        acc := cx.loaded s now, parts := parts, smiss := miss, gate := none, homes := (obj, ps) }
      else (s.loadNear cx l now).loadDone cx l
        (l.out.val (cx.loaded s now) (now.all (fun x => s.allFull x.1 x.2.2)) (now.any (fun x => (s.sideAt x.1).tag))) miss
        (if l.mode == .take then some { kind := .take l.n l.align, mx := some l.mx, ptr := q, off := off } else none) := by
  have hgo : ((l.mode == .waitf || l.mode == .take) && !now.all (fun x => s.allFull x.1 x.2.2)) = false := by
    cases hf : now.all (fun x => s.allFull x.1 x.2.2) with
    | true => exact Bool.and_false _
    | false =>
      have hn : ¬(l.mode = .waitf ∨ l.mode = .take) := fun h => absurd (hf.symm.trans (hm h)) (by decide)
      simpa using hn
  unfold State.loadWhole
  rw [hp]
  dsimp only
  rw [hgo]
  unfold State.loadNear
  simp only [List.isEmpty_iff, beq_iff_eq, Bool.false_eq_true, if_false]
  rfl

end Event

/-! ## The obligation -/

section Loads

variable {s : State} {cx : Cx} {p : Pred} {l : LoadSpec} {a b : Opnd} {q : Ptr} {off : BitVec 64} {ps : List Piece} {y : Piece}

/-- The pieces that the event of a load reads: those not yet read whose homes follow that of y. -/
def Cx.atHome (cx : Cx) (ps : List Piece) (y : Piece) : List Piece :=
  (ps.filter (fun y => !cx.sr.parts.contains y.2.1)).filter (fun x => x.1 + y.2.1 == y.1 + x.2.1)

/-- What a load that meets presence does: poison aborts the block; WAITF and TAKE wait for full words; else the words are read. -/
theorem presence_load {i : Instr} (hr : s.runs cx p) (ha : cx.ptr a = .val q) (hb : cx.int b = .val off) (hm : cx.mustWait l.mx = false)
    (hs : l.mx.scope ≠ .seq) (hmode : l.mode ≠ .plain)
    (hy : (ps.filter (fun y => !cx.sr.parts.contains y.2.1))[cx.pick % (ps.filter (fun y => !cx.sr.parts.contains y.2.1)).length]? = some y)
    (hi : exec i s = loadSlot p l a b s) (hf : s.found cx q off l.n l.align l.need l.mode.side ps) :
    let left := ps.filter (fun y => !cx.sr.parts.contains y.2.1)
    let now := cx.atHome ps y
    let full := now.all (fun x => s.allFull x.1 x.2.2)
    let miss := cx.sr.smiss || now.any (fun x => s.readerMismatch cx.p x.1 l.mx.scope)
    let parts := now.map (fun x => x.2.1) ++ cx.sr.parts
    let bad := now.find? (fun x => (s.sideAt x.1).poison)
    let t := s.loadNear cx l now
    (∀ x, bad = some x → exec i s = .next (s.abortSlot cx { cause := .poison, phys := BitVec.ofNat 64 x.1 })) ∧
    ((l.mode = .waitf ∨ l.mode = .take → full = true) → bad = none →
      (parts.length < ps.length → exec i s = .next (t.setSlot cx { cx.sr with
        acc := cx.loaded s now, parts := parts, smiss := miss, gate := none, homes := (if q.isPhys then none else some q.obj, ps) })) ∧
      (ps.length ≤ parts.length → Ends s ((if miss then t.bump cx.p 29 1 else t).bump cx.p 12 1) cx i
        { val := some (l.out.val (cx.loaded s now) full (now.any (fun x => (s.sideAt x.1).tag))), dst := l.dst, smiss := miss,
          act := if l.mode == .take then some { kind := .take l.n l.align, mx := some l.mx, ptr := q, off := off } else none,
          acq := if miss then 0 else BitVec.twoPow 8 l.mx.stream.toNat })) ∧
    (l.mode = .waitf ∨ l.mode = .take → full = false → bad = none →
      exec i s = .next (s.stallLoad cx l.mx (.presence (left.map (fun x => (x.1, x.2.2))) q.isPhys))) := by
  intro left now full miss parts bad t
  have he : exec i s = .next (s.loadWhole cx l q off now (if q.isPhys then none else some q.obj, ps)) :=
    exec_presence_load hr ha hb hm hs hmode hf hy hi
  have hobj : (if q.isPhys then none else some q.obj : Option (BitVec 24)).isNone = q.isPhys := by
    cases q.isPhys <;> rfl
  refine ⟨fun x hx => ?_, fun hfull hnone => ?_, fun hw hfull hnone => ?_⟩
  · rw [he, State.loadWhole_poison hx]
  · have hreads := State.loadWhole_reads (cx := cx) (l := l) (q := q) (off := off) (ps := ps) (obj := if q.isPhys then none else some q.obj) hnone hfull
    refine ⟨fun h => ?_, fun h => ?_⟩
    · rw [he, hreads, if_pos h]
    · have hdone := he.trans (congrArg _ (hreads.trans (if_neg (Nat.not_lt.2 h))))
      exact ⟨fun hc => hdone.trans (congrArg _ (finish_free hc)), fun hc => hdone.trans (congrArg _ (finish_clash hc))⟩
  · rw [he, State.loadWhole_waits hnone hw hfull, hobj]

end Loads

/-- Settles O23: each form is one of the loads that meet presence, with its own size, rights and value. -/
theorem presenceLoads : Obligations.PresenceLoads := by
  intro s cx p d mx a b q off sz sgn fmt tagged ps hr ha hb hm hs left y hy now full s1 X miss parts bad checked dies ends waits take f w int fb ft fp
    vec vn va
  have form : ∀ (l : LoadSpec) (i : Instr) (v : Val) (act : Option CAct) (t : State), l.mx = mx → l.dst = d → l.mode ≠ .plain →
      exec i s = loadSlot p l a b s → l.out.val X full (now.any (fun x => (s.sideAt x.1).tag)) = v →
      (if l.mode == .take then some { kind := .take l.n l.align, mx := some l.mx, ptr := q, off := off } else none) = act → s.loadNear cx l now = t →
      s.found cx q off l.n l.align l.need l.mode.side ps →
      dies i ∧ ((l.mode = .waitf ∨ l.mode = .take → full = true) → ends i v act t) ∧ (l.mode = .waitf ∨ l.mode = .take → full = false → waits i) := by
    rintro l i v act t rfl rfl hmode hi rfl rfl rfl hf
    exact presence_load hr ha hb hm hs hmode hy hi hf
  refine ⟨fun hc => ?_, fun hc => ?_, fun hc => ?_, fun hc => ?_, fun hc => ?_, fun hc => ?_⟩
  · obtain ⟨h1, h2, h3⟩ := form (ldSpec d mx sz sgn .waitf) (.ldWaitf p d mx sz sgn a b) int none s1 rfl rfl (by rintro ⟨⟩) rfl
      (LOut.int_val X sz sgn ..) rfl rfl hc
    obtain ⟨g1, g2, -⟩ := form (ldSpec d mx sz false .pres) (.ldPres p d mx sz a b) (.pred full) none s1 rfl rfl (by rintro ⟨⟩) rfl rfl rfl rfl hc
    exact ⟨h1, g1, fun h => h2 (fun _ => h), h3 (.inl rfl), g2 (by simp [ldSpec])⟩
  · obtain ⟨h1, h2, h3⟩ := form (ldSpec d mx sz sgn .take) (.ldTake p d mx sz sgn a b) int (take (sizeBytes sz) (sizeBytes sz)) s1 rfl rfl (by rintro ⟨⟩) rfl
      (LOut.int_val X sz sgn ..) rfl rfl hc
    exact ⟨h1, fun h => h2 (fun _ => h), h3 (.inr rfl)⟩
  · obtain ⟨h1, h2, h3⟩ := form (flsSpec d mx fmt tagged .waitf) (.flsLdWaitf p d mx fmt tagged a b) fp none s1 rfl rfl (by rintro ⟨⟩) rfl
      (LOut.fls_val X fmt tagged ..) rfl rfl (by simpa [flsSpec] using (show s.found cx q off (flsBytes fmt tagged) (flsBytes fmt tagged) rR LMode.waitf.side ps from hc))
    exact ⟨h1, fun h => h2 (fun _ => h), h3 (.inl rfl)⟩
  · obtain ⟨h1, h2, h3⟩ := form (vlsSpec d mx tagged .waitf) (.vlsLdWaitf p d mx tagged a b) vec none s1 rfl rfl (by rintro ⟨⟩) rfl rfl rfl rfl hc
    exact ⟨h1, fun h => h2 (fun _ => h), h3 (.inl rfl)⟩
  · obtain ⟨h1, h2, h3⟩ := form (vlsSpec d mx tagged .take) (.vlsLdTake p d mx tagged a b) vec (take vn va) s1 rfl rfl (by rintro ⟨⟩) rfl rfl rfl rfl hc
    exact ⟨h1, fun h => h2 (fun _ => h), h3 (.inr rfl)⟩
  · obtain ⟨h1, h2, -⟩ := form (cldSpec d mx) (.cld p d mx a b)
      (.ptr (ptrOfBytes (leBytes X.toNat 32) (now.any (fun x => (s.sideAt x.1).tag)))) none _ rfl rfl (by rintro ⟨⟩) rfl rfl rfl rfl hc
    exact ⟨h1, h2 (by simp [cldSpec])⟩

end Sys2Proof.Machine
end

