-- ==== Sys2Proof/Proofs/Wakes.lean ====
section
/-! PROOFS. Who wakes (R66, R343), and an operation that ends after its event has changed of its task the state alone (R177). -/

namespace Sys2Proof.Machine

open Sys2Proof

/-! ## Waking -/

/-- One step of waking a plot's tasks. -/
def State.wakeSlot (s : State) (p : Nat) (f : WaitFor → Bool) (k : Nat) : State :=
  let t := s.task p k
  if !f t.wait then s
  else if t.st == .wait then s.ready p k
  else if t.st == .saved then s.setTask p k { t with woken := true }
  else s

theorem State.wakePlot_eq (s : State) (p : Nat) (f : WaitFor → Bool) : s.wakePlot p f = slotIdx.foldl (fun s k => s.wakeSlot p f k) s := rfl

theorem State.wakeSlot_other {s : State} {p k q j : Nat} (f : WaitFor → Bool) (h : ¬(q = p ∧ j = k)) : (s.wakeSlot p f k).task q j = s.task q j := by
  have hn : ¬(q = p ∧ j = k ∧ k < 16) := fun e => h ⟨e.1, e.2.1⟩
  unfold State.wakeSlot
  dsimp only
  split
  · rfl
  · split
    · rw [State.task_ready, if_neg hn]
    · split
      · rw [State.task_setTask, if_neg hn]
      · rfl

theorem State.wakeSlot_ready {s : State} {p k : Nat} (f : WaitFor → Bool) (h : (s.task p k).st = .ready) : s.wakeSlot p f k = s := by
  unfold State.wakeSlot
  simp [h]

theorem State.wakeSlot_wakes {s : State} {p k : Nat} {f : WaitFor → Bool} (hk : k < 16) (h : (s.task p k).st = .wait) (hf : f (s.task p k).wait = true) :
    ((s.wakeSlot p f k).task p k).st = .ready := by
  unfold State.wakeSlot
  simp only [hf, h, Bool.not_true, Bool.false_eq_true, if_false, beq_self_eq_true, if_true]
  rw [State.task_ready, if_pos ⟨rfl, rfl, hk⟩]

/-- Waking leaves a READY task READY. -/
theorem State.wakePlot_ready {s : State} {p q j : Nat} (f : WaitFor → Bool) (h : (s.task q j).st = .ready) : ((s.wakePlot p f).task q j).st = .ready := by
  rw [State.wakePlot_eq]
  refine foldl_inv_mem (P := fun u : State => (u.task q j).st = .ready) (fun u hu k _ => ?_) h
  by_cases hq : q = p ∧ j = k
  · obtain ⟨rfl, rfl⟩ := hq
    rwa [State.wakeSlot_ready f hu]
  · rwa [State.wakeSlot_other f hq]

/-- Every task of the plot that waits for what f names becomes READY. -/
theorem State.wakePlot_wakes {s : State} {q j : Nat} {f : WaitFor → Bool} (hj : j < 16) (h : (s.task q j).st = .wait) (hf : f (s.task q j).wait = true) :
    ((s.wakePlot q f).task q j).st = .ready := by
  have hm : j ∈ slotIdx := List.mem_range.2 hj
  obtain ⟨as, bs, e⟩ := List.append_of_mem hm
  rw [State.wakePlot_eq, e, List.foldl_append, List.foldl_cons]
  have hready : ∀ (ks : List Nat) (u : State), (u.task q j).st = .ready → ((ks.foldl (fun s k => s.wakeSlot q f k) u).task q j).st = .ready := by
    intro ks u hu
    refine foldl_inv_mem (P := fun u : State => (u.task q j).st = .ready) (fun u hu k _ => ?_) hu
    by_cases hk : j = k
    · subst hk
      rwa [State.wakeSlot_ready f hu]
    · rwa [State.wakeSlot_other f (fun e => hk e.2)]
  refine hready bs _ ?_
  have hnodup : j ∉ as := by
    have : (as ++ j :: bs).Nodup := e ▸ List.nodup_range
    exact fun ha => (List.nodup_append.1 this).2.2 j ha j (List.mem_cons_self ..) rfl
  have hsame : (as.foldl (fun s k => s.wakeSlot q f k) s).task q j = s.task q j :=
    foldl_keeps (fun u : State => u.task q j) _ _ (fun u k hk => State.wakeSlot_other f (fun e => hnodup (e.2 ▸ hk))) s
  exact State.wakeSlot_wakes hj (by rw [hsame, h]) (by rw [hsame, hf])

theorem State.wakePlot_other {s : State} {p q : Nat} (j : Nat) (f : WaitFor → Bool) (h : q ≠ p) : (s.wakePlot p f).task q j = s.task q j :=
  foldl_keeps (fun u : State => u.task q j) _ _ (fun _ _ _ => State.wakeSlot_other f (fun e => h e.1)) s

/-- A plot that is not listed has no task that waits. -/
theorem SMap.get_unlisted {α : Type} {m : SMap α} {k : Nat} (h : k ∉ m.map (·.1)) (d : α) : m.get k d = d := by
  induction m with
  | nil => rfl
  | cons x t ih =>
    rw [List.map_cons, List.mem_cons, not_or] at h
    simp only [SMap.get]
    rw [if_neg (fun e => h.1 e.symm), ih h.2]

theorem Plot.task_default (j : Nat) : ({} : Plot).task j = {} := by
  unfold Plot.task
  split
  · simp
  · rfl

/-- Every task of the wafer that waits for what f names becomes READY. -/
theorem State.wakeAll_wakes {s : State} {q j : Nat} {f : WaitFor → Bool} (hj : j < 16) (h : (s.task q j).st = .wait) (hf : f (s.task q j).wait = true) :
    ((s.wakeAll f).task q j).st = .ready := by
  have hm : q ∈ s.plots.map (·.1) := by
    by_contra hn
    have e : s.task q j = {} := by
      unfold State.task State.plot
      rw [SMap.get_unlisted hn, Plot.task_default]
    rw [e] at h
    cases h
  change (((s.plots.map (·.1)).foldl (fun s p => s.wakePlot p f) s).task q j).st = .ready
  have key : ∀ (ps : List Nat) (u : State), (u.task q j).st = .ready ∨ (u.task q j = s.task q j ∧ q ∈ ps) →
      ((ps.foldl (fun s p => s.wakePlot p f) u).task q j).st = .ready := by
    intro ps
    induction ps with
    | nil => exact fun u hu => hu.elim id (fun hu => absurd hu.2 (List.not_mem_nil))
    | cons p ps ih =>
      intro u hu
      rw [List.foldl_cons]
      refine ih _ ?_
      rcases hu with hu | ⟨hu, hq⟩
      · exact .inl (State.wakePlot_ready f hu)
      · by_cases hp : q = p
        · subst hp
          exact .inl (State.wakePlot_wakes hj (by rw [hu, h]) (by rw [hu, hf]))
        · exact .inr ⟨(State.wakePlot_other j f hp).trans hu, (List.mem_cons.1 hq).resolve_left hp⟩
  exact key _ s (.inr ⟨rfl, hm⟩)

/-! ## Operations that end after their event -/

theorem Task.opEnds_still (t : Task) (o : Op) (late : Option Val) : t.still.opEnds o late = (t.opEnds o late).still := by
  have hf : t.still.ops.find? o.same = t.ops.find? o.same := rfl
  unfold Task.opEnds
  rw [hf]
  cases t.ops.find? o.same with
  | none => rfl
  | some q =>
    dsimp only
    rw [apply_ite Task.still]
    rfl

/-- An operation that ends where its task is as it was but for its state and its turn. -/
theorem State.finishOp_still {s u : State} {p k : Nat} {o : Op} (late : Option Val) (h : s.performs p k o) (hu : (u.task p k).still = (s.task p k).still) :
    ((u.finishOp p k o late).task p k).ops = ((s.task p k).opEnds o late).ops ∧
    ((u.finishOp p k o late).task p k).regs = ((s.task p k).opEnds o late).regs := by
  obtain ⟨hk, -, -, -, hl, -⟩ := h
  have hleave : (u.task p k).leaving = .no := (show (u.task p k).still.leaving = (s.task p k).still.leaving from congrArg Task.leaving hu).trans hl
  obtain ⟨hops, hregs⟩ := State.task_finishOp (s := u) o late hk hleave
  have hends : ((u.task p k).opEnds o late).still = ((s.task p k).opEnds o late).still := by
    rw [← Task.opEnds_still, ← Task.opEnds_still, hu]
  exact ⟨hops.trans (show Task.ops (Task.still _) = Task.ops (Task.still _) from congrArg Task.ops hends),
    hregs.trans (show Task.regs (Task.still _) = Task.regs (Task.still _) from congrArg Task.regs hends)⟩

theorem over_of_still {s u : State} {p k : Nat} {o : Op} (h : s.performs p k o) (hu : (u.task p k).still = (s.task p k).still) :
    s.over (u.finishOp p k o none) p k o := by
  obtain ⟨hops, hregs⟩ := State.finishOp_still none h hu
  exact ⟨fun q hq => Task.over_opEnds _ o _ q (hops ▸ hq), fun hd => hregs.trans (Task.regs_opEnds_none _ _ hd)⟩

theorem lands_of_still {s u : State} {p k : Nat} {o : Op} {v : Val} (h : s.performs p k o) (hu : (u.task p k).still = (s.task p k).still) :
    s.lands (u.finishOp p k o (some v)) p k o v := by
  obtain ⟨hops, hregs⟩ := State.finishOp_still (some v) h hu
  obtain ⟨hops', hregs'⟩ := State.finishOp_still (u := s) (some v) h rfl
  have hs := lands_of_finishOp (u := s) (v := v) h rfl
  unfold State.lands State.over at hs ⊢
  rw [hops', hregs'] at hs
  rwa [hops, hregs]

/-- As an operation of a task that stays ends, no task changes its state. -/
theorem State.st_finishOp {s : State} {p k : Nat} (o : Op) (late : Option Val) (h : (s.task p k).leaving = .no) (q j : Nat) :
    ((s.finishOp p k o late).task q j).st = (s.task q j).st := by
  obtain ⟨x, y, e⟩ := State.finishOp_eq o late h
  rw [e, State.task_setTask]
  split
  · rename_i hq
    rw [hq.1, hq.2.1]
    exact Task.opEnds_keeps Task.st (fun _ _ _ _ => rfl) (s.task p k) o late
  · rfl

theorem State.finishOp_plot {γ : Type} {g : Plot → γ} (hg : ∀ x ts, g { x with tasks := ts } = g x) {s : State} {p k : Nat} (o : Op) (late : Option Val)
    (h : (s.task p k).leaving = .no) (q : Nat) : g ((s.finishOp p k o late).plot q) = g (s.plot q) := by
  obtain ⟨x, y, e⟩ := State.finishOp_eq o late h
  rw [e]
  exact State.onPlot_keeps g s p q (fun x => hg x _)

end Sys2Proof.Machine
end

