-- ==== Sys2Proof/Proofs/SyncForms.lean ====
section
/-! PROOFS. Engine commands, semaphores and barriers (R199, R315 to R325, R383 to R393): their forms in the slot, and what the signals, SSET and BARA do as
they perform. -/

namespace Sys2Proof.Machine

open Sys2Proof

/-! ## In the slot -/

section Slot

variable {s : State} {cx : Cx} {p : Pred} {d : Dst} {a b c : Opnd} {q r l : Ptr} {x y : BitVec 64} {mx : MX}

theorem asks_xcpy (hr : s.runs cx p) (ha : cx.ptr a = .val q) (hb : cx.ptr b = .val r) (hc : cx.int c = .val x) :
    Asks s cx (.xcpy p mx a b c) { kind := .xcpy r x, mx := some mx, ptr := q } :=
  asks_of_capture (runSlot_val hr (by rw [ha, Rd.bind_val, hb, Rd.bind_val, hc]; rfl)) rfl (by simp)

theorem asks_xchn (hr : s.runs cx p) (ha : cx.ptr a = .val q) (hc : cx.int c = .val x) :
    Asks s cx (.xchn p mx a c) { kind := .xchn x, mx := some mx, ptr := q } :=
  asks_of_capture (runSlot_val hr (by rw [ha, Rd.bind_val, hc]; rfl)) rfl (by simp)

theorem asks_xred (hr : s.runs cx p) (ha : cx.ptr a = .val q) (hb : cx.ptr b = .val r) (hc : cx.ptr c = .val l) :
    Asks s cx (.xred p mx a b c) { kind := .xred r l, mx := some mx, ptr := q } :=
  asks_of_capture (runSlot_val hr (by rw [ha, Rd.bind_val, hb, Rd.bind_val, hc]; rfl)) rfl (by simp)

theorem asks_xcol {i : Instr} {f : ColForm} (hr : s.runs cx p) (ha : cx.int a = .val x) (hc : cx.int c = .val y) (hi : exec i s = xcolSlot p mx f a c s) :
    Asks s cx i { kind := .xcol f x y, mx := some mx } :=
  asks_of_capture (hi.trans (runSlot_val hr (by rw [ha, Rd.bind_val, hc]; rfl))) rfl (by simp)

theorem asks_xregReg (hr : s.runs cx p) (ha : cx.int a = .val x) (hb : cx.ptr b = .val q) :
    Asks s cx (.xregReg p mx a b) { kind := .xregReg x q, mx := some mx, ptr := q } :=
  asks_of_capture (runSlot_val hr (by rw [ha, Rd.bind_val, hb]; rfl)) rfl (by simp)

theorem asks_xregRel (hr : s.runs cx p) (ha : cx.int a = .val x) : Asks s cx (.xregRel p mx a) { kind := .xregRel x, mx := some mx } :=
  asks_of_capture (runSlot_val hr (by rw [ha]; rfl)) rfl (by simp)

theorem asks_capture2 {i : Instr} {f : BitVec 64 → BitVec 64 → CKind} (hr : s.runs cx p) (ha : cx.int a = .val x) (hb : cx.int b = .val y)
    (hi : exec i s = capture2 p a b f s) (hw : ∀ n v, f x y ≠ .wrs n v) : Asks s cx i { kind := f x y } :=
  asks_of_capture (hi.trans (runSlot_val hr (by rw [ha, Rd.bind_val, hb]; rfl))) rfl hw

theorem asks_bara (hr : s.runs cx p) (hf : cx.free { dst := d }) (ha : cx.int a = .val x) : Asks s cx (.bara p d a) { kind := .bara x, dst := d } :=
  asks_of_capture_dst (runSlot_val hr (by rw [ha]; rfl)) hf rfl (by simp)

theorem BitVec.low_byte (x : BitVec 64) : (x.extractLsb' 0 8).toNat = x.toNat % 256 := by
  rw [BitVec.extractLsb'_toNat, Nat.shiftRight_zero]

theorem BitVec.low_short (x : BitVec 64) : (x.extractLsb' 0 16).toNat = x.toNat % 2 ^ 16 := by
  rw [BitVec.extractLsb'_toNat, Nat.shiftRight_zero]

theorem BitVec.zeroExtend_ofNat (v : BitVec 16) : v.zeroExtend 64 = BitVec.ofNat 64 v.toNat := by
  apply BitVec.eq_of_toNat_eq
  simp

theorem gives_semSrd (hr : s.runs cx p) (hf : cx.free { dst := d }) (ha : cx.int a = .val x) :
    Gives s cx (.semSrd p d a) d (.int (BitVec.ofNat 64 ((s.plot cx.p).sem (x.toNat % 256)).toNat)) := by
  rw [← BitVec.low_byte, ← BitVec.zeroExtend_ofNat]
  exact (runSlot_val hr (by rw [ha]; rfl)).trans (congrArg _ (result_free hf))

/-- A wait on a semaphore that does not cover it. -/
theorem exec_swait_stalls {i : Instr} {take : Bool} {u : Nat} (hr : s.runs cx p) (ha : cx.int a = .val x) (hb : cx.int b = .val y)
    (hi : exec i s = swaitSlot p d take a b s) (hu : cx.lowerTakes (x.toNat % 256) = .val u) (ht : y.toNat % 2 ^ 16 ≠ 0)
    (hv : ((s.plot cx.p).sem (x.toNat % 256)).toNat < u + y.toNat % 2 ^ 16) :
    exec i s = .next (s.stallGate cx (.sem (x.toNat % 256) (u + y.toNat % 2 ^ 16))) := by
  rw [← BitVec.low_byte] at hu hv ⊢
  rw [← BitVec.low_short] at ht hv ⊢
  refine hi.trans (runSlot_val hr ?_)
  rw [ha, Rd.bind_val, hb, Rd.bind_val]
  dsimp only
  rw [hu, Rd.bind_val, if_pos ⟨ht, hv⟩]

/-- A wait that a semaphore covers, or that waits for nothing. -/
theorem ends_swait {i : Instr} {take : Bool} {u : Nat} (hr : s.runs cx p) (ha : cx.int a = .val x) (hb : cx.int b = .val y)
    (hi : exec i s = swaitSlot p d take a b s) (hu : cx.lowerTakes (x.toNat % 256) = .val u)
    (hv : y.toNat % 2 ^ 16 = 0 ∨ u + y.toNat % 2 ^ 16 ≤ ((s.plot cx.p).sem (x.toNat % 256)).toNat) :
    let v := ((s.plot cx.p).sem (x.toNat % 256)).toNat
    Ends s (({ s with free := s.free + 1 } : State).bump cx.p 18 1) cx i
      { val := some (.int (if v < u then Config.freeValue s.free else BitVec.ofNat 64 (v - u))), dst := d,
        pop := if take then some (.sem (x.toNat % 256) (y.toNat % 2 ^ 16)) else none, acq := 0xFF, later := true } := by
  have hn : ¬(y.toNat % 2 ^ 16 ≠ 0 ∧ ((s.plot cx.p).sem (x.toNat % 256)).toNat < u + y.toNat % 2 ^ 16) := by omega
  rw [← BitVec.low_byte] at hu hn ⊢
  rw [← BitVec.low_short] at hn ⊢
  refine ends_finish hr hi ?_
  rw [ha, Rd.bind_val, hb, Rd.bind_val]
  dsimp only
  rw [hu, Rd.bind_val, if_neg hn]

section Barrier

variable (hr : s.runs cx p) (ha : cx.int a = .val x) (hb : cx.int b = .val y)
include hr ha hb

theorem exec_barw_none (h : s.barPlace cx.p x = none) : exec (.barw p d a b) s = .next (s.abortSlot cx { cause := .barr }) := by
  refine runSlot_val hr ?_
  rw [ha, Rd.bind_val, hb, Rd.bind_val]
  dsimp only
  rw [h]

theorem exec_barw {die key : Nat} (h : s.barPlace cx.p x = some (die, key)) :
    ((s.bar die key).gen.toNat = y.toNat % 2 ^ 16 →
      exec (.barw p d a b) s = .next (s.stallGate cx (.barrier die key x (BitVec.ofNat 16 (y.toNat % 2 ^ 16))))) ∧
    ((s.bar die key).gen.toNat ≠ y.toNat % 2 ^ 16 →
      Ends s s cx (.barw p d a b) { val := some (.int (BitVec.ofNat 64 (s.bar die key).gen.toNat)), dst := d, acq := 0xFF, later := true }) := by
  have hy : y.extractLsb' 0 16 = BitVec.ofNat 16 (y.toNat % 2 ^ 16) := by
    apply BitVec.eq_of_toNat_eq
    rw [BitVec.low_short, BitVec.toNat_ofNat, Nat.mod_mod]
  have hg : (s.bar die key).gen = y.extractLsb' 0 16 ↔ (s.bar die key).gen.toNat = y.toNat % 2 ^ 16 := by
    rw [← BitVec.toNat_inj, BitVec.low_short]
  refine ⟨fun hw => runSlot_val hr ?_, fun hw => ends_finish hr rfl ?_⟩
  · rw [ha, Rd.bind_val, hb, Rd.bind_val]
    dsimp only
    rw [h]
    dsimp only
    rw [if_pos (hg.2 hw), hy]
  · rw [ha, Rd.bind_val, hb, Rd.bind_val]
    dsimp only
    rw [h]
    dsimp only
    rw [if_neg (fun e => hw (hg.1 e)), BitVec.zeroExtend_ofNat]

end Barrier

end Slot

/-! ## The acquire effect -/

theorem State.task_discard (s : State) (p : Nat) (sc : Scope) (q j : Nat) : (s.discard p sc).task q j = s.task q j :=
  (State.task_bump ..).trans (State.task_onPlot s p q j (fun x => { x with near := x.near.filter (fun e => decide (scopeNum sc < homeDist p e.1)) }) (fun _ => rfl))

theorem State.near_discard (s : State) (p : Nat) (sc : Scope) :
    ((s.discard p sc).plot p).near = (s.plot p).near.filter (fun e => decide (scopeNum sc < homeDist p e.1)) := by
  have hb : ∀ u : State, ((u.bump p 10 1).plot p).near = (u.plot p).near := by
    intro u
    unfold State.bump
    split
    · exact State.onPlot_keeps Plot.near u p p (fun _ => rfl)
    · rfl
  refine (hb _).trans ?_
  rw [State.plot_onPlot_same]

theorem State.near_onTask (s : State) (p k q : Nat) (f : Task → Task) : ((s.onTask p k f).plot q).near = (s.plot q).near :=
  State.onPlot_keeps Plot.near s p q (fun _ => rfl)

theorem Task.regs_ops (t : Task) (os : List Op) : ({ t with ops := os } : Task).regs = t.regs := rfl

theorem State.regs_onOp (s : State) (p k n : Nat) (f : Op → Op) (q j : Nat) : ((s.onOp p k n f).task q j).regs = (s.task q j).regs :=
  State.onTask_keeps Task.regs s p k q j _ (fun t => Task.regs_ops t _)

theorem State.around_discard (s : State) (p : Nat) (sc : Scope) : (s.discard p sc).around Plot.placed = s.around Plot.placed :=
  (State.around_bump Plot.placed_ignores ..).trans (State.around_onPlot s p (fun x => Plot.placed_ignores.near x _))

theorem lt_of_opOf {s : State} {p k serial : Nat} {o : Op} (h : s.opOf p k serial = some o) : k < 16 := by
  by_contra hk
  have e : s.task p k = {} := dif_neg hk
  rw [State.opOf, e] at h
  cases h

/-- An operation found among operations each of which is changed, but for its serial. -/
theorem find_serial_map {os : List Op} {n : Nat} {f : Op → Op} (hf : ∀ q, (f q).serial = q.serial) :
    (os.map (fun q => if q.serial == n then f q else q)).find? (fun q => q.serial == n) = (os.find? (fun q => q.serial == n)).map f := by
  induction os with
  | nil => rfl
  | cons q os ih =>
    rw [List.map_cons, List.find?_cons, List.find?_cons]
    by_cases h : (q.serial == n) = true
    · rw [if_pos h, hf, h]
      rfl
    · rw [if_neg h, Bool.eq_false_iff.2 h]
      exact ih

/-- The acquire effect of an operation that has not yet acted is made once, before it performs. -/
theorem exec_acquires {s : State} {p k pick : Nat} {o : Op} {m : MX} (hc : s.clocked = true) (ho : s.opOf p k o.serial = some o)
    (hd : (s.task p k).depsMet o = true) (hm : o.act.kind.isMem = false) (ha : o.acq = true) (hdone : o.done = []) (hx : o.act.mx = some m) :
    let w := (s.discard p m.scope).onOp p k o.serial (fun q => { q with acq := false })
    exec (.commitOpPerform p k o.serial pick) s = exec (.commitOpPerform p k o.serial pick) w ∧
    (w.plot p).near = (s.plot p).near.filter (fun e => decide (scopeNum m.scope < homeDist p e.1)) ∧ SameMemory s w ∧ SameRegs s w := by
  intro w
  have hk := lt_of_opOf ho
  have hwt : w.task p k = { s.task p k with ops := (s.task p k).ops.map (fun q => if q.serial == o.serial then { q with acq := false } else q) } := by
    unfold w State.onOp
    rw [State.task_onTask, if_pos ⟨rfl, rfl, hk⟩, State.task_discard]
  have hwo : w.opOf p k o.serial = some { o with acq := false } := by
    unfold State.opOf at ho ⊢
    rw [hwt]
    dsimp only
    rw [find_serial_map (f := fun q : Op => { q with acq := false }) (fun _ => rfl), ho]
    rfl
  have hwc : w.clocked = true := by
    have : w.mod = s.mod := (State.onTask_mod ..).trans ((State.bump_mod ..).trans (State.onPlot_mod ..))
    unfold State.clocked at hc ⊢
    rwa [this]
  have hwd : (w.task p k).depsMet { o with acq := false } = true := by
    rw [hwt]
    unfold Task.depsMet at hd ⊢
    simp only [List.any_map] at hd ⊢
    rw [← hd]
    congr 1
    funext d
    congr 3
    funext q
    dsimp only [Function.comp]
    split <;> rfl
  have hs : exec (.commitOpPerform p k o.serial pick) s = .next (w.performAt p k { o with acq := false } pick) := by
    change execCommitOpPerform p k o.serial pick s = _
    simp only [execCommitOpPerform, ho, hc, hd, Bool.and_self, if_true, State.perform, hm, Bool.false_eq_true, if_false, State.acquireOnce, ha,
      State.opAcquire, hx, hdone, List.isEmpty_nil]
    rfl
  have hw : exec (.commitOpPerform p k o.serial pick) w = .next (w.performAt p k { o with acq := false } pick) := by
    change execCommitOpPerform p k o.serial pick w = _
    simp only [execCommitOpPerform, hwo, hwc, hwd, Bool.and_self, if_true, State.perform, hm, Bool.false_eq_true, if_false, State.acquireOnce]
  refine ⟨hs.trans hw.symm, ?_, ?_, fun q j => ?_⟩
  · exact (State.near_onTask ..).trans (State.near_discard s p m.scope)
  · exact sameMemory_of_around ((State.around_onTask Plot.placed_ignores ..).trans (State.around_discard ..))
  · exact (State.regs_onOp ..).trans (congrArg Task.regs (State.task_discard ..))

/-! ## Semaphores -/

theorem SemNow.value_fresh (now : BitVec 64) (v : BitVec 16) : SemNow.value ⟨now, v, 0, 0⟩ = v := by
  unfold SemNow.value
  have := v.isLt
  apply BitVec.eq_of_toNat_eq
  rw [BitVec.toNat_ofNat]
  dsimp only
  omega

/-- What has happened to a semaphore in a cycle leaves its value. -/
theorem Plot.semNow_value (x : Plot) (now : BitVec 64) (n : Nat) : (x.semNow now n).value = x.sem n := by
  unfold Plot.semNow
  dsimp only
  split
  · rename_i h
    exact h.2
  · exact SemNow.value_fresh ..

theorem SemNow.toNat_value (r : SemNow) : r.value.toNat = min (r.base.toNat + r.inc) 0xFFFF := by
  unfold SemNow.value
  rw [BitVec.toNat_ofNat]
  omega

theorem Plot.sem_putSem (x : Plot) (n i : Nat) (r : SemNow) : (x.putSem n r).sem i = if i = n then r.value else x.sem i :=
  SMap.get_put ..

/-- Semaphore n of plot q has a value, every other is as before, and every task of the plot that waited for it is READY. -/
def State.signalled (s u : State) (q n v : Nat) : Prop :=
  ((u.plot q).sem n).toNat = min v 0xFFFF ∧ (∀ i, i ≠ n → (u.plot q).sem i = (s.plot q).sem i) ∧
    ∀ j < 16, (s.task q j).st = .wait → (s.task q j).wait = .sem n → (u.task q j).st = .ready

/-- A semaphore put and its waiters woken. -/
def State.putSemWake (s : State) (q n : Nat) (r : SemNow) : State :=
  ((s.onPlot q (fun x => x.putSem n r)).wakePlot q (fun w => w == .sem n)).bump q 17 1

theorem State.still_putSemWake (s : State) (q n : Nat) (r : SemNow) (p k : Nat) : ((s.putSemWake q n r).task p k).still = (s.task p k).still := by
  unfold State.putSemWake
  rw [State.task_bump]
  exact (task_still_of_still (State.still_wakePlot ..) p k).trans (congrArg Task.still (State.task_onPlot s q p k (fun x => x.putSem n r) (fun _ => rfl)))

theorem State.sem_wakePlot (s : State) (p q i : Nat) (f : WaitFor → Bool) : ((s.wakePlot p f).plot q).sem i = (s.plot q).sem i :=
  congrArg (fun v : Still => (v.plots q).sem i) (State.still_wakePlot s p f)

theorem signalled_putSemWake (s : State) (q n : Nat) (r : SemNow) {v : Nat} (hv : r.value.toNat = min v 0xFFFF) : s.signalled (s.putSemWake q n r) q n v := by
  have hsem : ∀ i, ((s.putSemWake q n r).plot q).sem i = if i = n then r.value else (s.plot q).sem i := by
    intro i
    have hb : ∀ u : State, ((u.bump q 17 1).plot q).sem i = (u.plot q).sem i := by
      intro u
      unfold State.bump
      split
      · exact State.onPlot_keeps (fun x => x.sem i) u q q (fun _ => rfl)
      · rfl
    refine (hb _).trans ((State.sem_wakePlot ..).trans ?_)
    rw [State.plot_onPlot_same, Plot.sem_putSem]
  refine ⟨?_, fun i hi => ?_, fun j hj hst hw => ?_⟩
  · rw [hsem, if_pos rfl, hv]
  · rw [hsem, if_neg hi]
  · have ht : (s.onPlot q (fun x => x.putSem n r)).task q j = s.task q j := State.task_onPlot s q q j (fun x => x.putSem n r) (fun _ => rfl)
    unfold State.putSemWake
    rw [State.task_bump]
    exact State.wakePlot_wakes hj (by rw [ht, hst]) (by rw [ht, hw]; exact beq_self_eq_true _)

theorem State.signal_eq (s : State) (q n inc : Nat) : s.signal q n inc =
    s.putSemWake q n { (s.plot q).semNow (s.cycOf q) n with inc := ((s.plot q).semNow (s.cycOf q) n).inc + inc } := rfl

theorem signalled_signal (s : State) (q n inc : Nat) : s.signalled (s.signal q n inc) q n (((s.plot q).sem n).toNat + inc) := by
  rw [State.signal_eq]
  refine signalled_putSemWake s q n _ ?_
  rw [SemNow.toNat_value, ← Plot.semNow_value (s.plot q) (s.cycOf q) n, SemNow.toNat_value]
  dsimp only
  omega

theorem State.setSem_eq (s : State) (q n : Nat) (v : BitVec 16) : s.setSem q n v = s.putSemWake q n
    (if ((s.plot q).semNow (s.cycOf q) n).taken ≤ v.toNat
      then { (s.plot q).semNow (s.cycOf q) n with base := v - BitVec.ofNat 16 ((s.plot q).semNow (s.cycOf q) n).taken }
      else ⟨((s.plot q).semNow (s.cycOf q) n).cyc, v, 0, 0⟩) := rfl

theorem State.still_setSem (s : State) (q n : Nat) (v : BitVec 16) (p k : Nat) : ((s.setSem q n v).task p k).still = (s.task p k).still := by
  rw [State.setSem_eq]
  exact State.still_putSemWake ..

theorem signalled_setSem (s : State) (q n : Nat) (v : BitVec 16) : let r := (s.plot q).semNow (s.cycOf q) n
    s.signalled (s.setSem q n v) q n (if r.taken ≤ v.toNat then v.toNat - r.taken + r.inc else v.toNat) := by
  intro r
  rw [State.setSem_eq]
  refine signalled_putSemWake s q n _ ?_
  have hv := v.isLt
  split
  · rename_i h
    replace h : r.taken ≤ v.toNat := h
    have hb : (v - BitVec.ofNat 16 r.taken).toNat = v.toNat - r.taken := by
      rw [BitVec.toNat_sub, BitVec.toNat_ofNat]
      omega
    rw [SemNow.toNat_value]
    dsimp only
    rw [hb]
  · rw [SemNow.value_fresh]
    omega

/-- The end of the operation leaves what it has signalled. -/
theorem signalled_finishOp {s u : State} {p k q n v : Nat} (o : Op) (late : Option Val) (hl : (u.task p k).leaving = .no) (h : s.signalled u q n v) :
    s.signalled (u.finishOp p k o late) q n v := by
  have hsem : ∀ i, ((u.finishOp p k o late).plot q).sem i = (u.plot q).sem i :=
    fun i => State.finishOp_plot (g := fun x => x.sem i) (fun _ _ => rfl) o late hl q
  obtain ⟨h1, h2, h3⟩ := h
  exact ⟨by rw [hsem, h1], fun i hi => by rw [hsem, h2 i hi], fun j hj hst hw => by rw [State.st_finishOp o late hl, h3 j hj hst hw]⟩

/-! ## Barriers -/

theorem bar_of_dies {s u : State} (h : u.dies = s.dies) (d i : Nat) : u.bar d i = s.bar d i := by
  simp only [State.bar, State.die, h]

theorem bar_of_still {s u : State} (h : u.still = s.still) (d i : Nat) : u.bar d i = s.bar d i :=
  congrArg (fun v : Still => (v.dies d).bars.get i {}) h

theorem State.postErr_dies (s : State) (kind : BitVec 8) (p k : Nat) (launch : BitVec 32) (bpc : BitVec 40) (c : CauseRec) (ended : Bool)
    (detail : BitVec 64) : (s.postErr kind p k launch bpc c ended detail).dies = s.dies := by
  unfold State.postErr State.postErrAt State.post
  split
  · rfl
  · split <;> rfl

theorem State.bar_endTask (s : State) (p k : Nat) (c : CauseRec) (bpc : BitVec 40) (d i : Nat) : (s.endTask p k c bpc).bar d i = s.bar d i :=
  (bar_of_dies (State.postErr_dies ..) d i).trans (bar_of_still ((State.still_withdraw ..).trans (State.still_dropBlock ..)) d i)

theorem State.leaveHost_dies (s : State) (p k : Nat) : (s.leaveHost p k).dies = s.dies := by
  unfold State.leaveHost
  dsimp only
  split <;> rfl

/-- An operation that ends with a deferred fault leaves every barrier group. -/
theorem State.bar_deferFault {s : State} {p k : Nat} {o : Op} (c : CauseRec) (h : s.performs p k o) (d i : Nat) :
    (s.deferFault p k o c).bar d i = s.bar d i := by
  obtain ⟨hk, -, -, -, hl, -⟩ := h
  have he : s.deferFault p k o c = ((s.setTask p k ((s.task p k).opEnds o (some (zeroFor o.act.dst)))).endTask p k
      { c with slot := o.slot, defer := true } o.bpc).settle p k := by
    unfold State.deferFault
    simp [hl]
  rw [he, State.settle_ended (State.endTask_frame _ _ _ hk).1]
  split
  · exact (bar_of_dies (State.leaveHost_dies ..) d i).trans (State.bar_endTask ..)
  · exact State.bar_endTask ..

/-- A barrier group after an arrival that the group admits (R392). -/
def Bar.arrived (g : Bar) (count : BitVec 16) (launch : BitVec 32) : Bar :=
  if g.arr + 1 = count then { g with gen := g.gen + 1, arr := 0, count := 0, owner := launch }
  else { g with arr := g.arr + 1, count := count, owner := launch }

/-- The wafer after such an arrival. -/
def State.countArrival (s : State) (die key : Nat) (count : BitVec 16) (launch : BitVec 32) : State :=
  let s1 := s.setDie die { s.die die with bars := (s.die die).bars.put key ((s.bar die key).arrived count launch) }
  if (s.bar die key).arr + 1 = count then s1.wakeAll (fun w => match w with
    | .barrier x y _ => x == die && y == key
    | _ => false) else s1

theorem State.arrive_held {s : State} {die key : Nat} {count : BitVec 16} {launch : BitVec 32}
    (h : (s.bar die key).arr ≠ 0 ∧ ((s.bar die key).count ≠ count ∨ (s.bar die key).owner ≠ launch)) : s.arrive die key count launch = none := by
  unfold State.arrive
  dsimp only
  rw [if_pos (by simpa using h)]

theorem State.arrive_some {s : State} {die key : Nat} {count : BitVec 16} {launch : BitVec 32}
    (h : ¬((s.bar die key).arr ≠ 0 ∧ ((s.bar die key).count ≠ count ∨ (s.bar die key).owner ≠ launch))) :
    s.arrive die key count launch = some (s.countArrival die key count launch, (s.bar die key).gen) := by
  unfold State.arrive
  dsimp only
  rw [if_neg (by simpa using h)]
  rfl

section Arrived

variable (s : State) (die key : Nat) (count : BitVec 16) (launch : BitVec 32)

theorem State.still_countArrival (p k : Nat) : ((s.countArrival die key count launch).task p k).still = (s.task p k).still := by
  unfold State.countArrival
  dsimp only
  split
  · exact task_still_of_still (State.still_wakeAll ..) p k
  · rfl

theorem State.bar_countArrival (d i : Nat) :
    (s.countArrival die key count launch).bar d i = if d = die ∧ i = key then (s.bar die key).arrived count launch else s.bar d i := by
  have hput : ∀ g, (s.setDie die { s.die die with bars := (s.die die).bars.put key g }).bar d i = if d = die ∧ i = key then g else s.bar d i := by
    intro g
    unfold State.bar
    rw [State.die_setDie]
    by_cases hd : d = die
    · subst hd
      rw [if_pos rfl]
      dsimp only
      rw [SMap.get_put]
      by_cases hi : i = key
      · rw [if_pos hi, if_pos ⟨rfl, hi⟩]
      · rw [if_neg hi, if_neg (fun e => hi e.2)]
    · rw [if_neg hd, if_neg (fun e => hd e.1)]
  rw [← hput]
  unfold State.countArrival
  dsimp only
  split
  · exact bar_of_still (State.still_wakeAll ..) d i
  · rfl

theorem State.countArrival_wakes (h : (s.bar die key).arr + 1 = count) {q j : Nat} {x : BitVec 64} (hj : j < 16) (hst : (s.task q j).st = .wait)
    (hw : (s.task q j).wait = .barrier die key x) : ((s.countArrival die key count launch).task q j).st = .ready := by
  unfold State.countArrival
  dsimp only
  rw [if_pos h]
  exact State.wakeAll_wakes hj hst (by rw [State.task_setDie, hw]; simp)

end Arrived

/-! ## The obligation -/

section Perform

variable {s : State} {p k pick : Nat} {o : Op} (h : s.performs p k o)
include h

/-- The signals and SSET end with their semaphore signalled. -/
theorem does_signal {u : State} {q n v : Nat} (hm : o.act.kind.isMem = false) (hu : s.performAt p k o pick = u.finishOp p k o none)
    (hst : (u.task p k).still = (s.task p k).still) (hs : s.signalled u q n v) :
    s.does p k o pick (fun u => s.over u p k o ∧ s.signalled u q n v) := by
  have hl : (u.task p k).leaving = .no := (show (u.task p k).still.leaving = (s.task p k).still.leaving from congrArg Task.leaving hst).trans h.2.2.2.2.1
  exact does_of_performAt h hm hu ⟨over_of_still h hst, signalled_finishOp o none hl hs⟩

theorem does_ssig {a b : BitVec 64} (hk : o.act.kind = .ssig a b) :
    s.does p k o pick (fun u => s.over u p k o ∧ s.signalled u p (a.toNat % 256) (((s.plot p).sem (a.toNat % 256)).toNat + b.toNat % 2 ^ 16)) := by
  refine does_signal h (by rw [hk]; rfl) ?_ (State.still_putSemWake ..) (signalled_signal ..)
  simp only [State.performAt, hk]
  rw [BitVec.low_byte, BitVec.low_short]
  rfl

theorem does_sset {a b : BitVec 64} (hk : o.act.kind = .sset a b) : let r := (s.plot p).semNow (s.cycOf p) (a.toNat % 256)
    let v := b.toNat % 2 ^ 16
    s.does p k o pick (fun u => s.over u p k o ∧ s.signalled u p (a.toNat % 256) (if r.taken ≤ v then v - r.taken + r.inc else v)) := by
  have hs := signalled_setSem s p (a.toNat % 256) (b.extractLsb' 0 16)
  rw [BitVec.low_short] at hs
  refine does_signal h (by rw [hk]; rfl) ?_ (State.still_setSem ..) hs
  simp only [State.performAt, hk]
  rw [BitVec.low_byte]

theorem does_defers {c : CauseRec} (hm : o.act.kind.isMem = false) (hu : s.performAt p k o pick = s.deferFault p k o c) :
    s.does p k o pick (fun u => s.defers u p k o c) :=
  does_of_performAt h hm hu (defers_of_deferFault c h)

theorem does_ssigr {a b : BitVec 64} (hk : o.act.kind = .ssigr a b) : let target := s.resolve (BitVec.ofNat 32 (a.toNat / 2 ^ 32))
    (target = none → s.does p k o pick (fun u => s.defers u p k o { cause := .absent })) ∧
    ∀ q, target = some q →
      if (s.plot q).stat = .hole then s.does p k o pick (fun u => s.defers u p k o { cause := .absent })
      else if o.priv = true ∨ (s.plot q).owner.map (fun x => x.1) = some (s.task p k).launch then
        s.does p k o pick (fun u => s.over u p k o ∧ s.signalled u q (a.toNat % 256) (((s.plot q).sem (a.toNat % 256)).toNat + b.toNat % 2 ^ 16))
      else s.does p k o pick (fun u => s.defers u p k o { cause := .priv }) := by
  intro target
  have hm : o.act.kind.isMem = false := by rw [hk]; rfl
  have hname : a.extractLsb' 32 32 = BitVec.ofNat 32 (a.toNat / 2 ^ 32) := by
    apply BitVec.eq_of_toNat_eq
    rw [BitVec.extractLsb'_toNat, Nat.shiftRight_eq_div_pow, BitVec.toNat_ofNat]
  have he : s.performAt p k o pick = s.ssigr p k o a b := by simp only [State.performAt, hk]
  unfold State.ssigr at he
  rw [hname] at he
  refine ⟨fun ht => does_defers h hm (he.trans ?_), fun q ht => ?_⟩
  · rw [show s.resolve _ = none from ht]
  · rw [show s.resolve _ = some q from ht] at he
    dsimp only at he
    refine ite_of (fun hh => does_defers h hm (he.trans (if_pos (by simpa using hh)))) (fun hh => ?_)
    rw [if_neg (by simpa using hh)] at he
    refine ite_of (fun ho => ?_) (fun ho => does_defers h hm (he.trans (if_pos ?_)))
    · refine does_signal h hm ?_ (State.still_putSemWake ..) (signalled_signal ..)
      rw [he, if_neg, BitVec.low_byte, BitVec.low_short]
      · rfl
      · rcases ho with ho | ho <;> simp [ho]
    · rw [not_or] at ho
      simpa using ho

theorem does_bara {a : BitVec 64} (hk : o.act.kind = .bara a) :
    let barr := s.does p k o pick (fun u => s.defers u p k o { cause := .barr } ∧ ∀ d i, u.bar d i = s.bar d i)
    (s.barPlace p a = none → barr) ∧
    ∀ die key, s.barPlace p a = some (die, key) →
      let g := s.bar die key
      let count := a.extractLsb' 16 16
      if a.extractLsb' 4 3 = 5 ∧ s.podReach = false then barr
      else if g.arr ≠ 0 ∧ (g.count ≠ count ∨ g.owner ≠ (s.task p k).launch) then barr
      else s.does p k o pick (fun u => s.lands u p k o (.int (g.gen.zeroExtend 64)) ∧ u.bar die key = g.arrived count (s.task p k).launch ∧
        (∀ d i, (d, i) ≠ (die, key) → u.bar d i = s.bar d i) ∧
        (g.arr + 1 = count → ∀ q, ∀ j < 16, ∀ x, (s.task q j).st = .wait → (s.task q j).wait = .barrier die key x → (u.task q j).st = .ready)) := by
  intro barr
  have hm : o.act.kind.isMem = false := by rw [hk]; rfl
  have he : s.performAt p k o pick = s.baraEvent p k o a := by simp only [State.performAt, hk]
  have hbarr : s.performAt p k o pick = s.deferFault p k o { cause := .barr } → barr :=
    fun e => does_of_performAt h hm e ⟨defers_of_deferFault _ h, State.bar_deferFault _ h⟩
  unfold State.baraEvent at he
  refine ⟨fun hp => hbarr (he.trans ?_), fun die key hp => ?_⟩
  · rw [hp]
  · intro g count
    rw [hp] at he
    dsimp only at he
    refine ite_of (fun hr => hbarr (he.trans (if_pos (by simpa using hr)))) (fun hr => ?_)
    rw [if_neg (by simpa using hr)] at he
    refine ite_of (fun hh => hbarr ?_) (fun hh => ?_)
    · rw [he, State.arrive_held hh]
    · rw [State.arrive_some hh] at he
      have hst := State.still_countArrival s die key count (s.task p k).launch p k
      have hl : ((s.countArrival die key count (s.task p k).launch).task p k).leaving = .no :=
        (show (Task.still _).leaving = (Task.still _).leaving from congrArg Task.leaving hst).trans h.2.2.2.2.1
      have hbar : ∀ d i, ((s.countArrival die key count (s.task p k).launch).finishOp p k o (some (.int (g.gen.zeroExtend 64)))).bar d i =
          if d = die ∧ i = key then g.arrived count (s.task p k).launch else s.bar d i := by
        intro d i
        obtain ⟨x, y, e⟩ := State.finishOp_eq o (some (.int (g.gen.zeroExtend 64))) hl
        rw [e]
        exact (bar_of_dies rfl d i).trans (State.bar_countArrival s die key count _ d i)
      refine does_of_performAt h hm he ⟨lands_of_still h hst, by rw [hbar, if_pos ⟨rfl, rfl⟩], fun d i hn => ?_, fun hc q j hj x hw hb => ?_⟩
      · rw [hbar, if_neg (fun e => hn (Prod.ext e.1 e.2))]
      · rw [State.st_finishOp o _ hl]
        exact State.countArrival_wakes s die key count _ hc hj hw hb

end Perform

/-- Settles O29: the forms in the slot one by one, the acquire effect, and the events of the semaphores and barriers. -/
theorem engineAndSynchronisationForms : Obligations.EngineAndSynchronisationForms := by
  refine ⟨?_, ?_, ?_, ?_⟩
  · intro s cx p mx a b c e g q r l n w hr ha hb hc he hg
    exact ⟨asks_xcpy hr ha hb hg, asks_xchn hr ha hg, asks_xred hr ha hb hc, asks_xcol hr he hg rfl, asks_xcol hr he hg rfl, asks_xcol hr he hg rfl,
      asks_xcol hr he hg rfl, asks_xcol hr he hg rfl, asks_xregReg hr he ha, asks_xregRel hr he⟩
  · intro s cx p d a b x y u hr ha hb n t v
    refine ⟨asks_capture2 hr ha hb rfl (by simp), asks_capture2 hr ha hb rfl (by simp), asks_capture2 hr ha hb rfl (by simp),
      fun hf => ⟨asks_bara hr hf ha, gives_semSrd hr hf ha⟩, fun hu => ⟨fun ht hv => ?_, fun hv => ?_⟩, exec_barw_none hr ha hb, fun die key hp => exec_barw hr ha hb hp⟩
    · exact ⟨exec_swait_stalls hr ha hb rfl hu ht hv, exec_swait_stalls hr ha hb rfl hu ht hv⟩
    · exact ⟨if v < u then Config.freeValue s.free else BitVec.ofNat 64 (v - u), fun hle => if_neg (Nat.not_lt.2 hle),
        ends_swait (take := false) hr ha hb rfl hu hv, ends_swait (take := true) hr ha hb rfl hu hv⟩
  · intro s p k pick o m hc ho hd hm ha hdone hx
    exact exec_acquires hc ho hd hm ha hdone hx
  · intro s p k pick o h does t signalled
    refine ⟨fun a b hk => does_ssig h hk, fun a b hk => does_sset h hk, fun a b hk => does_ssigr h hk, fun a hk => does_bara h hk⟩

end Sys2Proof.Machine
end

