-- ==== Sys2Proof/Proofs/RillCommits.lean ====
section
/-! PROOFS. A reservoir in the steward's reserved range (R293, R371): what a send writes there does not read back. -/

namespace Sys2Proof.Machine

open Sys2Proof

/-- A send end of 64-bit elements whose buffer is full: its reservoir of one page begins at offset 0 of its plot's bank. -/
def fullSend : Rill :=
  { ent := BitVec.ofNat 224 (2 ^ 39 + 5 * 2 ^ 43 + 2 ^ 53 + 2 ^ 69), buf := List.replicate 8 (.data 0 0), high := 40, low := 3 }

/-- A block whose one slot has executed a CHS.EOS on port 5. -/
def eosBlock : Block :=
  { bpc := 0, words := [0], mapped := 0, pri0 := 0, pmsel0 := 0, order := 0
    slots := [{ st := .done, act := some { kind := .chs 5 .eos 0 } }] }

/-- The steward's plot runs that block, and port 5 is that send end. -/
def stewardSends : State := { State.reset with
  plots := [(stewardPlot, { ({} : Plot).setTask 0 { st := .running } with
    rills := [(5, fullSend)], h0 := { task := some 0, blk := some eosBlock } })] }

/-- The context of its block. -/
def stewardCx : Cx := ⟨stewardPlot, false, 0, 0, 0, false, eosBlock, {}, { st := .running }⟩

theorem stewardSends_ready : stewardSends.readyToCommit stewardPlot false stewardCx stewardSends :=
  .inl ⟨⟨by decide +kernel, by decide +kernel, by decide +kernel, by decide +kernel⟩,
    ⟨by decide +kernel, by decide +kernel, by decide +kernel, by decide +kernel, by decide +kernel⟩, by decide +kernel, rfl⟩

theorem eosBlock_stays : eosBlock.stays := by
  refine ⟨by decide, fun n => nofun, fun x hx a => ?_⟩
  rw [show eosBlock.acts = [(0, { kind := .chs 5 .eos 0 })] from rfl, List.mem_singleton] at hx
  rw [hx]
  nofun

/-- The high half of the word at offset 0 is the defect map's magic number (R371), whatever the bank below holds. -/
theorem stewardSends_reads : ∀ u, exec (.blockCommit stewardPlot false) stewardSends = .next u → u.rdByte (mkAddr 1 stewardPlot 0 + 4) = 0x31 := by
  have h : (match exec (.blockCommit stewardPlot false) stewardSends with
    | .next u => u.rdByte (mkAddr 1 stewardPlot 0 + 4)
    | _ => 0) = 0x31 := by decide +kernel
  intro u hu
  rw [hu] at h
  exact h

/-- Refutes O31, in its third part: nothing keeps a reservoir out of the steward's reserved range, where a byte reads as the defect map or the name
table gives it. The CHS.EOS that appends to the reservoir at offset 0 of the steward's bank writes zeroes there, and the fifth byte reads as 0x31. -/
theorem not_rillForms : ¬ Obligations.RillForms := by
  rintro ⟨-, -, h⟩
  obtain ⟨-, -, -, -, hc⟩ :=
    (h stewardSends stewardSends stewardPlot 0 false stewardCx 5 (.chs 5 .eos 0) stewardSends_ready eosBlock_stays (by decide +kernel) (by decide +kernel) rfl).1
      .eos 0 rfl
  obtain ⟨u, hu, -, -, hs⟩ := hc
  have hs := hs (by decide)
  rw [if_pos (by decide)] at hs
  obtain ⟨-, -, -, hb⟩ := hs
  have h4 := hb 4 (by decide)
  exact absurd ((stewardSends_reads u hu).symm.trans h4) (by decide)

end Sys2Proof.Machine
end

