-- ==== Sys2Proof/Proofs/TaskForms.lean ====
section
/-! PROOFS. The task forms in the slot and as they perform, the capture of the system forms, and TASK.SPRI at the commit (R62, R345 to R347). -/

namespace Sys2Proof.Machine

open Sys2Proof

/-! ## In the slot -/

section
variable {s : State} {cx : Cx} {p : Pred} {d : Dst} {mx : MX} {a b c : Opnd} {x y : BitVec 64} {q : Ptr}

theorem asks_taskSpawn (hr : s.runs cx p) (hf : cx.free { dst := d }) (ha : cx.int a = .val x) (hb : cx.int b = .val y) :
    Asks s cx (.taskSpawn p d a b) { kind := .spawn x y, dst := d } :=
  asks_of_capture_dst (runSlot_val hr (by rw [ha, Rd.bind_val, hb]; rfl)) hf rfl (by simp)

theorem asks_int {i : Instr} {f : BitVec 64 → CKind} (hr : s.runs cx p) (ha : cx.int a = .val x)
    (hi : exec i s = runSlot p s (fun cx => (cx.int a).bind (fun x => .val (s.capture cx { kind := f x })))) (hw : ∀ n v, f x ≠ .wrs n v) :
    Asks s cx i { kind := f x } :=
  asks_of_capture (hi.trans (runSlot_val hr (by rw [ha]; rfl))) rfl hw

theorem asks_ptrInt {i : Instr} {f : BitVec 64 → CKind} (hr : s.runs cx p) (hc : cx.ptr c = .val q) (hb : cx.int b = .val y)
    (hi : exec i s = ptrIntSlot p mx c b f s) (hw : ∀ n v, f y ≠ .wrs n v) : Asks s cx i { kind := f y, mx := some mx, ptr := q } :=
  asks_of_capture (hi.trans (runSlot_val hr (by rw [hc, Rd.bind_val, hb]; rfl))) rfl hw

theorem gives_tstat (hr : s.runs cx p) (hf : cx.free { dst := d }) (ha : cx.int a = .val x) :
    Gives s cx (.taskTstat p d a) d (.int (if 15 < x.toNat then 0 else (s.task cx.p x.toNat).statWord (s.cycOf cx.p))) :=
  (runSlot_val hr (by rw [ha]; rfl)).trans (congrArg _ (result_free hf))

end

theorem TState.code_lt (t : TState) : t.code.toNat < 8 := t.code.isLt

theorem WaitFor.kind_lt (w : WaitFor) : w.kind < 8 := by cases w <;> simp [WaitFor.kind]

theorem Task.epri_lt (t : Task) (now : BitVec 64) : t.epri now < 8 := by
  have := t.pri.isLt
  unfold Task.epri
  split <;> omega

/-- The fields of the word that TSTAT gives. -/
theorem Task.statWord_fields (t : Task) (now : BitVec 64) : let w := t.statWord now
    (w.extractLsb' 0 4).toNat = t.st.code.toNat ∧ (w.extractLsb' 4 4).toNat = t.pri.toNat ∧ (w.extractLsb' 8 4).toNat = t.epri now ∧
    (w.extractLsb' 12 3).toNat = t.wait.kind ∧ w.getLsbD 15 = decide (t.pend ≠ 0) ∧ w.extractLsb' 16 16 = t.wake ∧ w.extractLsb' 32 32 = 0 := by
  have h1 := t.wake.isLt
  have h2 := t.wait.kind_lt
  have h3 := t.epri_lt now
  have h4 := t.pri.isLt
  have h5 := t.st.code_lt
  have field : ∀ lo len, ((t.statWord now).extractLsb' lo len).toNat = (t.statWord now).toNat / 2 ^ lo % 2 ^ len :=
    fun lo len => extract_toNat _ lo len
  have hn : (t.statWord now).toNat = t.wake.toNat * 65536 + (if t.pend = 0 then 0 else 32768) + t.wait.kind * 4096 + t.epri now * 256 +
      t.pri.toNat * 16 + t.st.code.toNat := by
    rw [Task.statWord, BitVec.toNat_ofNat]
    norm_num
    split <;> omega
  have hp : (if t.pend = 0 then 0 else 32768) = 32768 * (if t.pend = 0 then 0 else 1) := by split <;> rfl
  have hb : (if t.pend = 0 then 0 else 1) < 2 := by split <;> decide
  rw [hp] at hn
  refine ⟨?_, ?_, ?_, ?_, ?_, BitVec.eq_of_toNat_eq ?_, BitVec.eq_of_toNat_eq ?_⟩
  · rw [field, hn]; norm_num; omega
  · rw [field, hn]; norm_num; omega
  · rw [field, hn]; norm_num; omega
  · rw [field, hn]; norm_num; omega
  · rw [← BitVec.testBit_toNat, Nat.testBit_eq_decide_div_mod_eq, hn]
    by_cases h : t.pend = 0
    · simp only [h, if_true, ne_eq, not_true_eq_false, decide_false, decide_eq_false_iff_not]
      norm_num
      omega
    · simp only [h, if_false, ne_eq, not_false_eq_true, decide_true, decide_eq_true_eq]
      norm_num
      omega
  · rw [field, hn]; norm_num; omega
  · rw [field, hn, show (0 : BitVec 32).toNat = 0 from rfl]; norm_num; omega

/-! ## SPAWN and WAKE as they perform -/

section
variable {s : State} {p k pick : Nat} {o : Op} (h : s.performs p k o)
/-- The end of an operation changes no other task. -/
theorem State.task_finishOp_other {u : State} (late : Option Val) (hl : (u.task p k).leaving = .no) {q j : Nat} (hj : ¬(q = p ∧ j = k)) :
    (u.finishOp p k o late).task q j = u.task q j := by
  obtain ⟨x, y, e⟩ := State.finishOp_eq o late hl
  rw [e, State.task_setTask, if_neg (fun hq => hj ⟨hq.1, hq.2.1⟩)]

include h

theorem performs_leaving : (s.task p k).leaving = .no := h.2.2.2.2.1

theorem performs_notFree : (s.task p k).st ≠ .free := h.2.2.2.2.2.1

end

theorem slotIdx_find_none {f : Nat → Bool} : slotIdx.find? f = none ↔ ∀ j < 16, f j = false := by
  simp [slotIdx, List.find?_eq_none]

/-- The lowest slot of which a test holds. -/
theorem slotIdx_find_lowest {f : Nat → Bool} {j : Nat} (hj : j < 16) (hf : f j = true) (hlow : ∀ i < j, f i = false) : slotIdx.find? f = some j := by
  rw [List.find?_eq_some_iff_append]
  refine ⟨hf, List.range j, List.range' (j + 1) (15 - j), ?_, fun i hi => by simp [hlow i (List.mem_range.1 hi)]⟩
  have e : 16 = j + (1 + (15 - j)) := by omega
  rw [slotIdx, List.range_eq_range', e, ← List.range'_append_1, ← List.range'_append_1, List.range_eq_range']
  simp

section
variable {s : State} {p k pick : Nat} {o : Op} {a b : BitVec 64} (h : s.performs p k o)
include h

theorem does_spawn_none (hk : o.act.kind = .spawn a b) (hfull : ∀ j < 16, (s.task p j).st ≠ .free) :
    s.does p k o pick (fun u => s.lands u p k o (.int (BitVec.allOnes 64)) ∧ ∀ j, j ≠ k → u.task p j = s.task p j) := by
  have hn : slotIdx.find? (fun j => (s.task p j).st == .free) = none := slotIdx_find_none.2 (fun j hj => by simpa using hfull j hj)
  refine does_of_performAt h (by rw [hk]; rfl) ?_
    ⟨lands_of_finishOp h rfl, fun j hj => State.task_finishOp_other (some (.int (BitVec.allOnes 64))) (performs_leaving h) (fun e => hj e.2)⟩
  simp only [State.performAt, hk, State.spawnEvent, hn]

theorem does_spawn {j : Nat} (hk : o.act.kind = .spawn a b) (hj : j < 16) (hfree : (s.task p j).st = .free) (hlow : ∀ i < j, (s.task p i).st ≠ .free) :
    s.does p k o pick (fun u => s.lands u p k o (.int (BitVec.ofNat 64 j)) ∧ (∀ i, i ≠ k → i ≠ j → u.task p i = s.task p i) ∧
      let v := u.task p j
      v.st = .ready ∧ v.bpc = a.extractLsb' 0 40 ∧ v.launch = (s.task p k).launch ∧ v.priv = o.priv ∧ v.pri = o.pri ∧ v.ops = [] ∧
      v.regs.getG 0 = b ∧ (∀ i : Fin 64, i ≠ 0 → v.regs.g[i] = 0) ∧ (∀ i : Fin 7, v.regs.c[i.val]? = some o.regs[i]) ∧
      v.regs.c[7] = s.privPtr p (s.task p k).launch j) := by
  have hjk : j ≠ k := by
    rintro rfl
    exact performs_notFree h hfree
  have hs : slotIdx.find? (fun j => (s.task p j).st == .free) = some j :=
    slotIdx_find_lowest hj (by simpa using hfree) (fun i hi => by simpa using hlow i hi)
  have hnew : ∀ i, (s.newTask p j (s.task p k).launch o.priv o.pri (a.extractLsb' 0 40) b o.regs).task p i =
      if i = j then (s.newTask p j (s.task p k).launch o.priv o.pri (a.extractLsb' 0 40) b o.regs).task p j else s.task p i := by
    intro i
    split
    · rename_i e; rw [e]
    · rename_i e
      exact (State.task_setTask ..).trans (if_neg (fun hh => e hh.2.1))
  have hl : ((s.newTask p j (s.task p k).launch o.priv o.pri (a.extractLsb' 0 40) b o.regs).task p k) = s.task p k :=
    (hnew k).trans (if_neg (fun e => hjk e.symm))
  refine does_of_performAt h (by rw [hk]; rfl)
    (u := (s.newTask p j (s.task p k).launch o.priv o.pri (a.extractLsb' 0 40) b o.regs).finishOp p k o (some (.int (BitVec.ofNat 64 j)))) ?_
    ⟨lands_of_finishOp h hl, fun i hik hij => ?_, ?_⟩
  · simp only [State.performAt, hk, State.spawnEvent, hs]
  · rw [State.task_finishOp_other _ ((congrArg Task.leaving hl).trans (performs_leaving h)) (fun e => hik e.2), hnew, if_neg hij]
  · intro v
    have hv : v = _ := (State.task_finishOp_other _ ((congrArg Task.leaving hl).trans (performs_leaving h)) (fun e => hjk e.2)).trans
      ((State.task_setTask ..).trans (if_pos ⟨rfl, rfl, hj⟩))
    rw [hv]
    refine ⟨rfl, rfl, rfl, rfl, rfl, rfl, ?_, fun i hi => ?_, fun i => ?_, rfl⟩
    · simp [Regs.getG]
    · have hi' : (0 : Nat) ≠ i.val := fun e => hi (Fin.ext e.symm)
      simp [Regs.init, hi']
    · fin_cases i <;> rfl

theorem does_wake_beyond (hk : o.act.kind = .wake a b) (ha : 15 < a.toNat) :
    s.does p k o pick (fun u => s.over u p k o ∧ ∀ j, j ≠ k → u.task p j = s.task p j) := by
  refine does_of_performAt h (by rw [hk]; rfl) (u := s.finishOp p k o none) ?_
    ⟨over_of_finishOp h rfl, fun j hj => State.task_finishOp_other none (performs_leaving h) (fun e => hj e.2)⟩
  simp only [State.performAt, hk, State.wakeTask, if_pos ha]

end

/-- What an operation's end keeps of every task. -/
theorem State.finishOp_keeps {β : Type} (g : Task → β)
    (hg : ∀ (t : Task) x y z, g { t with regs := x, ops := y, heldWrites := z } = g t) (hc : ∀ (t : Task) x y, g { t with lateAt := x, strmAt := y } = g t)
    {s : State} {p k : Nat} (o : Op) (late : Option Val) (h : (s.task p k).leaving = .no) (q j : Nat) :
    g ((s.finishOp p k o late).task q j) = g (s.task q j) := by
  obtain ⟨x, y, e⟩ := State.finishOp_eq o late h
  rw [e, State.task_setTask]
  split
  · rename_i hq
    rw [hq.1, hq.2.1, hc]
    exact Task.opEnds_keeps g hg (s.task p k) o late
  · rfl

/-- An operation is over where its event has left its task's registers. -/
theorem over_of_regs {s u : State} {p k : Nat} {o : Op} (hk : k < 16) (hl : (u.task p k).leaving = .no) (hr : (u.task p k).regs = (s.task p k).regs) :
    s.over (u.finishOp p k o none) p k o := by
  obtain ⟨hops, hregs⟩ := State.task_finishOp o none hk hl
  exact ⟨fun q hq => Task.over_opEnds _ o _ q (hops ▸ hq), fun hd => (hregs.trans (Task.regs_opEnds_none _ _ hd)).trans hr⟩

/-! ### The wake bits -/

/-- Whether bits of SY.WAKE wake a task: it is parked on one of what it then holds (R347). -/
def Task.wokenBy (t : Task) (m : BitVec 16) : Bool :=
  match t.wait with
  | .park pm => t.st == .wait && (t.wake ||| m) &&& pm != 0
  | _ => false

theorem Task.wokenBy_park {t : Task} {pm : BitVec 16} (m : BitVec 16) (h : t.wait = .park pm) :
    t.wokenBy m = (t.st == .wait && (t.wake ||| m) &&& pm != 0) := by rw [Task.wokenBy, h]

theorem Task.wokenBy_other {t : Task} (m : BitVec 16) (h : ∀ pm, t.wait ≠ .park pm) : t.wokenBy m = false := by
  unfold Task.wokenBy
  split
  · rename_i pm e
    exact absurd e (h pm)
  · rfl

/-- Bits of SY.WAKE set in a task. -/
def Task.withWake (t : Task) (now : BitVec 64) (m : BitVec 16) : Task :=
  { t with wake := t.wake ||| m, wakeCyc := now, wakeNew := if t.wakeCyc == now then t.wakeNew ||| m else m }

theorem State.setWake_eq {s : State} {p k : Nat} {m : BitVec 16} (h : (s.task p k).st ≠ .free) :
    s.setWake p k m = if (s.task p k).wokenBy m then (s.setTask p k ((s.task p k).withWake (s.cycOf p) m)).ready p k
      else s.setTask p k ((s.task p k).withWake (s.cycOf p) m) := by
  unfold State.setWake
  dsimp only
  rw [if_neg (by simpa using h)]
  split
  · rename_i pm hw
    rw [Task.wokenBy_park m hw]
    rfl
  · rename_i hw
    rw [Task.wokenBy_other m hw]
    rfl

theorem State.setWake_free {s : State} {p k : Nat} (m : BitVec 16) (h : (s.task p k).st = .free) : s.setWake p k m = s := by
  unfold State.setWake
  dsimp only
  rw [if_pos (by simpa using h)]

/-- The task whose wake bits are set. -/
theorem State.task_setWake {s : State} {p k : Nat} {m : BitVec 16} (hk : k < 16) (h : (s.task p k).st ≠ .free) : let v := (s.setWake p k m).task p k
    v.wake = (s.task p k).wake ||| m ∧ v.st = (if (s.task p k).wokenBy m then .ready else (s.task p k).st) ∧
    v.leaving = (s.task p k).leaving ∧ v.regs = (s.task p k).regs := by
  have hs : (s.setTask p k ((s.task p k).withWake (s.cycOf p) m)).task p k = (s.task p k).withWake (s.cycOf p) m := by
    rw [State.task_setTask, if_pos ⟨rfl, rfl, hk⟩]
  intro v
  unfold v
  rw [State.setWake_eq h]
  split
  · rw [State.task_ready, if_pos ⟨rfl, rfl, hk⟩, hs]
    exact ⟨rfl, rfl, rfl, rfl⟩
  · rw [hs]
    exact ⟨rfl, rfl, rfl, rfl⟩

theorem State.setWake_other {s : State} {p k q j : Nat} (m : BitVec 16) (h : ¬(q = p ∧ j = k)) : (s.setWake p k m).task q j = s.task q j := by
  have hn : ¬(q = p ∧ j = k ∧ k < 16) := fun e => h ⟨e.1, e.2.1⟩
  by_cases hf : (s.task p k).st = .free
  · rw [State.setWake_free m hf]
  · rw [State.setWake_eq hf]
    split
    · rw [State.task_ready, if_neg hn, State.task_setTask, if_neg hn]
    · rw [State.task_setTask, if_neg hn]

/-- A WAKE's task before its wake bits are set. -/
def State.wakeStart (s : State) (p j : Nat) : State := if (s.task p j).st == .suspended then s.ready p j else s

theorem State.wakeTask_eq {s : State} {p : Nat} {a : BitVec 64} (b : BitVec 64) (ha : a.toNat ≤ 15) :
    s.wakeTask p a b = (s.wakeStart p a.toNat).setWake p a.toNat (b.extractLsb' 0 16) := if_neg (Nat.not_lt.2 ha)

theorem State.wakeStart_other {s : State} {p j q i : Nat} (h : ¬(q = p ∧ i = j)) : (s.wakeStart p j).task q i = s.task q i := by
  unfold State.wakeStart
  split
  · rw [State.task_ready, if_neg (fun e => h ⟨e.1, e.2.1⟩)]
  · rfl

theorem State.wakeStart_suspended {s : State} {p j : Nat} (hj : j < 16) (h : (s.task p j).st = .suspended) :
    ((s.wakeStart p j).task p j).st = .ready ∧ ((s.wakeStart p j).task p j).wait = .none ∧ ((s.wakeStart p j).task p j).wake = (s.task p j).wake ∧
    ((s.wakeStart p j).task p j).leaving = (s.task p j).leaving ∧ ((s.wakeStart p j).task p j).regs = (s.task p j).regs := by
  unfold State.wakeStart
  rw [if_pos (by simpa using h), State.task_ready, if_pos ⟨rfl, rfl, hj⟩]
  exact ⟨rfl, rfl, rfl, rfl, rfl⟩

theorem State.wakeStart_awake {s : State} {p j : Nat} (h : (s.task p j).st ≠ .suspended) : s.wakeStart p j = s :=
  if_neg (by simpa using h)

/-- The task that a WAKE names. -/
theorem State.task_wakeTask {s : State} {p : Nat} {a : BitVec 64} (b : BitVec 64) (ha : a.toNat ≤ 15) : let x := s.task p a.toNat
    let v := (s.wakeTask p a b).task p a.toNat
    let bits := b.extractLsb' 0 16
    (x.st ≠ .free → v.wake = x.wake ||| bits) ∧ (x.st = .free → s.wakeTask p a b = s) ∧ (x.st = .suspended → v.st = .ready) ∧
    (∀ m, x.st = .wait → x.wait = .park m → v.st = if (x.wake ||| bits) &&& m = 0 then .wait else .ready) ∧ v.leaving = x.leaving ∧ v.regs = x.regs := by
  intro x v bits
  have hj : a.toNat < 16 := by omega
  unfold v bits
  by_cases hsus : x.st = .suspended
  · obtain ⟨hst, hwait, hwake, hleave, hregs⟩ := State.wakeStart_suspended hj hsus
    rw [State.wakeTask_eq b ha]
    obtain ⟨h1, h2, h3, h4⟩ := State.task_setWake (m := b.extractLsb' 0 16) hj (by rw [hst]; decide)
    have hw : ((s.wakeStart p a.toNat).task p a.toNat).wokenBy (b.extractLsb' 0 16) = false := Task.wokenBy_other _ (by rw [hwait]; nofun)
    rw [hw, if_neg Bool.false_ne_true] at h2
    exact ⟨fun _ => h1.trans (congrArg (· ||| b.extractLsb' 0 16) hwake), fun hf => (by rw [hsus] at hf; cases hf), fun _ => h2.trans hst,
      fun m hm => (by rw [hsus] at hm; cases hm), h3.trans hleave, h4.trans hregs⟩
  · rw [State.wakeTask_eq b ha, State.wakeStart_awake hsus]
    by_cases hfree : x.st = .free
    · rw [State.setWake_free _ hfree]
      exact ⟨fun hn => absurd hfree hn, fun _ => rfl, fun hs => absurd hs hsus, fun m hm => (by rw [hfree] at hm; cases hm), rfl, rfl⟩
    · obtain ⟨h1, h2, h3, h4⟩ := State.task_setWake (m := b.extractLsb' 0 16) hj hfree
      refine ⟨fun _ => h1, fun hf => absurd hf hfree, fun hs => absurd hs hsus, fun m hm hp => h2.trans ?_, h3, h4⟩
      have hw : x.wokenBy (b.extractLsb' 0 16) = ((x.wake ||| b.extractLsb' 0 16) &&& m != 0) := by rw [Task.wokenBy_park _ hp, hm]; rfl
      change (if x.wokenBy bits then TState.ready else x.st) = _
      rw [hw, hm]
      by_cases hz : (x.wake ||| b.extractLsb' 0 16) &&& m = 0 <;> simp [hz]

theorem State.wakeTask_other {s : State} {p : Nat} {a b : BitVec 64} (ha : a.toNat ≤ 15) {q i : Nat} (h : ¬(q = p ∧ i = a.toNat)) :
    (s.wakeTask p a b).task q i = s.task q i := by
  rw [State.wakeTask_eq b ha, State.setWake_other _ h, State.wakeStart_other h]

theorem does_wake {s : State} {p k pick : Nat} {o : Op} {a b : BitVec 64} (h : s.performs p k o) (hk : o.act.kind = .wake a b) (ha : a.toNat ≤ 15) :
    let j := a.toNat
    let x := s.task p j
    let bits := b.extractLsb' 0 16
    s.does p k o pick (fun u => s.over u p k o ∧ (∀ i, i ≠ k → i ≠ j → u.task p i = s.task p i) ∧
      (x.st ≠ .free → (u.task p j).wake = x.wake ||| bits) ∧ (x.st = .free → u.task p j = x) ∧
      (x.st = .suspended → (u.task p j).st = .ready) ∧
      (∀ m, x.st = .wait → x.wait = .park m → (u.task p j).st = if (x.wake ||| bits) &&& m = 0 then .wait else .ready)) := by
  intro j x bits
  obtain ⟨hwake, hfree, hsus, hpark, hleave, hregs⟩ := State.task_wakeTask (s := s) (p := p) b ha
  have hlk : ((s.wakeTask p a b).task p k).leaving = .no ∧ ((s.wakeTask p a b).task p k).regs = (s.task p k).regs := by
    by_cases e : k = a.toNat
    · subst e
      exact ⟨hleave.trans (performs_leaving h), hregs⟩
    · rw [State.wakeTask_other ha (fun hh => e hh.2)]
      exact ⟨performs_leaving h, rfl⟩
  have hkeepSt := fun q i => State.finishOp_keeps Task.st (fun _ _ _ _ => rfl) (fun _ _ _ => rfl) o none hlk.1 q i
  have hkeepWake := fun q i => State.finishOp_keeps Task.wake (fun _ _ _ _ => rfl) (fun _ _ _ => rfl) o none hlk.1 q i
  refine does_of_performAt h (by rw [hk]; rfl) (u := (s.wakeTask p a b).finishOp p k o none) (by simp only [State.performAt, hk])
    ⟨over_of_regs h.1 hlk.1 hlk.2, fun i hik hij => ?_, fun hx => (hkeepWake p j).trans (hwake hx), fun hx => ?_,
      fun hx => (hkeepSt p j).trans (hsus hx), fun m hx hp => (hkeepSt p j).trans (hpark m hx hp)⟩
  · rw [State.task_finishOp_other none hlk.1 (fun e => hik e.2), State.wakeTask_other ha (fun e => hij e.2)]
  · have hjk : j ≠ k := fun e => performs_notFree h (e ▸ hx)
    rw [State.task_finishOp_other none hlk.1 (fun e => hjk e.2), hfree hx]

/-! ## TASK.SPRI at the commit -/

theorem State.applyAct_spri {s : State} {p : Nat} {x : BitVec 64} (b : BitVec 64) (hx : x.toNat ≤ 15) (hf : (s.task p x.toNat).st ≠ .free) :
    s.applyAct p { kind := .spri x b } = s.onTask p x.toNat (fun t => t.setPri (s.cycOf p) (b.extractLsb' 0 3)) :=
  if_neg (by rintro (h | h); exacts [absurd h (Nat.not_lt.2 hx), hf (by simpa using h)])

/-- What writes a block's registers and flags keeps the states of the tasks. -/
theorem State.st_commitWrites {s : State} {cx : Cx} (ht : cx.t < 16) (hw : ∀ x ∈ cx.blk.acts, ∀ n a, x.2.kind ≠ .wrs n a) (q j : Nat) :
    ((s.commitWrites cx).task q j).st = (s.task q j).st := by
  by_cases hq : q = cx.p ∧ j = cx.t
  · rw [hq.1, hq.2, State.task_commitWrites ht hw]
    refine Eq.trans (b := (((s.task cx.p cx.t).writeRegs cx.blk).writeFlags cx.blk).st) rfl ?_
    rw [Task.writeFlags_eq, foldl_keeps Task.st Task.orFlags _ (fun _ _ _ => rfl)]
    exact Task.writeRegs_keeps Task.st (fun _ _ _ _ => rfl) _ _
  · rw [State.task_commitWrites_other s cx hq]

theorem State.pri_commit_spri {w : State} {cx : Cx} {k : Nat} {x b : BitVec 64} (ht : cx.t < 16) (ha : cx.blk.acts = [(k, { kind := .spri x b })])
    (hs : cx.blk.branch ≠ some .endt ∧ ∀ n, cx.blk.branch ≠ some (.trap n)) (hl : (w.task cx.p cx.t).leaving = .no) (hx : x.toNat ≤ 15)
    (hf : (w.task cx.p x.toNat).st ≠ .free) : ((w.commit cx).task cx.p x.toNat).pri = b.extractLsb' 0 3 := by
  have hw : ∀ y ∈ cx.blk.acts, ∀ n a, y.2.kind ≠ .wrs n a := by
    intro y hy n a
    rw [ha, List.mem_singleton] at hy
    rw [hy]
    nofun
  have hpri : ∀ {s t : State}, s.select = t.select → (s.task cx.p x.toNat).pri = (t.task cx.p x.toNat).pri :=
    fun e => congrFun (congrFun (congrArg Prod.fst e) cx.p) x.toNat
  obtain ⟨hc, -⟩ := State.commit_flagged hs (s := w) (State.leaving_commitWrites ht hl)
  have hissue : ∀ u : State, u.commitIssues cx = (u.onTask cx.p cx.t Task.haltDeps).abortOther cx.p cx.t cx.half cx.blk := by
    intro u
    rw [State.commitIssues, ha]
    rfl
  have heff : (w.commitWrites cx).commitEffects cx = (((((w.commitWrites cx).pops cx.p cx.blk).applyAct cx.p { kind := .spri x b }).bump cx.p 1 1).bump cx.p
      (32 + cx.t) 1).bump cx.p 13 0 := by
    rw [State.commitEffects, ha]
    rfl
  rw [hc, hpri (State.select_commitShows ..), hissue, hpri (State.select_abortOther ..), hpri (State.select_onTask (f := Task.haltDeps) _ _ _ (fun _ => rfl)),
    hpri (State.select_transfer hs), heff, hpri (State.select_bump ..), hpri (State.select_bump ..), hpri (State.select_bump ..),
    State.applyAct_spri b hx (by rw [State.task_pops, State.st_commitWrites ht hw]; exact hf), State.task_onTask, if_pos ⟨rfl, rfl, by omega⟩]
  rfl

theorem exec_spri {s t : State} {p k : Nat} {h : Bool} {cx : Cx} {x b : BitVec 64} (hr : s.readyToCommit p h cx t) (hs : cx.blk.stays)
    (ha : cx.blk.acts = [(k, { kind := .spri x b })]) (hx : x.toNat ≤ 15) (hf : (t.task p x.toNat).st ≠ .free) :
    ∃ u, exec (.blockCommit p h) s = .next u ∧ (u.task p x.toNat).pri = b.extractLsb' 0 3 := by
  obtain ⟨w, hv, he⟩ := exec_blockCommit hr
  obtain ⟨rfl, -, ht, htask, hleave, -⟩ := readyToCommit_cx hr
  obtain ⟨hendt, htrap, -⟩ := hs
  refine ⟨_, he, ?_⟩
  rw [State.commitAcc_none (fun y hy => by rw [ha, List.mem_singleton] at hy; rw [hy]; rfl)]
  refine State.pri_commit_spri ht ha ⟨hendt, htrap⟩ ?_ hx ?_
  · rw [task_of_view hv, ← htask, hleave]
  · rw [task_of_view hv]
    exact hf

end Sys2Proof.Machine
end

