-- ==== Sys2Proof/Proofs/CacheForms.lean ====
section
/-! PROOFS. The object-table cache forms, TBLW and HALTC's task as they perform (R364 to R367, R370, R377, R379, R380). -/

namespace Sys2Proof.Machine

open Sys2Proof

/-! ## INVO and INVA -/

theorem State.die_finishOp {s : State} {p k : Nat} (o : Op) (late : Option Val) (h : (s.task p k).leaving = .no) (d : Nat) :
    (s.finishOp p k o late).die d = s.die d := by
  obtain ⟨x, y, e⟩ := State.finishOp_eq o late h
  rw [e, State.die_setTask]

theorem State.mod_finishOp {s : State} {p k : Nat} (o : Op) (late : Option Val) (h : (s.task p k).leaving = .no) :
    (s.finishOp p k o late).mod = s.mod := by
  obtain ⟨x, y, e⟩ := State.finishOp_eq o late h
  rw [e]
  rfl

/-- A cistern after entries have been removed from it. -/
def Die.without (d : Die) (f : BitVec 24 → Bool) (g : Nat → Bool) : Die :=
  { d with otc := d.otc.filter (fun e => !f e.obj), nodes := d.nodes.filter (fun e => !g e.1) }

theorem State.die_otcRemove (s : State) (f : BitVec 24 → Bool) (g : Nat → Bool) (d : Nat) : (s.otcRemove f g).die d = (s.die d).without f g :=
  SMap.get_map s.dies (fun _ d => d.without f g) d {} rfl

section
variable {s : State} {p k pick : Nat} {o : Op} {a b : BitVec 64} (h : s.performs p k o)
include h

/-- An INVO or INVA waits for the accesses in flight, or removes its entries from every cistern. -/
theorem inv_performs {f : BitVec 24 → Bool} {g : Nat → Bool} (hm : o.act.kind.isMem = false) (hp : s.performAt p k o pick = s.invEvent p k o f g) :
    (s.pendingOn f = true → exec (.commitOpPerform p k o.serial pick) s = .next s) ∧
    (s.pendingOn f = false → s.does p k o pick (fun u => s.over u p k o ∧ ∀ d, u.die d = (s.die d).without f g)) := by
  refine ⟨fun hp' => exactly_of_performAt h hm (hp.trans (if_pos hp')), fun hp' => ?_⟩
  refine does_of_performAt h hm (hp.trans (if_neg (by rw [hp']; exact Bool.false_ne_true))) ⟨over_of_finishOp h rfl, fun d => ?_⟩
  rw [State.die_finishOp (s := s.otcRemove f g) o none (performs_leaving h), State.die_otcRemove]

/-! ## PIN -/

omit h in
theorem State.die_foldDies (s : State) (f : Die → Die) (n d : Nat) :
    ((List.range n).foldl (fun s d => s.setDie d (f (s.die d))) s).die d = if d < n then f (s.die d) else s.die d := by
  induction n generalizing d with
  | zero => rfl
  | succ n ih =>
    rw [List.range_succ, List.foldl_append, List.foldl_cons, List.foldl_nil, State.die_setDie, ih n, ih d, if_neg (Nat.lt_irrefl n)]
    by_cases hd : d = n
    · rw [if_pos hd, if_pos (by omega), hd]
    · rw [if_neg hd]
      exact if_congr (by omega) rfl rfl

omit h in
theorem State.die_onDies (s : State) (f : Die → Die) {d : Nat} (hd : d < 84) : (s.onDies f).die d = f (s.die d) :=
  (State.die_foldDies s f 84 d).trans (if_pos hd)

omit h in
/-- What no cistern's record holds stays where their records change. -/
theorem State.onDies_keeps {β : Type} (g : State → β) (hg : ∀ (s : State) d x, g (s.setDie d x) = g s) (s : State) (f : Die → Die) : g (s.onDies f) = g s :=
  foldl_keeps g (fun (s : State) d => s.setDie d (f (s.die d))) (List.range 84) (fun s _ _ => hg s _ _) s

omit h in
theorem State.plot_onDies (s : State) (f : Die → Die) (q : Nat) : (s.onDies f).plot q = s.plot q := State.onDies_keeps (fun s => s.plot q) (fun _ _ _ => rfl) s f

omit h in
theorem sameMemory_onDies (s : State) (f : Die → Die) : SameMemory s (s.onDies f) :=
  ⟨fun a => rdByte_eq (State.onDies_keeps State.mem (fun _ _ _ => rfl) s f) (State.onDies_keeps State.mod (fun _ _ _ => rfl) s f)
      (fun q => by rw [State.plot_onDies]) a,
    fun a => State.onDies_keeps (fun s => s.sideAt a) (fun _ _ _ => rfl) s f⟩

omit h in
theorem Die.fit_of_le {d : Die} (hd : d.otc.length ≤ 512) : d.fit = d := if_neg (Nat.not_lt.2 hd)

omit h in
/-- A cistern that unlocks an extent. -/
theorem Die.pinExt_unlock (d : Die) (e : OtcEnt) (hd : d.otc.length ≤ 512) :
    ((d.pinExt e false).fit).otc = d.otc.map (fun x => if x.obj = e.obj ∧ x.ext = e.ext then { x with locked := false } else x) := by
  rw [Die.fit_of_le (by simpa [Die.pinExt] using hd)]
  simp only [Die.pinExt, Bool.false_eq_true, if_false, Bool.and_eq_true, beq_iff_eq]

omit h in
/-- A cistern that loads an extent to lock it. -/
theorem Die.pinExt_lock (d : Die) (e : OtcEnt) (hd : d.otc.length < 512) : ∃ l, { e with locked := l } ∈ ((d.pinExt e true).fit).otc ∧
    (d.locked ≠ 128 → l = true) := by
  obtain ⟨l, he, hl⟩ : ∃ l, (d.pinExt e true).otc = d.otc.filter (fun x => !(x.obj == e.obj && x.ext == e.ext)) ++ [{ e with locked := l }] ∧
      (d.locked ≠ 128 → l = true) := by
    unfold Die.pinExt
    dsimp only
    rw [if_pos rfl]
    split
    · exact ⟨true, rfl, fun _ => rfl⟩
    · split
      · rename_i hlock
        exact ⟨false, rfl, fun hn => absurd hlock hn⟩
      · exact ⟨true, rfl, fun _ => rfl⟩
  have hlen := List.length_filter_le (fun x : OtcEnt => !(x.obj == e.obj && x.ext == e.ext)) d.otc
  rw [Die.fit_of_le (by rw [he, List.length_append, List.length_singleton]; omega), he]
  exact ⟨l, List.mem_append_right _ (List.mem_singleton.2 rfl), hl⟩

/-- PIN waits for a descriptor that migrates, finds ABSENT, or locks or unlocks an extent in every cistern. -/
theorem pin_performs (hk : o.act.kind = .pin a b) :
    let does := s.does p k o pick
    let obj := a.extractLsb' 0 24
    let i := (b.extractLsb' 0 16).toNat
    let absent := does (fun u => s.defers u p k o { cause := .absent, obj := obj })
    (s.lookup obj = .wait → exec (.commitOpPerform p k o.serial pick) s = .next s) ∧ (s.lookup obj = .absent → absent) ∧
    ∀ d0 d1 desc, s.lookup obj = .found d0 d1 desc →
      let x0 := s.rdW (s.extAddr desc d1 i)
      let x1 := s.rdW (s.extAddr desc d1 i + 8)
      (d1.getLsbD 0 = false ∨ d1.extractLsb' 2 2 = 3 ∨ (d1.extractLsb' 16 16).toNat ≤ i ∨ x0.getLsbD 63 = false → absent) ∧
      (d1.getLsbD 0 = true → d1.extractLsb' 2 2 ≠ 3 → i < (d1.extractLsb' 16 16).toNat → x0.getLsbD 63 = true → b.getLsbD 17 = false →
        does (fun u => s.over u p k o ∧ SameMemory s u ∧ ∀ d < 84,
          (b.getLsbD 16 = false → (s.die d).otc.length ≤ 512 → (u.die d).otc =
            (s.die d).otc.map (fun e => if e.obj = obj ∧ e.ext = i then { e with locked := false } else e)) ∧
          (b.getLsbD 16 = true → (s.die d).otc.length < 512 → ∃ e ∈ (u.die d).otc, e.obj = obj ∧ e.ext = i ∧ e.x0 = x0 ∧ e.x1 = x1 ∧
            e.d0 = d0 ∧ e.d1 = d1 ∧ ((s.die d).locked ≠ 128 → e.locked = true)))) := by
  intro does obj i absent
  have hm : o.act.kind.isMem = false := by rw [hk]; rfl
  have hp : s.performAt p k o pick = s.pinEvent p k o a b := by simp only [State.performAt, hk]
  unfold State.pinEvent at hp
  dsimp only at hp
  refine ⟨fun hl => exactly_of_performAt h hm (hp.trans (by rw [hl])), fun hl => does_defers h hm (hp.trans (by rw [hl])), ?_⟩
  intro d0 d1 desc hl x0 x1
  rw [hl] at hp
  dsimp only at hp
  refine ⟨fun hbad => does_defers h hm (hp.trans (if_pos ?_)), fun h0 h2 h16 h63 h17 => ?_⟩
  · simp only [Bool.or_eq_true, Bool.not_eq_true', beq_iff_eq, decide_eq_true_eq, or_assoc]
    exact hbad
  · rw [if_neg (by simp only [Bool.or_eq_true, Bool.not_eq_true', beq_iff_eq, decide_eq_true_eq, not_or, Bool.not_eq_false, Nat.not_le]
                   exact ⟨⟨⟨h0, h2⟩, h16⟩, h63⟩), if_neg (by rw [h17]; exact Bool.false_ne_true)] at hp
    have hplots : ∀ f : Die → Die, (s.onDies f).task p k = s.task p k :=
      fun f => congrArg (fun x : Plot => x.task k) (State.plot_onDies s f p)
    refine does_of_performAt h hm hp ⟨over_of_finishOp h (hplots _),
      (sameMemory_onDies s _).trans (State.finishOp_frame o none ((congrArg Task.leaving (hplots _)).trans (performs_leaving h))).1, fun d hd => ?_⟩
    rw [State.die_finishOp o none ((congrArg Task.leaving (hplots _)).trans (performs_leaving h)), State.die_onDies _ _ hd]
    refine ⟨fun h16 hlen => ?_, fun h16 hlen => ?_⟩
    · rw [h16]
      exact Die.pinExt_unlock _ _ hlen
    · rw [h16]
      obtain ⟨l, he, hlock⟩ := Die.pinExt_lock (s.die d) ⟨obj, i, d0, d1, x0, x1, false, s.extUnder desc d1 i⟩ hlen
      exact ⟨_, he, rfl, rfl, rfl, rfl, rfl, rfl, hlock⟩

end

/-! ## TBLW -/

theorem State.lostParts_none {s : State} {p k : Nat} {bpc : BitVec 40} {slot : Nat} {ps : List Piece} (h : ∀ y ∈ ps, s.hostLost y.1 = false) :
    s.lostParts p k bpc slot ps = s := by
  unfold State.lostParts
  rw [List.find?_eq_none.2 (fun y hy => by rw [h y hy]; exact Bool.false_ne_true)]

theorem State.rdLost_parts {s : State} {ps : List Piece} (h : ∀ y ∈ ps, s.hostLost y.1 = false) :
    ps.flatMap (fun x => s.rdLost x.1 x.2.2) = ps.flatMap (fun x => s.rdBytes x.1 x.2.2) := by
  rw [List.flatMap_def, List.flatMap_def]
  exact congrArg List.flatten (List.map_congr_left (fun y hy => if_neg (by rw [h y hy]; exact Bool.false_ne_true)))

/-- The words of a table operation. -/
def tblwWords (n : Nat) (bs : List Byte) : List (BitVec 64) := (List.range n).map (fun i => BitVec.ofNat 64 (leNat ((bs.drop (8 * i)).take 8)))

theorem length_tblwWords (n : Nat) (bs : List Byte) : (tblwWords n bs).length = n := by simp [tblwWords]

theorem State.tblwEvent_read {s : State} {p k : Nat} {o : Op} {kind : TblKind} {b : BitVec 64} {ps : List Piece}
    (hl : s.partHomesBy false (dieOf p) o.act.ptr (piecesOf (o.act.ptr.start + o.act.ptr.cur.toNat) (8 * tblwCount kind b)) = .ok ps)
    (hp : ps.find? (fun y => !isHost y.1 && (s.sideAt y.1).poison) = none) (hh : ∀ y ∈ ps, s.hostLost y.1 = false) :
    let words := tblwWords (tblwCount kind b) (ps.flatMap (fun y => s.rdBytes y.1 y.2.2))
    s.tblwEvent p k o kind b = if s.tblwOk kind b words then (s.tblwApply kind b words).finishOp p k o none else s.deferFault p k o { cause := .priv } := by
  intro words
  unfold State.tblwEvent
  simp only [hl, hp, State.lostParts_none hh, State.rdLost_parts hh]
  rfl

theorem State.task_tblwApply {kind : TblKind} (s : State) (b : BitVec 64) (ws : List (BitVec 64)) (hk : kind ≠ .name) (q j : Nat) :
    (s.tblwApply kind b ws).task q j = s.task q j := by
  cases kind with
  | route => exact State.task_onPlot s _ q j _ (fun _ => rfl)
  | name => exact absurd rfl hk
  | heat =>
    exact foldl_keeps (fun s : State => s.task q j)
      (fun (s : State) w => s.onMod (fun m => { m with thi := w.extractLsb' 0 8, tlo := w.extractLsb' 8 8 })) ws (fun _ _ _ => rfl) s
  | admc =>
    unfold State.tblwApply
    exact foldl_keeps (fun s : State => s.task q j) _ ws (fun s _ _ => State.task_onFu ..) s

/-- Values put at consecutive keys. -/
theorem SMap.get_puts {α : Type} (f : Nat → α) (i n : Nat) (m : SMap α) (d : α) {j : Nat} (hj : j < n) :
    ((List.range n).foldl (fun m j => SMap.put m (i + j) (f j)) m).get (i + j) d = f j := by
  induction n with
  | zero => exact absurd hj (Nat.not_lt_zero j)
  | succ n ih =>
    rw [List.range_succ, List.foldl_append, List.foldl_cons, List.foldl_nil, SMap.get_put]
    by_cases e : j = n
    · rw [if_pos (by rw [e]), e]
    · rw [if_neg (by omega), ih (by omega)]

/-- An admission port of a plot. -/
def State.admPort (s : State) (q : Nat) (one : Bool) : AdmPort := if one then (s.plot q).fu.port1 else (s.plot q).fu.port0

section
variable {s : State} {p k pick : Nat} {o : Op} {b : BitVec 64} (h : s.performs p k o)
include h

theorem does_tblw {kind : TblKind} {words : List (BitVec 64)} {f : State → Prop} (hk : o.act.kind = .tblw kind b) (hn : kind ≠ .name)
    (hp : s.tblwEvent p k o kind b = (s.tblwApply kind b words).finishOp p k o none) (hf : f ((s.tblwApply kind b words).finishOp p k o none)) :
    s.does p k o pick (fun u => s.over u p k o ∧ f u) :=
  does_of_performAt h (by rw [hk]; rfl) ((show s.performAt p k o pick = s.tblwEvent p k o kind b by simp only [State.performAt, hk]).trans hp)
    ⟨over_of_finishOp h (State.task_tblwApply s b words hn p k), hf⟩

theorem leaving_tblwApply {kind : TblKind} (words : List (BitVec 64)) (hn : kind ≠ .name) : ((s.tblwApply kind b words).task p k).leaving = .no :=
  (congrArg Task.leaving (State.task_tblwApply s b words hn p k)).trans (performs_leaving h)

theorem tblw_heat (w : BitVec 64) : ((s.tblwApply .heat b [w]).finishOp p k o none).mod.thi = w.extractLsb' 0 8 ∧
    ((s.tblwApply .heat b [w]).finishOp p k o none).mod.tlo = w.extractLsb' 8 8 := by
  rw [State.mod_finishOp o none (leaving_tblwApply h [w] (by decide))]
  exact ⟨rfl, rfl⟩

theorem tblw_route {words : List (BitVec 64)} {i : Nat} (hi : i < words.length) :
    (((s.tblwApply .route b words).finishOp p k o none).plot (b.toNat / 2 ^ 32 % 2 ^ 16)).route (b.toNat % 256 + i) =
      (words.getD i 0).extractLsb' 0 12 := by
  rw [State.finishOp_plot (g := fun x => x.route (b.toNat % 256 + i)) (fun _ _ => rfl) o none (leaving_tblwApply h words (by decide)),
    ← extract_toNat, ← BitVec.low_byte]
  unfold State.tblwApply
  dsimp only
  rw [State.plot_onPlot, if_pos rfl]
  exact SMap.get_puts (fun j => (words.getD j 0).extractLsb' 0 12) _ _ _ _ hi

theorem tblw_admc (w : BitVec 64) : let q := w.toNat % 2 ^ 16
    let port := fun (u : State) => u.admPort q (w.getLsbD 16)
    let u := (s.tblwApply .admc b [w]).finishOp p k o none
    (port u).ocap = (w.extractLsb' 17 11).toNat ∧ (port u).pcap = (port s).pcap ∧ (port u).cnt = min (port s).cnt (port u).ecap := by
  intro q port u
  have hport : port u = ({ port s with ocap := (w.extractLsb' 17 11).toNat } : AdmPort).clampCnt := by
    have hu : (u.plot q).fu = (((s.tblwApply .admc b [w])).plot q).fu := State.finishOp_plot (g := Plot.fu) (fun _ _ => rfl) o none
      (leaving_tblwApply h [w] (by decide)) q
    unfold port State.admPort
    rw [hu]
    unfold State.tblwApply q
    dsimp only [List.foldl_cons, List.foldl_nil]
    rw [← BitVec.low_short, State.fu_onFu, if_pos rfl]
    cases w.getLsbD 16 <;> rfl
  rw [hport]
  exact ⟨rfl, rfl, rfl⟩

end

end Sys2Proof.Machine
end

