-- ==== Sys2Proof/Proofs/HaltForm.lean ====
section
/-! PROOFS. HALTC ends the launch of its task (R353, R354): what the sluice does to the launch's tasks and commands leaves the launch as it was told to end. -/

namespace Sys2Proof.Machine

open Sys2Proof

/-- What becomes of a launch. -/
def Launch.verdict (l : Launch) : BitVec 32 × LState × BitVec 8 × BitVec 32 := (l.id, l.st, l.kind, l.reason)

/-- What becomes of every launch. -/
def State.verdicts (s : State) : List (BitVec 32 × LState × BitVec 8 × BitVec 32) := s.launches.map Launch.verdict

theorem map_onFirst {β : Type} (g : Launch → β) {f : Launch → Launch} (h : ∀ l, g (f l) = g l) (id : BitVec 32) (ls : List Launch) :
    (onFirst id f ls).map g = ls.map g := by
  induction ls with
  | nil => rfl
  | cons l t ih =>
    rw [onFirst]
    split
    · rw [List.map_cons, List.map_cons, h]
    · rw [List.map_cons, List.map_cons, ih]

theorem State.verdicts_onLaunch (s : State) (id : BitVec 32) {f : Launch → Launch} (h : ∀ l, (f l).verdict = l.verdict) :
    (s.onLaunch id f).verdicts = s.verdicts := map_onFirst Launch.verdict h id s.launches

theorem verdicts_of_launches {s u : State} (h : u.launches = s.launches) : u.verdicts = s.verdicts := congrArg (List.map Launch.verdict) h

theorem verdicts_of_still {s u : State} (h : u.still = s.still) : u.verdicts = s.verdicts := by
  have hl : u.launches.map Launch.still = s.launches.map Launch.still := congrArg Still.launches h
  have hv : ∀ ls : List Launch, ls.map Launch.verdict = (ls.map Launch.still).map Launch.verdict := by
    intro ls
    rw [List.map_map]
    rfl
  unfold State.verdicts
  rw [hv, hl, ← hv]

theorem find_onFirst {id : BitVec 32} {f : Launch → Launch} (hf : ∀ l, (f l).id = l.id) (ls : List Launch) :
    (onFirst id f ls).find? (fun l => l.id == id) = (ls.find? (fun l => l.id == id)).map f := by
  induction ls with
  | nil => rfl
  | cons l t ih =>
    rw [onFirst]
    by_cases h : l.id == id
    · rw [if_pos h, List.find?_cons_of_pos (by rw [hf]; exact h), List.find?_cons_of_pos (by exact h)]
      rfl
    · rw [if_neg h, List.find?_cons_of_neg (by exact h), List.find?_cons_of_neg (by exact h), ih]

/-- A launch is found as often as its verdict is. -/
theorem launch_of_verdicts {s u : State} (h : u.verdicts = s.verdicts) (id : BitVec 32) :
    (u.launch? id).map Launch.verdict = (s.launch? id).map Launch.verdict := by
  have key : ∀ ls : List Launch, (ls.find? (fun l => l.id == id)).map Launch.verdict = (ls.map Launch.verdict).find? (fun v => v.1 == id) := by
    intro ls
    rw [List.find?_map]
    rfl
  unfold State.launch?
  rw [key, key]
  exact congrArg _ h

/-! ## What leaves the verdicts -/

theorem State.verdicts_post (s : State) (q : Nat) (r : List (BitVec 64)) : (s.post q r).verdicts = s.verdicts := by
  unfold State.post
  split <;> rfl

theorem State.verdicts_postErrAt (s : State) (wt : BitVec 64) (kind : BitVec 8) (p k : Nat) (launch : BitVec 32) (bpc : BitVec 40) (c : CauseRec)
    (ended : Bool) (detail : BitVec 64) : (s.postErrAt wt kind p k launch bpc c ended detail).verdicts = s.verdicts := by
  unfold State.postErrAt
  split
  · rfl
  · exact (State.verdicts_post ..).trans (State.verdicts_onLaunch s launch (fun _ => rfl))

theorem State.verdicts_wrBytes (bs : List Byte) (s : State) (a : Nat) : (s.wrBytes a bs).verdicts = s.verdicts := by
  induction bs generalizing s a with
  | nil => rfl
  | cons b t ih => exact (ih { s with mem := memPut s.mem a b } (a + 1)).trans rfl

theorem State.verdicts_wrHome (s : State) (a : Nat) (bs : List Byte) : (s.wrHome a bs).verdicts = s.verdicts := by
  unfold State.wrHome
  split
  · rw [State.verdicts_wrBytes, State.verdicts_wrBytes]
  · rw [State.verdicts_wrBytes]

theorem State.verdicts_wrSide (s : State) (a : Nat) (x : Side) : (s.wrSide a x).verdicts = s.verdicts := verdicts_of_still (State.still_wrSide ..)

theorem State.verdicts_homeWrite (s : State) (a : Nat) (bs : List Byte) (mode : StMode) (stamp : BitVec 3) :
    (s.homeWrite a bs mode stamp).verdicts = s.verdicts := by
  have hw : ((s.wrHome a bs).touch a (wordsOf a bs.length)).verdicts = s.verdicts := State.verdicts_wrHome s a bs
  unfold State.homeWrite
  dsimp only
  split
  · exact hw
  · split
    · exact (verdicts_of_still (State.still_wakeAll ..)).trans ((State.verdicts_wrSide ..).trans hw)
    · exact (State.verdicts_wrSide ..).trans hw

theorem State.verdicts_putParts (s : State) (p k : Nat) (launch : BitVec 32) (core : Bool) (bs : List Byte) (stamp : BitVec 3) (ps : List (Nat × Nat × Nat)) :
    (s.putParts p k launch core bs stamp ps).verdicts = s.verdicts := by
  refine foldl_keeps State.verdicts _ ps (fun s x _ => ?_) s
  unfold State.putPart
  split
  · exact State.verdicts_postErrAt ..
  · split
    · exact State.verdicts_homeWrite ..
    · exact State.verdicts_homeWrite ..

theorem State.verdicts_writeFrame (s : State) (p k : Nat) (bpc : BitVec 40) (c : Option CauseRec) (w : WaitFor) (ps : List (Nat × Nat × Nat)) :
    (s.writeFrame p k bpc c w ps).verdicts = s.verdicts := by
  unfold State.writeFrame
  extract_lets t
  refine (foldl_keeps State.verdicts _ _ (fun s i _ => ?_) _).trans (State.verdicts_putParts s ..)
  split
  · split
    · rfl
    · exact State.verdicts_wrSide ..
  · rfl

theorem State.verdicts_leaveHost (s : State) (p k : Nat) : (s.leaveHost p k).verdicts = s.verdicts := by
  unfold State.leaveHost
  dsimp only
  split
  · rfl
  · exact State.verdicts_onLaunch s _ (fun _ => rfl)

theorem State.verdicts_freeIfDone (s : State) (p k : Nat) : (s.freeIfDone p k).verdicts = s.verdicts := by
  unfold State.freeIfDone
  dsimp only
  split
  · exact State.verdicts_leaveHost s p k
  · rfl

theorem State.verdicts_drop (s : State) (p k : Nat) : ((s.dropBlock p k).withdraw p k).verdicts = s.verdicts :=
  verdicts_of_still ((State.still_withdraw ..).trans (State.still_dropBlock ..))

theorem State.verdicts_endTask (s : State) (p k : Nat) (c : CauseRec) (bpc : BitVec 40) : (s.endTask p k c bpc).verdicts = s.verdicts :=
  (State.verdicts_postErrAt ..).trans (State.verdicts_drop s p k)

theorem State.verdicts_enterHandler (s : State) (p k : Nat) (c : CauseRec) (bpc : BitVec 40) : (s.enterHandler p k c bpc).verdicts = s.verdicts := by
  unfold State.enterHandler
  dsimp only
  split
  · rfl
  · exact State.verdicts_endTask ..
  · exact State.verdicts_putParts s ..

theorem State.verdicts_settle (s : State) (p k : Nat) : (s.settle p k).verdicts = s.verdicts := by
  unfold State.settle
  dsimp only
  split
  · rfl
  · exact State.verdicts_freeIfDone ..
  · split
    · rfl
    · exact (State.verdicts_freeIfDone ..).trans (State.verdicts_enterHandler ..)
  · split
    · rfl
    · split
      · rfl
      · split
        · rfl
        · exact (State.verdicts_freeIfDone ..).trans (State.verdicts_endTask ..)
        · split
          · refine (State.verdicts_postErrAt ..).trans ?_
            split
            · exact (State.verdicts_postErrAt ..).trans (State.verdicts_writeFrame s ..)
            · exact State.verdicts_writeFrame s ..
          · exact State.verdicts_writeFrame s ..

theorem State.verdicts_finishOp (s : State) (p k : Nat) (o : Op) (late : Option Val) : (s.finishOp p k o late).verdicts = s.verdicts :=
  State.verdicts_settle _ p k

/-! ## The end of a launch -/

theorem State.verdicts_killTask (s : State) (p k : Nat) : (s.killTask p k).verdicts = s.verdicts := by
  unfold State.killTask
  split
  · rfl
  · exact (State.verdicts_settle ..).trans (State.verdicts_drop s p k)

theorem State.verdicts_cmdAccepted (s : State) (serial : Nat) : (s.cmdAccepted serial).verdicts = s.verdicts := by
  unfold State.cmdAccepted
  split
  · rfl
  · split
    · rfl
    · split
      · rfl
      · split
        · rfl
        · exact State.verdicts_onLaunch s _ (fun _ => rfl)

theorem State.verdicts_removeCmd (s : State) (c : Cmd) : (s.removeCmd c).verdicts = s.verdicts := by
  unfold State.removeCmd
  dsimp only
  split <;> rfl

theorem State.verdicts_dropHandle (s : State) (serial : Nat) : (s.dropHandle serial).verdicts = s.verdicts := by
  unfold State.dropHandle
  split <;> rfl

theorem State.verdicts_returnUnit (s : State) (serial : Nat) : (s.returnUnit serial).verdicts = s.verdicts := by
  unfold State.returnUnit
  split
  · rfl
  · split
    · exact State.verdicts_finishOp ..
    · rfl

theorem State.verdicts_killCmd (s : State) (c : Cmd) : (s.killCmd c).verdicts = s.verdicts := by
  rw [State.killCmd, State.verdicts_returnUnit, State.verdicts_dropHandle, State.verdicts_removeCmd, State.verdicts_cmdAccepted]

/-- A live launch that is ended stands as ending, with the kind and the reason of its end. -/
theorem State.killLaunch_verdict {s : State} {id : BitVec 32} {l : Launch} (kind : BitVec 8) (reason : BitVec 32) (hl : s.launch? id = some l)
    (hst : l.st ≠ .ending) : ((s.killLaunch id kind reason).launch? id).map Launch.verdict = some (l.id, .ending, kind, reason) := by
  unfold State.killLaunch
  simp only [hl]
  rw [if_neg (by simpa using hst)]
  refine (launch_of_verdicts (s := s.onLaunch id (fun l => { l with st := .ending, kind := kind, reason := reason, frames := [], stay := [] })) ?_ id).trans ?_
  · refine (foldl_keeps State.verdicts (fun (s : State) (c : Cmd) => s.killCmd c) _ (fun s c _ => State.verdicts_killCmd s c) _).trans ?_
    refine foldl_keeps State.verdicts _ _ (fun s p _ => ?_) _
    exact foldl_keeps State.verdicts (fun (s : State) (k : Nat) => s.killTask p k) _ (fun s k _ => State.verdicts_killTask s p k) s
  · have hfind : (s.onLaunch id (fun l => { l with st := .ending, kind := kind, reason := reason, frames := [], stay := [] })).launch? id =
        (s.launch? id).map (fun l => { l with st := .ending, kind := kind, reason := reason, frames := [], stay := [] }) :=
      find_onFirst (f := fun l => { l with st := .ending, kind := kind, reason := reason, frames := [], stay := [] }) (fun _ => rfl) s.launches
    rw [hfind, hl]
    rfl

theorem haltc_performs {s : State} {p k pick : Nat} {o : Op} {a : BitVec 64} (h : s.performs p k o) (hk : o.act.kind = .haltc a) :
    s.does p k o pick (fun u => ∀ l, s.launch? (s.task p k).launch = some l → l.st ≠ .ending →
      ∃ m, u.launch? (s.task p k).launch = some m ∧ m.st = .ending ∧ m.kind = 0x17 ∧ m.reason = a.extractLsb' 0 32) := by
  refine does_of_performAt h (by rw [hk]; rfl) (u := s.haltEvent p k o a) (by simp only [State.performAt, hk]) (fun l hl hst => ?_)
  have hmap := launch_of_verdicts (State.verdicts_finishOp s p k o none) (s.task p k).launch
  rw [hl] at hmap
  obtain ⟨l', hl', hv'⟩ := Option.map_eq_some_iff.1 hmap
  have hst' : l'.st ≠ .ending := by
    rw [show l'.st = l.st from congrArg (fun v => v.2.1) hv']
    exact hst
  obtain ⟨m, hm, hv⟩ := Option.map_eq_some_iff.1 (State.killLaunch_verdict 0x17 (a.extractLsb' 0 32) hl' hst')
  simp only [Launch.verdict, Prod.mk.injEq] at hv
  exact ⟨m, hm, hv.2⟩

end Sys2Proof.Machine
end

