-- ==== Sys2Proof/Proofs/RestoreForm.lean ====
section
/-! PROOFS. CTX.CREST as it performs (R223, R224, R232). -/

namespace Sys2Proof.Machine

open Sys2Proof

/-! ## Numbers of bytes -/

/-- The low bytes of a little-endian number. -/
theorem leNat_take (xs : List Byte) (n : Nat) : leNat (xs.take n) = leNat xs % 256 ^ n := by
  induction n generalizing xs with
  | zero => simp [leNat, Nat.mod_one]
  | succ n ih =>
    cases xs with
    | nil => simp [leNat]
    | cons b t =>
      have hb := b.isLt
      have hlow : (b.toNat + 256 * leNat t) % 256 = b.toNat := by omega
      have hhigh : (b.toNat + 256 * leNat t) / 256 = leNat t := by omega
      rw [List.take_succ_cons, leNat, leNat, ih, pow_succ', Nat.mod_mul, hlow, hhigh]

/-- A field of a frame in the low bytes of a word. -/
theorem frameNat_low (bs : List Byte) (off : Nat) {n : Nat} (hn : n ≤ 8) : BitVec.ofNat (8 * n) (frameNat bs off n) = (frameW bs off).extractLsb' 0 (8 * n) := by
  have ht : (bs.drop off).take n = ((bs.drop off).take 8).take n := by rw [List.take_take, Nat.min_eq_left hn]
  apply BitVec.eq_of_toNat_eq
  have hpow : (256 : Nat) ^ n = 2 ^ (8 * n) := by rw [pow_mul]; norm_num
  have hdvd : 2 ^ (8 * n) ∣ 2 ^ 64 := pow_dvd_pow 2 (by omega)
  rw [extract_toNat, frameW, BitVec.toNat_ofNat, BitVec.toNat_ofNat, frameNat, ht, leNat_take, hpow, Nat.mod_mod, pow_zero, Nat.div_one,
    Nat.mod_mod_of_dvd _ hdvd]
  rfl

/-! ## The frame -/

section
variable {s : State} {p k pick : Nat} {o : Op} {b : BitVec 64} {ps : List Piece}

/-- The bytes that the homes of a frame hold. -/
def State.homeBytes (s : State) (ps : List Piece) : List Byte := ps.flatMap (fun y => s.rdBytes y.1 y.2.2)

theorem State.restoreTask_read {src : Ptr} {q j : Nat} (kept : Kept) (suspend : Bool) (hl : s.partHomes (dieOf p) src (piecesOf q 4096) = .ok ps)
    (hp : ps.find? (fun y => !isHost y.1 && (s.sideAt y.1).poison) = none) (hh : ∀ y ∈ ps, s.hostLost y.1 = false) :
    ∃ tags u, s.restoreTask p j src q kept suspend = some u ∧ u.mod = s.mod ∧
      ∀ i, u.task p i = if i = j ∧ j < 16 then s.taskOfFrame p (s.homeBytes ps) tags kept suspend else s.task p i := by
  have hg : s.getObj (dieOf p) src q 4096 = some (s.homeBytes ps) := by
    unfold State.getObj State.getAt
    simp only [hl, hp, State.rdLost_parts hh]
    rfl
  unfold State.restoreTask
  rw [hg]
  refine ⟨(List.range 8).map (fun i => s.tagAt (dieOf p) src (q + 0x440 + 32 * i)), _, rfl, rfl, fun i => ?_⟩
  refine (State.task_onPlot _ p p i (fun x => { x with near := [] }) (fun _ => rfl)).trans ((State.task_setTask ..).trans ?_)
  exact if_congr (by simp) rfl rfl

/-- What CREST asks of a header's words (R220, R232). -/
def frameFits (x : Task) (bs : List Byte) : Prop :=
  (x.st = .free ∨ x.st = .saved) ∧ (frameW bs 8).extractLsb' 0 3 = 4 ∧ (frameW bs 0).extractLsb' 40 24 = 0 ∧
    (frameW bs 8).extractLsb' 42 22 = 0 ∧ (frameW bs 8).extractLsb' 28 4 = 0 ∧ (frameW bs 8).extractLsb' 3 5 = 0

theorem frameFits_iff (x : Task) (bs : List Byte) :
    ((x.st != .free && x.st != .saved) || (frameW bs 8).extractLsb' 0 3 != 4 || !headerZeros bs) = true ↔ ¬frameFits x bs := by
  simp only [frameFits, headerZeros, Bool.or_eq_true, Bool.and_eq_true, bne_iff_ne, ne_eq, Bool.not_eq_true', Bool.and_eq_false_iff, beq_eq_false_iff_ne]
  tauto

/-- What a slot holds once its task has been restored. -/
def Task.restoredFrom (v : Task) (bs : List Byte) (suspend priv : Bool) : Prop :=
  v.st = (if suspend then .suspended else .ready) ∧ v.wait = .none ∧ v.bpc = (frameW bs 0).extractLsb' 0 40 ∧
  v.priv = ((frameW bs 0xB08).getLsbD 48 && priv) ∧ v.launch = (frameW bs 0xB08).extractLsb' 16 32 ∧ v.pri = (frameW bs 0xB10).extractLsb' 0 3 ∧
  (∀ i : Fin 64, v.regs.g[i] = frameW bs (0x100 + 8 * i.val)) ∧ (∀ i : Fin 32, v.regs.f[i].bits = frameW bs (0x300 + 8 * i.val))

theorem State.taskOfFrame_restored (s : State) (p : Nat) (bs : List Byte) (tags : List Bool) (kept : Kept) (suspend priv : Bool) :
    let t := s.taskOfFrame p bs tags kept suspend
    Task.restoredFrom { t with priv := t.priv && priv, st := if suspend then .suspended else .ready, wait := .none } bs suspend priv := by
  intro t
  refine ⟨rfl, rfl, frameNat_low bs 0 (n := 5) (by decide), rfl, rfl, rfl, fun i => ?_, fun i => ?_⟩
  · exact Vector.getElem_ofFn i.isLt
  · exact congrArg FReg.bits (Vector.getElem_ofFn i.isLt)

variable (h : s.performs p k o)
include h

theorem crest_performs (hk : o.act.kind = .crest b) (hc : (s.plot p).ctxBefore o.serial b = false) :
    let does := s.does p k o pick
    let j := (b.extractLsb' 0 4).toNat
    let x := s.task p j
    let homes := s.partHomes (dieOf p) o.act.ptr (piecesOf (o.act.ptr.start + o.act.ptr.cur.toNat) 4096)
    (homes = .wait → exec (.commitOpPerform p k o.serial pick) s = .next s) ∧ (∀ c, homes = .bad c → does (fun u => s.defers u p k o c)) ∧
    ∀ ps, homes = .ok ps →
      let poisoned := fun (y : Piece) => !isHost y.1 && (s.sideAt y.1).poison
      (∀ y, ps.find? poisoned = some y → does (fun u => s.defers u p k o { cause := .poison, phys := BitVec.ofNat 64 y.1 })) ∧
      (ps.find? poisoned = none → (∀ y ∈ ps, s.hostLost y.1 = false) →
        (¬frameFits x (s.homeBytes ps) → does (fun u => s.defers u p k o { cause := .priv })) ∧
        (frameFits x (s.homeBytes ps) → j ≠ k → does (fun u => s.over u p k o ∧
          (u.task p j).restoredFrom (s.homeBytes ps) (b.getLsbD 8) o.priv))) := by
  intro does j x homes
  have hm : o.act.kind.isMem = false := by rw [hk]; rfl
  have hp : s.performAt p k o pick = s.crestEvent p k o b := by
    simp only [State.performAt, hk, hc]
    exact if_neg Bool.false_ne_true
  unfold State.crestEvent Op.pos at hp
  dsimp only at hp
  refine ⟨fun hl => exactly_of_performAt h hm (hp.trans (by rw [show s.partHomes _ _ _ = .wait from hl])),
    fun c hl => does_defers h hm (hp.trans (by rw [show s.partHomes _ _ _ = .bad c from hl])), fun ps hl => ?_⟩
  rw [show s.partHomes _ _ _ = .ok ps from hl] at hp
  dsimp only at hp
  intro poisoned
  refine ⟨fun y hy => does_defers h hm (hp.trans (by rw [show ps.find? _ = some y from hy])), fun hno hh => ?_⟩
  rw [show ps.find? _ = none from hno] at hp
  dsimp only at hp
  rw [State.rdLost_parts hh, State.lostParts_none hh] at hp
  refine ⟨fun hbad => does_defers h hm (hp.trans (if_pos ((frameFits_iff x _).2 hbad))), fun hfits hjk => ?_⟩
  replace hp := hp.trans (if_neg (fun e => (frameFits_iff x _).1 e hfits))
  obtain ⟨tags, w, hw, hmod, htask⟩ := State.restoreTask_read (j := j)
    (if x.st == .saved then { uid := x.uid, woken := x.woken, wake := x.wake } else { uid := s.uid }) (b.getLsbD 8) hl hno hh
  rw [hw] at hp
  dsimp only at hp
  have hj : j < 16 := (b.extractLsb' 0 4).isLt
  have hlost : w.lostParts p k o.bpc o.slot ps = w := State.lostParts_none (fun y hy => by
    rw [← hh y hy]
    simp only [State.hostLost, State.hostUp, hmod])
  rw [hlost] at hp
  have hkj : ¬(k = j ∧ j < 16) := fun e => hjk e.1.symm
  have hother : ∀ f : Task → Task, (w.onTask p j f).task p k = s.task p k := fun f => by
    rw [State.task_onTask, if_neg (fun e => hkj ⟨e.2.1, hj⟩), htask, if_neg hkj]
  have hself : w.task p j = _ := (htask j).trans (if_pos ⟨rfl, hj⟩)
  refine does_of_performAt h hm hp ⟨over_of_finishOp h (hother _), ?_⟩
  rw [State.task_finishOp_other none ((congrArg Task.leaving (hother _)).trans (performs_leaving h)) (fun e => hjk e.2), State.task_onTask,
    if_pos ⟨rfl, rfl, hj⟩, hself]
  exact State.taskOfFrame_restored s p _ tags _ _ o.priv

end

end Sys2Proof.Machine
end

