-- ==== Sys2Proof/Proofs/FrameWrites.lean ====
section
/-! PROOFS. A save frame in memory (R223, R224): what the parts of a plain write leave there, and what else they leave as it is. -/

namespace Sys2Proof.Machine

open Sys2Proof

/-! ## Where memory stands -/

/-- What decides where an address leads, and what the steward's range reads as. -/
def State.land (s : State) : Module × (Nat → PStat × BitVec 16 × BitVec 4 × BitVec 16 × BitVec 16 × Bool) :=
  ({ s.mod with saves := [] }, fun q => (s.plot q).mapped)

section
variable {s u : State} (h : u.land = s.land)
include h

theorem hostLost_of_land (a : Nat) : u.hostLost a = s.hostLost a := by
  have hm : u.mod.linkUp = s.mod.linkUp := congrArg (fun v => v.1.linkUp) h
  simp only [State.hostLost, State.hostUp, hm]

theorem mirrorOf_of_land (a : Nat) : u.mirrorOf a = s.mirrorOf a := by
  have hp : (u.plot (plotOfAddr a)).mapped = (s.plot (plotOfAddr a)).mapped := congrFun (congrArg Prod.snd h) _
  have hs : (u.plot (plotOfAddr a)).stat = (s.plot (plotOfAddr a)).stat := congrArg (fun v => v.1) hp
  have hq : (u.plot (plotOfAddr a)).partner = (s.plot (plotOfAddr a)).partner := congrArg (fun v => v.2.1) hp
  simp only [State.mirrorOf, hs, hq]

end

/-- A state without its memory and without what is noted of its saves. -/
def State.unsaved (s : State) : State := { s with mem := [], mod := { s.mod with saves := [] } }

theorem State.rdByte_unsaved {s : State} {a : Nat} (h : inSteward a = true) : s.unsaved.rdByte a = s.rdByte a := by
  have hn : ∀ off, s.unsaved.stewardNow off = s.stewardNow off := fun off => by
    have hh : ∀ i, s.unsaved.mapHeader i = s.mapHeader i := fun _ => rfl
    have he : ∀ p i, s.unsaved.mapEntry p i = s.mapEntry p i := fun _ _ => rfl
    simp only [State.stewardNow, hh, he]
    rfl
  have hw : ∀ off, s.unsaved.stewardWord off = s.stewardWord off := fun off => by
    simp only [State.stewardWord, hn]
    rfl
  unfold State.rdByte
  rw [if_pos h, if_pos h, hw]

theorem rdByte_of_land {s u : State} (h : u.land = s.land) {a : Nat} (ha : inSteward a = true) : u.rdByte a = s.rdByte a := by
  have he : u.unsaved.rdByte a = s.unsaved.rdByte a := rdByte_eq (s := u.unsaved) (t := s.unsaved) rfl (congrArg Prod.fst h)
    (fun q => congrFun (congrArg Prod.snd h) q) a
  exact (State.rdByte_unsaved ha).symm.trans (he.trans (State.rdByte_unsaved ha))

theorem State.rdByte_mem {s : State} {a : Nat} (ha : inSteward a = false) : s.rdByte a = memGet s.mem a :=
  if_neg (by rw [ha]; exact Bool.false_ne_true)

theorem State.land_onPlot (s : State) (p : Nat) {f : Plot → Plot} (h : ∀ x, (f x).mapped = x.mapped) : (s.onPlot p f).land = s.land :=
  Prod.ext rfl (funext (fun q => State.onPlot_keeps Plot.mapped s p q h))

theorem State.land_setTask (s : State) (p k : Nat) (t : Task) : (s.setTask p k t).land = s.land := State.land_onPlot s p (fun _ => rfl)

theorem land_of_still {s u : State} (h : u.still = s.still) : u.land = s.land :=
  Prod.ext (congrArg (fun v => { v.mod with saves := [] }) h) (funext (fun q => congrArg (fun v => (v.plots q).mapped) h))

theorem State.land_wrSide (s : State) (a : Nat) (x : Side) : (s.wrSide a x).land = s.land := land_of_still (State.still_wrSide ..)

theorem State.land_wrBytes (bs : List Byte) (s : State) (a : Nat) : (s.wrBytes a bs).land = s.land := by
  induction bs generalizing s a with
  | nil => rfl
  | cons b t ih => exact (ih { s with mem := memPut s.mem a b } (a + 1)).trans rfl

/-! ## One part -/

section
variable {s : State} {p a : Nat} {bs : List Byte} {stamp : BitVec 3}

theorem State.homeWrite_plain (hm : s.mirrorOf a = none) :
    (s.homeWrite a bs .plain stamp).land = s.land ∧ (s.homeWrite a bs .plain stamp).mem = (s.wrBytes a bs).mem := by
  have hw : s.wrHome a bs = s.wrBytes a bs := by
    unfold State.wrHome
    rw [hm]
  have hl : ((s.wrBytes a bs).touch a (wordsOf a bs.length)).land = s.land := State.land_wrBytes bs s a
  unfold State.homeWrite
  rw [hw]
  dsimp only
  split
  · exact ⟨hl, rfl⟩
  · rw [if_neg (by decide)]
    exact ⟨(State.land_wrSide ..).trans hl, (State.mem_wrSide ..).trans rfl⟩

theorem State.putPart_home {k : Nat} {launch : BitVec 32} (hl : s.hostLost a = false) (hm : s.mirrorOf a = none) :
    (s.putPart p k launch true a bs stamp).land = s.land ∧ (s.putPart p k launch true a bs stamp).mem = (s.wrBytes a bs).mem := by
  obtain ⟨h1, h2⟩ := State.homeWrite_plain (bs := bs) (stamp := stamp) hm
  unfold State.putPart
  rw [if_neg (by rw [hl]; exact Bool.false_ne_true), if_pos rfl]
  exact ⟨(State.land_onPlot _ p (f := fun x => { x with near := nearUpdate x.near a bs }) (fun _ => rfl)).trans h1, h2⟩

end

/-! ## All the parts -/

/-- The bytes of a part. -/
def partBytes (bs : List Byte) (y : Piece) : List Byte := (bs.drop y.2.1).take y.2.2

theorem length_partBytes {bs : List Byte} {y : Piece} (h : y.2.1 + y.2.2 ≤ bs.length) : (partBytes bs y).length = y.2.2 := by
  rw [partBytes, List.length_take, List.length_drop]
  omega

theorem getD_partBytes {bs : List Byte} {y : Piece} {i : Nat} (hi : i < y.2.2) : (partBytes bs y).getD i 0 = bs.getD (y.2.1 + i) 0 := by
  simp only [partBytes, List.getD_eq_getElem?_getD, List.getElem?_take, List.getElem?_drop, if_pos hi]

/-- A part that lies in one granule, at a home of its own that is there. -/
def State.partFits (s : State) (n : Nat) (y : Piece) : Prop :=
  s.hostLost y.1 = false ∧ s.mirrorOf y.1 = none ∧ y.1 % 32 + y.2.2 ≤ 32 ∧ y.2.1 + y.2.2 ≤ n

theorem partFits_of_land {s u : State} (h : u.land = s.land) {n : Nat} {y : Piece} (hy : s.partFits n y) : u.partFits n y := by
  obtain ⟨h1, h2, h3, h4⟩ := hy
  exact ⟨(hostLost_of_land h _).trans h1, (mirrorOf_of_land h _).trans h2, h3, h4⟩

/-- An address outside a part. -/
def outside (b : Nat) (y : Piece) : Prop := b < y.1 ∨ y.1 + y.2.2 ≤ b

/-- Parts in granules of their own: each reads as written, and every other byte as before. -/
theorem State.putParts_writes {p k : Nat} {launch : BitVec 32} {bs : List Byte} {stamp : BitVec 3} {ps : List Piece} {s : State}
    (hwf : Memory.wf s.mem = true) (hf : ∀ y ∈ ps, s.partFits bs.length y) (hd : ps.Pairwise (fun y z => y.1 / 32 ≠ z.1 / 32)) :
    let u := s.putParts p k launch true bs stamp ps
    u.land = s.land ∧ (∀ b, (∀ y ∈ ps, outside b y) → memGet u.mem b = memGet s.mem b) ∧
      ∀ y ∈ ps, ∀ i < y.2.2, memGet u.mem (y.1 + i) = bs.getD (y.2.1 + i) 0 := by
  induction ps generalizing s with
  | nil => exact ⟨rfl, fun _ _ => rfl, fun y hy => absurd hy List.not_mem_nil⟩
  | cons y ps ih =>
    intro u
    obtain ⟨hl, hm, hgran, hin⟩ := hf y (List.mem_cons_self ..)
    obtain ⟨hland, hmem⟩ := State.putPart_home (p := p) (k := k) (launch := launch) (bs := partBytes bs y) (stamp := stamp) hl hm
    have hlen := length_partBytes hin
    obtain ⟨hhead, htail⟩ := List.pairwise_cons.1 hd
    obtain ⟨iland, iout, iin⟩ := ih (s := s.putPart p k launch true y.1 (partBytes bs y) stamp)
      (by rw [hmem]; exact State.wf_wrBytes _ _ _ hwf) (fun z hz => partFits_of_land hland (hf z (List.mem_cons_of_mem _ hz))) htail
    have hwr := fun b => (congrArg (fun m => memGet m b) hmem).trans (State.memGet_wrBytes (partBytes bs y) s y.1 b hwf)
    refine ⟨iland.trans hland, fun b hb => ?_, fun z hz i hi => ?_⟩
    · refine (iout b (fun z hz => hb z (List.mem_cons_of_mem _ hz))).trans ((hwr b).trans (if_neg ?_))
      rw [hlen]
      rcases hb y (List.mem_cons_self ..) with h | h <;> omega
    · rcases List.mem_cons.1 hz with rfl | hz
      · refine (iout _ (fun w hw => ?_)).trans ((hwr _).trans ?_)
        · have hne := hhead w hw
          obtain ⟨-, -, hw32, -⟩ := hf w (List.mem_cons_of_mem _ hw)
          unfold outside
          omega
        · rw [if_pos (by rw [hlen]; omega), Nat.add_sub_cancel_left, getD_partBytes hi]
      · exact iin z hz i hi

/-! ## The frame -/

theorem length_leBytes (x n : Nat) : (leBytes x n).length = n := by
  induction n generalizing x with
  | zero => rfl
  | succ n ih => rw [leBytes, List.length_cons, ih]

theorem length_flatMap_const {α β : Type} {f : α → List β} {n : Nat} (h : ∀ x, (f x).length = n) (xs : List α) : (xs.flatMap f).length = xs.length * n := by
  rw [List.length_flatMap, List.map_congr_left (fun x _ => h x), List.map_const', List.sum_replicate, smul_eq_mul]

theorem length_wordBytes (ws : List (BitVec 64)) : (wordBytes ws).length = ws.length * 8 := length_flatMap_const (fun _ => length_leBytes _ 8) ws

theorem Task.length_handleWords (t : Task) : t.handleWords.length = 24 := by
  unfold Task.handleWords
  dsimp only
  rw [List.length_append, List.length_replicate]
  have := List.length_take_le 24 (t.handles.map (·.2))
  omega

theorem length_frameHeader (t : Task) (bpc : BitVec 40) (c : Option CauseRec) (n : Nat) : (frameHeader t bpc c n).length = 32 := by
  unfold frameHeader
  dsimp only
  rw [List.length_append, t.length_handleWords]
  rfl

theorem length_savedPtr (q : Ptr) : (savedPtr q).length = 32 := by
  simp only [savedPtr, List.length_append, length_leBytes, List.length_singleton, List.length_replicate]

/-- A frame has 4,096 bytes (R223). -/
theorem State.length_frameBytes (s : State) (p k : Nat) (bpc : BitVec 40) (c : Option CauseRec) (w : WaitFor) : (s.frameBytes p k bpc c w).length = 4096 := by
  unfold State.frameBytes
  dsimp only
  simp only [List.length_append, length_wordBytes, length_frameHeader, length_leBytes, List.length_replicate, List.length_map, Vector.length_toList,
    List.length_range, length_flatMap_const length_savedPtr, length_flatMap_const (fun v : VReg => length_leBytes v.lanes.toNat 64)]
  rw [length_flatMap_const (n := 16) (fun v => by rw [List.length_map, List.length_range]), Vector.length_toList]

section
variable {s u : State} {p k : Nat} {l : Leaving} {d : Option (Ptr × Nat)} (ht : u.task p k = { s.task p k with leaving := l, saveTo := d })
  (hfu : (u.plot p).fu = (s.plot p).fu) (hmod : u.mod = s.mod) (hcyc : u.cycOf p = s.cycOf p) (hwt : u.wtimeOf p = s.wtimeOf p)
include ht hfu hmod hcyc hwt

theorem State.frameSys_congr {n : Nat} (hn : n < 0x11) : u.frameSys p k n = s.frameSys p k n := by
  have hname : u.nameOf p = s.nameOf p := by simp only [State.nameOf, hmod]
  have hfield : (u.plot p).fieldWord = (s.plot p).fieldWord := by simp only [Plot.fieldWord, hfu]
  have hword : Task.taskWord { s.task p k with leaving := l, saveTo := d } k = (s.task p k).taskWord k := rfl
  have hstrm : Task.strmWord { s.task p k with leaving := l, saveTo := d } = (s.task p k).strmWord := rfl
  have hsaved : Task.wtSaved { s.task p k with leaving := l, saveTo := d } = (s.task p k).wtSaved := rfl
  interval_cases n <;>
    simp only [State.frameSys, State.sysRead, ht, hname, hfield, hcyc, hwt, hword, hstrm, hsaved]

/-- What a frame says of its task does not tell of its leaving. -/
theorem State.frameBytes_congr (bpc : BitVec 40) (c : Option CauseRec) (w : WaitFor) : u.frameBytes p k bpc c w = s.frameBytes p k bpc c w := by
  have hsys : (List.range 0x11).map (u.frameSys p k) = (List.range 0x11).map (s.frameSys p k) :=
    List.map_congr_left (fun n hn => State.frameSys_congr ht hfu hmod hcyc hwt (List.mem_range.1 hn))
  have hhead : frameHeader { s.task p k with leaving := l, saveTo := d } bpc c 4 = frameHeader (s.task p k) bpc c 4 := rfl
  have hstrm : Task.strmWord { s.task p k with leaving := l, saveTo := d } = (s.task p k).strmWord := rfl
  have hseq : Task.seqOps { s.task p k with leaving := l, saveTo := d } = (s.task p k).seqOps := rfl
  unfold State.frameBytes
  dsimp only
  rw [hsys, ht, hhead, hstrm, hseq]

end

/-- A frame written: what its parts leave in memory, and that nothing else of memory or of a task's results changes. -/
theorem State.writeFrame_writes {s : State} {p k : Nat} {bpc : BitVec 40} {c : Option CauseRec} {w : WaitFor} {ps : List Piece}
    (hwf : Memory.wf s.mem = true) (hf : ∀ y ∈ ps, s.partFits 4096 y) (hd : ps.Pairwise (fun y z => y.1 / 32 ≠ z.1 / 32)) :
    let u := s.writeFrame p k bpc c w ps
    u.land = s.land ∧ (∀ b, (∀ y ∈ ps, outside b y) → memGet u.mem b = memGet s.mem b) ∧
      (∀ y ∈ ps, ∀ i < y.2.2, memGet u.mem (y.1 + i) = (s.frameBytes p k bpc c w).getD (y.2.1 + i) 0) ∧
      ∀ q j, (u.task q j).kept = (s.task q j).kept := by
  intro u
  obtain ⟨hland, hout, hin⟩ := State.putParts_writes (p := p) (k := k) (launch := (s.task p k).launch) (bs := s.frameBytes p k bpc c w) (stamp := 4) hwf
    (fun y hy => by rw [State.length_frameBytes]; exact hf y hy) hd
  have hside : ∀ {β : Type} (g : State → β), (∀ (s : State) a x, g (s.wrSide a x) = g s) →
      g u = g ((s.putParts p k (s.task p k).launch true (s.frameBytes p k bpc c w) 4 ps).noteSave p k w) := by
    intro β g hg
    refine foldl_keeps g _ _ (fun v i _ => ?_) _
    split
    · split
      · rfl
      · exact hg ..
    · rfl
  have hmem : u.mem = (s.putParts p k (s.task p k).launch true (s.frameBytes p k bpc c w) 4 ps).mem := hside State.mem (fun _ _ _ => State.mem_wrSide ..)
  refine ⟨(hside State.land (fun _ _ _ => State.land_wrSide ..)).trans hland, fun b hb => ?_, fun y hy i hi => ?_, fun q j => ?_⟩
  · rw [hmem]
    exact hout b hb
  · rw [hmem]
    exact hin y hy i hi
  · exact (hside (fun v : State => (v.task q j).kept) (fun v a x => kept_of_still (State.still_wrSide v a x) q j)).trans (State.kept_putParts s ..)

end Sys2Proof.Machine
end

