-- ==== Sys2Proof/Proofs/SaveForm.lean ====
section
/-! PROOFS. CTX.CSAVE as it performs (R194, R223, R224, R231). -/

namespace Sys2Proof.Machine

open Sys2Proof

/-! ## The slot on its way to its save -/

/-- The state in which a CSAVE has stopped slot j and waits for nothing. -/
def State.saveStart (s : State) (p k j : Nat) (o : Op) : State :=
  ((((s.dropBlock p j).withdraw p j).stamped p j).onTask p j
    (fun t => { t with leaving := .saving none t.bpc false, saveTo := some (o.act.ptr, o.pos) })).onOp p k o.serial (fun q => { q with queued := true })

/-- A task as a CSAVE stamps it: the instant of its save, and its stream counters then. -/
def State.stampedTask (s : State) (p : Nat) (x : Task) : Task := { x with causeWt := s.wtimeOf p, causeStrm := x.strmWord }

/-- A task whose save has begun. -/
def State.savingTask (s : State) (p : Nat) (o : Op) (x : Task) : Task :=
  { s.stampedTask p x with leaving := .saving none x.bpc false, saveTo := some (o.act.ptr, o.pos) }

section
variable {s : State} {p k j : Nat} {o : Op}

theorem State.still_drop (s : State) (p j : Nat) : ((s.dropBlock p j).withdraw p j).still = s.still :=
  (State.still_withdraw ..).trans (State.still_dropBlock ..)

theorem State.saveStart_land (s : State) (p k j : Nat) (o : Op) : (s.saveStart p k j o).land = s.land := by
  unfold State.saveStart State.onOp State.stamped State.onTask
  rw [State.land_setTask, State.land_setTask, State.land_setTask]
  exact land_of_still (State.still_drop s p j)

theorem State.saveStart_mod (s : State) (p k j : Nat) (o : Op) : (s.saveStart p k j o).mod = s.mod := congrArg Still.mod (State.still_drop s p j)

theorem State.saveStart_mem (s : State) (p k j : Nat) (o : Op) : (s.saveStart p k j o).mem = s.mem := congrArg Still.mem (State.still_drop s p j)

theorem State.saveStart_clocks (s : State) (p k j : Nat) (o : Op) : (s.saveStart p k j o).cycOf p = s.cycOf p ∧ (s.saveStart p k j o).wtimeOf p = s.wtimeOf p := by
  have hcyc := congrArg (fun v : Still => (v.dies (dieOf p)).cyc) (State.still_drop s p j)
  exact ⟨hcyc, wtimeOf_of_still (State.still_drop s p j) p⟩

theorem State.fu_onTask (s : State) (p k q : Nat) (f : Task → Task) : ((s.onTask p k f).plot q).fu = (s.plot q).fu :=
  State.onPlot_keeps Plot.fu s p q (fun _ => rfl)

theorem State.saveStart_fu (s : State) (p k j : Nat) (o : Op) (q : Nat) : ((s.saveStart p k j o).plot q).fu = (s.plot q).fu := by
  unfold State.saveStart State.stamped
  rw [State.fu_onOp, State.fu_onTask, State.fu_onTask]
  exact fu_of_still (State.still_drop s p j) q

variable (ht : ∀ y ∈ s.takes, y.plot ≠ p)
include ht

theorem untaken_of_plot (h : Bool) : s.taking p h = false := by
  unfold State.taking
  rw [List.any_eq_false]
  intro y hy hyp
  simp only [TakeRec.of, Bool.and_eq_true, beq_iff_eq] at hyp
  exact ht y hy hyp.1

/-- A block that has taken nothing goes without a trace in the tasks. -/
theorem State.task_drop (q i : Nat) : ((s.dropBlock p j).withdraw p j).task q i = s.task q i := by
  change (s.dropBlock p j).task q i = _
  cases hk : (s.plot p).halfOf j with
  | none =>
    unfold State.dropBlock
    rw [hk]
  | some h =>
    rw [State.dropBlock_untaken hk (untaken_of_plot ht h), State.task_setHalf]
    split
    · exact State.task_bump ..
    · rfl

theorem State.beside_saveStart : (s.saveStart p k j o).beside = s.beside := by
  refine beside_of_around ?_
  unfold State.saveStart State.onOp State.stamped
  rw [State.around_onTask Plot.placed_ignores, State.around_onTask Plot.placed_ignores, State.around_onTask Plot.placed_ignores,
    State.around_withdraw, State.around_dropBlock Plot.placed_ignores Plot.placed_setHalf (fun h _ => untaken_of_plot ht h)]

theorem State.task_saveStart_self (hj : j < 16) (hjk : j ≠ k) : (s.saveStart p k j o).task p j = s.savingTask p o (s.task p j) := by
  have hwt : ((s.dropBlock p j).withdraw p j).wtimeOf p = s.wtimeOf p := wtimeOf_of_still (State.still_drop s p j) p
  unfold State.saveStart State.onOp State.stamped
  rw [State.task_onTask, if_neg (fun e => hjk e.2.1), State.task_onTask, if_pos ⟨rfl, rfl, hj⟩, State.task_onTask, if_pos ⟨rfl, rfl, hj⟩,
    State.task_drop ht, hwt]
  rfl

theorem State.task_saveStart_issuer (hk : k < 16) (hjk : j ≠ k) : (s.saveStart p k j o).task p k =
    { s.task p k with ops := (s.task p k).ops.map (fun q => if q.serial == o.serial then { q with queued := true } else q) } := by
  unfold State.saveStart State.onOp State.stamped
  rw [State.task_onTask, if_pos ⟨rfl, rfl, hk⟩, State.task_onTask, if_neg (fun e => hjk e.2.1.symm), State.task_onTask, if_neg (fun e => hjk e.2.1.symm),
    State.task_drop ht]

end

/-! ## The save -/

/-- A task as it stands in its slot once its frame is written. -/
def Task.savedAs (t : Task) (bpc : BitVec 40) (d : Ptr × Nat) : Task :=
  { t with st := .saved, leaving := .no, ops := [], bpc := bpc, saveTo := none, frameAt := some d, strmSet := some t.strmWord,
           seqSet := some (BitVec.ofNat 6 t.seqOps) }

/-- A save that waits for nothing writes its frame where its CSAVE says. -/
theorem State.settle_saves {s : State} {p k : Nat} {c : Option CauseRec} {bpc : BitVec 40} {d : Ptr × Nat} {ps : List Piece}
    (hl : (s.task p k).leaving = .saving c bpc false) (hops : (s.task p k).ops = []) (hh : (s.task p k).hostOps = []) (hd : (s.task p k).saveTo = some d)
    (hps : s.partHomes (dieOf p) d.1 (piecesOf d.2 4096) = .ok ps) :
    s.settle p k = (s.writeFrame p k bpc c (s.task p k).wait ps).vacate p k ((s.task p k).savedAs bpc d) := by
  have hdest : s.saveDest p k = some d := by
    unfold State.saveDest
    rw [hd]
  unfold State.settle
  simp only [hl]
  rw [if_neg (by simp [Task.anyLate, hops, hh]), hdest]
  simp only [hps]
  rfl

theorem State.task_vacate_other {s : State} {p k q j : Nat} (t : Task) (h : ¬(q = p ∧ j = k)) : (s.vacate p k t).task q j = s.task q j := by
  unfold State.vacate
  rw [State.task_onPlot _ _ _ _ (fun x => { x with vacated := s.instant }) (fun _ => rfl), State.task_setTask, if_neg (fun e => h ⟨e.1, e.2.1⟩)]

theorem State.task_vacate_self {s : State} {p k : Nat} (t : Task) (hk : k < 16) : (s.vacate p k t).task p k = t := by
  unfold State.vacate
  rw [State.task_onPlot _ _ _ _ (fun x => { x with vacated := s.instant }) (fun _ => rfl), State.task_setTask, if_pos ⟨rfl, rfl, hk⟩]

theorem State.land_vacate (s : State) (p k : Nat) (t : Task) : (s.vacate p k t).land = s.land :=
  (State.land_onPlot (s.setTask p k t) p (f := fun x => { x with vacated := s.instant }) (fun _ => rfl)).trans (State.land_setTask ..)

/-- How a CSAVE ends whose frame is written: its operation is over, or it waits for the host agent's report. -/
theorem State.csaveDone_cases (s : State) (p k : Nat) (o : Op) : s.csaveDone p k o = s.finishOp p k o none ∨
    (∃ m, o.act.mx = some m ∧ s.csaveDone p k o = (s.hostAccepted p k o m).finishOp p k o none) ∨
    ∃ m, o.act.mx = some m ∧ m.scope = .host ∧ s.csaveDone p k o = s.onOp p k o.serial (fun q => { q with made := true }) := by
  unfold State.csaveDone
  split
  · rename_i m hm
    split
    · exact .inl rfl
    · split
      · rename_i hs
        exact .inr (.inr ⟨m, hm, by simpa using hs, rfl⟩)
      · exact .inr (.inl ⟨m, hm, rfl⟩)
  · exact .inl rfl

section
variable {s u : State} {p k j : Nat} {o : Op}

/-- What a CSAVE's end leaves of the other tasks and of memory. -/
theorem State.csaveDone_keeps (hl : (u.task p k).leaving = .no) (hjk : j ≠ k) :
    (u.csaveDone p k o).task p j = u.task p j ∧ (u.csaveDone p k o).land = u.land ∧ (u.csaveDone p k o).mem = u.mem := by
  have hfin : ∀ v : State, (v.task p k).leaving = .no → (v.finishOp p k o none).task p j = v.task p j ∧ (v.finishOp p k o none).land = v.land ∧
      (v.finishOp p k o none).mem = v.mem := by
    intro v hv
    obtain ⟨x, y, e⟩ := State.finishOp_eq o none hv
    rw [e, State.land_setTask, State.task_setTask, if_neg (fun e => hjk e.2.1)]
    exact ⟨rfl, rfl, rfl⟩
  have hon : ∀ f : Task → Task, (u.onTask p k f).task p j = u.task p j ∧ (u.onTask p k f).land = u.land ∧ (u.onTask p k f).mem = u.mem := fun f =>
    ⟨(State.task_onTask ..).trans (if_neg (fun e => hjk e.2.1)), State.land_setTask .., rfl⟩
  rcases u.csaveDone_cases p k o with e | ⟨m, -, e⟩ | ⟨m, -, -, e⟩
  · rw [e]
    exact hfin u hl
  · obtain ⟨h1, h2, h3⟩ := hon (fun t => { t with hostOps := t.hostOps ++ [(o.serial, m.stream)] })
    have hv : ((u.hostAccepted p k o m).task p k).leaving = .no := by
      unfold State.hostAccepted
      rw [State.task_onTask]
      split <;> exact hl
    obtain ⟨i1, i2, i3⟩ := hfin _ hv
    rw [e]
    exact ⟨i1.trans h1, i2.trans h2, i3.trans h3⟩
  · rw [e]
    exact hon _

/-- A CSAVE whose frame is written is over at any scope but host, where it may have to be reported. -/
theorem State.csaveDone_over {y : Op} {m : MX} (hk : k < 16) (hl : (u.task p k).leaving = .no) (hr : (u.task p k).regs = (s.task p k).regs)
    (ho : u.opOf p k o.serial = some y) (hy : y.act = o.act) (hm : o.act.mx = some m) :
    (m.scope ≠ .host → s.over (u.csaveDone p k o) p k o) ∧
    (s.over (u.csaveDone p k o) p k o ∨ ∃ y, (u.csaveDone p k o).opOf p k o.serial = some y ∧ y.act = o.act ∧ y.made = true) := by
  have hdone : ∀ {f : Prop}, s.over (u.csaveDone p k o) p k o → (m.scope ≠ .host → s.over (u.csaveDone p k o) p k o) ∧
      (s.over (u.csaveDone p k o) p k o ∨ f) := fun h => ⟨fun _ => h, .inl h⟩
  rcases u.csaveDone_cases p k o with e | ⟨m', -, e⟩ | ⟨m', hm', hs, e⟩
  · refine hdone ?_
    rw [e]
    exact over_of_regs hk hl hr
  · refine hdone ?_
    have hv : (u.hostAccepted p k o m').task p k = { u.task p k with hostOps := (u.task p k).hostOps ++ [(o.serial, m'.stream)] } :=
      (State.task_onTask ..).trans (if_pos ⟨rfl, rfl, hk⟩)
    rw [e]
    exact over_of_regs hk (by rw [hv]; exact hl) (by rw [hv]; exact hr)
  · obtain rfl : m = m' := Option.some.inj (hm.symm.trans hm')
    refine ⟨fun hn => absurd hs hn, .inr ⟨{ y with made := true }, ?_, hy, rfl⟩⟩
    rw [e]
    exact State.opOf_onOp hk ho (fun _ => rfl)

end

theorem inSteward_granule {a b : Nat} (h : a / 32 = b / 32) : inSteward a = inSteward b := by
  have h1 : spaceOf a = spaceOf b := by
    unfold spaceOf
    rw [show (2 : Nat) ^ 48 = 32 * 2 ^ 43 from rfl, ← Nat.div_div_eq_div_mul, ← Nat.div_div_eq_div_mul, h]
  have h2 : plotOfAddr a = plotOfAddr b := by
    unfold plotOfAddr
    rw [show (2 : Nat) ^ 32 = 32 * 2 ^ 27 from rfl, ← Nat.div_div_eq_div_mul, ← Nat.div_div_eq_div_mul, h]
  have h3 : decide (offOfAddr a < 0x100000) = decide (offOfAddr b < 0x100000) := by
    unfold offOfAddr
    refine decide_eq_decide.2 ?_
    omega
  unfold inSteward
  rw [h1, h2, h3]

section
variable {s : State} {p k j : Nat} {o : Op} {b : BitVec 64} (hj : (b.extractLsb' 0 4).toNat = j) (hmade : o.made = false) (hq : o.queued = false)
include hj hmade hq

/-- A CSAVE of the own slot, or of one that holds nothing to save, is refused. -/
theorem State.csaveEvent_refused (hbad : j = k ∨ (s.task p j).st = .free ∨ (s.task p j).st = .saved ∨ (s.task p j).leaving = .ended) :
    s.csaveEvent p k o b = s.deferFault p k o { cause := .priv } := by
  unfold State.csaveEvent
  simp only [hj, hmade, hq, Bool.false_eq_true, if_false, Bool.false_and, false_or]
  exact if_pos (by simpa using hbad)

variable (hjk : j ≠ k) (hf : (s.task p j).st ≠ .free) (hs : (s.task p j).st ≠ .saved) (hl : (s.task p j).leaving = .no)
include hjk hf hs hl

/-- A CSAVE waits for a block that is to end by itself. -/
theorem State.csaveEvent_waits (hw : (s.plot p).aborting j = true ∨ s.blockDue p j = true) : s.csaveEvent p k o b = s := by
  unfold State.csaveEvent
  simp only [hj, hmade, hq, Bool.false_eq_true, if_false, Bool.false_and, false_or]
  rw [if_neg (by simp [hjk, hf, hs, hl])]
  exact if_pos (by simpa using hw)

/-- A CSAVE that finds nothing to wait for. -/
theorem State.csaveEvent_saves (ha : (s.plot p).aborting j = false) (hd : s.blockDue p j = false) (hh : (s.task p j).halting = false) :
    s.csaveEvent p k o b = (let u := (s.saveStart p k j o).settle p j
      if (u.task p j).st == .saved then u.csaveDone p k o else u) := by
  unfold State.csaveEvent
  simp only [hj, hmade, hq, Bool.false_eq_true, if_false, Bool.false_and, false_or, ha, hd, Bool.or_self, hl, hh]
  rw [if_neg (by simp [hjk, hf, hs])]
  rfl

end

section
variable {s : State} {p k j : Nat} {o : Op} (ht : ∀ y ∈ s.takes, y.plot ≠ p)
include ht

/-- The frame that a CSAVE writes is that of the task as it stands stamped in its slot. -/
theorem State.saveStart_frameBytes (hj : j < 16) (hjk : j ≠ k) (bpc : BitVec 40) (c : Option CauseRec) (w : WaitFor) :
    (s.saveStart p k j o).frameBytes p j bpc c w = (s.setTask p j (s.stampedTask p (s.task p j))).frameBytes p j bpc c w := by
  have hclocks := State.saveStart_clocks s p k j o
  have hself := State.task_saveStart_self (o := o) ht hj hjk
  have hmod := State.saveStart_mod s p k j o
  have hfu := State.saveStart_fu s p k j o p
  generalize s.saveStart p k j o = u at hclocks hself hmod hfu ⊢
  have htask : (s.setTask p j (s.stampedTask p (s.task p j))).task p j = s.stampedTask p (s.task p j) :=
    (State.task_setTask ..).trans (if_pos ⟨rfl, rfl, hj⟩)
  have hown : ((s.setTask p j (s.stampedTask p (s.task p j))).plot p).fu = (s.plot p).fu := State.fu_onTask s p j p (fun _ => s.stampedTask p (s.task p j))
  have hcyc : (s.setTask p j (s.stampedTask p (s.task p j))).cycOf p = s.cycOf p := rfl
  have hwt : (s.setTask p j (s.stampedTask p (s.task p j))).wtimeOf p = s.wtimeOf p := rfl
  have hm : (s.setTask p j (s.stampedTask p (s.task p j))).mod = s.mod := rfl
  generalize s.setTask p j (s.stampedTask p (s.task p j)) = v at htask hown hcyc hwt hm ⊢
  refine State.frameBytes_congr (l := .saving none (s.task p j).bpc false) (d := some (o.act.ptr, o.pos)) ?_ (hfu.trans hown.symm) (hmod.trans hm.symm)
    (hclocks.1.trans hcyc.symm) (hclocks.2.trans hwt.symm) bpc c w
  rw [hself, htask]
  rfl

/-- A CSAVE whose slot waits for nothing writes the frame at once. -/
theorem State.settle_saveStart {ps : List Piece} (hj : j < 16) (hjk : j ≠ k) (hops : (s.task p j).ops = []) (hhost : (s.task p j).hostOps = [])
    (hps : s.partHomes (dieOf p) o.act.ptr (piecesOf o.pos 4096) = .ok ps) :
    (s.saveStart p k j o).settle p j = ((s.saveStart p k j o).writeFrame p j (s.task p j).bpc none (s.task p j).wait ps).vacate p j
      ((s.savingTask p o (s.task p j)).savedAs (s.task p j).bpc (o.act.ptr, o.pos)) := by
  have hself := State.task_saveStart_self (k := k) (o := o) ht hj hjk
  have he := State.settle_saves (s := s.saveStart p k j o) (p := p) (k := j) (c := none) (bpc := (s.task p j).bpc) (d := (o.act.ptr, o.pos)) (ps := ps)
    (by rw [hself]; rfl) (by rw [hself]; exact hops) (by rw [hself]; exact hhost) (by rw [hself]; rfl)
    (by rw [partHomes_of_beside (State.beside_saveStart ht)]; exact hps)
  rw [hself] at he
  exact he

end

section
variable {s : State} {p k j : Nat} {o : Op} {ps : List Piece} (h : s.performs p k o) (ht : ∀ y ∈ s.takes, y.plot ≠ p)
include h ht

/-- What the frame written and the slot given up leave of the task that issued the CSAVE. -/
theorem State.writeFrame_issuer {bpc : BitVec 40} {w : WaitFor} (t : Task) (hjk : j ≠ k)
    (hkept : (((s.saveStart p k j o).writeFrame p j bpc none w ps).task p k).kept = ((s.saveStart p k j o).task p k).kept) :
    let u := ((s.saveStart p k j o).writeFrame p j bpc none w ps).vacate p j t
    (u.task p k).leaving = .no ∧ (u.task p k).regs = (s.task p k).regs ∧ u.opOf p k o.serial = some { o with queued := true } := by
  intro u
  have htask : u.task p k = ((s.saveStart p k j o).writeFrame p j bpc none w ps).task p k := State.task_vacate_other t (fun e => hjk e.2.symm)
  have hres := results_of_kept hkept
  rw [← htask, State.task_saveStart_issuer ht h.1 hjk] at hres
  simp only [Task.results, Prod.mk.injEq] at hres
  obtain ⟨hregs, hos, -, hleave⟩ := hres
  refine ⟨hleave.trans (performs_leaving h), hregs, ?_⟩
  have hop : (s.onOp p k o.serial (fun q => { q with queued := true })).opOf p k o.serial = some { o with queued := true } :=
    State.opOf_onOp h.1 h.2.2.1 (fun _ => rfl)
  refine Eq.trans ?_ hop
  unfold State.opOf
  rw [hos, State.onOp, State.task_onTask, if_pos ⟨rfl, rfl, h.1⟩]

/-- The state in which a CSAVE has written its frame: memory holds it, and the slot is SAVED. -/
theorem State.saveStart_settles (hj : j < 16) (hjk : j ≠ k) (hops : (s.task p j).ops = []) (hhost : (s.task p j).hostOps = [])
    (hps : s.partHomes (dieOf p) o.act.ptr (piecesOf o.pos 4096) = .ok ps)
    (hf : ∀ y ∈ ps, s.partFits 4096 y) (hd : ps.Pairwise (fun y z => y.1 / 32 ≠ z.1 / 32)) (hwf : Memory.wf s.mem = true) :
    let x := s.task p j
    let frame := (s.setTask p j (s.stampedTask p x)).frameBytes p j x.bpc none x.wait
    let u := (s.saveStart p k j o).settle p j
    u.land = s.land ∧ (∀ b, (∀ y ∈ ps, outside b y) → memGet u.mem b = memGet s.mem b) ∧
      (∀ y ∈ ps, ∀ i < y.2.2, memGet u.mem (y.1 + i) = frame.getD (y.2.1 + i) 0) ∧
      u.task p j = (s.savingTask p o x).savedAs x.bpc (o.act.ptr, o.pos) ∧
      (u.task p k).leaving = .no ∧ (u.task p k).regs = (s.task p k).regs ∧ u.opOf p k o.serial = some { o with queued := true } := by
  intro x frame u
  have hland := State.saveStart_land s p k j o
  have hset : u = _ := State.settle_saveStart ht hj hjk hops hhost hps
  obtain ⟨wland, wout, win, wkept⟩ := State.writeFrame_writes (s := s.saveStart p k j o) (p := p) (k := j) (bpc := x.bpc) (c := none) (w := x.wait)
    (by rw [State.saveStart_mem]; exact hwf) (fun y hy => partFits_of_land hland (hf y hy)) hd
  rw [State.saveStart_frameBytes ht hj hjk] at win
  rw [State.saveStart_mem] at wout
  rw [hset]
  refine ⟨(State.land_vacate ..).trans (wland.trans hland), wout, win, ?_, State.writeFrame_issuer h ht _ hjk (wkept p k)⟩
  exact State.task_vacate_self _ hj

end

section
variable {s : State} {p k pick : Nat} {o : Op} {b : BitVec 64} (h : s.performs p k o)
include h

theorem csave_performs (hk : o.act.kind = .csave b) (hc : (s.plot p).ctxBefore o.serial b = false) :
    let does := s.does p k o pick
    let exactly := fun (t : State) => exec (.commitOpPerform p k o.serial pick) s = .next t
    let pos := o.act.ptr.start + o.act.ptr.cur.toNat
    let j := (b.extractLsb' 0 4).toNat
    let x := s.task p j
    (o.made = true → does (fun u => s.over u p k o)) ∧
    (o.made = false → o.queued = false → j = k ∨ x.st = .free ∨ x.st = .saved ∨ x.leaving = .ended → does (fun u => s.defers u p k o { cause := .priv })) ∧
    (o.made = false → o.queued = false → j ≠ k → x.st ≠ .free → x.st ≠ .saved → x.leaving = .no →
      ((s.plot p).aborting j = true ∨ s.blockDue p j = true → exactly s) ∧
      ((s.plot p).aborting j = false → s.blockDue p j = false → x.halting = false → x.ops = [] → x.hostOps = [] →
        ∀ ps m, o.act.mx = some m → s.partHomes (dieOf p) o.act.ptr (piecesOf pos 4096) = .ok ps → (∀ y ∈ s.takes, y.plot ≠ p) →
        (∀ y ∈ ps, s.hostLost y.1 = false ∧ s.mirrorOf y.1 = none ∧ 0 < y.2.2 ∧ y.1 % 32 + y.2.2 ≤ 32 ∧ y.2.1 + y.2.2 ≤ 4096 ∧
          inSteward y.1 = false) →
        ps.Pairwise (fun y z => y.1 / 32 ≠ z.1 / 32) → Memory.wf s.mem = true →
        let frame := (s.setTask p j { x with causeWt := s.wtimeOf p, causeStrm := x.strmWord }).frameBytes p j x.bpc none x.wait
        does (fun u => (∀ y ∈ ps, ∀ i < y.2.2, u.rdByte (y.1 + i) = frame.getD (y.2.1 + i) 0) ∧
          (∀ b, (∀ y ∈ ps, b < y.1 ∨ y.1 + y.2.2 ≤ b) → u.rdByte b = s.rdByte b) ∧
          (u.task p j).st = .saved ∧ (u.task p j).frameAt = some (o.act.ptr, pos) ∧ (u.task p j).regs = x.regs ∧
          (m.scope ≠ .host → s.over u p k o) ∧
          (s.over u p k o ∨ ∃ y, u.opOf p k o.serial = some y ∧ y.act = o.act ∧ y.made = true)))) := by
  intro does exactly pos j x
  have hm : o.act.kind.isMem = false := by rw [hk]; rfl
  have hp : s.performAt p k o pick = s.csaveEvent p k o b := by
    simp only [State.performAt, hk, hc]
    exact if_neg Bool.false_ne_true
  refine ⟨fun hmade => ?_, fun hmade hq hbad => ?_, fun hmade hq hjk hfree hsaved hleave => ⟨fun hwait => ?_, ?_⟩⟩
  · exact does_of_performAt h hm (hp.trans (if_pos hmade)) (over_of_finishOp h rfl)
  · exact does_defers h hm (hp.trans (State.csaveEvent_refused rfl hmade hq hbad))
  · exact exactly_of_performAt h hm (hp.trans (State.csaveEvent_waits rfl hmade hq hjk hfree hsaved hleave hwait))
  · intro ha hd hhalt hops hhost ps m hmx hps ht hf hdis hwf frame
    obtain ⟨hland, hout, hin, hself, hl, hregs, hop⟩ := State.saveStart_settles h ht (b.extractLsb' 0 4).isLt hjk hops hhost hps
      (fun y hy => ⟨(hf y hy).1, (hf y hy).2.1, (hf y hy).2.2.2.1, (hf y hy).2.2.2.2.1⟩) hdis hwf
    have he := hp.trans (State.csaveEvent_saves rfl hmade hq hjk hfree hsaved hleave ha hd hhalt)
    dsimp only at he
    rw [if_pos (by rw [hself]; rfl)] at he
    obtain ⟨ktask, kland, kmem⟩ := State.csaveDone_keeps (o := o) hl hjk
    obtain ⟨hover, hend⟩ := State.csaveDone_over (s := s) h.1 hl hregs hop rfl hmx
    refine does_of_performAt h hm he ⟨fun y hy i hi => ?_, fun c hcout => ?_, ?_, ?_, ?_, hover, hend⟩
    · obtain ⟨-, -, -, hgran, -, hst⟩ := hf y hy
      rw [State.rdByte_mem (by rw [inSteward_granule (b := y.1) (by omega)]; exact hst), kmem]
      exact hin y hy i hi
    · cases hst : inSteward c with
      | true => exact rdByte_of_land (kland.trans hland) hst
      | false =>
        rw [State.rdByte_mem hst, State.rdByte_mem hst, kmem]
        exact hout c hcout
    · rw [ktask, hself]
      rfl
    · rw [ktask, hself]
      rfl
    · rw [ktask, hself]
      rfl

end

end Sys2Proof.Machine
end

