-- ==== Sys2Proof/Proofs/TaskAndSystemForms.lean ====
section
/-! PROOFS. The task, context, cache, table and HALTC forms: what each captures, and what it does as it performs (O32). -/

namespace Sys2Proof.Machine

open Sys2Proof

/-! ## In the slot -/

section
variable {s : State} {cx : Cx} {p : Pred} {d : Dst} {mx : MX} {a b c : Opnd} {x y : BitVec 64} {q : Ptr}

theorem asks_inva (hr : s.runs cx p) (ha : cx.int a = .val x) : Asks s cx (.otcInva p a) { kind := .inva } :=
  asks_int (f := fun _ => .inva) hr ha rfl nofun

theorem Task.epri_toNat (t : Task) (now : BitVec 64) :
    t.epri now = if t.st = .ready then min 7 (t.pri.toNat + (now - t.since).toNat / 4096) else t.pri.toNat := by
  unfold Task.epri
  simp only [beq_iff_eq]

/-- TSTAT gives the fields of a slot, 0 of a slot number above 15. -/
theorem tstat_word (hr : s.runs cx p) (hf : cx.free { dst := d }) (ha : cx.int a = .val x) :
    ∃ w : BitVec 64, Gives s cx (.taskTstat p d a) d (.int w) ∧ (15 < x.toNat → w = 0) ∧
      (x.toNat ≤ 15 →
        let t := s.task cx.p x.toNat
        let waited := ((s.die (dieOf cx.p)).cyc - t.since).toNat
        (w.extractLsb' 0 4).toNat = t.st.code.toNat ∧ (w.extractLsb' 4 4).toNat = t.pri.toNat ∧
        (w.extractLsb' 8 4).toNat = (if t.st = .ready then min 7 (t.pri.toNat + waited / 4096) else t.pri.toNat) ∧
        (w.extractLsb' 12 3).toNat = t.wait.kind ∧ w.getLsbD 15 = decide (t.pend ≠ 0) ∧ w.extractLsb' 16 16 = t.wake ∧
        w.extractLsb' 32 32 = 0) := by
  refine ⟨_, gives_tstat hr hf ha, fun h => if_pos h, fun h => ?_⟩
  rw [if_neg (Nat.not_lt.2 h)]
  obtain ⟨hst, hpri, hepri, hrest⟩ := (s.task cx.p x.toNat).statWord_fields (s.cycOf cx.p)
  exact ⟨hst, hpri, hepri.trans (Task.epri_toNat ..), hrest⟩

end

/-! ## TBLW as it performs -/

section
variable {s : State} {p k : Nat} {o : Op} {kind : TblKind} {b : BitVec 64}

theorem State.tblwEvent_wait
    (hl : s.partHomesBy false (dieOf p) o.act.ptr (piecesOf (o.act.ptr.start + o.act.ptr.cur.toNat) (8 * tblwCount kind b)) = .wait) :
    s.tblwEvent p k o kind b = s := by
  unfold State.tblwEvent
  dsimp only
  rw [hl]

theorem State.tblwEvent_bad {c : CauseRec}
    (hl : s.partHomesBy false (dieOf p) o.act.ptr (piecesOf (o.act.ptr.start + o.act.ptr.cur.toNat) (8 * tblwCount kind b)) = .bad c) :
    s.tblwEvent p k o kind b = s.deferFault p k o c := by
  unfold State.tblwEvent
  dsimp only
  rw [hl]

end

section
variable {s : State} {p k pick : Nat} {o : Op} {kind : TblKind} {b : BitVec 64} (h : s.performs p k o)
include h

theorem tblw_performs (hk : o.act.kind = .tblw kind b) :
    let does := s.does p k o pick
    let exactly := fun (t : State) => exec (.commitOpPerform p k o.serial pick) s = .next t
    let defers := fun (c : CauseRec) => does (fun u => s.defers u p k o c)
    let n := tblwCount kind b
    let looks := s.partHomesBy false (dieOf p) o.act.ptr (piecesOf (o.act.ptr.start + o.act.ptr.cur.toNat) (8 * n))
    (looks = .wait → exactly s) ∧ (∀ c, looks = .bad c → defers c) ∧
    ∀ ps, looks = .ok ps → ps.find? (fun y => !isHost y.1 && (s.sideAt y.1).poison) = none → (∀ y ∈ ps, s.hostLost y.1 = false) →
      let words := tblwWords n (ps.flatMap (fun y => s.rdBytes y.1 y.2.2))
      (s.tblwOk kind b words = false → defers { cause := .priv }) ∧
      (s.tblwOk kind b words = true →
        (kind = .heat → does (fun u => s.over u p k o ∧ ∀ w, words = [w] → u.mod.thi = w.extractLsb' 0 8 ∧ u.mod.tlo = w.extractLsb' 8 8)) ∧
        (kind = .route → does (fun u => s.over u p k o ∧ ∀ i < n,
          (u.plot (b.toNat / 2 ^ 32 % 2 ^ 16)).route (b.toNat % 256 + i) = (words.getD i 0).extractLsb' 0 12)) ∧
        (kind = .admc → does (fun u => s.over u p k o ∧ ∀ w, words = [w] →
          let q := w.toNat % 2 ^ 16
          let port := fun (u : State) => u.admPort q (w.getLsbD 16)
          (port u).ocap = (w.extractLsb' 17 11).toNat ∧ (port u).pcap = (port s).pcap ∧ (port u).cnt = min (port s).cnt (port u).ecap)) ∧
        (kind = .name → exactly ((s.tblwApply .name b words).finishOp p k o none))) := by
  intro does exactly defers n looks
  have hm : o.act.kind.isMem = false := by rw [hk]; rfl
  have hp : s.performAt p k o pick = s.tblwEvent p k o kind b := by simp only [State.performAt, hk]
  refine ⟨fun hl => exactly_of_performAt h hm (hp.trans (State.tblwEvent_wait hl)),
    fun c hl => does_defers h hm (hp.trans (State.tblwEvent_bad hl)), fun ps hl hpoison hhost => ?_⟩
  intro words
  have he := State.tblwEvent_read (p := p) (k := k) hl hpoison hhost
  refine ⟨fun hbad => does_defers h hm (hp.trans (he.trans (if_neg (by rw [hbad]; exact Bool.false_ne_true)))), fun hok => ?_⟩
  have hgood := he.trans (if_pos hok)
  refine ⟨?_, ?_, ?_, ?_⟩
  · rintro rfl
    refine does_tblw h hk nofun hgood (fun w hw => ?_)
    rw [show tblwWords _ _ = [w] from hw]
    exact tblw_heat h w
  · rintro rfl
    exact does_tblw h hk nofun hgood (fun i hi => tblw_route h (by rw [length_tblwWords]; exact hi))
  · rintro rfl
    refine does_tblw h hk nofun hgood (fun w hw => ?_)
    rw [show tblwWords _ _ = [w] from hw]
    exact tblw_admc h w
  · rintro rfl
    exact exactly_of_performAt h hm (hp.trans hgood)

end

/-- Settles O32: each form's capture, each operation's effect by its own lemma, and TASK.SPRI at the commit. -/
theorem taskAndSystemForms : Obligations.TaskAndSystemForms := by
  unfold Obligations.TaskAndSystemForms
  refine ⟨?_, ?_, fun s t p k h cx x b hr hs ha hx hf => exec_spri hr hs ha hx hf⟩
  · intro s cx p d mx a b c x y q hr hf ha hb hc
    exact ⟨asks_taskSpawn hr hf ha hb, asks_capture2 hr ha hb rfl nofun, asks_capture2 hr ha hb rfl nofun,
      asks_ptrInt hr hc hb rfl nofun, asks_ptrInt hr hc hb rfl nofun, asks_int hr ha rfl nofun, asks_inva hr ha,
      asks_capture2 hr ha hb rfl nofun, asks_ptrInt hr hc hb rfl nofun, asks_ptrInt hr hc hb rfl nofun, asks_ptrInt hr hc hb rfl nofun,
      asks_ptrInt hr hc hb rfl nofun, asks_int hr ha rfl nofun, tstat_word hr hf ha⟩
  · intro s p k pick o h
    refine ⟨fun a b hk => ⟨does_spawn_none h hk, fun j hj hfree hlow => does_spawn h hk hj hfree hlow⟩,
      fun a b hk => ⟨does_wake_beyond h hk, does_wake h hk⟩, fun b hk hc => csave_performs h hk hc, fun b hk hc => crest_performs h hk hc, ?_, ?_,
      fun a b hk => pin_performs h hk, fun kind b hk => tblw_performs h hk, fun a hk => haltc_performs h hk⟩
    · intro a hk
      obtain ⟨hwait, hdone⟩ := inv_performs (pick := pick) h (f := fun x => x == a.extractLsb' 0 24) (g := nodeOf (a.extractLsb' 0 24))
        (by rw [hk]; rfl) (by simp only [State.performAt, hk])
      refine ⟨hwait, fun hn => ?_⟩
      obtain ⟨u, he, hover, hdie⟩ := hdone hn
      exact ⟨u, he, hover, fun d => by rw [hdie]; exact ⟨rfl, rfl⟩⟩
    · intro hk
      obtain ⟨hwait, hdone⟩ := inv_performs (pick := pick) h (f := fun _ => true) (g := fun _ => true)
        (by rw [hk]; rfl) (by simp only [State.performAt, hk])
      refine ⟨hwait, fun hn => ?_⟩
      obtain ⟨u, he, hover, hdie⟩ := hdone hn
      exact ⟨u, he, hover, fun d => by rw [hdie]; simp [Die.without]⟩

end Sys2Proof.Machine
end
